-- ==== Sys2Proof/Word.lean ====
section
/-! DEFINITION. The machine's word types (spec/00_scope.md R5, spec/08 R131): a register of one lane is 32 bits, a
byte is 8, a register pair is 64, a cache line is 64 bytes (R8). -/

namespace Sys2Proof

/-- One register of one lane (R26). -/
abbrev Word := BitVec 32

/-- One byte of memory (R5). -/
abbrev Byte := BitVec 8

/-- A register pair, a program counter or an address (R5, R38). -/
abbrev DWord := BitVec 64

/-- One bit for each lane of a wave, bit i for lane i (R5). -/
abbrev LaneMask := BitVec 32

/-- The 64 bytes of a cache line, byte i in bits [8i+7:8i] (R5, R8). -/
abbrev Line := BitVec 512

end Sys2Proof
end

