-- ==== Sys2Proof/Config.lean ====
section
/-! DEFINITION. What an implementation fixes and the free values: constants with no body, so that no proof can see what
they are. A free value that may differ from one use to the next takes the counter State.fresh as its first argument
(notes/assumptions/3.md). -/

namespace Sys2Proof.Config

/-- Which of the allowed values a racing read or landing takes (R35, R111, R204): use, lane, register or word. -/
opaque freePick : Nat → Nat → Nat → Nat

/-- Which of several allowed choices a unit makes on its own while a chain acts: a line to evict, a wait to serve (R106, R111,
R173, R184): use, unit, choices. -/
opaque freeChoice : Nat → Nat → Nat → Nat

/-- How many cycles a core counts between two chains that it issues (R18, R19, R99, R295): step, core. -/
opaque freeCycle : Nat → Nat → Word

/-- Where in its allowed interval the result of a transcendental form lies (R156): form, operand. -/
opaque transcendental : Nat → Word → Nat

/-- The digest of a firmware image or key in an attestation report (R388): which digest, byte. -/
opaque digestByte : Nat → Nat → Byte

/-- The Falcon-1024 signature of an attestation report (R388): its length in bytes, then its bytes, by use. -/
opaque signatureLength : Nat → Nat

/-- One byte of that signature: use, index. -/
opaque signatureByte : Nat → Nat → Byte

/-- The register and tensor values a sweep or a free value of an engine takes: use, index. -/
opaque freeWord : Nat → Nat → Word

/-- Which cluster of its home die a line's atomics go to (R211): line. -/
opaque groomHash : Nat → Nat

/-- Where the const section of the object lies whose code section is loaded at an address, in units of the 65,536 bytes that the
loader aligns sections to (R287, R290): context, code base. -/
opaque constBase : Nat → Nat → Nat

end Sys2Proof.Config
end

