-- ==== Sys2Proof/Machine/Flags.lean ====
section
/-! DEFINITION. The sticky flags of XSTAT (spec/05 R99) and the fields of FMODE (spec/08 R134). -/

namespace Sys2Proof.Machine

/-- Flags raised, in the bit order of XSTAT (R99). -/
abbrev Flags := BitVec 7

def flagIV : Flags := 1
def flagDZ : Flags := 2
def flagOF : Flags := 4
def flagUF : Flags := 8
def flagIX : Flags := 16
def flagFV : Flags := 32
def flagSA : Flags := 64

/-- A flag raised on a condition. -/
def when (c : Bool) (f : Flags) : Flags := if c then f else 0

end Sys2Proof.Machine
end

