-- ==== Sys2Proof/Syntax.lean ====
section
/-! DEFINITION. The syntax of the machine: the operand types and the ONE inductive Instr, a constructor for every row of
spec/opcode_table.json: the 199 instruction words (spec/04_opcode_map.md R68 to R73, R80) and the 94 events of the
table, whose arguments say which unit the event strikes (spec/95). The C and W bits of a word are not part of the
operation (R43): they stand in Slot of Decode.lean. -/

namespace Sys2Proof

/-- A register of a 7-bit register field (R49): v0 to v95 or s0 to s31. -/
inductive Reg where
  | v (n : Fin 96)
  | s (n : Fin 32)
  deriving DecidableEq, Repr

/-- A lane-mask register k0 to k11 (R49). -/
abbrev Mask := Fin 12

/-- The n operand of TQWAIT, 0 to 64 (R344). -/
abbrev TqCount := Fin 65

/-- The conditions of CMP.i and CMP.n (R90). -/
inductive ICond where
  | eq | ne | lt | le | gt | ge
  deriving DecidableEq, Repr

/-- The conditions of CMP.f32 and CMP.f64 (R91). -/
inductive FCond where
  | eq | ne | lt | le | gt | ge | un | ord
  deriving DecidableEq, Repr

/-- The conditions of CMP.64: signed (cc 0 to 5) and unsigned (cc 8 to 13) (R90). -/
inductive LCond where
  | eq | ne | lt | le | gt | ge | eqn | nen | ltn | len | gtn | gen
  deriving DecidableEq, Repr

/-- How a compare combines with the old mask bit (R90). -/
inductive Combine where
  | set | and | or | andn
  deriving DecidableEq, Repr

/-- The operation of SHI (R89). -/
inductive ShiOp where
  | shl | shr | sar | rol
  deriving DecidableEq, Repr

/-- The conversion formats (R77). -/
inductive CvFmt where
  | f32 | f64 | f16 | bf16 | e4m3 | e5m2 | i32 | n32 | i64 | n64 | i16 | n16 | i8 | n8 | e8m0
  deriving DecidableEq, Repr

/-- The rounding select of CVT and CVTS (R162). -/
inductive CvRound where
  | mode | rne | rz | sto
  deriving DecidableEq, Repr

/-- Access widths (R104). -/
inductive Width where
  | b8 | b16 | b32 | b64 | b128 | b256
  deriving DecidableEq, Repr

/-- Scopes, narrowest first (spec/00, R187). -/
inductive Scope where
  | wave | wg | gang | sect | die | pkg | sys
  deriving DecidableEq, Repr

/-- Order halves of an access (R107). -/
inductive Ord where
  | plain | acq | rel | acqrel
  deriving DecidableEq, Repr

/-- The cache field (R108). -/
inductive CachePol where
  | dflt | pass | stream | last
  deriving DecidableEq, Repr

/-- Full-empty qualifiers of LDSP (R110). -/
inductive LoadFe where
  | plain | waitkeep | waittake
  deriving DecidableEq, Repr

/-- Full-empty qualifiers of STSP (R110). -/
inductive StoreFe where
  | plain | fill | waitfill | clear
  deriving DecidableEq, Repr

/-- Atomic operations (R210). -/
inductive AtomOp where
  | add | mini | maxi | minn | maxn | and | or | xor | xchg | cas | inc | dec
  deriving DecidableEq, Repr

/-- Atomic operand types (R209). -/
inductive AtomTy where
  | b32 | b64 | f32 | f64
  deriving DecidableEq, Repr

/-- The slots of a packet (R38). -/
inductive SlotNo where
  | one | two | three
  deriving DecidableEq, Repr

/-- The floor of a schuss group (R113). -/
inductive Floor where
  | f0 | f1 | f2 | f3 | f4 | f5
  deriving DecidableEq, Repr

/-- Register grants T = 32 + 16g (R26, R275). -/
inductive Grant where
  | t32 | t48 | t64 | t80 | t96
  deriving DecidableEq, Repr

/-- The queues LIFTST names: four lift queues and the binning work (R341). -/
inductive StQueue where
  | q0 | q1 | q2 | q3 | bin
  deriving DecidableEq, Repr

/-- The control registers (R99). -/
inductive CtlReg where
  | lane | wave | wgid | gangid | gangxyz | core | cluster | sector | die | feat | capreg | fmode | xstat | prog | trapbase | trapframe | trapen | task | cycle
  deriving DecidableEq, Repr

/-- The bits [26:0] of a word of majors 0x39 to 0x3E (R80): the low three bits of the major, 1 to 6, and bits [23:0]. -/
structure UnimplBits where
  major : Fin 6
  rest  : BitVec 24
  deriving DecidableEq, Repr

/-- The cache a line is evicted from (R173), for the event CACHE_EVICTION. -/
inductive CacheLevel where
  | l1 | sector | home
  deriving DecidableEq, Repr

/-- What arrives for a context's cluster state (R272). -/
inductive ArrivalItem where
  | flip (rink stage : Nat)
  | fill (granule : Nat)
  | monitor (line : Nat)
  deriving DecidableEq, Repr

/-- The traffic classes of a flow (R203). -/
inductive FlowClass where
  | request | publish | response | bulk
  deriving DecidableEq, Repr

/-- Where a spare row is brought in (R385); the last names the unit behind a FEAT bit of a die, whose spares are then spent
(R265). -/
inductive RepairUnit where
  | regFile (core : Nat) | scratchpad (cluster : Nat) | cache (level : CacheLevel) (unit : Nat) | homeWays (die : Nat)
  | feature (die : Nat) (bit : Fin 7)
  deriving DecidableEq, Repr

/-- The life-cycle states (R389). -/
inductive LifeCycle where
  | blank | develop | production | ret | scrapped
  deriving DecidableEq, Repr

/-- What the host does with a device line through CXL.cache (R207): take a copy, update the line, or give the copy up. -/
inductive HostReq where
  | take | update (data : List Byte) | giveUp
  deriving DecidableEq, Repr

/-- The type and the operation of a REDUCE, or an ALLGATHER, with its count or length (R313, R315). -/
structure CollDesc where
  reduce : Bool
  ty     : Nat
  op     : Nat
  count  : Nat
  deriving DecidableEq, Repr

/-- The instructions and events of spec/opcode_table.json, one constructor for each row, in the table's order. -/
inductive Instr where
  /-- NOP (R276): Does nothing. -/
  | nop
  /-- PAUSE (R276): Leaves the issuing PC group with no ready word for n cycles. -/
  | pause (n : BitVec 8)
  /-- ADD (R83): D = A + B modulo 2^32. -/
  | add (d : Reg) (a : Reg) (b : Reg)
  /-- SUB (R83): D = A - B modulo 2^32. -/
  | sub (d : Reg) (a : Reg) (b : Reg)
  /-- MULLO (R83): D = low 32 bits of A x B. -/
  | mullo (d : Reg) (a : Reg) (b : Reg)
  /-- MULHI_I (R83): D = high 32 bits of the signed product. -/
  | mulhiI (d : Reg) (a : Reg) (b : Reg)
  /-- MIN_I (R83): D = signed minimum of A and B. -/
  | minI (d : Reg) (a : Reg) (b : Reg)
  /-- MAX_I (R83): D = signed maximum of A and B. -/
  | maxI (d : Reg) (a : Reg) (b : Reg)
  /-- ADDS_I (R83): Signed saturating add; sets SA on clamp. -/
  | addsI (d : Reg) (a : Reg) (b : Reg)
  /-- SUBS_I (R83): Signed saturating subtract; sets SA on clamp. -/
  | subsI (d : Reg) (a : Reg) (b : Reg)
  /-- MULHI_N (R83): D = high 32 bits of the unsigned product. -/
  | mulhiN (d : Reg) (a : Reg) (b : Reg)
  /-- MIN_N (R83): D = unsigned minimum of A and B. -/
  | minN (d : Reg) (a : Reg) (b : Reg)
  /-- MAX_N (R83): D = unsigned maximum of A and B. -/
  | maxN (d : Reg) (a : Reg) (b : Reg)
  /-- ADDS_N (R83): Unsigned saturating add; sets SA on clamp. -/
  | addsN (d : Reg) (a : Reg) (b : Reg)
  /-- SUBS_N (R83): Unsigned saturating subtract; sets SA on clamp. -/
  | subsN (d : Reg) (a : Reg) (b : Reg)
  /-- ABSD_I (R83): D = absolute signed difference. -/
  | absdI (d : Reg) (a : Reg) (b : Reg)
  /-- ABSD_N (R83): D = absolute unsigned difference. -/
  | absdN (d : Reg) (a : Reg) (b : Reg)
  /-- AVG_N (R83): D = rounded-up unsigned average. -/
  | avgN (d : Reg) (a : Reg) (b : Reg)
  /-- AND (R86): D = A AND B. -/
  | and (d : Reg) (a : Reg) (b : Reg)
  /-- OR (R86): D = A OR B. -/
  | or (d : Reg) (a : Reg) (b : Reg)
  /-- XOR (R86): D = A XOR B. -/
  | xor (d : Reg) (a : Reg) (b : Reg)
  /-- ANDN (R86): D = A AND NOT B. -/
  | andn (d : Reg) (a : Reg) (b : Reg)
  /-- ORN (R86): D = A OR NOT B. -/
  | orn (d : Reg) (a : Reg) (b : Reg)
  /-- XNOR (R86): D = NOT (A XOR B). -/
  | xnor (d : Reg) (a : Reg) (b : Reg)
  /-- NAND (R86): D = NOT (A AND B). -/
  | nand (d : Reg) (a : Reg) (b : Reg)
  /-- NOR (R86): D = NOT (A OR B). -/
  | nor (d : Reg) (a : Reg) (b : Reg)
  /-- SHL (R87): D = A shifted left by B[4:0]. -/
  | shl (d : Reg) (a : Reg) (b : Reg)
  /-- SHR (R87): D = A shifted right, zero-filled. -/
  | shr (d : Reg) (a : Reg) (b : Reg)
  /-- SAR (R87): D = A shifted right, sign-filled. -/
  | sar (d : Reg) (a : Reg) (b : Reg)
  /-- ROL (R87): D = A rotated left. -/
  | rol (d : Reg) (a : Reg) (b : Reg)
  /-- ROR (R87): D = A rotated right. -/
  | ror (d : Reg) (a : Reg) (b : Reg)
  /-- FSHL (R87): Funnel shift left of D:A, keeping the high word. -/
  | fshl (d : Reg) (a : Reg) (b : Reg)
  /-- FSHR (R87): Funnel shift right of A:D, keeping the low word. -/
  | fshr (d : Reg) (a : Reg) (b : Reg)
  /-- POPC (R88): D = number of one bits in A. -/
  | popc (d : Reg) (a : Reg)
  /-- CLZ (R88): D = leading zero count of A. -/
  | clz (d : Reg) (a : Reg)
  /-- CTZ (R88): D = trailing zero count of A. -/
  | ctz (d : Reg) (a : Reg)
  /-- BREV (R88): D = A with its bit order reversed. -/
  | brev (d : Reg) (a : Reg)
  /-- BSWAP (R88): D = A with its byte order reversed. -/
  | bswap (d : Reg) (a : Reg)
  /-- BFX (R88): Extracts a bit field of A described by B. -/
  | bfx (d : Reg) (a : Reg) (b : Reg)
  /-- BFI (R88): Inserts a field of A into D as described by B. -/
  | bfi (d : Reg) (a : Reg) (b : Reg)
  /-- ADD_64 (R85): 64-bit add of register pairs. -/
  | add64 (d : Reg) (a : Reg) (b : Reg)
  /-- SUB_64 (R85): 64-bit subtract of register pairs. -/
  | sub64 (d : Reg) (a : Reg) (b : Reg)
  /-- MUL_64 (R85): Low 64 bits of a 64-bit product. -/
  | mul64 (d : Reg) (a : Reg) (b : Reg)
  /-- SHL_64 (R85): 64-bit shift left by B[5:0]. -/
  | shl64 (d : Reg) (a : Reg) (b : Reg)
  /-- SHR_64 (R85): 64-bit zero-filled shift right. -/
  | shr64 (d : Reg) (a : Reg) (b : Reg)
  /-- SAR_64 (R85): 64-bit sign-filled shift right. -/
  | sar64 (d : Reg) (a : Reg) (b : Reg)
  /-- MIN_64 (R85): 64-bit signed minimum. -/
  | min64 (d : Reg) (a : Reg) (b : Reg)
  /-- MAX_64 (R85): 64-bit signed maximum. -/
  | max64 (d : Reg) (a : Reg) (b : Reg)
  /-- ADDI (R89): D = A + sext(i10). -/
  | addi (d : Reg) (a : Reg) (i : BitVec 10)
  /-- ANDI (R89): D = A AND sext(i10). -/
  | andi (d : Reg) (a : Reg) (i : BitVec 10)
  /-- ORI (R89): D = A OR sext(i10). -/
  | ori (d : Reg) (a : Reg) (i : BitVec 10)
  /-- XORI (R89): D = A XOR sext(i10). -/
  | xori (d : Reg) (a : Reg) (i : BitVec 10)
  /-- SHI (R89): Shift or rotate of A by an immediate count, operation from i10[9:8]. -/
  | shi (d : Reg) (a : Reg) (o : ShiOp) (n : BitVec 5)
  /-- MULI (R89): D = low 32 bits of A x sext(i10). -/
  | muli (d : Reg) (a : Reg) (i : BitVec 10)
  /-- LI (R89): D = sext(i17). -/
  | li (d : Reg) (i : BitVec 17)
  /-- LIH (R89): D[31:15] = i17, D[14:0] unchanged. -/
  | lih (d : Reg) (i : BitVec 17)
  /-- CMP_I (R90): Signed compare into each thread's bit of kd, with combine. -/
  | cmpI (q : ICond) (k : Mask) (x : Combine) (a : Reg) (b : Reg)
  /-- CMP_N (R90): Unsigned compare into each thread's bit of kd. -/
  | cmpN (q : ICond) (k : Mask) (x : Combine) (a : Reg) (b : Reg)
  /-- CMP_F32 (R91): Binary32 compare into each thread's bit of kd. -/
  | cmpF32 (q : FCond) (k : Mask) (x : Combine) (a : Reg) (b : Reg)
  /-- CMP_F64 (R91): Binary64 compare of pairs into kd. -/
  | cmpF64 (q : FCond) (k : Mask) (x : Combine) (a : Reg) (b : Reg)
  /-- CMP_64 (R90): 64-bit signed or unsigned compare of pairs into kd. -/
  | cmp64 (q : LCond) (k : Mask) (x : Combine) (a : Reg) (b : Reg)
  /-- CMOV (R92): D = A in threads whose bit of k XOR n is 1. -/
  | cmov (k : Mask) (n : Bool) (d : Reg) (a : Reg)
  /-- FADD (R154): Binary32 addition, rounded by FMODE. -/
  | fadd (d : Reg) (a : Reg) (b : Reg)
  /-- FSUB (R154): Binary32 subtraction. -/
  | fsub (d : Reg) (a : Reg) (b : Reg)
  /-- FMUL (R154): Binary32 multiplication. -/
  | fmul (d : Reg) (a : Reg) (b : Reg)
  /-- FMIN (R154): IEEE minimumNumber of binary32 values. -/
  | fmin (d : Reg) (a : Reg) (b : Reg)
  /-- FMAX (R154): IEEE maximumNumber of binary32 values. -/
  | fmax (d : Reg) (a : Reg) (b : Reg)
  /-- FCPYS (R154): A with the sign bit of B. -/
  | fcpys (d : Reg) (a : Reg) (b : Reg)
  /-- FNEG (R154): A with its sign inverted. -/
  | fneg (d : Reg) (a : Reg)
  /-- FABS (R154): A with its sign cleared. -/
  | fabs (d : Reg) (a : Reg)
  /-- FMAC (R155): Fused A x B + D with one rounding. -/
  | fmac (d : Reg) (a : Reg) (b : Reg)
  /-- FMSC (R155): Fused A x B - D. -/
  | fmsc (d : Reg) (a : Reg) (b : Reg)
  /-- FNMAC (R155): Fused -(A x B + D). -/
  | fnmac (d : Reg) (a : Reg) (b : Reg)
  /-- FNMSC (R155): Fused -(A x B - D). -/
  | fnmsc (d : Reg) (a : Reg) (b : Reg)
  /-- FSQRT (R156): Correctly rounded square root, returning class. -/
  | fsqrt (d : Reg) (a : Reg)
  /-- FRCP (R156): Reciprocal within 1 ulp. -/
  | frcp (d : Reg) (a : Reg)
  /-- FRSQ (R156): Reciprocal square root within 1 ulp. -/
  | frsq (d : Reg) (a : Reg)
  /-- FEX2 (R156): 2 to the power A. -/
  | fex2 (d : Reg) (a : Reg)
  /-- FLG2 (R156): Base-2 logarithm of A. -/
  | flg2 (d : Reg) (a : Reg)
  /-- FSIN (R156): Sine of A in radians. -/
  | fsin (d : Reg) (a : Reg)
  /-- FCOS (R156): Cosine of A in radians. -/
  | fcos (d : Reg) (a : Reg)
  /-- FTANH (R156): Hyperbolic tangent of A. -/
  | ftanh (d : Reg) (a : Reg)
  /-- DADD (R158): Binary64 addition of pairs. -/
  | dadd (d : Reg) (a : Reg) (b : Reg)
  /-- DSUB (R158): Binary64 subtraction. -/
  | dsub (d : Reg) (a : Reg) (b : Reg)
  /-- DMUL (R158): Binary64 multiplication. -/
  | dmul (d : Reg) (a : Reg) (b : Reg)
  /-- DMIN (R158): Binary64 minimumNumber. -/
  | dmin (d : Reg) (a : Reg) (b : Reg)
  /-- DMAX (R158): Binary64 maximumNumber. -/
  | dmax (d : Reg) (a : Reg) (b : Reg)
  /-- DMAC (R158): Fused binary64 A x B + D. -/
  | dmac (d : Reg) (a : Reg) (b : Reg)
  /-- DSQRT (R158): Correctly rounded binary64 square root. -/
  | dsqrt (d : Reg) (a : Reg)
  /-- HADD2 (R159): Packed FP16 addition per half. -/
  | hadd2 (d : Reg) (a : Reg) (b : Reg)
  /-- HMUL2 (R159): Packed FP16 multiplication. -/
  | hmul2 (d : Reg) (a : Reg) (b : Reg)
  /-- HMAC2 (R159): Packed fused FP16 multiply-add. -/
  | hmac2 (d : Reg) (a : Reg) (b : Reg)
  /-- HMAX2 (R159): Packed FP16 maximumNumber. -/
  | hmax2 (d : Reg) (a : Reg) (b : Reg)
  /-- BADD2 (R159): Packed BF16 addition. -/
  | badd2 (d : Reg) (a : Reg) (b : Reg)
  /-- BMUL2 (R159): Packed BF16 multiplication. -/
  | bmul2 (d : Reg) (a : Reg) (b : Reg)
  /-- BMAC2 (R159): Packed fused BF16 multiply-add. -/
  | bmac2 (d : Reg) (a : Reg) (b : Reg)
  /-- BMAX2 (R159): Packed BF16 maximumNumber. -/
  | bmax2 (d : Reg) (a : Reg) (b : Reg)
  /-- DP4_I8 (R160): Four-way signed byte dot product accumulated into D. -/
  | dp4I8 (d : Reg) (a : Reg) (b : Reg)
  /-- DP4_E4M3 (R160): Four-way E4M3 dot product, one rounding into D. -/
  | dp4E4m3 (d : Reg) (a : Reg) (b : Reg)
  /-- DP4_E5M2 (R160): Four-way E5M2 dot product. -/
  | dp4E5m2 (d : Reg) (a : Reg) (b : Reg)
  /-- DP2_F16 (R160): Two-way FP16 dot product. -/
  | dp2F16 (d : Reg) (a : Reg) (b : Reg)
  /-- DP2_BF16 (R160): Two-way BF16 dot product. -/
  | dp2Bf16 (d : Reg) (a : Reg) (b : Reg)
  /-- DP4_PS2 (R160): Four-way PS2-weight by i8 dot product. -/
  | dp4Ps2 (d : Reg) (a : Reg) (b : Reg)
  /-- CVT (R162): Converts between formats, saturating only under SATD. -/
  | cvt (d : Reg) (a : Reg) (y : CvFmt) (x : CvFmt) (r : CvRound)
  /-- CVTS (R162): Saturating conversion between formats. -/
  | cvts (d : Reg) (a : Reg) (y : CvFmt) (x : CvFmt) (r : CvRound)
  /-- PKL (R165): Packs the low halves of A and B. -/
  | pkl (d : Reg) (a : Reg) (b : Reg)
  /-- PKB (R165): Shifts D and packs two bytes below. -/
  | pkb (d : Reg) (a : Reg) (b : Reg)
  /-- PK3 (R165): Packs five ternary digits into a T3 byte. -/
  | pk3 (d : Reg) (a : Reg) (b : Reg)
  /-- UNPK3 (R165): Unpacks T3 digits into i8 bytes. -/
  | unpk3 (d : Reg) (a : Reg) (b : Reg)
  /-- PKPS (R165): Shifts D and appends the PS2 code of integer A. -/
  | pkps (d : Reg) (a : Reg)
  /-- UNPKPS (R165): Sign-extended integer form of a PS2 byte. -/
  | unpkps (d : Reg) (a : Reg) (b : Reg)
  /-- SEXT8 (R165): Sign-extends a selected byte of A. -/
  | sext8 (d : Reg) (a : Reg) (b : Reg)
  /-- SHFL (R94): Reads register a of lane B[4:0]. -/
  | shfl (d : Reg) (a : Reg) (b : Reg)
  /-- SHFLX (R94): Reads register a of lane l XOR B. -/
  | shflx (d : Reg) (a : Reg) (b : Reg)
  /-- SHFLU (R94): Reads register a of lane l - B. -/
  | shflu (d : Reg) (a : Reg) (b : Reg)
  /-- SHFLD (R94): Reads register a of lane l + B. -/
  | shfld (d : Reg) (a : Reg) (b : Reg)
  /-- RDL (R94): Broadcasts register a of one lane. -/
  | rdl (d : Reg) (a : Reg) (b : Reg)
  /-- WRL (R94): Writes uniform A into register d of one lane. -/
  | wrl (d : Reg) (a : Reg) (b : Reg)
  /-- REDADD_I (R96): Integer sum over the PC group. -/
  | redaddI (d : Reg) (a : Reg) (b : Reg)
  /-- REDMIN_I (R96): Signed minimum over the group. -/
  | redminI (d : Reg) (a : Reg) (b : Reg)
  /-- REDMAX_I (R96): Signed maximum over the group. -/
  | redmaxI (d : Reg) (a : Reg) (b : Reg)
  /-- REDAND (R96): AND over the group. -/
  | redand (d : Reg) (a : Reg) (b : Reg)
  /-- REDOR (R96): OR over the group. -/
  | redor (d : Reg) (a : Reg) (b : Reg)
  /-- REDADD_F32 (R97): Binary32 sum in lane order over the group. -/
  | redaddF32 (d : Reg) (a : Reg) (b : Reg)
  /-- SCAN_I (R96): Inclusive integer scan over the group. -/
  | scanI (d : Reg) (a : Reg) (b : Reg)
  /-- SCAN_F32 (R97): Inclusive binary32 scan over the group. -/
  | scanF32 (d : Reg) (a : Reg) (b : Reg)
  /-- READS (R100): Reads a control register into d. -/
  | reads (d : Reg) (r : CtlReg)
  /-- WRITES (R100): Writes a writable control register from uniform a. -/
  | writes (a : Reg) (r : CtlReg)
  /-- SREC (R124): Reads a schuss record slot into d. -/
  | srec (d : Reg) (s : BitVec 4)
  /-- RNGSEED (R101): Seeds each lane's generator state. -/
  | rngseed (a : Reg)
  /-- RNGNEXT (R101): Steps the generator and writes the new state. -/
  | rngnext (d : Reg)
  /-- KTOV (R243): Copies a whole mask register into d. -/
  | ktov (d : Reg) (k : Mask)
  /-- VTOK (R243): Sets each thread's bit of k from bit l of A. -/
  | vtok (k : Mask) (a : Reg)
  /-- MOVRI (R102): Reads the register whose number A holds. -/
  | movri (d : Reg) (a : Reg)
  /-- MOVIR (R102): Writes D to the register whose number A holds. -/
  | movir (d : Reg) (a : Reg)
  /-- LD (R105): Global load with width, order, scope and cache fields. -/
  | ld (z : Width) (d : Reg) (a : Reg) (p : Scope) (r : Ord) (h : CachePol)
  /-- ST (R105): Global store with width, order, scope and cache fields. -/
  | st (z : Width) (d : Reg) (a : Reg) (p : Scope) (r : Ord) (h : CachePol)
  /-- LDO (R105): Plain global load at an immediate offset. -/
  | ldo (z : Width) (d : Reg) (a : Reg) (i : BitVec 7)
  /-- STO (R105): Plain global store at an immediate offset. -/
  | sto (z : Width) (d : Reg) (a : Reg) (i : BitVec 7)
  /-- LDSP (R109): Scratchpad load with optional full-empty wait. -/
  | ldsp (z : Width) (d : Reg) (a : Reg) (p : Scope) (r : Ord) (q : LoadFe)
  /-- STSP (R109): Scratchpad store with optional fill, wait or clear. -/
  | stsp (z : Width) (d : Reg) (a : Reg) (p : Scope) (r : Ord) (q : StoreFe)
  /-- ATOM (R208): Far atomic sent to the owning cluster's groomer. -/
  | atom (o : AtomOp) (t : AtomTy) (d : Reg) (a : Reg) (p : Scope) (e : Bool)
  /-- ATOMR (R214): Far atomic with acquire and release halves. -/
  | atomr (o : AtomOp) (t : AtomTy) (d : Reg) (a : Reg) (p : Scope) (e : Bool)
  /-- ATOMSP (R213): Atomic on the cluster scratchpad. -/
  | atomsp (o : AtomOp) (t : AtomTy) (d : Reg) (a : Reg) (p : Scope) (e : Bool)
  /-- FENCE (R217): Release then acquire at a scope. -/
  | fence (p : Scope)
  /-- ACQ (R217): Standalone acquire at a scope. -/
  | acq (p : Scope)
  /-- REL (R217): Standalone release at a scope. -/
  | rel (p : Scope)
  /-- COMMIT (R218): Commits a versioned task's writes; REL.pkg otherwise. -/
  | commit
  /-- MONITOR (R219): Arms the wave's monitor on a line. -/
  | monitor (a : Reg)
  /-- WAITM (R220): Holds threads until the wave's monitor records an event. -/
  | waitm
  /-- SINK (R113): Schuss group head: the following words run where the anchor line lies. -/
  | sink (l : BitVec 3) (r : BitVec 4) (f : Floor)
  /-- JOIN (R240): Sets the issuing threads' bits of kd. -/
  | join (k : Mask)
  /-- LEAVE (R240): Clears the issuing threads' bits of kd. -/
  | leave (k : Mask)
  /-- WAITK (R241): Holds threads whose bit of kd is set until all such threads are held. -/
  | waitk (k : Mask)
  /-- KAND (R240): kd = ka AND kb per thread. -/
  | kand (k : Mask) (a : Mask) (b : Mask)
  /-- KOR (R240): kd = ka OR kb per thread. -/
  | kor (k : Mask) (a : Mask) (b : Mask)
  /-- KXOR (R240): kd = ka XOR kb per thread. -/
  | kxor (k : Mask) (a : Mask) (b : Mask)
  /-- KNOT (R240): kd = NOT ka per thread. -/
  | knot (k : Mask) (a : Mask)
  /-- KSET (R240): kd = immediate bit per thread. -/
  | kset (k : Mask) (i : Bool)
  /-- BR (R235): Per-thread conditional branch by packet offset. -/
  | br (s : SlotNo) (n : Bool) (k : Option Mask) (o : BitVec 17)
  /-- CALL (R235): Conditional call writing the link to v94:v95. -/
  | call (s : SlotNo) (n : Bool) (k : Option Mask) (o : BitVec 17)
  /-- JMP (R238): Jumps to the address in pair a. -/
  | jmp (a : Reg)
  /-- CALLR (R238): Calls the address in pair a, writing the link. -/
  | callr (a : Reg)
  /-- RET (R238): Returns to the address in pair a. -/
  | ret (a : Reg)
  /-- TRAMP (R237): Instrumentation trampoline: branch with link, or trap when n = 1. -/
  | tramp (s : SlotNo) (n : Bool) (k : Mask) (o : BitVec 17)
  /-- TRAP (R278): Raises resumable cause TRAP n. -/
  | trap (n : BitVec 8)
  /-- BRK (R278): Raises resumable cause BRK. -/
  | brk (i : BitVec 16)
  /-- ERET (R249): Restores the thread from its trap frame and resumes. -/
  | eret
  /-- EXIT (R279): Ends the issuing threads after their results land. -/
  | exit
  /-- XACQ (R281): Raises the wave's register grant, holding until granted. -/
  | xacq (g : Grant)
  /-- XREL (R281): Lowers the wave's register grant. -/
  | xrel (g : Grant)
  /-- YIELD (R277): Hints another group should issue next. -/
  | yield
  /-- BAR_WG (R282): Workgroup barrier counted by thread. -/
  | barWg (i : BitVec 4)
  /-- BAR_GANG (R282): Gang barrier counted by thread. -/
  | barGang (i : BitVec 4)
  /-- SIGDEC (R283): Decrements a 64-bit signal after a .sys release. -/
  | sigdec (a : Reg) (b : Reg)
  /-- NREC (R284): Appends a 16-byte record to a work-graph node's bin. -/
  | nrec (r : Reg) (a : Reg)
  /-- LIFT (R340): Starts a lift chain on a queue. -/
  | lift (q : BitVec 2) (a : Reg)
  /-- LIFTST (R341): Returns the status word of a lift queue or the binning work. -/
  | liftst (d : Reg) (q : StQueue)
  /-- LIFTABT (R342): Stops a lift queue and discards its chains. -/
  | liftabt (q : BitVec 2)
  /-- TQADD (R343): Enqueues a tile-task record. -/
  | tqadd (a : Reg)
  /-- TQWAIT (R344): Parks until the tile queue drains to n or a pre-emption request arrives. -/
  | tqwait (d : Reg) (n : TqCount)
  /-- ACCZ (R345): Zeroes a run of accumulator tiles. -/
  | accz (a : Reg) (n : BitVec 8)
  /-- ACCRD (R345): Reads one accumulator word. -/
  | accrd (d : Reg) (a : Reg)
  /-- ACCWR (R345): Writes one accumulator word. -/
  | accwr (a : Reg) (b : Reg)
  /-- ACCPIN (R346): Pins gang-owned tiles as a state under a handle. -/
  | accpin (a : Reg) (b : Reg)
  /-- ACCUNPIN (R347): Frees a bound state and ends its handle. -/
  | accunpin (a : Reg)
  /-- ACCBIND (R348): Binds the gang to a state handle and returns its first tile. -/
  | accbind (d : Reg) (a : Reg)
  /-- ACCSPILL (R349): Ends a handle and enqueues writing its spill image. -/
  | accspill (a : Reg) (b : Reg)
  /-- ACCFILL (R349): Creates a handle and enqueues filling it from a spill image. -/
  | accfill (a : Reg) (b : Reg)
  /-- DUPD (R350): Enqueues a gated delta-rule chunk on a state. -/
  | dupd (a : Reg)
  /-- DQRY (R350): Enqueues a query of a state. -/
  | dqry (a : Reg)
  /-- RKINIT (R351): Sets a rink's geometry and clears its phases. -/
  | rkinit (r : BitVec 4) (a : Reg)
  /-- RKWAIT (R298): Holds threads until a rink stage has phase p. -/
  | rkwait (r : BitVec 4) (s : BitVec 4) (p : Bool)
  /-- RKFLIP (R351): Inverts the phase of a rink stage. -/
  | rkflip (r : BitVec 4) (s : BitVec 4)
  /-- TIDSET (R352): Copies 128 scratchpad bytes into a TID entry. -/
  | tidset (a : Reg) (b : Reg)
  /-- TIDGET (R353): Reads one word of a TID entry. -/
  | tidget (d : Reg) (a : Reg)
  /-- TIDINV (R352): Clears V of a TID entry. -/
  | tidinv (a : Reg)
  /-- BINGO (R354): Starts the binning engine on a descriptor. -/
  | bingo (a : Reg)
  /-- UNIMPL_WORD (R80): A word of majors 0x39-0x3E raises UNIMPL. -/
  | unimplWord (x : UnimplBits)
  /-- TRAP_ENTRY (R248): After outstanding results land, writes the frame and enters the handler. -/
  | trapEntry (wave : Nat)
  /-- GANG_RESOURCE_FREE (R258): Frees an aborted gang's scratchpad and tiles once its started commands complete. -/
  | gangResourceFree (gang : Nat)
  /-- GANG_RERUN (R259): Re-places an aborted re-queueable gang afresh. -/
  | gangRerun (gang : Nat)
  /-- RESULT_LANDING (R34): A returning result lands in its registers. -/
  | resultLanding (wave : Nat) (idx : Nat)
  /-- SCHUSS_GROUP_RUN (R118): A sunk group executes at the first level holding its line. -/
  | schussGroupRun (idx : Nat) (peer : Option Nat) (busy : Option Nat)
  /-- MERGING_FILL_ARRIVAL (R175): Fill data arrives at a sector cache and writes only invalid words. -/
  | mergingFillArrival (idx : Nat)
  /-- CACHE_EVICTION (R173): A cache gives up a line, writing back dirty words. -/
  | cacheEviction (level : CacheLevel) (unit : Nat) (line : Nat)
  /-- GROOMER_ATOMIC (R212): The groomer performs a combined atomic request. -/
  | groomerAtomic (idx : Nat)
  /-- MONITOR_SPURIOUS_EVENT (R185): The device records a spurious monitor event. -/
  | monitorSpuriousEvent (wave : Nat)
  /-- FAIRNESS_DUE (R222): A candidate's wait count reaches 255 and it issues. -/
  | fairnessDue (wave : Nat)
  /-- WAVE_AGED (R229): A wave's wait count reaches 64 and it is chosen. -/
  | waveAged (wave : Nat)
  /-- PAUSE_EXPIRY (R276): A PAUSE's n cycles end and its group is ready again. -/
  | pauseExpiry (wave : Nat) (lane : Nat)
  /-- WATCHDOG_KILL (R268): The watchdog budget runs out and the gang is killed. -/
  | watchdogKill (gang : Nat)
  /-- KERNEL_PACKET (R359): The launch engine takes a sealed kernel packet and checks it. -/
  | kernelPacket (queue : Nat)
  /-- GRAPH_PACKET (R367): The launch engine takes and checks a graph packet. -/
  | graphPacket (queue : Nat)
  /-- BARRIER_AND_PACKET (R359): The launch engine takes a barrier-and packet. -/
  | barrierAndPacket (queue : Nat)
  /-- PACKET_START (R358): Dependencies are satisfied and a packet starts. -/
  | packetStart (launch : Nat)
  /-- GANG_PLACEMENT (R21): The launch engine places a gang when resources allow. -/
  | gangPlacement (launch : Nat) (cluster : Nat) (core : Nat)
  /-- STATE_MOVE (R333): A pinned state is spilled and filled onto another cluster. -/
  | stateMove (ctx : Nat) (handle : Nat) (cluster : Nat)
  /-- GANG_RETIRE (R280): After the retirement commit and its commands complete, a gang retires. -/
  | gangRetire (gang : Nat)
  /-- LAUNCH_COMPLETION (R370): A completed launch writes its record and decrements its signal. -/
  | launchCompletion (launch : Nat)
  /-- SHAPE_APPLY (R364): The true shape is applied: gates opened, gangs trimmed, squashed or tail-launched. -/
  | shapeApply (launch : Nat)
  /-- SHAPE_TIMEOUT (R365): The shape never arrives in time and the launch ends. -/
  | shapeTimeout (launch : Nat)
  /-- GRID_NODE_LAUNCH (R368): A ready grid node launches. -/
  | gridNodeLaunch (launch : Nat) (node : Nat)
  /-- BIN_GANG_LAUNCH (R368): A bin node gang is dispatched with up to C records. -/
  | binGangLaunch (launch : Nat) (node : Nat)
  /-- BIN_TIMER (R368): A bin node's timer runs out and a gang becomes ready. -/
  | binTimer (launch : Nat) (node : Nat)
  /-- PREEMPT_REQUEST (R269): A pre-emption request stops new engine work for a gang. -/
  | preemptRequest (gang : Nat)
  /-- GANG_EVICT (R269): When all threads are held and started commands done, the gang is saved. -/
  | gangEvict (gang : Nat)
  /-- GANG_RESUME (R270): A suspended gang resumes at a fitting placement. -/
  | gangResume (gang : Nat) (cluster : Nat) (core : Nat)
  /-- PARTITION_SWITCH (R271): A halted partition's context moves to shadow storage. -/
  | partitionSwitch (partition : Nat)
  /-- CONTEXT_RESTORE (R273): A context is restored and its arrival log replayed. -/
  | contextRestore (ctx : Nat) (partition : Nat)
  /-- ARRIVAL (R272): An arrival for a context is applied or logged. -/
  | arrival (gang : Nat) (item : ArrivalItem)
  /-- END_ENTRY (R299): Lift chain END entry stops the queue. -/
  | endEntry (gang : Nat) (queue : Nat)
  /-- COPY_ENTRY (R299): Lift COPY entry copies bytes, optionally filling granules. -/
  | copyEntry (gang : Nat) (queue : Nat)
  /-- GATHER_ENTRY (R313): Lift GATHER entry copies indexed elements. -/
  | gatherEntry (gang : Nat) (queue : Nat)
  /-- SCATTER_ENTRY (R313): Lift SCATTER entry writes to indexed targets. -/
  | scatterEntry (gang : Nat) (queue : Nat)
  /-- TRANSQ_ENTRY (R313): Lift TRANSQ entry transposes and requantises a tensor. -/
  | transqEntry (gang : Nat) (queue : Nat)
  /-- REDUCE_ENTRY (R315): Collective reduction across member modules. -/
  | reduceEntry (gang : Nat) (queue : Nat)
  /-- ALLGATHER_ENTRY (R315): Collective all-gather across member modules. -/
  | allgatherEntry (gang : Nat) (queue : Nat)
  /-- LOOP_ENTRY (R314): Repeats the body entries with stepped addresses. -/
  | loopEntry (gang : Nat) (queue : Nat)
  /-- IF_ENTRY (R313): Skips entries when its condition is false. -/
  | ifEntry (gang : Nat) (queue : Nat)
  /-- WAITPH_ENTRY (R313): Waits until a rink stage has phase p. -/
  | waitphEntry (gang : Nat) (queue : Nat)
  /-- FLIP_ENTRY (R299): Flips a rink stage's phase. -/
  | flipEntry (gang : Nat) (queue : Nat)
  /-- SIGDEC_ENTRY (R313): Decrements a signal after earlier entries. -/
  | sigdecEntry (gang : Nat) (queue : Nat)
  /-- QFENCE_ENTRY (R205): Waits until named queues' earlier entries are performed. -/
  | qfenceEntry (gang : Nat) (queue : Nat)
  /-- MMA_TASK (R324): A started MMA tile task accumulates A x B into its footprint. -/
  | mmaTask (gang : Nat) (idx : Nat)
  /-- MMAG_TASK (R324): A started gathered MMA tile task. -/
  | mmagTask (gang : Nat) (idx : Nat)
  /-- EPI_TASK (R329): An epilogue task converts tiles into a tensor. -/
  | epiTask (gang : Nat) (idx : Nat)
  /-- ZERO_TASK (R324): A ZERO task clears its region. -/
  | zeroTask (gang : Nat) (idx : Nat)
  /-- TILE_TASK_COMPLETE (R328): A tile task's writes are performed and it flips its stage. -/
  | tileTaskComplete (gang : Nat) (idx : Nat)
  /-- DELTA_UPDATE_RUN (R335): An engine applies a DUPD chunk token by token. -/
  | deltaUpdateRun (gang : Nat) (idx : Nat)
  /-- DELTA_QUERY_RUN (R335): An engine computes DQRY outputs. -/
  | deltaQueryRun (gang : Nat) (idx : Nat)
  /-- SPILL_IMAGE_WRITE (R334): An ACCSPILL command writes the spill image and frees tiles. -/
  | spillImageWrite (gang : Nat) (idx : Nat)
  /-- SPILL_IMAGE_FILL (R334): An ACCFILL command checks an image and pins the state. -/
  | spillImageFill (gang : Nat) (idx : Nat)
  /-- BINNING_RUN (R320): The binning engine counts items and patches targets. -/
  | binningRun (gang : Nat)
  /-- TIDSET_PERFORM (R150): A TIDSET or TIDINV is performed once its entry's busy count drains. -/
  | tidsetPerform (gang : Nat) (idx : Nat)
  /-- RKINIT_PERFORM (R309): A pending RKINIT is performed after earlier chains and tasks complete. -/
  | rkinitPerform (gang : Nat) (idx : Nat)
  /-- PUBLISHED_WRITE_APPLY (R201): A home applies a published write or commit bundle. -/
  | publishedWriteApply (src : Nat) (dst : Nat)
  /-- HOME_READ_SERVE (R201): A home serves a cross-die read once its coverage suffices. -/
  | homeReadServe (idx : Nat)
  /-- CLOCK_MARKER (R201): A clock marker is applied at a home. -/
  | clockMarker (src : Nat) (dst : Nat)
  /-- FLIT_ARRIVAL (R203): A flit reaches a flow's reorder buffer or is refused. -/
  | flitArrival (cls : FlowClass) (src : Nat) (dst : Nat) (seq : Nat)
  /-- FLIT_RETRANSMIT (R203): A refused flit is retransmitted after its backoff. -/
  | flitRetransmit (cls : FlowClass) (src : Nat) (dst : Nat) (seq : Nat)
  /-- HOST_MEM_WRITE (R207): A CXL.mem write from the host applied at the home cache. -/
  | hostMemWrite (addr : Nat) (bytes : List Byte)
  /-- HOST_MEM_READ (R373): A CXL.mem read from the host. -/
  | hostMemRead (addr : Nat) (len : Nat)
  /-- HOST_LINK_DOWN (R373): The host link goes down and every partition halts. -/
  | hostLinkDown
  /-- HOST_LINK_UP (R373): The host link returns and contexts are reported lost. -/
  | hostLinkUp
  /-- SET_CONTEXT (R383): Mailbox command creating or updating a context. -/
  | setContext (fn : Nat)
  /-- REG_QUEUE (R383): Mailbox command registering a launch queue. -/
  | regQueue (fn : Nat)
  /-- UNREG_QUEUE (R383): Mailbox command stopping a queue. -/
  | unregQueue (fn : Nat)
  /-- REG_PREDICTOR (R383): Mailbox command registering a predictor table. -/
  | regPredictor (fn : Nat)
  /-- REG_COLLECTIVE (R383): Mailbox command registering a collective table. -/
  | regCollective (fn : Nat)
  /-- SET_WATCHDOG (R383): Mailbox command setting the watchdog budget. -/
  | setWatchdog (fn : Nat)
  /-- TLB_INV (R376): Mailbox command invalidating translations of a range. -/
  | tlbInv (fn : Nat)
  /-- TLB_INV_COMPLETE (R376): No TLB holds the range and old-translation accesses are performed. -/
  | tlbInvComplete (idx : Nat)
  /-- FAULT_REPLY (R377): Mailbox command replaying or aborting joined faulting accesses. -/
  | faultReply (fn : Nat)
  /-- RESET_VI (R383): Mailbox command aborting and clearing a virtual interface. -/
  | resetVi (fn : Nat)
  /-- REG_EVENTS (R383): Mailbox command registering the event queue. -/
  | regEvents (fn : Nat)
  /-- ATTEST (R388): Mailbox command writing a signed attestation report. -/
  | attest (fn : Nat)
  /-- WINDOW_WRITE (R383): A write to a management-window location with no behaviour of its own. -/
  | windowWrite (fn : Nat) (offset : Nat) (bytes : List Byte)
  /-- EVENT_RECORD_DRAIN (R384): A held event record is written once the driver frees a slot. -/
  | eventRecordDrain (fn : Nat)
  /-- CORE_WAKE_SWEEP (R387): A waking core sweeps granted registers for parity errors. -/
  | coreWakeSweep (core : Nat)
  /-- SPARE_CLUSTER_SWAP (R385): A spare cluster replaces a failed one. -/
  | spareClusterSwap (cluster : Nat)
  /-- SPARE_ROW_REPAIR (R385): A spare row replaces one over its error threshold. -/
  | spareRowRepair (unit : RepairUnit)
  /-- PAGE_RETIREMENT (R385): A frame's data is copied to a spare frame and reported. -/
  | pageRetirement (frame : Nat) (spare : Nat)
  /-- SPARE_LANE_SWAP (R385): A spare link lane replaces a failed one. -/
  | spareLaneSwap (link : Nat)
  /-- DIE_WITHDRAWAL (R378): Loss of a whole link withdraws a die. -/
  | dieWithdrawal (die : Nat)
  /-- PEER_LOST (R379): A peer module is lost during a collective. -/
  | peerLost (ctx : Nat) (coll : Nat) (member : Nat)
  /-- SECURITY_ALARM (R390): A sensor raises the alarm, acted on by the fused policy. -/
  | securityAlarm (sensors : BitVec 4)
  /-- LIFE_CYCLE_TRANSITION (R389): A fuse write moves the life-cycle state at next reset. -/
  | lifeCycleTransition (target : LifeCycle)
  /-- RESET (R391): Power-on or reset runs the bring-up stages. -/
  | reset
  /-- HOST_CACHE_REQUEST (R207): The host takes, updates or gives up a copy of a device line through CXL.cache. -/
  | hostCacheRequest (line : Nat) (req : HostReq)
  /-- INTERRUPT_DELIVERY (R185): An interrupt is delivered to a wave and records an event on its armed monitor. -/
  | interruptDelivery (wave : Nat)
  /-- COLLECTIVE_MEMBER_ARRIVAL (R315): A peer module reaches its entry of a collective and its data arrives over the external ports. -/
  | collectiveMemberArrival (ctx : Nat) (coll : Nat) (member : Nat) (desc : CollDesc) (data : List Byte)
  /-- POWER_LIMIT_THROTTLE (R392): Power or temperature nears its limit, or falls back, and the device lowers or restores its issue rate. -/
  | powerLimitThrottle (on : Bool)
  deriving DecidableEq, Repr

end Sys2Proof
end

