-- ==== Sys2Proof/Machine/Float.lean ====
section
/-! DEFINITION. Floating-point and scale formats (spec/08 R129, R130), rounding (R135), flushing (R136), flags (R137),
stochastic rounding (R138, R139), and the arithmetic of the FP pipe on exact values (spec/09 R154 to R164). A finite value
is (-1)^neg * man * 2^exp with exp the place of its format's last fraction bit, so that STO counts its discarded bits from
the operands' formats (R139). -/

namespace Sys2Proof.Machine

/-- The floating-point formats of R129 with a sign. -/
inductive FpFmt where
  | f64 | f32 | f16 | bf16 | e4m3 | e5m2
  deriving DecidableEq, Repr

def FpFmt.ebits : FpFmt → Nat
  | .f64 => 11 | .f32 => 8 | .f16 => 5 | .bf16 => 8 | .e4m3 => 4 | .e5m2 => 5
def FpFmt.fbits : FpFmt → Nat
  | .f64 => 52 | .f32 => 23 | .f16 => 10 | .bf16 => 7 | .e4m3 => 3 | .e5m2 => 2
def FpFmt.bias (f : FpFmt) : Nat := 2 ^ (f.ebits - 1) - 1
def FpFmt.bits (f : FpFmt) : Nat := 1 + f.ebits + f.fbits

/-- The largest finite magnitude's bits (R129). -/
def FpFmt.maxBits (f : FpFmt) : Nat :=
  match f with
  | .e4m3 => 0x7E
  | _ => (2 ^ f.ebits - 1) * 2 ^ f.fbits - 1

/-- The canonical NaN (R129). -/
def FpFmt.nan (f : FpFmt) : Nat :=
  match f with
  | .e4m3 | .e5m2 => 0x7F
  | _ => (2 ^ f.ebits - 1) * 2 ^ f.fbits + 2 ^ (f.fbits - 1)

/-- The bits of infinity; E4M3 has none. -/
def FpFmt.inf (f : FpFmt) : Nat := (2 ^ f.ebits - 1) * 2 ^ f.fbits

/-- Do FTZI and FTZO apply to the format (R136)? -/
def FpFmt.flushes : FpFmt → Bool
  | .e4m3 | .e5m2 => false
  | _ => true

/-- A value as read: a NaN (signalling or not), an infinity, or a finite number. -/
inductive Fv where
  | nan (signalling : Bool)
  | inf (neg : Bool)
  | fin (neg : Bool) (man : Nat) (exp : Int)
  deriving DecidableEq, Repr

/-- Decoding (R129, R130); with `ftzi` a subnormal reads as a zero of its sign (R136). -/
def FpFmt.read (f : FpFmt) (ftzi : Bool) (x : Nat) : Fv :=
  let neg := x / 2 ^ (f.ebits + f.fbits) % 2 == 1
  let e := x / 2 ^ f.fbits % 2 ^ f.ebits
  let m := x % 2 ^ f.fbits
  let low : Int := 1 - (f.bias : Int) - (f.fbits : Int)
  if (f != .e4m3 && e == 2 ^ f.ebits - 1) || (f == .e4m3 && e == 15 && m == 7) then
    if f == .e4m3 then .nan false
    else if m == 0 then .inf neg
    else .nan (f.flushes && m / 2 ^ (f.fbits - 1) == 0)
  else if e == 0 then .fin neg (if ftzi && f.flushes then 0 else m) low
  else .fin neg (m + 2 ^ f.fbits) (low + (e : Int) - 1)

/-- The rounding modes (R134). -/
inductive RMode where
  | rne | rz | rup | rdn | rna | sto
  deriving DecidableEq, Repr

/-- FMODE.rmode (R134); 6 and 7 are never held. -/
def rmodeAt : Nat → RMode
  | 0 => .rne | 1 => .rz | 2 => .rup | 3 => .rdn | 4 => .rna | _ => .sto

/-- The fields of FMODE (R134). -/
def rmodeOf (m : BitVec 6) : RMode := rmodeAt (m.toNat % 8)
def ftziOf (m : BitVec 6) : Bool := m.getLsbD 3
def ftzoOf (m : BitVec 6) : Bool := m.getLsbD 4
def satdOf (m : BitVec 6) : Bool := m.getLsbD 5

/-- The xorshift32 step (R101, R138). -/
def xorshift (x : BitVec 32) : BitVec 32 :=
  let x := x ^^^ (x <<< 13)
  let x := x ^^^ (x >>> 17)
  x ^^^ (x <<< 5)

/-- How a result is rounded: mode, flushing of subnormal results, saturation, and the thread's generator. -/
structure Rounding where
  mode : RMode
  ftzo : Bool := false
  sat  : Bool := false
  gen  : BitVec 32 := 0

/-- A rounded result: its bits, the flags raised and the generator afterwards. -/
structure Rounded where
  bits  : Nat
  flags : Flags := 0
  gen   : BitVec 32
  deriving DecidableEq, Repr

/-- Is the magnitude q + rem/2^D (with a nonzero part below when `sticky`) rounded up, in a result of sign `neg` (R135)? -/
def roundUp (m : RMode) (neg : Bool) (q rem d : Nat) (sticky : Bool) (x : BitVec 32) : Bool :=
  if rem == 0 && !sticky then false else
  match m with
  | .rne => 2 ^ d < 2 * rem || (2 ^ d == 2 * rem && (sticky || q % 2 == 1))
  | .rna => 2 ^ d ≤ 2 * rem
  | .rz => false
  | .rup => !neg
  | .rdn => neg
  | .sto =>
    let k := min d 32
    2 ^ k ≤ rem / 2 ^ (d - k) + x.toNat / 2 ^ (32 - k)

/-- Infinity or the largest finite value, where a result overflows (R135). -/
def overflowsToInf (m : RMode) (neg : Bool) : Bool :=
  match m with
  | .rne | .rna | .sto => true
  | .rz => false
  | .rup => !neg
  | .rdn => neg

/-- The sign bit of a format. -/
def FpFmt.signed (f : FpFmt) (neg : Bool) (x : Nat) : Nat := if neg then x + 2 ^ (f.ebits + f.fbits) else x

/-- An infinite result of a conversion, from an infinite input (R135); so also where source and destination formats are the
same, of which R162 says that the value passes unchanged (notes/assumptions/69.md). -/
def FpFmt.infinite (f : FpFmt) (r : Rounding) (neg : Bool) : Rounded :=
  if r.sat then { bits := f.signed neg f.maxBits, flags := flagSA, gen := r.gen }
  else if f == .e4m3 then { bits := f.nan, flags := flagIV, gen := r.gen }
  else { bits := f.signed neg f.inf, gen := r.gen }

/-- One rounding of (-1)^neg * man * 2^exp into a format (R135 to R139). -/
def FpFmt.round (f : FpFmt) (r : Rounding) (neg : Bool) (man : Nat) (exp : Int) (sticky : Bool := false) : Rounded :=
  if man == 0 && !sticky then { bits := f.signed neg 0, gen := r.gen } else
  let low : Int := 1 - (f.bias : Int) - (f.fbits : Int)
  let top : Int := exp + (Nat.log2 man : Int)
  let ld : Int := max (top - (f.fbits : Int)) low
  let d := (ld - exp).toNat
  let q := if ld ≤ exp then man * 2 ^ (exp - ld).toNat else man / 2 ^ d
  let rem := if ld ≤ exp then 0 else man % 2 ^ d
  let inexact := rem != 0 || sticky
  let gen := if r.mode == .sto && inexact then xorshift r.gen else r.gen
  let q' := if roundUp r.mode neg q rem d sticky gen then q + 1 else q
  let mag := if q' < 2 ^ f.fbits then q' else (ld - low).toNat * 2 ^ f.fbits + q'
  if f.maxBits < mag then
    let fl := flagOF ||| flagIX
    if r.sat then { bits := f.signed neg f.maxBits, flags := fl ||| flagSA, gen }
    else if !(overflowsToInf r.mode neg) then { bits := f.signed neg f.maxBits, flags := fl, gen }
    else if f == .e4m3 then { bits := f.nan, flags := fl ||| flagIV, gen }
    else { bits := f.signed neg f.inf, flags := fl, gen }
  else
    let tiny := decide (top < 1 - (f.bias : Int))
    let fl := when inexact flagIX ||| when (tiny && inexact) flagUF
    if r.ftzo && f.flushes && mag != 0 && mag < 2 ^ f.fbits then
      { bits := f.signed neg 0, flags := fl ||| flagIX ||| flagUF, gen }
    else { bits := f.signed neg mag, flags := fl, gen }

/-- The canonical NaN, with IV when the operation is invalid or an input signals. -/
def FpFmt.nanR (f : FpFmt) (iv : Bool) (gen : BitVec 32) : Rounded := { bits := f.nan, flags := when iv flagIV, gen }

def Fv.isNan : Fv → Bool
  | .nan _ => true
  | _ => false
def Fv.isSnan : Fv → Bool
  | .nan s => s
  | _ => false
def Fv.negate : Fv → Fv
  | .nan s => .nan s
  | .inf n => .inf !n
  | .fin n m e => .fin (!n) m e

/-- The exact sum of two finite values at the smaller last place, and the sign of an exact zero (R139, R154). -/
def addExact (m : RMode) (n1 : Bool) (m1 : Nat) (e1 : Int) (n2 : Bool) (m2 : Nat) (e2 : Int) : Bool × Nat × Int :=
  let e := min e1 e2
  let a : Int := (if n1 then -1 else 1) * (m1 * 2 ^ (e1 - e).toNat : Nat)
  let b : Int := (if n2 then -1 else 1) * (m2 * 2 ^ (e2 - e).toNat : Nat)
  let c := a + b
  if c = 0 then (if n1 == n2 then n1 else m == .rdn, 0, e) else (decide (c < 0), c.natAbs, e)

/-- A product as a term: invalid for 0 × infinity (R137). -/
inductive Term where
  | bad
  | val (v : Fv)
  deriving DecidableEq, Repr

def mulExact (a b : Fv) : Term :=
  match a, b with
  | .nan s, .nan t => .val (.nan (s || t))
  | .nan s, _ => .val (.nan s)
  | _, .nan s => .val (.nan s)
  | .inf n, .inf k => .val (.inf (n != k))
  | .inf n, .fin k m _ => if m == 0 then .bad else .val (.inf (n != k))
  | .fin n m _, .inf k => if m == 0 then .bad else .val (.inf (n != k))
  | .fin n m e, .fin k p f => .val (.fin (n != k) (m * p) (e + f))

/-- A + B rounded once (R154). -/
def FpFmt.add (f : FpFmt) (r : Rounding) (a b : Fv) : Rounded :=
  match a, b with
  | .nan s, y => f.nanR (s || y.isSnan) r.gen
  | x, .nan s => f.nanR (s || x.isSnan) r.gen
  | .inf n, .inf k => if n == k then { bits := f.signed n f.inf, gen := r.gen } else f.nanR true r.gen
  | .inf n, .fin _ _ _ => { bits := f.signed n f.inf, gen := r.gen }
  | .fin _ _ _, .inf n => { bits := f.signed n f.inf, gen := r.gen }
  | .fin n m e, .fin k p g =>
    let (s, x, y) := addExact r.mode n m e k p g
    f.round r s x y

/-- A × B rounded once (R154). -/
def FpFmt.mul (f : FpFmt) (r : Rounding) (a b : Fv) : Rounded :=
  match mulExact a b with
  | .bad => f.nanR true r.gen
  | .val (.nan s) => f.nanR s r.gen
  | .val (.inf n) => { bits := f.signed n f.inf, gen := r.gen }
  | .val (.fin n m e) => f.round r n m e

/-- A × B + C rounded once (R155): 0 × infinity is invalid whatever C is. -/
def FpFmt.fma (f : FpFmt) (r : Rounding) (a b c : Fv) : Rounded :=
  match mulExact a b with
  | .bad => f.nanR true r.gen
  | .val (.nan s) => f.nanR (s || a.isSnan || b.isSnan || c.isSnan) r.gen
  | .val p => f.add r p c

/-- Exact order of two finite or infinite values (R91): negative, zero or positive as a is below, equal to or above b. -/
def fvKey (e : Int) : Fv → Int
  | .fin n m x => (if n then -1 else 1) * (m * 2 ^ (x - e).toNat : Nat)
  | _ => 0
def fvCmp (a b : Fv) : Int :=
  match a, b with
  | .inf n, .inf k => (if n then -1 else 1) - (if k then -1 else 1)
  | .inf n, _ => if n then -1 else 1
  | _, .inf n => if n then 1 else -1
  | .fin _ _ e, .fin _ _ g => let x := min e g; fvKey x a - fvKey x b
  | _, _ => 0

/-- minimumNumber and maximumNumber, −0 below +0 (R154). -/
def FpFmt.minmax (f : FpFmt) (big ftzi : Bool) (gen : BitVec 32) (x y : Nat) : Rounded :=
  let a := f.read ftzi x
  let b := f.read ftzi y
  let keep (v : Fv) (bits : Nat) : Nat :=
    match v with
    | .fin n 0 _ => f.signed n 0
    | _ => bits
  let iv := when (a.isSnan || b.isSnan) flagIV
  if a.isNan && b.isNan then { bits := f.nan, flags := iv, gen }
  else if a.isNan then { bits := keep b y, flags := iv, gen }
  else if b.isNan then { bits := keep a x, flags := iv, gen }
  else
    let c := fvCmp a b
    let negA := x / 2 ^ (f.ebits + f.fbits) % 2 == 1
    let less := decide (c < 0) || (c == 0 && negA)
    { bits := if less != big then keep a x else keep b y, flags := iv, gen }

/-- The integer square root of n, from its high bit down. -/
def isqrt (n : Nat) : Nat :=
  (List.range (Nat.log2 n / 2 + 1)).reverse.foldl (fun r i => if (r + 2 ^ i) * (r + 2 ^ i) ≤ n then r + 2 ^ i else r) 0

/-- The square root, correctly rounded (R156, R157, R158); 40 places more than the fraction are kept, and the rest is
sticky. -/
def FpFmt.sqrt (f : FpFmt) (r : Rounding) (a : Fv) : Rounded :=
  match a with
  | .nan s => f.nanR s r.gen
  | .inf n => if n then f.nanR true r.gen else { bits := f.inf, gen := r.gen }
  | .fin n m e =>
    if m == 0 then { bits := f.signed n 0, gen := r.gen }
    else if n then f.nanR true r.gen
    else
      let s := 2 * (f.fbits + 40) + (if e % 2 = 0 then 0 else 1)
      let x := m * 2 ^ s
      let q := isqrt x
      f.round r false q ((e - (s : Int)) / 2) (q * q != x)

/-! ## The transcendental forms (R156, R157): a free result within the bound -/

/-- The binary32 values as integers in ascending order; `minus` gives a zero its sign. -/
def f32Ord (x : Nat) : Int := if x < 2 ^ 31 then (x : Int) else -((x : Int) - 2 ^ 31)
def f32OfOrd (minus : Bool) (k : Int) : Nat := if k < 0 || (k == 0 && minus) then (-k).toNat + 2 ^ 31 else k.toNat

/-- One of the binary32 values within `err` of a value from `ref` to `ref + up`, just beyond `ref` in magnitude, all in units of
2^exp: the free value picks which (R156), and the sign of a zero (notes/assumptions/16.md). IX is raised, and UF for a tiny exact value (R137,
R157). -/
def within (form : Nat) (a : BitVec 32) (ftzo : Bool) (gen : BitVec 32) (ref : Int) (err : Nat) (exp : Int) (up : Nat := 0) :
    Rounded :=
  let lim (m : RMode) (x : Int) : Int :=
    let r := FpFmt.round .f32 { mode := m } (decide (x < 0)) x.natAbs exp
    let k := f32Ord r.bits
    max (-(0x7F7FFFFF : Int)) (min 0x7F7FFFFF k)
  let lo := lim .rup (ref + up - err)
  let hi := lim .rdn (ref + err)
  let n := (hi - lo).toNat + 1
  let k := lo + (Config.transcendental form a % n : Nat)
  let bits := f32OfOrd (Config.transcendental form a / n % 2 == 1) k
  let tiny := decide (exp + (Nat.log2 ref.natAbs : Int) < -126)
  if ftzo && k.natAbs < 2 ^ 23 && k != 0 then
    { bits := f32OfOrd (k < 0) 0, flags := flagIX ||| flagUF, gen }
  else { bits, flags := flagIX ||| when tiny flagUF, gen }

/-- The ulp of a value |ref| * 2^exp in units of 2^exp, rounded up to a whole unit (R156). -/
def ulpUnits (ref : Int) (exp : Int) : Nat :=
  let top := max (exp + (Nat.log2 ref.natAbs : Int)) (-126)
  2 ^ (top - 23 - exp).toNat

/-- 2^F for F in [0, 1) from the floor f of F in units of 2^-100: the exact value lies less than 64 such units above it. -/
def exp2Frac (f : Nat) : Nat :=
  let x := f * 0xb17217f7d1cf79abc9e3b3980 / 2 ^ 100
  ((List.range 40).foldl (fun (p : Nat × Nat) k => (p.1 + p.2, p.2 * x / 2 ^ 100 / (k + 1))) (0, 2 ^ 100)).1

/-- log2 of M = m / 2^100 in [1, 2), in units of 2^-64, by repeated squaring. -/
def log2Frac (m : Nat) : Nat :=
  ((List.range 64).foldl (fun (p : Nat × Nat) _ =>
    let y := p.2 * p.2 / 2 ^ 100
    if 2 ^ 101 ≤ y then (2 * p.1 + 1, y / 2) else (2 * p.1, y)) (0, m)).1

/-- pi in units of 2^-300. -/
def piUnits : Nat := 0x3243f6a8885a308d313198a2e03707344a4093822299f31d0082efa98ec4e6c89452821e638d

/-- The quadrant of |A| = m * 2^e radians and the rest within it, in units of 2^-100. -/
def quadrant (m : Nat) (e : Int) : Nat × Nat :=
  let x := 2 * (m * 2 ^ (e + 300).toNat)
  (x / piUnits % 4, x % piUnits / 2 / 2 ^ 200)

/-- sin and cos of r / 2^100 in [0, pi/2), in units of 2^-100; the cosine of a small angle lies below 1. -/
def sinSeries (r : Nat) : Int :=
  ((List.range 20).foldl (fun (p : Int × Int) k =>
    (p.1 + p.2, -(p.2 * r / 2 ^ 100 * r / 2 ^ 100 / ((2 * k + 2) * (2 * k + 3) : Nat)))) (0, (r : Int))).1
def cosSeries (r : Nat) : Int :=
  ((List.range 20).foldl (fun (p : Int × Int) k =>
    (p.1 + p.2, -(p.2 * r / 2 ^ 100 * r / 2 ^ 100 / ((2 * k + 1) * (2 * k + 2) : Nat)))) (0, (2 ^ 100 : Int))).1 - 1

/-- The sine of the angle in quadrant q. -/
def sinQuad (q r : Nat) : Int :=
  match q with
  | 0 => sinSeries r | 1 => cosSeries r | 2 => -(sinSeries r) | _ => -(cosSeries r)

/-- Is |A| = m * 2^e a power of two, and which (R157)? -/
def pow2Exp (m : Nat) (e : Int) : Option Int :=
  if m == 2 ^ Nat.log2 m then some (e + (Nat.log2 m : Int)) else none

/-- An exact power of two as a result (R157). -/
def exactPow (r : Rounding) (neg : Bool) (k : Int) : Rounded := FpFmt.round .f32 r neg 1 k

/-- FRCP (R156, R157). -/
def frcpOf (a : BitVec 32) (r : Rounding) (x : Fv) : Rounded :=
  match x with
  | .nan s => FpFmt.nanR .f32 s r.gen
  | .inf n => { bits := FpFmt.signed .f32 n 0, gen := r.gen }
  | .fin n m e =>
    if m == 0 then { bits := FpFmt.signed .f32 n (FpFmt.inf .f32), flags := flagDZ, gen := r.gen } else
    match pow2Exp m e with
    | some k => exactPow { r with mode := .rne } n (-k)
    | none =>
      let q : Int := (2 ^ 200 / m : Nat)
      let ref := if n then -q else q
      let exp := -200 - e
      if FpFmt.maxBits .f32 < (FpFmt.round .f32 { mode := .rup } false q.natAbs exp).bits then
        { bits := FpFmt.signed .f32 n (FpFmt.inf .f32), flags := flagOF ||| flagIX, gen := r.gen }
      else within 1 a r.ftzo r.gen ref (ulpUnits ref exp) exp

/-- FRSQ (R156, R157). -/
def frsqOf (a : BitVec 32) (r : Rounding) (x : Fv) : Rounded :=
  match x with
  | .nan s => FpFmt.nanR .f32 s r.gen
  | .inf n => if n then FpFmt.nanR .f32 true r.gen else { bits := 0, gen := r.gen }
  | .fin n m e =>
    if m == 0 then { bits := FpFmt.signed .f32 n (FpFmt.inf .f32), flags := flagDZ, gen := r.gen }
    else if n then FpFmt.nanR .f32 true r.gen
    else
      let m' := if e % 2 = 0 then m else 2 * m
      let e' := if e % 2 = 0 then e else e - 1
      match pow2Exp m' 0 with
      | some k =>
        if k % 2 = 0 then exactPow { r with mode := .rne } false (-(e' / 2) - k / 2)
        else
          let q : Int := (isqrt (2 ^ 400 / m') : Nat)
          within 2 a r.ftzo r.gen q (ulpUnits q (-200 - e' / 2)) (-200 - e' / 2)
      | none =>
        let q : Int := (isqrt (2 ^ 400 / m') : Nat)
        within 2 a r.ftzo r.gen q (ulpUnits q (-200 - e' / 2)) (-200 - e' / 2)

/-- FEX2 (R156, R157). -/
def fex2Of (a : BitVec 32) (r : Rounding) (x : Fv) : Rounded :=
  match x with
  | .nan s => FpFmt.nanR .f32 s r.gen
  | .inf n => { bits := if n then 0 else FpFmt.inf .f32, gen := r.gen }
  | .fin n m e =>
    -- the operand in units of 2^-149, exact
    let u : Int := (if n then -1 else 1) * (m * 2 ^ (e + 149).toNat : Nat)
    if 128 * 2 ^ 149 ≤ u then { bits := FpFmt.inf .f32, flags := flagOF ||| flagIX, gen := r.gen }
    else if u < -150 * 2 ^ 149 then { bits := 0, flags := flagUF ||| flagIX, gen := r.gen }
    else if u % 2 ^ 149 = 0 ∧ -149 ≤ u / 2 ^ 149 then exactPow { r with mode := .rne } false (u / 2 ^ 149)
    else
      let q : Int := (exp2Frac (u % 2 ^ 149 / 2 ^ 49).toNat : Nat)
      let exp := u / 2 ^ 149 - 100
      within 3 a r.ftzo r.gen q (2 * ulpUnits q exp) exp (min 64 (2 ^ 101 - 1 - q).toNat)

/-- FLG2 (R156, R157). -/
def flg2Of (a : BitVec 32) (r : Rounding) (x : Fv) : Rounded :=
  match x with
  | .nan s => FpFmt.nanR .f32 s r.gen
  | .inf n => if n then FpFmt.nanR .f32 true r.gen else { bits := FpFmt.inf .f32, gen := r.gen }
  | .fin n m e =>
    if m == 0 then { bits := FpFmt.signed .f32 true (FpFmt.inf .f32), flags := flagDZ, gen := r.gen }
    else if n then FpFmt.nanR .f32 true r.gen
    else match pow2Exp m e with
      | some k => FpFmt.round .f32 { r with mode := .rne } (decide (k < 0)) k.natAbs 0
      | none =>
        let k := Nat.log2 m
        let q : Int := (e + (k : Int)) * 2 ^ 64 + (log2Frac (m * 2 ^ (100 - k)) : Nat)
        let err := if e + (k : Int) = 0 ∨ e + (k : Int) = -1 then 2 ^ 42 else 2 * ulpUnits q (-64)
        within 4 a r.ftzo r.gen q err (-64)

/-- x - x^3 / d for x = m * 2^e below 2^-30, just below it, in units of 2^-300: the sine and the hyperbolic tangent of a
small number are nearest to it for d = 6 and d = 3. -/
def cubeUnits (d m : Nat) (e : Int) : Nat :=
  let x := m * 2 ^ (e + 300).toNat
  x - x * x / 2 ^ 300 * x / 2 ^ 300 / d - 1

/-- Is m * 2^e below 2^-30? -/
def smallAngle (m : Nat) (e : Int) : Bool := decide (m * 2 ^ (e + 300).toNat < 2 ^ 270)

/-- FSIN and FCOS (R156, R157). -/
def fsinOf (a : BitVec 32) (r : Rounding) (x : Fv) : Rounded :=
  match x with
  | .nan s => FpFmt.nanR .f32 s r.gen
  | .inf _ => FpFmt.nanR .f32 true r.gen
  | .fin n m e =>
    if m == 0 then { bits := FpFmt.signed .f32 n 0, gen := r.gen } else
    if smallAngle m e then
      let s : Int := cubeUnits 6 m e
      within 5 a r.ftzo r.gen (if n then -s else s) (2 ^ 279) (-300)
    else
    let (q, y) := quadrant m e
    let s := sinQuad q y
    within 5 a r.ftzo r.gen (if n then -s else s) (2 ^ 79) (-100)
def fcosOf (a : BitVec 32) (r : Rounding) (x : Fv) : Rounded :=
  match x with
  | .nan s => FpFmt.nanR .f32 s r.gen
  | .inf _ => FpFmt.nanR .f32 true r.gen
  | .fin _ m e =>
    if m == 0 then { bits := 0x3F800000, gen := r.gen } else
    let (q, y) := quadrant m e
    within 6 a r.ftzo r.gen (sinQuad ((q + 1) % 4) y) (2 ^ 79) (-100)

/-- tanh of |A| = m * 2^e below 9, in units of 2^-300 where A is below 2^-30, else in units of 2^-100. -/
def tanhUnits (m : Nat) (e : Int) : Nat × Int :=
  if smallAngle m e then (cubeUnits 3 m e, -300)
  else
    -- t = 2 A log2 e, and z = 2^-t = e^(-2A)
    let t := 2 * (m * 2 ^ (e + 300).toNat / 2 ^ 200) * 0x171547652b82fe1777d0ffda0d / 2 ^ 100
    let z := exp2Frac (2 ^ 100 - 1 - t % 2 ^ 100) / 2 ^ (t / 2 ^ 100 + 1)
    ((2 ^ 100 - z) * 2 ^ 100 / (2 ^ 100 + z), -100)

/-- FTANH (R156, R157). -/
def ftanhOf (a : BitVec 32) (r : Rounding) (x : Fv) : Rounded :=
  match x with
  | .nan s => FpFmt.nanR .f32 s r.gen
  | .inf n => { bits := FpFmt.signed .f32 n 0x3F800000, gen := r.gen }
  | .fin n m e =>
    if m == 0 then { bits := FpFmt.signed .f32 n 0, gen := r.gen }
    else if 9 * 2 ^ 149 ≤ m * 2 ^ (e + 149).toNat then
      { bits := FpFmt.signed .f32 n 0x3F800000, flags := flagIX, gen := r.gen }
    else
      let (q, exp) := tanhUnits m e
      within 7 a r.ftzo r.gen (if n then -(q : Int) else q) (2 * ulpUnits q exp) exp

/-! ## Sums of products (R97, R141, R160, R161) -/

/-- The exact sum of finite terms at the smallest last place, with the sign of an exact zero (R139, R154). -/
def sumExact (m : RMode) (ts : List (Bool × Nat × Int)) : Bool × Nat × Int :=
  let e := ts.foldl (fun e t => min e t.2.2) ((ts.head?.map (·.2.2)).getD 0)
  let c := ts.foldl (fun (c : Int) t => c + (if t.1 then -1 else 1) * (t.2.1 * 2 ^ (t.2.2 - e).toNat : Nat)) 0
  if c = 0 then
    (if ts.all (·.1) && !ts.isEmpty then true else if ts.all fun t => !t.1 then false else m == .rdn, 0, e)
  else (decide (c < 0), c.natAbs, e)

/-- What a list of terms sums to: invalid, a NaN (signalling or not), an infinity, or a finite exact value (R142, R161). -/
inductive Summed where
  | invalid
  | nan (signalling : Bool)
  | inf (neg : Bool)
  | fin (neg : Bool) (man : Nat) (exp : Int)
  deriving DecidableEq, Repr

/-- The exact sum of terms; 0 × infinity and infinities of opposite sign are invalid whatever else is summed. -/
def sumTerms (m : RMode) (ts : List Term) : Summed :=
  let vs := ts.filterMap fun t => match t with | .val v => some v | .bad => none
  let infs := vs.filterMap fun v => match v with | .inf n => some n | _ => none
  if ts.contains .bad || (infs.contains true && infs.contains false) then .invalid
  else if vs.any Fv.isNan then .nan (vs.any Fv.isSnan)
  else match infs with
    | n :: _ => .inf n
    | [] =>
      let (n, x, e) := sumExact m (vs.filterMap fun v => match v with | .fin n x e => some (n, x, e) | _ => none)
      .fin n x e

/-- A floating-point dot product accumulated into a binary32 (R161). -/
def dotOf (r : Rounding) (d : Fv) (ps : List (Fv × Fv)) : Rounded :=
  let sig := d.isSnan || ps.any fun p => p.1.isSnan || p.2.isSnan
  match sumTerms r.mode (.val d :: ps.map fun p => mulExact p.1 p.2) with
  | .invalid => FpFmt.nanR .f32 true r.gen
  | .nan _ => FpFmt.nanR .f32 sig r.gen
  | .inf n => { bits := FpFmt.signed .f32 n (FpFmt.inf .f32), gen := r.gen }
  | .fin n m e => FpFmt.round .f32 r n m e

/-! ## Compares (R91) -/

/-- The condition, and IV. -/
def fcmpOf (q : FCond) (a b : Fv) : Bool × Flags :=
  let un := a.isNan || b.isNan
  let c := fvCmp a b
  let sig := a.isSnan || b.isSnan
  match q with
  | .eq => (!un && c == 0, when sig flagIV)
  | .ne => (un || c != 0, when sig flagIV)
  | .lt => (!un && decide (c < 0), when un flagIV)
  | .le => (!un && decide (c ≤ 0), when un flagIV)
  | .gt => (!un && decide (0 < c), when un flagIV)
  | .ge => (!un && decide (0 ≤ c), when un flagIV)
  | .un => (un, when sig flagIV)
  | .ord => (!un, when sig flagIV)

/-! ## Conversions (R162 to R164) -/

/-- The kinds of conversion format (R77). -/
inductive CvKind where
  | float (f : FpFmt)
  | int (signed : Bool) (bits : Nat)
  | scale
  deriving DecidableEq, Repr

def cvKind : CvFmt → CvKind
  | .f32 => .float .f32 | .f64 => .float .f64 | .f16 => .float .f16 | .bf16 => .float .bf16
  | .e4m3 => .float .e4m3 | .e5m2 => .float .e5m2
  | .i32 => .int true 32 | .n32 => .int false 32 | .i64 => .int true 64 | .n64 => .int false 64
  | .i16 => .int true 16 | .n16 => .int false 16 | .i8 => .int true 8 | .n8 => .int false 8
  | .e8m0 => .scale

/-- The integer a bit pattern stands for (R131). -/
def intOf (signed : Bool) (bits x : Nat) : Int :=
  let x := x % 2 ^ bits
  if signed && 2 ^ (bits - 1) ≤ x then (x : Int) - 2 ^ bits else x

/-- An E8M0 code as a value (R130). -/
def scaleOf (x : Nat) : Fv := if x % 256 == 255 then .nan false else .fin false 1 ((x % 256 : Nat) - 127)

/-- The source of a conversion as a value. -/
def CvKind.value (k : CvKind) (ftzi : Bool) (x : Nat) : Fv :=
  match k with
  | .float f => f.read ftzi (x % 2 ^ f.bits)
  | .int s b => let v := intOf s b x; .fin (decide (v < 0)) v.natAbs 0
  | .scale => scaleOf x

/-- The bounds of an integer format. -/
def intMin (signed : Bool) (bits : Nat) : Int := if signed then -(2 ^ (bits - 1)) else 0
def intMax (signed : Bool) (bits : Nat) : Int := if signed then 2 ^ (bits - 1) - 1 else 2 ^ bits - 1

/-- An integer as the bits of a format. -/
def intBits (bits : Nat) (v : Int) : Nat := (v % 2 ^ bits).toNat

/-- A finite value rounded to an integer: the integer, whether it is inexact, and the generator (R163). -/
def roundInt (r : Rounding) (n : Bool) (m : Nat) (e : Int) : Int × Bool × BitVec 32 :=
  if 0 ≤ e then ((if n then -1 else 1) * (m * 2 ^ e.toNat : Nat), false, r.gen) else
  let d := (-e).toNat
  let q := m / 2 ^ d
  let rem := m % 2 ^ d
  let gen := if r.mode == .sto && rem != 0 then xorshift r.gen else r.gen
  let q := if roundUp r.mode n q rem d false gen then q + 1 else q
  ((if n then -1 else 1) * (q : Int), rem != 0, gen)

/-- Float to integer (R163); an out-of-range finite input is inexact as well (R137). -/
def toInt (r : Rounding) (signed : Bool) (bits : Nat) (v : Fv) : Rounded :=
  let out := if r.sat then flagSA else flagIV
  match v with
  | .nan _ => { bits := 0, flags := flagIV, gen := r.gen }
  | .inf n => { bits := intBits bits (if n then intMin signed bits else intMax signed bits), flags := out, gen := r.gen }
  | .fin n m e =>
    let (x, inexact, gen) := roundInt r n m e
    if x < intMin signed bits then { bits := intBits bits (intMin signed bits), flags := out ||| flagIX, gen }
    else if intMax signed bits < x then { bits := intBits bits (intMax signed bits), flags := out ||| flagIX, gen }
    else { bits := intBits bits x, flags := when inexact flagIX, gen }

/-- Into E8M0 (R164). -/
def toScale (r : Rounding) (v : Fv) : Rounded :=
  match v with
  | .nan s => { bits := 0xFF, flags := when s flagIV, gen := r.gen }
  | .inf n => if n || !r.sat then { bits := 0xFF, flags := flagIV, gen := r.gen }
    else { bits := 0xFE, flags := flagSA, gen := r.gen }
  | .fin n m e =>
    if m == 0 then { bits := 0, flags := flagIX, gen := r.gen }
    else if n then { bits := 0xFF, flags := flagIV, gen := r.gen }
    else
      let d := Nat.log2 m
      let rem := m % 2 ^ d
      let gen := if r.mode == .sto && rem != 0 then xorshift r.gen else r.gen
      let up := roundUp (match r.mode with | .rne => .rna | x => x) false 1 rem d false gen
      let code : Int := e + (d : Int) + 127 + (if up then 1 else 0)
      if 254 < code then
        { bits := if r.sat then 0xFE else 0xFF, gen, flags := flagOF ||| flagIX ||| if r.sat then flagSA else flagIV }
      else if code < 0 then { bits := 0, flags := flagUF ||| flagIX, gen }
      else { bits := code.toNat, gen, flags := when (rem != 0) flagIX ||| when (rem != 0 && decide (e + (d : Int) < -127)) flagUF }

/-- A conversion of a source value (R162 to R164). -/
def convert (r : Rounding) (dst src : CvKind) (ftzi : Bool) (x : Nat) : Rounded :=
  let v := src.value ftzi x
  match dst, src with
  | .int s b, .int t c =>
    let y := intOf t c x
    if r.sat then
      if y < intMin s b then { bits := intBits b (intMin s b), flags := flagSA, gen := r.gen }
      else if intMax s b < y then { bits := intBits b (intMax s b), flags := flagSA, gen := r.gen }
      else { bits := intBits b y, gen := r.gen }
    else { bits := intBits b y, gen := r.gen }
  | .int s b, _ => toInt r s b v
  | .scale, _ => toScale r v
  | .float f, _ =>
    match v with
    | .nan s => f.nanR s r.gen
    | .inf n => f.infinite r n
    | .fin n m e => f.round r n m e

/-! ## Ternary and power-sum weights (R132, R133, R166) -/

/-- The digits of a T3 byte as numbers: five zeros for the codes above 242 (R132). -/
def t3Digit (code i : Nat) : Int :=
  if 243 ≤ code then 0 else match code / 3 ^ i % 3 with | 0 => 0 | 1 => 1 | _ => -1

/-- A number as a T3 digit, and whether it was clamped (R166). -/
def t3Code (v : Int) : Nat × Bool := (if v < 0 then 2 else if v = 0 then 0 else 1, v < -1 || 1 < v)

/-- The integer form of a PS2 byte (R133). -/
def ps2Term (s c : Nat) : Int := if c = 7 then 0 else (if s = 1 then -1 else 1) * 2 ^ (6 - c)
def ps2Int (x : Nat) : Int := ps2Term (x / 128 % 2) (x / 16 % 8) + ps2Term (x / 8 % 2) (x % 8)

/-- The order in which R166 prefers codes for an integer `x`: nearest, larger magnitude, fewest terms, smallest c1, s2 = 0. -/
def ps2Key (x : Int) (code : Nat) : Nat :=
  let terms := (if code / 16 % 8 = 7 then 0 else 1) + (if code % 8 = 7 then 0 else 1)
  ((((x - ps2Int code).natAbs * 1024 + (512 - (ps2Int code).natAbs)) * 4 + terms) * 8 + code / 16 % 8) * 2 + code / 8 % 2

/-- The canonical codes: a missing term has sign 0 (R166). -/
def ps2Codes : List Nat :=
  (List.range 256).filter fun c => !(c / 16 % 8 == 7 && c / 128 == 1) && !(c % 8 == 7 && c / 8 % 2 == 1)

/-- The PS2 code of an integer within -128 to 128 (R166). -/
def ps2Code (x : Int) : Nat :=
  ps2Codes.foldl (fun b c => if ps2Key x c < ps2Key x b then c else b) 0x77

end Sys2Proof.Machine
end

