-- ==== Sys2Proof/Machine/Info.lean ====
section
/-! DEFINITION. What the opcode map says of each form (spec/04_opcode_map.md): its pipe, its class, the feature it needs,
the roles that may use it (spec/02 R25), the registers it reads and writes and whether its operand fields have the shape
the form demands (R49 to R51, R74, and the limits of the instruction chapters). -/

namespace Sys2Proof

/-- The pipes (R44). -/
inductive Pipe where
  | int | fp | xl | mem | ctl | eng
  deriving DecidableEq, Repr

/-- The feature bits, in the bit order of FEAT (R99). -/
inductive Feature where
  | f64mx | delta | ps2 | t3 | req | sinkmem | groom
  deriving DecidableEq, Repr

/-- The bit of FEAT and of the header's features field that holds a feature (R99, R288). -/
def Feature.bit : Feature → Nat
  | .f64mx => 0 | .delta => 1 | .ps2 => 2 | .t3 => 3 | .req => 4 | .sinkmem => 5 | .groom => 6

/-- The rows of the permission table of R25: every role; copy and general; matrix and general; all but copy. -/
inductive RoleClass where
  | all | copy | matrix | tile
  deriving DecidableEq, Repr

/-- The roles a wave can have (R23, R25). -/
inductive Role where
  | copy | matrix | vector | general
  deriving DecidableEq, Repr

/-- R25: may a wave of this role issue a form of this class? -/
def RoleClass.permits : RoleClass → Role → Bool
  | .all, _ => true
  | .copy, r => r == .copy || r == .general
  | .matrix, r => r == .matrix || r == .general
  | .tile, r => r != .copy

/-- Is the register uniform (R49)? -/
def Reg.isUni : Reg → Bool
  | .v _ => false
  | .s _ => true

/-- The 7-bit field value of a register (R49). -/
def Reg.toNat : Reg → Nat
  | .v n => n.val
  | .s n => 96 + n.val

/-- The register a 7-bit field value names (R49). -/
def Reg.ofNat (n : Nat) : Reg :=
  if h : n < 96 then .v ⟨n, h⟩ else .s (Fin.ofNat 32 (n - 96))

/-- The `k` registers from field value `r` up: a pair, a quad or an octet (R50). -/
def regs (k : Nat) (r : Reg) : List Reg := (List.range k).map fun j => Reg.ofNat (r.toNat + j)

/-- R50: the field value is a multiple of `k`. -/
def al (k : Nat) (r : Reg) : Bool := r.toNat % k == 0

/-- The registers an access of this width names (R104). -/
def Width.regCount : Width → Nat
  | .b8 | .b16 | .b32 => 1
  | .b64 => 2
  | .b128 => 4
  | .b256 => 8

/-- The size of an access in bytes (R104). -/
def Width.bytes : Width → Nat
  | .b8 => 1 | .b16 => 2 | .b32 => 4 | .b64 => 8 | .b128 => 16 | .b256 => 32

/-- The registers a value of a conversion format takes (R74, R162). -/
def CvFmt.regCount : CvFmt → Nat
  | .f64 | .i64 | .n64 => 2
  | _ => 1

/-- TRAPBASE and TRAPFRAME are pairs (R99). -/
def CtlReg.regCount : CtlReg → Nat
  | .trapbase | .trapframe => 2
  | _ => 1

/-- R99, the last column: the registers WRITES may name. -/
def CtlReg.writable : CtlReg → Bool
  | .fmode | .xstat | .prog | .trapbase | .trapframe | .trapen => true
  | _ => false

/-- Scopes a scratchpad access may carry (R52, R109, R208). -/
def Scope.atMostGang : Scope → Bool
  | .wave | .wg | .gang => true
  | _ => false

/-- Operand registers of an atomic's type (R209). -/
def AtomTy.regCount : AtomTy → Nat
  | .b32 | .f32 => 1
  | .b64 | .f64 => 2

/-- The operand size of an atomic in bytes (R209). -/
def AtomTy.bytes : AtomTy → Nat
  | .b32 | .f32 => 4
  | .b64 | .f64 => 8

/-- The registers that d names: CAS has a compare and a new value (R74, R209). -/
def atomRegs (o : AtomOp) (t : AtomTy) : Nat :=
  match o with
  | .cas => 2 * t.regCount
  | _ => t.regCount

/-- R79, R210: float types allow add, min and max only. -/
def atomOk (o : AtomOp) (t : AtomTy) : Bool :=
  match t with
  | .b32 | .b64 => true
  | .f32 | .f64 => o == .add || o == .mini || o == .maxi

/-- What the map says of one form. `kdst` is a mask register whose bits the word writes at issue (R46); `linkDst` the link
a taken call writes (R235); `uniFree` marks the forms R51 excepts, and the atomics, whose own rule stands in `shapeOk`. -/
structure Info where
  pipe    : Option Pipe := none
  ret     : Bool := false
  feat    : Option Feature := none
  role    : RoleClass := .all
  dst     : List Reg := []
  linkDst : List Reg := []
  src     : List Reg := []
  kdst    : Option Mask := none
  uniFree : Bool := false
  shapeOk : Bool := true
  deriving DecidableEq, Repr

/-- The opcode map, form by form (R68 to R73); an event has no operand fields. MOVIR reads its field d: with a uniform d and a
vector a it is taken to be ILLEGAL, though R51 speaks of destinations alone (notes/assumptions/66.md). A link that a word never
writes, as a CALL that is never taken or a TRAMP that traps, is no write of it (notes/assumptions/58.md). -/
def Instr.info : Instr → Info
  | .nop => { pipe := some .ctl }
  | .pause _ => { pipe := some .ctl }
  | .add d a b => { pipe := some .int, dst := [d], src := [a, b] }
  | .sub d a b => { pipe := some .int, dst := [d], src := [a, b] }
  | .mullo d a b => { pipe := some .int, dst := [d], src := [a, b] }
  | .mulhiI d a b => { pipe := some .int, dst := [d], src := [a, b] }
  | .minI d a b => { pipe := some .int, dst := [d], src := [a, b] }
  | .maxI d a b => { pipe := some .int, dst := [d], src := [a, b] }
  | .addsI d a b => { pipe := some .int, dst := [d], src := [a, b] }
  | .subsI d a b => { pipe := some .int, dst := [d], src := [a, b] }
  | .mulhiN d a b => { pipe := some .int, dst := [d], src := [a, b] }
  | .minN d a b => { pipe := some .int, dst := [d], src := [a, b] }
  | .maxN d a b => { pipe := some .int, dst := [d], src := [a, b] }
  | .addsN d a b => { pipe := some .int, dst := [d], src := [a, b] }
  | .subsN d a b => { pipe := some .int, dst := [d], src := [a, b] }
  | .absdI d a b => { pipe := some .int, dst := [d], src := [a, b] }
  | .absdN d a b => { pipe := some .int, dst := [d], src := [a, b] }
  | .avgN d a b => { pipe := some .int, dst := [d], src := [a, b] }
  | .and d a b => { pipe := some .int, dst := [d], src := [a, b] }
  | .or d a b => { pipe := some .int, dst := [d], src := [a, b] }
  | .xor d a b => { pipe := some .int, dst := [d], src := [a, b] }
  | .andn d a b => { pipe := some .int, dst := [d], src := [a, b] }
  | .orn d a b => { pipe := some .int, dst := [d], src := [a, b] }
  | .xnor d a b => { pipe := some .int, dst := [d], src := [a, b] }
  | .nand d a b => { pipe := some .int, dst := [d], src := [a, b] }
  | .nor d a b => { pipe := some .int, dst := [d], src := [a, b] }
  | .shl d a b => { pipe := some .int, dst := [d], src := [a, b] }
  | .shr d a b => { pipe := some .int, dst := [d], src := [a, b] }
  | .sar d a b => { pipe := some .int, dst := [d], src := [a, b] }
  | .rol d a b => { pipe := some .int, dst := [d], src := [a, b] }
  | .ror d a b => { pipe := some .int, dst := [d], src := [a, b] }
  | .fshl d a b => { pipe := some .int, dst := [d], src := [a, b, d] }
  | .fshr d a b => { pipe := some .int, dst := [d], src := [a, b, d] }
  | .popc d a => { pipe := some .int, dst := [d], src := [a] }
  | .clz d a => { pipe := some .int, dst := [d], src := [a] }
  | .ctz d a => { pipe := some .int, dst := [d], src := [a] }
  | .brev d a => { pipe := some .int, dst := [d], src := [a] }
  | .bswap d a => { pipe := some .int, dst := [d], src := [a] }
  | .bfx d a b => { pipe := some .int, dst := [d], src := [a, b] }
  | .bfi d a b => { pipe := some .int, dst := [d], src := [a, b, d] }
  | .add64 d a b => { pipe := some .int, dst := regs 2 d, src := regs 2 a ++ regs 2 b, shapeOk := al 2 d && al 2 a && al 2 b }
  | .sub64 d a b => { pipe := some .int, dst := regs 2 d, src := regs 2 a ++ regs 2 b, shapeOk := al 2 d && al 2 a && al 2 b }
  | .mul64 d a b => { pipe := some .int, dst := regs 2 d, src := regs 2 a ++ regs 2 b, shapeOk := al 2 d && al 2 a && al 2 b }
  | .shl64 d a b => { pipe := some .int, dst := regs 2 d, src := regs 2 a ++ [b], shapeOk := al 2 d && al 2 a }
  | .shr64 d a b => { pipe := some .int, dst := regs 2 d, src := regs 2 a ++ [b], shapeOk := al 2 d && al 2 a }
  | .sar64 d a b => { pipe := some .int, dst := regs 2 d, src := regs 2 a ++ [b], shapeOk := al 2 d && al 2 a }
  | .min64 d a b => { pipe := some .int, dst := regs 2 d, src := regs 2 a ++ regs 2 b, shapeOk := al 2 d && al 2 a && al 2 b }
  | .max64 d a b => { pipe := some .int, dst := regs 2 d, src := regs 2 a ++ regs 2 b, shapeOk := al 2 d && al 2 a && al 2 b }
  | .addi d a _ => { pipe := some .int, dst := [d], src := [a] }
  | .andi d a _ => { pipe := some .int, dst := [d], src := [a] }
  | .ori d a _ => { pipe := some .int, dst := [d], src := [a] }
  | .xori d a _ => { pipe := some .int, dst := [d], src := [a] }
  | .shi d a _ _ => { pipe := some .int, dst := [d], src := [a] }
  | .muli d a _ => { pipe := some .int, dst := [d], src := [a] }
  | .li d _ => { pipe := some .int, dst := [d] }
  | .lih d _ => { pipe := some .int, dst := [d], src := [d] }
  | .cmpI _ k _ a b => { pipe := some .int, kdst := some k, src := [a, b] }
  | .cmpN _ k _ a b => { pipe := some .int, kdst := some k, src := [a, b] }
  | .cmpF32 _ k _ a b => { pipe := some .int, kdst := some k, src := [a, b] }
  | .cmpF64 _ k _ a b => { pipe := some .int, kdst := some k, src := regs 2 a ++ regs 2 b, shapeOk := al 2 a && al 2 b }
  | .cmp64 _ k _ a b => { pipe := some .int, kdst := some k, src := regs 2 a ++ regs 2 b, shapeOk := al 2 a && al 2 b }
  | .cmov _ _ d a => { pipe := some .int, dst := [d], src := [a] }
  | .fadd d a b => { pipe := some .fp, dst := [d], src := [a, b] }
  | .fsub d a b => { pipe := some .fp, dst := [d], src := [a, b] }
  | .fmul d a b => { pipe := some .fp, dst := [d], src := [a, b] }
  | .fmin d a b => { pipe := some .fp, dst := [d], src := [a, b] }
  | .fmax d a b => { pipe := some .fp, dst := [d], src := [a, b] }
  | .fcpys d a b => { pipe := some .fp, dst := [d], src := [a, b] }
  | .fneg d a => { pipe := some .fp, dst := [d], src := [a] }
  | .fabs d a => { pipe := some .fp, dst := [d], src := [a] }
  | .fmac d a b => { pipe := some .fp, dst := [d], src := [a, b, d] }
  | .fmsc d a b => { pipe := some .fp, dst := [d], src := [a, b, d] }
  | .fnmac d a b => { pipe := some .fp, dst := [d], src := [a, b, d] }
  | .fnmsc d a b => { pipe := some .fp, dst := [d], src := [a, b, d] }
  | .fsqrt d a => { pipe := some .fp, ret := true, dst := [d], src := [a] }
  | .frcp d a => { pipe := some .fp, ret := true, dst := [d], src := [a] }
  | .frsq d a => { pipe := some .fp, ret := true, dst := [d], src := [a] }
  | .fex2 d a => { pipe := some .fp, ret := true, dst := [d], src := [a] }
  | .flg2 d a => { pipe := some .fp, ret := true, dst := [d], src := [a] }
  | .fsin d a => { pipe := some .fp, ret := true, dst := [d], src := [a] }
  | .fcos d a => { pipe := some .fp, ret := true, dst := [d], src := [a] }
  | .ftanh d a => { pipe := some .fp, ret := true, dst := [d], src := [a] }
  | .dadd d a b => { pipe := some .fp, ret := true, dst := regs 2 d, src := regs 2 a ++ regs 2 b, shapeOk := al 2 d && al 2 a && al 2 b }
  | .dsub d a b => { pipe := some .fp, ret := true, dst := regs 2 d, src := regs 2 a ++ regs 2 b, shapeOk := al 2 d && al 2 a && al 2 b }
  | .dmul d a b => { pipe := some .fp, ret := true, dst := regs 2 d, src := regs 2 a ++ regs 2 b, shapeOk := al 2 d && al 2 a && al 2 b }
  | .dmin d a b => { pipe := some .fp, ret := true, dst := regs 2 d, src := regs 2 a ++ regs 2 b, shapeOk := al 2 d && al 2 a && al 2 b }
  | .dmax d a b => { pipe := some .fp, ret := true, dst := regs 2 d, src := regs 2 a ++ regs 2 b, shapeOk := al 2 d && al 2 a && al 2 b }
  | .dmac d a b => { pipe := some .fp, ret := true, dst := regs 2 d, src := regs 2 a ++ regs 2 b ++ regs 2 d, shapeOk := al 2 d && al 2 a && al 2 b }
  | .dsqrt d a => { pipe := some .fp, ret := true, dst := regs 2 d, src := regs 2 a, shapeOk := al 2 d && al 2 a }
  | .hadd2 d a b => { pipe := some .fp, dst := [d], src := [a, b] }
  | .hmul2 d a b => { pipe := some .fp, dst := [d], src := [a, b] }
  | .hmac2 d a b => { pipe := some .fp, dst := [d], src := [a, b, d] }
  | .hmax2 d a b => { pipe := some .fp, dst := [d], src := [a, b] }
  | .badd2 d a b => { pipe := some .fp, dst := [d], src := [a, b] }
  | .bmul2 d a b => { pipe := some .fp, dst := [d], src := [a, b] }
  | .bmac2 d a b => { pipe := some .fp, dst := [d], src := [a, b, d] }
  | .bmax2 d a b => { pipe := some .fp, dst := [d], src := [a, b] }
  | .dp4I8 d a b => { pipe := some .fp, dst := [d], src := [a, b, d] }
  | .dp4E4m3 d a b => { pipe := some .fp, dst := [d], src := [a, b, d] }
  | .dp4E5m2 d a b => { pipe := some .fp, dst := [d], src := [a, b, d] }
  | .dp2F16 d a b => { pipe := some .fp, dst := [d], src := [a, b, d] }
  | .dp2Bf16 d a b => { pipe := some .fp, dst := [d], src := [a, b, d] }
  | .dp4Ps2 d a b => { pipe := some .fp, dst := [d], src := [a, b, d], feat := some .ps2 }
  | .cvt d a y x _ => { pipe := some .fp, dst := regs y.regCount d, src := regs x.regCount a, shapeOk := al y.regCount d && al x.regCount a }
  | .cvts d a y x _ => { pipe := some .fp, dst := regs y.regCount d, src := regs x.regCount a, shapeOk := al y.regCount d && al x.regCount a }
  | .pkl d a b => { pipe := some .fp, dst := [d], src := [a, b] }
  | .pkb d a b => { pipe := some .fp, dst := [d], src := [a, b, d] }
  | .pk3 d a b => { pipe := some .fp, dst := [d], src := [a, b], feat := some .t3 }
  | .unpk3 d a b => { pipe := some .fp, dst := [d], src := [a, b], feat := some .t3 }
  | .pkps d a => { pipe := some .fp, dst := [d], src := [a, d], feat := some .ps2 }
  | .unpkps d a b => { pipe := some .fp, dst := [d], src := [a, b], feat := some .ps2 }
  | .sext8 d a b => { pipe := some .fp, dst := [d], src := [a, b] }
  | .shfl d a b => { pipe := some .xl, ret := true, dst := [d], src := [a, b] }
  | .shflx d a b => { pipe := some .xl, ret := true, dst := [d], src := [a, b] }
  | .shflu d a b => { pipe := some .xl, ret := true, dst := [d], src := [a, b] }
  | .shfld d a b => { pipe := some .xl, ret := true, dst := [d], src := [a, b] }
  | .rdl d a b => { pipe := some .xl, ret := true, dst := [d], src := [a, b], uniFree := true, shapeOk := b.isUni }
  | .wrl d a b => { pipe := some .xl, ret := true, dst := [d], src := [a, b], shapeOk := b.isUni && a.isUni && !d.isUni }
  | .redaddI d a b => { pipe := some .xl, ret := true, dst := [d], src := [a, b], uniFree := true }
  | .redminI d a b => { pipe := some .xl, ret := true, dst := [d], src := [a, b], uniFree := true }
  | .redmaxI d a b => { pipe := some .xl, ret := true, dst := [d], src := [a, b], uniFree := true }
  | .redand d a b => { pipe := some .xl, ret := true, dst := [d], src := [a, b], uniFree := true }
  | .redor d a b => { pipe := some .xl, ret := true, dst := [d], src := [a, b], uniFree := true }
  | .redaddF32 d a b => { pipe := some .xl, ret := true, dst := [d], src := [a, b], uniFree := true }
  | .scanI d a b => { pipe := some .xl, ret := true, dst := [d], src := [a, b] }
  | .scanF32 d a b => { pipe := some .xl, ret := true, dst := [d], src := [a, b] }
  | .reads d r => { pipe := some .ctl, dst := regs r.regCount d, shapeOk := al r.regCount d && !(d.isUni && r == .lane) }
  | .writes a r => { pipe := some .ctl, src := regs r.regCount a, shapeOk := a.isUni && al r.regCount a && r.writable }
  | .srec d _ => { pipe := some .mem, ret := true, dst := [d] }
  | .rngseed a => { pipe := some .ctl, src := [a] }
  | .rngnext d => { pipe := some .fp, dst := [d], shapeOk := !d.isUni }
  | .ktov d _ => { pipe := some .ctl, dst := [d] }
  | .vtok k a => { pipe := some .ctl, kdst := some k, src := [a] }
  | .movri d a => { pipe := some .ctl, dst := [d], src := [a] }
  | .movir d a => { pipe := some .ctl, src := [a, d], shapeOk := !(d.isUni && !a.isUni) }
  | .ld z d a _ _ _ => { pipe := some .mem, ret := true, dst := regs z.regCount d, src := regs 2 a, shapeOk := al z.regCount d && al 2 a }
  | .st z d a _ _ _ => { pipe := some .mem, src := regs z.regCount d ++ regs 2 a, shapeOk := al z.regCount d && al 2 a }
  | .ldo z d a _ => { pipe := some .mem, ret := true, dst := regs z.regCount d, src := regs 2 a, shapeOk := al z.regCount d && al 2 a }
  | .sto z d a _ => { pipe := some .mem, src := regs z.regCount d ++ regs 2 a, shapeOk := al z.regCount d && al 2 a }
  | .ldsp z d a p _ _ => { pipe := some .mem, ret := true, dst := regs z.regCount d, src := [a], shapeOk := al z.regCount d && p.atMostGang }
  | .stsp z d a p _ _ => { pipe := some .mem, src := regs z.regCount d ++ [a], shapeOk := al z.regCount d && p.atMostGang }
  | .atom o t d a _ e => { pipe := some .mem, ret := e, dst := if e then regs t.regCount d else [], src := regs 2 a ++ regs (atomRegs o t) d, uniFree := true, shapeOk := al (atomRegs o t) d && atomOk o t && !(e && d.isUni && !a.isUni) && al 2 a, feat := some .groom }
  | .atomr o t d a _ e => { pipe := some .mem, ret := e, dst := if e then regs t.regCount d else [], src := regs 2 a ++ regs (atomRegs o t) d, uniFree := true, shapeOk := al (atomRegs o t) d && atomOk o t && !(e && d.isUni && !a.isUni) && al 2 a, feat := some .groom }
  | .atomsp o t d a p e => { pipe := some .mem, ret := e, dst := if e then regs t.regCount d else [], src := [a] ++ regs (atomRegs o t) d, uniFree := true, shapeOk := al (atomRegs o t) d && atomOk o t && !(e && d.isUni && !a.isUni) && p.atMostGang }
  | .fence _ => { pipe := some .mem }
  | .acq _ => { pipe := some .mem }
  | .rel _ => { pipe := some .mem }
  | .commit => { pipe := some .mem }
  | .monitor a => { pipe := some .mem, src := regs 2 a, shapeOk := a.isUni && al 2 a }
  | .waitm => { pipe := some .mem }
  | .sink _ _ _ => { pipe := some .mem, ret := true }
  | .join k => { pipe := some .ctl, kdst := some k }
  | .leave k => { pipe := some .ctl, kdst := some k }
  | .waitk _ => { pipe := some .ctl }
  | .kand k _ _ => { pipe := some .ctl, kdst := some k }
  | .kor k _ _ => { pipe := some .ctl, kdst := some k }
  | .kxor k _ _ => { pipe := some .ctl, kdst := some k }
  | .knot k _ => { pipe := some .ctl, kdst := some k }
  | .kset k _ => { pipe := some .ctl, kdst := some k }
  | .br _ _ _ _ => { pipe := some .ctl }
  | .call _ n k _ => { pipe := some .ctl, linkDst := if n && k.isNone then [] else regs 2 (.v 94) }
  | .jmp a => { pipe := some .ctl, src := regs 2 a, shapeOk := al 2 a }
  | .callr a => { pipe := some .ctl, src := regs 2 a, linkDst := regs 2 (.v 94), shapeOk := al 2 a }
  | .ret a => { pipe := some .ctl, src := regs 2 a, shapeOk := al 2 a }
  | .tramp _ n _ _ => { pipe := some .ctl, linkDst := if n then [] else regs 2 (.v 92) }
  | .trap _ => { pipe := some .ctl }
  | .brk _ => { pipe := some .ctl }
  | .eret => { pipe := some .ctl }
  | .exit => { pipe := some .ctl }
  | .xacq _ => { pipe := some .ctl }
  | .xrel _ => { pipe := some .ctl }
  | .yield => { pipe := some .ctl }
  | .barWg _ => { pipe := some .ctl }
  | .barGang _ => { pipe := some .ctl }
  | .sigdec a b => { pipe := some .ctl, src := regs 2 a ++ [b], shapeOk := a.isUni && al 2 a && b.isUni }
  | .nrec r a => { pipe := some .ctl, src := regs 4 r ++ [a], shapeOk := !r.isUni && al 4 r && a.isUni }
  | .lift _ a => { pipe := some .eng, role := .copy, src := [a], shapeOk := a.isUni }
  | .liftst d _ => { pipe := some .eng, ret := true, role := .copy, dst := [d] }
  | .liftabt _ => { pipe := some .eng, role := .copy }
  | .tqadd a => { pipe := some .eng, role := .matrix, src := [a], shapeOk := a.isUni }
  | .tqwait d _ => { pipe := some .eng, role := .matrix, dst := [d] }
  | .accz a _ => { pipe := some .eng, role := .matrix, src := [a], shapeOk := a.isUni }
  | .accrd d a => { pipe := some .eng, ret := true, role := .tile, dst := [d], src := [a] }
  | .accwr a b => { pipe := some .eng, role := .tile, src := [a, b] }
  | .accpin a b => { pipe := some .eng, role := .matrix, src := [a, b], shapeOk := a.isUni && b.isUni }
  | .accunpin a => { pipe := some .eng, role := .matrix, src := [a], shapeOk := a.isUni }
  | .accbind d a => { pipe := some .eng, role := .matrix, dst := [d], src := [a], shapeOk := d.isUni && a.isUni }
  | .accspill a b => { pipe := some .eng, role := .matrix, src := [a] ++ regs 2 b, shapeOk := a.isUni && b.isUni && al 2 b }
  | .accfill a b => { pipe := some .eng, role := .matrix, src := [a] ++ regs 2 b, shapeOk := a.isUni && b.isUni && al 2 b }
  | .dupd a => { pipe := some .eng, role := .matrix, feat := some .delta, src := [a], shapeOk := a.isUni }
  | .dqry a => { pipe := some .eng, role := .matrix, feat := some .delta, src := [a], shapeOk := a.isUni }
  | .rkinit _ a => { pipe := some .eng, src := regs 2 a, shapeOk := a.isUni && al 2 a }
  | .rkwait _ _ _ => { pipe := some .eng }
  | .rkflip _ _ => { pipe := some .eng }
  | .tidset a b => { pipe := some .eng, src := [a, b], shapeOk := a.isUni && b.isUni }
  | .tidget d a => { pipe := some .eng, ret := true, dst := [d], src := [a] }
  | .tidinv a => { pipe := some .eng, src := [a], shapeOk := a.isUni }
  | .bingo a => { pipe := some .eng, role := .copy, src := [a], shapeOk := a.isUni }
  | .unimplWord _ => { }
  | .trapEntry _ => { }
  | .gangResourceFree _ => { }
  | .gangRerun _ => { }
  | .resultLanding _ _ => { }
  | .schussGroupRun _ _ _ => { }
  | .mergingFillArrival _ => { }
  | .cacheEviction _ _ _ => { }
  | .groomerAtomic _ => { }
  | .monitorSpuriousEvent _ => { }
  | .fairnessDue _ => { }
  | .waveAged _ => { }
  | .pauseExpiry _ _ => { }
  | .watchdogKill _ => { }
  | .kernelPacket _ => { }
  | .graphPacket _ => { }
  | .barrierAndPacket _ => { }
  | .packetStart _ => { }
  | .gangPlacement _ _ _ => { }
  | .stateMove _ _ _ => { }
  | .gangRetire _ => { }
  | .launchCompletion _ => { }
  | .shapeApply _ => { }
  | .shapeTimeout _ => { }
  | .gridNodeLaunch _ _ => { }
  | .binGangLaunch _ _ => { }
  | .binTimer _ _ => { }
  | .preemptRequest _ => { }
  | .gangEvict _ => { }
  | .gangResume _ _ _ => { }
  | .partitionSwitch _ => { }
  | .contextRestore _ _ => { }
  | .arrival _ _ => { }
  | .endEntry _ _ => { }
  | .copyEntry _ _ => { }
  | .gatherEntry _ _ => { }
  | .scatterEntry _ _ => { }
  | .transqEntry _ _ => { }
  | .reduceEntry _ _ => { }
  | .allgatherEntry _ _ => { }
  | .loopEntry _ _ => { }
  | .ifEntry _ _ => { }
  | .waitphEntry _ _ => { }
  | .flipEntry _ _ => { }
  | .sigdecEntry _ _ => { }
  | .qfenceEntry _ _ => { }
  | .mmaTask _ _ => { }
  | .mmagTask _ _ => { }
  | .epiTask _ _ => { }
  | .zeroTask _ _ => { }
  | .tileTaskComplete _ _ => { }
  | .deltaUpdateRun _ _ => { }
  | .deltaQueryRun _ _ => { }
  | .spillImageWrite _ _ => { }
  | .spillImageFill _ _ => { }
  | .binningRun _ => { }
  | .tidsetPerform _ _ => { }
  | .rkinitPerform _ _ => { }
  | .publishedWriteApply _ _ => { }
  | .homeReadServe _ => { }
  | .clockMarker _ _ => { }
  | .flitArrival _ _ _ _ => { }
  | .flitRetransmit _ _ _ _ => { }
  | .hostMemWrite _ _ => { }
  | .hostMemRead _ _ => { }
  | .hostLinkDown => { }
  | .hostLinkUp => { }
  | .setContext _ => { }
  | .regQueue _ => { }
  | .unregQueue _ => { }
  | .regPredictor _ => { }
  | .regCollective _ => { }
  | .setWatchdog _ => { }
  | .tlbInv _ => { }
  | .tlbInvComplete _ => { }
  | .faultReply _ => { }
  | .resetVi _ => { }
  | .regEvents _ => { }
  | .attest _ => { }
  | .windowWrite _ _ _ => { }
  | .eventRecordDrain _ => { }
  | .coreWakeSweep _ => { }
  | .spareClusterSwap _ => { }
  | .spareRowRepair _ => { }
  | .pageRetirement _ _ => { }
  | .spareLaneSwap _ => { }
  | .dieWithdrawal _ => { }
  | .peerLost _ _ _ => { }
  | .securityAlarm _ => { }
  | .lifeCycleTransition _ => { }
  | .reset => { }
  | .hostCacheRequest _ _ => { }
  | .interruptDelivery _ => { }
  | .collectiveMemberArrival _ _ _ _ _ => { }
  | .powerLimitThrottle _ => { }

/-- R51: a uniform destination takes every register source from the uniform registers. -/
def Info.uniOk (x : Info) : Bool :=
  x.uniFree || !(x.dst.any Reg.isUni) || x.src.all Reg.isUni

/-- R80: the word of majors 0x39 to 0x3E. -/
def Instr.isUnimpl : Instr → Bool
  | .unimplWord _ => true
  | _ => false

/-- The forms a schuss group may hold (R114), and whether the form is a memory word. -/
inductive GroupForm where
  | alu | load | store
  deriving DecidableEq, Repr

/-- R113: the number of words in a group. -/
def groupLen (l : BitVec 3) : Nat := l.toNat + 1

/-- R113: the floor as a depth. -/
def Floor.depth : Floor → Nat
  | .f0 => 0 | .f1 => 1 | .f2 => 2 | .f3 => 3 | .f4 => 4 | .f5 => 5

/-- R275: the grant T = 32 + 16g. -/
def Grant.t : Grant → Nat
  | .t32 => 32 | .t48 => 48 | .t64 => 64 | .t80 => 80 | .t96 => 96

end Sys2Proof
end

