-- ==== Sys2Proof/WellFormed.lean ====
section
/-! DEFINITION. Well-formed instructions: the operand fields have the shape the form demands (spec/03 R49 to R52, spec/04
R74, R79, and the operand limits of R209, R275, R337), a uniform destination takes uniform sources only (R51), and an
event names units the module has (spec/00 R2, spec/26 R381). A word whose fields break this raises ILLEGAL. -/

namespace Sys2Proof

/-- The units an event may name: 8 dies, 128 clusters of 4 cores, 64 functions (R2, R381). -/
def Instr.eventOk : Instr → Bool
  | .gangPlacement _ c k => c < 128 && k < 4
  | .gangResume _ c k => c < 128 && k < 4
  | .stateMove _ _ c => c < 128
  | .publishedWriteApply j h => j < 8 && h < 8
  | .clockMarker j h => j < 8 && h < 8
  | .flitArrival _ j h _ => j < 8 && h < 8
  | .flitRetransmit _ j h _ => j < 8 && h < 8
  | .windowWrite fn off bs => fn < 64 && off % 64 + bs.length ≤ 64 && off + bs.length ≤ 4096
  | .coreWakeSweep c => c < 512
  | .spareClusterSwap c => c < 128
  | .dieWithdrawal d => d < 8
  | .endEntry _ q | .copyEntry _ q | .gatherEntry _ q | .scatterEntry _ q | .transqEntry _ q
  | .reduceEntry _ q | .allgatherEntry _ q | .loopEntry _ q | .ifEntry _ q | .waitphEntry _ q
  | .flipEntry _ q | .sigdecEntry _ q | .qfenceEntry _ q => q < 4
  | _ => true

/-- The check a decoder makes of a form, and the bounds of an event. -/
def Instr.wellFormed (i : Instr) : Bool :=
  i.info.shapeOk && i.info.uniOk && i.eventOk

end Sys2Proof
end

