-- ==== Sys2Proof/Decode.lean ====
section
/-! DEFINITION. The decoder and the encoder of instruction words, both from the formats of spec/03 R52 and the opcode map
of spec/04 R68 to R73. A word is read as a number: field [hi:lo] is bits hi down to lo (R3). decodeSlot is total: every
32-bit word is a slot (C, W and a form) or is refused by the name ILLEGAL (R79); a word of majors 0x39 to 0x3E is the
form unimplWord, which raises UNIMPL (R80). -/

namespace Sys2Proof

/-- Bits [lo+len-1:lo] of a word. -/
def fld (w lo len : Nat) : Nat := w / 2 ^ lo % 2 ^ len

/-- A Boolean field. -/
def bitOf (n : Nat) : Bool := n % 2 == 1

/-- A Boolean as a field value. -/
def bitTo (b : Bool) : Nat := if b then 1 else 0

/-- The field value of a ICond. -/
def ICond.code : ICond → Nat
  | .eq => 0 | .ne => 1 | .lt => 2 | .le => 3 | .gt => 4 | .ge => 5

/-- The ICond of a field value, or none where the value is reserved. -/
def ICond.ofCode : Nat → Option ICond
  | 0 => some .eq | 1 => some .ne | 2 => some .lt | 3 => some .le | 4 => some .gt | 5 => some .ge | _ => none

/-- The field value of a FCond. -/
def FCond.code : FCond → Nat
  | .eq => 0 | .ne => 1 | .lt => 2 | .le => 3 | .gt => 4 | .ge => 5 | .un => 6 | .ord => 7

/-- The FCond of a field value, or none where the value is reserved. -/
def FCond.ofCode : Nat → Option FCond
  | 0 => some .eq | 1 => some .ne | 2 => some .lt | 3 => some .le | 4 => some .gt | 5 => some .ge | 6 => some .un | 7 => some .ord | _ => none

/-- The field value of a LCond. -/
def LCond.code : LCond → Nat
  | .eq => 0 | .ne => 1 | .lt => 2 | .le => 3 | .gt => 4 | .ge => 5 | .eqn => 8 | .nen => 9 | .ltn => 10 | .len => 11 | .gtn => 12 | .gen => 13

/-- The LCond of a field value, or none where the value is reserved. -/
def LCond.ofCode : Nat → Option LCond
  | 0 => some .eq | 1 => some .ne | 2 => some .lt | 3 => some .le | 4 => some .gt | 5 => some .ge | 8 => some .eqn | 9 => some .nen | 10 => some .ltn | 11 => some .len | 12 => some .gtn | 13 => some .gen | _ => none

/-- The field value of a Combine. -/
def Combine.code : Combine → Nat
  | .set => 0 | .and => 1 | .or => 2 | .andn => 3

/-- The Combine of a field value, or none where the value is reserved. -/
def Combine.ofCode : Nat → Option Combine
  | 0 => some .set | 1 => some .and | 2 => some .or | 3 => some .andn | _ => none

/-- The field value of a ShiOp. -/
def ShiOp.code : ShiOp → Nat
  | .shl => 0 | .shr => 1 | .sar => 2 | .rol => 3

/-- The ShiOp of a field value, or none where the value is reserved. -/
def ShiOp.ofCode : Nat → Option ShiOp
  | 0 => some .shl | 1 => some .shr | 2 => some .sar | 3 => some .rol | _ => none

/-- The field value of a CvFmt. -/
def CvFmt.code : CvFmt → Nat
  | .f32 => 0 | .f64 => 1 | .f16 => 2 | .bf16 => 3 | .e4m3 => 4 | .e5m2 => 5 | .i32 => 6 | .n32 => 7 | .i64 => 8 | .n64 => 9 | .i16 => 10 | .n16 => 11 | .i8 => 12 | .n8 => 13 | .e8m0 => 14

/-- The CvFmt of a field value, or none where the value is reserved. -/
def CvFmt.ofCode : Nat → Option CvFmt
  | 0 => some .f32 | 1 => some .f64 | 2 => some .f16 | 3 => some .bf16 | 4 => some .e4m3 | 5 => some .e5m2 | 6 => some .i32 | 7 => some .n32 | 8 => some .i64 | 9 => some .n64 | 10 => some .i16 | 11 => some .n16 | 12 => some .i8 | 13 => some .n8 | 14 => some .e8m0 | _ => none

/-- The field value of a CvRound. -/
def CvRound.code : CvRound → Nat
  | .mode => 0 | .rne => 1 | .rz => 2 | .sto => 3

/-- The CvRound of a field value, or none where the value is reserved. -/
def CvRound.ofCode : Nat → Option CvRound
  | 0 => some .mode | 1 => some .rne | 2 => some .rz | 3 => some .sto | _ => none

/-- The field value of a Width. -/
def Width.code : Width → Nat
  | .b8 => 0 | .b16 => 1 | .b32 => 2 | .b64 => 3 | .b128 => 4 | .b256 => 5

/-- The Width of a field value, or none where the value is reserved. -/
def Width.ofCode : Nat → Option Width
  | 0 => some .b8 | 1 => some .b16 | 2 => some .b32 | 3 => some .b64 | 4 => some .b128 | 5 => some .b256 | _ => none

/-- The field value of a Scope. -/
def Scope.code : Scope → Nat
  | .wave => 0 | .wg => 1 | .gang => 2 | .sect => 3 | .die => 4 | .pkg => 5 | .sys => 6

/-- The Scope of a field value, or none where the value is reserved. -/
def Scope.ofCode : Nat → Option Scope
  | 0 => some .wave | 1 => some .wg | 2 => some .gang | 3 => some .sect | 4 => some .die | 5 => some .pkg | 6 => some .sys | _ => none

/-- The field value of a Ord. -/
def Ord.code : Ord → Nat
  | .plain => 0 | .acq => 1 | .rel => 2 | .acqrel => 3

/-- The Ord of a field value, or none where the value is reserved. -/
def Ord.ofCode : Nat → Option Ord
  | 0 => some .plain | 1 => some .acq | 2 => some .rel | 3 => some .acqrel | _ => none

/-- The field value of a CachePol. -/
def CachePol.code : CachePol → Nat
  | .dflt => 0 | .pass => 1 | .stream => 2 | .last => 3

/-- The CachePol of a field value, or none where the value is reserved. -/
def CachePol.ofCode : Nat → Option CachePol
  | 0 => some .dflt | 1 => some .pass | 2 => some .stream | 3 => some .last | _ => none

/-- The field value of a LoadFe. -/
def LoadFe.code : LoadFe → Nat
  | .plain => 0 | .waitkeep => 1 | .waittake => 2

/-- The LoadFe of a field value, or none where the value is reserved. -/
def LoadFe.ofCode : Nat → Option LoadFe
  | 0 => some .plain | 1 => some .waitkeep | 2 => some .waittake | _ => none

/-- The field value of a StoreFe. -/
def StoreFe.code : StoreFe → Nat
  | .plain => 0 | .fill => 1 | .waitfill => 2 | .clear => 3

/-- The StoreFe of a field value, or none where the value is reserved. -/
def StoreFe.ofCode : Nat → Option StoreFe
  | 0 => some .plain | 1 => some .fill | 2 => some .waitfill | 3 => some .clear | _ => none

/-- The field value of a AtomOp. -/
def AtomOp.code : AtomOp → Nat
  | .add => 0 | .mini => 1 | .maxi => 2 | .minn => 3 | .maxn => 4 | .and => 5 | .or => 6 | .xor => 7 | .xchg => 8 | .cas => 9 | .inc => 10 | .dec => 11

/-- The AtomOp of a field value, or none where the value is reserved. -/
def AtomOp.ofCode : Nat → Option AtomOp
  | 0 => some .add | 1 => some .mini | 2 => some .maxi | 3 => some .minn | 4 => some .maxn | 5 => some .and | 6 => some .or | 7 => some .xor | 8 => some .xchg | 9 => some .cas | 10 => some .inc | 11 => some .dec | _ => none

/-- The field value of a AtomTy. -/
def AtomTy.code : AtomTy → Nat
  | .b32 => 0 | .b64 => 1 | .f32 => 2 | .f64 => 3

/-- The AtomTy of a field value, or none where the value is reserved. -/
def AtomTy.ofCode : Nat → Option AtomTy
  | 0 => some .b32 | 1 => some .b64 | 2 => some .f32 | 3 => some .f64 | _ => none

/-- The field value of a SlotNo. -/
def SlotNo.code : SlotNo → Nat
  | .one => 1 | .two => 2 | .three => 3

/-- The SlotNo of a field value, or none where the value is reserved. -/
def SlotNo.ofCode : Nat → Option SlotNo
  | 1 => some .one | 2 => some .two | 3 => some .three | _ => none

/-- The field value of a Floor. -/
def Floor.code : Floor → Nat
  | .f0 => 0 | .f1 => 1 | .f2 => 2 | .f3 => 3 | .f4 => 4 | .f5 => 5

/-- The Floor of a field value, or none where the value is reserved. -/
def Floor.ofCode : Nat → Option Floor
  | 0 => some .f0 | 1 => some .f1 | 2 => some .f2 | 3 => some .f3 | 4 => some .f4 | 5 => some .f5 | _ => none

/-- The field value of a Grant. -/
def Grant.code : Grant → Nat
  | .t32 => 0 | .t48 => 1 | .t64 => 2 | .t80 => 3 | .t96 => 4

/-- The Grant of a field value, or none where the value is reserved. -/
def Grant.ofCode : Nat → Option Grant
  | 0 => some .t32 | 1 => some .t48 | 2 => some .t64 | 3 => some .t80 | 4 => some .t96 | _ => none

/-- The field value of a StQueue. -/
def StQueue.code : StQueue → Nat
  | .q0 => 0 | .q1 => 1 | .q2 => 2 | .q3 => 3 | .bin => 4

/-- The StQueue of a field value, or none where the value is reserved. -/
def StQueue.ofCode : Nat → Option StQueue
  | 0 => some .q0 | 1 => some .q1 | 2 => some .q2 | 3 => some .q3 | 4 => some .bin | _ => none

/-- The field value of a CtlReg. -/
def CtlReg.code : CtlReg → Nat
  | .lane => 0 | .wave => 1 | .wgid => 2 | .gangid => 3 | .gangxyz => 4 | .core => 5 | .cluster => 6 | .sector => 7 | .die => 8 | .feat => 9 | .capreg => 10 | .fmode => 11 | .xstat => 12 | .prog => 13 | .trapbase => 14 | .trapframe => 16 | .trapen => 18 | .task => 19 | .cycle => 20

/-- The CtlReg of a field value, or none where the value is reserved. -/
def CtlReg.ofCode : Nat → Option CtlReg
  | 0 => some .lane | 1 => some .wave | 2 => some .wgid | 3 => some .gangid | 4 => some .gangxyz | 5 => some .core | 6 => some .cluster | 7 => some .sector | 8 => some .die | 9 => some .feat | 10 => some .capreg | 11 => some .fmode | 12 => some .xstat | 13 => some .prog | 14 => some .trapbase | 16 => some .trapframe | 18 => some .trapen | 19 => some .task | 20 => some .cycle | _ => none

/-- A mask field: 12 to 15 name no mask register (R49). -/
def maskOf (n : Nat) : Option Mask := if h : n < 12 then some ⟨n, h⟩ else none

/-- The k field of BR and CALL: 12 is "always"; 13 to 15 are reserved (R52, R235). -/
def omaskOf (n : Nat) : Option (Option Mask) := if n = 12 then some none else (maskOf n).map some

/-- The k field of BR and CALL. -/
def omaskTo : Option Mask → Nat
  | none => 12
  | some k => k.val

/-- The n field of TQWAIT: 65 to 127 are refused (R344). -/
def tqcountOf (n : Nat) : Option TqCount := if h : n < 65 then some ⟨n, h⟩ else none

/-- Bits [26:0] of a word of majors 0x39 to 0x3E (R80); bits [26:24] of 0 and 7 are majors 0x38 and 0x3F. -/
def unimplOf (n : Nat) : Option UnimplBits :=
  if h : n / 2 ^ 24 - 1 < 6 ∧ 1 ≤ n / 2 ^ 24 then some ⟨⟨n / 2 ^ 24 - 1, h.1⟩, BitVec.ofNat 24 n⟩ else none

/-- Bits [26:0] of a word of majors 0x39 to 0x3E (R80). -/
def unimplTo (x : UnimplBits) : Nat := (x.major.val + 1) * 2 ^ 24 + x.rest.toNat

/-- Major 0x01, by its function code or subop. -/
def decode01 (w : Nat) : Option Instr :=
  match fld w 16 8 with
  | 0 => some (.nop)
  | 1 => some (.pause (BitVec.ofNat 8 (fld w 0 8)))
  | _ => none

/-- Major 0x02, by its function code or subop. -/
def decode02 (w : Nat) : Option Instr :=
  match fld w 21 3 with
  | 0 => some (.add (Reg.ofNat (fld w 14 7)) (Reg.ofNat (fld w 7 7)) (Reg.ofNat (fld w 0 7)))
  | 1 => some (.sub (Reg.ofNat (fld w 14 7)) (Reg.ofNat (fld w 7 7)) (Reg.ofNat (fld w 0 7)))
  | 2 => some (.mullo (Reg.ofNat (fld w 14 7)) (Reg.ofNat (fld w 7 7)) (Reg.ofNat (fld w 0 7)))
  | 3 => some (.mulhiI (Reg.ofNat (fld w 14 7)) (Reg.ofNat (fld w 7 7)) (Reg.ofNat (fld w 0 7)))
  | 4 => some (.minI (Reg.ofNat (fld w 14 7)) (Reg.ofNat (fld w 7 7)) (Reg.ofNat (fld w 0 7)))
  | 5 => some (.maxI (Reg.ofNat (fld w 14 7)) (Reg.ofNat (fld w 7 7)) (Reg.ofNat (fld w 0 7)))
  | 6 => some (.addsI (Reg.ofNat (fld w 14 7)) (Reg.ofNat (fld w 7 7)) (Reg.ofNat (fld w 0 7)))
  | 7 => some (.subsI (Reg.ofNat (fld w 14 7)) (Reg.ofNat (fld w 7 7)) (Reg.ofNat (fld w 0 7)))
  | _ => none

/-- Major 0x03, by its function code or subop. -/
def decode03 (w : Nat) : Option Instr :=
  match fld w 21 3 with
  | 0 => some (.mulhiN (Reg.ofNat (fld w 14 7)) (Reg.ofNat (fld w 7 7)) (Reg.ofNat (fld w 0 7)))
  | 1 => some (.minN (Reg.ofNat (fld w 14 7)) (Reg.ofNat (fld w 7 7)) (Reg.ofNat (fld w 0 7)))
  | 2 => some (.maxN (Reg.ofNat (fld w 14 7)) (Reg.ofNat (fld w 7 7)) (Reg.ofNat (fld w 0 7)))
  | 3 => some (.addsN (Reg.ofNat (fld w 14 7)) (Reg.ofNat (fld w 7 7)) (Reg.ofNat (fld w 0 7)))
  | 4 => some (.subsN (Reg.ofNat (fld w 14 7)) (Reg.ofNat (fld w 7 7)) (Reg.ofNat (fld w 0 7)))
  | 5 => some (.absdI (Reg.ofNat (fld w 14 7)) (Reg.ofNat (fld w 7 7)) (Reg.ofNat (fld w 0 7)))
  | 6 => some (.absdN (Reg.ofNat (fld w 14 7)) (Reg.ofNat (fld w 7 7)) (Reg.ofNat (fld w 0 7)))
  | 7 => some (.avgN (Reg.ofNat (fld w 14 7)) (Reg.ofNat (fld w 7 7)) (Reg.ofNat (fld w 0 7)))
  | _ => none

/-- Major 0x04, by its function code or subop. -/
def decode04 (w : Nat) : Option Instr :=
  match fld w 21 3 with
  | 0 => some (.and (Reg.ofNat (fld w 14 7)) (Reg.ofNat (fld w 7 7)) (Reg.ofNat (fld w 0 7)))
  | 1 => some (.or (Reg.ofNat (fld w 14 7)) (Reg.ofNat (fld w 7 7)) (Reg.ofNat (fld w 0 7)))
  | 2 => some (.xor (Reg.ofNat (fld w 14 7)) (Reg.ofNat (fld w 7 7)) (Reg.ofNat (fld w 0 7)))
  | 3 => some (.andn (Reg.ofNat (fld w 14 7)) (Reg.ofNat (fld w 7 7)) (Reg.ofNat (fld w 0 7)))
  | 4 => some (.orn (Reg.ofNat (fld w 14 7)) (Reg.ofNat (fld w 7 7)) (Reg.ofNat (fld w 0 7)))
  | 5 => some (.xnor (Reg.ofNat (fld w 14 7)) (Reg.ofNat (fld w 7 7)) (Reg.ofNat (fld w 0 7)))
  | 6 => some (.nand (Reg.ofNat (fld w 14 7)) (Reg.ofNat (fld w 7 7)) (Reg.ofNat (fld w 0 7)))
  | 7 => some (.nor (Reg.ofNat (fld w 14 7)) (Reg.ofNat (fld w 7 7)) (Reg.ofNat (fld w 0 7)))
  | _ => none

/-- Major 0x05, by its function code or subop. -/
def decode05 (w : Nat) : Option Instr :=
  match fld w 21 3 with
  | 0 => some (.shl (Reg.ofNat (fld w 14 7)) (Reg.ofNat (fld w 7 7)) (Reg.ofNat (fld w 0 7)))
  | 1 => some (.shr (Reg.ofNat (fld w 14 7)) (Reg.ofNat (fld w 7 7)) (Reg.ofNat (fld w 0 7)))
  | 2 => some (.sar (Reg.ofNat (fld w 14 7)) (Reg.ofNat (fld w 7 7)) (Reg.ofNat (fld w 0 7)))
  | 3 => some (.rol (Reg.ofNat (fld w 14 7)) (Reg.ofNat (fld w 7 7)) (Reg.ofNat (fld w 0 7)))
  | 4 => some (.ror (Reg.ofNat (fld w 14 7)) (Reg.ofNat (fld w 7 7)) (Reg.ofNat (fld w 0 7)))
  | 5 => some (.fshl (Reg.ofNat (fld w 14 7)) (Reg.ofNat (fld w 7 7)) (Reg.ofNat (fld w 0 7)))
  | 6 => some (.fshr (Reg.ofNat (fld w 14 7)) (Reg.ofNat (fld w 7 7)) (Reg.ofNat (fld w 0 7)))
  | _ => none

/-- Major 0x06, by its function code or subop. -/
def decode06 (w : Nat) : Option Instr :=
  match fld w 21 3 with
  | 0 => some (.popc (Reg.ofNat (fld w 14 7)) (Reg.ofNat (fld w 7 7)))
  | 1 => some (.clz (Reg.ofNat (fld w 14 7)) (Reg.ofNat (fld w 7 7)))
  | 2 => some (.ctz (Reg.ofNat (fld w 14 7)) (Reg.ofNat (fld w 7 7)))
  | 3 => some (.brev (Reg.ofNat (fld w 14 7)) (Reg.ofNat (fld w 7 7)))
  | 4 => some (.bswap (Reg.ofNat (fld w 14 7)) (Reg.ofNat (fld w 7 7)))
  | 5 => some (.bfx (Reg.ofNat (fld w 14 7)) (Reg.ofNat (fld w 7 7)) (Reg.ofNat (fld w 0 7)))
  | 6 => some (.bfi (Reg.ofNat (fld w 14 7)) (Reg.ofNat (fld w 7 7)) (Reg.ofNat (fld w 0 7)))
  | _ => none

/-- Major 0x07, by its function code or subop. -/
def decode07 (w : Nat) : Option Instr :=
  match fld w 21 3 with
  | 0 => some (.add64 (Reg.ofNat (fld w 14 7)) (Reg.ofNat (fld w 7 7)) (Reg.ofNat (fld w 0 7)))
  | 1 => some (.sub64 (Reg.ofNat (fld w 14 7)) (Reg.ofNat (fld w 7 7)) (Reg.ofNat (fld w 0 7)))
  | 2 => some (.mul64 (Reg.ofNat (fld w 14 7)) (Reg.ofNat (fld w 7 7)) (Reg.ofNat (fld w 0 7)))
  | 3 => some (.shl64 (Reg.ofNat (fld w 14 7)) (Reg.ofNat (fld w 7 7)) (Reg.ofNat (fld w 0 7)))
  | 4 => some (.shr64 (Reg.ofNat (fld w 14 7)) (Reg.ofNat (fld w 7 7)) (Reg.ofNat (fld w 0 7)))
  | 5 => some (.sar64 (Reg.ofNat (fld w 14 7)) (Reg.ofNat (fld w 7 7)) (Reg.ofNat (fld w 0 7)))
  | 6 => some (.min64 (Reg.ofNat (fld w 14 7)) (Reg.ofNat (fld w 7 7)) (Reg.ofNat (fld w 0 7)))
  | 7 => some (.max64 (Reg.ofNat (fld w 14 7)) (Reg.ofNat (fld w 7 7)) (Reg.ofNat (fld w 0 7)))
  | _ => none

/-- Major 0x16, by its function code or subop. -/
def decode16 (w : Nat) : Option Instr :=
  match fld w 21 3 with
  | 0 => some (.fadd (Reg.ofNat (fld w 14 7)) (Reg.ofNat (fld w 7 7)) (Reg.ofNat (fld w 0 7)))
  | 1 => some (.fsub (Reg.ofNat (fld w 14 7)) (Reg.ofNat (fld w 7 7)) (Reg.ofNat (fld w 0 7)))
  | 2 => some (.fmul (Reg.ofNat (fld w 14 7)) (Reg.ofNat (fld w 7 7)) (Reg.ofNat (fld w 0 7)))
  | 3 => some (.fmin (Reg.ofNat (fld w 14 7)) (Reg.ofNat (fld w 7 7)) (Reg.ofNat (fld w 0 7)))
  | 4 => some (.fmax (Reg.ofNat (fld w 14 7)) (Reg.ofNat (fld w 7 7)) (Reg.ofNat (fld w 0 7)))
  | 5 => some (.fcpys (Reg.ofNat (fld w 14 7)) (Reg.ofNat (fld w 7 7)) (Reg.ofNat (fld w 0 7)))
  | 6 => some (.fneg (Reg.ofNat (fld w 14 7)) (Reg.ofNat (fld w 7 7)))
  | 7 => some (.fabs (Reg.ofNat (fld w 14 7)) (Reg.ofNat (fld w 7 7)))
  | _ => none

/-- Major 0x17, by its function code or subop. -/
def decode17 (w : Nat) : Option Instr :=
  match fld w 21 3 with
  | 0 => some (.fmac (Reg.ofNat (fld w 14 7)) (Reg.ofNat (fld w 7 7)) (Reg.ofNat (fld w 0 7)))
  | 1 => some (.fmsc (Reg.ofNat (fld w 14 7)) (Reg.ofNat (fld w 7 7)) (Reg.ofNat (fld w 0 7)))
  | 2 => some (.fnmac (Reg.ofNat (fld w 14 7)) (Reg.ofNat (fld w 7 7)) (Reg.ofNat (fld w 0 7)))
  | 3 => some (.fnmsc (Reg.ofNat (fld w 14 7)) (Reg.ofNat (fld w 7 7)) (Reg.ofNat (fld w 0 7)))
  | _ => none

/-- Major 0x18, by its function code or subop. -/
def decode18 (w : Nat) : Option Instr :=
  match fld w 21 3 with
  | 0 => some (.fsqrt (Reg.ofNat (fld w 14 7)) (Reg.ofNat (fld w 7 7)))
  | 1 => some (.frcp (Reg.ofNat (fld w 14 7)) (Reg.ofNat (fld w 7 7)))
  | 2 => some (.frsq (Reg.ofNat (fld w 14 7)) (Reg.ofNat (fld w 7 7)))
  | 3 => some (.fex2 (Reg.ofNat (fld w 14 7)) (Reg.ofNat (fld w 7 7)))
  | 4 => some (.flg2 (Reg.ofNat (fld w 14 7)) (Reg.ofNat (fld w 7 7)))
  | 5 => some (.fsin (Reg.ofNat (fld w 14 7)) (Reg.ofNat (fld w 7 7)))
  | 6 => some (.fcos (Reg.ofNat (fld w 14 7)) (Reg.ofNat (fld w 7 7)))
  | 7 => some (.ftanh (Reg.ofNat (fld w 14 7)) (Reg.ofNat (fld w 7 7)))
  | _ => none

/-- Major 0x19, by its function code or subop. -/
def decode19 (w : Nat) : Option Instr :=
  match fld w 21 3 with
  | 0 => some (.dadd (Reg.ofNat (fld w 14 7)) (Reg.ofNat (fld w 7 7)) (Reg.ofNat (fld w 0 7)))
  | 1 => some (.dsub (Reg.ofNat (fld w 14 7)) (Reg.ofNat (fld w 7 7)) (Reg.ofNat (fld w 0 7)))
  | 2 => some (.dmul (Reg.ofNat (fld w 14 7)) (Reg.ofNat (fld w 7 7)) (Reg.ofNat (fld w 0 7)))
  | 3 => some (.dmin (Reg.ofNat (fld w 14 7)) (Reg.ofNat (fld w 7 7)) (Reg.ofNat (fld w 0 7)))
  | 4 => some (.dmax (Reg.ofNat (fld w 14 7)) (Reg.ofNat (fld w 7 7)) (Reg.ofNat (fld w 0 7)))
  | 5 => some (.dmac (Reg.ofNat (fld w 14 7)) (Reg.ofNat (fld w 7 7)) (Reg.ofNat (fld w 0 7)))
  | 6 => some (.dsqrt (Reg.ofNat (fld w 14 7)) (Reg.ofNat (fld w 7 7)))
  | _ => none

/-- Major 0x1A, by its function code or subop. -/
def decode1A (w : Nat) : Option Instr :=
  match fld w 21 3 with
  | 0 => some (.hadd2 (Reg.ofNat (fld w 14 7)) (Reg.ofNat (fld w 7 7)) (Reg.ofNat (fld w 0 7)))
  | 1 => some (.hmul2 (Reg.ofNat (fld w 14 7)) (Reg.ofNat (fld w 7 7)) (Reg.ofNat (fld w 0 7)))
  | 2 => some (.hmac2 (Reg.ofNat (fld w 14 7)) (Reg.ofNat (fld w 7 7)) (Reg.ofNat (fld w 0 7)))
  | 3 => some (.hmax2 (Reg.ofNat (fld w 14 7)) (Reg.ofNat (fld w 7 7)) (Reg.ofNat (fld w 0 7)))
  | 4 => some (.badd2 (Reg.ofNat (fld w 14 7)) (Reg.ofNat (fld w 7 7)) (Reg.ofNat (fld w 0 7)))
  | 5 => some (.bmul2 (Reg.ofNat (fld w 14 7)) (Reg.ofNat (fld w 7 7)) (Reg.ofNat (fld w 0 7)))
  | 6 => some (.bmac2 (Reg.ofNat (fld w 14 7)) (Reg.ofNat (fld w 7 7)) (Reg.ofNat (fld w 0 7)))
  | 7 => some (.bmax2 (Reg.ofNat (fld w 14 7)) (Reg.ofNat (fld w 7 7)) (Reg.ofNat (fld w 0 7)))
  | _ => none

/-- Major 0x1B, by its function code or subop. -/
def decode1B (w : Nat) : Option Instr :=
  match fld w 21 3 with
  | 0 => some (.dp4I8 (Reg.ofNat (fld w 14 7)) (Reg.ofNat (fld w 7 7)) (Reg.ofNat (fld w 0 7)))
  | 1 => some (.dp4E4m3 (Reg.ofNat (fld w 14 7)) (Reg.ofNat (fld w 7 7)) (Reg.ofNat (fld w 0 7)))
  | 2 => some (.dp4E5m2 (Reg.ofNat (fld w 14 7)) (Reg.ofNat (fld w 7 7)) (Reg.ofNat (fld w 0 7)))
  | 3 => some (.dp2F16 (Reg.ofNat (fld w 14 7)) (Reg.ofNat (fld w 7 7)) (Reg.ofNat (fld w 0 7)))
  | 4 => some (.dp2Bf16 (Reg.ofNat (fld w 14 7)) (Reg.ofNat (fld w 7 7)) (Reg.ofNat (fld w 0 7)))
  | 5 => some (.dp4Ps2 (Reg.ofNat (fld w 14 7)) (Reg.ofNat (fld w 7 7)) (Reg.ofNat (fld w 0 7)))
  | _ => none

/-- Major 0x1E, by its function code or subop. -/
def decode1E (w : Nat) : Option Instr :=
  match fld w 21 3 with
  | 0 => some (.pkl (Reg.ofNat (fld w 14 7)) (Reg.ofNat (fld w 7 7)) (Reg.ofNat (fld w 0 7)))
  | 1 => some (.pkb (Reg.ofNat (fld w 14 7)) (Reg.ofNat (fld w 7 7)) (Reg.ofNat (fld w 0 7)))
  | 2 => some (.pk3 (Reg.ofNat (fld w 14 7)) (Reg.ofNat (fld w 7 7)) (Reg.ofNat (fld w 0 7)))
  | 3 => some (.unpk3 (Reg.ofNat (fld w 14 7)) (Reg.ofNat (fld w 7 7)) (Reg.ofNat (fld w 0 7)))
  | 4 => some (.pkps (Reg.ofNat (fld w 14 7)) (Reg.ofNat (fld w 7 7)))
  | 5 => some (.unpkps (Reg.ofNat (fld w 14 7)) (Reg.ofNat (fld w 7 7)) (Reg.ofNat (fld w 0 7)))
  | 6 => some (.sext8 (Reg.ofNat (fld w 14 7)) (Reg.ofNat (fld w 7 7)) (Reg.ofNat (fld w 0 7)))
  | _ => none

/-- Major 0x1F, by its function code or subop. -/
def decode1F (w : Nat) : Option Instr :=
  match fld w 21 3 with
  | 0 => some (.shfl (Reg.ofNat (fld w 14 7)) (Reg.ofNat (fld w 7 7)) (Reg.ofNat (fld w 0 7)))
  | 1 => some (.shflx (Reg.ofNat (fld w 14 7)) (Reg.ofNat (fld w 7 7)) (Reg.ofNat (fld w 0 7)))
  | 2 => some (.shflu (Reg.ofNat (fld w 14 7)) (Reg.ofNat (fld w 7 7)) (Reg.ofNat (fld w 0 7)))
  | 3 => some (.shfld (Reg.ofNat (fld w 14 7)) (Reg.ofNat (fld w 7 7)) (Reg.ofNat (fld w 0 7)))
  | 4 => some (.rdl (Reg.ofNat (fld w 14 7)) (Reg.ofNat (fld w 7 7)) (Reg.ofNat (fld w 0 7)))
  | 5 => some (.wrl (Reg.ofNat (fld w 14 7)) (Reg.ofNat (fld w 7 7)) (Reg.ofNat (fld w 0 7)))
  | _ => none

/-- Major 0x20, by its function code or subop. -/
def decode20 (w : Nat) : Option Instr :=
  match fld w 21 3 with
  | 0 => some (.redaddI (Reg.ofNat (fld w 14 7)) (Reg.ofNat (fld w 7 7)) (Reg.ofNat (fld w 0 7)))
  | 1 => some (.redminI (Reg.ofNat (fld w 14 7)) (Reg.ofNat (fld w 7 7)) (Reg.ofNat (fld w 0 7)))
  | 2 => some (.redmaxI (Reg.ofNat (fld w 14 7)) (Reg.ofNat (fld w 7 7)) (Reg.ofNat (fld w 0 7)))
  | 3 => some (.redand (Reg.ofNat (fld w 14 7)) (Reg.ofNat (fld w 7 7)) (Reg.ofNat (fld w 0 7)))
  | 4 => some (.redor (Reg.ofNat (fld w 14 7)) (Reg.ofNat (fld w 7 7)) (Reg.ofNat (fld w 0 7)))
  | 5 => some (.redaddF32 (Reg.ofNat (fld w 14 7)) (Reg.ofNat (fld w 7 7)) (Reg.ofNat (fld w 0 7)))
  | 6 => some (.scanI (Reg.ofNat (fld w 14 7)) (Reg.ofNat (fld w 7 7)) (Reg.ofNat (fld w 0 7)))
  | 7 => some (.scanF32 (Reg.ofNat (fld w 14 7)) (Reg.ofNat (fld w 7 7)) (Reg.ofNat (fld w 0 7)))
  | _ => none

/-- Major 0x21, by its function code or subop. -/
def decode21 (w : Nat) : Option Instr :=
  match fld w 16 8 with
  | 0 => (CtlReg.ofCode (fld w 4 5)).bind fun r => some (.reads (Reg.ofNat (fld w 9 7)) r)
  | 1 => (CtlReg.ofCode (fld w 4 5)).bind fun r => some (.writes (Reg.ofNat (fld w 9 7)) r)
  | 2 => some (.srec (Reg.ofNat (fld w 9 7)) (BitVec.ofNat 4 (fld w 5 4)))
  | 3 => some (.rngseed (Reg.ofNat (fld w 9 7)))
  | 4 => some (.rngnext (Reg.ofNat (fld w 9 7)))
  | 5 => (maskOf (fld w 5 4)).bind fun k => some (.ktov (Reg.ofNat (fld w 9 7)) k)
  | 6 => (maskOf (fld w 12 4)).bind fun k => some (.vtok k (Reg.ofNat (fld w 5 7)))
  | 7 => some (.movri (Reg.ofNat (fld w 9 7)) (Reg.ofNat (fld w 2 7)))
  | 8 => some (.movir (Reg.ofNat (fld w 9 7)) (Reg.ofNat (fld w 2 7)))
  | _ => none

/-- Major 0x2B, by its function code or subop. -/
def decode2B (w : Nat) : Option Instr :=
  match fld w 16 8 with
  | 0 => (Scope.ofCode (fld w 13 3)).bind fun p => some (.fence p)
  | 1 => (Scope.ofCode (fld w 13 3)).bind fun p => some (.acq p)
  | 2 => (Scope.ofCode (fld w 13 3)).bind fun p => some (.rel p)
  | 3 => some (.commit)
  | 4 => some (.monitor (Reg.ofNat (fld w 9 7)))
  | 5 => some (.waitm)
  | _ => none

/-- Major 0x2D, by its function code or subop. -/
def decode2D (w : Nat) : Option Instr :=
  match fld w 20 4 with
  | 0 => (maskOf (fld w 16 4)).bind fun k => some (.join k)
  | 1 => (maskOf (fld w 16 4)).bind fun k => some (.leave k)
  | 2 => (maskOf (fld w 16 4)).bind fun k => some (.waitk k)
  | 3 => (maskOf (fld w 16 4)).bind fun k => (maskOf (fld w 12 4)).bind fun a => (maskOf (fld w 8 4)).bind fun b => some (.kand k a b)
  | 4 => (maskOf (fld w 16 4)).bind fun k => (maskOf (fld w 12 4)).bind fun a => (maskOf (fld w 8 4)).bind fun b => some (.kor k a b)
  | 5 => (maskOf (fld w 16 4)).bind fun k => (maskOf (fld w 12 4)).bind fun a => (maskOf (fld w 8 4)).bind fun b => some (.kxor k a b)
  | 6 => (maskOf (fld w 16 4)).bind fun k => (maskOf (fld w 12 4)).bind fun a => some (.knot k a)
  | 7 => (maskOf (fld w 16 4)).bind fun k => some (.kset k (bitOf (fld w 0 1)))
  | _ => none

/-- Major 0x30, by its function code or subop. -/
def decode30 (w : Nat) : Option Instr :=
  match fld w 21 3 with
  | 0 => some (.jmp (Reg.ofNat (fld w 7 7)))
  | 1 => some (.callr (Reg.ofNat (fld w 7 7)))
  | 2 => some (.ret (Reg.ofNat (fld w 7 7)))
  | _ => none

/-- Major 0x32, by its function code or subop. -/
def decode32 (w : Nat) : Option Instr :=
  match fld w 16 8 with
  | 0 => some (.trap (BitVec.ofNat 8 (fld w 8 8)))
  | 1 => some (.brk (BitVec.ofNat 16 (fld w 0 16)))
  | 2 => some (.eret)
  | 3 => some (.exit)
  | 4 => (Grant.ofCode (fld w 0 3)).bind fun g => some (.xacq g)
  | 5 => (Grant.ofCode (fld w 0 3)).bind fun g => some (.xrel g)
  | 6 => some (.yield)
  | 7 => some (.barWg (BitVec.ofNat 4 (fld w 0 4)))
  | 8 => some (.barGang (BitVec.ofNat 4 (fld w 0 4)))
  | 9 => some (.sigdec (Reg.ofNat (fld w 9 7)) (Reg.ofNat (fld w 2 7)))
  | 10 => some (.nrec (Reg.ofNat (fld w 9 7)) (Reg.ofNat (fld w 2 7)))
  | _ => none

/-- Major 0x33, by its function code or subop. -/
def decode33 (w : Nat) : Option Instr :=
  match fld w 16 8 with
  | 0 => some (.lift (BitVec.ofNat 2 (fld w 14 2)) (Reg.ofNat (fld w 7 7)))
  | 1 => (StQueue.ofCode (fld w 6 3)).bind fun q => some (.liftst (Reg.ofNat (fld w 9 7)) q)
  | 2 => some (.liftabt (BitVec.ofNat 2 (fld w 14 2)))
  | _ => none

/-- Major 0x34, by its function code or subop. -/
def decode34 (w : Nat) : Option Instr :=
  match fld w 16 8 with
  | 0 => some (.tqadd (Reg.ofNat (fld w 9 7)))
  | 1 => (tqcountOf (fld w 2 7)).bind fun n => some (.tqwait (Reg.ofNat (fld w 9 7)) n)
  | 2 => some (.accz (Reg.ofNat (fld w 9 7)) (BitVec.ofNat 8 (fld w 1 8)))
  | 3 => some (.accrd (Reg.ofNat (fld w 9 7)) (Reg.ofNat (fld w 2 7)))
  | 4 => some (.accwr (Reg.ofNat (fld w 9 7)) (Reg.ofNat (fld w 2 7)))
  | 5 => some (.accpin (Reg.ofNat (fld w 9 7)) (Reg.ofNat (fld w 2 7)))
  | 6 => some (.accunpin (Reg.ofNat (fld w 9 7)))
  | 7 => some (.accbind (Reg.ofNat (fld w 9 7)) (Reg.ofNat (fld w 2 7)))
  | 8 => some (.accspill (Reg.ofNat (fld w 9 7)) (Reg.ofNat (fld w 2 7)))
  | 9 => some (.accfill (Reg.ofNat (fld w 9 7)) (Reg.ofNat (fld w 2 7)))
  | _ => none

/-- Major 0x35, by its function code or subop. -/
def decode35 (w : Nat) : Option Instr :=
  match fld w 16 8 with
  | 0 => some (.dupd (Reg.ofNat (fld w 9 7)))
  | 1 => some (.dqry (Reg.ofNat (fld w 9 7)))
  | _ => none

/-- Major 0x36, by its function code or subop. -/
def decode36 (w : Nat) : Option Instr :=
  match fld w 16 8 with
  | 0 => some (.rkinit (BitVec.ofNat 4 (fld w 12 4)) (Reg.ofNat (fld w 5 7)))
  | 1 => some (.rkwait (BitVec.ofNat 4 (fld w 12 4)) (BitVec.ofNat 4 (fld w 8 4)) (bitOf (fld w 7 1)))
  | 2 => some (.rkflip (BitVec.ofNat 4 (fld w 12 4)) (BitVec.ofNat 4 (fld w 8 4)))
  | _ => none

/-- Major 0x37, by its function code or subop. -/
def decode37 (w : Nat) : Option Instr :=
  match fld w 16 8 with
  | 0 => some (.tidset (Reg.ofNat (fld w 9 7)) (Reg.ofNat (fld w 2 7)))
  | 1 => some (.tidget (Reg.ofNat (fld w 9 7)) (Reg.ofNat (fld w 2 7)))
  | 2 => some (.tidinv (Reg.ofNat (fld w 9 7)))
  | _ => none

/-- Major 0x38, by its function code or subop. -/
def decode38 (w : Nat) : Option Instr :=
  match fld w 16 8 with
  | 0 => some (.bingo (Reg.ofNat (fld w 9 7)))
  | _ => none

/-- The form a word names, before the checks of its other bits: by the major opcode in [29:24] (R43). -/
def decodeRaw (w : Nat) : Option Instr :=
  match fld w 24 6 with
  | 1 => decode01 w
  | 2 => decode02 w
  | 3 => decode03 w
  | 4 => decode04 w
  | 5 => decode05 w
  | 6 => decode06 w
  | 7 => decode07 w
  | 8 => some (.addi (Reg.ofNat (fld w 17 7)) (Reg.ofNat (fld w 10 7)) (BitVec.ofNat 10 (fld w 0 10)))
  | 9 => some (.andi (Reg.ofNat (fld w 17 7)) (Reg.ofNat (fld w 10 7)) (BitVec.ofNat 10 (fld w 0 10)))
  | 10 => some (.ori (Reg.ofNat (fld w 17 7)) (Reg.ofNat (fld w 10 7)) (BitVec.ofNat 10 (fld w 0 10)))
  | 11 => some (.xori (Reg.ofNat (fld w 17 7)) (Reg.ofNat (fld w 10 7)) (BitVec.ofNat 10 (fld w 0 10)))
  | 12 => (ShiOp.ofCode (fld w 8 2)).bind fun o => some (.shi (Reg.ofNat (fld w 17 7)) (Reg.ofNat (fld w 10 7)) o (BitVec.ofNat 5 (fld w 0 5)))
  | 13 => some (.muli (Reg.ofNat (fld w 17 7)) (Reg.ofNat (fld w 10 7)) (BitVec.ofNat 10 (fld w 0 10)))
  | 14 => some (.li (Reg.ofNat (fld w 17 7)) (BitVec.ofNat 17 (fld w 0 17)))
  | 15 => some (.lih (Reg.ofNat (fld w 17 7)) (BitVec.ofNat 17 (fld w 0 17)))
  | 16 => (ICond.ofCode (fld w 20 4)).bind fun q => (maskOf (fld w 16 4)).bind fun k => (Combine.ofCode (fld w 14 2)).bind fun x => some (.cmpI q k x (Reg.ofNat (fld w 7 7)) (Reg.ofNat (fld w 0 7)))
  | 17 => (ICond.ofCode (fld w 20 4)).bind fun q => (maskOf (fld w 16 4)).bind fun k => (Combine.ofCode (fld w 14 2)).bind fun x => some (.cmpN q k x (Reg.ofNat (fld w 7 7)) (Reg.ofNat (fld w 0 7)))
  | 18 => (FCond.ofCode (fld w 20 4)).bind fun q => (maskOf (fld w 16 4)).bind fun k => (Combine.ofCode (fld w 14 2)).bind fun x => some (.cmpF32 q k x (Reg.ofNat (fld w 7 7)) (Reg.ofNat (fld w 0 7)))
  | 19 => (FCond.ofCode (fld w 20 4)).bind fun q => (maskOf (fld w 16 4)).bind fun k => (Combine.ofCode (fld w 14 2)).bind fun x => some (.cmpF64 q k x (Reg.ofNat (fld w 7 7)) (Reg.ofNat (fld w 0 7)))
  | 20 => (LCond.ofCode (fld w 20 4)).bind fun q => (maskOf (fld w 16 4)).bind fun k => (Combine.ofCode (fld w 14 2)).bind fun x => some (.cmp64 q k x (Reg.ofNat (fld w 7 7)) (Reg.ofNat (fld w 0 7)))
  | 21 => (maskOf (fld w 20 4)).bind fun k => some (.cmov k (bitOf (fld w 19 1)) (Reg.ofNat (fld w 12 7)) (Reg.ofNat (fld w 5 7)))
  | 22 => decode16 w
  | 23 => decode17 w
  | 24 => decode18 w
  | 25 => decode19 w
  | 26 => decode1A w
  | 27 => decode1B w
  | 28 => (CvFmt.ofCode (fld w 6 4)).bind fun y => (CvFmt.ofCode (fld w 2 4)).bind fun x => (CvRound.ofCode (fld w 0 2)).bind fun r => some (.cvt (Reg.ofNat (fld w 17 7)) (Reg.ofNat (fld w 10 7)) y x r)
  | 29 => (CvFmt.ofCode (fld w 6 4)).bind fun y => (CvFmt.ofCode (fld w 2 4)).bind fun x => (CvRound.ofCode (fld w 0 2)).bind fun r => some (.cvts (Reg.ofNat (fld w 17 7)) (Reg.ofNat (fld w 10 7)) y x r)
  | 30 => decode1E w
  | 31 => decode1F w
  | 32 => decode20 w
  | 33 => decode21 w
  | 34 => (Width.ofCode (fld w 21 3)).bind fun z => (Scope.ofCode (fld w 4 3)).bind fun p => (Ord.ofCode (fld w 2 2)).bind fun r => (CachePol.ofCode (fld w 0 2)).bind fun h => some (.ld z (Reg.ofNat (fld w 14 7)) (Reg.ofNat (fld w 7 7)) p r h)
  | 35 => (Width.ofCode (fld w 21 3)).bind fun z => (Scope.ofCode (fld w 4 3)).bind fun p => (Ord.ofCode (fld w 2 2)).bind fun r => (CachePol.ofCode (fld w 0 2)).bind fun h => some (.st z (Reg.ofNat (fld w 14 7)) (Reg.ofNat (fld w 7 7)) p r h)
  | 36 => (Width.ofCode (fld w 21 3)).bind fun z => some (.ldo z (Reg.ofNat (fld w 14 7)) (Reg.ofNat (fld w 7 7)) (BitVec.ofNat 7 (fld w 0 7)))
  | 37 => (Width.ofCode (fld w 21 3)).bind fun z => some (.sto z (Reg.ofNat (fld w 14 7)) (Reg.ofNat (fld w 7 7)) (BitVec.ofNat 7 (fld w 0 7)))
  | 38 => (Width.ofCode (fld w 21 3)).bind fun z => (Scope.ofCode (fld w 4 3)).bind fun p => (Ord.ofCode (fld w 2 2)).bind fun r => (LoadFe.ofCode (fld w 0 2)).bind fun q => some (.ldsp z (Reg.ofNat (fld w 14 7)) (Reg.ofNat (fld w 7 7)) p r q)
  | 39 => (Width.ofCode (fld w 21 3)).bind fun z => (Scope.ofCode (fld w 4 3)).bind fun p => (Ord.ofCode (fld w 2 2)).bind fun r => (StoreFe.ofCode (fld w 0 2)).bind fun q => some (.stsp z (Reg.ofNat (fld w 14 7)) (Reg.ofNat (fld w 7 7)) p r q)
  | 40 => (AtomOp.ofCode (fld w 20 4)).bind fun o => (AtomTy.ofCode (fld w 18 2)).bind fun t => (Scope.ofCode (fld w 1 3)).bind fun p => some (.atom o t (Reg.ofNat (fld w 11 7)) (Reg.ofNat (fld w 4 7)) p (bitOf (fld w 0 1)))
  | 41 => (AtomOp.ofCode (fld w 20 4)).bind fun o => (AtomTy.ofCode (fld w 18 2)).bind fun t => (Scope.ofCode (fld w 1 3)).bind fun p => some (.atomr o t (Reg.ofNat (fld w 11 7)) (Reg.ofNat (fld w 4 7)) p (bitOf (fld w 0 1)))
  | 42 => (AtomOp.ofCode (fld w 20 4)).bind fun o => (AtomTy.ofCode (fld w 18 2)).bind fun t => (Scope.ofCode (fld w 1 3)).bind fun p => some (.atomsp o t (Reg.ofNat (fld w 11 7)) (Reg.ofNat (fld w 4 7)) p (bitOf (fld w 0 1)))
  | 43 => decode2B w
  | 44 => (Floor.ofCode (fld w 14 3)).bind fun f => some (.sink (BitVec.ofNat 3 (fld w 21 3)) (BitVec.ofNat 4 (fld w 17 4)) f)
  | 45 => decode2D w
  | 46 => (SlotNo.ofCode (fld w 22 2)).bind fun s => (omaskOf (fld w 17 4)).bind fun k => some (.br s (bitOf (fld w 21 1)) k (BitVec.ofNat 17 (fld w 0 17)))
  | 47 => (SlotNo.ofCode (fld w 22 2)).bind fun s => (omaskOf (fld w 17 4)).bind fun k => some (.call s (bitOf (fld w 21 1)) k (BitVec.ofNat 17 (fld w 0 17)))
  | 48 => decode30 w
  | 49 => (SlotNo.ofCode (fld w 22 2)).bind fun s => (maskOf (fld w 17 4)).bind fun k => some (.tramp s (bitOf (fld w 21 1)) k (BitVec.ofNat 17 (fld w 0 17)))
  | 50 => decode32 w
  | 51 => decode33 w
  | 52 => decode34 w
  | 53 => decode35 w
  | 54 => decode36 w
  | 55 => decode37 w
  | 56 => decode38 w
  | 57 => (unimplOf (fld w 0 27)).bind fun x => some (.unimplWord x)
  | 58 => (unimplOf (fld w 0 27)).bind fun x => some (.unimplWord x)
  | 59 => (unimplOf (fld w 0 27)).bind fun x => some (.unimplWord x)
  | 60 => (unimplOf (fld w 0 27)).bind fun x => some (.unimplWord x)
  | 61 => (unimplOf (fld w 0 27)).bind fun x => some (.unimplWord x)
  | 62 => (unimplOf (fld w 0 27)).bind fun x => some (.unimplWord x)
  | _ => none

/-- A field value at its place. -/
def put (lo x rest : Nat) : Nat := x * 2 ^ lo + rest

/-- The fixed bits of a form and its fields. -/
def form (base fields : Nat) : Nat := base + fields

/-- The word of a form with C = W = 0 (R52, R68 to R73); an event has no word. -/
def encode : Instr → Option Nat
  | .nop => some (form 0x01000000 0)
  | .pause n => some (form 0x01010000 (put 0 n.toNat 0))
  | .add d a b => some (form 0x02000000 (put 14 d.toNat (put 7 a.toNat (put 0 b.toNat 0))))
  | .sub d a b => some (form 0x02200000 (put 14 d.toNat (put 7 a.toNat (put 0 b.toNat 0))))
  | .mullo d a b => some (form 0x02400000 (put 14 d.toNat (put 7 a.toNat (put 0 b.toNat 0))))
  | .mulhiI d a b => some (form 0x02600000 (put 14 d.toNat (put 7 a.toNat (put 0 b.toNat 0))))
  | .minI d a b => some (form 0x02800000 (put 14 d.toNat (put 7 a.toNat (put 0 b.toNat 0))))
  | .maxI d a b => some (form 0x02A00000 (put 14 d.toNat (put 7 a.toNat (put 0 b.toNat 0))))
  | .addsI d a b => some (form 0x02C00000 (put 14 d.toNat (put 7 a.toNat (put 0 b.toNat 0))))
  | .subsI d a b => some (form 0x02E00000 (put 14 d.toNat (put 7 a.toNat (put 0 b.toNat 0))))
  | .mulhiN d a b => some (form 0x03000000 (put 14 d.toNat (put 7 a.toNat (put 0 b.toNat 0))))
  | .minN d a b => some (form 0x03200000 (put 14 d.toNat (put 7 a.toNat (put 0 b.toNat 0))))
  | .maxN d a b => some (form 0x03400000 (put 14 d.toNat (put 7 a.toNat (put 0 b.toNat 0))))
  | .addsN d a b => some (form 0x03600000 (put 14 d.toNat (put 7 a.toNat (put 0 b.toNat 0))))
  | .subsN d a b => some (form 0x03800000 (put 14 d.toNat (put 7 a.toNat (put 0 b.toNat 0))))
  | .absdI d a b => some (form 0x03A00000 (put 14 d.toNat (put 7 a.toNat (put 0 b.toNat 0))))
  | .absdN d a b => some (form 0x03C00000 (put 14 d.toNat (put 7 a.toNat (put 0 b.toNat 0))))
  | .avgN d a b => some (form 0x03E00000 (put 14 d.toNat (put 7 a.toNat (put 0 b.toNat 0))))
  | .and d a b => some (form 0x04000000 (put 14 d.toNat (put 7 a.toNat (put 0 b.toNat 0))))
  | .or d a b => some (form 0x04200000 (put 14 d.toNat (put 7 a.toNat (put 0 b.toNat 0))))
  | .xor d a b => some (form 0x04400000 (put 14 d.toNat (put 7 a.toNat (put 0 b.toNat 0))))
  | .andn d a b => some (form 0x04600000 (put 14 d.toNat (put 7 a.toNat (put 0 b.toNat 0))))
  | .orn d a b => some (form 0x04800000 (put 14 d.toNat (put 7 a.toNat (put 0 b.toNat 0))))
  | .xnor d a b => some (form 0x04A00000 (put 14 d.toNat (put 7 a.toNat (put 0 b.toNat 0))))
  | .nand d a b => some (form 0x04C00000 (put 14 d.toNat (put 7 a.toNat (put 0 b.toNat 0))))
  | .nor d a b => some (form 0x04E00000 (put 14 d.toNat (put 7 a.toNat (put 0 b.toNat 0))))
  | .shl d a b => some (form 0x05000000 (put 14 d.toNat (put 7 a.toNat (put 0 b.toNat 0))))
  | .shr d a b => some (form 0x05200000 (put 14 d.toNat (put 7 a.toNat (put 0 b.toNat 0))))
  | .sar d a b => some (form 0x05400000 (put 14 d.toNat (put 7 a.toNat (put 0 b.toNat 0))))
  | .rol d a b => some (form 0x05600000 (put 14 d.toNat (put 7 a.toNat (put 0 b.toNat 0))))
  | .ror d a b => some (form 0x05800000 (put 14 d.toNat (put 7 a.toNat (put 0 b.toNat 0))))
  | .fshl d a b => some (form 0x05A00000 (put 14 d.toNat (put 7 a.toNat (put 0 b.toNat 0))))
  | .fshr d a b => some (form 0x05C00000 (put 14 d.toNat (put 7 a.toNat (put 0 b.toNat 0))))
  | .popc d a => some (form 0x06000000 (put 14 d.toNat (put 7 a.toNat 0)))
  | .clz d a => some (form 0x06200000 (put 14 d.toNat (put 7 a.toNat 0)))
  | .ctz d a => some (form 0x06400000 (put 14 d.toNat (put 7 a.toNat 0)))
  | .brev d a => some (form 0x06600000 (put 14 d.toNat (put 7 a.toNat 0)))
  | .bswap d a => some (form 0x06800000 (put 14 d.toNat (put 7 a.toNat 0)))
  | .bfx d a b => some (form 0x06A00000 (put 14 d.toNat (put 7 a.toNat (put 0 b.toNat 0))))
  | .bfi d a b => some (form 0x06C00000 (put 14 d.toNat (put 7 a.toNat (put 0 b.toNat 0))))
  | .add64 d a b => some (form 0x07000000 (put 14 d.toNat (put 7 a.toNat (put 0 b.toNat 0))))
  | .sub64 d a b => some (form 0x07200000 (put 14 d.toNat (put 7 a.toNat (put 0 b.toNat 0))))
  | .mul64 d a b => some (form 0x07400000 (put 14 d.toNat (put 7 a.toNat (put 0 b.toNat 0))))
  | .shl64 d a b => some (form 0x07600000 (put 14 d.toNat (put 7 a.toNat (put 0 b.toNat 0))))
  | .shr64 d a b => some (form 0x07800000 (put 14 d.toNat (put 7 a.toNat (put 0 b.toNat 0))))
  | .sar64 d a b => some (form 0x07A00000 (put 14 d.toNat (put 7 a.toNat (put 0 b.toNat 0))))
  | .min64 d a b => some (form 0x07C00000 (put 14 d.toNat (put 7 a.toNat (put 0 b.toNat 0))))
  | .max64 d a b => some (form 0x07E00000 (put 14 d.toNat (put 7 a.toNat (put 0 b.toNat 0))))
  | .addi d a i => some (form 0x08000000 (put 17 d.toNat (put 10 a.toNat (put 0 i.toNat 0))))
  | .andi d a i => some (form 0x09000000 (put 17 d.toNat (put 10 a.toNat (put 0 i.toNat 0))))
  | .ori d a i => some (form 0x0A000000 (put 17 d.toNat (put 10 a.toNat (put 0 i.toNat 0))))
  | .xori d a i => some (form 0x0B000000 (put 17 d.toNat (put 10 a.toNat (put 0 i.toNat 0))))
  | .shi d a o n => some (form 0x0C000000 (put 17 d.toNat (put 10 a.toNat (put 8 o.code (put 0 n.toNat 0)))))
  | .muli d a i => some (form 0x0D000000 (put 17 d.toNat (put 10 a.toNat (put 0 i.toNat 0))))
  | .li d i => some (form 0x0E000000 (put 17 d.toNat (put 0 i.toNat 0)))
  | .lih d i => some (form 0x0F000000 (put 17 d.toNat (put 0 i.toNat 0)))
  | .cmpI q k x a b => some (form 0x10000000 (put 20 q.code (put 16 k.val (put 14 x.code (put 7 a.toNat (put 0 b.toNat 0))))))
  | .cmpN q k x a b => some (form 0x11000000 (put 20 q.code (put 16 k.val (put 14 x.code (put 7 a.toNat (put 0 b.toNat 0))))))
  | .cmpF32 q k x a b => some (form 0x12000000 (put 20 q.code (put 16 k.val (put 14 x.code (put 7 a.toNat (put 0 b.toNat 0))))))
  | .cmpF64 q k x a b => some (form 0x13000000 (put 20 q.code (put 16 k.val (put 14 x.code (put 7 a.toNat (put 0 b.toNat 0))))))
  | .cmp64 q k x a b => some (form 0x14000000 (put 20 q.code (put 16 k.val (put 14 x.code (put 7 a.toNat (put 0 b.toNat 0))))))
  | .cmov k n d a => some (form 0x15000000 (put 20 k.val (put 19 (bitTo n) (put 12 d.toNat (put 5 a.toNat 0)))))
  | .fadd d a b => some (form 0x16000000 (put 14 d.toNat (put 7 a.toNat (put 0 b.toNat 0))))
  | .fsub d a b => some (form 0x16200000 (put 14 d.toNat (put 7 a.toNat (put 0 b.toNat 0))))
  | .fmul d a b => some (form 0x16400000 (put 14 d.toNat (put 7 a.toNat (put 0 b.toNat 0))))
  | .fmin d a b => some (form 0x16600000 (put 14 d.toNat (put 7 a.toNat (put 0 b.toNat 0))))
  | .fmax d a b => some (form 0x16800000 (put 14 d.toNat (put 7 a.toNat (put 0 b.toNat 0))))
  | .fcpys d a b => some (form 0x16A00000 (put 14 d.toNat (put 7 a.toNat (put 0 b.toNat 0))))
  | .fneg d a => some (form 0x16C00000 (put 14 d.toNat (put 7 a.toNat 0)))
  | .fabs d a => some (form 0x16E00000 (put 14 d.toNat (put 7 a.toNat 0)))
  | .fmac d a b => some (form 0x17000000 (put 14 d.toNat (put 7 a.toNat (put 0 b.toNat 0))))
  | .fmsc d a b => some (form 0x17200000 (put 14 d.toNat (put 7 a.toNat (put 0 b.toNat 0))))
  | .fnmac d a b => some (form 0x17400000 (put 14 d.toNat (put 7 a.toNat (put 0 b.toNat 0))))
  | .fnmsc d a b => some (form 0x17600000 (put 14 d.toNat (put 7 a.toNat (put 0 b.toNat 0))))
  | .fsqrt d a => some (form 0x18000000 (put 14 d.toNat (put 7 a.toNat 0)))
  | .frcp d a => some (form 0x18200000 (put 14 d.toNat (put 7 a.toNat 0)))
  | .frsq d a => some (form 0x18400000 (put 14 d.toNat (put 7 a.toNat 0)))
  | .fex2 d a => some (form 0x18600000 (put 14 d.toNat (put 7 a.toNat 0)))
  | .flg2 d a => some (form 0x18800000 (put 14 d.toNat (put 7 a.toNat 0)))
  | .fsin d a => some (form 0x18A00000 (put 14 d.toNat (put 7 a.toNat 0)))
  | .fcos d a => some (form 0x18C00000 (put 14 d.toNat (put 7 a.toNat 0)))
  | .ftanh d a => some (form 0x18E00000 (put 14 d.toNat (put 7 a.toNat 0)))
  | .dadd d a b => some (form 0x19000000 (put 14 d.toNat (put 7 a.toNat (put 0 b.toNat 0))))
  | .dsub d a b => some (form 0x19200000 (put 14 d.toNat (put 7 a.toNat (put 0 b.toNat 0))))
  | .dmul d a b => some (form 0x19400000 (put 14 d.toNat (put 7 a.toNat (put 0 b.toNat 0))))
  | .dmin d a b => some (form 0x19600000 (put 14 d.toNat (put 7 a.toNat (put 0 b.toNat 0))))
  | .dmax d a b => some (form 0x19800000 (put 14 d.toNat (put 7 a.toNat (put 0 b.toNat 0))))
  | .dmac d a b => some (form 0x19A00000 (put 14 d.toNat (put 7 a.toNat (put 0 b.toNat 0))))
  | .dsqrt d a => some (form 0x19C00000 (put 14 d.toNat (put 7 a.toNat 0)))
  | .hadd2 d a b => some (form 0x1A000000 (put 14 d.toNat (put 7 a.toNat (put 0 b.toNat 0))))
  | .hmul2 d a b => some (form 0x1A200000 (put 14 d.toNat (put 7 a.toNat (put 0 b.toNat 0))))
  | .hmac2 d a b => some (form 0x1A400000 (put 14 d.toNat (put 7 a.toNat (put 0 b.toNat 0))))
  | .hmax2 d a b => some (form 0x1A600000 (put 14 d.toNat (put 7 a.toNat (put 0 b.toNat 0))))
  | .badd2 d a b => some (form 0x1A800000 (put 14 d.toNat (put 7 a.toNat (put 0 b.toNat 0))))
  | .bmul2 d a b => some (form 0x1AA00000 (put 14 d.toNat (put 7 a.toNat (put 0 b.toNat 0))))
  | .bmac2 d a b => some (form 0x1AC00000 (put 14 d.toNat (put 7 a.toNat (put 0 b.toNat 0))))
  | .bmax2 d a b => some (form 0x1AE00000 (put 14 d.toNat (put 7 a.toNat (put 0 b.toNat 0))))
  | .dp4I8 d a b => some (form 0x1B000000 (put 14 d.toNat (put 7 a.toNat (put 0 b.toNat 0))))
  | .dp4E4m3 d a b => some (form 0x1B200000 (put 14 d.toNat (put 7 a.toNat (put 0 b.toNat 0))))
  | .dp4E5m2 d a b => some (form 0x1B400000 (put 14 d.toNat (put 7 a.toNat (put 0 b.toNat 0))))
  | .dp2F16 d a b => some (form 0x1B600000 (put 14 d.toNat (put 7 a.toNat (put 0 b.toNat 0))))
  | .dp2Bf16 d a b => some (form 0x1B800000 (put 14 d.toNat (put 7 a.toNat (put 0 b.toNat 0))))
  | .dp4Ps2 d a b => some (form 0x1BA00000 (put 14 d.toNat (put 7 a.toNat (put 0 b.toNat 0))))
  | .cvt d a y x r => some (form 0x1C000000 (put 17 d.toNat (put 10 a.toNat (put 6 y.code (put 2 x.code (put 0 r.code 0))))))
  | .cvts d a y x r => some (form 0x1D000000 (put 17 d.toNat (put 10 a.toNat (put 6 y.code (put 2 x.code (put 0 r.code 0))))))
  | .pkl d a b => some (form 0x1E000000 (put 14 d.toNat (put 7 a.toNat (put 0 b.toNat 0))))
  | .pkb d a b => some (form 0x1E200000 (put 14 d.toNat (put 7 a.toNat (put 0 b.toNat 0))))
  | .pk3 d a b => some (form 0x1E400000 (put 14 d.toNat (put 7 a.toNat (put 0 b.toNat 0))))
  | .unpk3 d a b => some (form 0x1E600000 (put 14 d.toNat (put 7 a.toNat (put 0 b.toNat 0))))
  | .pkps d a => some (form 0x1E800000 (put 14 d.toNat (put 7 a.toNat 0)))
  | .unpkps d a b => some (form 0x1EA00000 (put 14 d.toNat (put 7 a.toNat (put 0 b.toNat 0))))
  | .sext8 d a b => some (form 0x1EC00000 (put 14 d.toNat (put 7 a.toNat (put 0 b.toNat 0))))
  | .shfl d a b => some (form 0x1F000000 (put 14 d.toNat (put 7 a.toNat (put 0 b.toNat 0))))
  | .shflx d a b => some (form 0x1F200000 (put 14 d.toNat (put 7 a.toNat (put 0 b.toNat 0))))
  | .shflu d a b => some (form 0x1F400000 (put 14 d.toNat (put 7 a.toNat (put 0 b.toNat 0))))
  | .shfld d a b => some (form 0x1F600000 (put 14 d.toNat (put 7 a.toNat (put 0 b.toNat 0))))
  | .rdl d a b => some (form 0x1F800000 (put 14 d.toNat (put 7 a.toNat (put 0 b.toNat 0))))
  | .wrl d a b => some (form 0x1FA00000 (put 14 d.toNat (put 7 a.toNat (put 0 b.toNat 0))))
  | .redaddI d a b => some (form 0x20000000 (put 14 d.toNat (put 7 a.toNat (put 0 b.toNat 0))))
  | .redminI d a b => some (form 0x20200000 (put 14 d.toNat (put 7 a.toNat (put 0 b.toNat 0))))
  | .redmaxI d a b => some (form 0x20400000 (put 14 d.toNat (put 7 a.toNat (put 0 b.toNat 0))))
  | .redand d a b => some (form 0x20600000 (put 14 d.toNat (put 7 a.toNat (put 0 b.toNat 0))))
  | .redor d a b => some (form 0x20800000 (put 14 d.toNat (put 7 a.toNat (put 0 b.toNat 0))))
  | .redaddF32 d a b => some (form 0x20A00000 (put 14 d.toNat (put 7 a.toNat (put 0 b.toNat 0))))
  | .scanI d a b => some (form 0x20C00000 (put 14 d.toNat (put 7 a.toNat (put 0 b.toNat 0))))
  | .scanF32 d a b => some (form 0x20E00000 (put 14 d.toNat (put 7 a.toNat (put 0 b.toNat 0))))
  | .reads d r => some (form 0x21000000 (put 9 d.toNat (put 4 r.code 0)))
  | .writes a r => some (form 0x21010000 (put 9 a.toNat (put 4 r.code 0)))
  | .srec d s => some (form 0x21020000 (put 9 d.toNat (put 5 s.toNat 0)))
  | .rngseed a => some (form 0x21030000 (put 9 a.toNat 0))
  | .rngnext d => some (form 0x21040000 (put 9 d.toNat 0))
  | .ktov d k => some (form 0x21050000 (put 9 d.toNat (put 5 k.val 0)))
  | .vtok k a => some (form 0x21060000 (put 12 k.val (put 5 a.toNat 0)))
  | .movri d a => some (form 0x21070000 (put 9 d.toNat (put 2 a.toNat 0)))
  | .movir d a => some (form 0x21080000 (put 9 d.toNat (put 2 a.toNat 0)))
  | .ld z d a p r h => some (form 0x22000000 (put 21 z.code (put 14 d.toNat (put 7 a.toNat (put 4 p.code (put 2 r.code (put 0 h.code 0)))))))
  | .st z d a p r h => some (form 0x23000000 (put 21 z.code (put 14 d.toNat (put 7 a.toNat (put 4 p.code (put 2 r.code (put 0 h.code 0)))))))
  | .ldo z d a i => some (form 0x24000000 (put 21 z.code (put 14 d.toNat (put 7 a.toNat (put 0 i.toNat 0)))))
  | .sto z d a i => some (form 0x25000000 (put 21 z.code (put 14 d.toNat (put 7 a.toNat (put 0 i.toNat 0)))))
  | .ldsp z d a p r q => some (form 0x26000000 (put 21 z.code (put 14 d.toNat (put 7 a.toNat (put 4 p.code (put 2 r.code (put 0 q.code 0)))))))
  | .stsp z d a p r q => some (form 0x27000000 (put 21 z.code (put 14 d.toNat (put 7 a.toNat (put 4 p.code (put 2 r.code (put 0 q.code 0)))))))
  | .atom o t d a p e => some (form 0x28000000 (put 20 o.code (put 18 t.code (put 11 d.toNat (put 4 a.toNat (put 1 p.code (put 0 (bitTo e) 0)))))))
  | .atomr o t d a p e => some (form 0x29000000 (put 20 o.code (put 18 t.code (put 11 d.toNat (put 4 a.toNat (put 1 p.code (put 0 (bitTo e) 0)))))))
  | .atomsp o t d a p e => some (form 0x2A000000 (put 20 o.code (put 18 t.code (put 11 d.toNat (put 4 a.toNat (put 1 p.code (put 0 (bitTo e) 0)))))))
  | .fence p => some (form 0x2B000000 (put 13 p.code 0))
  | .acq p => some (form 0x2B010000 (put 13 p.code 0))
  | .rel p => some (form 0x2B020000 (put 13 p.code 0))
  | .commit => some (form 0x2B030000 0)
  | .monitor a => some (form 0x2B040000 (put 9 a.toNat 0))
  | .waitm => some (form 0x2B050000 0)
  | .sink l r f => some (form 0x2C000000 (put 21 l.toNat (put 17 r.toNat (put 14 f.code 0))))
  | .join k => some (form 0x2D000000 (put 16 k.val 0))
  | .leave k => some (form 0x2D100000 (put 16 k.val 0))
  | .waitk k => some (form 0x2D200000 (put 16 k.val 0))
  | .kand k a b => some (form 0x2D300000 (put 16 k.val (put 12 a.val (put 8 b.val 0))))
  | .kor k a b => some (form 0x2D400000 (put 16 k.val (put 12 a.val (put 8 b.val 0))))
  | .kxor k a b => some (form 0x2D500000 (put 16 k.val (put 12 a.val (put 8 b.val 0))))
  | .knot k a => some (form 0x2D600000 (put 16 k.val (put 12 a.val 0)))
  | .kset k i => some (form 0x2D700000 (put 16 k.val (put 0 (bitTo i) 0)))
  | .br s n k o => some (form 0x2E000000 (put 22 s.code (put 21 (bitTo n) (put 17 (omaskTo k) (put 0 o.toNat 0)))))
  | .call s n k o => some (form 0x2F000000 (put 22 s.code (put 21 (bitTo n) (put 17 (omaskTo k) (put 0 o.toNat 0)))))
  | .jmp a => some (form 0x30000000 (put 7 a.toNat 0))
  | .callr a => some (form 0x30200000 (put 7 a.toNat 0))
  | .ret a => some (form 0x30400000 (put 7 a.toNat 0))
  | .tramp s n k o => some (form 0x31000000 (put 22 s.code (put 21 (bitTo n) (put 17 k.val (put 0 o.toNat 0)))))
  | .trap n => some (form 0x32000000 (put 8 n.toNat 0))
  | .brk i => some (form 0x32010000 (put 0 i.toNat 0))
  | .eret => some (form 0x32020000 0)
  | .exit => some (form 0x32030000 0)
  | .xacq g => some (form 0x32040000 (put 0 g.code 0))
  | .xrel g => some (form 0x32050000 (put 0 g.code 0))
  | .yield => some (form 0x32060000 0)
  | .barWg i => some (form 0x32070000 (put 0 i.toNat 0))
  | .barGang i => some (form 0x32080000 (put 0 i.toNat 0))
  | .sigdec a b => some (form 0x32090000 (put 9 a.toNat (put 2 b.toNat 0)))
  | .nrec r a => some (form 0x320A0000 (put 9 r.toNat (put 2 a.toNat 0)))
  | .lift q a => some (form 0x33000000 (put 14 q.toNat (put 7 a.toNat 0)))
  | .liftst d q => some (form 0x33010000 (put 9 d.toNat (put 6 q.code 0)))
  | .liftabt q => some (form 0x33020000 (put 14 q.toNat 0))
  | .tqadd a => some (form 0x34000000 (put 9 a.toNat 0))
  | .tqwait d n => some (form 0x34010000 (put 9 d.toNat (put 2 n.val 0)))
  | .accz a n => some (form 0x34020000 (put 9 a.toNat (put 1 n.toNat 0)))
  | .accrd d a => some (form 0x34030000 (put 9 d.toNat (put 2 a.toNat 0)))
  | .accwr a b => some (form 0x34040000 (put 9 a.toNat (put 2 b.toNat 0)))
  | .accpin a b => some (form 0x34050000 (put 9 a.toNat (put 2 b.toNat 0)))
  | .accunpin a => some (form 0x34060000 (put 9 a.toNat 0))
  | .accbind d a => some (form 0x34070000 (put 9 d.toNat (put 2 a.toNat 0)))
  | .accspill a b => some (form 0x34080000 (put 9 a.toNat (put 2 b.toNat 0)))
  | .accfill a b => some (form 0x34090000 (put 9 a.toNat (put 2 b.toNat 0)))
  | .dupd a => some (form 0x35000000 (put 9 a.toNat 0))
  | .dqry a => some (form 0x35010000 (put 9 a.toNat 0))
  | .rkinit r a => some (form 0x36000000 (put 12 r.toNat (put 5 a.toNat 0)))
  | .rkwait r s p => some (form 0x36010000 (put 12 r.toNat (put 8 s.toNat (put 7 (bitTo p) 0))))
  | .rkflip r s => some (form 0x36020000 (put 12 r.toNat (put 8 s.toNat 0)))
  | .tidset a b => some (form 0x37000000 (put 9 a.toNat (put 2 b.toNat 0)))
  | .tidget d a => some (form 0x37010000 (put 9 d.toNat (put 2 a.toNat 0)))
  | .tidinv a => some (form 0x37020000 (put 9 a.toNat 0))
  | .bingo a => some (form 0x38000000 (put 9 a.toNat 0))
  | .unimplWord x => some (form 0x38000000 (put 0 (unimplTo x) 0))
  | .trapEntry _ => none
  | .gangResourceFree _ => none
  | .gangRerun _ => none
  | .resultLanding _ _ => none
  | .schussGroupRun _ _ _ => none
  | .mergingFillArrival _ => none
  | .cacheEviction _ _ _ => none
  | .groomerAtomic _ => none
  | .monitorSpuriousEvent _ => none
  | .fairnessDue _ => none
  | .waveAged _ => none
  | .pauseExpiry _ _ => none
  | .watchdogKill _ => none
  | .kernelPacket _ => none
  | .graphPacket _ => none
  | .barrierAndPacket _ => none
  | .packetStart _ => none
  | .gangPlacement _ _ _ => none
  | .stateMove _ _ _ => none
  | .gangRetire _ => none
  | .launchCompletion _ => none
  | .shapeApply _ => none
  | .shapeTimeout _ => none
  | .gridNodeLaunch _ _ => none
  | .binGangLaunch _ _ => none
  | .binTimer _ _ => none
  | .preemptRequest _ => none
  | .gangEvict _ => none
  | .gangResume _ _ _ => none
  | .partitionSwitch _ => none
  | .contextRestore _ _ => none
  | .arrival _ _ => none
  | .endEntry _ _ => none
  | .copyEntry _ _ => none
  | .gatherEntry _ _ => none
  | .scatterEntry _ _ => none
  | .transqEntry _ _ => none
  | .reduceEntry _ _ => none
  | .allgatherEntry _ _ => none
  | .loopEntry _ _ => none
  | .ifEntry _ _ => none
  | .waitphEntry _ _ => none
  | .flipEntry _ _ => none
  | .sigdecEntry _ _ => none
  | .qfenceEntry _ _ => none
  | .mmaTask _ _ => none
  | .mmagTask _ _ => none
  | .epiTask _ _ => none
  | .zeroTask _ _ => none
  | .tileTaskComplete _ _ => none
  | .deltaUpdateRun _ _ => none
  | .deltaQueryRun _ _ => none
  | .spillImageWrite _ _ => none
  | .spillImageFill _ _ => none
  | .binningRun _ => none
  | .tidsetPerform _ _ => none
  | .rkinitPerform _ _ => none
  | .publishedWriteApply _ _ => none
  | .homeReadServe _ => none
  | .clockMarker _ _ => none
  | .flitArrival _ _ _ _ => none
  | .flitRetransmit _ _ _ _ => none
  | .hostMemWrite _ _ => none
  | .hostMemRead _ _ => none
  | .hostLinkDown => none
  | .hostLinkUp => none
  | .setContext _ => none
  | .regQueue _ => none
  | .unregQueue _ => none
  | .regPredictor _ => none
  | .regCollective _ => none
  | .setWatchdog _ => none
  | .tlbInv _ => none
  | .tlbInvComplete _ => none
  | .faultReply _ => none
  | .resetVi _ => none
  | .regEvents _ => none
  | .attest _ => none
  | .windowWrite _ _ _ => none
  | .eventRecordDrain _ => none
  | .coreWakeSweep _ => none
  | .spareClusterSwap _ => none
  | .spareRowRepair _ => none
  | .pageRetirement _ _ => none
  | .spareLaneSwap _ => none
  | .dieWithdrawal _ => none
  | .peerLost _ _ _ => none
  | .securityAlarm _ => none
  | .lifeCycleTransition _ => none
  | .reset => none
  | .hostCacheRequest _ _ => none
  | .interruptDelivery _ => none
  | .collectiveMemberArrival _ _ _ _ _ => none
  | .powerLimitThrottle _ => none

/-- An instruction word with its C and W bits (R43). -/
structure Slot where
  c : Bool
  w : Bool
  i : Instr
  deriving DecidableEq, Repr

/-- R79: a word names a form when the fields of that form, written back, give every bit [29:0] of the word (so every
must-be-zero bit is 0) and its operands have the form's shape; every other word is ILLEGAL (`none`). -/
def decodeForm (w : Nat) : Option Instr :=
  (decodeRaw w).bind fun i => if encode i = some (w % 2 ^ 30) ∧ i.wellFormed then some i else none

/-- The decoder: C, W and the form of a 32-bit word, or none where the word is ILLEGAL (R43, R79). -/
def decodeSlot (w : Word) : Option Slot :=
  (decodeForm w.toNat).map fun i => ⟨bitOf (w.toNat / 2 ^ 31), bitOf (w.toNat / 2 ^ 30), i⟩

/-- The encoder of a slot word (R43). -/
def encodeSlot (s : Slot) : Option Word :=
  (encode s.i).map fun n => BitVec.ofNat 32 (bitTo s.c * 2 ^ 31 + bitTo s.w * 2 ^ 30 + n)

/-- What the decoder reads from an instruction whose bits are `w`, as spec/opcode_table.json numbers them: one 32-bit
word. A row of the table's events has no bits, and no word stands for it. -/
def decodeTableWord (nbits w : Nat) : Option Instr :=
  if nbits ≤ 32 then (decodeSlot (BitVec.ofNat 32 (w % 2 ^ nbits))).map Slot.i else none

end Sys2Proof
end

