-- ==== Sys2Proof/Machine/Map.lean ====
section
/-! DEFINITION. Finite maps from numbers as sorted association lists in one canonical form: keys strictly rise and no
entry holds the value an unlisted key reads as, so equal maps are equal lists. Memory is such a list of Host.Cell; so are
a thread's vector registers, a wave's uniform registers and an accumulator tile. Laws in Sys2Proof/Laws/Map.lean. -/

namespace Sys2Proof.Machine

/-- A finite map; what an unlisted key reads as is an argument of its operations. -/
abbrev Map (α : Type) := List (Nat × α)

namespace Map

variable {α : Type}

/-- The value at key `a`; an unlisted key reads `d`. -/
def get (d : α) : Map α → Nat → α
  | [], _ => d
  | (k, v) :: m, a => if k = a then v else get d m a

/-- The map without key `a`. -/
def erase (m : Map α) (a : Nat) : Map α := m.filter fun p => p.1 != a

/-- `(a, v)` put before the first larger key. -/
def insert (a : Nat) (v : α) : Map α → Map α
  | [] => [(a, v)]
  | (k, w) :: m => if a < k then (a, v) :: (k, w) :: m else (k, w) :: insert a v m

/-- The map with `v` at key `a`; writing what an unlisted key reads as removes the entry. -/
def set [DecidableEq α] (d : α) (m : Map α) (a : Nat) (v : α) : Map α :=
  if v = d then m.erase a else (m.erase a).insert a v

/-- Keys strictly rise from `lo` up and no entry holds `d`. -/
def wfFrom [DecidableEq α] (d : α) : Nat → Map α → Bool
  | _, [] => true
  | lo, (k, v) :: m => lo ≤ k && v ≠ d && wfFrom d (k + 1) m

/-- The canonical form. -/
def wf [DecidableEq α] (d : α) (m : Map α) : Bool := wfFrom d 0 m

end Map

/-- Memory: bytes by address (R5). A byte that nothing has written reads zero: every memory is wiped at reset (R389). -/
abbrev Memory := List Host.Cell

namespace Memory

/-- One byte. -/
def read (m : Memory) (a : Nat) : Byte := Map.get 0#8 m a

/-- One byte written. -/
def write (m : Memory) (a : Nat) (b : Byte) : Memory := Map.set 0#8 m a b

/-- The canonical form of a memory. -/
def wf (m : Memory) : Bool := Map.wf 0#8 m

/-- `n` bytes from `a` up, as one little-endian number (R5). -/
def readNat (m : Memory) (a : Nat) : Nat → Nat
  | 0 => 0
  | n + 1 => (read m a).toNat + 256 * readNat m (a + 1) n

/-- The `n` low bytes of `x` written little-endian from `a` up (R5). -/
def writeNat (m : Memory) (a : Nat) : Nat → Nat → Memory
  | 0, _ => m
  | n + 1, x => writeNat (write m a (BitVec.ofNat 8 x)) (a + 1) n (x / 256)

end Memory

end Sys2Proof.Machine
end

