-- ==== Sys2Proof/Machine/State.lean ====
section
/-! DEFINITION. The state of the whole module as plain data: threads, waves and gangs; the caches, memory, the fabric's
flows; the engines' queues and tiles; launches, contexts, interfaces and partitions. Every rule that gives the machine a
piece of state is named beside the field. Units are numbered through the package: die 0 to 7, sector = 2 die + its number
in the die, cluster = 8 sector + its number, core = 4 cluster + its number, track = 8 core + its number (R2, R18). -/

namespace Sys2Proof.Machine

/-- Why the machine stops. -/
inductive Fault where
  /-- Raised by the meaning of an instruction WORD that is executed while no PC group is issuing it: only a track's
  issue executes a word (R45), so no step of the machine ends here. Safe. -/
  | noIssuer
  deriving DecidableEq, Repr

/-- Why an instruction is refused. -/
inductive Refusal where
  /-- Raised by an arm of exec for an instruction that has no meaning yet. Safe. -/
  | notModelled (mnemonic : String)
  deriving DecidableEq, Repr

/-! ## Threads and waves -/

/-- A trap raised in a thread: the cause code (R246), the position of the trapping word in its chain and the word (R47,
R247), n of TRAP n, the faulting address, the fault flags of an abort (R371), the program counter of the chain's first word,
and the cycle in which the chain trapped (R248). -/
structure TrapInfo where
  code   : Nat
  pos    : Nat
  word   : Word
  n      : Nat := 0
  detail : Nat := 0
  flags  : Nat := 0
  pc     : DWord
  cycle  : Nat := 0
  deriving DecidableEq, Repr

/-- A scratchpad access that waits on full-empty granules (R111): a load (.waitkeep, .waittake) or a store (.waitfill).
`mates` are the other threads that wait for the same single access of a uniform form (R106); `inst` numbers the issue of the
word, whose threads take their turns in ascending lane order; `clob` are its registers that a MOVIR of its chain has written
(R102). -/
structure FeWait where
  load  : Bool
  take  : Bool
  width : Width
  ea    : Nat
  reg   : Reg
  data  : BitVec 256
  mates : LaneMask
  inst  : Nat := 0
  clob  : List Reg := []
  deriving DecidableEq, Repr

/-- A word of a chain that is performed once what its chain's earlier slots have left to be performed is done (R197): the
number of its issue, the word, its instruction, its position, the chain's program counter, the registers it reads and FMODE as
the chain read them (R45), and its registers that a MOVIR of the chain has written (R102). -/
structure LateWord where
  inst  : Nat
  word  : Word
  i     : Instr
  pos   : Nat
  pc    : DWord
  regs  : List (Reg × Word)
  fmode : BitVec 6
  clob  : List Reg := []
  deriving DecidableEq, Repr

/-- What a held thread waits for (R223, R267). -/
inductive Hold where
  /-- WAITK kd (R241). -/
  | waitk (k : Mask)
  /-- WAITM (R220). -/
  | waitm
  /-- BAR.wg id (R233). -/
  | barWg (id : Nat)
  /-- BAR.gang id (R233). -/
  | barGang (id : Nat)
  /-- a full-empty wait (R111). -/
  | fe (w : FeWait)
  /-- held with the thread of another lane that performs the access for both (R106, R111). -/
  | feMate (lane : Nat)
  /-- RKWAIT (R298). -/
  | rkwait (rink stage : Nat) (p : Bool)
  /-- XACQ T: the grant asked for and its place in the track's queue (R28, R281). -/
  | xacq (t seq : Nat)
  /-- a translation-fault wait on a page, of a data access or of a fetch (R105, R377); of ERET's read of its frame, with the
  address of the ERET (R250). -/
  | xlate (page : Nat) (frame : Option DWord)
  /-- trap entry, waiting for the translation of its frame's page, or (page none) for its turn again (R250). -/
  | entry (t : TrapInfo) (page : Option Nat)
  /-- the wait of a word of the thread's last chain for accesses of the chain's earlier slots (R197). -/
  | word (x : LateWord)
  /-- the wait of an EXIT, an ERET or an XREL of the thread's last chain for the results of that chain's other words (R36). -/
  | leave
  deriving DecidableEq, Repr

/-- What the words of its last chain still ask of a held thread once its hold ends (R47): another hold, or the end, the
return or the lowering of the grant that waits for the results of the chain's other words (R36). -/
inductive After where
  | hold (h : Hold)
  | exit
  | eret (frame : Nat)
  | xrel (t : Nat)
  deriving DecidableEq, Repr

/-- How far a thread's group with code 8 has come while it waits at one of its words (R116): the words done, what they wrote,
the flags, the generator, the published writes, and the registers and FMODE as they stood when the head issued. -/
structure GroupProg where
  done   : Nat := 0
  writes : List (Reg × Word) := []
  flags  : BitVec 7 := 0
  gen    : Word
  pubs   : List (Nat × Word) := []
  regs   : List (Reg × Word)
  fmode  : BitVec 6
  deriving DecidableEq, Repr

/-- R13, R223: a thread runs, is held, or has ended. -/
inductive ThreadSt where
  | run
  | held (h : Hold)
  | ended
  deriving DecidableEq, Repr

/-- An access whose performance later accesses of its thread wait for (R107, R193 to R195): a load, by its result; a published
write, by its die, its number there (R200) and its line; a store held at its sector cache (R175), by its number; a far atomic,
by its request. -/
inductive OrdAccess where
  | load (pid : Nat)
  | write (die : Nat) (n : Word) (line : Nat)
  | held (id : Nat)
  | atomic (req : Nat)
  deriving DecidableEq, Repr

/-- Such an access with the scope of its acquire or release half. -/
structure OrdRef where
  scope : Scope
  what  : OrdAccess
  deriving DecidableEq, Repr

/-- One thread (R12): its program counter (R38), v registers (an unlisted one reads zero), in-handler state (R256), 16 record
slots (R123) with the group that last named each, generator state (R101), wait count (R222), cycles of PAUSE left (R276), the
engine operation at which it is parked in its PC group (R309) and where it goes on from there, the accesses with an acquire
half that later accesses wait for, and those with a release half that later acquire halves wait for (R107, R193 to R195),
whether the commit of the word it stands at has been performed (R262), what its last chain still asks of it once its hold ends,
whether a pre-emption request keeps it at the W marker where it parks in its PC group (R267, R269), and how far its group with
code 8 has come (R116). -/
structure Thread where
  pc        : DWord := 0
  st        : ThreadSt := .run
  v         : Map Word := []
  inHandler : Bool := false
  recs      : BitVec 64 := 0
  recOwner  : Map Nat := []
  gen       : Word := 0
  count     : Nat := 0
  pause     : Nat := 0
  parked    : Option Nat := none
  resume    : DWord := 0
  acqs      : List OrdRef := []
  rels      : List OrdRef := []
  commitDone : Bool := false
  todo      : List After := []
  kept      : Bool := false
  group     : Option GroupProg := none
  deriving DecidableEq, Repr

/-- What a result reads in a lane at some time before it lands: a register, or a record slot as the group numbered `owner` sets
it, the last to have named the slot when the read issued (R123, R124). -/
inductive LateRead where
  | reg (r : Reg)
  | slot (i owner : Nat)
  deriving DecidableEq, Repr

/-- A returning result that has not landed (R34, R35): the lane whose registers it writes (none: the wave's uniform registers),
the threads for which it is outstanding, the registers and values, the XSTAT flags it raises, the record slot and code of a
schuss group (R123), whether its value is still open, whether it comes from beyond the core's L1 (R34), and the registers
written since by another word (R35); `pubs` are the published writes of a schuss group that ran in the core, with the die they
left and their numbers, before which its results do not land (R192); `late` is what is read at some time before the landing: a
register of a lane outside the issuing group (R95) or a record slot (R124), and `seen` the values written to it meanwhile; `bad`
says that a word of it is poisoned (R386). -/
structure Pending where
  id    : Nat
  lane  : Option Nat
  lanes : LaneMask
  regs  : List Reg
  vals  : List Word
  flags : BitVec 7 := 0
  slot  : Option (Nat × Nat) := none
  opened : Bool := false
  far   : Bool := false
  clob  : List Reg := []
  late  : Option (Nat × LateRead) := none
  seen  : List Word := []
  pubs  : List (Nat × Word) := []
  bad   : Bool := false
  deriving DecidableEq, Repr

/-- A wave's armed monitor (R184): the line (physical, by line number) and whether an event is recorded. -/
structure Monitor where
  line  : Nat
  event : Bool
  deriving DecidableEq, Repr

/-- One wave (R12, R18, R26, R30). `s` lists s0 to s30, `k` lists k0 to k11; an unlisted register reads zero. `track` is
none while the gang is suspended. -/
structure Wave where
  id        : Nat
  gang      : Nat
  wg        : Nat := 0
  idx       : Nat := 0
  role      : Role := .general
  track     : Option Nat := none
  grant     : Nat := 32
  s         : Map Word := []
  k         : Map LaneMask := []
  fmode     : BitVec 6 := 0
  xstat     : BitVec 7 := 0
  prog      : Bool := true
  trapBase  : DWord := 0
  trapFrame : DWord := 0
  trapEn    : Word := 0
  monitor   : Option Monitor := none
  pend      : List Pending := []
  lead      : LaneMask := 0
  wait      : Nat := 0
  age       : Nat := 0
  yieldTrk  : Bool := false
  yieldGrp  : Bool := false
  threads   : List Thread := []
  deriving DecidableEq, Repr

/-- A translation fault that a word has met in a thread (R377): the page, the kind bits of the access and, for ERET's read of
its frame, the address of the ERET (R250). -/
structure XlateStop where
  page  : Nat
  kind  : Nat
  frame : Option DWord := none
  deriving DecidableEq, Repr

/-- The part of a word's issue that exec performs (R45): the whole of a single word, or the checks or the effects of one
word of a longer chain. -/
inductive Phase where
  | whole | check | act
  deriving DecidableEq, Repr

/-- The chain being issued (R45): its wave and threads, its first word's program counter, this word, its position and
address, the address after the chain (R39), the wave as it stood before any word wrote, and what the words have found so
far: traps by lane with the step of R81 that finds them, threads that wait at the word, translation faults, threads that are
held, those that park at an engine operation and those that stay at the word (R116), control transfers and ended threads (R47),
what waits for the results of the chain's own words (R36), whether it yields (R277), how many commits it is to perform (R262),
the other words of the chain (R102), the frames that its ERET has read (R249), and TASK as it stood before the chain (R45). -/
structure Issue where
  wave    : Nat
  lanes   : LaneMask
  pc      : DWord
  word    : Word
  pos     : Nat := 0
  wordPc  : DWord
  nextPc  : DWord
  phase   : Phase := .whole
  view    : Option Wave := none
  traps   : List (Nat × (Nat × TrapInfo)) := []
  waits   : LaneMask := 0
  xlates  : List (Nat × XlateStop) := []
  holds   : List (Nat × Hold) := []
  parks   : List (Nat × Nat) := []
  stays   : LaneMask := 0
  targets : List (Nat × DWord) := []
  exits   : LaneMask := 0
  leaves  : List (Nat × After) := []
  yields  : Bool := false
  commits : Nat := 0
  others  : List Instr := []
  frames  : List (Nat × Option Nat) := []
  task    : Option Nat := none
  deriving DecidableEq, Repr

/-! ## Caches, memory and the fabric -/

/-- A sector-cache line (R175, R177, R108); `behind` says that an acquire at .pkg or .sys of its sector has found the line's home,
the sector's own die, short of what the die has seen (R199). -/
structure SectLine where
  sector : Nat
  line   : Nat
  data   : Line
  valid  : BitVec 16
  dirty  : BitVec 16
  remote : Bool
  evictFirst : Bool := false
  behind : Bool := false
  deriving DecidableEq, Repr

/-- An L1 copy (R168). -/
structure L1Line where
  core : Nat
  line : Nat
  data : Line
  evictFirst : Bool := false
  deriving DecidableEq, Repr

/-- A load that waits for a merging fill or a cross-die read (R175, R201): its result's place, where in the line it
reads, which caches it fills (R108), and the scope of its acquire half (R107). -/
structure Waiter where
  wave  : Nat
  lanes : LaneMask
  pid   : Nat
  off   : Nat
  width : Width
  fillL1 : Bool
  last  : Bool
  acq   : Option Scope := none
  deriving DecidableEq, Repr

/-- A masked line write (R175, R206): bit i of the mask for byte i. -/
structure LineWrite where
  line : Nat
  data : Line
  mask : BitVec 64
  deriving DecidableEq, Repr

/-- A store of part of a word that its sector cache holds until a merging fill has made the word valid (R175): its number, the
wave, threads and core it is of, and its cache policy. -/
structure HeldStore where
  id    : Nat
  wave  : Nat
  lanes : LaneMask
  core  : Nat
  pol   : CachePol
  w     : LineWrite
  deriving DecidableEq, Repr

/-- A miss outstanding (R175, R183): the sector whose cache misses, the core, the line, whether the sector cache is filled
(R108 .stream), whether it has an entry of the miss tables and has left (R183), the dependency vector it carries (R201), the
data once a home has served it, with the number of that service in the order of all (R169), the loads merged into it, the stores
held for it, and whether the line it leaves is `behind`. -/
structure Fill where
  id      : Nat
  sector  : Nat
  core    : Nat
  line    : Nat
  fillSect : Bool
  sent    : Bool := true
  deps    : List Word
  data    : Option Line := none
  served  : Nat := 0
  applied : List Word := []
  waiters : List Waiter := []
  stores  : List HeldStore := []
  behind  : Bool := false
  deriving DecidableEq, Repr

/-- A version line of a gang (R178): the speculative bytes, whether it lies in the spill area (R264), and the cores whose
threads have stored to it. -/
structure VLine where
  gang  : Nat
  line  : Nat
  data  : Line
  mask  : BitVec 64
  spill : Bool
  cores : List Nat := []
  deriving DecidableEq, Repr

/-- A translation that the TLB of a core, or of the sector of this number, holds (R376): the page's virtual and physical base,
its size and permissions (R375). -/
structure TlbEntry where
  core  : Nat
  ctx   : Nat
  vbase : Nat
  size  : Nat
  pbase : Nat
  r     : Bool
  w     : Bool
  x     : Bool
  deriving DecidableEq, Repr

/-- An invalidation in progress (R376): the mailbox that asked and the range. -/
structure TlbInv where
  fn   : Nat
  tag  : Nat
  ctx  : Nat
  base : Nat
  len  : Nat
  deriving DecidableEq, Repr

/-- What a publish message carries (R200, R201, R203): the words of a store or a commit bundle, a far atomic by the
number of its request, or a clock marker with P of its die. -/
inductive PubBody where
  | writes (ws : List LineWrite)
  | atomic (req : Nat)
  | marker (p : Word)
  deriving DecidableEq, Repr

/-- A message of a flow (R203). Publish messages carry the stamp of R200 and the wave that made them; a read and its reply
name the fill they serve. -/
inductive FlitBody where
  | pub (stamp : List Word) (wave : Nat) (body : PubBody)
  | read (fill : Nat)
  | reply (fill : Nat)
  deriving DecidableEq, Repr

/-- A flit of a flow: its sequence number, its content, and its backoff in cycles once it has been refused (R203). -/
structure Flit where
  seq  : Nat
  body : FlitBody
  backoff : Nat := 0
  deriving DecidableEq, Repr

/-- A flow (R203): the next number to send, the flits under way, the refused ones, the reorder buffer, the next number to
deliver, and the delivered messages not yet applied or served, oldest first. -/
structure Flow where
  cls     : FlowClass
  src     : Nat
  dst     : Nat
  next    : Nat := 0
  flight  : List Flit := []
  refused : List Flit := []
  buffer  : List Flit := []
  expect  : Nat := 0
  ready   : List FlitBody := []
  deriving DecidableEq, Repr

/-- One participant of a far atomic (R212): its lane, operand, compare value and where its old value returns. -/
structure AtomPart where
  lane : Nat
  d    : BitVec 64
  c    : BitVec 64
  pid  : Option Nat
  deriving DecidableEq, Repr

/-- A combined far-atomic request under way or in a groomer's queue (R211, R212), from a core of die `src`, with the scope
of ATOMR's acquire half (R214). -/
structure AtomReq where
  id    : Nat
  wave  : Nat
  gang  : Nat
  src   : Nat
  addr  : Nat
  op    : AtomOp
  ty    : AtomTy
  acq   : Option Scope := none
  core  : Nat
  parts : List AtomPart
  deriving DecidableEq, Repr

/-- A schuss group that left its core (R118, R120): one thread's words with the registers they read as they stood at the
head, and the head's address. `batch` numbers the head's issue, whose groups of one line travel together (R122); `stores` says
that a word of it stores, `ran` that it has run and that its results have not landed. -/
structure Sunk where
  id     : Nat
  batch  : Nat
  wave   : Nat
  lane   : Nat
  pid    : Nat
  core   : Nat
  gang   : Nat
  pc     : DWord := 0
  line   : Nat
  floor  : Nat
  fmode  : BitVec 6
  regs   : List (Reg × Word)
  words  : List Instr
  stores : Bool := false
  ran    : Bool := false
  deriving DecidableEq, Repr

/-- One die (R99 FEAT, R178, R200, R378): its features, whether it is withdrawn, the publication counter, the dependency
and applied vectors, and the version store's capacity in bytes. -/
structure Die where
  id        : Nat
  feat      : BitVec 7 := 0x7F
  withdrawn : Bool := false
  pub       : Word := 0
  dep       : List Word := List.replicate 8 0
  app       : List Word := List.replicate 8 0
  verCap    : Nat := 0x4000000
  deriving DecidableEq, Repr

/-! ## Clusters and engines -/

/-- The ownership of a physical accumulator tile that is not free (R330); `left` is a pinned tile of a handle that an ACCSPILL
has ended and whose command has not run (R349). -/
inductive TileSt where
  | gangOwned (gang logical : Nat)
  | pinned (handle place : Nat)
  | left (handle place : Nat)
  | spilling (handle place : Nat)
  deriving DecidableEq, Repr

/-- An owned accumulator tile, its 1,024 words and those of them that are poisoned (R322, R330, R345, R386); an unlisted tile is
free and an unlisted word +0. -/
structure Tile where
  cluster : Nat
  phys    : Nat
  ctx     : Nat
  st      : TileSt
  data    : Map Word := []
  poison  : List Nat := []
  deriving DecidableEq, Repr

/-- Where a state is (R331 to R333, R349): pinned on a cluster, held as an image at an offset of the context's state spill
area, saved with its context since the suspended gang that it was bound to ended, or awaiting its ACCFILL. -/
inductive StatePlace where
  | cluster (c : Nat)
  | area (off : Nat)
  | saved (ts : List Tile)
  | filling
  deriving DecidableEq, Repr

/-- A live state handle of a context (R332, R334): its dimensions, token count, place and binding (gang and first logical
tile). `ending` says that an ACCUNPIN waits for earlier commands on it (R347). -/
structure StateRec where
  ctx    : Nat
  handle : Nat
  dv     : Nat
  dk     : Nat
  tokens : BitVec 64
  place  : StatePlace
  bound  : Option (Nat × Nat)
  ending : Bool := false
  deriving DecidableEq, Repr

/-- A rink descriptor (R309). -/
structure Rink where
  base   : Nat := 0
  size   : Nat := 0
  count  : Nat := 0
  phases : BitVec 16 := 0
  deriving DecidableEq, Repr

/-- A chain started on a lift queue: its number in enqueue order, where it begins, FMODE as captured and the LIFT's address
(R144, R311, R371). -/
structure LiftChain where
  seq   : Nat
  start : Nat
  fmode : BitVec 6
  pc    : DWord
  deriving DecidableEq, Repr

/-- The chain a queue walks (R311, R314): its position, the entry there as the lift read it when it reached it, the lift's
working copy of changed entries by offset, the passes made of each LOOP by its offset, what a QFENCE waits for (queue,
entries performed), the page of the translation fault that the entry's access has joined (R377), whether the entry has
started to act, as a SIGDEC whose commit is under way (R262) and a collective with every member there (R261), and whether a
LIFTABT stops the chain after this entry (R342). -/
structure Walk where
  chain  : LiftChain
  pos    : Nat
  cur    : Option (BitVec 256) := none
  copy   : List (Nat × BitVec 256) := []
  passes : List (Nat × Nat) := []
  fence  : Option (List (Nat × Nat)) := none
  joined : Option Nat := none
  commit : Bool := false
  stop   : Bool := false
  deriving DecidableEq, Repr

/-- A lift queue (R311, R341). `taken` counts the entries of its chains that have been performed or dropped. -/
structure LiftQ where
  walk  : Option Walk := none
  held  : List LiftChain := []
  done  : BitVec 16 := 0
  abt   : Bool := false
  taken : Nat := 0
  deriving DecidableEq, Repr

/-- What a command of the tile scheduler does (R339): the entries of a tile queue, and the accumulator words, which are
commands enqueued at the moment they are performed (R327, R345, R347): a read for a result of a wave, the words of a write,
and the release of a state's tiles. -/
inductive TqKind where
  | task | dupd | dqry | spill | fill
  | accz
  | accrd (wave pid word : Nat)
  | accwr (words : List (Nat × Word))
  | pin
  | unpin
  deriving DecidableEq, Repr

/-- A command of a gang's tile scheduler (R326, R339, R349): its number in enqueue order, its record's offset (or the
image's address), FMODE and the fields captured at enqueue, the tiles of its footprint (a physical tile below 256, and
256 + a logical number that no physical tile has been found for), the state a spill or a fill moves, the TIDs it names,
whether it has started, the stage it flips once it has (R328), and the page of the translation fault its access has joined
(R377). `held` is HELD of a task (R328). -/
structure TileCmd where
  seq     : Nat
  kind    : TqKind
  off     : Nat := 0
  fmode   : BitVec 6 := 0
  pc      : DWord
  head    : Word := 0
  tile    : Nat := 0
  held    : Bool := false
  started : Bool := false
  flip    : Option (Nat × Nat) := none
  joined  : Option Nat := none
  handle  : Nat := 0
  dv      : Nat := 0
  dk      : Nat := 0
  tokens  : BitVec 64 := 0
  foot    : List Nat := []
  tids    : List Nat := []
  deriving DecidableEq, Repr

/-- What a tensor-identifier word does when it is performed (R352, R353): the source offset of a TIDSET, a TIDINV, or a
TIDGET of a word for a result of a wave. -/
inductive TidAct where
  | set (off : Nat)
  | inv
  | get (wave pid word : Nat)
  deriving DecidableEq, Repr

/-- A TIDSET, TIDINV or TIDGET issued and not yet performed (R150, R352, R353): its number among the gang's commands, its
entry and its word's address. -/
structure TidOp where
  seq   : Nat
  entry : Nat
  act   : TidAct
  pc    : DWord
  joined : Option Nat := none
  deriving DecidableEq, Repr

/-- An RKINIT issued and not yet performed (R309, R351): its number among the gang's commands, the wave and threads parked
at it, and the new geometry. -/
structure RkOp where
  seq    : Nat
  wave   : Nat
  lanes  : LaneMask
  rink   : Nat
  base   : Nat
  size   : Nat
  count  : Nat
  deriving DecidableEq, Repr

/-- A fault recorded for a gang (R371): code, fault flags, PC and TID; `final` marks a FEATABSENT of an ATOM or ATOMR, which
is not re-queueable (R255). -/
structure GangFault where
  code  : Nat
  flags : Nat := 0
  pc    : DWord
  tid   : Nat := 0xFFFF
  final : Bool := false
  deriving DecidableEq, Repr

/-- How a gang stands (R13, R258, R269, R280, R364): running, all threads ended and waiting for its retirement, aborted or
squashed and waiting for its started commands. -/
inductive GangSt where
  | live
  | aborted (f : GangFault)
  | squashed
  deriving DecidableEq, Repr

/-- A BINGO that has not completed (R354): its number among the commands, its descriptor's offset and its word's address. -/
structure BinCmd where
  seq : Nat
  off : Nat
  pc  : DWord
  deriving DecidableEq, Repr

/-- A gang (R18, R20, R21, R181, R260, R269, R309, R311, R326, R354). `place` is the cluster and its first core, none while
suspended, and `lastCluster` where it last was; `spad` lists the scratchpad's bytes, `spadPoison` its poisoned words (R386) and
`full` its full granules;
`savedTiles` are the tiles saved at an eviction, `preempt` is the pre-emption request, `due` an aborting cause that takes
effect once a commit is performed at every home (R263), and `retired` says that it has made its retirement commit (R280). -/
structure Gang where
  id        : Nat
  launch    : Nat
  index     : Nat := 0
  x         : Nat := 0
  y         : Nat := 0
  z         : Nat := 0
  attempt   : Nat := 0
  place     : Option (Nat × Nat) := none
  st        : GangSt := .live
  spad      : Memory := []
  spadPoison : List Nat := []
  full      : List Nat := []
  rinks     : List Rink := List.replicate 16 {}
  queues    : List LiftQ := List.replicate 4 {}
  tileQ     : List TileCmd := []
  bins      : List BinCmd := []
  binDone   : BitVec 16 := 0
  binJoined : Option Nat := none
  tidOps    : List TidOp := []
  rkOps     : List RkOp := []
  committed : Bool := false
  ccnt      : BitVec 8 := 0
  gate      : Bool := false
  flags     : BitVec 7 := 0
  preempt   : Bool := false
  due       : Option GangFault := none
  savedTiles : List Tile := []
  lastCluster : Nat := 0
  retired   : Bool := false
  deriving DecidableEq, Repr

/-! ## Launches, contexts and the host side -/

/-- What the launch engine keeps of a kernel header (R288). -/
structure Header where
  features : BitVec 7 := 0
  ver      : Bool := false
  shape    : Bool := false
  prog     : Bool := false
  roles    : Bool := false
  entry    : Nat := 0
  regs     : Nat := 0
  g        : Nat := 1
  w        : Nat := 1
  scratch  : Nat := 0
  tidtable : Nat := 0
  tidImage : Nat := 0
  spill    : Nat := 0
  codeBytes : Nat := 0
  copy     : Nat × Nat × Nat := (0, 0, 0)
  matrix   : Nat × Nat × Nat := (0, 0, 0)
  vector   : Nat × Nat × Nat := (0, 0, 0)
  deriving DecidableEq, Repr

/-- The kinds of packet (R359); a node launch is the kernel a work-graph node runs (R368). -/
inductive LaunchKind where
  | kernel
  | graph
  | barrier
  | node (graph idx : Nat)
  deriving DecidableEq, Repr

/-- A node of a running work graph (R366, R368): its record, its rank, whether it has launched and completed, and the ring
of a bin: head, records given out and held, gangs launched, the ranges of records freed behind the head, whether its timer
runs and whether it has run out; `copied` says that the node's TID image has been copied (R290), and `features` are those that
its kernel header declares (R288). -/
structure NodeSt where
  bin       : Bool
  shape     : Bool
  predictor : Nat
  c         : Nat
  timer     : Nat
  cost      : Nat
  codeBase  : Nat
  header    : Nat
  x         : Nat
  y         : Nat
  z         : Nat
  binOff    : Nat
  binCap    : Nat
  succ      : List Nat
  cell      : Nat
  args      : List Word
  rank      : Nat := 0
  launched  : Bool := false
  completed : Bool := false
  head      : Nat := 0
  given     : Nat := 0
  count     : Nat := 0
  gangs     : Nat := 0
  freed     : List (Nat × Nat) := []
  timing    : Bool := false
  timedOut  : Bool := false
  copied    : Bool := false
  features  : BitVec 7 := 0
  deriving DecidableEq, Repr

/-- A patch of a graph (R366). -/
structure Patch where
  node : Nat
  word : Nat
  buf  : Nat
  off  : Nat
  deriving DecidableEq, Repr

/-- A buffer of a graph (R366, R369). -/
structure Buf where
  off     : Nat
  fixed   : Nat
  perGang : Nat
  shapeNode : Option Nat
  follows : Option Nat
  first   : Nat
  last    : Nat
  retract : Bool
  deriving DecidableEq, Repr

/-- A work graph (R366): the bytes of its arena, nodes, patches, buffers, and the true extent of each shape node once known. -/
structure Graph where
  arena   : Nat := 0
  nodes   : List NodeSt
  patches : List Patch
  bufs    : List Buf
  extents : List (Nat × Nat) := []
  deriving DecidableEq, Repr

/-- A launch (R356 to R372). `todo` are the gangs still to place, with their attempt counts; `started` says that its
dependencies are satisfied, `placed` that its first gang has been placed; `die` is the die of its launch engine; `flagGangs`
and `fault` are what the completion record gathers; `noRerun` is set when its interface is reset (R382); `noDies` are the dies
that a gang may not be re-run on (R259), and `binRange` the records of a bin that a bin gang was given (R368). -/
structure Launch where
  id        : Nat
  ctx       : Nat
  queue     : Option Nat := none
  prio      : Nat := 0
  kind      : LaunchKind := .kernel
  shape     : Bool := false
  order     : Bool := false
  child     : Bool := false
  parent    : Option Nat := none
  predictor : Nat := 0
  dieMask   : Nat := 0xFF
  fmode     : BitVec 6 := 0
  codeBase  : Nat := 0
  header    : Nat := 0
  hdr       : Header := {}
  x         : Nat := 1
  y         : Nat := 1
  z         : Nat := 1
  bs        : Nat := 0
  bd        : Nat := 0
  args      : Nat := 0
  argWords  : List Word := []
  tidTable  : Nat := 0
  spillBase : Nat := 0
  verBase   : Nat := 0
  verLines  : Nat := 0
  deps      : List Nat := []
  sig       : Nat := 0
  record    : Nat := 0
  handles   : List (Nat × Bool × Nat) := []
  cell      : Nat := 0
  started   : Bool := false
  placed    : Bool := false
  noRerun   : Bool := false
  die       : Nat := 0
  needFeat  : BitVec 7 := 0
  noDies    : List (Nat × Nat) := []
  binRange  : Option (Nat × Nat) := none
  todo      : List (Nat × Nat) := []
  xp        : Nat := 0
  shaped    : Bool := false
  extent    : Option Nat := none
  sectBands : List (Nat × Nat) := []
  dieBands  : List (Nat × Nat) := []
  run       : Nat := 0
  reruns    : Nat := 0
  trimmed   : Nat := 0
  squashed  : Nat := 0
  tail      : Nat := 0
  flagGangs : List (Option Nat) := List.replicate 7 none
  summary   : BitVec 7 := 0
  fault     : Option (Nat × GangFault) := none
  status    : Nat := 0
  graph     : Option Graph := none
  deriving DecidableEq, Repr

/-- A context (R375, R382, R383): the interface that owns it, its page-table root, TID table, state spill area, arrival
log, predictor and collective tables; arrivals logged and senders held (R272); whether it is lost (R373) or switched out,
with the tiles then saved (R271). -/
structure Ctx where
  id       : Nat
  fn       : Nat
  root     : Nat
  tid      : Nat := 0
  area     : Nat := 0
  areaSize : Nat := 0
  logAddr  : Nat := 0
  logSize  : Nat := 0
  log      : List (Nat × ArrivalItem) := []
  held     : List (Nat × ArrivalItem) := []
  predictor : Option Nat := none
  colls    : Option Nat := none
  part     : Nat := 0
  out      : Bool := false
  saved    : List Tile := []
  lost     : Bool := false
  deriving DecidableEq, Repr

/-- A registered launch queue (R356, R357): `taken` is R; `stop` holds the tag of an UNREG_QUEUE that waits (R382). -/
structure Queue where
  id    : Nat
  fn    : Nat
  num   : Nat
  ctx   : Nat
  index : Nat
  ring  : Nat
  k     : Nat
  prio  : Nat
  taken : Nat := 0
  stop  : Option Nat := none
  deriving DecidableEq, Repr

/-- The keys that sign firmware images (R388 to R390). -/
inductive FwKey where
  | manufacturing | development | production | analysis | recovery
  deriving DecidableEq, Repr

/-- A firmware image that the device holds, as far as its check sees it (R388): the key of its signature, and whether the
signature is that of its digest. -/
structure FwImage where
  key    : FwKey := .production
  intact : Bool := true
  deriving DecidableEq, Repr

/-- An event record (R384). -/
structure EvRec where
  addr   : Nat := 0
  ctx    : Nat := 0xFFFF
  kind   : Nat
  die    : Nat := 0
  count  : Nat := 0
  detail : Nat := 0
  deriving DecidableEq, Repr

/-- A function's virtual interface (R373, R381, R383, R384): its partition, its range of device memory on CXL.mem, the bytes of
its management window, whether a command has been submitted that the supervisor has not read, the command that it performs,
the event queue once registered (write-index line, ring, k, records written), and the records held. -/
structure Vi where
  fn     : Nat
  part   : Nat := 0
  range  : Nat × Nat := (0, 2 ^ 49)
  window : Memory := []
  sub    : Bool := false
  cmd    : Option (BitVec 512) := none
  evq    : Option (Nat × Nat × Nat × Nat) := none
  recs   : List EvRec := []
  deriving DecidableEq, Repr

/-- A partition (R268, R271, R380): its sectors, watchdog budget N, whether its policy is fixed and whether it is halted
(the link is down, or its context is switched out). -/
structure Part where
  id      : Nat
  sectors : List Nat
  dog     : Nat := 20
  fixed   : Bool := false
  halted  : Bool := false
  deriving DecidableEq, Repr

/-- An outstanding translation fault (R377): context, page, kind bits and joined accesses. -/
structure FaultRec where
  ctx    : Nat
  page   : Nat
  kind   : Nat
  joined : Nat
  deriving DecidableEq, Repr

/-- One member's arrival at a collective (R315). -/
structure CollArr where
  member : Nat
  desc   : CollDesc
  data   : List Byte
  deriving DecidableEq, Repr

/-- A collective in progress (R315, R379): the members that have arrived and the gang and queue of this module's entry. -/
structure Coll where
  ctx    : Nat
  num    : Nat
  here   : Option (Nat × Nat) := none
  arrived : List CollArr := []
  deriving DecidableEq, Repr

/-- What the machine does next when the outside, or a unit's own choice, decides it: an event of the table, or an issue
cycle of one track (notes/assumptions/2.md). -/
inductive Input where
  | event (e : Instr)
  | track (t : Nat)
  deriving DecidableEq, Repr

/-- Where the machine's own choices stand (notes/assumptions/2.md): the steps it has chosen itself, the track that issued
last, the place in the list of events after the one that happened last, and whether an event is next. -/
structure Turn where
  step  : Nat := 0
  track : Nat := 0
  event : Nat := 0
  other : Bool := false
  deriving DecidableEq, Repr

/-- The module. Lists hold what exists; their order is the order of arrival where a rule gives one. -/
structure State where
  -- the model's own sequencing and the counters of free values (notes/assumptions/2.md, 3.md)
  inputs    : List Input := []
  turn      : Turn := {}
  fresh     : Nat := 0
  picks     : Nat := 0
  cur       : Option Issue := none
  forced    : Option (Nat × LaneMask) := none
  -- the module (R99, R373, R385, R388 to R392); `coreCycle` holds the cycle counter of each core, `boot` and `supervisor` are the
  -- firmware images, and `badDies` the dies that fail the training of a bring-up (notes/assumptions/31.md)
  stage     : Nat := 6
  cycle     : Nat := 0
  coreCycle : Map Word := []
  life      : LifeCycle := .production
  nextLife  : Option LifeCycle := none
  alarm     : Nat := 0
  keysErased : Bool := false
  boot      : FwImage := {}
  supervisor : FwImage := {}
  badDies   : List Nat := []
  link      : Bool := true
  throttled : Bool := false
  dies      : List Die := []
  trackCaps : Map Nat := []
  deadClusters : List Nat := []
  spareSectors : List Nat := []
  -- storage and the fabric
  mem       : Memory := []
  ilvBlocks : List Nat := []
  poison    : List Nat := []
  softErrs  : List (Nat × Nat) := []
  codeErrs  : List Nat := []
  regPoison : List (Nat × Nat × Nat) := []
  unswept   : List Nat := []
  homeLines : List Nat := []
  sect      : List SectLine := []
  l1        : List L1Line := []
  fills     : List Fill := []
  versions  : List VLine := []
  tlb       : List TlbEntry := []
  sectTlb   : List TlbEntry := []
  tlbInvs   : List TlbInv := []
  hostLines : List Nat := []
  flows     : List Flow := []
  groom     : List AtomReq := []
  groomWaits : Map Nat := []
  sunk      : List Sunk := []
  -- clusters and engines
  tiles     : List Tile := []
  states    : List StateRec := []
  -- work
  waves     : List Wave := []
  gangs     : List Gang := []
  launches  : List Launch := []
  nextId    : Nat := 0
  -- contexts and interfaces
  ctxs      : List Ctx := []
  queues    : List Queue := []
  seals     : List (Nat × Nat) := []
  vis       : List Vi := []
  parts     : List Part := []
  faults    : List FaultRec := []
  colls     : List Coll := []
  deriving DecidableEq, Repr

/-- The 64 functions, visible at stage 6 (R381, R391), each on partition 0 with an empty window but the stage code. -/
def Vi.initial (fn : Nat) : Vi :=
  { fn, window := if fn = 0 then [(0, 6#8)] else [] }

/-- The machine right after reset (R389, R391): every memory wiped to zero, stage 6 reached, functions 0 to 63 visible, no
context and no queue. -/
def State.reset : State :=
  { dies  := (List.range 8).map fun d => { id := d }
    vis   := (List.range 64).map Vi.initial
    parts := [{ id := 0, sectors := List.range 16 }] }

end Sys2Proof.Machine
end

