-- ==== Sys2Proof/Machine/Units.lean ====
section
/-! DEFINITION. Finding and changing the units of the state: waves, threads, lanes, gangs, launches, contexts, dies; the
registers of a thread as a word reads and writes them (spec/02 R30, R34, R35), and the landing of a returning result. -/

namespace Sys2Proof.Machine

/-- Every element that satisfies `p` changed by `f`. -/
def modBy {α : Type} (l : List α) (p : α → Bool) (f : α → α) : List α :=
  l.map fun x => if p x then f x else x

def State.wave? (s : State) (id : Nat) : Option Wave := s.waves.find? fun w => w.id == id
def State.gang? (s : State) (id : Nat) : Option Gang := s.gangs.find? fun g => g.id == id
def State.launch? (s : State) (id : Nat) : Option Launch := s.launches.find? fun l => l.id == id
def State.ctx? (s : State) (id : Nat) : Option Ctx := s.ctxs.find? fun c => c.id == id
def State.queue? (s : State) (id : Nat) : Option Queue := s.queues.find? fun q => q.id == id
def State.vi? (s : State) (fn : Nat) : Option Vi := s.vis.find? fun v => v.fn == fn
def State.part? (s : State) (id : Nat) : Option Part := s.parts.find? fun p => p.id == id

def State.modWave (s : State) (id : Nat) (f : Wave → Wave) : State :=
  { s with waves := modBy s.waves (fun w => w.id == id) f }
def State.modGang (s : State) (id : Nat) (f : Gang → Gang) : State :=
  { s with gangs := modBy s.gangs (fun g => g.id == id) f }
def State.modLaunch (s : State) (id : Nat) (f : Launch → Launch) : State :=
  { s with launches := modBy s.launches (fun l => l.id == id) f }
def State.modCtx (s : State) (id : Nat) (f : Ctx → Ctx) : State :=
  { s with ctxs := modBy s.ctxs (fun c => c.id == id) f }
def State.modQueue (s : State) (id : Nat) (f : Queue → Queue) : State :=
  { s with queues := modBy s.queues (fun q => q.id == id) f }
def State.modVi (s : State) (fn : Nat) (f : Vi → Vi) : State :=
  { s with vis := modBy s.vis (fun v => v.fn == fn) f }
def State.modPart (s : State) (id : Nat) (f : Part → Part) : State :=
  { s with parts := modBy s.parts (fun p => p.id == id) f }
def State.modDie (s : State) (id : Nat) (f : Die → Die) : State :=
  { s with dies := modBy s.dies (fun d => d.id == id) f }

/-- Die `d`; a die the state does not list has no feature. -/
def State.die (s : State) (d : Nat) : Die :=
  (s.dies.find? fun x => x.id == d).getD { id := d, feat := 0, withdrawn := true }

/-- The gang of a wave, its launch and its context; absent ones read as empty records. -/
def State.gangOf (s : State) (w : Wave) : Gang := (s.gang? w.gang).getD { id := w.gang, launch := 0 }
def State.launchOf (s : State) (g : Gang) : Launch := (s.launch? g.launch).getD { id := g.launch, ctx := 0 }
def State.ctxOf (s : State) (l : Launch) : Ctx := (s.ctx? l.ctx).getD { id := l.ctx, fn := 0, root := 0 }
def State.partOf (s : State) (c : Ctx) : Part := (s.part? c.part).getD { id := c.part, sectors := [] }

/-- A new identifier (for waves, gangs, launches, results, requests). -/
def State.newId (s : State) : Nat × State := (s.nextId, { s with nextId := s.nextId + 1 })

/-- The counter of free values, advanced: a use of a free value takes the old one (notes/assumptions/3.md). -/
def State.freshen (s : State) : State := { s with fresh := s.fresh + 1 }

/-- The counter of a unit's own choices, advanced: it counts on while a chain acts, for which State.fresh stands still, so that
each word of the chain reads an open value as its check has read it (R35, R40). -/
def State.picked (s : State) : State := { s with picks := s.picks + 1 }

/-! ## Places (R2, R17, R18) -/

def coreCluster (core : Nat) : Nat := core / 4
def clusterSector (c : Nat) : Nat := c / 8
def sectorDie (x : Nat) : Nat := x / 2
def clusterDie (c : Nat) : Nat := c / 16
def coreSector (core : Nat) : Nat := core / 32
def coreDie (core : Nat) : Nat := core / 64

/-- The core a wave is on (R17). -/
def Wave.core (w : Wave) : Nat := (w.track.getD 0) / 8

/-- The cluster and die a gang is on, or was on last (R17). -/
def Gang.cluster (g : Gang) : Nat := (g.place.map (·.1)).getD g.lastCluster
def Gang.die (g : Gang) : Nat := clusterDie g.cluster

/-! ## Lanes -/

/-- The lanes of a mask, in ascending order. -/
def lanesOf (m : LaneMask) : List Nat := (List.range 32).filter fun i => m.getLsbD i

/-- The mask of the lanes that satisfy `f`. -/
def maskBy (f : Nat → Bool) : LaneMask :=
  (List.range 32).foldl (fun m i => if f i then m ||| (1#32 <<< i) else m) 0#32

/-- The lowest lane of a mask. -/
def lowest (m : LaneMask) : Nat := (lanesOf m).headD 0

/-- The one-lane mask. -/
def laneBit (l : Nat) : LaneMask := 1#32 <<< l

/-- The thread in lane `l`. -/
def Wave.thread (w : Wave) (l : Nat) : Thread := w.threads.getD l { st := .ended }

/-- The threads of the lanes of `m` changed. -/
def Wave.mapLanes (w : Wave) (m : LaneMask) (f : Nat → Thread → Thread) : Wave :=
  { w with threads := w.threads.mapIdx fun l t => if m.getLsbD l then f l t else t }

/-- The thread of one lane changed. -/
def Wave.modThread (w : Wave) (l : Nat) (f : Thread → Thread) : Wave := w.mapLanes (laneBit l) fun _ t => f t

/-- Has the thread ended? Is it held? -/
def Thread.ended (t : Thread) : Bool := t.st == .ended
def Thread.running (t : Thread) : Bool := t.st == .run
def Thread.hold? (t : Thread) : Option Hold := match t.st with | .held h => some h | _ => none

/-- A thread whose hold has ended goes on to what its last chain still asks of it (R36, R47), or runs. -/
def Thread.goOn (t : Thread) : Thread :=
  match t.todo with
  | [] => { t with st := .run }
  | .hold h :: r => { t with st := .held h, todo := r }
  | _ :: _ => { t with st := .held .leave }

/-- Do the threads of a gang stay where they are held: for a pre-emption request, or because the gang is suspended (R267,
R269)? -/
def Gang.still (g : Gang) : Bool := g.preempt || g.place.isNone

/-- The lanes whose threads have not ended. -/
def Wave.live (w : Wave) : LaneMask := maskBy fun l => !(w.thread l).ended

/-- A thread's own bit of a mask register (R12, R30). -/
def Wave.kbit (w : Wave) (k : Mask) (l : Nat) : Bool := (Map.get 0#32 w.k k.val).getLsbD l

/-- A whole mask register (R30). -/
def Wave.kreg (w : Wave) (k : Mask) : LaneMask := Map.get 0#32 w.k k.val

/-- The bits of `k` in the lanes of `m` set to `f`; every other bit keeps its value (R240). -/
def Wave.setK (w : Wave) (m : LaneMask) (k : Mask) (f : Nat → Bool) : Wave :=
  { w with k := Map.set 0#32 w.k k.val (maskBy fun l => if m.getLsbD l then f l else (w.kreg k).getLsbD l) }

/-! ## Registers (R30, R35, R49, R50) -/

/-- A register as it stands: s31 reads zero (R49). -/
def Wave.raw (w : Wave) (l : Nat) : Reg → Word
  | .v n => Map.get 0#32 (w.thread l).v n.val
  | .s n => if n = 31 then 0#32 else Map.get 0#32 w.s n.val

/-- The value an outstanding result will write to a register as lane `l` sees it, once the value is known. -/
def Pending.valueOf (p : Pending) (l : Nat) (r : Reg) : Option Word :=
  if p.lane == (if r.isUni then none else some l) then (p.regs.zip p.vals).lookup r else none

/-- A register as a word reads it: while a returning write to it has not landed, the old value or a returned one (R35), the
same for every use in one word. -/
def Wave.reg (use : Nat) (w : Wave) (l : Nat) (r : Reg) : Word :=
  if r = .s 31 then 0#32 else
  match w.pend.filterMap fun p => p.valueOf l r with
  | [] => w.raw l r
  | c :: cs => (w.raw l r :: c :: cs).getD (Config.freePick use (if r.isUni then 0 else l) r.toNat % (cs.length + 2)) (w.raw l r)

/-- A v register of a thread written. -/
def Thread.put (t : Thread) (p : Reg × Word) : Thread :=
  match p.1 with
  | .v n => { t with v := Map.set 0#32 t.v n.val p.2 }
  | .s _ => t

def Thread.putAll (t : Thread) (ws : List (Reg × Word)) : Thread := ws.foldl Thread.put t

/-- A uniform register written; a write to s31 is discarded (R49). -/
def Wave.putUni (w : Wave) (p : Reg × Word) : Wave :=
  match p.1 with
  | .v _ => w
  | .s n => if n = 31 then w else { w with s := Map.set 0#32 w.s n.val p.2 }

/-- The registers marked as written since an outstanding result was made (R35). -/
def Pending.mark (p : Pending) (rs : List Reg) : Pending := { p with clob := p.clob ++ rs.filter p.regs.contains }

/-- The values written to the register a late read waits to read (R95). -/
def Pending.see (p : Pending) (l : Nat) (ws : List (Reg × Word)) : Pending :=
  match p.late with
  | some (k, .reg r) => if k == l then { p with seen := p.seen ++ (ws.filter fun x => x.1 == r).map (·.2) } else p
  | _ => p

/-- The code that the group whose result is numbered `pid` sets in the record slot a late read waits to read (R124). -/
def Pending.seeSlot (p : Pending) (l i pid code : Nat) : Pending :=
  if p.late == some (l, .slot i (pid + 1)) then { p with seen := p.seen ++ [BitVec.ofNat 32 code] } else p

/-- Each lane of `m` writes its v registers (fixed class). -/
def Wave.putLanes (w : Wave) (m : LaneMask) (f : Nat → List (Reg × Word)) : Wave :=
  { w.mapLanes m fun l t => t.putAll (f l) with
    pend := w.pend.map fun p =>
      let p := match p.late with
        | some (k, _) => if m.getLsbD k then p.see k (f k) else p
        | none => p
      match p.lane with
      | some l => if m.getLsbD l then p.mark ((f l).map Prod.fst) else p
      | none => p }

/-- A word writes uniform registers once (fixed class, R232). -/
def Wave.putUnis (w : Wave) (ws : List (Reg × Word)) : Wave :=
  { ws.foldl Wave.putUni w with
    pend := w.pend.map fun p =>
      let p := match p.late with
        | some (k, .reg (.s _)) => p.see k ws
        | _ => p
      if p.lane.isNone then p.mark (ws.map Prod.fst) else p }

/-- The pair, quad or octet that begins at `r`, as one number, lowest register first (R50). -/
def wide (rd : Reg → Word) (k : Nat) (r : Reg) : Nat :=
  (regs k r).foldr (fun x n => (rd x).toNat + 2 ^ 32 * n) 0

/-- A 64-bit pair (R50). -/
def pair (rd : Reg → Word) (r : Reg) : DWord := BitVec.ofNat 64 (wide rd 2 r)

/-- The registers of a multi-register destination with the words of `x`, lowest first (R50). -/
def spread (k : Nat) (r : Reg) (x : Nat) : List (Reg × Word) :=
  (List.range k).map fun j => (Reg.ofNat (r.toNat + j), BitVec.ofNat 32 (x / 2 ^ (32 * j)))

/-! ## Returning results (R33 to R36, R123) -/

/-- A result that is outstanding is added. -/
def State.addPending (s : State) (wave : Nat) (p : Pending) : State :=
  s.modWave wave fun w => { w with pend := w.pend ++ [p] }

/-- A value that was open is now known. -/
def State.resolve (s : State) (wave pid : Nat) (vals : List Word) (flags : BitVec 7) (code : Option Nat) : State :=
  s.modWave wave fun w => { w with pend := modBy w.pend (fun p => p.id == pid) fun p =>
    { p with vals := vals, flags := p.flags ||| flags, opened := false,
             slot := match code, p.slot with | some c, some (i, _) => some (i, c) | _, x => x } }

/-- A value read before the landing: one that the register or the slot held since the issue (R95, R124). -/
def Pending.lateVals (use : Nat) (p : Pending) : List Word :=
  match p.seen with
  | [] => p.vals
  | x :: xs => p.vals.map fun v => (v :: x :: xs).getD (Config.freePick use p.id 0 % (xs.length + 2)) v

/-- The values a landing result writes: where another write fell between, one of the two (R35). -/
def Pending.landing (use : Nat) (w : Wave) (p : Pending) : List (Reg × Word) :=
  let l := p.lane.getD 0
  (p.regs.zip (p.lateVals use)).map fun rv =>
    if p.clob.contains rv.1 && Config.freePick use l rv.1.toNat % 2 == 1 then (rv.1, w.raw l rv.1) else rv

/-- Is the group of a result the last that named this slot (R123)? -/
def Thread.owns (t : Thread) (i : Nat) (p : Pending) : Bool := Map.get 0 t.recOwner i == p.id + 1

/-- The record slot a landing result sets, unless a later group has named the slot (R123). -/
def Thread.landSlot (t : Thread) (p : Pending) : Thread :=
  match p.slot with
  | none => t
  | some (i, c) =>
    if t.owns i p then
      { t with recs := (t.recs &&& ~~~(0xF#64 <<< (4 * i))) ||| (BitVec.ofNat 64 (c % 16) <<< (4 * i)) }
    else t

/-- The result lands (R34): its registers, flags and record slot are written, and any other outstanding result of the same
registers is marked (R35). The flags of a returning form are merged at the landing and at no time before, so that a WRITES of
XSTAT in between clears none of them (notes/assumptions/64.md). -/
def Wave.land (use : Nat) (w : Wave) (p : Pending) : Wave :=
  let ws := p.landing use w
  let w := { w with pend := w.pend.filter (fun q => q.id != p.id) }
  let w := match p.lane with
    | some l => (w.putLanes (laneBit l) fun _ => ws).modThread l fun t => t.landSlot p
    | none => w.putUnis ws
  let w := match p.lane, p.slot with
    | some l, some (i, code) =>
      if (w.thread l).owns i p then { w with pend := w.pend.map fun (q : Pending) => q.seeSlot l i p.id code } else w
    | _, _ => w
  { w with xstat := w.xstat ||| p.flags }

/-- Does the thread of lane `l` have an outstanding result (R34)? -/
def Wave.outstanding (w : Wave) (l : Nat) : Bool := w.pend.any fun p => p.lanes.getLsbD l

/-- Does any of them come from beyond the core's L1 (R34, R267)? -/
def Wave.outstandingFar (w : Wave) (l : Nat) : Bool := w.pend.any fun p => p.lanes.getLsbD l && p.far

end Sys2Proof.Machine
end

