-- ==== Sys2Proof/Machine/Mem.lean ====
section
/-! DEFINITION. The memory hierarchy (spec/11), address translation (spec/26 R374 to R377), publication across dies
(spec/12 R200 to R203), versions and commits (spec/12 R206, spec/18 R261 to R264) and monitors (spec/11 R184, R185).
Memory below the caches is the home caches' view of both tiers. -/

namespace Sys2Proof.Machine

/-! ## Lines of 64 bytes (R8) -/

/-- Byte `i` of a line. -/
def lineByte (x : Line) (i : Nat) : Byte := BitVec.ofNat 8 (x.toNat / 2 ^ (8 * i))

/-- `n` bytes of a line from byte `i` up, as a number. -/
def lineNat (x : Line) (i n : Nat) : Nat := x.toNat / 2 ^ (8 * i) % 2 ^ (8 * n)

/-- A byte mask as a mask of 512 bits. -/
def byteMask (m : BitVec 64) : Line :=
  BitVec.ofNat 512 ((List.range 64).foldl (fun a i => if m.getLsbD i then a + 255 * 2 ^ (8 * i) else a) 0)

/-- The bytes of `new` where the mask has a one, of `old` elsewhere. -/
def mergeLine (m : BitVec 64) (old new : Line) : Line :=
  (old &&& ~~~(byteMask m)) ||| (new &&& byteMask m)

/-- The mask of `n` bytes from byte `i` up. -/
def runMask (i n : Nat) : BitVec 64 := BitVec.ofNat 64 ((2 ^ n - 1) * 2 ^ i)

/-- A write of the low `n` bytes of `x` at physical address `a`, which lies in one line (R105). -/
def lineWrite (a n x : Nat) : LineWrite :=
  { line := a / 64, data := BitVec.ofNat 512 (x % 2 ^ (8 * n) * 2 ^ (8 * (a % 64))), mask := runMask (a % 64) n }

/-- The words of a line that a byte mask touches, covers whole, and the byte mask of a word mask (R175). -/
def touched (m : BitVec 64) : BitVec 16 :=
  BitVec.ofNat 16 ((List.range 16).foldl (fun a i => if m.toNat / 2 ^ (4 * i) % 16 != 0 then a + 2 ^ i else a) 0)
def covered (m : BitVec 64) : BitVec 16 :=
  BitVec.ofNat 16 ((List.range 16).foldl (fun a i => if m.toNat / 2 ^ (4 * i) % 16 == 15 then a + 2 ^ i else a) 0)
def wordBytes (v : BitVec 16) : BitVec 64 :=
  BitVec.ofNat 64 ((List.range 16).foldl (fun a i => if v.getLsbD i then a + 15 * 2 ^ (4 * i) else a) 0)

/-- A line as memory below the caches holds it. -/
def memLine (m : Memory) (line : Nat) : Line := BitVec.ofNat 512 (Memory.readNat m (64 * line) 64)

/-- The bytes of a masked write put into memory. -/
def memPut (m : Memory) (w : LineWrite) : Memory :=
  (List.range 64).foldl (fun m i => if w.mask.getLsbD i then m.write (64 * w.line + i) (lineByte w.data i) else m) m

/-! ## The physical space (R374) -/

/-- What a physical address names. -/
inductive Frame where
  | dram (die : Nat) (lpddr : Bool) (interleaved : Bool)
  | host
  | reserved
  deriving DecidableEq, Repr

/-- The table of R374. -/
def frameOf (pa : Nat) : Frame :=
  if pa < 2 ^ 41 then
    let o := pa % 2 ^ 38
    if o < 2 ^ 35 then .dram (pa / 2 ^ 38) false false
    else if 2 ^ 37 ≤ o then .dram (pa / 2 ^ 38) true false else .reserved
  else if 2 ^ 44 ≤ pa && pa < 2 ^ 44 + 2 ^ 38 then .dram ((pa - 2 ^ 44) / 2 ^ 15 % 8) false true
  else if 2 ^ 44 + 2 ^ 40 ≤ pa && pa < 2 ^ 44 + 2 ^ 41 then .dram ((pa - 2 ^ 44 - 2 ^ 40) / 2 ^ 15 % 8) true true
  else if 2 ^ 49 ≤ pa && pa < 2 ^ 50 then .host
  else .reserved

/-- The number of the 32 KiB block of storage behind an address, the same for both views: block b of a tier is the
(b div 8)-th of die b mod 8 (notes/assumptions/7.md). -/
def blockOf (pa : Nat) : Nat :=
  match frameOf pa with
  | .dram d l false => 2 * (pa % 2 ^ 37 / 2 ^ 15 * 8 + d) + (if l then 1 else 0)
  | .dram _ l true => 2 * ((pa - 2 ^ 44 - (if l then 2 ^ 40 else 0)) / 2 ^ 15) + (if l then 1 else 0)
  | _ => 0

/-- Is the frame one of the view that the supervisor gave its storage to, or host memory (R374)? -/
def State.frameOk (s : State) (pa : Nat) : Bool :=
  match frameOf pa with
  | .dram _ _ i => s.ilvBlocks.contains (blockOf pa) == i
  | .host => true
  | .reserved => false

/-- Is the frame device memory (R210, R250)? -/
def State.deviceFrame (s : State) (pa : Nat) : Bool := s.frameOk pa && decide (frameOf pa ≠ .host)

/-- The home die of an address; host memory has none. -/
def homeOf (pa : Nat) : Option Nat :=
  match frameOf pa with
  | .dram d _ _ => some d
  | _ => none

/-- The home die of a line. -/
def homeOfLine (line : Nat) : Option Nat := homeOf (64 * line)

/-- Does the line's tier hold LPDDR (R117 codes 6 and 7)? -/
def lineLpddr (line : Nat) : Bool :=
  match frameOf (64 * line) with
  | .dram _ l _ => l
  | _ => false

/-! ## The home cache and its directory (R176) -/

def State.sectLine? (s : State) (sector line : Nat) : Option SectLine :=
  s.sect.find? fun x => x.sector == sector && x.line == line

def State.dropSect (s : State) (sector line : Nat) : State :=
  { s with sect := s.sect.filter fun x => !(x.sector == sector && x.line == line) }

/-- The lines that an L1, a sector cache and a home cache hold (R2, R173). -/
def l1Lines : Nat := 4096
def sectLines : Nat := 524288
def homeCacheLines : Nat := 4194304

/-- The line that leaves a cache of `cap` lines which holds the lines `held` and takes another: any of them (R173). -/
def State.victim (s : State) (cap unit : Nat) (held : List Nat) : Option Nat :=
  if held.length < cap then none
  else held[Config.freeChoice s.picks unit held.length % held.length]?

/-- The dirty words of a line's copies in its home die's sectors are written back (R176); both copies stay, read-only. -/
def State.homeSync (s : State) (line : Nat) : State :=
  let ds := s.sect.filter fun x => x.line == line && !x.remote && x.dirty != 0
  { s with
    mem := ds.foldl (fun m x => memPut m { line, data := x.data, mask := wordBytes x.dirty }) s.mem
    sect := s.sect.map fun x => if x.line == line && !x.remote then { x with dirty := 0 } else x }

/-- A sector cache's line evicted, the dirty words of a line of its own die written back (R173, R175, R176). The write-back leaves
the line's presence in its home cache as it was, on which the rules say nothing (notes/assumptions/77.md). -/
def State.evictSect (s : State) (sector line : Nat) : State :=
  let own := s.sect.any fun x => x.sector == sector && x.line == line && !x.remote
  (if own then s.homeSync line else s).dropSect sector line

/-- A line put into a sector cache, which evicts another line when it is full (R173). -/
def State.putSect (s : State) (x : SectLine) : State :=
  let rest := s.sect.filter fun y => !(y.sector == x.sector && y.line == x.line)
  let t : State := { s with sect := x :: rest }
  match s.victim sectLines x.sector ((rest.filter fun y => y.sector == x.sector).map (·.line)) with
  | some v => t.picked.evictSect x.sector v
  | none => t

def State.l1Line? (s : State) (core line : Nat) : Option L1Line :=
  s.l1.find? fun x => x.core == core && x.line == line

def State.dropL1 (s : State) (core line : Nat) : State :=
  { s with l1 := s.l1.filter fun x => !(x.core == core && x.line == line) }

/-- A line put into an L1, which evicts another line when it is full (R173). -/
def State.putL1 (s : State) (x : L1Line) : State :=
  let rest := s.l1.filter fun y => !(y.core == x.core && y.line == x.line)
  let t : State := { s with l1 := x :: rest }
  match s.victim l1Lines x.core ((rest.filter fun y => y.core == x.core).map (·.line)) with
  | some v => t.picked.dropL1 x.core v
  | none => t

/-- The freshest words of a line on its home die, without moving any (R188). -/
def State.homeView (s : State) (line : Nat) : Line :=
  (s.sect.filter fun x => x.line == line && !x.remote && x.dirty != 0).foldl
    (fun l x => mergeLine (wordBytes x.dirty) l x.data) (memLine s.mem line)

/-- The other sectors' copies of a line are written back and end, before a store of sector `keep` (R176). -/
def State.endOthers (s : State) (keep : Option Nat) (line : Nat) : State :=
  let s := s.homeSync line
  { s with sect := s.sect.filter fun x => !(x.line == line && !x.remote && keep != some x.sector) }

/-- The lines that versions hold in the store of die `d` (R178). -/
def State.verUsed (s : State) (d : Nat) : Nat :=
  (s.versions.filter fun v => !v.spill && (s.gang? v.gang).any fun g => g.die == d).length

/-- The lines, but for `keep`, that the home cache of die `h` holds. -/
def State.homeHeld (s : State) (h : Nat) (keep : Option Nat) : List Nat :=
  s.homeLines.filter fun x => homeOfLine x == some h && keep != some x

/-- `n` lines but for `keep` leave the home cache of die `h` (R173). -/
def State.dropHome (h : Nat) (keep : Option Nat) : Nat → State → State
  | 0, s => s
  | n + 1, s =>
    match s.victim 0 h (s.homeHeld h keep) with
    | some v => State.dropHome h keep n { s.picked with homeLines := s.homeLines.filter (· != v) }
    | none => s

/-- The home cache of die `h` holds no more lines than the ways that the versions leave it (R173, R178). -/
def State.fitHome (s : State) (h : Nat) (keep : Option Nat) : State :=
  State.dropHome h keep ((s.homeHeld h none).length + s.verUsed h - homeCacheLines) s

/-- The line is present in its home cache, which evicts other lines when it is full; versions take ways of it (R173, R178). -/
def State.touchHome (s : State) (line : Nat) : State :=
  if s.homeLines.contains line then s else
  State.fitHome { s with homeLines := line :: s.homeLines } ((homeOfLine line).getD 0) (some line)

/-! ## Monitors (R184, R185) -/

/-- Waves whose armed monitor holds the line and that satisfy `p` record an event; the threads they hold in WAITM wake,
with the monitor disarmed, unless a pre-emption request holds them (R220, R269). -/
def State.monEvent (s : State) (line : Nat) (p : Wave → Bool) : State :=
  { s with waves := s.waves.map fun w =>
      match w.monitor with
      | some m =>
        if m.line == line && p w then
          if w.threads.any (fun t => t.hold? == some .waitm) && !(s.gangOf w).still then
            { w with monitor := none
                     threads := w.threads.map fun t => if t.hold? == some .waitm then t.goOn else t }
          else { w with monitor := some { m with event := true } }
        else w
      | none => w }

/-! ## Writes performed at a home (R186, R207) -/

/-- A masked write performed at its line's home cache, for an agent that holds no sector copy: the sectors' copies end, the
host gives up its copy (notes/assumptions/12.md), and monitors record the write. -/
def State.homeWrite (s : State) (w : LineWrite) : State :=
  let s := s.endOthers none w.line
  let s := { s with mem := memPut s.mem w, hostLines := s.hostLines.filter (· != w.line) }
  (s.touchHome w.line).monEvent w.line fun _ => true

/-! ## Publication across dies (R200 to R203) -/

/-- Serial-number comparison of the 32-bit counters: a ≥ b (R201). -/
def serialGe (a b : Word) : Bool := (a - b).toNat < 2 ^ 31

/-- Entry k of a vector. -/
def vecAt (v : List Word) (k : Nat) : Word := v.getD k 0#32

/-- A vector with an entry replaced. -/
def vecSet (v : List Word) (k : Nat) (x : Word) : List Word := v.set k x

/-- Entrywise merge (R201). -/
def vecMerge (a b : List Word) : List Word :=
  (a.zip b).map fun p => if serialGe p.2 p.1 then p.2 else p.1

def State.flow? (s : State) (c : FlowClass) (j h : Nat) : Option Flow :=
  s.flows.find? fun f => f.cls == c && f.src == j && f.dst == h

/-- The flow from `j` to `h`, empty if nothing has used it. -/
def State.flow (s : State) (c : FlowClass) (j h : Nat) : Flow :=
  (s.flow? c j h).getD { cls := c, src := j, dst := h }

def State.putFlow (s : State) (f : Flow) : State :=
  { s with flows := f :: s.flows.filter fun g => !(g.cls == f.cls && g.src == f.src && g.dst == f.dst) }

/-- A message enters a flow with the next sequence number (R203). -/
def State.send (s : State) (c : FlowClass) (j h : Nat) (b : FlitBody) : State :=
  let f := s.flow c j h
  s.putFlow { f with next := f.next + 1, flight := f.flight ++ [{ seq := f.next, body := b }] }

/-- Does nothing of the flow remain to be applied or served? -/
def Flow.idle (f : Flow) : Bool := f.flight.isEmpty && f.refused.isEmpty && f.buffer.isEmpty && f.ready.isEmpty

/-- Every message of a flow that has not been applied. -/
def Flow.bodies (f : Flow) : List FlitBody :=
  f.ready ++ f.buffer.map (·.body) ++ f.flight.map (·.body) ++ f.refused.map (·.body)

/-- The wave whose published write a message is. -/
def FlitBody.pubWave : FlitBody → Option Nat
  | .pub _ w (.writes _) => some w
  | .pub _ w (.atomic _) => some w
  | _ => none

/-- The lines a published message writes. -/
def FlitBody.lines : FlitBody → List Nat
  | .pub _ _ (.writes ws) => ws.map (·.line)
  | _ => []

/-- The number of a published write among those of its die `d` (R200). -/
def FlitBody.number (d : Nat) : FlitBody → Option Word
  | .pub _ _ (.marker _) => none
  | .pub stamp _ _ => some (stamp.getD d 0)
  | _ => none

/-- Has the published write of die `d` with number `n` been applied at its home? -/
def State.pubDone (s : State) (d : Nat) (n : Word) : Bool :=
  !(s.flows.any fun f => f.cls == .publish && f.src == d && f.bodies.any fun b => b.number d == some n)

/-- Messages of the publish flows that a wave made and no home has applied. -/
def State.publishedBy (s : State) (wave : Nat) : List FlitBody :=
  s.flows.flatMap fun f => if f.cls == .publish then f.bodies.filter fun b => b.pubWave == some wave else []

/-- Is the message one of a versioned gang's commits: writes that a wave of it has published, or its lift, which goes by the
gang's number (R200, R206)? -/
def State.commitOf (s : State) (gang : Nat) : FlitBody → Bool
  | .pub _ w (.writes _) => w == gang || s.waves.any fun v => v.id == w && v.gang == gang
  | _ => false

/-- The messages of its commits that no home has applied. -/
def State.commitsOut (s : State) (gang : Nat) : List FlitBody :=
  s.flows.flatMap fun f => if f.cls == .publish then f.bodies.filter (s.commitOf gang) else []

/-- May the result land: it is there, and the published writes it waits for have been applied (R34, R192)? -/
def State.mayLand (s : State) (p : Pending) : Bool := !p.opened && p.pubs.all fun x => s.pubDone x.1 x.2

/-- R201: a die stalls its next publication while P leads a home's entry for it by 2^30 or more. -/
def State.canPublish (s : State) (d : Nat) : Bool :=
  s.dies.all fun h => ((s.die d).pub - vecAt h.app d).toNat < 2 ^ 30

/-- R200: P and D advance by one for each of `n` published words; the stamp is D after the increments. -/
def State.bumpPub (s : State) (d n : Nat) : List Word × State :=
  let p := (s.die d).pub + BitVec.ofNat 32 n
  let dep := vecSet (s.die d).dep d p
  (dep, s.modDie d fun x => { x with pub := p, dep := dep, app := vecSet x.app d p })

/-- A published write leaves die `d` for home `h` on the ordered publish flow, one publication for each of the `n` words of a
commit bundle (R200). -/
def State.publish (s : State) (d h wave : Nat) (b : PubBody) (n : Nat := 1) : State :=
  let (stamp, s) := s.bumpPub d n
  s.send .publish d h (.pub stamp wave b)

/-- Coverage of a read: A_h[k] ≥ D_d[k] for every k ≠ h (R201). -/
def State.coverage (s : State) (h : Nat) (deps : List Word) : Bool :=
  (List.range 8).all fun k => k == h || serialGe (vecAt (s.die h).app k) (vecAt deps k)

/-- May die `d` read at home `h`, its own included, now (R201)? -/
def State.readable (s : State) (d h : Nat) : Bool := s.coverage h (s.die d).dep

/-- A reply from `h` merges A_h into D_d (R201). -/
def State.mergeReply (s : State) (d : Nat) (app : List Word) : State :=
  s.modDie d fun x => { x with dep := vecSet (vecMerge x.dep app) d x.pub }

/-- May a unit of die `d` write at home `h` in one step: the die does not stall its publications, nothing of its publish flow is
under way, and every write it has seen is applied there (R200, R201)? -/
def State.writable (s : State) (d h : Nat) : Bool :=
  d == h || (s.canPublish d && (s.flow .publish d h).idle && s.readable d h)

/-- A fill that leaves no copy behind. -/
def Fill.spoil (f : Fill) : Fill :=
  { f with fillSect := false, waiters := f.waiters.map fun x => { x with fillL1 := false, last := false } }

/-- A read from another die. -/
def Fill.far (f : Fill) : Bool := homeOfLine f.line != some (sectorDie f.sector)

/-- Reads of a line from another die that its home has served before service `n`, and whose replies are on their way to die `d`,
leave no copy: the value of that service may be newer (R169; notes/assumptions/13.md). -/
def State.spoilServed (s : State) (d line n : Nat) : State :=
  let fills := modBy s.fills
    (fun f => f.line == line && sectorDie f.sector == d && f.far && f.data.isSome && decide (f.served < n)) Fill.spoil
  { s with fills := fills }

/-- The remote-tagged copies of a line in the sectors of die `d` are evicted (R173). -/
def State.dropRemote (s : State) (d line : Nat) : State :=
  { s with sect := s.sect.filter fun x => !(x.line == line && x.remote && sectorDie x.sector == d) }

/-- Reads of a line from another die, under way for die `d`, leave no copy: what they return may be older than a write of
that die (R169; notes/assumptions/13.md). -/
def State.spoilFills (s : State) (d line : Nat) : State :=
  let fills := modBy s.fills (fun f => f.line == line && sectorDie f.sector == d && f.far) Fill.spoil
  { s with fills := fills }

/-- The remote-tagged copies of a line on die `d` end (notes/assumptions/13.md). -/
def State.endRemote (s : State) (d line : Nat) : State :=
  (s.dropRemote d line).spoilFills d line

/-- A write by a device agent or the host ends poison in the words it covers (R274, R386). -/
def State.endPoison (s : State) (w : LineWrite) : State :=
  { s with poison := s.poison.filter fun x => !(x / 16 == w.line && (covered w.mask).getLsbD (x % 16))
           codeErrs := s.codeErrs.filter (· != w.line) }

/-- A write of a unit of die `d` performed at the line's home in one step; to another die it is a publication applied at
once (R200, R201), and the die's remote-tagged copies of the line end. -/
def State.unitWrite (s : State) (d : Nat) (w : LineWrite) : State :=
  match homeOfLine w.line with
  | none => { s with mem := memPut s.mem w }
  | some h =>
    if h == d then s.homeWrite w
    else
      let (stamp, s) := s.bumpPub d 1
      let s := s.modDie h fun x => { x with app := vecSet x.app d (vecAt stamp d), dep := vecSet (vecMerge x.dep stamp) h x.pub }
      (s.endRemote d w.line).homeWrite w

/-- The same of new bytes, which end poison in the words they cover. -/
def State.directWrite (s : State) (d : Nat) (w : LineWrite) : State := (s.endPoison w).unitWrite d w

/-! ## Misses (R175, R183) -/

/-- The core of a waiting load. -/
def State.waiterCore (s : State) (f : Fill) (r : Waiter) : Nat := ((s.wave? r.wave).map (·.core)).getD f.core

/-- The lines of which the loads of a core have misses outstanding, and those of a sector cache (R183). -/
def State.coreMisses (s : State) (core : Nat) : List Nat :=
  ((s.fills.filter fun f => f.sent && f.waiters.any fun x => s.waiterCore f x == core).map (·.line)).eraseDups
def State.sectMisses (s : State) (sector : Nat) : List Nat :=
  ((s.fills.filter fun f => f.sent && f.sector == sector).map (·.line)).eraseDups

/-- Has a table of `n` entries one for the line, or one that is free? -/
def hasEntry (n line : Nat) (xs : List Nat) : Bool := xs.contains line || decide (xs.length < n)

/-- Has a load of the core one of the 128 entries of its L1 and one of the 256 of its sector cache (R183)? -/
def State.coreRoom (s : State) (core line : Nat) : Bool :=
  hasEntry 128 line (s.coreMisses core) && hasEntry 256 line (s.sectMisses (coreSector core))

/-- Has a fill its entries of the miss tables: of its sector cache, and of the L1s of its loads (R183)? -/
def State.missRoom (s : State) (f : Fill) : Bool :=
  hasEntry 256 f.line (s.sectMisses f.sector) && f.waiters.all fun x => hasEntry 128 f.line (s.coreMisses (s.waiterCore f x))

/-- A fill takes its entry and leaves; a read of a line homed on another die carries D as it then stands on the request flow
(R183, R201). -/
def State.sendFill (s : State) (f : Fill) : State :=
  if !(s.missRoom f) then s else
  let d := sectorDie f.sector
  let fills := modBy s.fills (fun x => x.id == f.id) fun x => { x with sent := true, deps := (s.die d).dep }
  let s := { s with fills := fills }
  match homeOfLine f.line with
  | some h => if h == d then s else s.send .request d h (.read f.id)
  | none => s

/-- The fills that wait for an entry take those that are free, in their order (R183). -/
def State.sendFills (s : State) : State := (s.fills.filter fun f => !f.sent).foldl State.sendFill s

/-- May a miss be served by an outstanding fill: of its sector and line, whose home has not served it, and which carries all that
the die has seen (R183, R201)? A later read of a line that has its entry shares the entry (notes/assumptions/22.md). -/
def State.merges (s : State) (core line : Nat) (f : Fill) : Bool :=
  f.sector == coreSector core && f.line == line && f.data.isNone &&
    (!f.sent || f.deps == (s.die (coreDie core)).dep)

/-- A miss of a core's load, or of a store that its sector cache holds, leaves a fill to be made, merged into one already
outstanding for the line (R175, R183). -/
def State.missWith (s : State) (core line : Nat) (fillSect load : Bool) (f : Fill → Fill) : State :=
  match s.fills.find? fun g => s.merges core line g && (!load || !g.sent || hasEntry 128 line (s.coreMisses core)) with
  | some g =>
    let fills := modBy s.fills (fun x => x.id == g.id) fun x => f { x with fillSect := x.fillSect || fillSect }
    { s with fills := fills }
  | none =>
    let (id, s) := s.newId
    State.sendFills { s with fills := s.fills ++
      [f { id, sector := coreSector core, core, line, fillSect, sent := false, deps := [] }] }

/-- A load misses. -/
def State.miss (s : State) (core line : Nat) (fillSect : Bool) (w : Waiter) : State :=
  s.missWith core line fillSect true fun f => { f with waiters := f.waiters ++ [w] }

/-! ## Stores of a thread (R105 to R108, R175 to R177) -/

/-- The sector-cache line after a store of this sector, each word that it covers in part being valid (R175). -/
def SectLine.store (x : SectLine) (w : LineWrite) (last : Bool) : SectLine :=
  { x with
    data := mergeLine w.mask x.data w.data
    valid := x.valid ||| touched w.mask
    dirty := if x.remote then 0 else x.dirty ||| touched w.mask
    evictFirst := x.evictFirst || last }

/-- Does a store write part of a word of a line of its own die that is invalid in its sector cache (R175)? A .stream store that
finds no line goes to the home (R108). -/
def State.partStore (s : State) (core : Nat) (pol : CachePol) (w : LineWrite) : Bool :=
  let part := touched w.mask &&& ~~~(covered w.mask)
  homeOfLine w.line == some (coreDie core) &&
    match s.sectLine? (coreSector core) w.line with
    | some x => part &&& ~~~x.valid != 0
    | none => pol != .stream && part != 0

/-- Such a store is held at the sector cache until a merging fill has made the word valid (R175). -/
def State.holdStore (s : State) (core wave : Nat) (lanes : LaneMask) (pol : CachePol) (w : LineWrite) : State :=
  let (id, s) := s.newId
  s.missWith core w.line true false fun f => { f with stores := f.stores ++ [{ id, wave, lanes, core, pol, w }] }

/-- A plain store of one line by a thread performed (R108, R175 to R177): the L1 copy is updated or ended, the sector cache is
written, and a line homed on another die is published. -/
def State.storeNow (s : State) (core wave : Nat) (pol : CachePol) (w : LineWrite) : State :=
  let sec := coreSector core
  let d := coreDie core
  let s := match pol with
    | .dflt | .last =>
      let l1 := modBy s.l1 (fun x => x.core == core && x.line == w.line) fun x => { x with data := mergeLine w.mask x.data w.data }
      { s with l1 := l1 }
    | .pass | .stream => s.dropL1 core w.line
  match homeOfLine w.line with
  | none => { s with mem := memPut s.mem w }
  | some h =>
    if h == d then
      let s := s.endOthers (some sec) w.line
      let s := { s with hostLines := s.hostLines.filter (· != w.line) }
      let s := match s.sectLine? sec w.line, pol with
        | some x, _ => s.putSect (x.store w (pol == CachePol.last))
        | none, .stream => State.touchHome { s with mem := memPut s.mem w } w.line
        | none, _ => s.putSect
            (SectLine.store { sector := sec, line := w.line, data := 0, valid := 0, dirty := 0, remote := false }
              w (pol == CachePol.last))
      s.monEvent w.line fun _ => true
    else
      let s := { s with sect := s.sect.filter fun x =>
        !(x.line == w.line && x.remote && sectorDie x.sector == d && x.sector != sec) }
      let s := s.spoilFills d w.line
      let s := match s.sectLine? sec w.line with
        | some x => (s.putSect (x.store w (pol == CachePol.last))).monEvent w.line fun v => coreSector v.core == sec
        | none => s
      s.publish d h wave (.writes [w])

/-- A plain store of one line by the threads `lanes` of a wave, performed at once or held at its sector cache (R175). -/
def State.storeLine (s : State) (core wave : Nat) (lanes : LaneMask) (pol : CachePol) (w : LineWrite) : State :=
  if s.partStore core pol w then s.holdStore core wave lanes pol w else s.storeNow core wave pol w

/-! ## Versions (R178, R206, R261 to R264) -/

def State.vline? (s : State) (gang line : Nat) : Option VLine :=
  s.versions.find? fun v => v.gang == gang && v.line == line

/-- The version lines of a gang. -/
def State.version (s : State) (gang : Nat) : List VLine := s.versions.filter fun v => v.gang == gang

/-- The lines that versions of launch `l` hold in its spill area (R264). -/
def State.spillUsed (s : State) (l : Nat) : Nat :=
  (s.versions.filter fun v => v.spill && (s.gang? v.gang).any fun g => g.launch == l).length

/-- Is there room for `n` more version lines of gang `g` (R264)? -/
def State.verRoom (s : State) (g : Gang) (n : Nat) : Bool :=
  n ≤ ((s.die g.die).verCap / 64 - s.verUsed g.die) + ((s.launchOf g).verLines - s.spillUsed g.launch)

/-- A speculative write, of a thread of `core` if one is named: the version takes the bytes (R178); a new line goes to the
store, for which the home cache gives ways, or, when that is full, to the spill area. A write of no byte takes the line's room
(R264). -/
def State.verWrite (s : State) (g : Gang) (core : Option Nat) (w : LineWrite) : State :=
  match s.vline? g.id w.line with
  | some _ => { s with versions := s.versions.map fun v =>
      if v.gang == g.id && v.line == w.line then
        { v with data := mergeLine w.mask v.data w.data, mask := v.mask ||| w.mask, cores := core.toList ++ v.cores }
      else v }
  | none =>
    let v : VLine := { gang := g.id, line := w.line, data := w.data, mask := w.mask, cores := core.toList
                       spill := decide ((s.die g.die).verCap / 64 ≤ s.verUsed g.die) }
    State.fitHome { s with versions := s.versions ++ [v] } g.die none

/-- Has the gang's version a byte that is not committed? -/
def State.dirty (s : State) (gang : Nat) : Bool := (s.version gang).any fun v => v.mask != 0

/-- Does the task's filter steer a load of a thread of `core` past the L1: has a thread of the gang on that core stored to the
line since the last commit (R178)? -/
def State.steered (s : State) (gang core line : Nat) : Bool := (s.vline? gang line).any fun v => v.cores.contains core

/-- Has the task written the line since its last commit? -/
def State.written (s : State) (gang line : Nat) : Bool := (s.vline? gang line).any fun v => v.mask != 0

/-- A line with the gang's own version over it (R178). -/
def State.overlay (s : State) (gang line : Nat) (x : Line) : Line :=
  match s.vline? gang line with
  | some v => mergeLine v.mask x v.data
  | none => x

/-- The words of a commit bundle (R200). -/
def bundleWords (ws : List LineWrite) : Nat :=
  (ws.map fun w => ((List.range 16).filter fun i => (touched w.mask).getLsbD i).length).sum

/-- Has a group of the gang that left its core, and has not run, room for a line that it stores to (R264)? -/
def State.reserved (s : State) (gang line : Nat) : Bool :=
  s.sunk.any fun x => x.gang == gang && x.line == line && !x.ran && x.stores

/-- A commit (R206, R262): the writes to lines homed on the gang's die become visible at its home cache in one step, those
homed on another die leave as one bundle, and the version is empty but for the room that groups under way have (R264).
Remote-tagged copies of the lines end on the gang's die,
and L1 copies on its cores (notes/assumptions/13.md). -/
def State.commit (s : State) (gid wave : Nat) : State :=
  match s.gang? gid with
  | none => s
  | some g =>
    let ws := ((s.version gid).filter fun v => v.mask != 0).map fun v => ({ line := v.line, data := v.data, mask := v.mask } : LineWrite)
    let here := ws.filter fun w => homeOfLine w.line == some g.die || homeOfLine w.line == none
    let s := here.foldl (fun s w => if homeOfLine w.line == none then { s with mem := memPut s.mem w } else s.homeWrite w) s
    let s := ws.foldl (fun (s : State) w => s.endRemote g.die w.line) s
    let cores := (s.waves.filter fun w => w.gang == gid).map Wave.core
    let s := { s with l1 := s.l1.filter fun x => !(cores.contains x.core && ws.any fun w => w.line == x.line) }
    let s := (List.range 8).foldl (fun s h =>
      let b := ws.filter fun w => homeOfLine w.line == some h
      if h == g.die || b.isEmpty then s else s.publish g.die h wave (.writes b) (bundleWords b)) s
    let s := ws.foldl State.endPoison s
    let s := { s with versions := s.versions.filter fun v => v.gang != gid }
    let s := (s.sunk.filter fun x => x.gang == gid && !x.ran && x.stores).foldl
      (fun (s : State) x => s.verWrite g none { line := x.line, data := 0, mask := 0 }) s
    s.modGang gid fun g => { g with committed := true, ccnt := g.ccnt + 1 }

/-- Does a commit of the gang send a bundle to another die, so that it is not performed at once (R206)? -/
def State.commitRemote (s : State) (g : Gang) : Bool :=
  (s.version g.id).any fun v => v.mask != 0 && match homeOfLine v.line with | some h => h != g.die | none => false

/-! ## Loads of a thread (R105 to R108, R168, R169, R175 to R177) -/

/-- Where a load finds its line: a copy at the core's L1, one below it that serves the load at once, or nowhere above the
home. -/
inductive Found where
  | l1 (x : Line)
  | below (x : Line)
  | miss
  deriving DecidableEq, Repr

/-- Is a sector cache's line of its own die one that a read may not be served from: an acquire at .pkg or .sys has found its home
short of what the die has seen, and the home still is (R199)? -/
def State.sectBehind (s : State) (x : SectLine) : Bool :=
  x.behind && !(s.readable (sectorDie x.sector) (sectorDie x.sector))

/-- The lookup of R108, R168 and R175 for bytes `m` of a line. Whether a peer's L1 is probed on a miss is not architectural
(R174), and a peer's copy equals the sector cache's (R169): the model makes no probe for a load (notes/assumptions/22.md). Without
an acquire before it, a read is served from the sector's copy of its own die's line whatever the home lacks, as R201 has it,
although R199 excepts only L1 copies for a read that a W marker keeps (notes/assumptions/78.md). -/
def State.lookup (s : State) (core : Nat) (pol : CachePol) (line : Nat) (m : BitVec 64) : Found :=
  if homeOfLine line = none then .below (memLine s.mem line) else
  let fillsL1 := pol == CachePol.dflt || pol == CachePol.last
  match (if fillsL1 then s.l1Line? core line else none) with
  | some x => .l1 x.data
  | none =>
    match s.sectLine? (coreSector core) line with
    | some x =>
      if (if fillsL1 then ~~~x.valid == 0 else touched m &&& ~~~x.valid == 0) && !(s.sectBehind x) then .below x.data else .miss
    | none => .miss

/-- The lookup for a thread of a gang: a steered load does not look up the L1 (R178). -/
def State.lookupFor (s : State) (gang core : Nat) (pol : CachePol) (line : Nat) (m : BitVec 64) : Found :=
  s.lookup core (if s.steered gang core line then .pass else pol) line m

/-- After a load was served below the L1: the copies it leaves (R108). A load of a line that the task has written leaves none in
the L1, which holds no speculative word (R108, R178; notes/assumptions/67.md). -/
def State.fillL1 (s : State) (gang core : Nat) (pol : CachePol) (line : Nat) (x : Line) : State :=
  if (pol == CachePol.dflt || pol == CachePol.last) && homeOfLine line != none && !(s.written gang line) then
    s.putL1 { core, line, data := x, evictFirst := pol == CachePol.last }
  else s

/-- The line that a thread of the gang reads where a lookup finds one: an L1 copy as it stands (R168), else with the task's
version over it (R178). -/
def State.found (s : State) (gang line : Nat) : Found → Option Line
  | .l1 x => some x
  | .below x => some (s.overlay gang line x)
  | .miss => none

/-- A fill that leaves no L1 copy behind. -/
def Fill.noL1 (f : Fill) : Fill := { f with waiters := f.waiters.map fun x => { x with fillL1 := false } }

/-- The acquire half of an access performed by a thread of `core` (R107, R217). Reads from other dies that are under way
leave none of the copies that it ends (notes/assumptions/13.md). -/
def State.acquire (s : State) (core : Nat) (p : Scope) : State :=
  let far (f : Fill) : Bool := f.sector == coreSector core && f.far
  match p with
  | .wave | .wg | .gang => s
  | .sect | .die =>
    let fills := modBy s.fills far Fill.noL1
    { s with l1 := s.l1.filter fun x => x.core != core, fills := fills }
  | .pkg | .sys =>
    let fills := modBy s.fills far Fill.spoil
    let behind := !(s.readable (coreDie core) (coreDie core))
    let fills := modBy fills (fun f => behind && f.sector == coreSector core && !f.far) fun f => { f.noL1 with behind := true }
    { s with l1 := s.l1.filter fun x => x.core != core, fills := fills
             sect := modBy (s.sect.filter fun x => !(x.sector == coreSector core && x.remote))
               (fun x => behind && x.sector == coreSector core) fun x => { x with behind := true } }

/-- The data registers of a load of `width` at byte `off` of a line (R104): narrower widths are zero-extended. -/
def loadWords (z : Width) (x : Line) (off : Nat) : List Word :=
  (List.range z.regCount).map fun j => BitVec.ofNat 32 (lineNat x off z.bytes / 2 ^ (32 * j))

/-! ## A line read at once (R108, R175, R201) -/

/-- A whole line read from its home into the caches of a core at once, as a merging fill would leave it (R108, R175). -/
def State.fillNow (s : State) (core line : Nat) (fillSect fillL1 last : Bool) (data : Line) : State :=
  let sec := coreSector core
  let x : SectLine := (s.sectLine? sec line).getD
    { sector := sec, line, data := 0, valid := 0, dirty := 0, remote := homeOfLine line != some (coreDie core) }
  let x := { x with data := mergeLine (wordBytes (~~~x.valid)) x.data data, valid := BitVec.allOnes 16
                    evictFirst := x.evictFirst || last, behind := s.sectBehind x }
  let s := if fillSect then s.putSect x else s
  if fillL1 then s.putL1 { core, line, data := if fillSect then x.data else data, evictFirst := last } else s

/-- A read of a line at its home by a die (R176, R201): the freshest words, the reply merged; none while the home may not
serve it. The die keeps no older copy of a line of another die (R169). -/
def State.homeRead (s : State) (d line : Nat) : Option (Line × State) :=
  match homeOfLine line with
  | none => some (memLine s.mem line, s)
  | some h =>
    if s.readable d h then
      let s := (s.homeSync line).touchHome line
      let s := (s.dropRemote d line).spoilServed d line s.nextId
      some (memLine s.mem line, if h == d then s else s.mergeReply d (s.die h).app)
    else none

/-- The line that a load performed in the core at once reads, with the copies it leaves (R108); none while the line's home may
not serve it, or no entry of the miss tables is free (R183). -/
def State.coreLine (s : State) (gang core line : Nat) (m : BitVec 64) : Option (Line × State) :=
  match s.lookupFor gang core .dflt line m with
  | .l1 x => some (x, s)
  | .below x => some (s.overlay gang line x, s.fillL1 gang core .dflt line x)
  | .miss => if !(s.coreRoom core line) then none else (s.homeRead (coreDie core) line).map fun r =>
      let s := r.2.fillNow core line true (!(s.written gang line)) false r.1
      (s.overlay gang line (((s.sectLine? (coreSector core) line).map (·.data)).getD r.1), s)

/-! ## Translation (R375 to R377) -/

/-- The use of an access for its page's permissions. -/
inductive Use where
  | read | write | fetch
  deriving DecidableEq, Repr

/-- The result of a translation: a physical address, a translation fault on a page, or a protection fault. -/
inductive Xl where
  | ok (pa : Nat)
  | fault (page : Nat)
  | prot
  deriving DecidableEq, Repr

/-- A leaf entry found for an address. -/
inductive Leaf where
  | ok (e : TlbEntry)
  | fault
  | prot
  deriving DecidableEq, Repr

/-- Eight bytes at a table's physical address, as its home cache holds them (R376). -/
def State.home64 (s : State) (pa : Nat) : Nat := lineNat (s.homeView (pa / 64)) (pa % 64) 8

/-- One walk, from a table whose entries cover 2^sh bytes each (R375). -/
def State.walkFrom (s : State) (core ctx va : Nat) : List Nat → Nat → Leaf
  | [], _ => .prot
  | sh :: shs, table =>
    if !s.deviceFrame table then .prot else
    let e := s.home64 (table + 8 * (va / 2 ^ sh % 4096))
    let at_ := e / 2 ^ 15 % 2 ^ 36 * 2 ^ 15
    if e % 2 == 0 then .fault
    else if e / 2 ^ 51 != 0 || e / 2 ^ 6 % 2 ^ 9 != 0 || (e / 2 ^ 5 % 2 == 1 && sh != 15) then .prot
    else if e / 2 % 2 == 1 then
      if at_ % 2 ^ sh != 0 then .prot
      else .ok { core, ctx, vbase := va / 2 ^ sh * 2 ^ sh, size := 2 ^ sh, pbase := at_,
                 r := e / 4 % 2 == 1, w := e / 8 % 2 == 1, x := e / 16 % 2 == 1 }
    else s.walkFrom core ctx va shs at_

/-- The walk of a context's tables: 512 GiB, 128 MiB and 32 KiB pages (R375). -/
def State.walk (s : State) (core ctx va : Nat) : Leaf :=
  match s.ctx? ctx with
  | none => .prot
  | some c => s.walkFrom core ctx va [39, 27, 15] c.root

/-- Is it the TLB entry of core or sector `c` that translates an address of a context? -/
def TlbEntry.hits (e : TlbEntry) (c ctx va : Nat) : Bool :=
  e.core == c && e.ctx == ctx && e.vbase ≤ va && va < e.vbase + e.size

/-- The translation a core uses: one its TLB holds, one its sector's holds, else a walk (R376). -/
def State.leaf (s : State) (core : Option Nat) (ctx va : Nat) : Leaf :=
  match core with
  | none => s.walk 0 ctx va
  | some c =>
    match s.tlb.find? (·.hits c ctx va) with
    | some e => .ok e
    | none => match s.sectTlb.find? (·.hits (coreSector c) ctx va) with
      | some e => .ok { e with core := c }
      | none => s.walk c ctx va

/-- An access of virtual address `va` (R105, R374, R375). -/
def State.xlate (s : State) (core : Option Nat) (ctx : Nat) (u : Use) (va : Nat) : Xl :=
  if 2 ^ 51 ≤ va then .prot else
  match s.leaf core ctx va with
  | .fault => .fault (va / 2 ^ 15 * 2 ^ 15)
  | .prot => .prot
  | .ok e =>
    if (match u with | .read => e.r | .write => e.w | .fetch => e.x) then
      let pa := e.pbase + (va - e.vbase)
      if s.frameOk pa then .ok pa else .prot
    else .prot

/-- A TLB of `n` entries takes a translation, keeping the newest. -/
def tlbPut (n : Nat) (e : TlbEntry) (l : List TlbEntry) : List TlbEntry :=
  if l.contains e then l
  else e :: (l.filter fun x => x.core == e.core).take (n - 1) ++ l.filter fun x => x.core != e.core

/-- The TLBs of the core and of its sector take the translation the core used (R376). -/
def State.noteTlb (s : State) (core ctx va : Nat) : State :=
  match s.leaf (some core) ctx va with
  | .ok e => { s with tlb := tlbPut 64 e s.tlb, sectTlb := tlbPut 2048 { e with core := coreSector core } s.sectTlb }
  | _ => s

/-- Is the ring of an event queue full (R384)? The read index, in the line after the write index, is the driver's. -/
def State.ringFull (s : State) (q : Nat × Nat × Nat × Nat) : Bool := 2 ^ q.2.2.1 ≤ (q.2.2.2 - s.home64 (q.1 + 64)) % 2 ^ 64

/-- Records of a kind that are kept while no event queue is registered (R384). -/
def kindHeld (k : Nat) : Bool := (1 ≤ k && k ≤ 0x0F) || k == 0x80

/-- The corrected errors that arrive while the ring is full are one record. -/
def mergeRec (e : EvRec) : List EvRec → Option (List EvRec)
  | [] => none
  | x :: xs => if x.kind == 0x81 then some ({ x with count := min (x.count + e.count) (2 ^ 32 - 1) } :: xs)
    else (mergeRec e xs).map (x :: ·)

/-- A record for a function's event queue (R384). -/
def State.record (s : State) (fn : Nat) (e : EvRec) : State :=
  s.modVi fn fun v =>
    match v.evq with
    | none => if kindHeld e.kind then { v with recs := v.recs ++ [e] } else v
    | some q => match (if e.kind == 0x81 && s.ringFull q then mergeRec e v.recs else none) with
      | some rs => { v with recs := rs }
      | none => { v with recs := v.recs ++ [e] }

/-- Accesses that join the fault of a record which has not been written yet. -/
def EvRec.join (e : EvRec) (ctx page n : Nat) : EvRec :=
  if 1 ≤ e.kind && e.kind ≤ 0x0F && e.ctx == ctx % 2 ^ 16 && e.addr == page then { e with count := e.count + n } else e

/-- A translation fault joins the outstanding record of its page, or makes one and sends it to the context's function
(R377). Kind bits: 1 read, 2 write, 4 fetch, 8 engine. -/
def State.faultOn (s : State) (ctx page kind n : Nat) : State :=
  if s.faults.any fun f => f.ctx == ctx && f.page == page then
    let faults := modBy s.faults (fun f => f.ctx == ctx && f.page == page) fun f => { f with joined := f.joined + n }
    State.modVi { s with faults := faults } ((s.ctx? ctx).elim 0 (·.fn)) fun v =>
      { v with recs := v.recs.map fun e => e.join ctx page n }
  else
    let f : FaultRec := { ctx, page, kind, joined := n }
    let s := { s with faults := s.faults ++ [f] }
    match s.ctx? ctx with
    | none => s
    | some c =>
      let e : EvRec := { addr := page, ctx := ctx % 2 ^ 16, kind, count := n }
      s.record c.fn e

/-! ## What a later access of a thread waits for (R107, R120, R191) -/

/-- Do `n` bytes at `a` and `k` bytes at `b` overlap? -/
def overlaps (a n b k : Nat) : Bool := decide (a < b + k) && decide (b < a + n)

/-- Has the thread no load or atomic outstanding on any of `n` bytes at `pa`, and is no group sunk from its core on the line
(R120, cells a and c of R193 to R195)? -/
def State.lineClear (s : State) (w : Wave) (l pa n : Nat) : Bool :=
  !(s.fills.any fun f =>
      (f.waiters.any fun x => x.wave == w.id && x.lanes.getLsbD l && overlaps pa n (64 * f.line + x.off) x.width.bytes) ||
      f.stores.any fun x => x.wave == w.id && x.lanes.getLsbD l && x.w.line == pa / 64 && x.w.mask &&& runMask (pa % 64) n != 0) &&
  !(s.sunk.any fun g => g.line == pa / 64 && g.core == w.core) &&
  !(s.groom.any fun r => r.wave == w.id && overlaps pa n r.addr r.ty.bytes && r.parts.any fun p => p.lane == l)

/-- The published messages that carry the thread's earlier writes: its wave's, and in a versioned gang every commit's, whichever
wave or lift has made it (R206). -/
def State.publishedFor (s : State) (w : Wave) : List FlitBody :=
  s.publishedBy w.id ++ if (s.launchOf (s.gangOf w)).hdr.ver then s.commitsOut w.gang else []

/-- Has the thread a store that its sector cache holds (R175)? -/
def State.storeHeld (s : State) (w : Wave) (l : Nat) : Bool :=
  s.fills.any fun f => f.stores.any fun x => x.wave == w.id && x.lanes.getLsbD l

/-- Is every earlier load, store and atomic of the thread performed at the scope (R107, R188, R217)? -/
def State.threadClear (s : State) (w : Wave) (l : Nat) (p : Scope) : Bool :=
  !(s.fills.any fun f => f.waiters.any fun x => x.wave == w.id && x.lanes.getLsbD l) &&
  !(s.sunk.any fun g => !g.ran && g.wave == w.id && g.lane == l) &&
  !(s.groom.any fun r => r.wave == w.id && r.parts.any fun q => q.lane == l) &&
  match p with
  | .wave | .wg => true
  | .gang | .sect => !(s.storeHeld w l) && (s.publishedFor w).all fun b =>
      b.lines.all fun x => (s.sectLine? (coreSector w.core) x).isSome
  | .die | .pkg | .sys => !(s.storeHeld w l) && (s.publishedFor w).isEmpty

end Sys2Proof.Machine
end

