-- ==== Sys2Proof/Machine/Ops.lean ====
section
/-! DEFINITION. The operations every word shares: the checks of an issue (spec/04 R81), its effects and its end (spec/03
R45 to R47, spec/15 R231), holds and their release (spec/14 R223, spec/16 R241, spec/15 R233, spec/06 R111, spec/19
R281), the abort of a gang (spec/18 R258), and taking an exception and returning from it (spec/17 R245 to R250). -/

namespace Sys2Proof.Machine

/-! ## Verdicts -/

/-- What one thread of the issuing group finds when a word checks it: it may go on; the word is not ready for it (it stays
at the word); a resumable cause with n of TRAP n and the faulting address (R246); an aborting cause with fault flags
(R255, R371); CHAIN for another word than the one that is checked (R114); or a translation fault on a page, with its kind
bits (R377) and whether it is met by an access to the thread's frame (R250). -/
inductive Verdict where
  | go
  | wait
  | trap (code n detail : Nat)
  | abort (code flags detail : Nat)
  | chain (word : Word)
  | xlate (page kind : Nat) (frame : Bool)
  deriving DecidableEq, Repr

/-- The checks a word makes of each thread (step 6 of R81), whether it is a commit point (R262), and its effect in the
threads in which its chain goes on; `always` is set where the effect has a part in threads that trap (R116). -/
structure WordOp where
  check  : State → Issue → Wave → Nat → Verdict := fun _ _ _ _ => .go
  commit : State → Wave → Gang → Bool := fun _ _ _ => false
  act    : State → Issue → Wave → LaneMask → State := fun s _ _ _ => s
  always : Bool := false

def State.modCur (s : State) (f : Issue → Issue) : State := { s with cur := s.cur.map f }

/-- The threads in which no word of the chain has trapped or met a translation fault. -/
def Issue.clean (c : Issue) : LaneMask :=
  c.lanes &&& maskBy fun l => !(c.traps.any fun t => t.1 == l) && !(c.xlates.any fun t => t.1 == l)

/-- Those of them in which a word of the chain cannot be performed yet. -/
def Issue.waiting (c : Issue) : LaneMask := c.waits &&& c.clean

/-- The threads in which the chain takes effect: no word of it traps or faults there (R47). While a word of the chain waits
in any of them, the group stays at the chain (notes/assumptions/9.md). -/
def Issue.acting (c : Issue) : LaneMask := if c.waiting != 0 then 0 else c.clean

/-! ## The gang of a wave -/

/-- The context whose translations a wave uses. -/
def State.ctxId (s : State) (w : Wave) : Nat := (s.launchOf (s.gangOf w)).ctx

/-- Is the gang's kernel versioned (R261)? -/
def State.versioned (s : State) (g : Gang) : Bool := (s.launchOf g).hdr.ver

/-- The gang has written global memory, or committed (R260). -/
def State.setCommitted (s : State) (gid : Nat) : State := s.modGang gid fun g => { g with committed := true }

/-- The waves of a gang. -/
def State.wavesOf (s : State) (gid : Nat) : List Wave := s.waves.filter fun w => w.gang == gid

/-- The next check where a first one finds nothing. -/
def Verdict.andThen (v : Verdict) (k : Verdict) : Verdict := match v with | .go => k | v => v

/-- The global thread index of R245. -/
def threadIndex (g : Gang) (w : Wave) (l : Nat) : Nat := 1024 * g.index + 256 * w.wg + 32 * w.idx + l

/-- R38: the values a program counter may have. -/
def validPc (pc : DWord) : Bool :=
  pc.toNat % 4 == 0 && pc.toNat / 4 % 4 != 0 && pc.toNat / 2 ^ 51 == 0

/-- R39: the word after a word that transfers no control. -/
def nextWord (pc : DWord) : DWord := if pc.toNat / 4 % 4 == 3 then pc + 8 else pc + 4

/-! ## Global accesses (R105) -/

/-- The physical address of an access, or why it does not go on: the address range, the alignment, then translation, in
the order of R105. -/
def State.access (s : State) (w : Wave) (u : Use) (ea size : Nat) : Except Verdict Nat :=
  if 2 ^ 51 ≤ ea then .error (.abort 0x82 0 ea)
  else if ea % size != 0 then .error (.trap 6 0 ea)
  else match s.xlate (some w.core) (s.ctxId w) u ea with
    | .ok pa => .ok pa
    | .fault p => .error (.xlate p (match u with | .read => 1 | .write => 2 | .fetch => 4) false)
    | .prot => .error (.abort 0x82 0 ea)

/-- Does an access of `n` bytes touch a poisoned word (R274, R386)? -/
def State.poisoned (s : State) (pa n : Nat) : Bool := s.poison.any fun x => x * 4 < pa + n && pa < x * 4 + 4

/-- Does a load of a gang's thread consume a poisoned word, one that the gang's version does not hold whole (R178, R274)? -/
def State.consumes (s : State) (gang pa n : Nat) : Bool :=
  s.poison.any fun x => x * 4 < pa + n && pa < x * 4 + 4 &&
    !((s.vline? gang (x / 16)).any fun v => (covered v.mask).getLsbD (x % 16))

/-- Must a write to a line of another die wait to be published (R201)? -/
def State.stalled (s : State) (w : Wave) (pa : Nat) : Bool :=
  (match homeOf pa with | some h => h != coreDie w.core | none => false) && !(s.canPublish (coreDie w.core))

/-- Flags raised by an engine or an atomic are the gang's (R142, R210, R372). -/
def State.raiseFlags (s : State) (gid : Nat) (f : BitVec 7) : State :=
  if f == 0 then s else s.modGang gid fun g => { g with flags := g.flags ||| f }

/-- The value a thread reads in one step, or none while the line's home may not serve it (R201): the L1 copy, or its gang's
version over the sector's copy or the home's freshest words (R168, R175, R178, R188). -/
def State.readNow (s : State) (w : Wave) (pol : CachePol) (pa n : Nat) : Option Nat :=
  let line := pa / 64
  let x := match s.lookupFor w.gang w.core pol line (runMask (pa % 64) n) with
    | .miss => match homeOfLine line with
      | some h => if s.readable (coreDie w.core) h then some (s.overlay w.gang line (s.homeView line)) else none
      | none => none
    | f => s.found w.gang line f
  x.map fun x => lineNat x (pa % 64) n

/-- A device thread of the launch has written the word where the seal of a slot of a launch queue may lie (R357, R361): the
last word of 128 aligned bytes. -/
def State.noteSeal (s : State) (launch : Nat) (lw : LineWrite) : State :=
  if s.queues.isEmpty || lw.line % 2 == 0 || lw.mask.toNat / 2 ^ 60 == 0 then s
  else { s with seals := (lw.line, launch) :: s.seals.filter fun x => x.1 != lw.line }

/-- Any other agent has. -/
def State.dropSeals (s : State) (ws : List LineWrite) : State :=
  { s with seals := s.seals.filter fun x => !(ws.any fun w => w.line == x.1 && w.mask.toNat / 2 ^ 60 != 0) }

/-- A plain store of one line by the threads `lanes` of a wave: speculative in a versioned gang (R108, R261), else R108, which ends poison in the
words it covers. -/
def State.threadStore (s : State) (w : Wave) (lanes : LaneMask) (pol : CachePol) (lw : LineWrite) : State :=
  let g := s.gangOf w
  let s := s.noteSeal g.launch lw
  if s.versioned g then (s.dropL1 w.core lw.line).verWrite g (some w.core) lw
  else ((s.endPoison lw).storeLine w.core w.id lanes pol lw).setCommitted w.gang

/-! ## Full-empty granules (R110, R111, R182, R221) -/

/-- The granules an access touches. -/
def granules (ea size : Nat) : List Nat := (List.range ((ea + size - 1) / 16 + 1 - ea / 16)).map fun i => ea / 16 + i

def Gang.isFull (g : Gang) (ea size : Nat) : Bool := (granules ea size).all g.full.contains
def Gang.isEmpty (g : Gang) (ea size : Nat) : Bool := (granules ea size).all fun x => !g.full.contains x
def Gang.setFull (g : Gang) (ea size : Nat) : Gang :=
  { g with full := g.full ++ (granules ea size).filter fun x => !g.full.contains x }
def Gang.setEmpty (g : Gang) (ea size : Nat) : Gang :=
  { g with full := g.full.filter fun x => !(granules ea size).contains x }

/-- Does an access to the scratchpad touch a poisoned word (R386)? -/
def Gang.spadBad (g : Gang) (ea n : Nat) : Bool :=
  decide (0 < n) && g.spadPoison.any fun k => decide (4 * k < ea + n) && decide (ea < 4 * k + 4)

/-- `n` bytes written to the scratchpad; poison in the words they cover ends (R386). -/
def Gang.writeSpad (g : Gang) (ea n x : Nat) : Gang :=
  { g with spad := Memory.writeNat g.spad ea n x
           spadPoison := g.spadPoison.filter fun k => !(decide (ea ≤ 4 * k) && decide (4 * k + 4 ≤ ea + n)) }

/-- May a waiting access be performed now (R111)? -/
def Gang.feReady (g : Gang) (f : FeWait) : Bool :=
  if f.load then g.isFull f.ea f.width.bytes else g.isEmpty f.ea f.width.bytes

/-- A full-empty access performed (R110): a load leaves an outstanding result that can land, poisoned where a word of it is (R386),
and a store writes and fills. -/
def State.fePerform (s : State) (w : Wave) (l : Nat) (f : FeWait) : State :=
  let g := s.gangOf w
  if f.load then
    let (id, s) := s.newId
    let x := Memory.readNat g.spad f.ea f.width.bytes
    let p : Pending :=
      { id, lane := if f.reg.isUni then none else some l, lanes := f.mates ||| laneBit l,
        regs := regs f.width.regCount f.reg,
        vals := (List.range f.width.regCount).map fun j => BitVec.ofNat 32 (x / 2 ^ (32 * j)), clob := f.clob
        bad := g.spadBad f.ea f.width.bytes }
    let s := s.addPending w.id p
    if f.take then s.modGang g.id fun g => g.setEmpty f.ea f.width.bytes else s
  else
    s.modGang g.id fun g => (g.setFull f.ea f.width.bytes).writeSpad f.ea f.width.bytes f.data.toNat

/-! ## Holds (R223, R233, R241, R281, R298) -/

/-- The threads of the lanes of `m` released: each goes on at its program counter, with a wait count of 0 (R222, R223). -/
def Wave.release (w : Wave) (m : LaneMask) : Wave := w.mapLanes m fun _ t => { t with count := 0 }.goOn

/-- The lanes of a wave held by a hold that satisfies `p`. -/
def Wave.heldBy (w : Wave) (p : Hold → Bool) : LaneMask := maskBy fun l => (w.thread l).hold?.any p

/-- WAITK on one mask register (R241): when every live thread whose bit is set is held at a WAITK on it, all are released
and their bits cleared. -/
def Wave.testK (w : Wave) (k : Mask) : Wave :=
  let at_ := w.heldBy (· == .waitk k)
  if at_ != 0 && w.live &&& w.kreg k &&& ~~~at_ == 0 then (w.setK at_ k fun _ => false).release at_ else w

/-- WAITK on every mask register. -/
def Wave.testMasks (w : Wave) : Wave := (List.finRange 12).foldl Wave.testK w

/-- Is every live thread of these waves held by `h` (R233)? -/
def allHeld (ws : List Wave) (h : Hold) : Bool :=
  ws.all (fun w => w.live &&& ~~~(w.heldBy (· == h)) == 0) && ws.any fun w => w.heldBy (· == h) != 0

/-- The barriers of a gang (R233, R282). -/
def State.testBarriers (s : State) (gid : Nat) : State :=
  let ws := s.wavesOf gid
  let gangIds := (List.range 16).filter fun i => allHeld ws (.barGang i)
  let wgIds := (List.range 4).flatMap fun b =>
    ((List.range 16).filter fun i => allHeld (ws.filter fun w => w.wg == b) (.barWg i)).map fun i => (b, i)
  let waves := modBy s.waves (fun w => w.gang == gid) fun w =>
    w.release (w.heldBy fun h => match h with
      | .barGang i => gangIds.contains i
      | .barWg i => wgIds.contains (w.wg, i)
      | _ => false)
  { s with waves := waves }

/-- RKWAIT (R298, R310): a held thread is released once its stage has the phase. -/
def State.testRinks (s : State) (gid : Nat) : State :=
  match s.gang? gid with
  | none => s
  | some g =>
    let waves := modBy s.waves (fun w => w.gang == gid) fun w =>
      w.release (w.heldBy fun h => match h with
        | .rkwait r st p => (g.rinks.getD r {}).phases.getLsbD st == p
        | _ => false)
    { s with waves := waves }

/-- The full-empty waits of a gang's threads: wave, lane, access. -/
def State.feWaits (s : State) (gid : Nat) : List (Wave × Nat × FeWait) :=
  (s.wavesOf gid).flatMap fun w => (List.range 32).filterMap fun l =>
    match (w.thread l).hold? with
    | some (.fe f) => some (w, l, f)
    | _ => none

/-- A thread that a full-empty access holds. -/
def Hold.forFe : Hold → Bool
  | .fe _ => true
  | .feMate _ => true
  | _ => false

/-- Held accesses of the threads of one issue of a word take their turns in ascending lane order (R111, R221). -/
def firstTurns (xs : List (Wave × Nat × FeWait)) : List (Wave × Nat × FeWait) :=
  xs.filter fun x => !(xs.any fun y => y.1.id == x.1.id && y.2.2.inst == x.2.2.inst && y.2.1 < x.2.1)

/-- One held access performed and its threads released. -/
def State.feRelease (s : State) (x : Wave × Nat × FeWait) : State :=
  (s.fePerform x.1 x.2.1 x.2.2).modWave x.1.id fun w =>
    w.release ((x.2.2.mates ||| laneBit x.2.1) &&& w.heldBy Hold.forFe)

/-- Full-empty waits (R111, R221): every keeping wait that is met is performed, then one of the others that are met, any of
those whose turn it is in their word; and again, as long as one is met. -/
def State.testGranules (gid : Nat) : Nat → State → State
  | 0, s => s
  | n + 1, s =>
    match s.gang? gid with
    | none => s
    | some g =>
      let ready := (s.feWaits gid).filter fun x => g.feReady x.2.2
      let keeps := ready.filter fun x => x.2.2.load && !x.2.2.take
      let takes := firstTurns (ready.filter fun x => !(x.2.2.load && !x.2.2.take))
      let s := keeps.foldl State.feRelease s
      match takes with
      | [] => s
      | [x] => State.testGranules gid n (s.feRelease x)
      | x :: xs =>
        let pick := (x :: xs).getD (Config.freeChoice s.picks gid xs.length % (xs.length + 1)) x
        State.testGranules gid n (s.picked.feRelease pick)

/-- Full-empty waits of a gang whose threads do not stay where they are held. -/
def State.settleGranules (s : State) (gid : Nat) : State :=
  match s.gang? gid with
  | none => s
  | some g => if g.still then s else State.testGranules gid ((s.feWaits gid).length + 1) s

/-- The wave registers of a track in use, and free (R26, R31). The groomer's wave holds 32 on track 7 of each core 0. -/
def State.trackUsed (s : State) (t : Nat) : Nat :=
  ((s.waves.filter fun w => w.track == some t && w.live != 0).map (·.grant)).sum
def isGroomerTrack (t : Nat) : Bool := t % 32 == 7
def State.trackCap (s : State) (t : Nat) : Nat :=
  Map.get 256 s.trackCaps t - if isGroomerTrack t then 32 else 0
def State.trackFree (s : State) (t : Nat) : Nat := s.trackCap t - s.trackUsed t

/-- The XACQs waiting on a track in the order of their arrival: wave, T, place in the order (R28). -/
def State.xacqs (s : State) (t : Nat) : List (Nat × Nat × Nat) :=
  (s.waves.filter fun w => w.track == some t && !(s.gangOf w).preempt).flatMap fun w =>
    ((List.range 32).filterMap fun l => match (w.thread l).hold? with
      | some (.xacq n seq) => some (w.id, n, seq)
      | _ => none).eraseDups

/-- The first of a list of waiting XACQs. -/
def firstXacq (l : List (Nat × Nat × Nat)) : Option (Nat × Nat × Nat) :=
  l.foldl (fun b x => match b with | none => some x | some y => if x.2.2 < y.2.2 then some x else some y) none

/-- The grant raised to at least `t`: every register of a granule newly granted reads zero in every lane (R28). -/
def Wave.raise (w : Wave) (t : Nat) : Wave :=
  if t ≤ w.grant then w else
  { w with grant := t, threads := w.threads.map fun h => { h with v := h.v.filter fun x => x.1 < w.grant } }

/-- The waiting XACQ that is served next: one that the wave's grant meets already (R281), or else the first to arrive (R28). -/
def State.nextXacq (s : State) (t : Nat) : Option (Nat × Nat × Nat) :=
  let met (x : Nat × Nat × Nat) : Bool := (s.wave? x.1).any fun w => x.2.1 ≤ w.grant
  match firstXacq ((s.xacqs t).filter met) with
  | some x => some x
  | none => firstXacq (s.xacqs t)

/-- That XACQ, if it completes: the grant is at least its T, or the track has the capacity for what is missing (R28, R281). -/
def State.servable (s : State) (t : Nat) : Option (Nat × Nat × Nat) :=
  (s.nextXacq t).filter fun x => (s.wave? x.1).any fun w => x.2.1 ≤ w.grant || x.2.1 - w.grant ≤ s.trackFree t

/-- XACQs served (R28, R281): each completes once the grant is at least its T; in arrival order the track raises a grant when
it has the capacity. -/
def State.testGrants (t : Nat) : Nat → State → State
  | 0, s => s
  | n + 1, s =>
    match s.servable t with
    | none => s
    | some (wid, need, seq) =>
      State.testGrants t n <| s.modWave wid fun w => (w.release (w.heldBy (· == .xacq need seq))).raise need

/-- WAITM with an event recorded or nothing to wait for (R220). -/
def Wave.testMonitor (w : Wave) : Wave :=
  let at_ := w.heldBy (· == .waitm)
  if at_ == 0 then w else
  match w.monitor with
  | some m => if m.event then { w.release at_ with monitor := none } else w
  | none => w.release at_

/-- Every hold of a gang whose condition is met is released (R223). -/
def State.settleOnce (s : State) (gid : Nat) : State :=
  let waves := modBy s.waves (fun w => w.gang == gid) fun w => w.testMonitor.testMasks
  let s := { s with waves := waves }
  let s := (s.testBarriers gid).testRinks gid
  State.testGranules gid ((s.feWaits gid).length + 1) s

/-- The same, `n` times. -/
def State.settleN (gid : Nat) : Nat → State → State
  | 0, s => s
  | n + 1, s => State.settleN gid n (s.settleOnce gid)

/-- The holds that a gang's threads still have to meet after the ones they are in. -/
def State.laterHolds (s : State) (gid : Nat) : Nat :=
  ((s.wavesOf gid).map fun w => (w.threads.map fun t => t.todo.length).sum).sum

/-- The end of a cycle for a gang: every hold whose condition is met is released, and the next holds of the threads released
are tested as well; the threads of a gang that stays still keep their holds (R223, R267, R269). -/
def State.settle (s : State) (gid : Nat) : State :=
  match s.gang? gid with
  | none => s
  | some g => if g.still then s else State.settleN gid (s.laterHolds gid + 1) s

/-- The tracks of a gang's waves serve their XACQs. -/
def State.settleTracks (s : State) (ts : List Nat) : State :=
  ts.foldl (fun s t => State.testGrants t ((s.xacqs t).length + 1) s) s

/-! ## Abort (R258) -/

/-- A state whose binding to the gang ends (R332): it stays pinned; where the gang is suspended its tiles stay saved (R331). -/
def StateRec.unbind (x : StateRec) (g : Gang) : StateRec :=
  let ts := g.savedTiles.filter fun t => match t.st with | .pinned h _ => t.ctx == x.ctx && h == x.handle | _ => false
  { x with bound := none, ending := false, place := if g.place.isNone && !ts.isEmpty then .saved ts else x.place }

/-- A queue whose chain stops with the entry that has started, if it has one (R258). -/
def LiftQ.cut (q : LiftQ) : LiftQ := { q with walk := (q.walk.filter (·.commit)).map fun k => { k with stop := true }, held := [] }

/-- What the abort or squash of a gang does in its cycle (R258, R364): every thread ends; commands that have not started,
chains, patches and pending operations are discarded, while what has started completes; the version is discarded; results and
holds are gone, while far atomics, stores and groups that left the core are performed. -/
def State.endGang (s : State) (gid : Nat) (st : GangSt) : State :=
  match s.gang? gid with
  | none => s
  | some g =>
    if g.st != .live then s else
    let mine := fun (id : Nat) => s.waves.any fun w => w.id == id && w.gang == gid
    let waves := modBy s.waves (fun w => w.gang == gid) fun w =>
      { w with monitor := none, pend := [],
               threads := w.threads.map fun t => { t with st := .ended, parked := none, todo := [], group := none } }
    let fills := s.fills.map fun f => { f with waiters := f.waiters.filter fun x => !mine x.wave }
    let s := { s with waves := waves, fills := fills }
    let s := if s.versioned g then
        { s with sunk := s.sunk.filter (fun x => x.gang != gid)
                 versions := s.versions.filter fun v => v.gang != gid }
      else { s with sunk := s.sunk.filter fun x => !(x.gang == gid && x.ran) }
    let s := s.modGang gid fun g =>
      { g with st := st, tileQ := g.tileQ.filter (·.started), bins := [], tidOps := [], rkOps := []
               queues := g.queues.map LiftQ.cut }
    let states := modBy s.states (fun x => x.bound.any fun b => b.1 == gid) fun x => x.unbind g
    let ctx := (s.launchOf g).ctx
    let states := states.filter fun x => !(x.ctx == ctx && x.place == .filling &&
      g.tileQ.any fun c => c.kind == .fill && !c.started && c.handle == x.handle)
    let started (q : Nat) : Bool := ((g.queues.getD q {}).walk).any (·.commit)
    let colls := modBy s.colls (fun x => x.here.any fun h => h.1 == gid && !(started h.2)) fun x => { x with here := none }
    let s := { s with states := states, colls := colls }
    s.settleTracks ((s.wavesOf gid).filterMap (·.track))

/-- Are the gang's commits performed at every home (R206)? -/
def State.commitsDone (s : State) (g : Gang) : Bool := !(s.versioned g) || (s.commitsOut g.id).isEmpty

/-- An aborting cause in a thread of the gang, or found by one of its engines (R255, R258). While a commit is being performed
it is put off, and the gang issues nothing more (R263). -/
def State.abortGang (s : State) (gid : Nat) (f : GangFault) : State :=
  match s.gang? gid with
  | none => s
  | some g =>
    if s.commitsDone g then s.endGang gid (.aborted f)
    else s.modGang gid fun g => { g with due := g.due.or (some f) }

/-- The aborts that were put off, of gangs whose commits are performed by now (R263). -/
def State.dueAborts (s : State) : State :=
  s.gangs.foldl (fun (t : State) g => match g.due with
    | some f => if t.commitsDone g then t.endGang g.id (.aborted f) else t
    | none => t) s

/-! ## Taking an exception (R245 to R248, R250, R254 to R256) -/

/-- Does the cause enter the handler (R246, R248, R255, R256)? -/
def Wave.handles (w : Wave) (l : Nat) (t : TrapInfo) : Bool :=
  t.code < 12 && 0 < t.code && w.trapEn.getLsbD t.code && validPc w.trapBase && !(w.thread l).inHandler

/-- The cause word (R247). -/
def TrapInfo.cause (t : TrapInfo) : Word := BitVec.ofNat 32 (t.code % 256 + 256 * (t.pos % 4) + 65536 * (t.n % 256))

/-- A thread's own bits of k0 to k11 (R247). -/
def Wave.ownBits (w : Wave) (l : Nat) : Nat :=
  (List.finRange 12).foldl (fun a k => if w.kbit k l then a + 2 ^ k.val else a) 0

/-- The 512 bytes of a frame, as a number (R247). -/
def Wave.frame (w : Wave) (l : Nat) (t : TrapInfo) : Nat :=
  let th := w.thread l
  t.pc.toNat + t.word.toNat * 2 ^ 64 + t.cause.toNat * 2 ^ 96 + w.ownBits l * 2 ^ 128 + w.grant * 2 ^ 160
    + th.recs.toNat * 2 ^ 192 + t.detail % 2 ^ 64 * 2 ^ 256
    + (List.range w.grant).foldl (fun a i => a + (Map.get 0#32 th.v i).toNat * 2 ^ (1024 + 32 * i)) 0

/-- The address of a thread's frame (R245). -/
def State.frameAddr (s : State) (w : Wave) (l : Nat) : Nat :=
  (w.trapFrame.toNat + 512 * threadIndex (s.gangOf w) w l) % 2 ^ 64

/-- The physical address of a frame, or why the access does not go on (R250). -/
def State.frameAccess (s : State) (w : Wave) (u : Use) (l : Nat) : Except Verdict Nat :=
  let a := s.frameAddr w l
  if w.trapFrame.toNat % 512 != 0 || 2 ^ 51 ≤ a then .error (.abort 0x82 4 a) else
  match s.xlate (some w.core) (s.ctxId w) u a with
  | .ok pa => if s.deviceFrame pa then .ok pa else .error (.abort 0x82 4 a)
  | .fault p => .error (.xlate p (if u = .read then 1 else 2) true)
  | .prot => .error (.abort 0x82 4 a)

/-- The eight lines of a frame. -/
def frameLines (pa x : Nat) : List LineWrite :=
  (List.range 8).map fun i => { line := pa / 64 + i, data := BitVec.ofNat 512 (x / 2 ^ (512 * i)), mask := BitVec.allOnes 64 }

/-- Steps 2 to 4 of R248 in one thread whose frame lies at `pa`: the frame is written, v0 to v3 and the program counter are
set, and the thread is in its handler. -/
def State.enterOne (s : State) (wid l : Nat) (t : TrapInfo) (pa : Nat) : State :=
  match s.wave? wid with
  | none => s
  | some w =>
    let a := s.frameAddr w l
    let s := (frameLines pa (w.frame l t)).foldl (fun s lw => s.threadStore w (laneBit l) .dflt lw) s
    s.modWave wid fun w =>
      (w.putLanes (laneBit l) fun _ =>
        [(.v 0, BitVec.ofNat 32 a), (.v 1, BitVec.ofNat 32 (a / 2 ^ 32)), (.v 2, t.cause), (.v 3, t.word)]).modThread l
        fun th => { th with st := .run, pc := w.trapBase, inHandler := true, count := 0, commitDone := false }

/-- The first frame access that does not go on. -/
def State.frameStop (s : State) (w : Wave) (ts : List (Nat × TrapInfo)) : Option (TrapInfo × Verdict) :=
  ts.findSome? fun x => match s.frameAccess w .write x.1 with
    | .error v => some (x.2, v)
    | .ok _ => none

/-- The feature a word needs (R78). -/
def wordFeature (x : Word) : Option Feature :=
  (decodeSlot x).bind fun sl => sl.i.info.feat

/-- After a FEATABSENT that aborts, the launch's gangs run only on dies that hold the feature (R266). -/
def State.needFeature (s : State) (gid : Nat) (t : TrapInfo) : State :=
  match s.gang? gid, wordFeature t.word with
  | some g, some f =>
    if t.code == 9 && f != .groom then s.modLaunch g.launch fun l => { l with needFeat := l.needFeat ||| 1#7 <<< f.bit } else s
  | _, _ => s

/-- A cause that does not enter the handler aborts the thread's gang, as with its TRAPEN bit 0 (R248, R255, R258, R266). -/
def State.abortTrap (s : State) (w : Wave) (l : Nat) (t : TrapInfo) : State :=
  (s.needFeature w.gang t).abortGang w.gang
    { code := t.code, flags := t.flags + (if t.code < 12 && (w.thread l).inHandler then 1 else 0), pc := t.pc
      final := t.code == 9 && wordFeature t.word == some .groom }

/-- The threads of one chain whose traps go to the handler enter it together (R248): they are held while a result of one of
them is outstanding or its frame's page is not there; a frame that cannot be written aborts the gang (R250, R264), and so does
the cause if TRAPBASE is no valid program counter when they enter (R248). -/
def State.enterHandler (s : State) (wid : Nat) (ts : List (Nat × TrapInfo)) : State :=
  match s.wave? wid with
  | none => s
  | some w =>
    let hold (s : State) (page : Option Nat) : State := s.modWave wid fun w =>
      w.mapLanes (maskBy fun l => ts.any fun x => x.1 == l) fun l th =>
        match ts.lookup l with
        | some t => { th with st := .held (.entry t page) }
        | none => th
    if (ts.any fun x => w.outstanding x.1) || !(s.canPublish (coreDie w.core)) then hold s none else
    if !(validPc w.trapBase) then
      match ts.head? with
      | some (l, t) => s.abortTrap w l t
      | none => s
    else
    match s.frameStop w ts with
    | some (_, .xlate p k _) => (hold s (some p)).faultOn (s.ctxId w) p k ts.length
    | some (t, .abort c f _) => s.abortGang w.gang { code := c, flags := f, pc := t.pc }
    | some (t, _) => s.abortGang w.gang { code := 0x82, flags := 4, pc := t.pc }
    | none =>
      let need := if s.versioned (s.gangOf w) then
          (ts.flatMap fun x => match s.frameAccess w .write x.1 with
            | .ok pa => (frameLines pa 0).filter fun lw => (s.vline? w.gang lw.line).isNone
            | .error _ => []).length
        else 0
      if !(s.verRoom (s.gangOf w) need) then
        s.abortGang w.gang { code := 10, flags := 4, pc := (ts.head?.map (·.2.pc)).getD 0 }
      else ts.foldl (fun s x => match s.frameAccess w .write x.1 with
        | .ok pa => s.enterOne wid x.1 x.2 pa
        | .error _ => s) s

/-- The traps of one chain are taken (R47, R248, R255, R258): a cause that does not enter the handler aborts the gang, the
lowest lane's naming the fault; the others enter the handler. -/
def State.takeTraps (s : State) (wid : Nat) (ts : List (Nat × TrapInfo)) : State :=
  match s.wave? wid with
  | none => s
  | some w =>
    match ts.find? fun x => !(w.handles x.1 x.2) with
    | some (l, t) => s.abortTrap w l t
    | none => if ts.isEmpty then s else s.enterHandler wid (ts.map fun x => (x.1, { x.2 with cycle := s.cycle }))

/-! ## Returning from an exception (R249, R250) -/

/-- The frame of a thread as ERET reads it, or why it does not go on. -/
def State.readFrame (s : State) (w : Wave) (l : Nat) : Except Verdict Nat :=
  match s.frameAccess w .read l with
  | .error v => .error v
  | .ok pa =>
    if s.consumes w.gang pa 512 then .error (.abort 0x80 4 (s.frameAddr w l)) else
    let ls := (List.range 8).map fun i => s.readNow w .dflt (pa + 64 * i) 64
    if ls.all Option.isSome then
      .ok (ls.foldr (fun x a => x.getD 0 + 2 ^ 512 * a) 0)
    else .error .wait

/-- The 64-bit program counter of a frame. -/
def framePc (f : Nat) : DWord := BitVec.ofNat 64 f

/-- R249, R256: registers, record slots and own mask bits come from the frame, and the thread leaves its handler. Where it
continues is the frame's program counter. -/
def Wave.eret (w : Wave) (l f : Nat) : Wave :=
  let w := w.putLanes (laneBit l) fun _ =>
    (List.range w.grant).map fun i => (Reg.ofNat i, BitVec.ofNat 32 (f / 2 ^ (1024 + 32 * i)))
  let w := w.modThread l fun t => { t with recs := BitVec.ofNat 64 (f / 2 ^ 192), inHandler := false }
  (List.finRange 12).foldl (fun w k => w.setK (laneBit l) k fun _ => (f / 2 ^ (128 + k.val)) % 2 == 1) w

/-! ## The lead (R222) -/

/-- Does a thread stand in the PC group of its program counter (R16, R223): it runs, or it waits as at a W marker for results
before it enters its handler, ends, returns or lowers the grant (R36)? -/
def Thread.grouped (t : Thread) : Bool :=
  match t.st with
  | .run | .held .leave | .held (.entry _ none) => true
  | _ => false

/-- The lanes whose threads stand in a PC group. -/
def Wave.grouped (w : Wave) : LaneMask := maskBy fun l => (w.thread l).grouped

/-- The group with the lowest program counter. -/
def Wave.lowestGroup (w : Wave) : LaneMask :=
  match (w.threads.filter Thread.grouped).map (fun t => t.pc.toNat) with
  | [] => 0
  | p :: ps => w.grouped &&& maskBy fun l => (w.thread l).pc.toNat == ps.foldl min p

/-- When the lead has ended, or all of its threads are held, the candidate with the lowest program counter leads (R222). -/
def Wave.fixLead (w : Wave) : Wave := if w.lead &&& w.grouped == 0 then { w with lead := w.lowestGroup } else w

/-! ## Waits for the results of a chain's own words (R36) -/

/-- Will the wait leave a result: a load that waits on full-empty granules (R111), or a word that is performed late (R197)? -/
def Hold.owes : Hold → Bool
  | .fe f => f.load
  | .word x => x.i.info.ret
  | _ => false

/-- Does a thread wait for such a result, or will it? -/
def Thread.owes (t : Thread) : Bool :=
  t.hold?.any Hold.owes || t.todo.any fun a => match a with | .hold h => h.owes | _ => false

/-- Has every result of the wave's threads landed, those of waiting loads included (R28)? -/
def Wave.quiet (w : Wave) : Bool := w.pend.isEmpty && !(w.threads.any Thread.owes)

/-- The grant lowered; the contents of the released registers are lost (R28). -/
def Wave.lower (w : Wave) (t : Nat) : Wave :=
  if w.grant ≤ t then w else
  { w with grant := t, threads := w.threads.map fun h => { h with v := h.v.filter fun x => x.1 < t } }

/-- May the thread of lane `l` leave its wait? -/
def Wave.mayLeave (w : Wave) (l : Nat) : Bool :=
  let t := w.thread l
  t.st == .held .leave && match t.todo with
    | .xrel _ :: _ => w.quiet
    | _ => !(w.outstanding l)

/-- The thread of lane `l` leaves its wait: it ends (R279), returns (R249), or the grant is lowered (R281). -/
def Wave.leave (w : Wave) (l : Nat) : Wave :=
  let go (w : Wave) : Wave := w.modThread l fun t => { t with todo := t.todo.tail }.goOn
  match (w.thread l).todo with
  | .exit :: _ => w.modThread l fun t => { t with st := .ended, inHandler := false, todo := [] }
  | .eret f :: _ => go (w.eret l f)
  | .xrel t :: _ => go (w.lower t)
  | _ => go w

/-- The threads of the waves of a track that may leave their wait do so, before the track chooses (R36), and its XACQs are
served (R28). -/
def State.leaveTrack (s : State) (t : Nat) : State :=
  let ws := s.waves.filter fun w => w.track == some t && (List.range 32).any w.mayLeave
  let s := ws.foldl (fun (s : State) w => (s.modWave w.id fun v =>
    (((List.range 32).filter w.mayLeave).foldl Wave.leave v).fixLead).settle w.gang) s
  s.settleTracks [t]

/-! ## The checks of an issue (R81) -/

/-- ATOM and ATOMR: the GROOM check waits for the home die (R78). -/
def Instr.groomAtHome : Instr → Bool
  | .atom _ _ _ _ _ _ => true
  | .atomr _ _ _ _ _ _ => true
  | _ => false

/-- Steps 2 to 4 of R81, the same for every thread of the group: the step that finds the cause, and its code. -/
def State.groupCause (s : State) (i : Instr) (w : Wave) : Option (Nat × Nat) :=
  let g := s.gangOf w
  if Instr.isUnimpl i then some (2, 2)
  else if !(i.info.role.permits w.role) then some (3, 5)
  else match i.info.feat with
    | none => none
    | some f =>
      if !((s.launchOf g).hdr.features.getLsbD f.bit) then some (4, 0x83)
      else if Instr.groomAtHome i then none
      else if !((s.die g.die).feat.getLsbD f.bit) then some (5, 9)
      else none

/-- Is the register above the grant (R29)? -/
def aboveGrant (t : Nat) : Reg → Bool
  | .v n => decide (t ≤ n.val)
  | .s _ => false

/-- The registers a word reads and writes (R29); a link is checked where it is written (R235). -/
def illReg (i : Instr) (w : Wave) : Bool := (i.info.dst ++ i.info.src).any (aboveGrant w.grant)

/-- The cause a word finds in one thread: the step of R81, and what it raises. -/
def State.laneCause (s : State) (i : Instr) (op : WordOp) (c : Issue) (w : Wave) (l : Nat) : Nat × Verdict :=
  match s.groupCause i w with
  | some (step, code) => (step, if code < 12 then .trap code 0 0 else .abort code 0 0)
  | none =>
    if illReg i w then (6, .trap 4 0 0) else
    match op.check s c w l with
    | .trap 4 n d => (6, .trap 4 n d)
    | v => (7, v)

/-- A cause that a word finds in a thread at a step of R81 (`step` 7 is R81's step 6 but for ILLREG): one of an earlier step is
taken before a translation fault that a lower slot met, and one of step 7 after it (R47, R81). -/
def Issue.addTrap (c : Issue) (l step : Nat) (t : TrapInfo) : Issue :=
  if step < 7 then { c with traps := c.traps ++ [(l, step, t)], xlates := c.xlates.filter fun x => x.1 != l }
  else if c.xlates.any fun x => x.1 == l then c
  else { c with traps := c.traps ++ [(l, step, t)] }

/-- The result of one thread's check, noted in the chain. The word that a CHAIN inside a schuss group names has no position in
the chain; the cause gives the head's, and of several such words the first is named (notes/assumptions/63.md). -/
def Issue.note (c : Issue) (l : Nat) (x : Nat × Verdict) : Issue :=
  match x.2 with
  | .go => c
  | .wait => { c with waits := c.waits ||| laneBit l }
  | .trap code n d => c.addTrap l x.1 { code, pos := c.pos, word := c.word, n, detail := d, pc := c.pc }
  | .abort code f d =>
    c.addTrap l x.1 { code, pos := c.pos, word := c.word, detail := d, flags := f,
                      pc := if f / 4 % 2 == 1 then c.wordPc else c.pc }
  | .chain y => c.addTrap l 1 { code := 3, pos := c.pos, word := y, pc := c.pc }
  | .xlate p k f =>
    if c.traps.any (fun t => t.1 == l) || c.xlates.any (fun t => t.1 == l) then c
    else { c with xlates := c.xlates ++ [(l, { page := p, kind := k, frame := if f then some c.wordPc else none })] }

/-- Must a commit point of the gang wait: for the launch's shape (R218), for room on the publish flows (R201), or for a
commit it has made to be performed at every home (R206)? -/
def State.commitWaits (s : State) (g : Gang) (w : Wave) (m : LaneMask) : Bool :=
  g.gate || (s.commitRemote g && !(s.canPublish g.die)) ||
    ((lanesOf m).any (fun l => (w.thread l).commitDone) && !(s.publishedBy w.id).isEmpty)

/-- The checks of one word for every thread of the group. A commit point of a versioned gang is counted (R262). -/
def State.checkWord (s : State) (i : Instr) (op : WordOp) (c : Issue) (w : Wave) : State :=
  let c := (lanesOf c.lanes).foldl (fun c' l => c'.note l (s.laneCause i op c w l)) c
  let g := s.gangOf w
  let c := if s.versioned g && op.commit s w g then
      { c with commits := c.commits + 1, waits := c.waits ||| if s.commitWaits g w c.lanes then c.lanes else 0 }
    else c
  { s with cur := some c }

/-- `n` commits of a gang, one for each commit point of the chain (R262). -/
def State.commitN (gid wave : Nat) : Nat → State → State
  | 0, s => s
  | n + 1, s => State.commitN gid wave n (s.commit gid wave)

/-- The commits of a chain, before any of its words has another effect (R262). Where a commit sends a bundle to another die,
the threads then wait at the chain until it is performed (R206). -/
def State.commitChain (s : State) (c : Issue) (w : Wave) : State :=
  let m := c.acting
  if m == 0 || c.commits == 0 then s else
  let g := s.gangOf w
  let s := { s with cur := some { c with commits := 0 } }
  if (w.thread (lowest m)).commitDone then s
  else if s.commitRemote g then
    let s := (State.commitN g.id w.id c.commits s).modWave w.id fun w => w.mapLanes m fun _ t => { t with commitDone := true }
    { s with cur := some { c with commits := 0, waits := c.lanes } }
  else State.commitN g.id w.id c.commits s

/-- The effect of one word in the threads in which the chain takes effect, its sources read from the wave as it stood before
the chain wrote (R45). -/
def State.actWord (s : State) (op : WordOp) : State :=
  match s.cur with
  | none => s
  | some c =>
    match (match c.view with | some w => some w | none => s.wave? c.wave) with
    | none => s
    | some w =>
      let s := s.commitChain c w
      match s.cur with
      | none => s
      | some c =>
        if c.acting == 0 && !(op.always && c.waiting == 0 && c.traps.all fun t => 7 ≤ t.2.1) then s else op.act s c w c.acting

/-- The lane's trap that is taken: the earliest step of R81, the lowest slot within it (R47). -/
def pickTrap (ts : List (Nat × TrapInfo)) : Option TrapInfo :=
  (ts.foldl (fun b x => match b with
    | none => some x
    | some y => if x.1 < y.1 || (x.1 == y.1 && x.2.pos < y.2.pos) then some x else some y) none).map (·.2)

/-- The traps of a chain, by lane in ascending order. -/
def Issue.taken (c : Issue) : List (Nat × TrapInfo) :=
  (lanesOf c.lanes).filterMap fun l =>
    (pickTrap ((c.traps.filter fun x => x.1 == l).map (·.2))).map fun t => (l, t)

/-- What the chain's words ask of a thread before it goes on: their holds in slot order, then an ERET or an XREL that waits for
results of the chain (R36, R47). -/
def Issue.rest (c : Issue) (l : Nat) : List After :=
  (c.holds.filter fun x => x.1 == l).map (fun x => .hold x.2) ++ (c.leaves.filter fun x => x.1 == l).map (·.2)

/-- Where the threads that issued go on, and what holds them (R39, R47, R116). A thread that executes EXIT ends, once it is held
no longer and the results of the chain's other words have landed (R36, R279). -/
def Wave.advance (c : Issue) (w : Wave) : Wave :=
  w.mapLanes c.acting fun l t =>
    let t := { t with count := 0 }
    if c.stays.getLsbD l then t else
    let pc := (c.targets.lookup l).getD c.nextPc
    match c.parks.lookup l with
    | some id => { t with parked := some id, resume := pc, todo := c.rest l ++ if c.exits.getLsbD l then [After.exit] else [] }
    | none =>
      let t := { t with pc, commitDone := false }
      match c.rest l with
      | [] =>
        if c.exits.getLsbD l then
          if w.outstanding l then { t with st := .held .leave, todo := [.exit] } else { t with st := .ended, inHandler := false }
        else t
      | r => { t with todo := r ++ if c.exits.getLsbD l then [After.exit] else [] }.goOn

/-- Threads at a translation fault are held at the word (R105, R377), and so leave their PC group, although R223 does not name this
wait (notes/assumptions/86.md). -/
def Wave.holdXlates (c : Issue) (w : Wave) : Wave :=
  w.mapLanes (maskBy fun l => c.xlates.any fun x => x.1 == l) fun l t =>
    match c.xlates.lookup l with
    | some x => { t with st := .held (.xlate x.page x.frame) }
    | none => t

/-- The lead after an issue of the lead (R222): the threads that took a branch, when it divides them; the threads that
issued, when others stayed; those that did not trap, when some trapped into their handler, the rules naming none
(notes/assumptions/85.md). -/
def Issue.newLead (c : Issue) : LaneMask :=
  let taken := c.acting &&& maskBy fun l => (c.targets.lookup l).isSome
  let gone := c.acting &&& ~~~c.stays
  if taken != 0 then taken else if gone != 0 then gone else c.acting

/-- The end of an issue: threads go on, are held, end or trap, and the gang's holds are tested (R39, R45, R47, R223). -/
def State.finishIssue (s : State) : State :=
  match s.cur with
  | none => s
  | some c =>
    match s.wave? c.wave with
    | none => { s with cur := none }
    | some w0 =>
      let s := { s with cur := none }
      if c.waiting != 0 then s.freshen else
      let s := s.modWave c.wave fun w =>
        let w := (w.advance c).holdXlates c
        let w := if c.acting != 0 && w.lead &&& c.lanes != 0 then { w with lead := c.newLead } else w
        if c.yields && w.prog && c.acting != 0 then { w with yieldTrk := true, yieldGrp := true } else w
      let s := c.xlates.foldl (fun s x => s.faultOn (s.ctxId w0) x.2.page x.2.kind 1) s
      let s := ((s.takeTraps c.wave c.taken).modWave c.wave Wave.fixLead).freshen
      let s := s.settle w0.gang
      match w0.track with
      | some t => State.testGrants t ((s.xacqs t).length + 1) s
      | none => s

/-- One word executed for the chain being issued: the whole of it, or its checks or its effects (R45). -/
def runWord (i : Instr) (op : WordOp) (s : State) : Host.Outcome State Fault Refusal :=
  match s.cur with
  | none => .fault .noIssuer
  | some c =>
    match s.wave? c.wave with
    | none => .fault .noIssuer
    | some w =>
      match c.phase with
      | .check => .next (s.checkWord i op c (c.view.getD w))
      | .act => .next (s.actWord op)
      | .whole => .next ((s.checkWord i op c w).actWord op).finishIssue

/-- A cause found by decoding a word (step 1 or 2 of R81), raised in every thread of the group. -/
def Issue.raiseAll (c : Issue) (step code pos : Nat) (word : Word) : Issue :=
  { c with traps := c.traps ++ (lanesOf c.lanes).map (fun l => (l, step, { code, pos, word, pc := c.pc })), xlates := [] }

end Sys2Proof.Machine
end

