-- ==== Sys2Proof/Machine/Operands.lean ====
section
/-! DEFINITION. The operand forms: a word's computation in one lane as a pure function of what the lane reads, its
execution in a PC group for the fixed and the returning class (spec/02 R33 to R35, R51, spec/05 R82, spec/09 R152, R153),
and the shapes of the instruction formats (spec/03 R52, R53). -/

namespace Sys2Proof.Machine

/-- What a computation reads in one lane: registers, its own mask bits, its lane, FMODE and its generator (R82, R152). -/
structure LaneIn where
  rd    : Reg → Word
  kb    : Mask → Bool
  lane  : Nat
  fmode : BitVec 6 := 0
  gen   : Word := 1

/-- What it writes: registers, its own bits of mask registers, the flags it raises and its generator's new state. -/
structure LaneOut where
  regs  : List (Reg × Word) := []
  ks    : List (Mask × Bool) := []
  flags : Flags := 0
  gen   : Option Word := none

/-- A computation in one lane. -/
abbrev LaneOp := LaneIn → LaneOut

/-- What a word of a chain reads in lane `l`: registers, masks and the generator as they stood before the chain wrote (R45). -/
def State.laneIn (s : State) (w : Wave) (l : Nat) : LaneIn :=
  { rd := w.reg s.fresh l, kb := fun k => w.kbit k l, lane := l, fmode := w.fmode, gen := (w.thread l).gen }

/-- The lanes that compute: with a uniform destination the lowest alone (R51, R152), else every one. The lowest is that of the
threads in which the chain acts: where the group's lowest thread traps or faults at another word of the chain, the rules do
not say which thread's condition, lane or generator a uniform form takes (notes/assumptions/65.md). -/
def computing (i : Instr) (m : LaneMask) : LaneMask :=
  if i.info.dst.any Reg.isUni then laneBit (lowest m) else m

/-- The effect of a fixed-class computation in the lanes of `m` (R33, R82): registers and mask bits written, flags merged
(R137), generators stepped. -/
def Wave.applyLanes (w : Wave) (m : LaneMask) (f : Nat → LaneOut) : Wave :=
  let outs := (lanesOf m).map f
  let w := w.putLanes m fun l => (f l).regs
  let w := w.putUnis ((f (lowest m)).regs)
  let w := w.mapLanes m fun l t => { t with gen := (f l).gen.getD t.gen }
  let ks := ((f (lowest m)).ks).map (·.1)
  let w := ks.foldl (fun w k => w.setK m k fun l => ((f l).ks.lookup k).getD false) w
  { w with xstat := outs.foldl (fun x o => x ||| o.flags) w.xstat }

/-- A fixed-class word whose whole effect is a computation in each lane. -/
def laneAct (i : Instr) (f : LaneOp) (s : State) (_ : Issue) (w : Wave) (m : LaneMask) : State :=
  if m == 0 then s else
  s.modWave w.id fun v => v.applyLanes (computing i m) fun l => f (s.laneIn w l)

/-- The meaning of such a word. -/
def runLane (i : Instr) (f : LaneOp) (s : State) : Host.Outcome State Fault Refusal :=
  runWord i { act := laneAct i f } s

/-- The results of a returning computation, outstanding until they land (R34): one for each computing lane, or one for the
group where the destination is uniform. -/
def State.returnLane (i : Instr) (f : LaneOp) (w : Wave) (m : LaneMask) (s : State) (l : Nat) : State :=
  let o := f (s.laneIn w l)
  let (id, s) := s.newId
  let uni := i.info.dst.any Reg.isUni
  let s := s.addPending w.id
    { id, lane := if uni then none else some l, lanes := if uni then m else laneBit l,
      regs := o.regs.map (·.1), vals := o.regs.map (·.2), flags := o.flags }
  s.modWave w.id fun w => w.modThread l fun t => { t with gen := o.gen.getD t.gen }

/-- A returning word that computes its value at issue (R153). -/
def returnAct (i : Instr) (f : LaneOp) (s : State) (_ : Issue) (w : Wave) (m : LaneMask) : State :=
  (lanesOf (computing i m)).foldl (State.returnLane i f w m) s

/-- The meaning of such a word. -/
def runReturn (i : Instr) (f : LaneOp) (s : State) : Host.Outcome State Fault Refusal :=
  runWord i { act := returnAct i f } s

/-! ## Shapes of computations -/

/-- D ← f(A, B). -/
def lane2 (d a b : Reg) (f : Word → Word → Word) : LaneOp := fun x => { regs := [(d, f (x.rd a) (x.rd b))] }

/-- D ← f(A). -/
def lane1 (d a : Reg) (f : Word → Word) : LaneOp := fun x => { regs := [(d, f (x.rd a))] }

/-- D ← f(D, A, B). -/
def lane3 (d a b : Reg) (f : Word → Word → Word → Word) : LaneOp :=
  fun x => { regs := [(d, f (x.rd d) (x.rd a) (x.rd b))] }

/-- D ← f(A, B), raising flags. -/
def laneFlag (d a b : Reg) (f : Word → Word → Word × Flags) : LaneOp := fun x =>
  let r := f (x.rd a) (x.rd b)
  { regs := [(d, r.1)], flags := r.2 }

/-- D64 ← f(A64, B64) (R85). -/
def lanePair (d a b : Reg) (f : DWord → DWord → DWord) : LaneOp := fun x =>
  { regs := spread 2 d (f (pair x.rd a) (pair x.rd b)).toNat }

/-- D64 ← f(A64, B) (R85). -/
def lanePairShift (d a b : Reg) (f : DWord → Nat → DWord) : LaneOp := fun x =>
  { regs := spread 2 d (f (pair x.rd a) ((x.rd b).toNat % 64)).toNat }

/-- The mask bit of kd combined with a condition (R90). -/
def combineBit (c : Combine) (old q : Bool) : Bool :=
  match c with
  | .set => q | .and => old && q | .or => old || q | .andn => old && !q

/-- The bit of kd ← the old bit combined with a condition (R90). -/
def laneMask (k : Mask) (c : Combine) (f : LaneIn → Bool × Flags) : LaneOp := fun x =>
  let r := f x
  { ks := [(k, combineBit c (x.kb k) r.1)], flags := r.2 }

/-- How FMODE rounds a vector instruction's result in a lane (R134 to R136, R152). -/
def LaneIn.rounding (x : LaneIn) : Rounding :=
  { mode := rmodeOf x.fmode, ftzo := ftzoOf x.fmode, gen := x.gen }

/-- A register read as a binary32 (R152). -/
def LaneIn.f32 (x : LaneIn) (r : Reg) : Fv := FpFmt.read .f32 (ftziOf x.fmode) (x.rd r).toNat

/-- A pair read as a binary64 (R158). -/
def LaneIn.f64 (x : LaneIn) (r : Reg) : Fv := FpFmt.read .f64 (ftziOf x.fmode) (wide x.rd 2 r)

/-- A rounded result written to `k` registers (R152). -/
def laneRound (k : Nat) (d : Reg) (f : LaneIn → Rounded) : LaneOp := fun x =>
  let r := f x
  { regs := spread k d r.bits, flags := r.flags, gen := if r.gen = x.gen then none else some r.gen }

end Sys2Proof.Machine
end

