-- ==== Sys2Proof/Machine/Memory.lean ====
section
/-! DEFINITION. Loads and stores of global memory and of the scratchpad (spec/06 R103 to R111). -/

namespace Sys2Proof.Machine

/-- The halves of an order field (R107). -/
def ordAcq : Ord → Bool
  | .acq | .acqrel => true
  | _ => false
def ordRel : Ord → Bool
  | .rel | .acqrel => true
  | _ => false

/-- .sect or wider (R107, R262). -/
def scopeWide : Scope → Bool
  | .wave | .wg | .gang => false
  | _ => true

/-- A release half at .sect or wider is a commit point (R262). -/
def ordCommits (r : Ord) (p : Scope) (_ : State) (_ : Wave) (_ : Gang) : Bool := ordRel r && scopeWide p

/-! ## Addresses (R105) -/

/-- The address of LD and ST. -/
def State.eaPair (s : State) (a : Reg) (w : Wave) (l : Nat) : Nat := (pair (w.reg s.fresh l) a).toNat

/-- The address of LDO and STO. -/
def State.eaOffset (s : State) (a : Reg) (i : BitVec 7) (z : Width) (w : Wave) (l : Nat) : Nat :=
  (pair (w.reg s.fresh l) a + i.signExtend 64 * BitVec.ofNat 64 z.bytes).toNat

/-- An address as a function of the state, the wave and the lane. -/
abbrev Ea := State → Wave → Nat → Nat

/-- The narrower of two scopes, whose codes rise with their width (R187). -/
def narrower (p q : Scope) : Scope := if p.code ≤ q.code then p else q

/-- Does a sector cache hold the store with this number (R175)? -/
def State.storeId (s : State) (id : Nat) : Bool := s.fills.any fun f => f.stores.any fun x => x.id == id

/-- Is the access performed at the scope (R188)? -/
def State.performed (s : State) (w : Wave) (p : Scope) : OrdAccess → Bool
  | .load pid => !(w.pend.any fun q => q.id == pid && q.opened)
  | .held id => match p with
    | .wave | .wg => true
    | _ => !(s.storeId id)
  | .atomic req => !(s.groom.any fun r => r.id == req)
  | .write d n line => match p with
    | .wave | .wg => true
    | .gang | .sect => (s.sectLine? (coreSector w.core) line).isSome || s.pubDone d n
    | .die | .pkg | .sys => s.pubDone d n

/-- Are the thread's earlier accesses with a release half performed, each at the narrower of its scope and `p` (the cell of Rel
and Acq in R193 to R195)? -/
def State.relsDone (s : State) (w : Wave) (l : Nat) (p : Scope) : Bool :=
  (w.thread l).rels.all fun x => s.performed w (narrower x.scope p) x.what

/-- Are its earlier accesses with an acquire half performed (R107)? -/
def State.acqsDone (s : State) (w : Wave) (l : Nat) : Bool := (w.thread l).acqs.all fun x => s.performed w x.scope x.what

/-- An access of the threads of `m` that is not performed yet: with an acquire half their later accesses wait for it, with a
release half their later acquire halves (R107, R193 to R195). -/
def State.noteOrder (s : State) (w : Wave) (m : LaneMask) (p : Scope) (r : Ord) (x : OrdAccess) : State :=
  if r = .plain || s.performed w p x then s else
  s.modWave w.id fun v => v.mapLanes m fun _ t =>
    { t with acqs := if ordAcq r then { scope := p, what := x } :: t.acqs else t.acqs
             rels := if ordRel r then { scope := p, what := x } :: t.rels.filter (fun y => !(s.performed w y.scope y.what)) else t.rels }

/-- Must the access wait for earlier accesses of its thread: those to its bytes, with a release half all of them, and with an
acquire half those that have a release half (R107, R191, R193 to R195)? -/
def State.mustWait (s : State) (w : Wave) (l : Nat) (p : Scope) (r : Ord) (pa n : Nat) : Bool :=
  (ordRel r && !(s.threadClear w l p)) || (ordAcq r && !(s.relsDone w l p)) || !(s.lineClear w l pa n)

/-! ## Loads -/

/-- The checks of a load in one thread (R105, R274). -/
def loadCheck (z : Width) (ea : Ea) (p : Scope) (r : Ord) (s : State) (_ : Issue) (w : Wave) (l : Nat) : Verdict :=
  match s.access w .read (ea s w l) z.bytes with
  | .error v => v
  | .ok pa =>
    if s.consumes w.gang pa z.bytes then .abort 0x80 0 (ea s w l)
    else if s.mustWait w l p r pa z.bytes then .wait
    else .go

/-- A load performed, or its miss begun, for lane `l`; its result is outstanding for `lanes` (R105, R108, R175). -/
def State.performLoad (s : State) (w : Wave) (z : Width) (d : Reg) (p : Scope) (r : Ord) (pol : CachePol) (lanes : LaneMask)
    (l pa : Nat) : State :=
  let line := pa / 64
  let off := pa % 64
  let (pid, s) := s.newId
  let q : Pending := { id := pid, lane := if d.isUni then none else some l, lanes, regs := regs z.regCount d, vals := [] }
  match s.lookupFor w.gang w.core pol line (runMask off z.bytes) with
  | .l1 x => s.addPending w.id { q with vals := loadWords z x off }
  | .below x =>
    (s.fillL1 w.gang w.core pol line x).addPending w.id
      { q with vals := loadWords z (s.overlay w.gang line x) off, far := true }
  | .miss =>
    let s := (s.addPending w.id { q with opened := true, far := true }).noteOrder w lanes p r (.load pid)
    s.miss w.core line (pol != .stream)
      { wave := w.id, lanes, pid, off, width := z, fillL1 := pol == .dflt || pol == .last, last := pol == .last
        acq := if ordAcq r then some p else none }

/-- The threads of one load are independent: between two of them the core's copy of the line, and a remote-tagged one of its
sector, may be evicted (R106, R172, R173). -/
def State.mayEvict (s : State) (core line : Nat) : State :=
  let pick := Config.freeChoice s.picks core line % 4
  let s := s.picked
  let s := if pick % 2 == 1 then s.dropL1 core line else s
  if pick / 2 == 1 then { s with sect := s.sect.filter fun x => !(x.sector == coreSector core && x.line == line && x.remote) } else s

/-- The errors in the words of a load that ECC corrects, each reported to function 0 (R384, R386; notes/assumptions/91.md). -/
def State.corrected (s : State) (pa n : Nat) : State :=
  let hit (e : Nat × Nat) : Bool := overlaps pa n (4 * e.2) 4
  (s.softErrs.filter hit).foldl (fun (t : State) e =>
    t.record 0 { addr := 4 * e.2, kind := 0x81, die := (homeOf pa).getD 0, count := 1, detail := e.1 })
    { s with softErrs := s.softErrs.filter fun e => !(hit e) }

/-- The load of one lane, with the translation it uses and the errors that are corrected in its words. -/
def State.loadLane (w : Wave) (z : Width) (d : Reg) (ea : Ea) (p : Scope) (r : Ord) (pol : CachePol) (m : LaneMask)
    (s0 s : State) (l : Nat) : State :=
  match s0.access w .read (ea s0 w l) z.bytes with
  | .error _ => s
  | .ok pa =>
    let s := (if l == lowest m then s else s.mayEvict w.core (pa / 64)).corrected pa z.bytes
    (s.noteTlb w.core (s.ctxId w) (ea s0 w l)).performLoad w z d p r pol (if d.isUni then m else laneBit l) l pa

/-- A load of the group, once with a uniform destination (R106); then the acquire half of the loads already performed
(R107). -/
def loadAct (z : Width) (d : Reg) (ea : Ea) (p : Scope) (r : Ord) (pol : CachePol) (s : State) (_ : Issue) (w : Wave)
    (m : LaneMask) : State :=
  let t := (lanesOf (if d.isUni then laneBit (lowest m) else m)).foldl (State.loadLane w z d ea p r pol m s) s
  if ordAcq r then t.acquire w.core p else t

/-! ## Stores -/

/-- The lanes whose stores are performed: one where data and address are uniform (R106). -/
def storing (d a : Reg) (m : LaneMask) : LaneMask := if d.isUni && a.isUni then laneBit (lowest m) else m

/-- The lines, not yet in the gang's version, that the stores of the lanes up to `l` write (R264). -/
def State.newLines (s : State) (ea : Ea) (z : Width) (w : Wave) (m : LaneMask) (l : Nat) : List Nat :=
  ((lanesOf m).filter (· ≤ l)).foldl (fun xs k =>
    match s.access w .write (ea s w k) z.bytes with
    | .ok pa => if (s.vline? w.gang (pa / 64)).isNone && !xs.contains (pa / 64) then xs ++ [pa / 64] else xs
    | .error _ => xs) []

/-- Is there no room for the version line a store of lane `l` would add (R264)? A commit point that has still to commit empties the
gang's version first, but for the room of the groups under way. -/
def State.noRoom (s : State) (ea : Ea) (z : Width) (commits : Bool) (w : Wave) (m : LaneMask) (l pa : Nat) : Bool :=
  let g := s.gangOf w
  let s := if commits && !(w.thread l).commitDone then
      { s with versions := s.versions.filter fun v => v.gang != g.id || s.reserved g.id v.line }
    else s
  let xs := s.newLines ea z w m l
  s.versioned g && xs.contains (pa / 64) && !(s.verRoom g xs.length)

/-- The checks of a store in one thread (R105, R264). -/
def storeCheck (z : Width) (d a : Reg) (ea : Ea) (p : Scope) (r : Ord) (s : State) (c : Issue) (w : Wave) (l : Nat) : Verdict :=
  match s.access w .write (ea s w l) z.bytes with
  | .error v => v
  | .ok pa =>
    if s.noRoom ea z (ordRel r && scopeWide p) w (storing d a c.lanes) l pa then .trap 10 0 (ea s w l)
    else if s.mustWait w l p r pa z.bytes || s.stalled w pa then .wait
    else .go

/-- The low bytes of the data registers of a store (R104). -/
def State.storeData (s : State) (z : Width) (d : Reg) (w : Wave) (l : Nat) : Nat := wide (w.reg s.fresh l) z.regCount d

/-- The store of one lane (R105), for the threads of `lanes`. -/
def State.storeLane (w : Wave) (z : Width) (d : Reg) (ea : Ea) (p : Scope) (r : Ord) (pol : CachePol) (lanes : Nat → LaneMask)
    (s0 s : State) (l : Nat) : State :=
  match s0.access w .write (ea s0 w l) z.bytes with
  | .error _ => s
  | .ok pa =>
    let die := coreDie w.core
    let t := (s.noteTlb w.core (s.ctxId w) (ea s0 w l)).threadStore w (lanes l) pol (lineWrite pa z.bytes (s0.storeData z d w l))
    if t.storeId s.nextId then t.noteOrder w (lanes l) p r (.held s.nextId)
    else if (t.die die).pub = (s.die die).pub then t
    else t.noteOrder w (lanes l) p r (.write die (t.die die).pub (pa / 64))

/-- A store of the group in ascending lane order, so that the highest lane's bytes stay (R106). The acquire half of those that
are performed at once is performed with them; for the others their threads' later accesses wait (R107). -/
def storeAct (z : Width) (d a : Reg) (ea : Ea) (p : Scope) (r : Ord) (pol : CachePol) (s : State) (_ : Issue) (w : Wave)
    (m : LaneMask) : State :=
  let one := d.isUni && a.isUni
  let t := (lanesOf (storing d a m)).foldl
    (State.storeLane w z d ea p r pol (fun l => if one then m else laneBit l) s) s
  if ordAcq r then t.acquire w.core p else t

/-! ## The scratchpad (R109 to R111) -/

/-- The byte offset a thread reads. -/
def State.spadEa (s : State) (a : Reg) (w : Wave) (l : Nat) : Nat := (w.reg s.fresh l a).toNat

/-- The bytes of the gang's scratchpad (R181). -/
def State.spadBytes (s : State) (g : Gang) : Nat := (s.launchOf g).hdr.scratch

/-- The checks of a scratchpad access in one thread (R109); a release half waits for the thread's earlier accesses, an acquire
half for those with a release half (R107, R193 to R195). -/
def spadCheck (n : Nat) (a : Reg) (p : Scope) (r : Ord) (s : State) (_ : Issue) (w : Wave) (l : Nat) : Verdict :=
  let ea := s.spadEa a w l
  if s.spadBytes (s.gangOf w) < ea + n then .abort 0x82 0 ea
  else if ea % n != 0 then .trap 6 0 ea
  else if ordRel r && !(s.threadClear w l p) || ordAcq r && !(s.relsDone w l p) then .wait
  else .go

/-- A read of the scratchpad that is performed as its word issues finds no poison (R274, R386); a wait that is not met reads
later. -/
def readCheck (n : Nat) (a : Reg) (q : LoadFe) (s : State) (w : Wave) (l : Nat) : Verdict :=
  let g := s.gangOf w
  let ea := s.spadEa a w l
  if g.spadBad ea n && (q == .plain || g.isFull ea n) then .abort 0x80 0 ea else .go

/-- The checks of LDSP. -/
def ldspCheck (n : Nat) (a : Reg) (p : Scope) (r : Ord) (q : LoadFe) (s : State) (c : Issue) (w : Wave) (l : Nat) : Verdict :=
  (spadCheck n a p r s c w l).andThen (readCheck n a q s w l)

/-- A waiting access that is not yet satisfied holds its thread, and the threads it is performed for as well (R106, R111). -/
def State.feHold (s : State) (l : Nat) (f : FeWait) : State :=
  s.modCur fun c => { c with holds := c.holds ++ [(l, .fe f)] ++ (lanesOf f.mates).map fun k => (k, .feMate l) }

/-- A scratchpad load of one lane (R109, R110) by the issue numbered `inst`; `mates` are the other threads of a uniform form. -/
def State.spadLoad (w : Wave) (z : Width) (d : Reg) (q : LoadFe) (ea : Nat) (mates : LaneMask) (inst : Nat) (s : State) (l : Nat) :
    State :=
  let f : FeWait := { load := true, take := q == .waittake, width := z, ea, reg := d, data := 0, mates, inst }
  if q == .plain || (s.gangOf w).feReady f then s.fePerform w l f else s.feHold l f

def ldspAct (z : Width) (d a : Reg) (q : LoadFe) (s : State) (_ : Issue) (w : Wave) (m : LaneMask) : State :=
  if d.isUni then
    let l := lowest m
    s.spadLoad w z d q (s.spadEa a w l) (m &&& ~~~(laneBit l)) s.fresh l
  else (lanesOf m).foldl (fun t l => t.spadLoad w z d q (s.spadEa a w l) 0 s.fresh l) s

/-- A scratchpad store of one lane (R109, R110) by the issue numbered `inst`. -/
def State.spadStore (w : Wave) (z : Width) (q : StoreFe) (ea x : Nat) (mates : LaneMask) (inst : Nat) (s : State) (l : Nat) :
    State :=
  match q with
  | .plain => s.modGang w.gang fun g => g.writeSpad ea z.bytes x
  | .clear => s.modGang w.gang fun g => g.setEmpty ea z.bytes
  | .fill => s.modGang w.gang fun g => (g.setFull ea z.bytes).writeSpad ea z.bytes x
  | .waitfill =>
    let f : FeWait := { load := false, take := false, width := z, ea, reg := .s 31, data := BitVec.ofNat 256 x, mates, inst }
    if (s.gangOf w).feReady f then s.fePerform w l f else s.feHold l f

/-- Each fill, and each clear, satisfies the waits of its granule before the next lane's access (R111, R221). -/
def stspAct (z : Width) (d a : Reg) (q : StoreFe) (s : State) (_ : Issue) (w : Wave) (m : LaneMask) : State :=
  (lanesOf (storing d a m)).foldl (fun t l =>
    (t.spadStore w z q (s.spadEa a w l) (s.storeData z d w l) (if d.isUni && a.isUni then m &&& ~~~(laneBit l) else 0)
      s.fresh l).settleGranules w.gang) s

/-! ## The meanings -/

/-- LD (R105). -/
def execLd (z : Width) (d a : Reg) (p : Scope) (r : Ord) (h : CachePol) (s : State) : Host.Outcome State Fault Refusal :=
  runWord (.ld z d a p r h)
    { check := loadCheck z (fun s => s.eaPair a) p r, commit := ordCommits r p
      act := loadAct z d (fun s => s.eaPair a) p r h } s

/-- ST (R105). -/
def execSt (z : Width) (d a : Reg) (p : Scope) (r : Ord) (h : CachePol) (s : State) : Host.Outcome State Fault Refusal :=
  runWord (.st z d a p r h)
    { check := storeCheck z d a (fun s => s.eaPair a) p r, commit := ordCommits r p
      act := storeAct z d a (fun s => s.eaPair a) p r h } s

/-- LDO (R105). -/
def execLdo (z : Width) (d a : Reg) (i : BitVec 7) (s : State) : Host.Outcome State Fault Refusal :=
  runWord (.ldo z d a i)
    { check := loadCheck z (fun s => s.eaOffset a i z) .wave .plain
      act := loadAct z d (fun s => s.eaOffset a i z) .wave .plain .dflt } s

/-- STO (R105). -/
def execSto (z : Width) (d a : Reg) (i : BitVec 7) (s : State) : Host.Outcome State Fault Refusal :=
  runWord (.sto z d a i)
    { check := storeCheck z d a (fun s => s.eaOffset a i z) .wave .plain
      act := storeAct z d a (fun s => s.eaOffset a i z) .wave .plain .dflt } s

/-- LDSP (R109). -/
def execLdsp (z : Width) (d a : Reg) (p : Scope) (r : Ord) (q : LoadFe) (s : State) : Host.Outcome State Fault Refusal :=
  runWord (.ldsp z d a p r q) { check := ldspCheck z.bytes a p r q, act := ldspAct z d a q } s

/-- STSP (R109). -/
def execStsp (z : Width) (d a : Reg) (p : Scope) (r : Ord) (q : StoreFe) (s : State) : Host.Outcome State Fault Refusal :=
  runWord (.stsp z d a p r q) { check := spadCheck z.bytes a p r, act := stspAct z d a q } s

end Sys2Proof.Machine
end

