-- ==== Sys2Proof/Machine/Atomics.lean ====
section
/-! DEFINITION. Atomics, fences and monitors (spec/13 R208 to R220). A far atomic leaves its core as a combined request,
which the groomer of the line's home die performs (the event GROOMER_ATOMIC, or its turn on the publish flow). -/

namespace Sys2Proof.Machine

/-! ## The operations (R210, R212) -/

/-- An integer operation on operands of `b` bits. -/
def atomInt (op : AtomOp) (b o d c : Nat) : Nat :=
  let s (x : Nat) : Int := intOf true b x
  match op with
  | .add => (o + d) % 2 ^ b
  | .mini => if s d < s o then d else o
  | .maxi => if s o < s d then d else o
  | .minn => min o d
  | .maxn => max o d
  | .and => (BitVec.ofNat 64 o &&& BitVec.ofNat 64 d).toNat
  | .or => (BitVec.ofNat 64 o ||| BitVec.ofNat 64 d).toNat
  | .xor => (BitVec.ofNat 64 o ^^^ BitVec.ofNat 64 d).toNat
  | .xchg => d
  | .cas => if o = c then d else o
  | .inc => if d ≤ o then 0 else o + 1
  | .dec => if o = 0 ∨ d < o then d else o - 1

/-- RNE(x + y), subnormals honoured (R210). -/
def atomAdd (f : FpFmt) (x y : Nat) : Rounded := f.add { mode := .rne } (f.read false x) (f.read false y)

/-- One step of a float minimum or maximum. -/
def atomMinMax (f : FpFmt) (op : AtomOp) (o d : Nat) : Rounded := f.minmax (op != .mini) false 0 o d

/-- Every participant's operation applied in turn: the values they receive, the location's last value, the flags. -/
def atomTurns (f : Nat → AtomPart → Nat × Flags) : Nat → List AtomPart → List Nat × Nat × Flags
  | o, [] => ([], o, 0)
  | o, p :: ps =>
    let r := f o p
    let (xs, v, fl) := atomTurns f r.1 ps
    (o :: xs, v, r.2 ||| fl)

/-- Float ADD: the prefix sums rounded one by one, and the total added once (R212). -/
def atomSums (f : FpFmt) (o : Nat) : Option Nat → List AtomPart → List Nat × Nat × Flags
  | none, [] => ([], o, 0)
  | some p, [] => let r := atomAdd f o p; ([], r.bits, r.flags)
  | none, x :: xs =>
    let (rs, v, fl) := atomSums f o (some x.d.toNat) xs
    (o :: rs, v, fl)
  | some p, x :: xs =>
    let r := atomAdd f o p
    let q := atomAdd f p x.d.toNat
    let (rs, v, fl) := atomSums f o (some q.bits) xs
    (r.bits :: rs, v, r.flags ||| q.flags ||| fl)

/-- A combined request on the old value `o` (R212). -/
def atomRun (op : AtomOp) (ty : AtomTy) (o : Nat) (ps : List AtomPart) : List Nat × Nat × Flags :=
  let float (f : FpFmt) : List Nat × Nat × Flags :=
    if op == .add then atomSums f o none ps
    else atomTurns (fun o p => let r := atomMinMax f op o p.d.toNat; (r.bits, r.flags)) o ps
  match ty with
  | .b32 => atomTurns (fun o p => (atomInt op 32 o p.d.toNat p.c.toNat, 0)) o ps
  | .b64 => atomTurns (fun o p => (atomInt op 64 o p.d.toNat p.c.toNat, 0)) o ps
  | .f32 => float .f32
  | .f64 => float .f64

/-! ## Requests -/

/-- The operand and the compare value a thread supplies (R209). -/
def State.atomPart (s : State) (op : AtomOp) (ty : AtomTy) (d : Reg) (w : Wave) (l : Nat) : AtomPart :=
  let k := ty.regCount
  let x (r : Reg) : BitVec 64 := BitVec.ofNat 64 (wide (w.reg s.fresh l) k r)
  match op with
  | .cas => { lane := l, d := x (Reg.ofNat (d.toNat + k)), c := x d, pid := none }
  | _ => { lane := l, d := x d, c := 0, pid := none }

/-- The threads for which the form is performed: one where the result is uniform (R210). -/
def atomLanes (d : Reg) (ret : Bool) (m : LaneMask) : LaneMask := if ret && d.isUni then laneBit (lowest m) else m

/-- A result place for a participant whose old value returns. -/
def State.atomPend (s : State) (ty : AtomTy) (d : Reg) (w : Wave) (m : LaneMask) (l : Nat) : Nat × State :=
  let (id, s) := s.newId
  (id, s.addPending w.id
    { id, lane := if d.isUni then none else some l, lanes := if d.isUni then m else laneBit l,
      regs := regs ty.regCount d, vals := [], opened := true })

/-- The participants of one request, with a result place for each where the form returns (R212). -/
def State.atomParts (op : AtomOp) (ty : AtomTy) (d : Reg) (ret : Bool) (w : Wave) (m : LaneMask) (s0 : State) :
    List Nat → State → List AtomPart × State
  | [], s => ([], s)
  | l :: ls, s =>
    let p := s0.atomPart op ty d w l
    let (p, s) := if ret then
        let (id, s) := s.atomPend ty d w m l
        ({ p with pid := some id }, s)
      else (p, s)
    let (ps, s) := State.atomParts op ty d ret w m s0 ls s
    (p :: ps, s)

/-- The distinct values of a list, in the order of their first places, each with the lanes that have it. -/
def groupLanes (key : Nat → Nat) (ls : List Nat) : List (Nat × List Nat) :=
  (ls.map key).eraseDups.map fun k => (k, ls.filter fun l => key l == k)

/-- Each participant's old value is returned (R211). -/
def State.atomReturn (s : State) (wave : Nat) (ty : AtomTy) (ps : List AtomPart) (olds : List Nat) : State :=
  (ps.zip olds).foldl (fun s x => match x.1.pid with
    | some id => s.resolve wave id ((List.range ty.regCount).map fun j => BitVec.ofNat 32 (x.2 / 2 ^ (32 * j))) 0 none
    | none => s) s

/-- A request performed at the line's home (R211, R212): the freshest words of the line are read and written there in one
step, and the old values return, to another die with the home's applied vector where the request reads for its thread (R201,
R202). The acquire half of an ATOMR is performed with it (R214). -/
def State.atomPerform (s : State) (r : AtomReq) : State :=
  let o := lineNat (s.homeView (r.addr / 64)) (r.addr % 64) r.ty.bytes
  let (olds, v, fl) := atomRun r.op r.ty o r.parts
  let s := if homeOf r.addr == some r.src then s else s.endRemote r.src (r.addr / 64)
  let s := s.homeWrite (lineWrite r.addr r.ty.bytes v)
  let s := s.noteSeal (((s.gang? r.gang).map (·.launch)).getD 0) (lineWrite r.addr r.ty.bytes v)
  let s := { s with groom := s.groom.filter fun x => x.id != r.id }
  let s := match homeOf r.addr with
    | some h => if h != r.src && (r.acq.isSome || r.parts.any (·.pid.isSome)) then s.mergeReply r.src (s.die h).app else s
    | none => s
  let s := ((s.atomReturn r.wave r.ty r.parts olds).raiseFlags r.gang fl)
  match r.acq with
  | some p => s.acquire r.core p
  | none => s

/-! ## ATOM and ATOMR (R208, R210, R214) -/

/-- The checks in one thread, in the order of R210; GROOM of the home die after translation (R78, R266). -/
def atomCheck (ty : AtomTy) (a : Reg) (rel : Option Scope) (s : State) (_ : Issue) (w : Wave) (l : Nat) : Verdict :=
  let ea := s.eaPair a w l
  match s.access w .write ea ty.bytes with
  | .error v => v
  | .ok pa =>
    if !(s.deviceFrame pa) then .abort 0x82 0 ea
    else if !((s.die ((homeOf pa).getD 0)).feat.getLsbD Feature.groom.bit) then .trap 9 0 0
    else if s.consumes w.gang pa ty.bytes then .abort 0x80 0 ea
    else if (match rel with | some p => !(s.threadClear w l p && s.relsDone w l p) | none => false) || !(s.lineClear w l pa ty.bytes) ||
      s.stalled w pa then .wait
    else .go

/-- The physical address of a thread's operand. -/
def State.atomPa (s : State) (ty : AtomTy) (a : Reg) (w : Wave) (l : Nat) : Nat :=
  match s.access w .write (s.eaPair a w l) ty.bytes with
  | .ok pa => pa
  | .error _ => 0

/-- One combined request, of the lanes `x.2` for one address, leaves the core: to its die's groomer, or published to the line's
home (R200, R211). -/
def State.sendAtom (op : AtomOp) (ty : AtomTy) (d a : Reg) (ret : Bool) (acq : Option Scope) (w : Wave) (m : LaneMask)
    (s0 s : State) (x : Nat × List Nat) : State :=
  let pa := s0.atomPa ty a w (x.2.headD 0)
  let (parts, s) := State.atomParts op ty d ret w m s0 x.2 s
  let (id, s) := s.newId
  let r : AtomReq := { id, wave := w.id, gang := w.gang, addr := pa, op, ty, src := coreDie w.core, acq, core := w.core, parts }
  let s := { s with groom := s.groom ++ [r] }
  let s := match acq with
    | some p => s.noteOrder w (if ret && d.isUni then m else maskBy x.2.contains) p .acqrel (.atomic id)
    | none => s
  match homeOf pa with
  | some h => if h == coreDie w.core then s else s.publish (coreDie w.core) h w.id (.atomic id)
  | none => s

/-- The threads of one ATOM with one address form one request (R212). -/
def atomAct (op : AtomOp) (ty : AtomTy) (d a : Reg) (ret : Bool) (acq : Option Scope) (s : State) (_ : Issue) (w : Wave)
    (m : LaneMask) : State :=
  let ls := lanesOf (atomLanes d ret m)
  let t := ls.foldl (fun t l => t.noteTlb w.core (s.ctxId w) (s.eaPair a w l)) s
  let t := (groupLanes (s.eaPair a w) ls).foldl (State.sendAtom op ty d a ret acq w m s) t
  t.setCommitted w.gang

/-! ## ATOMSP (R213) -/

def atomspAct (op : AtomOp) (ty : AtomTy) (d a : Reg) (ret : Bool) (s : State) (_ : Issue) (w : Wave) (m : LaneMask) : State :=
  (groupLanes (s.spadEa a w) (lanesOf (atomLanes d ret m))).foldl (fun t x =>
    let (parts, t) := State.atomParts op ty d ret w m s x.2 t
    let o := Memory.readNat (t.gangOf w).spad x.1 ty.bytes
    let (olds, v, fl) := atomRun op ty o parts
    let t := t.modGang w.gang fun g => g.writeSpad x.1 ty.bytes v
    (t.atomReturn w.id ty parts olds).raiseFlags w.gang fl) s

/-! ## Fences (R217, R218) -/

/-- The release part waits until every earlier access of the thread is performed at the scope. -/
def relCheck (p : Scope) (s : State) (_ : Issue) (w : Wave) (l : Nat) : Verdict := if s.threadClear w l p then .go else .wait

/-- An acquire waits for the thread's accesses with a release half (R193 to R195). -/
def acqCheck (p : Scope) (s : State) (_ : Issue) (w : Wave) (l : Nat) : Verdict := if s.relsDone w l p then .go else .wait

/-- The acquire part. -/
def acqAct (p : Scope) (s : State) (_ : Issue) (w : Wave) (_ : LaneMask) : State := s.acquire w.core p

/-- FENCE and REL at .sect or wider commit (R217). -/
def relCommits (p : Scope) (_ : State) (_ : Wave) (_ : Gang) : Bool := scopeWide p

/-! ## Monitors (R219, R220) -/

def monitorCheck (a : Reg) (s : State) (_ : Issue) (w : Wave) (l : Nat) : Verdict :=
  match s.access w .read (s.eaPair a w l) 1 with
  | .error v => v
  | .ok _ => .go

/-- The lines that armed monitors of the waves that satisfy `p` watch. -/
def State.watched (s : State) (p : Wave → Bool) : List Nat :=
  ((s.waves.filter p).filterMap fun w => (w.monitor.filter (!·.event)).map (·.line)).eraseDups

/-- A filter or table of `cap` lines takes the line `n` for the waves that satisfy `p`; when it is full it drops one of its other
lines, and the monitors on that line record an event (R184, R185). -/
def State.dropWatched (s : State) (cap n : Nat) (p : Wave → Bool) : State :=
  match s.victim cap n ((s.watched p).filter (· != n)) with
  | some v => s.picked.monEvent v p
  | none => s

def monitorAct (a : Reg) (s : State) (_ : Issue) (w : Wave) (m : LaneMask) : State :=
  match s.access w .read (s.eaPair a w (lowest m)) 1 with
  | .error _ => s
  | .ok pa =>
    let n := pa / 64
    let s := s.modWave w.id fun v => { v with monitor := some { line := n, event := false } }
    let s := s.dropWatched 256 n fun v => coreSector v.core == coreSector w.core
    s.dropWatched 4096 n fun v => v.monitor.any fun x => homeOfLine x.line == homeOfLine n

/-- WAITM: the threads are held; the end of the cycle releases them where nothing is to be waited for. -/
def waitmAct (s : State) (_ : Issue) (_ : Wave) (m : LaneMask) : State :=
  s.modCur fun c => { c with holds := c.holds ++ (lanesOf m).map fun l => (l, .waitm) }

/-! ## The meanings -/

/-- ATOM (R208). -/
def execAtom (o : AtomOp) (t : AtomTy) (d a : Reg) (p : Scope) (e : Bool) (s : State) : Host.Outcome State Fault Refusal :=
  runWord (.atom o t d a p e)
    { check := atomCheck t a none, commit := fun _ _ _ => true, act := atomAct o t d a e none } s

/-- ATOMR (R214). -/
def execAtomr (o : AtomOp) (t : AtomTy) (d a : Reg) (p : Scope) (e : Bool) (s : State) : Host.Outcome State Fault Refusal :=
  runWord (.atomr o t d a p e)
    { check := atomCheck t a (some p), commit := fun _ _ _ => true, act := atomAct o t d a e (some p) } s

/-- ATOMSP (R213). -/
def execAtomsp (o : AtomOp) (t : AtomTy) (d a : Reg) (p : Scope) (e : Bool) (s : State) : Host.Outcome State Fault Refusal :=
  runWord (.atomsp o t d a p e) { check := ldspCheck t.bytes a p .plain .plain, act := atomspAct o t d a e } s

/-- FENCE (R217). -/
def execFence (p : Scope) (s : State) : Host.Outcome State Fault Refusal :=
  runWord (.fence p) { check := relCheck p, commit := relCommits p, act := acqAct p } s

/-- ACQ (R217). -/
def execAcq (p : Scope) (s : State) : Host.Outcome State Fault Refusal := 
  runWord (.acq p) { check := acqCheck p, act := acqAct p } s

/-- REL (R217). -/
def execRel (p : Scope) (s : State) : Host.Outcome State Fault Refusal :=
  runWord (.rel p) { check := relCheck p, commit := relCommits p } s

/-- COMMIT (R218). -/
def execCommit (s : State) : Host.Outcome State Fault Refusal :=
  runWord .commit { check := relCheck .pkg, commit := fun _ _ _ => true } s

/-- MONITOR (R219). -/
def execMonitor (a : Reg) (s : State) : Host.Outcome State Fault Refusal :=
  runWord (.monitor a) { check := monitorCheck a, act := monitorAct a } s

/-- WAITM (R220). -/
def execWaitm (s : State) : Host.Outcome State Fault Refusal := runWord .waitm { act := waitmAct } s

end Sys2Proof.Machine
end

