-- ==== Sys2Proof/Machine/Control.lean ====
section
/-! DEFINITION. Mask instructions, branches, calls and jumps (spec/16 R235 to R244). -/

namespace Sys2Proof.Machine

/-! ## Masks (R240, R241) -/

def opJoin (k : Mask) : LaneOp := fun _ => { ks := [(k, true)] }
def opLeave (k : Mask) : LaneOp := fun _ => { ks := [(k, false)] }
def opKand (k a b : Mask) : LaneOp := fun x => { ks := [(k, x.kb a && x.kb b)] }
def opKor (k a b : Mask) : LaneOp := fun x => { ks := [(k, x.kb a || x.kb b)] }
def opKxor (k a b : Mask) : LaneOp := fun x => { ks := [(k, x.kb a != x.kb b)] }
def opKnot (k a : Mask) : LaneOp := fun x => { ks := [(k, !(x.kb a))] }
def opKset (k : Mask) (i : Bool) : LaneOp := fun _ => { ks := [(k, i)] }

/-- The threads of `m` that satisfy `p` are held once the chain has been performed (R223). -/
def State.holdIf (s : State) (m : LaneMask) (h : Hold) (p : Nat → Bool) : State :=
  s.modCur fun c => { c with holds := c.holds ++ ((lanesOf m).filter p).map fun l => (l, h) }

/-- WAITK: the threads whose bit is set as it stood before the chain are held. -/
def waitkAct (k : Mask) (s : State) (_ : Issue) (w : Wave) (m : LaneMask) : State :=
  s.holdIf m (.waitk k) fun l => w.kbit k l

/-! ## Branches and calls with a packet offset (R53, R235 to R237) -/

/-- The slot's offset in its packet. -/
def SlotNo.toNat : SlotNo → Nat
  | .one => 1 | .two => 2 | .three => 3

/-- The target of a format-B word at `pc` (R53). -/
def branchTarget (pc : DWord) (s : SlotNo) (o : BitVec 17) : DWord :=
  (pc &&& ~~~0xF#64) + 16 * o.signExtend 64 + BitVec.ofNat 64 (4 * SlotNo.toNat s)

/-- Does the thread take the branch (R235)? -/
def taken (n : Bool) (k : Option Mask) (w : Wave) (l : Nat) : Bool :=
  (match k with | some k => w.kbit k l | none => true) != n

/-- The control transfers of the threads of `m` that satisfy `p` (R47). -/
def State.transfer (s : State) (m : LaneMask) (p : Nat → Bool) (t : Nat → DWord) : State :=
  s.modCur fun c => { c with targets := c.targets ++ ((lanesOf m).filter p).map fun l => (l, t l) }

/-- The link is written in the threads of `m` that satisfy `p` (R235). -/
def State.putLink (s : State) (c : Issue) (w : Wave) (m : LaneMask) (r : Nat) (p : Nat → Bool) : State :=
  s.modWave w.id fun v => v.putLanes (m &&& maskBy p) fun _ => spread 2 (Reg.ofNat r) c.nextPc.toNat

def brAct (t : SlotNo) (n : Bool) (k : Option Mask) (o : BitVec 17) (s : State) (c : Issue) (w : Wave) (m : LaneMask) :
    State :=
  s.transfer m (taken n k w) fun _ => branchTarget c.wordPc t o

/-- A taken call needs the link's registers (R29, R235). -/
def callCheck (n : Bool) (k : Option Mask) (_ : State) (_ : Issue) (w : Wave) (l : Nat) : Verdict :=
  if taken n k w l && w.grant < 96 then .trap 4 0 0 else .go

def callAct (t : SlotNo) (n : Bool) (k : Option Mask) (o : BitVec 17) (s : State) (c : Issue) (w : Wave) (m : LaneMask) :
    State :=
  (s.putLink c w m 94 (taken n k w)).transfer m (taken n k w) fun _ => branchTarget c.wordPc t o

/-- TRAMP traps with n = 1; with n = 0 it needs the link's registers (R235, R237). -/
def trampCheck (n : Bool) (_ : State) (_ : Issue) (w : Wave) (_ : Nat) : Verdict :=
  if n then .trap 8 0 0 else if w.grant < 96 then .trap 4 0 0 else .go

def trampAct (t : SlotNo) (o : BitVec 17) (s : State) (c : Issue) (w : Wave) (m : LaneMask) : State :=
  (s.putLink c w m 92 fun _ => true).transfer m (fun _ => true) fun _ => branchTarget c.wordPc t o

/-! ## Jumps through a register (R238) -/

/-- The target a thread reads. -/
def State.jumpTarget (s : State) (a : Reg) (w : Wave) (l : Nat) : DWord := pair (w.reg s.fresh l) a

def jumpCheck (a : Reg) (s : State) (_ : Issue) (w : Wave) (l : Nat) : Verdict :=
  if validPc (s.jumpTarget a w l) then .go else .trap 1 0 0

def callrCheck (a : Reg) (s : State) (c : Issue) (w : Wave) (l : Nat) : Verdict :=
  if w.grant < 96 then .trap 4 0 0 else jumpCheck a s c w l

def jumpAct (a : Reg) (s : State) (_ : Issue) (w : Wave) (m : LaneMask) : State :=
  s.transfer m (fun _ => true) fun l => s.jumpTarget a w l

def callrAct (a : Reg) (s : State) (c : Issue) (w : Wave) (m : LaneMask) : State :=
  (s.putLink c w m 94 fun _ => true).transfer m (fun _ => true) fun l => s.jumpTarget a w l

/-! ## The meanings -/

/-- JOIN (R240). -/
def execJoin (k : Mask) (s : State) : Host.Outcome State Fault Refusal := runLane (.join k) (opJoin k) s
/-- LEAVE (R240). -/
def execLeave (k : Mask) (s : State) : Host.Outcome State Fault Refusal := runLane (.leave k) (opLeave k) s
/-- WAITK (R241). -/
def execWaitk (k : Mask) (s : State) : Host.Outcome State Fault Refusal := runWord (.waitk k) { act := waitkAct k } s
/-- KAND (R240). -/
def execKand (k a b : Mask) (s : State) : Host.Outcome State Fault Refusal := runLane (.kand k a b) (opKand k a b) s
/-- KOR (R240). -/
def execKor (k a b : Mask) (s : State) : Host.Outcome State Fault Refusal := runLane (.kor k a b) (opKor k a b) s
/-- KXOR (R240). -/
def execKxor (k a b : Mask) (s : State) : Host.Outcome State Fault Refusal := runLane (.kxor k a b) (opKxor k a b) s
/-- KNOT (R240). -/
def execKnot (k a : Mask) (s : State) : Host.Outcome State Fault Refusal := runLane (.knot k a) (opKnot k a) s
/-- KSET (R240). -/
def execKset (k : Mask) (i : Bool) (s : State) : Host.Outcome State Fault Refusal := runLane (.kset k i) (opKset k i) s

/-- BR (R235). -/
def execBr (t : SlotNo) (n : Bool) (k : Option Mask) (o : BitVec 17) (s : State) : Host.Outcome State Fault Refusal :=
  runWord (.br t n k o) { act := brAct t n k o } s

/-- CALL (R235). -/
def execCall (t : SlotNo) (n : Bool) (k : Option Mask) (o : BitVec 17) (s : State) : Host.Outcome State Fault Refusal :=
  runWord (.call t n k o) { check := callCheck n k, act := callAct t n k o } s

/-- JMP (R238). -/
def execJmp (a : Reg) (s : State) : Host.Outcome State Fault Refusal :=
  runWord (.jmp a) { check := jumpCheck a, act := jumpAct a } s

/-- CALLR (R238). -/
def execCallr (a : Reg) (s : State) : Host.Outcome State Fault Refusal :=
  runWord (.callr a) { check := callrCheck a, act := callrAct a } s

/-- RET (R238). -/
def execRet (a : Reg) (s : State) : Host.Outcome State Fault Refusal :=
  runWord (.ret a) { check := jumpCheck a, act := jumpAct a } s

/-- TRAMP (R237). -/
def execTramp (t : SlotNo) (n : Bool) (k : Mask) (o : BitVec 17) (s : State) : Host.Outcome State Fault Refusal :=
  runWord (.tramp t n k o) { check := trampCheck n, act := trampAct t o } s

end Sys2Proof.Machine
end

