-- ==== Sys2Proof/Machine/EngineMem.lean ====
section
/-! DEFINITION. What the engines of a cluster share: their accesses to global memory and to the gang's scratchpad (spec/11
R182, spec/12 R204, spec/22 R316, spec/26 R375, R377), tensor identifiers (spec/08 R146 to R149) and the values of their
elements (R131 to R133, R140). -/

namespace Sys2Proof.Machine

/-- Why an engine's command does not go on now: the fabric (R201), a translation fault on a page (R377), an aborting
cause of its gang, with the TID it names (R149, R371), or a feature that its die lacks (R266). -/
inductive EngStop where
  | wait
  | fault (page kind : Nat)
  | abort (code : Nat) (tid : Nat := 0xFFFF)
  | feat (f : Feature)

/-- `f` of every element, or the first stop. -/
def engAll {α β : Type} (f : α → Except EngStop β) : List α → Except EngStop (List β)
  | [] => .ok []
  | x :: xs =>
    match f x with
    | .error e => .error e
    | .ok y => match engAll f xs with
      | .error e => .error e
      | .ok ys => .ok (y :: ys)

/-- The protection fault of an engine. -/
def engProt {α : Type} : Except EngStop α := .error (.abort 0x82)

/-- A stop unless `b` holds. -/
def engCheck (b : Bool) : Except EngStop Unit := if b then .ok () else engProt

/-- A stop where a poisoned word is consumed (R274, R386). -/
def engClean (bad : Bool) : Except EngStop Unit := if bad then .error (.abort 0x80) else .ok ()

/-! ## Global memory -/

/-- The physical address of one byte an engine accesses. A read finds no poison (R274) and a home that may serve it (R201); a
write that goes to memory at once needs a home it may write at. -/
def State.engPa (s : State) (g : Gang) (u : Use) (va : Nat) (ver : Bool := s.versioned g) : Except EngStop Nat :=
  match s.xlate none (s.launchOf g).ctx u (va % 2 ^ 64) with
  | .fault p => .error (.fault p (8 + match u with | .read => 1 | .write => 2 | .fetch => 4))
  | .prot => engProt
  | .ok pa =>
    let free := match homeOf pa with
      | none => true
      | some h => match u with
        | .write => ver || s.writable g.die h
        | _ => s.readable g.die h
    if u = .read && s.consumes g.id pa 1 then .error (.abort 0x80)
    else if free then .ok pa else .error .wait

/-- The physical addresses of `n` bytes. -/
def State.engPas (s : State) (g : Gang) (u : Use) (va n : Nat) : Except EngStop (List Nat) :=
  engAll (s.engPa g u) ((List.range n).map (va + ·))

/-- The physical addresses of `n` bytes that a command writes irrevocably, outside the gang's version (R261). -/
def State.engPasDirect (s : State) (g : Gang) (va n : Nat) : Except EngStop (List Nat) :=
  engAll (fun a => s.engPa g .write a false) ((List.range n).map (va + ·))

/-- A byte as an engine reads it: the gang's version over the home's freshest words (R178, R204). -/
def State.engByte (s : State) (g : Gang) (pa : Nat) : Byte :=
  lineByte (s.overlay g.id (pa / 64) (s.homeView (pa / 64))) (pa % 64)

/-- Bytes as a little-endian number (R5). -/
def bytesNat (bs : List Byte) : Nat := bs.foldr (fun b n => b.toNat + 256 * n) 0

/-- The replies of reads at other dies merged (R201). -/
def State.engReplies (s : State) (g : Gang) (pas : List Nat) : State :=
  ((pas.filterMap homeOf).eraseDups.filter (· != g.die)).foldl (fun s h => s.mergeReply g.die (s.die h).app) s

/-- What an engine read, and the addresses it read at. -/
structure EngRead where
  bytes : List Byte
  pas   : List Nat := []

/-- `n` bytes of the scratchpad or of global memory. -/
def State.engRead (s : State) (g : Gang) (sp : Bool) (a n : Nat) : Except EngStop EngRead :=
  if sp then
    if s.spadBytes g < a + n then engProt
    else if g.spadBad a n then .error (.abort 0x80)
    else .ok { bytes := (List.range n).map fun i => Memory.read g.spad (a + i) }
  else match s.engPas g .read a n with
    | .error e => .error e
    | .ok pas => .ok { bytes := pas.map (s.engByte g), pas }

/-- Where bytes of a command go. -/
structure EngWrite where
  spad   : List (Nat × Byte) := []
  global : List (Nat × Byte) := []

def EngWrite.append (x y : EngWrite) : EngWrite := { spad := x.spad ++ y.spad, global := x.global ++ y.global }

/-- The places of `bs` in the scratchpad or in global memory. -/
def State.engTarget (s : State) (g : Gang) (sp : Bool) (a : Nat) (bs : List Byte) : Except EngStop EngWrite :=
  if sp then
    if a + bs.length ≤ s.spadBytes g then .ok { spad := bs.zipIdx.map fun x => (a + x.2, x.1) } else engProt
  else match s.engPas g .write a bs.length with
    | .error e => .error e
    | .ok pas => .ok { global := pas.zip bs }

/-- A byte put into a list of masked line writes. -/
def addByte (ws : List LineWrite) (x : Nat × Byte) : List LineWrite :=
  let w := lineWrite x.1 1 x.2.toNat
  if ws.any fun v => v.line == w.line then
    modBy ws (fun v => v.line == w.line) fun v => { v with data := mergeLine w.mask v.data w.data, mask := v.mask ||| w.mask }
  else ws ++ [w]

def lineWrites (xs : List (Nat × Byte)) : List LineWrite := xs.foldl addByte []

/-- Masked writes of the gang's engines (R204, R261): into its version, or at the lines' homes; they set COMMITTED where the
gang is not versioned (R260). A version that is full stops the write (R264), and an ended gang's version takes none (R258). -/
def State.engPut (s : State) (g : Gang) (ws : List LineWrite) : Except EngStop State :=
  if ws.isEmpty then .ok s else
  let s := s.dropSeals ws
  if s.versioned g then
    if g.st != .live then .ok s
    else if !(s.verRoom g (ws.filter fun w => (s.vline? g.id w.line).isNone).length) then .error (.abort 10)
    else .ok (ws.foldl (fun s w => s.verWrite g none w) s)
  else .ok ((ws.foldl (fun (s : State) w => s.directWrite g.die w) s).setCommitted g.id)

/-- Scratchpad bytes written by an engine; with `fill` the granules they lie in become full (R182). -/
def State.engSpad (s : State) (g : Gang) (fill : Bool) (xs : List (Nat × Byte)) : State :=
  s.modGang g.id fun g =>
    let whole (k : Nat) : Bool := (List.range 4).all fun i => xs.any fun x => x.1 == 4 * k + i
    let g := { g with spad := xs.foldl (fun m x => m.write x.1 x.2) g.spad, spadPoison := g.spadPoison.filter (!whole ·) }
    if fill then xs.foldl (fun g x => g.setFull x.1 1) g else g

/-- All the writes of a command performed. -/
def State.engWrite (s : State) (g : Gang) (fill : Bool) (w : EngWrite) : Except EngStop State :=
  match s.engPut g (lineWrites w.global) with
  | .error e => .error e
  | .ok s => .ok (s.engSpad g fill w.spad)

/-- An aborting cause found by an engine (R258, R371): fault flag 1 marks it. -/
def State.engAbort (s : State) (gid code tid : Nat) (pc : DWord) : State :=
  s.abortGang gid { code, flags := 2, pc, tid }

/-- A command of a gang that stops; `joined` is the page of the fault it has joined, which `join` records. -/
def State.engStop (s : State) (g : Gang) (pc : DWord) (joined : Option Nat) (join : Nat → State → State) (e : EngStop) :
    State :=
  match e with
  | .wait => s
  | .fault p k => if joined == some p then s else join p (s.faultOn (s.launchOf g).ctx p k 1)
  | .abort c tid => s.engAbort g.id c tid pc
  | .feat f => (s.modLaunch g.launch fun l => { l with needFeat := l.needFeat ||| 1#7 <<< f.bit }).engAbort g.id 9 0xFFFF pc

/-- A stop unless the gang's die has a feature (R266). -/
def State.engFeat (s : State) (g : Gang) (f : Feature) : Except EngStop Unit :=
  if (s.die g.die).feat.getLsbD f.bit then .ok () else .error (.feat f)

/-! ## Tensor identifiers (R146 to R149) -/

/-- A valid entry. -/
structure Tensor where
  tid   : Nat
  base  : Nat
  fmt   : Nat
  rank  : Nat
  sdim  : Nat
  sblk  : Nat
  ro    : Bool
  sp    : Bool
  ext   : List Nat
  st    : List Int
  sbase : Nat
  sst   : List Int
  ts    : Nat

/-- Bytes of an element of a format (R147); none where the format is reserved. A T3 byte holds five. -/
def fmtBytes : Nat → Option Nat
  | 0 | 6 | 7 => some 4
  | 1 | 8 | 9 => some 8
  | 2 | 3 | 10 | 11 => some 2
  | 4 | 5 | 12 | 13 | 14 | 16 | 17 => some 1
  | _ => none

def Tensor.bytes (t : Tensor) : Nat := (fmtBytes t.fmt).getD 1

/-- Formats that may carry block scales (R149). -/
def fmtScales (f : Nat) : Bool := f == 4 || f == 5 || f == 12 || f == 16 || f == 17

/-- A field of `n` bits as a two's complement number. -/
def signedOf (n x : Nat) : Int := intOf true n x

/-- The strides of a dense entry (R148). -/
def denseStrides (ext : List Nat) : List Int :=
  [1, (ext.getD 0 1 : Int), (ext.getD 0 1 * ext.getD 1 1 : Nat), (ext.getD 0 1 * ext.getD 1 1 * ext.getD 2 1 : Nat)]

/-- An entry of 128 bytes, or none where it is invalid (R147, R149). -/
def parseTensor (tid x : Nat) : Option Tensor :=
  let f (o n : Nat) : Nat := x / 2 ^ (8 * o) % 2 ^ (8 * n)
  let fmt := f 8 1
  let rank := f 9 1
  let lay := f 10 1
  let sdim := f 11 1
  let sblk := f 12 1
  let flags := f 13 1
  let ext := (List.range 4).map fun i => f (16 + 4 * i) 4
  let st := (List.range 4).map fun i => signedOf 64 (f (32 + 8 * i) 8)
  let sst := (List.range 4).map fun i => signedOf 32 (f (72 + 4 * i) 4)
  let ok := flags % 2 == 1 && flags / 8 == 0 && (fmtBytes fmt).isSome && f 14 2 == 0 && f 92 36 == 0
    && 1 ≤ rank && rank ≤ 4 && lay ≤ 1 && f 0 8 < 2 ^ 51
    && (ext.take rank).all (· != 0) && (ext.drop rank).all (· == 0) && (st.drop rank).all (· == 0)
    && (lay == 0 || st.all (· == 0))
    && (sblk == 0 || sblk == 16 || sblk == 32) && (sblk == 0 || sdim < rank)
    && (sblk != 0 || (sdim == 0 && f 64 8 == 0)) && (sblk == 0 || fmtScales fmt)
    && f 0 8 % ((fmtBytes fmt).getD 1) == 0
  if ok then some
    { tid, base := f 0 8, fmt, rank, sdim, sblk, ro := flags / 2 % 2 == 1, sp := flags / 4 % 2 == 1
      ext := (ext.take rank) ++ List.replicate (4 - rank) 1
      st := if lay == 1 then denseStrides (ext.take rank) else st
      sbase := f 64 8, sst, ts := if f 88 4 == 0 then 0x3F800000 else f 88 4 }
  else none

/-- The entry a command names, read as the command starts (R149, R150). -/
def State.tensor (s : State) (g : Gang) (tid : Nat) : Except EngStop (Tensor × List Nat) :=
  let l := s.launchOf g
  if l.hdr.tidtable ≤ tid then .error (.abort 0x82 tid) else
  match s.engRead g false (l.tidTable + 128 * tid) 128 with
  | .error e => .error e
  | .ok r => match parseTensor tid (bytesNat r.bytes) with
    | some t => .ok (t, r.pas)
    | none => .error (.abort 0x82 tid)

/-- Is element (i, j) of dimensions 0 and 1 inside the entry's extents (R148)? -/
def Tensor.inside (t : Tensor) (i j : Nat) : Bool := i < t.ext.getD 0 1 && j < t.ext.getD 1 1

/-- Its index in elements from the base (R148). -/
def Tensor.index (t : Tensor) (i j : Nat) : Int := i * t.st.getD 0 0 + j * t.st.getD 1 0

/-- Its byte address, none below zero; and the digit of a T3 element. -/
def Tensor.addr (t : Tensor) (i j : Nat) : Option Nat :=
  let n := t.index i j
  let a := (t.base : Int) + (if t.fmt == 16 then n / 5 else n * t.bytes)
  if a < 0 then none else some a.toNat
def Tensor.digit (t : Tensor) (i j : Nat) : Nat := (t.index i j % 5).toNat

/-- The address of its block's scale code (R148). -/
def Tensor.scaleAddr (t : Tensor) (i j : Nat) : Option Nat :=
  let step (d x : Nat) : Int := (if t.sdim == d then x / t.sblk else x : Nat) * t.sst.getD d 0
  let a := (t.sbase : Int) + step 0 i + step 1 j
  if a < 0 then none else some a.toNat

/-- The conversion kind of a format code (R147); T3 and PS2 have none. -/
def fmtKind : Nat → CvKind
  | 0 => .float .f32 | 1 => .float .f64 | 2 => .float .f16 | 3 => .float .bf16 | 4 => .float .e4m3 | 5 => .float .e5m2
  | 6 => .int true 32 | 7 => .int false 32 | 8 => .int true 64 | 9 => .int false 64 | 10 => .int true 16 | 11 => .int false 16
  | 12 => .int true 8 | 13 => .int false 8 | _ => .scale

/-- An integer as a value. -/
def intVal (v : Int) (e : Int) : Fv := .fin (decide (v < 0)) v.natAbs e

/-- The value of an element's bytes without its scale, and FV (R131 to R133). -/
def elemValue (fmt digit x : Nat) : Fv × Flags :=
  if fmt == 16 then (intVal (t3Digit x digit) 0, when (243 ≤ x) flagFV)
  else if fmt == 17 then (intVal (ps2Int x) (-6), 0)
  else ((fmtKind fmt).value false x, 0)

/-- What an engine knows of one element: its value, its block scale, and the flags its reading raises. -/
structure Elem where
  v     : Fv
  scale : Fv := .fin false 1 0
  flags : Flags := 0
  pas   : List Nat := []

/-- A value at `a` in the scratchpad or in global memory. -/
def State.engReadAt (s : State) (g : Gang) (tid : Nat) (sp : Bool) (a : Option Nat) (n : Nat) : Except EngStop EngRead :=
  match a with
  | none => .error (.abort 0x82 tid)
  | some a => match s.engRead g sp a n with
    | .error (.abort c _) => .error (.abort c tid)
    | r => r

/-- Element (i, j) of an entry (R140, R148); a scale's address is a global one, and a NaN scale raises IV (R137). -/
def State.elem (s : State) (g : Gang) (t : Tensor) (i j : Nat) : Except EngStop Elem :=
  match s.engReadAt g t.tid t.sp (t.addr i j) t.bytes with
  | .error e => .error e
  | .ok r =>
    let (v, fl) := elemValue t.fmt (t.digit i j) (bytesNat r.bytes)
    if t.sblk == 0 then .ok { v, flags := fl, pas := r.pas } else
    match s.engReadAt g t.tid false (t.scaleAddr i j) 1 with
    | .error e => .error e
    | .ok q =>
      let sc := scaleOf (bytesNat q.bytes)
      .ok { v, scale := sc, flags := fl ||| when sc.isNan flagIV, pas := r.pas ++ q.pas }

/-- A scaled element as one value (R140). -/
def Elem.value (x : Elem) : Fv :=
  match mulExact x.v x.scale with
  | .val v => v
  | .bad => .nan false

/-- A value rounded into a format by R135, or to an integer as CVT and CVTS do (R143, R162, R163). -/
def roundInto (k : CvKind) (r : Rounding) (v : Fv) : Rounded :=
  match k with
  | .int s b => toInt r s b v
  | .scale => toScale r v
  | .float f => match v with
    | .nan x => f.nanR x r.gen
    | .inf n => f.infinite r n
    | .fin n m e => f.round r n m e

/-- How a command rounds its outputs: the captured rmode, STO as RNE, saturating on demand (R143). -/
def outRounding (fmode : BitVec 6) (sat : Bool) : Rounding :=
  { mode := match rmodeOf fmode with | .sto => .rne | m => m, sat := sat || satdOf fmode }

/-- A number's low `n` bytes. -/
def natBytes (n x : Nat) : List Byte := (List.range n).map fun i => BitVec.ofNat 8 (x / 2 ^ (8 * i))

/-- Where element (i, j) of a destination entry goes. -/
def State.elemTarget (s : State) (g : Gang) (t : Tensor) (i j bits : Nat) : Except EngStop EngWrite :=
  match t.addr i j with
  | none => .error (.abort 0x82 t.tid)
  | some a => match s.engTarget g t.sp a (natBytes t.bytes bits) with
    | .error (.abort c _) => .error (.abort c t.tid)
    | r => r

/-- Where its block's scale code goes. -/
def State.scaleTarget (s : State) (g : Gang) (t : Tensor) (i j code : Nat) : Except EngStop EngWrite :=
  match t.scaleAddr i j with
  | none => .error (.abort 0x82 t.tid)
  | some a => match s.engTarget g false a (natBytes 1 code) with
    | .error (.abort c _) => .error (.abort c t.tid)
    | r => r

/-! ## Requantising (R145) -/

/-- The largest value of a destination format. -/
def requantMax (fmt : Nat) : Nat := match fmt with | 4 => 448 | 5 => 57344 | _ => 127

/-- Is |v| ≤ m × 2^e? -/
def fitsScale (m : Nat) (e : Int) (v : Fv) : Bool := match v with | .fin _ x k => fvCmp (.fin false x k) (.fin false m e) ≤ 0 | _ => false

/-- The smallest e from -127 up with every value within m × 2^e, at most 127. -/
def blockExp (m : Nat) (vs : List Fv) : Int :=
  match (List.range 255).find? fun (k : Nat) => vs.all (fitsScale m ((k : Int) - 127)) with
  | some k => (k : Int) - 127
  | none => 127

/-- A value times 2^e. -/
def Fv.shift (v : Fv) (e : Int) : Fv := match v with | .fin n m k => .fin n m (k + e) | v => v

/-- The scale code of a block, its elements' bits, and the flags. -/
def requant (fmt : Nat) (r : Rounding) (vs : List Fv) : Nat × List Nat × Flags :=
  if vs.any fun v => match v with | .fin _ _ _ => false | _ => true then
    (255, vs.map fun _ => match fmtKind fmt with | .float f => f.nan | _ => 0, flagIV)
  else
    let zero := vs.all fun v => match v with | .fin _ m _ => m == 0 | _ => false
    let e := blockExp (requantMax fmt) vs
    let xs := vs.map fun v => roundInto (fmtKind fmt) { r with sat := true } (v.shift (-e))
    (if zero then 0 else (e + 127).toNat, xs.map (·.bits), xs.foldl (fun f x => f ||| x.flags) 0)

end Sys2Proof.Machine
end

