-- ==== Sys2Proof/Machine/Engine.lean ====
section
/-! DEFINITION. What the engine words and the engines' commands share: the numbers that order a gang's commands (spec/08 R150,
spec/22 R309), rinks (R309, R310), the accumulator tiles of a cluster (spec/23 R322, R330 to R332) and the order of the tile
scheduler (R327, R336), and signals (spec/19 R283). -/

namespace Sys2Proof.Machine

/-! ## Operands and order -/

/-- A uniform operand of an engine word (R338). -/
def State.uni (s : State) (w : Wave) (a : Reg) : Word := w.reg s.fresh 0 a

/-- A uniform pair. -/
def State.uniPair (s : State) (w : Wave) (a : Reg) : DWord := pair (w.reg s.fresh 0) a

/-- Do the units of the place where a gang is work: it is placed, and its partition runs (R269, R271, R373)? -/
def State.placeOn (s : State) (g : Gang) : Bool :=
  let c := s.ctxOf (s.launchOf g)
  s.stage == 6 && g.place.isSome && !c.out && !(s.partOf c).halted

/-- Does the gang run: it has not been ended either? -/
def State.gangOn (s : State) (g : Gang) : Bool := s.placeOn g && g.st == .live

/-- Do a gang's tile scheduler start tasks and delta operations, and its lift chain entries: no pre-emption is asked for (R269),
and no abort of it is due (R258, R263)? -/
def State.engineOn (s : State) (g : Gang) : Bool := s.gangOn g && !g.preempt && g.due.isNone

/-- An operand check of a record in the scratchpad: alignment, then the allocation (R340, R343, R350, R352, R354). -/
def State.recordCheck (s : State) (w : Wave) (a align size : Nat) : Verdict :=
  if a % align != 0 then .trap 6 0 a
  else if s.spadBytes (s.gangOf w) < a + size then .abort 0x82 0 0
  else .go

/-- A record that its word reads as it issues holds no poison (R274, R386). -/
def poisonCheck (s : State) (w : Wave) (a n : Nat) : Verdict := if (s.gangOf w).spadBad a n then .abort 0x80 0 a else .go

/-- A little-endian field of a number, and the number with the field replaced. -/
def nfld (x o n : Nat) : Nat := x / 2 ^ (8 * o) % 2 ^ (8 * n)
def setNfld (x o n v : Nat) : Nat := x - nfld x o n * 2 ^ (8 * o) + v % 2 ^ (8 * n) * 2 ^ (8 * o)

/-- The results of a word that writes one value, outstanding for the threads of `m` (R338): one where `d` is uniform. -/
def State.pendAll (s : State) (w : Wave) (m : LaneMask) (d : Reg) (x : Word) : State :=
  (lanesOf (if d.isUni then laneBit (lowest m) else m)).foldl (fun (s : State) (l : Nat) =>
    let (id, s) := s.newId
    s.addPending w.id { id, lane := if d.isUni then none else some l, lanes := if d.isUni then m else laneBit l,
                        regs := [d], vals := [x] }) s

/-- The value of `d` written by a word of the fixed class (R33). -/
def State.putAll (s : State) (w : Wave) (m : LaneMask) (d : Reg) (x : Word) : State :=
  s.modWave w.id fun v => if d.isUni then v.putUnis [(d, x)] else v.putLanes m fun _ => [(d, x)]

/-! ## Rinks (R309, R310) -/

def Gang.rink (g : Gang) (r : Nat) : Rink := g.rinks.getD r {}

/-- A stage that a rink has: any of 16 where it is open, else one below its count. -/
def Gang.stageOk (g : Gang) (r st : Nat) : Bool :=
  decide (r < 16) && decide (st < 16) && ((g.rink r).count == 0 || decide (st < (g.rink r).count))

/-- The phase of a stage. -/
def Gang.phase (g : Gang) (r st : Nat) : Bool := (g.rink r).phases.getLsbD st

/-- A flip. -/
def Gang.flip (g : Gang) (r st : Nat) : Gang :=
  { g with rinks := g.rinks.modify r fun x => { x with phases := x.phases ^^^ (1#16 <<< st) } }

/-! ## Accumulator tiles (R322, R330 to R332) -/

/-- The tiles of a region: rows of 32, columns of 32 for FP32 and of 16 for FP64 (R322). -/
def tilesAcross (d64 : Bool) (n : Nat) : Nat := if d64 then (n + 15) / 16 else (n + 31) / 32
def regionTiles (d64 : Bool) (m n t0 : Nat) : List Nat :=
  (List.range ((m + 31) / 32 * tilesAcross d64 n)).map (t0 + ·)

/-- The state records of a context. -/
def State.stateRec? (s : State) (ctx h : Nat) : Option StateRec := s.states.find? fun r => r.ctx == ctx && r.handle == h

def State.modState (s : State) (ctx h : Nat) (f : StateRec → StateRec) : State :=
  { s with states := modBy s.states (fun r => r.ctx == ctx && r.handle == h) f }

/-- The context of a gang. -/
def State.gangCtx (s : State) (g : Gang) : Nat := (s.launchOf g).ctx

/-- Is the tile logical number `n` of the gang's window (R331, R332)? -/
def State.inWindow (s : State) (g : Gang) (n : Nat) (t : Tile) : Bool :=
  t.cluster == g.cluster && match t.st with
  | .gangOwned id k => id == g.id && k == n
  | .pinned h p => t.ctx == s.gangCtx g && s.states.any fun r => r.ctx == t.ctx && r.handle == h && !r.ending &&
      match r.bound with
      | some (b, t0) => b == g.id && t0 + p == n
      | none => false
  | .left _ _ | .spilling _ _ => false

def State.window (s : State) (g : Gang) (n : Nat) : Option Tile := s.tiles.find? (s.inWindow g n)

/-- The gang has a mapped tile at logical number `n`, and it is pinned (R262, R339). -/
def State.pinnedAt (s : State) (g : Gang) (n : Nat) : Bool :=
  match s.window g n with
  | some t => match t.st with | .pinned _ _ => true | _ => false
  | none => false

/-- The free physical tiles of a cluster, lowest first. -/
def State.freeTiles (s : State) (c : Nat) : List Nat :=
  (List.range 256).filter fun p => !(s.tiles.any fun t => t.cluster == c && t.phys == p)

/-- The physical tile of a logical number, an unmapped one taking a free tile, which reads +0 (R331); none while no tile is
free. Commands that wait for the number then have it. -/
def State.mapTile (s : State) (g : Gang) (n : Nat) : Option (Nat × State) :=
  match s.window g n with
  | some t => some (t.phys, s)
  | none => match s.freeTiles g.cluster with
    | [] => none
    | p :: _ =>
      let t : Tile := { cluster := g.cluster, phys := p, ctx := s.gangCtx g, st := .gangOwned g.id n }
      let s := { s with tiles := t :: s.tiles }
      some (p, s.modGang g.id fun g => { g with tileQ := g.tileQ.map fun c =>
        { c with foot := c.foot.map fun x => if x == 256 + n then p else x } })

/-- The tiles of a footprint as a command enqueued now names them (R326, R327). -/
def State.mapFoot (g : Gang) : List Nat → State → List Nat × State
  | [], s => ([], s)
  | n :: ns, s =>
    let (x, s) := match s.mapTile g n with | some (p, s) => (p, s) | none => (256 + n, s)
    let (xs, s) := State.mapFoot g ns s
    (x :: xs, s)

/-- Tiles of a cluster changed. -/
def State.modTile (s : State) (c p : Nat) (f : Tile → Tile) : State :=
  { s with tiles := modBy s.tiles (fun t => t.cluster == c && t.phys == p) f }

/-- Tiles become free, and are cleared (R330). -/
def State.freeTile (s : State) (c : Nat) (ps : List Nat) : State :=
  { s with tiles := s.tiles.filter fun t => !(t.cluster == c && ps.contains t.phys) }

def State.tile? (s : State) (c p : Nat) : Option Tile := s.tiles.find? fun t => t.cluster == c && t.phys == p

/-- A word of a tile. -/
def State.tileWord (s : State) (c p w : Nat) : Word := match s.tile? c p with | some t => Map.get 0#32 t.data w | none => 0

/-- A word of a tile written: its poison ends (R386). -/
def State.setTileWord (s : State) (c p w : Nat) (x : Word) : State :=
  s.modTile c p fun t => { t with data := Map.set 0#32 t.data w x, poison := t.poison.filter (· != w) }

/-- Is a word of a tile poisoned, or any of them (R386)? -/
def State.wordBad (s : State) (c p w : Nat) : Bool := (s.tile? c p).any fun t => t.poison.contains w
def State.tileBad (s : State) (c p : Nat) : Bool := (s.tile? c p).any fun t => !t.poison.isEmpty

/-- The tiles of a state on a cluster, by place (R330). -/
def State.stateTiles (s : State) (ctx h c : Nat) : List Nat :=
  (List.range 16).filterMap fun p => (s.tiles.find? fun t =>
    t.cluster == c && t.ctx == ctx && t.st == .pinned h p).map (·.phys)

/-- The tiles a state of dv × dk takes (R332). -/
def stateSize (dv dk : Nat) : Nat := (dv + 31) / 32 * ((dk + 31) / 32)

/-- The tile and word of element (i, j) of a state whose tiles are `ps` (R322, R330). -/
def stateWord (dk : Nat) (ps : List Nat) (i j : Nat) : Nat × Nat :=
  (ps.getD (i / 32 * ((dk + 31) / 32) + j / 32) 0, 32 * (i % 32) + j % 32)

/-! ## The order of the tile scheduler (R326 to R328, R336) -/

/-- The fields of a task captured at enqueue (R323, R326). -/
def TileCmd.kindOf (c : TileCmd) : Nat := nfld c.head.toNat 0 1
def TileCmd.flag (c : TileCmd) (i : Nat) : Bool := c.head.getLsbD (8 + i)
def TileCmd.rows (c : TileCmd) : Nat := nfld c.head.toNat 2 1
def TileCmd.cols (c : TileCmd) : Nat := nfld c.head.toNat 3 1
def TileCmd.d64 (c : TileCmd) : Bool := c.flag 6

/-- Does the command write the tiles of its footprint (R327, R336)? -/
def TileCmd.writes (c : TileCmd) : Bool :=
  match c.kind with
  | .task => c.kindOf != 2
  | .dqry | .accrd _ _ _ => false
  | _ => true

/-- Is the command of the delta engine, or does it move a state? -/
def TileCmd.onState (c : TileCmd) : Bool :=
  match c.kind with
  | .dupd | .dqry | .spill | .fill | .pin | .unpin => true
  | _ => false

/-- Do two commands conflict: they share a tile that one of them writes, or act on one state (R327, R336, R349)? -/
def TileCmd.conflicts (a b : TileCmd) : Bool :=
  ((a.writes || b.writes) && a.foot.any b.foot.contains) || (a.onState && b.onState && a.handle == b.handle)

/-- Has every earlier command that conflicts completed? -/
def Gang.clearFor (g : Gang) (c : TileCmd) : Bool := !(g.tileQ.any fun d => d.seq < c.seq && d.conflicts c)

/-- The entries of the tile queue that count for its 64 places and for TQWAIT (R326, R339, R344). -/
def TileCmd.counted (c : TileCmd) : Bool :=
  match c.kind with
  | .task | .dupd | .dqry | .spill | .fill => true
  | _ => false
def Gang.tqCount (g : Gang) : Nat := (g.tileQ.filter TileCmd.counted).length

/-- Has every RKINIT issued before command `seq` been performed (R309)? -/
def Gang.rinksSet (g : Gang) (seq : Nat) : Bool := !(g.rkOps.any fun r => r.seq < seq)

/-- A command is taken out of the queue. -/
def State.dropCmd (s : State) (gid seq : Nat) : State :=
  s.modGang gid fun g => { g with tileQ := g.tileQ.filter fun c => c.seq != seq }

/-- A command is added. -/
def State.addCmd (s : State) (gid : Nat) (c : TileCmd) : State :=
  s.modGang gid fun g => { g with tileQ := g.tileQ ++ [c] }

/-- Every tile of the footprint has a physical tile, those that lack one being found now (R331). -/
def State.mapCmd (s : State) (g : Gang) (c : TileCmd) : Option State :=
  (c.foot.filter (256 ≤ ·)).foldl (fun (s? : Option State) (x : Nat) => s?.bind fun s => (s.mapTile g (x - 256)).map (·.2)) (some s)

def State.cmd? (s : State) (gid seq : Nat) : Option (Gang × TileCmd) :=
  (s.gang? gid).bind fun g => (g.tileQ.find? fun c => c.seq == seq).map fun c => (g, c)

/-- Tiles of a gang pinned under a handle, in the order of place, and bound to it (R346); refused where R346 says so. -/
def State.runPin (s : State) (g : Gang) (c : TileCmd) : State :=
  let t0 := nfld c.head.toNat 0 1
  let m := stateSize c.dv c.dk
  let own := c.foot.all fun p => (s.tile? g.cluster p).any fun t => match t.st with | .gangOwned id _ => id == g.id | _ => false
  if c.handle == 0 || c.head.toNat / 2 ^ 12 != 0 || (s.stateRec? (s.gangCtx g) c.handle).isSome || 256 < t0 + m || !own then
    s.abortGang g.id { code := 0x82, pc := c.pc }
  else
    let s := c.foot.zipIdx.foldl (fun (s : State) x => s.modTile g.cluster x.1 fun t => { t with st := .pinned c.handle x.2 }) s
    let r : StateRec :=
      { ctx := s.gangCtx g, handle := c.handle, dv := c.dv, dk := c.dk, tokens := 0, place := .cluster g.cluster
        bound := some (g.id, t0) }
    { s with states := s.states ++ [r] }

/-- An accumulator word performed by the scheduler (R345 to R347); a poisoned one that is read aborts the gang (R386). -/
def State.runAcc (s : State) (g : Gang) (c : TileCmd) : State :=
  let ps := c.foot
  let p := ps.headD 0
  let s : State := match c.kind with
    | .accz => ps.foldl (fun (s : State) (p : Nat) => s.modTile g.cluster p fun t => { t with data := [], poison := [] }) s
    | .accrd wave pid word =>
      if s.wordBad g.cluster p word then s.abortGang g.id { code := 0x80, pc := c.pc }
      else s.resolve wave pid [s.tileWord g.cluster p word] 0 none
    | .accwr ws => ws.foldl (fun (s : State) (x : Nat × Word) => s.setTileWord g.cluster p x.1 x.2) s
    | .pin => s.runPin g c
    | .unpin =>
      let s := s.freeTile g.cluster ps
      { s with states := s.states.filter fun r => !(r.ctx == s.gangCtx g && r.handle == c.handle) }
    | _ => s
  s.dropCmd g.id c.seq

/-- The accumulator words that may be performed now, earliest first (R327). -/
def State.runAccs (gid : Nat) : Nat → State → State
  | 0, s => s
  | n + 1, s =>
    match s.gang? gid with
    | none => s
    | some g =>
      if g.place.isNone || g.st != .live then s else
      match g.tileQ.findSome? fun c =>
        if !c.counted && g.clearFor c && g.rinksSet c.seq then (s.mapCmd g c).map fun t => (t, c.seq) else none with
      | none => s
      | some (t, seq) => match t.cmd? gid seq with
        | some (g, c) => State.runAccs gid n (t.runAcc g c)
        | none => s

/-- The accumulator words of a gang performed as far as their order allows. -/
def State.drainAcc (s : State) (gid : Nat) : State :=
  State.runAccs gid (((s.gang? gid).map fun g => g.tileQ.length).getD 0) s

/-- The accumulator words of every gang, after tiles have become free (R331). -/
def State.drainAll (s : State) : State := s.gangs.foldl (fun (s : State) (g : Gang) => s.drainAcc g.id) s

/-- Do two gangs use one table of tensor identifiers (R146)? -/
def State.sameTable (s : State) (g h : Gang) : Bool :=
  s.gangCtx g == s.gangCtx h && (s.launchOf g).tidTable == (s.launchOf h).tidTable

/-- Does the operation write its entry? -/
def TidOp.writes (o : TidOp) : Bool := match o.act with | .get _ _ _ => false | _ => true

/-- Has every TIDSET and TIDINV of these entries issued before command `seq` of the gang been performed (R150)? -/
def State.tidsSet (s : State) (g : Gang) (seq : Nat) (tids : List Nat) : Bool :=
  !(s.gangs.any fun h => s.sameTable g h && h.tidOps.any fun o => o.seq < seq && tids.contains o.entry && o.writes)

/-- May the command start: no earlier one conflicts, and no RKINIT or TIDSET issued before it waits (R150, R309, R327)? -/
def State.mayStart (s : State) (g : Gang) (c : TileCmd) : Bool :=
  !c.started && g.clearFor c && g.rinksSet c.seq && s.tidsSet g c.seq c.tids

/-- A command that stops as it starts. -/
def State.cmdStop (s : State) (g : Gang) (c : TileCmd) (e : EngStop) : State :=
  s.engStop g c.pc c.joined (fun p t => t.modGang g.id fun g =>
    { g with tileQ := modBy g.tileQ (fun d => d.seq == c.seq) fun d => { d with joined := some p } }) e

/-- A command completes (R204, R327): it leaves the queue, and what waited for it goes on. -/
def State.cmdDone (s : State) (gid seq : Nat) : State := (s.dropCmd gid seq).drainAll.settle gid

/-! ## Signals (R283, R370) -/

/-- A signal object lowered at its line's home, by a unit of die `d` (R283). A poisoned word stays poisoned (R386). -/
def State.sigSub (s : State) (d pa amount : Nat) : State :=
  let old := lineNat (s.homeView (pa / 64)) (pa % 64) 8
  s.unitWrite d (lineWrite pa 8 ((old + 2 ^ 64 - amount % 2 ^ 64) % 2 ^ 64))

end Sys2Proof.Machine
end

