-- ==== Sys2Proof/Machine/LiftQueue.lean ====
section
/-! DEFINITION. The lift's queues (spec/22 R311 to R317): the entry a queue stands at, whether it waits there, and how a
queue goes on; collectives as far as a queue waits for their members (R315, R379). -/

namespace Sys2Proof.Machine

/-! ## Entries (R312, R313) -/

def entryKind (x : Nat) : Nat := nfld x 0 1

/-- Bit `i` of an entry's flags. -/
def entryFlag (x i : Nat) : Bool := nfld x 1 1 / 2 ^ i % 2 == 1

/-- The kinds that may be held (R318), and whether an entry is. -/
def holdable (k : Nat) : Bool := k == 1 || k == 2 || k == 3 || k == 5 || k == 6
def entryHeld (x : Nat) : Bool := holdable (entryKind x) && entryFlag x 1

/-- Are these bytes (offset, number) zero? -/
def zeroBytes (x : Nat) (rs : List (Nat × Nat)) : Bool := rs.all fun r => nfld x r.1 r.2 == 0

/-- A word offset in the scratchpad: aligned, and inside the allocation. -/
def State.wordOffset (s : State) (g : Gang) (o n : Nat) : Bool := o % 4 == 0 && o + 4 * n ≤ s.spadBytes g

/-- The must-be-zero bytes and the ranges of an entry (R313, R316). -/
def State.entryOk (s : State) (g : Gang) (x : Nat) : Bool :=
  let fl := nfld x 1 1
  match entryKind x with
  | 0 => x == 0
  | 1 => fl / 16 == 0 && zeroBytes x [(2, 2), (24, 8)] && (!entryFlag x 0 || entryFlag x 3)
  | 2 | 3 => fl / 16 == 0 && 4 ≤ nfld x 2 2 && nfld x 2 2 ≤ 4096 && nfld x 2 2 % 4 == 0
      && s.wordOffset g (nfld x 24 4) (nfld x 4 4) && nfld x 28 4 % 4 == 0 && (!entryFlag x 0 || entryFlag x 3)
  | 4 => fl / 2 == 0 && zeroBytes x [(6, 26)]
  | 5 => (fl == 0 || fl == 2) && nfld x 2 1 ≤ 2 && nfld x 3 1 ≤ 2 && zeroBytes x [(28, 4)]
  | 6 => (fl == 0 || fl == 2) && zeroBytes x [(2, 2), (28, 4)]
  | 7 => fl / 2 == 0 && nfld x 2 1 != 0 && nfld x 4 4 != 0 && zeroBytes x [(24, 8)]
      && (if entryFlag x 0 then nfld x 3 1 ≤ 15 && (g.rink (nfld x 3 1)).count != 0 else nfld x 3 1 == 0)
  | 8 => fl ≤ 3 && 1 ≤ nfld x 2 2 && nfld x 2 2 ≤ 255 && zeroBytes x [(11, 21)]
      && (if fl ≤ 1 then s.wordOffset g (nfld x 4 4) 1 else g.stageOk (nfld x 8 1) (nfld x 9 1) && nfld x 10 1 ≤ 1)
  | 9 => zeroBytes x [(1, 1), (5, 27)] && g.stageOk (nfld x 2 1) (nfld x 3 1) && nfld x 4 1 ≤ 1
  | 10 => zeroBytes x [(1, 1), (4, 28)] && g.stageOk (nfld x 2 1) (nfld x 3 1)
  | 11 => zeroBytes x [(1, 3), (16, 16)] && nfld x 8 8 % 8 == 0
  | 12 => zeroBytes x [(1, 3), (5, 27)] && nfld x 4 1 < 16
  | _ => false

/-- An entry of a chain: the lift's working copy of it, or what the scratchpad holds (R311, R314); none outside the
allocation, or where a word of it is poisoned (R386). -/
def State.entryAt (s : State) (g : Gang) (k : Walk) (pos : Nat) : Option Nat :=
  match k.copy.lookup pos with
  | some x => some x.toNat
  | none => if pos + 32 ≤ s.spadBytes g && !(g.spadBad pos 32) then some (Memory.readNat g.spad pos 32) else none

/-- The entry a queue stands at: as read when the queue reached it, or read now (R311). -/
def State.entryHere (s : State) (g : Gang) (k : Walk) : Option Nat :=
  match k.cur with
  | some x => some x.toNat
  | none => s.entryAt g k k.pos

/-! ## Queues -/

def Gang.liftQ (g : Gang) (q : Nat) : LiftQ := g.queues.getD q {}

def State.modLiftQ (s : State) (gid q : Nat) (f : LiftQ → LiftQ) : State :=
  s.modGang gid fun g => { g with queues := g.queues.modify q f }

/-- An idle queue takes its next chain, unless an RKINIT issued before it has not been performed (R309, R311). -/
def Gang.nextChain (g : Gang) (q : Nat) : Gang :=
  { g with queues := g.queues.modify q fun x =>
      match x.walk, x.held with
      | none, c :: cs => if g.rkOps.any fun r => r.seq < c.seq then x else { x with walk := some { chain := c, pos := c.start }, held := cs }
      | _, _ => x }

def Gang.nextChains (g : Gang) : Gang := (List.range 4).foldl Gang.nextChain g

/-- What a QFENCE waits for: the entries the named queues had taken when it was reached (R205). -/
def Gang.fenceOf (g : Gang) (q mask : Nat) : List (Nat × Nat) :=
  ((List.range 4).filter fun i => i != q && mask / 2 ^ i % 2 == 1).map fun i =>
    (i, (g.liftQ i).taken + bitTo (g.liftQ i).walk.isSome)
def Gang.fenceMet (g : Gang) (ts : List (Nat × Nat)) : Bool := ts.all fun t => t.2 ≤ (g.liftQ t.1).taken

/-! ## Collectives (R315, R379) -/

/-- What a collective's table entry holds: its members and this module's rank. -/
structure CollTable where
  members : Nat
  rank    : Nat
  pas     : List Nat

/-- The table's entry for a collective of a context, read by the engines of a gang; one that breaks R379 cannot be performed. -/
def State.collTable (s : State) (g : Gang) (num : Nat) : Except EngStop CollTable :=
  match (s.ctxOf (s.launchOf g)).colls with
  | none => engProt
  | some a =>
    if 256 ≤ num then engProt else
    match s.engRead g false (a + 64 * num) 64 with
    | .error e => .error e
    | .ok r =>
      let x := bytesNat r.bytes
      if 2 ≤ nfld x 0 1 && nfld x 0 1 ≤ 16 && nfld x 1 1 < nfld x 0 1 && nfld x 4 4 != 0 && zeroBytes x [(24, 40)] then
        .ok { members := nfld x 0 1, rank := nfld x 1 1, pas := r.pas }
      else engProt

def State.coll? (s : State) (ctx num : Nat) : Option Coll := s.colls.find? fun c => c.ctx == ctx && c.num == num

def State.putColl (s : State) (c : Coll) : State :=
  { s with colls := c :: s.colls.filter fun x => !(x.ctx == c.ctx && x.num == c.num) }

def State.dropColl (s : State) (ctx num : Nat) : State :=
  { s with colls := s.colls.filter fun x => !(x.ctx == ctx && x.num == num) }

/-- Has every other member arrived? -/
def Coll.full (c : Coll) (t : CollTable) : Bool :=
  (List.range t.members).all fun m => m == t.rank || c.arrived.any fun a => a.member == m

/-- Does the queue wait for a collective's members: for its own collective's, or for another entry of it to complete? -/
def State.collWaits (s : State) (g : Gang) (q num : Nat) : Bool :=
  match s.coll? (s.gangCtx g) num, s.collTable g num with
  | some c, .ok t => (c.here.any fun h => h != (g.id, q)) || !(c.full t)
  | none, .ok _ => true
  | _, .error _ => false

/-- The queue leaves the collective it waits at (R342). -/
def State.leaveColl (s : State) (g : Gang) (q : Nat) : State :=
  let colls := modBy s.colls (fun c => c.ctx == s.gangCtx g && c.here == some (g.id, q)) fun c => { c with here := none }
  { s with colls := colls }

/-! ## Waiting (R317, R341) -/

/-- Does the entry that the queue has reached wait: WAITPH, a held entry, QFENCE, or a collective's members? -/
def State.entryWaits (s : State) (g : Gang) (q : Nat) (k : Walk) : Bool :=
  match k.cur.map BitVec.toNat with
  | none => false
  | some x =>
    s.entryOk g x && (entryHeld x || match entryKind x with
      | 9 => g.phase (nfld x 2 1) (nfld x 3 1) != (nfld x 4 1 == 1)
      | 12 => !(g.fenceMet (k.fence.getD (g.fenceOf q (nfld x 4 1))))
      | 5 | 6 => s.collWaits g q (nfld x 24 4)
      | _ => false)

/-- Does a queue wait (R317)? -/
def State.queueWaits (s : State) (g : Gang) (q : Nat) : Bool :=
  match (g.liftQ q).walk with
  | none => false
  | some k => s.entryWaits g q k

/-! ## Performing an entry -/

/-- How an entry ends: not performed yet, stopped, performed with the walk going on as given, the chain's end, or with the
gang ended. -/
inductive EntryEnd where
  | stay (s : State) (k : Walk)
  | stop (e : EngStop)
  | go (s : State) (k : Walk)
  | finish (s : State)
  | quit (s : State)

/-- The walk at the entry `n` entries on, which the lift has still to read. -/
def Walk.skip (k : Walk) (n : Nat) : Walk :=
  { k with pos := k.pos + 32 * n, cur := none, fence := none, joined := none, commit := false }

/-- An entry whose effect is a change of the state, or a stop. -/
def EntryEnd.ofExcept (k : Walk) : Except EngStop State → EntryEnd
  | .ok s => .go s (k.skip 1)
  | .error e => .stop e

/-- The walk of an ended gang's queue whose entry can complete no more is over (R258). -/
def State.dropWalk (s : State) (g : Gang) (q : Nat) : State :=
  if g.st == .live then s else s.modLiftQ g.id q fun x => { x with walk := none }

/-- The queue after an entry. -/
def State.endEntry (s : State) (g : Gang) (q : Nat) (k : Walk) (e : EntryEnd) : State :=
  let next (t : State) : State := (t.modGang g.id fun g => g.nextChain q).settle g.id
  match e with
  | .stay t k => t.modLiftQ g.id q fun x => { x with walk := some k }
  | .quit t => t.dropWalk g q
  | .stop e =>
    let t := s.engStop g k.chain.pc k.joined
      (fun p t => t.modLiftQ g.id q fun x => { x with walk := some { k with joined := some p } }) e
    match e with
    | .abort _ _ | .feat _ => t.dropWalk g q
    | _ => t
  | .go t k' =>
    next (t.modLiftQ g.id q fun x => { x with walk := if k.stop then none else some k', taken := x.taken + 1 })
  | .finish t =>
    next (t.modLiftQ g.id q fun x =>
      { x with walk := none, taken := x.taken + 1, done := if k.stop then x.done else x.done + 1 })

/-- The event of an entry of one of `kinds`: the queue's current entry is read if it has not been, and is performed if it is of
such a kind, is not held and is one that can be performed (R311, R316, R318). An entry outside the allocation, or a poisoned one,
has no kind, and END's event finds it. While a pre-emption is asked for, or once the gang has been ended, only an entry that has started to act
goes on (R258, R269). -/
def State.runEntry (s : State) (gid q : Nat) (kinds : Nat → Bool) (f : Gang → Walk → Nat → EntryEnd) : State :=
  match s.gang? gid with
  | none => s
  | some g =>
    match (g.liftQ q).walk with
    | none => s
    | some k =>
      if !(s.engineOn g || (s.placeOn g && k.commit)) then s else
      match s.entryHere g k with
      | none =>
        if kinds 0 then s.engAbort g.id (if k.pos + 32 ≤ s.spadBytes g then 0x80 else 0x82) 0xFFFF k.chain.pc else s
      | some x =>
        let k := { k with cur := some (BitVec.ofNat 256 x) }
        let t := s.modLiftQ g.id q fun y => { y with walk := some k }
        if !(kinds (entryKind x)) then s
        else if !(s.entryOk g x) then s.engAbort g.id 0x82 0xFFFF k.chain.pc
        else if entryHeld x then t
        else t.endEntry g q k (f g k x)

end Sys2Proof.Machine
end

