-- ==== Sys2Proof/Machine/Lift.lean ====
section
/-! DEFINITION. The lift (spec/21 R299, spec/22 R311 to R318, spec/24 R340 to R342): LIFT, LIFTST and LIFTABT, and the
entries of a chain; REDUCE and ALLGATHER stand in Collective.lean. -/

namespace Sys2Proof.Machine

/-! ## The words (R340 to R342) -/

def liftCheck (q : BitVec 2) (a : Reg) (s : State) (_ : Issue) (w : Wave) (_ : Nat) : Verdict :=
  (s.recordCheck w (s.uni w a).toNat 32 32).andThen
    (if 8 ≤ ((s.gangOf w).liftQ q.toNat).held.length then .wait else .go)

/-- A chain started (R340): FMODE is captured (R144), ABT is cleared, and an idle queue takes the chain. -/
def liftAct (q : BitVec 2) (a : Reg) (s : State) (c : Issue) (w : Wave) (_ : LaneMask) : State :=
  let (seq, t) := s.newId
  let x : LiftChain := { seq, start := (s.uni w a).toNat, fmode := w.fmode, pc := c.wordPc }
  (t.modLiftQ w.gang q.toNat fun y => { y with held := y.held ++ [x], abt := false }).modGang w.gang
    fun g => g.nextChain q.toNat

/-- The number of the queue LIFTST names. -/
def queueNo : StQueue → Nat
  | .q0 => 0 | .q1 => 1 | .q2 => 2 | .q3 => 3 | .bin => 4

/-- The status word of a queue (R341). -/
def State.liftStatus (s : State) (g : Gang) (q : Nat) : Nat :=
  if q == 4 then g.binDone.toNat * 2 ^ 16 + bitTo (!g.bins.isEmpty)
  else
    let x := g.liftQ q
    x.done.toNat * 2 ^ 16 + x.held.length * 2 ^ 4 + 4 * bitTo x.abt + 2 * bitTo (s.queueWaits g q) + bitTo x.walk.isSome

def liftstAct (d : Reg) (q : StQueue) (s : State) (_ : Issue) (w : Wave) (m : LaneMask) : State :=
  s.pendAll w m d (BitVec.ofNat 32 (s.liftStatus (s.gangOf w) (queueNo q)))

/-- Is the entry one that moves data: one the queue has reached, that does not wait and is no step of the walk alone (R342)? -/
def State.entryMoves (s : State) (g : Gang) (q : Nat) (k : Walk) : Bool :=
  match k.cur.map BitVec.toNat with
  | none => false
  | some x => [1, 2, 3, 4, 5, 6, 11].contains (entryKind x) && !(s.entryWaits g q k)

/-- A queue stopped (R342): the chains not yet reached are discarded, an entry that moves data completes and its chain goes no
further, and any other entry is dropped. -/
def State.liftStop (s : State) (gid q : Nat) : State :=
  match s.gang? gid with
  | none => s
  | some g =>
    let x := g.liftQ q
    match x.walk with
    | none => if x.held.isEmpty then s else s.modLiftQ gid q fun y => { y with held := [], abt := true }
    | some k =>
      if s.entryMoves g q k then s.modLiftQ gid q fun y => { y with walk := some { k with stop := true }, held := [], abt := true }
      else (s.leaveColl g q).modLiftQ gid q fun y => { y with walk := none, held := [], abt := true, taken := y.taken + 1 }

def liftabtAct (q : BitVec 2) (s : State) (_ : Issue) (w : Wave) (_ : LaneMask) : State := s.liftStop w.gang q.toNat

/-- LIFT (R340). -/
def execLift (q : BitVec 2) (a : Reg) (s : State) : Host.Outcome State Fault Refusal :=
  runWord (.lift q a) { check := liftCheck q a, act := liftAct q a } s

/-- LIFTST (R341). -/
def execLiftst (d : Reg) (q : StQueue) (s : State) : Host.Outcome State Fault Refusal :=
  runWord (.liftst d q) { act := liftstAct d q } s

/-- LIFTABT (R342). -/
def execLiftabt (q : BitVec 2) (s : State) : Host.Outcome State Fault Refusal :=
  runWord (.liftabt q) { act := liftabtAct q } s

/-! ## END (R299) -/

def execEndEntry (gang queue : Nat) (s : State) : Host.Outcome State Fault Refusal :=
  .next (s.runEntry gang queue (fun k => k == 0 || 12 < k) fun _ _ _ => .finish s)

/-! ## COPY, GATHER, SCATTER (R299, R313) -/

/-- Bytes read, and written at `w`, by a command whose writes are the gang's (R261). -/
def State.engMove (s : State) (g : Gang) (fill : Bool) (pas : List Nat) (w : EngWrite) : Except EngStop State :=
  (s.engReplies g pas).engWrite g fill w

def State.copyEntry (s : State) (g : Gang) (x : Nat) : Except EngStop State := do
  let r ← s.engRead g (entryFlag x 2) (nfld x 8 8) (nfld x 4 4)
  let w ← s.engTarget g (entryFlag x 3) (nfld x 16 8) r.bytes
  s.engMove g (entryFlag x 0) r.pas w

/-- The index words of a GATHER or SCATTER. -/
def entryIndices (g : Gang) (x : Nat) : List Nat :=
  (List.range (nfld x 4 4)).map fun k => Memory.readNat g.spad (nfld x 24 4 + 4 * k) 4

/-- GATHER: destination + k·size from source + idx[k]·stride. -/
def State.gatherEntry (s : State) (g : Gang) (x : Nat) : Except EngStop State := do
  engClean (g.spadBad (nfld x 24 4) (4 * nfld x 4 4))
  let rs ← engAll (fun i => s.engRead g (entryFlag x 2) (nfld x 8 8 + i * nfld x 28 4) (nfld x 2 2)) (entryIndices g x)
  let w ← s.engTarget g (entryFlag x 3) (nfld x 16 8) (rs.flatMap (·.bytes))
  s.engMove g (entryFlag x 0) (rs.flatMap (·.pas)) w

/-- SCATTER: destination + idx[k]·stride from source + k·size, the higher k kept where targets overlap. -/
def State.scatterEntry (s : State) (g : Gang) (x : Nat) : Except EngStop State := do
  engClean (g.spadBad (nfld x 24 4) (4 * nfld x 4 4))
  let n := nfld x 2 2
  let r ← s.engRead g (entryFlag x 2) (nfld x 8 8) (n * nfld x 4 4)
  let ws ← engAll (fun (p : Nat × Nat) =>
    s.engTarget g (entryFlag x 3) (nfld x 16 8 + p.1 * nfld x 28 4) ((r.bytes.drop (n * p.2)).take n)) (entryIndices g x).zipIdx
  s.engMove g (entryFlag x 0) r.pas (ws.foldl EngWrite.append {})

/-- COPY_ENTRY (R299). -/
def execCopyEntry (gang queue : Nat) (s : State) : Host.Outcome State Fault Refusal :=
  .next (s.runEntry gang queue (· == 1) fun g k x => .ofExcept k (s.copyEntry g x))

/-- GATHER_ENTRY (R313). -/
def execGatherEntry (gang queue : Nat) (s : State) : Host.Outcome State Fault Refusal :=
  .next (s.runEntry gang queue (· == 2) fun g k x => .ofExcept k (s.gatherEntry g x))

/-- SCATTER_ENTRY (R313). -/
def execScatterEntry (gang queue : Nat) (s : State) : Host.Outcome State Fault Refusal :=
  .next (s.runEntry gang queue (· == 3) fun g k x => .ofExcept k (s.scatterEntry g x))

/-! ## TRANSQ (R145, R313) -/

/-- A protection fault that names a TID, unless `b` holds (R149). -/
def tidCheck (tid : Nat) (b : Bool) : Except EngStop Unit := if b then .ok () else .error (.abort 0x82 tid)

/-- The element positions of a destination, by blocks along its scale dimension; an unscaled one has blocks of one element. -/
def Tensor.blocks (t : Tensor) : List (List (Nat × Nat)) :=
  let e0 := t.ext.getD 0 1
  let e1 := t.ext.getD 1 1
  let b := if t.sblk == 0 then 1 else t.sblk
  if t.sdim == 0 then
    (List.range e1).flatMap fun j => (List.range ((e0 + b - 1) / b)).map fun n =>
      (List.range (min b (e0 - n * b))).map fun i => (n * b + i, j)
  else
    (List.range e0).flatMap fun i => (List.range ((e1 + b - 1) / b)).map fun n =>
      (List.range (min b (e1 - n * b))).map fun j => (i, n * b + j)

/-- A block of outputs written as elements of `dst` with their scale code (R145, R329). -/
def State.blockTarget (s : State) (g : Gang) (dst : Tensor) (ps : List (Nat × Nat)) (code : Nat) (bits : List Nat) :
    Except EngStop EngWrite := do
  let ws ← engAll (fun (p : (Nat × Nat) × Nat) => s.elemTarget g dst p.1.1 p.1.2 p.2) (ps.zip bits)
  let c ← match ps with
    | [] => .ok {}
    | p :: _ => s.scaleTarget g dst p.1 p.2 code
  .ok ((ws ++ [c]).foldl EngWrite.append {})

/-- The formats the requantising unit accepts as sources and as destinations (R145). -/
def requantSource (f : Nat) : Bool := f == 4 || f == 5 || f == 12 || f == 16 || f == 17
def requantDest (f : Nat) : Bool := f == 4 || f == 5 || f == 12

/-- A block of a destination that carries scales: requantised. -/
def State.transqBlock (s : State) (g : Gang) (fmode : BitVec 6) (src dst : Tensor) (ps : List (Nat × Nat)) :
    Except EngStop (EngWrite × List Nat × Flags) := do
  let es ← engAll (fun (p : Nat × Nat) => s.elem g src p.2 p.1) ps
  let (code, bits, fl) := requant dst.fmt (outRounding fmode false) (es.map Elem.value)
  let w ← s.blockTarget g dst ps code bits
  .ok (w, es.flatMap (·.pas), es.foldl (fun f e => f ||| e.flags) fl)

/-- A T3 byte as its five digits: zeros where no code stands (R132). -/
def t3Byte (x : Nat) : Nat := if 243 ≤ x then 0 else x

/-- The bits of an element as they lie in memory: a digit of T3, else its bytes. -/
def rawElem (t : Tensor) (i j x : Nat) : Nat := if t.fmt == 16 then t3Byte x / 3 ^ t.digit i j % 3 else x

/-- A digit of a T3 byte replaced. -/
def putDigit (x n v : Nat) : Nat := x - x / 3 ^ n % 3 * 3 ^ n + v * 3 ^ n

/-- Elements of an unscaled destination from their bits. T3 bytes keep the digits that no element replaces. -/
def State.rawTargets (s : State) (g : Gang) (dst : Tensor) (xs : List ((Nat × Nat) × Nat)) : Except EngStop EngWrite := do
  if dst.fmt == 16 then
    let places := xs.map fun x => (dst.addr x.1.1 x.1.2, dst.digit x.1.1 x.1.2, x.2)
    let ws ← engAll (fun (a : Option Nat) => do
      let r ← s.engReadAt g dst.tid dst.sp a 1
      let y := (places.filter fun p => p.1 == a).foldl (fun y p => putDigit y p.2.1 p.2.2) (t3Byte (bytesNat r.bytes))
      s.engTarget g dst.sp (a.getD 0) (natBytes 1 y)) ((places.map (·.1)).eraseDups)
    .ok (ws.foldl EngWrite.append {})
  else
    let ws ← engAll (fun (x : (Nat × Nat) × Nat) => s.elemTarget g dst x.1.1 x.1.2 x.2) xs
    .ok (ws.foldl EngWrite.append {})

/-- An element of an unscaled destination: its source's bits where the formats are the same and no scale applies; the spec
states no value otherwise (notes/assumptions/20.md). The source's place, and FV for a T3 code above 242 (R132). -/
def State.transqRaw (s : State) (g : Gang) (src dst : Tensor) (x : (Nat × Nat) × Nat) :
    Except EngStop (((Nat × Nat) × Nat) × List Nat × Flags) := do
  let r ← s.engReadAt g src.tid src.sp (src.addr x.1.2 x.1.1) src.bytes
  let v := if src.fmt == dst.fmt && src.sblk == 0 then rawElem src x.1.2 x.1.1 (bytesNat r.bytes)
    else (Config.freeWord s.fresh (2 * x.2)).toNat + 2 ^ 32 * (Config.freeWord s.fresh (2 * x.2 + 1)).toNat
  .ok ((x.1, if dst.fmt == 16 then v % 3 else v), r.pas, (elemValue src.fmt 0 (bytesNat r.bytes)).2)

/-- TRANSQ: element (i, j) of the destination from element (j, i) of the source. It waits for a TIDSET issued before its
chain started (R150). -/
def State.transqEntry (s : State) (g : Gang) (k : Walk) (x : Nat) : Except EngStop State := do
  if s.tidsSet g k.chain.seq [nfld x 2 2, nfld x 4 2] then .ok () else .error .wait
  s.engFeat g .req
  let (src, p1) ← s.tensor g (nfld x 2 2)
  let (dst, p2) ← s.tensor g (nfld x 4 2)
  tidCheck dst.tid (!dst.ro && dst.rank == 2 && dst.ext.getD 0 1 == src.ext.getD 1 1 && dst.ext.getD 1 1 == src.ext.getD 0 1)
  tidCheck dst.tid (!entryFlag x 0 || dst.sp)
  if dst.sblk != 0 then
    tidCheck src.tid (requantSource src.fmt)
    tidCheck dst.tid (requantDest dst.fmt)
    let bs ← engAll (s.transqBlock g k.chain.fmode src dst) dst.blocks
    let t ← s.engMove g (entryFlag x 0) (p1 ++ p2 ++ bs.flatMap (·.2.1)) (bs.foldl (fun w b => w.append b.1) {})
    .ok (t.raiseFlags g.id (bs.foldl (fun f b => f ||| b.2.2) 0))
  else
    let es ← engAll (s.transqRaw g src dst) dst.blocks.flatten.zipIdx
    let w ← s.rawTargets g dst (es.map (·.1))
    let t ← s.engMove g (entryFlag x 0) (p1 ++ p2 ++ es.flatMap (·.2.1)) w
    .ok (t.freshen.raiseFlags g.id (es.foldl (fun f e => f ||| e.2.2) 0))

/-- TRANSQ_ENTRY (R313). -/
def execTransqEntry (gang queue : Nat) (s : State) : Host.Outcome State Fault Refusal :=
  .next (s.runEntry gang queue (· == 4) fun g k x => .ofExcept k (s.transqEntry g k x))

/-! ## LOOP and IF (R313, R314) -/

/-- A side of a body's entry before the next pass: one stage on in the ring of a scratchpad side that lies in it, else one
step on. -/
def stepSide (ring : Option Rink) (sp : Bool) (step x o : Nat) : Nat :=
  let a := nfld x o 8
  match ring with
  | some r =>
    if sp && decide (r.base ≤ a) && decide (a < r.base + r.size * r.count) then
      setNfld x o 8 (r.base + (a - r.base + r.size) % (r.size * r.count))
    else setNfld x o 8 (a + step)
  | none => setNfld x o 8 (a + step)

/-- The stage of an entry that names the ring, one on. -/
def stepStage (ring : Option (Nat × Rink)) (x o : Nat) : Nat :=
  match ring with
  | some (r, d) => if nfld x o 1 == r then setNfld x (o + 1) 1 ((nfld x (o + 1) 1 + 1) % d.count) else x
  | none => x

/-- An entry of the body before the next pass. -/
def stepEntry (ring : Option (Nat × Rink)) (ss ds x : Nat) : Nat :=
  match entryKind x with
  | 1 | 2 | 3 =>
    let r := ring.map (·.2)
    stepSide r (entryFlag x 3) ds (stepSide r (entryFlag x 2) ss x 8) 16
  | 8 => if 2 ≤ nfld x 1 1 then stepStage ring x 8 else x
  | 9 | 10 => stepStage ring x 2
  | _ => x

/-- LOOP: the next pass of its body, or on after it. An entry of the body that the scratchpad holds poisoned is read all the same
(R386). -/
def State.loopEntry (s : State) (g : Gang) (k : Walk) (x : Nat) : EntryEnd :=
  let n := nfld x 2 1
  let r := nfld x 3 1
  let ring := if entryFlag x 0 then some (r, g.rink r) else none
  let body := (List.range n).map fun i => k.pos - 32 * n + 32 * i
  let es := body.map fun o => (o, s.entryAt g k o)
  if k.pos < k.chain.start + 32 * n || (es.any fun e => e.2.any fun y => entryKind y == 7 || entryHeld y) then
    .stop (.abort 0x82)
  else if es.any fun e => e.2.isNone then .stop (.abort 0x80)
  else
    let pass := (k.passes.lookup k.pos).getD 0 + 1
    let keep := k.copy.filter fun c => !body.contains c.1
    if pass < nfld x 4 4 then
      let new := es.map fun e => (e.1, BitVec.ofNat 256 (stepEntry ring (nfld x 8 8) (nfld x 16 8) (e.2.getD 0)))
      .go s { k.skip 0 with
        pos := k.pos - 32 * n, copy := keep ++ new
        passes := (k.pos, pass) :: k.passes.filter fun p => p.1 != k.pos }
    else .go s { k.skip 1 with copy := keep, passes := k.passes.filter fun p => p.1 != k.pos }

/-- The condition of an IF. -/
def ifTrue (g : Gang) (x : Nat) : Bool :=
  let word := Memory.readNat g.spad (nfld x 4 4) 4
  let ph := g.phase (nfld x 8 1) (nfld x 9 1) == (nfld x 10 1 == 1)
  match nfld x 1 1 with
  | 0 => word != 0
  | 1 => word == 0
  | 2 => ph
  | _ => !ph

/-- LOOP_ENTRY (R314). -/
def execLoopEntry (gang queue : Nat) (s : State) : Host.Outcome State Fault Refusal :=
  .next (s.runEntry gang queue (· == 7) fun g k x => s.loopEntry g k x)

/-- IF_ENTRY (R313). -/
def execIfEntry (gang queue : Nat) (s : State) : Host.Outcome State Fault Refusal :=
  .next (s.runEntry gang queue (· == 8) fun g k x =>
    if nfld x 1 1 ≤ 1 && g.spadBad (nfld x 4 4) 4 then .stop (.abort 0x80)
    else .go s (k.skip (if ifTrue g x then 1 else 1 + nfld x 2 2)))

/-! ## WAITPH, FLIP, SIGDEC, QFENCE (R205, R283, R310, R313) -/

/-- WAITPH_ENTRY (R313). -/
def execWaitphEntry (gang queue : Nat) (s : State) : Host.Outcome State Fault Refusal :=
  .next (s.runEntry gang queue (· == 9) fun g k x =>
    if g.phase (nfld x 2 1) (nfld x 3 1) == (nfld x 4 1 == 1) then .go s (k.skip 1) else .stay s k)

/-- FLIP_ENTRY (R299, R310). -/
def execFlipEntry (gang queue : Nat) (s : State) : Host.Outcome State Fault Refusal :=
  .next (s.runEntry gang queue (· == 10) fun g k x =>
    .go (s.modGang g.id fun g => g.flip (nfld x 2 1) (nfld x 3 1)) (k.skip 1))

/-- The physical address of a signal object in device memory that an engine of the gang lowers (R283). -/
def State.signalPa (s : State) (g : Gang) (va : Nat) : Except EngStop Nat := do
  let pas ← s.engPasDirect g va 8
  let pa := pas.headD 0
  if !(s.deviceFrame pa) then engProt else if s.consumes g.id pa 8 then .error (.abort 0x80) else .ok pa

/-- SIGDEC: in a versioned gang a commit comes first, and it is performed everywhere before the signal is lowered (R262). -/
def State.sigdecEntry (s : State) (g : Gang) (k : Walk) (x : Nat) : EntryEnd :=
  let lower (t : State) : EntryEnd :=
    match t.signalPa g (nfld x 8 8) with
    | .ok pa => .go ((t.sigSub g.die pa (nfld x 4 4)).setCommitted g.id) (k.skip 1)
    | .error e => .stop e
  if !(s.versioned g) then lower s
  else if k.commit then (if (s.publishedBy g.id).isEmpty then lower s else .stay s k)
  else if g.gate then .stay s k
  else match s.signalPa g (nfld x 8 8) with
    | .error e => .stop e
    | .ok _ =>
      if s.commitRemote g && !(s.canPublish g.die) then .stay s k
      else if s.commitRemote g then .stay (s.commit g.id g.id) { k with commit := true }
      else lower (s.commit g.id g.id)

/-- SIGDEC_ENTRY (R313). -/
def execSigdecEntry (gang queue : Nat) (s : State) : Host.Outcome State Fault Refusal :=
  .next (s.runEntry gang queue (· == 11) fun g k x => s.sigdecEntry g k x)

/-- QFENCE_ENTRY (R205). -/
def execQfenceEntry (gang queue : Nat) (s : State) : Host.Outcome State Fault Refusal :=
  .next (s.runEntry gang queue (· == 12) fun g k x =>
    let ts := k.fence.getD (g.fenceOf queue (nfld x 4 1))
    if g.fenceMet ts then .go s (k.skip 1) else .stay s { k with fence := some ts })

end Sys2Proof.Machine
end

