-- ==== Sys2Proof/Machine/Tiles.lean ====
section
/-! DEFINITION. The tile queue and the accumulator words (spec/24 R343 to R349), and states: their binding, their spill image
and their moves (spec/23 R330 to R334). -/

namespace Sys2Proof.Machine

/-! ## The tile queue (R326, R343, R344) -/

/-- The first word and the tile of a record. -/
def recHead (g : Gang) (off : Nat) : Word := BitVec.ofNat 32 (Memory.readNat g.spad off 4)

/-- The logical tiles of a task, as far as there are such (R322). -/
def taskTiles (head : Word) (t0 : Nat) : List Nat :=
  (regionTiles (head.getLsbD 14) (nfld head.toNat 2 1) (nfld head.toNat 3 1) t0).filter (· < 256)

/-- The TIDs a task names (R150, R323). -/
def taskTids (g : Gang) (off : Nat) : List Nat :=
  let f (o : Nat) : Nat := Memory.readNat g.spad (off + o) 2
  match Memory.readNat g.spad off 1 with
  | 0 | 1 => [f 8, f 10]
  | 2 => ([f 8, f 10].filter (· != 0xFFFF)) ++ [f 12]
  | _ => []

/-- Room in the queue (R326). -/
def roomCheck (s : State) (w : Wave) : Verdict := if 64 ≤ (s.gangOf w).tqCount then .wait else .go

def tqaddCheck (a : Reg) (s : State) (_ : Issue) (w : Wave) (_ : Nat) : Verdict :=
  (s.recordCheck w (s.uni w a).toNat 64 64).andThen ((poisonCheck s w (s.uni w a).toNat 64).andThen (roomCheck s w))

/-- The enqueue names a pinned tile (R262, R339). -/
def tqaddCommit (a : Reg) (s : State) (w : Wave) (g : Gang) : Bool :=
  let off := (s.uni w a).toNat
  (taskTiles (recHead g off) (Memory.readNat g.spad (off + 14) 2)).any (s.pinnedAt g)

/-- A command enqueued, with the physical tiles of its footprint (R326, R331), and what the order then allows (R327). -/
def State.enqueue (s : State) (gid : Nat) (tiles : List Nat) (f : Nat → List Nat → TileCmd) : State :=
  match s.gang? gid with
  | none => s
  | some g =>
    let (seq, s) := s.newId
    let (foot, s) := State.mapFoot g tiles s
    (s.addCmd gid (f seq foot)).drainAll

def tqaddAct (a : Reg) (s : State) (c : Issue) (w : Wave) (_ : LaneMask) : State :=
  let g := s.gangOf w
  let off := (s.uni w a).toNat
  let head := recHead g off
  let t0 := Memory.readNat g.spad (off + 14) 2
  s.enqueue w.gang (taskTiles head t0) fun seq foot =>
    { seq, kind := .task, off, fmode := w.fmode, pc := c.wordPc, head, tile := t0, held := head.getLsbD 8, foot
      tids := taskTids g off }

/-- TQWAIT (R344). -/
def tqwaitCheck (n : TqCount) (s : State) (_ : Issue) (w : Wave) (_ : Nat) : Verdict :=
  let g := s.gangOf w
  if g.tqCount ≤ n.val || g.preempt then .go else .wait

def tqwaitAct (d : Reg) (n : TqCount) (s : State) (_ : Issue) (w : Wave) (m : LaneMask) : State :=
  let c := (s.gangOf w).tqCount
  s.putAll w m d (BitVec.ofNat 32 (c + if c ≤ n.val then 0 else 2 ^ 31))

/-- TQADD (R343). -/
def execTqadd (a : Reg) (s : State) : Host.Outcome State Fault Refusal :=
  runWord (.tqadd a) { check := tqaddCheck a, commit := tqaddCommit a, act := tqaddAct a } s

/-- TQWAIT (R344). -/
def execTqwait (d : Reg) (n : TqCount) (s : State) : Host.Outcome State Fault Refusal :=
  runWord (.tqwait d n) { check := tqwaitCheck n, act := tqwaitAct d n } s

/-! ## ACCZ, ACCRD, ACCWR (R345) -/

/-- The tiles of ACCZ. -/
def acczTiles (n : BitVec 8) (x : Word) : List Nat := (List.range (n.toNat + 1)).map (x.toNat % 256 + ·)

def acczCheck (a : Reg) (n : BitVec 8) (s : State) (_ : Issue) (w : Wave) (_ : Nat) : Verdict :=
  if 256 < (s.uni w a).toNat % 256 + n.toNat + 1 then .abort 0x82 0 0 else .go

def acczCommit (a : Reg) (n : BitVec 8) (s : State) (w : Wave) (g : Gang) : Bool :=
  (acczTiles n (s.uni w a)).any (s.pinnedAt g)

def acczAct (a : Reg) (n : BitVec 8) (s : State) (c : Issue) (w : Wave) (_ : LaneMask) : State :=
  s.enqueue w.gang (acczTiles n (s.uni w a)) fun seq foot => { seq, kind := .accz, pc := c.wordPc, foot }

/-- The tile and the word an address names. -/
def accTile (x : Word) : Nat := x.toNat / 2 ^ 10 % 256
def accWord (x : Word) : Nat := x.toNat % 2 ^ 10

/-- Does a thread of the group name a pinned tile? -/
def accCommit (a : Reg) (s : State) (w : Wave) (g : Gang) : Bool :=
  match s.cur with
  | none => false
  | some c => (lanesOf c.lanes).any fun l => s.pinnedAt g (accTile (w.reg s.fresh l a))

/-- ACCRD in each thread; a uniform one reads once. -/
def accrdAct (d a : Reg) (s : State) (c : Issue) (w : Wave) (m : LaneMask) : State :=
  (lanesOf (if d.isUni then laneBit (lowest m) else m)).foldl (fun (t : State) (l : Nat) =>
    let x := w.reg s.fresh l a
    let (id, t) := t.newId
    let p : Pending := { id, lane := if d.isUni then none else some l, lanes := if d.isUni then m else laneBit l
                         regs := [d], vals := [], opened := true }
    (t.addPending w.id p).enqueue w.gang [accTile x] fun seq foot =>
      { seq, kind := .accrd w.id id (accWord x), pc := c.wordPc, foot }) s

/-- ACCWR: one command for each tile named, the highest lane's value last (R106). -/
def accwrAct (a b : Reg) (s : State) (c : Issue) (w : Wave) (m : LaneMask) : State :=
  let xs := (lanesOf m).map fun l => (w.reg s.fresh l a, w.reg s.fresh l b)
  ((xs.map fun x => accTile x.1).eraseDups).foldl (fun (t : State) (n : Nat) =>
    t.enqueue w.gang [n] fun seq foot =>
      { seq, kind := .accwr ((xs.filter fun x => accTile x.1 == n).map fun x => (accWord x.1, x.2)), pc := c.wordPc, foot }) s

/-- ACCZ (R345). -/
def execAccz (a : Reg) (n : BitVec 8) (s : State) : Host.Outcome State Fault Refusal :=
  runWord (.accz a n) { check := acczCheck a n, commit := acczCommit a n, act := acczAct a n } s

/-- ACCRD (R345). -/
def execAccrd (d a : Reg) (s : State) : Host.Outcome State Fault Refusal :=
  runWord (.accrd d a) { commit := accCommit a, act := accrdAct d a } s

/-- ACCWR (R345). -/
def execAccwr (a b : Reg) (s : State) : Host.Outcome State Fault Refusal :=
  runWord (.accwr a b) { commit := accCommit a, act := accwrAct a b } s

/-! ## Pinning (R346, R347) -/

def always : State → Wave → Gang → Bool := fun _ _ _ => true

/-- ACCPIN is performed by the scheduler after the earlier commands on its tiles. -/
def accpinAct (a b : Reg) (s : State) (c : Issue) (w : Wave) (_ : LaneMask) : State :=
  let x := s.uni w b
  let dv := 32 * (x.toNat / 2 ^ 8 % 4 + 1)
  let dk := 32 * (x.toNat / 2 ^ 10 % 4 + 1)
  let tiles := ((List.range (stateSize dv dk)).map (x.toNat % 256 + ·)).filter (· < 256)
  s.enqueue w.gang tiles fun seq foot =>
    { seq, kind := .pin, pc := c.wordPc, head := x, handle := (s.uni w a).toNat, dv, dk, foot }

/-- Does the gang have an ACCPIN of the handle that has not been performed? -/
def Gang.pinning (g : Gang) (h : Nat) : Option TileCmd := g.tileQ.find? fun c => c.kind == .pin && c.handle == h

/-- The state under a handle that the gang has bound. A command enqueued before an ACCUNPIN finds it so until the unpin is
performed (R347). -/
def State.heldState (s : State) (g : Gang) (h : Nat) : Option StateRec :=
  (s.stateRec? (s.gangCtx g) h).filter fun r => r.bound.any fun b => b.1 == g.id

/-- The state under a handle, if it is bound to the gang: no ACCUNPIN of it has been issued. -/
def State.boundState (s : State) (g : Gang) (h : Nat) : Option StateRec := (s.heldState g h).filter fun r => !r.ending

/-- A word that needs a handle bound to its gang waits for the ACCPIN that makes it so, and is refused otherwise. -/
def boundCheck (s : State) (w : Wave) (h : Nat) : Verdict :=
  let g := s.gangOf w
  if (s.boundState g h).isSome then .go else if (g.pinning h).isSome then .wait else .abort 0x82 0 0

def accunpinCheck (a : Reg) (s : State) (_ : Issue) (w : Wave) (_ : Nat) : Verdict := boundCheck s w (s.uni w a).toNat

/-- The tiles of a state on the gang's cluster. -/
def State.handleTiles (s : State) (g : Gang) (h : Nat) : List Nat := s.stateTiles (s.gangCtx g) h g.cluster

def accunpinAct (a : Reg) (s : State) (c : Issue) (w : Wave) (_ : LaneMask) : State :=
  let g := s.gangOf w
  let h := (s.uni w a).toNat
  let foot := s.handleTiles g h
  (s.modState (s.gangCtx g) h fun r => { r with ending := true }).enqueue w.gang [] fun seq _ =>
    { seq, kind := .unpin, pc := c.wordPc, handle := h, foot }

/-- ACCPIN (R346). -/
def execAccpin (a b : Reg) (s : State) : Host.Outcome State Fault Refusal :=
  runWord (.accpin a b) { commit := always, act := accpinAct a b } s

/-- ACCUNPIN (R347). -/
def execAccunpin (a : Reg) (s : State) : Host.Outcome State Fault Refusal :=
  runWord (.accunpin a) { check := accunpinCheck a, commit := always, act := accunpinAct a } s

/-! ## The spill image (R334) -/

/-- CRC-32C over bytes. -/
def crcStep (c : Word) (b : Byte) : Word :=
  (List.range 8).foldl (fun (x : Word) _ => if x.getLsbD 0 then (x >>> 1) ^^^ 0x82F63B78#32 else x >>> 1)
    (c ^^^ b.zeroExtend 32)
def crc32c (bs : List Byte) : Word := ~~~(bs.foldl crcStep 0xFFFFFFFF#32)

/-- Bytes of an image of a dv × dk state. -/
def imageBytes (dv dk : Nat) : Nat := 64 + 4 * dv * dk

/-- The payload of a state whose tiles are `ps` (R334). -/
def State.payload (s : State) (c dv dk : Nat) (ps : List Nat) : List Byte :=
  (List.range dv).flatMap fun i => (List.range dk).flatMap fun j =>
    let x := stateWord dk ps i j
    natBytes 4 (s.tileWord c x.1 x.2).toNat

/-- The places in the payload of the poisoned words of a state (R386). -/
def State.badWords (s : State) (c dv dk : Nat) (ps : List Nat) : List Nat :=
  if !(ps.any (s.tileBad c)) then [] else
  (List.range (dv * dk)).filter fun n => let x := stateWord dk ps (n / dk) (n % dk); s.wordBad c x.1 x.2

/-- The memory words in which bytes lie are poisoned: a write carries the poison with the word (R386). -/
def State.carryPoison (s : State) (pas : List Nat) : State := { s with poison := ((pas.map (· / 4)).filter fun x => !(s.poison.contains x)).eraseDups ++ s.poison }

/-- An image. -/
def imageOf (h dv dk : Nat) (tokens : BitVec 64) (payload : List Byte) : List Byte :=
  natBytes 4 0x4B575354 ++ natBytes 4 h ++ natBytes 2 dv ++ natBytes 2 dk ++ natBytes 4 0 ++ natBytes 8 tokens.toNat
    ++ natBytes 4 (crc32c payload).toNat ++ natBytes 36 0 ++ payload

/-- What the header of an image of handle `h` says: dv, dk, token count and CRC; none where it breaks R334. -/
def imageHead (h : Nat) (bs : List Byte) : Option (Nat × Nat × BitVec 64 × Nat) :=
  let x := bytesNat (bs.take 64)
  let ok (d : Nat) : Bool := d == 32 || d == 64 || d == 96 || d == 128
  if nfld x 0 4 == 0x4B575354 && nfld x 4 4 == h && h != 0 && ok (nfld x 8 2) && ok (nfld x 10 2) && nfld x 12 4 == 0
      && nfld x 28 36 == 0 then
    some (nfld x 8 2, nfld x 10 2, BitVec.ofNat 64 (nfld x 16 8), nfld x 24 4)
  else none

/-- A state pinned under a handle on tiles `ps` of a cluster with the words of a payload (R334, R349), those of the places `bad`
being poisoned (R386). -/
def State.pinImage (s : State) (ctx h c dk : Nat) (ps : List Nat) (payload : List Byte) (bad : List Nat := []) : State :=
  let word (i j : Nat) : Word := BitVec.ofNat 32 (bytesNat ((payload.drop (4 * (i * dk + j))).take 4))
  let new := ps.zipIdx.map fun x =>
    let bi := x.2 / ((dk + 31) / 32)
    let bj := x.2 % ((dk + 31) / 32)
    ({ cluster := c, phys := x.1, ctx, st := .pinned h x.2
       poison := bad.filterMap fun n =>
         if n / dk / 32 == bi && n % dk / 32 == bj then some (32 * (n / dk % 32) + n % dk % 32) else none
       data := (List.range 1024).foldl (fun m w => Map.set 0#32 m w (word (32 * bi + w / 32) (32 * bj + w % 32))) [] } : Tile)
  { s with tiles := new ++ s.tiles }

/-! ## Moves (R333) -/

/-- The images of a context in its state spill area: offset and bytes. -/
def State.areaImages (s : State) (ctx : Nat) : List (Nat × Nat) :=
  s.states.filterMap fun r => match r.place with
    | .area o => if r.ctx == ctx then some (o, imageBytes r.dv r.dk) else none
    | _ => none

/-- The lowest place in the area for an image of `n` bytes. -/
def areaRoom (size n : Nat) (xs : List (Nat × Nat)) : Option Nat :=
  let fits (o : Nat) : Bool := o + n ≤ size && xs.all fun x => o + n ≤ x.1 || x.1 + x.2 ≤ o
  (0 :: xs.map fun x => x.1 + x.2).foldl (fun b o => if fits o && b.all (o < ·) then some o else b) none

/-- A piece of `n` bytes of memory that lies in one line: its address, and the place and the number of its bytes. -/
structure Piece where
  at_ : Nat
  off : Nat
  len : Nat

/-- `n` bytes from an address on, cut at the lines. -/
def pieces (va n : Nat) : List Piece :=
  (List.range ((va + n + 63) / 64 - va / 64)).map fun i =>
    let a := max va (64 * (va / 64 + i))
    { at_ := a, off := a - va, len := min (va + n) (64 * (va / 64 + i + 1)) - a }

/-- The pieces, with their physical addresses, of `n` bytes of a context that the device itself accesses. -/
def State.ctxPieces (s : State) (ctx : Nat) (u : Use) (va n : Nat) : Except EngStop (List Piece) :=
  engAll (fun (p : Piece) => match s.xlate none ctx u p.at_ with
    | .ok pa => .ok { p with at_ := pa }
    | .fault p => .error (.fault p (8 + if u = .read then 1 else 2))
    | .prot => engProt) (pieces va n)

/-- The physical address of byte `o` of cut bytes. -/
def placeOf (xs : List Piece) (o : Nat) : Option Nat :=
  (xs.find? fun p => p.off ≤ o && o < p.off + p.len).map fun p => p.at_ + (o - p.off)

/-- A state taken out of its cluster into the area, as an image (R333, R334). -/
def State.toArea (s : State) (r : StateRec) (c : Nat) : Except EngStop State :=
  let x := s.ctx? r.ctx
  let n := imageBytes r.dv r.dk
  match areaRoom ((x.map (·.areaSize)).getD 0) n (s.areaImages r.ctx) with
  | none => .error .wait
  | some o =>
    match s.ctxPieces r.ctx .write ((x.map (·.area)).getD 0 + o) n with
    | .error e => .error e
    | .ok xs =>
      let ps := s.stateTiles r.ctx r.handle c
      let img := imageOf r.handle r.dv r.dk r.tokens (s.payload c r.dv r.dk ps)
      let t := xs.foldl (fun (t : State) (p : Piece) =>
        let w := lineWrite p.at_ p.len (bytesNat ((img.drop p.off).take p.len))
        (t.endPoison w).homeWrite w) s
      let bad := (s.badWords c r.dv r.dk ps).flatMap fun k => (List.range 4).map (64 + 4 * k + ·)
      let t := t.carryPoison (bad.filterMap (placeOf xs))
      .ok ((t.freeTile c ps).modState r.ctx r.handle fun r => { r with place := .area o })

/-- A state in the area filled onto a cluster with tiles for it; an image that fails its check, or whose header is poisoned, is a
protection fault. -/
def State.fromArea (s : State) (r : StateRec) (o c : Nat) : Except EngStop State :=
  let n := imageBytes r.dv r.dk
  let m := stateSize r.dv r.dk
  if (s.freeTiles c).length < m then .error .wait else
  match s.ctxPieces r.ctx .read ((((s.ctx? r.ctx).map (·.area)).getD 0) + o) n with
  | .error e => .error e
  | .ok xs =>
    let bs := xs.flatMap fun p => (List.range p.len).map fun i => lineByte (s.homeView (p.at_ / 64)) (p.at_ % 64 + i)
    let hurt (o k : Nat) : Bool := !s.poison.isEmpty && (List.range k).any fun i => (placeOf xs (o + i)).any fun a => s.poison.contains (a / 4)
    let bad := if s.poison.isEmpty then [] else (List.range (r.dv * r.dk)).filter fun k => hurt (64 + 4 * k) 4
    if imageHead r.handle bs == some (r.dv, r.dk, r.tokens, (crc32c (bs.drop 64)).toNat) && !(hurt 0 64) then
      .ok ((s.pinImage r.ctx r.handle c r.dk ((s.freeTiles c).take m) (bs.drop 64) bad).modState r.ctx r.handle
        fun r => { r with place := .cluster c })
    else engProt

/-- An unbound state brought onto a cluster (R333, R348). -/
def State.moveTo (s : State) (r : StateRec) (c : Nat) : Except EngStop State :=
  match r.place with
  | .filling => .error .wait
  | .area o => s.fromArea r o c
  | .saved ts =>
    if (s.freeTiles c).length < ts.length then .error .wait else
    let back := (ts.zip (s.freeTiles c)).map fun (x : Tile × Nat) => ({ x.1 with cluster := c, phys := x.2 } : Tile)
    .ok (State.modState { s with tiles := back ++ s.tiles } r.ctx r.handle fun r => { r with place := .cluster c })
  | .cluster c0 =>
    if c0 == c then .ok s
    else if (s.freeTiles c).length < stateSize r.dv r.dk then .error .wait
    else match s.toArea r c0 with
      | .error e => .error e
      | .ok t => match t.stateRec? r.ctx r.handle with
        | some r' => match r'.place with
          | .area o => t.fromArea r' o c
          | _ => .ok t
        | none => .ok t

/-! ## ACCBIND (R332, R348) -/

/-- Is a logical number free in the gang's window? -/
def State.logicalFree (s : State) (g : Gang) (n : Nat) : Bool :=
  (s.window g n).isNone && !(g.tileQ.any fun c => c.foot.contains (256 + n))

/-- The lowest run of `m` free logical numbers. -/
def State.freeRun (s : State) (g : Gang) (m : Nat) : Option Nat :=
  (List.range (257 - m)).find? fun t0 => (List.range m).all fun i => s.logicalFree g (t0 + i)

/-- What an ACCBIND finds: a value written at once, a bind at t0 after a move, or that it stays parked. -/
inductive Bind where
  | value (x : Word)
  | bind (r : StateRec) (t0 : Nat)
  | park

def State.bindOf (s : State) (g : Gang) (h : Nat) : Bind :=
  match s.stateRec? (s.gangCtx g) h with
  | none => if (g.pinning h).isSome then .park else .value 0xFFFFFFFE
  | some r =>
    if r.ending || r.place == .filling then .park else
    match r.bound with
    | some (b, t0) => if b == g.id then .value (BitVec.ofNat 32 t0) else .value 0xFFFFFFFF
    | none => match s.freeRun g (stateSize r.dv r.dk) with
      | none => .value 0xFFFFFFFD
      | some t0 => .bind r t0

def accbindCheck (a : Reg) (s : State) (_ : Issue) (w : Wave) (_ : Nat) : Verdict :=
  let g := s.gangOf w
  match s.bindOf g (s.uni w a).toNat with
  | .value _ => .go
  | .park => .wait
  | .bind r _ => match s.moveTo r g.cluster with
    | .ok _ => .go
    | .error .wait => .wait
    | .error (.fault p k) => .xlate p k false
    | .error _ => .abort 0x82 0 0

def accbindAct (d a : Reg) (s : State) (_ : Issue) (w : Wave) (m : LaneMask) : State :=
  let g := s.gangOf w
  match s.bindOf g (s.uni w a).toNat with
  | .value x => s.putAll w m d x
  | .park => s
  | .bind r t0 => match s.moveTo r g.cluster with
    | .error _ => s
    | .ok t =>
      ((t.modState r.ctx r.handle fun r => { r with bound := some (g.id, t0) }).putAll w m d (BitVec.ofNat 32 t0)).drainAll

/-- ACCBIND (R348). -/
def execAccbind (d a : Reg) (s : State) : Host.Outcome State Fault Refusal :=
  runWord (.accbind d a) { check := accbindCheck a, act := accbindAct d a } s

/-! ## ACCSPILL, ACCFILL (R349) -/

/-- The address of an image: 64-aligned, in device memory. -/
def imageCheck (b : Reg) (u : Use) (s : State) (w : Wave) : Verdict :=
  match s.access w u (s.uniPair w b).toNat 64 with
  | .error v => v
  | .ok pa => if s.deviceFrame pa then .go else .abort 0x82 0 (s.uniPair w b).toNat

def accspillCheck (a b : Reg) (s : State) (_ : Issue) (w : Wave) (_ : Nat) : Verdict :=
  (imageCheck b .write s w).andThen ((boundCheck s w (s.uni w a).toNat).andThen (roomCheck s w))

/-- The handle ceases to exist and its tiles leave the window as the word is performed (R349). -/
def accspillAct (a b : Reg) (s : State) (c : Issue) (w : Wave) (_ : LaneMask) : State :=
  let g := s.gangOf w
  let h := (s.uni w a).toNat
  match s.boundState g h with
  | none => s
  | some r =>
    let foot := s.handleTiles g h
    let t := foot.zipIdx.foldl (fun (t : State) x => t.modTile g.cluster x.1 fun y => { y with st := .left h x.2 }) s
    State.enqueue { t with states := t.states.filter fun x => !(x.ctx == r.ctx && x.handle == h) } w.gang [] fun seq _ =>
      { seq, kind := .spill, off := (s.uniPair w b).toNat, pc := c.wordPc, handle := h, dv := r.dv, dk := r.dk
        tokens := r.tokens, foot }

def accfillCheck (a b : Reg) (s : State) (_ : Issue) (w : Wave) (_ : Nat) : Verdict :=
  let g := s.gangOf w
  let v : Verdict := match s.stateRec? (s.gangCtx g) (s.uni w a).toNat with
    | none => .go
    | some r => if r.ending then .wait else .abort 0x82 0 0
  (imageCheck b .read s w).andThen (v.andThen (roomCheck s w))

def accfillAct (a b : Reg) (s : State) (c : Issue) (w : Wave) (_ : LaneMask) : State :=
  let g := s.gangOf w
  let h := (s.uni w a).toNat
  let r : StateRec := { ctx := s.gangCtx g, handle := h, dv := 0, dk := 0, tokens := 0, place := .filling, bound := none }
  State.enqueue { s with states := s.states ++ [r] } w.gang [] fun seq foot =>
    { seq, kind := .fill, off := (s.uniPair w b).toNat, pc := c.wordPc, handle := h, foot }

/-- ACCSPILL (R349). -/
def execAccspill (a b : Reg) (s : State) : Host.Outcome State Fault Refusal :=
  runWord (.accspill a b) { check := accspillCheck a b, commit := always, act := accspillAct a b } s

/-- ACCFILL (R349). -/
def execAccfill (a b : Reg) (s : State) : Host.Outcome State Fault Refusal :=
  runWord (.accfill a b) { check := accfillCheck a b, commit := always, act := accfillAct a b } s

/-- A spill run: the image is written at .die, outside any version, and the tiles become free (R349). -/
def State.spillRun (s : State) (g : Gang) (c : TileCmd) : Except EngStop State :=
  let img := imageOf c.handle c.dv c.dk c.tokens (s.payload g.cluster c.dv c.dk c.foot)
  match s.engPasDirect g c.off img.length with
  | .error e => .error e
  | .ok pas =>
    let t := (lineWrites (pas.zip img)).foldl (fun (t : State) w => t.directWrite g.die w) s
    let t := t.carryPoison ((s.badWords g.cluster c.dv c.dk c.foot).map fun k => pas.getD (64 + 4 * k) 0)
    .ok ((t.setCommitted g.id).freeTile g.cluster c.foot)

/-- A fill run (R349): none while there are no free tiles for the state. -/
def State.fillRun (s : State) (g : Gang) (c : TileCmd) : Except EngStop State :=
  let ctx := s.gangCtx g
  match s.engRead g false c.off 64 with
  | .error e => .error e
  | .ok r0 => match imageHead c.handle r0.bytes with
    | none => engProt
    | some (dv, dk, tokens, crc) =>
      match s.engRead g false (c.off + 64) (4 * dv * dk) with
      | .error e => .error e
      | .ok r =>
        let m := stateSize dv dk
        if crc != (crc32c r.bytes).toNat then engProt
        else if (s.freeTiles g.cluster).length < m then .error .wait
        else
          let t := s.engReplies g (r0.pas ++ r.pas)
          .ok ((t.pinImage ctx c.handle g.cluster dk ((t.freeTiles g.cluster).take m) r.bytes).modState ctx c.handle
            fun x => { x with dv, dk, tokens, place := .cluster g.cluster })

/-- The tiles of a spill that runs become spilling (R349). -/
def State.spillTiles (s : State) (g : Gang) (c : TileCmd) : State :=
  c.foot.zipIdx.foldl (fun (s : State) x => s.modTile g.cluster x.1 fun t => { t with st := .spilling c.handle x.2 }) s

/-- A spill, a fill or a delta operation that starts, after `pre`, and completes. -/
def State.runImage (s : State) (gid idx : Nat) (kind : TqKind) (f : State → Gang → TileCmd → Except EngStop State)
    (pre : State → Gang → TileCmd → State := fun s _ _ => s) : State :=
  match s.cmd? gid idx with
  | none => s
  | some (g, c) =>
    let on := if kind == .dupd || kind == .dqry then s.engineOn g else s.gangOn g
    if c.kind == kind && on && s.mayStart g c then
      let s := pre s g c
      match f s g c with
      | .ok t => t.cmdDone gid idx
      | .error e => s.cmdStop g c e
    else s

/-- SPILL_IMAGE_WRITE (R334). -/
def execSpillImageWrite (gang idx : Nat) (s : State) : Host.Outcome State Fault Refusal :=
  .next (s.runImage gang idx .spill State.spillRun State.spillTiles)

/-- SPILL_IMAGE_FILL (R334): a fill that fails its check leaves the handle nonexistent. -/
def execSpillImageFill (gang idx : Nat) (s : State) : Host.Outcome State Fault Refusal :=
  .next (s.runImage gang idx .fill State.fillRun)

end Sys2Proof.Machine
end

