-- ==== Sys2Proof/Machine/Matrix.lean ====
section
/-! DEFINITION. The matrix engine (spec/08 R141 to R143, spec/23 R321 to R329): the start of a tile task, its effect, and its
completion. -/

namespace Sys2Proof.Machine

/-! ## The record (R323 to R325) -/

/-- A record as the engine reads it at the start: what was captured at the enqueue (R326), and the 64 bytes. -/
structure Task where
  cmd : TileCmd
  x   : Nat

def Task.rows (t : Task) : Nat := if t.cmd.flag 5 then nfld t.x 40 4 else t.cmd.rows
def Task.k (t : Task) : Nat := nfld t.x 4 4
def Task.row0 (t : Task) : Nat := nfld t.x 16 4
def Task.col0 (t : Task) : Nat := nfld t.x 20 4
def Task.k0 (t : Task) : Nat := nfld t.x 24 4

/-- M and N may have these values. -/
def sizeOk (n : Nat) : Bool := 16 ≤ n && n ≤ 128 && n % 16 == 0

/-- The ranges and the must-be-zero bytes of a record, and the stages it names (R323, R325). -/
def State.taskOk (s : State) (g : Gang) (t : Task) : Bool :=
  let x := t.x
  let c := t.cmd
  c.kindOf ≤ 3 && !c.flag 7 && sizeOk c.rows && sizeOk c.cols && zeroBytes x [(38, 2), (44, 20)] && nfld x 37 1 ≤ 1
  && (c.kindOf ≤ 1 || nfld x 4 4 == 0) && (c.kindOf == 2 || nfld x 12 2 == 0) && (c.kindOf != 3 || nfld x 8 4 == 0)
  && (if c.kindOf == 1 then s.wordOffset g (nfld x 28 4) c.rows else nfld x 28 4 == 0)
  && (!c.flag 5 || nfld x 40 4 ≤ c.rows)
  && (!c.flag 1 || (g.stageOk (nfld x 32 1) (nfld x 33 1) && nfld x 34 1 ≤ 1))
  && (!c.flag 2 || g.stageOk (nfld x 35 1) (nfld x 36 1))
  && c.tile + (c.rows + 31) / 32 * tilesAcross c.d64 c.cols ≤ 256

/-! ## Starting a task (R326 to R328) -/

def TileCmd.record (g : Gang) (c : TileCmd) : Task := { cmd := c, x := Memory.readNat g.spad c.off 64 }

/-- The three conditions of R327, and a physical tile for every tile of the footprint (R331). A stage that R309 refuses is
found by the engine that starts the task. -/
def State.taskReady (s : State) (g : Gang) (c : TileCmd) : Bool :=
  let x := (c.record g).x
  c.kind == .task && !c.held && s.mayStart g c
  && (!c.flag 1 || !(g.stageOk (nfld x 32 1) (nfld x 33 1)) || g.phase (nfld x 32 1) (nfld x 33 1) == (nfld x 34 1 % 2 == 1))
  && (s.mapCmd g c).isSome

/-- The task the scheduler starts now: the earliest of the ready ones, on a free engine of the gang's cores. -/
def State.nextTask (s : State) (g : Gang) : Option TileCmd :=
  if s.engineOn g && decide ((g.tileQ.filter fun c => c.kind == .task && c.started).length < (s.launchOf g).hdr.g) then
    g.tileQ.find? (s.taskReady g)
  else none

/-- A task of the given kinds started: refused, or performed, with its completion still to come. -/
def State.startTask (s : State) (gid idx : Nat) (kinds : Nat → Bool) (f : State → Gang → Task → Except EngStop State) :
    State :=
  match s.cmd? gid idx with
  | none => s
  | some (g, c) =>
    if !(kinds c.kindOf) || s.nextTask g != some c then s else
    match ((s.mapCmd g c).getD s), ((s.mapCmd g c).bind fun t => t.cmd? gid idx) with
    | t, some (g, c) =>
      let task := c.record g
      if g.spadBad c.off 64 then t.engAbort gid 0x80 0xFFFF c.pc
      else if !(t.taskOk g task) then t.engAbort gid 0x82 0xFFFF c.pc else
      match f t g task with
      | .error e => t.cmdStop g c e
      | .ok u => (u.modGang gid fun g =>
          { g with tileQ := modBy g.tileQ (fun d => d.seq == idx) fun d =>
            { d with started := true, flip := if c.flag 2 then some (nfld task.x 35 1, nfld task.x 36 1) else none } }).settle gid
    | t, none => t

/-! ## Accumulators (R322) -/

/-- The physical tile and word of element (i, j) of a region. -/
def TileCmd.place (c : TileCmd) (i j : Nat) : Nat × Nat :=
  let across := tilesAcross c.d64 c.cols
  if c.d64 then (c.foot.getD (i / 32 * across + j / 16) 0, 2 * (16 * (i % 32) + j % 16))
  else (c.foot.getD (i / 32 * across + j / 32) 0, 32 * (i % 32) + j % 32)

/-- The bits of an accumulator element, and its value written. -/
def State.acc (s : State) (cl : Nat) (c : TileCmd) (i j : Nat) : Nat :=
  let p := c.place i j
  (s.tileWord cl p.1 p.2).toNat + if c.d64 then 2 ^ 32 * (s.tileWord cl p.1 (p.2 + 1)).toNat else 0

def State.setAcc (s : State) (cl : Nat) (c : TileCmd) (i j x : Nat) : State :=
  let p := c.place i j
  let s := s.setTileWord cl p.1 p.2 (BitVec.ofNat 32 x)
  if c.d64 then s.setTileWord cl p.1 (p.2 + 1) (BitVec.ofNat 32 (x / 2 ^ 32)) else s

/-- The positions of the rows that are computed. -/
def Task.cells (t : Task) : List (Nat × Nat) :=
  (List.range t.rows).flatMap fun i => (List.range t.cmd.cols).map fun j => (i, j)

/-- Is an accumulator word poisoned that the task reads (R386)? -/
def State.accBad (s : State) (cl : Nat) (t : Task) : Bool :=
  t.cells.any fun x => let p := t.cmd.place x.1 x.2
    s.wordBad cl p.1 p.2 || (t.cmd.d64 && s.wordBad cl p.1 (p.2 + 1))

/-! ## MMA and MMAG (R141, R142, R321, R324) -/

/-- The k-depth and K-block of an operand pair without scales (R321). -/
def pairOf (a b : Nat) : Option (Nat × Nat) :=
  let fp8 (f : Nat) : Bool := f == 4 || f == 5
  if a == 1 && b == 1 then some (1, 1)
  else if a == 0 && b == 0 then some (2, 2)
  else if (a == 2 && b == 2) || (a == 3 && b == 3) then some (16, 16)
  else if (fp8 a && fp8 b) || (a == 12 && b == 12) then some (32, 32)
  else if (fp8 a || a == 12) && (b == 16 || b == 17) then some (64, 32)
  else none

/-- One K-block added to an FP32 accumulator: the exact sum of the products, one rounding (R141, R142). A signalling NaN raises
IV (R137). -/
def accBlock (acc : Nat) (ps : List (Fv × Fv)) : Rounded :=
  let r : Rounding := { mode := .rne }
  let old := FpFmt.read .f32 false acc
  match sumTerms .rne (ps.map fun p => mulExact p.1 p.2) with
  | .invalid => FpFmt.nanR .f32 true 0
  | .nan s => FpFmt.nanR .f32 (s || old.isSnan) 0
  | .inf n => FpFmt.add .f32 r old (.inf n)
  | .fin n m e => FpFmt.add .f32 r old (.fin n m e)

/-- A list cut into pieces of n. -/
def chunks {α : Type} (n : Nat) : Nat → List α → List (List α)
  | 0, _ => []
  | k + 1, xs => if xs.isEmpty then [] else xs.take n :: chunks n k (xs.drop n)

/-- The blocks of one element, in ascending order. -/
def accBlocks (kb acc : Nat) (ps : List (Fv × Fv)) : Nat × Flags :=
  (chunks kb ps.length ps).foldl (fun a b => let r := accBlock a.1 b; (r.bits, a.2 ||| r.flags)) (acc, 0)

/-- One element of an FP64 region: fused, k by k. -/
def accDouble (acc : Nat) (ps : List (Fv × Fv)) : Nat × Flags :=
  ps.foldl (fun a p => let r := FpFmt.fma .f64 { mode := .rne } p.1 p.2 (FpFmt.read .f64 false a.1); (r.bits, a.2 ||| r.flags))
    (acc, 0)

/-- An operand's elements (k, row) for one row. -/
def State.operandRow (s : State) (g : Gang) (t : Tensor) (k0 n row : Nat) : Except EngStop (List Elem) :=
  engAll (fun k => s.elem g t (k0 + k) row) (List.range n)

/-- May the operand carry the scales it has: along K, in blocks of `b`? -/
def scaleFits (t : Tensor) (b : Nat) : Bool := t.sblk == 0 || (t.sdim == 0 && t.sblk == b)

/-- MMA and MMAG (R324); the rows of A are those given. A refusal that concerns one operand, or the second against the first,
names its TID (R149; notes/assumptions/35.md). With no k or no row no element is read, and nothing is changed (R328). -/
def State.mmaRun (s : State) (g : Gang) (t : Task) (idx : List Nat) : Except EngStop State := do
  let (a, p1) ← s.tensor g (nfld t.x 8 2)
  let (b, p2) ← s.tensor g (nfld t.x 10 2)
  match pairOf a.fmt b.fmt with
  | none => .error (.abort 0x82 b.tid)
  | some (depth, kb0) =>
    engCheck (t.k % depth == 0 && t.k ≤ 8192 && t.cmd.d64 == (a.fmt == 1))
    let kb := if a.sblk != 0 then a.sblk else if b.sblk != 0 then b.sblk else kb0
    tidCheck a.tid (scaleFits a kb && (t.cmd.kindOf == 0 || a.sp))
    tidCheck b.tid (scaleFits b kb)
    if a.fmt == 1 then s.engFeat g .f64mx else .ok ()
    if t.k == 0 || t.rows == 0 then return s.engReplies g (p1 ++ p2)
    tidCheck a.tid (t.k0 + t.k ≤ a.ext.getD 0 1 && idx.all (· < a.ext.getD 1 1))
    tidCheck b.tid (t.k0 + t.k ≤ b.ext.getD 0 1 && t.col0 + t.cmd.cols ≤ b.ext.getD 1 1)
    engClean (s.accBad g.cluster t)
    let ra ← engAll (s.operandRow g a t.k0 t.k) idx
    let rb ← engAll (fun j => s.operandRow g b t.k0 t.k (t.col0 + j)) (List.range t.cmd.cols)
    let es := ra.flatten ++ rb.flatten
    let t0 := s.engReplies g (p1 ++ p2 ++ es.flatMap (·.pas))
    let outs := t.cells.map fun p =>
      let ps := ((ra.getD p.1 []).map Elem.value).zip ((rb.getD p.2 []).map Elem.value)
      (p, (if t.cmd.d64 then accDouble else accBlocks kb) (s.acc g.cluster t.cmd p.1 p.2) ps)
    let t1 := outs.foldl (fun (u : State) o => u.setAcc g.cluster t.cmd o.1.1 o.1.2 o.2.1) t0
    .ok (t1.raiseFlags g.id ((outs.map fun o => o.2.2).foldl (· ||| ·) (es.foldl (fun f e => f ||| e.flags) 0)))

/-- MMA_TASK (R324); it also finds the reserved kinds. -/
def execMmaTask (gang idx : Nat) (s : State) : Host.Outcome State Fault Refusal :=
  .next (s.startTask gang idx (fun k => k == 0 || 3 < k) fun s g t =>
    s.mmaRun g t ((List.range t.rows).map (t.row0 + ·)))

/-- MMAG_TASK (R324). -/
def execMmagTask (gang idx : Nat) (s : State) : Host.Outcome State Fault Refusal :=
  .next (s.startTask gang idx (· == 1) fun s g t =>
    if g.spadBad (nfld t.x 28 4) (4 * t.rows) then .error (.abort 0x80) else
    s.mmaRun g t ((List.range t.rows).map fun i => Memory.readNat g.spad (nfld t.x 28 4 + 4 * i) 4))

/-! ## EPI (R143, R329) -/

/-- The formats of an epilogue's destination. -/
def epiFormat (d64 : Bool) (f : Nat) : Bool := [0, 2, 3, 4, 5, 6, 12].contains f || (d64 && f == 1)

/-- The tensor scale of an operand entry, 1.0 for 0xFFFF. -/
def State.epiScale (s : State) (g : Gang) (tid : Nat) : Except EngStop (Nat × List Nat) :=
  if tid == 0xFFFF then .ok (0x3F800000, []) else
  match s.tensor g tid with
  | .error e => .error e
  | .ok (t, pas) => .ok (t.ts, pas)

/-- acc × ts, exact, with IV for 0 × infinity. -/
def timesScale (acc : Fv) (ts : Nat) : Fv × Flags :=
  match mulExact acc (FpFmt.read .f32 false ts) with
  | .val v => (v, 0)
  | .bad => (.nan false, flagIV)

/-- The elements of a read-out that has no block scale. -/
def State.plainOut (s : State) (g : Gang) (c : Tensor) (r : Rounding) (xs : List ((Nat × Nat) × Fv)) :
    Except EngStop (EngWrite × Flags) := do
  let rs := xs.map fun x => (x.1, roundInto (fmtKind c.fmt) r x.2)
  let ws ← engAll (fun (x : (Nat × Nat) × Rounded) => s.elemTarget g c x.1.1 x.1.2 x.2.bits) rs
  .ok (ws.foldl EngWrite.append {}, rs.foldl (fun f x => f ||| x.2.flags) 0)

/-- One row's blocks of a read-out with block scales. -/
def State.scaledOut (s : State) (g : Gang) (c : Tensor) (r : Rounding) (xs : List ((Nat × Nat) × Fv)) :
    Except EngStop (EngWrite × Flags) := do
  let os ← engAll (fun (b : List ((Nat × Nat) × Fv)) => do
    let (code, bits, fl) := requant c.fmt r (b.map (·.2))
    let w ← s.blockTarget g c (b.map (·.1)) code bits
    .ok (w, fl)) (chunks c.sblk xs.length xs)
  .ok ((os.map (·.1)).foldl EngWrite.append {}, os.foldl (fun f o => f ||| o.2) 0)

/-- EPI (R143, R329); without a row it has no effect (R328). -/
def State.epiRun (s : State) (g : Gang) (t : Task) : Except EngStop State := do
  let (ta, p1) ← s.epiScale g (nfld t.x 8 2)
  let (tb, p2) ← s.epiScale g (nfld t.x 10 2)
  let (c, p3) ← s.tensor g (nfld t.x 12 2)
  tidCheck c.tid (epiFormat t.cmd.d64 c.fmt && !c.ro && (!t.cmd.flag 3 || c.sp)
    && (c.sblk == 0 || (c.sdim == 0 && t.col0 % c.sblk == 0 && t.cmd.cols % c.sblk == 0)))
  if t.rows == 0 then return s.engReplies g (p1 ++ p2 ++ p3)
  tidCheck c.tid (t.col0 + t.cmd.cols ≤ c.ext.getD 0 1 && t.row0 + t.rows ≤ c.ext.getD 1 1)
  engClean (s.accBad g.cluster t)
  let ts := FpFmt.mul .f32 { mode := .rne } (FpFmt.read .f32 false ta) (FpFmt.read .f32 false tb)
  let vs := t.cells.map fun p =>
    ((t.col0 + p.2, t.row0 + p.1),
      timesScale (FpFmt.read (if t.cmd.d64 then .f64 else .f32) false (s.acc g.cluster t.cmd p.1 p.2)) ts.bits)
  let r := outRounding t.cmd.fmode (t.cmd.flag 4)
  let (w, fl) ← (if c.sblk == 0 then s.plainOut g c r else s.scaledOut g c r) (vs.map fun v => (v.1, v.2.1))
  let u ← s.engMove g (t.cmd.flag 3) (p1 ++ p2 ++ p3) w
  .ok (u.raiseFlags g.id (vs.foldl (fun f v => f ||| v.2.2) (fl ||| ts.flags)))

/-- EPI_TASK (R329). -/
def execEpiTask (gang idx : Nat) (s : State) : Host.Outcome State Fault Refusal :=
  .next (s.startTask gang idx (· == 2) fun s g t => s.epiRun g t)

/-! ## ZERO and completion (R324, R328) -/

/-- ZERO_TASK (R324). -/
def execZeroTask (gang idx : Nat) (s : State) : Host.Outcome State Fault Refusal :=
  .next (s.startTask gang idx (· == 3) fun s g t =>
    .ok (t.cells.foldl (fun (u : State) p => u.setAcc g.cluster t.cmd p.1 p.2 0) s))

/-- TILE_TASK_COMPLETE (R328): the task flips its stage and leaves the queue. -/
def execTileTaskComplete (gang idx : Nat) (s : State) : Host.Outcome State Fault Refusal :=
  match s.cmd? gang idx with
  | none => .next s
  | some (_, c) =>
    if !(c.kind == .task && c.started) then .next s else
    let s := match c.flip with
      | some (r, st) => s.modGang gang fun g => g.flip r st
      | none => s
    .next (s.cmdDone gang idx)

end Sys2Proof.Machine
end

