-- ==== Sys2Proof/Machine/Binning.lean ====
section
/-! DEFINITION. The binning engine (spec/22 R318 to R320, spec/23 R328, spec/24 R354): BINGO, and the event that counts the
items and patches the targets. -/

namespace Sys2Proof.Machine

/-- A patch record (R319): target, multiplier, and the scratchpad offset or the cell's address. -/
structure PatchRec where
  kind : Nat
  mult : Nat
  at_  : Nat
  ok   : Bool

/-- A record of a descriptor at `a`. -/
def patchAt (g : Gang) (a b : Nat) : PatchRec :=
  let x := Memory.readNat g.spad (a + 32 + 16 * b) 16
  { kind := nfld x 0 1, mult := nfld x 2 2, at_ := nfld x 8 8
    ok := nfld x 0 1 ≤ 3 && nfld x 1 1 == 0 && nfld x 4 4 == 0 && nfld x 2 2 != 0 }

/-- The number of bins of the descriptor at `a`, and its patch records. -/
def binsOf (g : Gang) (a : Nat) : Nat := Memory.readNat g.spad (a + 16) 2
def patchesOf (g : Gang) (a : Nat) : List PatchRec := (List.range (binsOf g a)).map (patchAt g a)

/-! ## BINGO (R354) -/

def bingoCheck (a : Reg) (s : State) (_ : Issue) (w : Wave) (_ : Nat) : Verdict :=
  let x := (s.uni w a).toNat
  (s.recordCheck w x 16 32).andThen ((s.recordCheck w x 16 (32 + 16 * binsOf (s.gangOf w) x)).andThen (poisonCheck s w x 32))

/-- A patch that targets a shape cell makes it a commit point (R339). -/
def bingoCommit (a : Reg) (s : State) (w : Wave) (g : Gang) : Bool :=
  (patchesOf g (s.uni w a).toNat).any fun p => p.kind == 3

def bingoAct (a : Reg) (s : State) (c : Issue) (w : Wave) (_ : LaneMask) : State :=
  let (seq, t) := s.newId
  let x : BinCmd := { seq, off := (s.uni w a).toNat, pc := c.wordPc }
  t.modGang w.gang fun g => { g with bins := g.bins ++ [x] }

/-- BINGO (R354). -/
def execBingo (a : Reg) (s : State) : Host.Outcome State Fault Refusal :=
  runWord (.bingo a) { check := bingoCheck a, commit := bingoCommit a, act := bingoAct a } s

/-! ## The run (R320) -/

/-- The descriptor's table (R319), the patch records' place, the counts' place and the patch records' targets (R354). -/
def State.binOk (s : State) (g : Gang) (a : Nat) : Bool :=
  let x := Memory.readNat g.spad a 32
  let b := nfld x 16 2
  let n := s.spadBytes g
  4 ≤ nfld x 12 2 && nfld x 12 2 ≤ 256 && nfld x 12 2 % 4 == 0 && nfld x 14 2 % 4 == 0 && nfld x 14 2 < nfld x 12 2
  && 1 ≤ b && b ≤ 256 && a + 32 + 16 * b ≤ n && nfld x 18 1 ≤ 3 && zeroBytes x [(19, 1), (28, 4)]
  && (nfld x 18 1 / 2 == 0 || nfld x 20 4 + 4 * b ≤ n)
  && (patchesOf g a).all fun p => p.ok &&
    match p.kind with
    | 1 => p.at_ + 32 ≤ n
    | 2 => p.at_ + 64 ≤ n
    | 3 => p.at_ % 8 == 0
    | _ => true

/-- The destination numbers of the items (R319). -/
def State.binItems (s : State) (g : Gang) (a : Nat) : Except EngStop (List Nat × List Nat) :=
  let x := Memory.readNat g.spad a 32
  let n := nfld x 12 2
  match s.engRead g (nfld x 18 1 % 2 == 1) (nfld x 0 8) (n * nfld x 8 4) with
  | .error e => .error e
  | .ok r => .ok ((List.range (nfld x 8 4)).map fun i => bytesNat ((r.bytes.drop (n * i + nfld x 14 2)).take 4), r.pas)

/-- An entry that a queue waits at, patched. -/
def patchCur (v : Nat) (x : BitVec 256) : BitVec 256 :=
  let y := x.toNat
  if entryFlag y 1 then BitVec.ofNat 256 (setNfld (setNfld y 4 4 v) 1 1 (nfld y 1 1 - 2)) else x

/-- A lift entry patched: bytes 4 to 7, then HELD, also as the queues have it that wait there (R318, R320); none where it is
not held. -/
def Gang.patchEntry (g : Gang) (a v : Nat) : Option Gang :=
  let fl := (Memory.read g.spad (a + 1)).toNat
  let queues := g.queues.map fun q => { q with walk := q.walk.map fun k =>
    if k.pos == a then { k with cur := k.cur.map (patchCur v) } else k }
  if fl / 2 % 2 == 1 then some { (g.writeSpad (a + 4) 4 v).writeSpad (a + 1) 1 (fl - 2) with queues := queues } else none

/-- A tile task patched: the field its record names, then the release of the task, queued or not enqueued yet (R328). -/
def Gang.patchTask (g : Gang) (a v : Nat) : Option Gang :=
  let fl := (Memory.read g.spad (a + 1)).toNat
  let g' := g.writeSpad (a + if (Memory.read g.spad (a + 37)).toNat == 1 then 4 else 40) 4 v
  match g.tileQ.find? fun c => c.kind == .task && c.off == a && c.held with
  | some c => some { g' with tileQ := modBy g'.tileQ (fun d => d.seq == c.seq) fun d => { d with held := false } }
  | none => if (g.tileQ.any fun c => c.kind == .task && c.off == a) || fl % 2 == 0 then none
      else some (g'.writeSpad (a + 1) 1 (fl - 1))

/-- The patches from bin `b` on, until one that is a protection fault. `cells` are the physical addresses of the shape cells. -/
def State.patchAll (gid : Nat) (ps : List (PatchRec × Nat × Nat)) (s : State) : State × Bool :=
  ps.foldl (fun (x : State × Bool) p =>
    if !x.2 then x else
    let s := x.1
    let v := p.2.1 * p.1.mult
    match s.gang? gid, p.1.kind with
    | none, _ => (s, false)
    | some _, 0 => (s, true)
    | some g, 3 => if 2 ^ 32 ≤ v then (s, false)
        else ((s.directWrite g.die (lineWrite p.2.2 8 v)).setCommitted gid, true)
    | some g, k =>
      if 2 ^ 32 ≤ v then (s, false) else
      match (if k == 1 then g.patchEntry p.1.at_ v else g.patchTask p.1.at_ v) with
      | some g' => (s.modGang gid fun _ => g', true)
      | none => (s, false)) (s, true)

/-- The physical addresses of the shape cells, by patch record. -/
def State.cellPas (s : State) (g : Gang) (ps : List PatchRec) : Except EngStop (List Nat) :=
  engAll (fun p => if p.kind == 3 then (s.engPasDirect g p.at_ 8).map (·.headD 0) else .ok 0) ps

/-- Is a word poisoned that the engine reads in the scratchpad: of the descriptor, or of what a patch changes (R386)? -/
def Gang.binBad (g : Gang) (a : Nat) : Bool :=
  g.spadBad a (32 + 16 * binsOf g a) || (patchesOf g a).any fun p =>
    (p.kind == 1 && g.spadBad p.at_ 4) || (p.kind == 2 && (g.spadBad p.at_ 4 || g.spadBad (p.at_ + 36) 4))

/-- The oldest BINGO of the gang run: its counts and overflow written, then its patches in bin order (R320). -/
def State.binRun (s : State) (g : Gang) (a : Nat) (pc : DWord) : Except EngStop State := do
  engClean (g.binBad a)
  engCheck (s.binOk g a)
  let ps := patchesOf g a
  let (ds, pas) ← s.binItems g a
  let cells ← s.cellPas g ps
  let count (b : Nat) : Nat := (ds.filter (· == b)).length
  let x := Memory.readNat g.spad a 32
  let beyond := (ds.filter fun d => ps.length ≤ d).length
  let s := (s.engReplies g pas).modGang g.id fun g =>
    let g := if nfld x 18 1 / 2 == 1 then
        (List.range ps.length).foldl (fun (g : Gang) b => g.writeSpad (nfld x 20 4 + 4 * b) 4 (count b)) g
      else g
    g.writeSpad (a + 24) 4 beyond
  let (t, ok) := State.patchAll g.id (ps.zipIdx.map fun p => (p.1, count p.2, cells.getD p.2 0)) s
  if ok then
    .ok (t.modGang g.id fun g => { g with bins := g.bins.tail, binDone := g.binDone + 1, binJoined := none })
  else .ok (t.engAbort g.id 0x82 0xFFFF pc)

/-- BINNING_RUN (R320). -/
def execBinningRun (gang : Nat) (s : State) : Host.Outcome State Fault Refusal :=
  match s.gang? gang with
  | none => .next s
  | some g =>
    match g.bins with
    | [] => .next s
    | b :: _ =>
      if !(s.gangOn g && g.rinksSet b.seq) then .next s else
      match s.binRun g b.off b.pc with
      | .ok t => .next (t.settle gang)
      | .error e => .next (s.engStop g b.pc g.binJoined
          (fun p t => t.modGang gang fun g => { g with binJoined := some p }) e)

end Sys2Proof.Machine
end

