-- ==== Sys2Proof/Machine/Collective.lean ====
section
/-! DEFINITION. Collectives (spec/22 R315, spec/26 R379): REDUCE and ALLGATHER entries of a lift chain, the arrival of another
module at a collective, and the loss of one. What this module sends over its ports is no state of it. -/

namespace Sys2Proof.Machine

/-- What an entry asks of the collective (R313, R315). -/
def collDesc (x : Nat) : CollDesc :=
  if entryKind x == 5 then { reduce := true, ty := nfld x 2 1, op := nfld x 3 1, count := nfld x 4 4 }
  else { reduce := false, ty := 0, op := 0, count := nfld x 4 4 }

/-- Bytes of an element, and of a member's block. -/
def collElem (d : CollDesc) : Nat := if !d.reduce then 1 else if d.ty == 1 then 2 else 4
def collBytes (d : CollDesc) : Nat := collElem d * d.count

/-- x op y of a REDUCE, rounded RNE (R315). -/
def collApply (d : CollDesc) (x y : Nat) : Nat × Flags :=
  let r : Rounding := { mode := .rne }
  if d.ty == 2 then
    let a := intOf true 32 x
    let b := intOf true 32 y
    (match d.op with
     | 0 => intBits 32 (a + b)
     | 1 => if a ≤ b then x else y
     | _ => if a ≤ b then y else x, 0)
  else
    let f : FpFmt := if d.ty == 0 then .f32 else .bf16
    let o := if d.op == 0 then FpFmt.add f r (f.read false x) (f.read false y) else FpFmt.minmax f (d.op == 2) false 0 x y
    (o.bits, o.flags)

/-- Element i of a block. -/
def collAt (d : CollDesc) (bs : List Byte) (i : Nat) : Nat := bytesNat ((bs.drop (collElem d * i)).take (collElem d))

/-- The blocks of the members, in member order. -/
def collBlocks (t : CollTable) (c : Coll) (mine : List Byte) : List (List Byte) :=
  (List.range t.members).map fun m =>
    if m == t.rank then mine else ((c.arrived.find? fun a => a.member == m).map (·.data)).getD []

/-- ((x_0 op x_1) op x_2) … of every element, and its flags. -/
def reduceAll (d : CollDesc) (bs : List (List Byte)) : List Byte × Flags :=
  let xs := (List.range d.count).map fun i =>
    match bs.map fun b => collAt d b i with
    | [] => (0, 0)
    | y :: ys => ys.foldl (fun (a : Nat × Flags) z => let r := collApply d a.1 z; (r.1, a.2 ||| r.2)) (y, 0)
  (xs.flatMap fun x => natBytes (collElem d) x.1, xs.foldl (fun f x => f ||| x.2) 0)

/-- The collective performed, every member having arrived: the destination is written (R261, R315). -/
def State.collRun (s : State) (g : Gang) (t : CollTable) (c : Coll) (x : Nat) : Except EngStop State :=
  let d := collDesc x
  match s.engRead g false (nfld x 8 8) (collBytes d) with
  | .error e => .error e
  | .ok r =>
    let blocks := collBlocks t c r.bytes
    let (out, fl) := if d.reduce then reduceAll d blocks
      else (blocks.flatMap fun b => (List.range d.count).map fun i => b.getD i 0, 0)
    match s.engPasDirect g (nfld x 16 8) out.length with
    | .error e => .error e
    | .ok pas =>
      let u := s.engReplies g (t.pas ++ r.pas)
      let u := (lineWrites (pas.zip out)).foldl (fun (u : State) w => u.directWrite g.die w) u
      .ok ((u.raiseFlags g.id fl).dropColl c.ctx c.num)

/-- A queue at an entry of a collective: it waits for an entry of the same collective in progress, joins, and performs the
collective once every other member has arrived; where the members disagree the gang aborts (R315, R379). As the entry starts,
the gang's COMMITTED is set (R261). -/
def State.collEntry (s : State) (g : Gang) (q : Nat) (k : Walk) (x : Nat) : EntryEnd :=
  let num := nfld x 24 4
  let ctx := s.gangCtx g
  match s.collTable g num with
  | .error e => .stop e
  | .ok t =>
    let c := (s.coll? ctx num).getD { ctx, num }
    match c.here with
    | some h => if h != (g.id, q) then .stay s k
        else if !(c.full t) then .stay s k
        else if c.arrived.any fun a => a.desc != collDesc x then
          .quit ((s.engAbort g.id 0x82 0xFFFF k.chain.pc).dropColl ctx num)
        else if !k.commit then .stay (s.setCommitted g.id) { k with commit := true }
        else .ofExcept k (s.collRun g t c x)
    | none =>
      let u := s.putColl { c with here := some (g.id, q) }
      if c.full t then .stay (u.setCommitted g.id) { k with commit := true } else .stay u k

/-- REDUCE_ENTRY (R315). -/
def execReduceEntry (gang queue : Nat) (s : State) : Host.Outcome State Fault Refusal :=
  .next (s.runEntry gang queue (· == 5) fun g k x => s.collEntry g queue k x)

/-- ALLGATHER_ENTRY (R315). -/
def execAllgatherEntry (gang queue : Nat) (s : State) : Host.Outcome State Fault Refusal :=
  .next (s.runEntry gang queue (· == 6) fun g k x => s.collEntry g queue k x)

/-- With its last member there, a collective that this module's entry waits at starts: it completes, whatever becomes of the gang,
whose COMMITTED is set (R258, R261, R315). -/
def State.startColl (s : State) (c : Coll) : State :=
  match c.here with
  | none => s
  | some (gid, q) => match s.gang? gid with
    | none => s
    | some g => match s.collTable g c.num with
      | .ok t => if c.full t then
            (s.modLiftQ gid q fun x => { x with walk := x.walk.map fun k => { k with commit := true } }).setCommitted gid
          else s
      | .error _ => s

/-- COLLECTIVE_MEMBER_ARRIVAL (R315): another module reaches its entry, and its source block arrives. -/
def execCollectiveMemberArrival (ctx coll member : Nat) (desc : CollDesc) (data : List Byte) (s : State) :
    Host.Outcome State Fault Refusal :=
  if (s.ctx? ctx).isNone || 256 ≤ coll || 16 ≤ member then .next s else
  let c := (s.coll? ctx coll).getD { ctx, num := coll }
  if c.arrived.any fun a => a.member == member then .next s
  else
    let a : CollArr := { member, desc, data }
    let c := { c with arrived := c.arrived ++ [a] }
    .next ((s.putColl c).startColl c)

/-- PEER_LOST (R379): a peer that is lost while an entry is performed aborts the gang that takes part, with code 0x85; its
COMMITTED is set. -/
def execPeerLost (ctx coll member : Nat) (s : State) : Host.Outcome State Fault Refusal :=
  match s.coll? ctx coll with
  | none => .next s
  | some c =>
    match c.here with
    | none => .next (s.putColl { c with arrived := c.arrived.filter fun a => a.member != member })
    | some (gid, q) =>
      let pc := (((s.gang? gid).bind fun g => (g.liftQ q).walk).map fun k => k.chain.pc).getD 0
      .next (((s.setCommitted gid).engAbort gid 0x85 0xFFFF pc).dropColl ctx coll)

end Sys2Proof.Machine
end

