-- ==== Sys2Proof/Machine/CrossLane.lean ====
section
/-! DEFINITION. Cross-lane operations, wave reductions and scans (spec/05 R94 to R97): returning forms that combine the
registers of several lanes of a wave. -/

namespace Sys2Proof.Machine

/-- A register of a source lane, as the issuing group's lane reads it: inside the group the value at issue, outside it a
value the register holds at some time before the landing (R95), of a uniform register too: that at the issue or any that is
written meanwhile (notes/assumptions/82.md). -/
def State.laneRead (s : State) (c : Issue) (w : Wave) (src : Nat) (r : Reg) : Word × Option (Nat × LateRead) :=
  if c.lanes.getLsbD src then (w.reg s.fresh src r, none) else (w.raw src r, some (src, .reg r))

/-- A result outstanding for lane `l` with a value read from a source lane. -/
def State.pendRead (w : Wave) (d : Reg) (lane : Option Nat) (lanes : LaneMask) (x : Word × Option (Nat × LateRead))
    (s : State) : State :=
  let (id, s) := s.newId
  s.addPending w.id { id, lane, lanes, regs := [d], vals := [x.1], late := x.2 }

/-- A shuffle: each lane reads register a of the source lane that `f` gives from its own lane and B (R94). -/
def shuffleAct (d a b : Reg) (f : Nat → Nat → Nat) (s : State) (c : Issue) (w : Wave) (m : LaneMask) : State :=
  if d.isUni then
    let l := lowest m
    s.pendRead w d none m (s.laneRead c w (f l (count5' (w.reg s.fresh l b))) a)
  else
    (lanesOf m).foldl (fun t l =>
      t.pendRead w d (some l) (laneBit l) (s.laneRead c w (f l (count5' (w.reg s.fresh l b))) a)) s
where
  /-- B[4:0]. -/
  count5' (x : Word) : Nat := x.toNat % 32

/-- WRL: register d of lane L of the group takes the uniform A (R94). -/
def writeLaneAct (d a b : Reg) (s : State) (c : Issue) (w : Wave) (m : LaneMask) : State :=
  let l := lowest m
  let t := (w.reg s.fresh l b).toNat % 32
  if m.getLsbD t && c.lanes.getLsbD t then s.pendRead w d (some t) (laneBit t) (w.reg s.fresh l a, none) else s

/-- The terms of a reduction in ascending lane order from the initial value B of the first lane (R96): the running values,
and the flags of all steps. -/
def reduceFold (f : Word → Word → Word × Flags) : Word → List Word → List Word × Flags
  | _, [] => ([], 0)
  | r, x :: xs =>
    let y := f r x
    let (zs, fl) := reduceFold f y.1 xs
    (y.1 :: zs, y.2 ||| fl)

/-- A result outstanding with known values and flags. -/
def State.pendValue (w : Wave) (d : Reg) (lane : Option Nat) (lanes : LaneMask) (v : Word) (fl : Flags) (s : State) : State :=
  let (id, s) := s.newId
  s.addPending w.id { id, lane, lanes, regs := [d], vals := [v], flags := fl }

/-- A reduction or a scan over the participants (R96): the threads in which the chain acts, those that trap or fault at another
word of the chain being left out (notes/assumptions/65.md). -/
def reduceAct (scan : Bool) (d a b : Reg) (f : Word → Word → Word × Flags) (s : State) (_ : Issue) (w : Wave)
    (m : LaneMask) : State :=
  let ls := lanesOf m
  let r0 := w.reg s.fresh (lowest m) b
  let (run, fl) := reduceFold f r0 (ls.map fun l => w.reg s.fresh l a)
  let last := run.getLastD r0
  if d.isUni then s.pendValue w d none m last fl
  else (ls.zip run).foldl (fun s x => s.pendValue w d (some x.1) (laneBit x.1) (if scan then x.2 else last) fl) s

/-- One binary32 addition, rounded to nearest even whatever rmode says, with FTZI and FTZO (R97). -/
def addStep (fmode : BitVec 6) (r x : Word) : Word × Flags :=
  let y := FpFmt.add .f32 { mode := .rne, ftzo := ftzoOf fmode }
    (FpFmt.read .f32 (ftziOf fmode) r.toNat) (FpFmt.read .f32 (ftziOf fmode) x.toNat)
  (BitVec.ofNat 32 y.bits, y.flags)

/-- An integer step raises no flag. -/
def intStep (f : Word → Word → Word) (r x : Word) : Word × Flags := (f r x, 0)

/-- The floating-point reductions read FMODE at issue (R97, R153). The flags of all steps are merged when a lane's result lands, as
R153 has it for 0x18 and 0x19; the rules name no time for these forms (notes/assumptions/64.md). -/
def reduceFloatAct (scan : Bool) (d a b : Reg) (s : State) (c : Issue) (w : Wave) (m : LaneMask) : State :=
  reduceAct scan d a b (addStep w.fmode) s c w m

/-- SHFL (R94). -/
def execShfl (d a b : Reg) (s : State) : Host.Outcome State Fault Refusal :=
  runWord (.shfl d a b) { act := shuffleAct d a b fun _ n => n } s

/-- SHFLX (R94). -/
def execShflx (d a b : Reg) (s : State) : Host.Outcome State Fault Refusal :=
  runWord (.shflx d a b) { act := shuffleAct d a b fun l n => l ^^^ n } s

/-- SHFLU (R94). -/
def execShflu (d a b : Reg) (s : State) : Host.Outcome State Fault Refusal :=
  runWord (.shflu d a b) { act := shuffleAct d a b fun l n => if n ≤ l then l - n else l } s

/-- SHFLD (R94). -/
def execShfld (d a b : Reg) (s : State) : Host.Outcome State Fault Refusal :=
  runWord (.shfld d a b) { act := shuffleAct d a b fun l n => if l + n ≤ 31 then l + n else l } s

/-- RDL (R94). -/
def execRdl (d a b : Reg) (s : State) : Host.Outcome State Fault Refusal :=
  runWord (.rdl d a b) { act := shuffleAct d a b fun _ n => n } s

/-- WRL (R94). -/
def execWrl (d a b : Reg) (s : State) : Host.Outcome State Fault Refusal :=
  runWord (.wrl d a b) { act := writeLaneAct d a b } s

/-- REDADD_I (R96). -/
def execRedaddI (d a b : Reg) (s : State) : Host.Outcome State Fault Refusal :=
  runWord (.redaddI d a b) { act := reduceAct false d a b (intStep fun r x => r + x) } s

/-- REDMIN_I (R96). -/
def execRedminI (d a b : Reg) (s : State) : Host.Outcome State Fault Refusal :=
  runWord (.redminI d a b) { act := reduceAct false d a b (intStep fun r x => if x.slt r then x else r) } s

/-- REDMAX_I (R96). -/
def execRedmaxI (d a b : Reg) (s : State) : Host.Outcome State Fault Refusal :=
  runWord (.redmaxI d a b) { act := reduceAct false d a b (intStep fun r x => if r.slt x then x else r) } s

/-- REDAND (R96). -/
def execRedand (d a b : Reg) (s : State) : Host.Outcome State Fault Refusal :=
  runWord (.redand d a b) { act := reduceAct false d a b (intStep fun r x => r &&& x) } s

/-- REDOR (R96). -/
def execRedor (d a b : Reg) (s : State) : Host.Outcome State Fault Refusal :=
  runWord (.redor d a b) { act := reduceAct false d a b (intStep fun r x => r ||| x) } s

/-- REDADD_F32 (R96, R97). -/
def execRedaddF32 (d a b : Reg) (s : State) : Host.Outcome State Fault Refusal :=
  runWord (.redaddF32 d a b) { act := reduceFloatAct false d a b } s

/-- SCAN_I (R96). -/
def execScanI (d a b : Reg) (s : State) : Host.Outcome State Fault Refusal :=
  runWord (.scanI d a b) { act := reduceAct true d a b (intStep fun r x => r + x) } s

/-- SCAN_F32 (R96, R97). -/
def execScanF32 (d a b : Reg) (s : State) : Host.Outcome State Fault Refusal :=
  runWord (.scanF32 d a b) { act := reduceFloatAct true d a b } s

end Sys2Proof.Machine
end

