-- ==== Sys2Proof/Machine/Delta.lean ====
section
/-! DEFINITION. The gated delta rule (spec/21 R300, spec/23 R335, R336, spec/24 R350): DUPD and DQRY, and the events that run
them. -/

namespace Sys2Proof.Machine

/-! ## The words (R350) -/

def deltaCheck (a : Reg) (s : State) (_ : Issue) (w : Wave) (_ : Nat) : Verdict :=
  (s.recordCheck w (s.uni w a).toNat 16 64).andThen ((poisonCheck s w (s.uni w a).toNat 64).andThen (roomCheck s w))

/-- The TIDs of a chunk record (R300): K, V, Q, G, O. -/
def chunkTids (x : Nat) : List Nat := [nfld x 8 2, nfld x 10 2, nfld x 12 2, nfld x 14 2, nfld x 16 2]

/-- A chunk enqueued: FMODE and the handle are captured, and the footprint is the state's tiles (R336). -/
def deltaAct (kind : TqKind) (a : Reg) (s : State) (c : Issue) (w : Wave) (_ : LaneMask) : State :=
  let g := s.gangOf w
  let off := (s.uni w a).toNat
  let x := Memory.readNat g.spad off 64
  let h := nfld x 0 4
  let foot := match g.pinning h with
    | some p => p.foot
    | none => if (s.boundState g h).isSome then s.handleTiles g h else []
  s.enqueue w.gang [] fun seq _ =>
    { seq, kind, off, fmode := w.fmode, pc := c.wordPc, handle := h, foot
      tids := chunkTids x }

/-- DUPD (R350). -/
def execDupd (a : Reg) (s : State) : Host.Outcome State Fault Refusal :=
  runWord (.dupd a) { check := deltaCheck a, commit := always, act := deltaAct .dupd a } s

/-- DQRY (R350). -/
def execDqry (a : Reg) (s : State) : Host.Outcome State Fault Refusal :=
  runWord (.dqry a) { check := deltaCheck a, commit := always, act := deltaAct .dqry a } s

/-! ## The arithmetic (R335) -/

/-- A rounded FP32 value and its flags. -/
abbrev Fl := Nat × Flags

/-- The exact sum of terms in one rounding to FP32 (R142, R335). -/
def sum32 (ts : List Term) : Fl :=
  match sumTerms .rne ts with
  | .invalid => (FpFmt.nan .f32, flagIV)
  | .nan s => (FpFmt.nan .f32, when s flagIV)
  | .inf n => (FpFmt.signed .f32 n (FpFmt.inf .f32), 0)
  | .fin n m e => let r := FpFmt.round .f32 { mode := .rne } n m e; (r.bits, r.flags)

def val32 (x : Nat) : Fv := FpFmt.read .f32 false x

/-- Σ s_j·k_j by blocks of 16 from +0. -/
def dotRow (ss ks : List Fv) : Fl := accBlocks 16 0 (ss.zip ks)

/-- e_i = RNE(β × RNE(v_i − RNE(α × u_i))). -/
def errorOf (alpha beta v : Fv) (u : Fl) : Fl :=
  let x := sum32 [mulExact alpha (val32 u.1)]
  let y := sum32 [.val v, .val (val32 x.1).negate]
  let z := sum32 [mulExact beta (val32 y.1)]
  (z.1, u.2 ||| x.2 ||| y.2 ||| z.2)

/-- One row of S after a token: s_ij = RNE(α·s_ij + e_i·k_j). -/
def updateRow (alpha beta : Fv) (ks : List Fv) (v : Fv) (ss : List Nat) : List Nat × Flags :=
  let e := errorOf alpha beta v (dotRow (ss.map val32) ks)
  let xs := (ss.zip ks).map fun p => sum32 [mulExact alpha (val32 p.1), mulExact (val32 e.1) p.2]
  (xs.map (·.1), xs.foldl (fun f x => f ||| x.2) e.2)

/-! ## A chunk run -/

/-- The formats of K, V, Q, G and O. -/
def deltaFmt (f : Nat) : Bool := f == 0 || f == 2 || f == 3

/-- An entry that fits: dimension 0 holds `n` elements and dimension 1 `count` rows (R300). -/
def State.chunkEntry (s : State) (g : Gang) (tid n count : Nat) : Except EngStop (Tensor × List Nat) :=
  match s.tensor g tid with
  | .error e => .error e
  | .ok (t, pas) =>
    if deltaFmt t.fmt && n ≤ t.ext.getD 0 1 && count ≤ t.ext.getD 1 1 then .ok (t, pas) else .error (.abort 0x82 tid)

/-- Row t of an entry. -/
def State.chunkRow (s : State) (g : Gang) (e : Tensor) (n t : Nat) : Except EngStop (List Fv × List Nat) :=
  match engAll (fun j => s.elem g e j t) (List.range n) with
  | .error x => .error x
  | .ok es => .ok (es.map (·.v), es.flatMap (·.pas))

/-- A row of S. -/
def State.stateRow (s : State) (cl dk : Nat) (ps : List Nat) (i : Nat) : List Nat :=
  (List.range dk).map fun j => let p := stateWord dk ps i j; (s.tileWord cl p.1 p.2).toNat

def State.setStateRow (s : State) (cl dk : Nat) (ps : List Nat) (i : Nat) (xs : List Nat) : State :=
  xs.zipIdx.foldl (fun (t : State) x => let p := stateWord dk ps i x.2; t.setTileWord cl p.1 p.2 (BitVec.ofNat 32 x.1)) s

/-- What a chunk names: its state and the entries it uses. -/
structure Chunk where
  r  : StateRec
  ps : List Nat
  fmode : BitVec 6
  k  : Tensor
  v  : Tensor
  q  : Tensor
  g  : Tensor
  o  : Tensor

/-- One token applied to S. -/
def State.tokenUpdate (s : State) (g : Gang) (c : Chunk) (t : Nat) : Except EngStop State := do
  let (ks, p1) ← s.chunkRow g c.k c.r.dk t
  let (vs, p2) ← s.chunkRow g c.v c.r.dv t
  let (gs, p3) ← s.chunkRow g c.g 2 t
  let rows := (List.range c.r.dv).map fun i =>
    (i, updateRow (gs.getD 0 (.nan false)) (gs.getD 1 (.nan false)) ks (vs.getD i (.nan false))
      (s.stateRow g.cluster c.r.dk c.ps i))
  let u := rows.foldl (fun (u : State) x => u.setStateRow g.cluster c.r.dk c.ps x.1 x.2.1) (s.engReplies g (p1 ++ p2 ++ p3))
  let u := u.modState c.r.ctx c.r.handle fun r => { r with tokens := r.tokens + 1 }
  .ok (u.raiseFlags g.id (rows.foldl (fun f x => f ||| x.2.2) 0))

/-- An FP32 o_i in O's format (R143); where that is FP32 the step is exact (R335). -/
def outRound (fmt : Nat) (fmode : BitVec 6) (x : Nat) : Rounded :=
  if fmt == 0 then { bits := x, gen := 0 } else roundInto (fmtKind fmt) (outRounding fmode false) (val32 x)

/-- o_t = S·q_t written to row t of O (R143). -/
def State.tokenOut (s : State) (g : Gang) (c : Chunk) (t : Nat) : Except EngStop State := do
  let (qs, p1) ← s.chunkRow g c.q c.r.dk t
  let os := (List.range c.r.dv).map fun i => (i, dotRow ((s.stateRow g.cluster c.r.dk c.ps i).map val32) qs)
  let rs := os.map fun o => (o.1, outRound c.o.fmt c.fmode o.2.1)
  let ws ← engAll (fun (x : Nat × Rounded) => s.elemTarget g c.o x.1 t x.2.bits) rs
  let u ← s.engMove g c.o.sp p1 (ws.foldl EngWrite.append {})
  .ok (u.raiseFlags g.id ((rs.map fun x => x.2.flags).foldl (· ||| ·) (os.foldl (fun f o => f ||| o.2.2) 0)))

/-- The tokens from `t` on, in order. -/
def State.tokens (gid : Nat) (c : Chunk) (upd out : Bool) : Nat → Nat → State → Except EngStop State
  | 0, _, s => .ok s
  | n + 1, t, s => do
    let g := (s.gang? gid).getD { id := gid, launch := 0 }
    let s ← if upd then s.tokenUpdate g c t else .ok s
    let g := (s.gang? gid).getD { id := gid, launch := 0 }
    let s ← if out then s.tokenOut g c t else .ok s
    State.tokens gid c upd out n (t + 1) s

/-- A chunk record checked and run (R300, R335): every entry it names has to fit. -/
def State.chunkRun (s : State) (upd : Bool) (g : Gang) (cmd : TileCmd) : Except EngStop State := do
  let x := Memory.readNat g.spad cmd.off 64
  let count := nfld x 4 1
  let out := !upd || nfld x 5 1 % 2 == 1
  engClean (g.spadBad cmd.off 64 || (s.handleTiles g cmd.handle).any (s.tileBad g.cluster))
  engCheck (1 ≤ count && count ≤ 16 && nfld x 5 1 ≤ 1 && zeroBytes x [(6, 2), (18, 46)])
  match s.heldState g cmd.handle with
  | none => engProt
  | some r =>
    let k ← s.chunkEntry g (nfld x 8 2) r.dk count
    let v ← s.chunkEntry g (nfld x 10 2) r.dv count
    let q ← s.chunkEntry g (nfld x 12 2) r.dk count
    let gg ← s.chunkEntry g (nfld x 14 2) 2 count
    let o ← s.chunkEntry g (nfld x 16 2) r.dv count
    tidCheck (nfld x 16 2) (!out || !o.1.ro)
    let c : Chunk := { r, ps := s.handleTiles g cmd.handle, fmode := cmd.fmode, k := k.1, v := v.1, q := q.1, g := gg.1, o := o.1 }
    State.tokens g.id c upd out count 0 (s.engReplies g (k.2 ++ v.2 ++ gg.2 ++ q.2 ++ o.2))

/-- DELTA_UPDATE_RUN (R335). -/
def execDeltaUpdateRun (gang idx : Nat) (s : State) : Host.Outcome State Fault Refusal :=
  .next (s.runImage gang idx .dupd fun s => s.chunkRun true)

/-- DELTA_QUERY_RUN (R335). -/
def execDeltaQueryRun (gang idx : Nat) (s : State) : Host.Outcome State Fault Refusal :=
  .next (s.runImage gang idx .dqry fun s => s.chunkRun false)

end Sys2Proof.Machine
end

