-- ==== Sys2Proof/Machine/Fetch.lean ====
section
/-! DEFINITION. Fetching code (spec/03 R38, R39, spec/06 R105): the word a wave fetches at a program counter, runs of slot
words with head words skipped, and the chain at a program counter (R45). -/

namespace Sys2Proof.Machine

/-- The word at a program counter, or why it cannot be fetched. -/
def State.fetchWord (s : State) (w : Wave) (pc : DWord) : Except Verdict Word :=
  match s.access w .fetch pc.toNat 4 with
  | .error v => .error v
  | .ok pa =>
    if s.poisoned pa 4 then .error (.abort 0x80 0 pc.toNat)
    else .ok (BitVec.ofNat 32 (lineNat (s.homeView (pa / 64)) (pa % 64) 4))

/-- The `n` slot words from `pc` on, with their addresses, or the first fetch that does not go on. -/
def State.fetchRun (s : State) (w : Wave) : Nat → DWord → Except Verdict (List Word)
  | 0, _ => .ok []
  | n + 1, pc =>
    match s.fetchWord w pc with
    | .error v => .error v
    | .ok x =>
      match s.fetchRun w n (nextWord pc) with
      | .error v => .error v
      | .ok xs => .ok (x :: xs)

/-- The program counter `n` words on (R39). -/
def skipWords : Nat → DWord → DWord
  | 0, pc => pc
  | n + 1, pc => skipWords n (nextWord pc)

/-! ## The chain at a program counter (R45 to R48) -/

/-- The words of a chain from `pc` on: at most `n`, each of them followed by the next while its C is 1 (R45). -/
def State.chainAt (s : State) (w : Wave) : Nat → DWord → Except Verdict (List Word)
  | 0, _ => .ok []
  | n + 1, pc =>
    match s.fetchWord w pc with
    | .error v => .error v
    | .ok x =>
      if x.getLsbD 31 then
        match s.chainAt w n (pc + 4) with
        | .error v => .error v
        | .ok xs => .ok (x :: xs)
      else .ok [x]

/-- The slots from a program counter to the end of its packet. -/
def slotsLeft (pc : DWord) : Nat := 4 - pc.toNat / 4 % 4

/-- A pre-emption request keeps a thread at its W marker, in its PC group, once it has parked there on a load from beyond the L1
(R223, R267, R269). -/
def State.parkFar (s : State) (w : Wave) : Wave :=
  if !(s.gangOf w).preempt then w else
  w.mapLanes (maskBy fun l => (w.thread l).running && w.outstandingFar l) fun _ t =>
    match s.chainAt w (slotsLeft t.pc) t.pc with
    | .ok ws => if ws.any (·.getLsbD 30) then { t with kept := true } else t
    | .error _ => t

end Sys2Proof.Machine
end

