-- ==== Sys2Proof/Machine/FloatOps.lean ====
section
/-! DEFINITION. Floating-point, dot-product, conversion and packing instructions (spec/09 R152 to R166). -/

namespace Sys2Proof.Machine

/-! ## FP32 (R154, R155) -/

def opFadd (d a b : Reg) : LaneOp := laneRound 1 d fun x => FpFmt.add .f32 x.rounding (x.f32 a) (x.f32 b)
def opFsub (d a b : Reg) : LaneOp := laneRound 1 d fun x => FpFmt.add .f32 x.rounding (x.f32 a) (x.f32 b).negate
def opFmul (d a b : Reg) : LaneOp := laneRound 1 d fun x => FpFmt.mul .f32 x.rounding (x.f32 a) (x.f32 b)
def opFmin (d a b : Reg) : LaneOp := laneRound 1 d fun x =>
  FpFmt.minmax .f32 false (ftziOf x.fmode) x.gen (x.rd a).toNat (x.rd b).toNat
def opFmax (d a b : Reg) : LaneOp := laneRound 1 d fun x =>
  FpFmt.minmax .f32 true (ftziOf x.fmode) x.gen (x.rd a).toNat (x.rd b).toNat

/-- A form that acts on bits: a NaN in A gives the canonical NaN (R154). -/
def bitForm (a r : Word) : Word := if (FpFmt.read .f32 false a.toNat).isNan then 0x7FC00000#32 else r

def opFcpys (d a b : Reg) : LaneOp := lane2 d a b fun x y => bitForm x ((x &&& 0x7FFFFFFF#32) ||| (y &&& 0x80000000#32))
def opFneg (d a : Reg) : LaneOp := lane1 d a fun x => bitForm x (x ^^^ 0x80000000#32)
def opFabs (d a : Reg) : LaneOp := lane1 d a fun x => bitForm x (x &&& 0x7FFFFFFF#32)

def opFmac (d a b : Reg) : LaneOp := laneRound 1 d fun x => FpFmt.fma .f32 x.rounding (x.f32 a) (x.f32 b) (x.f32 d)
def opFmsc (d a b : Reg) : LaneOp := laneRound 1 d fun x =>
  FpFmt.fma .f32 x.rounding (x.f32 a) (x.f32 b) (x.f32 d).negate
def opFnmac (d a b : Reg) : LaneOp := laneRound 1 d fun x =>
  FpFmt.fma .f32 x.rounding (x.f32 a).negate (x.f32 b) (x.f32 d).negate
def opFnmsc (d a b : Reg) : LaneOp := laneRound 1 d fun x =>
  FpFmt.fma .f32 x.rounding (x.f32 a).negate (x.f32 b) (x.f32 d)

/-! ## Transcendental functions (R156, R157), returning -/

def opFsqrt (d a : Reg) : LaneOp := laneRound 1 d fun x => FpFmt.sqrt .f32 x.rounding (x.f32 a)
def opFrcp (d a : Reg) : LaneOp := laneRound 1 d fun x => frcpOf (x.rd a) x.rounding (x.f32 a)
def opFrsq (d a : Reg) : LaneOp := laneRound 1 d fun x => frsqOf (x.rd a) x.rounding (x.f32 a)
def opFex2 (d a : Reg) : LaneOp := laneRound 1 d fun x => fex2Of (x.rd a) x.rounding (x.f32 a)
def opFlg2 (d a : Reg) : LaneOp := laneRound 1 d fun x => flg2Of (x.rd a) x.rounding (x.f32 a)
def opFsin (d a : Reg) : LaneOp := laneRound 1 d fun x => fsinOf (x.rd a) x.rounding (x.f32 a)
def opFcos (d a : Reg) : LaneOp := laneRound 1 d fun x => fcosOf (x.rd a) x.rounding (x.f32 a)
def opFtanh (d a : Reg) : LaneOp := laneRound 1 d fun x => ftanhOf (x.rd a) x.rounding (x.f32 a)

/-! ## FP64 (R158), returning -/

def opDadd (d a b : Reg) : LaneOp := laneRound 2 d fun x => FpFmt.add .f64 x.rounding (x.f64 a) (x.f64 b)
def opDsub (d a b : Reg) : LaneOp := laneRound 2 d fun x => FpFmt.add .f64 x.rounding (x.f64 a) (x.f64 b).negate
def opDmul (d a b : Reg) : LaneOp := laneRound 2 d fun x => FpFmt.mul .f64 x.rounding (x.f64 a) (x.f64 b)
def opDmin (d a b : Reg) : LaneOp := laneRound 2 d fun x =>
  FpFmt.minmax .f64 false (ftziOf x.fmode) x.gen (wide x.rd 2 a) (wide x.rd 2 b)
def opDmax (d a b : Reg) : LaneOp := laneRound 2 d fun x =>
  FpFmt.minmax .f64 true (ftziOf x.fmode) x.gen (wide x.rd 2 a) (wide x.rd 2 b)
def opDmac (d a b : Reg) : LaneOp := laneRound 2 d fun x => FpFmt.fma .f64 x.rounding (x.f64 a) (x.f64 b) (x.f64 d)
def opDsqrt (d a : Reg) : LaneOp := laneRound 2 d fun x => FpFmt.sqrt .f64 x.rounding (x.f64 a)

/-! ## Packed halves (R159) -/

/-- Each half computed independently, the low half first; the flags are those of either. -/
def packed (d a b : Reg) (f : LaneIn → Rounding → Nat → Nat → Nat → Rounded) : LaneOp := laneRound 1 d fun x =>
  let h (r : Reg) (k : Nat) : Nat := (x.rd r).toNat / 2 ^ (16 * k) % 2 ^ 16
  let lo := f x x.rounding (h a 0) (h b 0) (h d 0)
  let hi := f x { x.rounding with gen := lo.gen } (h a 1) (h b 1) (h d 1)
  { bits := lo.bits + 2 ^ 16 * hi.bits, flags := lo.flags ||| hi.flags, gen := hi.gen }

def packedAdd (m : FpFmt) (d a b : Reg) : LaneOp := packed d a b fun x r p q _ =>
  m.add r (m.read (ftziOf x.fmode) p) (m.read (ftziOf x.fmode) q)
def packedMul (m : FpFmt) (d a b : Reg) : LaneOp := packed d a b fun x r p q _ =>
  m.mul r (m.read (ftziOf x.fmode) p) (m.read (ftziOf x.fmode) q)
def packedFma (m : FpFmt) (d a b : Reg) : LaneOp := packed d a b fun x r p q y =>
  m.fma r (m.read (ftziOf x.fmode) p) (m.read (ftziOf x.fmode) q) (m.read (ftziOf x.fmode) y)
def packedMax (m : FpFmt) (d a b : Reg) : LaneOp := packed d a b fun x r p q _ =>
  m.minmax true (ftziOf x.fmode) r.gen p q

def opHadd2 (d a b : Reg) : LaneOp := packedAdd .f16 d a b
def opHmul2 (d a b : Reg) : LaneOp := packedMul .f16 d a b
def opHmac2 (d a b : Reg) : LaneOp := packedFma .f16 d a b
def opHmax2 (d a b : Reg) : LaneOp := packedMax .f16 d a b
def opBadd2 (d a b : Reg) : LaneOp := packedAdd .bf16 d a b
def opBmul2 (d a b : Reg) : LaneOp := packedMul .bf16 d a b
def opBmac2 (d a b : Reg) : LaneOp := packedFma .bf16 d a b
def opBmax2 (d a b : Reg) : LaneOp := packedMax .bf16 d a b

/-! ## Dot products (R160, R161) -/

/-- Element k of `n` bits of a register. -/
def elem (x : Word) (n k : Nat) : Nat := x.toNat / 2 ^ (n * k) % 2 ^ n

/-- An integer dot product of four bytes, modulo 2^32. -/
def dotInt (d a b : Reg) (f : Nat → Int) : LaneOp := lane3 d a b fun dv x y =>
  dv + BitVec.ofInt 32 ((List.range 4).foldl (fun s k => s + f (elem x 8 k) * intOf true 8 (elem y 8 k)) 0)

/-- A floating-point dot product of `n`-bit elements. -/
def dotFloat (m : FpFmt) (n : Nat) (d a b : Reg) : LaneOp := laneRound 1 d fun x =>
  dotOf x.rounding (x.f32 d) ((List.range (32 / n)).map fun k =>
    (m.read (ftziOf x.fmode) (elem (x.rd a) n k), m.read (ftziOf x.fmode) (elem (x.rd b) n k)))

def opDp4I8 (d a b : Reg) : LaneOp := dotInt d a b (intOf true 8)
def opDp4E4m3 (d a b : Reg) : LaneOp := dotFloat .e4m3 8 d a b
def opDp4E5m2 (d a b : Reg) : LaneOp := dotFloat .e5m2 8 d a b
def opDp2F16 (d a b : Reg) : LaneOp := dotFloat .f16 16 d a b
def opDp2Bf16 (d a b : Reg) : LaneOp := dotFloat .bf16 16 d a b
def opDp4Ps2 (d a b : Reg) : LaneOp := dotInt d a b ps2Int

/-! ## Conversion (R162 to R164) -/

/-- The rounding and saturation a conversion selects (R162). -/
def LaneIn.cvRounding (x : LaneIn) (sat : Bool) (r : CvRound) : Rounding :=
  match r with
  | .mode => { x.rounding with sat := sat || satdOf x.fmode }
  | .rne => { x.rounding with mode := .rne, sat := sat }
  | .rz => { x.rounding with mode := .rz, sat := sat }
  | .sto => { x.rounding with mode := .sto, sat := sat }

def cvForm (sat : Bool) (d a : Reg) (y z : CvFmt) (r : CvRound) : LaneOp := laneRound y.regCount d fun x =>
  convert (x.cvRounding sat r) (cvKind y) (cvKind z) (ftziOf x.fmode) (wide x.rd z.regCount a)

def opCvt (d a : Reg) (y x : CvFmt) (r : CvRound) : LaneOp := cvForm false d a y x r
def opCvts (d a : Reg) (y x : CvFmt) (r : CvRound) : LaneOp := cvForm true d a y x r

/-! ## Packing (R165, R166) -/

def opPkl (d a b : Reg) : LaneOp := lane2 d a b fun x y => (y <<< 16) ||| (x &&& 0xFFFF#32)
def opPkb (d a b : Reg) : LaneOp := lane3 d a b fun dv x y =>
  (dv <<< 16) ||| ((y &&& 0xFF#32) <<< 8) ||| (x &&& 0xFF#32)

/-- A T3 byte of five i8 digits, and SA where one is clamped. -/
def packT3 (x y : Word) : Word × Flags :=
  let ds := (List.range 4).map (fun k => t3Code (intOf true 8 (elem x 8 k))) ++ [t3Code (intOf true 8 (elem y 8 0))]
  (BitVec.ofNat 32 (ds.foldr (fun t s => t.1 + 3 * s) 0), when (ds.any (·.2)) flagSA)

/-- Digits of a T3 byte as i8 bytes, and FV for an invalid code. -/
def unpackT3 (x y : Word) : Word × Flags :=
  let code := elem x 8 (y.toNat % 4)
  let byte (i : Nat) : Nat := intBits 8 (t3Digit code i)
  (BitVec.ofNat 32 (if y.getLsbD 2 then byte 4
    else byte 0 + 2 ^ 8 * byte 1 + 2 ^ 16 * byte 2 + 2 ^ 24 * byte 3), when (decide (243 ≤ code)) flagFV)

/-- PKPS: SA where the integer is clamped, IX where it is replaced (R166). -/
def packPs2 (dv x : Word) : Word × Flags :=
  let v := x.toInt
  let c := max (-128) (min 128 v)
  let code := ps2Code c
  ((dv <<< 8) ||| BitVec.ofNat 32 code, when (v != c) flagSA ||| when (ps2Int code != c) flagIX)

def opPk3 (d a b : Reg) : LaneOp := laneFlag d a b packT3
def opUnpk3 (d a b : Reg) : LaneOp := laneFlag d a b unpackT3
def opPkps (d a : Reg) : LaneOp := laneFlag d d a packPs2
def opUnpkps (d a b : Reg) : LaneOp := lane2 d a b fun x y => BitVec.ofInt 32 (ps2Int (elem x 8 (y.toNat % 4)))
def opSext8 (d a b : Reg) : LaneOp := lane2 d a b fun x y => BitVec.ofInt 32 (intOf true 8 (elem x 8 (y.toNat % 4)))

/-! ## The meanings -/

/-- FADD (R154). -/
def execFadd (d : Reg) (a : Reg) (b : Reg) (s : State) : Host.Outcome State Fault Refusal :=
  runLane (.fadd d a b) (opFadd d a b) s

/-- FSUB (R154). -/
def execFsub (d : Reg) (a : Reg) (b : Reg) (s : State) : Host.Outcome State Fault Refusal :=
  runLane (.fsub d a b) (opFsub d a b) s

/-- FMUL (R154). -/
def execFmul (d : Reg) (a : Reg) (b : Reg) (s : State) : Host.Outcome State Fault Refusal :=
  runLane (.fmul d a b) (opFmul d a b) s

/-- FMIN (R154). -/
def execFmin (d : Reg) (a : Reg) (b : Reg) (s : State) : Host.Outcome State Fault Refusal :=
  runLane (.fmin d a b) (opFmin d a b) s

/-- FMAX (R154). -/
def execFmax (d : Reg) (a : Reg) (b : Reg) (s : State) : Host.Outcome State Fault Refusal :=
  runLane (.fmax d a b) (opFmax d a b) s

/-- FCPYS (R154). -/
def execFcpys (d : Reg) (a : Reg) (b : Reg) (s : State) : Host.Outcome State Fault Refusal :=
  runLane (.fcpys d a b) (opFcpys d a b) s

/-- FNEG (R154). -/
def execFneg (d : Reg) (a : Reg) (s : State) : Host.Outcome State Fault Refusal :=
  runLane (.fneg d a) (opFneg d a) s

/-- FABS (R154). -/
def execFabs (d : Reg) (a : Reg) (s : State) : Host.Outcome State Fault Refusal :=
  runLane (.fabs d a) (opFabs d a) s

/-- FMAC (R155). -/
def execFmac (d : Reg) (a : Reg) (b : Reg) (s : State) : Host.Outcome State Fault Refusal :=
  runLane (.fmac d a b) (opFmac d a b) s

/-- FMSC (R155). -/
def execFmsc (d : Reg) (a : Reg) (b : Reg) (s : State) : Host.Outcome State Fault Refusal :=
  runLane (.fmsc d a b) (opFmsc d a b) s

/-- FNMAC (R155). -/
def execFnmac (d : Reg) (a : Reg) (b : Reg) (s : State) : Host.Outcome State Fault Refusal :=
  runLane (.fnmac d a b) (opFnmac d a b) s

/-- FNMSC (R155). -/
def execFnmsc (d : Reg) (a : Reg) (b : Reg) (s : State) : Host.Outcome State Fault Refusal :=
  runLane (.fnmsc d a b) (opFnmsc d a b) s

/-- FSQRT (R156). -/
def execFsqrt (d : Reg) (a : Reg) (s : State) : Host.Outcome State Fault Refusal :=
  runReturn (.fsqrt d a) (opFsqrt d a) s

/-- FRCP (R156). -/
def execFrcp (d : Reg) (a : Reg) (s : State) : Host.Outcome State Fault Refusal :=
  runReturn (.frcp d a) (opFrcp d a) s

/-- FRSQ (R156). -/
def execFrsq (d : Reg) (a : Reg) (s : State) : Host.Outcome State Fault Refusal :=
  runReturn (.frsq d a) (opFrsq d a) s

/-- FEX2 (R156). -/
def execFex2 (d : Reg) (a : Reg) (s : State) : Host.Outcome State Fault Refusal :=
  runReturn (.fex2 d a) (opFex2 d a) s

/-- FLG2 (R156). -/
def execFlg2 (d : Reg) (a : Reg) (s : State) : Host.Outcome State Fault Refusal :=
  runReturn (.flg2 d a) (opFlg2 d a) s

/-- FSIN (R156). -/
def execFsin (d : Reg) (a : Reg) (s : State) : Host.Outcome State Fault Refusal :=
  runReturn (.fsin d a) (opFsin d a) s

/-- FCOS (R156). -/
def execFcos (d : Reg) (a : Reg) (s : State) : Host.Outcome State Fault Refusal :=
  runReturn (.fcos d a) (opFcos d a) s

/-- FTANH (R156). -/
def execFtanh (d : Reg) (a : Reg) (s : State) : Host.Outcome State Fault Refusal :=
  runReturn (.ftanh d a) (opFtanh d a) s

/-- DADD (R158). -/
def execDadd (d : Reg) (a : Reg) (b : Reg) (s : State) : Host.Outcome State Fault Refusal :=
  runReturn (.dadd d a b) (opDadd d a b) s

/-- DSUB (R158). -/
def execDsub (d : Reg) (a : Reg) (b : Reg) (s : State) : Host.Outcome State Fault Refusal :=
  runReturn (.dsub d a b) (opDsub d a b) s

/-- DMUL (R158). -/
def execDmul (d : Reg) (a : Reg) (b : Reg) (s : State) : Host.Outcome State Fault Refusal :=
  runReturn (.dmul d a b) (opDmul d a b) s

/-- DMIN (R158). -/
def execDmin (d : Reg) (a : Reg) (b : Reg) (s : State) : Host.Outcome State Fault Refusal :=
  runReturn (.dmin d a b) (opDmin d a b) s

/-- DMAX (R158). -/
def execDmax (d : Reg) (a : Reg) (b : Reg) (s : State) : Host.Outcome State Fault Refusal :=
  runReturn (.dmax d a b) (opDmax d a b) s

/-- DMAC (R158). -/
def execDmac (d : Reg) (a : Reg) (b : Reg) (s : State) : Host.Outcome State Fault Refusal :=
  runReturn (.dmac d a b) (opDmac d a b) s

/-- DSQRT (R158). -/
def execDsqrt (d : Reg) (a : Reg) (s : State) : Host.Outcome State Fault Refusal :=
  runReturn (.dsqrt d a) (opDsqrt d a) s

/-- HADD2 (R159). -/
def execHadd2 (d : Reg) (a : Reg) (b : Reg) (s : State) : Host.Outcome State Fault Refusal :=
  runLane (.hadd2 d a b) (opHadd2 d a b) s

/-- HMUL2 (R159). -/
def execHmul2 (d : Reg) (a : Reg) (b : Reg) (s : State) : Host.Outcome State Fault Refusal :=
  runLane (.hmul2 d a b) (opHmul2 d a b) s

/-- HMAC2 (R159). -/
def execHmac2 (d : Reg) (a : Reg) (b : Reg) (s : State) : Host.Outcome State Fault Refusal :=
  runLane (.hmac2 d a b) (opHmac2 d a b) s

/-- HMAX2 (R159). -/
def execHmax2 (d : Reg) (a : Reg) (b : Reg) (s : State) : Host.Outcome State Fault Refusal :=
  runLane (.hmax2 d a b) (opHmax2 d a b) s

/-- BADD2 (R159). -/
def execBadd2 (d : Reg) (a : Reg) (b : Reg) (s : State) : Host.Outcome State Fault Refusal :=
  runLane (.badd2 d a b) (opBadd2 d a b) s

/-- BMUL2 (R159). -/
def execBmul2 (d : Reg) (a : Reg) (b : Reg) (s : State) : Host.Outcome State Fault Refusal :=
  runLane (.bmul2 d a b) (opBmul2 d a b) s

/-- BMAC2 (R159). -/
def execBmac2 (d : Reg) (a : Reg) (b : Reg) (s : State) : Host.Outcome State Fault Refusal :=
  runLane (.bmac2 d a b) (opBmac2 d a b) s

/-- BMAX2 (R159). -/
def execBmax2 (d : Reg) (a : Reg) (b : Reg) (s : State) : Host.Outcome State Fault Refusal :=
  runLane (.bmax2 d a b) (opBmax2 d a b) s

/-- DP4_I8 (R160). -/
def execDp4I8 (d : Reg) (a : Reg) (b : Reg) (s : State) : Host.Outcome State Fault Refusal :=
  runLane (.dp4I8 d a b) (opDp4I8 d a b) s

/-- DP4_E4M3 (R160). -/
def execDp4E4m3 (d : Reg) (a : Reg) (b : Reg) (s : State) : Host.Outcome State Fault Refusal :=
  runLane (.dp4E4m3 d a b) (opDp4E4m3 d a b) s

/-- DP4_E5M2 (R160). -/
def execDp4E5m2 (d : Reg) (a : Reg) (b : Reg) (s : State) : Host.Outcome State Fault Refusal :=
  runLane (.dp4E5m2 d a b) (opDp4E5m2 d a b) s

/-- DP2_F16 (R160). -/
def execDp2F16 (d : Reg) (a : Reg) (b : Reg) (s : State) : Host.Outcome State Fault Refusal :=
  runLane (.dp2F16 d a b) (opDp2F16 d a b) s

/-- DP2_BF16 (R160). -/
def execDp2Bf16 (d : Reg) (a : Reg) (b : Reg) (s : State) : Host.Outcome State Fault Refusal :=
  runLane (.dp2Bf16 d a b) (opDp2Bf16 d a b) s

/-- DP4_PS2 (R160). -/
def execDp4Ps2 (d : Reg) (a : Reg) (b : Reg) (s : State) : Host.Outcome State Fault Refusal :=
  runLane (.dp4Ps2 d a b) (opDp4Ps2 d a b) s

/-- CVT (R162). -/
def execCvt (d : Reg) (a : Reg) (y : CvFmt) (x : CvFmt) (r : CvRound) (s : State) : Host.Outcome State Fault Refusal :=
  runLane (.cvt d a y x r) (opCvt d a y x r) s

/-- CVTS (R162). -/
def execCvts (d : Reg) (a : Reg) (y : CvFmt) (x : CvFmt) (r : CvRound) (s : State) : Host.Outcome State Fault Refusal :=
  runLane (.cvts d a y x r) (opCvts d a y x r) s

/-- PKL (R165). -/
def execPkl (d : Reg) (a : Reg) (b : Reg) (s : State) : Host.Outcome State Fault Refusal :=
  runLane (.pkl d a b) (opPkl d a b) s

/-- PKB (R165). -/
def execPkb (d : Reg) (a : Reg) (b : Reg) (s : State) : Host.Outcome State Fault Refusal :=
  runLane (.pkb d a b) (opPkb d a b) s

/-- PK3 (R165). -/
def execPk3 (d : Reg) (a : Reg) (b : Reg) (s : State) : Host.Outcome State Fault Refusal :=
  runLane (.pk3 d a b) (opPk3 d a b) s

/-- UNPK3 (R165). -/
def execUnpk3 (d : Reg) (a : Reg) (b : Reg) (s : State) : Host.Outcome State Fault Refusal :=
  runLane (.unpk3 d a b) (opUnpk3 d a b) s

/-- PKPS (R165). -/
def execPkps (d : Reg) (a : Reg) (s : State) : Host.Outcome State Fault Refusal :=
  runLane (.pkps d a) (opPkps d a) s

/-- UNPKPS (R165). -/
def execUnpkps (d : Reg) (a : Reg) (b : Reg) (s : State) : Host.Outcome State Fault Refusal :=
  runLane (.unpkps d a b) (opUnpkps d a b) s

/-- SEXT8 (R165). -/
def execSext8 (d : Reg) (a : Reg) (b : Reg) (s : State) : Host.Outcome State Fault Refusal :=
  runLane (.sext8 d a b) (opSext8 d a b) s

end Sys2Proof.Machine
end

