-- ==== Sys2Proof/Machine/Integer.lean ====
section
/-! DEFINITION. Integer, logic, shift, count, bit-field, immediate and compare instructions and the conditional move
(spec/05 R82 to R92). Each has its computation in one lane (op…) and its meaning (exec…). -/

namespace Sys2Proof.Machine

/-! ## Integer arithmetic (R83, R84) -/

/-- The smaller or larger of two words, signed or unsigned. -/
def minS (a b : Word) : Word := if a.slt b then a else b
def maxS (a b : Word) : Word := if a.slt b then b else a
def minU (a b : Word) : Word := if a.ult b then a else b
def maxU (a b : Word) : Word := if a.ult b then b else a

/-- An exact integer clamped to a range, and SA where it clamps (R84). -/
def clampWord (lo hi v : Int) : Word × Flags :=
  if v < lo then (BitVec.ofInt 32 lo, flagSA) else if hi < v then (BitVec.ofInt 32 hi, flagSA) else (BitVec.ofInt 32 v, 0)

def satI (v : Int) : Word × Flags := clampWord (-(2 ^ 31)) (2 ^ 31 - 1) v
def satN (v : Int) : Word × Flags := clampWord 0 (2 ^ 32 - 1) v

def opAdd (d a b : Reg) : LaneOp := lane2 d a b fun x y => x + y
def opSub (d a b : Reg) : LaneOp := lane2 d a b fun x y => x - y
def opMullo (d a b : Reg) : LaneOp := lane2 d a b fun x y => x * y
def opMulhiI (d a b : Reg) : LaneOp := lane2 d a b fun x y => BitVec.ofInt 32 (x.toInt * y.toInt / 2 ^ 32)
def opMinI (d a b : Reg) : LaneOp := lane2 d a b minS
def opMaxI (d a b : Reg) : LaneOp := lane2 d a b maxS
def opAddsI (d a b : Reg) : LaneOp := laneFlag d a b fun x y => satI (x.toInt + y.toInt)
def opSubsI (d a b : Reg) : LaneOp := laneFlag d a b fun x y => satI (x.toInt - y.toInt)
def opMulhiN (d a b : Reg) : LaneOp := lane2 d a b fun x y => BitVec.ofNat 32 (x.toNat * y.toNat / 2 ^ 32)
def opMinN (d a b : Reg) : LaneOp := lane2 d a b minU
def opMaxN (d a b : Reg) : LaneOp := lane2 d a b maxU
def opAddsN (d a b : Reg) : LaneOp := laneFlag d a b fun x y => satN (x.toNat + y.toNat)
def opSubsN (d a b : Reg) : LaneOp := laneFlag d a b fun x y => satN ((x.toNat : Int) - y.toNat)
def opAbsdI (d a b : Reg) : LaneOp := lane2 d a b fun x y => BitVec.ofNat 32 (x.toInt - y.toInt).natAbs
def opAbsdN (d a b : Reg) : LaneOp := lane2 d a b fun x y => BitVec.ofNat 32 ((x.toNat : Int) - y.toNat).natAbs
def opAvgN (d a b : Reg) : LaneOp := lane2 d a b fun x y => BitVec.ofNat 32 ((x.toNat + y.toNat + 1) / 2)

/-! ## Logic (R86) -/

def opAnd (d a b : Reg) : LaneOp := lane2 d a b fun x y => x &&& y
def opOr (d a b : Reg) : LaneOp := lane2 d a b fun x y => x ||| y
def opXor (d a b : Reg) : LaneOp := lane2 d a b fun x y => x ^^^ y
def opAndn (d a b : Reg) : LaneOp := lane2 d a b fun x y => x &&& ~~~y
def opOrn (d a b : Reg) : LaneOp := lane2 d a b fun x y => x ||| ~~~y
def opXnor (d a b : Reg) : LaneOp := lane2 d a b fun x y => ~~~(x ^^^ y)
def opNand (d a b : Reg) : LaneOp := lane2 d a b fun x y => ~~~(x &&& y)
def opNor (d a b : Reg) : LaneOp := lane2 d a b fun x y => ~~~(x ||| y)

/-! ## Shifts and funnels (R87) -/

/-- n = B[4:0]. -/
def count5 (b : Word) : Nat := b.toNat % 32

def opShl (d a b : Reg) : LaneOp := lane2 d a b fun x y => x <<< count5 y
def opShr (d a b : Reg) : LaneOp := lane2 d a b fun x y => x >>> count5 y
def opSar (d a b : Reg) : LaneOp := lane2 d a b fun x y => x.sshiftRight (count5 y)
def opRol (d a b : Reg) : LaneOp := lane2 d a b fun x y => x.rotateLeft (count5 y)
def opRor (d a b : Reg) : LaneOp := lane2 d a b fun x y => x.rotateRight (count5 y)

/-- FSHL keeps the high word of D:A shifted left; FSHR the low word of A:D shifted right. -/
def funnelL (dv x : Word) (n : Nat) : Word := BitVec.ofNat 32 ((dv.toNat * 2 ^ 32 + x.toNat) * 2 ^ n / 2 ^ 32)
def funnelR (dv x : Word) (n : Nat) : Word := BitVec.ofNat 32 ((x.toNat * 2 ^ 32 + dv.toNat) / 2 ^ n)

def opFshl (d a b : Reg) : LaneOp := lane3 d a b fun dv x y => funnelL dv x (count5 y)
def opFshr (d a b : Reg) : LaneOp := lane3 d a b fun dv x y => funnelR dv x (count5 y)

/-! ## Counts and bit fields (R88) -/

def bitsOf (a : Word) : List Bool := (List.range 32).map fun i => a.getLsbD i
def popcount (a : Word) : Nat := (bitsOf a).countP id
def trailing (a : Word) : Nat := ((bitsOf a).takeWhile (!·)).length
def leading (a : Word) : Nat := ((bitsOf a).reverse.takeWhile (!·)).length
def reverseBits (a : Word) : Word := maskBy fun i => a.getLsbD (31 - i)
def swapBytes (a : Word) : Word :=
  (a >>> 24) ||| ((a >>> 8) &&& 0xFF00#32) ||| ((a <<< 8) &&& 0xFF0000#32) ||| (a <<< 24)

def opPopc (d a : Reg) : LaneOp := lane1 d a fun x => BitVec.ofNat 32 (popcount x)
def opClz (d a : Reg) : LaneOp := lane1 d a fun x => BitVec.ofNat 32 (leading x)
def opCtz (d a : Reg) : LaneOp := lane1 d a fun x => BitVec.ofNat 32 (trailing x)
def opBrev (d a : Reg) : LaneOp := lane1 d a reverseBits
def opBswap (d a : Reg) : LaneOp := lane1 d a swapBytes

/-- The field descriptor: pos = B[4:0], len = min(B[13:8], 32), sx = B[15]. -/
def fieldPos (b : Word) : Nat := b.toNat % 32
def fieldLen (b : Word) : Nat := min (b.toNat / 256 % 64) 32
def fieldSx (b : Word) : Bool := b.getLsbD 15

def extractField (x b : Word) : Word :=
  let len := fieldLen b
  let f := x.toNat / 2 ^ fieldPos b % 2 ^ len
  if len == 0 then 0
  else if fieldSx b && 2 ^ (len - 1) ≤ f then BitVec.ofNat 32 (2 ^ 32 + f - 2 ^ len) else BitVec.ofNat 32 f

def insertField (dv x b : Word) : Word :=
  let m : Word := BitVec.ofNat 32 ((2 ^ fieldLen b - 1) * 2 ^ fieldPos b)
  (dv &&& ~~~m) ||| BitVec.ofNat 32 (x.toNat % 2 ^ fieldLen b * 2 ^ fieldPos b)

def opBfx (d a b : Reg) : LaneOp := lane2 d a b extractField
def opBfi (d a b : Reg) : LaneOp := lane3 d a b insertField

/-! ## Pairs (R85) -/

def opAdd64 (d a b : Reg) : LaneOp := lanePair d a b fun x y => x + y
def opSub64 (d a b : Reg) : LaneOp := lanePair d a b fun x y => x - y
def opMul64 (d a b : Reg) : LaneOp := lanePair d a b fun x y => x * y
def opShl64 (d a b : Reg) : LaneOp := lanePairShift d a b fun x n => x <<< n
def opShr64 (d a b : Reg) : LaneOp := lanePairShift d a b fun x n => x >>> n
def opSar64 (d a b : Reg) : LaneOp := lanePairShift d a b fun x n => x.sshiftRight n
def opMin64 (d a b : Reg) : LaneOp := lanePair d a b fun x y => if x.slt y then x else y
def opMax64 (d a b : Reg) : LaneOp := lanePair d a b fun x y => if x.slt y then y else x

/-! ## Immediates (R89, R53) -/

def opAddi (d a : Reg) (i : BitVec 10) : LaneOp := lane1 d a fun x => x + i.signExtend 32
def opAndi (d a : Reg) (i : BitVec 10) : LaneOp := lane1 d a fun x => x &&& i.signExtend 32
def opOri (d a : Reg) (i : BitVec 10) : LaneOp := lane1 d a fun x => x ||| i.signExtend 32
def opXori (d a : Reg) (i : BitVec 10) : LaneOp := lane1 d a fun x => x ^^^ i.signExtend 32

def shiftBy (o : ShiOp) (x : Word) (n : Nat) : Word :=
  match o with
  | .shl => x <<< n | .shr => x >>> n | .sar => x.sshiftRight n | .rol => x.rotateLeft n

def opShi (d a : Reg) (o : ShiOp) (n : BitVec 5) : LaneOp := lane1 d a fun x => shiftBy o x n.toNat
def opMuli (d a : Reg) (i : BitVec 10) : LaneOp := lane1 d a fun x => x * i.signExtend 32
def opLi (d : Reg) (i : BitVec 17) : LaneOp := fun _ => { regs := [(d, i.signExtend 32)] }
def opLih (d : Reg) (i : BitVec 17) : LaneOp := lane1 d d fun x => (x &&& 0x7FFF#32) ||| (i.setWidth 32 <<< 15)

/-! ## Compares and the conditional move (R90 to R92) -/

def icondI (q : ICond) (a b : Word) : Bool :=
  match q with
  | .eq => a == b | .ne => a != b | .lt => a.slt b | .le => a.sle b | .gt => b.slt a | .ge => b.sle a
def icondN (q : ICond) (a b : Word) : Bool :=
  match q with
  | .eq => a == b | .ne => a != b | .lt => a.ult b | .le => a.ule b | .gt => b.ult a | .ge => b.ule a
def lcond (q : LCond) (a b : DWord) : Bool :=
  match q with
  | .eq | .eqn => a == b
  | .ne | .nen => a != b
  | .lt => a.slt b | .le => a.sle b | .gt => b.slt a | .ge => b.sle a
  | .ltn => a.ult b | .len => a.ule b | .gtn => b.ult a | .gen => b.ule a

def opCmpI (q : ICond) (k : Mask) (c : Combine) (a b : Reg) : LaneOp :=
  laneMask k c fun x => (icondI q (x.rd a) (x.rd b), 0)
def opCmpN (q : ICond) (k : Mask) (c : Combine) (a b : Reg) : LaneOp :=
  laneMask k c fun x => (icondN q (x.rd a) (x.rd b), 0)
def opCmpF32 (q : FCond) (k : Mask) (c : Combine) (a b : Reg) : LaneOp :=
  laneMask k c fun x => fcmpOf q (x.f32 a) (x.f32 b)
def opCmpF64 (q : FCond) (k : Mask) (c : Combine) (a b : Reg) : LaneOp :=
  laneMask k c fun x => fcmpOf q (x.f64 a) (x.f64 b)
def opCmp64 (q : LCond) (k : Mask) (c : Combine) (a b : Reg) : LaneOp :=
  laneMask k c fun x => (lcond q (pair x.rd a) (pair x.rd b), 0)

/-- A false condition writes nothing (R92). -/
def opCmov (k : Mask) (n : Bool) (d a : Reg) : LaneOp := fun x =>
  if x.kb k != n then { regs := [(d, x.rd a)] } else {}

/-! ## The meanings -/

/-- ADD (R83). -/
def execAdd (d : Reg) (a : Reg) (b : Reg) (s : State) : Host.Outcome State Fault Refusal :=
  runLane (.add d a b) (opAdd d a b) s

/-- SUB (R83). -/
def execSub (d : Reg) (a : Reg) (b : Reg) (s : State) : Host.Outcome State Fault Refusal :=
  runLane (.sub d a b) (opSub d a b) s

/-- MULLO (R83). -/
def execMullo (d : Reg) (a : Reg) (b : Reg) (s : State) : Host.Outcome State Fault Refusal :=
  runLane (.mullo d a b) (opMullo d a b) s

/-- MULHI_I (R83). -/
def execMulhiI (d : Reg) (a : Reg) (b : Reg) (s : State) : Host.Outcome State Fault Refusal :=
  runLane (.mulhiI d a b) (opMulhiI d a b) s

/-- MIN_I (R83). -/
def execMinI (d : Reg) (a : Reg) (b : Reg) (s : State) : Host.Outcome State Fault Refusal :=
  runLane (.minI d a b) (opMinI d a b) s

/-- MAX_I (R83). -/
def execMaxI (d : Reg) (a : Reg) (b : Reg) (s : State) : Host.Outcome State Fault Refusal :=
  runLane (.maxI d a b) (opMaxI d a b) s

/-- ADDS_I (R83). -/
def execAddsI (d : Reg) (a : Reg) (b : Reg) (s : State) : Host.Outcome State Fault Refusal :=
  runLane (.addsI d a b) (opAddsI d a b) s

/-- SUBS_I (R83). -/
def execSubsI (d : Reg) (a : Reg) (b : Reg) (s : State) : Host.Outcome State Fault Refusal :=
  runLane (.subsI d a b) (opSubsI d a b) s

/-- MULHI_N (R83). -/
def execMulhiN (d : Reg) (a : Reg) (b : Reg) (s : State) : Host.Outcome State Fault Refusal :=
  runLane (.mulhiN d a b) (opMulhiN d a b) s

/-- MIN_N (R83). -/
def execMinN (d : Reg) (a : Reg) (b : Reg) (s : State) : Host.Outcome State Fault Refusal :=
  runLane (.minN d a b) (opMinN d a b) s

/-- MAX_N (R83). -/
def execMaxN (d : Reg) (a : Reg) (b : Reg) (s : State) : Host.Outcome State Fault Refusal :=
  runLane (.maxN d a b) (opMaxN d a b) s

/-- ADDS_N (R83). -/
def execAddsN (d : Reg) (a : Reg) (b : Reg) (s : State) : Host.Outcome State Fault Refusal :=
  runLane (.addsN d a b) (opAddsN d a b) s

/-- SUBS_N (R83). -/
def execSubsN (d : Reg) (a : Reg) (b : Reg) (s : State) : Host.Outcome State Fault Refusal :=
  runLane (.subsN d a b) (opSubsN d a b) s

/-- ABSD_I (R83). -/
def execAbsdI (d : Reg) (a : Reg) (b : Reg) (s : State) : Host.Outcome State Fault Refusal :=
  runLane (.absdI d a b) (opAbsdI d a b) s

/-- ABSD_N (R83). -/
def execAbsdN (d : Reg) (a : Reg) (b : Reg) (s : State) : Host.Outcome State Fault Refusal :=
  runLane (.absdN d a b) (opAbsdN d a b) s

/-- AVG_N (R83). -/
def execAvgN (d : Reg) (a : Reg) (b : Reg) (s : State) : Host.Outcome State Fault Refusal :=
  runLane (.avgN d a b) (opAvgN d a b) s

/-- AND (R86). -/
def execAnd (d : Reg) (a : Reg) (b : Reg) (s : State) : Host.Outcome State Fault Refusal :=
  runLane (.and d a b) (opAnd d a b) s

/-- OR (R86). -/
def execOr (d : Reg) (a : Reg) (b : Reg) (s : State) : Host.Outcome State Fault Refusal :=
  runLane (.or d a b) (opOr d a b) s

/-- XOR (R86). -/
def execXor (d : Reg) (a : Reg) (b : Reg) (s : State) : Host.Outcome State Fault Refusal :=
  runLane (.xor d a b) (opXor d a b) s

/-- ANDN (R86). -/
def execAndn (d : Reg) (a : Reg) (b : Reg) (s : State) : Host.Outcome State Fault Refusal :=
  runLane (.andn d a b) (opAndn d a b) s

/-- ORN (R86). -/
def execOrn (d : Reg) (a : Reg) (b : Reg) (s : State) : Host.Outcome State Fault Refusal :=
  runLane (.orn d a b) (opOrn d a b) s

/-- XNOR (R86). -/
def execXnor (d : Reg) (a : Reg) (b : Reg) (s : State) : Host.Outcome State Fault Refusal :=
  runLane (.xnor d a b) (opXnor d a b) s

/-- NAND (R86). -/
def execNand (d : Reg) (a : Reg) (b : Reg) (s : State) : Host.Outcome State Fault Refusal :=
  runLane (.nand d a b) (opNand d a b) s

/-- NOR (R86). -/
def execNor (d : Reg) (a : Reg) (b : Reg) (s : State) : Host.Outcome State Fault Refusal :=
  runLane (.nor d a b) (opNor d a b) s

/-- SHL (R87). -/
def execShl (d : Reg) (a : Reg) (b : Reg) (s : State) : Host.Outcome State Fault Refusal :=
  runLane (.shl d a b) (opShl d a b) s

/-- SHR (R87). -/
def execShr (d : Reg) (a : Reg) (b : Reg) (s : State) : Host.Outcome State Fault Refusal :=
  runLane (.shr d a b) (opShr d a b) s

/-- SAR (R87). -/
def execSar (d : Reg) (a : Reg) (b : Reg) (s : State) : Host.Outcome State Fault Refusal :=
  runLane (.sar d a b) (opSar d a b) s

/-- ROL (R87). -/
def execRol (d : Reg) (a : Reg) (b : Reg) (s : State) : Host.Outcome State Fault Refusal :=
  runLane (.rol d a b) (opRol d a b) s

/-- ROR (R87). -/
def execRor (d : Reg) (a : Reg) (b : Reg) (s : State) : Host.Outcome State Fault Refusal :=
  runLane (.ror d a b) (opRor d a b) s

/-- FSHL (R87). -/
def execFshl (d : Reg) (a : Reg) (b : Reg) (s : State) : Host.Outcome State Fault Refusal :=
  runLane (.fshl d a b) (opFshl d a b) s

/-- FSHR (R87). -/
def execFshr (d : Reg) (a : Reg) (b : Reg) (s : State) : Host.Outcome State Fault Refusal :=
  runLane (.fshr d a b) (opFshr d a b) s

/-- BFX (R88). -/
def execBfx (d : Reg) (a : Reg) (b : Reg) (s : State) : Host.Outcome State Fault Refusal :=
  runLane (.bfx d a b) (opBfx d a b) s

/-- BFI (R88). -/
def execBfi (d : Reg) (a : Reg) (b : Reg) (s : State) : Host.Outcome State Fault Refusal :=
  runLane (.bfi d a b) (opBfi d a b) s

/-- ADD_64 (R85). -/
def execAdd64 (d : Reg) (a : Reg) (b : Reg) (s : State) : Host.Outcome State Fault Refusal :=
  runLane (.add64 d a b) (opAdd64 d a b) s

/-- SUB_64 (R85). -/
def execSub64 (d : Reg) (a : Reg) (b : Reg) (s : State) : Host.Outcome State Fault Refusal :=
  runLane (.sub64 d a b) (opSub64 d a b) s

/-- MUL_64 (R85). -/
def execMul64 (d : Reg) (a : Reg) (b : Reg) (s : State) : Host.Outcome State Fault Refusal :=
  runLane (.mul64 d a b) (opMul64 d a b) s

/-- SHL_64 (R85). -/
def execShl64 (d : Reg) (a : Reg) (b : Reg) (s : State) : Host.Outcome State Fault Refusal :=
  runLane (.shl64 d a b) (opShl64 d a b) s

/-- SHR_64 (R85). -/
def execShr64 (d : Reg) (a : Reg) (b : Reg) (s : State) : Host.Outcome State Fault Refusal :=
  runLane (.shr64 d a b) (opShr64 d a b) s

/-- SAR_64 (R85). -/
def execSar64 (d : Reg) (a : Reg) (b : Reg) (s : State) : Host.Outcome State Fault Refusal :=
  runLane (.sar64 d a b) (opSar64 d a b) s

/-- MIN_64 (R85). -/
def execMin64 (d : Reg) (a : Reg) (b : Reg) (s : State) : Host.Outcome State Fault Refusal :=
  runLane (.min64 d a b) (opMin64 d a b) s

/-- MAX_64 (R85). -/
def execMax64 (d : Reg) (a : Reg) (b : Reg) (s : State) : Host.Outcome State Fault Refusal :=
  runLane (.max64 d a b) (opMax64 d a b) s

/-- POPC (R88). -/
def execPopc (d : Reg) (a : Reg) (s : State) : Host.Outcome State Fault Refusal :=
  runLane (.popc d a) (opPopc d a) s

/-- CLZ (R88). -/
def execClz (d : Reg) (a : Reg) (s : State) : Host.Outcome State Fault Refusal :=
  runLane (.clz d a) (opClz d a) s

/-- CTZ (R88). -/
def execCtz (d : Reg) (a : Reg) (s : State) : Host.Outcome State Fault Refusal :=
  runLane (.ctz d a) (opCtz d a) s

/-- BREV (R88). -/
def execBrev (d : Reg) (a : Reg) (s : State) : Host.Outcome State Fault Refusal :=
  runLane (.brev d a) (opBrev d a) s

/-- BSWAP (R88). -/
def execBswap (d : Reg) (a : Reg) (s : State) : Host.Outcome State Fault Refusal :=
  runLane (.bswap d a) (opBswap d a) s

/-- ADDI (R89). -/
def execAddi (d : Reg) (a : Reg) (i : BitVec 10) (s : State) : Host.Outcome State Fault Refusal :=
  runLane (.addi d a i) (opAddi d a i) s

/-- ANDI (R89). -/
def execAndi (d : Reg) (a : Reg) (i : BitVec 10) (s : State) : Host.Outcome State Fault Refusal :=
  runLane (.andi d a i) (opAndi d a i) s

/-- ORI (R89). -/
def execOri (d : Reg) (a : Reg) (i : BitVec 10) (s : State) : Host.Outcome State Fault Refusal :=
  runLane (.ori d a i) (opOri d a i) s

/-- XORI (R89). -/
def execXori (d : Reg) (a : Reg) (i : BitVec 10) (s : State) : Host.Outcome State Fault Refusal :=
  runLane (.xori d a i) (opXori d a i) s

/-- SHI (R89). -/
def execShi (d : Reg) (a : Reg) (o : ShiOp) (n : BitVec 5) (s : State) : Host.Outcome State Fault Refusal :=
  runLane (.shi d a o n) (opShi d a o n) s

/-- MULI (R89). -/
def execMuli (d : Reg) (a : Reg) (i : BitVec 10) (s : State) : Host.Outcome State Fault Refusal :=
  runLane (.muli d a i) (opMuli d a i) s

/-- LI (R89). -/
def execLi (d : Reg) (i : BitVec 17) (s : State) : Host.Outcome State Fault Refusal :=
  runLane (.li d i) (opLi d i) s

/-- LIH (R89). -/
def execLih (d : Reg) (i : BitVec 17) (s : State) : Host.Outcome State Fault Refusal :=
  runLane (.lih d i) (opLih d i) s

/-- CMP_I (R90). -/
def execCmpI (q : ICond) (k : Mask) (x : Combine) (a : Reg) (b : Reg) (s : State) : Host.Outcome State Fault Refusal :=
  runLane (.cmpI q k x a b) (opCmpI q k x a b) s

/-- CMP_N (R90). -/
def execCmpN (q : ICond) (k : Mask) (x : Combine) (a : Reg) (b : Reg) (s : State) : Host.Outcome State Fault Refusal :=
  runLane (.cmpN q k x a b) (opCmpN q k x a b) s

/-- CMP_F32 (R91). -/
def execCmpF32 (q : FCond) (k : Mask) (x : Combine) (a : Reg) (b : Reg) (s : State) : Host.Outcome State Fault Refusal :=
  runLane (.cmpF32 q k x a b) (opCmpF32 q k x a b) s

/-- CMP_F64 (R91). -/
def execCmpF64 (q : FCond) (k : Mask) (x : Combine) (a : Reg) (b : Reg) (s : State) : Host.Outcome State Fault Refusal :=
  runLane (.cmpF64 q k x a b) (opCmpF64 q k x a b) s

/-- CMP_64 (R90). -/
def execCmp64 (q : LCond) (k : Mask) (x : Combine) (a : Reg) (b : Reg) (s : State) : Host.Outcome State Fault Refusal :=
  runLane (.cmp64 q k x a b) (opCmp64 q k x a b) s

/-- CMOV (R92). -/
def execCmov (k : Mask) (n : Bool) (d : Reg) (a : Reg) (s : State) : Host.Outcome State Fault Refusal :=
  runLane (.cmov k n d a) (opCmov k n d a) s

end Sys2Proof.Machine
end

