-- ==== Sys2Proof/Machine/Sink.lean ====
section
/-! DEFINITION. Schuss groups (spec/06 R113 to R123): the head SINK, the group that runs in the core with record code 8, and
the run of a group that left the core at the first level that holds its line (the event SCHUSS_GROUP_RUN). -/

namespace Sys2Proof.Machine

/-! ## The words of a group (R114) -/

/-- The computing forms a group may hold (R114): majors 0x02 to 0x0F, FADD to FABS, the fused and the packed forms. -/
def groupOp : Instr → Option LaneOp
  | .add d a b => some (opAdd d a b)
  | .sub d a b => some (opSub d a b)
  | .mullo d a b => some (opMullo d a b)
  | .mulhiI d a b => some (opMulhiI d a b)
  | .minI d a b => some (opMinI d a b)
  | .maxI d a b => some (opMaxI d a b)
  | .addsI d a b => some (opAddsI d a b)
  | .subsI d a b => some (opSubsI d a b)
  | .mulhiN d a b => some (opMulhiN d a b)
  | .minN d a b => some (opMinN d a b)
  | .maxN d a b => some (opMaxN d a b)
  | .addsN d a b => some (opAddsN d a b)
  | .subsN d a b => some (opSubsN d a b)
  | .absdI d a b => some (opAbsdI d a b)
  | .absdN d a b => some (opAbsdN d a b)
  | .avgN d a b => some (opAvgN d a b)
  | .and d a b => some (opAnd d a b)
  | .or d a b => some (opOr d a b)
  | .xor d a b => some (opXor d a b)
  | .andn d a b => some (opAndn d a b)
  | .orn d a b => some (opOrn d a b)
  | .xnor d a b => some (opXnor d a b)
  | .nand d a b => some (opNand d a b)
  | .nor d a b => some (opNor d a b)
  | .shl d a b => some (opShl d a b)
  | .shr d a b => some (opShr d a b)
  | .sar d a b => some (opSar d a b)
  | .rol d a b => some (opRol d a b)
  | .ror d a b => some (opRor d a b)
  | .fshl d a b => some (opFshl d a b)
  | .fshr d a b => some (opFshr d a b)
  | .popc d a => some (opPopc d a)
  | .clz d a => some (opClz d a)
  | .ctz d a => some (opCtz d a)
  | .brev d a => some (opBrev d a)
  | .bswap d a => some (opBswap d a)
  | .bfx d a b => some (opBfx d a b)
  | .bfi d a b => some (opBfi d a b)
  | .add64 d a b => some (opAdd64 d a b)
  | .sub64 d a b => some (opSub64 d a b)
  | .mul64 d a b => some (opMul64 d a b)
  | .shl64 d a b => some (opShl64 d a b)
  | .shr64 d a b => some (opShr64 d a b)
  | .sar64 d a b => some (opSar64 d a b)
  | .min64 d a b => some (opMin64 d a b)
  | .max64 d a b => some (opMax64 d a b)
  | .addi d a i => some (opAddi d a i)
  | .andi d a i => some (opAndi d a i)
  | .ori d a i => some (opOri d a i)
  | .xori d a i => some (opXori d a i)
  | .shi d a o n => some (opShi d a o n)
  | .muli d a i => some (opMuli d a i)
  | .li d i => some (opLi d i)
  | .lih d i => some (opLih d i)
  | .fadd d a b => some (opFadd d a b)
  | .fsub d a b => some (opFsub d a b)
  | .fmul d a b => some (opFmul d a b)
  | .fmin d a b => some (opFmin d a b)
  | .fmax d a b => some (opFmax d a b)
  | .fcpys d a b => some (opFcpys d a b)
  | .fneg d a => some (opFneg d a)
  | .fabs d a => some (opFabs d a)
  | .fmac d a b => some (opFmac d a b)
  | .fmsc d a b => some (opFmsc d a b)
  | .fnmac d a b => some (opFnmac d a b)
  | .fnmsc d a b => some (opFnmsc d a b)
  | .hadd2 d a b => some (opHadd2 d a b)
  | .hmul2 d a b => some (opHmul2 d a b)
  | .hmac2 d a b => some (opHmac2 d a b)
  | .hmax2 d a b => some (opHmax2 d a b)
  | .badd2 d a b => some (opBadd2 d a b)
  | .bmul2 d a b => some (opBmul2 d a b)
  | .bmac2 d a b => some (opBmac2 d a b)
  | .bmax2 d a b => some (opBmax2 d a b)
  | _ => none

/-- A memory word of a group: whether it stores, its width, its registers and the offset it adds. -/
structure MemWord where
  store : Bool
  z     : Width
  d     : Reg
  a     : Reg
  off   : DWord

def smallWidth : Width → Bool
  | .b128 | .b256 => false
  | _ => true

/-- The memory forms a group may hold: ord 00, cache 00, no b128 or b256 (R114). -/
def memWord (i : Instr) : Option MemWord :=
  let m : Option MemWord := match i with
    | .ld z d a _ .plain .dflt => some { store := false, z, d, a, off := 0 }
    | .st z d a _ .plain .dflt => some { store := true, z, d, a, off := 0 }
    | .ldo z d a i => some { store := false, z, d, a, off := i.signExtend 64 * BitVec.ofNat 64 z.bytes }
    | .sto z d a i => some { store := true, z, d, a, off := i.signExtend 64 * BitVec.ofNat 64 z.bytes }
    | _ => none
  m.filter fun m => smallWidth m.z

def Instr.isNop : Instr → Bool
  | .nop => true
  | _ => false

/-- May the word stand in a group (R114)? -/
def groupOk (x : Slot) : Bool :=
  !x.w && !(x.i.info.dst.any Reg.isUni) && (Instr.isNop x.i || (groupOp x.i).isSome || (memWord x.i).isSome)

/-- The instructions of a group, or none where the head raises ILLEGAL (R114). -/
def groupInstrs (ws : List Word) : Option (List Instr) :=
  let xs := ws.map decodeSlot
  if xs.all (fun x => x.any groupOk) then
    let is := xs.filterMap fun x => x.map Slot.i
    if is.any fun i => (memWord i).isSome then some is else none
  else none

/-- Is an address pair of the group written by an earlier word of it (R116)? -/
def dependent : List Reg → List Instr → Bool
  | _, [] => false
  | ws, i :: is =>
    (match memWord i with | some m => (regs 2 m.a).any ws.contains | none => false) || dependent (ws ++ i.info.dst) is

/-- The registers the group writes, and those it reads. -/
def groupDst (is : List Instr) : List Reg := (is.flatMap fun i => i.info.dst).eraseDups
def groupSrc (is : List Instr) : List Reg := (is.flatMap fun i => i.info.src).eraseDups

/-! ## Running a group -/

/-- What a group has done so far in one thread (R115). -/
structure GroupRun where
  writes : List (Reg × Word) := []
  flags  : Flags := 0
  gen    : Word
  line   : Line := 0
  stores : List LineWrite := []

/-- A register as the group's next word sees it. -/
def GroupRun.rd (x : GroupRun) (base : Reg → Word) (r : Reg) : Word := (x.writes.lookup r).getD (base r)

/-- The address of a memory word. -/
def GroupRun.ea (x : GroupRun) (base : Reg → Word) (m : MemWord) : Nat := (pair (x.rd base) m.a + m.off).toNat

/-- A computing word of the group. -/
def GroupRun.alu (x : GroupRun) (base : Reg → Word) (lane : Nat) (fmode : BitVec 6) (i : Instr) : GroupRun :=
  match groupOp i with
  | none => x
  | some f =>
    let o := f { rd := x.rd base, kb := fun _ => false, lane, fmode, gen := x.gen }
    { x with writes := o.regs ++ x.writes, flags := x.flags ||| o.flags, gen := o.gen.getD x.gen }

/-- One word of a group that runs on one copy of its anchor line (R118, R119). -/
def GroupRun.step (base : Reg → Word) (lane : Nat) (fmode : BitVec 6) (x : GroupRun) (i : Instr) : GroupRun :=
  match memWord i with
  | none => x.alu base lane fmode i
  | some m =>
    let ea := x.ea base m
    if m.store then
      let w := lineWrite ea m.z.bytes (wide (x.rd base) m.z.regCount m.d)
      { x with line := mergeLine w.mask x.line w.data, stores := x.stores ++ [w] }
    else { x with writes := (regs m.z.regCount m.d).zip (loadWords m.z x.line (ea % 64)) ++ x.writes }

/-- The value of each destination register of the group. -/
def GroupRun.vals (x : GroupRun) (rs : List Reg) : List Word := rs.map fun r => (x.writes.lookup r).getD 0

/-! ## In the core with record code 8 (R116) -/

/-- The numbers of the writes that a die has published between two states (R200). -/
def pubsSince (d : Nat) (s t : State) : List (Nat × Word) :=
  (List.range ((t.die d).pub - (s.die d).pub).toNat).map fun i => (d, (s.die d).pub + BitVec.ofNat 32 (i + 1))

/-- How a thread's group in the core ends: done, or stopped at one of its words. -/
inductive CoreEnd where
  | done (x : GroupProg)
  | stop (v : Verdict) (x : GroupProg)

/-- A thread's group as its head issues, or as it stands where it waits. -/
def State.groupStart (s : State) (w : Wave) (l : Nat) (is : List Instr) : GroupProg :=
  (w.thread l).group.getD
    { gen := (w.thread l).gen, regs := (groupSrc is).map fun r => (r, w.reg s.fresh l r), fmode := w.fmode }

/-- A register as the next word of the group sees it (R115). -/
def GroupProg.rd (x : GroupProg) (r : Reg) : Word := (x.writes.lookup r).getD ((x.regs.lookup r).getD 0)

/-- A computing word of the group. -/
def GroupProg.alu (x : GroupProg) (lane : Nat) (i : Instr) : GroupProg :=
  match groupOp i with
  | none => { x with done := x.done + 1 }
  | some f =>
    let o := f { rd := x.rd, kb := fun _ => false, lane, fmode := x.fmode, gen := x.gen }
    { x with done := x.done + 1, writes := o.regs ++ x.writes, flags := x.flags ||| o.flags, gen := o.gen.getD x.gen }

/-- The words of a group in the core, in order as ordinary words; a word that stops leaves what earlier words have done. -/
def State.coreGroup (w : Wave) (l : Nat) : List Instr → GroupProg → State → CoreEnd × State
  | [], x, s => (.done x, s)
  | i :: is, x, s =>
    match memWord i with
    | none => State.coreGroup w l is (x.alu l i) s
    | some m =>
      let ea := (pair x.rd m.a + m.off).toNat
      match s.access w (if m.store then .write else .read) ea m.z.bytes with
      | .error v => (.stop v x, s)
      | .ok pa =>
        if !(s.lineClear w l pa m.z.bytes) || (m.store && s.stalled w pa) then (.stop .wait x, s)
        else if m.store then
          let lw := lineWrite pa m.z.bytes (wide x.rd m.z.regCount m.d)
          if s.versioned (s.gangOf w) && (s.vline? w.gang lw.line).isNone && !(s.verRoom (s.gangOf w) 1) then
            (.stop (.trap 10 0 ea) x, s)
          else
            let t := s.threadStore w (laneBit l) .dflt lw
            State.coreGroup w l is { x with done := x.done + 1, pubs := x.pubs ++ pubsSince (coreDie w.core) s t } t
        else if s.consumes w.gang pa m.z.bytes then (.stop (.abort 0x80 0 ea) x, s)
        else match s.coreLine w.gang w.core (pa / 64) (runMask (pa % 64) m.z.bytes) with
          | none => (.stop .wait x, s)
          | some (y, s) =>
            State.coreGroup w l is
              { x with done := x.done + 1
                       writes := ((regs m.z.regCount m.d).zip (loadWords m.z y (pa % 64))) ++ x.writes } s

/-- The groups of several threads in the core, in ascending lane order. -/
def State.coreGroups (is : List Instr) (w : Wave) : List Nat → State → List (Nat × CoreEnd) × State
  | [], s => ([], s)
  | l :: ls, s =>
    let x := s.groupStart w l is
    let (r, s) := State.coreGroup w l (is.drop x.done) x s
    let (rs, s) := State.coreGroups is w ls s
    ((l, r) :: rs, s)

/-- Has the thread's group gone on from where it stood? -/
def CoreEnd.moved (w : Wave) (r : Nat × CoreEnd) : Bool :=
  match r.2 with
  | .done _ => true
  | .stop _ x => x.done != ((w.thread r.1).group.map (·.done)).getD 0

/-! ## The head (R113 to R118) -/

/-- The group a head names, and the program counter after it; or why the head does not go on. -/
def State.groupAt (s : State) (w : Wave) (len : BitVec 3) (pc : DWord) : Except Verdict (List Instr × DWord) :=
  match s.fetchRun w (groupLen len) (nextWord pc) with
  | .error v => .error v
  | .ok ws =>
    match ws.find? fun x => x.getLsbD 31 with
    | some x => .error (.chain x)
    | none =>
      match groupInstrs ws with
      | none => .error (.trap 1 0 0)
      | some is => .ok (is, skipWords (groupLen len + 1) pc)

/-- The physical addresses of a thread's memory words as they stand at the head, or the first that does not go on (R116):
of causes of several words that of the first word in order, the rules naming none (notes/assumptions/84.md). -/
def State.groupAddrs (s : State) (w : Wave) (l : Nat) (is : List Instr) : Except Verdict (List Nat) :=
  let base := w.reg s.fresh l
  (is.filterMap memWord).foldr (fun m r =>
    match s.access w (if m.store then .write else .read) ((pair base m.a + m.off).toNat) m.z.bytes, r with
    | .error v, _ => .error v
    | .ok pa, .ok pas => .ok (pa :: pas)
    | .ok _, .error v => .error v) (.ok [])

/-- How a thread's group goes on: in the core with code 8, or towards its anchor line. -/
inductive Route where
  | core
  | line (n : Nat)

def State.route (s : State) (w : Wave) (l : Nat) (is : List Instr) : Except Verdict Route :=
  if dependent [] is || (w.thread l).group.isSome then .ok .core else
  match s.groupAddrs w l is with
  | .error v => .error v
  | .ok pas =>
    let line := pas.headD 0 / 64
    .ok (if pas.all fun pa => pa / 64 == line then .line line else .core)

def hasStore (is : List Instr) : Bool := is.any fun i => (memWord i).any (·.store)

/-- The threads whose groups run in the core with code 8, those of `m` that find no cause before. -/
def State.coreLanes (s : State) (w : Wave) (m : LaneMask) (is : List Instr) : List Nat :=
  (lanesOf m).filter fun l => match s.route w l is with | .ok .core => true | _ => false

/-- The lines to which the groups of the lanes up to `l` that leave the core store, and which the gang's version does not hold in
state `t`, as the groups in the core have left it (R264). -/
def State.groupLines (s t : State) (w : Wave) (is : List Instr) (m : LaneMask) (l : Nat) : List Nat :=
  ((lanesOf m).filter (· ≤ l)).foldl (fun xs k => match s.route w k is with
    | .ok (.line n) => if (t.vline? w.gang n).isNone && !xs.contains n then xs ++ [n] else xs
    | _ => xs) []

/-- The address that the first store of a group writes. -/
def State.firstStore (s : State) (w : Wave) (l : Nat) (is : List Instr) : Nat :=
  (((is.filterMap memWord).filter (·.store)).map fun m => (pair (w.reg s.fresh l) m.a + m.off).toNat).headD 0

/-- The checks of a head in one thread (R114, R116, R264). A thread whose group runs in the core and must wait stays at the word
it has come to; the head is not ready while no thread's group can go on. -/
def sinkCheck (len : BitVec 3) (s : State) (c : Issue) (w : Wave) (l : Nat) : Verdict :=
  match s.groupAt w len c.wordPc with
  | .error v => v
  | .ok (is, _) =>
    if is.any fun i => illReg i w then .trap 4 0 0 else
    match s.route w l is with
    | .error v => v
    | .ok .core =>
      let rs := (State.coreGroups is w (s.coreLanes w c.lanes is) s).1
      match rs.lookup l with
      | some (.stop .wait _) => if rs.any (CoreEnd.moved w) then .go else .wait
      | some (.stop v _) => v
      | _ => .go
    | .ok (.line n) =>
      let t := (State.coreGroups is w (s.coreLanes w c.lanes is) s).2
      let xs := s.groupLines t w is c.lanes l
      if s.versioned (s.gangOf w) && hasStore is && xs.contains n && !(t.verRoom (s.gangOf w) xs.length) then
        .trap 10 0 (s.firstStore w l is)
      else if !(s.lineClear w l (64 * n) 64) || (hasStore is && s.stalled w (64 * n)) then .wait
      else .go

/-- A result outstanding for a group, which names its record slot (R115, R123). -/
def State.groupPend (s : State) (w : Wave) (l slot : Nat) (is : List Instr) (p : Pending) : Nat × State :=
  let (id, s) := s.newId
  let s := s.addPending w.id { p with id, lane := some l, lanes := laneBit l, regs := groupDst is, slot := some (slot, 0) }
  (id, s.modWave w.id fun v => v.modThread l fun t =>
    { t with recs := t.recs &&& ~~~(0xF#64 <<< (4 * slot)), recOwner := Map.set 0 t.recOwner slot (id + 1) })

/-- The published writes of a group in the core, before which its results do not land (R192). -/
def State.setPubs (s : State) (wave pid : Nat) (pubs : List (Nat × Word)) : State :=
  s.modWave wave fun w => { w with pend := modBy w.pend (fun p => p.id == pid) fun p => { p with pubs } }

/-- What the issue leaves of a thread's group in the core: its result with record code 8, or, where it waits for a translation or
stays at a word of it, how far it has come. -/
def State.coreResult (w : Wave) (slot : Nat) (is : List Instr) (s : State) (r : Nat × CoreEnd) : State :=
  let keep (s : State) (x : Option GroupProg) : State := s.modWave w.id fun v => v.modThread r.1 fun t => { t with group := x }
  match r.2 with
  | .stop .wait x => (keep s (some x)).modCur fun c => { c with stays := c.stays ||| laneBit r.1 }
  | .stop (.xlate _ _ _) x => keep s (some x)
  | .stop _ _ => keep s none
  | .done x =>
    let vals := (groupDst is).map fun y => (x.writes.lookup y).getD 0
    let (id, s) := s.groupPend w r.1 slot is { id := 0, lane := none, lanes := 0, regs := [], vals, flags := x.flags }
    ((s.resolve w.id id vals 0 (some 8)).setPubs w.id id x.pubs).modWave w.id fun v =>
      v.modThread r.1 fun t => { t with gen := x.gen, group := none }

/-- A group leaves the core (R118); one that stores in a versioned gang takes its line's room (R264). -/
def State.sendGroup (w : Wave) (pc : DWord) (slot : Nat) (floor : Floor) (batch : Nat) (is : List Instr) (s0 s : State) (l : Nat) :
    State :=
  match s0.route w l is with
  | .ok (.line n) =>
    let (pid, s) := s.groupPend w l slot is { id := 0, lane := none, lanes := 0, regs := [], vals := [], opened := true, far := true }
    let (id, s) := s.newId
    let g : Sunk :=
      { id, batch, wave := w.id, lane := l, pid, core := w.core, gang := w.gang, pc, line := n, floor := floor.depth,
        fmode := w.fmode, regs := (groupSrc is).map fun r => (r, w.reg s0.fresh l r), words := is, stores := hasStore is }
    let s := if s.versioned (s.gangOf w) && hasStore is then
        s.verWrite (s.gangOf w) none { line := n, data := 0, mask := 0 }
      else s
    { s with sunk := s.sunk ++ [g] }
  | _ => s

/-- The head and its group issue as one unit, and the threads continue after the group (R113). -/
def sinkAct (len : BitVec 3) (slot : BitVec 4) (floor : Floor) (s : State) (c : Issue) (w : Wave) (m : LaneMask) : State :=
  match s.groupAt w len c.wordPc with
  | .error _ => s
  | .ok (is, next) =>
    let (rs, t) := State.coreGroups is w (s.coreLanes w c.lanes is) s
    let t := rs.foldl (State.coreResult w slot.toNat is) t
    let (batch, t) := t.newId
    let t := (lanesOf m).foldl (State.sendGroup w c.wordPc slot.toNat floor batch is s) t
    t.modCur fun c => { c with nextPc := next }

/-- SINK (R113). -/
def execSink (l : BitVec 3) (r : BitVec 4) (f : Floor) (s : State) : Host.Outcome State Fault Refusal :=
  runWord (.sink l r f) { check := sinkCheck l, act := sinkAct l r f, always := true } s

/-! ## The run of a group that left the core (R117 to R122) -/

/-- Where a group runs. -/
inductive Level where
  | l1 (code : Nat)
  | peer
  | sector
  | home (die code : Nat)
  | ctrl (die code : Nat)
  deriving DecidableEq, Repr

/-- The bytes of the anchor line that a level must hold for the group: those of words touched by its loads, and of words a
store writes only in part (R117). -/
def Sunk.needs (g : Sunk) : BitVec 16 :=
  let base (r : Reg) : Word := (g.regs.lookup r).getD 0
  (g.words.filterMap memWord).foldl (fun v m =>
    let k := runMask ((pair base m.a + m.off).toNat % 64) m.z.bytes
    v ||| if m.store then touched k &&& ~~~(covered k) else touched k) 0

/-- Is the other sector's presence bit clear (R176)? -/
def State.soleSector (s : State) (sec line : Nat) : Bool :=
  !(s.sect.any fun x => x.line == line && !x.remote && x.sector != sec && sectorDie x.sector == sectorDie sec && x.valid != 0)

/-- Does the sector cache hold the line for the group (R117)? -/
def State.sectorHolds (s : State) (sec line : Nat) (stores : Bool) (need : BitVec 16) : Bool :=
  match s.sectLine? sec line with
  | none => false
  | some x => need &&& ~~~x.valid == 0 && !(s.sectBehind x) && (!stores || (!x.remote && s.soleSector sec line))

/-- May the probed peer answer: a core of another cluster of the sector, whose copy equals the sector cache's (R169, R174)? -/
def State.peerHolds (s : State) (core line : Nat) (peer : Option Nat) : Bool :=
  match peer with
  | none => false
  | some p => coreSector p == coreSector core && coreCluster p != coreCluster core &&
      (match s.l1Line? p line, s.sectLine? (coreSector core) line with
       | some x, some y => x.data == y.data && ~~~y.valid == 0 && !(s.sectBehind y)
       | _, _ => false)

/-- The level at which the groups of a batch run (R118, R121); code 9 where they return to the core. `busy` is the depth of
a level that cannot accept them. A read-only group on its task's own version line that may not go to the die's home, or finds it
busy, returns to the core with code 9 (R118), though R121 gives code 4 (notes/assumptions/83.md). -/
def State.groupLevel (s : State) (g : Sunk) (need : BitVec 16) (peer busy : Option Nat) : Level :=
  let stores := hasStore g.words
  let d := coreDie g.core
  let ver := match s.gang? g.gang with | some x => s.versioned x | none => false
  let own := s.written g.gang g.line
  let sec := coreSector g.core
  let stop (depth : Nat) : Bool := decide (g.floor < depth) || busy == some depth
  if (s.l1Line? g.core g.line).isSome && !(s.steered g.gang g.core g.line) then .l1 1
  else match homeOfLine g.line with
  | none => .l1 9
  | some h0 =>
    -- a versioned group with stores, and a read-only one on a version, go to their own die's home cache (R121)
    let h := if ver && (stores || own) then d else h0
    let depth := if h == d then 3 else 4
    let code := if h == d then 4 else 5
    if ver && own && !stores then (if stop 3 then .l1 9 else .home d 4)
    else if !stores && !(stop 1) && s.peerHolds g.core g.line peer then .peer
    else if stop 1 && decide (g.floor < 1) then .l1 9
    else if busy == some 1 && !stores then .l1 9
    else if stop 2 then .l1 9
    else if s.sectorHolds sec g.line stores need then .sector
    else if stop depth then .l1 9
    else if s.homeLines.contains g.line || decide (g.floor < 5) || !((s.die h0).feat.getLsbD Feature.sinkmem.bit) ||
        (ver && stores) then .home h code
    else if busy == some 5 then .l1 9
    else .ctrl h (if lineLpddr g.line then 7 else 6)

/-- The line as the level serves it, with the task's version over it where the level lies below the L1 (R121, R178), or none while
its home may not serve it (R201). A peer's copy equals the sector cache's, and fills nothing (R120). -/
def State.groupLine (s : State) (g : Sunk) : Level → Option (Line × State)
  | .l1 _ => s.coreLine g.gang g.core g.line (BitVec.allOnes 64)
  | .peer | .sector => (s.sectLine? (coreSector g.core) g.line).map fun x => (s.overlay g.gang g.line x.data, s)
  | .home _ _ | .ctrl _ _ => (s.homeRead (coreDie g.core) g.line).map fun r => (s.overlay g.gang g.line r.1, r.2)

/-- A store of the group performed at its level (R119, R121). -/
def State.groupStore (g : Sunk) (lv : Level) (s : State) (w : LineWrite) : State :=
  let w := { w with line := g.line }
  let core := g.core
  let s := s.noteSeal (((s.gang? g.gang).map (·.launch)).getD 0) w
  match s.gang? g.gang with
  | some x =>
    if s.versioned x then (s.dropL1 core w.line).verWrite x (some core) w
    else
      let s := s.endPoison w
      let s := match lv with
        | .l1 _ => s.storeLine core g.wave (laneBit g.lane) .dflt w
        | .peer => s
        | .sector => s.storeLine core g.wave (laneBit g.lane) .pass w
        | .home _ _ | .ctrl _ _ => (s.dropL1 core w.line).directWrite (coreDie core) w
      s.setCommitted g.gang
  | none =>
    let s := s.endPoison w
    match lv with
    | .l1 _ | .peer => s.storeLine core g.wave (laneBit g.lane) .dflt w
    | .sector => s.storeLine core g.wave (laneBit g.lane) .pass w
    | .home _ _ | .ctrl _ _ => (s.dropL1 core w.line).directWrite (coreDie core) w

/-- The record code of a level (R117). -/
def Level.code : Level → Nat
  | .l1 c => c
  | .peer => 2
  | .sector => 3
  | .home _ c => c
  | .ctrl _ c => c

/-- The words of its line whose values a group loads, those that it has stored whole before not among them. -/
def Sunk.loads (g : Sunk) : BitVec 16 :=
  let base (r : Reg) : Word := (g.regs.lookup r).getD 0
  ((g.words.filterMap memWord).foldl (fun (x : BitVec 16 × BitVec 16) m =>
    let k := runMask ((pair base m.a + m.off).toNat % 64) m.z.bytes
    if m.store then (x.1, x.2 ||| covered k) else (x.1 ||| (touched k &&& ~~~x.2), x.2)) (0, 0)).1

/-- Does the group consume a poisoned word (R274)? -/
def State.groupPoison (s : State) (g : Sunk) : Bool :=
  (List.range 16).any fun i => g.loads.getLsbD i && s.consumes g.gang (64 * g.line + 4 * i) 4

/-- One thread's group run on the line as the groups before it left it; its results are known, and its line is held until they
have landed (R120, R122). -/
def State.groupOne (lv : Level) (x : Line × State) (g : Sunk) : Line × State :=
  let (base, s) := x
  if !(s.sunk.any fun y => y.id == g.id) then x
  else if s.groupPoison g then
    let t := s.abortGang g.gang { code := 0x80, pc := g.pc }
    (base, { t with sunk := t.sunk.filter fun y => y.id != g.id })
  else
  let rd (r : Reg) : Word := (g.regs.lookup r).getD 0
  let gen := ((s.wave? g.wave).map fun w => (w.thread g.lane).gen).getD 1
  let x := g.words.foldl (GroupRun.step rd g.lane g.fmode) { gen, line := base }
  let t := x.stores.foldl (State.groupStore g lv) s
  let t := t.resolve g.wave g.pid (x.vals (groupDst g.words)) x.flags (some lv.code)
  let t := match lv with
    | .l1 _ => t.setPubs g.wave g.pid (pubsSince (coreDie g.core) s t)
    | _ => t
  let t := t.modWave g.wave fun w => w.modThread g.lane fun h => { h with gen := x.gen }
  let waits := (t.wave? g.wave).any fun w => w.pend.any fun p => p.id == g.pid
  (x.line, { t with sunk := if waits then modBy t.sunk (fun y => y.id == g.id) fun y => { y with ran := true }
                            else t.sunk.filter fun y => y.id != g.id })

/-- The groups of a batch, in ascending lane order, each on the line as the one before left it (R122). -/
def State.groupBatch (lv : Level) (base : Line) (gs : List Sunk) (s : State) : State :=
  (gs.foldl (State.groupOne lv) (base, s)).2

/-- May the batch's stores be performed at another die's home now (R200, R201)? -/
def State.groupReady (s : State) (g : Sunk) (lv : Level) : Bool :=
  match lv with
  | .home h _ | .ctrl h _ => !(hasStore g.words) || s.writable (coreDie g.core) h
  | _ => !(hasStore g.words) || s.canPublish (coreDie g.core)

/-- SCHUSS_GROUP_RUN (R118): the batch of the sunk group with this number runs. A group that runs in the core (codes 1 and 9)
loads and stores in this one step, although the rules let another core's store fall between its loads and its stores (R119;
notes/assumptions/68.md). -/
def execSchussGroupRun (idx : Nat) (peer busy : Option Nat) (s : State) : Host.Outcome State Fault Refusal :=
  match s.sunk.find? fun g => g.id == idx && !g.ran with
  | none => .next s
  | some g =>
    let gs := s.sunk.filter fun x => x.batch == g.batch && x.line == g.line && !x.ran
    let lv := s.groupLevel g (gs.foldl (fun v x => v ||| x.needs) 0) peer busy
    if !(s.groupReady g lv) then .next s else
    match s.groupLine g lv with
    | none => .next s
    | some (base, t) =>
      let t := State.groupBatch lv base gs t
      -- a group at a controller leaves the home cache without the line (R120)
      .next (match lv with
        | .ctrl _ _ => { t with homeLines := t.homeLines.filter (· != g.line) }
        | _ => t)

end Sys2Proof.Machine
end

