-- ==== Sys2Proof/Machine/Fabric.lean ====
section
/-! DEFINITION. What the memory hierarchy, the fabric and the host do by themselves (spec/11 R173 to R177, R183 to R185, spec/12
R200 to R203, R207, spec/13 R211): fills, evictions, the groomers' atomics, publications, flits, and the host's accesses. -/

namespace Sys2Proof.Machine

/-! ## Fills (R175, R183, R201) -/

/-- A fill whose data is at the sector: it writes only the words that are invalid, leaves the copies its loads ask for, and
serves them, each with its acquire half (R107); then the stores that are held for it are performed. Its entry is free for a miss
that waits (R183). Of the reads from another die, older replies on their way leave no copy, and one that fills no sector cache
leaves none there that could be older than its value (R169). -/
def State.completeFill (s : State) (f : Fill) (data : Line) : State :=
  let s := State.spoilServed { s with fills := s.fills.filter fun x => x.id != f.id } (sectorDie f.sector) f.line f.served
  let s := if f.far && !f.fillSect then s.dropSect f.sector f.line else s
  let s := s.sendFills.fillNow f.core f.line f.fillSect false (f.waiters.any (·.last)) data
  let s := { s with sect := modBy s.sect (fun x => f.behind && x.sector == f.sector && x.line == f.line) fun x =>
    { x with behind := true } }
  let view := if f.fillSect then ((s.sectLine? f.sector f.line).map (·.data)).getD data else data
  let s := (f.waiters.filter (·.fillL1)).foldl (fun (s : State) (r : Waiter) =>
    s.fillL1 (((s.wave? r.wave).map (·.gang)).getD 0) (s.waiterCore f r) (if r.last then .last else .dflt) f.line view) s
  let s := f.waiters.foldl (fun (s : State) (r : Waiter) =>
    let gang := ((s.wave? r.wave).map (·.gang)).getD 0
    let s' := s.resolve r.wave r.pid (loadWords r.width (s.overlay gang f.line view) r.off) 0 none
    match r.acq with
    | some p => s'.acquire (s.waiterCore f r) p
    | none => s') s
  f.stores.foldl (fun (s : State) x => s.storeNow x.core x.wave x.pol x.w) s

/-- MERGING_FILL_ARRIVAL (R175): the fill with this number, once it has its entry (R183); one from the die's own home once that may
serve it (R201), one from another die once its reply has arrived. -/
def execMergingFillArrival (idx : Nat) (s : State) : Host.Outcome State Fault Refusal :=
  match s.fills.find? fun f => f.id == idx with
  | none => .next s
  | some f =>
    if !f.sent then .next s else
    let d := sectorDie f.sector
    match homeOfLine f.line with
    | none => .next (s.completeFill f (memLine s.mem f.line))
    | some h =>
      if h == d then
        if !(s.coverage h f.deps) then .next s else
        let t := (s.homeSync f.line).touchHome f.line
        .next (t.completeFill f (memLine t.mem f.line))
      else
        let fl := s.flow .response h d
        match f.data with
        | some x =>
          if fl.ready.contains (.reply idx) then
            let t := s.putFlow { fl with ready := fl.ready.filter (· != .reply idx) }
            .next ((t.mergeReply d f.applied).completeFill f x)
          else .next s
        | none => .next s

/-- HOME_READ_SERVE (R201): the read of this fill has been delivered to its home, and the home's coverage suffices. -/
def execHomeReadServe (idx : Nat) (s : State) : Host.Outcome State Fault Refusal :=
  match s.fills.find? fun f => f.id == idx with
  | none => .next s
  | some f =>
    let d := sectorDie f.sector
    match homeOfLine f.line with
    | none => .next s
    | some h =>
      let fl := s.flow .request d h
      if fl.ready.contains (.read idx) && s.coverage h f.deps then
        let t := s.putFlow { fl with ready := fl.ready.filter (· != .read idx) }
        let t := (t.homeSync f.line).touchHome f.line
        let x := memLine t.mem f.line
        let a := (s.die h).app
        let (n, t) := t.newId
        let fills := modBy t.fills (fun y => y.id == idx) fun y => { y with data := some x, applied := a, served := n }
        .next (State.send { t with fills := fills } .response h d (.reply idx))
      else .next s

/-! ## Evictions (R173, R175) -/

/-- CACHE_EVICTION (R173): an L1 copy, a sector cache's line with its dirty words written back, or a home cache's line. -/
def execCacheEviction (level : CacheLevel) (unit line : Nat) (s : State) : Host.Outcome State Fault Refusal :=
  match level with
  | .l1 => .next (s.dropL1 unit line)
  | .sector => .next (s.evictSect unit line)
  | .home =>
    if homeOfLine line == some unit then .next { s with homeLines := s.homeLines.filter (· != line) } else .next s

/-! ## The groomers (R211) -/

/-- Does an earlier request of the groomers' queues act on the line? -/
def State.groomFirst (s : State) (r : AtomReq) : Bool :=
  ((s.groom.takeWhile fun x => x.id != r.id).all fun x => x.addr / 64 != r.addr / 64 || homeOf x.addr != some x.src)

/-- GROOMER_ATOMIC (R211): a request from the groomer's own die, in arrival order, once the home covers what the die has seen
(R201, R202); one from another die is performed as its publication is applied (R200). -/
def execGroomerAtomic (idx : Nat) (s : State) : Host.Outcome State Fault Refusal :=
  match s.groom.find? fun r => r.id == idx with
  | none => .next s
  | some r => .next (if homeOf r.addr == some r.src && s.groomFirst r && s.readable r.src r.src then s.atomPerform r else s)

/-! ## Publications (R200, R201) -/

/-- What a home does with a publication it applies, in one step. -/
def State.applyBody (s : State) (b : PubBody) : State :=
  match b with
  | .writes ws => ws.foldl (fun (s : State) w => s.homeWrite w) s
  | .atomic req => match s.groom.find? fun r => r.id == req with
    | some r => s.atomPerform r
    | none => s
  | .marker _ => s

/-- May home `h` apply a write from die `j` with this stamp? -/
def State.canApply (s : State) (j h : Nat) (stamp : List Word) : Bool :=
  (List.range 8).all fun k => k == j || k == h || serialGe (vecAt (s.die h).app k) (vecAt stamp k)

/-- PUBLISHED_WRITE_APPLY (R201): the next publication of the flow applied at its home; where it ends a commit, the aborts that
waited for it take effect (R263). -/
def execPublishedWriteApply (src dst : Nat) (s : State) : Host.Outcome State Fault Refusal :=
  let f := s.flow .publish src dst
  match f.ready with
  | .pub _ _ (.marker _) :: _ => .next s
  | .pub stamp _ body :: rest =>
    if s.canApply src dst stamp then
      let t := s.putFlow { f with ready := rest }
      let t := t.modDie dst fun x =>
        { x with app := vecSet x.app src (vecAt stamp src), dep := vecSet (vecMerge x.dep stamp) dst x.pub }
      .next (t.applyBody body).dueAborts
    else .next s
  | _ => .next s

/-- Does home `h` fall short of what another die knows of die `k`, or does die `k` stall its publications (R201)? -/
def State.markerWanted (s : State) (k h : Nat) : Bool :=
  k != h && vecAt (s.die h).app k != (s.die k).pub &&
    ((s.dies.any fun d => !(serialGe (vecAt (s.die h).app k) (vecAt d.dep k))) || !(s.canPublish k))

/-- Is a marker with the die's current count on its way? -/
def Flow.hasMarker (f : Flow) (p : Word) : Bool :=
  f.bodies.any fun b => match b with | .pub _ _ (.marker q) => q == p | _ => false

/-- CLOCK_MARKER (R201): a marker at the head of the flow is applied; else one that is wanted is sent, behind every write. -/
def execClockMarker (src dst : Nat) (s : State) : Host.Outcome State Fault Refusal :=
  let f := s.flow .publish src dst
  match f.ready with
  | .pub _ _ (.marker p) :: rest =>
    .next ((s.putFlow { f with ready := rest }).modDie dst fun x => { x with app := vecSet x.app src p })
  | _ =>
    let p := (s.die src).pub
    if s.markerWanted src dst && !(f.hasMarker p) then .next (s.send .publish src dst (.pub [] 0 (.marker p)))
    else .next s

/-! ## Flits (R203) -/

/-- Do the messages of the class arrive in sequence order? -/
def flowOrdered : FlowClass → Bool
  | .request | .publish => true
  | _ => false

/-- The buffered flits that are next in sequence are delivered. -/
def Flow.deliver : Nat → Flow → Flow
  | 0, f => f
  | n + 1, f =>
    match f.buffer.find? fun x => x.seq == f.expect with
    | none => f
    | some x => Flow.deliver n
        { f with buffer := f.buffer.filter fun y => y.seq != x.seq, expect := f.expect + 1, ready := f.ready ++ [x.body] }

/-- A flit reaches the destination: into the reorder buffer of 256, or refused with a longer backoff. -/
def Flow.arrive (f : Flow) (x : Flit) : Flow :=
  let f := { f with flight := f.flight.filter fun y => y.seq != x.seq }
  if !(flowOrdered f.cls) then { f with ready := f.ready ++ [x.body], expect := f.expect + 1 }
  else if x.seq == f.expect || f.buffer.length < 256 then
    Flow.deliver (f.buffer.length + 1) { f with buffer := f.buffer ++ [x] }
  else { f with refused := f.refused ++ [{ x with backoff := if x.backoff = 0 then 16 else min 4096 (2 * x.backoff) }] }

/-- The lines that a message writes at its home. -/
def State.flitLines (s : State) (b : FlitBody) : List Nat :=
  match b with
  | .pub _ _ (.atomic req) => ((s.groom.filter fun r => r.id == req).map fun r => r.addr / 64)
  | b => b.lines

/-- FLIT_ARRIVAL (R203). A store or an atomic that arrives at its home from another die is an event of the monitors on its line
(R185). -/
def execFlitArrival (cls : FlowClass) (src dst seq : Nat) (s : State) : Host.Outcome State Fault Refusal :=
  match s.flow? cls src dst with
  | none => .next s
  | some f => match f.flight.find? fun x => x.seq == seq with
    | none => .next s
    | some x =>
      let t := s.putFlow (f.arrive x)
      .next (if (f.arrive x).refused.length == f.refused.length then
          (s.flitLines x.body).foldl (fun (t : State) n => t.monEvent n fun _ => true) t
        else t)

/-- FLIT_RETRANSMIT (R203). -/
def execFlitRetransmit (cls : FlowClass) (src dst seq : Nat) (s : State) : Host.Outcome State Fault Refusal :=
  match s.flow? cls src dst with
  | none => .next s
  | some f => match f.refused.find? fun x => x.seq == seq with
    | none => .next s
    | some x =>
      .next (s.putFlow { f with refused := f.refused.filter fun y => y.seq != seq, flight := f.flight ++ [x] })

/-! ## The host (R207, R373) -/

/-- Bytes of physical memory written by the host; addresses that are no frame of device or host memory are passed over. -/
def State.hostWrite (s : State) (addr : Nat) (bytes : List Byte) : State :=
  let xs := (bytes.zipIdx.map fun b => (addr + b.2, b.1)).filter fun x => s.frameOk x.1
  let ws := lineWrites xs
  let s := s.dropSeals ws
  let s := ws.foldl State.endPoison s
  ws.foldl (fun (s : State) w => if homeOfLine w.line == none then { s with mem := memPut s.mem w } else s.homeWrite w) s

/-- Does the host reach `n` bytes: its own memory, or, from stage 6 on (R389, R391), device memory in some function's range
(R373)? -/
def State.exposed (s : State) (a n : Nat) : Bool :=
  decide (2 ^ 49 ≤ a) || s.stage == 6 && s.vis.any fun v => decide (v.range.1 ≤ a) && decide (a + n ≤ v.range.2)

/-- HOST_MEM_WRITE (R207). -/
def execHostMemWrite (addr : Nat) (bytes : List Byte) (s : State) : Host.Outcome State Fault Refusal :=
  .next (if s.link && s.exposed addr bytes.length then s.hostWrite addr bytes else s)

/-- HOST_MEM_READ (R373): each line is served at its home cache. -/
def execHostMemRead (addr len : Nat) (s : State) : Host.Outcome State Fault Refusal :=
  let lines := (List.range ((addr % 64 + len + 63) / 64)).map (addr / 64 + ·)
  .next (if s.link && s.exposed addr len then
      lines.foldl (fun (s : State) n => if s.deviceFrame (64 * n) then (s.homeSync n).touchHome n else s) s
    else s)

/-- HOST_CACHE_REQUEST (R207): the host takes a copy of a device line, updates a line it holds, or gives its copy up. -/
def execHostCacheRequest (line : Nat) (req : HostReq) (s : State) : Host.Outcome State Fault Refusal :=
  if !s.link || s.stage != 6 || !(s.deviceFrame (64 * line)) then .next s else
  match req with
  | .take =>
    let t := (s.homeSync line).touchHome line
    .next (if t.hostLines.contains line then t else { t with hostLines := line :: t.hostLines })
  | .update data =>
    if s.hostLines.contains line then
      let t := s.hostWrite (64 * line) (data.take 64)
      .next { t with hostLines := line :: t.hostLines.filter (· != line) }
    else .next s
  | .giveUp => .next { s with hostLines := s.hostLines.filter (· != line) }

end Sys2Proof.Machine
end

