-- ==== Sys2Proof/Machine/Signals.lean ====
section
/-! DEFINITION. SIGDEC and NREC (spec/19 R283, R284): signal objects, and the records of a work graph's bins (spec/25 R368). -/

namespace Sys2Proof.Machine

/-! ## SIGDEC (R283) -/

/-- Does a unit of the wave's die have to wait to write at the home of an address (R200, R201)? -/
def State.homeBusy (s : State) (w : Wave) (pa : Nat) : Bool :=
  match homeOf pa with
  | some h => !(s.writable (coreDie w.core) h)
  | none => false

/-- Are the earlier accesses of every thread of the group performed at the scope? -/
def State.groupClear (s : State) (w : Wave) (m : LaneMask) (p : Scope) : Bool := (lanesOf m).all fun l => s.threadClear w l p

def sigdecCheck (a : Reg) (s : State) (c : Issue) (w : Wave) (_ : Nat) : Verdict :=
  let ea := (s.uniPair w a).toNat
  match s.access w .write ea 8 with
  | .error v => v
  | .ok pa =>
    if !(s.deviceFrame pa) then .abort 0x82 0 ea
    else if s.consumes w.gang pa 8 then .abort 0x80 0 ea
    else if !(s.groupClear w c.lanes .sys) || s.homeBusy w pa then .wait
    else .go

def sigdecAct (a b : Reg) (s : State) (_ : Issue) (w : Wave) (_ : LaneMask) : State :=
  match s.access w .write (s.uniPair w a).toNat 8 with
  | .error _ => s
  | .ok pa => (s.sigSub (coreDie w.core) pa (s.uni w b).toNat).setCommitted w.gang

/-- SIGDEC (R283): a commit point. -/
def execSigdec (a b : Reg) (s : State) : Host.Outcome State Fault Refusal :=
  runWord (.sigdec a b) { check := sigdecCheck a, commit := fun _ _ _ => true, act := sigdecAct a b } s

/-! ## NREC (R284, R368) -/

/-- The graph of a node's launch and the number of the node. -/
def State.nodeOf (s : State) (w : Wave) : Option (Launch × Graph × Nat) :=
  match (s.launchOf (s.gangOf w)).kind with
  | .node gid idx => (s.launch? gid).bind fun l => l.graph.map fun g => (l, g, idx)
  | _ => none

/-- The bin that an NREC names: that of a bin node which succeeds the issuing node. -/
def State.binOf (s : State) (w : Wave) (a : Nat) : Option (Launch × NodeSt) :=
  (s.nodeOf w).bind fun x =>
    match x.2.1.nodes[x.2.2]?, x.2.1.nodes[a]? with
    | some me, some n => if me.succ.contains a && n.bin then some (x.1, n) else none
    | _, _ => none

/-- The address of the record that would be appended after `k` others: the bin is a ring (R368). -/
def NodeSt.recordAt (n : NodeSt) (arena k : Nat) : Nat := arena + n.binOff + 16 * ((n.head + n.count + k) % n.binCap)

/-- The threads of the group before lane `l`. -/
def before (m : LaneMask) (l : Nat) : Nat := ((lanesOf m).filter (· < l)).length

def nrecCheck (a : Reg) (s : State) (c : Issue) (w : Wave) (l : Nat) : Verdict :=
  match s.binOf w (s.uni w a).toNat with
  | none => .abort 0x82 0 0
  | some (g, n) =>
    let ea := n.recordAt g.args (before c.lanes l)
    match s.access w .write ea 16 with
    | .error v => v
    | .ok pa =>
      if n.binCap < n.count + (lanesOf c.lanes).length || !(s.threadClear w l .pkg) || s.homeBusy w pa then .wait else .go

/-- A node of a graph changed. -/
def State.modNode (s : State) (launch idx : Nat) (f : NodeSt → NodeSt) : State :=
  s.modLaunch launch fun l => { l with graph := l.graph.map fun g => { g with nodes := g.nodes.modify idx f } }

/-- Records of a bin not yet given out. -/
def NodeSt.waiting (n : NodeSt) : Nat := n.count - n.given

/-- Records enter a bin; where it was empty its timer starts (R368). -/
def NodeSt.append (n : NodeSt) (k : Nat) : NodeSt :=
  { n with count := n.count + k, timing := n.timing || (n.waiting == 0 && n.timer != 0) }

/-- The records of the group appended in ascending lane order. -/
def nrecAct (r a : Reg) (s : State) (_ : Issue) (w : Wave) (m : LaneMask) : State :=
  let idx := (s.uni w a).toNat
  match s.binOf w idx with
  | none => s
  | some (g, n) =>
    let t := (lanesOf m).foldl (fun (t : State) (l : Nat) =>
      match s.access w .write (n.recordAt g.args (before m l)) 16 with
      | .ok pa => t.directWrite (coreDie w.core) (lineWrite pa 16 (wide (w.reg s.fresh l) 4 r))
      | .error _ => t) s
    (t.modNode g.id idx fun n => n.append (lanesOf m).length).setCommitted w.gang

/-- NREC (R284): a commit point. -/
def execNrec (r a : Reg) (s : State) : Host.Outcome State Fault Refusal :=
  runWord (.nrec r a) { check := nrecCheck a, commit := fun _ _ _ => true, act := nrecAct r a } s

end Sys2Proof.Machine
end

