-- ==== Sys2Proof/Machine/Threads.lean ====
section
/-! DEFINITION. What happens to threads, waves and gangs by itself: the entry into a handler (spec/17 R248), the landing of a
result (spec/02 R34), hints and counts that come due (spec/15 R222, R229, R276), monitor events (spec/11 R185), the watchdog
(spec/18 R268) and the sweep of a waking core (spec/27 R387). -/

namespace Sys2Proof.Machine

/-- A program counter that no rule gives (notes/assumptions/24.md). -/
def freePc (use : Nat) : DWord := (Config.freeWord use 0).setWidth 64 + ((Config.freeWord use 1).setWidth 64 <<< 32)

/-- An aborting cause whose program counter no rule gives. -/
def State.abortFree (s : State) (gid code : Nat) : State :=
  s.freshen.abortGang gid { code, pc := freePc s.fresh }

/-! ## Trap entry (R248, R250) -/

/-- The threads held at trap entry for their turn. -/
def Wave.entries (w : Wave) : List (Nat × TrapInfo) :=
  (List.range 32).filterMap fun l => match (w.thread l).hold? with
    | some (.entry t none) => some (l, t)
    | _ => none

/-- Those of the first chain none of whose threads has a result outstanding: the threads that trapped in one chain in one cycle
(R248). -/
def Wave.entering (w : Wave) : List (Nat × TrapInfo) :=
  let xs := w.entries
  let of (t : TrapInfo) : List (Nat × TrapInfo) := xs.filter fun x => x.2.pc == t.pc && x.2.cycle == t.cycle
  match xs.find? fun x => !((of x.2).any fun y => w.outstanding y.1) with
  | some x => of x.2
  | none => []

/-- TRAP_ENTRY (R248). -/
def execTrapEntry (wave : Nat) (s : State) : Host.Outcome State Fault Refusal :=
  match s.wave? wave with
  | none => .next s
  | some w =>
    .next (if s.gangOn (s.gangOf w) && !w.entering.isEmpty then (s.enterHandler wave w.entering).settle w.gang else s)

/-! ## Landings (R34, R120) -/

/-- RESULT_LANDING (R34): the result with this number lands once its value is known; a schuss group's hold on its line ends. A
poisoned one is consumed (R386). -/
def execResultLanding (wave idx : Nat) (s : State) : Host.Outcome State Fault Refusal :=
  match s.wave? wave with
  | none => .next s
  | some w =>
    match w.pend.find? fun p => p.id == idx && s.mayLand p with
    | none => .next s
    | some p =>
      if p.bad then .next (s.abortFree w.gang 0x80) else
      let t := s.modWave wave fun w => w.land s.fresh p
      let t := { t with sunk := t.sunk.filter fun x => !(x.ran && x.wave == wave && x.pid == idx) }
      .next (t.freshen.settle w.gang)

/-! ## Monitors (R185) -/

/-- An event on the monitor of one wave. -/
def State.waveEvent (s : State) (wave : Nat) : State :=
  match (s.wave? wave).bind (·.monitor) with
  | some m => s.monEvent m.line fun w => w.id == wave
  | none => s

/-- MONITOR_SPURIOUS_EVENT (R185). -/
def execMonitorSpuriousEvent (wave : Nat) (s : State) : Host.Outcome State Fault Refusal := .next (s.waveEvent wave)

/-- INTERRUPT_DELIVERY (R185): of an interrupt to a wave, the rules name this effect alone. -/
def execInterruptDelivery (wave : Nat) (s : State) : Host.Outcome State Fault Refusal := .next (s.waveEvent wave)

/-! ## Counts that come due (R222, R229, R276) -/

/-- Has the wave a candidate, not its lead, whose wait count has reached 255? -/
def Wave.due (w : Wave) : Bool :=
  w.prog && (List.range 32).any fun l =>
    let t := w.thread l
    t.running && 255 ≤ t.count && !((lanesOf w.lead).any fun k => (w.thread k).running && (w.thread k).pc == t.pc)

/-- The track of a wave has the next cycle, in which R222 and R229 choose (notes/assumptions/2.md). -/
def State.cycleNext (s : State) (w : Wave) : State :=
  match w.track with
  | some t => { s with inputs := .track t :: s.inputs }
  | none => s

/-- FAIRNESS_DUE (R222). -/
def execFairnessDue (wave : Nat) (s : State) : Host.Outcome State Fault Refusal :=
  match s.wave? wave with
  | some w => .next (if w.due then s.cycleNext w else s)
  | none => .next s

/-- WAVE_AGED (R229): the largest count of the track's waves, at 64 or more. -/
def execWaveAged (wave : Nat) (s : State) : Host.Outcome State Fault Refusal :=
  match s.wave? wave with
  | some w => .next (if 64 ≤ w.wait && s.waves.all (fun v => v.track != w.track || v.wait ≤ w.wait) then s.cycleNext w else s)
  | none => .next s

/-- PAUSE_EXPIRY (R276): the pause of the group of a lane ends. -/
def execPauseExpiry (wave lane : Nat) (s : State) : Host.Outcome State Fault Refusal :=
  .next (s.modWave wave fun w =>
    let x := w.thread lane
    w.mapLanes (BitVec.allOnes 32) fun _ t => if t.pc == x.pc && t.pause == x.pause then { t with pause := 0 } else t)

/-! ## The watchdog and the sweep -/

/-- Does a command wait for a physical tile: one of its footprint, or one for the state that a fill brings (R331)? -/
def State.tileWaits (s : State) (g : Gang) (c : TileCmd) : Bool :=
  s.mayStart g c && ((s.mapCmd g c).isNone || c.kind == .fill && match s.engRead g false c.off 64 with
    | .error _ => false
    | .ok r => (imageHead c.handle r.bytes).any fun x => decide ((s.freeTiles g.cluster).length < stateSize x.1 x.2.1))

/-- Can a count of the watchdog run for the gang: has it a thread that has not ended, or a queue that waits (R268, R317), such
as a command that waits for a tile (R331)? -/
def State.mayStarve (s : State) (g : Gang) : Bool :=
  ((s.wavesOf g.id).any fun w => w.live != 0) || (List.range 4).any (s.queueWaits g) || g.tileQ.any (s.tileWaits g)

/-- WATCHDOG_KILL (R268); the counts of cycles are not modelled (notes/assumptions/60.md). -/
def execWatchdogKill (gang : Nat) (s : State) : Host.Outcome State Fault Refusal :=
  match s.gang? gang with
  | some g => .next (if s.gangOn g && s.mayStarve g then s.abortFree gang 0x84 else s)
  | none => .next s

/-- Does a granted register of the wave hold an error? -/
def State.regError (s : State) (w : Wave) : Bool := s.regPoison.any fun x => x.1 == w.id && x.2.2 < w.grant

/-- CORE_WAKE_SWEEP (R387): the gangs of a woken core's waves that hold a register in error abort; the others issue from now
on. -/
def execCoreWakeSweep (core : Nat) (s : State) : Host.Outcome State Fault Refusal :=
  if !(s.unswept.contains core) then .next s else
  let bad := s.waves.filter fun w => w.track.isSome && w.core == core && s.regError w
  let t := ((bad.map (·.gang)).eraseDups).foldl (fun (t : State) (g : Nat) => t.abortFree g 0x80) s
  .next { t with
    regPoison := t.regPoison.filter fun x => !(bad.any fun w => w.id == x.1)
    unswept := t.unswept.filter (· != core) }

end Sys2Proof.Machine
end

