-- ==== Sys2Proof/Machine/Launcher.lean ====
section
/-! DEFINITION. What the launch engine shares: its accesses to memory (spec/25 R357), the dies that cover a kernel (spec/18
R265), and how gangs end: retirement (spec/19 R280), the release of an aborted or squashed gang (spec/18 R258), its re-run
(R259), and what each end adds to the completion record (spec/25 R371, R372). -/

namespace Sys2Proof.Machine

/-! ## Accesses of the launch engine -/

/-- The physical address of one byte that the launch engine on die `d` accesses for a context: its home may serve it now. -/
def State.devPa (s : State) (ctx d : Nat) (u : Use) (va : Nat) : Except EngStop Nat :=
  match s.xlate none ctx u (va % 2 ^ 64) with
  | .fault p => .error (.fault p (8 + if u = .read then 1 else 2))
  | .prot => engProt
  | .ok pa => match homeOf pa with
    | none => .ok pa
    | some h => if (if u = .read then s.readable d h else s.writable d h) then .ok pa else .error .wait

def State.devPas (s : State) (ctx d : Nat) (u : Use) (va n : Nat) : Except EngStop (List Nat) :=
  engAll (s.devPa ctx d u) ((List.range n).map (va + ·))

/-- `n` bytes read, as a little-endian number. -/
def State.devRead (s : State) (ctx d va n : Nat) : Except EngStop Nat :=
  match s.devPas ctx d .read va n with
  | .error e => .error e
  | .ok pas => .ok (bytesNat (pas.map fun pa => lineByte (s.homeView (pa / 64)) (pa % 64)))

/-- Bytes written at their homes, performed at .sys. -/
def State.devWrite (s : State) (ctx d va : Nat) (bs : List Byte) : Except EngStop State :=
  match s.devPas ctx d .write va bs.length with
  | .error e => .error e
  | .ok pas =>
    let ws := lineWrites (pas.zip bs)
    .ok (ws.foldl (fun (t : State) (w : LineWrite) => t.directWrite d w) (s.dropSeals ws))

/-- An access of the launch engine that does not go on: a translation fault makes a record for its page (R377), and the engine
waits (notes/assumptions/25.md). -/
def State.devStop (s : State) (ctx : Nat) (e : EngStop) : State :=
  match e with
  | .fault p k => if s.faults.any fun f => f.ctx == ctx && f.page == p then s else s.faultOn ctx p k 1
  | _ => s

/-! ## Where a launch may run (R265, R359, R380) -/

/-- Do the partition's sectors reach a die? -/
def Part.onDie (p : Part) (d : Nat) : Bool := p.sectors.any fun x => sectorDie x == d

/-- The dies of a launch's die-set on which the gang of index `i` may run. -/
def State.coveringDies (s : State) (l : Launch) (i : Nat) : List Nat :=
  let p := s.partOf (s.ctxOf l)
  let need := l.hdr.features ||| l.needFeat
  (List.range 8).filter fun d =>
    l.dieMask / 2 ^ d % 2 == 1 && p.onDie d && !(s.die d).withdrawn && (s.die d).feat &&& need == need
      && !(l.noDies.contains (i, d))

/-- Does the launch run: stage 6, its context neither lost nor switched out, its partition not halted (R271, R373)? -/
def State.launchOn (s : State) (l : Launch) : Bool :=
  let c := s.ctxOf l
  s.stage == 6 && !c.out && !c.lost && !(s.partOf c).halted

/-! ## The completion record's sums (R258, R371, R372) -/

/-- The flags of a gang (R372). -/
def State.gangFlags (s : State) (g : Gang) : BitVec 7 := (s.wavesOf g.id).foldl (fun f w => f ||| w.xstat) g.flags

/-- Flags merged into the summary; each keeps the lowest index that raised it. -/
def Launch.addFlags (l : Launch) (i : Nat) (f : BitVec 7) : Launch :=
  { l with
    summary := l.summary ||| f
    flagGangs := l.flagGangs.zipIdx.map fun x => if f.getLsbD x.2 then some (min i (x.1.getD i)) else x.1 }

/-- A fault noted: the gang with the lowest index stays. -/
def Launch.addFault (l : Launch) (i : Nat) (f : GangFault) : Launch :=
  if l.fault.all fun x => i < x.1 then { l with fault := some (i, f) } else l

/-- Gangs never placed end where no die covers the kernel: those due for a re-run abort with code 0x86, the others are never
run (R265), and a tail launch among them counts nowhere (R371). -/
def State.noCover (s : State) (lid : Nat) : State :=
  match s.launch? lid with
  | none => s
  | some l =>
    let lost := l.todo.filter fun x => (s.coveringDies l x.1).isEmpty
    if lost.isEmpty then s else
    let tail := (lost.filter fun x => x.2 == 0 && l.shaped && l.xp ≤ x.1).length
    let l := { l with todo := l.todo.filter (fun x => !(s.coveringDies l x.1).isEmpty), tail := l.tail - tail }
    let l := (lost.filter (0 < ·.2)).foldl (fun (l : Launch) x => l.addFault x.1 { code := 0x86, pc := freePc s.fresh }) l
    let l := if (lost.any (·.2 == 0)) && l.status == 0 then { l with status := 10 } else l
    (s.modLaunch lid fun _ => l).freshen

/-! ## The end of a gang (R258, R280, R330) -/

/-- Is a tile one that a command of the gang was to spill, and that no other gang's command moves? -/
def State.orphan (s : State) (g : Gang) (t : Tile) : Bool :=
  match t.st with
  | .left _ _ | .spilling _ _ => t.cluster == g.cluster && t.ctx == s.gangCtx g &&
      !(s.gangs.any fun h => h.id != g.id && h.place.isSome && h.cluster == g.cluster && h.tileQ.any fun c => c.foot.contains t.phys)
  | _ => false

/-- The resources of a gang become free: its tiles, its waves' slots and registers, its bindings and its version. -/
def State.releaseGang (s : State) (g : Gang) : State :=
  let mine := fun (t : Tile) => match t.st with | .gangOwned id _ => id == g.id | _ => false
  let tracks := (s.wavesOf g.id).filterMap (·.track)
  let states := modBy s.states (fun x => x.bound.any fun b => b.1 == g.id) fun x => { x with bound := none, ending := false }
  let s := { s with
    tiles := s.tiles.filter fun t => !(mine t) && !(s.orphan g t)
    waves := s.waves.filter fun w => w.gang != g.id
    versions := s.versions.filter fun v => v.gang != g.id
    states := states }
  (s.settleTracks tracks).drainAll

/-- A gang is gone. -/
def State.dropGang (s : State) (g : Gang) : State :=
  let t := s.releaseGang g
  { t with gangs := t.gangs.filter fun x => x.id != g.id }

/-! ## Retirement (R262, R280, R307) -/

/-- Has every thread of the gang ended, with nothing of theirs under way? -/
def State.threadsDone (s : State) (g : Gang) : Bool :=
  (s.wavesOf g.id).all (fun w => w.live == 0 && w.pend.isEmpty) && !(s.groom.any fun r => r.gang == g.id) &&
    !(s.sunk.any fun x => x.gang == g.id)

/-- Has every command that the gang enqueued completed? -/
def Gang.commandsDone (g : Gang) : Bool :=
  g.tileQ.isEmpty && g.bins.isEmpty && g.tidOps.isEmpty && g.rkOps.isEmpty &&
    g.queues.all fun q => q.walk.isNone && q.held.isEmpty

/-- The wave in whose name a gang commits as it retires. -/
def State.firstWave (s : State) (gid : Nat) : Nat := ((s.wavesOf gid).head?.map (·.id)).getD 0

/-- The retirement commit (R262, R363): it waits for the launch's shape and for the fabric. -/
def State.retireCommit (s : State) (g : Gang) : State :=
  if !(s.versioned g) || g.retired then s.modGang g.id fun g => { g with retired := true }
  else if g.gate || (s.commitRemote g && !(s.canPublish g.die)) then s
  else (s.commit g.id (s.firstWave g.id)).modGang g.id fun g => { g with retired := true }

/-- GANG_RETIRE (R280). -/
def execGangRetire (gang : Nat) (s : State) : Host.Outcome State Fault Refusal :=
  match s.gang? gang with
  | none => .next s
  | some g =>
    if !(s.gangOn g) || !(s.threadsDone g) then .next s else
    let t := s.retireCommit g
    match t.gang? gang with
    | none => .next t
    | some g =>
      if g.retired && t.commitsDone g && g.commandsDone then
        .next ((t.modLaunch g.launch fun l => { l.addFlags g.index (t.gangFlags g) with run := l.run + 1 }).dropGang g)
      else .next t

/-! ## After an abort or a squash (R258, R259, R364) -/

/-- Is the cause re-queueable (R255)? -/
def GangFault.requeue (f : GangFault) : Bool := f.code == 0x80 || f.code == 0x85 || (f.code == 9 && !f.final)

/-- Does the launch engine re-run the gang (R259)? -/
def State.reruns (s : State) (g : Gang) (f : GangFault) : Bool :=
  f.requeue && !g.committed && decide (g.attempt < 3) && !(s.launchOf g).noRerun

/-- GANG_RESOURCE_FREE (R258): once the started commands of an ended gang have completed, its resources are free. A gang that
is to be re-run is kept for that; any other leaves its flags and its fault with the launch. -/
def execGangResourceFree (gang : Nat) (s : State) : Host.Outcome State Fault Refusal :=
  match s.gang? gang with
  | none => .next s
  | some g =>
    if g.st == .live || (s.wavesOf gang).isEmpty || !g.tileQ.isEmpty || g.queues.any (·.walk.isSome) ||
        (s.groom.any fun r => r.gang == gang) then .next s else
    match g.st with
    | .live => .next s
    | .squashed => .next (s.dropGang g)
    | .aborted f =>
      if s.reruns g f then
        .next ((s.releaseGang g).modGang gang fun g =>
          { g with place := none, lastCluster := g.cluster, spad := [], spadPoison := [], full := [], savedTiles := [] })
      else
        .next ((s.modLaunch g.launch fun l => (l.addFlags g.index (s.gangFlags g)).addFault g.index f).dropGang g)

/-- A gang put among those to be placed, by index. -/
def insertTodo (x : Nat × Nat) : List (Nat × Nat) → List (Nat × Nat)
  | [] => [x]
  | y :: ys => if x.1 < y.1 then x :: y :: ys else y :: insertTodo x ys

/-- GANG_RERUN (R259): the freed gang is to be placed afresh, a new instance with one attempt more; not on the die of a die
fault. One that lies beyond the shape by now, or whose launch the shape has ended, is trimmed (R364, R365). -/
def execGangRerun (gang : Nat) (s : State) : Host.Outcome State Fault Refusal :=
  match s.gang? gang with
  | none => .next s
  | some g =>
    match g.st with
    | .aborted f =>
      if !(s.reruns g f) || !(s.wavesOf gang).isEmpty then .next s else
      let t := s.modLaunch g.launch fun l =>
        if l.shaped && l.extent.all (· ≤ g.index) then { l with trimmed := l.trimmed + 1 }
        else { l with todo := insertTodo (g.index, g.attempt + 1) l.todo
                      noDies := if f.code == 0x85 then (g.index, g.die) :: l.noDies else l.noDies }
      .next { t with gangs := t.gangs.filter fun x => x.id != gang }
    | _ => .next s

end Sys2Proof.Machine
end

