-- ==== Sys2Proof/Machine/Rinks.lean ====
section
/-! DEFINITION. Rinks and tensor-identifier words (spec/08 R150, spec/21 R298, spec/22 R309, R310, spec/24 R351 to R353):
RKINIT, RKWAIT, RKFLIP, TIDSET, TIDGET, TIDINV, and the two events that perform what has had to wait. -/

namespace Sys2Proof.Machine

/-! ## RKINIT (R309, R351) -/

/-- The geometry a pair names: base, stage size, count, and whether the bits above are zero. -/
def rkFields (x : DWord) : Nat × Nat × Nat × Bool :=
  let hi := x.toNat / 2 ^ 32
  (x.toNat % 2 ^ 32, hi % 2 ^ 17, hi / 2 ^ 17 % 32, hi / 2 ^ 22 == 0)

/-- May a rink have this geometry in an allocation of `n` bytes? -/
def rkOk (n base size count : Nat) : Bool :=
  if count == 0 then base == 0 && size == 0
  else 2 ≤ count && count ≤ 16 && base % 16 == 0 && size % 16 == 0 && 16 ≤ size && size ≤ 65536 && base + size * count ≤ n

/-- Does a command enqueued before number `seq` keep an RKINIT from being performed: a chain, or a task with WAIT or FLIP? -/
def Gang.rkBlocked (g : Gang) (seq : Nat) : Bool :=
  (g.queues.any fun q => (q.walk.any fun k => k.chain.seq < seq) || q.held.any fun c => c.seq < seq) ||
  g.tileQ.any fun c => c.kind == .task && c.seq < seq && (c.flag 1 || c.flag 2)

/-- The geometry written, with every phase cleared. -/
def Gang.rkSet (g : Gang) (r base size count : Nat) : Gang :=
  { g with rinks := g.rinks.set r { base, size, count, phases := 0 } }

def rkinitCheck (a : Reg) (s : State) (_ : Issue) (w : Wave) (_ : Nat) : Verdict :=
  let g := s.gangOf w
  let (b, z, n, ok) := rkFields (s.uniPair w a)
  if !(g.rkBlocked s.nextId) && !(ok && rkOk (s.spadBytes g) b z n) then .abort 0x82 0 0 else .go

/-- RKINIT performed at once, or the group parked at it until it can be. -/
def rkinitAct (r : BitVec 4) (a : Reg) (s : State) (_ : Issue) (w : Wave) (m : LaneMask) : State :=
  let (b, z, n, ok) := rkFields (s.uniPair w a)
  let g := s.gangOf w
  let (seq, t) := s.newId
  if g.rkBlocked seq then
    let op : RkOp := { seq, wave := w.id, lanes := m, rink := r.toNat, base := b, size := z
                       count := if ok then n else 1 }
    (t.modGang w.gang fun g => { g with rkOps := g.rkOps ++ [op] }).modCur fun c =>
      { c with parks := c.parks ++ (lanesOf m).map fun l => (l, seq) }
  else t.modGang w.gang fun g => g.rkSet r.toNat b z n

/-- The parked group goes on (R309). -/
def Wave.unpark (w : Wave) (op : RkOp) : Wave :=
  w.mapLanes (op.lanes &&& maskBy fun l => (w.thread l).parked == some op.seq) fun _ t =>
    { t with parked := none, pc := t.resume, count := 0, commitDone := false }.goOn

/-- The parked RKINIT performed; a geometry the rink may not have is a protection fault of the word (R351). -/
def State.rkPerform (s : State) (g : Gang) (op : RkOp) : State :=
  if rkOk (s.spadBytes g) op.base op.size op.count then
    let s := s.modGang g.id fun g =>
      Gang.nextChains { g.rkSet op.rink op.base op.size op.count with rkOps := g.rkOps.filter fun o => o.seq != op.seq }
    ((s.modWave op.wave fun w => (w.unpark op).fixLead).drainAcc g.id).settle g.id
  else
    let pc := ((s.wave? op.wave).map fun w => (w.thread (lowest op.lanes)).pc).getD 0
    s.abortGang g.id { code := 0x82, pc }

/-- RKINIT (R351). -/
def execRkinit (r : BitVec 4) (a : Reg) (s : State) : Host.Outcome State Fault Refusal :=
  runWord (.rkinit r a) { check := rkinitCheck a, act := rkinitAct r a } s

/-- RKINIT_PERFORM (R309): the RKINIT with this number. -/
def execRkinitPerform (gang idx : Nat) (s : State) : Host.Outcome State Fault Refusal :=
  match s.gang? gang with
  | none => .next s
  | some g => match g.rkOps.find? fun o => o.seq == idx with
    | some op => .next (if s.gangOn g && !(g.rkBlocked idx) then s.rkPerform g op else s)
    | none => .next s

/-! ## RKWAIT, RKFLIP (R298, R310, R351) -/

def stageCheck (r st : BitVec 4) (s : State) (_ : Issue) (w : Wave) (_ : Nat) : Verdict :=
  if (s.gangOf w).stageOk r.toNat st.toNat then .go else .abort 0x82 0 0

/-- RKWAIT is in Acq at .gang (R310): it follows the thread's earlier releases. -/
def rkwaitCheck (r st : BitVec 4) (s : State) (c : Issue) (w : Wave) (l : Nat) : Verdict :=
  (stageCheck r st s c w l).andThen (if s.relsDone w l .gang then .go else .wait)

/-- RKFLIP is in Rel at .gang (R310): it follows the thread's earlier accesses. -/
def rkflipCheck (r st : BitVec 4) (s : State) (c : Issue) (w : Wave) (l : Nat) : Verdict :=
  (stageCheck r st s c w l).andThen (if s.threadClear w l .gang then .go else .wait)

def rkwaitAct (r st : BitVec 4) (p : Bool) (s : State) (_ : Issue) (w : Wave) (m : LaneMask) : State :=
  s.holdIf m (.rkwait r.toNat st.toNat p) fun _ => (s.gangOf w).phase r.toNat st.toNat != p

def rkflipAct (r st : BitVec 4) (s : State) (_ : Issue) (w : Wave) (_ : LaneMask) : State :=
  s.modGang w.gang fun g => g.flip r.toNat st.toNat

/-- RKWAIT (R298). -/
def execRkwait (r st : BitVec 4) (p : Bool) (s : State) : Host.Outcome State Fault Refusal :=
  runWord (.rkwait r st p) { check := rkwaitCheck r st, act := rkwaitAct r st p } s

/-- RKFLIP (R310). -/
def execRkflip (r st : BitVec 4) (s : State) : Host.Outcome State Fault Refusal :=
  runWord (.rkflip r st) { check := rkflipCheck r st, act := rkflipAct r st } s

/-! ## Tensor-identifier words (R150, R352, R353) -/

/-- The table entry a word names, and its address. -/
def tidOf (x : Word) : Nat := x.toNat % 2 ^ 12
def State.tidAddr (s : State) (g : Gang) (e : Nat) : Nat := (s.launchOf g).tidTable + 128 * e

/-- Is the number in the kernel's table (R146)? -/
def State.tidIn (s : State) (w : Wave) (e : Nat) : Verdict :=
  if (s.launchOf (s.gangOf w)).hdr.tidtable ≤ e then .abort 0x82 0 0 else .go

def tidsetCheck (a b : Reg) (s : State) (_ : Issue) (w : Wave) (_ : Nat) : Verdict :=
  (s.tidIn w (tidOf (s.uni w a))).andThen (s.recordCheck w (s.uni w b).toNat 16 128)

def tidinvCheck (a : Reg) (s : State) (_ : Issue) (w : Wave) (_ : Nat) : Verdict := s.tidIn w (tidOf (s.uni w a))

/-- A tensor-identifier operation issued. -/
def State.addTid (s : State) (gid entry : Nat) (act : TidAct) (pc : DWord) : State :=
  let (seq, s) := s.newId
  let op : TidOp := { seq, entry, act, pc }
  s.modGang gid fun g => { g with tidOps := g.tidOps ++ [op] }

/-- The entries of a chain from `pos` to its END, as far as the scratchpad shows them; an IF may reach beyond an END. -/
def State.chainFrom (s : State) (g : Gang) (k : Walk) : Nat → Nat → Nat → List (Nat × Nat)
  | 0, _, _ => []
  | n + 1, pos, upto =>
    match (if pos == k.pos then s.entryHere g k else s.entryAt g k pos) with
    | none => []
    | some x =>
      if entryKind x == 0 && upto ≤ pos then []
      else (pos, x) :: State.chainFrom s g k n (pos + 32) (if entryKind x == 8 then max upto (pos + 32 + 32 * nfld x 2 2) else upto)

/-- Does a TRANSQ that the walk has still to perform name the entry: one ahead of it, or in a LOOP's body that ends ahead? -/
def State.walkNames (s : State) (g : Gang) (k : Walk) (e : Nat) : Bool :=
  let xs := s.chainFrom g k (s.spadBytes g / 32) k.chain.start 0
  xs.any fun x => entryKind x.2 == 4 && (nfld x.2 2 2 == e || nfld x.2 4 2 == e) &&
    (k.pos ≤ x.1 || xs.any fun y => entryKind y.2 == 7 && k.pos ≤ y.1 && y.1 ≤ x.1 + 32 * nfld y.2 2 1)

/-- Does a command enqueued before number `seq` name the entry (R150)? -/
def State.tidBusy (s : State) (g : Gang) (seq e : Nat) : Bool :=
  g.tileQ.any (fun c => c.seq < seq && c.tids.contains e) ||
  g.queues.any fun q => (q.walk.any fun k => k.chain.seq < seq && s.walkNames g k e) ||
    q.held.any fun c => c.seq < seq && s.walkNames g { chain := c, pos := c.start } e

/-- May the operation be performed: no earlier one on its entry is left, and no command enqueued before it and naming the
entry, of any gang that uses the table (R150)? A read follows the gang's own writes of the entry (R353). -/
def State.tidClear (s : State) (g : Gang) (op : TidOp) : Bool :=
  let before (o : TidOp) : Bool := o.seq < op.seq && o.entry == op.entry
  if op.writes then
    !(g.tidOps.any before) && s.tidsSet g op.seq [op.entry] &&
      !(s.gangs.any fun h => s.sameTable g h && s.tidBusy h op.seq op.entry)
  else !(g.tidOps.any fun o => before o && o.writes)

/-- Bytes written to the table at once, outside any version. -/
def State.tidWrite (s : State) (g : Gang) (va : Nat) (bs : List Byte) : Except EngStop State := do
  let pas ← s.engPasDirect g va bs.length
  .ok ((lineWrites (pas.zip bs)).foldl (fun (s : State) w => s.directWrite g.die w) s)

/-- The effect of an operation. -/
def State.tidEffect (s : State) (g : Gang) (op : TidOp) : Except EngStop State :=
  let a := s.tidAddr g op.entry
  match op.act with
  | .set off => do
    let r ← s.engRead g true off 128
    s.tidWrite g a r.bytes
  | .inv => do
    let r ← s.engRead g false (a + 13) 1
    (s.engReplies g r.pas).tidWrite g (a + 13) (r.bytes.map (· &&& 0xFE#8))
  | .get wave pid word => do
    let r ← s.engRead g false (a + 4 * word) 4
    .ok ((s.engReplies g r.pas).resolve wave pid [BitVec.ofNat 32 (bytesNat r.bytes)] 0 none)

/-- The operation with this number performed, if it may be. -/
def State.tidRun (s : State) (gid seq : Nat) : State :=
  match s.gang? gid with
  | none => s
  | some g => match g.tidOps.find? fun o => o.seq == seq with
    | none => s
    | some op =>
      if !(s.gangOn g && s.tidClear g op) then s else
      match s.tidEffect g op with
      | .ok t => t.modGang gid fun g => { g with tidOps := g.tidOps.filter fun o => o.seq != seq }
      | .error e => s.engStop g op.pc op.joined (fun p t => t.modGang gid fun g =>
          { g with tidOps := modBy g.tidOps (fun o => o.seq == seq) fun o => { o with joined := some p } }) e

def tidsetAct (a b : Reg) (s : State) (c : Issue) (w : Wave) (_ : LaneMask) : State :=
  s.addTid w.gang (tidOf (s.uni w a)) (.set (s.uni w b).toNat) c.wordPc

def tidinvAct (a : Reg) (s : State) (c : Issue) (w : Wave) (_ : LaneMask) : State :=
  s.addTid w.gang (tidOf (s.uni w a)) .inv c.wordPc

def tidgetCheck (a : Reg) (s : State) (_ : Issue) (w : Wave) (l : Nat) : Verdict := s.tidIn w (tidOf (w.reg s.fresh l a))

/-- TIDGET in each thread (R353); a uniform one reads once. -/
def tidgetAct (d a : Reg) (s : State) (c : Issue) (w : Wave) (m : LaneMask) : State :=
  (lanesOf (if d.isUni then laneBit (lowest m) else m)).foldl (fun (t : State) (l : Nat) =>
    let x := w.reg s.fresh l a
    let (id, t) := t.newId
    let p : Pending := { id, lane := if d.isUni then none else some l, lanes := if d.isUni then m else laneBit l
                         regs := [d], vals := [], opened := true }
    (t.addPending w.id p).addTid w.gang (tidOf x) (.get w.id id (x.toNat / 2 ^ 12 % 32)) c.wordPc) s

/-- TIDSET (R352). -/
def execTidset (a b : Reg) (s : State) : Host.Outcome State Fault Refusal :=
  runWord (.tidset a b) { check := tidsetCheck a b, act := tidsetAct a b } s

/-- TIDINV (R352). -/
def execTidinv (a : Reg) (s : State) : Host.Outcome State Fault Refusal :=
  runWord (.tidinv a) { check := tidinvCheck a, act := tidinvAct a } s

/-- TIDGET (R353). -/
def execTidget (d a : Reg) (s : State) : Host.Outcome State Fault Refusal :=
  runWord (.tidget d a) { check := tidgetCheck a, act := tidgetAct d a } s

/-- TIDSET_PERFORM (R150): the operation with this number. -/
def execTidsetPerform (gang idx : Nat) (s : State) : Host.Outcome State Fault Refusal := .next (s.tidRun gang idx)

end Sys2Proof.Machine
end

