-- ==== Sys2Proof/Machine/Special.lean ====
section
/-! DEFINITION. Special moves (spec/05 R98 to R102, spec/06 R124, spec/16 R243): control registers, record slots, the
generator, masks to and from registers, and moves through a register number. -/

namespace Sys2Proof.Machine

/-! ## Control registers (R18, R32, R99, R260) -/

/-- CAPREG (R32): the smallest register capacity of a track of the core. -/
def State.capreg (s : State) (core : Nat) : Nat :=
  (List.range 8).foldl (fun m t => min m (s.trackCap (8 * core + t))) 256

/-- TASK (R260). -/
def State.task (s : State) (g : Gang) : Nat :=
  let l := s.launchOf g
  bitTo l.hdr.ver + 2 * bitTo l.shape + 4 * bitTo g.gate + 8 * bitTo (s.dirty g.id) + 16 * bitTo g.committed
    + 2 ^ 8 * g.ccnt.toNat + 2 ^ 24 * (g.attempt % 4)

/-- XSTAT as a READS sees it: with or without the flags of each outstanding result (R153). -/
def State.xstatSeen (s : State) (w : Wave) : Flags :=
  w.pend.foldl (fun x p =>
    if p.flags &&& ~~~x != 0 && Config.freePick s.fresh p.id 1 % 2 == 1 then x ||| p.flags else x) w.xstat

/-- The value of a control register as lane `l` reads it (R99). -/
def State.ctlReg (s : State) (w : Wave) (l : Nat) : CtlReg → Nat
  | .lane => l
  | .wave => w.idx % 8
  | .wgid => w.wg % 4
  | .gangid => (s.gangOf w).index
  | .gangxyz => let g := s.gangOf w; g.x % 2 ^ 16 + 2 ^ 16 * (g.y % 2 ^ 10) + 2 ^ 26 * (g.z % 2 ^ 6)
  | .core => w.core % 4
  | .cluster => coreCluster w.core % 8
  | .sector => coreSector w.core % 2
  | .die => coreDie w.core
  | .feat => (s.die (coreDie w.core)).feat.toNat
  | .capreg => s.capreg w.core
  | .fmode => w.fmode.toNat
  | .xstat => (s.xstatSeen w).toNat
  | .prog => bitTo w.prog
  | .trapbase => w.trapBase.toNat
  | .trapframe => w.trapFrame.toNat
  | .trapen => w.trapEn.toNat
  | .task => s.task (s.gangOf w)
  | .cycle => (Map.get 0#32 s.coreCycle w.core).toNat

/-- The value that READS takes: of TASK, which a commit or a store of the chain changes, as it stood before the chain (R45). -/
def State.readsValue (s : State) (c : Issue) (w : Wave) (l : Nat) (r : CtlReg) : Nat :=
  match r, c.phase with
  | .task, .act => c.task.getD (s.ctlReg w l .task)
  | _, _ => s.ctlReg w l r

/-- READS in the lanes of `m` (R100). -/
def readsAct (d : Reg) (r : CtlReg) (s : State) (c : Issue) (w : Wave) (m : LaneMask) : State :=
  laneAct (.reads d r) (fun x => { regs := spread r.regCount d (s.readsValue c w x.lane r) }) s c w m

/-- A writable control register takes a value (R100, R134, R254). -/
def Wave.setCtl (w : Wave) (r : CtlReg) (v : Nat) : Wave :=
  match r with
  | .fmode => { w with fmode := BitVec.ofNat 6 v }
  | .xstat => { w with xstat := BitVec.ofNat 7 v }
  | .prog => { w with prog := v % 2 == 1 }
  | .trapbase => { w with trapBase := BitVec.ofNat 64 v }
  | .trapframe => { w with trapFrame := BitVec.ofNat 64 v }
  | .trapen => { w with trapEn := BitVec.ofNat 32 v &&& 0xFFE#32 }
  | _ => w

/-- The value WRITES takes from its uniform register or pair. -/
def State.writesValue (s : State) (a : Reg) (r : CtlReg) (w : Wave) (l : Nat) : Nat := wide (w.reg s.fresh l) r.regCount a

/-- rmode 6 and 7 raise ILLEGAL (R100, R134). -/
def writesCheck (a : Reg) (r : CtlReg) (s : State) (_ : Issue) (w : Wave) (l : Nat) : Verdict :=
  if r == .fmode && 6 ≤ s.writesValue a r w l % 8 then .trap 1 0 0 else .go

def writesAct (a : Reg) (r : CtlReg) (s : State) (_ : Issue) (w : Wave) (m : LaneMask) : State :=
  s.modWave w.id fun v => v.setCtl r (s.writesValue a r w (lowest m))

/-! ## Record slots (R124) -/

/-- A record slot of a thread (R123). -/
def Thread.slot (t : Thread) (i : Nat) : Nat := t.recs.toNat / 2 ^ (4 * i) % 16

/-- SREC: the slot as it stands when the read is performed, at some time before the landing, as far as the group that had last
named it at issue sets it: a later head of the slot follows the SREC in program order. -/
def srecAct (d : Reg) (i : BitVec 4) (s : State) (_ : Issue) (w : Wave) (m : LaneMask) : State :=
  (lanesOf (if d.isUni then laneBit (lowest m) else m)).foldl (fun s l =>
    let (id, s) := s.newId
    s.addPending w.id
      { id, lane := if d.isUni then none else some l, lanes := if d.isUni then m else laneBit l, regs := [d],
        vals := [BitVec.ofNat 32 ((w.thread l).slot i.toNat)], late := some (l, .slot i.toNat (Map.get 0 (w.thread l).recOwner i.toNat)) }) s

/-! ## The generator (R101) -/

/-- ℓ × 0x9E37_79B9. -/
def laneSalt (l : Nat) : Word := BitVec.ofNat 32 (l * 0x9E3779B9)

/-- A zero state becomes 1. -/
def genState (x : Word) : Word := if x = 0 then 1 else x

def opRngseed (a : Reg) : LaneOp := fun x => { gen := some (genState (x.rd a ^^^ laneSalt x.lane)) }
def opRngnext (d : Reg) : LaneOp := fun x => { regs := [(d, xorshift x.gen)], gen := some (xorshift x.gen) }

/-! ## Masks and registers (R243) -/

/-- KTOV in the lanes of `m`: the whole mask register as it stands at issue. -/
def ktovAct (d : Reg) (k : Mask) (s : State) (c : Issue) (w : Wave) (m : LaneMask) : State :=
  laneAct (.ktov d k) (fun _ => { regs := [(d, w.kreg k)] }) s c w m

def opVtok (k : Mask) (a : Reg) : LaneOp := fun x => { ks := [(k, (x.rd a).getLsbD x.lane)] }

/-! ## Moves through a register number (R102) -/

/-- An index that names no register, or one above the grant. -/
def badIndex (w : Wave) (x : Word) : Bool := 128 ≤ x.toNat || (decide (x.toNat < 96) && decide (w.grant ≤ x.toNat))

def movriCheck (a : Reg) (s : State) (_ : Issue) (w : Wave) (l : Nat) : Verdict :=
  if badIndex w (w.reg s.fresh l a) then .trap 4 0 0 else .go

def movirCheck (a : Reg) (s : State) (_ : Issue) (w : Wave) (l : Nat) : Verdict :=
  let x := w.reg s.fresh l a
  if badIndex w x || (96 ≤ x.toNat && x.toNat ≤ 126) then .trap 4 0 0 else .go

/-- MOVRI. With d and a uniform, an index that names a vector register reads the lowest lane's (`computing`): the rules do not
say whose (notes/assumptions/66.md). -/
def opMovri (d a : Reg) : LaneOp := fun x => { regs := [(d, x.rd (Reg.ofNat (x.rd a).toNat))] }

/-- Does another word of the chain write the register at issue in this lane? A CMOV whose condition is false writes nothing
(R92); a returning word writes when its result lands, and R35 then keeps either value. -/
def writesNow (x : LaneIn) (r : Reg) (i : Instr) : Bool :=
  !i.info.ret && i.info.dst.contains r && match i with
    | .cmov k n _ _ => x.kb k != n
    | _ => true

/-- A register of a result that a hold of the chain still owes is marked as written by MOVIR. -/
def Hold.clobber (r : Reg) : Hold → Hold
  | .fe f => .fe { f with clob := r :: f.clob }
  | .word x => .word { x with clob := r :: x.clob }
  | h => h

/-- MOVIR, performed after the chain's other words: a register that another word of the chain writes keeps either value, also
one whose result lands, or is loaded, later (R35). -/
def movirAct (d a : Reg) (s : State) (c : Issue) (w : Wave) (m : LaneMask) : State :=
  let hit (x : Nat × Hold) : Nat × Hold :=
    if m.getLsbD x.1 then (x.1, x.2.clobber (Reg.ofNat (w.reg s.fresh x.1 a).toNat)) else x
  let s := s.modCur fun c => { c with holds := c.holds.map hit }
  laneAct (.movir d a) (fun x =>
    let r := Reg.ofNat (x.rd a).toNat
    if r = .s 31 || (c.others.any (writesNow x r) && Config.freePick s.fresh x.lane r.toNat % 2 == 1) then {}
    else { regs := [(r, x.rd d)] }) s c w m

/-! ## The meanings -/

/-- READS (R100). -/
def execReads (d : Reg) (r : CtlReg) (s : State) : Host.Outcome State Fault Refusal :=
  runWord (.reads d r) { act := readsAct d r } s

/-- WRITES (R100). -/
def execWrites (a : Reg) (r : CtlReg) (s : State) : Host.Outcome State Fault Refusal :=
  runWord (.writes a r) { check := writesCheck a r, act := writesAct a r } s

/-- SREC (R124). -/
def execSrec (d : Reg) (i : BitVec 4) (s : State) : Host.Outcome State Fault Refusal :=
  runWord (.srec d i) { act := srecAct d i } s

/-- RNGSEED (R101). -/
def execRngseed (a : Reg) (s : State) : Host.Outcome State Fault Refusal := runLane (.rngseed a) (opRngseed a) s

/-- RNGNEXT (R101). -/
def execRngnext (d : Reg) (s : State) : Host.Outcome State Fault Refusal := runLane (.rngnext d) (opRngnext d) s

/-- KTOV (R243). -/
def execKtov (d : Reg) (k : Mask) (s : State) : Host.Outcome State Fault Refusal :=
  runWord (.ktov d k) { act := ktovAct d k } s

/-- VTOK (R243). -/
def execVtok (k : Mask) (a : Reg) (s : State) : Host.Outcome State Fault Refusal := runLane (.vtok k a) (opVtok k a) s

/-- MOVRI (R102). -/
def execMovri (d a : Reg) (s : State) : Host.Outcome State Fault Refusal :=
  runWord (.movri d a) { check := movriCheck a, act := laneAct (.movri d a) (opMovri d a) } s

/-- MOVIR (R102). -/
def execMovir (d a : Reg) (s : State) : Host.Outcome State Fault Refusal :=
  runWord (.movir d a) { check := movirCheck a, act := movirAct d a } s

end Sys2Proof.Machine
end

