-- ==== Sys2Proof/Machine/Placement.lean ====
section
/-! DEFINITION. The placement of gangs (spec/02 R14, R20 to R32, spec/20 R290, R292, spec/25 R358) and of the states a launch
names (spec/22 R297, spec/23 R333). -/

namespace Sys2Proof.Machine

/-! ## The waves of a gang (R23, R26, R27) -/

/-- The grant of a register request (R27). -/
def grantOf (n : Nat) : Nat := if n ≤ 32 then 32 else (n + 15) / 16 * 16

/-- A wave to be placed: workgroup, WAVE, role, grant and entry. -/
structure WavePlan where
  wg    : Nat
  idx   : Nat
  role  : Role
  grant : Nat
  entry : Nat

/-- A wave of a role put into the lowest workgroup with fewer than 8 (R23). -/
def addWave (g : Nat) (role : Role) (x : Nat × Nat × Nat) (ps : List WavePlan) (_ : Nat) : List WavePlan :=
  let count (i : Nat) : Nat := (ps.filter fun p => p.wg == i).length
  match (List.range g).find? fun i => count i < 8 with
  | some i => ps ++ [{ wg := i, idx := count i, role, grant := grantOf x.2.1, entry := x.1 }]
  | none => ps

/-- The waves of a gang of the kernel. -/
def Header.plan (h : Header) : List WavePlan :=
  if h.roles then
    [(Role.copy, h.copy), (Role.matrix, h.matrix), (Role.vector, h.vector)].foldl
      (fun ps x => (List.range x.2.2.2).foldl (addWave h.g x.1 x.2) ps) []
  else (List.range h.g).flatMap fun i => (List.range h.w).map fun j =>
    { wg := i, idx := j, role := .general, grant := grantOf h.regs, entry := h.entry }

/-! ## Tracks (R21, R26, R31, R32) -/

/-- The wave slots of a track. -/
def trackSlots (t : Nat) : Nat := if isGroomerTrack t then 7 else 8

/-- The waves on a track. -/
def State.trackCount (s : State) (t : Nat) : Nat := (s.waves.filter fun w => w.track == some t && w.live != 0).length

/-- The track of the core that takes a wave: the one with the least registers in use, counting the waves placed so far. -/
def State.pickTrack (s : State) (core grant : Nat) (xs : List (Nat × Nat)) : Option Nat :=
  let here (t : Nat) : List (Nat × Nat) := xs.filter fun x => x.1 == t
  let used (t : Nat) : Nat := s.trackUsed t + ((here t).map (·.2)).sum
  let ok := (List.range 8).map (8 * core + ·) |>.filter fun t =>
    s.trackCount t + (here t).length < trackSlots t && used t + grant ≤ s.trackCap t
  ok.foldl (fun b t => match b with | none => some t | some u => if used t < used u then some t else b) none

/-- Tracks for every wave of a gang of `g` workgroups from core `c` of a cluster, as (track, grant); none where it does not
fit. -/
def State.pickTracks (s : State) (cluster c : Nat) : List WavePlan → List (Nat × Nat) → Option (List (Nat × Nat))
  | [], xs => some xs
  | p :: ps, xs => (s.pickTrack (4 * cluster + c + p.wg) p.grant xs).bind fun t => State.pickTracks s cluster c ps (xs ++ [(t, p.grant)])

/-- The scratchpad bytes that gangs placed on a cluster hold. -/
def State.spadUsed (s : State) (cluster : Nat) : Nat :=
  ((s.gangs.filter fun g => g.place.any fun p => p.1 == cluster).map fun g => s.spadBytes g).sum

/-- Can the cluster take the gang from core `c` on: tracks and scratchpad (R21, R181)? -/
def State.room (s : State) (h : Header) (cluster c : Nat) : Option (List (Nat × Nat)) :=
  if c + h.g ≤ 4 && !(s.deadClusters.contains cluster) && s.spadUsed cluster + h.scratch ≤ 2 ^ 21 then
    s.pickTracks cluster c h.plan []
  else none

/-! ## Bands (R22) -/

/-- May the gang of index `i` go to a cluster? -/
def Launch.bandOk (l : Launch) (i cluster : Nat) : Bool :=
  let sec := clusterSector cluster
  let d := clusterDie cluster
  (l.bs == 0 || ((l.sectBands.lookup (i / l.bs)).all (· == sec))) &&
  (l.bd == 0 || match l.dieBands.lookup (i / l.bd) with
    | some e => e == d
    | none => !(l.dieBands.any fun x => x.2 == d))

/-- The bands that a placement fixes. -/
def Launch.noteBands (l : Launch) (i cluster : Nat) : Launch :=
  let add (size v : Nat) (xs : List (Nat × Nat)) : List (Nat × Nat) :=
    if size == 0 || (xs.lookup (i / size)).isSome then xs else (i / size, v) :: xs
  { l with sectBands := add l.bs (clusterSector cluster) l.sectBands, dieBands := add l.bd (clusterDie cluster) l.dieBands }

/-! ## The states a launch names (R297, R333) -/

/-- A state's size in tiles as a handle's dims give it (R346). -/
def dimTiles (dims : Nat) : Nat := stateSize (32 * (dims % 4 + 1)) (32 * (dims / 4 % 4 + 1))

/-- Has the packet's first gang been placed, and its new states been created? -/
def State.created (s : State) (l : Launch) : Bool :=
  l.placed || match l.kind with
    | .node g _ => (s.launch? g).any (·.placed)
    | _ => false

/-- The handles that are to be created. -/
def State.newStates (s : State) (l : Launch) : List (Nat × Nat) :=
  if s.created l then [] else l.handles.filterMap fun x => if x.2.1 then some (x.1, x.2.2) else none

/-- The live states that the launch names. -/
def State.namedStates (s : State) (l : Launch) : List StateRec :=
  (l.handles.filter fun x => s.created l || !x.2.1).filterMap fun x => s.stateRec? l.ctx x.1

/-- The tiles of the named states on a cluster. -/
def tilesOn (rs : List StateRec) (c : Nat) : Nat :=
  ((rs.filter fun r => r.place == .cluster c).map fun r => stateSize r.dv r.dk).sum

/-- The clusters a launch may use: of the dies that cover it and of its partition's sectors. -/
def State.launchClusters (s : State) (l : Launch) (i : Nat) : List Nat :=
  let p := s.partOf (s.ctxOf l)
  let ds := s.coveringDies l i
  (List.range 128).filter fun c =>
    ds.contains (clusterDie c) && p.sectors.contains (clusterSector c) && !(s.deadClusters.contains c)

/-- The cluster that holds the most tiles of the named states, the lowest of them (R333); none where it names no state. -/
def State.stateCluster (s : State) (l : Launch) (i : Nat) : Option Nat :=
  let rs := s.namedStates l
  if rs.isEmpty then none else
  (s.launchClusters l i).foldl (fun b c => match b with
    | none => some c
    | some e => if tilesOn rs e < tilesOn rs c then some c else b) none

/-- Are the named states where the gang is to run, and the tiles of the new ones free (R297)? -/
def State.statesReady (s : State) (l : Launch) (i cluster : Nat) : Bool :=
  let need := ((s.newStates l).map fun x => dimTiles x.2).sum
  need ≤ (s.freeTiles cluster).length &&
    ((s.namedStates l).isEmpty || (s.stateCluster l i == some cluster &&
      (s.namedStates l).all fun r => r.place == .cluster cluster && !r.ending))

/-- A new state: its tiles pinned, +0 in every element (R297). -/
def State.newState (s : State) (ctx cluster : Nat) (x : Nat × Nat) : State :=
  let dv := 32 * (x.2 % 4 + 1)
  let dk := 32 * (x.2 / 4 % 4 + 1)
  let ps := (s.freeTiles cluster).take (stateSize dv dk)
  let new := ps.zipIdx.map fun p => ({ cluster, phys := p.1, ctx, st := .pinned x.1 p.2 } : Tile)
  let r : StateRec := { ctx, handle := x.1, dv, dk, tokens := 0, place := .cluster cluster, bound := none }
  { s with tiles := new ++ s.tiles, states := s.states ++ [r] }

/-! ## Which launch is served first (R358, R368) -/

/-- A turn to be placed: priority, the packet, the rank of its node and the node. -/
structure Turned where
  prio : Nat
  pkt  : Nat
  rank : Nat
  node : Nat

/-- The turn of a launch. -/
def State.turnOf (s : State) (l : Launch) : Turned :=
  match l.kind with
  | .node g i =>
    { prio := l.prio, pkt := g, rank := (((s.launch? g).bind (·.graph)).bind fun x => x.nodes[i]?).elim 0 (·.rank), node := i }
  | _ => { prio := l.prio, pkt := l.id, rank := 0, node := 0 }

/-- Is a turn before another: by priority, then the packet accepted first, then the higher rank and the lower index? -/
def Turned.before (a b : Turned) : Bool :=
  b.prio < a.prio || (a.prio == b.prio && (a.pkt < b.pkt || (a.pkt == b.pkt &&
    (b.rank < a.rank || (a.rank == b.rank && a.node < b.node)))))

/-- Is a launch served before another: gangs of one bin node in the order of their launches? -/
def State.servedFirst (s : State) (a b : Launch) : Bool :=
  let x := s.turnOf a
  let y := s.turnOf b
  x.before y || (!(y.before x) && a.id < b.id)

/-- May the launch's next gang be placed on the cluster, once there is room (R22, R265, R333)? -/
def State.mayUse (s : State) (l : Launch) (cluster : Nat) : Bool :=
  match l.todo with
  | [] => false
  | (i, _) :: _ => l.started && s.launchOn l && (s.launchClusters l i).contains cluster && l.bandOk i cluster &&
      ((s.namedStates l).isEmpty || s.stateCluster l i == some cluster)

/-- The predecessors of a node have completed (R368). -/
def Graph.ready (g : Graph) (i : Nat) : Bool := g.nodes.all fun n => n.completed || !(n.succ.contains i)

/-- Is the place of a buffer known: the true extents of the buffers it follows, or that their nodes have ended (R369)? -/
def Graph.bufKnown (g : Graph) : Nat → Nat → Bool
  | 0, _ => true
  | k + 1, i => match g.bufs[i]? with
    | none => true
    | some b => match b.follows with
      | none => true
      | some j => g.bufKnown k j && ((g.bufs[j]?).bind (·.shapeNode)).all fun m =>
          (g.extents.lookup m).isSome || (g.nodes[m]?).any (·.completed)

/-- Are the places of the buffers known that a node's patches name? -/
def Graph.patchesKnown (g : Graph) (idx : Nat) : Bool :=
  (g.patches.filter fun p => p.node == idx).all fun p => g.bufKnown (g.bufs.length + 1) p.buf

/-- Is the node ready, or a gang of it, and not launched yet: a grid whose predecessors have completed; a bin that holds C
records not given out, or some when its timer has run out or its predecessors have completed (R368)? Either waits for the places
of the buffers that its patches name (R369). -/
def Graph.due (g : Graph) (i : Nat) (n : NodeSt) : Bool :=
  if n.bin then decide (0 < n.waiting) && (decide (n.c ≤ n.waiting) || n.timedOut || g.ready i) && g.patchesKnown i
  else !n.launched && g.ready i && g.patchesKnown i

/-- What a node's launch takes from the graph's packet (R368). -/
def Launch.forNode (l : Launch) (id idx : Nat) (n : NodeSt) : Launch :=
  { id, ctx := l.ctx, prio := l.prio, kind := .node l.id idx, die := l.die, dieMask := l.dieMask, fmode := l.fmode
    codeBase := n.codeBase, header := n.header, bs := l.bs, bd := l.bd, tidTable := l.tidTable, spillBase := l.spillBase
    verBase := l.verBase, verLines := l.verLines, handles := l.handles, predictor := n.predictor, cell := l.args + n.cell
    started := true, noRerun := l.noRerun }

/-- The next gang of a node that is not launched yet, as a launch: what decides which clusters it may be placed on. -/
def Launch.nodeGang (m : Launch) (idx : Nat) (n : NodeSt) : Launch :=
  { m.forNode m.id idx n with hdr := { features := n.features }, todo := [(n.gangs, 0)] }

/-- Has a graph a ready node, not launched yet, whose turn is before this one and that may be placed on the cluster (R358,
R368)? -/
def State.nodeFirst (s : State) (t : Turned) (cluster : Nat) (m : Launch) : Bool :=
  m.started && s.launchOn m && m.graph.any fun g => g.nodes.zipIdx.any fun x =>
    g.due x.2 x.1 && Turned.before { prio := m.prio, pkt := m.id, rank := x.1.rank, node := x.2 } t
      && s.mayUse (m.nodeGang x.2 x.1) cluster

/-- The tracks for the next gang of a launch at a place, if it can be placed there now. -/
def State.placeNow (s : State) (l : Launch) (cluster c : Nat) : Option (Nat × Nat × List (Nat × Nat)) :=
  match l.todo with
  | [] => none
  | (i, a) :: _ =>
    if s.mayUse l cluster && s.statesReady l i cluster then
      (s.room l.hdr cluster c).map fun ts => (i, a, ts)
    else none

/-- Does no gang that is to be placed before it wait for the cluster, and no ready node that is still to be launched (R358,
R368)? -/
def State.firstAt (s : State) (l : Launch) (cluster : Nat) : Bool :=
  !(s.launches.any fun m => (m.id != l.id && s.servedFirst m l && s.mayUse m cluster) || s.nodeFirst (s.turnOf l) cluster m)

/-! ## The gang as it starts (R14, R24, R181, R254, R290, R292) -/

/-- The uniform registers: the argument block in s0 to s15. -/
def startUniforms (args : List Word) : Map Word :=
  (args.take 16).zipIdx.foldl (fun m x => Map.set 0#32 m x.2 x.1) []

/-- One wave. -/
def startWave (id gang cycle : Nat) (l : Launch) (p : WavePlan) (track : Nat) : Wave :=
  { id, gang, wg := p.wg, idx := p.idx, role := p.role, track := some track, grant := p.grant
    s := startUniforms l.argWords, fmode := l.fmode, prog := l.hdr.prog, lead := BitVec.allOnes 32, age := cycle
    threads := (List.range 32).map fun i =>
      { pc := BitVec.ofNat 64 (l.codeBase + p.entry), gen := genState (laneSalt i) } }

/-- The waves of a gang on their tracks. -/
def State.startWaves (s : State) (gang : Nat) (l : Launch) (xs : List (WavePlan × Nat)) : State :=
  xs.foldl (fun (s : State) x =>
    let (id, s) := s.newId
    { s with waves := s.waves ++ [startWave id gang s.cycle l x.1 x.2] }) s

/-- Has the core no resident wave (R387)? Core 0 of a cluster always has the groomer's (R31). -/
def State.asleep (s : State) (core : Nat) : Bool :=
  core % 4 != 0 && s.waves.all fun w => w.track.isNone || w.core != core || w.live == 0

/-- The sleeping cores of the tracks wake, and are to be swept before a wave of theirs issues (R387). -/
def State.wake (s : State) (tracks : List Nat) : State :=
  let cores := ((tracks.map (· / 8)).eraseDups).filter s.asleep
  { s with unswept := cores ++ s.unswept.filter fun c => !cores.contains c }

/-- The gang of index `i` placed. -/
def State.startGang (s : State) (l : Launch) (i a cluster c : Nat) (ts : List (Nat × Nat)) : State :=
  let (id, s) := s.newId
  let g : Gang :=
    { id, launch := l.id, index := i, attempt := a, place := some (cluster, c), lastCluster := cluster
      x := i % l.x, y := i / l.x % l.y, z := i / (l.x * l.y), gate := l.shape && !l.shaped }
  let s := State.wake { s with gangs := s.gangs ++ [g] } (ts.map Prod.fst)
  s.startWaves id l (l.hdr.plan.zip (ts.map (·.1)))

/-- Where the loader put the const section of an object (R287): at a multiple of 65,536. -/
def constSection (ctx code : Nat) : Nat := 65536 * Config.constBase ctx code

/-- Has the launch's TID image been copied: by its own first gang, or by that of its bin node (R290)? -/
def State.imageCopied (s : State) (l : Launch) : Bool :=
  l.placed || match l.kind with
    | .node g i => (((s.launch? g).bind (·.graph)).bind fun x => x.nodes[i]?).any (·.copied)
    | _ => false

/-- Does a command enqueued before the copy, or a TIDSET or TIDINV issued before it, name an entry of the launch's TID image? The
copy is one of a TIDSET of each entry, and waits for them as R150 gives (R290; notes/assumptions/89.md). -/
def State.imageBusy (s : State) (l : Launch) : Bool :=
  !(s.imageCopied l) && s.gangs.any fun h => s.gangCtx h == l.ctx && (s.launchOf h).tidTable == l.tidTable &&
    (List.range l.hdr.tidtable).any fun e => s.tidBusy h s.nextId e || h.tidOps.any fun o => o.entry == e && o.writes

/-- What the placement of a launch's first gang does before: new states, and the TID image (R290, R297). -/
def State.firstPlacement (s : State) (l : Launch) (cluster : Nat) : Except EngStop State :=
  let s := (s.newStates l).foldl (fun (s : State) x => s.newState l.ctx cluster x) s
  let n := 128 * l.hdr.tidtable
  if n == 0 || s.imageCopied l then .ok s else
  match s.devRead l.ctx l.die (constSection l.ctx l.codeBase + l.hdr.tidImage) n with
  | .error e => .error e
  | .ok x => s.devWrite l.ctx l.die l.tidTable (natBytes n x)

/-- The launch after a placement; with a graph's node, its graph has started too (R358). -/
def State.notePlacement (s : State) (l : Launch) (i a cluster : Nat) : State :=
  let s := s.modLaunch l.id fun l =>
    { l.noteBands i cluster with
      todo := l.todo.drop 1, placed := true, reruns := if a == 0 then l.reruns else l.reruns + 1 }
  match l.kind with
  | .node g i => (s.modLaunch g fun x => { x with placed := true }).modNode g i fun n => { n with copied := n.bin }
  | _ => s

/-- The launch rejected with BAD_HANDLE (R297, R334, R360): it starts no gang, and no shape is awaited. -/
def Launch.badHandle (l : Launch) : Launch := { l with todo := [], shaped := true, status := 8 }

/-- GANG_PLACEMENT (R21, R265, R297, R333, R358): the launch's next gang at a place that can take it. -/
def execGangPlacement (launch cluster core : Nat) (s : State) : Host.Outcome State Fault Refusal :=
  let s := s.noCover launch
  match s.launch? launch with
  | none => .next s
  | some l =>
    match s.placeNow l cluster core with
    | none => .next s
    | some (i, a, ts) =>
      if !(s.firstAt l cluster) then .next s
      else if (s.newStates l).any fun x => (s.stateRec? l.ctx x.1).isSome then .next (s.modLaunch launch Launch.badHandle)
      else if s.imageBusy l then .next s
      else match s.firstPlacement l cluster with
        | .error e => .next (s.devStop l.ctx e)
        | .ok t => .next ((t.notePlacement l i a cluster).startGang l i a cluster core ts)

/-- Does a launch with gangs to place need a state on a cluster (R333)? -/
def State.moveWanted (s : State) (ctx handle cluster : Nat) : Option Launch :=
  s.launches.find? fun l => l.ctx == ctx && l.started && s.launchOn l && match l.todo with
    | [] => false
    | (i, _) :: _ => (s.namedStates l).any (fun r => r.handle == handle) && s.stateCluster l i == some cluster

/-- STATE_MOVE (R333): an unbound state moved onto the cluster where a launch is to be placed; a fill that fails its check ends
the launch with BAD_HANDLE (R334). -/
def execStateMove (ctx handle cluster : Nat) (s : State) : Host.Outcome State Fault Refusal :=
  match s.moveWanted ctx handle cluster, s.stateRec? ctx handle with
  | some l, some r =>
    if r.bound.isSome || r.ending || r.place == .cluster cluster then .next s else
    match s.moveTo r cluster with
    | .ok t => .next t.drainAll
    | .error (.abort _ _) => .next (s.modLaunch l.id Launch.badHandle)
    | .error e => .next (s.devStop ctx e)
  | _, _ => .next s

end Sys2Proof.Machine
end

