-- ==== Sys2Proof/Machine/Shapes.lean ====
section
/-! DEFINITION. Speculative shapes (spec/25 R362 to R365). -/

namespace Sys2Proof.Machine

/-- A shape cell that is not known yet (R362). -/
def shapeUnknown : Nat := 2 ^ 64 - 1

/-- The address of a launch's predictor entry (R362). -/
def State.predictorAt (s : State) (l : Launch) : Option Nat := (s.ctxOf l).predictor.map (· + 32 * l.predictor)

/-- Is a predictor entry valid (R362)? -/
def predictorOk (x : Nat) : Bool := nfld x 0 1 ≤ 2 && nfld x 1 3 == 0 && nfld x 24 8 == 0

/-- The predicted extent (R363). -/
def predictedExtent (pe x : Nat) : Nat :=
  let h (i : Nat) : Nat := nfld pe (8 + 4 * i) 4
  let p := match nfld pe 0 1 with
    | 0 => h 0
    | 1 => max (max (h 0) (h 1)) (max (h 2) (h 3))
    | _ => nfld pe 4 4
  min (max p 1) x

/-- Gangs at or beyond `lim`: those placed are squashed, those not placed are trimmed (R364). -/
def State.cutLaunch (s : State) (lid lim : Nat) : State :=
  let live := s.gangs.filter fun g => g.launch == lid && g.st == .live && lim ≤ g.index
  let s := s.modLaunch lid fun l =>
    { l with
      todo := l.todo.filter fun x => x.1 < lim
      trimmed := l.trimmed + (l.todo.filter fun x => lim ≤ x.1).length
      squashed := l.squashed + live.length }
  live.foldl (fun (s : State) g => s.endGang g.id .squashed) s

/-- The gates of a launch's gangs open. -/
def State.openGates (s : State) (lid : Nat) : State :=
  { s with gangs := modBy s.gangs (fun g => g.launch == lid) fun g => { g with gate := false } }

/-- The true extent of a shape node, known to its graph (R366, R369). -/
def State.noteExtent (s : State) (l : Launch) (v : Nat) : State :=
  match l.kind with
  | .node g i => s.modLaunch g fun x => { x with graph := x.graph.map fun y => { y with extents := (i, v) :: y.extents } }
  | _ => s

/-- The history with X′ shifted in (R364). -/
def State.shiftPredictor (s : State) (l : Launch) (v : Nat) : Except EngStop State :=
  match s.predictorAt l with
  | none => .ok s
  | some a => match s.devRead l.ctx l.die (a + 8) 12 with
    | .error e => .error e
    | .ok x => s.devWrite l.ctx l.die (a + 8) (natBytes 16 (v % 2 ^ 32 + 2 ^ 32 * x))

/-- The shape ends a launch, started or not: every gang is cut (R364, R365). -/
def State.endShape (s : State) (l : Launch) (status : Nat) : State :=
  (s.cutLaunch l.id 0).modLaunch l.id fun l => { l with shaped := true, started := true, status }

/-- The shape step (R364). -/
def State.applyShape (s : State) (l : Launch) (v : Nat) : Except EngStop State :=
  if l.x < v then
    .ok (s.endShape l 9)
  else match s.shiftPredictor l v with
    | .error e => .error e
    | .ok s =>
      let tail := (List.range (v - l.xp)).map fun i => (l.xp + i, 0)
      let s := ((s.cutLaunch l.id v).openGates l.id).modLaunch l.id fun l =>
        { l with shaped := true, extent := some v, todo := l.todo ++ tail, tail := l.tail + tail.length }
      .ok (s.noteExtent l v)

/-- The shape cell of a launch that waits for its shape: the launch and what the cell holds. -/
def State.shapeCell (s : State) (launch : Nat) : Option (Launch × Except EngStop Nat) :=
  match s.launch? launch with
  | none => none
  | some l =>
    if l.shape && !l.shaped && s.launchOn l then some (l, s.devRead l.ctx l.die l.cell 8) else none

/-- SHAPE_APPLY (R364): the cell holds a value. -/
def execShapeApply (launch : Nat) (s : State) : Host.Outcome State Fault Refusal :=
  match s.shapeCell launch with
  | none => .next s
  | some (l, .error e) => .next (s.devStop l.ctx e)
  | some (l, .ok v) =>
    if v == shapeUnknown then .next s else
    match s.applyShape l v with
    | .ok t => .next t
    | .error e => .next (s.devStop l.ctx e)

/-- SHAPE_TIMEOUT (R365): the time has run out, and the cell still reads unknown. -/
def execShapeTimeout (launch : Nat) (s : State) : Host.Outcome State Fault Refusal :=
  match s.shapeCell launch with
  | none => .next s
  | some (l, .error e) => .next (s.devStop l.ctx e)
  | some (l, .ok v) =>
    if v == shapeUnknown then .next (s.endShape l 12)
    else .next s

end Sys2Proof.Machine
end

