-- ==== Sys2Proof/Machine/Packets.lean ====
section
/-! DEFINITION. Launch queues and packets (spec/25 R356 to R361), kernel headers (spec/20 R288, R289), and the completion of
launches (spec/25 R370, R371). -/

namespace Sys2Proof.Machine

/-! ## The kernel header (R288, R289) -/

/-- A role entry: entry offset, registers, waves. -/
def roleAt (h o : Nat) : Nat × Nat × Nat := (nfld h o 4, nfld h (o + 4) 1, nfld h (o + 5) 1)

/-- The header of 256 bytes. -/
def parseHeader (h : Nat) : Header :=
  let fl := nfld h 0x0C 4
  { features := BitVec.ofNat 7 (nfld h 8 4), ver := fl % 2 == 1, shape := fl / 2 % 2 == 1, prog := fl / 4 % 2 == 1
    roles := fl / 8 % 2 == 1, entry := nfld h 0x10 4, regs := nfld h 0x14 1, g := nfld h 0x15 1, w := nfld h 0x16 1
    scratch := nfld h 0x18 4, tidtable := nfld h 0x1C 2, tidImage := nfld h 0x20 4, spill := nfld h 0x24 4
    codeBytes := nfld h 0x28 4, copy := roleAt h 0x30, matrix := roleAt h 0x38, vector := roleAt h 0x40 }

/-- The declared roles. -/
def Header.declared (h : Header) : List (Nat × Nat × Nat) := [h.copy, h.matrix, h.vector].filter fun r => r.2.2 != 0

/-- Is an offset a slot word of the kernel's code? -/
def Header.slotIn (h : Header) (e : Nat) : Bool :=
  let base := h.entry / 16 * 16
  e % 4 == 0 && e / 4 % 4 != 0 && base ≤ e && e < base + h.codeBytes

def headerBad (x : Nat) : Bool :=
  let h := parseHeader x
  nfld x 0 4 != 0x4B574B48 || nfld x 4 1 != 1 || nfld x 5 1 != 1 || nfld x 6 2 != 0 || nfld x 8 4 / 2 ^ 7 != 0
    || nfld x 0x0C 4 / 2 ^ 4 != 0 || nfld x 0x17 1 != 0 || nfld x 0x1E 2 != 0 || nfld x 0x48 0xB8 != 0
    || [0x30, 0x38, 0x40].any (fun o => nfld x (o + 6) 2 != 0 || (!h.roles && nfld x o 8 != 0))
    || (h.shape && !h.ver) || h.g == 0 || 4 < h.g || (!h.roles && (h.w == 0 || 8 < h.w))
    || h.scratch % 16 != 0 || 2 ^ 21 < h.scratch || h.spill % 16 != 0 || 2 ^ 16 < h.spill || 4096 < h.tidtable
    || !(h.slotIn h.entry) || !(h.declared.all fun r => h.slotIn r.1)

/-- The status of a header's checks (R289): 0 where it passes. -/
def headerStatus (x : Nat) : Nat :=
  let h := parseHeader x
  if headerBad x then 3
  else if (if h.roles then h.declared.any fun r => 96 < r.2.1 else decide (96 < h.regs)) then 4
  else if h.roles && (h.declared.isEmpty || h.declared.any (fun r => 8 < r.2.2)
      || 8 * h.g < (h.declared.map (·.2.2)).sum) then 5
  else 0

/-! ## Packets (R359, R360) -/

/-- The addresses of a packet and their alignments. -/
def packetAligned (x : Nat) : Bool :=
  [(0x08, 65536), (0x10, 16), (0x28, 64), (0x30, 128), (0x38, 16), (0x48, 8), (0x50, 8), (0x58, 8), (0x60, 64), (0x70, 8)].all
    fun a => nfld x a.1 8 % a.2 == 0

def packetFlag (x i : Nat) : Bool := nfld x 1 1 / 2 ^ i % 2 == 1

/-- The handles of a packet: value, new, dims. -/
def packetHandles (x : Nat) : List (Nat × Bool × Nat) :=
  [0, 1].filterMap fun i =>
    if nfld x 5 1 / 2 ^ (2 * i) % 2 == 1 then some (nfld x (0x68 + 4 * i) 4, nfld x 5 1 / 2 ^ (2 * i + 1) % 2 == 1, nfld x (6 + i) 1)
    else none

/-- A handle field that breaks R359. -/
def handleFieldBad (x i : Nat) : Bool :=
  let present := nfld x 5 1 / 2 ^ (2 * i) % 2 == 1
  let new := nfld x 5 1 / 2 ^ (2 * i + 1) % 2 == 1
  let h := nfld x (0x68 + 4 * i) 4
  let dims := nfld x (6 + i) 1
  (present && h == 0) || (new && !present) || (!present && h != 0) || (dims != 0 && !(present && new)) || dims / 16 != 0

/-- BAD_PACKET of a kernel or graph packet (R359, R360): `dies` is the die-set within the partition, `dev` says that a device
thread wrote the seal, `h` is the kernel header, zero for a graph. -/
def packetBad (x h : Nat) (dies : List Nat) (dev : Bool) : Bool :=
  let graph := nfld x 0 1 == 2
  (nfld x 0 1 != 1 && !graph) || nfld x 1 1 / 2 ^ 3 != 0 || 63 < nfld x 2 1 || dies.isEmpty
    || nfld x 4 1 / 2 ^ 6 != 0 || 6 ≤ nfld x 4 1 % 8 || nfld x 5 1 / 2 ^ 4 != 0 || handleFieldBad x 0 || handleFieldBad x 1
    || nfld x 0x1F 1 != 0 || nfld x 0x78 4 != 0 || !(packetAligned x) || (graph && nfld x 0x18 8 != 0)
    || nfld x 0x40 8 / 2 ^ 51 != 0 || nfld x 0x40 8 / 2 ^ 6 % 2 ^ 10 != 0 || 24 < nfld x 0x40 8 % 2 ^ 6
    || (packetFlag x 2 && !dev) || nfld x 0x10 8 == 0 || nfld x 0x28 8 == 0
    || (nfld h 0x1C 2 != 0 && nfld x 0x30 8 == 0) || (nfld h 0x24 4 != 0 && nfld x 0x38 8 == 0)
    || (packetFlag x 0 && nfld x 0x70 8 == 0)

/-- BAD_PACKET of a barrier-and. -/
def barrierBad (x : Nat) (dev : Bool) : Bool :=
  nfld x 1 1 / 2 ^ 3 != 0 || packetFlag x 0 || nfld x 2 0x46 != 0 || nfld x 0x68 0x14 != 0 || !(packetAligned x)
    || (packetFlag x 2 && !dev)

/-- The grid of a packet or of a node's record. -/
structure Grid where
  x : Nat
  y : Nat
  z : Nat

def gridAt (x o : Nat) : Grid := { x := nfld x o 4, y := nfld x (o + 4) 2, z := nfld x (o + 6) 1 }
def Grid.ok (g : Grid) : Bool := 1 ≤ g.x && g.x ≤ 65536 && 1 ≤ g.y && g.y ≤ 1024 && 1 ≤ g.z && g.z ≤ 64
def Grid.size (g : Grid) : Nat := g.x * g.y * g.z

/-- The band limits of R22. -/
def bandsOk (bs bd n dies : Nat) : Bool := bd == 0 || (bs != 0 && bd % bs == 0 && (n + bd - 1) / bd ≤ dies)

/-- Can the handles not be taken as the packet names them (R297)? -/
def State.handlesBad (s : State) (ctx : Nat) (hs : List (Nat × Bool × Nat)) : Bool :=
  hs.any (fun h => match s.stateRec? ctx h.1 with
    | some r => h.2.1 || r.place == .filling
    | none => !h.2.1) ||
  match hs with
  | [a, b] => a.1 == b.1 && a.2.1 && b.2.1
  | _ => false

/-- The status of a kernel packet after BAD_PACKET (R360); `l` is the launch it asks for, `pe` its predictor entry. -/
def State.kernelStatus (s : State) (l : Launch) (x h : Nat) (dies : List Nat) (pe : Option Nat) : Nat :=
  let g := gridAt x 0x18
  if headerStatus h != 0 then headerStatus h
  else if !g.ok then 6
  else if !(bandsOk l.bs l.bd g.size dies.length) then 7
  else if packetFlag x 0 && (!l.hdr.shape || !l.hdr.ver || g.y != 1 || g.z != 1 || !(pe.any predictorOk)) then 9
  else if s.handlesBad l.ctx l.handles then 8
  else if (s.coveringDies l 0).isEmpty then 10
  else 0

/-! ## Queues (R356 to R358) -/

/-- The die whose launch engine serves a queue: it homes the write index. -/
def State.queueDie (s : State) (q : Queue) : Nat :=
  match s.xlate none q.ctx .read q.index with
  | .ok pa => (homeOf pa).getD 0
  | _ => 0

/-- Has a launch started, or been rejected (R358)? -/
def Launch.begun (l : Launch) : Bool := l.status != 0 || (l.started && (l.placed || l.kind == .barrier))

/-- Does the engine take the queue's next packet: it is served, and the packet taken last has started (notes/assumptions/26.md)? -/
def State.serves (s : State) (q : Queue) : Bool :=
  match s.ctx? q.ctx with
  | none => false
  | some c =>
    s.stage == 6 && s.link && !c.out && !c.lost && !(s.partOf c).halted && q.stop.isNone &&
      s.launches.all fun l => l.queue != some q.id || l.begun

/-- The packet at the read index, once its seal is there (R357). -/
def State.nextPacket (s : State) (q : Queue) (d : Nat) : Except EngStop (Option Nat) :=
  match s.devRead q.ctx d q.index 8 with
  | .error e => .error e
  | .ok w =>
    if w ≤ q.taken then .ok none else
    let slot := q.ring + 128 * (q.taken % 2 ^ q.k)
    match s.devRead q.ctx d (slot + 0x7C) 4 with
    | .error e => .error e
    | .ok x =>
      if x != (q.taken + 1) % 2 ^ 32 then .ok none else
      match s.devRead q.ctx d slot 128 with
      | .error e => .error e
      | .ok x => .ok (some x)

/-- The launch of the device thread that wrote the seal (R361). -/
def State.sealLaunch (s : State) (q : Queue) : Option Nat :=
  match s.xlate none q.ctx .read (q.ring + 128 * (q.taken % 2 ^ q.k) + 0x7C) with
  | .ok pa => s.seals.lookup (pa / 64)
  | _ => none

/-- The die-set of a packet within the partition (R380). -/
def State.dieSet (s : State) (q : Queue) (x : Nat) : List Nat :=
  let p := s.partOf ((s.ctx? q.ctx).getD { id := q.ctx, fn := 0, root := 0 })
  (List.range 8).filter fun d => nfld x 3 1 / 2 ^ d % 2 == 1 && p.onDie d

/-- What every packet gives a launch; an address that is misaligned is not written (R360). -/
def State.packetLaunch (s : State) (q : Queue) (x id : Nat) : Launch :=
  let record := nfld x 0x60 8
  let sig := nfld x 0x58 8
  { id, ctx := q.ctx, queue := some q.id, prio := q.prio, die := s.queueDie q
    order := packetFlag x 1, child := packetFlag x 2, parent := if packetFlag x 2 then s.sealLaunch q else none
    dieMask := nfld x 3 1, fmode := BitVec.ofNat 6 (nfld x 4 1), codeBase := nfld x 8 8, header := nfld x 0x10 8
    bs := nfld x 0x20 4, bd := nfld x 0x24 4, args := nfld x 0x28 8, tidTable := nfld x 0x30 8, spillBase := nfld x 0x38 8
    verBase := nfld x 0x40 8 / 2 ^ 16 * 2 ^ 16, verLines := if nfld x 0x40 8 == 0 then 0 else 2 ^ (nfld x 0x40 8 % 64) * 1024
    deps := [nfld x 0x48 8, nfld x 0x50 8].filter (· != 0)
    sig := if sig % 8 == 0 then sig else 0, record := if record % 64 == 0 then record else 0
    handles := packetHandles x, predictor := nfld x 2 1, cell := nfld x 0x70 8 }

/-- The read index advanced past the packet (R357). -/
def State.takeOne (s : State) (q : Queue) (d : Nat) : Except EngStop State :=
  match s.devWrite q.ctx d (q.index + 64) (natBytes 8 (q.taken + 1)) with
  | .error e => .error e
  | .ok t => .ok (t.modQueue q.id fun q => { q with taken := q.taken + 1 })

/-- A launch added; one that is rejected starts no gang (R360). -/
def State.addLaunch (s : State) (l : Launch) (status : Nat) : State :=
  let l := if status == 0 then l else { l with status, started := true, todo := [], shape := false, graph := none }
  { s with launches := s.launches ++ [l] }

/-- `n` bytes that the launch engine reads of what a packet names: none where they cannot be read (notes/assumptions/25.md). -/
def State.devTry (s : State) (ctx d va n : Nat) : Except EngStop (Option Nat) :=
  match s.devRead ctx d va n with
  | .error (.abort _ _) => .ok none
  | .error e => .error e
  | .ok x => .ok (some x)

/-- `n` bytes at an address that the packet names, or zero where the address itself is refused. -/
def State.readNamed (s : State) (ctx d va n align : Nat) : Except EngStop Nat :=
  if va == 0 || va % align != 0 then .ok 0 else (s.devTry ctx d va n).map (·.getD 0)

/-- The predictor entry of a packet with SHAPE = 1. -/
def State.readPredictor (s : State) (l : Launch) (shape : Bool) : Except EngStop (Option Nat) :=
  match s.predictorAt l with
  | none => .ok none
  | some a =>
    if !shape || 64 ≤ l.predictor then .ok none else s.devTry l.ctx l.die a 32

/-- The launch of a kernel packet, or of a grid node, with its header and grid. -/
def Launch.kernel (l : Launch) (h : Header) (g : Grid) (shape : Bool) (pe : Option Nat) : Launch :=
  let xp := if shape then predictedExtent (pe.getD 0) g.x else g.x
  { l with hdr := h, x := g.x, y := g.y, z := g.z, shape, xp
           todo := (List.range (if shape then xp else g.size)).map fun i => (i, 0) }

/-- A shape that is known already is applied before any gang starts (R363). -/
def State.shapeAtOnce (s : State) (l : Launch) : Except EngStop State :=
  if !l.shape then .ok s else
  match s.devRead l.ctx l.die l.cell 8 with
  | .error e => .error e
  | .ok v => if v == shapeUnknown then .ok s else s.applyShape l v

/-- A kernel packet taken and checked (R357, R359, R360, R363): its header and its predictor entry are read once the packet
itself is found good. -/
def State.takeKernel (s : State) (q : Queue) (x : Nat) : Except EngStop State := do
  let (id, s1) := s.newId
  let l0 := s.packetLaunch q x id
  let dies := s.dieSet q x
  let dev := (s.sealLaunch q).isSome
  if packetBad x 0 dies dev then
    let t ← s1.takeOne q l0.die
    return t.addLaunch l0 2
  let h ← s.readNamed q.ctx l0.die l0.header 256 16
  let pe ← s.readPredictor l0 (packetFlag x 0)
  let l := l0.kernel (parseHeader h) (gridAt x 0x18) (packetFlag x 0) pe
  let status := if packetBad x h dies dev then 2 else s.kernelStatus l x h dies pe
  let t ← s1.takeOne q l0.die
  let t := t.addLaunch l status
  if status == 0 then t.shapeAtOnce l else return t

/-- The next packet of a queue taken, if its kind is one of these. -/
def State.takePacket (s : State) (queue : Nat) (kinds : Nat → Bool) (f : Queue → Nat → Except EngStop State) : State :=
  match s.queue? queue with
  | none => s
  | some q =>
    if !(s.serves q) then s else
    match s.nextPacket q (s.queueDie q) with
    | .error e => s.devStop q.ctx e
    | .ok none => s
    | .ok (some x) =>
      if !(kinds (nfld x 0 1)) then s else
      match f q x with
      | .ok t => t
      | .error e => s.devStop q.ctx e

/-- KERNEL_PACKET (R359): a packet of a kind that is none is rejected here. -/
def execKernelPacket (queue : Nat) (s : State) : Host.Outcome State Fault Refusal :=
  .next (s.takePacket queue (fun k => k != 2 && k != 3) s.takeKernel)

/-- A barrier-and packet taken and checked. -/
def State.takeBarrier (s : State) (q : Queue) (x : Nat) : Except EngStop State := do
  let (id, s1) := s.newId
  let l0 := { s.packetLaunch q x id with kind := .barrier }
  let t ← s1.takeOne q l0.die
  return t.addLaunch l0 (if barrierBad x (s.sealLaunch q).isSome then 2 else 0)

/-- BARRIER_AND_PACKET (R359). -/
def execBarrierAndPacket (queue : Nat) (s : State) : Host.Outcome State Fault Refusal :=
  .next (s.takePacket queue (· == 3) s.takeBarrier)

/-! ## The start of a packet (R358, R359, R361) -/

/-- The dependency signals that are not satisfied, as sampled now. -/
def State.unsatisfied (s : State) (l : Launch) : Except EngStop (List Nat) :=
  match engAll (fun a => s.devRead l.ctx l.die a 8) l.deps with
  | .error e => .error e
  | .ok vs => .ok ((l.deps.zip vs).filterMap fun p => if p.2 == 0 || 2 ^ 63 ≤ p.2 then none else some p.1)

/-- Has every gang of the parent's grid ended? -/
def State.parentEnded (s : State) (l : Launch) : Bool :=
  match l.parent.bind s.launch? with
  | none => true
  | some p => p.todo.isEmpty && !(s.gangs.any fun g => g.launch == p.id) && (!p.shape || p.shaped)

/-- Have the queue's earlier packets completed, where ORDER is set? -/
def State.orderMet (s : State) (l : Launch) : Bool :=
  !l.order || !(s.launches.any fun m => m.queue == l.queue && m.queue.isSome && m.id < l.id)

/-- The argument words, with the spill base in words 14 and 15 (R14, R292). -/
def Launch.argsFrom (l : Launch) (x : Nat) : List Word :=
  (List.range 16).map fun i =>
    if l.hdr.spill != 0 && 14 ≤ i then BitVec.ofNat 32 (l.spillBase / 2 ^ (32 * (i - 14))) else BitVec.ofNat 32 (nfld x (4 * i) 4)

/-- PACKET_START (R358): the argument block is read as a kernel's packet starts (notes/assumptions/27.md). -/
def execPacketStart (launch : Nat) (s : State) : Host.Outcome State Fault Refusal :=
  match s.launch? launch with
  | none => .next s
  | some l =>
    if l.started || !(s.launchOn l) then .next s else
    match s.unsatisfied l with
    | .error e => .next (s.devStop l.ctx e)
    | .ok ds =>
      let t := s.modLaunch launch fun l => { l with deps := ds }
      if !ds.isEmpty || !(s.orderMet l) || !(s.parentEnded l) then .next t else
      match (if l.kind == .kernel then s.devRead l.ctx l.die l.args 64 else .ok 0) with
      | .error e => .next (t.devStop l.ctx e)
      | .ok x => .next (t.modLaunch launch fun l => { l with started := true, argWords := l.argsFrom x })

/-! ## Completion (R370, R371) -/

/-- Has the launch completed? -/
def State.launchDone (s : State) (l : Launch) : Bool :=
  l.started && l.todo.isEmpty && !(s.gangs.any fun g => g.launch == l.id) && (!l.shape || l.shaped) &&
    l.graph.all fun g => g.nodes.all (·.completed)

/-- The status of the record (R360). -/
def Launch.finalStatus (l : Launch) : Nat := if l.status != 0 then l.status else if l.fault.isSome then 1 else 0

/-- A count that saturates at the largest number of `n` bytes. -/
def satBytes (n x : Nat) : List Byte := natBytes n (min x (2 ^ (8 * n) - 1))

/-- The completion record (R371). -/
def Launch.recordBytes (l : Launch) : List Byte :=
  let f := l.fault.map (·.2)
  natBytes 1 l.finalStatus ++ natBytes 1 l.summary.toNat ++ natBytes 1 (f.elim 0 (·.code)) ++ natBytes 1 (f.elim 0 (·.flags))
    ++ natBytes 4 (l.fault.elim 0xFFFFFFFF (·.1)) ++ natBytes 8 (f.elim 0 (·.pc.toNat)) ++ natBytes 2 (f.elim 0xFFFF (·.tid))
    ++ satBytes 2 l.reruns ++ l.flagGangs.flatMap (fun x => natBytes 4 (x.getD 0xFFFFFFFF))
    ++ natBytes 4 l.run ++ natBytes 4 l.trimmed ++ natBytes 4 l.squashed ++ natBytes 4 l.tail

/-- Bin nodes that have nothing left to do complete, and so on (R368): `busy` are the nodes with gangs. -/
def Graph.settle (busy : List Nat) : Nat → Graph → Graph
  | 0, g => g
  | k + 1, g =>
    let nodes := g.nodes.mapIdx fun i n =>
      if n.bin && n.count == 0 && g.ready i && !(busy.contains i) then { n with completed := true } else n
    Graph.settle busy k { g with nodes := nodes }

/-- The nodes of a graph that have launches running. -/
def State.busyNodes (s : State) (gid : Nat) : List Nat :=
  s.launches.filterMap fun l => match l.kind with
    | .node g i => if g == gid then some i else none
    | _ => none

def State.settleGraph (s : State) (gid : Nat) : State :=
  s.modLaunch gid fun l => { l with graph := l.graph.map fun g => Graph.settle (s.busyNodes gid) (g.nodes.length + 1) g }

/-- Records of a bin freed: the head passes every range freed behind it (R368). -/
def NodeSt.advance : Nat → NodeSt → NodeSt
  | 0, n => n
  | k + 1, n => match n.freed.find? fun r => r.1 == n.head with
    | none => n
    | some r => NodeSt.advance k
        { n with head := (n.head + r.2) % n.binCap, count := n.count - r.2, given := n.given - r.2
                 freed := n.freed.filter fun x => x.1 != r.1 }
def NodeSt.free (n : NodeSt) (r : Nat × Nat) : NodeSt :=
  NodeSt.advance (n.freed.length + 1) { n with freed := n.freed ++ [r] }

/-- The index of a gang of a graph's node in the graph's record (R371). -/
def nodeIndex (node i : Nat) : Nat := node * 2 ^ 16 + i % 2 ^ 16

/-- What a node's launch adds to its graph's record. -/
def Launch.merge (g l : Launch) (node : Nat) : Launch :=
  let g := l.flagGangs.zipIdx.foldl (fun (g : Launch) x => match x.1 with
    | some i => g.addFlags (nodeIndex node i) (1#7 <<< x.2)
    | none => g) g
  let g := match l.fault with
    | some (i, f) => g.addFault (nodeIndex node i) f
    | none => g
  { g with run := g.run + l.run, trimmed := g.trimmed + l.trimmed, squashed := g.squashed + l.squashed, tail := g.tail + l.tail
           reruns := g.reruns + l.reruns, status := if g.status == 0 then l.status else g.status }

/-- The launch of a node completes: a grid node has completed, a bin gang's records are free (R368). -/
def State.finishNode (s : State) (l : Launch) (gid node : Nat) : State :=
  let s := { s with launches := s.launches.filter fun x => x.id != l.id }
  let s := s.modLaunch gid fun g => g.merge l node
  let s := s.modNode gid node fun n => match l.binRange with
    | some r => n.free r
    | none => { n with completed := true }
  s.settleGraph gid

/-- The record and then the signal, each where the packet gives it (R370). -/
def State.writeCompletion (s : State) (l : Launch) : Except EngStop State := do
  let t ← (if l.record == 0 then .ok s else s.devWrite l.ctx l.die l.record l.recordBytes : Except EngStop State)
  if l.sig == 0 then return t
  let pa ← t.devPa l.ctx l.die .write l.sig
  return t.sigSub l.die pa 1

/-- LAUNCH_COMPLETION (R370). -/
def execLaunchCompletion (launch : Nat) (s : State) : Host.Outcome State Fault Refusal :=
  let s := s.noCover launch
  match s.launch? launch with
  | none => .next s
  | some l =>
    if !(s.launchDone l) then .next s else
    match l.kind with
    | .node g i => .next (s.finishNode l g i)
    | _ => match s.writeCompletion l with
      | .error e => .next (s.devStop l.ctx e)
      | .ok t => .next { t with launches := t.launches.filter fun x => x.id != launch }

end Sys2Proof.Machine
end

