-- ==== Sys2Proof/Machine/Graphs.lean ====
section
/-! DEFINITION. Work graphs (spec/25 R366 to R369). -/

namespace Sys2Proof.Machine

/-! ## The graph binary (R366) -/

/-- The records of a table: `n` of `size` bytes at byte `o` of a number. -/
def tableOf (x n size : Nat) : List Nat := (List.range n).map fun i => nfld x (size * i) size

/-- A 32-bit index, or none for 0xFFFF_FFFF. -/
def optIndex (x : Nat) : Option Nat := if x == 0xFFFFFFFF then none else some x

/-- A node's record, with the successors its out-edges name. -/
def parseNode (edges : List Nat) (x : Nat) : NodeSt :=
  let g := gridAt x 0x20
  { bin := nfld x 0 1 == 2, shape := nfld x 1 1 % 2 == 1, predictor := nfld x 2 1, c := nfld x 4 2, timer := nfld x 8 4
    cost := nfld x 0x0C 4, codeBase := nfld x 0x10 8, header := nfld x 0x18 8, x := g.x, y := g.y, z := g.z
    binOff := nfld x 0x28 4, binCap := nfld x 0x2C 4, cell := nfld x 0x38 8
    succ := ((edges.drop (nfld x 0x30 4)).take (nfld x 0x34 4)).map fun e => nfld e 0 4
    args := (List.range 16).map fun i => BitVec.ofNat 32 (nfld x (0x40 + 4 * i) 4) }

def parsePatch (x : Nat) : Patch := { node := nfld x 0 4, word := nfld x 4 1, buf := nfld x 8 4, off := nfld x 0x0C 4 }

def parseBuf (x : Nat) : Buf :=
  { off := nfld x 0 8, fixed := nfld x 8 4, perGang := nfld x 0x0C 4, shapeNode := optIndex (nfld x 0x10 4)
    follows := optIndex (nfld x 0x14 4), first := nfld x 0x18 2, last := nfld x 0x1A 2, retract := nfld x 0x1C 1 % 2 == 1 }

/-- The binary as it is read: its header, its tables, and the kernel headers of its nodes; `whole` says that all of it could be
read. -/
structure GraphBin where
  head    : Nat
  whole   : Bool := true
  nodes   : List Nat := []
  edges   : List Nat := []
  patches : List Nat := []
  bufs    : List Nat := []
  headers : List Nat := []

/-- The graph header (R366). -/
def graphHeadOk (x : Nat) : Bool :=
  nfld x 0 4 == 0x4B574750 && nfld x 4 1 == 1 && nfld x 5 1 == 1 && nfld x 6 2 == 0 && nfld x 0x30 0x10 == 0
    && [0x18, 0x1C, 0x20, 0x24].all fun o => 64 ≤ nfld x o 4

/-- The binary of a graph packet; a header that is refused is all that is read of it. -/
def State.readGraph (s : State) (l : Launch) : Except EngStop GraphBin := do
  let head ← s.readNamed l.ctx l.die l.header 64 16
  if !(graphHeadOk head) then return { head }
  let t (i size : Nat) : Except EngStop (Option (List Nat)) :=
    let n := nfld head (8 + 4 * i) 4
    (s.devTry l.ctx l.die (l.header + nfld head (0x18 + 4 * i) 4) (size * n)).map fun x => x.map fun x => tableOf x n size
  let nodes ← t 0 128
  let edges ← t 1 8
  let patches ← t 2 16
  let bufs ← t 3 32
  let headers ← engAll (fun x => s.readNamed l.ctx l.die (nfld x 0x18 8) 256 16) (nodes.getD [])
  return { head, whole := nodes.isSome && edges.isSome && patches.isSome && bufs.isSome
           nodes := nodes.getD [], edges := edges.getD [], patches := patches.getD [], bufs := bufs.getD [], headers }

/-- The nodes with no out-edge to a node of `left` are taken out, and so on: what is left lies on or before a cycle. -/
def peel (succ : Nat → List Nat) : Nat → List Nat → List Nat
  | 0, left => left
  | k + 1, left => peel succ k (left.filter fun i => (succ i).any left.contains)

/-- One pass of the ranks (R367). -/
def rankPass (nodes : List NodeSt) : List NodeSt :=
  nodes.map fun n => { n with rank := n.cost + (n.succ.map fun i => (nodes[i]?.map (·.rank)).getD 0).foldl max 0 }

/-- The graph of a binary, with its ranks. -/
def GraphBin.graph (b : GraphBin) : Graph :=
  let nodes := b.nodes.zipIdx.map fun x =>
    { parseNode b.edges x.1 with features := (parseHeader (b.headers.getD x.2 0)).features }
  { nodes := (List.range (nodes.length + 1)).foldl (fun ns _ => rankPass ns) (nodes.map fun n => { n with rank := n.cost })
    arena := nfld b.head 0x28 8, patches := b.patches.map parsePatch, bufs := b.bufs.map parseBuf }

/-- A node's record as R366 and R367 ask for it; its ring and its shape cell lie in the arena (notes/assumptions/70.md). -/
def GraphBin.nodeOk (b : GraphBin) (x h : Nat) : Bool :=
  let n := parseNode b.edges x
  (nfld x 0 1 == 1 || nfld x 0 1 == 2) && nfld x 1 1 ≤ 1 && nfld x 2 1 ≤ 63 && nfld x 3 1 == 0 && nfld x 6 2 == 0
    && nfld x 0x27 1 == 0 && n.codeBase % 65536 == 0 && n.header != 0 && n.header % 16 == 0 && n.cell % 8 == 0
    && nfld x 0x30 4 + nfld x 0x34 4 ≤ b.edges.length
    && headerStatus h == 0 && (!n.shape || (parseHeader h).shape)
    && (!n.bin || (1 ≤ n.c && n.c ≤ 4096 && n.binOff % 16 == 0 && n.c + 32 ≤ n.binCap
      && n.binOff + 16 * n.binCap ≤ b.graph.arena))
    && (!n.shape || n.cell + 8 ≤ b.graph.arena)

def GraphBin.patchOk (b : GraphBin) (g : Graph) (x : Nat) : Bool :=
  let p := parsePatch x
  nfld x 5 3 == 0 && p.word % 2 == 0 && p.buf < b.bufs.length && match g.nodes[p.node]? with
    | some n => p.word ≤ (if n.bin then 8 else 10)
    | none => false

/-- A buffer's record; one that follows another is used after that one's shape is known (R367), and any other lies in the arena
(notes/assumptions/70.md). -/
def GraphBin.bufOk (b : GraphBin) (g : Graph) (x : Nat) : Bool :=
  let f := parseBuf x
  let n := b.nodes.length
  f.off % 256 == 0 && f.shapeNode.all (· < n) && f.first < n && f.last < n && nfld x 0x1C 1 ≤ 1 && nfld x 0x1D 3 == 0
    && match f.follows with
      | none =>
        let x := (f.shapeNode.bind fun m => g.nodes[m]?).elim 0 (·.x)
        f.off + f.fixed + f.perGang * x ≤ g.arena
      | some k => match (g.bufs[k]?.bind (·.shapeNode)).bind fun i => g.nodes[i]? with
        | some m => m.succ.contains f.first && f.shapeNode.any m.succ.contains
        | none => false

/-- BAD_GRAPH (R367). -/
def GraphBin.ok (b : GraphBin) : Bool :=
  let g := b.graph
  graphHeadOk b.head && b.whole && (b.nodes.zip b.headers).all (fun p => b.nodeOk p.1 p.2)
    && b.edges.all (fun e => nfld e 0 4 < b.nodes.length && nfld e 4 4 == 0)
    && (peel (fun i => (g.nodes[i]?.map (·.succ)).getD []) (b.nodes.length + 1) (List.range b.nodes.length)).isEmpty
    && b.patches.all (b.patchOk g) && b.bufs.all (b.bufOk g)

/-! ## The packet (R360, R367) -/

/-- The nodes that are grids, with their kernel headers. -/
def GraphBin.grids (b : GraphBin) : List (NodeSt × Nat) :=
  ((b.nodes.map (parseNode b.edges)).zip b.headers).filter fun p => !p.1.bin

/-- The status of a graph packet (R360). -/
def State.graphStatus (s : State) (l : Launch) (x : Nat) (b : GraphBin) (dies : List Nat) (dev : Bool) : Nat :=
  let hs := b.headers.map parseHeader
  if packetBad x 0 dies dev || hs.any (fun h => (h.tidtable != 0 && l.tidTable == 0) || (h.spill != 0 && l.spillBase == 0)) then 2
  else if b.grids.any fun p => !({ x := p.1.x, y := p.1.y, z := p.1.z : Grid }.ok) then 6
  else if b.grids.any fun p => !(bandsOk l.bs l.bd (p.1.x * p.1.y * p.1.z) dies.length) then 7
  else if packetFlag x 0 || b.grids.any fun p => p.1.shape && (p.1.y != 1 || p.1.z != 1) then 9
  else if s.handlesBad l.ctx l.handles then 8
  else if hs.any fun h => (s.coveringDies { l with hdr := h } 0).isEmpty then 10
  else if !b.ok then 11
  else 0

/-- A graph packet taken and checked. -/
def State.takeGraph (s : State) (q : Queue) (x : Nat) : Except EngStop State := do
  let (id, s1) := s.newId
  let l0 := { s.packetLaunch q x id with kind := .graph }
  let dev := (s.sealLaunch q).isSome
  let b ← (if packetBad x 0 (s.dieSet q x) dev then .ok { head := 0 } else s.readGraph l0 : Except EngStop GraphBin)
  let t ← s1.takeOne q l0.die
  let status := s.graphStatus l0 x b (s.dieSet q x) dev
  let t := t.addLaunch { l0 with graph := some b.graph } status
  return t.settleGraph id

/-- GRAPH_PACKET (R367). -/
def execGraphPacket (queue : Nat) (s : State) : Host.Outcome State Fault Refusal :=
  .next (s.takePacket queue (· == 2) s.takeGraph)

/-! ## Nodes (R368, R369) -/

/-- The offset of a buffer in the arena; one that follows another begins where that one's live slices end (R369). -/
def Graph.bufOffset (g : Graph) : Nat → Nat → Nat
  | 0, _ => 0
  | k + 1, i => match g.bufs[i]? with
    | none => 0
    | some b => match b.follows with
      | none => b.off
      | some j => match g.bufs[j]? with
        | none => b.off
        | some f => (g.bufOffset k j + ((f.shapeNode.bind fun m => g.extents.lookup m).getD 0) * f.perGang + 255) / 256 * 256

/-- A list of words with a 64-bit value at word `w`. -/
def setPair (ws : List Word) (w v : Nat) : List Word := (ws.set w (BitVec.ofNat 32 v)).set (w + 1) (BitVec.ofNat 32 (v / 2 ^ 32))

/-- The argument words of a node with its patches, and the spill base (R292, R366). -/
def Graph.argsOf (g : Graph) (l : Launch) (h : Header) (idx : Nat) (n : NodeSt) : List Word :=
  let ws := (g.patches.filter fun p => p.node == idx).foldl (fun ws p =>
    setPair ws p.word (l.args + g.bufOffset (g.bufs.length + 1) p.buf + p.off)) n.args
  if h.spill == 0 then ws else setPair ws 14 l.spillBase

/-- A node of a graph that runs. -/
def State.graphNode (s : State) (launch node : Nat) : Option (Launch × Graph × NodeSt) :=
  match s.launch? launch with
  | none => none
  | some l =>
    if l.started && s.launchOn l then
      l.graph.bind fun g => (g.nodes[node]?).map fun n => (l, g, n)
    else none

/-- A grid node launched as a kernel (R363, R368). -/
def State.launchGrid (s : State) (l : Launch) (g : Graph) (idx : Nat) (n : NodeSt) : Except EngStop State := do
  let (id, s1) := s.newId
  let l0 := l.forNode id idx n
  let h ← s.readNamed l.ctx l.die n.header 256 16
  let pe ← s.readPredictor l0 n.shape
  let hdr := parseHeader h
  let k := l0.kernel hdr { x := n.x, y := n.y, z := n.z } n.shape pe
  let k := { k with argWords := g.argsOf l hdr idx n }
  let status := if headerStatus h != 0 then headerStatus h else if n.shape && !(pe.any predictorOk) then 9 else 0
  let t := (s1.addLaunch k status).modNode l.id idx fun n => { n with launched := true }
  if status != 0 then return t
  else if n.shape then t.shapeAtOnce k
  else return t.noteExtent k n.x

/-- GRID_NODE_LAUNCH (R368). -/
def execGridNodeLaunch (launch node : Nat) (s : State) : Host.Outcome State Fault Refusal :=
  match s.graphNode launch node with
  | none => .next s
  | some (l, g, n) =>
    if n.bin || !(g.due node n) then .next s else
    match s.launchGrid l g node n with
    | .ok t => .next t
    | .error e => .next (s.devStop l.ctx e)

/-- `k` records of a bin given out to a gang; the timer of a bin that is empty then stops. -/
def NodeSt.give (n : NodeSt) (k : Nat) : NodeSt :=
  { n with launched := true, given := n.given + k, gangs := n.gangs + 1, timedOut := false
           timing := n.timing && decide (k < n.waiting) }

/-- A gang of a bin node, given up to C records, up to the end of the ring (R368). -/
def State.launchBin (s : State) (l : Launch) (g : Graph) (idx : Nat) (n : NodeSt) : Except EngStop State := do
  let (id, s1) := s.newId
  let h ← s.readNamed l.ctx l.die n.header 256 16
  let hdr := parseHeader h
  let start := (n.head + n.given) % n.binCap
  let k := min (min n.c n.waiting) (n.binCap - start)
  let ws := (setPair (g.argsOf l hdr idx n) 12 (l.args + n.binOff + 16 * start)).set 11 (BitVec.ofNat 32 k)
  let k0 := { l.forNode id idx n with hdr, argWords := ws, binRange := some (start, k)
                                      x := n.gangs + 1, todo := [(n.gangs, 0)] }
  let t := s1.addLaunch k0 (headerStatus h)
  return t.modNode l.id idx fun n => n.give k

/-- BIN_GANG_LAUNCH (R368): the bin holds C records not given out, its timer has run out, or every predecessor has completed;
a gang whose buffers follow one of an unknown extent waits for it (R369). -/
def execBinGangLaunch (launch node : Nat) (s : State) : Host.Outcome State Fault Refusal :=
  match s.graphNode launch node with
  | none => .next s
  | some (l, g, n) =>
    if n.bin && g.due node n then
      match s.launchBin l g node n with
      | .ok t => .next t
      | .error e => .next (s.devStop l.ctx e)
    else .next s

/-- BIN_TIMER (R368): the timer that a record started as it entered the empty bin runs out. -/
def execBinTimer (launch node : Nat) (s : State) : Host.Outcome State Fault Refusal :=
  match s.graphNode launch node with
  | none => .next s
  | some (_, _, n) =>
    .next (if n.bin && n.timing then s.modNode launch node fun n => { n with timing := false, timedOut := true } else s)

end Sys2Proof.Machine
end

