-- ==== Sys2Proof/Machine/Preempt.lean ====
section
/-! DEFINITION. Pre-emption (spec/18 R267, R269, R270), the partition switch (R271), arrivals (R272) and the restore of a
context (R273). -/

namespace Sys2Proof.Machine

/-- The threads of a gang that are parked at a W marker on a load from beyond the L1 stay there (R267, R269). -/
def State.parkGang (s : State) (gang : Nat) : State := { s with waves := modBy s.waves (fun w => w.gang == gang) s.parkFar }

/-- PREEMPT_REQUEST (R269): from now on the gang's engines start nothing new, and its threads stay where they are held, those
that are parked at a W marker among them. -/
def execPreemptRequest (gang : Nat) (s : State) : Host.Outcome State Fault Refusal :=
  match s.gang? gang with
  | some g => .next (if g.st == .live && g.place.isSome then
        (s.modGang gang fun g => { g with preempt := true }).parkGang gang
      else s)
  | none => .next s

/-! ## Eviction (R267, R269) -/

/-- Is the hold a blocking point (R267)? -/
def Hold.blocking : Hold → Bool
  | .entry _ none => false
  | .leave => false
  | .word _ => false
  | _ => true

/-- The results that commands of the gang which are still queued will give. -/
def Gang.queuedResults (g : Gang) : List Nat :=
  (g.tileQ.filterMap fun c => match c.kind with
    | .accrd _ pid _ => some pid
    | _ => none) ++
  g.tidOps.filterMap fun o => match o.act with
    | .get _ pid _ => some pid
    | _ => none

/-- Are all of a wave's threads that have not ended held at a blocking point, a W marker among them (R267), and its results
there, none of them poisoned (R386)? -/
def State.stopped (s : State) (w : Wave) (queued : List Nat) : Bool :=
  w.threads.all (fun t => t.ended || t.hold?.any Hold.blocking || t.kept) &&
    w.pend.all fun p => s.mayLand p && !p.bad || queued.contains p.id

/-- Can the gang be evicted: every command that has started has completed, a lift entry that has committed among them (R262,
R269), every atomic has returned and every store that a sector cache holds is performed (R211), and its cores are swept (R387)? -/
def State.evictable (s : State) (g : Gang) : Bool :=
  g.preempt && s.gangOn g && !(g.tileQ.any (·.started)) && !(g.queues.any fun q => q.walk.any (·.commit)) &&
    !(s.groom.any fun r => r.gang == g.id) &&
    (s.wavesOf g.id).all fun w => !(s.unswept.contains w.core) && s.stopped w g.queuedResults &&
      !(s.fills.any fun f => f.stores.any fun x => x.wave == w.id)

/-- Every result of a wave that is there lands. -/
def State.landAll (s : State) (wid : Nat) : State :=
  match s.wave? wid with
  | none => s
  | some w =>
    (w.pend.filter s.mayLand).foldl (fun (s : State) p =>
      let s := s.modWave wid fun w => w.land s.fresh p
      State.freshen { s with sunk := s.sunk.filter fun x => !(x.ran && x.wave == wid && x.pid == p.id) }) s

/-- Is a tile saved with the gang: its own, one of a state bound to it, or one that a queued command of it spills? -/
def State.savedWith (s : State) (g : Gang) (t : Tile) : Bool :=
  t.cluster == g.cluster && match t.st with
    | .gangOwned id _ => id == g.id
    | .pinned h _ => t.ctx == s.gangCtx g && (s.stateRec? t.ctx h).any fun r => r.bound.any fun b => b.1 == g.id
    | .left _ _ | .spilling _ _ => g.tileQ.any fun c => c.kind == .spill && c.foot.contains t.phys

/-- GANG_EVICT (R269): results land, the gang's tiles are saved, armed monitors have an event, and the gang leaves its
tracks. Its threads stay where they are held; the saved conditions are tested at the resume (R267). -/
def execGangEvict (gang : Nat) (s : State) : Host.Outcome State Fault Refusal :=
  match s.gang? gang with
  | none => .next s
  | some g =>
    if !(s.evictable g) then .next s else
    let ws := s.wavesOf gang
    let t := ws.foldl (fun (t : State) w => t.landAll w.id) s
    let waves := modBy t.waves (fun w => w.gang == gang) fun w =>
      { w with track := none, yieldTrk := false, yieldGrp := false, monitor := w.monitor.map fun m => { m with event := true } }
    let saved := t.tiles.filter (t.savedWith g)
    let t := { t with waves := waves, tiles := t.tiles.filter fun x => !(t.savedWith g x) }
    let t := t.modGang gang fun g => { g with place := none, lastCluster := g.cluster, preempt := false, savedTiles := saved }
    .next ((t.settleTracks (ws.filterMap (·.track))).drainAll)

/-! ## Resumption (R24, R270) -/

/-- The accesses of a gang that have joined a fault on a page that satisfies `p` are made again (R377). -/
def Gang.rejoin (p : Nat → Bool) (g : Gang) : Gang :=
  let clear (o : Option Nat) : Option Nat := o.filter fun x => !(p x)
  { g with
    queues := g.queues.map fun q => { q with walk := q.walk.map fun k => { k with joined := clear k.joined } }
    tileQ := g.tileQ.map fun c => { c with joined := clear c.joined }
    tidOps := g.tidOps.map fun o => { o with joined := clear o.joined }
    binJoined := clear g.binJoined }

/-- The threads of a wave held at a translation fault on such a page go on: the word executes again, and an entry waits for
its turn (R105, R250, R267). -/
def Wave.replay (p : Nat → Bool) (w : Wave) : Wave :=
  let w := w.release (w.heldBy fun h => match h with
    | .xlate x _ => p x
    | _ => false)
  { w with threads := w.threads.map fun t => match t.hold? with
      | some (.entry i (some x)) => if p x then { t with st := .held (.entry i none) } else t
      | _ => t }

/-- XACQs that wait take a new place in the order of arrival (R267). -/
def State.requeueXacqs (s : State) (wid : Nat) : State :=
  match s.wave? wid with
  | none => s
  | some w =>
    let seqs := (w.threads.filterMap fun t => match t.hold? with
      | some (.xacq _ q) => some q
      | _ => none).eraseDups
    seqs.foldl (fun (s : State) q =>
      let (id, s) := s.newId
      s.modWave wid fun w => { w with threads := w.threads.map fun t => match t.hold? with
        | some (.xacq n r) => if r == q then { t with st := .held (.xacq n id) } else t
        | _ => t }) s

/-- Tracks for the waves of a suspended gang, with their grants; none where the place cannot take it (R270). -/
def State.resumeRoom (s : State) (g : Gang) (cluster core : Nat) : Option (List (Nat × Nat)) :=
  let h := (s.launchOf g).hdr
  let ps := (s.wavesOf g.id).map fun w => ({ wg := w.wg, idx := w.idx, role := w.role, grant := w.grant, entry := 0 } : WavePlan)
  if core + h.g ≤ 4 && s.spadUsed cluster + h.scratch ≤ 2 ^ 21 && g.savedTiles.all fun t => (s.freeTiles cluster).contains t.phys then
    s.pickTracks cluster core ps []
  else none

/-- What the place where a gang resumes holds of older values goes (notes/assumptions/13.md): copies that its cores and its
sector's cache made of lines before, of which the gang's threads may have seen or written newer values elsewhere (R189, R191). Its
die depends on all that the die it comes from has seen (R202), and the filters know the lines of its version (R178). -/
def State.freshPlace (s : State) (g : Gang) (cluster core : Nat) : State :=
  let d := clusterDie cluster
  let sec := clusterSector cluster
  let cores := (List.range (s.launchOf g).hdr.g).map (4 * cluster + core + ·)
  let s := if d == g.die then s else s.modDie d fun x => { x with dep := vecSet (vecMerge x.dep (s.die g.die).dep) d x.pub }
  let fills := modBy s.fills (fun f => f.sector == sec && f.far) Fill.spoil
  let versions := modBy s.versions (fun v => v.gang == g.id) fun v => { v with cores := cores ++ v.cores }
  { s with fills := fills, versions := versions
           l1 := s.l1.filter fun x => !cores.contains x.core
           sect := s.sect.filter fun x => !(x.sector == sec && x.remote) }

/-- The gang back on tracks of a cluster. -/
def State.resumeAt (s : State) (g : Gang) (cluster core : Nat) (ts : List Nat) : State :=
  let s := (s.freshPlace g cluster core).wake ts
  let ws := s.wavesOf g.id
  let s := (ws.zip ts).foldl (fun (s : State) x =>
    (s.modWave x.1.id fun w =>
      { (w.replay fun _ => true).mapLanes (BitVec.allOnes 32) fun _ t => { t with kept := false } with
        track := some x.2, age := s.cycle }).requeueXacqs x.1.id) s
  let states := modBy s.states (fun r => r.bound.any fun b => b.1 == g.id) fun r => { r with place := .cluster cluster }
  let back := g.savedTiles.map fun (t : Tile) => ({ t with cluster := cluster } : Tile)
  let s := { s with tiles := back ++ s.tiles, states := states }
  let s := s.modGang g.id fun g =>
    { g.rejoin (fun _ => true) with place := some (cluster, core), lastCluster := cluster, savedTiles := [] }
  ((s.settle g.id).settleTracks ts).drainAll

/-- Have the published writes of a gang been applied, and those at the home of die `d` that its threads may have observed where
they were? A gang that comes to die `d` waits for them (notes/assumptions/13.md), so that its later accesses follow them (R186,
R189, R191). -/
def State.published (s : State) (g : Gang) (d : Nat) : Bool :=
  (s.commitsOut g.id).isEmpty && ((s.wavesOf g.id).all fun w => (s.publishedBy w.id).isEmpty) && s.coverage d (s.die g.die).dep

/-- GANG_RESUME (R265, R266, R270). -/
def execGangResume (gang cluster core : Nat) (s : State) : Host.Outcome State Fault Refusal :=
  match s.gang? gang with
  | none => .next s
  | some g =>
    let l := s.launchOf g
    if g.st != .live || g.place.isSome || !(s.launchOn l) then .next s else
    let dirty := s.versioned g && s.dirty gang
    let ds := s.coveringDies l g.index
    if dirty && !(ds.contains g.die) then .next (s.abortFree gang 9)
    else if ds.isEmpty then .next (s.abortFree gang 0x86)
    else if (s.launchClusters l g.index).contains cluster && l.bandOk g.index cluster && (!dirty || clusterDie cluster == g.die) &&
        (clusterDie cluster == g.die || s.published g (clusterDie cluster)) then
      match s.resumeRoom g cluster core with
      | some ts => .next (s.resumeAt g cluster core (ts.map (·.1)))
      | none => .next s
    else .next s

/-! ## The partition switch and the restore (R271 to R273) -/

/-- The contexts that are on a partition. -/
def State.ctxsOn (s : State) (p : Nat) : List Ctx := s.ctxs.filter fun c => c.part == p && !c.out && !c.lost

/-- Is no context on the partition but those of one function: a partition is time-shared among its interfaces (R381)? -/
def State.partFree (s : State) (p fn : Nat) : Bool := (s.ctxsOn p).all fun c => c.fn == fn

/-- PARTITION_SWITCH (R271): with every gang of the partition evicted, its contexts and their pinned tiles are in shadow
storage. -/
def execPartitionSwitch (partition : Nat) (s : State) : Host.Outcome State Fault Refusal :=
  let cs := s.ctxsOn partition
  let on (c : Nat) : Bool := cs.any fun x => x.id == c
  if s.gangs.any fun g => on (s.gangCtx g) && g.place.isSome then .next s else
  let ctxs := modBy s.ctxs (fun c => on c.id) fun c => { c with out := true, saved := s.tiles.filter fun t => t.ctx == c.id }
  .next { s with ctxs := ctxs, tiles := s.tiles.filter fun t => !(on t.ctx) }

/-- A fill of a granule for a gang whose threads stay where they are held: it satisfies a waiter as it would any (R111, R221,
R272), whose thread then stays in its PC group until the gang goes on (R267, R269). -/
def State.fillStill (s : State) (gid : Nat) : State :=
  let t := State.testGranules gid ((s.feWaits gid).length + 1) s
  let ws := t.waves.map fun w =>
    if w.gang != gid then w else
    w.mapLanes (maskBy fun l => (w.thread l).running && (s.wave? w.id).any fun v => (v.thread l).hold?.any Hold.forFe)
      fun _ h => { h with kept := true }
  { t with waves := ws }

/-- What arrives for a gang takes effect (R272, R310, R221, R185). -/
def State.applyArrival (s : State) (gid : Nat) (item : ArrivalItem) : State :=
  match item with
  | .flip r st => (s.modGang gid fun g => if g.stageOk r st then g.flip r st else g).settle gid
  | .fill n =>
    match s.gang? gid with
    | some g =>
      if 16 * n < s.spadBytes g then
        let t := s.modGang gid fun g => g.setFull (16 * n) 1
        if g.still then t.fillStill gid else t.settle gid
      else s
    | none => s
  | .monitor line => s.monEvent line fun w => w.gang == gid

/-- ARRIVAL (R272): applied, or, for a context that is switched out, logged; the sender is held while the log is full. -/
def execArrival (gang : Nat) (item : ArrivalItem) (s : State) : Host.Outcome State Fault Refusal :=
  match s.gang? gang with
  | none => .next s
  | some g =>
    if g.st != .live then .next s else
    let c := s.ctxOf (s.launchOf g)
    if !c.out then .next (s.applyArrival gang item)
    else .next (s.modCtx c.id fun c =>
      if c.log.length < c.logSize && c.held.isEmpty then { c with log := c.log ++ [(gang, item)] }
      else { c with held := c.held ++ [(gang, item)] })

/-- Could the partition's cores take every suspended gang of the context, were they empty (R273)? -/
def State.restorable (s : State) (c : Ctx) (p : Part) : Bool :=
  (s.gangs.filter fun g => s.gangCtx g == c.id && g.st == .live).all fun g =>
    (List.range 128).any fun k => p.sectors.contains (clusterSector k) && !(s.deadClusters.contains k) &&
      (List.range 4).any fun core =>
        let waves := s.waves.map fun (w : Wave) => { w with track := none }
        let gangs := s.gangs.map fun (x : Gang) => { x with place := none }
        (State.resumeRoom { s with waves := waves, gangs := gangs, tiles := [] } g k core).isSome

/-- The cluster for the saved tiles of one cluster: the same one, or else the lowest of the partition with their numbers free. -/
def State.tileHome (s : State) (p : Part) (c : Nat) (phys : List Nat) : Option Nat :=
  (c :: List.range 128).find? fun k =>
    p.sectors.contains (clusterSector k) && !(s.deadClusters.contains k) && phys.all (s.freeTiles k).contains

/-- The saved tiles of the context put back, cluster by cluster; none where the partition cannot hold them. -/
def State.putTiles (p : Part) (ctx : Nat) (saved : List Tile) : List Nat → State → Option State
  | [], s => some s
  | c :: cs, s =>
    let ts := saved.filter fun t => t.cluster == c
    match s.tileHome p c (ts.map (·.phys)) with
    | none => none
    | some k =>
      let states := modBy s.states (fun r => r.ctx == ctx && r.place == .cluster c && ts.any fun t => match t.st with
        | .pinned h _ => h == r.handle
        | _ => false) fun r => { r with place := .cluster k }
      let back := ts.map fun (t : Tile) => ({ t with cluster := k } : Tile)
      State.putTiles p ctx saved cs { s with tiles := back ++ s.tiles, states := states }

/-- A record that a context has moved, or could not be restored (R273, R384). -/
def State.recordMove (s : State) (c : Ctx) (detail part : Nat) : State :=
  s.record c.fn { ctx := c.id % 2 ^ 16, kind := 0x80, detail := detail + 256 * part }

/-- May the context come onto the partition: no other function's contexts are there, and, where its function moves with it, none
of them is on another one (R381)? -/
def State.mayRestore (s : State) (c : Ctx) (p : Nat) : Bool :=
  s.partFree p c.fn && (c.part == p || s.ctxs.all fun x => x.fn != c.fn || x.out || x.lost)

/-- CONTEXT_RESTORE (R271 to R273): the log is replayed in order before any wave of the context issues. A function that moves
to another partition moves with all its contexts (R381). -/
def execContextRestore (ctx partition : Nat) (s : State) : Host.Outcome State Fault Refusal :=
  match s.ctx? ctx, s.part? partition with
  | some c, some p =>
    if !c.out || c.lost || !(s.mayRestore c partition) then .next s else
    match (if s.restorable c p then State.putTiles p ctx c.saved ((c.saved.map (·.cluster)).eraseDups) s else none) with
    | none => .next (s.recordMove c 1 partition)
    | some t =>
      let t := t.modCtx ctx fun c => { c with out := false, part := partition, saved := [], log := [], held := [] }
      let t := if c.part == partition then t
        else
          let ctxs := modBy t.ctxs (fun x => x.fn == c.fn) fun x => { x with part := partition }
          let moved := t.ctxs.filter fun x => x.fn == c.fn && x.part != partition || x.id == c.id
          moved.foldl (fun (t : State) x => t.recordMove x 0 partition)
            (State.modVi { t with ctxs := ctxs } c.fn fun v => { v with part := partition })
      .next ((c.log ++ c.held).foldl (fun (t : State) x => t.applyArrival x.1 x.2) t)
  | _, _ => .next s

end Sys2Proof.Machine
end

