-- ==== Sys2Proof/Machine/Mailbox.lean ====
section
/-! DEFINITION. The supervisor's mailboxes (spec/26 R382, R383), translation faults and invalidations (R376, R377), event
queues (R384) and attestation (spec/27 R388). -/

namespace Sys2Proof.Machine

/-! ## Commands and replies (R383) -/

/-- The command to perform: the one in progress, else the one that has been submitted, as the buffer holds it now. -/
def Vi.command (v : Vi) : Option Nat :=
  match v.cmd with
  | some x => some x.toNat
  | none => if v.sub then some (Memory.readNat v.window 0x100 64) else none

/-- A command has been read, and is in progress: what is written to the buffer from now on is no part of it. -/
def Vi.begin (v : Vi) (x : Nat) : Vi := { v with cmd := some (BitVec.ofNat 512 x), sub := v.sub && v.cmd.isSome }

/-- Command `x` answered: the reply buffer, then the done word; `res` stands in bytes 8 to 63 of the reply. -/
def Vi.reply (v : Vi) (x status res : Nat) : Vi :=
  let r := nfld x 0 4 + status * 2 ^ 32 + res % 2 ^ 448 * 2 ^ 64
  { v with window := Memory.writeNat (Memory.writeNat v.window 0x180 64 r) 0x1C0 4 (nfld x 2 2)
           cmd := none, sub := v.sub && v.cmd.isSome }

def State.reply (s : State) (fn x status res : Nat) : State := s.modVi fn fun v => v.reply x status res

/-- The command in progress answered. -/
def State.replyNow (s : State) (fn status res : Nat) : State :=
  s.modVi fn fun v => match v.cmd with | some x => v.reply x.toNat status res | none => v

/-- The statuses of R382. -/
def badArg : Nat := 1
def noResource : Nat := 2
def denied : Nat := 3
def lost : Nat := 4

/-- Are the bytes 8 to 63 that are not listed zero? -/
def unlistedZero (x : Nat) (listed : List (Nat × Nat)) : Bool :=
  (List.range 56).all fun i => nfld x (8 + i) 1 == 0 || listed.any fun r => r.1 ≤ 8 + i && 8 + i < r.1 + r.2

/-- How a command ends: answered with a status and results, or still in progress. -/
inductive MailEnd where
  | answer (s : State) (status : Nat) (res : Nat := 0)
  | wait (s : State)

def MailEnd.finish (fn x : Nat) : MailEnd → State
  | .answer s status res => s.reply fn x status res
  | .wait s => s.modVi fn fun v => v.begin x

/-- What the context field of a command asks for: a context of the function, or none. -/
inductive CtxNeed where
  | named | maybe

/-- The context of a command, or the status that refuses it. -/
def State.mailCtx (s : State) (fn x : Nat) (need : CtxNeed) : Except Nat (Option Ctx) :=
  if nfld x 4 4 == 0xFFFFFFFF then (match need with | .named => .error badArg | .maybe => .ok none) else
  match s.ctx? (nfld x 4 4) with
  | none => .error badArg
  | some c => if c.fn != fn then .error badArg else if c.lost then .error lost else .ok (some c)

/-- Has the command an opcode that R383 gives? -/
def opKnown (x : Nat) : Bool := nfld x 0 2 != 0 && nfld x 0 2 ≤ 0x0B

/-- A command of one opcode in a function's mailbox, performed; SET_CONTEXT's event also finds an opcode that is none. -/
def State.mail (s : State) (fn op : Nat) (listed : List (Nat × Nat)) (need : CtxNeed) (f : Vi → Nat → Option Ctx → MailEnd) :
    State :=
  match s.vi? fn with
  | none => s
  | some v =>
    match v.command with
    | none => s
    | some x =>
      if s.stage != 6 || (if opKnown x then nfld x 0 2 != op else op != 1) then s
      else if !(opKnown x) || nfld x 2 2 == 0 || !(unlistedZero x listed) then s.reply fn x badArg 0
      else match s.mailCtx fn x need with
        | .error e => s.reply fn x e 0
        | .ok c => (f v x c).finish fn x

/-! ## SET_CONTEXT, REG_QUEUE, UNREG_QUEUE, REG_PREDICTOR, REG_COLLECTIVE, SET_WATCHDOG (R382) -/

/-- The areas of SET_CONTEXT. -/
def Ctx.setAreas (c : Ctx) (x : Nat) : Ctx :=
  { c with root := nfld x 8 8, tid := nfld x 16 8, area := nfld x 24 8, areaSize := nfld x 32 8, logAddr := nfld x 40 8
           logSize := nfld x 48 4 }

/-- The lowest context number not in use (notes/assumptions/28.md). -/
def State.newCtx (s : State) : Nat := ((List.range (s.ctxs.length + 1)).find? fun n => (s.ctx? n).isNone).getD 0

def setContextEnd (s : State) (v : Vi) (x : Nat) (c : Option Ctx) : MailEnd :=
  if nfld x 8 8 % 2 ^ 15 != 0 || 2 ^ 51 ≤ nfld x 8 8 then .answer s badArg else
  match c with
  | some c =>
    if s.launches.any fun l => l.ctx == c.id then .answer s denied
    else .answer (s.modCtx c.id fun c => c.setAreas x) 0
  | none =>
    let n := s.newCtx
    let c : Ctx := { id := n, fn := v.fn, root := 0, part := v.part, out := !(s.partFree v.part v.fn) }
    .answer { s with ctxs := s.ctxs ++ [c.setAreas x] } 0 n

/-- SET_CONTEXT (R382). A context of a function whose partition another function's contexts are on begins switched out (R381). -/
def execSetContext (fn : Nat) (s : State) : Host.Outcome State Fault Refusal :=
  .next (s.mail fn 1 [(8, 44)] .maybe (setContextEnd s))

def regQueueEnd (s : State) (v : Vi) (x : Nat) (c : Option Ctx) : MailEnd :=
  let k := nfld x 24 1
  let free := (List.range 64).find? fun n => !(s.queues.any fun q => q.fn == v.fn && q.num == n)
  if nfld x 8 8 % 64 != 0 || nfld x 16 8 % 128 != 0 || k == 0 || 16 < k || 3 < nfld x 25 1 then .answer s badArg else
  match c, free with
  | some c, some n =>
    let (id, s) := s.newId
    let q : Queue := { id, fn := v.fn, num := n, ctx := c.id, index := nfld x 8 8, ring := nfld x 16 8, k, prio := nfld x 25 1 }
    .answer { s with queues := s.queues ++ [q] } 0 n
  | _, _ => .answer s noResource

/-- REG_QUEUE (R356, R382). -/
def execRegQueue (fn : Nat) (s : State) : Host.Outcome State Fault Refusal :=
  .next (s.mail fn 2 [(8, 18)] .named (regQueueEnd s))

def unregQueueEnd (s : State) (v : Vi) (x : Nat) (_ : Option Ctx) : MailEnd :=
  match s.queues.find? fun q => q.fn == v.fn && q.num == nfld x 8 2 with
  | none => .answer s badArg
  | some q =>
    if s.launches.all fun l => l.queue != some q.id || l.begun then
      .answer { s with queues := s.queues.filter fun y => y.id != q.id } 0
    else .wait (s.modQueue q.id fun q => { q with stop := some (nfld x 2 2) })

/-- UNREG_QUEUE (R382): it waits for the packet in progress. -/
def execUnregQueue (fn : Nat) (s : State) : Host.Outcome State Fault Refusal :=
  .next (s.mail fn 3 [(8, 2)] .maybe (unregQueueEnd s))

/-- A table of the context registered. -/
def regTableEnd (s : State) (f : Nat → Ctx → Ctx) (_ : Vi) (x : Nat) (c : Option Ctx) : MailEnd :=
  match c with
  | some c => .answer (s.modCtx c.id (f (nfld x 8 8))) 0
  | none => .answer s badArg

/-- REG_PREDICTOR (R362, R382). -/
def execRegPredictor (fn : Nat) (s : State) : Host.Outcome State Fault Refusal :=
  .next (s.mail fn 4 [(8, 8)] .named (regTableEnd s fun a c => { c with predictor := some a }))

/-- REG_COLLECTIVE (R379, R382). -/
def execRegCollective (fn : Nat) (s : State) : Host.Outcome State Fault Refusal :=
  .next (s.mail fn 5 [(8, 8)] .named (regTableEnd s fun a c => { c with colls := some a }))

def setWatchdogEnd (s : State) (v : Vi) (x : Nat) (_ : Option Ctx) : MailEnd :=
  let n := nfld x 8 1
  if n < 20 || 40 < n then .answer s badArg
  else if (s.part? v.part).any (·.fixed) then .answer s denied
  else .answer (s.modPart v.part fun p => { p with dog := n }) 0

/-- SET_WATCHDOG (R268, R382). -/
def execSetWatchdog (fn : Nat) (s : State) : Host.Outcome State Fault Refusal :=
  .next (s.mail fn 6 [(8, 1)] .maybe (setWatchdogEnd s))

/-! ## TLB_INV (R376) -/

/-- Does an entry translate an address of the range? Length 0 is the whole context. -/
def TlbInv.covers (i : TlbInv) (e : TlbEntry) : Bool := e.ctx == i.ctx && (i.len == 0 || overlaps e.vbase e.size i.base i.len)

/-- The TLBs give the range up. -/
def State.dropTlb (s : State) (i : TlbInv) : State :=
  { s with tlb := s.tlb.filter (fun e => !(i.covers e)), sectTlb := s.sectTlb.filter fun e => !(i.covers e) }

def tlbInvEnd (s : State) (v : Vi) (x : Nat) (c : Option Ctx) : MailEnd :=
  if nfld x 8 8 % 2 ^ 15 != 0 || nfld x 16 8 % 2 ^ 15 != 0 then .answer s badArg
  else if s.tlbInvs.any fun i => i.fn == v.fn then .wait s
  else
    let i : TlbInv := { fn := v.fn, tag := nfld x 2 2, ctx := (c.map (·.id)).getD 0, base := nfld x 8 8, len := nfld x 16 8 }
    .wait (State.dropTlb { s with tlbInvs := s.tlbInvs ++ [i] } i)

/-- TLB_INV (R376): the invalidation begins. -/
def execTlbInv (fn : Nat) (s : State) : Host.Outcome State Fault Refusal :=
  .next (s.mail fn 7 [(8, 16)] .named (tlbInvEnd s))

/-- Has every access of the context that has left its core or its engine been performed? What was published for a wave or a
gang that is gone counts for every context. -/
def State.ctxClear (s : State) (ctx : Nat) : Bool :=
  let mine (w : Nat) : Bool := match s.wave? w, s.gang? w with
    | some w, _ => s.ctxId w == ctx
    | none, some g => s.gangCtx g == ctx
    | none, none => true
  !(s.fills.any fun f => (f.waiters.any fun x => mine x.wave) || f.stores.any fun x => mine x.wave) && !(s.sunk.any fun x => mine x.wave) &&
    !(s.groom.any fun r => mine r.wave) && !(s.flows.any fun f => f.cls == .publish && f.bodies.any fun b => b.pubWave.any mine)

/-- TLB_INV_COMPLETE (R376): no TLB holds the range, and the accesses that used it have been performed. -/
def execTlbInvComplete (idx : Nat) (s : State) : Host.Outcome State Fault Refusal :=
  match s.tlbInvs[idx]? with
  | none => .next s
  | some i =>
    if s.ctxClear i.ctx then
      .next ((State.dropTlb { s with tlbInvs := s.tlbInvs.eraseIdx idx } i).replyNow i.fn 0 0)
    else .next s

/-! ## FAULT_REPLY (R377) -/

/-- The fault of a thread that waits on the page: at a data access or a fetch, at an ERET's frame, or at its entry's frame
(R250). -/
def Wave.threadFault (page : Nat) (w : Wave) (l : Nat) : Option GangFault :=
  let t := w.thread l
  match t.hold? with
  | some (.xlate p frame) =>
    if p == page then some { code := 0x81, flags := if frame.isSome then 4 else 0, pc := frame.getD t.pc } else none
  | some (.entry i (some p)) => if p == page then some { code := 0x81, flags := 4, pc := i.pc } else none
  | _ => none

/-- The fault of an engine's access that has joined the page's fault. -/
def Gang.engineFault (page : Nat) (g : Gang) : Option GangFault :=
  let at_ (j : Option Nat) (pc : DWord) : List DWord := if j == some page then [pc] else []
  let pcs := g.queues.flatMap (fun q => match q.walk with
      | some k => at_ k.joined k.chain.pc
      | none => []) ++ g.tileQ.flatMap (fun c => at_ c.joined c.pc) ++ g.tidOps.flatMap (fun o => at_ o.joined o.pc)
    ++ at_ g.binJoined ((g.bins.head?.map (·.pc)).getD 0)
  pcs.head?.map fun pc => { code := 0x81, flags := 2, pc }

/-- The fault of a gang whose accesses have joined the page's, the first thread's before the engines'. -/
def State.pageFault (s : State) (page : Nat) (g : Gang) : Option GangFault :=
  match (s.wavesOf g.id).findSome? fun w => (List.range 32).findSome? (w.threadFault page) with
  | some f => some f
  | none => g.engineFault page

/-- RETRY: every joined access is made again; a pre-emption request keeps the gang's threads held (R269). -/
def State.retryPage (s : State) (ctx page : Nat) : State :=
  let mine (g : Gang) : Bool := s.gangCtx g == ctx
  let waves := modBy s.waves (fun w => mine (s.gangOf w) && !(s.gangOf w).still) fun w => w.replay (· == page)
  let gangs := modBy s.gangs mine fun g => g.rejoin (· == page)
  { s with waves := waves, gangs := gangs }

/-- ABORT: every gang with a joined access aborts. -/
def State.abortPage (s : State) (ctx page : Nat) : State :=
  s.gangs.foldl (fun (t : State) g =>
    if s.gangCtx g != ctx || g.st != .live then t else
    match s.pageFault page g with
    | some f => t.abortGang g.id f
    | none => t) s

def faultReplyEnd (s : State) (_ : Vi) (x : Nat) (c : Option Ctx) : MailEnd :=
  let page := nfld x 8 8
  let ctx := (c.map (·.id)).getD 0
  if page % 2 ^ 15 != 0 || 1 < nfld x 16 1 then .answer s badArg else
  let t := { s with faults := s.faults.filter fun f => !(f.ctx == ctx && f.page == page) }
  .answer (if nfld x 16 1 == 0 then t.retryPage ctx page else t.abortPage ctx page) 0

/-- FAULT_REPLY (R377). -/
def execFaultReply (fn : Nat) (s : State) : Host.Outcome State Fault Refusal :=
  .next (s.mail fn 8 [(8, 9)] .named (faultReplyEnd s))

/-! ## RESET_VI (R382) -/

/-- Is a context one of the function's? -/
def State.ownsCtx (s : State) (fn ctx : Nat) : Bool := (s.ctx? ctx).any fun c => c.fn == fn

/-- A launch aborted: nothing more of it is placed, and none of its gangs is re-run. -/
def Launch.reset (l : Launch) (live : List Nat) (pc : DWord) : Launch :=
  let l := (l.todo.map (·.1) ++ live).foldl (fun (l : Launch) i => l.addFault i { code := 0x85, pc }) l
  let l := if l.fault.isNone && l.status == 0 then l.addFault 0 { code := 0x85, pc } else l
  let graph := l.graph.map fun g => { g with nodes := g.nodes.map fun n => { n with launched := true, completed := true } }
  { l with todo := [], started := true, shaped := true, noRerun := true, graph := graph }

/-- Every launch of a function's contexts aborted with code 0x85, its gangs that wait to be re-run too; its queues take nothing
more. -/
def State.abortLaunches (s : State) (fn : Nat) : State :=
  let mine := s.gangs.filter fun g => s.ownsCtx fn (s.gangCtx g)
  let gs := mine.filter fun g => g.st == .live
  let freed := mine.filter fun g => g.st != .live && (s.wavesOf g.id).isEmpty
  let launches := modBy s.launches (fun l => s.ownsCtx fn l.ctx && !l.noRerun) fun l =>
    l.reset (((gs ++ freed).filter fun g => g.launch == l.id).map (·.index)) (freePc s.fresh)
  let queues := modBy s.queues (fun q => q.fn == fn) fun q => { q with stop := some 0 }
  (gs.map (·.id)).foldl (fun (t : State) g => t.abortFree g 0x85) (State.freshen
    { s with launches := launches, queues := queues, gangs := s.gangs.filter fun g => !(freed.contains g) })

/-- The registrations of a function and what its contexts held are gone. -/
def State.clearVi (s : State) (fn : Nat) : State :=
  let mine (c : Nat) : Bool := s.ownsCtx fn c
  let s' := { s with
    tiles := s.tiles.filter fun t => !(mine t.ctx)
    states := s.states.filter fun r => !(mine r.ctx)
    colls := s.colls.filter fun c => !(mine c.ctx)
    faults := s.faults.filter fun f => !(mine f.ctx)
    tlb := s.tlb.filter fun e => !(mine e.ctx)
    sectTlb := s.sectTlb.filter fun e => !(mine e.ctx)
    queues := s.queues.filter fun q => q.fn != fn
    ctxs := s.ctxs.filter fun c => c.fn != fn }
  s'.modVi fn fun v => { v with evq := none, recs := [] }

def resetViEnd (s : State) (v : Vi) (_ : Nat) (_ : Option Ctx) : MailEnd :=
  if s.launches.any fun l => s.ownsCtx v.fn l.ctx then .wait (s.abortLaunches v.fn) else .answer (s.clearVi v.fn) 0

/-- RESET_VI (R382): it is answered once the aborted launches have completed. -/
def execResetVi (fn : Nat) (s : State) : Host.Outcome State Fault Refusal :=
  .next (s.mail fn 9 [] .maybe (resetViEnd s))

/-! ## Event queues (R384) -/

def regEventsEnd (s : State) (v : Vi) (x : Nat) (_ : Option Ctx) : MailEnd :=
  let k := nfld x 24 1
  if nfld x 8 8 % 64 != 0 || nfld x 16 8 % 32 != 0 || k < 4 || 16 < k then .answer s badArg
  else .answer (s.modVi v.fn fun v => { v with evq := some (nfld x 8 8, nfld x 16 8, k, 0) }) 0

/-- REG_EVENTS (R384). -/
def execRegEvents (fn : Nat) (s : State) : Host.Outcome State Fault Refusal :=
  .next (s.mail fn 0x0A [(8, 17)] .maybe (regEventsEnd s))

/-- A record's 32 bytes (R377, R384). -/
def EvRec.bytes (e : EvRec) : List Byte :=
  natBytes 8 e.addr ++ natBytes 2 e.ctx ++ natBytes 1 e.kind ++ natBytes 1 e.die ++ natBytes 4 (min e.count (2 ^ 32 - 1))
    ++ natBytes 8 e.detail ++ natBytes 8 0

/-- EVENT_RECORD_DRAIN (R384): the oldest record held is written, and then the write index. -/
def execEventRecordDrain (fn : Nat) (s : State) : Host.Outcome State Fault Refusal :=
  match s.vi? fn with
  | none => .next s
  | some v =>
    match v.evq, v.recs with
    | some q, e :: es =>
      if !s.link || s.ringFull q then .next s else
      let t := s.hostWrite (q.2.1 + 32 * (q.2.2.2 % 2 ^ q.2.2.1)) e.bytes
      let t := t.hostWrite q.1 (natBytes 8 (q.2.2.2 + 1))
      .next (t.modVi fn fun v => { v with evq := some (q.1, q.2.1, q.2.2.1, q.2.2.2 + 1), recs := es })
    | _, _ => .next s

/-! ## ATTEST (R388) -/

/-- The life-cycle state in a report (notes/assumptions/29.md). -/
def lifeCode : LifeCycle → Nat
  | .blank => 0 | .develop => 1 | .production => 2 | .ret => 3 | .scrapped => 4

/-- The report of 256 bytes. -/
def State.report (s : State) (nonce : Nat) : List Byte :=
  natBytes 32 nonce ++ natBytes 1 (lifeCode s.life) ++ natBytes 3 0 ++ ((List.range 8).flatMap fun d => natBytes 1 (s.die d).feat.toNat)
    ++ ((List.range 3).flatMap fun i => (List.range 32).map (Config.digestByte i)) ++ natBytes 116 0

def attestEnd (s : State) (_ : Vi) (x : Nat) (_ : Option Ctx) : MailEnd :=
  let out := nfld x 40 8
  let n := Config.signatureLength s.fresh % 3841
  if out % 64 != 0 || !((List.range 64).all fun i => s.frameOk (out + 64 * i)) then .answer s badArg
  else if s.life == .ret || s.keysErased then .answer s denied
  else .answer (s.hostWrite out (s.report (nfld x 8 32) ++ (List.range n).map (Config.signatureByte s.fresh))).freshen 0 n

/-- ATTEST (R388). -/
def execAttest (fn : Nat) (s : State) : Host.Outcome State Fault Refusal :=
  .next (s.mail fn 0x0B [(8, 40)] .maybe (attestEnd s))

/-! ## The window (R383) -/

/-- The bytes a driver writes: the command buffer and the submit word. -/
def windowWritable (o : Nat) : Bool := decide (0x100 ≤ o) && decide (o < 0x144)

/-- WINDOW_WRITE (R383): a write of the submit word submits the command in the buffer. -/
def execWindowWrite (fn offset : Nat) (bytes : List Byte) (s : State) : Host.Outcome State Fault Refusal :=
  if !s.link || (s.stage != 6 && fn != 0) then .next s else
  let put (m : Memory) (b : Byte × Nat) : Memory :=
    if windowWritable (offset + b.2) then Memory.write m (offset + b.2) b.1 else m
  let submits := bytes.zipIdx.any fun b => decide (0x140 ≤ offset + b.2) && windowWritable (offset + b.2)
  .next (s.modVi fn fun v => { v with window := bytes.zipIdx.foldl put v.window, sub := v.sub || submits })

end Sys2Proof.Machine
end

