-- ==== Sys2Proof/Machine/Reliability.lean ====
section
/-! DEFINITION. The host link (spec/26 R373), spares and repair (spec/27 R385), the withdrawal of a die (spec/26 R378), the
security alarm (spec/27 R390), the life cycle (R389), reset (R391) and power (R392). -/

namespace Sys2Proof.Machine

/-! ## The host link (R373) -/

/-- HOST_LINK_DOWN (R373): every partition halts. -/
def execHostLinkDown (s : State) : Host.Outcome State Fault Refusal :=
  .next { s with link := false, parts := s.parts.map fun p => { p with halted := true } }

/-- Every context is lost, with what it was doing (notes/assumptions/30.md). -/
def State.loseContexts (s : State) : State :=
  let t := s.tlbInvs.foldl (fun (t : State) i => t.replyNow i.fn lost 0) s
  let t := s.gangs.foldl (fun (t : State) g => t.endGang g.id .squashed) t
  { t with
    waves := [], gangs := [], launches := [], queues := [], tiles := [], states := [], colls := [], faults := [], tlbInvs := []
    sunk := [], versions := []
    ctxs := t.ctxs.map fun c => { c with lost := true, saved := [], log := [], held := [] } }

/-- HOST_LINK_UP (R373). -/
def execHostLinkUp (s : State) : Host.Outcome State Fault Refusal :=
  if s.link then .next s else
  let t := s.loseContexts
  .next { t with link := true, parts := t.parts.map fun p => { p with halted := false } }

/-! ## Spares (R385) -/

/-- Function 0 is told of a unit whose spares are spent (R384). -/
def State.recordSpent (s : State) (die cluster : Nat) : State :=
  s.record 0 { kind := 0x85, die, detail := (s.die die).feat.toNat + 256 * cluster }

/-- SPARE_CLUSTER_SWAP (R385): the spare takes the failed cluster's number; where it is spent, the cluster is withdrawn. No result
changes: pinned tiles keep their words (notes/assumptions/48.md). -/
def execSpareClusterSwap (cluster : Nat) (s : State) : Host.Outcome State Fault Refusal :=
  if 128 ≤ cluster || s.deadClusters.contains cluster then .next s else
  let gs := s.gangs.filter fun g => g.st == .live && g.place.isSome && g.cluster == cluster
  let t := (gs.map (·.id)).foldl (fun (t : State) g => t.abortFree g 0x85) s
  let sec := clusterSector cluster
  if t.spareSectors.contains sec then
    .next (State.recordSpent { t with deadClusters := cluster :: t.deadClusters } (clusterDie cluster) (cluster % 16))
  else .next { t with spareSectors := sec :: t.spareSectors }

/-- SPARE_ROW_REPAIR (R32, R264, R265, R385): how many spare rows and ways there are, no rule says: a capacity falls or stays.
The unit behind a FEAT bit loses it. -/
def execSpareRowRepair (unit : RepairUnit) (s : State) : Host.Outcome State Fault Refusal :=
  match unit with
  | .regFile core =>
    let t := 8 * core + Config.freePick s.fresh core 1 % 8
    if Config.freePick s.fresh core 0 % 2 == 1 then
      .next (State.freshen { s with trackCaps := Map.set 256 s.trackCaps t (Map.get 256 s.trackCaps t - 16) })
    else .next s.freshen
  | .homeWays die =>
    .next ((s.modDie die fun d => { d with verCap := d.verCap - Config.freePick s.fresh die 2 % (d.verCap + 1) }).freshen)
  | .feature die bit =>
    let t := s.modDie die fun d => { d with feat := d.feat &&& ~~~(1#7 <<< bit.val) }
    .next (t.recordSpent die 0xFF)
  | .scratchpad _ => .next s
  | .cache _ _ => .next s

/-- The lines of a 32 KiB frame. -/
def frameRange (frame : Nat) : List Nat := (List.range 512).map (512 * frame + ·)

/-- A frame's bytes copied to another frame, with its poison (R385, R386). -/
def State.copyFrame (s : State) (a b : Nat) : State :=
  let s := (frameRange a).foldl (fun (s : State) n => s.homeSync n) s
  let s := (frameRange a).foldl (fun (s : State) n =>
    s.homeWrite { line := n + 512 * b - 512 * a, data := memLine s.mem n, mask := BitVec.allOnes 64 }) s
  let inside (x : Nat) : Bool := decide (8192 * a ≤ x) && decide (x < 8192 * a + 8192)
  { s with poison := (s.poison.filter fun x => !(decide (8192 * b ≤ x) && decide (x < 8192 * b + 8192)))
      ++ (s.poison.filter inside).map fun x => x + 8192 * b - 8192 * a }

/-- PAGE_RETIREMENT (R384, R385). -/
def execPageRetirement (frame spare : Nat) (s : State) : Host.Outcome State Fault Refusal :=
  let a := 2 ^ 15 * frame
  let b := 2 ^ 15 * spare
  if s.deviceFrame a && s.deviceFrame b && frame != spare then
    .next ((s.copyFrame frame spare).record 0 { addr := a, kind := 0x82, die := (homeOf a).getD 0, detail := b })
  else .next s

/-- SPARE_LANE_SWAP (R378, R385): no visible effect. -/
def execSpareLaneSwap (_ : Nat) (s : State) : Host.Outcome State Fault Refusal := .next s

/-- DIE_WITHDRAWAL (R255, R378): the die's gangs abort, and suspended ones whose version it holds. -/
def execDieWithdrawal (die : Nat) (s : State) : Host.Outcome State Fault Refusal :=
  let t := s.modDie die fun d => { d with withdrawn := true }
  let gs := t.gangs.filter fun g => g.st == .live && g.die == die && (g.place.isSome || !(t.version g.id).isEmpty)
  .next ((gs.map (·.id)).foldl (fun (t : State) g => t.abortFree g 0x85) t)

/-! ## Reset (R388, R389, R391) -/

/-- The keys whose firmware a device runs: by its life-cycle state (R389), or recovery firmware alone once its keys are erased
(R390). -/
def fwKeys (life : LifeCycle) (erased : Bool) : List FwKey :=
  match life with
  | .scrapped => []
  | life => if erased then [.recovery] else match life with
    | .blank => [.manufacturing]
    | .develop => [.development, .production]
    | .production => [.production]
    | .ret => [.analysis]
    | .scrapped => []

/-- Is the signature of an image verified (R388, R389)? -/
def State.verified (s : State) (life : LifeCycle) (x : FwImage) : Bool := x.intact && (fwKeys life s.keysErased).contains x.key

/-- The die after a training (R391): one that fails it is withdrawn. -/
def State.trained (s : State) (d : Die) : Die :=
  { id := d.id, feat := d.feat, withdrawn := d.withdrawn || s.badDies.contains d.id, verCap := d.verCap }

/-- The codes that a bring-up writes (R391): the boot firmware is verified, the dies are trained, and the supervisor, a firmware
image as well, is started. -/
def State.bringUp (s : State) (life : LifeCycle) : List Nat :=
  if !(s.verified life s.boot) then [1, 2, 0xE2]
  else if (s.dies.map s.trained).all (·.withdrawn) then [1, 2, 3, 0xE3]
  else if !(s.verified life s.supervisor) then [1, 2, 3, 4, 5, 0xE5]
  else [1, 2, 3, 4, 5, 6]

/-- The module after a reset: every memory of the device wiped, no context and no queue; fuses, firmware and repairs stay
(notes/assumptions/31.md), and so does the host's memory, which is none of the device's. -/
def State.resetModule (s : State) : State :=
  let life := s.nextLife.getD s.life
  let codes := s.bringUp life
  { State.reset with
    mem := s.mem.filter fun x => 2 ^ 49 ≤ x.1
    poison := s.poison.filter fun a => 2 ^ 49 ≤ 4 * a
    inputs := s.inputs, turn := s.turn, fresh := s.fresh, picks := s.picks, nextId := s.nextId, cycle := s.cycle
    stage := codes.getLastD 6, life, alarm := s.alarm, keysErased := s.keysErased, boot := s.boot, supervisor := s.supervisor
    badDies := s.badDies, link := s.link
    dies := if codes.contains 3 then s.dies.map s.trained
      else s.dies.map fun d => { id := d.id, feat := d.feat, withdrawn := d.withdrawn, verCap := d.verCap }
    trackCaps := s.trackCaps, deadClusters := s.deadClusters, spareSectors := s.spareSectors
    vis := (List.range 64).map fun fn =>
      { fn, window := if fn = 0 then codes.foldl (fun m c => Memory.writeNat m 0 4 c) [] else [] } }

/-- RESET (R391). -/
def execReset (s : State) : Host.Outcome State Fault Refusal := .next s.resetModule

/-- The reset of alarm policies 1 and 2 (R390): every context is reported LOST, to the command under way that names it and to
those after the reset (R382). -/
def State.alarmReset (s : State) : State :=
  let named := s.vis.filterMap fun v => (v.command.filter fun x => (s.ctx? (nfld x 4 4)).any fun c => c.fn == v.fn).map fun x => (v.fn, x)
  let t := { s.resetModule with ctxs := s.ctxs.map fun c => { id := c.id, fn := c.fn, root := 0, lost := true } }
  named.foldl (fun (t : State) x => t.reply x.1 x.2 lost 0) t

/-- SECURITY_ALARM (R390). -/
def execSecurityAlarm (sensors : BitVec 4) (s : State) : Host.Outcome State Fault Refusal :=
  match s.alarm with
  | 0 => .next ((s.vis.map (·.fn)).foldl (fun (t : State) fn => t.record fn { kind := 0x84, detail := sensors.toNat }) s)
  | 1 => .next s.alarmReset
  | _ => .next (State.alarmReset { s with keysErased := true })

/-- The transitions of R389. -/
def lifeNext : LifeCycle → List LifeCycle
  | .blank => [.develop, .production]
  | .develop => [.production, .scrapped]
  | .production => [.ret, .scrapped]
  | .ret => [.scrapped]
  | .scrapped => []

/-- LIFE_CYCLE_TRANSITION (R389): the fuse is written; the state changes at the next reset. -/
def execLifeCycleTransition (target : LifeCycle) (s : State) : Host.Outcome State Fault Refusal :=
  .next (if (lifeNext s.life).contains target then { s with nextLife := some target } else s)

/-- POWER_LIMIT_THROTTLE (R392): only timing changes. -/
def execPowerLimitThrottle (on : Bool) (s : State) : Host.Outcome State Fault Refusal := .next { s with throttled := on }

end Sys2Proof.Machine
end

