-- ==== Sys2Proof/Machine/System.lean ====
section
/-! DEFINITION. System and trap instructions (spec/19 R275 to R282, spec/17 R249): a thread's life, traps on purpose, the
return from a handler, the register grant, barriers and hints. SIGDEC and NREC stand in Signals.lean. -/

namespace Sys2Proof.Machine

/-- PAUSE: the group has no ready word for n cycles (R276), whichever threads have joined it (`State.readyLanes`). -/
def pauseAct (n : BitVec 8) (s : State) (_ : Issue) (w : Wave) (m : LaneMask) : State :=
  s.modWave w.id fun v => v.mapLanes m fun _ t => { t with pause := n.toNat }

/-- The waits of EXIT and ERET for the thread's outstanding results (R36). -/
def exitCheck (_ : State) (_ : Issue) (w : Wave) (l : Nat) : Verdict := if w.outstanding l then .wait else .go

def exitAct (s : State) (_ : Issue) (_ : Wave) (m : LaneMask) : State :=
  s.modCur fun c => { c with exits := c.exits ||| m }

/-! ## ERET (R249, R250, R256) -/

/-- Has every access that must precede a read of the frame been performed (R120, R249)? -/
def State.frameClear (s : State) (w : Wave) (l : Nat) : Bool :=
  match s.frameAccess w .read l with
  | .ok pa => (List.range 8).all fun i => s.lineClear w l (pa + 64 * i) 64
  | .error _ => true

/-- In a longer chain the frame is read as the chain's earlier words leave it (R197, R249). -/
def eretCheck (s : State) (c : Issue) (w : Wave) (l : Nat) : Verdict :=
  if !(w.thread l).inHandler then .trap 1 0 0
  else match c.frames.lookup l with
    | some none => if w.outstanding l then .wait else .go
    | some (some f) => if w.outstanding l then .wait else if validPc (framePc f) then .go else .trap 1 0 0
    | none =>
      if w.outstanding l || !(s.frameClear w l) then .wait
      else match s.readFrame w l with
        | .error v => v
        | .ok f => if validPc (framePc f) then .go else .trap 1 0 0

/-- The frame that an ERET restores from. -/
def State.frameOf (s : State) (c : Issue) (w : Wave) (l : Nat) : Option Nat :=
  match c.frames.lookup l with
  | some f => f
  | none => (s.readFrame w l).toOption

/-- The loads of a frame's eight lines performed: the copies and the replies that they leave (R108, R201). -/
def State.frameLoaded (s : State) (w : Wave) (l : Nat) : State :=
  match s.frameAccess w .read l with
  | .error _ => s
  | .ok pa => (List.range 8).foldl (fun (s : State) i =>
      match s.coreLine w.gang w.core (pa / 64 + i) (BitVec.allOnes 64) with
      | some (_, t) => t
      | none => s) s

/-- Does a hold of the chain owe the thread a result (R36, R106)? -/
def Issue.owedTo (c : Issue) (l : Nat) : Bool :=
  c.holds.any fun x => x.2.owes && (x.1 == l || match x.2 with | .fe f => f.mates.getLsbD l | _ => false)

/-- One thread restored from its frame, once the results of the chain's other words have landed (R36). -/
def State.eretLane (c : Issue) (w0 : Wave) (s : State) (l : Nat) : State :=
  match s.frameOf c w0 l with
  | none => s
  | some f =>
    let s := s.frameLoaded w0 l
    let s := if ((s.wave? w0.id).getD w0).outstanding l || c.owedTo l then
        s.modCur fun c => { c with leaves := c.leaves ++ [(l, .eret f)] }
      else s.modWave w0.id fun w => w.eret l f
    s.transfer (laneBit l) (fun _ => true) fun _ => framePc f

def eretAct (s : State) (c : Issue) (w : Wave) (m : LaneMask) : State := (lanesOf m).foldl (State.eretLane c w) s

/-! ## The register grant (R28, R281) -/

/-- XACQ: the threads are held until the track serves them, unless the grant is already large enough. -/
def xacqAct (g : Grant) (s : State) (_ : Issue) (w : Wave) (m : LaneMask) : State :=
  if g.t ≤ w.grant then s else
  let (seq, s) := s.newId
  s.holdIf m (.xacq g.t seq) fun _ => true

def xrelCheck (_ : State) (_ : Issue) (w : Wave) (_ : Nat) : Verdict := if w.quiet then .go else .wait

/-- The grant is lowered once the results of the chain's other words have landed too. -/
def xrelAct (g : Grant) (s : State) (c : Issue) (w : Wave) (m : LaneMask) : State :=
  if ((s.wave? w.id).getD w).quiet && !(c.holds.any fun x => x.2.owes) then s.modWave w.id fun v => v.lower g.t
  else s.modCur fun c => { c with leaves := c.leaves ++ (lanesOf m).map fun l => (l, .xrel g.t) }

/-- A hint to the choice of what issues next (R277). -/
def yieldAct (s : State) (_ : Issue) (_ : Wave) (_ : LaneMask) : State := s.modCur fun c => { c with yields := true }

/-- A word that every thread of the group is held at. -/
def holdAct (h : Hold) (s : State) (_ : Issue) (_ : Wave) (m : LaneMask) : State := s.holdIf m h fun _ => true

/-- A word that raises a cause in every thread. -/
def raise (v : Verdict) : WordOp := { check := fun _ _ _ _ => v }

/-! ## The meanings -/

/-- NOP (R276). -/
def execNop (s : State) : Host.Outcome State Fault Refusal := runWord .nop {} s

/-- PAUSE (R276). -/
def execPause (n : BitVec 8) (s : State) : Host.Outcome State Fault Refusal := runWord (.pause n) { act := pauseAct n } s

/-- TRAP (R278). -/
def execTrap (n : BitVec 8) (s : State) : Host.Outcome State Fault Refusal := runWord (.trap n) (raise (.trap 11 n.toNat 0)) s

/-- BRK (R278). -/
def execBrk (i : BitVec 16) (s : State) : Host.Outcome State Fault Refusal := runWord (.brk i) (raise (.trap 7 0 0)) s

/-- ERET (R249). -/
def execEret (s : State) : Host.Outcome State Fault Refusal := runWord .eret { check := eretCheck, act := eretAct } s

/-- EXIT (R279). -/
def execExit (s : State) : Host.Outcome State Fault Refusal := runWord .exit { check := exitCheck, act := exitAct } s

/-- XACQ (R281). -/
def execXacq (g : Grant) (s : State) : Host.Outcome State Fault Refusal := runWord (.xacq g) { act := xacqAct g } s

/-- XREL (R281). -/
def execXrel (g : Grant) (s : State) : Host.Outcome State Fault Refusal :=
  runWord (.xrel g) { check := xrelCheck, act := xrelAct g } s

/-- YIELD (R277). -/
def execYield (s : State) : Host.Outcome State Fault Refusal := runWord .yield { act := yieldAct } s

/-- BAR_WG (R282). -/
def execBarWg (i : BitVec 4) (s : State) : Host.Outcome State Fault Refusal :=
  runWord (.barWg i) { act := holdAct (.barWg i.toNat) } s

/-- BAR_GANG (R282). -/
def execBarGang (i : BitVec 4) (s : State) : Host.Outcome State Fault Refusal :=
  runWord (.barGang i) { act := holdAct (.barGang i.toNat) } s

/-- UNIMPL_WORD (R80): the cause is found before anything else. -/
def execUnimplWord (x : UnimplBits) (s : State) : Host.Outcome State Fault Refusal := runWord (.unimplWord x) {} s

end Sys2Proof.Machine
end

