-- ==== Sys2Proof/Machine/Dispatch.lean ====
section
/-! DEFINITION. The dispatch: one arm for each constructor of Instr, each a direct call of its meaning. -/

namespace Sys2Proof.Machine

def exec (i : Instr) (s : State) : Host.Outcome State Fault Refusal :=
  match i with
  | .nop => Sys2Proof.Machine.execNop s
  | .pause n => Sys2Proof.Machine.execPause n s
  | .add d a b => Sys2Proof.Machine.execAdd d a b s
  | .sub d a b => Sys2Proof.Machine.execSub d a b s
  | .mullo d a b => Sys2Proof.Machine.execMullo d a b s
  | .mulhiI d a b => Sys2Proof.Machine.execMulhiI d a b s
  | .minI d a b => Sys2Proof.Machine.execMinI d a b s
  | .maxI d a b => Sys2Proof.Machine.execMaxI d a b s
  | .addsI d a b => Sys2Proof.Machine.execAddsI d a b s
  | .subsI d a b => Sys2Proof.Machine.execSubsI d a b s
  | .mulhiN d a b => Sys2Proof.Machine.execMulhiN d a b s
  | .minN d a b => Sys2Proof.Machine.execMinN d a b s
  | .maxN d a b => Sys2Proof.Machine.execMaxN d a b s
  | .addsN d a b => Sys2Proof.Machine.execAddsN d a b s
  | .subsN d a b => Sys2Proof.Machine.execSubsN d a b s
  | .absdI d a b => Sys2Proof.Machine.execAbsdI d a b s
  | .absdN d a b => Sys2Proof.Machine.execAbsdN d a b s
  | .avgN d a b => Sys2Proof.Machine.execAvgN d a b s
  | .and d a b => Sys2Proof.Machine.execAnd d a b s
  | .or d a b => Sys2Proof.Machine.execOr d a b s
  | .xor d a b => Sys2Proof.Machine.execXor d a b s
  | .andn d a b => Sys2Proof.Machine.execAndn d a b s
  | .orn d a b => Sys2Proof.Machine.execOrn d a b s
  | .xnor d a b => Sys2Proof.Machine.execXnor d a b s
  | .nand d a b => Sys2Proof.Machine.execNand d a b s
  | .nor d a b => Sys2Proof.Machine.execNor d a b s
  | .shl d a b => Sys2Proof.Machine.execShl d a b s
  | .shr d a b => Sys2Proof.Machine.execShr d a b s
  | .sar d a b => Sys2Proof.Machine.execSar d a b s
  | .rol d a b => Sys2Proof.Machine.execRol d a b s
  | .ror d a b => Sys2Proof.Machine.execRor d a b s
  | .fshl d a b => Sys2Proof.Machine.execFshl d a b s
  | .fshr d a b => Sys2Proof.Machine.execFshr d a b s
  | .popc d a => Sys2Proof.Machine.execPopc d a s
  | .clz d a => Sys2Proof.Machine.execClz d a s
  | .ctz d a => Sys2Proof.Machine.execCtz d a s
  | .brev d a => Sys2Proof.Machine.execBrev d a s
  | .bswap d a => Sys2Proof.Machine.execBswap d a s
  | .bfx d a b => Sys2Proof.Machine.execBfx d a b s
  | .bfi d a b => Sys2Proof.Machine.execBfi d a b s
  | .add64 d a b => Sys2Proof.Machine.execAdd64 d a b s
  | .sub64 d a b => Sys2Proof.Machine.execSub64 d a b s
  | .mul64 d a b => Sys2Proof.Machine.execMul64 d a b s
  | .shl64 d a b => Sys2Proof.Machine.execShl64 d a b s
  | .shr64 d a b => Sys2Proof.Machine.execShr64 d a b s
  | .sar64 d a b => Sys2Proof.Machine.execSar64 d a b s
  | .min64 d a b => Sys2Proof.Machine.execMin64 d a b s
  | .max64 d a b => Sys2Proof.Machine.execMax64 d a b s
  | .addi d a n => Sys2Proof.Machine.execAddi d a n s
  | .andi d a n => Sys2Proof.Machine.execAndi d a n s
  | .ori d a n => Sys2Proof.Machine.execOri d a n s
  | .xori d a n => Sys2Proof.Machine.execXori d a n s
  | .shi d a o n => Sys2Proof.Machine.execShi d a o n s
  | .muli d a n => Sys2Proof.Machine.execMuli d a n s
  | .li d n => Sys2Proof.Machine.execLi d n s
  | .lih d n => Sys2Proof.Machine.execLih d n s
  | .cmpI q k x a b => Sys2Proof.Machine.execCmpI q k x a b s
  | .cmpN q k x a b => Sys2Proof.Machine.execCmpN q k x a b s
  | .cmpF32 q k x a b => Sys2Proof.Machine.execCmpF32 q k x a b s
  | .cmpF64 q k x a b => Sys2Proof.Machine.execCmpF64 q k x a b s
  | .cmp64 q k x a b => Sys2Proof.Machine.execCmp64 q k x a b s
  | .cmov k n d a => Sys2Proof.Machine.execCmov k n d a s
  | .fadd d a b => Sys2Proof.Machine.execFadd d a b s
  | .fsub d a b => Sys2Proof.Machine.execFsub d a b s
  | .fmul d a b => Sys2Proof.Machine.execFmul d a b s
  | .fmin d a b => Sys2Proof.Machine.execFmin d a b s
  | .fmax d a b => Sys2Proof.Machine.execFmax d a b s
  | .fcpys d a b => Sys2Proof.Machine.execFcpys d a b s
  | .fneg d a => Sys2Proof.Machine.execFneg d a s
  | .fabs d a => Sys2Proof.Machine.execFabs d a s
  | .fmac d a b => Sys2Proof.Machine.execFmac d a b s
  | .fmsc d a b => Sys2Proof.Machine.execFmsc d a b s
  | .fnmac d a b => Sys2Proof.Machine.execFnmac d a b s
  | .fnmsc d a b => Sys2Proof.Machine.execFnmsc d a b s
  | .fsqrt d a => Sys2Proof.Machine.execFsqrt d a s
  | .frcp d a => Sys2Proof.Machine.execFrcp d a s
  | .frsq d a => Sys2Proof.Machine.execFrsq d a s
  | .fex2 d a => Sys2Proof.Machine.execFex2 d a s
  | .flg2 d a => Sys2Proof.Machine.execFlg2 d a s
  | .fsin d a => Sys2Proof.Machine.execFsin d a s
  | .fcos d a => Sys2Proof.Machine.execFcos d a s
  | .ftanh d a => Sys2Proof.Machine.execFtanh d a s
  | .dadd d a b => Sys2Proof.Machine.execDadd d a b s
  | .dsub d a b => Sys2Proof.Machine.execDsub d a b s
  | .dmul d a b => Sys2Proof.Machine.execDmul d a b s
  | .dmin d a b => Sys2Proof.Machine.execDmin d a b s
  | .dmax d a b => Sys2Proof.Machine.execDmax d a b s
  | .dmac d a b => Sys2Proof.Machine.execDmac d a b s
  | .dsqrt d a => Sys2Proof.Machine.execDsqrt d a s
  | .hadd2 d a b => Sys2Proof.Machine.execHadd2 d a b s
  | .hmul2 d a b => Sys2Proof.Machine.execHmul2 d a b s
  | .hmac2 d a b => Sys2Proof.Machine.execHmac2 d a b s
  | .hmax2 d a b => Sys2Proof.Machine.execHmax2 d a b s
  | .badd2 d a b => Sys2Proof.Machine.execBadd2 d a b s
  | .bmul2 d a b => Sys2Proof.Machine.execBmul2 d a b s
  | .bmac2 d a b => Sys2Proof.Machine.execBmac2 d a b s
  | .bmax2 d a b => Sys2Proof.Machine.execBmax2 d a b s
  | .dp4I8 d a b => Sys2Proof.Machine.execDp4I8 d a b s
  | .dp4E4m3 d a b => Sys2Proof.Machine.execDp4E4m3 d a b s
  | .dp4E5m2 d a b => Sys2Proof.Machine.execDp4E5m2 d a b s
  | .dp2F16 d a b => Sys2Proof.Machine.execDp2F16 d a b s
  | .dp2Bf16 d a b => Sys2Proof.Machine.execDp2Bf16 d a b s
  | .dp4Ps2 d a b => Sys2Proof.Machine.execDp4Ps2 d a b s
  | .cvt d a y x r => Sys2Proof.Machine.execCvt d a y x r s
  | .cvts d a y x r => Sys2Proof.Machine.execCvts d a y x r s
  | .pkl d a b => Sys2Proof.Machine.execPkl d a b s
  | .pkb d a b => Sys2Proof.Machine.execPkb d a b s
  | .pk3 d a b => Sys2Proof.Machine.execPk3 d a b s
  | .unpk3 d a b => Sys2Proof.Machine.execUnpk3 d a b s
  | .pkps d a => Sys2Proof.Machine.execPkps d a s
  | .unpkps d a b => Sys2Proof.Machine.execUnpkps d a b s
  | .sext8 d a b => Sys2Proof.Machine.execSext8 d a b s
  | .shfl d a b => Sys2Proof.Machine.execShfl d a b s
  | .shflx d a b => Sys2Proof.Machine.execShflx d a b s
  | .shflu d a b => Sys2Proof.Machine.execShflu d a b s
  | .shfld d a b => Sys2Proof.Machine.execShfld d a b s
  | .rdl d a b => Sys2Proof.Machine.execRdl d a b s
  | .wrl d a b => Sys2Proof.Machine.execWrl d a b s
  | .redaddI d a b => Sys2Proof.Machine.execRedaddI d a b s
  | .redminI d a b => Sys2Proof.Machine.execRedminI d a b s
  | .redmaxI d a b => Sys2Proof.Machine.execRedmaxI d a b s
  | .redand d a b => Sys2Proof.Machine.execRedand d a b s
  | .redor d a b => Sys2Proof.Machine.execRedor d a b s
  | .redaddF32 d a b => Sys2Proof.Machine.execRedaddF32 d a b s
  | .scanI d a b => Sys2Proof.Machine.execScanI d a b s
  | .scanF32 d a b => Sys2Proof.Machine.execScanF32 d a b s
  | .reads d r => Sys2Proof.Machine.execReads d r s
  | .writes a r => Sys2Proof.Machine.execWrites a r s
  | .srec d u => Sys2Proof.Machine.execSrec d u s
  | .rngseed a => Sys2Proof.Machine.execRngseed a s
  | .rngnext d => Sys2Proof.Machine.execRngnext d s
  | .ktov d k => Sys2Proof.Machine.execKtov d k s
  | .vtok k a => Sys2Proof.Machine.execVtok k a s
  | .movri d a => Sys2Proof.Machine.execMovri d a s
  | .movir d a => Sys2Proof.Machine.execMovir d a s
  | .ld z d a p r h => Sys2Proof.Machine.execLd z d a p r h s
  | .st z d a p r h => Sys2Proof.Machine.execSt z d a p r h s
  | .ldo z d a n => Sys2Proof.Machine.execLdo z d a n s
  | .sto z d a n => Sys2Proof.Machine.execSto z d a n s
  | .ldsp z d a p r q => Sys2Proof.Machine.execLdsp z d a p r q s
  | .stsp z d a p r q => Sys2Proof.Machine.execStsp z d a p r q s
  | .atom o t d a p e => Sys2Proof.Machine.execAtom o t d a p e s
  | .atomr o t d a p e => Sys2Proof.Machine.execAtomr o t d a p e s
  | .atomsp o t d a p e => Sys2Proof.Machine.execAtomsp o t d a p e s
  | .fence p => Sys2Proof.Machine.execFence p s
  | .acq p => Sys2Proof.Machine.execAcq p s
  | .rel p => Sys2Proof.Machine.execRel p s
  | .commit => Sys2Proof.Machine.execCommit s
  | .monitor a => Sys2Proof.Machine.execMonitor a s
  | .waitm => Sys2Proof.Machine.execWaitm s
  | .sink l r f => Sys2Proof.Machine.execSink l r f s
  | .join k => Sys2Proof.Machine.execJoin k s
  | .leave k => Sys2Proof.Machine.execLeave k s
  | .waitk k => Sys2Proof.Machine.execWaitk k s
  | .kand k a b => Sys2Proof.Machine.execKand k a b s
  | .kor k a b => Sys2Proof.Machine.execKor k a b s
  | .kxor k a b => Sys2Proof.Machine.execKxor k a b s
  | .knot k a => Sys2Proof.Machine.execKnot k a s
  | .kset k n => Sys2Proof.Machine.execKset k n s
  | .br u n k o => Sys2Proof.Machine.execBr u n k o s
  | .call u n k o => Sys2Proof.Machine.execCall u n k o s
  | .jmp a => Sys2Proof.Machine.execJmp a s
  | .callr a => Sys2Proof.Machine.execCallr a s
  | .ret a => Sys2Proof.Machine.execRet a s
  | .tramp u n k o => Sys2Proof.Machine.execTramp u n k o s
  | .trap n => Sys2Proof.Machine.execTrap n s
  | .brk n => Sys2Proof.Machine.execBrk n s
  | .eret => Sys2Proof.Machine.execEret s
  | .exit => Sys2Proof.Machine.execExit s
  | .xacq g => Sys2Proof.Machine.execXacq g s
  | .xrel g => Sys2Proof.Machine.execXrel g s
  | .yield => Sys2Proof.Machine.execYield s
  | .barWg n => Sys2Proof.Machine.execBarWg n s
  | .barGang n => Sys2Proof.Machine.execBarGang n s
  | .sigdec a b => Sys2Proof.Machine.execSigdec a b s
  | .nrec r a => Sys2Proof.Machine.execNrec r a s
  | .lift q a => Sys2Proof.Machine.execLift q a s
  | .liftst d q => Sys2Proof.Machine.execLiftst d q s
  | .liftabt q => Sys2Proof.Machine.execLiftabt q s
  | .tqadd a => Sys2Proof.Machine.execTqadd a s
  | .tqwait d n => Sys2Proof.Machine.execTqwait d n s
  | .accz a n => Sys2Proof.Machine.execAccz a n s
  | .accrd d a => Sys2Proof.Machine.execAccrd d a s
  | .accwr a b => Sys2Proof.Machine.execAccwr a b s
  | .accpin a b => Sys2Proof.Machine.execAccpin a b s
  | .accunpin a => Sys2Proof.Machine.execAccunpin a s
  | .accbind d a => Sys2Proof.Machine.execAccbind d a s
  | .accspill a b => Sys2Proof.Machine.execAccspill a b s
  | .accfill a b => Sys2Proof.Machine.execAccfill a b s
  | .dupd a => Sys2Proof.Machine.execDupd a s
  | .dqry a => Sys2Proof.Machine.execDqry a s
  | .rkinit r a => Sys2Proof.Machine.execRkinit r a s
  | .rkwait r u p => Sys2Proof.Machine.execRkwait r u p s
  | .rkflip r u => Sys2Proof.Machine.execRkflip r u s
  | .tidset a b => Sys2Proof.Machine.execTidset a b s
  | .tidget d a => Sys2Proof.Machine.execTidget d a s
  | .tidinv a => Sys2Proof.Machine.execTidinv a s
  | .bingo a => Sys2Proof.Machine.execBingo a s
  | .unimplWord x => Sys2Proof.Machine.execUnimplWord x s
  | .trapEntry wave => Sys2Proof.Machine.execTrapEntry wave s
  | .gangResourceFree gang => Sys2Proof.Machine.execGangResourceFree gang s
  | .gangRerun gang => Sys2Proof.Machine.execGangRerun gang s
  | .resultLanding wave idx => Sys2Proof.Machine.execResultLanding wave idx s
  | .schussGroupRun idx peer busy => Sys2Proof.Machine.execSchussGroupRun idx peer busy s
  | .mergingFillArrival idx => Sys2Proof.Machine.execMergingFillArrival idx s
  | .cacheEviction level unit line => Sys2Proof.Machine.execCacheEviction level unit line s
  | .groomerAtomic idx => Sys2Proof.Machine.execGroomerAtomic idx s
  | .monitorSpuriousEvent wave => Sys2Proof.Machine.execMonitorSpuriousEvent wave s
  | .fairnessDue wave => Sys2Proof.Machine.execFairnessDue wave s
  | .waveAged wave => Sys2Proof.Machine.execWaveAged wave s
  | .pauseExpiry wave lane => Sys2Proof.Machine.execPauseExpiry wave lane s
  | .watchdogKill gang => Sys2Proof.Machine.execWatchdogKill gang s
  | .kernelPacket queue => Sys2Proof.Machine.execKernelPacket queue s
  | .graphPacket queue => Sys2Proof.Machine.execGraphPacket queue s
  | .barrierAndPacket queue => Sys2Proof.Machine.execBarrierAndPacket queue s
  | .packetStart launch => Sys2Proof.Machine.execPacketStart launch s
  | .gangPlacement launch cluster core => Sys2Proof.Machine.execGangPlacement launch cluster core s
  | .stateMove ctx handle cluster => Sys2Proof.Machine.execStateMove ctx handle cluster s
  | .gangRetire gang => Sys2Proof.Machine.execGangRetire gang s
  | .launchCompletion launch => Sys2Proof.Machine.execLaunchCompletion launch s
  | .shapeApply launch => Sys2Proof.Machine.execShapeApply launch s
  | .shapeTimeout launch => Sys2Proof.Machine.execShapeTimeout launch s
  | .gridNodeLaunch launch node => Sys2Proof.Machine.execGridNodeLaunch launch node s
  | .binGangLaunch launch node => Sys2Proof.Machine.execBinGangLaunch launch node s
  | .binTimer launch node => Sys2Proof.Machine.execBinTimer launch node s
  | .preemptRequest gang => Sys2Proof.Machine.execPreemptRequest gang s
  | .gangEvict gang => Sys2Proof.Machine.execGangEvict gang s
  | .gangResume gang cluster core => Sys2Proof.Machine.execGangResume gang cluster core s
  | .partitionSwitch partition => Sys2Proof.Machine.execPartitionSwitch partition s
  | .contextRestore ctx partition => Sys2Proof.Machine.execContextRestore ctx partition s
  | .arrival gang item => Sys2Proof.Machine.execArrival gang item s
  | .endEntry gang queue => Sys2Proof.Machine.execEndEntry gang queue s
  | .copyEntry gang queue => Sys2Proof.Machine.execCopyEntry gang queue s
  | .gatherEntry gang queue => Sys2Proof.Machine.execGatherEntry gang queue s
  | .scatterEntry gang queue => Sys2Proof.Machine.execScatterEntry gang queue s
  | .transqEntry gang queue => Sys2Proof.Machine.execTransqEntry gang queue s
  | .reduceEntry gang queue => Sys2Proof.Machine.execReduceEntry gang queue s
  | .allgatherEntry gang queue => Sys2Proof.Machine.execAllgatherEntry gang queue s
  | .loopEntry gang queue => Sys2Proof.Machine.execLoopEntry gang queue s
  | .ifEntry gang queue => Sys2Proof.Machine.execIfEntry gang queue s
  | .waitphEntry gang queue => Sys2Proof.Machine.execWaitphEntry gang queue s
  | .flipEntry gang queue => Sys2Proof.Machine.execFlipEntry gang queue s
  | .sigdecEntry gang queue => Sys2Proof.Machine.execSigdecEntry gang queue s
  | .qfenceEntry gang queue => Sys2Proof.Machine.execQfenceEntry gang queue s
  | .mmaTask gang idx => Sys2Proof.Machine.execMmaTask gang idx s
  | .mmagTask gang idx => Sys2Proof.Machine.execMmagTask gang idx s
  | .epiTask gang idx => Sys2Proof.Machine.execEpiTask gang idx s
  | .zeroTask gang idx => Sys2Proof.Machine.execZeroTask gang idx s
  | .tileTaskComplete gang idx => Sys2Proof.Machine.execTileTaskComplete gang idx s
  | .deltaUpdateRun gang idx => Sys2Proof.Machine.execDeltaUpdateRun gang idx s
  | .deltaQueryRun gang idx => Sys2Proof.Machine.execDeltaQueryRun gang idx s
  | .spillImageWrite gang idx => Sys2Proof.Machine.execSpillImageWrite gang idx s
  | .spillImageFill gang idx => Sys2Proof.Machine.execSpillImageFill gang idx s
  | .binningRun gang => Sys2Proof.Machine.execBinningRun gang s
  | .tidsetPerform gang idx => Sys2Proof.Machine.execTidsetPerform gang idx s
  | .rkinitPerform gang idx => Sys2Proof.Machine.execRkinitPerform gang idx s
  | .publishedWriteApply src dst => Sys2Proof.Machine.execPublishedWriteApply src dst s
  | .homeReadServe idx => Sys2Proof.Machine.execHomeReadServe idx s
  | .clockMarker src dst => Sys2Proof.Machine.execClockMarker src dst s
  | .flitArrival cls src dst seq => Sys2Proof.Machine.execFlitArrival cls src dst seq s
  | .flitRetransmit cls src dst seq => Sys2Proof.Machine.execFlitRetransmit cls src dst seq s
  | .hostMemWrite addr bytes => Sys2Proof.Machine.execHostMemWrite addr bytes s
  | .hostMemRead addr len => Sys2Proof.Machine.execHostMemRead addr len s
  | .hostLinkDown => Sys2Proof.Machine.execHostLinkDown s
  | .hostLinkUp => Sys2Proof.Machine.execHostLinkUp s
  | .setContext fn => Sys2Proof.Machine.execSetContext fn s
  | .regQueue fn => Sys2Proof.Machine.execRegQueue fn s
  | .unregQueue fn => Sys2Proof.Machine.execUnregQueue fn s
  | .regPredictor fn => Sys2Proof.Machine.execRegPredictor fn s
  | .regCollective fn => Sys2Proof.Machine.execRegCollective fn s
  | .setWatchdog fn => Sys2Proof.Machine.execSetWatchdog fn s
  | .tlbInv fn => Sys2Proof.Machine.execTlbInv fn s
  | .tlbInvComplete idx => Sys2Proof.Machine.execTlbInvComplete idx s
  | .faultReply fn => Sys2Proof.Machine.execFaultReply fn s
  | .resetVi fn => Sys2Proof.Machine.execResetVi fn s
  | .regEvents fn => Sys2Proof.Machine.execRegEvents fn s
  | .attest fn => Sys2Proof.Machine.execAttest fn s
  | .windowWrite fn offset bytes => Sys2Proof.Machine.execWindowWrite fn offset bytes s
  | .eventRecordDrain fn => Sys2Proof.Machine.execEventRecordDrain fn s
  | .coreWakeSweep core => Sys2Proof.Machine.execCoreWakeSweep core s
  | .spareClusterSwap cluster => Sys2Proof.Machine.execSpareClusterSwap cluster s
  | .spareRowRepair unit => Sys2Proof.Machine.execSpareRowRepair unit s
  | .pageRetirement frame spare => Sys2Proof.Machine.execPageRetirement frame spare s
  | .spareLaneSwap link => Sys2Proof.Machine.execSpareLaneSwap link s
  | .dieWithdrawal die => Sys2Proof.Machine.execDieWithdrawal die s
  | .peerLost ctx coll member => Sys2Proof.Machine.execPeerLost ctx coll member s
  | .securityAlarm sensors => Sys2Proof.Machine.execSecurityAlarm sensors s
  | .lifeCycleTransition target => Sys2Proof.Machine.execLifeCycleTransition target s
  | .reset => Sys2Proof.Machine.execReset s
  | .hostCacheRequest line req => Sys2Proof.Machine.execHostCacheRequest line req s
  | .interruptDelivery wave => Sys2Proof.Machine.execInterruptDelivery wave s
  | .collectiveMemberArrival ctx coll member desc data => Sys2Proof.Machine.execCollectiveMemberArrival ctx coll member desc data s
  | .powerLimitThrottle on => Sys2Proof.Machine.execPowerLimitThrottle on s

end Sys2Proof.Machine
end

