-- ==== Sys2Proof/Machine/Track.lean ====
section
/-! DEFINITION. One cycle of a track (spec/15 R228): the choice of a wave (R229) and of one of its PC groups (spec/14 R222,
R223), and the chain that the group starts (spec/03 R45 to R48). -/

namespace Sys2Proof.Machine

/-! ## The words of a chain (R45 to R48) -/

/-- ERET writes v0 to v(T - 1) (R249). -/
def Instr.isEret : Instr → Bool
  | .eret => true
  | _ => false

/-- The registers a word writes under the grant `t`; a write to s31 is discarded (R49). -/
def Instr.writes (t : Nat) (i : Instr) : List Reg :=
  if Instr.isEret i then (List.range t).map Reg.ofNat else (i.info.dst ++ i.info.linkDst).filter (· != .s 31)

/-- The major opcode of a word, and its subop (R43, R52). -/
def majorOf (x : Word) : Nat := x.toNat / 2 ^ 24 % 64
def subopOf (x : Word) : Nat := x.toNat / 2 ^ 16 % 256

/-- The pipe of a word, by its major and in major 0x21 by its subop, whatever its other fields hold (R44). -/
def wordPipe (x : Word) : Option Pipe :=
  let m := majorOf x
  if m = 0x21 then (if subopOf x = 2 then some .mem else if subopOf x = 4 then some .fp else some .ctl)
  else if m = 1 then some .ctl
  else if 0x02 ≤ m ∧ m ≤ 0x15 then some .int
  else if 0x16 ≤ m ∧ m ≤ 0x1E then some .fp
  else if 0x1F ≤ m ∧ m ≤ 0x20 then some .xl
  else if 0x22 ≤ m ∧ m ≤ 0x2C then some .mem
  else if 0x2D ≤ m ∧ m ≤ 0x32 then some .ctl
  else if 0x33 ≤ m ∧ m ≤ 0x38 then some .eng
  else none

/-- Is the word a SINK head (R113): by its major, whatever its other fields hold (R81; notes/assumptions/79.md)? -/
def isSinkWord (x : Word) : Bool := majorOf x == 0x2C

/-- Do two words of one chain use one pipe, or write one register or mask register by their fields (R46), whatever else is wrong
with them (R81)? -/
def clash (t : Nat) (x y : Word) : Bool :=
  (wordPipe x).isSome && wordPipe x == wordPipe y ||
    match decodeRaw x.toNat, decodeRaw y.toNat with
    | some a, some b => (Instr.writes t a).any (Instr.writes t b).contains || (a.info.kdst.isSome && a.info.kdst == b.info.kdst)
    | _, _ => false

/-- The first word that breaks R46, with its position: one that clashes with an earlier word, a SINK head that is chained,
and a slot-3 word with C = 1 (R47); whatever else the words hold (R81). -/
def chainBreak (t slot : Nat) : Nat → List Word → List Word → Option (Nat × Word)
  | _, _, [] => none
  | pos, before, x :: xs =>
    let bad := before.any (clash t · x) || (isSinkWord x && (pos != 0 || x.getLsbD 31)) || (slot + pos == 3 && x.getLsbD 31)
    if bad then some (pos, x) else chainBreak t slot (pos + 1) (before ++ [x]) xs

/-! ## Opening an issue -/

/-- The acquire halves of stores that later accesses of the issuing threads have waited for are performed (R107); those of loads
and atomics have been performed with them. -/
def State.endAcq (s : State) (w : Wave) (m : LaneMask) : State :=
  let ps := ((lanesOf m).flatMap fun l => (w.thread l).acqs.filterMap fun x => match x.what with
    | .write _ _ _ => some x.scope
    | _ => none).eraseDups
  (ps.foldl (fun s p => s.acquire w.core p) s).modWave w.id fun v => v.mapLanes m fun _ t => { t with acqs := [] }

/-- The issue of the threads `m` of a wave at `pc`. -/
def State.openIssue (s : State) (w : Wave) (m : LaneMask) (pc : DWord) (words : List Word) : State :=
  let s := s.endAcq w m
  let c : Issue :=
    { wave := w.id, lanes := m, pc, word := words.headD 0, wordPc := pc, nextPc := skipWords words.length pc
      view := s.wave? w.id, task := some (s.task (s.gangOf w)) }
  { s with cur := some c }

/-- The word of the chain that is executed next, with its position. -/
def State.atWord (s : State) (pc : DWord) (ph : Phase) (others : List Instr) (x : Nat × Word) : State :=
  s.modCur fun c => { c with word := x.2, pos := x.1, wordPc := pc + BitVec.ofNat 64 (4 * x.1), phase := ph, others }

/-- exec of one word; one that does not go on changes nothing. -/
def State.execOr (s : State) (i : Instr) : State :=
  match exec i s with
  | .next t => t
  | _ => s

/-! ## The effects of a chain (R45, R47, R197) -/

/-- Words that are performed after the other words of their chain: MOVIR (R102), ERET (R47) and XREL (R28). -/
def Instr.isLate : Instr → Bool
  | .movir _ _ => true
  | .eret => true
  | .xrel _ => true
  | _ => false

/-- Does a word enqueue a command of an engine (R190)? -/
def Instr.enqueues : Instr → Bool
  | .rkinit _ _ | .rkwait _ _ _ | .rkflip _ _ | .liftst _ _ | .liftabt _ | .tqwait _ _ | .accbind _ _ => false
  | i => i.info.pipe == some .eng

/-- The order field of a word of the MEM pipe, as far as it has one: ATOMR has both halves (R190). -/
def Instr.ord : Instr → Ord
  | .ld _ _ _ _ r _ | .st _ _ _ _ r _ | .ldsp _ _ _ _ r _ | .stsp _ _ _ _ r _ => r
  | .atomr _ _ _ _ _ _ => .acqrel
  | _ => .plain

/-- Does what the chain's earlier words, `before`, have left to be performed in a thread come first (R197)? RKFLIP, SIGDEC and
NREC follow every access (R283, R284, R310), RKWAIT those with a release half, the enqueue of a command those with an acquire
half (R193 to R195); a memory access follows the wait of an RKWAIT, and ERET's read of its frame the stores to it (R249). -/
def State.follows (s : State) (c : Issue) (w : Wave) (before : List Instr) (i : Instr) (l : Nat) : Bool :=
  let held := c.holds.any fun x => x.1 == l && match x.2 with | .fe _ | .feMate _ | .word _ => true | _ => false
  let gated := c.holds.any fun x => x.1 == l && match x.2 with | .rkwait _ _ _ | .word _ => true | _ => false
  match i with
  | .rkflip _ _ => held || !(s.threadClear w l .gang)
  | .sigdec _ _ => held || gated || !(s.threadClear w l .sys)
  | .nrec _ _ => held || gated || !(s.threadClear w l .pkg)
  | .rkwait _ _ _ => before.any (fun j => ordRel (Instr.ord j)) && (held || !(s.relsDone w l .gang))
  | .eret => c.frames.lookup l == some none
  | i => i.info.pipe == some .mem && gated ||
      Instr.enqueues i && before.any (fun j => ordAcq (Instr.ord j)) && (held || !(s.acqsDone w l))

/-- A word of the chain put off: its threads are held until it is performed, with the registers it reads as the chain read
them. -/
def State.putOff (s : State) (c : Issue) (w : Wave) (i : Instr) : State :=
  let (inst, t) := s.newId
  let rs := (i.info.src ++ i.info.dst).eraseDups
  t.modCur fun d => { d with holds := d.holds ++ (lanesOf c.acting).map fun l =>
    (l, .word { inst, word := c.word, i, pos := c.pos, pc := c.pc, regs := rs.map fun r => (r, w.reg s.fresh l r), fmode := w.fmode }) }

/-- The words of a chain before position `n`. -/
def wordsBefore (words : List Word) (n : Nat) : List Instr := (words.take n).filterMap fun x => (decodeSlot x).map Slot.i

/-- The effects of one word of the chain, or its wait for those of earlier slots, which its whole group has then in common
(notes/assumptions/80.md). -/
def State.actOne (pc : DWord) (words : List Word) (s : State) (x : Nat × Word) : State :=
  match decodeSlot x.2 with
  | none => s
  | some sl =>
    let others := (words.zipIdx.filter fun y => y.2 != x.1).filterMap fun y => (decodeSlot y.1).map Slot.i
    let s := s.atWord pc .act others x
    match s.cur.bind fun c => c.view.map fun w => (c, w) with
    | none => s
    | some (c, w) =>
      let now := (s.wave? c.wave).getD w
      if (lanesOf c.acting).any (s.follows c now (wordsBefore words x.1) sl.i) then s.putOff c w sl.i else s.execOr sl.i

/-- The effects of the words of a chain, those that come after the others last. Where two words step the generator of a thread,
the later slot's value stays, the rules naming none (notes/assumptions/65.md); of a WRITES to XSTAT and a word that raises
flags, the later slot's effect comes last (R100; notes/assumptions/81.md). -/
def State.actChain (s : State) (pc : DWord) (words : List Word) : State :=
  let xs := words.zipIdx.map fun x => (x.2, x.1)
  let late (x : Nat × Word) : Bool := (decodeSlot x.2).any fun sl => Instr.isLate sl.i
  (xs.filter (!late ·) ++ xs.filter late).foldl (State.actOne pc words) s

/-! ## The checks of a chain (R81) -/

/-- The frames that an ERET at position `n` restores from, as the chain's earlier words leave them (R249); none where a store of
theirs to the frame is still to be performed. -/
def State.readFrames (s : State) (pc : DWord) (words : List Word) (n : Nat) : State :=
  match s.cur.bind fun c => c.view.map fun w => (c, w) with
  | none => s
  | some (c, w) =>
    let t := ((words.take n).zipIdx.map fun x => (x.2, x.1)).foldl (State.actOne pc words) s
    let frames := (lanesOf c.acting).filterMap fun l =>
      if !(t.frameClear w l) then some (l, none) else ((t.readFrame w l).toOption).map fun f => (l, some f)
    s.modCur fun c => { c with frames }

/-- The checks of one word of the chain: a word that is no instruction raises ILLEGAL (R79). -/
def State.checkOne (pc : DWord) (words : List Word) (s : State) (x : Nat × Word) : State :=
  let s := s.atWord pc .check [] x
  match decodeSlot x.2 with
  | none => s.modCur fun c => c.raiseAll 2 1 x.1 x.2
  | some sl => (if Instr.isEret sl.i && x.1 != 0 then (s.readFrames pc words x.1).atWord pc .check [] x else s).execOr sl.i

/-- The grant of the wave that issues. -/
def State.curGrant (s : State) : Nat := ((s.cur.bind (·.view)).map Wave.grant).getD 0

/-- The first word with C = 1 of the group behind a head that is itself no instruction: it breaks R46 whatever the head holds
(R81). A head that is an instruction finds it by its own check (R114). -/
def State.badHeadBreak (s : State) (pc : DWord) (words : List Word) : Option Word :=
  match words, s.cur.bind (·.view) with
  | [x], some w =>
    if isSinkWord x && (decodeSlot x).isNone then
      match s.fetchRun w (x.toNat / 2 ^ 21 % 8 + 1) (nextWord pc) with
      | .ok ws => ws.find? fun y => y.getLsbD 31
      | .error _ => none
    else none
  | _, _ => none

/-- The checks of a chain in the order of R81. -/
def State.checkChain (s : State) (pc : DWord) (words : List Word) : State :=
  match chainBreak s.curGrant (pc.toNat / 4 % 4) 0 [] words, s.badHeadBreak pc words with
  | some (pos, x), _ => s.modCur fun c => c.raiseAll 1 3 pos x
  | none, some y => s.modCur fun c => c.raiseAll 1 3 0 y
  | none, none => words.zipIdx.foldl (fun s x => State.checkOne pc words s (x.2, x.1)) s

/-- A fetch that does not go on, in every thread of the group (R105, R274). -/
def Issue.stopAll (c : Issue) (v : Verdict) : Issue := (lanesOf c.lanes).foldl (fun c l => c.note l (0, v)) c

/-- The line at a program counter has been fetched: poison in it is reported once to the context's function, whether or not the
word is decoded (R274, R384). -/
def State.noteCode (s : State) (w : Wave) (pc : DWord) : State :=
  match s.access w .fetch (pc.toNat / 4 * 4) 4 with
  | .error _ => s
  | .ok pa => match s.poison.filter fun x => x / 16 == pa / 64 with
    | [] => s
    | x :: _ =>
      if s.codeErrs.contains (pa / 64) then s else
      State.record { s with codeErrs := pa / 64 :: s.codeErrs } (s.ctxOf (s.launchOf (s.gangOf w))).fn
        { addr := 4 * x, ctx := s.ctxId w % 2 ^ 16, kind := 0x83, die := (homeOf pa).getD 0, count := 1 }

/-- The lines of a chain, and of the schuss group behind a head (R113), have been fetched. -/
def State.noteFetch (s : State) (w : Wave) (pc : DWord) : Except Verdict (List Word) → State
  | .ok [x] => if isSinkWord x then (List.range 9).foldl (fun s i => s.noteCode w (skipWords i pc)) s else s.noteCode w pc
  | _ => s.noteCode w pc

/-- A chain started: a single word is one exec of the form it decodes to; a longer chain checks every word before any has an
effect (R45, R47). -/
def State.startChain (s : State) (w : Wave) (m : LaneMask) (pc : DWord) (x : Except Verdict (List Word)) :
    Host.Outcome State Fault Refusal :=
  let s := s.noteFetch w pc x
  match x with
  | .error v => .next ((s.openIssue w m pc []).modCur fun c => c.stopAll v).finishIssue
  | .ok words =>
    let s := s.openIssue w m pc words
    let rest := ((s.checkChain pc words).actChain pc words).finishIssue
    match words with
    | [x] =>
      match decodeSlot x with
      | some sl => if (chainBreak s.curGrant (pc.toNat / 4 % 4) 0 [] [x]).isNone then exec sl.i s else .next rest
      | none => .next rest
    | _ => .next rest

/-! ## PC groups (R16, R222, R223) -/

/-- May the thread issue at its word: no RKINIT holds it there (R309), no pre-emption request keeps it parked there (R269), the
accesses that an acquire half orders before have been performed (R107), and the W marker, if there is one, is satisfied (R34)? -/
def State.threadReady (s : State) (w : Wave) (mark : Bool) (l : Nat) : Bool :=
  let t := w.thread l
  t.parked.isNone && !t.kept &&
  s.acqsDone w l &&
  !(mark && w.outstanding l)

/-- A candidate (R222): its threads, those for which its chain can issue, its wait count and its chain. -/
structure Cand where
  pc    : DWord
  lanes : LaneMask
  ready : LaneMask
  count : Nat
  chain : Except Verdict (List Word)

/-- The threads of a PC group for which the chain can issue: none while a pause of the group lasts, whichever of its threads
executed it (R276); a commit under way is finished first (R262). -/
def State.readyLanes (s : State) (w : Wave) (m : LaneMask) (mark : Bool) : LaneMask :=
  if (lanesOf m).any fun l => (w.thread l).pause != 0 then 0 else
  let m := if (lanesOf m).any fun l => (w.thread l).commitDone then m &&& maskBy fun l => (w.thread l).commitDone else m
  m &&& maskBy (s.threadReady w mark)

/-- Can the chain be performed now by these threads, no word of it having to wait? -/
def State.chainReady (s : State) (w : Wave) (m : LaneMask) (pc : DWord) : Except Verdict (List Word) → Bool
  | .error _ => true
  | .ok words => match ((s.openIssue w m pc words).checkChain pc words).cur with
    | some c => c.waiting == 0
    | none => true

/-- Does a word wait for its thread's results: by its W marker (R34), or as if it had one (R36)? -/
def marksW (x : Word) : Bool :=
  x.getLsbD 30 || (decodeSlot x).any fun sl => match sl.i with | .exit | .eret => true | _ => false

/-- The candidate at one program counter. -/
def State.cand (s : State) (w : Wave) (pc : DWord) : Cand :=
  let m := maskBy fun l => (w.thread l).grouped && (w.thread l).pc == pc
  let x := s.chainAt w (slotsLeft pc) pc
  let mark := match x with | .ok ws => ws.any marksW | .error _ => false
  let r := s.readyLanes w (m &&& maskBy fun l => (w.thread l).running) mark
  { pc, lanes := m, ready := if r != 0 && s.chainReady w r pc x then r else 0
    count := (lanesOf m).foldl (fun n l => max n (w.thread l).count) 0, chain := x }

/-- A program counter put into a rising list without repeats. -/
def insertPc (a : DWord) : List DWord → List DWord
  | [] => [a]
  | b :: bs => if a.toNat < b.toNat then a :: b :: bs else if a == b then b :: bs else b :: insertPc a bs

/-- The program counters of a wave's PC groups, lowest first. -/
def Wave.pcs (w : Wave) : List DWord := ((w.threads.filter Thread.grouped).map (·.pc)).foldr insertPc []

/-- The candidates of a wave, lowest program counter first. -/
def State.cands (s : State) (w : Wave) : List Cand := w.pcs.map (s.cand w)

/-- The candidate with the largest wait count, the lowest program counter on a tie. -/
def longest (cs : List Cand) : Option Cand :=
  cs.foldl (fun b c => match b with
    | none => some c
    | some d => if d.count < c.count then some c else some d) none

/-- What R222 finds for a wave: its candidates, its lead, the one that would issue, and the count that makes it due. -/
structure Scan where
  wave  : Wave
  cands : List Cand
  lead  : Option Cand
  pick  : Option Cand
  due   : Option Nat

/-- The choice of R222 among a wave's candidates. Where the threads of the lead now stand in several groups, as after a JMP, CALLR or
RET with several targets, the one with the lowest program counter leads, the rules naming none (notes/assumptions/85.md). -/
def scanOf (w : Wave) (cs : List Cand) : Scan :=
  let lead := match cs.find? fun c => c.lanes &&& w.lead != 0 with | some c => some c | none => cs.head?
  let ready (o : Option Cand) : Option Cand := o.filter fun c => c.ready != 0
  if !w.prog then { wave := w, cands := cs, lead, pick := ready cs.head?, due := none } else
  let others := cs.filter fun c => c.ready != 0 && lead.all fun d => d.pc != c.pc
  match longest (others.filter fun c => 255 ≤ c.count) with
  | some c => { wave := w, cands := cs, lead, pick := some c, due := some c.count }
  | none =>
    match (if w.yieldGrp then longest others else none) with
    | some c => { wave := w, cands := cs, lead, pick := some c, due := none }
    | none => { wave := w, cands := cs, lead, pick := ready lead, due := none }

/-! ## The choice of a wave (R229) -/

/-- The head of the packet that holds a program counter (R41); one that cannot be fetched reads zero. -/
def State.headOf (s : State) (w : Wave) (pc : DWord) : Word :=
  match s.access w .fetch (pc.toNat / 16 * 16) 4 with
  | .ok pa => BitVec.ofNat 32 (lineNat (s.homeView (pa / 64)) (pa % 64) 4)
  | .error _ => 0

/-- YH and PRI of a head (R41). -/
def headYh (h : Word) : Bool := h.getLsbD 27
def headPri (h : Word) : Nat := h.toNat / 2 ^ 24 % 8

/-- The first element with the least key. -/
def leastBy {α : Type} (key : α → Int) (xs : List α) : Option α :=
  xs.foldl (fun b x => match b with
    | none => some x
    | some y => if key x < key y then some x else some y) none

/-- A wave's age stamp less 16 × PRI (R229). -/
def State.ageOf (s : State) (x : Scan) : Int :=
  (x.wave.age : Int) - 16 * ((x.pick.map fun c => headPri (s.headOf x.wave c.pc)).getD 0 : Nat)

/-- The oldest of the scans (R229); ties go to the first placed, in the order of the state's waves. -/
def State.oldest (s : State) (xs : List Scan) : Option Scan := leastBy s.ageOf xs

/-- Has the wave a candidate, not its lead, with a ready word (R229)? -/
def Scan.mayYield (x : Scan) : Bool := x.cands.any fun c => c.ready != 0 && x.lead.all fun d => d.pc != c.pc

/-- The choice of R229 among the eligible waves that launches have placed. Where wait counts and age stamps are both equal, which
no rule decides, the first of the state's waves is taken (notes/assumptions/87.md). -/
def State.choose (s : State) (xs : List Scan) : Option Scan :=
  let by_ (n : Scan → Nat) (ys : List Scan) : Option Scan :=
    leastBy (fun x => (x.wave.age : Int)) (ys.filter fun x => ys.all fun y => n y ≤ n x)
  let due := xs.filter fun x => x.due.isSome
  let aged := xs.filter fun x => 64 ≤ x.wave.wait
  if !due.isEmpty then by_ (fun x => x.due.getD 0) due
  else if !aged.isEmpty then by_ (fun x => x.wave.wait) aged
  else match xs.find? fun x => x.wave.yieldTrk with
    | some v =>
      if v.mayYield then some v
      else if xs.length > 1 then s.oldest (xs.filter fun x => x.wave.id != v.wave.id)
      else some v
    | none => s.oldest xs

/-! ## The groomer's wave (R31, R211, R229; notes/assumptions/93.md) -/

/-- Is the groomer's wave of a track eligible: does its cluster's queue hold a request? -/
def State.groomerOn (s : State) (t : Nat) : Bool :=
  isGroomerTrack t && s.groom.any fun r =>
    r.src == t / 512 && homeOf r.addr == some r.src && Config.groomHash (r.addr / 64) % 16 == t / 32 % 16

/-- Is the groomer's wave chosen, the eligible waves of launches being `xs`? It is older than any of these; the PRI of its own
packets is open. -/
def State.groomerTurn (s : State) (t : Nat) (xs : List Scan) : Bool :=
  let wait := Map.get 0 s.groomWaits t
  let first (ys : List Scan) : Bool := (s.oldest ys).all fun y => -16 * (Config.freeChoice s.picks t 7 % 8 : Nat) ≤ s.ageOf y
  s.groomerOn t && xs.all (·.due.isNone) &&
    if decide (64 ≤ wait) || xs.any (64 ≤ ·.wave.wait) then decide (64 ≤ wait) && xs.all (·.wave.wait ≤ wait)
    else match xs.find? (·.wave.yieldTrk) with
      | some v => !v.mayYield && first (xs.filter fun x => x.wave.id != v.wave.id)
      | none => first xs

/-- The wait count of the groomer's wave after a cycle. -/
def State.groomTick (s : State) (t : Nat) (chosen : Bool) : State :=
  if s.groomerOn t then { s with groomWaits := Map.set 0 s.groomWaits t (if chosen then 0 else Map.get 0 s.groomWaits t + 1) }
  else s

/-! ## One cycle (R228) -/

/-- Does the wave issue: it is on a track, every core of its gang has been swept since it woke (R24, R387), its gang runs, and no
abort of it is due (R263, R269, R271, R373)? -/
def State.issuing (s : State) (w : Wave) : Bool :=
  w.track.isSome && !((s.wavesOf w.gang).any fun v => v.track.isSome && s.unswept.contains v.core) &&
    (s.gang? w.gang).any fun g => s.gangOn g && g.due.isNone

/-- The waves of a track that may issue. -/
def State.trackWaves (s : State) (t : Nat) : List Wave :=
  (s.waves.filter fun w => w.track == some t && s.issuing w).map s.parkFar

/-- The counts after a cycle in which `picked` issues, if any does: of the candidates (R222), of the pauses (R276), of the
waves (R229); the hints of the cycle before are used up. -/
def Scan.tick (x : Scan) (chosen : Bool) (picked : Option Cand) : Wave :=
  let w := x.wave
  let up := maskBy fun l => x.cands.any fun c =>
    c.ready != 0 && c.lanes.getLsbD l && !(chosen && picked.any fun d => d.pc == c.pc)
  let mine := if chosen then (picked.map (·.lanes)).getD 0 else 0
  let top (l : Nat) : Nat := ((x.cands.find? fun c => c.lanes.getLsbD l).map (·.count)).getD 0
  { w with
    threads := w.threads.mapIdx fun l t =>
      { t with count := if mine.getLsbD l then 0 else if up.getLsbD l && w.prog then top l + 1 else t.count
               pause := t.pause - 1 }
    lead := (x.lead.map (·.lanes)).getD 0
    wait := if chosen then 0 else if x.pick.isSome then w.wait + 1 else w.wait
    yieldTrk := false
    yieldGrp := false }

/-- The cycle counter of the track's core has counted on, by cycles whose number the rules leave open (R99, R295;
notes/assumptions/17.md). -/
def State.countCycles (s : State) (core : Nat) : State :=
  { s with coreCycle := Map.set 0#32 s.coreCycle core (Map.get 0#32 s.coreCycle core + Config.freeCycle s.cycle core) }

/-- A candidate of a scan starts its chain. A chain from a head with YH yields, of the wave's lead to another group (R222),
and of the wave to another (R229). -/
def State.issueCand (s : State) (x : Scan) (c : Cand) : Host.Outcome State Fault Refusal :=
  let s := s.countCycles x.wave.core
  let yh := headYh (s.headOf x.wave c.pc)
  let s := s.modWave x.wave.id fun w =>
    { w with yieldTrk := yh, yieldGrp := yh && x.lead.any fun d => d.pc == c.pc }
  match s.wave? x.wave.id with
  | none => .next s
  | some w => s.startChain w c.ready c.pc c.chain

/-! ## Words performed late (R197) -/

/-- Is what a late word follows performed in this thread? An access waits by its own check. -/
def State.lateMay (s : State) (w : Wave) (i : Instr) (l : Nat) : Bool :=
  match i with
  | .rkflip _ _ => s.threadClear w l .gang
  | .rkwait _ _ _ => s.relsDone w l .gang
  | i => !(Instr.enqueues i) || s.acqsDone w l

/-- The late words that the threads of a wave stand at, each of the whole group that issued it. -/
def Wave.lateWords (w : Wave) : List LateWord :=
  let at_ := w.threads.filterMap fun t => match t.hold? with | some (.word x) => some x | _ => none
  let ahead (x : LateWord) : Bool := w.threads.any fun t => t.todo.any fun a => match a with
    | .hold (.word y) => y.inst == x.inst
    | _ => false
  at_.filter fun x => !ahead x && (at_.find? fun y => y.inst == x.inst) == some x

/-- The wave as a late word sees it: the registers and FMODE that its chain read. -/
def Wave.lateView (w : Wave) (x : LateWord) : Wave :=
  { w with
    fmode := x.fmode
    s := (x.regs.foldl Wave.putUni w).s
    pend := w.pend.map fun p => { p with vals := [] }
    threads := w.threads.map fun t => match t.hold? with
      | some (.word y) => if y.inst == x.inst then t.putAll y.regs else t
      | _ => t }

/-- The threads of a late word after it: they go on, at what it has found to wait for or at what their chain still asks of them;
a translation fault holds them before the word. -/
def Wave.lateDone (w : Wave) (x : LateWord) (c : Issue) (n : Nat) : Wave :=
  let clob (l : Nat) : List Reg := match (w.thread l).hold? with | some (.word y) => y.clob | _ => []
  let rest (l : Nat) : List After := (c.rest l).map fun a => match a with
    | .hold h => .hold ((clob l).foldl (fun h r => h.clobber r) h)
    | a => a
  let w := { w with pend := w.pend.map fun (p : Pending) => match p.lane with
    | some l => if n ≤ p.id then p.mark (clob l) else p
    | none => p }
  w.mapLanes c.lanes fun l t =>
    match c.xlates.lookup l with
    | some f => { t with st := .held (.xlate f.page f.frame), todo := .hold (.word { x with clob := clob l }) :: t.todo }
    | none =>
      if c.acting.getLsbD l then { t with pc := (c.targets.lookup l).getD t.pc, todo := rest l ++ t.todo }.goOn
      else { t with st := .run, todo := [] }

/-- A late word performed: its checks again, then its effects, in every thread of its group; or none while it waits. -/
def State.runLate (s : State) (wid : Nat) (x : LateWord) : Option State :=
  match s.wave? wid with
  | none => none
  | some w =>
    let m := w.heldBy fun h => match h with | .word y => y.inst == x.inst | _ => false
    if !((lanesOf m).all (s.lateMay w x.i)) then none else
    let c : Issue :=
      { wave := wid, lanes := m, pc := x.pc, word := x.word, pos := x.pos, wordPc := x.pc + BitVec.ofNat 64 (4 * x.pos)
        nextPc := x.pc, phase := .check, view := some (w.lateView x) }
    (State.execOr { s with cur := some c } x.i).cur.bind fun c =>
      if c.waiting != 0 then none else
      let t := State.execOr { s with cur := some { c with phase := .act, commits := 0 } } x.i
      t.cur.map fun c =>
        let t := State.modWave { t with cur := none } wid fun v => v.lateDone x c s.nextId
        let t := c.xlates.foldl (fun t y => t.faultOn (t.ctxId w) y.2.page y.2.kind 1) t
        (((t.takeTraps wid c.taken).modWave wid Wave.fixLead).freshen).settle w.gang

/-- The late words of a track's waves are performed where they no longer wait. -/
def State.lateTrack (s : State) (t : Nat) : State :=
  (s.waves.filter fun w => w.track == some t).foldl (fun (s : State) w =>
    w.lateWords.foldl (fun s x => (s.runLate w.id x).getD s) s) s

/-- Does one of them wait no longer? -/
def State.lateDue (s : State) (t : Nat) : Bool :=
  s.waves.any fun w => w.track == some t && w.lateWords.any fun x => (s.runLate w.id x).isSome

/-! ## The cycle -/

/-- The scans of a track. -/
def State.scans (s : State) (t : Nat) : List Scan := (s.trackWaves t).map fun w => scanOf w (s.cands w)

/-- One cycle of a track, `forced` naming a wave and threads of a candidate that an event has made due (R222, R229). Words that
have waited for earlier slots of their chain are performed first (R197), and threads whose wait for their chain's results is over
leave it (R36). Where the groomer's wave is chosen, no other of the track issues. -/
def State.trackCycle (s : State) (t : Nat) (forced : Option (Nat × LaneMask)) : Host.Outcome State Fault Refusal :=
  let s := (s.lateTrack t).leaveTrack t
  let xs := s.scans t
  let ready := xs.filter fun x => x.pick.isSome
  let groomer := forced.isNone && s.groomerTurn t ready
  let chosen := match forced with
    | some (wid, _) => xs.find? fun x => x.wave.id == wid
    | none => if groomer then none else s.choose ready
  let picked := chosen.bind fun x => match forced with
    | some (_, m) => if m == 0 then x.pick else x.cands.find? fun c => c.ready != 0 && c.lanes &&& m != 0
    | none => x.pick
  let s := (xs.foldl (fun s x =>
    s.modWave x.wave.id fun _ => x.tick (chosen.any fun y => y.wave.id == x.wave.id) picked) s).groomTick t groomer
  match chosen, picked with
  | some x, some c => s.issueCand x c
  | _, _ => .next s

/-- Does a wave of the track issue, a thread leave its wait, a late word run or an XACQ complete in its next cycle? -/
def State.eligible (s : State) (t : Nat) : Bool :=
  (s.scans t).any (fun x => x.pick.isSome) ||
    s.waves.any (fun w => w.track == some t && (List.range 32).any w.mayLeave) || s.lateDue t || (s.servable t).isSome

/-- The tracks that hold waves. -/
def State.usedTracks (s : State) : List Nat := (s.waves.filterMap (·.track)).eraseDups

end Sys2Proof.Machine
end

