-- ==== Sys2Proof/Machine/Sequence.lean ====
section
/-! DEFINITION. What the machine does next (notes/assumptions/2.md): an event that has made a candidate due, else the next
of the state's inputs, else, in turn, an autonomous event or a cycle of a track that has an eligible wave. -/

namespace Sys2Proof.Machine

/-- Is the instruction a word (an event has no encoding)? -/
def isWord (i : Instr) : Bool := (encode i).isSome

/-- One cycle of the track of a wave whose candidate is due (R222, R229). -/
def State.runForced (s : State) (f : Nat × LaneMask) : Host.Outcome State Fault Refusal :=
  match (s.wave? f.1).bind (·.track) with
  | some t => s.trackCycle t (some f)
  | none => .next s

/-- One input: an event happens, or a track has a cycle. A word is no input: only a track issues one. -/
def State.runInput (s : State) (i : Input) : Host.Outcome State Fault Refusal :=
  match i with
  | .event e => if isWord e then .next s else exec e s
  | .track t => s.trackCycle t none

/-- The track whose wave issues next: the first eligible one after the track that issued last. -/
def State.nextTrack (s : State) : Option Nat :=
  let ts := s.usedTracks.filter s.eligible
  let low (xs : List Nat) : Option Nat := leastBy (fun t => (t : Int)) xs
  match low (ts.filter fun t => decide (s.turn.track < t)) with
  | some t => some t
  | none => low ts

/-! ## The events that the machine makes by itself

Each list names what may happen; one that is not enabled changes nothing, and `runAlone` passes it over. -/

/-- What the machine can do by itself: the meaning of an event. -/
abbrev Own := State → Host.Outcome State Fault Refusal

/-- Of waves: results that land. -/
def State.landEvents (s : State) : List Own := s.waves.flatMap fun w => w.pend.map fun p => execResultLanding w.id p.id

/-- Of waves: traps that wait for their turn, pauses that end. -/
def State.waveEvents (s : State) : List Own :=
  s.waves.flatMap fun w =>
    execTrapEntry w.id :: ((List.range 32).filter fun l => (w.thread l).pause != 0).map (execPauseExpiry w.id)

/-- Of the storage: schuss groups, merging fills, far atomics. -/
def State.storageEvents (s : State) : List Own :=
  (s.sunk.map fun g => execSchussGroupRun g.id none none) ++ (s.fills.map fun f => execHomeReadServe f.id) ++
    (s.fills.map fun f => execMergingFillArrival f.id) ++ s.groom.map fun r => execGroomerAtomic r.id

/-- Of the fabric. -/
def State.fabricEvents (s : State) : List Own :=
  (s.flows.flatMap fun f =>
    f.flight.map (fun x => execFlitArrival f.cls f.src f.dst x.seq) ++ f.refused.map (fun x => execFlitRetransmit f.cls f.src f.dst x.seq)) ++
  (List.range 8).flatMap fun a => (List.range 8).flatMap fun b =>
    if a == b then [] else [execPublishedWriteApply a b, execClockMarker a b]

/-- Of a lift queue: the entry it is at. -/
def entryEvents (gang q : Nat) : List Own :=
  [execEndEntry gang q, execCopyEntry gang q, execGatherEntry gang q, execScatterEntry gang q, execTransqEntry gang q, execReduceEntry gang q,
   execAllgatherEntry gang q, execLoopEntry gang q, execIfEntry gang q, execWaitphEntry gang q, execFlipEntry gang q, execSigdecEntry gang q,
   execQfenceEntry gang q]

/-- Of a command of the tile scheduler. -/
def tileEvents (gang i : Nat) : List Own :=
  [execTileTaskComplete gang i, execMmaTask gang i, execMmagTask gang i, execEpiTask gang i, execZeroTask gang i, execDeltaUpdateRun gang i,
   execDeltaQueryRun gang i, execSpillImageWrite gang i, execSpillImageFill gang i]

/-- The places of a gang: a cluster and its first core. -/
def places : List (Nat × Nat) := (List.range 128).flatMap fun c => (List.range 4).map fun k => (c, k)

/-- Of a gang: its engines, its end, its eviction and its resumption. -/
def State.gangEvents (s : State) : List Own :=
  s.gangs.flatMap fun g =>
    (List.range 4).flatMap (entryEvents g.id) ++ g.tileQ.flatMap (fun c => tileEvents g.id c.seq) ++ [execBinningRun g.id] ++
      g.tidOps.map (fun o => execTidsetPerform g.id o.seq) ++ g.rkOps.map (fun o => execRkinitPerform g.id o.seq) ++
      [execGangRetire g.id, execGangRerun g.id, execGangResourceFree g.id, execGangEvict g.id] ++
      (if g.place.isNone then places.map fun p => execGangResume g.id p.1 p.2 else [])

/-- Of a launch: its start, its gangs, its shape, its nodes, its end. -/
def State.launchEvents (s : State) : List Own :=
  (s.queues.flatMap fun q => [execKernelPacket q.id, execGraphPacket q.id, execBarrierAndPacket q.id]) ++
  s.launches.flatMap fun l =>
    [execPacketStart l.id, execShapeApply l.id, execLaunchCompletion l.id] ++
      (match l.graph with
        | some g => (List.range g.nodes.length).flatMap fun n =>
            [execGridNodeLaunch l.id n, execBinGangLaunch l.id n, execBinTimer l.id n]
        | none => []) ++
      (if l.todo.isEmpty then [] else
        (s.states.flatMap fun r => (List.range 128).map (execStateMove r.ctx r.handle)) ++
          places.map fun p => execGangPlacement l.id p.1 p.2)

/-- Of the supervisor: a submitted command, an invalidation's end, a record's delivery. -/
def State.viEvents (s : State) : List Own :=
  (List.range s.tlbInvs.length).map execTlbInvComplete ++ s.vis.flatMap fun v =>
    [execSetContext v.fn, execRegQueue v.fn, execUnregQueue v.fn, execRegPredictor v.fn, execRegCollective v.fn, execSetWatchdog v.fn, execTlbInv v.fn,
     execFaultReply v.fn, execResetVi v.fn, execRegEvents v.fn, execAttest v.fn, execEventRecordDrain v.fn]

/-- What is under way in the storage, the fabric and the register files. -/
def State.flowEvents (s : State) : List Own := s.landEvents ++ s.storageEvents ++ s.fabricEvents

/-- What the other units do. -/
def State.unitEvents (s : State) : List Own := s.unswept.map execCoreWakeSweep ++ s.waveEvents ++ s.gangEvents ++ s.launchEvents ++ s.viEvents

/-- The first of the events, from the `n`-th on, that changes something, with its place. -/
def State.firstEvent (s : State) (n : Nat) (es : List Own) : Option (Own × Nat) :=
  let xs := es.zipIdx
  (xs.drop n ++ xs.take n).find? fun e => match e.1 s with | .next t => t != s | _ => false

/-- With no input: what is under way first, but in every 64th step; then a track and an event of another unit by turns; with
nothing to do, a cycle passes. -/
def State.runAlone (s : State) : Host.Outcome State Fault Refusal :=
  let n := s.turn.step + 1
  let s := { s with turn := { s.turn with step := n } }
  let all := n % 64 == 0
  match (if all then none else s.firstEvent 0 s.flowEvents) with
  | some e => e.1 s
  | none =>
    let ev := s.firstEvent s.turn.event (if all then s.unitEvents ++ s.flowEvents else s.unitEvents)
    let own (e : Own × Nat) : Host.Outcome State Fault Refusal :=
      e.1 { s with turn := { s.turn with event := e.2 + 1, other := false } }
    let issue (t : Nat) : Host.Outcome State Fault Refusal :=
      State.trackCycle { s with turn := { s.turn with track := t, other := true } } t none
    match s.turn.other, s.nextTrack, ev with
    | false, some t, _ => issue t
    | _, _, some e => own e
    | true, some t, none => issue t
    | _, none, none => .next s

end Sys2Proof.Machine
end

