-- ==== Sys2Proof/Machine/Step.lean ====
section
/-! DEFINITION. One step of the machine, and the state in which the next step fetches and runs a given word. -/

namespace Sys2Proof.Machine

/-- One step: the cycle counter advances, then what is due, the next input, or what the machine does by itself
(notes/assumptions/2.md). -/
def step (s : State) : Host.Outcome State Fault Refusal :=
  let s := { s with cycle := s.cycle + 1 }
  match s.forced, s.inputs with
  | some f, _ => State.runForced { s with forced := none } f
  | none, i :: is => State.runInput { s with inputs := is } i
  | none, [] => s.runAlone

/-- The launch of the one-wave kernel that withFetchWord loads: every feature declared, not versioned, the largest
register request, no scratchpad. -/
def fetchLaunch (s : State) : Launch :=
  { id := s.nextId + 1, ctx := s.nextId, started := true, placed := true, hdr := { features := 0x7F, regs := 96 } }

/-- Its one wave, on track 0, every thread at the code. -/
def fetchWave (s : State) : Wave :=
  { id := s.nextId + 3, gang := s.nextId + 2, track := some 0, grant := 96, lead := BitVec.allOnes 32, age := s.cycle
    threads := List.replicate 32 { pc := 0x10004 } }

/-- The state in which the very next step fetches and runs the word `w`: a context whose page table (at 0x8000) maps the
first 512 GiB onto themselves, and a gang of one wave at 0x10004 that holds the word (notes/assumptions/1.md). A row with no
bits is an event, and nothing fetches it. -/
def State.withFetchWord (s : State) (nbits w : Nat) : State :=
  let m := Memory.writeNat (Memory.writeNat s.mem 0x8000 8 0x1F) 0x10000 16 (w % 2 ^ nbits * 2 ^ 32)
  { s with
    mem := m
    sect := s.sect.filter fun x => x.line != 0x200 && x.line != 0x400
    ctxs := { id := s.nextId, fn := 0, root := 0x8000 } :: s.ctxs
    launches := fetchLaunch s :: s.launches
    gangs := { id := s.nextId + 2, launch := s.nextId + 1, place := some (0, 0) } :: s.gangs
    waves := fetchWave s :: s.waves
    nextId := s.nextId + 4
    forced := some (s.nextId + 3, 0) }

end Sys2Proof.Machine
end

