-- ==== Sys2Proof/Safety.lean ====
section
/-! DEFINITION. The terms in which claims about the machine are stated: a step that answers; a single word about to be
issued; what the end of an issue may change besides the word's own effect (the release of held threads, R223); and the
frame of a word: what it leaves alone. -/

namespace Sys2Proof.Machine

/-- The machine goes on: no fault, no refusal. -/
def Goes (o : Host.Outcome State Fault Refusal) : Prop := ∃ t, o = .next t

/-- Memory and the scratchpad of every gang are in their canonical form. -/
def MemOk (s : State) : Prop := Memory.wf s.mem = true ∧ ∀ g ∈ s.gangs, Memory.wf g.spad = true

/-! ## A word about to be issued -/

/-- A wave `w` issues the single word of `c` in the threads of its lanes, as a track opens it (R45): nothing has been found
or done yet, and every one of those threads runs. -/
structure Issuing (s : State) (c : Issue) (w : Wave) : Prop where
  cur    : s.cur = some c
  wave   : s.wave? c.wave = some w
  single : c = { wave := w.id, lanes := c.lanes, pc := c.pc, word := c.word, wordPc := c.wordPc, nextPc := c.nextPc,
                 view := some w }
  lanes  : c.lanes ≠ 0
  runs   : ∀ l, c.lanes.getLsbD l = true → (w.thread l).st = .run

/-- The gang's role, features and grant allow the word (R29, R78, R81). -/
def Allowed (s : State) (i : Instr) (w : Wave) : Prop := s.groupCause i w = none ∧ illReg i w = false

/-! ## The release of held threads (R223) -/

/-- What a held thread waits for: its hold, or one that its last chain still asks of it (R47). The wait for the results of
that chain (R36) is none of them. -/
def Thread.waits (t : Thread) (h : Hold) : Prop :=
  h ≠ .leave ∧ (t.st = .held h ∨ (∃ x, t.st = .held x) ∧ After.hold h ∈ t.todo)

/-- A held thread may have been released from its hold, and then from those that its last chain still asked of it; nothing
else of a thread changes. -/
inductive ThreadKept : Thread → Thread → Prop
  | same (t : Thread) : ThreadKept t t
  | release {t t' : Thread} {h : Hold} : t.st = .held h → h ≠ .leave → ThreadKept { t with count := 0 }.goOn t' → ThreadKept t t'

/-- Some thread of a wave with this number waits for a hold that satisfies `p`. -/
def State.holding (s : State) (id : Nat) (p : Hold → Prop) : Prop :=
  ∃ v ∈ s.waves, v.id = id ∧ ∃ l h, (v.thread l).waits h ∧ p h

/-- A hold that waits on full-empty granules; an XACQ; WAITM. -/
def Hold.isFe : Hold → Prop
  | .fe _ => True
  | _ => False
def Hold.isXacq : Hold → Prop
  | .xacq _ _ => True
  | _ => False

/-- What the release of held threads may change in a wave: those threads, the own bits of threads that wait at a WAITK, the
monitor of threads that wait at a WAITM, a grant that an XACQ waits for, with the registers newly granted set to zero (R28),
and the results of full-empty loads. -/
structure WaveKept (s : State) (v v' : Wave) : Prop where
  rest    : v' = { v with grant := v'.grant, k := v'.k, monitor := v'.monitor, pend := v'.pend, threads := v'.threads }
  length  : v'.threads.length = v.threads.length
  threads : ∀ l, ThreadKept (v.thread l) { v'.thread l with v := (v.thread l).v }
  regs    : ∀ l, (v'.thread l).v =
      if v'.grant = v.grant then (v.thread l).v else (v.thread l).v.filter fun x => x.1 < v.grant
  masks   : ∀ k l, v'.kbit k l = v.kbit k l ∨ ((v.thread l).waits (.waitk k) ∧ v'.kbit k l = false)
  monitor : v'.monitor = v.monitor ∨ (v'.monitor = none ∧ ∃ l, (v.thread l).waits .waitm)
  grant   : v.grant ≤ v'.grant ∧ (v'.grant = v.grant ∨ s.holding v.id Hold.isXacq)
  pend    : ∃ ps, v'.pend = v.pend ++ ps ∧ (ps = [] ∨ s.holding v.id Hold.isFe)

/-- What it may change in a gang: bytes and granules of the scratchpad that a full-empty access of a held thread waits
for. -/
def GangKept (s : State) (g g' : Gang) : Prop :=
  g' = { g with spad := g'.spad, spadPoison := g'.spadPoison, full := g'.full } ∧
    (g' = g ∨ ∃ v ∈ s.waves, v.gang = g.id ∧ ∃ l h, (v.thread l).waits h ∧ Hold.isFe h)

/-- What the release of held threads may change. -/
structure Settled (s t : State) : Prop where
  rest  : t = { s with waves := t.waves, gangs := t.gangs, fresh := t.fresh, picks := t.picks, nextId := t.nextId }
  waves : List.Forall₂ (WaveKept s) s.waves t.waves
  gangs : List.Forall₂ (GangKept s) s.gangs t.gangs

/-! ## The frame of a word -/

/-- An outstanding result that a word leaves outstanding: only what it notes of other writes differs (R35). -/
def PendingKept (p p' : Pending) : Prop := p' = { p with clob := p'.clob, seen := p'.seen }

/-- The end of an issue, which releases held threads (R223): `u` is the state with the word's effect on everything but its
wave, `w1` the wave with the word's effect, `t` and `w'` are what the step answers. -/
structure Ended (u : State) (w1 : Wave) (t : State) (w' : Wave) : Prop where
  rest   : t = { u with cur := none, waves := t.waves, gangs := t.gangs, fresh := t.fresh, picks := t.picks, nextId := t.nextId }
  gangs  : List.Forall₂ (GangKept u) u.gangs t.gangs
  mine   : t.wave? w1.id = some w'
  kept   : WaveKept u w1 w'
  others : ∀ id v, id ≠ w1.id → u.wave? id = some v → ∃ v', t.wave? id = some v' ∧ WaveKept u v v'

/-- What a word issued by the threads of `c` leaves alone, `u` being the state with the word's effect on storage and units
(the state before it, where the word has none): all storage, engines, launches, contexts and interfaces; every gang and
every other wave, but for the release of held threads; the threads that did not issue, but for the same; the wave's mode and
trap registers, its role and place. `w'` is the issuing wave afterwards. -/
structure WordFrame (u : State) (c : Issue) (w : Wave) (t : State) (w' : Wave) : Prop where
  rest    : t = { u with cur := none, waves := t.waves, gangs := t.gangs, fresh := t.fresh, picks := t.picks, nextId := t.nextId }
  gangs   : List.Forall₂ (GangKept u) u.gangs t.gangs
  mine    : t.wave? w.id = some w'
  others  : ∀ id v, id ≠ w.id → u.wave? id = some v → ∃ v', t.wave? id = some v' ∧ WaveKept u v v'
  own     : w' = { w with grant := w'.grant, s := w'.s, k := w'.k, xstat := w'.xstat, monitor := w'.monitor, pend := w'.pend,
                          lead := w'.lead, yieldTrk := w'.yieldTrk, yieldGrp := w'.yieldGrp, threads := w'.threads }
  there   : ∀ l, c.lanes.getLsbD l = false → ThreadKept (w.thread l) { w'.thread l with v := (w.thread l).v }
  grant   : w.grant ≤ w'.grant ∧ (w'.grant = w.grant ∨ u.holding w.id Hold.isXacq)
  monitor : w'.monitor = w.monitor ∨ (w'.monitor = none ∧ ∃ l, (w.thread l).waits .waitm)
  pend    : ∀ p ∈ w.pend, ∃ p' ∈ w'.pend, PendingKept p p'

/-- The threads of `c` go on at the word after it, with every field but their registers and generators as before (R39). -/
def GoOn (c : Issue) (w w' : Wave) : Prop :=
  ∀ l, c.lanes.getLsbD l = true → w'.thread l =
    { w.thread l with pc := c.nextPc, count := 0, commitDone := false, v := (w'.thread l).v, gen := (w'.thread l).gen }

/-- No generator is stepped. -/
def GenKept (c : Issue) (w w' : Wave) : Prop := ∀ l, c.lanes.getLsbD l = true → (w'.thread l).gen = (w.thread l).gen

/-- The own bits of k0 to k11 in every lane are as before, but for those of threads released from a WAITK (R241). -/
def MaskKept (w w' : Wave) : Prop :=
  ∀ k l, w'.kbit k l = w.kbit k l ∨ ((w.thread l).waits (.waitk k) ∧ w'.kbit k l = false)

/-- A register that the release of an XACQ has newly granted to the wave: it reads zero (R28). -/
def Granted (w w' : Wave) (l : Nat) (r : Reg) : Prop :=
  w.grant < w'.grant ∧ aboveGrant w.grant r = true ∧ w'.raw l r = 0

/-- Every register of every lane is as before, but for those of `ds` and those newly granted (R28). -/
def RegsKept (w w' : Wave) (ds : List Reg) : Prop := ∀ l r, r ∉ ds → w'.raw l r = w.raw l r ∨ Granted w w' l r

end Sys2Proof.Machine
end

