-- ==== Sys2Proof/Certificates/Slice0/Obligations.lean ====
section
/-! DEFINITION. The statements for the provers. The terms they share stand first, in Sys2Proof.Claims: what a register of a
lane reads, what a word writes, and, for the families of one shape, each form's result written out from its row of the
spec. -/

namespace Sys2Proof.Claims

open Sys2Proof.Machine

/-! ## Reading and writing registers -/

/-- What register `r` reads in lane `l` for the word the wave issues (R34, R35, R82). -/
abbrev rd (s : State) (w : Wave) (l : Nat) (r : Reg) : Word := w.reg s.fresh l r

/-- The 64-bit value of the pair at `r` (R50, R85). -/
def rd64 (s : State) (w : Wave) (l : Nat) (r : Reg) : DWord :=
  rd s w l (Reg.ofNat (r.toNat + 1)) ++ rd s w l r

/-- The two registers of a pair with the halves of a 64-bit value, the low one first (R50). -/
def pairWrites (r : Reg) (x : DWord) : List (Reg × Word) :=
  [(r, x.extractLsb' 0 32), (Reg.ofNat (r.toNat + 1), x.extractLsb' 32 32)]

/-- The registers after a word that writes `ws l` in lane `l`: each issuing thread its v registers, the lowest one the
wave's uniform registers (R51, R82); every other register as before, but for those that the release of an XACQ newly grants
(R28); s31 reads zero (R49). -/
def Wrote (c : Issue) (w w' : Wave) (ws : Nat → List (Reg × Word)) : Prop :=
  ∀ l r, w'.raw l r =
    (match r with
    | .v _ => if c.lanes.getLsbD l = true then ((ws l).lookup r).getD (w.raw l r) else w.raw l r
    | .s n => if n = 31 then 0 else ((ws (lowest c.lanes)).lookup r).getD (w.raw l r)) ∨ Granted w w' l r

/-- The lanes that compute: the lowest alone where the destination is uniform (R51). -/
def lanesFor (d : Reg) (c : Issue) : List Nat := if d.isUni then [lowest c.lanes] else lanesOf c.lanes

/-- XSTAT gains exactly the flags that some computing lane raises (R84, R137). -/
def Raised (d : Reg) (c : Issue) (w w' : Wave) (f : Nat → Flags) : Prop :=
  ∀ b, w'.xstat.getLsbD b = (w.xstat.getLsbD b || (lanesFor d c).any fun l => (f l).getLsbD b)

/-- The frame of a word that only writes registers: storage, units, other waves and threads (WordFrame), the pc of its
threads, masks and generators. -/
def RegisterWord (s : State) (c : Issue) (w : Wave) (t : State) (w' : Wave) : Prop :=
  WordFrame s c w t w' ∧ GoOn c w w' ∧ GenKept c w w' ∧ MaskKept w w'

/-! ## Results, row by row -/

/-- The two-source forms that raise no flag (R83, R86, R87, R88): destination, sources, result. -/
def twoSource : Instr → Option (Reg × Reg × Reg × (Word → Word → Word))
  | .add d a b => some (d, a, b, fun x y => BitVec.ofInt 32 (x.toInt + y.toInt))
  | .sub d a b => some (d, a, b, fun x y => BitVec.ofInt 32 (x.toInt - y.toInt))
  | .mullo d a b => some (d, a, b, fun x y => BitVec.ofNat 32 (x.toNat * y.toNat))
  | .mulhiI d a b => some (d, a, b, fun x y => (x.signExtend 64 * y.signExtend 64).extractLsb' 32 32)
  | .mulhiN d a b => some (d, a, b, fun x y => (x.setWidth 64 * y.setWidth 64).extractLsb' 32 32)
  | .minI d a b => some (d, a, b, fun x y => if x.toInt ≤ y.toInt then x else y)
  | .maxI d a b => some (d, a, b, fun x y => if x.toInt ≤ y.toInt then y else x)
  | .minN d a b => some (d, a, b, fun x y => if x.toNat ≤ y.toNat then x else y)
  | .maxN d a b => some (d, a, b, fun x y => if x.toNat ≤ y.toNat then y else x)
  | .absdI d a b => some (d, a, b, fun x y => if x.toInt ≤ y.toInt then y - x else x - y)
  | .absdN d a b => some (d, a, b, fun x y => if x.toNat ≤ y.toNat then y - x else x - y)
  | .avgN d a b => some (d, a, b, fun x y => ((x.setWidth 33 + y.setWidth 33 + 1) >>> 1).setWidth 32)
  | .and d a b => some (d, a, b, fun x y => x &&& y)
  | .or d a b => some (d, a, b, fun x y => x ||| y)
  | .xor d a b => some (d, a, b, fun x y => x ^^^ y)
  | .andn d a b => some (d, a, b, fun x y => x &&& ~~~y)
  | .orn d a b => some (d, a, b, fun x y => x ||| ~~~y)
  | .xnor d a b => some (d, a, b, fun x y => ~~~(x ^^^ y))
  | .nand d a b => some (d, a, b, fun x y => ~~~x ||| ~~~y)
  | .nor d a b => some (d, a, b, fun x y => ~~~x &&& ~~~y)
  | .shl d a b => some (d, a, b, fun x y => x <<< (y &&& 31#32))
  | .shr d a b => some (d, a, b, fun x y => x >>> (y &&& 31#32))
  | .sar d a b => some (d, a, b, fun x y => BitVec.ofInt 32 (x.toInt / 2 ^ (y.toNat % 32)))
  | .rol d a b => some (d, a, b, fun x y => (x <<< (y.toNat % 32)) ||| (x >>> (32 - y.toNat % 32)))
  | .ror d a b => some (d, a, b, fun x y => (x >>> (y.toNat % 32)) ||| (x <<< (32 - y.toNat % 32)))
  | .bfx d a b => some (d, a, b, fun x y =>
      let pos := y.toNat % 32
      let len := min (y.toNat / 256 % 64) 32
      let f := (x >>> pos) &&& (if len = 32 then BitVec.allOnes 32 else BitVec.ofNat 32 (2 ^ len - 1))
      if len = 0 then 0
      else if y.getLsbD 15 && f.getLsbD (len - 1) then f ||| ~~~(if len = 32 then BitVec.allOnes 32 else BitVec.ofNat 32 (2 ^ len - 1))
      else f)
  | _ => none

/-- The one-source forms and those with an immediate (R53, R88, R89): destination, source, result. -/
def oneSource : Instr → Option (Reg × Reg × (Word → Word))
  | .popc d a => some (d, a, fun x => BitVec.ofNat 32 ((List.range 32).filter fun i => x.getLsbD i).length)
  | .clz d a => some (d, a, fun x => if x = 0 then 32 else BitVec.ofNat 32 (31 - Nat.log2 x.toNat))
  | .ctz d a => some (d, a, fun x => if x = 0 then 32 else BitVec.ofNat 32 (Nat.log2 (x &&& -x).toNat))
  | .brev d a => some (d, a, fun x => x.reverse)
  | .bswap d a => some (d, a, fun x => x.extractLsb' 0 8 ++ x.extractLsb' 8 8 ++ x.extractLsb' 16 8 ++ x.extractLsb' 24 8)
  | .addi d a i => some (d, a, fun x => BitVec.ofInt 32 (x.toInt + i.toInt))
  | .andi d a i => some (d, a, fun x => x &&& i.signExtend 32)
  | .ori d a i => some (d, a, fun x => x ||| i.signExtend 32)
  | .xori d a i => some (d, a, fun x => x ^^^ i.signExtend 32)
  | .muli d a i => some (d, a, fun x => BitVec.ofInt 32 (x.toInt * i.toInt))
  | .shi d a .shl n => some (d, a, fun x => x <<< n)
  | .shi d a .shr n => some (d, a, fun x => x >>> n)
  | .shi d a .sar n => some (d, a, fun x => BitVec.ofInt 32 (x.toInt / 2 ^ n.toNat))
  | .shi d a .rol n => some (d, a, fun x => (x <<< n.toNat) ||| (x >>> (32 - n.toNat)))
  | .li d i => some (d, d, fun _ => i.signExtend 32)
  | .lih d i => some (d, d, fun x => i ++ x.extractLsb' 0 15)
  | _ => none

/-- The forms that read d as a third source (R87, R88, R160, R165): destination, sources, result of D, A and B. -/
def threeSource : Instr → Option (Reg × Reg × Reg × (Word → Word → Word → Word))
  | .fshl d a b => some (d, a, b, fun z x y => ((z ++ x) <<< (y.toNat % 32)).extractLsb' 32 32)
  | .fshr d a b => some (d, a, b, fun z x y => ((x ++ z) >>> (y.toNat % 32)).extractLsb' 0 32)
  | .bfi d a b => some (d, a, b, fun z x y =>
      let m : Word := if min (y.toNat / 256 % 64) 32 = 32 then BitVec.allOnes 32
        else BitVec.ofNat 32 (2 ^ min (y.toNat / 256 % 64) 32 - 1)
      (z &&& ~~~(m <<< (y.toNat % 32))) ||| ((x &&& m) <<< (y.toNat % 32)))
  | .dp4I8 d a b => some (d, a, b, fun z x y =>
      z + (x.extractLsb' 0 8).signExtend 32 * (y.extractLsb' 0 8).signExtend 32 +
        (x.extractLsb' 8 8).signExtend 32 * (y.extractLsb' 8 8).signExtend 32 +
        (x.extractLsb' 16 8).signExtend 32 * (y.extractLsb' 16 8).signExtend 32 +
        (x.extractLsb' 24 8).signExtend 32 * (y.extractLsb' 24 8).signExtend 32)
  | .pkb d a b => some (d, a, b, fun z x y => z.extractLsb' 0 16 ++ y.extractLsb' 0 8 ++ x.extractLsb' 0 8)
  | _ => none

/-- The forms on pairs (R85): the pairs, and the result of A64 and B64. -/
def pairSource : Instr → Option (Reg × Reg × Reg × (DWord → DWord → DWord))
  | .add64 d a b => some (d, a, b, fun x y => x + y)
  | .sub64 d a b => some (d, a, b, fun x y => x - y)
  | .mul64 d a b => some (d, a, b, fun x y => x * y)
  | .min64 d a b => some (d, a, b, fun x y => if x.toInt ≤ y.toInt then x else y)
  | .max64 d a b => some (d, a, b, fun x y => if x.toInt ≤ y.toInt then y else x)
  | _ => none

/-- The shifts of pairs (R85): the pairs, the count's register, and the result of A64 and the count. -/
def pairShift : Instr → Option (Reg × Reg × Reg × (DWord → Nat → DWord))
  | .shl64 d a b => some (d, a, b, fun x n => x <<< n)
  | .shr64 d a b => some (d, a, b, fun x n => x >>> n)
  | .sar64 d a b => some (d, a, b, fun x n => BitVec.ofInt 64 (x.toInt / 2 ^ n))
  | _ => none

/-- The forms of majors 0x04 and 0x07, by fn (R85, R86). -/
def bitwiseForms : List (Reg → Reg → Reg → Instr) := [.and, .or, .xor, .andn, .orn, .xnor, .nand, .nor]
def pairForms : List (Reg → Reg → Reg → Instr) := [.add64, .sub64, .mul64, .shl64, .shr64, .sar64, .min64, .max64]

/-- The words of format RRR with C = W = 0 (R43, R52): major, fn, and the operand fields. -/
def rrrWord (major fn : Nat) (d a b : Reg) : Nat :=
  major * 2 ^ 24 + fn * 2 ^ 21 + d.toNat * 2 ^ 14 + a.toNat * 2 ^ 7 + b.toNat

/-- The exact results of the saturating forms, and their bounds (R83, R84). -/
def saturating : Instr → Option (Reg × Reg × Reg × (Word → Word → Int) × Int × Int)
  | .addsI d a b => some (d, a, b, fun x y => x.toInt + y.toInt, -2147483648, 2147483647)
  | .subsI d a b => some (d, a, b, fun x y => x.toInt - y.toInt, -2147483648, 2147483647)
  | .addsN d a b => some (d, a, b, fun x y => (x.toNat : Int) + y.toNat, 0, 4294967295)
  | .subsN d a b => some (d, a, b, fun x y => (x.toNat : Int) - y.toNat, 0, 4294967295)
  | _ => none

/-! ### Bits and bytes (R133, R154, R160, R165, R166) -/

/-- Is the word a binary32 NaN (R129)? -/
def isNan32 (x : Word) : Bool := x.extractLsb' 23 8 == 255#8 && x.extractLsb' 0 23 != 0#23

/-- Byte `j` of a register (R165). -/
def byteOf (x : Word) (j : Nat) : Byte := x.extractLsb' (8 * j) 8

/-- The integer form of a PS2 byte: its two terms, 64 times their weight (R133). -/
def ps2Form (x : Byte) : Int :=
  let term (sg : Bool) (c : Nat) : Int := if c = 7 then 0 else if sg then -(2 ^ (6 - c)) else 2 ^ (6 - c)
  term (x.getLsbD 7) (x.extractLsb' 4 3).toNat + term (x.getLsbD 3) (x.extractLsb' 0 3).toNat

/-- The number of nonzero terms of a PS2 byte, and whether its missing terms have sign 0 (R166). -/
def ps2Terms (x : Byte) : Nat := (if x.extractLsb' 4 3 = 7#3 then 0 else 1) + if x.extractLsb' 0 3 = 7#3 then 0 else 1
def ps2Canonical (x : Byte) : Prop :=
  (x.extractLsb' 4 3 = 7#3 → x.getLsbD 7 = false) ∧ (x.extractLsb' 0 3 = 7#3 → x.getLsbD 3 = false)

/-- The code PKPS writes for an integer `v` from -128 to 128: the nearest sum, a tie going to the larger magnitude; of its
codes the one with the fewest terms, then the smallest c1, then s2 = 0 (R166). -/
def IsPs2Code (v : Int) (x : Byte) : Prop :=
  ps2Canonical x ∧ ∀ y : Byte, ps2Canonical y →
    (v - ps2Form x).natAbs < (v - ps2Form y).natAbs ∨ ((v - ps2Form x).natAbs = (v - ps2Form y).natAbs ∧
      ((ps2Form y).natAbs < (ps2Form x).natAbs ∨ (ps2Form x = ps2Form y ∧
        (ps2Terms x < ps2Terms y ∨ (ps2Terms x = ps2Terms y ∧
          ((x.extractLsb' 4 3).toNat < (y.extractLsb' 4 3).toNat ∨ ((x.extractLsb' 4 3) = (y.extractLsb' 4 3) ∧
            (x.getLsbD 3 = false ∨ y.getLsbD 3 = true))))))))

/-- A T3 digit as an i8: 0, +1, -1 for 0, 1, 2 (R132). -/
def t3Byte (code i : Nat) : Byte :=
  if 242 < code then 0 else match code / 3 ^ i % 3 with | 0 => 0 | 1 => 1 | _ => 0xFF#8

/-- The digit that an i8 is stored as (R166). -/
def t3Stored (x : Byte) : Nat := if x.toInt < 0 then 2 else if x.toInt = 0 then 0 else 1

/-- The packing forms and the bit forms (R154, R165, R166): destination, sources (the second is the first where the form has
one), result and flags. -/
def packing : Instr → Option (Reg × Reg × Reg × (Word → Word → Word × Flags))
  | .fcpys d a b => some (d, a, b, fun x y => (if isNan32 x then 0x7FC00000#32 else y.extractLsb' 31 1 ++ x.extractLsb' 0 31, 0))
  | .fneg d a => some (d, a, a, fun x _ => (if isNan32 x then 0x7FC00000#32 else ~~~(x.extractLsb' 31 1) ++ x.extractLsb' 0 31, 0))
  | .fabs d a => some (d, a, a, fun x _ => (if isNan32 x then 0x7FC00000#32 else 0#1 ++ x.extractLsb' 0 31, 0))
  | .pkl d a b => some (d, a, b, fun x y => (y.extractLsb' 0 16 ++ x.extractLsb' 0 16, 0))
  | .sext8 d a b => some (d, a, b, fun x y => ((byteOf x (y.toNat % 4)).signExtend 32, 0))
  | .unpkps d a b => some (d, a, b, fun x y => (BitVec.ofInt 32 (ps2Form (byteOf x (y.toNat % 4))), 0))
  | .pk3 d a b => some (d, a, b, fun x y =>
      let ds := [byteOf x 0, byteOf x 1, byteOf x 2, byteOf x 3, byteOf y 0]
      (BitVec.ofNat 32 (t3Stored (byteOf x 0) + 3 * t3Stored (byteOf x 1) + 9 * t3Stored (byteOf x 2) + 27 * t3Stored (byteOf x 3)
        + 81 * t3Stored (byteOf y 0)), if ds.all fun b => b.toInt.natAbs ≤ 1 then 0 else flagSA))
  | .unpk3 d a b => some (d, a, b, fun x y =>
      let code := (byteOf x (y.toNat % 4)).toNat
      (if y.getLsbD 2 then (t3Byte code 4).setWidth 32 else t3Byte code 3 ++ t3Byte code 2 ++ t3Byte code 1 ++ t3Byte code 0,
        if 242 < code then flagFV else 0))
  | _ => none

/-- DP4.ps2's result (R160). -/
def ps2Dot (z x y : Word) : Word :=
  BitVec.ofInt 32 (z.toInt + ps2Form (byteOf x 0) * (byteOf y 0).toInt + ps2Form (byteOf x 1) * (byteOf y 1).toInt
    + ps2Form (byteOf x 2) * (byteOf y 2).toInt + ps2Form (byteOf x 3) * (byteOf y 3).toInt)

/-! ### Masks (R90, R91, R240, R243) -/

/-- A condition on integers (R90). -/
def holds (q : ICond) (x y : Int) : Bool :=
  match q with
  | .eq => x == y | .ne => x != y | .lt => decide (x < y) | .le => decide (x ≤ y) | .gt => decide (x > y) | .ge => decide (x ≥ y)

/-- CMP.64's conditions: signed, and unsigned for cc 8 to 13 (R90). -/
def holds64 (q : LCond) (x y : DWord) : Bool :=
  match q with
  | .eq => holds .eq x.toInt y.toInt | .ne => holds .ne x.toInt y.toInt | .lt => holds .lt x.toInt y.toInt
  | .le => holds .le x.toInt y.toInt | .gt => holds .gt x.toInt y.toInt | .ge => holds .ge x.toInt y.toInt
  | .eqn => holds .eq x.toNat y.toNat | .nen => holds .ne x.toNat y.toNat | .ltn => holds .lt x.toNat y.toNat
  | .len => holds .le x.toNat y.toNat | .gtn => holds .gt x.toNat y.toNat | .gen => holds .ge x.toNat y.toNat

/-- The new bit of kd (R90). -/
def combined (x : Combine) (old q : Bool) : Bool :=
  match x with
  | .set => q | .and => old && q | .or => old || q | .andn => old && !q

/-- The forms that write a mask register and raise no flag: the mask and the new own bit of lane `l`. -/
def maskForm (s : State) (w : Wave) (l : Nat) : Instr → Option (Mask × Bool)
  | .cmpI q k x a b => some (k, combined x (w.kbit k l) (holds q (rd s w l a).toInt (rd s w l b).toInt))
  | .cmpN q k x a b => some (k, combined x (w.kbit k l) (holds q (rd s w l a).toNat (rd s w l b).toNat))
  | .cmp64 q k x a b => some (k, combined x (w.kbit k l) (holds64 q (rd64 s w l a) (rd64 s w l b)))
  | .join k => some (k, true)
  | .leave k => some (k, false)
  | .kand k a b => some (k, w.kbit a l && w.kbit b l)
  | .kor k a b => some (k, w.kbit a l || w.kbit b l)
  | .kxor k a b => some (k, xor (w.kbit a l) (w.kbit b l))
  | .knot k a => some (k, !(w.kbit a l))
  | .kset k i => some (k, i)
  | .vtok k a => some (k, (rd s w l a).getLsbD l)
  | _ => none

/-- A binary32 operand and a binary64 operand as a compare or an arithmetic form reads them: FTZI applies (R91, R136, R152). -/
def f32 (s : State) (w : Wave) (l : Nat) (r : Reg) : Fv := FpFmt.read .f32 (w.fmode.getLsbD 3) (rd s w l r).toNat
def f64 (s : State) (w : Wave) (l : Nat) (r : Reg) : Fv := FpFmt.read .f64 (w.fmode.getLsbD 3) (rd64 s w l r).toNat

/-- The condition of a floating compare: a NaN makes the pair unordered (R91). -/
def fholds (q : FCond) (x y : Fv) : Bool :=
  let un := x.isNan || y.isNan
  match q with
  | .eq => !un && holds .eq (fvCmp x y) 0 | .ne => un || holds .ne (fvCmp x y) 0
  | .lt => !un && holds .lt (fvCmp x y) 0 | .le => !un && holds .le (fvCmp x y) 0
  | .gt => !un && holds .gt (fvCmp x y) 0 | .ge => !un && holds .ge (fvCmp x y) 0
  | .un => un | .ord => !un

/-- IV: a signalling NaN, and for LT, LE, GT and GE a quiet one (R91). -/
def fraises (q : FCond) (x y : Fv) : Bool :=
  x.isSnan || y.isSnan || match q with | .lt | .le | .gt | .ge => x.isNan || y.isNan | _ => false

/-- What a word that writes mask register `k` leaves: the issuing lanes' own bits are `f`; every other bit is as before,
but for those of threads released from a WAITK (R90, R240, R241). -/
def MaskWord (s : State) (c : Issue) (w : Wave) (t : State) (w' : Wave) (k : Mask) (f : Nat → Bool) : Prop :=
  WordFrame s c w t w' ∧ GoOn c w w' ∧ GenKept c w w' ∧ RegsKept w w' [] ∧
    (∀ l, c.lanes.getLsbD l = true → w'.kbit k l = f l) ∧
    ∀ k' l, (k' ≠ k ∨ c.lanes.getLsbD l = false) →
      w'.kbit k' l = w.kbit k' l ∨ ((w.thread l).waits (.waitk k') ∧ w'.kbit k' l = false)

/-! ### Floating point (R134, R152 to R164) -/

/-- The `k` registers from `d` with the words of `x`, the low word first (R50). -/
def wordsAt (d : Reg) (k x : Nat) : List (Reg × Word) :=
  (List.range k).map fun j => (Reg.ofNat (d.toNat + j), BitVec.ofNat 32 (x / 2 ^ (32 * j)))

/-- The number in the `k` registers from `a` (R50). -/
def numAt (s : State) (w : Wave) (l : Nat) (a : Reg) (k : Nat) : Nat :=
  if k = 1 then (rd s w l a).toNat else (rd64 s w l a).toNat

/-- How FMODE rounds in lane `l`: rmode, FTZO, and the lane's generator (R134, R138). -/
def fpu (w : Wave) (l : Nat) : Rounding :=
  { mode := rmodeAt (w.fmode.extractLsb' 0 3).toNat, ftzo := w.fmode.getLsbD 4, gen := (w.thread l).gen }

/-- How a conversion rounds: its own mode or FMODE's; it saturates where the form says so or, in FMODE's mode, SATD is set
(R162). -/
def cvFpu (w : Wave) (l : Nat) (sat : Bool) (r : CvRound) : Rounding :=
  match r with
  | .mode => { fpu w l with sat := sat || w.fmode.getLsbD 5 }
  | .rne => { fpu w l with mode := .rne, sat := sat }
  | .rz => { fpu w l with mode := .rz, sat := sat }
  | .sto => { fpu w l with mode := .sto, sat := sat }

/-- The halves of a packed form, computed one after the other (R159). -/
def halves (r : Rounding) (f : Rounding → Nat → Rounded) : Rounded :=
  let lo := f r 0
  let hi := f { r with gen := lo.gen } 1
  { bits := 65536 * hi.bits + lo.bits, flags := lo.flags ||| hi.flags, gen := hi.gen }

/-- Element `k` of `n` bits of a register, as its bits and as a value of a format (R159, R160). -/
def part (s : State) (w : Wave) (l : Nat) (r : Reg) (n k : Nat) : Nat := ((rd s w l r).extractLsb' (n * k) n).toNat
def partOf (f : FpFmt) (s : State) (w : Wave) (l : Nat) (r : Reg) (n k : Nat) : Fv :=
  f.read (w.fmode.getLsbD 3) (part s w l r n k)

/-- A dot product of `n`-bit elements into the binary32 in d (R161). -/
def dotAt (f : FpFmt) (n : Nat) (s : State) (w : Wave) (l : Nat) (d a b : Reg) : Rounded :=
  dotOf (fpu w l) (f32 s w l d) ((List.range (32 / n)).map fun k => (partOf f s w l a n k, partOf f s w l b n k))

/-- The rounding forms of fixed class (R154, R155, R159 to R164): destination, its registers, and the result of lane `l`. -/
def floatForm (s : State) (w : Wave) (l : Nat) : Instr → Option (Reg × Nat × Rounded)
  | .fadd d a b => some (d, 1, FpFmt.add .f32 (fpu w l) (f32 s w l a) (f32 s w l b))
  | .fsub d a b => some (d, 1, FpFmt.add .f32 (fpu w l) (f32 s w l a) (f32 s w l b).negate)
  | .fmul d a b => some (d, 1, FpFmt.mul .f32 (fpu w l) (f32 s w l a) (f32 s w l b))
  | .fmin d a b => some (d, 1, FpFmt.minmax .f32 false (w.fmode.getLsbD 3) (w.thread l).gen (rd s w l a).toNat (rd s w l b).toNat)
  | .fmax d a b => some (d, 1, FpFmt.minmax .f32 true (w.fmode.getLsbD 3) (w.thread l).gen (rd s w l a).toNat (rd s w l b).toNat)
  | .fmac d a b => some (d, 1, FpFmt.fma .f32 (fpu w l) (f32 s w l a) (f32 s w l b) (f32 s w l d))
  | .fmsc d a b => some (d, 1, FpFmt.fma .f32 (fpu w l) (f32 s w l a) (f32 s w l b) (f32 s w l d).negate)
  | .fnmac d a b => some (d, 1, FpFmt.fma .f32 (fpu w l) (f32 s w l a).negate (f32 s w l b) (f32 s w l d).negate)
  | .fnmsc d a b => some (d, 1, FpFmt.fma .f32 (fpu w l) (f32 s w l a).negate (f32 s w l b) (f32 s w l d))
  | .hadd2 d a b => some (d, 1, halves (fpu w l) fun r k => FpFmt.add .f16 r (partOf .f16 s w l a 16 k) (partOf .f16 s w l b 16 k))
  | .hmul2 d a b => some (d, 1, halves (fpu w l) fun r k => FpFmt.mul .f16 r (partOf .f16 s w l a 16 k) (partOf .f16 s w l b 16 k))
  | .hmac2 d a b => some (d, 1, halves (fpu w l) fun r k =>
      FpFmt.fma .f16 r (partOf .f16 s w l a 16 k) (partOf .f16 s w l b 16 k) (partOf .f16 s w l d 16 k))
  | .hmax2 d a b => some (d, 1, halves (fpu w l) fun r k =>
      FpFmt.minmax .f16 true (w.fmode.getLsbD 3) r.gen (part s w l a 16 k) (part s w l b 16 k))
  | .badd2 d a b => some (d, 1, halves (fpu w l) fun r k => FpFmt.add .bf16 r (partOf .bf16 s w l a 16 k) (partOf .bf16 s w l b 16 k))
  | .bmul2 d a b => some (d, 1, halves (fpu w l) fun r k => FpFmt.mul .bf16 r (partOf .bf16 s w l a 16 k) (partOf .bf16 s w l b 16 k))
  | .bmac2 d a b => some (d, 1, halves (fpu w l) fun r k =>
      FpFmt.fma .bf16 r (partOf .bf16 s w l a 16 k) (partOf .bf16 s w l b 16 k) (partOf .bf16 s w l d 16 k))
  | .bmax2 d a b => some (d, 1, halves (fpu w l) fun r k =>
      FpFmt.minmax .bf16 true (w.fmode.getLsbD 3) r.gen (part s w l a 16 k) (part s w l b 16 k))
  | .dp4E4m3 d a b => some (d, 1, dotAt .e4m3 8 s w l d a b)
  | .dp4E5m2 d a b => some (d, 1, dotAt .e5m2 8 s w l d a b)
  | .dp2F16 d a b => some (d, 1, dotAt .f16 16 s w l d a b)
  | .dp2Bf16 d a b => some (d, 1, dotAt .bf16 16 s w l d a b)
  | .cvt d a y x r => some (d, y.regCount, convert (cvFpu w l false r) (cvKind y) (cvKind x) (w.fmode.getLsbD 3) (numAt s w l a x.regCount))
  | .cvts d a y x r => some (d, y.regCount, convert (cvFpu w l true r) (cvKind y) (cvKind x) (w.fmode.getLsbD 3) (numAt s w l a x.regCount))
  | _ => none

/-- The forms of returning class that compute at issue (R153, R156 to R158). -/
def floatReturn (s : State) (w : Wave) (l : Nat) : Instr → Option (Reg × Nat × Rounded)
  | .fsqrt d a => some (d, 1, FpFmt.sqrt .f32 (fpu w l) (f32 s w l a))
  | .frcp d a => some (d, 1, frcpOf (rd s w l a) (fpu w l) (f32 s w l a))
  | .frsq d a => some (d, 1, frsqOf (rd s w l a) (fpu w l) (f32 s w l a))
  | .fex2 d a => some (d, 1, fex2Of (rd s w l a) (fpu w l) (f32 s w l a))
  | .flg2 d a => some (d, 1, flg2Of (rd s w l a) (fpu w l) (f32 s w l a))
  | .fsin d a => some (d, 1, fsinOf (rd s w l a) (fpu w l) (f32 s w l a))
  | .fcos d a => some (d, 1, fcosOf (rd s w l a) (fpu w l) (f32 s w l a))
  | .ftanh d a => some (d, 1, ftanhOf (rd s w l a) (fpu w l) (f32 s w l a))
  | .dadd d a b => some (d, 2, FpFmt.add .f64 (fpu w l) (f64 s w l a) (f64 s w l b))
  | .dsub d a b => some (d, 2, FpFmt.add .f64 (fpu w l) (f64 s w l a) (f64 s w l b).negate)
  | .dmul d a b => some (d, 2, FpFmt.mul .f64 (fpu w l) (f64 s w l a) (f64 s w l b))
  | .dmin d a b => some (d, 2, FpFmt.minmax .f64 false (w.fmode.getLsbD 3) (w.thread l).gen (rd64 s w l a).toNat (rd64 s w l b).toNat)
  | .dmax d a b => some (d, 2, FpFmt.minmax .f64 true (w.fmode.getLsbD 3) (w.thread l).gen (rd64 s w l a).toNat (rd64 s w l b).toNat)
  | .dmac d a b => some (d, 2, FpFmt.fma .f64 (fpu w l) (f64 s w l a) (f64 s w l b) (f64 s w l d))
  | .dsqrt d a => some (d, 2, FpFmt.sqrt .f64 (fpu w l) (f64 s w l a))
  | _ => none

/-- The result of lane `l` where the form is one of a table. -/
def roundedOf (x : Option (Reg × Nat × Rounded)) : Rounded := (x.map fun y => y.2.2).getD { bits := 0, gen := 0 }

/-- The generators after a word whose result in lane `l` is `f l`: the computing lanes' are stepped as their results say,
the other lanes' are as before (R138, R152). -/
def GenStepped (d : Reg) (c : Issue) (w w' : Wave) (f : Nat → Rounded) : Prop :=
  ∀ l, c.lanes.getLsbD l = true → (w'.thread l).gen = if l ∈ lanesFor d c then (f l).gen else (w.thread l).gen

/-- The frame of a word of returning class: it writes no register, mask or flag at issue (R33, R34). -/
def ReturningWord (s : State) (c : Issue) (w : Wave) (t : State) (w' : Wave) : Prop :=
  WordFrame s c w t w' ∧ GoOn c w w' ∧ MaskKept w w' ∧ RegsKept w w' [] ∧ w'.xstat = w.xstat

/-- A result is outstanding in the lanes that compute, or once for the group where the destination is uniform (R34, R51): it
will write the registers and raise the flags that `o` gives, nothing having been written to them since. -/
def Leaves (d : Reg) (c : Issue) (w' : Wave) (o : Nat → List (Reg × Word) × Flags) : Prop :=
  ∀ l ∈ lanesFor d c, ∃ p ∈ w'.pend,
    p.lane = (if d.isUni then none else some l) ∧ p.lanes = (if d.isUni then c.lanes else laneBit l) ∧
    p.regs = (o l).1.map Prod.fst ∧ p.vals = (o l).1.map Prod.snd ∧ p.flags = (o l).2 ∧
    p.opened = false ∧ p.clob = [] ∧ p.late = none ∧ p.slot = none

/-- The forms with binary32 results whose NaN rule is that of the operands (R152, R154, R155, R161): destination and operands. -/
def nanSources : Instr → Option (Reg × List Reg)
  | .fadd d a b => some (d, [a, b])
  | .fsub d a b => some (d, [a, b])
  | .fmul d a b => some (d, [a, b])
  | .fmac d a b => some (d, [a, b, d])
  | .fmsc d a b => some (d, [a, b, d])
  | .fnmac d a b => some (d, [a, b, d])
  | .fnmsc d a b => some (d, [a, b, d])
  | .dp2F16 d _ _ => some (d, [d])
  | .dp2Bf16 d _ _ => some (d, [d])
  | .dp4E4m3 d _ _ => some (d, [d])
  | .dp4E5m2 d _ _ => some (d, [d])
  | _ => none

/-! ### Lanes of a wave (R94 to R97) -/

/-- The shuffles: destination, sources, and the source lane of lane `l` for B[4:0] (R94). -/
def shuffle : Instr → Option (Reg × Reg × Reg × (Nat → Nat → Nat))
  | .shfl d a b => some (d, a, b, fun _ n => n)
  | .shflx d a b => some (d, a, b, fun l n => Nat.xor l n)
  | .shflu d a b => some (d, a, b, fun l n => if n ≤ l then l - n else l)
  | .shfld d a b => some (d, a, b, fun l n => if l + n ≤ 31 then l + n else l)
  | .rdl d a b => some (d, a, b, fun _ n => n)
  | _ => none

/-- One step of a binary32 reduction: an addition rounded to nearest even (R97). -/
def addNearest (w : Wave) (r x : Word) : Word × Flags :=
  let y := FpFmt.add .f32 { mode := .rne, ftzo := w.fmode.getLsbD 4 }
    (FpFmt.read .f32 (w.fmode.getLsbD 3) r.toNat) (FpFmt.read .f32 (w.fmode.getLsbD 3) x.toNat)
  (BitVec.ofNat 32 y.bits, y.flags)

/-- The reductions and scans: is it a scan, destination, sources, and op(r, x) with the flags it raises (R96, R97). -/
def reduction (w : Wave) : Instr → Option (Bool × Reg × Reg × Reg × (Word → Word → Word × Flags))
  | .redaddI d a b => some (false, d, a, b, fun r x => (r + x, 0))
  | .redminI d a b => some (false, d, a, b, fun r x => (if r.toInt ≤ x.toInt then r else x, 0))
  | .redmaxI d a b => some (false, d, a, b, fun r x => (if x.toInt ≤ r.toInt then r else x, 0))
  | .redand d a b => some (false, d, a, b, fun r x => (r &&& x, 0))
  | .redor d a b => some (false, d, a, b, fun r x => (r ||| x, 0))
  | .redaddF32 d a b => some (false, d, a, b, addNearest w)
  | .scanI d a b => some (true, d, a, b, fun r x => (r + x, 0))
  | .scanF32 d a b => some (true, d, a, b, addNearest w)
  | _ => none

/-- The terms `xs` combined in order from `r`, with the flags of all steps (R96). -/
def combineAll (f : Word → Word → Word × Flags) (r : Word) (xs : List Word) : Word × Flags :=
  xs.foldl (fun acc x => ((f acc.1 x).1, acc.2 ||| (f acc.1 x).2)) (r, 0)

/-! ### Control registers, slots and landings (R34, R35, R99 to R101, R123, R124) -/

/-- The control registers whose value the rules fix, as lane `l` of `w` reads them (R99, R260). -/
def ctlValue (s : State) (w : Wave) (l : Nat) : CtlReg → Option Nat
  | .lane => some l
  | .wave => some (w.idx % 8)
  | .wgid => some (w.wg % 4)
  | .gangid => some (s.gangOf w).index
  | .gangxyz => some ((s.gangOf w).x % 65536 + 65536 * ((s.gangOf w).y % 1024) + 67108864 * ((s.gangOf w).z % 64))
  | .core => some (w.track.getD 0 / 8 % 4)
  | .cluster => some (w.track.getD 0 / 32 % 8)
  | .sector => some (w.track.getD 0 / 256 % 2)
  | .die => some (w.track.getD 0 / 512)
  | .feat => some (s.die (w.track.getD 0 / 512)).feat.toNat
  | .fmode => some w.fmode.toNat
  | .prog => some (if w.prog then 1 else 0)
  | .trapbase => some w.trapBase.toNat
  | .trapframe => some w.trapFrame.toNat
  | .trapen => some w.trapEn.toNat
  | _ => none

/-- The bits of TASK (R260). -/
def IsTask (s : State) (w : Wave) (x : Nat) : Prop :=
  let g := s.gangOf w
  x % 2 = bitTo (s.launchOf g).hdr.ver ∧ x / 2 % 2 = bitTo (s.launchOf g).shape ∧ x / 4 % 2 = bitTo g.gate ∧
    (x / 8 % 2 = 0 ↔ ∀ v ∈ s.versions, v.gang = g.id → v.mask = 0) ∧ x / 16 % 2 = bitTo g.committed ∧ x / 32 % 8 = 0 ∧
    x / 256 % 256 = g.ccnt.toNat ∧ x / 65536 % 256 = 0 ∧ x / 16777216 = g.attempt % 4

/-- The wave with a control register written: the bits the register names (R100, R134, R254). -/
def ctlWritten (w : Wave) (r : CtlReg) (lo : Word) (x : DWord) : Wave :=
  match r with
  | .fmode => { w with fmode := lo.extractLsb' 0 6 }
  | .xstat => { w with xstat := lo.extractLsb' 0 7 }
  | .prog => { w with prog := lo.getLsbD 0 }
  | .trapbase => { w with trapBase := x }
  | .trapframe => { w with trapFrame := x }
  | .trapen => { w with trapEn := lo &&& 0xFFE#32 }
  | _ => w

/-- `v` with each thread of `c` at the program counter that `pc` gives it; the lead and the hints of YIELD may differ (R39,
R222, R277). -/
def Went (c : Issue) (v w1 : Wave) (pc : Nat → DWord) : Prop :=
  w1 = { v with lead := w1.lead, yieldTrk := w1.yieldTrk, yieldGrp := w1.yieldGrp,
                threads := v.threads.mapIdx fun l t =>
                  if c.lanes.getLsbD l then { t with pc := pc l, count := 0, commitDone := false } else t }

/-- `v` with the threads of `c` at the next word (R39). -/
def Advanced (c : Issue) (v w1 : Wave) : Prop := Went c v w1 fun _ => c.nextPc

/-- xorshift32 (R101, R138). -/
def shiftStep (x : Word) : Word :=
  let y := x ^^^ (x <<< 13#32)
  let z := y ^^^ (y >>> 17#32)
  z ^^^ (z <<< 5#32)

/-- RNGSEED's state: a zero becomes 1 (R101). -/
def seeded (x : Word) (l : Nat) : Word :=
  let y := x ^^^ BitVec.ofNat 32 (l * 0x9E3779B9)
  if y = 0 then 1 else y
/-! ### Memory (R103 to R111, R188, R208 to R220, R261 to R264) -/

/-- Byte `a` of device memory as its home serves it now, or of host memory (R188). -/
def byteNow (s : State) (a : Nat) : Byte := lineByte (s.homeView (a / 64)) (a % 64)

/-- Every sector copy of a line is one of the right kind, and a copy on the line's home die agrees with what the home serves
in its valid words: what the directory keeps true (R176, R186). -/
def Coherent (s : State) (line : Nat) : Prop :=
  ∀ x ∈ s.sect, x.line = line →
    (x.remote = false ↔ homeOfLine line = some (sectorDie x.sector)) ∧
    (x.remote = false → ∀ i < 64, (wordBytes x.valid).getLsbD i = true → lineByte x.data i = lineByte (s.homeView line) i)

/-- The last of the writes `ws` (address and value, `n` bytes each, in order) to byte `a`, if any. -/
def storedAt (n : Nat) (ws : List (Nat × Nat)) (a : Nat) : Option Byte :=
  ws.foldl (fun o w => if w.1 ≤ a ∧ a < w.1 + n then some (BitVec.ofNat 8 (w.2 / 256 ^ (a - w.1))) else o) none

/-- The global loads: width, destination, address of a lane (R105), scope, order, cache field. -/
def loadForm (s : State) (w : Wave) : Instr → Option (Width × Reg × (Nat → Nat) × Scope × Ord × CachePol)
  | .ld z d a p r h => some (z, d, fun l => (rd64 s w l a).toNat, p, r, h)
  | .ldo z d a n => some (z, d, fun l => (rd64 s w l a + n.signExtend 64 * BitVec.ofNat 64 z.bytes).toNat, .wave, .plain, .dflt)
  | _ => none

/-- The global stores, with the address register as well. -/
def storeForm (s : State) (w : Wave) : Instr → Option (Width × Reg × Reg × (Nat → Nat) × Scope × Ord × CachePol)
  | .st z d a p r h => some (z, d, a, fun l => (rd64 s w l a).toNat, p, r, h)
  | .sto z d a n => some (z, d, a, fun l => (rd64 s w l a + n.signExtend 64 * BitVec.ofNat 64 z.bytes).toNat, .wave, .plain, .dflt)
  | _ => none

/-- What the halves of an order field ask of a thread's earlier accesses: with a release half all of them are performed, with
an acquire half those that have a release half (R107, R193 to R195). -/
def Ordered (s : State) (w : Wave) (l : Nat) (p : Scope) (r : Ord) : Prop :=
  (ordRel r = true → s.threadClear w l p = true) ∧ (ordAcq r = true → s.relsDone w l p = true)

/-- A load of lane `l` goes on: translated and permitted, no error in the bytes it reads from memory, nothing earlier to wait
for (R105, R107, R274). -/
def LoadGoes (s : State) (w : Wave) (l : Nat) (z : Width) (ea : Nat) (p : Scope) (r : Ord) : Prop :=
  ∃ pa, s.access w .read ea z.bytes = .ok pa ∧ s.consumes w.gang pa z.bytes = false ∧ s.lineClear w l pa z.bytes = true ∧
    Ordered s w l p r

/-- A store of lane `l` goes on: translated and permitted, nothing to wait for, and in a versioned gang room for 32 lines
more (R105, R107, R201, R264). -/
def StoreGoes (s : State) (w : Wave) (l : Nat) (z : Width) (ea : Nat) (p : Scope) (r : Ord) : Prop :=
  ∃ pa, s.access w .write ea z.bytes = .ok pa ∧ s.lineClear w l pa z.bytes = true ∧ s.stalled w pa = false ∧
    Ordered s w l p r ∧ (s.versioned (s.gangOf w) = true → s.verRoom (s.gangOf w) 32 = true)

/-- The lanes that perform a form that is performed once where both its registers are uniform (R106). -/
def lanesOnce (d a : Reg) (c : Issue) : List Nat := if d.isUni && a.isUni then [lowest c.lanes] else lanesOf c.lanes

/-- What becomes of lane `l` of a wave that waited on a line when the line is written: its thread may be woken from WAITM (R185,
R220) and then released further; its registers are as before, but for those newly granted (R28). -/
def Woken (v v' : Wave) (l : Nat) : Prop :=
  let t' : Thread := { v'.thread l with v := (v.thread l).v }
  (ThreadKept (v.thread l) t' ∨ (v.thread l).st = .held .waitm ∧ ThreadKept (v.thread l).goOn t') ∧
    ∀ r, v'.raw l r = v.raw l r ∨ Granted v v' l r

/-- The frame of a word that reads or writes global memory, for every wave: registers, flags, masks, roles, modes and trap
registers are as before in each; the issuing threads go on; other threads may only have been released. -/
def MemoryFrame (s : State) (c : Issue) (w : Wave) (t : State) (w' : Wave) : Prop :=
  t.wave? w.id = some w' ∧
  w' = { w with grant := w'.grant, k := w'.k, monitor := w'.monitor, pend := w'.pend, lead := w'.lead,
                yieldTrk := w'.yieldTrk, yieldGrp := w'.yieldGrp, threads := w'.threads } ∧
  MaskKept w w' ∧ RegsKept w w' [] ∧ w.grant ≤ w'.grant ∧ (w'.grant = w.grant ∨ s.holding w.id Hold.isXacq) ∧
  (∀ l, c.lanes.getLsbD l = false → Woken w w' l) ∧
  (∀ l, c.lanes.getLsbD l = true → w'.thread l =
    { w.thread l with pc := c.nextPc, count := 0, commitDone := false, v := (w'.thread l).v, acqs := (w'.thread l).acqs
                      rels := (w'.thread l).rels }) ∧
  (∀ p ∈ w.pend, ∃ p' ∈ w'.pend, PendingKept p p') ∧
  ∀ id v, id ≠ w.id → s.wave? id = some v → ∃ v', t.wave? id = some v' ∧
    v' = { v with grant := v'.grant, k := v'.k, monitor := v'.monitor, pend := v'.pend, threads := v'.threads } ∧
    ∀ l, Woken v v' l

/-- Nothing outside storage, waves and gangs has changed. -/
def StorageOnly (s t : State) : Prop :=
  t = { s with cur := none, waves := t.waves, gangs := t.gangs, fresh := t.fresh, picks := t.picks, nextId := t.nextId, mem := t.mem
               sect := t.sect, l1 := t.l1, fills := t.fills, flows := t.flows, dies := t.dies, tlb := t.tlb
               sectTlb := t.sectTlb, hostLines := t.hostLines, homeLines := t.homeLines, poison := t.poison
               codeErrs := t.codeErrs, seals := t.seals, versions := t.versions }

/-- The line a load reads, where a cache serves it at once: an L1 copy as it stands, one below it with the gang's own version
over it (R108, R168, R175, R178). -/
def served (s : State) (w : Wave) (pol : CachePol) (pa n : Nat) : Option Line :=
  match s.lookupFor w.gang w.core pol (pa / 64) (runMask (pa % 64) n) with
  | .l1 x => some x
  | .below x => some (s.overlay w.gang (pa / 64) x)
  | .miss => none

/-- The words of the registers that take `n` as a value of a width, the low word first (R104). -/
def wordsOf (z : Width) (n : Nat) : List Word := (List.range z.regCount).map fun j => BitVec.ofNat 32 (n / 2 ^ (32 * j))

/-- A scratchpad access of lane `l` lies in the allocation, is aligned and has nothing to wait for (R107, R109). -/
def SpadGoes (s : State) (w : Wave) (l n ea : Nat) (p : Scope) (r : Ord) : Prop :=
  ea + n ≤ (s.launchOf (s.gangOf w)).hdr.scratch ∧ ea % n = 0 ∧ Ordered s w l p r

/-- The granules that an access touches are all full, or all empty (R110). -/
def AllFull (g : Gang) (ea n : Nat) : Prop := ∀ x, 16 * x < ea + n → ea < 16 * x + 16 → x ∈ g.full
def AllEmpty (g : Gang) (ea n : Nat) : Prop := ∀ x, 16 * x < ea + n → ea < 16 * x + 16 → x ∉ g.full

/-- The granules after an access has set those it touches empty, or full (R110). -/
def emptied (fs : List Nat) (ea n : Nat) : List Nat := fs.filter fun y => !(decide (16 * y < ea + n) && decide (ea < 16 * y + 16))
def filled (fs : List Nat) (ea n : Nat) : List Nat :=
  fs ++ ((List.range ((ea + n - 1) / 16 + 1 - ea / 16)).map fun k => ea / 16 + k).filter fun y => !fs.contains y

/-- The poisoned words that a write of `n` bytes at `ea` does not cover: it ends poison in those it covers (R386). -/
def unpoisoned (ps : List Nat) (ea n : Nat) : List Nat := ps.filter fun k => !(decide (ea ≤ 4 * k) && decide (4 * k + 4 ≤ ea + n))

/-- The gang after a scratchpad store of `v` by one thread (R109, R110). -/
def spadPut (q : StoreFe) (ea n v : Nat) (x : Gang) : Gang :=
  match q with
  | .plain => { x with spad := Memory.writeNat x.spad ea n v, spadPoison := unpoisoned x.spadPoison ea n }
  | .clear => { x with full := emptied x.full ea n }
  | _ => { x with spad := Memory.writeNat x.spad ea n v, spadPoison := unpoisoned x.spadPoison ea n, full := filled x.full ea n }

/-- Are the granules of an access all full, all empty, where the full ones are `fs`? -/
def fullIn (fs : List Nat) (ea n : Nat) : Bool := (List.range ((ea + n - 1) / 16 + 1 - ea / 16)).all fun k => fs.contains (ea / 16 + k)
def emptyIn (fs : List Nat) (ea n : Nat) : Bool := (List.range ((ea + n - 1) / 16 + 1 - ea / 16)).all fun k => !fs.contains (ea / 16 + k)

/-- The waiting loads of several lanes in their turns (R106, R111): the lanes whose granules are full as their turn comes, each
`.waittake` having emptied its own, and the full granules afterwards; the stores, each of which fills its own. -/
def loadTurns (take : Bool) (n : Nat) (ea : Nat → Nat) : List Nat → List Nat → List Nat × List Nat
  | fs, [] => ([], fs)
  | fs, l :: ls =>
    if fullIn fs (ea l) n then
      let r := loadTurns take n ea (if take then emptied fs (ea l) n else fs) ls
      (l :: r.1, r.2)
    else loadTurns take n ea fs ls
def storeTurns (n : Nat) (ea : Nat → Nat) : List Nat → List Nat → List Nat
  | _, [] => []
  | fs, l :: ls =>
    if emptyIn fs (ea l) n then l :: storeTurns n ea (filled fs (ea l) n) ls else storeTurns n ea fs ls

/-- No thread of the gang waits on full-empty granules. -/
def NoFeWait (s : State) (gang : Nat) : Prop :=
  ∀ v ∈ s.waves, v.gang = gang → ∀ l h, (v.thread l).waits h → ¬Hold.isFe h

/-- The operand and the compare value of a participant (R209). -/
def atomOperands (s : State) (w : Wave) (l : Nat) (o : AtomOp) (t : AtomTy) (d : Reg) : Nat × Nat :=
  let k := if t = .b32 ∨ t = .f32 then 1 else 2
  if o = .cas then (wide (rd s w l) k (Reg.ofNat (d.toNat + k)), wide (rd s w l) k d) else (wide (rd s w l) k d, 0)

/-- The new value of a location of `b` bits for an integer operation on the old value, the operand and the compare value
(R210). -/
def atomInteger (o : AtomOp) (b : Nat) (x d c : Nat) : Nat :=
  let int (y : Nat) : Int := if 2 ^ (b - 1) ≤ y then (y : Int) - 2 ^ b else y
  match o with
  | .add => (x + d) % 2 ^ b
  | .mini => if int x ≤ int d then x else d
  | .maxi => if int x ≤ int d then d else x
  | .minn => if x ≤ d then x else d
  | .maxn => if x ≤ d then d else x
  | .and => Nat.land x d
  | .or => Nat.lor x d
  | .xor => Nat.xor x d
  | .xchg => d
  | .cas => if x = c then d else x
  | .inc => if x ≥ d then 0 else x + 1
  | .dec => if x = 0 ∨ x > d then d else x - 1

/-- A combined request (R211, R212): the wave's participants `ls` on one address. -/
def IsRequest (s : State) (w : Wave) (o : AtomOp) (y : AtomTy) (d : Reg) (ret : Bool) (acq : Option Scope) (addr : Nat)
    (ls : List Nat) (r : AtomReq) : Prop :=
  r.wave = w.id ∧ r.gang = w.gang ∧ r.src = coreDie w.core ∧ r.core = w.core ∧ r.addr = addr ∧ r.op = o ∧ r.ty = y ∧ r.acq = acq ∧
    r.parts.map (fun p => (p.lane, p.d.toNat, p.c.toNat)) =
      ls.map (fun l => (l, (atomOperands s w l o y d).1, (atomOperands s w l o y d).2)) ∧
    ∀ p ∈ r.parts, p.pid.isSome = ret

/-! ### Control, holds, traps (R28, R38, R223 to R250, R276 to R282) -/

/-- The target of a word with a packet offset: the packet of the word at `pc`, `o` packets on, at the word's slot (R53). -/
def slotTarget (pc : DWord) (u : SlotNo) (o : BitVec 17) : DWord :=
  let k : Int := match u with | .one => 1 | .two => 2 | .three => 3
  BitVec.ofInt 64 (((pc.toNat / 16 * 16 : Nat) : Int) + 16 * o.toInt + 4 * k)

/-- Does a thread take the transfer: kd's bit (or all ones) differs from n (R235)? -/
def takes (n : Bool) (k : Option Mask) (w : Wave) (l : Nat) : Bool :=
  match k with | some k => xor (w.kbit k l) n | none => !n

/-- The frame of a control transfer: threads of `c` go on at `pc l`, having written `ws l`; nothing else changes but for the
release of held threads. -/
def Transfers (s : State) (c : Issue) (w : Wave) (t : State) (w' : Wave) (pc : Nat → DWord) (ws : Nat → List (Reg × Word)) :
    Prop :=
  WordFrame s c w t w' ∧ MaskKept w w' ∧ w'.xstat = w.xstat ∧ Wrote c w w' ws ∧
    ∀ l, c.lanes.getLsbD l = true → w'.thread l =
      { w.thread l with pc := pc l, count := 0, commitDone := false, v := (w'.thread l).v }

/-- The gang of `w` is placed and no pre-emption request holds its threads (R269). -/
def Free (s : State) (w : Wave) : Prop := ∃ g, s.gang? w.gang = some g ∧ g.preempt = false ∧ g.place.isSome = true

/-- A thread that has not ended. -/
def Live (v : Wave) (l : Nat) : Prop := l < 32 ∧ (v.thread l).st ≠ .ended

/-- The threads of `c` are held by `h` alone, the word after theirs next (R223). -/
def HeldAt (c : Issue) (w w' : Wave) (h : Hold) (p : Nat → Prop) : Prop :=
  ∀ l, c.lanes.getLsbD l = true → p l → w'.thread l =
    { w.thread l with pc := c.nextPc, count := 0, commitDone := false, st := .held h, todo := [], v := (w'.thread l).v }

/-- They run at the next word, and have nothing more to wait for. -/
def RunsOn (c : Issue) (w w' : Wave) (p : Nat → Prop) : Prop :=
  ∀ l, c.lanes.getLsbD l = true → p l → w'.thread l =
      { w.thread l with pc := c.nextPc, count := 0, commitDone := false, todo := (w'.thread l).todo, v := (w'.thread l).v } ∧
    ((w.thread l).todo = [] → (w'.thread l).todo = [])

/-- The causes of steps 2 to 6 of R81 that are the same for every thread: UNIMPL, ROLE, a feature that the kernel does not
declare, FEATABSENT, ILLREG (R25, R29, R78, R80). -/
def wordCause (s : State) (w : Wave) (i : Instr) : Option Nat :=
  let reg : Option Nat := if (i.info.dst ++ i.info.src).any fun r => match r with | .v n => decide (w.grant ≤ n.val) | .s _ => false
    then some 4 else none
  if Instr.isUnimpl i then some 2
  else if !(i.info.role.permits w.role) then some 5
  else match i.info.feat with
    | none => reg
    | some f =>
      if !((s.launchOf (s.gangOf w)).hdr.features.getLsbD f.bit) then some 0x83
      else if f ≠ .groom ∧ !((s.die (s.gangOf w).die).feat.getLsbD f.bit) then some 9
      else reg

/-- The cause a word raises in every thread, and n of TRAP n: as above, else TRAP, BRK and TRAMP with n = 1 (R237, R246, R278). -/
def raisedBy (s : State) (w : Wave) (i : Instr) : Option (Nat × Nat) :=
  match wordCause s w i with
  | some code => some (code, 0)
  | none => match i with
    | .trap n => some (11, n.toNat)
    | .brk _ => some (7, 0)
    | .tramp _ true _ _ => some (8, 0)
    | _ => none

/-- Is it a word, and no event? -/
def IsWord (i : Instr) : Prop := i.info.pipe ≠ none ∨ Instr.isUnimpl i = true

/-- Does a cause enter the handler of lane `l` (R246, R248, R256)? -/
def Handled (w : Wave) (l code : Nat) : Prop :=
  0 < code ∧ code < 12 ∧ w.trapEn.getLsbD code = true ∧ (w.thread l).inHandler = false ∧
    w.trapBase.toNat % 4 = 0 ∧ w.trapBase.toNat / 4 % 4 ≠ 0 ∧ w.trapBase.toNat < 2 ^ 51

/-- The address of a thread's frame (R245). -/
def frameOfLane (s : State) (w : Wave) (l : Nat) : Nat :=
  (w.trapFrame.toNat + 512 * (1024 * (s.gangOf w).index + 256 * w.wg + 32 * w.idx + l)) % 2 ^ 64

/-- A thread's own bits of k0 to k11 as bits 0 to 11 (R247). -/
def ownMask (w : Wave) (l : Nat) : Word := maskBy fun k => if h : k < 12 then w.kbit ⟨k, h⟩ l else false

/-- Word `j` of a frame (R247). -/
def frameWord (c : Issue) (w : Wave) (l code n j : Nat) : Word :=
  match j with
  | 0 => c.pc.extractLsb' 0 32
  | 1 => c.pc.extractLsb' 32 32
  | 2 => c.word
  | 3 => BitVec.ofNat 32 (code + 65536 * n)
  | 4 => ownMask w l
  | 5 => BitVec.ofNat 32 w.grant
  | 6 => (w.thread l).recs.extractLsb' 0 32
  | 7 => (w.thread l).recs.extractLsb' 32 32
  | _ => if 32 ≤ j ∧ j - 32 < w.grant then w.raw l (Reg.ofNat (j - 32)) else 0


/-! ### Engine words (R283, R284, R338 to R354) -/

/-- The word's effect on everything but its wave gives `u`; it writes no register, mask or flag, and its threads go on. -/
def EngineWord (i : Instr) (s : State) (c : Issue) (w : Wave) (u : State) : Prop :=
  ∃ t w', exec i s = .next t ∧ ReturningWord u c w t w' ∧ GenKept c w w'

/-- The word is not ready (R81): the threads stay at it, and nothing changes. -/
def NotReady (i : Instr) (s : State) : Prop := exec i s = .next { s with cur := none, fresh := s.fresh + 1 }

/-- An offset in the gang's scratchpad that a record of `n` bytes may have (R340, R343, R350, R352, R354). -/
def RecordAt (s : State) (g : Gang) (off align n : Nat) : Prop := off % align = 0 ∧ off + n ≤ (s.launchOf g).hdr.scratch

/-- A gang of a kernel that is not versioned, in a machine where every accumulator word issued has been performed. -/
structure Quiet (s : State) (w : Wave) (g : Gang) : Prop where
  gang  : s.gang? w.gang = some g
  ver   : s.versioned g = false
  acc   : ∀ x ∈ s.gangs, ∀ d ∈ x.tileQ, TileCmd.counted d = true
  tiles : ∀ y ∈ s.tiles, y.phys < 256

/-- It runs, and its tile scheduler has nothing to do, so that an accumulator word is performed as it issues (R327). -/
structure Idle (s : State) (w : Wave) (g : Gang) : Prop extends Quiet s w g where
  empty : ∀ x ∈ s.gangs, x.id = w.gang → x.tileQ = []
  place : g.place.isSome = true
  live  : g.st = .live

/-- Logical tile `n` of the gang's window is physical tile `p` of its cluster (R331, R332). -/
def Named (s : State) (g : Gang) (n p : Nat) : Prop :=
  ∃ y, s.window g n = some y ∧ y.phys = p ∧ s.tile? g.cluster p = some y

/-- The gang with a command enqueued on its tile queue. -/
def queued (d : TileCmd) (x : Gang) : Gang := { x with tileQ := x.tileQ ++ [d] }

/-- Room in the tile queue (R326): held tasks count, accumulator words do not. -/
def Room (g : Gang) : Prop := (g.tileQ.filter TileCmd.counted).length < 64

/-- A lift queue after a chain has been started on it: an idle queue takes the oldest of its chains, unless an RKINIT issued
before that chain is still to be performed (R309, R311, R340). -/
def started (rk : List RkOp) (ch : LiftChain) (y : LiftQ) : LiftQ :=
  match y.walk, y.held ++ [ch] with
  | none, h :: hs =>
    if ∃ r ∈ rk, r.seq < h.seq then { y with held := h :: hs, abt := false }
    else { y with walk := some { chain := h, pos := h.start }, held := hs, abt := false }
  | _, hs => { y with held := hs, abt := false }

/-- The last of the values that lanes in ascending order write to word `n` of physical tile `p`. -/
def lastWrite (ls : List Nat) (phys word : Nat → Nat) (val : Nat → Word) (p n : Nat) : Option Word :=
  ls.foldl (fun o l => if phys l = p ∧ word l = n then some (val l) else o) none

/-- The geometries a rink may have in an allocation of `n` bytes (R309, R351). -/
def RinkOk (n base size count : Nat) : Prop :=
  count = 0 ∧ base = 0 ∧ size = 0 ∨
  2 ≤ count ∧ count ≤ 16 ∧ base % 16 = 0 ∧ size % 16 = 0 ∧ 16 ≤ size ∧ size ≤ 65536 ∧ base + size * count ≤ n

/-- Nothing outside the lines' homes, waves, gangs and launches has changed. -/
def HomesOnly (s t : State) : Prop :=
  t = { s with cur := none, waves := t.waves, gangs := t.gangs, fresh := t.fresh, picks := t.picks, nextId := t.nextId, mem := t.mem
               sect := t.sect, fills := t.fills, dies := t.dies, hostLines := t.hostLines, homeLines := t.homeLines
               poison := t.poison, codeErrs := t.codeErrs, launches := t.launches }

/-! ### Events of threads, storage and fabric (R34, R117, R118, R173 to R176, R185, R200 to R207, R222, R229, R248, R268, R276) -/

/-- Nothing but waves changes, and of those only the ones with this number. -/
def WaveOnly (s t : State) (wave : Nat) (w' : Wave) : Prop :=
  t = { s with waves := t.waves } ∧ t.wave? wave = some w' ∧ ∀ id, id ≠ wave → t.wave? id = s.wave? id

/-- The gang is aborted with this cause, and its threads have ended (R258). -/
def Aborted (t : State) (gid code : Nat) : Prop :=
  (∃ g f, t.gang? gid = some g ∧ g.st = .aborted f ∧ f.code = code) ∧
    ∀ v ∈ t.waves, v.gang = gid → ∀ l, (v.thread l).st = .ended

/-- The outstanding result `p` of a wave is now `q`. -/
def Answered (s t : State) (wave : Nat) (p q : Pending) : Prop :=
  ∀ w, s.wave? wave = some w → p ∈ w.pend → ∃ w', t.wave? wave = some w' ∧ q ∈ w'.pend

/-- What every home serves is as before. -/
def HomesKept (s t : State) : Prop := ∀ line, t.homeView line = s.homeView line

/-- The line as a sector cache holds it once the data of a fill has been written to its invalid words (R175); a load that
fills no sector cache reads the data. -/
def filledLine (s : State) (f : Fill) (data : Line) : Line :=
  match s.sectLine? f.sector f.line with
  | some x => if f.fillSect then mergeLine (wordBytes (~~~x.valid)) x.data data else data
  | none => data

/-- Byte `n` of a line after masked writes to it, in order. -/
def written (ws : List LineWrite) (line n : Nat) (b : Byte) : Byte :=
  ws.foldl (fun b w => if w.line = line ∧ w.mask.getLsbD n = true then lineByte w.data n else b) b

/-- The host reaches `n` bytes at `a`: its own memory, or, from stage 6 on, device memory in the range of some function (R373,
R389, R391). -/
def Reached (s : State) (a n : Nat) : Prop := 2 ^ 49 ≤ a ∨ s.stage = 6 ∧ ∃ v ∈ s.vis, v.range.1 ≤ a ∧ a + n ≤ v.range.2

/-- No cache of the package holds a line of host memory (R188). -/
def HostUncached (s : State) : Prop := ∀ x ∈ s.sect, homeOfLine x.line ≠ none

/-- A combined request has been performed at its location's home (R211, R212). -/
def AtomDone (s t : State) (r : AtomReq) : Prop :=
  let run := atomRun r.op r.ty (lineNat (s.homeView (r.addr / 64)) (r.addr % 64) r.ty.bytes) r.parts
  (∀ A, byteNow t A = (storedAt r.ty.bytes [(r.addr, run.2.1)] A).getD (byteNow s A)) ∧
  (∀ x, x ∈ t.groom ↔ x ∈ s.groom ∧ x.id ≠ r.id) ∧
  (∀ g, s.gang? r.gang = some g → ∃ g', t.gang? r.gang = some g' ∧ g'.flags = g.flags ||| run.2.2) ∧
  ∀ j p id q, r.parts[j]? = some p → p.pid = some id → q.id = id → Answered s t r.wave q { q with
    opened := false, vals := (List.range r.ty.regCount).map fun k => BitVec.ofNat 32 (run.1.getD j 0 / 2 ^ (32 * k)) }

/-- The threads of `m` of a wave enter the handler from trap entry: `l`'s trap, frame and registers (R247, R248). -/
def Entered (s : State) (w w' : Wave) (l : Nat) (x : TrapInfo) : Prop :=
  w'.thread l = { w.thread l with
    st := .run, pc := w.trapBase, inHandler := true, count := 0, commitDone := false, v := (w'.thread l).v } ∧
  w'.raw l (.v 0) = BitVec.ofNat 32 (frameOfLane s w l) ∧ w'.raw l (.v 1) = BitVec.ofNat 32 (frameOfLane s w l / 2 ^ 32) ∧
  w'.raw l (.v 2) = BitVec.ofNat 32 (x.code % 256 + 256 * (x.pos % 4) + 65536 * (x.n % 256)) ∧ w'.raw l (.v 3) = x.word ∧
  ∀ n : Fin 96, 4 ≤ n.val → w'.raw l (.v n) = w.raw l (.v n)

/-- The code and the line with which a group that left its core runs, where its gang is not versioned, no peer is probed and
no level is busy (R117, R118): `h` is the line's home. -/
def RunsAt (s : State) (g : Sunk) (h code : Nat) (x : Line) : Prop :=
  let d := coreDie g.core
  let home := s.readable d h = true ∧ x = s.homeView g.line
  let deep := s.l1Line? g.core g.line = none ∧ s.sectorHolds (coreSector g.core) g.line (hasStore g.words) g.needs = false ∧
    (if h = d then 3 else 4) ≤ g.floor ∧ home
  let last := g.line ∈ s.homeLines ∨ g.floor < 5 ∨ (s.die h).feat.getLsbD 5 = false
  (code = 1 ∧ ∃ y, s.l1Line? g.core g.line = some y ∧ x = y.data) ∨
  (code = 3 ∧ s.l1Line? g.core g.line = none ∧ 2 ≤ g.floor ∧
    s.sectorHolds (coreSector g.core) g.line (hasStore g.words) g.needs = true ∧
    ∃ y, s.sectLine? (coreSector g.core) g.line = some y ∧ x = y.data) ∨
  (code = (if h = d then 4 else 5) ∧ deep ∧ last) ∨
  (code = (if lineLpddr g.line then 7 else 6) ∧ deep ∧ ¬last) ∨
  (code = 9 ∧ s.l1Line? g.core g.line = none ∧ g.floor < (if h = d then 3 else 4) ∧
    s.sectLine? (coreSector g.core) g.line = none ∧ s.coreRoom g.core g.line = true ∧ home)

/-! ### Launches (R14, R20 to R32, R258, R280, R288, R289, R356 to R371) -/

/-- The packet `x` lies at the read index of a queue that is served, its write index and its seal say (R357, R358). -/
def PacketAt (s : State) (q : Queue) (x : Nat) : Prop :=
  let d := s.queueDie q
  let slot := q.ring + 128 * (q.taken % 2 ^ q.k)
  s.queue? q.id = some q ∧ s.serves q = true ∧ (∃ w, s.devRead q.ctx d q.index 8 = .ok w ∧ q.taken < w) ∧
    s.devRead q.ctx d (slot + 0x7C) 4 = .ok ((q.taken + 1) % 2 ^ 32) ∧ s.devRead q.ctx d slot 128 = .ok x

/-- The bytes `bs` stand at the addresses `pas`. -/
def BytesAt (t : State) (pas : List Nat) (bs : List Byte) : Prop :=
  ∀ (j pa : Nat), pas[j]? = some pa → bs[j]? = some (byteNow t pa)

/-- A packet has been taken: the read index is one on, in the queue and in memory, and the launch is the newest (R357). -/
def Taken (s t : State) (q : Queue) (l : Launch) : Prop :=
  (t.queue? q.id).map (·.taken) = some (q.taken + 1) ∧ l ∈ t.launches ∧ l.id = s.nextId ∧ l.ctx = q.ctx ∧ l.queue = some q.id ∧
    l.prio = q.prio ∧ t.gangs = s.gangs

/-- The bands of a grid of `n` gangs over `dies` dies (R22). -/
def Banded (bs bd n dies : Nat) : Prop := bd = 0 ∨ bs ≠ 0 ∧ bd % bs = 0 ∧ (n + bd - 1) / bd ≤ dies

/-- The handles of a packet (value, new, dims) can be taken as it names them: new ones name no state, nor one state twice, and the
others a live one (R297, R360). -/
def Handles (s : State) (ctx : Nat) (hs : List (Nat × Bool × Nat)) : Prop :=
  (∀ h ∈ hs, if h.2.1 = true then s.stateRec? ctx h.1 = none else ∃ r, s.stateRec? ctx h.1 = some r ∧ r.place ≠ .filling) ∧
    ∀ a b, hs = [a, b] → a.2.1 = true → b.2.1 = true → a.1 ≠ b.1

/-- The read index can be written, at these addresses. -/
def IndexWrites (s : State) (q : Queue) (pas : List Nat) : Prop :=
  HostUncached s ∧ pas.Nodup ∧ s.devPas q.ctx (s.queueDie q) .write (q.index + 64) 8 = .ok pas

/-- The number of a gang's coordinates (R20). -/
def coordinates (l : Launch) (i : Nat) : Nat × Nat × Nat := (i % l.x, i / l.x % l.y, i / (l.x * l.y))

/-- A wave as a gang starts (R14, R24, R27, R254, R290, R292). -/
def Fresh (l : Launch) (gang : Nat) (p : WavePlan) (tk : Nat) (w : Wave) : Prop :=
  w.gang = gang ∧ w.wg = p.wg ∧ w.idx = p.idx ∧ w.role = p.role ∧ w.grant = p.grant ∧ w.track = some tk ∧
    w.fmode = l.fmode ∧ w.xstat = 0 ∧ w.prog = l.hdr.prog ∧ w.trapEn = 0 ∧ w.k = [] ∧ w.pend = [] ∧ w.monitor = none ∧
    w.threads.length = 32 ∧ (∀ k < 32, (w.thread k).st = .run ∧ (w.thread k).pc = BitVec.ofNat 64 (l.codeBase + p.entry) ∧
      (w.thread k).v = [] ∧ (w.thread k).recs = 0 ∧ (w.thread k).inHandler = false) ∧
    ∀ n : Fin 32, w.raw 0 (.s n) = if n.val < 16 then l.argWords.getD n.val 0 else 0

/-- A launch's dependencies, order and parent let it start (R358, R359, R361). -/
def MayStart (s : State) (l : Launch) : Prop :=
  (∀ a ∈ l.deps, ∃ v, s.devRead l.ctx l.die a 8 = .ok v ∧ (v = 0 ∨ 2 ^ 63 ≤ v)) ∧
    (l.order = true → ∀ m ∈ s.launches, m.queue = l.queue → m.queue.isSome = true → l.id ≤ m.id) ∧ l.parent = none

/-- A launch none of whose gangs is left, whose shape is known and whose nodes have completed (R370). -/
def Complete (s : State) (l : Launch) : Prop :=
  l.started = true ∧ l.todo = [] ∧ (∀ g ∈ s.gangs, g.launch ≠ l.id) ∧ (l.shape = true → l.shaped = true) ∧
    ∀ g, l.graph = some g → ∀ n ∈ g.nodes, n.completed = true

/-! ### Gangs and contexts (R21, R258, R259, R262, R267 to R273, R280, R333, R363 to R365) -/

/-- The causes after which a gang may be run again (R255), and whether the launch engine does so (R259). -/
def Requeues (s : State) (g : Gang) (f : GangFault) : Prop :=
  (f.code = 0x80 ∨ f.code = 0x85 ∨ f.code = 9 ∧ f.final = false) ∧ g.committed = false ∧ g.attempt < 3 ∧
    (s.launchOf g).noRerun = false

/-- The gang is gone, with its threads and the tiles it owned (R258, R280, R330). -/
def Gone (t : State) (gid : Nat) : Prop :=
  t.gang? gid = none ∧ (∀ w ∈ t.waves, w.gang ≠ gid) ∧ ∀ y ∈ t.tiles, ∀ n, y.st ≠ .gangOwned gid n

/-- A launch waits for its shape, and its cell holds `v` (R362, R364). -/
def CellHolds (s : State) (lid : Nat) (l : Launch) (v : Nat) : Prop :=
  s.launch? lid = some l ∧ l.shape = true ∧ l.shaped = false ∧ s.launchOn l = true ∧
    s.devRead l.ctx l.die l.cell 8 = .ok v

/-- The live gangs of a launch at or beyond `v` are squashed, the others stand as they were; no gang at or beyond `v` is left
to place (R364). -/
def Cut (s t : State) (lid : Nat) (l l' : Launch) (v : Nat) : Prop :=
  t.launch? lid = some l' ∧ l'.shaped = true ∧ (∀ id g, s.gang? id = some g → ∃ g', t.gang? id = some g' ∧
    (g.launch = lid → g.st = .live → v ≤ g.index → g'.st = .squashed) ∧
    (¬(g.launch = lid ∧ g.st = .live ∧ v ≤ g.index) → g'.st = g.st)) ∧
  l'.trimmed = l.trimmed + (l.todo.filter fun x => v ≤ x.1).length ∧
  l'.squashed = l.squashed + (s.gangs.filter fun g => g.launch == lid && g.st == .live && decide (v ≤ g.index)).length

/-- Every thread of a wave that has not ended is held where R267 lets a gang stop, or kept at its W marker, every result can land,
and is not poisoned, but those that a TIDGET which has not started will give, and no store of the wave is held. -/
def AtRest (s : State) (g : Gang) (w : Wave) : Prop :=
  (∀ h ∈ w.threads, h.st ≠ .ended → h.kept = true ∨ ∃ x, h.st = .held x ∧ x ≠ .leave ∧ (∀ y, x ≠ .word y) ∧ ∀ y, x ≠ .entry y none) ∧
    (∀ f ∈ s.fills, ∀ x ∈ f.stores, x.wave ≠ w.id) ∧ ∀ p ∈ w.pend, s.mayLand p = true ∧ p.bad = false ∨ ∃ o ∈ g.tidOps, ∃ a b, o.act = .get a p.id b

/-- The thread stands at a chain with a W marker and waits for a result from beyond the L1 (R45, R267, R269). -/
def Parked (s : State) (w : Wave) (l : Nat) : Prop :=
  l < 32 ∧ (w.thread l).st = .run ∧ (∃ p ∈ w.pend, p.lanes.getLsbD l = true ∧ p.far = true) ∧
    ∃ ws, s.chainAt w (slotsLeft (w.thread l).pc) (w.thread l).pc = .ok ws ∧ ∃ x ∈ ws, x.getLsbD 30 = true

/-- The tiles saved with a gang at its eviction: its own, those of states bound to it, and those its queued spills move
(R269, R349). -/
def SavedWith (s : State) (g : Gang) (y : Tile) : Prop :=
  y.cluster = g.cluster ∧ ((∃ n, y.st = .gangOwned g.id n) ∨
    (∃ h p r t0, y.st = .pinned h p ∧ y.ctx = (s.launchOf g).ctx ∧ s.stateRec? y.ctx h = some r ∧ r.bound = some (g.id, t0)) ∨
    ∃ h p d, (y.st = .spilling h p ∨ y.st = .left h p) ∧ d ∈ g.tileQ ∧ d.kind = .spill ∧ y.phys ∈ d.foot)

/-- No accumulator word of any gang waits for the tile scheduler. -/
def AllPerformed (s : State) : Prop := ∀ x ∈ s.gangs, ∀ d ∈ x.tileQ, TileCmd.counted d = true

/-- A wave as an eviction leaves it: off its track, its monitor with an event, every result landed that can; its threads stay
where they are held (R267, R269). -/
def Evicted (s : State) (w w1 : Wave) : Prop :=
  w1 = { w with track := none, yieldTrk := false, yieldGrp := false, monitor := w.monitor.map fun m => { m with event := true }
                pend := w1.pend, s := w1.s, xstat := w1.xstat, threads := w1.threads } ∧
    (∀ i, (∃ p ∈ w1.pend, p.id = i) ↔ (∃ p ∈ w.pend, p.id = i) ∧ ∀ p ∈ w.pend, p.id = i → s.mayLand p = false) ∧
    (∀ l, w1.thread l = { w.thread l with v := (w1.thread l).v, recs := (w1.thread l).recs, recOwner := (w1.thread l).recOwner }) ∧
    (w.pend = [] → w1.s = w.s ∧ w1.xstat = w.xstat ∧ w1.threads = w.threads)

/-- A context runs on a partition (R271). -/
def OnPart (c : Ctx) (p : Nat) : Prop := c.part = p ∧ c.out = false ∧ c.lost = false

/-! ### Chain entries (R204, R205, R299, R311 to R318) -/

/-- The event that performs an entry of kind `n`. -/
def entryEvent (gid q : Nat) : Nat → Option Instr
  | 0 => some (.endEntry gid q) | 1 => some (.copyEntry gid q) | 2 => some (.gatherEntry gid q) | 3 => some (.scatterEntry gid q)
  | 4 => some (.transqEntry gid q) | 5 => some (.reduceEntry gid q) | 6 => some (.allgatherEntry gid q)
  | 7 => some (.loopEntry gid q) | 8 => some (.ifEntry gid q) | 9 => some (.waitphEntry gid q) | 10 => some (.flipEntry gid q)
  | 11 => some (.sigdecEntry gid q) | 12 => some (.qfenceEntry gid q)
  | _ => none

/-- Queue `q` of a gang stands at the entry `x` of a chain, as it was read when the queue reached it, or read now (R311); no
pre-emption is asked for. -/
structure Stands (s : State) (gid q : Nat) (g : Gang) (k : Walk) (x : Nat) : Prop where
  gang  : s.gang? gid = some g
  on    : s.engineOn g = true
  walk  : (g.queues.getD q {}).walk = some k
  entry : s.entryHere g k = some x

/-- It stands there and the entry is one that can be performed, in a gang none of whose threads waits on granules. -/
structure AtEntry (s : State) (gid q : Nat) (g : Gang) (k : Walk) (x : Nat) : Prop extends Stands s gid q g k x where
  ok     : s.entryOk g x = true
  unheld : entryHeld x = false
  goes   : k.stop = false
  quiet  : NoFeWait s gid

/-- One entry more of the queue has been performed, and it walks on at `k'`; the gang's other queues are as before. -/
def WalkOn (t : State) (g : Gang) (q : Nat) (k' : Walk) : Prop :=
  ∃ g', t.gang? g.id = some g' ∧
    g'.queues.getD q {} = { g.queues.getD q {} with walk := some k', taken := (g.queues.getD q {}).taken + 1 } ∧
    ∀ j, j ≠ q → g'.queues.getD j {} = g.queues.getD j {}

/-- The walk with the entry `x` that it stands at read. -/
def atHand (k : Walk) (x : Nat) : Walk := { k with cur := some (BitVec.ofNat 256 x) }

/-- The gang with its queue walking on at `k`. -/
def walking (q : Nat) (k : Walk) (g : Gang) : Gang := { g with queues := g.queues.modify q fun y => { y with walk := some k } }

/-- The queue stays at its entry, and nothing but what the walk notes of it changes. -/
def Stays (s t : State) (g : Gang) (q : Nat) (k' : Walk) : Prop :=
  t = { s with gangs := t.gangs } ∧ t.gang? g.id = some (walking q k' g)

/-- `bs` are the `n` bytes that an engine of the gang reads at `a`: in the scratchpad, or in global memory, and none is poisoned
(R182, R204, R386). -/
def Reads (s : State) (g : Gang) (sp : Bool) (a n : Nat) (bs : List Byte) : Prop :=
  if sp = true then
    a + n ≤ (s.launchOf g).hdr.scratch ∧ g.spadBad a n = false ∧ bs = (List.range n).map fun i => Memory.read g.spad (a + i)
  else ∃ pas, s.engPas g .read a n = .ok pas ∧ bs = pas.map (s.engByte g)

/-- `pas` are the places of the `n` bytes that an engine of the gang writes at `a`. -/
def Places (s : State) (g : Gang) (sp : Bool) (a n : Nat) (pas : List Nat) : Prop :=
  if sp = true then a + n ≤ (s.launchOf g).hdr.scratch ∧ pas = (List.range n).map (a + ·)
  else s.engPas g .write a n = .ok pas ∧ pas.Nodup

/-- The bytes `ws` have been written, to the scratchpad or to global memory, and no other byte of either has changed; where
`fill` is set, the granules they lie in are full. -/
def Filled (s t : State) (g : Gang) (sp fill : Bool) (ws : List (Nat × Byte)) : Prop :=
  ∃ g', t.gang? g.id = some g' ∧
    (∀ A, Memory.read g'.spad A = if sp = true then (ws.lookup A).getD (Memory.read g.spad A) else Memory.read g.spad A) ∧
    (∀ A, byteNow t A = if sp = true then byteNow s A else (ws.lookup A).getD (byteNow s A)) ∧
    ∀ k, k ∈ g'.full ↔ k ∈ g.full ∨ sp = true ∧ fill = true ∧ ∃ p ∈ ws, p.1 / 16 = k

/-- An entry of a LOOP's body before the next pass: without a ring, and with ring `r` of geometry `d` (R314). -/
def loopStep (x y : Nat) : Nat :=
  if entryKind y = 1 ∨ entryKind y = 2 ∨ entryKind y = 3 then
    setNfld (setNfld y 8 8 (nfld y 8 8 + nfld x 8 8)) 16 8 (nfld y 16 8 + nfld x 16 8)
  else y
def ringStep (r : Nat) (d : Rink) (x y : Nat) : Nat :=
  let side (sp : Bool) (step o y : Nat) : Nat :=
    if sp = true ∧ d.base ≤ nfld y o 8 ∧ nfld y o 8 < d.base + d.size * d.count then
      setNfld y o 8 (d.base + (nfld y o 8 - d.base + d.size) % (d.size * d.count))
    else setNfld y o 8 (nfld y o 8 + step)
  let stage (o y : Nat) : Nat := if nfld y o 1 = r then setNfld y (o + 1) 1 ((nfld y (o + 1) 1 + 1) % d.count) else y
  if entryKind y = 1 ∨ entryKind y = 2 ∨ entryKind y = 3 then
    side (entryFlag y 3) (nfld x 16 8) 16 (side (entryFlag y 2) (nfld x 8 8) 8 y)
  else if entryKind y = 9 ∨ entryKind y = 10 then stage 2 y
  else if entryKind y = 8 ∧ 2 ≤ nfld y 1 1 then stage 8 y
  else y

/-- Is the condition of an IF true (R313)? -/
def ifHolds (g : Gang) (x : Nat) : Prop :=
  let word := Memory.readNat g.spad (nfld x 4 4) 4
  let phase := (g.rinks.getD (nfld x 8 1) {}).phases.getLsbD (nfld x 9 1)
  match nfld x 1 1 with
  | 0 => word ≠ 0
  | 1 => word = 0
  | 2 => phase = decide (nfld x 10 1 = 1)
  | _ => phase ≠ decide (nfld x 10 1 = 1)

/-- x op y of a REDUCE (R315). -/
def collOne (d : CollDesc) (x y : Nat) : Nat :=
  let f : FpFmt := if d.ty = 0 then .f32 else .bf16
  if d.ty = 2 then
    match d.op with
    | 0 => (x + y) % 2 ^ 32
    | 1 => if (BitVec.ofNat 32 x).toInt ≤ (BitVec.ofNat 32 y).toInt then x else y
    | _ => if (BitVec.ofNat 32 x).toInt ≤ (BitVec.ofNat 32 y).toInt then y else x
  else if d.op = 0 then (FpFmt.add f { mode := .rne } (f.read false x) (f.read false y)).bits
  else (FpFmt.minmax f (d.op == 2) false 0 x y).bits

/-- Element `i`, of `n` bytes, of a block; the block of member `m`. -/
def elemOf (n : Nat) (bs : List Byte) (i : Nat) : Nat := bytesNat ((bs.drop (n * i)).take n)
def blockOf (rank : Nat) (c : Coll) (mine : List Byte) (m : Nat) : List Byte :=
  if m = rank then mine else ((c.arrived.find? fun a => a.member == m).map (·.data)).getD []

/-- The members of a collective's entry have all arrived. -/
def Gathered (tb : CollTable) (c : Coll) : Prop := ∀ m < tb.members, m ≠ tb.rank → ∃ a ∈ c.arrived, a.member = m

/-! ### The tile scheduler, the engines and their commands (R141 to R143, R150, R309, R318 to R336, R349) -/

/-- A tile task in a gang's queue that the scheduler starts now, its footprint found: `x` is its record (R323, R327). -/
structure Starts (s : State) (gid idx : Nat) (g : Gang) (c : TileCmd) (x : Nat) : Prop where
  cmd    : s.cmd? gid idx = some (g, c)
  next   : s.nextTask g = some c
  mapped : ∀ p ∈ c.foot, p < 256
  record : x = Memory.readNat g.spad c.off 64

/-- The rows a task computes (R323). -/
def taskRows (c : TileCmd) (x : Nat) : Nat := if c.head.getLsbD 13 then nfld x 40 4 else nfld c.head.toNat 2 1

/-- The tile and the (first) word of element (i, j) of a region (R322). -/
def accPlace (c : TileCmd) (i j : Nat) : Nat × Nat :=
  let n := nfld c.head.toNat 3 1
  if c.head.getLsbD 14 then (c.foot.getD (i / 32 * ((n + 15) / 16) + j / 16) 0, 2 * (16 * (i % 32) + j % 16))
  else (c.foot.getD (i / 32 * ((n + 31) / 32) + j / 32) 0, 32 * (i % 32) + j % 32)

/-- The bits of element (i, j). -/
def accBits (s : State) (cl : Nat) (c : TileCmd) (i j : Nat) : Nat :=
  let p := accPlace c i j
  (s.tileWord cl p.1 p.2).toNat + if c.head.getLsbD 14 then 2 ^ 32 * (s.tileWord cl p.1 (p.2 + 1)).toNat else 0

/-- The task has written `f i j` to every element it computes, and no other accumulator word has changed. -/
def Accumulated (s t : State) (g : Gang) (c : TileCmd) (x : Nat) (f : Nat → Nat → Nat) : Prop :=
  (∀ i < taskRows c x, ∀ j < nfld c.head.toNat 3 1,
    accBits t g.cluster c i j = f i j % 2 ^ (if c.head.getLsbD 14 then 64 else 32)) ∧
  ∀ cl p n, ¬(cl = g.cluster ∧ ∃ i < taskRows c x, ∃ j < nfld c.head.toNat 3 1, p = (accPlace c i j).1 ∧
      (n = (accPlace c i j).2 ∨ c.head.getLsbD 14 = true ∧ n = (accPlace c i j).2 + 1)) →
    t.tileWord cl p n = s.tileWord cl p n

/-- The task runs on an engine, with the stage it will flip (R328). -/
def Started (t : State) (g : Gang) (c : TileCmd) (x : Nat) : Prop :=
  ∃ g', t.gang? g.id = some g' ∧ g'.tileQ = g.tileQ.map fun d => if d.seq = c.seq then
    { d with started := true, flip := if c.head.getLsbD 10 then some (nfld x 35 1, nfld x 36 1) else none } else d

/-- What R321, R324 and R325 ask of an MMA or MMAG whose rows of A are `idx`; its K-block is `kb`. Nothing is asked of the extents
where there is no k or no row (R328). -/
def MmaOk (s : State) (g : Gang) (c : TileCmd) (x : Nat) (a b : Tensor) (idx : List Nat) (kb : Nat) : Prop :=
  ∃ depth kb0, pairOf a.fmt b.fmt = some (depth, kb0) ∧ nfld x 4 4 % depth = 0 ∧ nfld x 4 4 ≤ 8192 ∧
    c.head.getLsbD 14 = decide (a.fmt = 1) ∧
    kb = (if a.sblk ≠ 0 then a.sblk else if b.sblk ≠ 0 then b.sblk else kb0) ∧
    (a.sblk = 0 ∨ a.sdim = 0 ∧ a.sblk = kb) ∧ (b.sblk = 0 ∨ b.sdim = 0 ∧ b.sblk = kb) ∧
    (a.fmt = 1 → (s.die g.die).feat.getLsbD Feature.f64mx.bit = true) ∧
    (nfld x 4 4 ≠ 0 → idx ≠ [] → nfld x 24 4 + nfld x 4 4 ≤ a.ext.getD 0 1 ∧ (∀ r ∈ idx, r < a.ext.getD 1 1) ∧
      nfld x 24 4 + nfld x 4 4 ≤ b.ext.getD 0 1 ∧ nfld x 20 4 + nfld c.head.toNat 3 1 ≤ b.ext.getD 1 1)

/-- A command of a gang's tile queue that is no task, about to run (R327, R349); `on` says whether a pre-emption stops it. -/
structure Runs (s : State) (gid idx : Nat) (g : Gang) (c : TileCmd) (k : TqKind) (on : Bool) : Prop where
  cmd   : s.cmd? gid idx = some (g, c)
  kind  : c.kind = k
  on    : on = true
  start : s.mayStart g c = true
  quiet : NoFeWait s gid
  done  : AllPerformed s

/-- The command has left the queue, and the gang's scratchpad and rinks are as before. -/
def Left (t : State) (g : Gang) (idx : Nat) : Prop :=
  ∃ g', t.gang? g.id = some g' ∧ g'.tileQ = g.tileQ.filter (fun d => d.seq != idx) ∧ g'.spad = g.spad ∧ g'.rinks = g.rinks

/-- The rows of S after `t` tokens (R335): α, β, the keys and the values of each token. -/
def deltaRows (dk : Nat) (al be : Nat → Fv) (ks vs : Nat → Nat → Fv) (rows : Nat → List Nat) : Nat → Nat → List Nat
  | 0, i => rows i
  | t + 1, i => (updateRow (al t) (be t) ((List.range dk).map (ks t)) (vs t i) (deltaRows dk al be ks vs rows t i)).1.map (· % 2 ^ 32)

/-- Row `i` of the state whose tiles are `ps` (R322, R330). -/
def rowOf (s : State) (cl dk : Nat) (ps : List Nat) (i : Nat) : List Nat :=
  (List.range dk).map fun j => (s.tileWord cl (ps.getD (i / 32 * ((dk + 31) / 32) + j / 32) 0) (32 * (i % 32) + j % 32)).toNat

/-- A chunk record's entry `tid` can be read, and it fits `n` elements of `count` rows or does not (R300). -/
def Entry (s : State) (g : Gang) (tid n count : Nat) (fits : Bool) : Prop :=
  ∃ e p, s.tensor g tid = .ok (e, p) ∧
    fits = ((e.fmt = 0 ∨ e.fmt = 2 ∨ e.fmt = 3) ∧ n ≤ e.ext.getD 0 1 ∧ count ≤ e.ext.getD 1 1 : Bool)

/-- A valid entry in the scratchpad that fits `n` elements of `count` rows, its elements `f t j` (R149, R300). -/
def Operand (s : State) (g : Gang) (tid n count : Nat) (f : Nat → Nat → Fv) : Prop :=
  ∃ e p, s.tensor g tid = .ok (e, p) ∧ (e.fmt = 0 ∨ e.fmt = 2 ∨ e.fmt = 3) ∧ e.sp = true ∧ n ≤ e.ext.getD 0 1 ∧
    count ≤ e.ext.getD 1 1 ∧ ∀ t < count, ∀ j < n, ∃ y, s.elem g e j t = .ok y ∧ y.v = f t j

/-- No byte of the elements `(j, t)`, `j < n` and `t < count`, of a scratchpad entry is among `places`. -/
def Apart (s : State) (g : Gang) (tid n count : Nat) (places : List Nat) : Prop :=
  ∀ e p, s.tensor g tid = .ok (e, p) → ∀ t < count, ∀ j < n, ∀ a, e.addr j t = some a → ∀ i < e.bytes, a + i ∉ places

/-- The destination numbers of the items that a binning descriptor `x` names in the bytes of its list (R319). -/
def destinations (x : Nat) (bs : List Byte) : List Nat :=
  (List.range (nfld x 8 4)).map fun i => bytesNat ((bs.drop (nfld x 12 2 * i + nfld x 14 2)).take 4)

/-! ### Mailboxes (R376, R377, R382 to R384, R388) -/

/-- `i` is the event that performs the command with an opcode; `bs` are the argument bytes (first, number) that it uses (R383). -/
def IsMail (fn op : Nat) (i : Instr) (bs : List (Nat × Nat)) : Prop :=
  op = 1 ∧ i = .setContext fn ∧ bs = [(8, 44)] ∨ op = 2 ∧ i = .regQueue fn ∧ bs = [(8, 18)] ∨
  op = 3 ∧ i = .unregQueue fn ∧ bs = [(8, 2)] ∨ op = 4 ∧ i = .regPredictor fn ∧ bs = [(8, 8)] ∨
  op = 5 ∧ i = .regCollective fn ∧ bs = [(8, 8)] ∨ op = 6 ∧ i = .setWatchdog fn ∧ bs = [(8, 1)] ∨
  op = 7 ∧ i = .tlbInv fn ∧ bs = [(8, 16)] ∨ op = 8 ∧ i = .faultReply fn ∧ bs = [(8, 9)] ∨
  op = 9 ∧ i = .resetVi fn ∧ bs = [] ∨ op = 10 ∧ i = .regEvents fn ∧ bs = [(8, 17)] ∨
  op = 11 ∧ i = .attest fn ∧ bs = [(8, 40)]

/-- The command `x` of a function's mailbox is in progress, or stands submitted in the buffer and has not been read yet. -/
def Stored (v : Vi) (x : Nat) : Prop :=
  (∃ y, v.cmd = some y ∧ x = y.toNat) ∨ v.cmd = none ∧ v.sub = true ∧ x = Memory.readNat v.window 0x100 64

/-- The command `x` stands in a function's mailbox, and its event is `i`. -/
structure Submitted (s : State) (fn op : Nat) (i : Instr) (v : Vi) (x : Nat) : Prop where
  event : ∃ bs, IsMail fn op i bs
  vi    : s.vi? fn = some v
  ready : s.stage = 6
  buf   : Stored v x
  op    : nfld x 0 2 = op

/-- Its tag is nonzero, and so is no argument byte that its opcode does not use. -/
structure Formed (fn op x : Nat) : Prop where
  tag  : nfld x 2 2 ≠ 0
  zero : ∀ i bs, IsMail fn op i bs → ∀ j < 56, (∀ r ∈ bs, ¬(r.1 ≤ 8 + j ∧ 8 + j < r.1 + r.2)) → nfld x (8 + j) 1 = 0

/-- It names the context `c` of its function; it names none. -/
structure Names (s : State) (fn x : Nat) (c : Ctx) : Prop where
  named : nfld x 4 4 ≠ 0xFFFFFFFF
  ctx   : s.ctx? (nfld x 4 4) = some c
  owner : c.fn = fn
  kept  : c.lost = false
def Unnamed (x : Nat) : Prop := nfld x 4 4 = 0xFFFFFFFF

/-- A submitted command that its opcode and its context allow. -/
def Command (s : State) (fn op : Nat) (i : Instr) (v : Vi) (x : Nat) : Prop := Submitted s fn op i v x ∧ Formed fn op x

/-- The command is in progress from now on, whatever is written to the buffer (R383). -/
def Begun (t : State) (fn x : Nat) (v : Vi) : Prop :=
  t.vi? fn = some { v with cmd := some (BitVec.ofNat 512 x), sub := v.sub && v.cmd.isSome }

/-- The reply and the done word of a function's window; the rest of the window is as in `v`, and no command is in progress; one
that was submitted meanwhile still stands (R383). -/
def Replied (t : State) (fn x status res : Nat) (v : Vi) : Prop :=
  ∃ v', t.vi? fn = some v' ∧ v'.cmd = none ∧ v'.sub = (v.sub && v.cmd.isSome) ∧ Memory.readNat v'.window 0x1C0 4 = nfld x 2 2 ∧
    Memory.readNat v'.window 0x180 4 = nfld x 0 4 ∧ Memory.readNat v'.window 0x184 4 = status ∧
    Memory.readNat v'.window 0x188 56 = res % 2 ^ 448 ∧
    ∀ A, ¬(0x180 ≤ A ∧ A < 0x1C4) → Memory.read v'.window A = Memory.read v.window A

/-- The areas that SET_CONTEXT gives a context (R382, R383). -/
def withAreas (c : Ctx) (x : Nat) : Ctx :=
  { c with root := nfld x 8 8, tid := nfld x 16 8, area := nfld x 24 8, areaSize := nfld x 32 8, logAddr := nfld x 40 8
           logSize := nfld x 48 4 }

/-- The core has slept, no wave with a thread that has not ended on it, and one of the tracks is one of its own (R387). Core 0 of a cluster never sleeps:
the groomer's wave is resident there (R31). -/
def CoreWakes (s : State) (tracks : List Nat) (core : Nat) : Prop :=
  (∃ t ∈ tracks, t / 8 = core) ∧ core % 4 ≠ 0 ∧ ∀ w ∈ s.waves, w.track.isSome = true → (∃ l, Live w l) → w.core ≠ core

/-- A thread of the gang waits at a translation fault on a page (R105, R377). -/
def WaitsOn (s : State) (gid page : Nat) : Prop :=
  ∃ w ∈ s.waves, w.gang = gid ∧ ∃ l < 32, ∃ fr, (w.thread l).st = .held (.xlate page fr)

/-- The machine after a reset: every memory of the device wiped, and no byte of the host's; no queue; fuses and repairs stay
(R389, R391). -/
def Wiped (s t : State) : Prop :=
  (∀ A, byteNow t A = if A < 2 ^ 49 then 0 else Memory.read s.mem A) ∧ t.sect = [] ∧ t.l1 = [] ∧ t.fills = [] ∧ t.versions = [] ∧ t.tlb = [] ∧ t.sectTlb = [] ∧
    t.tiles = [] ∧ t.waves = [] ∧ t.gangs = [] ∧ t.launches = [] ∧ t.queues = [] ∧ (∀ a ∈ t.poison, a ∈ s.poison ∧ 2 ^ 49 ≤ 4 * a) ∧
    t.life = (s.nextLife.getD s.life) ∧ (∀ d, (t.die d).feat = (s.die d).feat) ∧
    Memory.readNat ((t.vi? 0).elim [] (·.window)) 0 4 = t.stage

/-- Is firmware signed with key `k` accepted in a life-cycle state (R389); once the keys are erased, recovery firmware alone is
(R390). -/
def Accepts (life : LifeCycle) (erased : Bool) (k : FwKey) : Prop :=
  life ≠ .scrapped ∧ if erased = true then k = .recovery else
    life = .blank ∧ k = .manufacturing ∨ life = .develop ∧ (k = .development ∨ k = .production) ∨
    life = .production ∧ k = .production ∨ life = .ret ∧ k = .analysis

/-- The stage that a reset ends in, and the dies that it withdraws (R391). -/
def Staged (s t : State) (erased : Bool) : Prop :=
  let runs (x : FwImage) : Prop := x.intact = true ∧ Accepts t.life erased x.key
  let left : Prop := ∃ d ∈ s.dies, d.withdrawn = false ∧ d.id ∉ s.badDies
  (¬runs s.boot → t.stage = 0xE2) ∧ (runs s.boot → ¬left → t.stage = 0xE3) ∧
    (runs s.boot → left → ¬runs s.supervisor → t.stage = 0xE5) ∧ (runs s.boot → left → runs s.supervisor → t.stage = 6) ∧
    (runs s.boot → ∀ d ∈ s.dies, d.id ∈ s.badDies → (t.die d.id).withdrawn = true)

/-! ### Issue and the whole machine (R222, R229, R389) -/

/-- The wave numbers are pairwise distinct. -/
def WaveIds (s : State) : Prop := s.waves.Pairwise fun v w => v.id ≠ w.id

/-- A scan's candidate `c` is ready and not the lead `d` (R222). -/
def OtherReady (cs : List Cand) (d c : Cand) : Prop := c ∈ cs ∧ c.pc ≠ d.pc ∧ c.ready ≠ 0

/-- `c` has the largest wait count of the ready candidates that are not the lead; on a tie it has the lowest program counter
(R222). -/
def Longest (cs : List Cand) (d c : Cand) : Prop :=
  OtherReady cs d c ∧ ∀ e, OtherReady cs d e → e.count ≤ c.count ∧
    ((cs.Pairwise fun a b => a.pc.toNat < b.pc.toNat) → e.count = c.count → c.pc.toNat ≤ e.pc.toNat)

/-- The key of the oldest wave: its age stamp less 16 times the PRI of the head of its next chain's packet (R229). -/
def ageKey (s : State) (x : Scan) : Int :=
  (x.wave.age : Int) - 16 * ((x.pick.map fun c => (s.headOf x.wave c.pc).toNat / 2 ^ 24 % 8).getD 0 : Nat)

/-- `x` comes before every other of `xs` by the larger `n`, then by the older age stamp (R229). -/
def First (n : Scan → Nat) (xs : List Scan) (x : Scan) : Prop :=
  x ∈ xs ∧ ∀ y ∈ xs, n y < n x ∨ (n y = n x ∧ x.wave.age ≤ y.wave.age)

/-- Words that spec/05 to spec/25 write out field by field, one for each of ten families, and the forms they stand for. -/
def decodeSamples : List (Instr × Word) :=
  [(.bfx (.v 6) (.v 1) (.s 2), 0x06A180E2#32), (.muli (.v 2) (.v 0) 0x040#10, 0x0D040040#32),
   (.cmpN .ge 0 .set (.v 0) (.s 4), 0x11500064#32), (.fmac (.v 6) (.v 2) (.v 3), 0x17018103#32),
   (.redaddI (.s 16) (.v 4) (.s 5), 0x201C0265#32), (.ld .b32 (.v 5) (.v 2) .wave .plain .dflt, 0x22414100#32),
   (.atom .add .b32 (.v 20) (.v 22) .pkg false, 0x2800A16A#32), (.waitk 8, 0x2D280000#32),
   (.lift 2 (.s 17), 0x3300B880#32), (.rkinit 1 (.s 20), 0x36001E80#32)]
end Sys2Proof.Claims

open Sys2Proof Sys2Proof.Machine Sys2Proof.Claims

/-- R83, R86 to R89, R160, R165: ADD to NOR, the shifts and rotates and BFX write f(A, B) to d in every thread of the group;
the counts, reversals and immediate forms write f(A); the funnels, BFI, DP4.i8 and PKB read the old d as a source as well.
The threads go on at the next word, no flag is raised, and everything else is left alone. The words of the forms of R86. -/
def Obligations.IntegerResults : Prop :=
  (∀ s c w i d a b f, twoSource i = some (d, a, b, f) → i.wellFormed = true → Issuing s c w → illReg i w = false →
     ∃ t w', exec i s = .next t ∧ RegisterWord s c w t w' ∧ w'.xstat = w.xstat ∧
       Wrote c w w' fun l => [(d, f (rd s w l a) (rd s w l b))]) ∧
  (∀ s c w i d a f, oneSource i = some (d, a, f) → i.wellFormed = true → Issuing s c w → illReg i w = false →
     ∃ t w', exec i s = .next t ∧ RegisterWord s c w t w' ∧ w'.xstat = w.xstat ∧
       Wrote c w w' fun l => [(d, f (rd s w l a))]) ∧
  (∀ s c w i d a b f, threeSource i = some (d, a, b, f) → i.wellFormed = true → Issuing s c w → illReg i w = false →
     ∃ t w', exec i s = .next t ∧ RegisterWord s c w t w' ∧ w'.xstat = w.xstat ∧
       Wrote c w w' fun l => [(d, f (rd s w l d) (rd s w l a) (rd s w l b))]) ∧
  ∀ fn f, bitwiseForms[fn]? = some f → ∀ d a b, encode (f d a b) = some (rrrWord 0x04 fn d a b)

/-- R84, R85: the pair forms write the 64-bit result to d:d+1, the shifts by B[5:0]; the saturating forms clamp the exact
result, and set XSTAT.SA when they clamp in any computing thread. The words of the forms of R85. -/
def Obligations.PairAndSaturatingResults : Prop :=
  (∀ s c w i, i.wellFormed = true → Issuing s c w → illReg i w = false →
     (∀ d a b f, pairSource i = some (d, a, b, f) →
       ∃ t w', exec i s = .next t ∧ RegisterWord s c w t w' ∧ w'.xstat = w.xstat ∧
         Wrote c w w' fun l => pairWrites d (f (rd64 s w l a) (rd64 s w l b))) ∧
     ∀ d a b f, pairShift i = some (d, a, b, f) →
       ∃ t w', exec i s = .next t ∧ RegisterWord s c w t w' ∧ w'.xstat = w.xstat ∧
         Wrote c w w' fun l => pairWrites d (f (rd64 s w l a) ((rd s w l b).toNat % 64))) ∧
  (∀ s c w i d a b f lo hi, saturating i = some (d, a, b, f, lo, hi) → i.wellFormed = true → Issuing s c w →
     illReg i w = false →
     ∃ t w', exec i s = .next t ∧ RegisterWord s c w t w' ∧
       (Wrote c w w' fun l => [(d, BitVec.ofInt 32 (max lo (min hi (f (rd s w l a) (rd s w l b)))))]) ∧
       Raised d c w w' fun l =>
         if f (rd s w l a) (rd s w l b) < lo ∨ hi < f (rd s w l a) (rd s w l b) then flagSA else 0) ∧
  ∀ fn f, pairForms[fn]? = some f → ∀ d a b, encode (f d a b) = some (rrrWord 0x07 fn d a b)

/-- R154, R165, R166: the bit forms and the packing forms write their result, the i8 and PS2 forms decoded and encoded as
R132, R133 and R166 say, with SA and FV as R166 says. -/
def Obligations.PackingResults : Prop :=
  ∀ s c w i, i.wellFormed = true → Issuing s c w → Allowed s i w →
    (∀ d a b f, packing i = some (d, a, b, f) →
      ∃ t w', exec i s = .next t ∧ RegisterWord s c w t w' ∧
        (Wrote c w w' fun l => [(d, (f (rd s w l a) (rd s w l b)).1)]) ∧
        Raised d c w w' fun l => (f (rd s w l a) (rd s w l b)).2) ∧
    (∀ d a b, i = .dp4Ps2 d a b →
      ∃ t w', exec i s = .next t ∧ RegisterWord s c w t w' ∧ w'.xstat = w.xstat ∧
        Wrote c w w' fun l => [(d, ps2Dot (rd s w l d) (rd s w l a) (rd s w l b))]) ∧
    ∀ d a, i = .pkps d a →
      ∃ (t : State) (w' : Wave) (k : Nat → Byte), exec i s = .next t ∧ RegisterWord s c w t w' ∧
        (∀ l, IsPs2Code (max (-128) (min 128 (rd s w l a).toInt)) (k l)) ∧
        (Wrote c w w' fun l => [(d, (rd s w l d).extractLsb' 0 24 ++ k l)]) ∧
        Raised d c w w' fun l =>
          (if 128 < (rd s w l a).toInt ∨ (rd s w l a).toInt < -128 then flagSA else 0) |||
          if ps2Form (k l) = max (-128) (min 128 (rd s w l a).toInt) then 0 else flagIX

/-- R90, R240, R243: the integer compares, the mask instructions and VTOK write the issuing threads' own bits of kd; bits of
other threads are unchanged. -/
def Obligations.MaskResults : Prop :=
  ∀ s c w i k, (∃ q, maskForm s w (lowest c.lanes) i = some (k, q)) → i.wellFormed = true → Issuing s c w →
    illReg i w = false →
    ∃ t w', exec i s = .next t ∧ w'.xstat = w.xstat ∧
      MaskWord s c w t w' k fun l => ((maskForm s w l i).map Prod.snd).getD false

/-- R91: the floating compares: unordered pairs, FTZI, and IV. -/
def Obligations.FloatCompareResults : Prop :=
  ∀ s c w q k x a b, Issuing s c w →
    (illReg (.cmpF32 q k x a b) w = false →
      ∃ t w', exec (.cmpF32 q k x a b) s = .next t ∧
        (MaskWord s c w t w' k fun l => combined x (w.kbit k l) (fholds q (f32 s w l a) (f32 s w l b))) ∧
        ∀ n, w'.xstat.getLsbD n = (w.xstat.getLsbD n ||
          (n == 0 && (lanesOf c.lanes).any fun l => fraises q (f32 s w l a) (f32 s w l b)))) ∧
    ((Instr.cmpF64 q k x a b).wellFormed = true → illReg (.cmpF64 q k x a b) w = false →
      ∃ t w', exec (.cmpF64 q k x a b) s = .next t ∧
        (MaskWord s c w t w' k fun l => combined x (w.kbit k l) (fholds q (f64 s w l a) (f64 s w l b))) ∧
        ∀ n, w'.xstat.getLsbD n = (w.xstat.getLsbD n ||
          (n == 0 && (lanesOf c.lanes).any fun l => fraises q (f64 s w l a) (f64 s w l b))))

/-- R92, R102, R243: CMOV, KTOV, MOVRI and MOVIR. CMOV writes only where its condition holds, taken from the lowest thread
for a uniform destination; KTOV writes the whole mask; MOVRI reads the register its index names, and MOVIR, alone in its
chain, writes it, an index of 127 writing nothing. That a MOVRI with d and a uniform whose index names a vector register reads
the lowest lane's is the model's choice (log entry 66). -/
def Obligations.MoveResults : Prop :=
  ∀ s c w, Issuing s c w →
    (∀ k n d a, (Instr.cmov k n d a).wellFormed = true → illReg (.cmov k n d a) w = false →
      ∃ t w', exec (.cmov k n d a) s = .next t ∧ RegisterWord s c w t w' ∧ w'.xstat = w.xstat ∧
        Wrote c w w' fun l => if xor (w.kbit k l) n then [(d, rd s w l a)] else []) ∧
    (∀ d k, illReg (.ktov d k) w = false →
      ∃ t w', exec (.ktov d k) s = .next t ∧ RegisterWord s c w t w' ∧ w'.xstat = w.xstat ∧
        Wrote c w w' fun _ => [(d, w.kreg k)]) ∧
    (∀ d a, (Instr.movri d a).wellFormed = true → illReg (.movri d a) w = false →
      (∀ l, c.lanes.getLsbD l = true → (rd s w l a).toNat < 128 ∧
        ((rd s w l a).toNat < 96 → (rd s w l a).toNat < w.grant)) →
      ∃ t w', exec (.movri d a) s = .next t ∧ RegisterWord s c w t w' ∧ w'.xstat = w.xstat ∧
        Wrote c w w' fun l => [(d, rd s w l (Reg.ofNat (rd s w l a).toNat))]) ∧
    ∀ d a, (Instr.movir d a).wellFormed = true → illReg (.movir d a) w = false →
      (∀ l, c.lanes.getLsbD l = true → ((rd s w l a).toNat < 96 ∧ (rd s w l a).toNat < w.grant) ∨ (rd s w l a).toNat = 127) →
      ∃ t w', exec (.movir d a) s = .next t ∧ RegisterWord s c w t w' ∧ w'.xstat = w.xstat ∧
        Wrote c w w' fun l => [(Reg.ofNat (rd s w l a).toNat, rd s w l d)]

/-- R152, R154, R155, R159 to R164: the rounding forms of fixed class write their result, read with FTZI and rounded by
FMODE or by the conversion's own mode; they raise the flags of every computing lane and step the generators that round
stochastically. -/
def Obligations.FloatResults : Prop :=
  ∀ s c w i d k, (∃ x, floatForm s w (lowest c.lanes) i = some (d, k, x)) → i.wellFormed = true → Issuing s c w →
    Allowed s i w →
    ∃ t w', exec i s = .next t ∧ WordFrame s c w t w' ∧ GoOn c w w' ∧ MaskKept w w' ∧
      (Wrote c w w' fun l => wordsAt d k (roundedOf (floatForm s w l i)).bits) ∧
      (Raised d c w w' fun l => (roundedOf (floatForm s w l i)).flags) ∧
      GenStepped d c w w' fun l => roundedOf (floatForm s w l i)

/-- R34, R153, R156 to R158: the forms of returning class compute at issue, write nothing then, and leave a result
outstanding with its registers, values and flags. -/
def Obligations.FloatReturns : Prop :=
  ∀ s c w i d k, (∃ x, floatReturn s w (lowest c.lanes) i = some (d, k, x)) → i.wellFormed = true → Issuing s c w →
    Allowed s i w →
    ∃ t w', exec i s = .next t ∧ ReturningWord s c w t w' ∧
      (Leaves d c w' fun l =>
        (wordsAt d k (roundedOf (floatReturn s w l i)).bits, (roundedOf (floatReturn s w l i)).flags)) ∧
      GenStepped d c w w' fun l => roundedOf (floatReturn s w l i)

/-- R152: with a NaN among its binary32 registers an operation's result is the canonical NaN. In every computing lane where a
register it reads as binary32 holds a NaN (of a dot product, d), the additions, products, fused forms and dot products write
0x7FC00000, whatever the operand's payload and the rounding mode. -/
def Obligations.NanResults : Prop :=
  ∀ s c w i d rs, nanSources i = some (d, rs) → i.wellFormed = true → Issuing s c w → Allowed s i w → d ≠ .s 31 →
    ∃ t w', exec i s = .next t ∧ t.wave? w.id = some w' ∧
      ∀ l ∈ lanesFor d c, (∃ r ∈ rs, isNan32 (rd s w l r) = true) → w'.raw l d = 0x7FC00000#32

/-- R135, R136: a finite nonzero value that a format represents rounds to itself in every mode, raises nothing and steps no
generator, unless it is subnormal and FTZO flushes it. -/
def Obligations.RoundExact : Prop :=
  ∀ (f : FpFmt) (r : Rounding) (x m : Nat) (n : Bool) (e : Int), x < 2 ^ f.bits → f.read false x = .fin n m e → m ≠ 0 →
    (r.ftzo = false ∨ f.flushes = false ∨ 2 ^ f.fbits ≤ m) → f.round r n m e = { bits := x, flags := 0, gen := r.gen }

/-- R94, R95: SHFL to RDL leave a result with the source lane's register, as it stood at issue where the lane is in the
group, and otherwise read at some time before the landing; WRL leaves one for lane L of the group, and none where L is
outside it. -/
def Obligations.CrossLaneResults : Prop :=
  ∀ s c w i, i.wellFormed = true → Issuing s c w → illReg i w = false →
    (∀ d a b f, shuffle i = some (d, a, b, f) →
      ∃ t w', exec i s = .next t ∧ ReturningWord s c w t w' ∧ GenKept c w w' ∧
        ∀ l ∈ lanesFor d c, ∃ p ∈ w'.pend,
          p.lane = (if d.isUni then none else some l) ∧ p.lanes = (if d.isUni then c.lanes else laneBit l) ∧
          p.regs = [d] ∧ p.flags = 0 ∧ p.opened = false ∧ p.seen = [] ∧
          (c.lanes.getLsbD (f l ((rd s w l b).toNat % 32)) = true →
            p.vals = [rd s w (f l ((rd s w l b).toNat % 32)) a] ∧ p.late = none) ∧
          (c.lanes.getLsbD (f l ((rd s w l b).toNat % 32)) = false →
            p.vals = [w.raw (f l ((rd s w l b).toNat % 32)) a] ∧
            p.late = some (f l ((rd s w l b).toNat % 32), .reg a))) ∧
    ∀ d a b, i = .wrl d a b →
      ∃ t w', exec i s = .next t ∧ ReturningWord s c w t w' ∧ GenKept c w w' ∧
        (c.lanes.getLsbD ((rd s w (lowest c.lanes) b).toNat % 32) = true →
          ∃ p ∈ w'.pend, p.lane = some ((rd s w (lowest c.lanes) b).toNat % 32) ∧
            p.lanes = laneBit ((rd s w (lowest c.lanes) b).toNat % 32) ∧ p.regs = [d] ∧
            p.vals = [rd s w (lowest c.lanes) a] ∧ p.flags = 0 ∧ p.opened = false ∧ p.late = none) ∧
        (c.lanes.getLsbD ((rd s w (lowest c.lanes) b).toNat % 32) = false → ¬s.holding w.id Hold.isFe →
          w'.pend = w.pend)

/-- R96, R97: the reductions return the terms of the group combined in ascending lane order from B of the lowest thread, to
every participant or once; the scans return to each participant the running value after its own term. The binary32 forms
round each step to nearest even and raise the flags of all steps: that those stand on each lane's result, to be raised as it
lands, and leave XSTAT as it is at issue, is the model's choice (log entry 64). -/
def Obligations.ReductionResults : Prop :=
  ∀ s c w i scan d a b f, reduction w i = some (scan, d, a, b, f) → i.wellFormed = true → Issuing s c w → Allowed s i w →
    ∃ t w', exec i s = .next t ∧ ReturningWord s c w t w' ∧ GenKept c w w' ∧
      Leaves d c w' fun l =>
        let terms (ls : List Nat) : List Word := ls.map fun j => rd s w j a
        let all := combineAll f (rd s w (lowest c.lanes) b) (terms (lanesOf c.lanes))
        let upTo := combineAll f (rd s w (lowest c.lanes) b) (terms ((lanesOf c.lanes).filter (· ≤ l)))
        ([(d, if scan && !d.isUni then upTo.1 else all.1)], all.2)

/-- R99, R100, R260: READS writes the control register's value to d, and changes no control register; WRITES gives a writable
one the value of its uniform source, ignoring the bits the register does not name, unless the value gives FMODE an rmode of
6 or 7. -/
def Obligations.ControlRegisterResults : Prop :=
  (∀ s c w d r, (Instr.reads d r).wellFormed = true → Issuing s c w → illReg (.reads d r) w = false →
     ∃ t w', exec (.reads d r) s = .next t ∧ RegisterWord s c w t w' ∧ w'.xstat = w.xstat ∧
       (∀ x, ctlValue s w (lowest c.lanes) r = some x →
         Wrote c w w' fun l => wordsAt d r.regCount ((ctlValue s w l r).getD 0)) ∧
       (r = .xstat → ∃ x : Flags, (∀ n, w.xstat.getLsbD n = true → x.getLsbD n = true) ∧
         (∀ n, x.getLsbD n = true → w.xstat.getLsbD n = true ∨ ∃ p ∈ w.pend, p.flags.getLsbD n = true) ∧
         Wrote c w w' fun _ => [(d, x.setWidth 32)]) ∧
       (r = .capreg → ∃ x, (∀ k < 8, x ≤ s.trackCap (8 * (w.track.getD 0 / 8) + k)) ∧ x ≤ 256 ∧
         (x = 256 ∨ ∃ k < 8, x = s.trackCap (8 * (w.track.getD 0 / 8) + k)) ∧ Wrote c w w' fun _ => [(d, BitVec.ofNat 32 x)]) ∧
       (r = .task → ∃ x, IsTask s w x ∧ Wrote c w w' fun _ => [(d, BitVec.ofNat 32 x)]) ∧
       (r = .cycle → Wrote c w w' fun _ => [(d, Map.get 0#32 s.coreCycle (w.track.getD 0 / 8))])) ∧
  (∀ s c w a r, (Instr.writes a r).wellFormed = true → Issuing s c w → illReg (.writes a r) w = false →
     (r = .fmode → ((rd s w 0 a).extractLsb' 0 3).toNat < 6) →
     ∃ t w' w1, exec (.writes a r) s = .next t ∧ Advanced c (ctlWritten w r (rd s w 0 a) (rd64 s w 0 a)) w1 ∧ Ended s w1 t w')

/-- R101, R124: RNGSEED sets the generator of each thread of the group to A XOR lane × 0x9E3779B9, a zero becoming 1, and
writes no register; RNGNEXT steps it by xorshift32 and writes the new state to d; SREC leaves a result with the record slot of
each thread, or of the lowest for a uniform d, as the slot stands when the read is performed: the code that the group which
last named the slot gives it before the landing is noted (`late`). -/
def Obligations.GeneratorAndRecordResults : Prop :=
  (∀ s c w, Issuing s c w →
     (∀ a, illReg (.rngseed a) w = false →
       ∃ t w', exec (.rngseed a) s = .next t ∧ WordFrame s c w t w' ∧ GoOn c w w' ∧ MaskKept w w' ∧ RegsKept w w' [] ∧
         w'.xstat = w.xstat ∧ ∀ l, c.lanes.getLsbD l = true → (w'.thread l).gen = seeded (rd s w l a) l) ∧
     ∀ d, (Instr.rngnext d).wellFormed = true → illReg (.rngnext d) w = false →
       ∃ t w', exec (.rngnext d) s = .next t ∧ WordFrame s c w t w' ∧ GoOn c w w' ∧ MaskKept w w' ∧ w'.xstat = w.xstat ∧
         (Wrote c w w' fun l => [(d, shiftStep (w.thread l).gen)]) ∧
         ∀ l, c.lanes.getLsbD l = true → (w'.thread l).gen = shiftStep (w.thread l).gen) ∧
  (∀ s c w d n, (Instr.srec d n).wellFormed = true → Issuing s c w → illReg (.srec d n) w = false →
     ∃ t w', exec (.srec d n) s = .next t ∧ ReturningWord s c w t w' ∧ GenKept c w w' ∧
       ∀ l ∈ lanesFor d c, ∃ p ∈ w'.pend,
         p.lane = (if d.isUni then none else some l) ∧ p.lanes = (if d.isUni then c.lanes else laneBit l) ∧
         p.regs = [d] ∧ p.vals = [BitVec.ofNat 32 ((w.thread l).recs.toNat / 16 ^ n.toNat % 16)] ∧ p.flags = 0 ∧
         p.opened = false ∧ p.late = some (l, .slot n.toNat (Map.get 0 (w.thread l).recOwner n.toNat)))

/-- R34, R123: a landing removes the result, writes its registers in its lane (or the uniform ones), raises its flags and
sets its record slot. Every other outstanding result stays outstanding, with only what it notes of other writes changed; other
registers and slots, masks, threads but for their registers and slots, other waves, and everything beyond waves are as before,
but for the release of held threads and a schuss group's hold on its line. The clause on values speaks of a result whose
registers no other word has written and that was known at issue (R35). A result may land once its values are there and the
published writes it waits for have been applied (R34, R192). One with a poisoned word aborts its gang with 0x80 as it lands: for
a load that waited on granules that is the model's reading of R386 (log entry 90). -/
def Obligations.ResultLanding : Prop :=
  ∀ (s : State) v w p, s.wave? v = some w → w.pend.find? (fun q => q.id == p.id && s.mayLand q) = some p →
    (p.bad = true → ∀ g, s.gang? w.gang = some g → g.st = .live → s.commitsDone g = true →
      ∃ t, exec (.resultLanding v p.id) s = .next t ∧ Aborted t w.gang 0x80) ∧
    (p.bad = false →
    ∃ t u w1 w', exec (.resultLanding v p.id) s = .next t ∧ Settled u t ∧ u.wave? v = some w1 ∧ t.wave? v = some w' ∧
      WaveKept u w1 w' ∧
      u = { s with waves := u.waves, fresh := u.fresh
                   sunk := s.sunk.filter fun x => !(x.ran && x.wave == v && x.pid == p.id) } ∧
      (∀ id, id ≠ v → u.wave? id = s.wave? id) ∧
      w1 = { w with s := w1.s, xstat := w.xstat ||| p.flags, pend := w1.pend, threads := w1.threads } ∧
      (∀ q' ∈ w1.pend, ∃ q ∈ w.pend, q.id ≠ p.id ∧ PendingKept q q') ∧
      (∀ q ∈ w.pend, q.id ≠ p.id → ∃ q' ∈ w1.pend, PendingKept q q') ∧
      (∀ l, w1.thread l = { w.thread l with v := (w1.thread l).v, recs := (w1.thread l).recs }) ∧
      (∀ l r, (r ∉ p.regs ∨ ∃ k, p.lane = some k ∧ k ≠ l) → w1.raw l r = w.raw l r) ∧
      (p.clob = [] → p.seen = [] → p.regs.Nodup → p.regs.length = p.vals.length →
        ∀ l j, j < p.regs.length → (p.regs.getD j (.s 31)).isUni = p.lane.isNone → p.regs.getD j (.s 31) ≠ .s 31 →
          (∀ k, p.lane = some k → k = l ∧ k < w.threads.length ∧ k < 32) → w1.raw l (p.regs.getD j (.s 31)) = p.vals.getD j 0) ∧
      (∀ l i code, p.lane = some l → p.slot = some (i, code) → i < 16 → l < w.threads.length → l < 32 →
        Map.get 0 (w.thread l).recOwner i = p.id + 1 → (w1.thread l).recs.extractLsb' (4 * i) 4 = BitVec.ofNat 4 code) ∧
      (∀ l j, j < 16 → (p.lane ≠ some l ∨ ∀ code, p.slot ≠ some (j, code)) →
        (w1.thread l).recs.extractLsb' (4 * j) 4 = (w.thread l).recs.extractLsb' (4 * j) 4) ∧
      ∀ k l, w1.kbit k l = w.kbit k l)

/-- R104, R105, R106, R108, R168, R175, R384, R386: LD and LDO leave a result with the bytes at the address, zero-extended, for
each thread or once for a uniform destination; where no cache above the home can serve the line, the result is open and a fill
that will complete it is outstanding. That a load which finds its line takes the bytes of the state in which it issues is the
model's reading (log entry 4). The threads of one load are independent: before the load of any but the lowest, the core's L1
copy and a remote-tagged copy of its sector may have been evicted (R106, R172, R173). No byte of memory changes and no store is
performed; an acquire half ends copies only (R107). An error that ECC corrects in one of the words is reported to function 0 and is
no more, the others stay: that such errors stand in the state until a load meets them is the model's choice (log entry 91). A
commit point is not among these cases: see CommitPoints. -/
def Obligations.LoadResults : Prop :=
  ∀ s c w i z d ea p r pol, loadForm s w i = some (z, d, ea, p, r, pol) → i.wellFormed = true → Issuing s c w →
    Allowed s i w → (ordRel r && scopeWide p && s.versioned (s.gangOf w)) = false →
    (∀ l, c.lanes.getLsbD l = true → LoadGoes s w l z (ea l) p r) →
    let met (e : Nat × Nat) : Prop := ∃ l ∈ lanesFor d c, ∃ pa, s.access w .read (ea l) z.bytes = .ok pa ∧
      pa < 4 * e.2 + 4 ∧ 4 * e.2 < pa + z.bytes
    ∃ t w', exec i s = .next t ∧ MemoryFrame s c w t w' ∧ StorageOnly { s with softErrs := t.softErrs, vis := t.vis } t ∧
      t.mem = s.mem ∧ t.versions = s.versions ∧
      (∀ e, e ∈ t.softErrs ↔ e ∈ s.softErrs ∧ ¬met e) ∧ ((∀ e ∈ s.softErrs, ¬met e) → t.vis = s.vis) ∧
      (∀ f, f ≠ 0 → t.vi? f = s.vi? f) ∧
      (∀ e v q, e ∈ s.softErrs → met e → s.vi? 0 = some v → v.evq = some q → s.ringFull q = false → ∃ v', t.vi? 0 = some v' ∧
        ∃ x ∈ v'.recs, x.kind = 0x81 ∧ x.addr = 4 * e.2 ∧ x.count = 1) ∧
      (∀ line, t.homeView line = s.homeView line) ∧
      ∀ l ∈ lanesFor d c, ∀ pa, s.access w .read (ea l) z.bytes = .ok pa → ∃ q ∈ w'.pend,
        q.lane = (if d.isUni then none else some l) ∧ q.lanes = (if d.isUni then c.lanes else laneBit l) ∧
        q.regs = regs z.regCount d ∧ q.flags = 0 ∧ q.clob = [] ∧ q.late = none ∧ q.slot = none ∧
        let reads (u : State) : Prop := ∃ x, served u w pol pa z.bytes = some x ∧ q.opened = false ∧
          q.vals = wordsOf z (lineNat x (pa % 64) z.bytes)
        let misses : Prop := q.opened = true ∧ q.far = true ∧ ∃ f ∈ t.fills, f.line = pa / 64 ∧
          ∃ x ∈ f.waiters, x.wave = w.id ∧ x.pid = q.id ∧ x.off = pa % 64 ∧ x.width = z
        if served s w pol pa z.bytes = none then misses
        else reads s ∨ l ≠ lowest c.lanes ∧ (reads (s.dropL1 w.core (pa / 64)) ∨ misses)

/-- R105, R106, R175, R178, R261: ST and STO write the low bytes of their data registers at the address, in ascending lane order.
In a gang that is not versioned they are seen at once at a home on the core's die (and in host memory), which is the model's
reading (log entry 4), and leave for a home on another die as a published write, which the halves of the order field note for
the threads' later accesses (R107, R193 to R195); a store of part of a word that its sector cache does not hold waits there for
a merging fill, and is no byte of memory before (R175). In a versioned gang they go to the gang's version and to nothing else.
Every other byte is as before. The clause on bytes takes the stored lines to be coherent, which the directory keeps (R176), and,
for narrow stores of several threads, the sector cache to hold no more lines than it has. -/
def Obligations.StoreResults : Prop :=
  ∀ s c w i z d a ea p r pol, storeForm s w i = some (z, d, a, ea, p, r, pol) → i.wellFormed = true → Issuing s c w →
    Allowed s i w → (ordRel r && scopeWide p && s.versioned (s.gangOf w)) = false →
    (∀ l, c.lanes.getLsbD l = true → StoreGoes s w l z (ea l) p r) →
    ∀ pa : Nat → Nat, (∀ l ∈ lanesOnce d a c, s.access w .write (ea l) z.bytes = .ok (pa l) ∧ pa l % z.bytes = 0) →
    let put (l : Nat) : LineWrite := lineWrite (pa l) z.bytes (wide (rd s w l) z.regCount d)
    let stored (ls : List Nat) := ls.map fun l => (pa l, wide (rd s w l) z.regCount d % 2 ^ (8 * z.bytes))
    let held (l : Nat) : Bool := s.partStore w.core pol (put l)
    let mates (l k : Nat) : Prop := c.lanes.getLsbD k = true ∧ (k = l ∨ (d.isUni && a.isUni) = true)
    ∃ t w', exec i s = .next t ∧ MemoryFrame s c w t w' ∧ StorageOnly s t ∧
      (s.versioned (s.gangOf w) = true → t.mem = s.mem ∧ t.flows = s.flows ∧ (∀ line, t.homeView line = s.homeView line) ∧
        ∀ line x n, n < 64 → lineByte (t.overlay (s.gangOf w).id line x) n =
          (storedAt z.bytes (stored (lanesOnce d a c)) (64 * line + n)).getD (lineByte (s.overlay (s.gangOf w).id line x) n)) ∧
      (s.versioned (s.gangOf w) = false →
        (4 ≤ z.bytes ∨ (lanesOnce d a c).length ≤ 1 ∨ (s.sect.filter fun x => x.sector == coreSector w.core).length ≤ sectLines) →
        (∀ f ∈ s.fills, ∀ x ∈ f.stores, x.id < s.nextId) → t.versions = s.versions ∧
        ((∀ l ∈ lanesOnce d a c, Coherent s (pa l / 64)) → ∀ A, byteNow t A =
          if homeOfLine (A / 64) = none ∨ homeOfLine (A / 64) = some (coreDie w.core) then
            (storedAt z.bytes (stored ((lanesOnce d a c).filter fun l => !(held l))) A).getD (byteNow s A) else byteNow s A) ∧
        (∀ l ∈ lanesOnce d a c, held l = true → ∃ f ∈ t.fills, f.sector = coreSector w.core ∧ f.line = pa l / 64 ∧
          ∃ x ∈ f.stores, x.wave = w.id ∧ x.core = w.core ∧ x.pol = pol ∧ x.w = put l ∧
            x.lanes = (if d.isUni && a.isUni then c.lanes else laneBit l) ∧
            (p ≠ .wave → p ≠ .wg → ∀ k, mates l k → (ordAcq r = true → ⟨p, .held x.id⟩ ∈ (w'.thread k).acqs) ∧
              (ordRel r = true → ⟨p, .held x.id⟩ ∈ (w'.thread k).rels))) ∧
        ∀ l ∈ lanesOnce d a c, ∀ h, homeOfLine (pa l / 64) = some h → h ≠ coreDie w.core → ∃ stamp,
          .pub stamp w.id (.writes [put l]) ∈ (t.flow .publish (coreDie w.core) h).bodies ∧
          ((p = .die ∨ p = .pkg ∨ p = .sys) → (∃ x ∈ s.dies, x.id = coreDie w.core) →
            coreDie w.core < (s.die (coreDie w.core)).dep.length →
            ∀ k, mates l k →
              let x : OrdRef := ⟨p, .write (coreDie w.core) (stamp.getD (coreDie w.core) 0) (pa l / 64)⟩
              (ordAcq r = true → x ∈ (w'.thread k).acqs) ∧ (ordRel r = true → x ∈ (w'.thread k).rels)))

/-- R109 to R111, R386: LDSP reads the scratchpad. A plain load leaves a result with the bytes. A waiting load whose granules are
full as its turn comes leaves the same and, for .waittake, empties the granules; one that finds a granule empty holds its thread
at the word's end, with nothing performed. The threads of a group take their turns in ascending lane order, and a uniform
destination is loaded once, its other threads held with the lowest. The clauses on groups take no other thread of the gang to
wait on granules. A poisoned word aborts the gang. That the load is performed, or its thread held, as the word issues is the
model's reading of R111 (log entry 4). -/
def Obligations.ScratchpadLoads : Prop :=
  ∀ s c w z d a p r q g, (Instr.ldsp z d a p r q).wellFormed = true → Issuing s c w → illReg (.ldsp z d a p r q) w = false →
    s.gang? w.gang = some g →
    (∀ l, c.lanes.getLsbD l = true → SpadGoes s w l z.bytes (rd s w l a).toNat p r) →
    let ea (l : Nat) : Nat := (rd s w l a).toNat
    let out (l : Nat) : List (Reg × Word) := (regs z.regCount d).zip (wordsOf z (Memory.readNat g.spad (ea l) z.bytes))
    let wait (l : Nat) (mates : LaneMask) : FeWait :=
      { load := true, take := q == .waittake, width := z, ea := ea l, reg := d, data := 0, mates, inst := s.fresh }
    let took (l : Nat) : State := s.modGang w.gang fun x =>
      { x with full := if q = .waittake then emptied x.full (ea l) z.bytes else x.full }
    (q = .plain → (∃ l, c.lanes.getLsbD l = true ∧ g.spadBad (ea l) z.bytes = true) → g.st = .live → s.commitsDone g = true →
      ∃ t, exec (.ldsp z d a p r q) s = .next t ∧ Aborted t w.gang 0x80) ∧
    ((∀ l, c.lanes.getLsbD l = true → g.spadBad (ea l) z.bytes = false) →
      (q = .plain →
        ∃ t w', exec (.ldsp z d a p r q) s = .next t ∧ ReturningWord s c w t w' ∧ GenKept c w w' ∧
          Leaves d c w' fun l => (out l, 0)) ∧
      (∀ l, (c.lanes = laneBit l ∧ d.isUni = false ∨ d.isUni = true ∧ l = lowest c.lanes) → q ≠ .plain →
        AllFull g (ea l) z.bytes →
          ∃ t w', exec (.ldsp z d a p r q) s = .next t ∧ ReturningWord (took l) c w t w' ∧ GenKept c w w' ∧
            Leaves d c w' fun _ => (out l, 0)) ∧
      (q ≠ .plain → d.isUni = false → NoFeWait s w.gang →
        let turns := loadTurns (q == .waittake) z.bytes ea g.full (lanesOf c.lanes)
        ∃ t w', exec (.ldsp z d a p r q) s = .next t ∧
          WordFrame (s.modGang w.gang fun x => { x with full := turns.2 }) c w t w' ∧ RegsKept w w' [] ∧ MaskKept w w' ∧
          w'.xstat = w.xstat ∧ GenKept c w w' ∧ w'.pend.length = w.pend.length + turns.1.length ∧
          (∀ l ∈ turns.1, w'.thread l =
              { w.thread l with pc := c.nextPc, count := 0, commitDone := false, v := (w'.thread l).v } ∧
            ∃ x ∈ w'.pend, x.lane = some l ∧ x.lanes = laneBit l ∧ x.regs = (out l).map Prod.fst ∧
              x.vals = (out l).map Prod.snd ∧ x.flags = 0 ∧ x.opened = false ∧ x.clob = [] ∧ x.late = none ∧ x.slot = none) ∧
          ∀ l, l ∉ turns.1 → HeldAt c w w' (.fe (wait l 0)) (· = l)) ∧
      (q ≠ .plain → d.isUni = true → NoFeWait s w.gang → ¬AllFull g (ea (lowest c.lanes)) z.bytes →
        let l := lowest c.lanes
        ∃ t w', exec (.ldsp z d a p r q) s = .next t ∧ WordFrame s c w t w' ∧ RegsKept w w' [] ∧ MaskKept w w' ∧
          w'.xstat = w.xstat ∧ w'.pend = w.pend ∧
          HeldAt c w w' (.fe (wait l (c.lanes &&& ~~~(laneBit l)))) (· = l) ∧ HeldAt c w w' (.feMate l) (· ≠ l)))

/-- R109 to R111: STSP writes the scratchpad in ascending lane order, a plain store leaving the granules alone, .fill setting
those it touches full, .clear setting them empty and writing nothing; a .waitfill whose granules are empty as its turn comes
writes and fills, and otherwise holds its thread; with data and address uniform there is one store, its other threads held with
the lowest. The clauses on .waitfill in groups take no other thread of the gang to wait on granules. That the store is
performed, or its thread held, as the word issues is the model's reading of R111 (log entry 4). -/
def Obligations.ScratchpadStores : Prop :=
  ∀ s c w z d a p r q g, (Instr.stsp z d a p r q).wellFormed = true → Issuing s c w → illReg (.stsp z d a p r q) w = false →
    s.gang? w.gang = some g →
    (∀ l, c.lanes.getLsbD l = true → SpadGoes s w l z.bytes (rd s w l a).toNat p r) →
    let ea (l : Nat) : Nat := (rd s w l a).toNat
    let one : Bool := d.isUni && a.isUni
    let after (ls : List Nat) : State := s.modGang w.gang fun x =>
      ls.foldl (fun x l => spadPut q (ea l) z.bytes (wide (rd s w l) z.regCount d) x) x
    let waits (w' : Wave) (l : Nat) : Prop := ∃ f, HeldAt c w w' (.fe f) (· = l) ∧ f.load = false ∧ f.ea = ea l ∧ f.width = z ∧
      f.mates = (if one then c.lanes &&& ~~~(laneBit l) else 0) ∧ f.inst = s.fresh ∧
      f.data.toNat % 2 ^ (8 * z.bytes) = wide (rd s w l) z.regCount d % 2 ^ (8 * z.bytes)
    (q ≠ .waitfill → ∃ t w', exec (.stsp z d a p r q) s = .next t ∧ ReturningWord (after (lanesOnce d a c)) c w t w' ∧
      GenKept c w w') ∧
    (∀ l, (c.lanes = laneBit l ∨ one = true ∧ l = lowest c.lanes) → q = .waitfill → AllEmpty g (ea l) z.bytes →
      ∃ t w', exec (.stsp z d a p r q) s = .next t ∧ ReturningWord (after [l]) c w t w' ∧ GenKept c w w') ∧
    (q = .waitfill → one = false → NoFeWait s w.gang →
      let done := storeTurns z.bytes ea g.full (lanesOf c.lanes)
      ∃ t w', exec (.stsp z d a p r q) s = .next t ∧ WordFrame (after done) c w t w' ∧ RegsKept w w' [] ∧ MaskKept w w' ∧
        w'.xstat = w.xstat ∧ GenKept c w w' ∧ w'.pend = w.pend ∧
        (∀ l ∈ done, w'.thread l =
          { w.thread l with pc := c.nextPc, count := 0, commitDone := false, v := (w'.thread l).v }) ∧
        ∀ l, c.lanes.getLsbD l = true → l ∉ done → waits w' l) ∧
    (q = .waitfill → one = true → NoFeWait s w.gang → ¬AllEmpty g (ea (lowest c.lanes)) z.bytes →
      ∃ t w', exec (.stsp z d a p r q) s = .next t ∧ WordFrame s c w t w' ∧ RegsKept w w' [] ∧ MaskKept w w' ∧
        w'.xstat = w.xstat ∧ w'.pend = w.pend ∧ waits w' (lowest c.lanes) ∧
        HeldAt c w w' (.feMate (lowest c.lanes)) (· ≠ lowest c.lanes))

/-- R208 to R214: ATOM and ATOMR form one request for each address of the group, its participants in ascending lane order
with their operands; a request for a line of another die is published (R200; that it travels on the publish flow is the model's
reading, log entry 39); each participant whose form returns has a result outstanding, still open. Nothing is read or written
yet: the groomer performs the request (GroomerAndGroups), for which the threads' later accesses wait where it is ATOMR's. A
versioned gang's commit comes first: see CommitPoints. -/
def Obligations.FarAtomics : Prop :=
  ∀ s c w i o y d a p e acq, (i = .atom o y d a p e ∧ acq = none ∨ i = .atomr o y d a p e ∧ acq = some p) →
    i.wellFormed = true → Issuing s c w → Allowed s i w → s.versioned (s.gangOf w) = false →
    (∀ l, c.lanes.getLsbD l = true → ∃ pa h, s.access w .write (rd64 s w l a).toNat y.bytes = .ok pa ∧
      s.deviceFrame pa = true ∧ homeOf pa = some h ∧ (s.die h).feat.getLsbD 6 = true ∧ s.consumes w.gang pa y.bytes = false ∧
      s.lineClear w l pa y.bytes = true ∧ s.stalled w pa = false ∧
      (acq.isSome = true → s.threadClear w l p = true ∧ s.relsDone w l p = true)) →
    ∀ pa : Nat → Nat, (∀ l, c.lanes.getLsbD l = true → s.access w .write (rd64 s w l a).toNat y.bytes = .ok (pa l)) →
    ∃ t w', exec i s = .next t ∧ MemoryFrame s c w t w' ∧ t.mem = s.mem ∧ t.sect = s.sect ∧
      (∀ g, s.gang? w.gang = some g → ∃ g', t.gang? w.gang = some g' ∧ g'.committed = true) ∧
      let ls := if e && d.isUni then [lowest c.lanes] else lanesOf c.lanes
      ∀ l ∈ ls, ∃ r ∈ t.groom, IsRequest s w o y d e acq (pa l) (ls.filter fun j => rd64 s w j a == rd64 s w l a) r ∧
        (acq.isSome = true → ∀ k, c.lanes.getLsbD k = true → (rd64 s w k a = rd64 s w l a ∨ (e && d.isUni) = true) →
          ⟨p, .atomic r.id⟩ ∈ (w'.thread k).acqs ∧ ⟨p, .atomic r.id⟩ ∈ (w'.thread k).rels) ∧
        (∀ h, homeOf (pa l) = some h → h ≠ coreDie w.core → ∃ stamp,
          .pub stamp w.id (.atomic r.id) ∈ (t.flow .publish (coreDie w.core) h).bodies) ∧
        ∀ x ∈ r.parts, ∀ id, x.pid = some id → ∃ q ∈ w'.pend, q.id = id ∧ q.opened = true ∧
          q.lane = (if d.isUni then none else some x.lane) ∧ q.regs = regs y.regCount d

/-- R210 to R213: ATOMSP performs the request of a group of one address in the scratchpad at once (AtomicRuns says what a
request does), raises its flags for the gang, and returns each participant's old value; a poisoned word aborts the gang (R386).
Results that were outstanding stay as they were where the new results' numbers, which the model gives, are not among theirs. -/
def Obligations.ScratchpadAtomics : Prop :=
  ∀ s c w o y d a p e g, (Instr.atomsp o y d a p e).wellFormed = true → Issuing s c w → illReg (.atomsp o y d a p e) w = false →
    s.gang? w.gang = some g → (∀ l, c.lanes.getLsbD l = true → SpadGoes s w l y.bytes (rd s w l a).toNat p .plain) →
    ((∃ l, c.lanes.getLsbD l = true ∧ g.spadBad (rd s w l a).toNat y.bytes = true) → g.st = .live → s.commitsDone g = true →
      ∃ t, exec (.atomsp o y d a p e) s = .next t ∧ Aborted t w.gang 0x80) ∧
    ((∀ l, c.lanes.getLsbD l = true → g.spadBad (rd s w l a).toNat y.bytes = false) →
    let ls := if e && d.isUni then [lowest c.lanes] else lanesOf c.lanes
    ∀ ea, (∀ l ∈ ls, (rd s w l a).toNat = ea) →
    let run := atomRun o y (Memory.readNat g.spad ea y.bytes) (ls.map fun l =>
      { lane := l, d := BitVec.ofNat 64 (atomOperands s w l o y d).1, c := BitVec.ofNat 64 (atomOperands s w l o y d).2, pid := none })
    ∃ t w', exec (.atomsp o y d a p e) s = .next t ∧
      ((e = true → ∀ q ∈ w.pend, q.id < s.nextId) → ReturningWord (s.modGang w.gang fun x =>
        { x with spad := Memory.writeNat x.spad ea y.bytes run.2.1, flags := x.flags ||| run.2.2
                 spadPoison := unpoisoned x.spadPoison ea y.bytes }) c w t w') ∧
      GoOn c w w' ∧ GenKept c w w' ∧ RegsKept w w' [] ∧ t.wave? w.id = some w' ∧
      (e = true → ∀ j l, ls[j]? = some l → ∃ q ∈ w'.pend, q.lane = (if d.isUni then none else some l) ∧ q.opened = false ∧
        q.regs = regs y.regCount d ∧ q.vals = (List.range y.regCount).map fun k => BitVec.ofNat 32 (run.1.getD j 0 / 2 ^ (32 * k))))

/-- R210, R212: a combined request on an old value. For the integer types every participant receives the value the one
before it left, starting with the old one, and the location takes the last; no flag is raised. For a float type the minimum
and maximum do the same with minimumNumber and maximumNumber, and the flags of every turn are raised; ADD rounds prefix sums
p of the operands and adds each to the old value O once: each participant receives RNE(O + p) of those before it, the location
takes RNE(O + p) of them all, and the flags of all these additions are raised. -/
def Obligations.AtomicRuns : Prop :=
  ∀ o x ps,
    (∀ y b, (y = .b32 ∧ b = 32 ∨ y = .b64 ∧ b = 64) → x < 2 ^ b → (∀ q ∈ ps, q.d.toNat < 2 ^ b ∧ q.c.toNat < 2 ^ b) →
      let op (v : Nat) (q : AtomPart) : Nat := atomInteger o b v q.d.toNat q.c.toNat
      (∀ j, j < ps.length → (atomRun o y x ps).1.getD j 0 = (ps.take j).foldl op x) ∧
      (atomRun o y x ps).1.length = ps.length ∧ (atomRun o y x ps).2.1 = ps.foldl op x ∧ (atomRun o y x ps).2.2 = 0) ∧
    ∀ y f, (y = .f32 ∧ f = FpFmt.f32 ∨ y = .f64 ∧ f = FpFmt.f64) →
      let turn (v : Nat) (q : AtomPart) : Rounded := f.minmax (o == .maxi) false 0 v q.d.toNat
      let after (j : Nat) : Nat := (ps.take j).foldl (fun v q => (turn v q).bits) x
      let run := atomRun o y x ps
      ((o = .mini ∨ o = .maxi) → run.1.length = ps.length ∧ (∀ j, j < ps.length → run.1.getD j 0 = after j) ∧
        run.2.1 = after ps.length ∧
        ∀ b, run.2.2.getLsbD b = true ↔ ∃ j q, ps[j]? = some q ∧ (turn (after j) q).flags.getLsbD b = true) ∧
      (o = .add → ps = [] → run = ([], x, 0)) ∧
      (o = .add → ∀ q qs, ps = q :: qs →
        let sum (j : Nat) : Nat := (qs.take j).foldl (fun v r => (atomAdd f v r.d.toNat).bits) q.d.toNat
        run.1.length = ps.length ∧ run.1.getD 0 0 = x ∧
        (∀ j, j < qs.length → run.1.getD (j + 1) 0 = (atomAdd f x (sum j)).bits) ∧
        run.2.1 = (atomAdd f x (sum qs.length)).bits ∧
        ∀ b, run.2.2.getLsbD b = true ↔ (∃ j ≤ qs.length, (atomAdd f x (sum j)).flags.getLsbD b = true) ∨
          ∃ j r, qs[j]? = some r ∧ (atomAdd f (sum j) r.d.toNat).flags.getLsbD b = true)

/-- R107, R217, R218: FENCE, ACQ, REL and COMMIT where they are no commit point of a versioned gang. They write no register and
no byte; the acquire part of FENCE and ACQ ends the core's L1 copies at .sect and wider, and the sector's remote-tagged copies
at .pkg and .sys; where the die's homes lack coverage then, the sector's other copies are marked, so that no later read is served
from them before it (log entry 78). FENCE, REL and COMMIT (REL.pkg) go on once the threads' earlier accesses are performed, ACQ
once those with a release half are. -/
def Obligations.FenceResults : Prop :=
  ∀ s c w i p, (i = .fence p ∨ i = .acq p ∨ i = .rel p ∨ i = .commit ∧ p = .pkg) → i.wellFormed = true → Issuing s c w →
    Allowed s i w → (s.versioned (s.gangOf w) = true → i = .acq p ∨ i ≠ .commit ∧ scopeWide p = false) →
    (∀ l, c.lanes.getLsbD l = true → if i = .acq p then s.relsDone w l p = true else s.threadClear w l p = true) →
    ∃ t w' u, exec i s = .next t ∧ ReturningWord u c w t w' ∧ GenKept c w w' ∧
      u = { s with l1 := u.l1, sect := u.sect, fills := u.fills } ∧ (∀ line, u.homeView line = s.homeView line) ∧
      ((i = .rel p ∨ i = .commit ∨ p = .wave ∨ p = .wg ∨ p = .gang) → u = s) ∧
      ((i = .fence p ∨ i = .acq p) → (p = .sect ∨ p = .die ∨ p = .pkg ∨ p = .sys) →
        (∀ x, x ∈ u.l1 ↔ x ∈ s.l1 ∧ x.core ≠ w.core) ∧
        let here (x : SectLine) : Prop := (p = .pkg ∨ p = .sys) ∧ x.sector = coreSector w.core
        let late : Prop := s.readable (coreDie w.core) (coreDie w.core) = false
        ∀ x, x ∈ u.sect ↔ ∃ y ∈ s.sect, ¬(here y ∧ y.remote = true) ∧ (here y ∧ late → x = { y with behind := true }) ∧
          (¬(here y ∧ late) → x = y))

/-- R206, R217, R261, R262: a commit point in a versioned gang (FENCE and REL at .sect or wider, COMMIT) whose version
writes only lines of the gang's own die. Every byte of the version becomes visible at its home, every other byte is as
before, the version holds no byte, and the gang has committed once more. -/
def Obligations.CommitPoints : Prop :=
  ∀ s c w i p g, (i = .fence p ∧ scopeWide p = true ∨ i = .rel p ∧ scopeWide p = true ∨ i = .commit ∧ p = .pkg) →
    i.wellFormed = true → Issuing s c w → Allowed s i w → s.gang? w.gang = some g → s.versioned g = true → g.gate = false →
    (∀ l, c.lanes.getLsbD l = true → s.threadClear w l p = true ∧ (w.thread l).commitDone = false) →
    (∀ v ∈ s.versions, v.gang = g.id → homeOfLine v.line = some g.die) →
    ∃ t w' g', exec i s = .next t ∧ MemoryFrame s c w t w' ∧ t.gang? w.gang = some g' ∧ g'.committed = true ∧
      g'.ccnt = g.ccnt + 1 ∧ (∀ v ∈ t.versions, v.gang = g.id → v.mask = 0) ∧
      (∀ v, v.gang ≠ g.id → (v ∈ t.versions ↔ v ∈ s.versions)) ∧
      t = { s with cur := none, waves := t.waves, gangs := t.gangs, fresh := t.fresh, picks := t.picks, nextId := t.nextId, mem := t.mem
                   sect := t.sect, l1 := t.l1, fills := t.fills, hostLines := t.hostLines, homeLines := t.homeLines
                   versions := t.versions, poison := t.poison, codeErrs := t.codeErrs } ∧
      ∀ line n, n < 64 → lineByte (t.homeView line) n = s.versions.foldl (fun b v =>
        if v.gang = g.id ∧ v.line = line ∧ v.mask.getLsbD n = true then lineByte v.data n else b) (lineByte (s.homeView line) n)

/-- R184, R219, R220: MONITOR arms the wave's monitor on the line of its address, with no event recorded, and does nothing else
where the monitor filter of its sector and the monitor table of the line's home have room for the line; WAITM holds the
group's threads where the monitor is armed and no event is recorded, and otherwise they go on, the monitor disarmed. -/
def Obligations.MonitorWords : Prop :=
  ∀ s c w, Issuing s c w →
    (∀ a pa, (Instr.monitor a).wellFormed = true → illReg (.monitor a) w = false →
      (∀ l, c.lanes.getLsbD l = true → s.access w .read (rd64 s w l a).toNat 1 = .ok pa) →
      ∃ t w', exec (.monitor a) s = .next t ∧ t.wave? w.id = some w' ∧ w'.monitor = some { line := pa / 64, event := false } ∧
        (∀ l, c.lanes.getLsbD l = true → (w'.thread l).st = .run ∧ (w'.thread l).pc = c.nextPc) ∧
        ((s.waves.filter fun v => v.id != w.id && v.monitor.isSome && coreSector v.core == coreSector w.core).length < 256 →
          (s.waves.filter fun v => v.id != w.id &&
            v.monitor.any fun x => homeOfLine x.line == homeOfLine (pa / 64)).length < 4096 →
          ∃ w1, Advanced c { w with monitor := some { line := pa / 64, event := false } } w1 ∧ Ended s w1 t w')) ∧
    (Free s w →
      (∀ m, w.monitor = some m → m.event = false →
        ∃ t w', exec .waitm s = .next t ∧ t.wave? w.id = some w' ∧ w'.monitor = some m ∧
          ∀ l, c.lanes.getLsbD l = true → (w'.thread l).st = .held .waitm ∧ (w'.thread l).pc = c.nextPc) ∧
      ((∀ m, w.monitor = some m → m.event = true) →
        ∃ t w', exec .waitm s = .next t ∧ t.wave? w.id = some w' ∧ w'.monitor = none ∧
          ∀ l, c.lanes.getLsbD l = true → (w'.thread l).st = .run ∧ (w'.thread l).pc = c.nextPc))

/-- R113 to R118, R123: SINK and its group issue as one unit. Where every address of a thread's group lies in one line, the
group leaves the core with the registers it reads as they stand at the head; where an address depends on the group, it runs in
the core with record code 8, from the word at which it waited where it has waited at one. Either way one result is outstanding
for all the group's registers, its slot is 0, no register is written yet, and the threads continue after the group. -/
def Obligations.SinkResults : Prop :=
  ∀ s c w len slot floor is next, (Instr.sink len slot floor).wellFormed = true → Issuing s c w →
    Allowed s (.sink len slot floor) w → s.groupAt w len c.wordPc = .ok (is, next) →
    (∀ i ∈ is, illReg i w = false) →
    (∀ n : Nat → Nat, (∀ l, c.lanes.getLsbD l = true → s.route w l is = .ok (.line (n l)) ∧
        s.lineClear w l (64 * n l) 64 = true ∧ (hasStore is = true → s.stalled w (64 * n l) = false ∧
          (s.versioned (s.gangOf w) = true → s.verRoom (s.gangOf w) 32 = true))) →
      ∃ t w', exec (.sink len slot floor) s = .next t ∧ t.wave? w.id = some w' ∧ RegsKept w w' [] ∧ w'.xstat = w.xstat ∧
        t.mem = s.mem ∧ t.sect = s.sect ∧ t.l1 = s.l1 ∧
        ∀ l, c.lanes.getLsbD l = true → (w'.thread l).pc = next ∧ (w'.thread l).recs.extractLsb' (4 * slot.toNat) 4 = 0 ∧
          ∃ q ∈ w'.pend, q.lane = some l ∧ q.lanes = laneBit l ∧ q.regs = groupDst is ∧ q.opened = true ∧
            q.slot = some (slot.toNat, 0) ∧ Map.get 0 (w'.thread l).recOwner slot.toNat = q.id + 1 ∧
            ∃ g ∈ t.sunk, g.wave = w.id ∧ g.lane = l ∧ g.pid = q.id ∧ g.line = n l ∧ g.floor = floor.depth ∧
              g.fmode = w.fmode ∧ g.words = is ∧ g.stores = hasStore is ∧ g.pc = c.wordPc ∧ g.ran = false ∧
              g.regs = (groupSrc is).map fun r => (r, rd s w l r)) ∧
    ∀ l x u, c.lanes = laneBit l → s.route w l is = .ok .core →
      State.coreGroup w l (is.drop (s.groupStart w l is).done) (s.groupStart w l is) s = (.done x, u) →
      ∃ t w', exec (.sink len slot floor) s = .next t ∧ t.wave? w.id = some w' ∧ RegsKept w w' [] ∧ w'.xstat = w.xstat ∧
        t.mem = u.mem ∧ t.sect = u.sect ∧ t.versions = u.versions ∧ (w'.thread l).pc = next ∧
        (w'.thread l).recs.extractLsb' (4 * slot.toNat) 4 = 0 ∧
        ∃ q ∈ w'.pend, q.lane = some l ∧ q.regs = groupDst is ∧ q.flags = x.flags ∧ q.pubs = x.pubs ∧
          Map.get 0 (w'.thread l).recOwner slot.toNat = q.id + 1 ∧ q.vals = (groupDst is).map (fun r => (x.writes.lookup r).getD 0) ∧ q.opened = false ∧ q.slot = some (slot.toNat, 8)

/-- R39, R53, R235 to R238: BR goes to its target in the threads that take it and falls through in the others; CALL also
writes the link v94:v95 in those that take it, TRAMP with n = 0 the link v92:v93 in every thread; JMP and RET go to the
program counter each thread reads, CALLR writes the link as well. -/
def Obligations.TransferResults : Prop :=
  ∀ s c w, Issuing s c w →
    (∀ u n k o, ∃ t w', exec (.br u n k o) s = .next t ∧
      Transfers s c w t w' (fun l => if takes n k w l then slotTarget c.wordPc u o else c.nextPc) fun _ => []) ∧
    (∀ u n k o, (∀ l, c.lanes.getLsbD l = true → takes n k w l = true → 96 ≤ w.grant) →
      ∃ t w', exec (.call u n k o) s = .next t ∧
        Transfers s c w t w' (fun l => if takes n k w l then slotTarget c.wordPc u o else c.nextPc)
          fun l => if takes n k w l then pairWrites (.v 94) c.nextPc else []) ∧
    (∀ u k o, 96 ≤ w.grant →
      ∃ t w', exec (.tramp u false k o) s = .next t ∧
        Transfers s c w t w' (fun _ => slotTarget c.wordPc u o) fun _ => pairWrites (.v 92) c.nextPc) ∧
    ∀ a, (∀ l, c.lanes.getLsbD l = true → (rd64 s w l a).toNat % 4 = 0 ∧ (rd64 s w l a).toNat / 4 % 4 ≠ 0 ∧
        (rd64 s w l a).toNat < 2 ^ 51) →
      ((Instr.jmp a).wellFormed = true → illReg (.jmp a) w = false →
        ∃ t w', exec (.jmp a) s = .next t ∧ Transfers s c w t w' (fun l => rd64 s w l a) fun _ => []) ∧
      ((Instr.ret a).wellFormed = true → illReg (.ret a) w = false →
        ∃ t w', exec (.ret a) s = .next t ∧ Transfers s c w t w' (fun l => rd64 s w l a) fun _ => []) ∧
      ((Instr.callr a).wellFormed = true → illReg (.callr a) w = false → 96 ≤ w.grant →
        ∃ t w', exec (.callr a) s = .next t ∧ Transfers s c w t w' (fun l => rd64 s w l a) fun _ => pairWrites (.v 94) c.nextPc)

/-- R241: WAITK is a NOP for a thread whose bit is clear. A thread whose bit is set is held; it is released at once, its bit
cleared, when every live thread of the wave whose bit is set is in the group or held at a WAITK on the same register. -/
def Obligations.WaitkResults : Prop :=
  ∀ s c w k, Issuing s c w → Free s w →
    ∃ t w', exec (.waitk k) s = .next t ∧ t.wave? w.id = some w' ∧ RegsKept w w' [] ∧ w'.xstat = w.xstat ∧
      RunsOn c w w' (fun l => w.kbit k l = false) ∧
      (∀ l, w.kbit k l = false → w'.kbit k l = false) ∧
      ((∃ j, Live w j ∧ w.kbit k j = true ∧ c.lanes.getLsbD j = false ∧ ¬(w.thread j).waits (.waitk k)) →
        HeldAt c w w' (.waitk k) (fun l => w.kbit k l = true) ∧ ∀ l, w'.kbit k l = w.kbit k l) ∧
      ((∀ j, Live w j → w.kbit k j = true → c.lanes.getLsbD j = true ∨ (w.thread j).st = .held (.waitk k)) →
        RunsOn c w w' (fun l => w.kbit k l = true) ∧ ∀ l, c.lanes.getLsbD l = true → w'.kbit k l = false)

/-- R233, R282: BAR.wg holds the group's threads until every live thread of the workgroup is held at a BAR.wg with the same
identifier, and then all of them are released in that cycle; BAR.gang does the same over the gang. -/
def Obligations.BarrierResults : Prop :=
  ∀ s c w (n : BitVec 4), Issuing s c w → Free s w → w.wg < 4 →
    ∀ i h (team : Wave → Prop), (i = .barWg n ∧ h = .barWg n.toNat ∧ team = (fun v => v.gang = w.gang ∧ v.wg = w.wg) ∨
        i = .barGang n ∧ h = .barGang n.toNat ∧ team = fun v => v.gang = w.gang) →
      let mine (v : Wave) (l : Nat) : Prop := v.id = w.id ∧ c.lanes.getLsbD l = true
      ∃ t w', exec i s = .next t ∧ t.wave? w.id = some w' ∧ RegsKept w w' [] ∧ w'.xstat = w.xstat ∧ MaskKept w w' ∧
        ((∃ v ∈ s.waves, team v ∧ ∃ l, Live v l ∧ ¬mine v l ∧ ¬(v.thread l).waits h) → HeldAt c w w' h fun _ => True) ∧
        ((∀ v ∈ s.waves, team v → ∀ l, Live v l → mine v l ∨ (v.thread l).st = .held h) → (RunsOn c w w' fun _ => True) ∧
          ∀ id v, s.wave? id = some v → team v → ∃ v', t.wave? id = some v' ∧
            ∀ l < 32, (v.thread l).st = .held h → (v.thread l).todo = [] → (v'.thread l).st = .run)

/-- R28, R281: XACQ within the grant completes and changes nothing; above it, it raises the grant at once where the track
has the registers and nothing waits before it, the registers it grants reading zero, and holds the threads otherwise. XREL with nothing outstanding lowers the
grant, and the registers released are lost; it never raises it; it waits while a result of the wave is outstanding. -/
def Obligations.GrantResults : Prop :=
  ∀ s c w (g : Grant), Issuing s c w → Free s w →
    (g.t ≤ w.grant → ∃ t w' w1, exec (.xacq g) s = .next t ∧ Advanced c w w1 ∧ Ended s w1 t w') ∧
    (∀ tk, w.grant < g.t → w.track = some tk →
      (∀ v ∈ s.waves, v.track = some tk → ∀ l h, (v.thread l).waits h → ¬Hold.isXacq h) →
      ∃ t w', exec (.xacq g) s = .next t ∧ t.wave? w.id = some w' ∧ RegsKept w w' [] ∧
        (g.t - w.grant ≤ s.trackFree tk → w'.grant = g.t ∧ (RunsOn c w w' fun _ => True) ∧
          ∀ l (n : Fin 96), l < 32 → w.grant ≤ n.val → n.val < g.t → w'.raw l (.v n) = 0) ∧
        (s.trackFree tk < g.t - w.grant → w'.grant = w.grant ∧ ∃ q, HeldAt c w w' (.xacq g.t q) fun _ => True)) ∧
    (w.quiet = true →
      ∃ t w' w1, exec (.xrel g) s = .next t ∧ Ended s w1 t w' ∧
        Advanced c (if w.grant ≤ g.t then w else
          { w with grant := g.t, threads := w.threads.map fun h => { h with v := h.v.filter fun x => x.1 < g.t } }) w1) ∧
    (w.quiet = false → NotReady (.xrel g) s)

/-- R42, R276, R277, R279: NOP changes nothing but the program counter, YIELD only a hint, PAUSE only how long the group has
no ready word; EXIT ends each thread of the group once its results have landed, clearing its in-handler state and keeping
its registers and mask bits. -/
def Obligations.PlainWords : Prop :=
  ∀ s c w, Issuing s c w →
    (∃ t w', exec .nop s = .next t ∧ ReturningWord s c w t w' ∧ GenKept c w w' ∧ w'.yieldTrk = w.yieldTrk) ∧
    (∃ t w', exec .yield s = .next t ∧ ReturningWord s c w t w' ∧ GenKept c w w' ∧
      (w.prog = true → w'.yieldTrk = true ∧ w'.yieldGrp = true) ∧ (w.prog = false → w'.yieldTrk = w.yieldTrk)) ∧
    (∀ n, ∃ t w', exec (.pause n) s = .next t ∧ WordFrame s c w t w' ∧ RegsKept w w' [] ∧ MaskKept w w' ∧ w'.xstat = w.xstat ∧
      ∀ l, c.lanes.getLsbD l = true → w'.thread l =
        { w.thread l with pc := c.nextPc, count := 0, commitDone := false, pause := n.toNat }) ∧
    ((∀ l, c.lanes.getLsbD l = true → ∀ p ∈ w.pend, p.lanes.getLsbD l = false) →
      ∃ t w', exec .exit s = .next t ∧ WordFrame s c w t w' ∧ RegsKept w w' [] ∧ MaskKept w w' ∧ w'.xstat = w.xstat ∧
        ∀ l, c.lanes.getLsbD l = true → w'.thread l =
          { w.thread l with pc := c.nextPc, count := 0, commitDone := false, st := .ended, inHandler := false }) ∧
    ((∃ l, c.lanes.getLsbD l = true ∧ ∃ p ∈ w.pend, p.lanes.getLsbD l = true) → NotReady .exit s)

/-- R47, R81, R246, R255, R256, R258: a word that raises a cause in its threads, one of which does not handle it, has no
effect: the gang aborts, the record naming the cause and the chain's first word, and every thread of the gang ends; while a
commit of the gang is being performed, the abort waits for it (R263). The causes that every word can raise come in the order of
R81. An unimplWord raises UNIMPL (R80), TRAP, BRK and TRAMP with n = 1 their own causes (R237, R246, R278). -/
def Obligations.CauseAborts : Prop :=
  ∀ s c w i code n g, IsWord i → Issuing s c w → raisedBy s w i = some (code, n) →
    s.gang? w.gang = some g → g.st = .live → (∃ l, c.lanes.getLsbD l = true ∧ ¬Handled w l code) →
    ∃ t g' f, exec i s = .next t ∧ t.gang? w.gang = some g' ∧ t.mem = s.mem ∧ t.sect = s.sect ∧ f.code = code ∧ f.pc = c.pc ∧
      (s.commitsDone g = true → g'.st = .aborted f ∧
        ∀ v ∈ t.waves, v.gang = w.gang → v.pend = [] ∧ ∀ l, (v.thread l).st = .ended) ∧
      (s.commitsDone g = false → g'.st = .live ∧ g'.due = g.due.or (some f))

/-- R245 to R248, R256: a cause that every thread of the group handles. No thread has a result outstanding and every frame
can be written: each thread writes its frame, v0:v1 take its address, v2 the cause word, v3 the trapping word, and it goes on
at TRAPBASE in its handler; everything else keeps its value. This is the effect of TRAP, BRK, TRAMP with n = 1 and an
unimplWord. The clause on the frame's bytes is for a group of one thread
whose frame is homed on its die. -/
def Obligations.HandlerEntry : Prop :=
  ∀ s c w i code n (pa : Nat → Nat), IsWord i → Issuing s c w → raisedBy s w i = some (code, n) → w.grant ≤ 96 →
    (∀ l, c.lanes.getLsbD l = true → Handled w l code ∧ (∀ p ∈ w.pend, p.lanes.getLsbD l = false) ∧
      s.frameAccess w .write l = .ok (pa l) ∧ pa l % 64 = 0 ∧
      ∃ e, (e ∈ s.tlb ∧ e.core = w.core ∨ e ∈ s.sectTlb ∧ e.core = coreSector w.core) ∧ e.ctx = s.ctxId w ∧
        e.vbase ≤ frameOfLane s w l ∧ frameOfLane s w l < e.vbase + e.size) →
    s.canPublish (coreDie w.core) = true → s.versioned (s.gangOf w) = false →
    ∃ t w', exec i s = .next t ∧ t.wave? w.id = some w' ∧
      w' = { w with grant := w'.grant, k := w'.k, monitor := w'.monitor, pend := w'.pend, lead := w'.lead
                    threads := w'.threads } ∧
      MaskKept w w' ∧ (∀ l, c.lanes.getLsbD l = false → Woken w w' l) ∧
      (∀ l, c.lanes.getLsbD l = true → w'.thread l = { w.thread l with
        pc := w.trapBase, inHandler := true, count := 0, commitDone := false, v := (w'.thread l).v }) ∧
      (Wrote c w w' fun l => [(.v 0, BitVec.ofNat 32 (frameOfLane s w l)), (.v 1, BitVec.ofNat 32 (frameOfLane s w l / 2 ^ 32)),
        (.v 2, BitVec.ofNat 32 (code + 65536 * n)), (.v 3, c.word)]) ∧
      ∀ l, c.lanes = laneBit l →
        (∀ k < 8, homeOfLine (pa l / 64 + k) = some (coreDie w.core) ∧ ∀ x ∈ s.sect, x.line = pa l / 64 + k →
          (x.remote = false ↔ coreDie w.core = sectorDie x.sector)) →
        (∀ j < 128, ∀ b < 4, byteNow t (pa l + 4 * j + b) = byteOf (frameWord c w l code n j) b) ∧
        ∀ A, (A < pa l ∨ pa l + 512 ≤ A) → byteNow t A = byteNow s A

/-- R249, R256: ERET of threads in their handlers, with nothing outstanding and a frame that can be read. Each goes on at the
frame's program counter, leaves its handler, and takes its v registers below the grant, its record slots and its own mask bits
from the frame; the word, cause, grant and detail fields are ignored. Reading the frame may leave copies of its lines, and
changes no byte. -/
def Obligations.EretResults : Prop :=
  ∀ s c w (f : Nat → Nat), Issuing s c w →
    (∀ l, c.lanes.getLsbD l = true → (w.thread l).inHandler = true ∧ (∀ p ∈ w.pend, p.lanes.getLsbD l = false) ∧
      s.frameClear w l = true ∧ s.readFrame w l = .ok (f l) ∧ validPc (BitVec.ofNat 64 (f l)) = true) →
    ∃ t w' u, exec .eret s = .next t ∧ WordFrame u c w t w' ∧
      u = { s with mem := u.mem, sect := u.sect, l1 := u.l1, homeLines := u.homeLines, fills := u.fills, dies := u.dies, picks := u.picks } ∧
      HomesKept s u ∧ w'.xstat = w.xstat ∧
      (∀ l n, w'.raw l (.s n) = w.raw l (.s n)) ∧
      (∀ k l, c.lanes.getLsbD l = false →
        w'.kbit k l = w.kbit k l ∨ (w.thread l).waits (.waitk k) ∧ w'.kbit k l = false) ∧
      ∀ l, c.lanes.getLsbD l = true →
        w'.thread l = { w.thread l with pc := BitVec.ofNat 64 (f l), count := 0, commitDone := false, inHandler := false
                                        recs := BitVec.ofNat 64 (f l / 2 ^ 192), v := (w'.thread l).v } ∧
        (∀ n : Fin 96, w'.raw l (.v n) =
          (if n.val < w.grant then BitVec.ofNat 32 (f l / 2 ^ (1024 + 32 * n.val)) else w.raw l (.v n)) ∨
            Granted w w' l (.v n)) ∧
        ∀ k : Mask, w'.kbit k l = (f l).testBit (128 + k.val)

/-- R283, R284: SIGDEC lowers the 64-bit object at its address by B, and NREC appends the record of each thread, in ascending
lane order, to the ring of a bin that succeeds the issuing node; every other byte is as before, and the gang has written
memory. That the bin's timer starts where every record in it has been given out is the model's reading (log entry 42). Both are
for a kernel that is not versioned: the commit of a versioned one comes first (CommitPoints). -/
def Obligations.SignalResults : Prop :=
  ∀ s c w g, Issuing s c w → s.gang? w.gang = some g → s.versioned g = false → (∀ x ∈ s.sect, homeOfLine x.line ≠ none) →
    (∀ a b pa, (Instr.sigdec a b).wellFormed = true → Allowed s (.sigdec a b) w →
      s.access w .write (rd64 s w 0 a).toNat 8 = .ok pa → pa % 8 = 0 → s.deviceFrame pa = true →
      s.consumes w.gang pa 8 = false →
      (∀ l, c.lanes.getLsbD l = true → s.threadClear w l .sys = true) →
      (∀ h, homeOf pa = some h → s.writable (coreDie w.core) h = true) →
      ∃ t w' g', exec (.sigdec a b) s = .next t ∧ MemoryFrame s c w t w' ∧ HomesOnly s t ∧ t.launches = s.launches ∧
        t.gang? w.gang = some g' ∧ g'.committed = true ∧
        let old := lineNat (s.homeView (pa / 64)) (pa % 64) 8
        ∀ A, byteNow t A = (storedAt 8 [(pa, ((old : Int) - (rd s w 0 b).toNat) % 2 ^ 64 |>.toNat)] A).getD (byteNow s A)) ∧
    ∀ r a gl n (pa : Nat → Nat), (Instr.nrec r a).wellFormed = true → Allowed s (.nrec r a) w →
      s.binOf w (rd s w 0 a).toNat = some (gl, n) → n.count + (lanesOf c.lanes).length ≤ n.binCap →
      (∀ j l, (lanesOf c.lanes)[j]? = some l →
        s.access w .write (gl.args + n.binOff + 16 * ((n.head + n.count + j) % n.binCap)) 16 = .ok (pa l) ∧
        pa l % 16 = 0 ∧ s.threadClear w l .pkg = true ∧ ∀ h, homeOf (pa l) = some h → s.writable (coreDie w.core) h = true) →
      ∃ t w' g', exec (.nrec r a) s = .next t ∧ MemoryFrame s c w t w' ∧ HomesOnly s t ∧
        t.gang? w.gang = some g' ∧ g'.committed = true ∧
        (∀ A, byteNow t A =
          (storedAt 16 ((lanesOf c.lanes).map fun l => (pa l, wide (rd s w l) 4 r)) A).getD (byteNow s A)) ∧
        ((t.launch? gl.id).bind fun x => x.graph.bind fun y => y.nodes[(rd s w 0 a).toNat]?) =
          some { n with count := n.count + (lanesOf c.lanes).length
                        timing := n.timing || decide (n.count ≤ n.given) && n.timer != 0 }

/-- R144, R309, R311, R340 to R342: LIFT starts a chain at its offset, with FMODE as it stands, on an idle queue or behind the
chains the queue holds, and is not ready while it holds eight; LIFTST leaves the status word of R341; LIFTABT discards the
chains not reached, lets the chain of an entry that moves data go no further than that entry, and drops an entry that waits
and one that only steps the walk. -/
def Obligations.LiftWords : Prop :=
  ∀ s c w g, Issuing s c w → s.gang? w.gang = some g →
    (∀ q a, Allowed s (.lift q a) w → RecordAt s g (rd s w 0 a).toNat 32 32 →
      ((g.liftQ q.toNat).held.length < 8 → EngineWord (.lift q a) s c w (s.modGang w.gang fun x =>
        { x with queues := x.queues.modify q.toNat (started x.rkOps
            { seq := s.nextId, start := (rd s w 0 a).toNat, fmode := w.fmode, pc := c.wordPc }) })) ∧
      (8 ≤ (g.liftQ q.toNat).held.length → NotReady (.lift q a) s)) ∧
    (∀ d q, Allowed s (.liftst d q) w →
      let y := g.liftQ (queueNo q)
      let x := if q = .bin then g.binDone.toNat * 65536 + (if g.bins = [] then 0 else 1)
        else y.done.toNat * 65536 + y.held.length * 16 + (if y.abt then 4 else 0) +
          (if s.queueWaits g (queueNo q) then 2 else 0) + if y.walk.isSome then 1 else 0
      ∃ t w', exec (.liftst d q) s = .next t ∧ ReturningWord s c w t w' ∧ GenKept c w w' ∧
        Leaves d c w' fun _ => ([(d, BitVec.ofNat 32 x)], 0)) ∧
    ∀ q, Allowed s (.liftabt q) w →
      ((g.liftQ q.toNat).walk = none → EngineWord (.liftabt q) s c w (if (g.liftQ q.toNat).held = [] then s
        else s.modGang w.gang fun x => { x with queues := x.queues.modify q.toNat fun y => { y with held := [], abt := true } })) ∧
      ∀ k, (g.liftQ q.toNat).walk = some k →
        let moves : Prop := ∃ e, k.cur = some e ∧ entryKind e.toNat ∈ [1, 2, 3, 4, 5, 6, 11] ∧ s.entryWaits g q.toNat k = false
        (¬moves → EngineWord (.liftabt q) s c w
          { s.modGang w.gang fun x => { x with queues := x.queues.modify q.toNat fun y =>
              { y with walk := none, held := [], abt := true, taken := y.taken + 1 } } with
            colls := s.colls.map fun x =>
              if x.ctx = (s.launchOf g).ctx ∧ x.here = some (g.id, q.toNat) then { x with here := none } else x }) ∧
        (moves → EngineWord (.liftabt q) s c w (s.modGang w.gang fun x =>
          { x with queues := x.queues.modify q.toNat fun y =>
              { y with walk := some { k with stop := true }, held := [], abt := true } }))

/-- R326, R343, R344, R350: TQADD enqueues its record as a task with the fields of R326 and FMODE as they stand, DUPD and DQRY
their chunk with its handle, each not ready while 64 entries are in the queue; a record with a poisoned word aborts the gang
(R386). TQWAIT waits until at most n are left or a
pre-emption is asked for, and writes their number, with E in bit 31. The task's tiles are mapped already. -/
def Obligations.TileQueueWords : Prop :=
  ∀ s c w g, Issuing s c w → Quiet s w g →
    (∀ i a al, (i = .tqadd a ∧ al = 64 ∨ (i = .dupd a ∨ i = .dqry a) ∧ al = 16) → Allowed s i w →
      RecordAt s g (rd s w 0 a).toNat al 64 → g.spadBad (rd s w 0 a).toNat 64 = true → g.st = .live → s.commitsDone g = true →
      ∃ t, exec i s = .next t ∧ Aborted t w.gang 0x80) ∧
    (∀ a, Allowed s (.tqadd a) w → RecordAt s g (rd s w 0 a).toNat 64 64 → g.spadBad (rd s w 0 a).toNat 64 = false →
      let off := (rd s w 0 a).toNat
      let head : Word := BitVec.ofNat 32 (Memory.readNat g.spad off 4)
      (Room g → ∀ foot, List.Forall₂ (Named s g) (taskTiles head (Memory.readNat g.spad (off + 14) 2)) foot →
        ∃ tids, EngineWord (.tqadd a) s c w (s.modGang w.gang (queued
          { seq := s.nextId, kind := .task, off, fmode := w.fmode, pc := c.wordPc, head
            tile := Memory.readNat g.spad (off + 14) 2, held := head.getLsbD 8, foot, tids }))) ∧
      (¬Room g → NotReady (.tqadd a) s)) ∧
    (∀ i a k, (i = .dupd a ∧ k = TqKind.dupd ∨ i = .dqry a ∧ k = .dqry) → Allowed s i w → RecordAt s g (rd s w 0 a).toNat 16 64 →
      g.spadBad (rd s w 0 a).toNat 64 = false →
      let h := Memory.readNat g.spad (rd s w 0 a).toNat 4
      (Room g → ∃ tids foot, ((s.boundState g h).isSome = true → foot = s.handleTiles g h) ∧
        EngineWord i s c w (s.modGang w.gang (queued
          { seq := s.nextId, kind := k, off := (rd s w 0 a).toNat, fmode := w.fmode, pc := c.wordPc, handle := h, foot, tids }))) ∧
      (¬Room g → NotReady i s)) ∧
    ∀ d n, (Instr.tqwait d n).wellFormed = true → Allowed s (.tqwait d n) w →
      let k := (g.tileQ.filter TileCmd.counted).length
      (k ≤ n.val ∨ g.preempt = true → ∃ t w', exec (.tqwait d n) s = .next t ∧ RegisterWord s c w t w' ∧ w'.xstat = w.xstat ∧
        Wrote c w w' fun _ => [(d, BitVec.ofNat 32 (k + if k ≤ n.val then 0 else 2 ^ 31))]) ∧
      (¬(k ≤ n.val ∨ g.preempt = true) → NotReady (.tqwait d n) s)

/-- R327, R330, R331, R345: accumulator words that nothing precedes. ACCZ clears the words of its tiles, ACCRD leaves the word
each thread names, ACCWR writes the word each thread names, the highest lane last; no flag is raised, and every other word
is as before. A write ends the poison of its word, and a read of a poisoned one aborts the gang (R386). An ACCZ of one tile that is
not mapped gives the gang a free tile of its cluster, cleared. -/
def Obligations.AccumulatorWords : Prop :=
  ∀ s c w g, Issuing s c w → Idle s w g →
    (∀ a n, Allowed s (.accz a n) w → (rd s w 0 a).toNat % 256 + n.toNat + 1 ≤ 256 →
      (∀ foot, List.Forall₂ (Named s g) ((List.range (n.toNat + 1)).map ((rd s w 0 a).toNat % 256 + ·)) foot →
        EngineWord (.accz a n) s c w { s with
          tiles := s.tiles.map fun y => if y.cluster = g.cluster ∧ y.phys ∈ foot then { y with data := [], poison := [] } else y }) ∧
      (n = 0 → s.window g ((rd s w 0 a).toNat % 256) = none → (∃ p < 256, s.tile? g.cluster p = none) →
        ∃ p < 256, s.tile? g.cluster p = none ∧ EngineWord (.accz a n) s c w { s with
          tiles := { cluster := g.cluster, phys := p, ctx := (s.launchOf g).ctx
                     st := .gangOwned g.id ((rd s w 0 a).toNat % 256) } :: s.tiles })) ∧
    (∀ d a (phys : Nat → Nat), (Instr.accrd d a).wellFormed = true → Allowed s (.accrd d a) w →
      (∀ q ∈ w.pend, q.id < s.nextId) →
      (∀ l ∈ lanesFor d c, Named s g ((rd s w l a).toNat / 2 ^ 10 % 256) (phys l)) →
      ((∀ l ∈ lanesFor d c, s.wordBad g.cluster (phys l) ((rd s w l a).toNat % 2 ^ 10) = false) →
        ∃ t w', exec (.accrd d a) s = .next t ∧ ReturningWord s c w t w' ∧ GenKept c w w' ∧
          Leaves d c w' fun l => ([(d, s.tileWord g.cluster (phys l) ((rd s w l a).toNat % 2 ^ 10))], 0)) ∧
      ((∃ l ∈ lanesFor d c, s.wordBad g.cluster (phys l) ((rd s w l a).toNat % 2 ^ 10) = true) →
        ∃ t, exec (.accrd d a) s = .next t ∧ Aborted t w.gang 0x80)) ∧
    ∀ a b (phys : Nat → Nat), (Instr.accwr a b).wellFormed = true → Allowed s (.accwr a b) w →
      (∀ l, c.lanes.getLsbD l = true → Named s g ((rd s w l a).toNat / 2 ^ 10 % 256) (phys l)) →
      (∀ l j, c.lanes.getLsbD l = true → c.lanes.getLsbD j = true → phys l = phys j →
        (rd s w l a).toNat / 2 ^ 10 % 256 = (rd s w j a).toNat / 2 ^ 10 % 256) →
      ∃ ts, EngineWord (.accwr a b) s c w { s with tiles := ts } ∧
        (ts.map fun y => { y with data := [], poison := [] }) = s.tiles.map (fun y => { y with data := [], poison := [] }) ∧
        (∀ cl p k, State.wordBad { s with tiles := ts } cl p k = true ↔ s.wordBad cl p k = true ∧ ¬(cl = g.cluster ∧
          (lastWrite (lanesOf c.lanes) phys (fun l => (rd s w l a).toNat % 2 ^ 10) (fun l => rd s w l b) p k).isSome = true)) ∧
        ∀ cl p k, State.tileWord { s with tiles := ts } cl p k =
          if cl = g.cluster then (lastWrite (lanesOf c.lanes) phys (fun l => (rd s w l a).toNat % 2 ^ 10)
            (fun l => rd s w l b) p k).getD (s.tileWord cl p k) else s.tileWord cl p k

/-- R330, R332, R346 to R349: words on states that nothing precedes. ACCPIN makes a state of tiles the gang owns, bound where
they lie; ACCUNPIN frees its tiles; ACCSPILL ends the state and leaves the command that writes its image, ACCFILL makes the
handle and leaves the command that reads it; ACCBIND binds an unbound state of the cluster at the lowest free run and writes
t0, or writes the value that says why not. -/
def Obligations.StateWords : Prop :=
  ∀ s c w g, Issuing s c w → Idle s w g →
    let ctx := (s.launchOf g).ctx
    (∀ a b foot, Allowed s (.accpin a b) w →
      let x := (rd s w 0 b).toNat
      let m := (x / 2 ^ 8 % 4 + 1) * (x / 2 ^ 10 % 4 + 1)
      rd s w 0 a ≠ 0 → x / 2 ^ 12 = 0 → s.stateRec? ctx (rd s w 0 a).toNat = none → x % 256 + m ≤ 256 →
      List.Forall₂ (fun n p => Named s g n p ∧ ∀ y, s.tile? g.cluster p = some y → y.st = .gangOwned g.id n)
        ((List.range m).map (x % 256 + ·)) foot → foot.Nodup →
      EngineWord (.accpin a b) s c w { s with
        tiles := s.tiles.map fun y => if y.cluster = g.cluster ∧ y.phys ∈ foot then
            { y with st := .pinned (rd s w 0 a).toNat (foot.idxOf y.phys) } else y
        states := s.states ++ [{ ctx, handle := (rd s w 0 a).toNat, dv := 32 * (x / 2 ^ 8 % 4 + 1), dk := 32 * (x / 2 ^ 10 % 4 + 1)
                                 tokens := 0, place := .cluster g.cluster, bound := some (g.id, x % 256) }] }) ∧
    (∀ a r, Allowed s (.accunpin a) w → s.boundState g (rd s w 0 a).toNat = some r →
      EngineWord (.accunpin a) s c w { s with
        tiles := s.tiles.filter fun y => !(y.cluster == g.cluster && (s.handleTiles g (rd s w 0 a).toNat).contains y.phys)
        states := s.states.filter fun y => !(y.ctx == ctx && y.handle == (rd s w 0 a).toNat) }) ∧
    (∀ a b pa, s.deviceFrame pa = true →
      (∀ r, (Instr.accspill a b).wellFormed = true → Allowed s (.accspill a b) w → s.boundState g (rd s w 0 a).toNat = some r →
        s.access w .write (rd64 s w 0 b).toNat 64 = .ok pa → (s.handleTiles g (rd s w 0 a).toNat).Nodup →
        let foot := s.handleTiles g (rd s w 0 a).toNat
        EngineWord (.accspill a b) s c w { s.modGang w.gang (queued
            { seq := s.nextId, kind := .spill, off := (rd64 s w 0 b).toNat, pc := c.wordPc, handle := (rd s w 0 a).toNat
              dv := r.dv, dk := r.dk, tokens := r.tokens, foot }) with
          tiles := s.tiles.map fun y => if y.cluster = g.cluster ∧ y.phys ∈ foot then
            { y with st := .left (rd s w 0 a).toNat (foot.idxOf y.phys) } else y
          states := s.states.filter fun y => !(y.ctx == r.ctx && y.handle == (rd s w 0 a).toNat) }) ∧
      ((Instr.accfill a b).wellFormed = true → Allowed s (.accfill a b) w → s.stateRec? ctx (rd s w 0 a).toNat = none →
        s.access w .read (rd64 s w 0 b).toNat 64 = .ok pa →
        EngineWord (.accfill a b) s c w { s.modGang w.gang (queued
            { seq := s.nextId, kind := .fill, off := (rd64 s w 0 b).toNat, pc := c.wordPc, handle := (rd s w 0 a).toNat }) with
          states := s.states ++ [{ ctx, handle := (rd s w 0 a).toNat, dv := 0, dk := 0, tokens := 0, place := .filling
                                   bound := none }] })) ∧
    ∀ d a, (Instr.accbind d a).wellFormed = true → Allowed s (.accbind d a) w →
      let puts (x : Word) : Prop := ∃ t w', exec (.accbind d a) s = .next t ∧ RegisterWord s c w t w' ∧ w'.xstat = w.xstat ∧
        Wrote c w w' fun _ => [(d, x)]
      (s.stateRec? ctx (rd s w 0 a).toNat = none → puts 0xFFFFFFFE#32) ∧
      ∀ r, s.stateRec? ctx (rd s w 0 a).toNat = some r → r.ending = false → r.place ≠ .filling →
        (∀ b t0, r.bound = some (b, t0) → puts (if b = g.id then BitVec.ofNat 32 t0 else 0xFFFFFFFF#32)) ∧
        (r.bound = none →
          let free (t0 : Nat) : Prop := t0 + stateSize r.dv r.dk ≤ 256 ∧ ∀ j < stateSize r.dv r.dk, s.window g (t0 + j) = none
          ((∀ t0, ¬free t0) → puts 0xFFFFFFFD#32) ∧
          ∀ t0, free t0 → (∀ n < t0, ¬free n) → r.place = .cluster g.cluster →
            ∃ t w', exec (.accbind d a) s = .next t ∧ RegisterWord { s with states := s.states.map fun y =>
                if y.ctx = r.ctx ∧ y.handle = r.handle then { y with bound := some (g.id, t0) } else y } c w t w' ∧
              w'.xstat = w.xstat ∧ Wrote c w w' fun _ => [(d, BitVec.ofNat 32 t0)])

/-- R298, R309, R310, R351: RKINIT writes a rink's geometry and clears its phases, or parks its threads at the word while a
chain or a task with WAIT or FLIP issued before it is incomplete; RKWAIT, once the threads' earlier releases are performed,
goes on where the stage has phase p and holds the threads where it has not; RKFLIP, once their earlier accesses are performed
at .gang, inverts the phase and releases the threads that wait for what it is then. -/
def Obligations.RinkWords : Prop :=
  ∀ s c w g, Issuing s c w → s.gang? w.gang = some g →
    (∀ r a, (Instr.rkinit r a).wellFormed = true → Allowed s (.rkinit r a) w →
      let x := (rd64 s w 0 a).toNat
      let base := x % 2 ^ 32
      let size := x / 2 ^ 32 % 2 ^ 17
      let count := x / 2 ^ 49 % 32
      ((∀ q ∈ g.queues, q.walk = none ∧ q.held = []) →
        (∀ d ∈ g.tileQ, d.kind = .task → d.head.getLsbD 9 = false ∧ d.head.getLsbD 10 = false) →
        x / 2 ^ 54 = 0 → RinkOk (s.launchOf g).hdr.scratch base size count →
        EngineWord (.rkinit r a) s c w (s.modGang w.gang fun y =>
          { y with rinks := y.rinks.set r.toNat { base, size, count, phases := 0 } })) ∧
      ((∃ q ∈ g.queues, (∃ k, q.walk = some k ∧ k.chain.seq < s.nextId) ∨ ∃ h ∈ q.held, h.seq < s.nextId) ∨
        (∃ d ∈ g.tileQ, d.kind = .task ∧ d.seq < s.nextId ∧ (d.head.getLsbD 9 = true ∨ d.head.getLsbD 10 = true)) →
        ∃ t w' op, exec (.rkinit r a) s = .next t ∧
          WordFrame (s.modGang w.gang fun y => { y with rkOps := y.rkOps ++ [op] }) c w t w' ∧
          op.wave = w.id ∧ op.lanes = c.lanes ∧ op.seq = s.nextId ∧ op.rink = r.toNat ∧
          (x / 2 ^ 54 = 0 → op.base = base ∧ op.size = size ∧ op.count = count) ∧
          RegsKept w w' [] ∧ MaskKept w w' ∧ w'.xstat = w.xstat ∧ ∀ l, c.lanes.getLsbD l = true →
            w'.thread l = { w.thread l with count := 0, parked := some s.nextId, resume := c.nextPc, todo := [] })) ∧
    ∀ r st : BitVec 4, ((g.rinks.getD r.toNat {}).count = 0 ∨ st.toNat < (g.rinks.getD r.toNat {}).count) →
      let phase := (g.rinks.getD r.toNat {}).phases.getLsbD st.toNat
      (∀ p, Allowed s (.rkwait r st p) w → (∀ l, c.lanes.getLsbD l = true → s.relsDone w l .gang = true) →
        (phase = p → EngineWord (.rkwait r st p) s c w s) ∧
        (phase ≠ p → ∃ t w', exec (.rkwait r st p) s = .next t ∧ WordFrame s c w t w' ∧ RegsKept w w' [] ∧ MaskKept w w' ∧
          w'.xstat = w.xstat ∧ HeldAt c w w' (.rkwait r.toNat st.toNat p) fun _ => True)) ∧
      (Allowed s (.rkflip r st) w → (∀ l, c.lanes.getLsbD l = true → s.threadClear w l .gang = true) → ∃ t w', exec (.rkflip r st) s = .next t ∧ GenKept c w w' ∧
        ReturningWord (s.modGang w.gang fun y => { y with
          rinks := y.rinks.modify r.toNat fun z => { z with phases := z.phases ^^^ (1#16 <<< st.toNat) } }) c w t w' ∧
        (Free s w → r.toNat < g.rinks.length → ∀ id v l, s.wave? id = some v → v.gang = w.gang → l < 32 →
          (v.thread l).st = .held (.rkwait r.toNat st.toNat (!phase)) → (v.thread l).todo = [] →
            ∃ v', t.wave? id = some v' ∧ (v'.thread l).st = .run))

/-- R150, R352 to R354: TIDSET, TIDINV and TIDGET leave an operation on their entry, numbered in the order of enqueueing, that
TIDSET_PERFORM performs in its turn, TIDGET with a result outstanding in each thread; BINGO puts its descriptor behind the
gang's earlier ones, or aborts the gang where a word of its header is poisoned (R386). -/
def Obligations.TensorWords : Prop :=
  ∀ s c w g, Issuing s c w → s.gang? w.gang = some g →
    let size := (s.launchOf g).hdr.tidtable
    let noted (ops : List TidOp) (x : Gang) : Gang := { x with tidOps := x.tidOps ++ ops }
    (∀ a b, Allowed s (.tidset a b) w → (rd s w 0 a).toNat % 4096 < size → RecordAt s g (rd s w 0 b).toNat 16 128 →
      EngineWord (.tidset a b) s c w (s.modGang w.gang (noted
        [{ seq := s.nextId, entry := (rd s w 0 a).toNat % 4096, act := .set (rd s w 0 b).toNat, pc := c.wordPc }]))) ∧
    (∀ a, Allowed s (.tidinv a) w → (rd s w 0 a).toNat % 4096 < size →
      EngineWord (.tidinv a) s c w (s.modGang w.gang (noted
        [{ seq := s.nextId, entry := (rd s w 0 a).toNat % 4096, act := .inv, pc := c.wordPc }]))) ∧
    (∀ d a, (Instr.tidget d a).wellFormed = true → Allowed s (.tidget d a) w →
      (∀ l, c.lanes.getLsbD l = true → (rd s w l a).toNat % 4096 < size) →
      ∃ t w', exec (.tidget d a) s = .next t ∧ GenKept c w w' ∧
        ReturningWord (s.modGang w.gang (noted ((lanesFor d c).zipIdx.map fun x =>
          { seq := s.nextId + 2 * x.2 + 1, entry := (rd s w x.1 a).toNat % 4096, pc := c.wordPc
            act := .get w.id (s.nextId + 2 * x.2) ((rd s w x.1 a).toNat / 2 ^ 12 % 32) }))) c w t w' ∧
        ∀ j l, (lanesFor d c)[j]? = some l → ∃ q ∈ w'.pend, q.id = s.nextId + 2 * j ∧ q.opened = true ∧ q.regs = [d] ∧
          q.lane = (if d.isUni then none else some l) ∧ q.lanes = if d.isUni then c.lanes else laneBit l) ∧
    ∀ a, Allowed s (.bingo a) w → s.versioned g = false →
      RecordAt s g (rd s w 0 a).toNat 16 (32 + 16 * Memory.readNat g.spad ((rd s w 0 a).toNat + 16) 2) →
      (g.spadBad (rd s w 0 a).toNat 32 = true → g.st = .live → ∃ t, exec (.bingo a) s = .next t ∧ Aborted t w.gang 0x80) ∧
      (g.spadBad (rd s w 0 a).toNat 32 = false → EngineWord (.bingo a) s c w (s.modGang w.gang fun x =>
        { x with bins := x.bins ++ [{ seq := s.nextId, off := (rd s w 0 a).toNat, pc := c.wordPc }] }))

/-- R185, R222, R229, R248, R268, R276, R387: a spurious event or an interrupt records an event on a wave's armed monitor, or
wakes what it holds; a count that comes due gives the wave's track the next cycle (R222 and R229 then choose it: IssueOrder), by an
entry of State.inputs, which is the model's choice (log entry 2); a pause ends; trap entry goes on once no result of its threads is
outstanding, whatever chains that trapped in other cycles wait for; the watchdog aborts with 0x84 a gang that has a thread left, a
queue that waits or a tile command that waits for a tile, and it may do so at any time, which is the model's reading, as it counts
no cycles (log entry 60); the sweep of a waking core aborts each gang with a granted register in error with 0x80, and no wave of a
gang that is on the core issues before it. An abort waits for a commit that is being performed (R263). -/
def Obligations.ThreadEvents : Prop :=
  ∀ s,
    (∀ i wave w m, (i = .monitorSpuriousEvent wave ∨ i = .interruptDelivery wave) → s.wave? wave = some w →
      w.monitor = some m → ∃ t, exec i s = .next t ∧ WaveOnly s t wave
        (if (∃ h ∈ w.threads, h.st = .held .waitm) ∧ (s.gangOf w).preempt = false ∧ (s.gangOf w).place.isSome = true then
          { w with monitor := none, threads := w.threads.map fun h => if h.st = .held .waitm then h.goOn else h }
        else { w with monitor := some { m with event := true } })) ∧
    (∀ wave w l, s.wave? wave = some w → ∃ t, exec (.pauseExpiry wave l) s = .next t ∧ WaveOnly s t wave
      { w with threads := w.threads.mapIdx fun k h =>
          if k < 32 ∧ h.pc = (w.thread l).pc ∧ h.pause = (w.thread l).pause then { h with pause := 0 } else h }) ∧
    (∀ wave w tk, s.wave? wave = some w → w.track = some tk →
      (w.prog = true → (∃ l < 32, (w.thread l).st = .run ∧ 255 ≤ (w.thread l).count ∧
        ∀ k, w.lead.getLsbD k = true → (w.thread k).st = .run → (w.thread k).pc ≠ (w.thread l).pc) →
        exec (.fairnessDue wave) s = .next { s with inputs := .track tk :: s.inputs }) ∧
      (64 ≤ w.wait → (∀ v ∈ s.waves, v.track = w.track → v.wait ≤ w.wait) →
        exec (.waveAged wave) s = .next { s with inputs := .track tk :: s.inputs })) ∧
    (∀ gang g, s.gang? gang = some g → s.gangOn g = true →
      let starves : Prop := (∃ v ∈ s.waves, v.gang = gang ∧ ∃ l, Live v l) ∨ (∃ q < 4, s.queueWaits g q = true) ∨
        ∃ d ∈ g.tileQ, s.tileWaits g d = true
      (starves → s.commitsDone g = true →
        ∃ t, exec (.watchdogKill gang) s = .next t ∧ Aborted t gang 0x84 ∧ t.mem = s.mem ∧ t.sect = s.sect) ∧
      (¬starves → exec (.watchdogKill gang) s = .next s)) ∧
    (∀ core, ∃ t, exec (.coreWakeSweep core) s = .next t ∧
      let bad (w : Wave) : Prop := core ∈ s.unswept ∧ w ∈ s.waves ∧ w.track.isSome = true ∧ w.core = core ∧
        ∃ x ∈ s.regPoison, x.1 = w.id ∧ x.2.2 < w.grant
      (∀ w g, bad w → s.gang? w.gang = some g → g.st = .live → s.commitsDone g = true → Aborted t w.gang 0x80) ∧
      (∀ id g, s.gang? id = some g → (∀ w, bad w → w.gang ≠ id) → ∃ g', t.gang? id = some g' ∧ g'.st = g.st) ∧
      (∀ x, x ∈ t.regPoison ↔ x ∈ s.regPoison ∧ ∀ w, bad w → w.id ≠ x.1) ∧ (∀ c, c ∈ t.unswept ↔ c ∈ s.unswept ∧ c ≠ core) ∧
      (core ∈ s.unswept → ∀ v ∈ s.waves, v.track.isSome = true → v.core = core → ∀ tk, ∀ x ∈ s.scans tk,
        x.wave.gang ≠ v.gang)) ∧
    ∀ wave w l x pa, s.wave? wave = some w → s.gangOn (s.gangOf w) = true → s.versioned (s.gangOf w) = false → l < 32 →
      (w.thread l).st = .held (.entry x none) → validPc w.trapBase = true →
      (∀ k y, (w.thread k).st = .held (.entry y none) → k = l ∨
        (y.pc ≠ x.pc ∨ y.cycle ≠ x.cycle) ∧ ∃ p ∈ w.pend, p.lanes.getLsbD k = true) →
      (∀ p ∈ w.pend, p.lanes.getLsbD l = false) → s.canPublish (coreDie w.core) = true → s.frameAccess w .write l = .ok pa →
      ∃ t w', exec (.trapEntry wave) s = .next t ∧ t.wave? wave = some w' ∧ Entered s w w' l x

/-- R107, R173, R175, R176, R188, R201, R207, R373, R391: a fill writes the invalid words of its sector's copy and completes
the loads that wait for it, and then the stores that its sector cache holds for it are performed; a home whose coverage suffices answers a read with its freshest words and its vector; an eviction
drops a copy, its dirty words written back; a read, a write, and a copy taken, updated or given up by the host, which reaches
device memory in the ranges of its functions, from stage 6 on. None of the others changes a byte that a home serves. A read
leaves its lines in their home caches where those have room. -/
def Obligations.FillEvents : Prop :=
  ∀ s,
    (∀ idx f data, s.fills.find? (fun x => x.id == idx) = some f → f.sector = coreSector f.core → Coherent s f.line →
      (f.waiters.Pairwise fun x y => x.wave ≠ y.wave ∨ x.pid ≠ y.pid) → f.sent = true →
      (homeOfLine f.line = some (sectorDie f.sector) ∧ s.coverage (sectorDie f.sector) f.deps = true ∧ data = s.homeView f.line ∨
        ∃ h, homeOfLine f.line = some h ∧ h ≠ sectorDie f.sector ∧ f.data = some data ∧
          .reply idx ∈ (s.flow .response h (sectorDie f.sector)).ready) →
      ∃ t, exec (.mergingFillArrival idx) s = .next t ∧ (f.stores = [] → HomesKept s t) ∧
        ((∀ x ∈ f.stores, f.fillSect = true ∧ x.w.line = f.line ∧ coreSector x.core = f.sector) →
          homeOfLine f.line = some (sectorDie f.sector) → ∀ A,
          byteNow t A = written (f.stores.map (·.w)) (A / 64) (A % 64) (byteNow s A)) ∧ t.versions = s.versions ∧ (∀ x ∈ t.fills, x.id ≠ idx) ∧
        ∀ r ∈ f.waiters, ∀ w p, s.wave? r.wave = some w → p.id = r.pid → Answered s t r.wave p
          { p with
            opened := false
            vals := wordsOf r.width (lineNat (s.overlay w.gang f.line (filledLine s f data)) r.off r.width.bytes) }) ∧
    (∀ idx f, s.fills.find? (fun x => x.id == idx) = some f →
      (f.sent = false ∨ homeOfLine f.line = some (sectorDie f.sector) ∧ s.coverage (sectorDie f.sector) f.deps = false) →
      exec (.mergingFillArrival idx) s = .next s) ∧
    (∀ idx f h, s.fills.find? (fun x => x.id == idx) = some f → homeOfLine f.line = some h →
      .read idx ∈ (s.flow .request (sectorDie f.sector) h).ready →
      (s.coverage h f.deps = true → ∃ t f', exec (.homeReadServe idx) s = .next t ∧ HomesKept s t ∧ f' ∈ t.fills ∧ f'.id = idx ∧
        f'.data = some (s.homeView f.line) ∧ f'.applied = (s.die h).app ∧
        .read idx ∉ (t.flow .request (sectorDie f.sector) h).ready ∧
        .reply idx ∈ (t.flow .response h (sectorDie f.sector)).bodies) ∧
      (s.coverage h f.deps = false → exec (.homeReadServe idx) s = .next s)) ∧
    (∀ unit line, (∃ t, exec (.cacheEviction .l1 unit line) s = .next t ∧ t = { s with l1 := t.l1 } ∧
        ∀ x, x ∈ t.l1 ↔ x ∈ s.l1 ∧ ¬(x.core = unit ∧ x.line = line)) ∧
      (∃ t, exec (.cacheEviction .sector unit line) s = .next t ∧ t = { s with mem := t.mem, sect := t.sect } ∧
        HomesKept s t ∧ (∀ x ∈ t.sect, ¬(x.sector = unit ∧ x.line = line) ∧
          ∃ y ∈ s.sect, x = { y with dirty := x.dirty } ∧ (y.line ≠ line → x = y)) ∧
        ∀ y ∈ s.sect, ¬(y.sector = unit ∧ y.line = line) →
          ∃ x ∈ t.sect, x = { y with dirty := x.dirty } ∧ (y.line ≠ line → x = y)) ∧
      ∃ t, exec (.cacheEviction .home unit line) s = .next t ∧ t = { s with homeLines := t.homeLines } ∧
        (homeOfLine line = some unit → line ∉ t.homeLines)) ∧
    (s.link = true → ∀ addr len, Reached s addr len → ∃ t, exec (.hostMemRead addr len) s = .next t ∧ HomesKept s t ∧
      t = { s with mem := t.mem, sect := t.sect, homeLines := t.homeLines, picks := t.picks } ∧
      (s.homeLines.length + s.versions.length + len + 1 < 2 ^ 22 →
        ∀ A, addr ≤ A → A < addr + len → s.deviceFrame (A / 64 * 64) = true → A / 64 ∈ t.homeLines)) ∧
    (s.link = true → HostUncached s → ∀ addr bytes, Reached s addr bytes.length →
      ∃ t, exec (.hostMemWrite addr bytes) s = .next t ∧ ∀ A, byteNow t A = if addr ≤ A ∧ s.frameOk A = true then (bytes[A - addr]?).getD (byteNow s A) else byteNow s A) ∧
    (s.link = true → s.stage = 6 → ∀ line, s.deviceFrame (64 * line) = true →
      (∃ t, exec (.hostCacheRequest line .take) s = .next t ∧ line ∈ t.hostLines ∧ HomesKept s t) ∧
      (∃ t, exec (.hostCacheRequest line .giveUp) s = .next t ∧ t = { s with hostLines := t.hostLines } ∧ line ∉ t.hostLines) ∧
      ∀ data, line ∈ s.hostLines → (∀ n < 64, s.frameOk (64 * line + n) = true) →
        ∃ t, exec (.hostCacheRequest line (.update data)) s = .next t ∧ line ∈ t.hostLines ∧
          ∀ A, byteNow t A = if A / 64 = line then (data[A % 64]?).getD (byteNow s A) else byteNow s A) ∧
    ∀ addr bytes len, (s.link = false ∨ ¬Reached s addr len → exec (.hostMemRead addr len) s = .next s) ∧
      (s.link = false ∨ ¬Reached s addr bytes.length → exec (.hostMemWrite addr bytes) s = .next s) ∧
      ∀ line x, s.link = false ∨ s.stage ≠ 6 → exec (.hostCacheRequest line x) s = .next s

/-- R200 to R203, R263: a home applies the publication at the head of a flow once every write it depends on is applied there, and
its entry for the publishing die takes the stamp's; a marker carries the die's count; the flits of a flow are delivered in
sequence, from a reorder buffer of 256, and a flit it has no room for is refused and sent again. A store or an atomic that arrives
records an event on the monitors of its lines (R185). An abort that waited for the gang's commit takes effect once every home has
applied it. That a far atomic is performed in the step that applies its publication, and that a flit next in sequence is delivered
also while the buffer is full, are the model's readings (log entries 40 and 71). -/
def Obligations.FabricEvents : Prop :=
  ∀ s src dst,
    (∀ stamp wave body rest, (s.flow .publish src dst).ready = .pub stamp wave body :: rest → (∀ p, body ≠ .marker p) →
      ((∀ k < 8, k ≠ src → k ≠ dst → serialGe (vecAt (s.die dst).app k) (vecAt stamp k) = true) →
        ∃ t, exec (.publishedWriteApply src dst) s = .next t ∧ (t.flow .publish src dst).ready = rest ∧
          ((∃ x ∈ s.dies, x.id = dst) → src < (s.die dst).app.length → vecAt (t.die dst).app src = vecAt stamp src) ∧
          (∀ g f, s.gang? g.id = some g → g.st = .live → g.due = some f → t.commitsDone g = true →
            ∃ g', t.gang? g.id = some g' ∧ g'.st = .aborted f) ∧
          (∀ ws, body = .writes ws → (∀ w ∈ ws, homeOfLine w.line = some dst) → ∀ A,
            byteNow t A = written ws (A / 64) (A % 64) (byteNow s A)) ∧
          ∀ id r, body = .atomic id → s.groom.find? (fun x => x.id == id) = some r → homeOf r.addr = some dst →
            r.addr % r.ty.bytes = 0 → (r.parts.Pairwise fun x y => x.pid ≠ y.pid ∨ x.pid = none) →
            (∀ g ∈ s.gangs, g.due = none) → AtomDone s t r) ∧
      (¬(∀ k < 8, k ≠ src → k ≠ dst → serialGe (vecAt (s.die dst).app k) (vecAt stamp k) = true) →
        exec (.publishedWriteApply src dst) s = .next s)) ∧
    (∀ stamp wave p rest, (s.flow .publish src dst).ready = .pub stamp wave (.marker p) :: rest →
      ∃ t, exec (.clockMarker src dst) s = .next t ∧ t = { s with flows := t.flows, dies := t.dies } ∧
        (t.flow .publish src dst).ready = rest ∧
        ((∃ x ∈ s.dies, x.id = dst) → src < (s.die dst).app.length → vecAt (t.die dst).app src = p)) ∧
    ((s.flow .publish src dst).bodies = [] → src ≠ dst → vecAt (s.die dst).app src ≠ (s.die src).pub →
      (∃ d ∈ s.dies, serialGe (vecAt (s.die dst).app src) (vecAt d.dep src) = false) →
      ∃ t, exec (.clockMarker src dst) s = .next t ∧ t = { s with flows := t.flows } ∧
        .pub [] 0 (.marker (s.die src).pub) ∈ (t.flow .publish src dst).bodies) ∧
    ∀ cls f, s.flow? cls src dst = some f →
      (∀ x, f.flight.find? (fun y => y.seq == x.seq) = some x →
        ∃ t f', exec (.flitArrival cls src dst x.seq) s = .next t ∧ t = { s with flows := t.flows, waves := t.waves } ∧
          t.flow? cls src dst = some f' ∧ (∀ y ∈ f'.flight, y.seq ≠ x.seq) ∧
          (let met (m : Monitor) : Prop := f'.refused = f.refused ∧ ((∃ st n ws, x.body = .pub st n (.writes ws) ∧
              ∃ y ∈ ws, y.line = m.line) ∨ ∃ st n id, x.body = .pub st n (.atomic id) ∧
              ∃ r ∈ s.groom, r.id = id ∧ r.addr / 64 = m.line)
            ∀ id w, s.wave? id = some w → ∃ w', t.wave? id = some w' ∧
              ((∀ m, w.monitor = some m → ¬met m) → w' = w) ∧
              ∀ m, w.monitor = some m → met m → (¬∃ h ∈ w.threads, h.st = .held .waitm) →
                w' = { w with monitor := some { m with event := true } }) ∧
          let ordered := cls = .request ∨ cls = .publish
          (¬ordered → f'.ready = f.ready ++ [x.body]) ∧
          (ordered → x.seq = f.expect → (∀ y ∈ f.buffer, y.seq ≠ f.expect) →
            f.ready ++ [x.body] <+: f'.ready ∧ f.expect < f'.expect) ∧
          (ordered → x.seq ≠ f.expect → f.buffer.length < 256 → (∀ y ∈ f.buffer, y.seq ≠ f.expect) →
            f'.ready = f.ready ∧ f'.buffer = f.buffer ++ [x]) ∧
          (ordered → x.seq ≠ f.expect → 256 ≤ f.buffer.length → f'.ready = f.ready ∧ f'.buffer = f.buffer ∧
            f'.refused = f.refused ++ [{ x with backoff := if x.backoff = 0 then 16 else min 4096 (2 * x.backoff) }])) ∧
      ∀ x, f.refused.find? (fun y => y.seq == x.seq) = some x →
        ∃ t f', exec (.flitRetransmit cls src dst x.seq) s = .next t ∧ t = { s with flows := t.flows } ∧
          t.flow? cls src dst = some f' ∧ x ∈ f'.flight ∧ ∀ y ∈ f'.refused, y.seq ≠ x.seq

/-- R117 to R120, R192, R201, R211, R212, R274: the groomer performs the requests on a line in the order of their arrival, each
in one step, once its home covers what the die has seen; a group that left its core runs at the first level that may run it,
and its registers, flags and record code are then known, with the published writes that the results of one that runs in the
core wait for; stores of a group at the home or below it are seen there. A group that loads a poisoned word aborts its gang. -/
def Obligations.GroomerAndGroups : Prop :=
  ∀ s,
    (∀ idx r, s.groom.find? (fun x => x.id == idx) = some r → homeOf r.addr = some r.src → r.addr % r.ty.bytes = 0 →
      (r.parts.Pairwise fun x y => x.pid ≠ y.pid ∨ x.pid = none) →
      let first := ∀ x ∈ s.groom.takeWhile (fun x => x.id != idx), x.addr / 64 ≠ r.addr / 64 ∨ homeOf x.addr ≠ some x.src
      (first → s.readable r.src r.src = true → ∃ t, exec (.groomerAtomic idx) s = .next t ∧ AtomDone s t r) ∧
      (¬first ∨ s.readable r.src r.src = false → exec (.groomerAtomic idx) s = .next s)) ∧
    ∀ idx g h code x w, s.sunk.find? (fun y => y.id == idx && !y.ran) = some g →
      s.sunk.filter (fun y => y.batch == g.batch && y.line == g.line && !y.ran) = [g] → homeOfLine g.line = some h →
      (∀ y, s.gang? g.gang = some y → s.versioned y = false) → s.vline? g.gang g.line = none → RunsAt s g h code x →
      s.wave? g.wave = some w →
      (hasStore g.words = true → s.canPublish (coreDie g.core) = true ∧ s.writable (coreDie g.core) h = true) →
      let run := g.words.foldl (GroupRun.step (fun r => (g.regs.lookup r).getD 0) g.lane g.fmode)
        { gen := (w.thread g.lane).gen, line := x }
      ∃ t, exec (.schussGroupRun idx none none) s = .next t ∧
        (s.groupPoison g = true → (∃ y, s.gang? g.gang = some y ∧ y.st = .live) → Aborted t g.gang 0x80) ∧
        (s.groupPoison g = false → ∀ p ∈ w.pend, p.id = g.pid → { g with ran := true } ∈ t.sunk ∧ Answered s t g.wave p { p with
          opened := false, vals := run.vals (groupDst g.words), flags := p.flags ||| run.flags
          slot := p.slot.map fun y => (y.1, code)
          pubs := if code = 1 ∨ code = 9 then pubsSince (coreDie g.core) s t else p.pubs }) ∧
        (s.groupPoison g = false → 4 ≤ code → code ≤ 7 → ∀ n < 64, lineByte (t.homeView g.line) n =
          written (run.stores.map fun y => { y with line := g.line }) g.line n (lineByte (s.homeView g.line) n))

/-- R357, R359, R360, R367: the launch engine takes the packet at a queue's read index once its seal is there and advances the
index; the launch carries what the packet says, or the status of the first check it fails, with no gang: 2 BAD_PACKET, those of
the header, 6 the grid, 7 the bands, 9 the shape, 8 the handles, 10 a die that covers the kernel, 11 the graph; and 0 where it passes
them all. -/
def Obligations.PacketResults : Prop :=
  ∀ s q x pas, PacketAt s q x → IndexWrites s q pas →
    let d := s.queueDie q
    let dev := (s.sealLaunch q).isSome
    let dies := s.dieSet q x
    let indexed (t : State) : Prop := BytesAt t pas (natBytes 8 (q.taken + 1))
    (nfld x 0 1 ≠ 2 → nfld x 0 1 ≠ 3 → packetBad x 0 dies dev = true →
      ∃ t l, exec (.kernelPacket q.id) s = .next t ∧ Taken s t q l ∧ indexed t ∧ l.kind = .kernel ∧ l.status = 2 ∧ l.todo = [] ∧
        l.started = true) ∧
    (∀ h, nfld x 0 1 ≠ 2 → nfld x 0 1 ≠ 3 → nfld x 1 1 % 2 = 0 → packetBad x 0 dies dev = false →
      s.readNamed q.ctx d (nfld x 0x10 8) 256 16 = .ok h →
      ∃ t l, exec (.kernelPacket q.id) s = .next t ∧ Taken s t q l ∧ indexed t ∧ l.kind = .kernel ∧
        l.hdr = parseHeader h ∧ l.fmode = BitVec.ofNat 6 (nfld x 4 1) ∧ l.codeBase = nfld x 8 8 ∧ l.args = nfld x 0x28 8 ∧
        (l.x, l.y, l.z) = (nfld x 0x18 4, nfld x 0x1C 2, nfld x 0x1E 1) ∧
        (packetBad x h dies dev = true → l.status = 2) ∧
        (packetBad x h dies dev = false → headerStatus h ≠ 0 → l.status = headerStatus h) ∧
        (l.status ≠ 0 → l.todo = [] ∧ l.started = true) ∧
        (l.status = 0 → l.started = false ∧ packetBad x h dies dev = false ∧ headerStatus h = 0 ∧
          l.todo = (List.range (l.x * l.y * l.z)).map fun i => (i, 0))) ∧
    (∀ h pe, nfld x 0 1 ≠ 2 → nfld x 0 1 ≠ 3 → packetBad x 0 dies dev = false → packetBad x h dies dev = false →
      s.readNamed q.ctx d (nfld x 0x10 8) 256 16 = .ok h →
      s.readPredictor (s.packetLaunch q x s.nextId) (decide (nfld x 1 1 % 2 = 1)) = .ok pe → headerStatus h = 0 →
      let shape : Prop := nfld x 1 1 % 2 = 1
      (shape → ∀ u, s.takeOne q d = .ok u → u.devRead q.ctx d (nfld x 0x70 8) 8 = .ok (2 ^ 64 - 1)) →
      let fits := (1 ≤ nfld x 0x18 4 ∧ nfld x 0x18 4 ≤ 65536) ∧ (1 ≤ nfld x 0x1C 2 ∧ nfld x 0x1C 2 ≤ 1024) ∧
        1 ≤ nfld x 0x1E 1 ∧ nfld x 0x1E 1 ≤ 64
      let size := nfld x 0x18 4 * nfld x 0x1C 2 * nfld x 0x1E 1
      let banded := Banded (nfld x 0x20 4) (nfld x 0x24 4) size dies.length
      let shaped := shape → (parseHeader h).shape = true ∧ (parseHeader h).ver = true ∧ nfld x 0x1C 2 = 1 ∧ nfld x 0x1E 1 = 1 ∧
        ∃ p, pe = some p ∧ nfld p 0 1 ≤ 2 ∧ nfld p 1 3 = 0 ∧ nfld p 24 8 = 0
      let handled := Handles s q.ctx (packetHandles x)
      let covered := ∃ e ∈ dies, (s.die e).withdrawn = false ∧
        ∀ i, (parseHeader h).features.getLsbD i = true → (s.die e).feat.getLsbD i = true
      ∃ t l, exec (.kernelPacket q.id) s = .next t ∧ Taken s t q l ∧
        (¬fits → l.status = 6) ∧ (fits → ¬banded → l.status = 7) ∧ (fits → banded → ¬shaped → l.status = 9) ∧
        (fits → banded → shaped → ¬handled → l.status = 8) ∧ (fits → banded → shaped → handled → ¬covered → l.status = 10) ∧
        (fits → banded → shaped → handled → covered → l.status = 0 ∧ (shape → l.todo = (List.range (predictedExtent (pe.getD 0)
          (nfld x 0x18 4))).map fun i => (i, 0)))) ∧
    (nfld x 0 1 = 3 → ∃ t l, exec (.barrierAndPacket q.id) s = .next t ∧ Taken s t q l ∧ indexed t ∧ l.kind = .barrier ∧
      l.status = (if barrierBad x dev then 2 else 0) ∧ l.todo = [] ∧ l.started = barrierBad x dev) ∧
    (nfld x 0 1 = 2 → packetBad x 0 dies dev = true → ∃ t l, exec (.graphPacket q.id) s = .next t ∧ Taken s t q l ∧ indexed t ∧
      l.kind = .graph ∧ l.status = 2 ∧ l.graph = none ∧ l.started = true) ∧
    ∀ b, nfld x 0 1 = 2 → packetBad x 0 dies dev = false →
      s.readGraph { s.packetLaunch q x s.nextId with kind := .graph } = .ok b →
      ∃ t l, exec (.graphPacket q.id) s = .next t ∧ Taken s t q l ∧ indexed t ∧ l.kind = .graph ∧
        (b.ok = false → l.status ≠ 0) ∧ (l.status ≠ 0 → l.graph = none ∧ l.started = true) ∧
        (let needs (h : Nat) : Prop := (nfld h 0x1C 2 ≠ 0 → nfld x 0x30 8 ≠ 0) ∧ (nfld h 0x24 4 ≠ 0 → nfld x 0x38 8 ≠ 0)
          let grid (n : NodeSt) : Prop := (1 ≤ n.x ∧ n.x ≤ 65536) ∧ (1 ≤ n.y ∧ n.y ≤ 1024) ∧ (1 ≤ n.z ∧ n.z ≤ 64) ∧
            Banded (nfld x 0x20 4) (nfld x 0x24 4) (n.x * n.y * n.z) dies.length ∧ (n.shape = true → n.y = 1 ∧ n.z = 1)
          b.ok = true → (∀ h ∈ b.headers, needs h ∧ ∃ e ∈ dies, (s.die e).withdrawn = false ∧
            ∀ i, (parseHeader h).features.getLsbD i = true → (s.die e).feat.getLsbD i = true) →
          (∀ p ∈ b.grids, grid p.1) → nfld x 1 1 % 2 = 0 → Handles s q.ctx (packetHandles x) → l.status = 0) ∧
        (l.status = 0 → l.started = false ∧ ∃ g, l.graph = some g ∧ g.nodes.length = b.nodes.length)

/-- R358, R368, R370, R371: a packet starts when it may; a node of a running graph is launched once its predecessors have
completed, a bin's gang with up to C records once the bin holds C, its timer has run out or nothing more can come; a launch
that has completed writes its record and lowers its signal by 1, and is gone. That a kernel's arguments are read as its packet starts,
and that the timer of a bin stops once nothing is left to give out, are the model's readings (log entries 27 and 42). -/
def Obligations.LaunchEvents : Prop :=
  ∀ s lid l, s.launch? lid = some l →
    (l.started = false → s.launchOn l = true →
      (∀ x, MayStart s l → (l.kind = .kernel → s.devRead l.ctx l.die l.args 64 = .ok x) →
        ∃ t l', exec (.packetStart lid) s = .next t ∧ t = { s with launches := t.launches } ∧ t.launch? lid = some l' ∧
          l' = { l with started := true, deps := [], argWords := l'.argWords } ∧
          (l.kind = .kernel → ∀ i < 16, l'.argWords.getD i 0 = if l.hdr.spill ≠ 0 ∧ 14 ≤ i then
            BitVec.ofNat 32 (l.spillBase / 2 ^ (32 * (i - 14))) else BitVec.ofNat 32 (nfld x (4 * i) 4))) ∧
      ((∀ a ∈ l.deps, ∃ v, s.devRead l.ctx l.die a 8 = .ok v) →
        (∃ a ∈ l.deps, ∃ v, s.devRead l.ctx l.die a 8 = .ok v ∧ v ≠ 0 ∧ v < 2 ^ 63) →
        ∃ t l', exec (.packetStart lid) s = .next t ∧ t.launch? lid = some l' ∧ l'.started = false)) ∧
    (∀ g node n, l.started = true → s.launchOn l = true → l.graph = some g → g.nodes[node]? = some n →
      let ready := ∀ m ∈ g.nodes, node ∈ m.succ → m.completed = true
      (∀ h, n.bin = false → n.shape = false → n.launched = false → ready → g.patchesKnown node = true →
        s.readNamed l.ctx l.die n.header 256 16 = .ok h → (∀ m ∈ s.launches, m.id ≠ s.nextId) →
        ∃ t k, exec (.gridNodeLaunch lid node) s = .next t ∧ t.launch? s.nextId = some k ∧ k.kind = .node lid node ∧
          k.ctx = l.ctx ∧ (k.x, k.y, k.z) = (n.x, n.y, n.z) ∧ k.codeBase = n.codeBase ∧ k.status = headerStatus h ∧
          (headerStatus h = 0 → k.todo = (List.range (n.x * n.y * n.z)).map fun i => (i, 0)) ∧
          ((t.launch? lid).bind fun y => y.graph.bind fun y => y.nodes[node]?) = some { n with launched := true }) ∧
      (∀ h, n.bin = true → n.args.length = 16 → n.given < n.count → (n.c ≤ n.count - n.given ∨ n.timedOut = true ∨ ready) →
        g.patchesKnown node = true → s.readNamed l.ctx l.die n.header 256 16 = .ok h → (∀ m ∈ s.launches, m.id ≠ s.nextId) →
        let start := (n.head + n.given) % n.binCap
        let k := min (min n.c (n.count - n.given)) (n.binCap - start)
        ∃ t m, exec (.binGangLaunch lid node) s = .next t ∧ t.launch? s.nextId = some m ∧ m.kind = .node lid node ∧
          m.status = headerStatus h ∧ m.binRange = some (start, k) ∧ (headerStatus h = 0 → m.todo = [(n.gangs, 0)]) ∧
          m.argWords.getD 11 0 = BitVec.ofNat 32 k ∧
          ((t.launch? lid).bind fun y => y.graph.bind fun y => y.nodes[node]?) =
            some { n with launched := true, given := n.given + k, gangs := n.gangs + 1, timedOut := false
                          timing := n.timing && decide (k < n.count - n.given) }) ∧
      ((n.launched = true ∨ ¬ready ∨ g.patchesKnown node = false) ∧ n.bin = false ∨ n.bin = true ∧ (n.count ≤ n.given ∨
          n.count - n.given < n.c ∧ n.timedOut = false ∧ ¬ready ∨ g.patchesKnown node = false) →
        exec (.gridNodeLaunch lid node) s = .next s ∧ exec (.binGangLaunch lid node) s = .next s) ∧
      (n.bin = true → n.timing = true → ∃ t, exec (.binTimer lid node) s = .next t ∧
        t = { s with launches := t.launches } ∧
        ((t.launch? lid).bind fun y => y.graph.bind fun y => y.nodes[node]?) = some { n with timing := false, timedOut := true }) ∧
      (n.bin = true → n.timing = false → exec (.binTimer lid node) s = .next s)) ∧
    (Complete s l → (∀ g i, l.kind ≠ .node g i) →
      (l.record = 0 → l.sig = 0 → exec (.launchCompletion lid) s =
        .next { s with launches := s.launches.filter fun x => x.id != lid }) ∧
      (∀ pas, HostUncached s → pas.Nodup → l.record ≠ 0 → l.sig = 0 → l.flagGangs.length = 7 →
        s.devPas l.ctx l.die .write l.record 64 = .ok pas →
        ∃ t, exec (.launchCompletion lid) s = .next t ∧ (∀ x, x ∈ t.launches ↔ x ∈ s.launches ∧ x.id ≠ lid) ∧
          ∃ bs, BytesAt t pas bs ∧ bs.length = 64 ∧
            let x := bytesNat bs
            nfld x 0 1 = (if l.status ≠ 0 then l.status else if l.fault.isSome then 1 else 0) % 256 ∧
            nfld x 1 1 = l.summary.toNat ∧ nfld x 18 2 = min l.reruns 65535 ∧ nfld x 48 4 = l.run % 2 ^ 32 ∧
            nfld x 52 4 = l.trimmed % 2 ^ 32 ∧ nfld x 56 4 = l.squashed % 2 ^ 32 ∧ nfld x 60 4 = l.tail % 2 ^ 32 ∧
            (∀ i f, l.fault = some (i, f) → nfld x 2 1 = f.code % 256 ∧ nfld x 3 1 = f.flags % 256 ∧ nfld x 4 4 = i % 2 ^ 32 ∧
              nfld x 8 8 = f.pc.toNat ∧ nfld x 16 2 = f.tid % 65536) ∧
            (l.fault = none → nfld x 2 2 = 0 ∧ nfld x 4 4 = 0xFFFFFFFF ∧ nfld x 8 8 = 0 ∧ nfld x 16 2 = 0xFFFF) ∧
            ∀ i < 7, nfld x (20 + 4 * i) 4 = ((l.flagGangs.getD i none).getD 0xFFFFFFFF) % 2 ^ 32) ∧
      ∀ pa, HostUncached s → l.record = 0 → l.sig ≠ 0 → s.devPa l.ctx l.die .write l.sig = .ok pa → pa % 8 = 0 →
        ∃ t, exec (.launchCompletion lid) s = .next t ∧ (∀ x, x ∈ t.launches ↔ x ∈ s.launches ∧ x.id ≠ lid) ∧
          ∀ A, byteNow t A = (storedAt 8 [(pa, (lineNat (s.homeView (pa / 64)) (pa % 64) 8 + (2 ^ 64 - 1)) % 2 ^ 64)] A).getD
            (byteNow s A)) ∧
    ∀ g node gl n, Complete s l → l.kind = .node g node → l.binRange = none → g ≠ lid → s.launch? g = some gl →
      (gl.graph.bind fun y => y.nodes[node]?) = some n →
      ∃ t m, exec (.launchCompletion lid) s = .next t ∧ t.launch? lid = none ∧
        ((t.launch? g).bind fun y => y.graph.bind fun y => y.nodes[node]?) = some m ∧ m.completed = true

/-- R14, R20 to R32, R255, R258, R259, R262, R280, R290, R292, R363 to R365, R387: a placement starts the next gang of a launch
with the state its packet and header give it, and its sleeping cores wake; a gang whose threads have ended and whose commands
have completed retires, a versioned one with a last commit; an aborted gang frees what it holds and is run again or leaves its
fault; the shape of a launch, once known, trims, squashes and adds gangs, and a launch whose shape never comes ends. That re-runs
are counted as they are placed (log entry 41), and that a re-run beyond the shape is trimmed and that statuses 9 and 12 stand
whatever stood before them (log entry 75), are the model's readings. -/
def Obligations.GangLifecycle : Prop :=
  ∀ s, (s.gangs.Pairwise fun x y => x.id ≠ y.id) →
    (∀ lid l cluster core i a rest ts, s.launch? lid = some l → l.todo = (i, a) :: rest →
      (∀ x ∈ l.todo, s.coveringDies l x.1 ≠ []) → s.placeNow l cluster core = some (i, a, ts) → s.firstAt l cluster = true →
      (l.placed = true ∨ l.hdr.tidtable = 0 ∧ ∀ x ∈ l.handles, x.2.1 = false) → (∀ g ∈ s.gangs, g.id ≠ s.nextId) →
      ∃ t g ws l', exec (.gangPlacement lid cluster core) s = .next t ∧ t.gangs = s.gangs ++ [g] ∧ g.id = s.nextId ∧
        g.launch = lid ∧ g.index = i ∧ g.attempt = a ∧ g.place = some (cluster, core) ∧ (g.x, g.y, g.z) = coordinates l i ∧
        g.st = .live ∧ g.spad = [] ∧ g.spadPoison = [] ∧ g.full = [] ∧ g.rinks = List.replicate 16 ({} : Rink) ∧ g.queues = List.replicate 4 ({} : LiftQ) ∧
        g.tileQ = [] ∧ g.committed = false ∧ g.ccnt = 0 ∧ g.gate = (l.shape && !l.shaped) ∧ t.waves = s.waves ++ ws ∧
        List.Forall₂ (fun x w => Fresh l s.nextId x.1 x.2 w) (l.hdr.plan.zip (ts.map Prod.fst)) ws ∧ t.mem = s.mem ∧
        (∀ c, c ∈ t.unswept ↔ c ∈ s.unswept ∨ CoreWakes s (ts.map Prod.fst) c) ∧
        t.launch? lid = some l' ∧ l'.todo = rest ∧ l'.placed = true ∧ l'.reruns = l.reruns + if a = 0 then 0 else 1) ∧
    (∀ gid g, s.gang? gid = some g → s.gangOn g = true → s.threadsDone g = true → g.commandsDone = true →
      (s.versioned g = false ∨ g.retired = false ∧ g.gate = false ∧ s.commitsOut gid = [] ∧ ∀ v ∈ s.versions, v.gang = gid → homeOfLine v.line = some g.die) →
      ∃ t, exec (.gangRetire gid) s = .next t ∧ Gone t gid ∧
        (∀ l, s.launch? g.launch = some l → ∃ l', t.launch? g.launch = some l' ∧ l'.run = l.run + 1 ∧
          ∀ b < 7, l'.summary.getLsbD b = (l.summary.getLsbD b || g.flags.getLsbD b ||
            s.waves.any fun w => w.gang == gid && w.xstat.getLsbD b)) ∧
        (s.versioned g = false → t.mem = s.mem ∧ t.sect = s.sect) ∧
        (s.versioned g = true → (∀ v ∈ t.versions, v.gang ≠ gid) ∧ ∀ line n, n < 64 → lineByte (t.homeView line) n =
          s.versions.foldl (fun b v => if v.gang = gid ∧ v.line = line ∧ v.mask.getLsbD n = true then lineByte v.data n else b)
            (lineByte (s.homeView line) n))) ∧
    (∀ gid g, s.gang? gid = some g → s.wavesOf gid ≠ [] → g.tileQ = [] → (∀ q ∈ g.queues, q.walk = none) →
      (∀ r ∈ s.groom, r.gang ≠ gid) → (g.st = .squashed → ∃ t, exec (.gangResourceFree gid) s = .next t ∧ Gone t gid) ∧
      ∀ f, g.st = .aborted f →
        (¬Requeues s g f → ∃ t, exec (.gangResourceFree gid) s = .next t ∧ Gone t gid ∧
          ∀ l, s.launch? g.launch = some l → ∃ l', t.launch? g.launch = some l' ∧
            l'.fault = if ∀ x, l.fault = some x → g.index < x.1 then some (g.index, f) else l.fault) ∧
        (Requeues s g f → ∃ t g', exec (.gangResourceFree gid) s = .next t ∧ t.gang? gid = some g' ∧ g'.place = none ∧
          g'.st = g.st ∧ (∀ w ∈ t.waves, w.gang ≠ gid) ∧ ∀ y ∈ t.tiles, ∀ n, y.st ≠ .gangOwned gid n)) ∧
    (∀ gid g f l, s.gang? gid = some g → g.st = .aborted f → Requeues s g f → s.wavesOf gid = [] →
      s.launch? g.launch = some l →
      ∃ t l', exec (.gangRerun gid) s = .next t ∧ t = { s with gangs := t.gangs, launches := t.launches } ∧
        t.gang? gid = none ∧ t.launch? g.launch = some l' ∧
        if l.shaped = true ∧ (∀ v, l.extent = some v → v ≤ g.index) then l' = { l with trimmed := l.trimmed + 1 }
        else (∀ x, x ∈ l'.todo ↔ x = (g.index, g.attempt + 1) ∨ x ∈ l.todo) ∧ (f.code = 0x85 → (g.index, g.die) ∈ l'.noDies)) ∧
    ∀ lid l v, CellHolds s lid l v →
      (v ≠ 2 ^ 64 - 1 → (s.ctxOf l).predictor = none → v ≤ l.x → ∃ t l', exec (.shapeApply lid) s = .next t ∧
        Cut s t lid l l' v ∧ l'.extent = some v ∧ l'.status = l.status ∧
        (l'.todo = l.todo.filter (fun x => x.1 < v) ++ (List.range (v - l.xp)).map fun i => (l.xp + i, 0)) ∧
        ∀ g ∈ t.gangs, g.launch = lid → g.gate = false) ∧
      (v ≠ 2 ^ 64 - 1 → l.x < v → ∃ t l', exec (.shapeApply lid) s = .next t ∧ Cut s t lid l l' 0 ∧ l'.status = 9 ∧ l'.todo = []) ∧
      (v = 2 ^ 64 - 1 → exec (.shapeApply lid) s = .next s ∧
        ∃ t l', exec (.shapeTimeout lid) s = .next t ∧ Cut s t lid l l' 0 ∧ l'.status = 12 ∧ l'.todo = [])

/-- R265 to R273, R310, R333, R334, R387: a pre-emption request is kept until the gang can stop, its cores swept; an eviction
lands every result, saves the gang and its tiles and frees its tracks; a resumption puts both back, its sleeping cores wake,
and the words held at translation faults execute again; a versioned gang whose version's die no longer covers it is aborted
with 9, one that no die covers with 0x86; a partition is switched out once no gang of it is placed; arrivals at a context that
is out are logged, in order, and the sender is held while the log is full; a restore that the partition cannot hold is recorded
and changes nothing else, and one that moves a function to another partition is recorded for each of its contexts (R384); a state
that a launch needs is filled onto its cluster from its image, and an image that fails its check ends the launch. The wait for
published writes before a resume on another die (log entry 13), where arrivals are logged and where applied (log entry 45), and
that an eviction clears the request (log entry 47) are the model's readings. -/
def Obligations.ContextEvents : Prop :=
  ∀ s,
    (∀ gid g, s.gang? gid = some g →
      (g.st = .live → g.place.isSome = true → ∃ t, exec (.preemptRequest gid) s = .next t ∧
        t = { s with gangs := t.gangs, waves := t.waves } ∧
        t.gang? gid = some { g with preempt := true } ∧ (∀ id, id ≠ gid → t.gang? id = s.gang? id) ∧
        ∀ id w, s.wave? id = some w → ∃ w', t.wave? id = some w' ∧ (w.gang ≠ gid → w' = w) ∧
          w' = { w with threads := w'.threads } ∧ ∀ l, w'.thread l = { w.thread l with kept := (w'.thread l).kept } ∧
            ((w'.thread l).kept = true ↔ (w.thread l).kept = true ∨ w.gang = gid ∧ Parked s w l)) ∧
      ((∃ w ∈ s.waves, w.gang = gid ∧ ∃ h ∈ w.threads, h.st = .run ∧ h.kept = false) ∨ (∃ d ∈ g.tileQ, d.started = true) ∨
          (∃ q ∈ g.queues, ∃ k, q.walk = some k ∧ k.commit = true) ∨ (∃ w ∈ s.waves, w.gang = gid ∧ w.core ∈ s.unswept) ∨
          g.preempt = false →
        exec (.gangEvict gid) s = .next s) ∧
      (s.gangOn g = true → g.preempt = true → (s.waves.Pairwise fun x y => x.id ≠ y.id) → (∀ d ∈ g.tileQ, d.started = false) →
        (∀ q ∈ g.queues, ∀ k, q.walk = some k → k.commit = false) → (∀ w ∈ s.waves, w.gang = gid → w.core ∉ s.unswept ∧ AtRest s g w) →
        AllPerformed s → (∀ r ∈ s.groom, r.gang ≠ gid) →
        ∃ t g', exec (.gangEvict gid) s = .next t ∧ t = { s with
            waves := t.waves, gangs := t.gangs, fresh := t.fresh, sunk := t.sunk, tiles := t.tiles } ∧
          t.gang? gid = some g' ∧
          g' = { g with place := none, lastCluster := g.cluster, preempt := false, savedTiles := g'.savedTiles } ∧
          (∀ y, (y ∈ g'.savedTiles ↔ y ∈ s.tiles ∧ SavedWith s g y) ∧ (y ∈ t.tiles ↔ y ∈ s.tiles ∧ ¬SavedWith s g y)) ∧
          ∀ w ∈ s.waves, w.gang = gid → ∃ w1, Evicted s w w1 ∧ t.wave? w.id = some w1) ∧
      (g.st = .live → g.place = none → s.launchOn (s.launchOf g) = true →
        let l := s.launchOf g
        let dirty := s.versioned g = true ∧ ∃ v ∈ s.versions, v.gang = gid ∧ v.mask ≠ 0
        (dirty → g.die ∉ s.coveringDies l g.index → s.commitsDone g = true → ∀ cluster core,
          ∃ t, exec (.gangResume gid cluster core) s = .next t ∧ Aborted t gid 9) ∧
        (¬dirty → s.coveringDies l g.index = [] → s.commitsDone g = true → ∀ cluster core,
          ∃ t, exec (.gangResume gid cluster core) s = .next t ∧ Aborted t gid 0x86) ∧
        ∀ cluster core, (if dirty then g.die ∈ s.coveringDies l g.index else s.coveringDies l g.index ≠ []) →
          (s.resumeRoom g cluster core = none ∨ clusterDie cluster ≠ g.die ∧ s.published g (clusterDie cluster) = false →
            exec (.gangResume gid cluster core) s = .next s) ∧
          ∀ ts, s.resumeRoom g cluster core = some ts → cluster ∈ s.launchClusters l g.index → l.bandOk g.index cluster = true →
            (dirty → clusterDie cluster = g.die) → (clusterDie cluster = g.die ∨ s.published g (clusterDie cluster) = true) →
            (s.waves.Pairwise fun x y => x.id ≠ y.id) → AllPerformed s →
            ∃ t g', exec (.gangResume gid cluster core) s = .next t ∧ t = { s with
                waves := t.waves, gangs := t.gangs, fresh := t.fresh, picks := t.picks, nextId := t.nextId, tiles := t.tiles, states := t.states
                dies := t.dies, fills := t.fills, versions := t.versions, l1 := t.l1, sect := t.sect, unswept := t.unswept } ∧
              (∀ c, c ∈ t.unswept ↔ c ∈ s.unswept ∨ CoreWakes s (ts.map Prod.fst) c) ∧
              HomesKept s t ∧ (∀ x ∈ t.l1, x.core / 4 = cluster → x.core < 4 * cluster + core ∨
                4 * cluster + core + l.hdr.g ≤ x.core) ∧ (∀ x ∈ t.sect, x.sector = cluster / 8 → x.remote = false) ∧
              t.gang? gid = some g' ∧ g'.place = some (cluster, core) ∧ g'.savedTiles = [] ∧ g'.st = .live ∧ g'.rinks = g.rinks ∧
              g'.bins = g.bins ∧ (NoFeWait s gid → g'.spad = g.spad ∧ g'.full = g.full) ∧
              g'.tileQ.map (·.seq) = g.tileQ.map (·.seq) ∧ (∀ d ∈ g'.tileQ, d.joined = none) ∧
              (∀ y, y ∈ t.tiles ↔ y ∈ s.tiles ∨ ∃ z ∈ g.savedTiles, y = { z with cluster := cluster }) ∧
              ∀ (i : Nat) w tk, (s.waves.filter fun w => w.gang == gid)[i]? = some w → ts[i]? = some tk →
                ∃ w', t.wave? w.id = some w' ∧ w'.track = some tk.1 ∧ w'.s = w.s ∧ w'.fmode = w.fmode ∧ w'.xstat = w.xstat ∧
                  ∀ l, (∀ n < w.grant, Map.get 0 (w'.thread l).v n = Map.get 0 (w.thread l).v n) ∧
                    (w'.thread l).pc = (w.thread l).pc ∧ (w'.thread l).recs = (w.thread l).recs ∧ (l < 32 → (w'.thread l).kept = false) ∧
                    (l < 32 → (w.thread l).todo = [] → ∀ x y, (w'.thread l).st ≠ .held (.xlate x y)))) ∧
    (∀ p, ((∃ g ∈ s.gangs, g.place.isSome = true ∧ ∃ c ∈ s.ctxs, OnPart c p ∧ c.id = (s.launchOf g).ctx) →
        exec (.partitionSwitch p) s = .next s) ∧
      ((∀ g ∈ s.gangs, ∀ c ∈ s.ctxs, OnPart c p → c.id = (s.launchOf g).ctx → g.place = none) →
        ∃ t, exec (.partitionSwitch p) s = .next t ∧ t = { s with ctxs := t.ctxs, tiles := t.tiles } ∧
          (∀ id c, s.ctx? id = some c → OnPart c p →
            t.ctx? id = some { c with out := true, saved := s.tiles.filter fun y => y.ctx == id }) ∧
          ∀ y, y ∈ t.tiles ↔ y ∈ s.tiles ∧ ∀ c ∈ s.ctxs, OnPart c p → c.id ≠ y.ctx)) ∧
    (∀ gid g c, s.gang? gid = some g → g.st = .live → s.ctx? (s.launchOf g).ctx = some c →
      (c.out = true → ∀ x, ∃ t c', exec (.arrival gid x) s = .next t ∧ t = { s with ctxs := t.ctxs } ∧ t.ctx? c.id = some c' ∧
        c' = if c.log.length < c.logSize ∧ c.held = [] then { c with log := c.log ++ [(gid, x)] }
          else { c with held := c.held ++ [(gid, x)] }) ∧
      (c.out = false →
        (∀ r st, ∃ t g', exec (.arrival gid (.flip r st)) s = .next t ∧ t.gang? gid = some g' ∧
          g'.rinks = if r < 16 ∧ st < 16 ∧ ((g.rinks.getD r {}).count = 0 ∨ st < (g.rinks.getD r {}).count) then
            g.rinks.modify r fun z => { z with phases := z.phases ^^^ (1#16 <<< st) } else g.rinks) ∧
        (∀ n, NoFeWait s gid → ∃ t g', exec (.arrival gid (.fill n)) s = .next t ∧ t.gang? gid = some g' ∧ g'.spad = g.spad ∧
          ∀ k, k ∈ g'.full ↔ k ∈ g.full ∨ k = n ∧ 16 * n < (s.launchOf g).hdr.scratch) ∧
        ∀ line w m, s.wave? w.id = some w → w.gang = gid → w.monitor = some m → m.line = line → ∃ t w',
          exec (.arrival gid (.monitor line)) s = .next t ∧ t = { s with waves := t.waves } ∧ t.wave? w.id = some w' ∧
          w' = if (∃ h ∈ w.threads, h.st = .held .waitm) ∧ g.preempt = false ∧ g.place.isSome = true then
            { w with monitor := none, threads := w.threads.map fun h => if h.st = .held .waitm then h.goOn else h }
          else { w with monitor := some { m with event := true } })) ∧
    (∀ ctx part c p, s.ctx? ctx = some c → s.part? part = some p → c.out = true → c.lost = false →
      let alone := (∀ x ∈ s.ctxs, OnPart x part → x.fn = c.fn) ∧
        (c.part = part ∨ ∀ x ∈ s.ctxs, x.fn = c.fn → x.out = true ∨ x.lost = true)
      (¬alone → exec (.contextRestore ctx part) s = .next s) ∧
      (alone → s.restorable c p = false → ∃ t, exec (.contextRestore ctx part) s = .next t ∧ t = { s with vis := t.vis } ∧
        ∀ v, s.vi? c.fn = some v → ∃ v', t.vi? c.fn = some v' ∧
          v'.recs = v.recs ++ [{ ctx := ctx % 2 ^ 16, kind := 0x80, detail := 1 + 256 * part }]) ∧
      ∀ u, alone → s.restorable c p = true → State.putTiles p ctx c.saved ((c.saved.map (·.cluster)).eraseDups) s = some u →
        ∃ t, exec (.contextRestore ctx part) s = .next t ∧
          t.ctx? ctx = some { c with out := false, part := part, saved := [], log := [], held := [] } ∧ t.tiles = u.tiles ∧
          t.mem = s.mem ∧ (c.part ≠ part → (∀ x ∈ t.ctxs, x.fn = c.fn → x.part = part) ∧ ∀ v, s.vi? c.fn = some v →
            ∃ v', t.vi? c.fn = some v' ∧ v'.part = part ∧ v'.recs = v.recs ++
              ((s.ctxs.filter fun x => x.fn == c.fn && x.part != part || x.id == ctx).map fun x =>
                { ctx := x.id % 2 ^ 16, kind := 0x80, detail := 256 * part })) ∧
          (c.log = [] → c.held = [] → t.gangs = s.gangs ∧ t.waves = s.waves) ∧
          ∀ gid g r st, c.log ++ c.held = [(gid, .flip r st)] → s.gang? gid = some g → g.stageOk r st = true →
            ∃ g', t.gang? gid = some g' ∧ g'.rinks = g.rinks.modify r fun z => { z with phases := z.phases ^^^ (1#16 <<< st) }) ∧
    ∀ ctx handle cluster l r o c (pa : Nat → Nat), s.moveWanted ctx handle cluster = some l → s.stateRec? ctx handle = some r →
      r.bound = none → r.ending = false → r.place = .area o → s.ctx? ctx = some c →
      let n := 64 + 4 * r.dv * r.dk
      (∀ j < n, s.xlate none ctx .read (c.area + o + j) = .ok (pa j)) →
      let m := stateSize r.dv r.dk
      let bs := (List.range n).map fun j => byteNow s (pa j)
      let good := imageHead handle bs = some (r.dv, r.dk, r.tokens, (crc32c (bs.drop 64)).toNat) ∧ ∀ j < 64, pa j / 4 ∉ s.poison
      ((s.freeTiles cluster).length < m → exec (.stateMove ctx handle cluster) s = .next s) ∧
      (m ≤ (s.freeTiles cluster).length → ¬good → ∃ t l', exec (.stateMove ctx handle cluster) s = .next t ∧
        t = { s with launches := t.launches } ∧ t.launch? l.id = some l' ∧ l'.todo = [] ∧ l'.status = 8 ∧
        (l'.shape = true → l'.shaped = true)) ∧
      (m ≤ (s.freeTiles cluster).length → good → AllPerformed s →
        ∃ t new, exec (.stateMove ctx handle cluster) s = .next t ∧ t = { s with tiles := new ++ s.tiles, states := t.states } ∧
          t.stateRec? ctx handle = some { r with place := .cluster cluster } ∧ new.length = m ∧
          ∀ (k : Nat) y, new[k]? = some y → y.cluster = cluster ∧ y.ctx = ctx ∧ y.st = .pinned handle k ∧
            s.tile? cluster y.phys = none ∧ ((∀ j < n, pa j / 4 ∉ s.poison) → y.poison = []) ∧ ∀ n < 1024, Map.get 0#32 y.data n = BitVec.ofNat 32 (bytesNat ((bs.drop (64 + 4 *
              ((32 * (k / ((r.dk + 31) / 32)) + n / 32) * r.dk + 32 * (k % ((r.dk + 31) / 32)) + n % 32))).take 4)))

/-- R145, R182, R205, R261, R283, R299, R311 to R318, R379: the entries of a lift chain, in a gang that is not versioned. An
entry that cannot be performed aborts the gang with 0x82, a held one waits; COPY, GATHER, SCATTER and TRANSQ move their bytes
and nothing else; LOOP steps its working copy of the body, IF passes over entries, WAITPH and QFENCE wait, FLIP inverts a
phase, SIGDEC lowers its signal, END ends the chain; REDUCE and ALLGATHER wait for every member, set COMMITTED as they start
and then write, and a peer that is lost aborts the gang with 0x85. A poisoned word that an entry reads in the scratchpad aborts
the gang with 0x80 (R386). That an entry reads and writes in one step (log entry 23), and that a member's arrival brings
its descriptor and its data (log entry 32), are the model's readings. -/
def Obligations.LiftEntries : Prop :=
  ∀ s gid q,
    (∀ g k x n i, Stands s gid q g k x → entryEvent gid q n = some i → (entryKind x = n ∨ n = 0 ∧ 12 < entryKind x) →
      (s.entryOk g x = false → s.commitsDone g = true → ∃ t, exec i s = .next t ∧ Aborted t gid 0x82) ∧
      (s.entryOk g x = true → entryHeld x = true → ∃ t, exec i s = .next t ∧ Stays s t g q (atHand k x))) ∧
    (∀ g n i, s.gang? gid = some g → entryEvent gid q n = some i → s.engineOn g = false →
      (∀ k, (g.queues.getD q {}).walk = some k → k.commit = false) → exec i s = .next s) ∧
    (∀ g k, s.gang? gid = some g → s.engineOn g = true → (g.queues.getD q {}).walk = some k → k.cur = none →
      k.copy.lookup k.pos = none → s.commitsDone g = true →
      ((s.launchOf g).hdr.scratch < k.pos + 32 → ∃ t, exec (.endEntry gid q) s = .next t ∧ Aborted t gid 0x82) ∧
      (k.pos + 32 ≤ (s.launchOf g).hdr.scratch → g.spadBad k.pos 32 = true →
        ∃ t, exec (.endEntry gid q) s = .next t ∧ Aborted t gid 0x80)) ∧
    (∀ g k x, AtEntry s gid q g k x →
      let y := g.queues.getD q {}
      let here := atHand k x
      let next := k.skip 1
      let n := nfld x 4 4
      (entryKind x = 0 → ∃ t g', exec (.endEntry gid q) s = .next t ∧ t.gang? gid = some g' ∧ g'.spad = g.spad ∧
        (y.held = [] → g'.queues.getD q {} = { y with walk := none, taken := y.taken + 1, done := y.done + 1 }) ∧
        ∀ h hs, y.held = h :: hs → (∀ r ∈ g.rkOps, h.seq ≤ r.seq) →
          g'.queues.getD q {} = { y with
            walk := some { chain := h, pos := h.start }, held := hs, taken := y.taken + 1, done := y.done + 1 }) ∧
      (s.versioned g = false → HostUncached s →
        (∀ bs pas, entryKind x = 1 → Reads s g (entryFlag x 2) (nfld x 8 8) n bs → Places s g (entryFlag x 3) (nfld x 16 8) n pas →
          ∃ t, exec (.copyEntry gid q) s = .next t ∧ WalkOn t g q next ∧
            Filled s t g (entryFlag x 3) (entryFlag x 0) (pas.zip bs)) ∧
        (∀ (bs : Nat → List Byte) pas, entryKind x = 2 → g.spadBad (nfld x 24 4) (4 * n) = false →
          (∀ i < n, Reads s g (entryFlag x 2) (nfld x 8 8 + Memory.readNat g.spad (nfld x 24 4 + 4 * i) 4 * nfld x 28 4)
            (nfld x 2 2) (bs i)) → Places s g (entryFlag x 3) (nfld x 16 8) (n * nfld x 2 2) pas →
          ∃ t, exec (.gatherEntry gid q) s = .next t ∧ WalkOn t g q next ∧
            Filled s t g (entryFlag x 3) (entryFlag x 0) (pas.zip ((List.range n).flatMap bs))) ∧
        (∀ bs (pas : Nat → List Nat), entryKind x = 3 → g.spadBad (nfld x 24 4) (4 * n) = false → Reads s g (entryFlag x 2) (nfld x 8 8) (nfld x 2 2 * n) bs →
          (∀ i < n, Places s g (entryFlag x 3) (nfld x 16 8 + Memory.readNat g.spad (nfld x 24 4 + 4 * i) 4 * nfld x 28 4)
            (nfld x 2 2) (pas i)) →
          ∃ t, exec (.scatterEntry gid q) s = .next t ∧ WalkOn t g q next ∧ Filled s t g (entryFlag x 3) (entryFlag x 0)
            ((List.range n).reverse.flatMap fun i => (pas i).zip ((bs.drop (nfld x 2 2 * i)).take (nfld x 2 2)))) ∧
        (entryKind x = 4 → s.tidsSet g k.chain.seq [nfld x 2 2, nfld x 4 2] = false →
          ∃ t, exec (.transqEntry gid q) s = .next t ∧ Stays s t g q here) ∧
        (∀ src dst p1 p2 (bs : Nat → Nat → List Byte) (pas : Nat → Nat → List Nat), entryKind x = 4 →
          s.tidsSet g k.chain.seq [nfld x 2 2, nfld x 4 2] = true →
          (s.die g.die).feat.getLsbD Feature.req.bit = true → s.tensor g (nfld x 2 2) = .ok (src, p1) →
          s.tensor g (nfld x 4 2) = .ok (dst, p2) → dst.ro = false → dst.rank = 2 → dst.ext.getD 0 1 = src.ext.getD 1 1 →
          dst.ext.getD 1 1 = src.ext.getD 0 1 → (entryFlag x 0 = true → dst.sp = true) → src.sblk = 0 → dst.sblk = 0 →
          src.fmt = dst.fmt → src.fmt ≠ 16 →
          (∀ i j, dst.inside i j = true → (∃ a, src.addr j i = some a ∧ Reads s g src.sp a src.bytes (bs i j)) ∧
            ∃ b, dst.addr i j = some b ∧ Places s g dst.sp b dst.bytes (pas i j)) →
          let at' (f : Nat → Nat → List (Nat × Byte)) := (List.range (dst.ext.getD 1 1)).flatMap fun j =>
            (List.range (dst.ext.getD 0 1)).flatMap fun i => f i j
          ((at' fun i j => (pas i j).zip (bs i j)).map Prod.fst).Nodup →
          ∃ t, exec (.transqEntry gid q) s = .next t ∧ WalkOn t g q next ∧
            Filled s t g dst.sp (entryFlag x 0) (at' fun i j => (pas i j).zip (bs i j))) ∧
        ∀ pas pa, entryKind x = 11 → s.engPasDirect g (nfld x 8 8) 8 = .ok pas → pas.head? = some pa → s.deviceFrame pa = true →
          pa % 8 = 0 → s.consumes gid pa 8 = false → ∃ t, exec (.sigdecEntry gid q) s = .next t ∧ WalkOn t g q next ∧ ∀ A, byteNow t A =
            (storedAt 8 [(pa, (lineNat (s.homeView (pa / 64)) (pa % 64) 8 + (2 ^ 64 - n)) % 2 ^ 64)] A).getD (byteNow s A)) ∧
      (entryKind x = 7 →
        let b := nfld x 2 1
        let pass := (k.passes.lookup k.pos).getD 0 + 1
        (k.chain.start + 32 * b ≤ k.pos →
          (∀ i < b, ∃ z, s.entryAt g k (k.pos - 32 * b + 32 * i) = some z ∧ entryKind z ≠ 7 ∧ entryHeld z = false) →
          (pass < n → ∃ t k', exec (.loopEntry gid q) s = .next t ∧ WalkOn t g q k' ∧ k'.pos = k.pos - 32 * b ∧ k'.chain = k.chain ∧
            k'.passes.lookup k.pos = some pass ∧
            ∀ i < b, ∀ z, s.entryAt g k (k'.pos + 32 * i) = some z → s.entryAt g k' (k'.pos + 32 * i) =
              some (if entryFlag x 0 = true then ringStep (nfld x 3 1) (g.rinks.getD (nfld x 3 1) {}) x z else loopStep x z)) ∧
          (n ≤ pass → ∃ t k', exec (.loopEntry gid q) s = .next t ∧ WalkOn t g q k' ∧ k'.pos = k.pos + 32 ∧ k'.chain = k.chain ∧
            k'.passes.lookup k.pos = none)) ∧
        (k.pos < k.chain.start + 32 * b ∨
          (∃ i < b, ∃ z, s.entryAt g k (k.pos - 32 * b + 32 * i) = some z ∧ (entryKind z = 7 ∨ entryHeld z = true)) →
          s.commitsDone g = true → ∃ t, exec (.loopEntry gid q) s = .next t ∧ Aborted t gid 0x82)) ∧
      ((entryKind x = 2 ∧ g.spadBad (nfld x 24 4) (4 * n) = true ∨ entryKind x = 3 ∧ g.spadBad (nfld x 24 4) (4 * n) = true ∨
          entryKind x = 8 ∧ nfld x 1 1 ≤ 1 ∧ g.spadBad (nfld x 4 4) 4 = true) → s.commitsDone g = true →
        ∃ i t, entryEvent gid q (entryKind x) = some i ∧ exec i s = .next t ∧ Aborted t gid 0x80) ∧
      (entryKind x = 8 → (nfld x 1 1 ≤ 1 → g.spadBad (nfld x 4 4) 4 = false) → ∃ t k', exec (.ifEntry gid q) s = .next t ∧ WalkOn t g q k' ∧ k'.chain = k.chain ∧
        (ifHolds g x → k'.pos = k.pos + 32) ∧ (¬ifHolds g x → k'.pos = k.pos + 32 * (1 + nfld x 2 2))) ∧
      (entryKind x = 9 → ∃ t, exec (.waitphEntry gid q) s = .next t ∧
        if (g.rinks.getD (nfld x 2 1) {}).phases.getLsbD (nfld x 3 1) = decide (nfld x 4 1 = 1) then WalkOn t g q next
        else Stays s t g q here) ∧
      (entryKind x = 10 → ∃ t g', exec (.flipEntry gid q) s = .next t ∧ WalkOn t g q next ∧ t.gang? gid = some g' ∧
        g'.rinks = g.rinks.modify (nfld x 2 1) fun z => { z with phases := z.phases ^^^ (1#16 <<< nfld x 3 1) }) ∧
      (entryKind x = 12 →
        let named (i : Nat) : Prop := i < 4 ∧ i ≠ q ∧ (nfld x 4 1).testBit i = true
        (k.fence = none → (∀ i, named i → (g.queues.getD i {}).walk = none) →
          ∃ t, exec (.qfenceEntry gid q) s = .next t ∧ WalkOn t g q next) ∧
        (k.fence = none → (∃ i, named i ∧ (g.queues.getD i {}).walk ≠ none) → ∃ t ts, exec (.qfenceEntry gid q) s = .next t ∧
          Stays s t g q { here with fence := some ts } ∧
          ∀ i m, (i, m) ∈ ts ↔ named i ∧ m = (g.queues.getD i {}).taken + if (g.queues.getD i {}).walk = none then 0 else 1) ∧
        ∀ ts, k.fence = some ts → ∃ t, exec (.qfenceEntry gid q) s = .next t ∧
          if ∀ p ∈ ts, p.2 ≤ (g.queues.getD p.1 {}).taken then WalkOn t g q next else Stays s t g q { here with fence := some ts }) ∧
      ∀ i tb, (entryKind x = 5 ∧ i = .reduceEntry gid q ∨ entryKind x = 6 ∧ i = .allgatherEntry gid q) →
        s.collTable g (nfld x 24 4) = .ok tb →
        let ctx := (s.launchOf g).ctx
        let num := nfld x 24 4
        let c := (s.coll? ctx num).getD { ctx, num }
        let d := collDesc x
        let w := if entryKind x = 6 then 1 else if nfld x 2 1 = 1 then 2 else 4
        (c.here = none → ∃ t, exec i s = .next t ∧ t = { s with colls := t.colls, gangs := t.gangs } ∧
          t.coll? ctx num = some { c with here := some (gid, q) } ∧
          (¬Gathered tb c → t.gang? gid = some (walking q here g)) ∧
          (Gathered tb c → t.gang? gid = some { walking q { here with commit := true } g with committed := true })) ∧
        (∀ h, c.here = some h → h ≠ (gid, q) → ∃ t, exec i s = .next t ∧ Stays s t g q here) ∧
        (c.here = some (gid, q) →
          (¬Gathered tb c → ∃ t, exec i s = .next t ∧ Stays s t g q here) ∧
          (Gathered tb c → (∃ a ∈ c.arrived, a.desc ≠ d) → s.commitsDone g = true →
            ∃ t, exec i s = .next t ∧ Aborted t gid 0x82 ∧ t.coll? ctx num = none) ∧
          (Gathered tb c → (∀ a ∈ c.arrived, a.desc = d) → k.commit = false → ∃ t, exec i s = .next t ∧
            t = { s with gangs := t.gangs } ∧ t.gang? gid = some { walking q { here with commit := true } g with committed := true }) ∧
          ∀ bs pas, Gathered tb c → (∀ a ∈ c.arrived, a.desc = d) → k.commit = true → HostUncached s → Reads s g false (nfld x 8 8) (w * n) bs →
            s.engPasDirect g (nfld x 16 8) (if entryKind x = 6 then n * tb.members else w * n) = .ok pas → pas.Nodup →
            ∃ t out, exec i s = .next t ∧ WalkOn t g q next ∧ t.coll? ctx num = none ∧ BytesAt t pas out ∧
              (∀ A, A ∉ pas → byteNow t A = byteNow s A) ∧
              (entryKind x = 6 → ∀ m < tb.members, ∀ j < n, out[m * n + j]? = some ((blockOf tb.rank c bs m).getD j 0)) ∧
              (entryKind x = 5 → out.length = w * n ∧ ∀ j < n, elemOf w out j =
                ((List.range (tb.members - 1)).foldl (fun a m => collOne d a (elemOf w (blockOf tb.rank c bs (m + 1)) j))
                  (elemOf w (blockOf tb.rank c bs 0) j)) % 2 ^ (8 * w)))) ∧
    ∀ ctx num m, (∃ c, s.ctx? ctx = some c) → num < 256 → m < 16 →
      let c := (s.coll? ctx num).getD { ctx, num }
      (∀ d bs, (∀ a ∈ c.arrived, a.member ≠ m) →
        let c' : Coll := { c with arrived := c.arrived ++ [{ member := m, desc := d, data := bs }] }
        ∃ t, exec (.collectiveMemberArrival ctx num m d bs) s = .next t ∧ t = { s with colls := t.colls, gangs := t.gangs } ∧
          t.coll? ctx num = some c' ∧ (c.here = none → t.gangs = s.gangs) ∧
          ∀ g j k tb, c.here = some (gid, j) → s.gang? gid = some g → s.collTable g num = .ok tb →
            (g.queues.getD j {}).walk = some k → (¬Gathered tb c' → t.gangs = s.gangs) ∧
            (Gathered tb c' → t.gang? gid = some { walking j { k with commit := true } g with committed := true })) ∧
      ((∃ c, s.coll? ctx num = some c) → c.here = none → ∃ t, exec (.peerLost ctx num m) s = .next t ∧ t = { s with colls := t.colls } ∧
        t.coll? ctx num = some { c with arrived := c.arrived.filter fun a => a.member != m }) ∧
      ∀ g j, c.here = some (gid, j) → s.gang? gid = some g → g.st = .live → s.commitsDone g = true →
        ∃ t g', exec (.peerLost ctx num m) s = .next t ∧ Aborted t gid 0x85 ∧ t.coll? ctx num = none ∧ t.gang? gid = some g' ∧
          g'.committed = true

/-- R141 to R143, R321 to R329: the scheduler starts the earliest task that is not held, whose stage has its phase and that no
earlier command conflicts with; a task that R325 refuses aborts the gang with 0x82; MMA and MMAG add into the footprint block
by block (none with a K of 0, and with no rows no element), EPI writes its elements in C's format, ZERO clears the region; a
started task then completes, flipping its stage. A record with a poisoned word aborts the gang with 0x80, and so does a
poisoned index or accumulator (R386). -/
def Obligations.TileTasks : Prop :=
  ∀ s gid idx g c x,
    (∀ rest, s.gang? gid = some g → g.tileQ = c :: rest → c.seq = idx → c.kind = .task → s.engineOn g = true →
      (g.tileQ.filter fun d => d.kind == .task && d.started).length < (s.launchOf g).hdr.g → c.held = false →
      c.started = false → (∀ d ∈ rest, c.seq < d.seq) → (∀ r ∈ g.rkOps, c.seq < r.seq) → s.tidsSet g c.seq c.tids = true →
      x = Memory.readNat g.spad c.off 64 → (∀ p ∈ c.foot, p < 256) →
      (c.head.getLsbD 9 = true → (g.rinks.getD (nfld x 32 1) {}).phases.getLsbD (nfld x 33 1) = decide (nfld x 34 1 % 2 = 1)) →
      Starts s gid idx g c x) ∧
    (∀ i, i ∈ [Instr.mmaTask gid idx, .mmagTask gid idx, .epiTask gid idx, .zeroTask gid idx] → s.cmd? gid idx = some (g, c) →
      (c.held = true ∨ c.started = true ∨ s.engineOn g = false ∨ s.tidsSet g c.seq c.tids = false ∨
        (∃ r ∈ g.rkOps, r.seq < c.seq) ∨ (c.head.getLsbD 9 = true ∧ g.stageOk (nfld x 32 1) (nfld x 33 1) = true ∧
          (g.rinks.getD (nfld x 32 1) {}).phases.getLsbD (nfld x 33 1) ≠ decide (nfld x 34 1 % 2 = 1) ∧
          x = Memory.readNat g.spad c.off 64) ∨
        (∃ d ∈ g.tileQ, d.seq < c.seq ∧ d.conflicts c = true)) → exec i s = .next s) ∧
    (Starts s gid idx g c x → NoFeWait s gid →
      let kind := nfld c.head.toNat 0 1
      let rows := taskRows c x
      let cols := nfld c.head.toNat 3 1
      let ok := s.taskOk g { cmd := c, x }
      let bad := s.accBad g.cluster { cmd := c, x }
      (∀ i, i ∈ [Instr.mmaTask gid idx, .mmagTask gid idx, .epiTask gid idx, .zeroTask gid idx] → (i = .mmaTask gid idx ↔ kind = 0 ∨ 3 < kind) →
        (i = .mmagTask gid idx ↔ kind = 1) → (i = .epiTask gid idx ↔ kind = 2) → g.spadBad c.off 64 = true →
        s.commitsDone g = true → ∃ t, exec i s = .next t ∧ Aborted t gid 0x80) ∧
      (g.spadBad c.off 64 = false →
      (∀ i, (i = Instr.mmaTask gid idx ∧ (kind = 0 ∨ 3 < kind) ∨ i = .mmagTask gid idx ∧ kind = 1 ∨ i = .epiTask gid idx ∧ kind = 2 ∨
          i = .zeroTask gid idx ∧ kind = 3) →
        ok = false → s.commitsDone g = true → ∃ t, exec i s = .next t ∧ Aborted t gid 0x82) ∧
      (ok = true → kind = 3 → ∃ t, exec (.zeroTask gid idx) s = .next t ∧ Started t g c x ∧ Accumulated s t g c x fun _ _ => 0) ∧
      (∀ i a b p1 p2 kb (src : List Nat) (ea eb : Nat → Nat → Elem), ok = true →
        (i = .mmaTask gid idx ∧ kind = 0 ∧ src = (List.range rows).map (nfld x 16 4 + ·) ∨
          i = .mmagTask gid idx ∧ kind = 1 ∧ a.sp = true ∧ g.spadBad (nfld x 28 4) (4 * rows) = false ∧
            src = (List.range rows).map fun j => Memory.readNat g.spad (nfld x 28 4 + 4 * j) 4) →
        s.tensor g (nfld x 8 2) = .ok (a, p1) → s.tensor g (nfld x 10 2) = .ok (b, p2) →
        (MmaOk s g c x a b src kb → nfld x 4 4 ≠ 0 → rows ≠ 0 → bad = true → s.commitsDone g = true →
          ∃ t, exec i s = .next t ∧ Aborted t gid 0x80) ∧
        (MmaOk s g c x a b src kb → (nfld x 4 4 ≠ 0 → bad = false) →
          (∀ j r, src[j]? = some r → ∀ k < nfld x 4 4, s.elem g a (nfld x 24 4 + k) r = .ok (ea j k)) →
          (rows ≠ 0 → ∀ j < cols, ∀ k < nfld x 4 4, s.elem g b (nfld x 24 4 + k) (nfld x 20 4 + j) = .ok (eb j k)) → c.foot.Nodup →
          (∀ p ∈ c.foot, (s.tile? g.cluster p).isSome = true) → c.foot.length = (taskTiles c.head c.tile).length →
          ∃ t, exec i s = .next t ∧ Started t g c x ∧ Accumulated s t g c x fun m n =>
            let ps := (List.range (nfld x 4 4)).map fun k => ((ea m k).value, (eb n k).value)
            (if c.head.getLsbD 14 then accDouble (accBits s g.cluster c m n) ps
              else accBlocks kb (accBits s g.cluster c m n) ps).1) ∧
        (pairOf a.fmt b.fmt = none ∨ (∃ d k0, pairOf a.fmt b.fmt = some (d, k0) ∧ (nfld x 4 4 % d ≠ 0 ∨ 8192 < nfld x 4 4)) →
          s.commitsDone g = true → ∃ t, exec i s = .next t ∧ Aborted t gid 0x82)) ∧
      ∀ d p3 (ta tb : Nat) (pas : Nat → Nat → List Nat), ok = true → kind = 2 → s.versioned g = false → HostUncached s →
        (nfld x 8 2 = 0xFFFF ∧ ta = 0x3F800000 ∨ nfld x 8 2 ≠ 0xFFFF ∧ ∃ y p, s.tensor g (nfld x 8 2) = .ok (y, p) ∧ ta = y.ts) →
        (nfld x 10 2 = 0xFFFF ∧ tb = 0x3F800000 ∨ nfld x 10 2 ≠ 0xFFFF ∧ ∃ y p, s.tensor g (nfld x 10 2) = .ok (y, p) ∧ tb = y.ts) →
        s.tensor g (nfld x 12 2) = .ok (d, p3) → (d.fmt ∈ [0, 2, 3, 4, 5, 6, 12] ∨ d.fmt = 1 ∧ c.head.getLsbD 14 = true) →
        d.ro = false → (c.head.getLsbD 11 = true → d.sp = true) → (rows ≠ 0 → nfld x 20 4 + cols ≤ d.ext.getD 0 1 ∧
        nfld x 16 4 + rows ≤ d.ext.getD 1 1) → d.sblk = 0 → bad = false →
        (∀ i < rows, ∀ j < cols, ∃ e, d.addr (nfld x 20 4 + j) (nfld x 16 4 + i) = some e ∧ Places s g d.sp e d.bytes (pas i j)) →
        let ts := FpFmt.mul .f32 { mode := .rne } (FpFmt.read .f32 false ta) (FpFmt.read .f32 false tb)
        let out (i j : Nat) := roundInto (fmtKind d.fmt) (outRounding c.fmode (c.head.getLsbD 12)) (timesScale
          (FpFmt.read (if c.head.getLsbD 14 then .f64 else .f32) false (accBits s g.cluster c i j)) ts.bits).1
        let ws := (List.range rows).flatMap fun i => (List.range cols).flatMap fun j => (pas i j).zip (natBytes d.bytes (out i j).bits)
        (ws.map Prod.fst).Nodup →
        ∃ t, exec (.epiTask gid idx) s = .next t ∧ Started t g c x ∧ t.tiles = s.tiles ∧
          Filled s t g d.sp (c.head.getLsbD 11) ws)) ∧
    (s.cmd? gid idx = some (g, c) → c.kind = .task →
      (c.started = false → exec (.tileTaskComplete gid idx) s = .next s) ∧
      (c.started = true → AllPerformed s → ∃ t g', exec (.tileTaskComplete gid idx) s = .next t ∧ t.tiles = s.tiles ∧
        t.gang? gid = some g' ∧ g'.tileQ = g.tileQ.filter (fun d => d.seq != idx) ∧
        g'.rinks = match c.flip with
          | some (r, st) => g.rinks.modify r fun z => { z with phases := z.phases ^^^ (1#16 <<< st) }
          | none => g.rinks))

/-- R150, R262, R300, R309, R319, R320, R334 to R336, R349, R352, R353: the commands that are no tile tasks. DUPD applies its
tokens to the state in order and DQRY writes S·q; a spill writes the image of R334 and frees the tiles, a fill pins the image's
words under its handle, or aborts the gang with 0x82; the binning engine counts, writes the counts and the overflow, and
patches its targets; TIDSET, TIDINV, TIDGET and RKINIT are performed in their turn. A poisoned record, descriptor or state
aborts the gang with 0x80 (R386). That a chunk runs in one step (log entry 23), and what `State.binOk` refuses beyond the
spec's words (log entry 35), are the model's readings. -/
def Obligations.EngineCommands : Prop :=
  ∀ s gid idx,
    (∀ g c r (ks vs qs : Nat → Nat → Fv) (al be : Nat → Fv) (gs : Nat → Nat → Fv), s.heldState g c.handle = some r →
      let x := Memory.readNat g.spad c.off 64
      let n := nfld x 4 1
      let ps := s.handleTiles g c.handle
      let rows := deltaRows r.dk al be ks vs (rowOf s g.cluster r.dk ps)
      let fits := g.spadBad c.off 64 = false ∧ (∀ p ∈ ps, s.tileBad g.cluster p = false) ∧ 1 ≤ n ∧ n ≤ 16 ∧ nfld x 5 1 ≤ 1 ∧
        nfld x 6 2 = 0 ∧ nfld x 18 46 = 0
      let places (o : Tensor) (ad : Nat → Nat → Nat) : List Nat := (List.range n).flatMap fun t => (List.range r.dv).flatMap fun i =>
        (List.range o.bytes).map (ad t i + ·)
      let target (o : Tensor) (ad : Nat → Nat → Nat) : Prop := (∃ p, s.tensor g (nfld x 16 2) = .ok (o, p)) ∧ o.ro = false ∧ o.sp = true ∧
        (o.fmt = 0 ∨ o.fmt = 2 ∨ o.fmt = 3) ∧ r.dv ≤ o.ext.getD 0 1 ∧ n ≤ o.ext.getD 1 1 ∧ (places o ad).Nodup ∧
        ∀ t < n, ∀ i < r.dv, o.addr i t = some (ad t i) ∧ ad t i + o.bytes ≤ (s.launchOf g).hdr.scratch
      let outputs (o : Tensor) (ad : Nat → Nat → Nat) (S : Nat → Nat → List Nat) : List (Nat × Byte) :=
        (List.range n).flatMap fun t => (List.range r.dv).flatMap fun i =>
          let y := (dotRow ((S t i).map val32) ((List.range r.dk).map (qs t))).1
          ((List.range o.bytes).map (ad t i + ·)).zip (natBytes o.bytes
            (if o.fmt = 0 then y else (roundInto (fmtKind o.fmt) (outRounding c.fmode false) (val32 y)).bits))
      let leaves (t : State) : Prop := ∃ g', t.gang? g.id = some g' ∧ g'.tileQ = g.tileQ.filter (fun d => d.seq != idx) ∧ g'.rinks = g.rinks
      let tokensNow (t : State) (k : Nat) : Prop :=
        t.stateRec? r.ctx r.handle = some { r with tokens := r.tokens + BitVec.ofNat 64 k } ∧
        (∀ i < r.dv, ∀ j < r.dk, (rowOf t g.cluster r.dk ps i).getD j 0 = (rows k i).getD j 0 % 2 ^ 32) ∧
        ∀ cl p m, ¬(cl = g.cluster ∧ p ∈ ps) → t.tileWord cl p m = s.tileWord cl p m
      r.dv % 32 = 0 → r.dk % 32 = 0 → ps.length = r.dv / 32 * (r.dk / 32) → ps.Nodup → fits →
      (Runs s gid idx g c .dupd (s.engineOn g) → Operand s g (nfld x 8 2) r.dk n ks → Operand s g (nfld x 10 2) r.dv n vs →
        Operand s g (nfld x 14 2) 2 n gs → (∀ t, gs t 0 = al t ∧ gs t 1 = be t) →
        (nfld x 5 1 = 0 → Entry s g (nfld x 12 2) r.dk n true → Entry s g (nfld x 16 2) r.dv n true →
          ∃ t, exec (.deltaUpdateRun gid idx) s = .next t ∧ Left t g idx ∧ tokensNow t n) ∧
        ∀ o ad, nfld x 5 1 = 1 → target o ad → Operand s g (nfld x 12 2) r.dk n qs → Apart s g (nfld x 8 2) r.dk n (places o ad) →
          Apart s g (nfld x 10 2) r.dv n (places o ad) → Apart s g (nfld x 12 2) r.dk n (places o ad) →
          Apart s g (nfld x 14 2) 2 n (places o ad) → ∃ t, exec (.deltaUpdateRun gid idx) s = .next t ∧ leaves t ∧ tokensNow t n ∧
            Filled s t g true true (outputs o ad fun t i => rows (t + 1) i)) ∧
      (∀ o ad, Runs s gid idx g c .dqry (s.engineOn g) → target o ad → Operand s g (nfld x 12 2) r.dk n qs →
        Apart s g (nfld x 12 2) r.dk n (places o ad) → Entry s g (nfld x 8 2) r.dk n true → Entry s g (nfld x 10 2) r.dv n true →
        Entry s g (nfld x 14 2) 2 n true → ∃ t, exec (.deltaQueryRun gid idx) s = .next t ∧ leaves t ∧ t.tiles = s.tiles ∧
          t.states = s.states ∧ Filled s t g true true (outputs o ad fun _ i => rowOf s g.cluster r.dk ps i))) ∧
    (∀ g c i, (Runs s gid idx g c .dupd (s.engineOn g) ∧ i = .deltaUpdateRun gid idx ∨
        Runs s gid idx g c .dqry (s.engineOn g) ∧ i = .deltaQueryRun gid idx) →
      let x := Memory.readNat g.spad c.off 64
      let bad := g.spadBad c.off 64 = true ∨ ∃ p ∈ s.handleTiles g c.handle, s.tileBad g.cluster p = true
      (bad → s.commitsDone g = true → ∃ t, exec i s = .next t ∧ Aborted t gid 0x80) ∧ (¬bad →
      (s.heldState g c.handle = none ∨ nfld x 4 1 = 0 ∨ 16 < nfld x 4 1 ∨ ∃ r, s.heldState g c.handle = some r ∧
        let es := [(8, r.dk), (10, r.dv), (12, r.dk), (14, 2), (16, r.dv)]
        (∀ p ∈ es, ∃ b, Entry s g (nfld x p.1 2) p.2 (nfld x 4 1) b) ∧ ∃ p ∈ es, Entry s g (nfld x p.1 2) p.2 (nfld x 4 1) false) →
      s.commitsDone g = true → ∃ t, exec i s = .next t ∧ Aborted t gid 0x82)) ∧
    (∀ g c pas, Runs s gid idx g c .spill (s.gangOn g) → HostUncached s →
      s.engPasDirect g c.off (64 + 4 * c.dv * c.dk) = .ok pas → pas.Nodup → c.dv < 2 ^ 16 → c.dk < 2 ^ 16 → c.handle < 2 ^ 32 →
      ∃ t bs, exec (.spillImageWrite gid idx) s = .next t ∧ Left t g idx ∧ BytesAt t pas bs ∧
        (∀ A, A ∉ pas → byteNow t A = byteNow s A) ∧
        (∀ y, y ∈ t.tiles ↔ y ∈ s.tiles ∧ ¬(y.cluster = g.cluster ∧ y.phys ∈ c.foot)) ∧ bs.length = 64 + 4 * c.dv * c.dk ∧
        let x := bytesNat (bs.take 64)
        nfld x 0 4 = 0x4B575354 ∧ nfld x 4 4 = c.handle ∧ nfld x 8 2 = c.dv ∧ nfld x 10 2 = c.dk ∧ nfld x 12 4 = 0 ∧
        nfld x 16 8 = c.tokens.toNat ∧ nfld x 24 4 = (crc32c (bs.drop 64)).toNat ∧ nfld x 28 36 = 0 ∧
        ∀ i < c.dv, ∀ j < c.dk, elemOf 4 (bs.drop 64) (i * c.dk + j) = (rowOf s g.cluster c.dk c.foot i).getD j 0) ∧
    (∀ g c head r, Runs s gid idx g c .fill (s.gangOn g) → Reads s g false c.off 64 head →
      (imageHead c.handle head = none → s.commitsDone g = true → ∃ t, exec (.spillImageFill gid idx) s = .next t ∧ Aborted t gid 0x82) ∧
      ∀ dv dk tokens crc body, imageHead c.handle head = some (dv, dk, tokens, crc) →
        Reads s g false (c.off + 64) (4 * dv * dk) body →
        (crc ≠ (crc32c body).toNat → s.commitsDone g = true → ∃ t, exec (.spillImageFill gid idx) s = .next t ∧ Aborted t gid 0x82) ∧
        (crc = (crc32c body).toNat → (s.freeTiles g.cluster).length < stateSize dv dk →
          exec (.spillImageFill gid idx) s = .next s) ∧
        (crc = (crc32c body).toNat → stateSize dv dk ≤ (s.freeTiles g.cluster).length →
          s.stateRec? (s.launchOf g).ctx c.handle = some r →
          ∃ t new, exec (.spillImageFill gid idx) s = .next t ∧ Left t g idx ∧ t.tiles = new ++ s.tiles ∧
            t.stateRec? (s.launchOf g).ctx c.handle =
              some { r with dv := dv, dk := dk, tokens := tokens, place := .cluster g.cluster } ∧ new.length = stateSize dv dk ∧
            ∀ (k : Nat) y, new[k]? = some y → y.cluster = g.cluster ∧ y.st = .pinned c.handle k ∧
              s.tile? g.cluster y.phys = none ∧ ∀ m < 1024, Map.get 0#32 y.data m = BitVec.ofNat 32 (elemOf 4 body
                ((32 * (k / ((dk + 31) / 32)) + m / 32) * dk + 32 * (k % ((dk + 31) / 32)) + m % 32)))) ∧
    (∀ g y rest bs, s.gang? gid = some g → s.gangOn g = true → g.bins = y :: rest → NoFeWait s gid →
      ((∃ r ∈ g.rkOps, r.seq < y.seq) → exec (.binningRun gid) s = .next s) ∧ ((∀ r ∈ g.rkOps, y.seq ≤ r.seq) →
      let a := y.off
      (g.binBad a = true → s.commitsDone g = true → ∃ t, exec (.binningRun gid) s = .next t ∧ Aborted t gid 0x80) ∧
      (g.binBad a = false → s.binOk g a = false → s.commitsDone g = true → ∃ t, exec (.binningRun gid) s = .next t ∧ Aborted t gid 0x82) ∧
      (g.binBad a = false → s.binOk g a = true →
        let x := Memory.readNat g.spad a 32
        let b := nfld x 16 2
        let cnt := nfld x 18 1 / 2 = 1
        let count (k : Nat) : Nat := ((destinations x bs).filter (· == k)).length
        let run (t : State) (g' : Gang) : Prop := exec (.binningRun gid) s = .next t ∧ t.gang? gid = some g' ∧ g'.bins = rest ∧
          g'.binDone = g.binDone + 1
        Reads s g (nfld x 18 1 % 2 == 1) (nfld x 0 8) (nfld x 12 2 * nfld x 8 4) bs →
        ((∀ k < b, (patchAt g a k).kind = 0) → (cnt → a + 28 ≤ nfld x 20 4 ∨ nfld x 20 4 + 4 * b ≤ a + 24) →
          ∃ t g', run t g' ∧
            Memory.readNat g'.spad (a + 24) 4 = ((destinations x bs).filter fun d => b ≤ d).length ∧
            (cnt → ∀ k < b, Memory.readNat g'.spad (nfld x 20 4 + 4 * k) 4 = count k) ∧
            ∀ A, ¬(a + 24 ≤ A ∧ A < a + 28) → ¬(cnt ∧ nfld x 20 4 ≤ A ∧ A < nfld x 20 4 + 4 * b) →
              Memory.read g'.spad A = Memory.read g.spad A) ∧
        ∀ p, b = 1 → ¬cnt → p = patchAt g a 0 →
          let v := count 0 * p.mult
          (p.kind = 1 ∨ p.kind = 2 → 2 ^ 32 ≤ v → s.commitsDone g = true → ∃ t, exec (.binningRun gid) s = .next t ∧ Aborted t gid 0x82) ∧
          (p.kind = 1 → v < 2 ^ 32 → p.at_ + 8 ≤ a + 24 ∨ a + 28 ≤ p.at_ →
            let fl := (Memory.read g.spad (p.at_ + 1)).toNat
            (fl / 2 % 2 = 0 → s.commitsDone g = true → ∃ t, exec (.binningRun gid) s = .next t ∧ Aborted t gid 0x82) ∧
            (fl / 2 % 2 = 1 → ∃ t g', run t g' ∧ Memory.readNat g'.spad (p.at_ + 4) 4 = v ∧
              (Memory.read g'.spad (p.at_ + 1)).toNat = fl - 2)) ∧
          (p.kind = 2 → v < 2 ^ 32 → p.at_ + 64 ≤ a + 24 ∨ a + 28 ≤ p.at_ → ∀ d ∈ g.tileQ, d.kind = .task → d.off = p.at_ →
            d.held = true → (∀ e ∈ g.tileQ, e.kind = .task → e.off = p.at_ → e = d) → ∃ t g', run t g' ∧
              Memory.readNat g'.spad (p.at_ + if (Memory.read g.spad (p.at_ + 37)).toNat = 1 then 4 else 40) 4 = v ∧
              { d with held := false } ∈ g'.tileQ) ∧
          ∀ pas pa, p.kind = 3 → v < 2 ^ 32 → s.engPasDirect g p.at_ 8 = .ok pas → pas.head? = some pa → pa % 8 = 0 →
            HostUncached s → ∃ t g', run t g' ∧ g'.committed = true ∧
              ∀ A, byteNow t A = (storedAt 8 [(pa, v)] A).getD (byteNow s A)))) ∧
    (∀ g op, s.gang? gid = some g → g.tidOps.find? (fun o => o.seq == idx) = some op → s.gangOn g = true →
      let at' := (s.launchOf g).tidTable + 128 * op.entry
      let done (t : State) : Prop := exec (.tidsetPerform gid idx) s = .next t ∧ ∃ g', t.gang? gid = some g' ∧
        g'.tidOps = g.tidOps.filter fun o => o.seq != idx
      (s.tidClear g op = false → exec (.tidsetPerform gid idx) s = .next s) ∧
      (s.tidClear g op = true → HostUncached s →
        (∀ off bs pas, op.act = .set off → Reads s g true off 128 bs → s.engPasDirect g at' 128 = .ok pas → pas.Nodup →
          ∃ t, done t ∧ BytesAt t pas bs ∧ ∀ A, A ∉ pas → byteNow t A = byteNow s A) ∧
        (∀ b pa, op.act = .inv → Reads s g false (at' + 13) 1 [b] → s.engPasDirect g (at' + 13) 1 = .ok [pa] →
          homeOf pa = some g.die →
          ∃ t, done t ∧ ∀ A, byteNow t A = if A = pa then b &&& 0xFE#8 else byteNow s A) ∧
        ∀ wave pid word bs, op.act = .get wave pid word → Reads s g false (at' + 4 * word) 4 bs →
          ∃ t, done t ∧ t.mem = s.mem ∧ ∀ w p, s.wave? wave = some w → p ∈ w.pend → p.id = pid →
            Answered s t wave p { p with opened := false, vals := [BitVec.ofNat 32 (bytesNat bs)] })) ∧
    ∀ g op, s.gang? gid = some g → g.rkOps.find? (fun o => o.seq == idx) = some op → s.gangOn g = true →
      let waits := (∃ q ∈ g.queues, (∃ k, q.walk = some k ∧ k.chain.seq < idx) ∨ ∃ h ∈ q.held, h.seq < idx) ∨
        ∃ d ∈ g.tileQ, d.kind = .task ∧ d.seq < idx ∧ (d.head.getLsbD 9 = true ∨ d.head.getLsbD 10 = true)
      (waits → exec (.rkinitPerform gid idx) s = .next s) ∧
      (¬waits → ¬RinkOk (s.launchOf g).hdr.scratch op.base op.size op.count →
        s.commitsDone g = true → ∃ t, exec (.rkinitPerform gid idx) s = .next t ∧ Aborted t gid 0x82) ∧
      (¬waits → RinkOk (s.launchOf g).hdr.scratch op.base op.size op.count → ∃ t g', exec (.rkinitPerform gid idx) s = .next t ∧
        t.gang? gid = some g' ∧ g'.rkOps = g.rkOps.filter (fun o => o.seq != idx) ∧
        g'.rinks = g.rinks.set op.rink { base := op.base, size := op.size, count := op.count, phases := 0 } ∧
        ∀ w, s.wave? op.wave = some w → ∃ w', t.wave? op.wave = some w' ∧ ∀ l < 32, op.lanes.getLsbD l = true →
          (w.thread l).parked = some idx → (w.thread l).st = .run → (w.thread l).todo = [] →
          w'.thread l = { w.thread l with
            parked := none, pc := (w.thread l).resume, count := 0, commitDone := false, v := (w'.thread l).v } ∧
          ∀ n < w.grant, Map.get 0 (w'.thread l).v n = Map.get 0 (w.thread l).v n)

/-- R268, R356, R362, R376, R377, R379, R382 to R384, R388: the supervisor performs a submitted command and answers it in the
window; a malformed one, or one that names a context that is not its function's, is answered BAD_ARG and changes nothing else;
TLB_INV is answered once no TLB holds the range and the accesses of the context are done, UNREG_QUEUE and RESET_VI once
nothing of theirs is in progress; RETRY lets the accesses of a page go on, ABORT aborts their gangs with 0x81; the driver
writes the command buffer and the submit word alone; a record goes to the ring's next slot, and then the write index rises.
The answers to SET_CONTEXT for a context with launches, to arguments out of range, to a FAULT_REPLY without a record and to an
ATTEST that is denied (log entry 43), and when UNREG_QUEUE and RESET_VI are answered (log entry 44), are the model's readings. -/
def Obligations.MailboxCommands : Prop :=
  ∀ s fn,
    (∀ op i v x, Submitted s fn op i v x →
      let refused (status : Nat) : Prop := ∃ t, exec i s = .next t ∧ t = { s with vis := t.vis } ∧ Replied t fn x status 0 v
      (¬Formed fn op x → refused 1) ∧
      (Formed fn op x → nfld x 4 4 ≠ 0xFFFFFFFF → ((∀ c, s.ctx? (nfld x 4 4) ≠ some c) ∨
        ∃ c, s.ctx? (nfld x 4 4) = some c ∧ c.fn ≠ fn) → refused 1) ∧
      (Formed fn op x → nfld x 4 4 ≠ 0xFFFFFFFF → (∃ c, s.ctx? (nfld x 4 4) = some c ∧ c.fn = fn ∧ c.lost = true) → refused 4) ∧
      (Formed fn op x → Unnamed x → op ∈ [2, 4, 5, 7, 8] → refused 1)) ∧
    (∀ op i bs v, IsMail fn op i bs → s.vi? fn = some v → (s.stage ≠ 6 ∨ (∀ x, ¬Stored v x) ∨
        ∃ x, Stored v x ∧ nfld x 0 2 ≠ op ∧ (op ≠ 1 ∨ 1 ≤ nfld x 0 2 ∧ nfld x 0 2 ≤ 11)) → exec i s = .next s) ∧
    (∀ v x, s.vi? fn = some v → s.stage = 6 → Stored v x → nfld x 0 2 = 0 ∨ 11 < nfld x 0 2 →
      ∃ t, exec (.setContext fn) s = .next t ∧ t = { s with vis := t.vis } ∧ Replied t fn x 1 0 v) ∧
    (∀ v x, Command s fn 1 (.setContext fn) v x → nfld x 8 8 % 2 ^ 15 = 0 → nfld x 8 8 < 2 ^ 51 →
      (Unnamed x → ∃ t n, exec (.setContext fn) s = .next t ∧ Replied t fn x 0 n v ∧ s.ctx? n = none ∧
        (∃ y, t.ctx? n = some y ∧ y = withAreas { id := n, fn, root := 0, part := v.part, out := y.out } x ∧
          (y.out = true ↔ ∃ z ∈ s.ctxs, OnPart z v.part ∧ z.fn ≠ v.fn)) ∧ ∀ m, m ≠ n → t.ctx? m = s.ctx? m) ∧
      ∀ c, Names s fn x c →
        ((∀ l ∈ s.launches, l.ctx ≠ c.id) → ∃ t, exec (.setContext fn) s = .next t ∧ Replied t fn x 0 0 v ∧
          t.ctx? c.id = some (withAreas c x)) ∧
        ((∃ l ∈ s.launches, l.ctx = c.id) → ∃ t, exec (.setContext fn) s = .next t ∧ Replied t fn x 3 0 v ∧ t.ctxs = s.ctxs)) ∧
    (∀ v x c, Command s fn 2 (.regQueue fn) v x → Names s fn x c → nfld x 8 8 % 64 = 0 → nfld x 16 8 % 128 = 0 →
      1 ≤ nfld x 24 1 → nfld x 24 1 ≤ 16 → nfld x 25 1 ≤ 3 →
      let used (n : Nat) : Prop := ∃ q ∈ s.queues, q.fn = fn ∧ q.num = n
      (∀ n < 64, ¬used n → (∀ m < n, used m) → ∃ t, exec (.regQueue fn) s = .next t ∧ Replied t fn x 0 n v ∧
        t.queues = s.queues ++ [{ id := s.nextId, fn, num := n, ctx := c.id, index := nfld x 8 8, ring := nfld x 16 8
                                  k := nfld x 24 1, prio := nfld x 25 1 }]) ∧
      ((∀ n < 64, used n) → ∃ t, exec (.regQueue fn) s = .next t ∧ Replied t fn x 2 0 v ∧ t.queues = s.queues)) ∧
    (∀ v x q, Command s fn 3 (.unregQueue fn) v x → (Unnamed x ∨ ∃ c, Names s fn x c) →
      s.queues.find? (fun q => q.fn == fn && q.num == nfld x 8 2) = some q →
      ((∀ l ∈ s.launches, l.queue ≠ some q.id ∨ l.begun = true) → ∃ t, exec (.unregQueue fn) s = .next t ∧ Replied t fn x 0 0 v ∧
        ∀ y, y ∈ t.queues ↔ y ∈ s.queues ∧ y.id ≠ q.id) ∧
      ((∃ l ∈ s.launches, l.queue = some q.id ∧ l.begun = false) → ∃ t, exec (.unregQueue fn) s = .next t ∧
        t = { s with queues := t.queues, vis := t.vis } ∧ Begun t fn x v ∧ { q with stop := some (nfld x 2 2) } ∈ t.queues)) ∧
    (∀ v x c, Names s fn x c →
      (Command s fn 4 (.regPredictor fn) v x → ∃ t, exec (.regPredictor fn) s = .next t ∧ Replied t fn x 0 0 v ∧
        t.ctx? c.id = some { c with predictor := some (nfld x 8 8) }) ∧
      (Command s fn 5 (.regCollective fn) v x → ∃ t, exec (.regCollective fn) s = .next t ∧ Replied t fn x 0 0 v ∧
        t.ctx? c.id = some { c with colls := some (nfld x 8 8) })) ∧
    (∀ v x p, Command s fn 6 (.setWatchdog fn) v x → (Unnamed x ∨ ∃ c, Names s fn x c) → s.part? v.part = some p →
      (20 ≤ nfld x 8 1 → nfld x 8 1 ≤ 40 → ∃ t, exec (.setWatchdog fn) s = .next t ∧
        Replied t fn x (if p.fixed = true then 3 else 0) 0 v ∧
        t.part? v.part = some (if p.fixed = true then p else { p with dog := nfld x 8 1 })) ∧
      (¬(20 ≤ nfld x 8 1 ∧ nfld x 8 1 ≤ 40) → ∃ t, exec (.setWatchdog fn) s = .next t ∧ Replied t fn x 1 0 v ∧ t.parts = s.parts)) ∧
    (∀ v x c, Command s fn 7 (.tlbInv fn) v x → Names s fn x c → nfld x 8 8 % 2 ^ 15 = 0 → nfld x 16 8 % 2 ^ 15 = 0 →
      let named (e : TlbEntry) : Prop := e.ctx = c.id ∧
        (nfld x 16 8 = 0 ∨ e.vbase < nfld x 8 8 + nfld x 16 8 ∧ nfld x 8 8 < e.vbase + e.size)
      ((∀ j ∈ s.tlbInvs, j.fn ≠ v.fn) → ∃ t, exec (.tlbInv fn) s = .next t ∧
        t = { s with tlb := t.tlb, sectTlb := t.sectTlb, tlbInvs := t.tlbInvs, vis := t.vis } ∧ Begun t fn x v ∧
        t.tlbInvs = s.tlbInvs ++ [{ fn := v.fn, tag := nfld x 2 2, ctx := c.id, base := nfld x 8 8, len := nfld x 16 8 }] ∧
        (∀ e, e ∈ t.tlb ↔ e ∈ s.tlb ∧ ¬named e) ∧ ∀ e, e ∈ t.sectTlb ↔ e ∈ s.sectTlb ∧ ¬named e) ∧
      ((∃ j ∈ s.tlbInvs, j.fn = v.fn) → ∃ t, exec (.tlbInv fn) s = .next t ∧ t = { s with vis := t.vis } ∧ Begun t fn x v)) ∧
    (∀ idx j, s.tlbInvs[idx]? = some j →
      (s.ctxClear j.ctx = false → exec (.tlbInvComplete idx) s = .next s) ∧
      ∀ v y, s.ctxClear j.ctx = true → s.vi? j.fn = some v → v.cmd = some y → ∃ t, exec (.tlbInvComplete idx) s = .next t ∧
        Replied t j.fn y.toNat 0 0 v ∧ t.tlbInvs = s.tlbInvs.eraseIdx idx ∧
        ∀ e ∈ t.tlb ++ t.sectTlb, ¬(e.ctx = j.ctx ∧ (j.len = 0 ∨ e.vbase < j.base + j.len ∧ j.base < e.vbase + e.size))) ∧
    (∀ v x c, Command s fn 8 (.faultReply fn) v x → Names s fn x c → nfld x 8 8 % 2 ^ 15 = 0 → nfld x 16 1 ≤ 1 →
      ∃ t, exec (.faultReply fn) s = .next t ∧ Replied t fn x 0 0 v ∧
        (∀ f, f ∈ t.faults ↔ f ∈ s.faults ∧ ¬(f.ctx = c.id ∧ f.page = nfld x 8 8)) ∧
        (nfld x 16 1 = 0 → (s.waves.Pairwise fun a b => a.id ≠ b.id) → ∀ w g, w ∈ s.waves → s.gang? w.gang = some g →
          (s.launchOf g).ctx = c.id → ∃ w', t.wave? w.id = some w' ∧
            if g.preempt = true ∨ g.place = none then w' = w else ∀ l < 32, ∀ fr, (w.thread l).st = .held (.xlate (nfld x 8 8) fr) →
              (w.thread l).todo = [] → (w'.thread l).st = .run ∧ (w'.thread l).pc = (w.thread l).pc) ∧
        (nfld x 16 1 = 1 → ∀ gid g, s.gang? gid = some g → g.st = .live → (s.launchOf g).ctx = c.id → WaitsOn s gid (nfld x 8 8) →
          s.commitsDone g = true → Aborted t gid 0x81)) ∧
    (∀ v x, Command s fn 9 (.resetVi fn) v x → (Unnamed x ∨ ∃ c, Names s fn x c) →
      let mine (ctx : Nat) : Prop := ∃ c, s.ctx? ctx = some c ∧ c.fn = fn
      ((∀ l ∈ s.launches, ¬mine l.ctx) → ∃ t, exec (.resetVi fn) s = .next t ∧ Replied t fn x 0 0 v ∧
        (∀ c, c ∈ t.ctxs ↔ c ∈ s.ctxs ∧ c.fn ≠ fn) ∧ (∀ q, q ∈ t.queues ↔ q ∈ s.queues ∧ q.fn ≠ fn) ∧
        (∀ y, y ∈ t.states ↔ y ∈ s.states ∧ ¬mine y.ctx) ∧ (∀ y, y ∈ t.tiles ↔ y ∈ s.tiles ∧ ¬mine y.ctx) ∧
        ∃ v', t.vi? fn = some v' ∧ v'.evq = none ∧ v'.recs = []) ∧
      ((∃ l ∈ s.launches, mine l.ctx) → ∃ t, exec (.resetVi fn) s = .next t ∧ Begun t fn x v ∧
        (∀ gid g, s.gang? gid = some g → g.st = .live → mine (s.launchOf g).ctx → s.commitsDone g = true → Aborted t gid 0x85) ∧
        ((s.gangs.Pairwise fun a b => a.id ≠ b.id) → ∀ gid g, s.gang? gid = some g → g.st ≠ .live → mine (s.launchOf g).ctx →
          (∀ w ∈ s.waves, w.gang ≠ gid) → t.gang? gid = none) ∧
        ∀ lid l, s.launch? lid = some l → mine l.ctx → l.noRerun = false → ∃ l', t.launch? lid = some l' ∧ l'.todo = [] ∧
          l'.noRerun = true)) ∧
    (∀ v x, Command s fn 10 (.regEvents fn) v x → (Unnamed x ∨ ∃ c, Names s fn x c) → nfld x 8 8 % 64 = 0 → nfld x 16 8 % 32 = 0 →
      4 ≤ nfld x 24 1 → nfld x 24 1 ≤ 16 → ∃ t v', exec (.regEvents fn) s = .next t ∧ Replied t fn x 0 0 v ∧ t.vi? fn = some v' ∧
        v'.evq = some (nfld x 8 8, nfld x 16 8, nfld x 24 1, 0) ∧ v'.recs = v.recs) ∧
    (∀ v x, Command s fn 11 (.attest fn) v x → (Unnamed x ∨ ∃ c, Names s fn x c) → nfld x 40 8 % 64 = 0 → HostUncached s →
      (∀ j < 4096, s.frameOk (nfld x 40 8 + j) = true) →
      (s.life = .ret ∨ s.keysErased = true → ∃ t, exec (.attest fn) s = .next t ∧ t = { s with vis := t.vis } ∧ Replied t fn x 3 0 v) ∧
      (s.life ≠ .ret → s.keysErased = false → ∃ t n, exec (.attest fn) s = .next t ∧ Replied t fn x 0 n v ∧ n ≤ 3840 ∧
        (∀ j < 32, byteNow t (nfld x 40 8 + j) = BitVec.ofNat 8 (nfld x (8 + j) 1)) ∧
        (∀ d < 8, byteNow t (nfld x 40 8 + 36 + d) = (s.die d).feat.setWidth 8) ∧
        ∀ j < 256, (33 ≤ j ∧ j < 36 ∨ 140 ≤ j) → byteNow t (nfld x 40 8 + j) = 0)) ∧
    (∀ v off bs, s.link = true → (s.stage = 6 ∨ fn = 0) → s.vi? fn = some v → ∃ t v', exec (.windowWrite fn off bs) s = .next t ∧
      t = { s with vis := t.vis } ∧ t.vi? fn = some v' ∧ v' = { v with window := v'.window, sub := v'.sub } ∧
      (v'.sub = true ↔ v.sub = true ∨ off < 0x144 ∧ 0x140 < off + bs.length ∧ bs ≠ []) ∧ (∀ A, 0x100 ≤ A → A < 0x144 →
        Memory.read v'.window A = if off ≤ A then (bs[A - off]?).getD (Memory.read v.window A) else Memory.read v.window A) ∧
      ∀ A, A < 0x100 ∨ 0x144 ≤ A → Memory.read v'.window A = Memory.read v.window A) ∧
    ∀ v idx ring k n e es, s.vi? fn = some v → v.evq = some (idx, ring, k, n) → v.recs = e :: es →
      let full := 2 ^ k ≤ (n - s.home64 (idx + 64)) % 2 ^ 64
      (s.link = false ∨ full → exec (.eventRecordDrain fn) s = .next s) ∧
      (s.link = true → ¬full → HostUncached s → ∃ t, exec (.eventRecordDrain fn) s = .next t ∧
        (t.vi? fn).map (fun y => (y.evq, y.recs)) = some (some (idx, ring, k, n + 1), es) ∧
        (∀ j < 8, s.frameOk (idx + j) = true → byteNow t (idx + j) = BitVec.ofNat 8 ((n + 1) / 2 ^ (8 * j))) ∧
        let slot := ring + 32 * (n % 2 ^ k)
        (idx + 8 ≤ slot ∨ slot + 32 ≤ idx) → (∀ j < 32, s.frameOk (slot + j) = true) →
          let x := bytesNat ((List.range 32).map fun j => byteNow t (slot + j))
          nfld x 0 8 = e.addr % 2 ^ 64 ∧ nfld x 8 2 = e.ctx % 2 ^ 16 ∧ nfld x 10 1 = e.kind % 256 ∧ nfld x 11 1 = e.die % 256 ∧
          nfld x 12 4 = min e.count (2 ^ 32 - 1) ∧ nfld x 16 8 = e.detail % 2 ^ 64 ∧ nfld x 24 8 = 0)

/-- R32, R255, R264, R265, R373, R378, R385, R389 to R392: a spare cluster takes a failed one's number, or the cluster is
withdrawn, and its gangs abort with 0x85; capacities only fall; a retired frame's bytes stand in its spare; a withdrawn die's
gangs abort with 0x85; the link's loss halts every partition, its return leaves every context lost; a reset wipes every memory
and takes the life-cycle state a fuse names, and the firmware that is not accepted stops it; the alarm records, or resets with
every context LOST, or erases the keys as well; throttling changes nothing else. That a reset and an alarm are one step each, and
what stays across them (log entry 31), and that a repair may lower a capacity (log entry 49), are the model's readings. -/
def Obligations.ReliabilityEvents : Prop :=
  ∀ s,
    (∀ cluster, cluster < 128 → cluster ∉ s.deadClusters → ∃ t, exec (.spareClusterSwap cluster) s = .next t ∧
      (∀ gid g, s.gang? gid = some g → g.st = .live → g.place.isSome = true → g.cluster = cluster → s.commitsDone g = true →
        Aborted t gid 0x85) ∧ t.tiles = s.tiles ∧
      (cluster / 8 ∉ s.spareSectors → cluster / 8 ∈ t.spareSectors ∧ t.deadClusters = s.deadClusters) ∧
      (cluster / 8 ∈ s.spareSectors → cluster ∈ t.deadClusters ∧ t.spareSectors = s.spareSectors)) ∧
    (∀ core, ∃ t, exec (.spareRowRepair (.regFile core)) s = .next t ∧ t = { s with trackCaps := t.trackCaps, fresh := t.fresh } ∧
      ∀ k, Map.get 256 t.trackCaps k = Map.get 256 s.trackCaps k ∨
        8 * core ≤ k ∧ k < 8 * core + 8 ∧ Map.get 256 t.trackCaps k = Map.get 256 s.trackCaps k - 16) ∧
    (∀ d, ∃ t, exec (.spareRowRepair (.homeWays d)) s = .next t ∧ t = { s with dies := t.dies, fresh := t.fresh } ∧
      ∀ k, (t.die k).verCap ≤ (s.die k).verCap ∧ (k ≠ d → t.die k = s.die k)) ∧
    (∀ d bit, ∃ t, exec (.spareRowRepair (.feature d bit)) s = .next t ∧ t = { s with dies := t.dies, vis := t.vis } ∧
      ∀ k (b : Nat), (t.die k).feat.getLsbD b = ((s.die k).feat.getLsbD b && !(decide (k = d) && decide (b = bit.val)))) ∧
    (∀ c l u, exec (.spareRowRepair (.scratchpad c)) s = .next s ∧ exec (.spareRowRepair (.cache l u)) s = .next s) ∧
    (∀ frame spare, s.deviceFrame (2 ^ 15 * frame) = true → s.deviceFrame (2 ^ 15 * spare) = true → frame ≠ spare →
      ∃ t, exec (.pageRetirement frame spare) s = .next t ∧
        (∀ j < 2 ^ 15, byteNow t (2 ^ 15 * spare + j) = byteNow s (2 ^ 15 * frame + j)) ∧
        ∀ v, s.vi? 0 = some v → v.evq.isSome = true → ∃ v' e, t.vi? 0 = some v' ∧ v'.recs = v.recs ++ [e] ∧ e.kind = 0x82 ∧
          e.addr = 2 ^ 15 * frame ∧ e.detail = 2 ^ 15 * spare) ∧
    (∀ d, exec (.spareLaneSwap d) s = .next s) ∧
    (∀ d, ∃ t, exec (.dieWithdrawal d) s = .next t ∧ ((∃ x ∈ s.dies, x.id = d) → (t.die d).withdrawn = true) ∧
      (∀ gid g, s.gang? gid = some g → g.st = .live → g.die = d → (g.place.isSome = true ∨ ∃ v ∈ s.versions, v.gang = gid) →
        (s.commitsDone g = true → Aborted t gid 0x85) ∧
        (s.commitsDone g = false → g.due = none → ∃ g' f, t.gang? gid = some g' ∧ g'.st = .live ∧ g'.due = some f ∧ f.code = 0x85)) ∧
      ∀ gid g, s.gang? gid = some g → g.die ≠ d → (s.gangs.Pairwise fun x y => x.id ≠ y.id) →
        ∃ g', t.gang? gid = some g' ∧ g'.st = g.st) ∧
    (∃ t, exec .hostLinkDown s = .next t ∧ t = { s with link := false, parts := t.parts } ∧
      t.parts = s.parts.map fun p => { p with halted := true }) ∧
    (s.link = true → exec .hostLinkUp s = .next s) ∧
    (s.link = false → ∃ t, exec .hostLinkUp s = .next t ∧ t.link = true ∧ t.waves = [] ∧ t.gangs = [] ∧ t.launches = [] ∧
      t.queues = [] ∧ t.versions = [] ∧ (∀ c ∈ t.ctxs, c.lost = true) ∧ (∀ p ∈ t.parts, p.halted = false) ∧
      t.ctxs.map (·.id) = s.ctxs.map (·.id) ∧ t.mem = s.mem) ∧
    ((∃ t, exec .reset s = .next t ∧ Wiped s t ∧ t.ctxs = [] ∧ Staged s t s.keysErased) ∧
      ∀ b, (s.alarm = 0 → ∃ t, exec (.securityAlarm b) s = .next t ∧ t = { s with vis := t.vis } ∧
          ((s.vis.map (·.fn)).Nodup → ∀ fn v, s.vi? fn = some v → v.evq.isSome = true → ∃ v', t.vi? fn = some v' ∧
            v'.recs = v.recs ++ [{ kind := 0x84, detail := b.toNat }])) ∧
        let lost (t : State) : Prop := (∀ c ∈ t.ctxs, c.lost = true) ∧ t.ctxs.map (fun c => (c.id, c.fn)) = s.ctxs.map (fun c => (c.id, c.fn)) ∧
          ((s.vis.map (·.fn)).Nodup → ∀ fn v x c, fn < 64 → s.vi? fn = some v → Stored v x → s.ctx? (nfld x 4 4) = some c → c.fn = fn →
            ∃ v', t.vi? fn = some v' ∧ Memory.readNat v'.window 0x184 4 = 4 ∧ Memory.readNat v'.window 0x1C0 4 = nfld x 2 2)
        (s.alarm = 1 → ∃ t, exec (.securityAlarm b) s = .next t ∧ Wiped s t ∧ lost t ∧ Staged s t s.keysErased) ∧
        (s.alarm = 2 → ∃ t, exec (.securityAlarm b) s = .next t ∧ Wiped s t ∧ lost t ∧ t.keysErased = true ∧ Staged s t true)) ∧
    (∀ x, let step := s.life = .blank ∧ (x = .develop ∨ x = .production) ∨ s.life = .develop ∧ (x = .production ∨ x = .scrapped) ∨
        s.life = .production ∧ (x = .ret ∨ x = .scrapped) ∨ s.life = .ret ∧ x = .scrapped
      (step → exec (.lifeCycleTransition x) s = .next { s with nextLife := some x }) ∧
      (¬step → exec (.lifeCycleTransition x) s = .next s)) ∧
    ∀ on, exec (.powerLimitThrottle on) s = .next { s with throttled := on }

/-- R45, R79, R222: where the cycle is a track's, the wave that R229 chooses issues the group that R222 chooses; where the
word at its program counter ends its chain and decodes, the step is exec of the decoded form, opened in the threads for which
it can issue, once the words that waited for earlier slots of their chain have run (R197) and the threads that wait for the
results of their last chain have left it (R36), unless the groomer's wave has its turn; nothing else of the state has changed but
the waves' counts and hints, the core's cycle counter, the copies that an acquire half ends (R107) and what is noted of poison in
the line fetched (R274). Where the next input is an event of the table, the step is exec of it. When the groomer's wave is
eligible (log entry 93), and that a late word waits in its whole group (log entry 80), are the model's choices. -/
def Obligations.StepRunsWord : Prop :=
  ∀ s is, s.forced = none →
    (∀ tk x c word sl, s.inputs = .track tk :: is → WaveIds s →
      let s1 := (State.lateTrack { s with cycle := s.cycle + 1, inputs := is } tk).leaveTrack tk
      let ready := (s1.scans tk).filter fun y => y.pick.isSome
      s1.groomerTurn tk ready = false → s1.choose ready = some x → x.pick = some c →
      s1.fetchWord x.wave c.pc = .ok word → word.getLsbD 31 = false → decodeSlot word = some sl →
      ∃ u k w, step s = exec sl.i u ∧ Issuing u k w ∧ k.lanes = c.ready ∧ k.pc = c.pc ∧ k.word = word ∧ k.wordPc = c.pc ∧
        k.nextPc = nextWord c.pc ∧ w.id = x.wave.id ∧
        u = { s1 with cur := u.cur, waves := u.waves, l1 := u.l1, sect := u.sect, fills := u.fills, coreCycle := u.coreCycle
                      vis := u.vis, codeErrs := u.codeErrs, groomWaits := u.groomWaits }) ∧
    ∀ e, s.inputs = .event e :: is → ¬IsWord e → step s = exec e { s with cycle := s.cycle + 1, inputs := is }

/-- R43, R52, R68 to R73: a word of each of ten families, its fields written out from the tables of spec/04, is the form that
the table gives it; NOP's word with bit 0 set is no instruction (R79). -/
def Obligations.DecodeWords : Prop :=
  (∀ i w, (i, w) ∈ decodeSamples → ∀ c v : Bool,
    decodeSlot ((if c then 0x80000000#32 else 0) ||| (if v then 0x40000000#32 else 0) ||| w) = some { c := c, w := v, i := i }) ∧
    decodeSlot 0x01000001#32 = none

/-- R381, R389, R391: after reset every byte of memory reads zero, the module has reached stage 6, functions 0 to 63 are
visible, function 0's window says so, and there is no context, queue, launch, gang or wave. Memory is in its canonical form (the
model's own invariant). The life-cycle state is the model's choice (log entry 6). -/
def Obligations.ResetState : Prop :=
  (∀ a, byteNow State.reset a = 0) ∧ State.reset.stage = 6 ∧
    (∀ fn < 64, ∃ v, State.reset.vi? fn = some v) ∧
    (∀ v, State.reset.vi? 0 = some v → Memory.readNat v.window 0 4 = 6) ∧
    State.reset.ctxs = [] ∧ State.reset.queues = [] ∧ State.reset.launches = [] ∧ State.reset.gangs = [] ∧
    State.reset.waves = [] ∧ State.reset.versions = [] ∧ MemOk State.reset

/-- The machine never stops, and memory and every scratchpad keep their canonical form in every step: equal memories are equal
data. -/
def Obligations.StepKeepsMemory : Prop :=
  ∀ s, ∃ t, step s = .next t ∧ (MemOk s → MemOk t)

/-- R43, R44, R79: the encoder and the decoder agree. Every word form with the shape of its operands has a word for either C
and W, which decodes to it with every operand as it was; every word that decodes is the word of the well-formed form it
decodes to. -/
def Obligations.RoundTrip : Prop :=
  (∀ i c b, i.wellFormed = true → IsWord i → ∃ w, encodeSlot ⟨c, b, i⟩ = some w ∧ decodeSlot w = some ⟨c, b, i⟩) ∧
    ∀ w sl, decodeSlot w = some sl → encodeSlot sl = some w ∧ sl.i.wellFormed = true ∧ IsWord sl.i

/-- R222, R229: which group of a wave issues and which wave of a track; the wait counts in a cycle in which no wave issues, as
when none is eligible or the groomer's wave is chosen (log entry 93, the model's choice): a ready candidate's
advances, with the promise on, another's holds its value. -/
def Obligations.IssueOrder : Prop :=
  (∀ w cs,
    let x := scanOf w cs
    (∀ c, x.pick = some c → c ∈ cs ∧ c.ready ≠ 0) ∧
    (∀ d, (∃ c ∈ cs, c.lanes &&& w.lead ≠ 0) → x.lead = some d → d.lanes &&& w.lead ≠ 0) ∧
    (w.prog = false → x.due = none ∧ ∀ c, cs.head? = some c → x.pick = if c.ready = 0 then none else some c) ∧
    (w.prog = true → ∀ d, x.lead = some d →
      ((∃ c, OtherReady cs d c ∧ 255 ≤ c.count) → ∃ c, x.pick = some c ∧ x.due = some c.count ∧ Longest cs d c) ∧
      ((∀ c, OtherReady cs d c → c.count < 255) → x.due = none ∧
        (w.yieldGrp = true → (∃ c, OtherReady cs d c) → ∃ c, x.pick = some c ∧ Longest cs d c) ∧
        (w.yieldGrp = false ∨ (∀ c, ¬OtherReady cs d c) → x.pick = if d.ready = 0 then none else some d)))) ∧
  (∀ s xs, xs ≠ [] → (xs.Pairwise fun x y => x.wave.id ≠ y.wave.id) → ∃ x ∈ xs, s.choose xs = some x ∧
    ((∃ y ∈ xs, y.due.isSome = true) → First (fun y => y.due.getD 0) (xs.filter fun y => y.due.isSome) x) ∧
    ((∀ y ∈ xs, y.due = none) →
      ((∃ y ∈ xs, 64 ≤ y.wave.wait) → First (fun y => y.wave.wait) xs x) ∧
      ((∀ y ∈ xs, y.wave.wait < 64) →
        ((∀ y ∈ xs, y.wave.yieldTrk = false) → ∀ y ∈ xs, ageKey s x ≤ ageKey s y) ∧
        ∀ v ∈ xs, v.wave.yieldTrk = true → (∀ y ∈ xs, y.wave.yieldTrk = true → y = v) →
          ((∃ d c, v.lead = some d ∧ OtherReady v.cands d c) → x = v) ∧
          ((∃ d, v.lead = some d ∧ ∀ c, ¬OtherReady v.cands d c) → 1 < xs.length →
            x ≠ v ∧ ∀ y ∈ xs, y ≠ v → ageKey s x ≤ ageKey s y)))) ∧
  ∀ s tk, WaveIds s → let s1 := (s.lateTrack tk).leaveTrack tk
    let turn := s1.groomerTurn tk ((s1.scans tk).filter fun y => y.pick.isSome)
    (∀ x ∈ s1.scans tk, x.pick = none) ∨ turn = true → ∃ t, s.trackCycle tk none = .next t ∧
    t = { s1 with waves := t.waves, groomWaits := t.groomWaits } ∧ (turn = true → Map.get 0 t.groomWaits tk = 0) ∧
    ∀ x ∈ s1.scans tk, ∃ w, t.wave? x.wave.id = some w ∧ w.wait = x.wave.wait + (if x.pick.isSome = true then 1 else 0) ∧
      ∀ c ∈ x.cands, ∀ l < x.wave.threads.length, c.lanes.getLsbD l = true →
        (w.thread l).count = if x.wave.prog = true ∧ c.ready ≠ 0 then c.count + 1 else (x.wave.thread l).count
end

