-- ==== Sys2Proof/Laws/Map.lean ====
section
/-! SUPPORT. Laws of the finite maps and of memory: a read after a write, and the canonical form that every write keeps. -/

namespace Sys2Proof.Machine

namespace Map

variable {α : Type} {d v : α} {m : Map α} {a b lo : Nat}

@[simp] theorem get_nil : get d [] a = d := rfl

theorem get_erase_same : get d (m.erase a) a = d := by
  induction m with
  | nil => rfl
  | cons p m ih =>
    by_cases h : p.1 = a
    · simpa [erase, h] using ih
    · simpa [erase, h, get] using ih

theorem get_erase_ne (h : b ≠ a) : get d (m.erase a) b = get d m b := by
  induction m with
  | nil => rfl
  | cons p m ih =>
    by_cases hk : p.1 = a
    · simpa [erase, hk, get, Ne.symm h] using ih
    · by_cases hb : p.1 = b
      · simp [erase, get, hb, h]
      · simpa [erase, hk, get, hb] using ih

theorem get_insert_same (h : ∀ p ∈ m, p.1 ≠ a) : get d (m.insert a v) a = v := by
  induction m with
  | nil => simp [insert, get]
  | cons p m ih =>
    have hp : p.1 ≠ a := h p (by simp)
    by_cases hlt : a < p.1
    · simp [insert, hlt, get]
    · simpa [insert, hlt, get, hp] using ih fun q hq => h q (by simp [hq])

theorem get_insert_ne (h : b ≠ a) : get d (m.insert a v) b = get d m b := by
  induction m with
  | nil => simp [insert, get, Ne.symm h]
  | cons p m ih =>
    by_cases hlt : a < p.1
    · simp [insert, hlt, get, Ne.symm h]
    · by_cases hb : p.1 = b
      · simp only [insert, if_neg hlt, get, if_pos hb]
      · simpa [insert, hlt, get, hb] using ih

theorem mem_erase_ne {p : Nat × α} (h : p ∈ m.erase a) : p.1 ≠ a := by
  simpa using (List.mem_filter.mp h).2

variable [DecidableEq α]

/-- A read of what has just been written. -/
@[simp] theorem get_set_same : get d (m.set d a v) a = v := by
  unfold set
  split
  · next h => rw [get_erase_same, h]
  · exact get_insert_same fun _ h => mem_erase_ne h

/-- A write leaves every other key alone. -/
@[simp] theorem get_set_ne (h : b ≠ a) : get d (m.set d a v) b = get d m b := by
  unfold set
  split
  · exact get_erase_ne h
  · rw [get_insert_ne h, get_erase_ne h]

theorem get_set : get d (m.set d a v) b = if b = a then v else get d m b := by
  by_cases h : b = a
  · simp [h]
  · simp [h]

theorem wfFrom_mono {lo' : Nat} (h : lo' ≤ lo) (hm : wfFrom d lo m) : wfFrom d lo' m := by
  cases m with
  | nil => rfl
  | cons p m =>
    simp only [wfFrom, Bool.and_eq_true, decide_eq_true_eq] at hm ⊢
    exact ⟨⟨by omega, hm.1.2⟩, hm.2⟩

theorem wfFrom_erase (hm : wfFrom d lo m) : wfFrom d lo (m.erase a) := by
  induction m generalizing lo with
  | nil => rfl
  | cons p m ih =>
    simp only [wfFrom, Bool.and_eq_true, decide_eq_true_eq] at hm
    by_cases h : p.1 = a
    · simpa [erase, h] using wfFrom_mono (by omega) (ih hm.2)
    · simp only [erase, bne_iff_ne, ne_eq, h, not_false_eq_true, List.filter_cons_of_pos, wfFrom, Bool.and_eq_true,
        decide_eq_true_eq]
      exact ⟨hm.1, ih hm.2⟩

theorem wfFrom_insert (hv : v ≠ d) (hlo : lo ≤ a) (hne : ∀ p ∈ m, p.1 ≠ a) (hm : wfFrom d lo m) :
    wfFrom d lo (m.insert a v) := by
  induction m generalizing lo with
  | nil => simp [insert, wfFrom, hv, hlo]
  | cons p m ih =>
    have hp : p.1 ≠ a := hne p (by simp)
    simp only [wfFrom, Bool.and_eq_true, decide_eq_true_eq] at hm
    by_cases h : a < p.1
    · simp only [insert, h, ↓reduceIte, wfFrom, Bool.and_eq_true, decide_eq_true_eq]
      exact ⟨⟨hlo, hv⟩, ⟨by omega, hm.1.2⟩, hm.2⟩
    · simp only [insert, h, ↓reduceIte, wfFrom, Bool.and_eq_true, decide_eq_true_eq]
      exact ⟨hm.1, ih (by omega) (fun q hq => hne q (by simp [hq])) hm.2⟩

/-- Every write keeps the canonical form. -/
theorem wf_set (hm : wf d m) : wf d (m.set d a v) := by
  unfold set
  split
  · exact wfFrom_erase hm
  · exact wfFrom_insert ‹_› (Nat.zero_le _) (fun _ h => mem_erase_ne h) (wfFrom_erase hm)

@[simp] theorem wf_nil : wf d ([] : Map α) := rfl

omit [DecidableEq α] in
/-- The entries whose keys satisfy `p`. -/
theorem get_filter (p : Nat → Bool) : get d (m.filter fun x => p x.1) a = if p a then get d m a else d := by
  induction m with
  | nil => simp [get]
  | cons x m ih => by_cases h : p x.1 <;> by_cases e : x.1 = a <;> simp_all [get]

theorem wfFrom_filter (p : Nat × α → Bool) (hm : wfFrom d lo m) : wfFrom d lo (m.filter p) := by
  induction m generalizing lo with
  | nil => rfl
  | cons x m ih =>
    simp only [wfFrom, Bool.and_eq_true, decide_eq_true_eq] at hm
    by_cases h : p x
    · simp only [List.filter_cons_of_pos h, wfFrom, Bool.and_eq_true, decide_eq_true_eq]
      exact ⟨hm.1, ih hm.2⟩
    · rw [List.filter_cons_of_neg h]
      exact wfFrom_mono (by omega) (ih hm.2)

end Map

namespace Memory

variable {m : Memory} {a b n x : Nat} {v : Byte}

@[simp] theorem read_write_same : read (write m a v) a = v := Map.get_set_same

@[simp] theorem read_write_ne (h : b ≠ a) : read (write m a v) b = read m b := Map.get_set_ne h

theorem wf_write (h : wf m) : wf (write m a v) := Map.wf_set h

theorem wf_writeNat (h : wf m) : wf (writeNat m a n x) := by
  induction n generalizing m a x with
  | zero => exact h
  | succ n ih => exact ih (wf_write h)

/-- A write of `n` bytes leaves every byte outside them alone. -/
theorem read_writeNat_ne (h : b < a ∨ a + n ≤ b) : read (writeNat m a n x) b = read m b := by
  induction n generalizing m a x with
  | zero => rfl
  | succ n ih =>
    rw [writeNat, ih (by omega), read_write_ne (by omega)]

/-- Byte `j` of the bytes just written. -/
theorem read_writeNat {j : Nat} (h : j < n) : read (writeNat m a n x) (a + j) = BitVec.ofNat 8 (x / 256 ^ j) := by
  induction n generalizing m a x j with
  | zero => omega
  | succ n ih =>
    rw [writeNat]
    cases j with
    | zero => rw [Nat.add_zero, read_writeNat_ne (by omega)]; simp
    | succ j =>
      have := @ih (write m a (BitVec.ofNat 8 x)) (a + 1) (x / 256) j (by omega)
      rw [show a + (j + 1) = a + 1 + j by omega, this, Nat.div_div_eq_div_mul, Nat.pow_succ, Nat.mul_comm]

/-- A read of the bytes just written. -/
theorem readNat_writeNat (h : x < 256 ^ n) : readNat (writeNat m a n x) a n = x := by
  have key : ∀ k c, c + k ≤ n → readNat (writeNat m a n x) (a + c) k = x / 256 ^ c % 256 ^ k := by
    intro k
    induction k with
    | zero => intro c _; simp [readNat, Nat.mod_one]
    | succ k ih =>
      intro c hc
      have h1 := ih (c + 1) (by omega)
      rw [readNat, read_writeNat (by omega), Nat.add_assoc, h1, BitVec.toNat_ofNat, Nat.pow_succ 256 c,
        ← Nat.div_div_eq_div_mul, Nat.pow_succ 256 k, Nat.mul_comm (256 ^ k), Nat.mod_mul]
  have := key n 0 (by omega)
  simpa [Nat.mod_eq_of_lt h] using this

end Memory

end Sys2Proof.Machine
end

