-- ==== Sys2Proof/Laws/Units.lean ====
section
/-! SUPPORT. Laws of the units: lanes and masks, the threads of a wave, its mask registers and registers, and the waves
of the state. -/

namespace Sys2Proof.Machine

/-! ## Lanes and masks -/

@[simp] theorem mem_lanesOf {m : LaneMask} {l : Nat} : l ∈ lanesOf m ↔ l < 32 ∧ m.getLsbD l = true := by
  simp [lanesOf]

theorem lanesOf_nodup (m : LaneMask) : (lanesOf m).Nodup := List.Nodup.filter _ List.nodup_range

@[simp] theorem getLsbD_laneBit {l k : Nat} : (laneBit l).getLsbD k = (decide (k < 32) && decide (k = l)) := by
  unfold laneBit
  rw [BitVec.getLsbD_shiftLeft]
  by_cases hk : k < 32 <;> by_cases h : k = l
  · subst h; simp [hk]
  · by_cases hlt : k < l
    · simp [hk, h, hlt]
    · have : k - l ≠ 0 := by omega
      simp [hk, h, hlt, this]
  · simp [hk]
  · simp [hk]

/-- The lanes below `n` that satisfy `f`, as the fold of `maskBy` collects them. -/
theorem getLsbD_maskFold (f : Nat → Bool) (n l : Nat) (hn : n ≤ 32) :
    ((List.range n).foldl (fun m i => if f i then m ||| (1#32 <<< i) else m) 0#32).getLsbD l = (decide (l < n) && f l) := by
  induction n with
  | zero => simp
  | succ n ih =>
    rw [List.range_succ, List.foldl_append]
    simp only [List.foldl_cons, List.foldl_nil]
    have ih := ih (by omega)
    by_cases hl : l = n
    · subst hl
      by_cases hf : f l
      · have := @getLsbD_laneBit l l
        simp only [laneBit] at this
        simp [hf, show l < 32 by omega]
      · simp [hf, ih]
    · have hiff : decide (l ≤ n) = decide (l < n) := by
        simp only [decide_eq_decide]; omega
      by_cases hf : f n
      · have := @getLsbD_laneBit n l
        simp only [laneBit] at this
        simp [hf, this, hl, ih, hiff]
      · simp [hf, ih, hiff]

@[simp] theorem getLsbD_maskBy (f : Nat → Bool) (l : Nat) : (maskBy f).getLsbD l = (decide (l < 32) && f l) :=
  getLsbD_maskFold f 32 l (Nat.le_refl _)

theorem laneMask_ext {a b : LaneMask} (h : ∀ l, l < 32 → a.getLsbD l = b.getLsbD l) : a = b :=
  BitVec.eq_of_getLsbD_eq h

theorem lowest_mem {m : LaneMask} (h : m ≠ 0) : lowest m < 32 ∧ m.getLsbD (lowest m) = true := by
  have hne : lanesOf m ≠ [] := by
    intro he
    apply h
    apply laneMask_ext
    intro l hl
    have : l ∉ lanesOf m := by simp [he]
    simpa [hl] using this
  obtain ⟨x, xs, hx⟩ := List.exists_cons_of_ne_nil hne
  have : lowest m ∈ lanesOf m := by simp [lowest, hx]
  simpa using this

/-! ## Threads -/

@[simp] theorem length_mapLanes (w : Wave) (m : LaneMask) (f : Nat → Thread → Thread) :
    (w.mapLanes m f).threads.length = w.threads.length := by simp [Wave.mapLanes]

theorem thread_mapLanes (w : Wave) (m : LaneMask) (f : Nat → Thread → Thread) (l : Nat) :
    (w.mapLanes m f).thread l = if m.getLsbD l = true ∧ l < w.threads.length then f l (w.thread l) else w.thread l := by
  unfold Wave.mapLanes Wave.thread
  simp only [List.getD_eq_getElem?_getD, List.getElem?_mapIdx]
  by_cases hl : l < w.threads.length
  · simp [hl]
  · simp [hl]

/-- A lane whose thread runs exists. -/
theorem lt_of_running {w : Wave} {l : Nat} (h : (w.thread l).st ≠ .ended) : l < w.threads.length := by
  by_contra hl
  apply h
  simp [Wave.thread, List.getD_eq_getElem?_getD, List.getElem?_eq_none (Nat.le_of_not_lt hl)]

/-! ## Mask registers -/

theorem kbit_setK (w : Wave) (m : LaneMask) (k k' : Mask) (f : Nat → Bool) (l : Nat) :
    (w.setK m k f).kbit k' l = if k' = k ∧ m.getLsbD l = true then f l else w.kbit k' l := by
  unfold Wave.setK Wave.kbit
  by_cases hk : k' = k
  · subst hk
    simp only [Map.get_set_same, getLsbD_maskBy, true_and]
    by_cases hl : l < 32
    · simp [hl, Wave.kreg]
    · simp [hl, BitVec.getLsbD_of_ge _ l (Nat.le_of_not_lt hl)]
  · have : k'.val ≠ k.val := fun e => hk (Fin.ext e)
    simp [this, hk]

/-! ## Waves of the state -/

theorem wave?_id {s : State} {id : Nat} {w : Wave} (h : s.wave? id = some w) : w.id = id := by
  have := List.find?_some h
  simpa using this

theorem wave?_mem {s : State} {id : Nat} {w : Wave} (h : s.wave? id = some w) : w ∈ s.waves := List.mem_of_find?_eq_some h

theorem find?_modBy {l : List Wave} {id id' : Nat} {f : Wave → Wave} (hf : ∀ w, (f w).id = w.id) :
    (modBy l (fun w => w.id == id) f).find? (fun w => w.id == id') =
      (l.find? (fun w => w.id == id')).map fun w => if id' = id then f w else w := by
  induction l with
  | nil => rfl
  | cons v l ih =>
    unfold modBy at ih ⊢
    by_cases h1 : v.id = id <;> by_cases h2 : v.id = id'
    · subst h1; subst h2; simp [hf]
    · subst h1
      simp only [List.map_cons, ↓reduceIte, hf, beq_iff_eq, h2, not_false_eq_true,
        List.find?_cons_of_neg]
      simpa using ih
    · subst h2; simp [h1]
    · simp only [List.map_cons, beq_iff_eq, h1, ↓reduceIte, h2, not_false_eq_true, List.find?_cons_of_neg]
      simpa using ih

theorem wave?_modWave {s : State} {id id' : Nat} {f : Wave → Wave} (hf : ∀ w, (f w).id = w.id) :
    (s.modWave id f).wave? id' = (s.wave? id').map fun w => if id' = id then f w else w :=
  find?_modBy hf

theorem modWave_modWave (u : State) (id : Nat) (F G : Wave → Wave) (hF : ∀ v, (F v).id = v.id) :
    (u.modWave id F).modWave id G = u.modWave id fun v => G (F v) := by
  unfold State.modWave modBy
  simp only [List.map_map]
  congr 1
  apply List.map_congr_left
  intro v _
  simp only [Function.comp]
  by_cases h : v.id = id <;> simp [h, hF]

end Sys2Proof.Machine
end

