-- ==== Sys2Proof/Laws/Settle.lean ====
section
/-! SUPPORT. What the release of held threads (R223) can do, said once: `settle_settled` and `testGrants_settled`. -/

namespace Sys2Proof.Machine

theorem ThreadKept.refl (t : Thread) : ThreadKept t t := .same t

theorem ThreadKept.trans {a b c : Thread} (h : ThreadKept a b) (h' : ThreadKept b c) : ThreadKept a c := by
  induction h with
  | same _ => exact h'
  | release hs hl _ ih => exact .release hs hl (ih h')

/-- One release. -/
theorem ThreadKept.one {t : Thread} {h : Hold} (hs : t.st = .held h) (hl : h ≠ .leave) :
    ThreadKept t { t with count := 0 }.goOn := .release hs hl (.same _)

theorem goOn_eq (t : Thread) : t.goOn = { t with st := t.goOn.st, todo := t.goOn.todo } := by
  unfold Thread.goOn; split <;> rfl

theorem goOn_v (t : Thread) (x : Map Word) : ({ t with v := x } : Thread).goOn = { t.goOn with v := x } := by
  obtain ⟨pc, st, v, ih, rc, ro, g, n, ps, pk, rs, aq, rl, cd, td, kp, gr⟩ := t
  cases td with
  | nil => rfl
  | cons y ys => cases y <;> rfl

/-- A release changes a thread's state, wait count and what it still has to do, and nothing else. -/
theorem ThreadKept.eq {a b : Thread} (h : ThreadKept a b) : b = { a with st := b.st, count := b.count, todo := b.todo } := by
  induction h with
  | same _ => rfl
  | release _ _ _ ih => rw [ih, goOn_eq]

theorem ThreadKept.v {a b : Thread} (h : ThreadKept a b) : b.v = a.v := by rw [h.eq]
theorem ThreadKept.gen {a b : Thread} (h : ThreadKept a b) : b.gen = a.gen := by rw [h.eq]

theorem ThreadKept.withV {a b : Thread} (h : ThreadKept a b) (x : Map Word) : ThreadKept { a with v := x } { b with v := x } := by
  induction h with
  | same _ => exact .same _
  | @release t t' y hs hl _ ih =>
    refine .release (h := y) hs hl ?_
    rw [← goOn_v] at ih
    exact ih

/-- A thread that is not held is not touched by a release. -/
theorem ThreadKept.of_run {a b : Thread} (h : ThreadKept a b) (hr : ∀ x, a.st ≠ .held x) : b = a := by
  cases h with
  | same _ => rfl
  | release hs => exact absurd hs (hr _)

theorem waits_held {t : Thread} {h : Hold} (hs : t.st = .held h) (hl : h ≠ .leave) : t.waits h := ⟨hl, .inl hs⟩

/-- A hold after a release is one that the thread waited for before. -/
theorem ThreadKept.waits {a b : Thread} {h : Hold} (k : ThreadKept a b) (hb : b.waits h) : a.waits h := by
  induction k with
  | same _ => exact hb
  | @release t t' y hs _ _ ih =>
    obtain ⟨hl, hw⟩ := ih hb
    refine ⟨hl, .inr ⟨⟨y, hs⟩, ?_⟩⟩
    obtain ⟨pc, st, v, i, rc, ro, g, n, ps, pk, rs, aq, rl, cd, td, kp, gr⟩ := t
    cases td with
    | nil => simp [Thread.goOn] at hw
    | cons z zs =>
      cases z <;> simp [Thread.goOn] at hw ⊢
      · rcases hw with rfl | hw
        · exact .inl rfl
        · exact .inr hw
      all_goals exact hw.resolve_left fun e => hl e.symm

theorem WaveKept.refl (s : State) (v : Wave) : WaveKept s v v where
  rest := rfl
  length := rfl
  threads _ := .refl _
  regs _ := by simp
  masks _ _ := .inl rfl
  monitor := .inl rfl
  grant := ⟨Nat.le_refl _, .inl rfl⟩
  pend := ⟨[], by simp⟩

theorem WaveKept.id {s : State} {v v' : Wave} (h : WaveKept s v v') : v'.id = v.id := by rw [h.rest]
theorem WaveKept.gang {s : State} {v v' : Wave} (h : WaveKept s v v') : v'.gang = v.gang := by rw [h.rest]

theorem WaveKept.waits {s : State} {v v' : Wave} (h : WaveKept s v v') {l : Nat} {x : Hold} (hw : (v'.thread l).waits x) :
    (v.thread l).waits x := (h.threads l).waits (b := { v'.thread l with v := (v.thread l).v }) hw

theorem filter_both {v : Map Word} {a b : Nat} (h : a ≤ b) :
    (v.filter fun x => x.1 < a).filter (fun x => x.1 < b) = v.filter fun x => x.1 < a := by
  rw [List.filter_filter]
  apply List.filter_congr
  intro x _
  by_cases hx : x.1 < a
  · simp [hx, Nat.lt_of_lt_of_le hx h]
  · simp [hx]

theorem WaveKept.trans {s : State} {a b c : Wave} (h : WaveKept s a b) (h' : WaveKept s b c) : WaveKept s a c where
  rest := by rw [h'.rest, h.rest]
  length := h'.length.trans h.length
  threads l := (h.threads l).trans ((h'.threads l).withV (a.thread l).v)
  regs l := by
    have h1 := h.grant.1
    have h2 := h'.grant.1
    rw [h'.regs, h.regs]
    by_cases e1 : b.grant = a.grant
    · rw [e1]; simp
    · by_cases e2 : c.grant = b.grant
      · simp [e1, e2]
      · have e3 : c.grant ≠ a.grant := by omega
        simp only [e1, e2, e3, ↓reduceIte]
        exact filter_both h1
  masks k l := by
    rcases h'.masks k l with e | ⟨e, e'⟩
    · rw [e]; exact h.masks k l
    · exact .inr ⟨h.waits e, e'⟩
  monitor := by
    rcases h'.monitor with e | ⟨e, l, e'⟩
    · rw [e]; exact h.monitor
    · exact .inr ⟨e, l, h.waits e'⟩
  grant := by
    refine ⟨Nat.le_trans h.grant.1 h'.grant.1, ?_⟩
    rcases h'.grant.2 with e | e
    · rw [e]; exact h.grant.2
    · exact .inr (h.id ▸ e)
  pend := by
    obtain ⟨ps, e, hp⟩ := h.pend
    obtain ⟨qs, e', hq⟩ := h'.pend
    refine ⟨ps ++ qs, by rw [e', e, List.append_assoc], ?_⟩
    rw [h.id] at hq
    rcases hp with rfl | hp
    · simpa using hq
    · exact .inr hp

theorem GangKept.refl (s : State) (g : Gang) : GangKept s g g := ⟨rfl, .inl rfl⟩

theorem GangKept.trans {s : State} {a b c : Gang} (h : GangKept s a b) (h' : GangKept s b c) : GangKept s a c := by
  have hid : b.id = a.id := by rw [h.1]
  refine ⟨by rw [h'.1, h.1], ?_⟩
  rcases h'.2 with e | e
  · rw [e]; exact h.2
  · exact .inr (hid ▸ e)

theorem forall₂_refl {α : Type} {R : α → α → Prop} (h : ∀ x, R x x) : ∀ l : List α, List.Forall₂ R l l
  | [] => .nil
  | x :: l => .cons (h x) (forall₂_refl h l)

theorem forall₂_trans {α : Type} {R : α → α → Prop} (h : ∀ x y z, R x y → R y z → R x z) :
    ∀ {a b c : List α}, List.Forall₂ R a b → List.Forall₂ R b c → List.Forall₂ R a c
  | _, _, _, .nil, .nil => .nil
  | _, _, _, .cons x xs, .cons y ys => .cons (h _ _ _ x y) (forall₂_trans h xs ys)

theorem forall₂_map {α : Type} {R : α → α → Prop} {f : α → α} (h : ∀ x, R x (f x)) : ∀ l : List α, List.Forall₂ R l (l.map f)
  | [] => .nil
  | x :: l => .cons (h x) (forall₂_map h l)

theorem forall₂_mem {α : Type} {R : α → α → Prop} {y : α} : ∀ {a b : List α}, List.Forall₂ R a b → y ∈ b → ∃ x ∈ a, R x y
  | _, _, .cons h hs, hy => by
    rcases List.mem_cons.mp hy with rfl | hy
    · exact ⟨_, by simp, h⟩
    · obtain ⟨x, hx, hr⟩ := forall₂_mem hs hy
      exact ⟨x, by simp [hx], hr⟩

theorem Settled.refl (s : State) : Settled s s := ⟨rfl, forall₂_refl (WaveKept.refl s) _, forall₂_refl (GangKept.refl s) _⟩

/-- A hold after a release was there before. -/
theorem Settled.holding {s t : State} (h : Settled s t) {id : Nat} {p : Hold → Prop} (k : t.holding id p) : s.holding id p := by
  obtain ⟨v', hv', hid, l, x, hx, hp⟩ := k
  obtain ⟨v, hv, hk⟩ := forall₂_mem h.waves hv'
  exact ⟨v, hv, hk.id ▸ hid, l, x, hk.waits hx, hp⟩

theorem WaveKept.mono {s t : State} (h : Settled s t) {v v' : Wave} (k : WaveKept t v v') : WaveKept s v v' :=
  { k with
    grant := ⟨k.grant.1, k.grant.2.imp_right h.holding⟩
    pend := by obtain ⟨ps, e, hp⟩ := k.pend; exact ⟨ps, e, hp.imp_right h.holding⟩ }

theorem GangKept.mono {s t : State} (h : Settled s t) {g g' : Gang} (k : GangKept t g g') : GangKept s g g' := by
  refine ⟨k.1, k.2.imp_right ?_⟩
  rintro ⟨v', hv', hg, l, x, hx, hp⟩
  obtain ⟨v, hv, hk⟩ := forall₂_mem h.waves hv'
  exact ⟨v, hv, hk.gang ▸ hg, l, x, hk.waits hx, hp⟩

theorem forall₂_imp {α : Type} {R S : α → α → Prop} (h : ∀ x y, R x y → S x y) :
    ∀ {a b : List α}, List.Forall₂ R a b → List.Forall₂ S a b
  | _, _, .nil => .nil
  | _, _, .cons x xs => .cons (h _ _ x) (forall₂_imp h xs)

theorem Settled.trans {a b c : State} (h : Settled a b) (h' : Settled b c) : Settled a c where
  rest := by rw [h'.rest, h.rest]
  waves := forall₂_trans (R := WaveKept a) (fun _ _ _ => WaveKept.trans) h.waves
    (forall₂_imp (S := WaveKept a) (fun _ _ => WaveKept.mono h) h'.waves)
  gangs := forall₂_trans (R := GangKept a) (fun _ _ _ => GangKept.trans) h.gangs
    (forall₂_imp (S := GangKept a) (fun _ _ => GangKept.mono h) h'.gangs)

theorem Settled.foldl {α : Type} {f : State → α → State} (h : ∀ s x, Settled s (f s x)) :
    ∀ (l : List α) (s : State), Settled s (l.foldl f s)
  | [], s => .refl s
  | x :: l, s => (h s x).trans (Settled.foldl h l (f s x))

theorem freshen_settled (s : State) : Settled s s.freshen :=
  ⟨rfl, forall₂_refl (WaveKept.refl s) _, forall₂_refl (GangKept.refl s) _⟩

/-- Waves changed one by one, each only as a release may change it. -/
theorem modBy_settled {s : State} {p : Wave → Bool} {f : Wave → Wave} (h : ∀ v ∈ s.waves, p v = true → WaveKept s v (f v)) :
    Settled s { s with waves := modBy s.waves p f } := by
  refine ⟨rfl, ?_, forall₂_refl (GangKept.refl s) _⟩
  have : ∀ l : List Wave, (∀ v ∈ l, v ∈ s.waves) → List.Forall₂ (WaveKept s) l (modBy l p f) := by
    intro l
    induction l with
    | nil => intro _; exact .nil
    | cons v l ih =>
      intro hm
      refine .cons ?_ (ih fun x hx => hm x (by simp [hx]))
      by_cases hp : p v = true
      · simpa [hp] using h v (hm v (by simp)) hp
      · simpa [hp] using WaveKept.refl s v
  exact this _ fun _ hv => hv

/-! ## The releases of one wave -/

theorem heldBy_held {w : Wave} {p : Hold → Bool} {l : Nat} (h : (w.heldBy p).getLsbD l = true) :
    ∃ x, (w.thread l).st = .held x ∧ p x = true := by
  simp only [Wave.heldBy, getLsbD_maskBy, Bool.and_eq_true] at h
  unfold Thread.hold? at h
  cases hs : (w.thread l).st with
  | run => simp [hs] at h
  | ended => simp [hs] at h
  | held x => exact ⟨x, rfl, by simpa [hs] using h.2⟩

/-- Releasing held threads. -/
theorem release_kept (s : State) {w : Wave} {m : LaneMask}
    (h : ∀ l, m.getLsbD l = true → ∃ x, (w.thread l).st = .held x ∧ x ≠ .leave) : WaveKept s w (w.release m) := by
  have hth : ∀ l, ThreadKept (w.thread l) ((w.release m).thread l) := fun l => by
    rw [Wave.release, thread_mapLanes]
    split
    · next hl =>
      obtain ⟨x, hx, hne⟩ := h l hl.1
      exact .one hx hne
    · exact .refl _
  exact {
    rest := rfl
    length := length_mapLanes ..
    threads := fun l => by
      have := hth l
      rw [← this.v]; exact this
    regs := fun l => by rw [(hth l).v]; simp [Wave.release, Wave.mapLanes]
    masks := fun _ _ => .inl rfl
    monitor := .inl rfl
    grant := ⟨Nat.le_refl _, .inl rfl⟩
    pend := ⟨[], by simp [Wave.release, Wave.mapLanes]⟩ }

theorem releaseHeld_kept (s : State) (w : Wave) (p : Hold → Bool) (hp : p .leave = false) : WaveKept s w (w.release (w.heldBy p)) :=
  release_kept s fun _ h => by
    obtain ⟨x, hx, hpx⟩ := heldBy_held h
    exact ⟨x, hx, by rintro rfl; rw [hp] at hpx; cases hpx⟩

theorem testK_kept (s : State) (w : Wave) (k : Mask) : WaveKept s w (w.testK k) := by
  unfold Wave.testK
  simp only
  split
  · refine (?_ : WaveKept s w _).trans (release_kept s ?_)
    · refine { WaveKept.refl s w with rest := rfl, masks := fun k' l => ?_ }
      rw [kbit_setK]
      split
      · next h =>
        obtain ⟨x, hx, hp⟩ := heldBy_held h.2
        refine .inr ⟨waits_held (by rw [h.1, hx]; simpa using hp) (by simp), rfl⟩
      · exact .inl rfl
    · intro l h
      obtain ⟨x, hx, hp⟩ := heldBy_held h
      exact ⟨x, hx, by rintro rfl; simp at hp⟩
  · exact .refl s w

theorem testMasks_kept (s : State) (w : Wave) : WaveKept s w w.testMasks := by
  unfold Wave.testMasks
  generalize List.finRange 12 = ks
  induction ks generalizing w with
  | nil => exact .refl s w
  | cons k ks ih => exact (testK_kept s w k).trans (ih _)

theorem heldBy_ne {w : Wave} {p : Hold → Bool} (h : w.heldBy p ≠ 0) : ∃ l x, (w.thread l).st = .held x ∧ p x = true := by
  obtain ⟨x, hx⟩ := heldBy_held (lowest_mem h).2
  exact ⟨_, x, hx⟩

theorem testMonitor_kept (s : State) (w : Wave) : WaveKept s w w.testMonitor := by
  have hrel : WaveKept s w (w.release (w.heldBy (· == .waitm))) := releaseHeld_kept s w _ rfl
  unfold Wave.testMonitor
  simp only
  split
  · exact .refl s w
  · next hne =>
    obtain ⟨l, x, hx, hp⟩ := heldBy_ne (p := (· == .waitm)) (by simpa using hne)
    split
    · next m hm =>
      split
      · exact { hrel with rest := rfl, monitor := .inr ⟨rfl, l, waits_held (by rw [hx]; simpa using hp) (by simp)⟩ }
      · exact .refl s w
    · exact hrel

/-- A grant raised for an XACQ that waits in the wave. -/
theorem raise_kept {s : State} {w : Wave} (t : Nat) (h : s.holding w.id Hold.isXacq) : WaveKept s w (w.raise t) := by
  unfold Wave.raise
  split
  · exact .refl s w
  · next hlt =>
    have hth : ∀ l, ({ w with grant := t, threads := w.threads.map fun h => { h with v := h.v.filter fun x => x.1 < w.grant } } :
        Wave).thread l = { w.thread l with v := (w.thread l).v.filter fun x => x.1 < w.grant } := by
      intro l
      simp only [Wave.thread, List.getD_eq_getElem?_getD, List.getElem?_map]
      cases w.threads[l]? <;> rfl
    exact {
      rest := rfl
      length := by simp
      threads := fun l => by rw [hth]; exact .refl _
      regs := fun l => by rw [hth]; simp [show t ≠ w.grant by omega]
      masks := fun _ _ => .inl rfl
      monitor := .inl rfl
      grant := ⟨by show w.grant ≤ t; omega, .inr h⟩
      pend := ⟨[], by simp⟩ }

/-! ## The releases of a gang and of a track -/

theorem testBarriers_settled (s : State) (gid : Nat) : Settled s (s.testBarriers gid) :=
  modBy_settled fun v _ _ => releaseHeld_kept s v _ rfl

theorem testRinks_settled (s : State) (gid : Nat) : Settled s (s.testRinks gid) := by
  unfold State.testRinks
  split
  · exact .refl s
  · exact modBy_settled fun v _ _ => releaseHeld_kept s v _ rfl

theorem settle_waves_settled (s : State) (gid : Nat) :
    Settled s { s with waves := modBy s.waves (fun w => w.gang == gid) fun w =>
      w.testMonitor.testMasks } :=
  modBy_settled fun v _ _ => (testMonitor_kept s v).trans (testMasks_kept s _)

/-! ### Full-empty waits

Relative to a state `b` in which the threads are held: several of them are released in one round. -/

/-- `Settled`, with the holds read in another state. -/
structure SettledIn (b s t : State) : Prop where
  rest  : t = { s with waves := t.waves, gangs := t.gangs, fresh := t.fresh, picks := t.picks, nextId := t.nextId }
  waves : List.Forall₂ (WaveKept b) s.waves t.waves
  gangs : List.Forall₂ (GangKept b) s.gangs t.gangs

theorem SettledIn.settled {s t : State} (h : SettledIn s s t) : Settled s t := ⟨h.rest, h.waves, h.gangs⟩

theorem SettledIn.refl (b s : State) : SettledIn b s s :=
  ⟨rfl, forall₂_refl (WaveKept.refl b) _, forall₂_refl (GangKept.refl b) _⟩

theorem SettledIn.trans {b s t u : State} (h : SettledIn b s t) (h' : SettledIn b t u) : SettledIn b s u where
  rest := by rw [h'.rest, h.rest]
  waves := forall₂_trans (R := WaveKept b) (fun _ _ _ => WaveKept.trans) h.waves h'.waves
  gangs := forall₂_trans (R := GangKept b) (fun _ _ _ => GangKept.trans) h.gangs h'.gangs

theorem modWave_in {b s : State} {id : Nat} {f : Wave → Wave} (h : ∀ v, v.id = id → WaveKept b v (f v)) :
    SettledIn b s (s.modWave id f) := by
  refine ⟨rfl, forall₂_map (fun v => ?_) s.waves, forall₂_refl (GangKept.refl b) _⟩
  split
  · next hv => exact h v (by simpa using hv)
  · exact .refl b v

theorem modGang_in {b s : State} {id : Nat} {f : Gang → Gang} (h : ∀ g, g.id = id → GangKept b g (f g)) :
    SettledIn b s (s.modGang id f) := by
  refine ⟨rfl, forall₂_refl (WaveKept.refl b) _, forall₂_map (fun g => ?_) s.gangs⟩
  split
  · next hg => exact h g (by simpa using hg)
  · exact .refl b g

theorem gangOf_id (s : State) (w : Wave) : (s.gangOf w).id = w.gang := by
  unfold State.gangOf
  cases h : s.gang? w.gang with
  | none => rfl
  | some g => simpa using List.find?_some h

/-- One full-empty access performed for a thread that is held in `b`. -/
theorem feRelease_in {b s : State} {w : Wave} {l : Nat} {f : FeWait} (hw : w ∈ b.waves)
    (hl : (w.thread l).st = .held (.fe f)) : SettledIn b s (s.feRelease (w, l, f)) := by
  have hwt := waits_held hl (by simp)
  have hfe : b.holding w.id Hold.isFe := ⟨w, hw, rfl, l, _, hwt, trivial⟩
  have hgang : ∀ (f' : Gang → Gang) (s : State), (∀ g, f' g = { g with spad := (f' g).spad, spadPoison := (f' g).spadPoison, full := (f' g).full }) →
      SettledIn b s (s.modGang w.gang f') := fun f' s hf => modGang_in fun g hg =>
    ⟨hf g, .inr ⟨w, hw, hg.symm, l, _, hwt, trivial⟩⟩
  refine SettledIn.trans (t := s.fePerform w l f) ?_ (modWave_in fun v _ => release_kept b fun k hk => ?_)
  · unfold State.fePerform
    simp only [gangOf_id]
    split
    · have hadd : ∀ p, SettledIn b s (({ s with nextId := s.nextId + 1 } : State).addPending w.id p) := fun p =>
        SettledIn.trans (t := { s with nextId := s.nextId + 1 })
          ⟨rfl, forall₂_refl (WaveKept.refl b) _, forall₂_refl (GangKept.refl b) _⟩
          (modWave_in fun v hv => { WaveKept.refl b v with rest := rfl, pend := ⟨[p], rfl, .inr (hv ▸ hfe)⟩ })
      split
      · exact (hadd _).trans (hgang _ _ fun _ => rfl)
      · exact hadd _
    · exact hgang _ _ fun _ => rfl
  · simp only [BitVec.getLsbD_and, Bool.and_eq_true] at hk
    obtain ⟨x, hx, hp⟩ := heldBy_held hk.2
    exact ⟨x, hx, by rintro rfl; simp [Hold.forFe] at hp⟩

theorem feWaits_mem {s : State} {gid : Nat} {x : Wave × Nat × FeWait} (h : x ∈ s.feWaits gid) :
    x.1 ∈ s.waves ∧ (x.1.thread x.2.1).st = .held (.fe x.2.2) := by
  simp only [State.feWaits, State.wavesOf, List.mem_flatMap, List.mem_filter, List.mem_filterMap, List.mem_range] at h
  obtain ⟨w, ⟨hw, _⟩, l, _, h⟩ := h
  unfold Thread.hold? at h
  cases hs : (w.thread l).st with
  | run => simp [hs] at h
  | ended => simp [hs] at h
  | held y =>
    cases y <;> simp [hs] at h
    subst h
    exact ⟨hw, hs⟩

theorem feFold_in {b : State} : ∀ (xs : List (Wave × Nat × FeWait)) (s : State),
    (∀ x ∈ xs, x.1 ∈ b.waves ∧ (x.1.thread x.2.1).st = .held (.fe x.2.2)) → SettledIn b s (xs.foldl State.feRelease s)
  | [], s, _ => .refl b s
  | x :: xs, s, h =>
    (feRelease_in (h x (by simp)).1 (h x (by simp)).2).trans (feFold_in xs _ fun y hy => h y (by simp [hy]))

theorem testGranules_settled (gid : Nat) : ∀ (n : Nat) (s : State), Settled s (State.testGranules gid n s)
  | 0, s => .refl s
  | n + 1, s => by
    unfold State.testGranules
    split
    · exact .refl s
    · next g _ =>
      have hall : ∀ x ∈ (s.feWaits gid).filter (fun x => g.feReady x.2.2), x.1 ∈ s.waves ∧
          (x.1.thread x.2.1).st = .held (.fe x.2.2) := fun x hx => feWaits_mem (List.mem_filter.mp hx).1
      have hkeep := feFold_in (b := s) (((s.feWaits gid).filter fun x => g.feReady x.2.2).filter
        fun x => x.2.2.load && !x.2.2.take) s fun x hx => hall x (List.mem_filter.mp hx).1
      have htake : ∀ x ∈ firstTurns (((s.feWaits gid).filter fun x => g.feReady x.2.2).filter
        fun x => !(x.2.2.load && !x.2.2.take)), x.1 ∈ s.waves ∧ (x.1.thread x.2.1).st = .held (.fe x.2.2) :=
        fun x hx => hall x (List.mem_filter.mp (List.mem_filter.mp hx).1).1
      simp only
      split
      · exact hkeep.settled
      · next x hx =>
        have := htake x (by rw [hx]; simp)
        exact (hkeep.trans (feRelease_in this.1 this.2)).settled.trans (testGranules_settled gid n _)
      · next x xs _ hx =>
        refine ((hkeep.trans ?_).settled).trans (testGranules_settled gid n _)
        refine SettledIn.trans (t := (State.picked _)) (⟨rfl, forall₂_refl (WaveKept.refl s) _, forall₂_refl (GangKept.refl s) _⟩) ?_
        have hmem : ∀ k, (x :: xs).getD k x ∈ x :: xs := by
          intro k
          rw [List.getD_eq_getElem?_getD]
          by_cases hk : k < (x :: xs).length
          · rw [List.getElem?_eq_getElem hk]; exact List.getElem_mem hk
          · rw [List.getElem?_eq_none (by omega)]; simp
        have hall : ∀ y ∈ x :: xs, y.1 ∈ s.waves ∧ (y.1.thread y.2.1).st = .held (.fe y.2.2) := hx ▸ htake
        exact feRelease_in (hall _ (hmem _)).1 (hall _ (hmem _)).2

theorem settleOnce_settled (s : State) (gid : Nat) : Settled s (s.settleOnce gid) :=
  (((settle_waves_settled s gid).trans (testBarriers_settled _ gid)).trans (testRinks_settled _ gid)).trans
    (testGranules_settled gid _ _)

theorem settleN_settled (gid : Nat) : ∀ (n : Nat) (s : State), Settled s (State.settleN gid n s)
  | 0, s => .refl s
  | n + 1, s => (settleOnce_settled s gid).trans (settleN_settled gid n _)

/-- The end of a cycle for a gang (R223) releases held threads and does nothing else. -/
theorem settle_settled (s : State) (gid : Nat) : Settled s (s.settle gid) := by
  unfold State.settle
  split
  · exact .refl s
  · split
    · exact .refl s
    · exact settleN_settled gid _ s

/-! ### XACQs -/

theorem firstXacq_mem : ∀ {xs : List (Nat × Nat × Nat)} {x}, firstXacq xs = some x → x ∈ xs := by
  intro xs
  unfold firstXacq
  suffices h : ∀ (b : Option (Nat × Nat × Nat)) x, xs.foldl (fun b x => match b with
      | none => some x | some y => if x.2.2 < y.2.2 then some x else some y) b = some x → x ∈ xs ∨ b = some x by
    intro x hx
    rcases h none x hx with h | h
    · exact h
    · cases h
  induction xs with
  | nil => intro b x h; exact .inr h
  | cons y ys ih =>
    intro b x h
    rcases ih _ x h with h | h
    · exact .inl (by simp [h])
    · cases b with
      | none => simp at h; exact .inl (by simp [h])
      | some z =>
        simp only at h
        split at h
        · simp at h; exact .inl (by simp [h])
        · exact .inr h

theorem xacqs_mem {s : State} {t : Nat} {x : Nat × Nat × Nat} (h : x ∈ s.xacqs t) :
    ∃ w ∈ s.waves, w.id = x.1 ∧ ∃ l, (w.thread l).st = .held (.xacq x.2.1 x.2.2) := by
  simp only [State.xacqs, List.mem_flatMap, List.mem_filter, List.mem_eraseDups, List.mem_filterMap, List.mem_range] at h
  obtain ⟨w, ⟨hw, _⟩, l, _, h⟩ := h
  unfold Thread.hold? at h
  cases hs : (w.thread l).st with
  | run => simp [hs] at h
  | ended => simp [hs] at h
  | held y =>
    cases y <;> simp [hs] at h
    subst h
    exact ⟨w, hw, rfl, l, hs⟩

theorem nextXacq_mem {s : State} {t : Nat} {x : Nat × Nat × Nat} (h : s.nextXacq t = some x) : x ∈ s.xacqs t := by
  unfold State.nextXacq at h
  simp only at h
  split at h
  · next y hy => cases h; exact (List.mem_filter.mp (firstXacq_mem hy)).1
  · exact firstXacq_mem h

theorem servable_mem {s : State} {t : Nat} {x : Nat × Nat × Nat} (h : s.servable t = some x) : x ∈ s.xacqs t :=
  nextXacq_mem (Option.filter_eq_some_iff.mp h).1

/-- A track's service of its XACQs raises grants that a held XACQ waits for and releases those threads (R28, R281). -/
theorem testGrants_settled (t : Nat) : ∀ (n : Nat) (s : State), Settled s (State.testGrants t n s)
  | 0, s => .refl s
  | n + 1, s => by
    unfold State.testGrants
    split
    · exact .refl s
    · next wid need seq hx =>
      refine Settled.trans (SettledIn.settled (modWave_in fun v hv => ?_)) (testGrants_settled t n _)
      obtain ⟨w, hw, hid, l, hl⟩ := xacqs_mem (servable_mem hx)
      refine (releaseHeld_kept s v _ (by simp)).trans (raise_kept need ?_)
      exact ⟨w, hw, hid.trans hv.symm, l, _, waits_held hl (by simp), trivial⟩

end Sys2Proof.Machine
end

