-- ==== Sys2Proof/Laws/Issue.lean ====
section
/-! SUPPORT. The issue of one word, said once: `runWord_next` reduces a word whose checks all go on to its own effect and the
end of the issue, and `finishIssue_settled` says what that end does. -/

namespace Sys2Proof.Machine

/-! ## The checks -/

theorem Issuing.waveId {s : State} {c : Issue} {w : Wave} (h : Issuing s c w) : c.wave = w.id := by rw [h.single]
theorem Issuing.phase {s : State} {c : Issue} {w : Wave} (h : Issuing s c w) : c.phase = .whole := by rw [h.single]
theorem Issuing.view {s : State} {c : Issue} {w : Wave} (h : Issuing s c w) : c.view = some w := by rw [h.single]
theorem Issuing.traps {s : State} {c : Issue} {w : Wave} (h : Issuing s c w) : c.traps = [] := by rw [h.single]
theorem Issuing.xlates {s : State} {c : Issue} {w : Wave} (h : Issuing s c w) : c.xlates = [] := by rw [h.single]
theorem Issuing.waits {s : State} {c : Issue} {w : Wave} (h : Issuing s c w) : c.waits = 0 := by rw [h.single]
theorem Issuing.holds {s : State} {c : Issue} {w : Wave} (h : Issuing s c w) : c.holds = [] := by rw [h.single]
theorem Issuing.parks {s : State} {c : Issue} {w : Wave} (h : Issuing s c w) : c.parks = [] := by rw [h.single]
theorem Issuing.targets {s : State} {c : Issue} {w : Wave} (h : Issuing s c w) : c.targets = [] := by rw [h.single]
theorem Issuing.exits {s : State} {c : Issue} {w : Wave} (h : Issuing s c w) : c.exits = 0 := by rw [h.single]
theorem Issuing.yields {s : State} {c : Issue} {w : Wave} (h : Issuing s c w) : c.yields = false := by rw [h.single]
theorem Issuing.commits {s : State} {c : Issue} {w : Wave} (h : Issuing s c w) : c.commits = 0 := by rw [h.single]
theorem Issuing.stays {s : State} {c : Issue} {w : Wave} (h : Issuing s c w) : c.stays = 0 := by rw [h.single]
theorem Issuing.leaves {s : State} {c : Issue} {w : Wave} (h : Issuing s c w) : c.leaves = [] := by rw [h.single]
theorem Issuing.pos {s : State} {c : Issue} {w : Wave} (h : Issuing s c w) : c.pos = 0 := by rw [h.single]

theorem clean_of_traps {c : Issue} (ht : c.traps = []) (hx : c.xlates = []) : c.clean = c.lanes := by
  apply laneMask_ext
  intro l hl
  simp [Issue.clean, ht, hx, hl]

theorem waiting_of_waits {c : Issue} (h : c.waits = 0) : c.waiting = 0 := by simp [Issue.waiting, h]

theorem acting_of {c : Issue} (ht : c.traps = []) (hx : c.xlates = []) (hw : c.waits = 0) : c.acting = c.lanes := by
  simp [Issue.acting, waiting_of_waits hw, clean_of_traps ht hx]

theorem note_go (c : Issue) (l n : Nat) : c.note l (n, .go) = c := rfl

/-- Every check of the word goes on. -/
def ChecksGo (s : State) (op : WordOp) (c : Issue) (w : Wave) : Prop :=
  ∀ l, c.lanes.getLsbD l = true → op.check s c w l = .go

theorem laneCause_go {s : State} {i : Instr} {op : WordOp} {c : Issue} {w : Wave} {l : Nat} (ha : Allowed s i w)
    (h : op.check s c w l = .go) : s.laneCause i op c w l = (7, .go) := by
  simp [State.laneCause, ha.1, ha.2, h]

theorem checkWord_go {s : State} {i : Instr} {op : WordOp} {c : Issue} {w : Wave} (hcur : s.cur = some c) (ha : Allowed s i w)
    (hg : ChecksGo s op c w) (hc : s.versioned (s.gangOf w) = true → op.commit s w (s.gangOf w) = false) :
    s.checkWord i op c w = s := by
  have hfold : ∀ (ls : List Nat), (∀ l ∈ ls, c.lanes.getLsbD l = true) →
      ls.foldl (fun c' l => Issue.note c' l (s.laneCause i op c w l)) c = c := by
    intro ls
    induction ls with
    | nil => intro _; rfl
    | cons l ls ih =>
      intro h
      rw [List.foldl_cons, laneCause_go ha (hg l (h l (by simp))), note_go]
      exact ih fun k hk => h k (by simp [hk])
  unfold State.checkWord
  simp only
  rw [hfold _ fun l hl => (mem_lanesOf.mp hl).2]
  have : (s.versioned (s.gangOf w) && op.commit s w (s.gangOf w)) = false := by
    cases hv : s.versioned (s.gangOf w) with
    | false => rfl
    | true => simp [hc hv]
  rw [this]
  simp [← hcur]

/-- A word whose checks all go on, and that is no commit point of a versioned gang, has its own effect in every thread that
issues it; then the issue ends. -/
theorem runWord_next {s : State} {i : Instr} {op : WordOp} {c : Issue} {w : Wave} (h : Issuing s c w) (ha : Allowed s i w)
    (hg : ChecksGo s op c w) (hc : s.versioned (s.gangOf w) = true → op.commit s w (s.gangOf w) = false) :
    runWord i op s = .next (op.act s c w c.lanes).finishIssue := by
  have hact := acting_of h.traps h.xlates h.waits
  have hne : (c.lanes == 0#32) = false := by simpa using h.lanes
  have hview := h.view
  simp [runWord, h.cur, h.wave, h.phase, checkWord_go h.cur ha hg hc, State.actWord, hview, State.commitChain, h.commits,
    hact, hne]

/-! ## The end of an issue -/

/-- A wave after the issue of `c` in which nothing trapped: its threads go on, and its lead and hints are set. -/
def Wave.issued (c : Issue) (w : Wave) : Wave :=
  let w := w.advance c
  let w := if c.acting != 0 && w.lead &&& c.lanes != 0 then { w with lead := c.newLead } else w
  let w := if c.yields && w.prog && c.acting != 0 then { w with yieldTrk := true, yieldGrp := true } else w
  w.fixLead

theorem fixLead_eq (w : Wave) : w.fixLead = { w with lead := w.fixLead.lead } := by
  unfold Wave.fixLead; split <;> rfl

/-- The state after the issue of `c`, before threads are released. -/
def State.issued (u : State) (c : Issue) : State :=
  (({ u with cur := none } : State).modWave c.wave (Wave.issued c)).freshen

theorem mapLanes_zero (w : Wave) (f : Nat → Thread → Thread) : w.mapLanes 0 f = w := by
  have : w.threads.mapIdx (fun l t => if (0 : LaneMask).getLsbD l = true then f l t else t) = w.threads := by
    apply List.ext_getElem?
    intro n
    cases h : w.threads[n]? <;> simp [h]
  unfold Wave.mapLanes
  rw [this]

theorem holdXlates_nil {c : Issue} (h : c.xlates = []) (w : Wave) : w.holdXlates c = w := by
  have : (maskBy fun l => c.xlates.any fun x => x.1 == l) = 0 := by
    apply laneMask_ext; intro l hl; simp [h]
  rw [Wave.holdXlates, this, mapLanes_zero]

theorem pickTrap_nil : pickTrap [] = none := rfl

theorem taken_nil {c : Issue} (h : c.traps = []) : c.taken = [] := by
  simp [Issue.taken, h, pickTrap_nil]

theorem takeTraps_nil (s : State) (wid : Nat) : s.takeTraps wid [] = s := by
  unfold State.takeTraps
  split
  · rfl
  · simp

/-- The end of an issue in which no thread trapped or waits: the threads go on, and held threads are released. -/
theorem finishIssue_settled {u : State} {c : Issue} {w : Wave} (hc : u.cur = some c) (hw : u.wave? c.wave = some w)
    (ht : c.traps = []) (hx : c.xlates = []) (hn : c.waits = 0) : Settled (u.issued c) u.finishIssue := by
  have hfun : (fun w : Wave => (let w := (w.advance c).holdXlates c
      let w := if c.acting != 0 && w.lead &&& c.lanes != 0 then { w with lead := c.newLead } else w
      if c.yields && w.prog && c.acting != 0 then { w with yieldTrk := true, yieldGrp := true } else w).fixLead) =
      Wave.issued c := by
    funext v; simp only [holdXlates_nil hx, Wave.issued]
  unfold State.finishIssue
  rw [hc]
  simp only [hw, waiting_of_waits hn, hx, taken_nil ht, List.foldl_nil, takeTraps_nil]
  simp only [bne_self_eq_false, Bool.false_eq_true, ↓reduceIte]
  rw [modWave_modWave _ _ _ _ (fun v => by split <;> split <;> rfl), hfun]
  split
  · exact (settle_settled _ _).trans (testGrants_settled _ _ _)
  · exact settle_settled _ _

end Sys2Proof.Machine
end

