-- ==== Sys2Proof/Laws/Lane.lean ====
section
/-! SUPPORT. Words whose whole effect is a computation in each lane, said once: `runLane_done` (the fixed class, R33). -/

namespace Sys2Proof.Machine

/-! ## Registers written -/

/-- What a list of writes leaves in a register that held `d`. -/
def written (ws : List (Reg × Word)) (r : Reg) (d : Word) : Word := ws.foldl (fun x p => if p.1 = r then p.2 else x) d

@[simp] theorem written_nil (r : Reg) (d : Word) : written [] r d = d := rfl
@[simp] theorem written_cons (p : Reg × Word) (ws : List (Reg × Word)) (r : Reg) (d : Word) :
    written (p :: ws) r d = written ws r (if p.1 = r then p.2 else d) := rfl

theorem written_of_not_mem {ws : List (Reg × Word)} {r : Reg} {d : Word} (h : r ∉ ws.map Prod.fst) : written ws r d = d := by
  induction ws generalizing d with
  | nil => rfl
  | cons p ws ih =>
    simp only [List.map_cons, List.mem_cons, not_or] at h
    rw [written_cons, if_neg (Ne.symm h.1), ih h.2]

theorem putAll_get (t : Thread) (ws : List (Reg × Word)) (n : Fin 96) :
    Map.get 0#32 (t.putAll ws).v n.val = written ws (.v n) (Map.get 0#32 t.v n.val) := by
  unfold Thread.putAll
  induction ws generalizing t with
  | nil => rfl
  | cons p ws ih =>
    rw [List.foldl_cons, ih, written_cons]
    congr 1
    obtain ⟨r, x⟩ := p
    cases r with
    | v k =>
      simp only [Thread.put, Map.get_set, Reg.v.injEq]
      by_cases h : k = n
      · simp [h]
      · have : n.val ≠ k.val := fun e => h (Fin.ext e.symm)
        simp [h, this]
    | s k => simp [Thread.put]

theorem putAll_eq (t : Thread) (ws : List (Reg × Word)) : t.putAll ws = { t with v := (t.putAll ws).v } := by
  unfold Thread.putAll
  induction ws generalizing t with
  | nil => rfl
  | cons p ws ih =>
    rw [List.foldl_cons, ih]
    obtain ⟨r, x⟩ := p
    cases r <;> rfl

theorem thread_putLanes (w : Wave) (m : LaneMask) (f : Nat → List (Reg × Word)) (l : Nat) :
    (w.putLanes m f).thread l = if m.getLsbD l = true ∧ l < w.threads.length then (w.thread l).putAll (f l) else w.thread l :=
  thread_mapLanes w m (fun l t => t.putAll (f l)) l

theorem raw_putLanes_v (w : Wave) (m : LaneMask) (f : Nat → List (Reg × Word)) (l : Nat) (n : Fin 96) :
    (w.putLanes m f).raw l (.v n) =
      if m.getLsbD l = true ∧ l < w.threads.length then written (f l) (.v n) (w.raw l (.v n)) else w.raw l (.v n) := by
  simp only [Wave.raw, thread_putLanes]
  split
  · exact putAll_get _ _ _
  · rfl

theorem raw_putLanes_s (w : Wave) (m : LaneMask) (f : Nat → List (Reg × Word)) (l : Nat) (n : Fin 32) :
    (w.putLanes m f).raw l (.s n) = w.raw l (.s n) := rfl

theorem putUniFold_s (ws : List (Reg × Word)) (w : Wave) (n : Fin 32) (hn : n ≠ 31) :
    Map.get 0#32 (ws.foldl Wave.putUni w).s n.val = written ws (.s n) (Map.get 0#32 w.s n.val) := by
  induction ws generalizing w with
  | nil => rfl
  | cons p ws ih =>
    rw [List.foldl_cons, ih, written_cons]
    congr 1
    obtain ⟨r, x⟩ := p
    cases r with
    | v k => simp [Wave.putUni]
    | s k =>
      by_cases hk : k = 31
      · have : k ≠ n := fun e => hn (e.symm.trans hk)
        simp [Wave.putUni, hk, Reg.s.injEq, Ne.symm hn]
      · simp only [Wave.putUni, hk, ↓reduceIte, Map.get_set, Reg.s.injEq]
        by_cases h : k = n
        · simp [h]
        · have : n.val ≠ k.val := fun e => h (Fin.ext e.symm)
          simp [h, this]

theorem putUniFold_eq (ws : List (Reg × Word)) (w : Wave) :
    ws.foldl Wave.putUni w = { w with s := (ws.foldl Wave.putUni w).s } := by
  induction ws generalizing w with
  | nil => rfl
  | cons p ws ih =>
    rw [List.foldl_cons, ih]
    obtain ⟨r, x⟩ := p
    cases r with
    | v k => rfl
    | s k => by_cases hk : k = 31 <;> simp [Wave.putUni, hk]

theorem putUnis_eq (w : Wave) (ws : List (Reg × Word)) :
    w.putUnis ws = { w with s := (w.putUnis ws).s, pend := (w.putUnis ws).pend } := by
  unfold Wave.putUnis
  rw [putUniFold_eq]

/-- Register `r` of lane `l` after a group wrote `f` in the lanes of `m`: s31 reads zero whatever is written (R49). -/
def writtenReg (m : LaneMask) (f : Nat → List (Reg × Word)) (w : Wave) (l : Nat) (r : Reg) : Word :=
  match r with
  | .v _ => if m.getLsbD l = true then written (f l) r (w.raw l r) else w.raw l r
  | .s n => if n = 31 then 0 else written (f (lowest m)) r (w.raw l r)

theorem mark_kept (p : Pending) (rs : List Reg) : PendingKept p (p.mark rs) := rfl

theorem PendingKept.trans {a b c : Pending} (h : PendingKept a b) (h' : PendingKept b c) : PendingKept a c := by
  unfold PendingKept at *
  rw [h', h]

theorem see_kept (p : Pending) (l : Nat) (ws : List (Reg × Word)) : PendingKept p (p.see l ws) := by
  unfold Pending.see PendingKept
  split
  · split <;> rfl
  · rfl

/-! ## applyLanes -/

/-- The masks of the fold in `applyLanes`. -/
theorem setKFold_kbit (ks : List Mask) (m : LaneMask) (g : Nat → List (Mask × Bool)) (w : Wave) (k : Mask) (l : Nat) :
    (ks.foldl (fun w k => w.setK m k fun l => ((g l).lookup k).getD false) w).kbit k l =
      if k ∈ ks ∧ m.getLsbD l = true then ((g l).lookup k).getD false else w.kbit k l := by
  induction ks generalizing w with
  | nil => simp
  | cons x ks ih =>
    rw [List.foldl_cons, ih, kbit_setK]
    by_cases hm : m.getLsbD l = true
    · by_cases h1 : k ∈ ks
      · simp [h1, hm]
      · by_cases h2 : k = x
        · subst h2; simp [hm]
        · simp [h1, h2]
    · simp [hm]

theorem setKFold_eq (ks : List Mask) (m : LaneMask) (g : Mask → Nat → Bool) (w : Wave) :
    ks.foldl (fun w k => w.setK m k (g k)) w = { w with k := (ks.foldl (fun w k => w.setK m k (g k)) w).k } := by
  induction ks generalizing w with
  | nil => rfl
  | cons x ks ih => rw [List.foldl_cons, ih]; rfl

/-- `applyLanes` without its masks and flags. -/
def Wave.applyRegs (w : Wave) (m : LaneMask) (f : Nat → LaneOut) : Wave :=
  ((w.putLanes m fun l => (f l).regs).putUnis ((f (lowest m)).regs)).mapLanes m fun l t => { t with gen := (f l).gen.getD t.gen }

theorem applyLanes_def (w : Wave) (m : LaneMask) (f : Nat → LaneOut) :
    w.applyLanes m f =
      { ((((f (lowest m)).ks).map (·.1)).foldl (fun w k => w.setK m k fun l => ((f l).ks.lookup k).getD false) (w.applyRegs m f)) with
        xstat := ((lanesOf m).map f).foldl (fun x o => x ||| o.flags)
          ((((f (lowest m)).ks).map (·.1)).foldl (fun w k => w.setK m k fun l => ((f l).ks.lookup k).getD false) (w.applyRegs m f)).xstat } :=
  rfl

theorem applyLanes_eq (w : Wave) (m : LaneMask) (f : Nat → LaneOut) :
    w.applyLanes m f = { w with s := (w.applyRegs m f).s, k := (w.applyLanes m f).k, xstat := (w.applyLanes m f).xstat,
                                pend := (w.applyRegs m f).pend, threads := (w.applyRegs m f).threads } := by
  rw [applyLanes_def, setKFold_eq _ m fun k l => ((f l).ks.lookup k).getD false]
  unfold Wave.applyRegs
  rw [putUnis_eq]
  rfl

theorem applyRegs_xstat (w : Wave) (m : LaneMask) (f : Nat → LaneOut) : (w.applyRegs m f).xstat = w.xstat := by
  unfold Wave.applyRegs
  rw [putUnis_eq]
  rfl

theorem applyRegs_kbit (w : Wave) (m : LaneMask) (f : Nat → LaneOut) (k : Mask) (l : Nat) :
    (w.applyRegs m f).kbit k l = w.kbit k l := by
  unfold Wave.applyRegs
  rw [putUnis_eq]
  rfl

/-- The flags that the lanes of `m` raise. -/
def flagsOf (m : LaneMask) (f : Nat → LaneOut) (x : Flags) : Flags := (lanesOf m).foldl (fun x l => x ||| (f l).flags) x

theorem applyLanes_xstat (w : Wave) (m : LaneMask) (f : Nat → LaneOut) :
    (w.applyLanes m f).xstat = flagsOf m f w.xstat := by
  rw [applyLanes_def, setKFold_eq _ m fun k l => ((f l).ks.lookup k).getD false]
  simp only [List.foldl_map, flagsOf, applyRegs_xstat]

theorem applyLanes_kbit (w : Wave) (m : LaneMask) (f : Nat → LaneOut) (k : Mask) (l : Nat) :
    (w.applyLanes m f).kbit k l =
      if k ∈ ((f (lowest m)).ks).map Prod.fst ∧ m.getLsbD l = true then ((f l).ks.lookup k).getD false else w.kbit k l := by
  rw [applyLanes_def, ← applyRegs_kbit w m f k l]
  exact setKFold_kbit _ m (fun l => (f l).ks) _ k l

theorem applyRegs_thread (w : Wave) (m : LaneMask) (f : Nat → LaneOut) (l : Nat) :
    (w.applyRegs m f).thread l =
      if m.getLsbD l = true ∧ l < w.threads.length then
        { w.thread l with v := ((w.thread l).putAll (f l).regs).v, gen := (f l).gen.getD (w.thread l).gen }
      else w.thread l := by
  unfold Wave.applyRegs
  rw [thread_mapLanes]
  have h1 : ∀ l, ((w.putLanes m fun l => (f l).regs).putUnis ((f (lowest m)).regs)).thread l =
      (w.putLanes m fun l => (f l).regs).thread l := by intro l; rw [putUnis_eq]; rfl
  have h2 : ((w.putLanes m fun l => (f l).regs).putUnis ((f (lowest m)).regs)).threads.length = w.threads.length := by
    rw [putUnis_eq]; exact length_mapLanes ..
  rw [h1, h2, thread_putLanes]
  split
  · rw [putAll_eq]
  · rfl

theorem applyLanes_thread (w : Wave) (m : LaneMask) (f : Nat → LaneOut) (l : Nat) :
    (w.applyLanes m f).thread l = (w.applyRegs m f).thread l := by
  rw [applyLanes_eq]; rfl

/-- The registers after a fixed-class computation. -/
theorem applyLanes_raw {w : Wave} {m : LaneMask} (f : Nat → LaneOut) (hm : ∀ l, m.getLsbD l = true → l < w.threads.length)
    (l : Nat) (r : Reg) : (w.applyLanes m f).raw l r = writtenReg m (fun l => (f l).regs) w l r := by
  cases r with
  | v n =>
    simp only [Wave.raw, applyLanes_thread, applyRegs_thread, writtenReg]
    by_cases h : m.getLsbD l = true
    · simp only [h, hm l h, and_self, ↓reduceIte]; exact putAll_get _ _ _
    · simp [h]
  | s n =>
    have hs : (w.applyLanes m f).s = (((w.putLanes m fun l => (f l).regs)).putUnis ((f (lowest m)).regs)).s := by
      rw [applyLanes_eq]; rfl
    by_cases hn : n = 31
    · simp [Wave.raw, writtenReg, hn]
    · simp only [Wave.raw, writtenReg, hn, ↓reduceIte, hs]
      exact putUniFold_s _ _ _ hn

theorem seeLane_kept (m : LaneMask) (f : Nat → List (Reg × Word)) (p : Pending) :
    PendingKept p (match p.late with
      | some (k, _) => if m.getLsbD k then p.see k (f k) else p
      | none => p) := by
  split
  · split
    · exact see_kept ..
    · rfl
  · rfl

theorem markLane_kept (m : LaneMask) (f : Nat → List (Reg × Word)) (p : Pending) :
    PendingKept p (match p.lane with
      | some l => if m.getLsbD l then p.mark ((f l).map Prod.fst) else p
      | none => p) := by
  split
  · split
    · exact mark_kept ..
    · rfl
  · rfl

theorem seeUni_kept (ws : List (Reg × Word)) (p : Pending) :
    PendingKept p (match p.late with
      | some (k, .reg (.s _)) => p.see k ws
      | _ => p) := by
  split
  · exact see_kept ..
  · rfl

theorem markUni_kept (ws : List (Reg × Word)) (p : Pending) :
    PendingKept p (if p.lane.isNone then p.mark (ws.map Prod.fst) else p) := by
  split
  · exact mark_kept ..
  · rfl

theorem putLanes_pend (w : Wave) (m : LaneMask) (f : Nat → List (Reg × Word)) :
    ∀ p ∈ w.pend, ∃ p' ∈ (w.putLanes m f).pend, PendingKept p p' := fun p hp =>
  ⟨_, List.mem_map.mpr ⟨p, hp, rfl⟩, (seeLane_kept m f p).trans (markLane_kept m f _)⟩

theorem putUnis_pend (w : Wave) (ws : List (Reg × Word)) : ∀ p ∈ w.pend, ∃ p' ∈ (w.putUnis ws).pend, PendingKept p p' := by
  intro p hp
  refine ⟨_, List.mem_map.mpr ⟨p, hp, rfl⟩, (seeUni_kept ws p).trans ?_⟩
  exact markUni_kept ws _

theorem applyRegs_pend (w : Wave) (m : LaneMask) (f : Nat → LaneOut) :
    ∀ p ∈ w.pend, ∃ p' ∈ (w.applyRegs m f).pend, PendingKept p p' := by
  intro p hp
  obtain ⟨q, hq, h⟩ := putLanes_pend w m (fun l => (f l).regs) p hp
  obtain ⟨r, hr, h'⟩ := putUnis_pend _ ((f (lowest m)).regs) q hq
  exact ⟨r, hr, h.trans h'⟩

end Sys2Proof.Machine
end

