-- ==== Sys2Proof/Laws/Frame.lean ====
section
/-! SUPPORT. The end of an issue and the frame of a word, said once: `finish_ended`, `regWord_frame`. -/

namespace Sys2Proof.Machine

theorem find?_forall₂ {b : State} {id : Nat} {v : Wave} : ∀ {xs ys : List Wave}, List.Forall₂ (WaveKept b) xs ys →
    xs.find? (fun w => w.id == id) = some v → ∃ v', ys.find? (fun w => w.id == id) = some v' ∧ WaveKept b v v'
  | _, _, .nil, h => by simp at h
  | x :: xs, y :: ys, .cons hxy hs, h => by
    by_cases hx : x.id = id
    · rw [List.find?_cons_of_pos (by simpa using hx)] at h
      cases h
      exact ⟨y, by rw [List.find?_cons_of_pos]; simpa [hxy.id] using hx, hxy⟩
    · rw [List.find?_cons_of_neg (by simpa using hx)] at h
      obtain ⟨v', hv, hk⟩ := find?_forall₂ hs h
      exact ⟨v', by rw [List.find?_cons_of_neg]; exact hv; simpa [hxy.id] using hx, hk⟩

/-- An effect on a wave that keeps its number and its gang and holds no thread by a full-empty wait or an XACQ. -/
structure Mild (F : Wave → Wave) : Prop where
  id   : ∀ v, (F v).id = v.id
  gang : ∀ v, (F v).gang = v.gang
  held : ∀ v l h, ((F v).thread l).waits h → Hold.isFe h ∨ Hold.isXacq h → (v.thread l).waits h

theorem Mild.comp {F G : Wave → Wave} (hF : Mild F) (hG : Mild G) : Mild fun v => G (F v) where
  id v := (hG.id _).trans (hF.id v)
  gang v := (hG.gang _).trans (hF.gang v)
  held v l h hh hp := hF.held v l h (hG.held _ l h hh hp) hp

/-- The end of an issue after an effect on the issuing wave alone, in a state `u` that has the word's other effects. -/
theorem settled_ended {u t : State} {id : Nat} {F : Wave → Wave} {w : Wave} (hF : Mild F) (hw : u.wave? id = some w)
    (h : Settled ((({ u with cur := none } : State).modWave id F).freshen) t) : ∃ w', Ended u (F w) t w' := by
  have hmem : ∀ {v}, v ∈ ((({ u with cur := none } : State).modWave id F).freshen).waves →
      ∃ x ∈ u.waves, x.id = v.id ∧ x.gang = v.gang ∧ ∀ l h, (v.thread l).waits h → Hold.isFe h ∨ Hold.isXacq h →
        (x.thread l).waits h := by
    intro v hv
    simp only [State.freshen, State.modWave, modBy, List.mem_map] at hv
    obtain ⟨x, hx, rfl⟩ := hv
    refine ⟨x, hx, ?_⟩
    split
    · exact ⟨(hF.id x).symm, (hF.gang x).symm, hF.held x⟩
    · exact ⟨rfl, rfl, fun _ _ h _ => h⟩
  have hold : ∀ {i : Nat} {p : Hold → Prop}, (∀ h, p h → Hold.isFe h ∨ Hold.isXacq h) →
      ((({ u with cur := none } : State).modWave id F).freshen).holding i p → u.holding i p := by
    rintro i p hp ⟨v, hv, hid, l, h, hh, hph⟩
    obtain ⟨x, hx, e, _, hk⟩ := hmem hv
    exact ⟨x, hx, e.trans hid, l, h, hk l h hh (hp h hph), hph⟩
  have mono : ∀ {v v'}, WaveKept ((({ u with cur := none } : State).modWave id F).freshen) v v' → WaveKept u v v' := by
    intro v v' k
    exact { k with
      grant := ⟨k.grant.1, k.grant.2.imp_right (hold fun _ => .inr)⟩
      pend := by obtain ⟨ps, e, hp⟩ := k.pend; exact ⟨ps, e, hp.imp_right (hold fun _ => .inl)⟩ }
  have hwv : ∀ id', ((({ u with cur := none } : State).modWave id F).freshen).wave? id' =
      (u.wave? id').map fun w => if id' = id then F w else w := fun id' => wave?_modWave (s := { u with cur := none }) hF.id
  have hid : w.id = id := wave?_id hw
  have hmine : ((({ u with cur := none } : State).modWave id F).freshen).wave? id = some (F w) := by
    rw [hwv, hw]; simp
  obtain ⟨w', hw', hk⟩ := find?_forall₂ h.waves hmine
  refine ⟨w', ?_, ?_, ?_, mono hk, ?_⟩
  · have := h.rest
    simp only [State.freshen, State.modWave] at this
    rw [this]
  · refine forall₂_imp (R := GangKept _) (S := GangKept u) (fun g g' k => ⟨k.1, k.2.imp_right ?_⟩) h.gangs
    rintro ⟨v, hv, hg, l, x, hx, hp⟩
    obtain ⟨y, hy, _, e, hkk⟩ := hmem hv
    exact ⟨y, hy, e.trans hg, l, x, hkk l x hx (.inl hp), hp⟩
  · rw [hF.id, hid]; exact hw'
  · intro i v hne hv
    rw [hF.id, hid] at hne
    have : ((({ u with cur := none } : State).modWave id F).freshen).wave? i = some v := by
      rw [hwv, hv]; simp [hne]
    obtain ⟨v', hv', hk'⟩ := find?_forall₂ h.waves this
    exact ⟨v', hv', mono hk'⟩

/-- The threads of an issue that makes no transfer, end or hold go on (R39). -/
theorem Issuing.advance {s : State} {c : Issue} {w : Wave} (h : Issuing s c w) (v : Wave) :
    v.advance c = v.mapLanes c.lanes fun _ t => { t with count := 0, pc := c.nextPc, commitDone := false } := by
  unfold Wave.advance
  rw [acting_of h.traps h.xlates h.waits]
  simp [h.parks, h.targets, h.exits, h.holds, h.stays, h.leaves, Issue.rest]

theorem issued_shape (c : Issue) (w : Wave) :
    Wave.issued c w = { w with threads := (w.advance c).threads, lead := (Wave.issued c w).lead,
                               yieldTrk := (Wave.issued c w).yieldTrk, yieldGrp := (Wave.issued c w).yieldGrp } := by
  have h : w.advance c = { w with threads := (w.advance c).threads } := rfl
  unfold Wave.issued
  simp only
  rw [h, fixLead_eq]
  split <;> split <;> rfl

theorem issued_thread (c : Issue) (w : Wave) (l : Nat) : (Wave.issued c w).thread l = (w.advance c).thread l := by
  rw [issued_shape]; rfl

theorem Issuing.mild {s : State} {c : Issue} {w : Wave} (h : Issuing s c w) : Mild (Wave.issued c) where
  id v := by rw [issued_shape]
  gang v := by rw [issued_shape]
  held v l x hst _ := by
    rw [issued_thread, h.advance, thread_mapLanes] at hst
    split at hst <;> exact hst

/-- A word whose checks go on, with an effect on the issuing wave and, in `u`, on the rest of the state. -/
theorem runWord_effect {s u : State} {i : Instr} {op : WordOp} {c : Issue} {w : Wave} {F : Wave → Wave} (h : Issuing s c w)
    (ha : Allowed s i w) (hg : ChecksGo s op c w)
    (hc : s.versioned (s.gangOf w) = true → op.commit s w (s.gangOf w) = false)
    (hact : op.act s c w c.lanes = u.modWave w.id F) (hcur : u.cur = some c) {v : Wave} (hv : u.wave? w.id = some v) (hF : Mild F) :
    ∃ t w', runWord i op s = .next t ∧ Ended u (Wave.issued c (F v)) t w' := by
  have hw' : (u.modWave w.id F).wave? c.wave = some (F v) := by
    rw [h.waveId, wave?_modWave hF.id, hv]; simp
  have hset := finishIssue_settled (u := u.modWave w.id F) (c := c) hcur hw' h.traps h.xlates h.waits
  have he : (u.modWave w.id F).issued c = (({ u with cur := none } : State).modWave w.id fun v => Wave.issued c (F v)).freshen := by
    rw [← modWave_modWave _ _ _ _ hF.id, ← h.waveId]
    rfl
  rw [he] at hset
  obtain ⟨w', hw'⟩ := settled_ended (hF.comp h.mild) hv hset
  exact ⟨_, w', by rw [runWord_next h ha hg hc, hact], hw'⟩

/-- A word whose checks go on and whose effect is one on the issuing wave. -/
theorem runWord_wave {s : State} {i : Instr} {op : WordOp} {c : Issue} {w : Wave} {F : Wave → Wave} (h : Issuing s c w)
    (ha : Allowed s i w) (hg : ChecksGo s op c w) (hc : s.versioned (s.gangOf w) = true → op.commit s w (s.gangOf w) = false)
    (hact : op.act s c w c.lanes = s.modWave w.id F) (hF : Mild F) :
    ∃ t w', runWord i op s = .next t ∧ Ended s (Wave.issued c (F w)) t w' :=
  runWord_effect h ha hg hc hact h.cur (h.waveId ▸ h.wave) hF

/-! ## Words that write registers, masks and flags -/

theorem Issuing.lt {s : State} {c : Issue} {w : Wave} (h : Issuing s c w) {l : Nat} (hl : c.lanes.getLsbD l = true) :
    l < w.threads.length := lt_of_running (by rw [h.runs l hl]; simp)

/-- The lanes that compute issue the word. -/
theorem computing_sub {i : Instr} {m : LaneMask} (hm : m ≠ 0) {l : Nat} (h : (computing i m).getLsbD l = true) :
    m.getLsbD l = true := by
  unfold computing at h
  split at h
  · simp only [getLsbD_laneBit, Bool.and_eq_true, decide_eq_true_eq] at h
    rw [h.2]; exact (lowest_mem hm).2
  · exact h

theorem computing_ne {i : Instr} {m : LaneMask} (hm : m ≠ 0) : computing i m ≠ 0 := by
  unfold computing
  split
  · intro h
    have := @getLsbD_laneBit (lowest m) (lowest m)
    rw [h] at this
    simp [(lowest_mem hm).1] at this
  · exact hm

/-- What a fixed-class word leaves: its frame, and the values it writes. -/
structure LaneDone (s : State) (i : Instr) (f : LaneOp) (c : Issue) (w : Wave) (t : State) (w' : Wave) : Prop where
  frame : WordFrame s c w t w'
  goOn  : GoOn c w w'
  regs  : ∀ l r, w'.raw l r = writtenReg (computing i c.lanes) (fun l => (f (s.laneIn w l)).regs) w l r ∨ Granted w w' l r
  masks : ∀ k l, w'.kbit k l =
      (if k ∈ ((f (s.laneIn w (lowest (computing i c.lanes)))).ks).map Prod.fst ∧ (computing i c.lanes).getLsbD l = true then
        (((f (s.laneIn w l)).ks).lookup k).getD false else w.kbit k l) ∨
      ((w.thread l).waits (.waitk k) ∧ w'.kbit k l = false)
  flags : w'.xstat = flagsOf (computing i c.lanes) (fun l => f (s.laneIn w l)) w.xstat
  gens  : ∀ l, (w'.thread l).gen = if (computing i c.lanes).getLsbD l = true then
      ((f (s.laneIn w l)).gen).getD (w.thread l).gen else (w.thread l).gen

theorem mild_applyLanes (m : LaneMask) (f : Nat → LaneOut) : Mild fun v => v.applyLanes m f where
  id v := by rw [applyLanes_eq]
  gang v := by rw [applyLanes_eq]
  held v l h hst _ := by
    rw [applyLanes_thread, applyRegs_thread] at hst
    split at hst <;> exact hst

theorem get_filter_lt (m : Map Word) (g a : Nat) :
    Map.get 0#32 (m.filter fun x => x.1 < g) a = if a < g then Map.get 0#32 m a else 0#32 := by
  induction m with
  | nil => simp
  | cons p m ih =>
    obtain ⟨k, v⟩ := p
    by_cases hk : k < g
    · rw [List.filter_cons_of_pos (by simpa using hk)]
      simp only [Map.get]
      by_cases h : k = a
      · subst h; simp [hk]
      · simp [h, ih]
    · rw [List.filter_cons_of_neg (by simpa using hk)]
      simp only [Map.get]
      by_cases h : k = a
      · subst h; simp [hk, ih]
      · simp [h, ih]

theorem raw_congr {v w : Wave} {l : Nat} (hs : v.s = w.s) (ht : (v.thread l).v = (w.thread l).v) (r : Reg) :
    v.raw l r = w.raw l r := by
  cases r <;> simp [Wave.raw, hs, ht]

/-- A release leaves every register alone that the grant it finds holds, and sets those newly granted to zero (R28). -/
theorem WaveKept.raw {s : State} {v v' : Wave} (h : WaveKept s v v') (l : Nat) (r : Reg) :
    v'.raw l r = v.raw l r ∨ Granted v v' l r := by
  have hv := h.regs l
  have hs : v'.s = v.s := by rw [h.rest]
  split at hv
  · exact .inl (raw_congr hs hv r)
  · next hne =>
    have hlt : v.grant < v'.grant := by have := h.grant.1; omega
    cases r with
    | s n => exact .inl (by simp only [Wave.raw, hs])
    | v n =>
      simp only [Granted, Wave.raw, hv, get_filter_lt, aboveGrant]
      by_cases hn : n.val < v.grant
      · exact .inl (by simp [hn])
      · exact .inr ⟨hlt, by simpa using Nat.le_of_not_lt hn, by simp [hn]⟩

theorem WaveKept.gen {s : State} {v v' : Wave} (h : WaveKept s v v') (l : Nat) : (v'.thread l).gen = (v.thread l).gen :=
  (h.threads l).gen

/-- A thread that runs before a release is as it was, but for registers newly granted. -/
theorem WaveKept.goes {s : State} {v v' : Wave} (h : WaveKept s v v') {l : Nat} (hr : (v.thread l).st = .run) :
    v'.thread l = { v.thread l with v := (v'.thread l).v } := by
  have := (h.threads l).of_run (by rw [hr]; simp)
  rw [← this]

theorem WaveKept.xstat {s : State} {v v' : Wave} (h : WaveKept s v v') : v'.xstat = v.xstat := by rw [h.rest]

/-- The wave after the word's computation and the issue's end, thread by thread. -/
theorem issued_applyLanes_thread {s : State} {c : Issue} {w : Wave} (h : Issuing s c w) {m : LaneMask} (f : Nat → LaneOut)
    (hm : ∀ l, m.getLsbD l = true → c.lanes.getLsbD l = true) (l : Nat) :
    (Wave.issued c (w.applyLanes m f)).thread l =
      if c.lanes.getLsbD l = true then
        { w.thread l with
          pc := c.nextPc, count := 0, commitDone := false
          v := if m.getLsbD l = true then ((w.thread l).putAll (f l).regs).v else (w.thread l).v
          gen := if m.getLsbD l = true then (f l).gen.getD (w.thread l).gen else (w.thread l).gen }
      else w.thread l := by
  have hlen : (w.applyLanes m f).threads.length = w.threads.length := by
    rw [applyLanes_eq]; simp [Wave.applyRegs]; rw [putUnis_eq]; exact length_mapLanes ..
  rw [issued_thread, h.advance, thread_mapLanes, hlen,
    applyLanes_thread, applyRegs_thread]
  by_cases hc : c.lanes.getLsbD l = true
  · have hl := h.lt hc
    by_cases hml : m.getLsbD l = true <;> simp [hc, hl, hml]
  · have hml : ¬ m.getLsbD l = true := fun e => hc (hm l e)
    simp [hc, hml]

/-- The meaning of a fixed-class word that the wave may issue. -/
theorem runLane_done {s : State} {i : Instr} {f : LaneOp} {c : Issue} {w : Wave} (h : Issuing s c w) (ha : Allowed s i w) :
    ∃ t w', runLane i f s = .next t ∧ LaneDone s i f c w t w' := by
  have hm : ∀ l, (computing i c.lanes).getLsbD l = true → c.lanes.getLsbD l = true := fun l => computing_sub h.lanes
  have hact : laneAct i f s c w c.lanes =
      s.modWave w.id fun v => v.applyLanes (computing i c.lanes) fun l => f (s.laneIn w l) := by
    simp [laneAct, show (c.lanes == 0#32) = false by simpa using h.lanes]
  obtain ⟨t, w', hrun, he⟩ := runWord_wave (op := { act := laneAct i f }) h ha (fun _ _ => rfl) (fun _ => rfl) hact
    (mild_applyLanes _ _)
  refine ⟨t, w', hrun, ?_⟩
  have hth := issued_applyLanes_thread h (m := computing i c.lanes) (fun l => f (s.laneIn w l)) hm
  obtain ⟨T, L, Y, Z, hi⟩ : ∃ T L Y Z, Wave.issued c (w.applyLanes (computing i c.lanes) fun l => f (s.laneIn w l)) =
      { w.applyLanes (computing i c.lanes) fun l => f (s.laneIn w l) with
        threads := T, lead := L, yieldTrk := Y, yieldGrp := Z } := ⟨_, _, _, _, issued_shape _ _⟩
  obtain ⟨S, K, X, P, T', hf⟩ : ∃ S K X P T', (w.applyLanes (computing i c.lanes) fun l => f (s.laneIn w l)) =
      { w with s := S, k := K, xstat := X, pend := P, threads := T' } := ⟨_, _, _, _, _, applyLanes_eq _ _ _⟩
  have hid : (Wave.issued c (w.applyLanes (computing i c.lanes) fun l => f (s.laneIn w l))).id = w.id := by rw [hi, hf]
  refine ⟨⟨he.rest, he.gangs, hid ▸ he.mine, fun id v hne => he.others id v (hid.symm ▸ hne), ?own, ?there, ?grant, ?monitor,
    ?pend⟩, ?goOn, ?regs, ?masks, ?flags, ?gens⟩
  case own => rw [he.kept.rest, hi, hf]
  case there =>
    intro l hl
    have := he.kept.threads l
    rwa [hth, if_neg (by simp [hl])] at this
  case grant =>
    have hg : (Wave.issued c (w.applyLanes (computing i c.lanes) fun l => f (s.laneIn w l))).grant = w.grant := by rw [hi, hf]
    refine ⟨hg ▸ he.kept.grant.1, ?_⟩
    rcases he.kept.grant.2 with e | e
    · exact .inl (e.trans hg)
    · exact .inr (hid ▸ e)
  case monitor =>
    rcases he.kept.monitor with e | ⟨e, l, e'⟩
    · exact .inl (by rw [e, hi, hf])
    · refine .inr ⟨e, l, ?_⟩
      rw [hth] at e'
      split at e'
      · exact e'
      · exact e'
  case pend =>
    intro p hp
    obtain ⟨q, hq, hpq⟩ := applyRegs_pend w (computing i c.lanes) (fun l => f (s.laneIn w l)) p hp
    obtain ⟨ps, e, _⟩ := he.kept.pend
    refine ⟨q, ?_, hpq⟩
    rw [e, List.mem_append]
    left
    rw [issued_shape, applyLanes_eq]
    exact hq
  case goOn =>
    intro l hl
    have h1 := he.kept.goes (l := l) (by rw [hth, if_pos hl]; exact h.runs l hl)
    have h2 := he.kept.gen l
    rw [hth, if_pos hl] at h1 h2
    rw [h2]; exact h1
  case regs =>
    intro l r
    have hg : (Wave.issued c (w.applyLanes (computing i c.lanes) fun l => f (s.laneIn w l))).grant = w.grant := by rw [hi, hf]
    refine (he.kept.raw l r).imp (fun e => ?_) (fun e => by unfold Granted at e ⊢; rwa [hg] at e)
    rw [e, ← applyLanes_raw _ (fun l hl => h.lt (hm l hl))]
    apply raw_congr
    · rw [issued_shape]
    · rw [hth, applyLanes_thread, applyRegs_thread]
      by_cases hc : c.lanes.getLsbD l = true
      · have hl := h.lt hc
        by_cases hml : (computing i c.lanes).getLsbD l = true <;> simp [hc, hl, hml]
      · have hml : ¬ (computing i c.lanes).getLsbD l = true := fun e => hc (hm l e)
        simp [hc, hml]
  case masks =>
    intro k l
    have hk : (Wave.issued c (w.applyLanes (computing i c.lanes) fun l => f (s.laneIn w l))).kbit k l =
        (w.applyLanes (computing i c.lanes) fun l => f (s.laneIn w l)).kbit k l := by rw [issued_shape]; rfl
    rcases he.kept.masks k l with e | ⟨e, e'⟩
    · exact .inl (by rw [e, hk, applyLanes_kbit])
    · refine .inr ⟨?_, e'⟩
      rw [hth] at e
      split at e
      · exact e
      · exact e
  case flags =>
    rw [he.kept.xstat, issued_shape]
    exact applyLanes_xstat _ _ _
  case gens =>
    intro l
    rw [he.kept.gen, hth]
    by_cases hc : c.lanes.getLsbD l = true
    · simp [hc]
    · have hml : ¬ (computing i c.lanes).getLsbD l = true := fun e => hc (hm l e)
      simp [hc, hml]

end Sys2Proof.Machine
end

