-- ==== Sys2Proof/Laws/State.lean ====
section
/-! SUPPORT. What each update of one unit leaves alone, field by field: each lemma is true by rfl, so that a proof rewrites a
field of an updated state without unfolding the update. -/

namespace Sys2Proof.Machine

/-! ## modWave -/

@[simp] theorem modWave_inputs (s : State) (id : Nat) (f : Wave → Wave) : (s.modWave id f).inputs = s.inputs := rfl
@[simp] theorem modWave_turn (s : State) (id : Nat) (f : Wave → Wave) : (s.modWave id f).turn = s.turn := rfl
@[simp] theorem modWave_fresh (s : State) (id : Nat) (f : Wave → Wave) : (s.modWave id f).fresh = s.fresh := rfl
@[simp] theorem modWave_cur (s : State) (id : Nat) (f : Wave → Wave) : (s.modWave id f).cur = s.cur := rfl
@[simp] theorem modWave_forced (s : State) (id : Nat) (f : Wave → Wave) : (s.modWave id f).forced = s.forced := rfl
@[simp] theorem modWave_stage (s : State) (id : Nat) (f : Wave → Wave) : (s.modWave id f).stage = s.stage := rfl
@[simp] theorem modWave_cycle (s : State) (id : Nat) (f : Wave → Wave) : (s.modWave id f).cycle = s.cycle := rfl
@[simp] theorem modWave_coreCycle (s : State) (id : Nat) (f : Wave → Wave) : (s.modWave id f).coreCycle = s.coreCycle := rfl
@[simp] theorem modWave_life (s : State) (id : Nat) (f : Wave → Wave) : (s.modWave id f).life = s.life := rfl
@[simp] theorem modWave_nextLife (s : State) (id : Nat) (f : Wave → Wave) : (s.modWave id f).nextLife = s.nextLife := rfl
@[simp] theorem modWave_alarm (s : State) (id : Nat) (f : Wave → Wave) : (s.modWave id f).alarm = s.alarm := rfl
@[simp] theorem modWave_keysErased (s : State) (id : Nat) (f : Wave → Wave) : (s.modWave id f).keysErased = s.keysErased := rfl
@[simp] theorem modWave_link (s : State) (id : Nat) (f : Wave → Wave) : (s.modWave id f).link = s.link := rfl
@[simp] theorem modWave_throttled (s : State) (id : Nat) (f : Wave → Wave) : (s.modWave id f).throttled = s.throttled := rfl
@[simp] theorem modWave_dies (s : State) (id : Nat) (f : Wave → Wave) : (s.modWave id f).dies = s.dies := rfl
@[simp] theorem modWave_trackCaps (s : State) (id : Nat) (f : Wave → Wave) : (s.modWave id f).trackCaps = s.trackCaps := rfl
@[simp] theorem modWave_deadClusters (s : State) (id : Nat) (f : Wave → Wave) : (s.modWave id f).deadClusters = s.deadClusters := rfl
@[simp] theorem modWave_spareSectors (s : State) (id : Nat) (f : Wave → Wave) : (s.modWave id f).spareSectors = s.spareSectors := rfl
@[simp] theorem modWave_mem (s : State) (id : Nat) (f : Wave → Wave) : (s.modWave id f).mem = s.mem := rfl
@[simp] theorem modWave_ilvBlocks (s : State) (id : Nat) (f : Wave → Wave) : (s.modWave id f).ilvBlocks = s.ilvBlocks := rfl
@[simp] theorem modWave_poison (s : State) (id : Nat) (f : Wave → Wave) : (s.modWave id f).poison = s.poison := rfl
@[simp] theorem modWave_codeErrs (s : State) (id : Nat) (f : Wave → Wave) : (s.modWave id f).codeErrs = s.codeErrs := rfl
@[simp] theorem modWave_regPoison (s : State) (id : Nat) (f : Wave → Wave) : (s.modWave id f).regPoison = s.regPoison := rfl
@[simp] theorem modWave_unswept (s : State) (id : Nat) (f : Wave → Wave) : (s.modWave id f).unswept = s.unswept := rfl
@[simp] theorem modWave_homeLines (s : State) (id : Nat) (f : Wave → Wave) : (s.modWave id f).homeLines = s.homeLines := rfl
@[simp] theorem modWave_sect (s : State) (id : Nat) (f : Wave → Wave) : (s.modWave id f).sect = s.sect := rfl
@[simp] theorem modWave_l1 (s : State) (id : Nat) (f : Wave → Wave) : (s.modWave id f).l1 = s.l1 := rfl
@[simp] theorem modWave_fills (s : State) (id : Nat) (f : Wave → Wave) : (s.modWave id f).fills = s.fills := rfl
@[simp] theorem modWave_versions (s : State) (id : Nat) (f : Wave → Wave) : (s.modWave id f).versions = s.versions := rfl
@[simp] theorem modWave_tlb (s : State) (id : Nat) (f : Wave → Wave) : (s.modWave id f).tlb = s.tlb := rfl
@[simp] theorem modWave_sectTlb (s : State) (id : Nat) (f : Wave → Wave) : (s.modWave id f).sectTlb = s.sectTlb := rfl
@[simp] theorem modWave_tlbInvs (s : State) (id : Nat) (f : Wave → Wave) : (s.modWave id f).tlbInvs = s.tlbInvs := rfl
@[simp] theorem modWave_hostLines (s : State) (id : Nat) (f : Wave → Wave) : (s.modWave id f).hostLines = s.hostLines := rfl
@[simp] theorem modWave_flows (s : State) (id : Nat) (f : Wave → Wave) : (s.modWave id f).flows = s.flows := rfl
@[simp] theorem modWave_groom (s : State) (id : Nat) (f : Wave → Wave) : (s.modWave id f).groom = s.groom := rfl
@[simp] theorem modWave_sunk (s : State) (id : Nat) (f : Wave → Wave) : (s.modWave id f).sunk = s.sunk := rfl
@[simp] theorem modWave_tiles (s : State) (id : Nat) (f : Wave → Wave) : (s.modWave id f).tiles = s.tiles := rfl
@[simp] theorem modWave_states (s : State) (id : Nat) (f : Wave → Wave) : (s.modWave id f).states = s.states := rfl
@[simp] theorem modWave_gangs (s : State) (id : Nat) (f : Wave → Wave) : (s.modWave id f).gangs = s.gangs := rfl
@[simp] theorem modWave_launches (s : State) (id : Nat) (f : Wave → Wave) : (s.modWave id f).launches = s.launches := rfl
@[simp] theorem modWave_nextId (s : State) (id : Nat) (f : Wave → Wave) : (s.modWave id f).nextId = s.nextId := rfl
@[simp] theorem modWave_ctxs (s : State) (id : Nat) (f : Wave → Wave) : (s.modWave id f).ctxs = s.ctxs := rfl
@[simp] theorem modWave_queues (s : State) (id : Nat) (f : Wave → Wave) : (s.modWave id f).queues = s.queues := rfl
@[simp] theorem modWave_seals (s : State) (id : Nat) (f : Wave → Wave) : (s.modWave id f).seals = s.seals := rfl
@[simp] theorem modWave_vis (s : State) (id : Nat) (f : Wave → Wave) : (s.modWave id f).vis = s.vis := rfl
@[simp] theorem modWave_parts (s : State) (id : Nat) (f : Wave → Wave) : (s.modWave id f).parts = s.parts := rfl
@[simp] theorem modWave_faults (s : State) (id : Nat) (f : Wave → Wave) : (s.modWave id f).faults = s.faults := rfl
@[simp] theorem modWave_colls (s : State) (id : Nat) (f : Wave → Wave) : (s.modWave id f).colls = s.colls := rfl
@[simp] theorem modWave_picks (s : State) (id : Nat) (f : Wave → Wave) : (s.modWave id f).picks = s.picks := rfl
@[simp] theorem modWave_boot (s : State) (id : Nat) (f : Wave → Wave) : (s.modWave id f).boot = s.boot := rfl
@[simp] theorem modWave_supervisor (s : State) (id : Nat) (f : Wave → Wave) : (s.modWave id f).supervisor = s.supervisor := rfl
@[simp] theorem modWave_badDies (s : State) (id : Nat) (f : Wave → Wave) : (s.modWave id f).badDies = s.badDies := rfl
@[simp] theorem modWave_softErrs (s : State) (id : Nat) (f : Wave → Wave) : (s.modWave id f).softErrs = s.softErrs := rfl
@[simp] theorem modWave_groomWaits (s : State) (id : Nat) (f : Wave → Wave) : (s.modWave id f).groomWaits = s.groomWaits := rfl

/-! ## modGang -/

@[simp] theorem modGang_inputs (s : State) (id : Nat) (f : Gang → Gang) : (s.modGang id f).inputs = s.inputs := rfl
@[simp] theorem modGang_turn (s : State) (id : Nat) (f : Gang → Gang) : (s.modGang id f).turn = s.turn := rfl
@[simp] theorem modGang_fresh (s : State) (id : Nat) (f : Gang → Gang) : (s.modGang id f).fresh = s.fresh := rfl
@[simp] theorem modGang_cur (s : State) (id : Nat) (f : Gang → Gang) : (s.modGang id f).cur = s.cur := rfl
@[simp] theorem modGang_forced (s : State) (id : Nat) (f : Gang → Gang) : (s.modGang id f).forced = s.forced := rfl
@[simp] theorem modGang_stage (s : State) (id : Nat) (f : Gang → Gang) : (s.modGang id f).stage = s.stage := rfl
@[simp] theorem modGang_cycle (s : State) (id : Nat) (f : Gang → Gang) : (s.modGang id f).cycle = s.cycle := rfl
@[simp] theorem modGang_coreCycle (s : State) (id : Nat) (f : Gang → Gang) : (s.modGang id f).coreCycle = s.coreCycle := rfl
@[simp] theorem modGang_life (s : State) (id : Nat) (f : Gang → Gang) : (s.modGang id f).life = s.life := rfl
@[simp] theorem modGang_nextLife (s : State) (id : Nat) (f : Gang → Gang) : (s.modGang id f).nextLife = s.nextLife := rfl
@[simp] theorem modGang_alarm (s : State) (id : Nat) (f : Gang → Gang) : (s.modGang id f).alarm = s.alarm := rfl
@[simp] theorem modGang_keysErased (s : State) (id : Nat) (f : Gang → Gang) : (s.modGang id f).keysErased = s.keysErased := rfl
@[simp] theorem modGang_link (s : State) (id : Nat) (f : Gang → Gang) : (s.modGang id f).link = s.link := rfl
@[simp] theorem modGang_throttled (s : State) (id : Nat) (f : Gang → Gang) : (s.modGang id f).throttled = s.throttled := rfl
@[simp] theorem modGang_dies (s : State) (id : Nat) (f : Gang → Gang) : (s.modGang id f).dies = s.dies := rfl
@[simp] theorem modGang_trackCaps (s : State) (id : Nat) (f : Gang → Gang) : (s.modGang id f).trackCaps = s.trackCaps := rfl
@[simp] theorem modGang_deadClusters (s : State) (id : Nat) (f : Gang → Gang) : (s.modGang id f).deadClusters = s.deadClusters := rfl
@[simp] theorem modGang_spareSectors (s : State) (id : Nat) (f : Gang → Gang) : (s.modGang id f).spareSectors = s.spareSectors := rfl
@[simp] theorem modGang_mem (s : State) (id : Nat) (f : Gang → Gang) : (s.modGang id f).mem = s.mem := rfl
@[simp] theorem modGang_ilvBlocks (s : State) (id : Nat) (f : Gang → Gang) : (s.modGang id f).ilvBlocks = s.ilvBlocks := rfl
@[simp] theorem modGang_poison (s : State) (id : Nat) (f : Gang → Gang) : (s.modGang id f).poison = s.poison := rfl
@[simp] theorem modGang_codeErrs (s : State) (id : Nat) (f : Gang → Gang) : (s.modGang id f).codeErrs = s.codeErrs := rfl
@[simp] theorem modGang_regPoison (s : State) (id : Nat) (f : Gang → Gang) : (s.modGang id f).regPoison = s.regPoison := rfl
@[simp] theorem modGang_unswept (s : State) (id : Nat) (f : Gang → Gang) : (s.modGang id f).unswept = s.unswept := rfl
@[simp] theorem modGang_homeLines (s : State) (id : Nat) (f : Gang → Gang) : (s.modGang id f).homeLines = s.homeLines := rfl
@[simp] theorem modGang_sect (s : State) (id : Nat) (f : Gang → Gang) : (s.modGang id f).sect = s.sect := rfl
@[simp] theorem modGang_l1 (s : State) (id : Nat) (f : Gang → Gang) : (s.modGang id f).l1 = s.l1 := rfl
@[simp] theorem modGang_fills (s : State) (id : Nat) (f : Gang → Gang) : (s.modGang id f).fills = s.fills := rfl
@[simp] theorem modGang_versions (s : State) (id : Nat) (f : Gang → Gang) : (s.modGang id f).versions = s.versions := rfl
@[simp] theorem modGang_tlb (s : State) (id : Nat) (f : Gang → Gang) : (s.modGang id f).tlb = s.tlb := rfl
@[simp] theorem modGang_sectTlb (s : State) (id : Nat) (f : Gang → Gang) : (s.modGang id f).sectTlb = s.sectTlb := rfl
@[simp] theorem modGang_tlbInvs (s : State) (id : Nat) (f : Gang → Gang) : (s.modGang id f).tlbInvs = s.tlbInvs := rfl
@[simp] theorem modGang_hostLines (s : State) (id : Nat) (f : Gang → Gang) : (s.modGang id f).hostLines = s.hostLines := rfl
@[simp] theorem modGang_flows (s : State) (id : Nat) (f : Gang → Gang) : (s.modGang id f).flows = s.flows := rfl
@[simp] theorem modGang_groom (s : State) (id : Nat) (f : Gang → Gang) : (s.modGang id f).groom = s.groom := rfl
@[simp] theorem modGang_sunk (s : State) (id : Nat) (f : Gang → Gang) : (s.modGang id f).sunk = s.sunk := rfl
@[simp] theorem modGang_tiles (s : State) (id : Nat) (f : Gang → Gang) : (s.modGang id f).tiles = s.tiles := rfl
@[simp] theorem modGang_states (s : State) (id : Nat) (f : Gang → Gang) : (s.modGang id f).states = s.states := rfl
@[simp] theorem modGang_waves (s : State) (id : Nat) (f : Gang → Gang) : (s.modGang id f).waves = s.waves := rfl
@[simp] theorem modGang_launches (s : State) (id : Nat) (f : Gang → Gang) : (s.modGang id f).launches = s.launches := rfl
@[simp] theorem modGang_nextId (s : State) (id : Nat) (f : Gang → Gang) : (s.modGang id f).nextId = s.nextId := rfl
@[simp] theorem modGang_ctxs (s : State) (id : Nat) (f : Gang → Gang) : (s.modGang id f).ctxs = s.ctxs := rfl
@[simp] theorem modGang_queues (s : State) (id : Nat) (f : Gang → Gang) : (s.modGang id f).queues = s.queues := rfl
@[simp] theorem modGang_seals (s : State) (id : Nat) (f : Gang → Gang) : (s.modGang id f).seals = s.seals := rfl
@[simp] theorem modGang_vis (s : State) (id : Nat) (f : Gang → Gang) : (s.modGang id f).vis = s.vis := rfl
@[simp] theorem modGang_parts (s : State) (id : Nat) (f : Gang → Gang) : (s.modGang id f).parts = s.parts := rfl
@[simp] theorem modGang_faults (s : State) (id : Nat) (f : Gang → Gang) : (s.modGang id f).faults = s.faults := rfl
@[simp] theorem modGang_colls (s : State) (id : Nat) (f : Gang → Gang) : (s.modGang id f).colls = s.colls := rfl
@[simp] theorem modGang_picks (s : State) (id : Nat) (f : Gang → Gang) : (s.modGang id f).picks = s.picks := rfl
@[simp] theorem modGang_boot (s : State) (id : Nat) (f : Gang → Gang) : (s.modGang id f).boot = s.boot := rfl
@[simp] theorem modGang_supervisor (s : State) (id : Nat) (f : Gang → Gang) : (s.modGang id f).supervisor = s.supervisor := rfl
@[simp] theorem modGang_badDies (s : State) (id : Nat) (f : Gang → Gang) : (s.modGang id f).badDies = s.badDies := rfl
@[simp] theorem modGang_softErrs (s : State) (id : Nat) (f : Gang → Gang) : (s.modGang id f).softErrs = s.softErrs := rfl
@[simp] theorem modGang_groomWaits (s : State) (id : Nat) (f : Gang → Gang) : (s.modGang id f).groomWaits = s.groomWaits := rfl

/-! ## modLaunch -/

@[simp] theorem modLaunch_inputs (s : State) (id : Nat) (f : Launch → Launch) : (s.modLaunch id f).inputs = s.inputs := rfl
@[simp] theorem modLaunch_turn (s : State) (id : Nat) (f : Launch → Launch) : (s.modLaunch id f).turn = s.turn := rfl
@[simp] theorem modLaunch_fresh (s : State) (id : Nat) (f : Launch → Launch) : (s.modLaunch id f).fresh = s.fresh := rfl
@[simp] theorem modLaunch_cur (s : State) (id : Nat) (f : Launch → Launch) : (s.modLaunch id f).cur = s.cur := rfl
@[simp] theorem modLaunch_forced (s : State) (id : Nat) (f : Launch → Launch) : (s.modLaunch id f).forced = s.forced := rfl
@[simp] theorem modLaunch_stage (s : State) (id : Nat) (f : Launch → Launch) : (s.modLaunch id f).stage = s.stage := rfl
@[simp] theorem modLaunch_cycle (s : State) (id : Nat) (f : Launch → Launch) : (s.modLaunch id f).cycle = s.cycle := rfl
@[simp] theorem modLaunch_coreCycle (s : State) (id : Nat) (f : Launch → Launch) : (s.modLaunch id f).coreCycle = s.coreCycle := rfl
@[simp] theorem modLaunch_life (s : State) (id : Nat) (f : Launch → Launch) : (s.modLaunch id f).life = s.life := rfl
@[simp] theorem modLaunch_nextLife (s : State) (id : Nat) (f : Launch → Launch) : (s.modLaunch id f).nextLife = s.nextLife := rfl
@[simp] theorem modLaunch_alarm (s : State) (id : Nat) (f : Launch → Launch) : (s.modLaunch id f).alarm = s.alarm := rfl
@[simp] theorem modLaunch_keysErased (s : State) (id : Nat) (f : Launch → Launch) : (s.modLaunch id f).keysErased = s.keysErased := rfl
@[simp] theorem modLaunch_link (s : State) (id : Nat) (f : Launch → Launch) : (s.modLaunch id f).link = s.link := rfl
@[simp] theorem modLaunch_throttled (s : State) (id : Nat) (f : Launch → Launch) : (s.modLaunch id f).throttled = s.throttled := rfl
@[simp] theorem modLaunch_dies (s : State) (id : Nat) (f : Launch → Launch) : (s.modLaunch id f).dies = s.dies := rfl
@[simp] theorem modLaunch_trackCaps (s : State) (id : Nat) (f : Launch → Launch) : (s.modLaunch id f).trackCaps = s.trackCaps := rfl
@[simp] theorem modLaunch_deadClusters (s : State) (id : Nat) (f : Launch → Launch) : (s.modLaunch id f).deadClusters = s.deadClusters := rfl
@[simp] theorem modLaunch_spareSectors (s : State) (id : Nat) (f : Launch → Launch) : (s.modLaunch id f).spareSectors = s.spareSectors := rfl
@[simp] theorem modLaunch_mem (s : State) (id : Nat) (f : Launch → Launch) : (s.modLaunch id f).mem = s.mem := rfl
@[simp] theorem modLaunch_ilvBlocks (s : State) (id : Nat) (f : Launch → Launch) : (s.modLaunch id f).ilvBlocks = s.ilvBlocks := rfl
@[simp] theorem modLaunch_poison (s : State) (id : Nat) (f : Launch → Launch) : (s.modLaunch id f).poison = s.poison := rfl
@[simp] theorem modLaunch_codeErrs (s : State) (id : Nat) (f : Launch → Launch) : (s.modLaunch id f).codeErrs = s.codeErrs := rfl
@[simp] theorem modLaunch_regPoison (s : State) (id : Nat) (f : Launch → Launch) : (s.modLaunch id f).regPoison = s.regPoison := rfl
@[simp] theorem modLaunch_unswept (s : State) (id : Nat) (f : Launch → Launch) : (s.modLaunch id f).unswept = s.unswept := rfl
@[simp] theorem modLaunch_homeLines (s : State) (id : Nat) (f : Launch → Launch) : (s.modLaunch id f).homeLines = s.homeLines := rfl
@[simp] theorem modLaunch_sect (s : State) (id : Nat) (f : Launch → Launch) : (s.modLaunch id f).sect = s.sect := rfl
@[simp] theorem modLaunch_l1 (s : State) (id : Nat) (f : Launch → Launch) : (s.modLaunch id f).l1 = s.l1 := rfl
@[simp] theorem modLaunch_fills (s : State) (id : Nat) (f : Launch → Launch) : (s.modLaunch id f).fills = s.fills := rfl
@[simp] theorem modLaunch_versions (s : State) (id : Nat) (f : Launch → Launch) : (s.modLaunch id f).versions = s.versions := rfl
@[simp] theorem modLaunch_tlb (s : State) (id : Nat) (f : Launch → Launch) : (s.modLaunch id f).tlb = s.tlb := rfl
@[simp] theorem modLaunch_sectTlb (s : State) (id : Nat) (f : Launch → Launch) : (s.modLaunch id f).sectTlb = s.sectTlb := rfl
@[simp] theorem modLaunch_tlbInvs (s : State) (id : Nat) (f : Launch → Launch) : (s.modLaunch id f).tlbInvs = s.tlbInvs := rfl
@[simp] theorem modLaunch_hostLines (s : State) (id : Nat) (f : Launch → Launch) : (s.modLaunch id f).hostLines = s.hostLines := rfl
@[simp] theorem modLaunch_flows (s : State) (id : Nat) (f : Launch → Launch) : (s.modLaunch id f).flows = s.flows := rfl
@[simp] theorem modLaunch_groom (s : State) (id : Nat) (f : Launch → Launch) : (s.modLaunch id f).groom = s.groom := rfl
@[simp] theorem modLaunch_sunk (s : State) (id : Nat) (f : Launch → Launch) : (s.modLaunch id f).sunk = s.sunk := rfl
@[simp] theorem modLaunch_tiles (s : State) (id : Nat) (f : Launch → Launch) : (s.modLaunch id f).tiles = s.tiles := rfl
@[simp] theorem modLaunch_states (s : State) (id : Nat) (f : Launch → Launch) : (s.modLaunch id f).states = s.states := rfl
@[simp] theorem modLaunch_waves (s : State) (id : Nat) (f : Launch → Launch) : (s.modLaunch id f).waves = s.waves := rfl
@[simp] theorem modLaunch_gangs (s : State) (id : Nat) (f : Launch → Launch) : (s.modLaunch id f).gangs = s.gangs := rfl
@[simp] theorem modLaunch_nextId (s : State) (id : Nat) (f : Launch → Launch) : (s.modLaunch id f).nextId = s.nextId := rfl
@[simp] theorem modLaunch_ctxs (s : State) (id : Nat) (f : Launch → Launch) : (s.modLaunch id f).ctxs = s.ctxs := rfl
@[simp] theorem modLaunch_queues (s : State) (id : Nat) (f : Launch → Launch) : (s.modLaunch id f).queues = s.queues := rfl
@[simp] theorem modLaunch_seals (s : State) (id : Nat) (f : Launch → Launch) : (s.modLaunch id f).seals = s.seals := rfl
@[simp] theorem modLaunch_vis (s : State) (id : Nat) (f : Launch → Launch) : (s.modLaunch id f).vis = s.vis := rfl
@[simp] theorem modLaunch_parts (s : State) (id : Nat) (f : Launch → Launch) : (s.modLaunch id f).parts = s.parts := rfl
@[simp] theorem modLaunch_faults (s : State) (id : Nat) (f : Launch → Launch) : (s.modLaunch id f).faults = s.faults := rfl
@[simp] theorem modLaunch_colls (s : State) (id : Nat) (f : Launch → Launch) : (s.modLaunch id f).colls = s.colls := rfl
@[simp] theorem modLaunch_picks (s : State) (id : Nat) (f : Launch → Launch) : (s.modLaunch id f).picks = s.picks := rfl
@[simp] theorem modLaunch_boot (s : State) (id : Nat) (f : Launch → Launch) : (s.modLaunch id f).boot = s.boot := rfl
@[simp] theorem modLaunch_supervisor (s : State) (id : Nat) (f : Launch → Launch) : (s.modLaunch id f).supervisor = s.supervisor := rfl
@[simp] theorem modLaunch_badDies (s : State) (id : Nat) (f : Launch → Launch) : (s.modLaunch id f).badDies = s.badDies := rfl
@[simp] theorem modLaunch_softErrs (s : State) (id : Nat) (f : Launch → Launch) : (s.modLaunch id f).softErrs = s.softErrs := rfl
@[simp] theorem modLaunch_groomWaits (s : State) (id : Nat) (f : Launch → Launch) : (s.modLaunch id f).groomWaits = s.groomWaits := rfl

/-! ## modCtx -/

@[simp] theorem modCtx_inputs (s : State) (id : Nat) (f : Ctx → Ctx) : (s.modCtx id f).inputs = s.inputs := rfl
@[simp] theorem modCtx_turn (s : State) (id : Nat) (f : Ctx → Ctx) : (s.modCtx id f).turn = s.turn := rfl
@[simp] theorem modCtx_fresh (s : State) (id : Nat) (f : Ctx → Ctx) : (s.modCtx id f).fresh = s.fresh := rfl
@[simp] theorem modCtx_cur (s : State) (id : Nat) (f : Ctx → Ctx) : (s.modCtx id f).cur = s.cur := rfl
@[simp] theorem modCtx_forced (s : State) (id : Nat) (f : Ctx → Ctx) : (s.modCtx id f).forced = s.forced := rfl
@[simp] theorem modCtx_stage (s : State) (id : Nat) (f : Ctx → Ctx) : (s.modCtx id f).stage = s.stage := rfl
@[simp] theorem modCtx_cycle (s : State) (id : Nat) (f : Ctx → Ctx) : (s.modCtx id f).cycle = s.cycle := rfl
@[simp] theorem modCtx_coreCycle (s : State) (id : Nat) (f : Ctx → Ctx) : (s.modCtx id f).coreCycle = s.coreCycle := rfl
@[simp] theorem modCtx_life (s : State) (id : Nat) (f : Ctx → Ctx) : (s.modCtx id f).life = s.life := rfl
@[simp] theorem modCtx_nextLife (s : State) (id : Nat) (f : Ctx → Ctx) : (s.modCtx id f).nextLife = s.nextLife := rfl
@[simp] theorem modCtx_alarm (s : State) (id : Nat) (f : Ctx → Ctx) : (s.modCtx id f).alarm = s.alarm := rfl
@[simp] theorem modCtx_keysErased (s : State) (id : Nat) (f : Ctx → Ctx) : (s.modCtx id f).keysErased = s.keysErased := rfl
@[simp] theorem modCtx_link (s : State) (id : Nat) (f : Ctx → Ctx) : (s.modCtx id f).link = s.link := rfl
@[simp] theorem modCtx_throttled (s : State) (id : Nat) (f : Ctx → Ctx) : (s.modCtx id f).throttled = s.throttled := rfl
@[simp] theorem modCtx_dies (s : State) (id : Nat) (f : Ctx → Ctx) : (s.modCtx id f).dies = s.dies := rfl
@[simp] theorem modCtx_trackCaps (s : State) (id : Nat) (f : Ctx → Ctx) : (s.modCtx id f).trackCaps = s.trackCaps := rfl
@[simp] theorem modCtx_deadClusters (s : State) (id : Nat) (f : Ctx → Ctx) : (s.modCtx id f).deadClusters = s.deadClusters := rfl
@[simp] theorem modCtx_spareSectors (s : State) (id : Nat) (f : Ctx → Ctx) : (s.modCtx id f).spareSectors = s.spareSectors := rfl
@[simp] theorem modCtx_mem (s : State) (id : Nat) (f : Ctx → Ctx) : (s.modCtx id f).mem = s.mem := rfl
@[simp] theorem modCtx_ilvBlocks (s : State) (id : Nat) (f : Ctx → Ctx) : (s.modCtx id f).ilvBlocks = s.ilvBlocks := rfl
@[simp] theorem modCtx_poison (s : State) (id : Nat) (f : Ctx → Ctx) : (s.modCtx id f).poison = s.poison := rfl
@[simp] theorem modCtx_codeErrs (s : State) (id : Nat) (f : Ctx → Ctx) : (s.modCtx id f).codeErrs = s.codeErrs := rfl
@[simp] theorem modCtx_regPoison (s : State) (id : Nat) (f : Ctx → Ctx) : (s.modCtx id f).regPoison = s.regPoison := rfl
@[simp] theorem modCtx_unswept (s : State) (id : Nat) (f : Ctx → Ctx) : (s.modCtx id f).unswept = s.unswept := rfl
@[simp] theorem modCtx_homeLines (s : State) (id : Nat) (f : Ctx → Ctx) : (s.modCtx id f).homeLines = s.homeLines := rfl
@[simp] theorem modCtx_sect (s : State) (id : Nat) (f : Ctx → Ctx) : (s.modCtx id f).sect = s.sect := rfl
@[simp] theorem modCtx_l1 (s : State) (id : Nat) (f : Ctx → Ctx) : (s.modCtx id f).l1 = s.l1 := rfl
@[simp] theorem modCtx_fills (s : State) (id : Nat) (f : Ctx → Ctx) : (s.modCtx id f).fills = s.fills := rfl
@[simp] theorem modCtx_versions (s : State) (id : Nat) (f : Ctx → Ctx) : (s.modCtx id f).versions = s.versions := rfl
@[simp] theorem modCtx_tlb (s : State) (id : Nat) (f : Ctx → Ctx) : (s.modCtx id f).tlb = s.tlb := rfl
@[simp] theorem modCtx_sectTlb (s : State) (id : Nat) (f : Ctx → Ctx) : (s.modCtx id f).sectTlb = s.sectTlb := rfl
@[simp] theorem modCtx_tlbInvs (s : State) (id : Nat) (f : Ctx → Ctx) : (s.modCtx id f).tlbInvs = s.tlbInvs := rfl
@[simp] theorem modCtx_hostLines (s : State) (id : Nat) (f : Ctx → Ctx) : (s.modCtx id f).hostLines = s.hostLines := rfl
@[simp] theorem modCtx_flows (s : State) (id : Nat) (f : Ctx → Ctx) : (s.modCtx id f).flows = s.flows := rfl
@[simp] theorem modCtx_groom (s : State) (id : Nat) (f : Ctx → Ctx) : (s.modCtx id f).groom = s.groom := rfl
@[simp] theorem modCtx_sunk (s : State) (id : Nat) (f : Ctx → Ctx) : (s.modCtx id f).sunk = s.sunk := rfl
@[simp] theorem modCtx_tiles (s : State) (id : Nat) (f : Ctx → Ctx) : (s.modCtx id f).tiles = s.tiles := rfl
@[simp] theorem modCtx_states (s : State) (id : Nat) (f : Ctx → Ctx) : (s.modCtx id f).states = s.states := rfl
@[simp] theorem modCtx_waves (s : State) (id : Nat) (f : Ctx → Ctx) : (s.modCtx id f).waves = s.waves := rfl
@[simp] theorem modCtx_gangs (s : State) (id : Nat) (f : Ctx → Ctx) : (s.modCtx id f).gangs = s.gangs := rfl
@[simp] theorem modCtx_launches (s : State) (id : Nat) (f : Ctx → Ctx) : (s.modCtx id f).launches = s.launches := rfl
@[simp] theorem modCtx_nextId (s : State) (id : Nat) (f : Ctx → Ctx) : (s.modCtx id f).nextId = s.nextId := rfl
@[simp] theorem modCtx_queues (s : State) (id : Nat) (f : Ctx → Ctx) : (s.modCtx id f).queues = s.queues := rfl
@[simp] theorem modCtx_seals (s : State) (id : Nat) (f : Ctx → Ctx) : (s.modCtx id f).seals = s.seals := rfl
@[simp] theorem modCtx_vis (s : State) (id : Nat) (f : Ctx → Ctx) : (s.modCtx id f).vis = s.vis := rfl
@[simp] theorem modCtx_parts (s : State) (id : Nat) (f : Ctx → Ctx) : (s.modCtx id f).parts = s.parts := rfl
@[simp] theorem modCtx_faults (s : State) (id : Nat) (f : Ctx → Ctx) : (s.modCtx id f).faults = s.faults := rfl
@[simp] theorem modCtx_colls (s : State) (id : Nat) (f : Ctx → Ctx) : (s.modCtx id f).colls = s.colls := rfl
@[simp] theorem modCtx_picks (s : State) (id : Nat) (f : Ctx → Ctx) : (s.modCtx id f).picks = s.picks := rfl
@[simp] theorem modCtx_boot (s : State) (id : Nat) (f : Ctx → Ctx) : (s.modCtx id f).boot = s.boot := rfl
@[simp] theorem modCtx_supervisor (s : State) (id : Nat) (f : Ctx → Ctx) : (s.modCtx id f).supervisor = s.supervisor := rfl
@[simp] theorem modCtx_badDies (s : State) (id : Nat) (f : Ctx → Ctx) : (s.modCtx id f).badDies = s.badDies := rfl
@[simp] theorem modCtx_softErrs (s : State) (id : Nat) (f : Ctx → Ctx) : (s.modCtx id f).softErrs = s.softErrs := rfl
@[simp] theorem modCtx_groomWaits (s : State) (id : Nat) (f : Ctx → Ctx) : (s.modCtx id f).groomWaits = s.groomWaits := rfl

/-! ## modQueue -/

@[simp] theorem modQueue_inputs (s : State) (id : Nat) (f : Queue → Queue) : (s.modQueue id f).inputs = s.inputs := rfl
@[simp] theorem modQueue_turn (s : State) (id : Nat) (f : Queue → Queue) : (s.modQueue id f).turn = s.turn := rfl
@[simp] theorem modQueue_fresh (s : State) (id : Nat) (f : Queue → Queue) : (s.modQueue id f).fresh = s.fresh := rfl
@[simp] theorem modQueue_cur (s : State) (id : Nat) (f : Queue → Queue) : (s.modQueue id f).cur = s.cur := rfl
@[simp] theorem modQueue_forced (s : State) (id : Nat) (f : Queue → Queue) : (s.modQueue id f).forced = s.forced := rfl
@[simp] theorem modQueue_stage (s : State) (id : Nat) (f : Queue → Queue) : (s.modQueue id f).stage = s.stage := rfl
@[simp] theorem modQueue_cycle (s : State) (id : Nat) (f : Queue → Queue) : (s.modQueue id f).cycle = s.cycle := rfl
@[simp] theorem modQueue_coreCycle (s : State) (id : Nat) (f : Queue → Queue) : (s.modQueue id f).coreCycle = s.coreCycle := rfl
@[simp] theorem modQueue_life (s : State) (id : Nat) (f : Queue → Queue) : (s.modQueue id f).life = s.life := rfl
@[simp] theorem modQueue_nextLife (s : State) (id : Nat) (f : Queue → Queue) : (s.modQueue id f).nextLife = s.nextLife := rfl
@[simp] theorem modQueue_alarm (s : State) (id : Nat) (f : Queue → Queue) : (s.modQueue id f).alarm = s.alarm := rfl
@[simp] theorem modQueue_keysErased (s : State) (id : Nat) (f : Queue → Queue) : (s.modQueue id f).keysErased = s.keysErased := rfl
@[simp] theorem modQueue_link (s : State) (id : Nat) (f : Queue → Queue) : (s.modQueue id f).link = s.link := rfl
@[simp] theorem modQueue_throttled (s : State) (id : Nat) (f : Queue → Queue) : (s.modQueue id f).throttled = s.throttled := rfl
@[simp] theorem modQueue_dies (s : State) (id : Nat) (f : Queue → Queue) : (s.modQueue id f).dies = s.dies := rfl
@[simp] theorem modQueue_trackCaps (s : State) (id : Nat) (f : Queue → Queue) : (s.modQueue id f).trackCaps = s.trackCaps := rfl
@[simp] theorem modQueue_deadClusters (s : State) (id : Nat) (f : Queue → Queue) : (s.modQueue id f).deadClusters = s.deadClusters := rfl
@[simp] theorem modQueue_spareSectors (s : State) (id : Nat) (f : Queue → Queue) : (s.modQueue id f).spareSectors = s.spareSectors := rfl
@[simp] theorem modQueue_mem (s : State) (id : Nat) (f : Queue → Queue) : (s.modQueue id f).mem = s.mem := rfl
@[simp] theorem modQueue_ilvBlocks (s : State) (id : Nat) (f : Queue → Queue) : (s.modQueue id f).ilvBlocks = s.ilvBlocks := rfl
@[simp] theorem modQueue_poison (s : State) (id : Nat) (f : Queue → Queue) : (s.modQueue id f).poison = s.poison := rfl
@[simp] theorem modQueue_codeErrs (s : State) (id : Nat) (f : Queue → Queue) : (s.modQueue id f).codeErrs = s.codeErrs := rfl
@[simp] theorem modQueue_regPoison (s : State) (id : Nat) (f : Queue → Queue) : (s.modQueue id f).regPoison = s.regPoison := rfl
@[simp] theorem modQueue_unswept (s : State) (id : Nat) (f : Queue → Queue) : (s.modQueue id f).unswept = s.unswept := rfl
@[simp] theorem modQueue_homeLines (s : State) (id : Nat) (f : Queue → Queue) : (s.modQueue id f).homeLines = s.homeLines := rfl
@[simp] theorem modQueue_sect (s : State) (id : Nat) (f : Queue → Queue) : (s.modQueue id f).sect = s.sect := rfl
@[simp] theorem modQueue_l1 (s : State) (id : Nat) (f : Queue → Queue) : (s.modQueue id f).l1 = s.l1 := rfl
@[simp] theorem modQueue_fills (s : State) (id : Nat) (f : Queue → Queue) : (s.modQueue id f).fills = s.fills := rfl
@[simp] theorem modQueue_versions (s : State) (id : Nat) (f : Queue → Queue) : (s.modQueue id f).versions = s.versions := rfl
@[simp] theorem modQueue_tlb (s : State) (id : Nat) (f : Queue → Queue) : (s.modQueue id f).tlb = s.tlb := rfl
@[simp] theorem modQueue_sectTlb (s : State) (id : Nat) (f : Queue → Queue) : (s.modQueue id f).sectTlb = s.sectTlb := rfl
@[simp] theorem modQueue_tlbInvs (s : State) (id : Nat) (f : Queue → Queue) : (s.modQueue id f).tlbInvs = s.tlbInvs := rfl
@[simp] theorem modQueue_hostLines (s : State) (id : Nat) (f : Queue → Queue) : (s.modQueue id f).hostLines = s.hostLines := rfl
@[simp] theorem modQueue_flows (s : State) (id : Nat) (f : Queue → Queue) : (s.modQueue id f).flows = s.flows := rfl
@[simp] theorem modQueue_groom (s : State) (id : Nat) (f : Queue → Queue) : (s.modQueue id f).groom = s.groom := rfl
@[simp] theorem modQueue_sunk (s : State) (id : Nat) (f : Queue → Queue) : (s.modQueue id f).sunk = s.sunk := rfl
@[simp] theorem modQueue_tiles (s : State) (id : Nat) (f : Queue → Queue) : (s.modQueue id f).tiles = s.tiles := rfl
@[simp] theorem modQueue_states (s : State) (id : Nat) (f : Queue → Queue) : (s.modQueue id f).states = s.states := rfl
@[simp] theorem modQueue_waves (s : State) (id : Nat) (f : Queue → Queue) : (s.modQueue id f).waves = s.waves := rfl
@[simp] theorem modQueue_gangs (s : State) (id : Nat) (f : Queue → Queue) : (s.modQueue id f).gangs = s.gangs := rfl
@[simp] theorem modQueue_launches (s : State) (id : Nat) (f : Queue → Queue) : (s.modQueue id f).launches = s.launches := rfl
@[simp] theorem modQueue_nextId (s : State) (id : Nat) (f : Queue → Queue) : (s.modQueue id f).nextId = s.nextId := rfl
@[simp] theorem modQueue_ctxs (s : State) (id : Nat) (f : Queue → Queue) : (s.modQueue id f).ctxs = s.ctxs := rfl
@[simp] theorem modQueue_seals (s : State) (id : Nat) (f : Queue → Queue) : (s.modQueue id f).seals = s.seals := rfl
@[simp] theorem modQueue_vis (s : State) (id : Nat) (f : Queue → Queue) : (s.modQueue id f).vis = s.vis := rfl
@[simp] theorem modQueue_parts (s : State) (id : Nat) (f : Queue → Queue) : (s.modQueue id f).parts = s.parts := rfl
@[simp] theorem modQueue_faults (s : State) (id : Nat) (f : Queue → Queue) : (s.modQueue id f).faults = s.faults := rfl
@[simp] theorem modQueue_colls (s : State) (id : Nat) (f : Queue → Queue) : (s.modQueue id f).colls = s.colls := rfl
@[simp] theorem modQueue_picks (s : State) (id : Nat) (f : Queue → Queue) : (s.modQueue id f).picks = s.picks := rfl
@[simp] theorem modQueue_boot (s : State) (id : Nat) (f : Queue → Queue) : (s.modQueue id f).boot = s.boot := rfl
@[simp] theorem modQueue_supervisor (s : State) (id : Nat) (f : Queue → Queue) : (s.modQueue id f).supervisor = s.supervisor := rfl
@[simp] theorem modQueue_badDies (s : State) (id : Nat) (f : Queue → Queue) : (s.modQueue id f).badDies = s.badDies := rfl
@[simp] theorem modQueue_softErrs (s : State) (id : Nat) (f : Queue → Queue) : (s.modQueue id f).softErrs = s.softErrs := rfl
@[simp] theorem modQueue_groomWaits (s : State) (id : Nat) (f : Queue → Queue) : (s.modQueue id f).groomWaits = s.groomWaits := rfl

/-! ## modVi -/

@[simp] theorem modVi_inputs (s : State) (fn : Nat) (f : Vi → Vi) : (s.modVi fn f).inputs = s.inputs := rfl
@[simp] theorem modVi_turn (s : State) (fn : Nat) (f : Vi → Vi) : (s.modVi fn f).turn = s.turn := rfl
@[simp] theorem modVi_fresh (s : State) (fn : Nat) (f : Vi → Vi) : (s.modVi fn f).fresh = s.fresh := rfl
@[simp] theorem modVi_cur (s : State) (fn : Nat) (f : Vi → Vi) : (s.modVi fn f).cur = s.cur := rfl
@[simp] theorem modVi_forced (s : State) (fn : Nat) (f : Vi → Vi) : (s.modVi fn f).forced = s.forced := rfl
@[simp] theorem modVi_stage (s : State) (fn : Nat) (f : Vi → Vi) : (s.modVi fn f).stage = s.stage := rfl
@[simp] theorem modVi_cycle (s : State) (fn : Nat) (f : Vi → Vi) : (s.modVi fn f).cycle = s.cycle := rfl
@[simp] theorem modVi_coreCycle (s : State) (fn : Nat) (f : Vi → Vi) : (s.modVi fn f).coreCycle = s.coreCycle := rfl
@[simp] theorem modVi_life (s : State) (fn : Nat) (f : Vi → Vi) : (s.modVi fn f).life = s.life := rfl
@[simp] theorem modVi_nextLife (s : State) (fn : Nat) (f : Vi → Vi) : (s.modVi fn f).nextLife = s.nextLife := rfl
@[simp] theorem modVi_alarm (s : State) (fn : Nat) (f : Vi → Vi) : (s.modVi fn f).alarm = s.alarm := rfl
@[simp] theorem modVi_keysErased (s : State) (fn : Nat) (f : Vi → Vi) : (s.modVi fn f).keysErased = s.keysErased := rfl
@[simp] theorem modVi_link (s : State) (fn : Nat) (f : Vi → Vi) : (s.modVi fn f).link = s.link := rfl
@[simp] theorem modVi_throttled (s : State) (fn : Nat) (f : Vi → Vi) : (s.modVi fn f).throttled = s.throttled := rfl
@[simp] theorem modVi_dies (s : State) (fn : Nat) (f : Vi → Vi) : (s.modVi fn f).dies = s.dies := rfl
@[simp] theorem modVi_trackCaps (s : State) (fn : Nat) (f : Vi → Vi) : (s.modVi fn f).trackCaps = s.trackCaps := rfl
@[simp] theorem modVi_deadClusters (s : State) (fn : Nat) (f : Vi → Vi) : (s.modVi fn f).deadClusters = s.deadClusters := rfl
@[simp] theorem modVi_spareSectors (s : State) (fn : Nat) (f : Vi → Vi) : (s.modVi fn f).spareSectors = s.spareSectors := rfl
@[simp] theorem modVi_mem (s : State) (fn : Nat) (f : Vi → Vi) : (s.modVi fn f).mem = s.mem := rfl
@[simp] theorem modVi_ilvBlocks (s : State) (fn : Nat) (f : Vi → Vi) : (s.modVi fn f).ilvBlocks = s.ilvBlocks := rfl
@[simp] theorem modVi_poison (s : State) (fn : Nat) (f : Vi → Vi) : (s.modVi fn f).poison = s.poison := rfl
@[simp] theorem modVi_codeErrs (s : State) (fn : Nat) (f : Vi → Vi) : (s.modVi fn f).codeErrs = s.codeErrs := rfl
@[simp] theorem modVi_regPoison (s : State) (fn : Nat) (f : Vi → Vi) : (s.modVi fn f).regPoison = s.regPoison := rfl
@[simp] theorem modVi_unswept (s : State) (fn : Nat) (f : Vi → Vi) : (s.modVi fn f).unswept = s.unswept := rfl
@[simp] theorem modVi_homeLines (s : State) (fn : Nat) (f : Vi → Vi) : (s.modVi fn f).homeLines = s.homeLines := rfl
@[simp] theorem modVi_sect (s : State) (fn : Nat) (f : Vi → Vi) : (s.modVi fn f).sect = s.sect := rfl
@[simp] theorem modVi_l1 (s : State) (fn : Nat) (f : Vi → Vi) : (s.modVi fn f).l1 = s.l1 := rfl
@[simp] theorem modVi_fills (s : State) (fn : Nat) (f : Vi → Vi) : (s.modVi fn f).fills = s.fills := rfl
@[simp] theorem modVi_versions (s : State) (fn : Nat) (f : Vi → Vi) : (s.modVi fn f).versions = s.versions := rfl
@[simp] theorem modVi_tlb (s : State) (fn : Nat) (f : Vi → Vi) : (s.modVi fn f).tlb = s.tlb := rfl
@[simp] theorem modVi_sectTlb (s : State) (fn : Nat) (f : Vi → Vi) : (s.modVi fn f).sectTlb = s.sectTlb := rfl
@[simp] theorem modVi_tlbInvs (s : State) (fn : Nat) (f : Vi → Vi) : (s.modVi fn f).tlbInvs = s.tlbInvs := rfl
@[simp] theorem modVi_hostLines (s : State) (fn : Nat) (f : Vi → Vi) : (s.modVi fn f).hostLines = s.hostLines := rfl
@[simp] theorem modVi_flows (s : State) (fn : Nat) (f : Vi → Vi) : (s.modVi fn f).flows = s.flows := rfl
@[simp] theorem modVi_groom (s : State) (fn : Nat) (f : Vi → Vi) : (s.modVi fn f).groom = s.groom := rfl
@[simp] theorem modVi_sunk (s : State) (fn : Nat) (f : Vi → Vi) : (s.modVi fn f).sunk = s.sunk := rfl
@[simp] theorem modVi_tiles (s : State) (fn : Nat) (f : Vi → Vi) : (s.modVi fn f).tiles = s.tiles := rfl
@[simp] theorem modVi_states (s : State) (fn : Nat) (f : Vi → Vi) : (s.modVi fn f).states = s.states := rfl
@[simp] theorem modVi_waves (s : State) (fn : Nat) (f : Vi → Vi) : (s.modVi fn f).waves = s.waves := rfl
@[simp] theorem modVi_gangs (s : State) (fn : Nat) (f : Vi → Vi) : (s.modVi fn f).gangs = s.gangs := rfl
@[simp] theorem modVi_launches (s : State) (fn : Nat) (f : Vi → Vi) : (s.modVi fn f).launches = s.launches := rfl
@[simp] theorem modVi_nextId (s : State) (fn : Nat) (f : Vi → Vi) : (s.modVi fn f).nextId = s.nextId := rfl
@[simp] theorem modVi_ctxs (s : State) (fn : Nat) (f : Vi → Vi) : (s.modVi fn f).ctxs = s.ctxs := rfl
@[simp] theorem modVi_queues (s : State) (fn : Nat) (f : Vi → Vi) : (s.modVi fn f).queues = s.queues := rfl
@[simp] theorem modVi_seals (s : State) (fn : Nat) (f : Vi → Vi) : (s.modVi fn f).seals = s.seals := rfl
@[simp] theorem modVi_parts (s : State) (fn : Nat) (f : Vi → Vi) : (s.modVi fn f).parts = s.parts := rfl
@[simp] theorem modVi_faults (s : State) (fn : Nat) (f : Vi → Vi) : (s.modVi fn f).faults = s.faults := rfl
@[simp] theorem modVi_colls (s : State) (fn : Nat) (f : Vi → Vi) : (s.modVi fn f).colls = s.colls := rfl
@[simp] theorem modVi_picks (s : State) (fn : Nat) (f : Vi → Vi) : (s.modVi fn f).picks = s.picks := rfl
@[simp] theorem modVi_boot (s : State) (fn : Nat) (f : Vi → Vi) : (s.modVi fn f).boot = s.boot := rfl
@[simp] theorem modVi_supervisor (s : State) (fn : Nat) (f : Vi → Vi) : (s.modVi fn f).supervisor = s.supervisor := rfl
@[simp] theorem modVi_badDies (s : State) (fn : Nat) (f : Vi → Vi) : (s.modVi fn f).badDies = s.badDies := rfl
@[simp] theorem modVi_softErrs (s : State) (fn : Nat) (f : Vi → Vi) : (s.modVi fn f).softErrs = s.softErrs := rfl
@[simp] theorem modVi_groomWaits (s : State) (fn : Nat) (f : Vi → Vi) : (s.modVi fn f).groomWaits = s.groomWaits := rfl

/-! ## modPart -/

@[simp] theorem modPart_inputs (s : State) (id : Nat) (f : Part → Part) : (s.modPart id f).inputs = s.inputs := rfl
@[simp] theorem modPart_turn (s : State) (id : Nat) (f : Part → Part) : (s.modPart id f).turn = s.turn := rfl
@[simp] theorem modPart_fresh (s : State) (id : Nat) (f : Part → Part) : (s.modPart id f).fresh = s.fresh := rfl
@[simp] theorem modPart_cur (s : State) (id : Nat) (f : Part → Part) : (s.modPart id f).cur = s.cur := rfl
@[simp] theorem modPart_forced (s : State) (id : Nat) (f : Part → Part) : (s.modPart id f).forced = s.forced := rfl
@[simp] theorem modPart_stage (s : State) (id : Nat) (f : Part → Part) : (s.modPart id f).stage = s.stage := rfl
@[simp] theorem modPart_cycle (s : State) (id : Nat) (f : Part → Part) : (s.modPart id f).cycle = s.cycle := rfl
@[simp] theorem modPart_coreCycle (s : State) (id : Nat) (f : Part → Part) : (s.modPart id f).coreCycle = s.coreCycle := rfl
@[simp] theorem modPart_life (s : State) (id : Nat) (f : Part → Part) : (s.modPart id f).life = s.life := rfl
@[simp] theorem modPart_nextLife (s : State) (id : Nat) (f : Part → Part) : (s.modPart id f).nextLife = s.nextLife := rfl
@[simp] theorem modPart_alarm (s : State) (id : Nat) (f : Part → Part) : (s.modPart id f).alarm = s.alarm := rfl
@[simp] theorem modPart_keysErased (s : State) (id : Nat) (f : Part → Part) : (s.modPart id f).keysErased = s.keysErased := rfl
@[simp] theorem modPart_link (s : State) (id : Nat) (f : Part → Part) : (s.modPart id f).link = s.link := rfl
@[simp] theorem modPart_throttled (s : State) (id : Nat) (f : Part → Part) : (s.modPart id f).throttled = s.throttled := rfl
@[simp] theorem modPart_dies (s : State) (id : Nat) (f : Part → Part) : (s.modPart id f).dies = s.dies := rfl
@[simp] theorem modPart_trackCaps (s : State) (id : Nat) (f : Part → Part) : (s.modPart id f).trackCaps = s.trackCaps := rfl
@[simp] theorem modPart_deadClusters (s : State) (id : Nat) (f : Part → Part) : (s.modPart id f).deadClusters = s.deadClusters := rfl
@[simp] theorem modPart_spareSectors (s : State) (id : Nat) (f : Part → Part) : (s.modPart id f).spareSectors = s.spareSectors := rfl
@[simp] theorem modPart_mem (s : State) (id : Nat) (f : Part → Part) : (s.modPart id f).mem = s.mem := rfl
@[simp] theorem modPart_ilvBlocks (s : State) (id : Nat) (f : Part → Part) : (s.modPart id f).ilvBlocks = s.ilvBlocks := rfl
@[simp] theorem modPart_poison (s : State) (id : Nat) (f : Part → Part) : (s.modPart id f).poison = s.poison := rfl
@[simp] theorem modPart_codeErrs (s : State) (id : Nat) (f : Part → Part) : (s.modPart id f).codeErrs = s.codeErrs := rfl
@[simp] theorem modPart_regPoison (s : State) (id : Nat) (f : Part → Part) : (s.modPart id f).regPoison = s.regPoison := rfl
@[simp] theorem modPart_unswept (s : State) (id : Nat) (f : Part → Part) : (s.modPart id f).unswept = s.unswept := rfl
@[simp] theorem modPart_homeLines (s : State) (id : Nat) (f : Part → Part) : (s.modPart id f).homeLines = s.homeLines := rfl
@[simp] theorem modPart_sect (s : State) (id : Nat) (f : Part → Part) : (s.modPart id f).sect = s.sect := rfl
@[simp] theorem modPart_l1 (s : State) (id : Nat) (f : Part → Part) : (s.modPart id f).l1 = s.l1 := rfl
@[simp] theorem modPart_fills (s : State) (id : Nat) (f : Part → Part) : (s.modPart id f).fills = s.fills := rfl
@[simp] theorem modPart_versions (s : State) (id : Nat) (f : Part → Part) : (s.modPart id f).versions = s.versions := rfl
@[simp] theorem modPart_tlb (s : State) (id : Nat) (f : Part → Part) : (s.modPart id f).tlb = s.tlb := rfl
@[simp] theorem modPart_sectTlb (s : State) (id : Nat) (f : Part → Part) : (s.modPart id f).sectTlb = s.sectTlb := rfl
@[simp] theorem modPart_tlbInvs (s : State) (id : Nat) (f : Part → Part) : (s.modPart id f).tlbInvs = s.tlbInvs := rfl
@[simp] theorem modPart_hostLines (s : State) (id : Nat) (f : Part → Part) : (s.modPart id f).hostLines = s.hostLines := rfl
@[simp] theorem modPart_flows (s : State) (id : Nat) (f : Part → Part) : (s.modPart id f).flows = s.flows := rfl
@[simp] theorem modPart_groom (s : State) (id : Nat) (f : Part → Part) : (s.modPart id f).groom = s.groom := rfl
@[simp] theorem modPart_sunk (s : State) (id : Nat) (f : Part → Part) : (s.modPart id f).sunk = s.sunk := rfl
@[simp] theorem modPart_tiles (s : State) (id : Nat) (f : Part → Part) : (s.modPart id f).tiles = s.tiles := rfl
@[simp] theorem modPart_states (s : State) (id : Nat) (f : Part → Part) : (s.modPart id f).states = s.states := rfl
@[simp] theorem modPart_waves (s : State) (id : Nat) (f : Part → Part) : (s.modPart id f).waves = s.waves := rfl
@[simp] theorem modPart_gangs (s : State) (id : Nat) (f : Part → Part) : (s.modPart id f).gangs = s.gangs := rfl
@[simp] theorem modPart_launches (s : State) (id : Nat) (f : Part → Part) : (s.modPart id f).launches = s.launches := rfl
@[simp] theorem modPart_nextId (s : State) (id : Nat) (f : Part → Part) : (s.modPart id f).nextId = s.nextId := rfl
@[simp] theorem modPart_ctxs (s : State) (id : Nat) (f : Part → Part) : (s.modPart id f).ctxs = s.ctxs := rfl
@[simp] theorem modPart_queues (s : State) (id : Nat) (f : Part → Part) : (s.modPart id f).queues = s.queues := rfl
@[simp] theorem modPart_seals (s : State) (id : Nat) (f : Part → Part) : (s.modPart id f).seals = s.seals := rfl
@[simp] theorem modPart_vis (s : State) (id : Nat) (f : Part → Part) : (s.modPart id f).vis = s.vis := rfl
@[simp] theorem modPart_faults (s : State) (id : Nat) (f : Part → Part) : (s.modPart id f).faults = s.faults := rfl
@[simp] theorem modPart_colls (s : State) (id : Nat) (f : Part → Part) : (s.modPart id f).colls = s.colls := rfl
@[simp] theorem modPart_picks (s : State) (id : Nat) (f : Part → Part) : (s.modPart id f).picks = s.picks := rfl
@[simp] theorem modPart_boot (s : State) (id : Nat) (f : Part → Part) : (s.modPart id f).boot = s.boot := rfl
@[simp] theorem modPart_supervisor (s : State) (id : Nat) (f : Part → Part) : (s.modPart id f).supervisor = s.supervisor := rfl
@[simp] theorem modPart_badDies (s : State) (id : Nat) (f : Part → Part) : (s.modPart id f).badDies = s.badDies := rfl
@[simp] theorem modPart_softErrs (s : State) (id : Nat) (f : Part → Part) : (s.modPart id f).softErrs = s.softErrs := rfl
@[simp] theorem modPart_groomWaits (s : State) (id : Nat) (f : Part → Part) : (s.modPart id f).groomWaits = s.groomWaits := rfl

/-! ## modDie -/

@[simp] theorem modDie_inputs (s : State) (id : Nat) (f : Die → Die) : (s.modDie id f).inputs = s.inputs := rfl
@[simp] theorem modDie_turn (s : State) (id : Nat) (f : Die → Die) : (s.modDie id f).turn = s.turn := rfl
@[simp] theorem modDie_fresh (s : State) (id : Nat) (f : Die → Die) : (s.modDie id f).fresh = s.fresh := rfl
@[simp] theorem modDie_cur (s : State) (id : Nat) (f : Die → Die) : (s.modDie id f).cur = s.cur := rfl
@[simp] theorem modDie_forced (s : State) (id : Nat) (f : Die → Die) : (s.modDie id f).forced = s.forced := rfl
@[simp] theorem modDie_stage (s : State) (id : Nat) (f : Die → Die) : (s.modDie id f).stage = s.stage := rfl
@[simp] theorem modDie_cycle (s : State) (id : Nat) (f : Die → Die) : (s.modDie id f).cycle = s.cycle := rfl
@[simp] theorem modDie_coreCycle (s : State) (id : Nat) (f : Die → Die) : (s.modDie id f).coreCycle = s.coreCycle := rfl
@[simp] theorem modDie_life (s : State) (id : Nat) (f : Die → Die) : (s.modDie id f).life = s.life := rfl
@[simp] theorem modDie_nextLife (s : State) (id : Nat) (f : Die → Die) : (s.modDie id f).nextLife = s.nextLife := rfl
@[simp] theorem modDie_alarm (s : State) (id : Nat) (f : Die → Die) : (s.modDie id f).alarm = s.alarm := rfl
@[simp] theorem modDie_keysErased (s : State) (id : Nat) (f : Die → Die) : (s.modDie id f).keysErased = s.keysErased := rfl
@[simp] theorem modDie_link (s : State) (id : Nat) (f : Die → Die) : (s.modDie id f).link = s.link := rfl
@[simp] theorem modDie_throttled (s : State) (id : Nat) (f : Die → Die) : (s.modDie id f).throttled = s.throttled := rfl
@[simp] theorem modDie_trackCaps (s : State) (id : Nat) (f : Die → Die) : (s.modDie id f).trackCaps = s.trackCaps := rfl
@[simp] theorem modDie_deadClusters (s : State) (id : Nat) (f : Die → Die) : (s.modDie id f).deadClusters = s.deadClusters := rfl
@[simp] theorem modDie_spareSectors (s : State) (id : Nat) (f : Die → Die) : (s.modDie id f).spareSectors = s.spareSectors := rfl
@[simp] theorem modDie_mem (s : State) (id : Nat) (f : Die → Die) : (s.modDie id f).mem = s.mem := rfl
@[simp] theorem modDie_ilvBlocks (s : State) (id : Nat) (f : Die → Die) : (s.modDie id f).ilvBlocks = s.ilvBlocks := rfl
@[simp] theorem modDie_poison (s : State) (id : Nat) (f : Die → Die) : (s.modDie id f).poison = s.poison := rfl
@[simp] theorem modDie_codeErrs (s : State) (id : Nat) (f : Die → Die) : (s.modDie id f).codeErrs = s.codeErrs := rfl
@[simp] theorem modDie_regPoison (s : State) (id : Nat) (f : Die → Die) : (s.modDie id f).regPoison = s.regPoison := rfl
@[simp] theorem modDie_unswept (s : State) (id : Nat) (f : Die → Die) : (s.modDie id f).unswept = s.unswept := rfl
@[simp] theorem modDie_homeLines (s : State) (id : Nat) (f : Die → Die) : (s.modDie id f).homeLines = s.homeLines := rfl
@[simp] theorem modDie_sect (s : State) (id : Nat) (f : Die → Die) : (s.modDie id f).sect = s.sect := rfl
@[simp] theorem modDie_l1 (s : State) (id : Nat) (f : Die → Die) : (s.modDie id f).l1 = s.l1 := rfl
@[simp] theorem modDie_fills (s : State) (id : Nat) (f : Die → Die) : (s.modDie id f).fills = s.fills := rfl
@[simp] theorem modDie_versions (s : State) (id : Nat) (f : Die → Die) : (s.modDie id f).versions = s.versions := rfl
@[simp] theorem modDie_tlb (s : State) (id : Nat) (f : Die → Die) : (s.modDie id f).tlb = s.tlb := rfl
@[simp] theorem modDie_sectTlb (s : State) (id : Nat) (f : Die → Die) : (s.modDie id f).sectTlb = s.sectTlb := rfl
@[simp] theorem modDie_tlbInvs (s : State) (id : Nat) (f : Die → Die) : (s.modDie id f).tlbInvs = s.tlbInvs := rfl
@[simp] theorem modDie_hostLines (s : State) (id : Nat) (f : Die → Die) : (s.modDie id f).hostLines = s.hostLines := rfl
@[simp] theorem modDie_flows (s : State) (id : Nat) (f : Die → Die) : (s.modDie id f).flows = s.flows := rfl
@[simp] theorem modDie_groom (s : State) (id : Nat) (f : Die → Die) : (s.modDie id f).groom = s.groom := rfl
@[simp] theorem modDie_sunk (s : State) (id : Nat) (f : Die → Die) : (s.modDie id f).sunk = s.sunk := rfl
@[simp] theorem modDie_tiles (s : State) (id : Nat) (f : Die → Die) : (s.modDie id f).tiles = s.tiles := rfl
@[simp] theorem modDie_states (s : State) (id : Nat) (f : Die → Die) : (s.modDie id f).states = s.states := rfl
@[simp] theorem modDie_waves (s : State) (id : Nat) (f : Die → Die) : (s.modDie id f).waves = s.waves := rfl
@[simp] theorem modDie_gangs (s : State) (id : Nat) (f : Die → Die) : (s.modDie id f).gangs = s.gangs := rfl
@[simp] theorem modDie_launches (s : State) (id : Nat) (f : Die → Die) : (s.modDie id f).launches = s.launches := rfl
@[simp] theorem modDie_nextId (s : State) (id : Nat) (f : Die → Die) : (s.modDie id f).nextId = s.nextId := rfl
@[simp] theorem modDie_ctxs (s : State) (id : Nat) (f : Die → Die) : (s.modDie id f).ctxs = s.ctxs := rfl
@[simp] theorem modDie_queues (s : State) (id : Nat) (f : Die → Die) : (s.modDie id f).queues = s.queues := rfl
@[simp] theorem modDie_seals (s : State) (id : Nat) (f : Die → Die) : (s.modDie id f).seals = s.seals := rfl
@[simp] theorem modDie_vis (s : State) (id : Nat) (f : Die → Die) : (s.modDie id f).vis = s.vis := rfl
@[simp] theorem modDie_parts (s : State) (id : Nat) (f : Die → Die) : (s.modDie id f).parts = s.parts := rfl
@[simp] theorem modDie_faults (s : State) (id : Nat) (f : Die → Die) : (s.modDie id f).faults = s.faults := rfl
@[simp] theorem modDie_colls (s : State) (id : Nat) (f : Die → Die) : (s.modDie id f).colls = s.colls := rfl
@[simp] theorem modDie_picks (s : State) (id : Nat) (f : Die → Die) : (s.modDie id f).picks = s.picks := rfl
@[simp] theorem modDie_boot (s : State) (id : Nat) (f : Die → Die) : (s.modDie id f).boot = s.boot := rfl
@[simp] theorem modDie_supervisor (s : State) (id : Nat) (f : Die → Die) : (s.modDie id f).supervisor = s.supervisor := rfl
@[simp] theorem modDie_badDies (s : State) (id : Nat) (f : Die → Die) : (s.modDie id f).badDies = s.badDies := rfl
@[simp] theorem modDie_softErrs (s : State) (id : Nat) (f : Die → Die) : (s.modDie id f).softErrs = s.softErrs := rfl
@[simp] theorem modDie_groomWaits (s : State) (id : Nat) (f : Die → Die) : (s.modDie id f).groomWaits = s.groomWaits := rfl

/-! ## modCur -/

@[simp] theorem modCur_inputs (s : State) (f : Issue → Issue) : (s.modCur f).inputs = s.inputs := rfl
@[simp] theorem modCur_turn (s : State) (f : Issue → Issue) : (s.modCur f).turn = s.turn := rfl
@[simp] theorem modCur_fresh (s : State) (f : Issue → Issue) : (s.modCur f).fresh = s.fresh := rfl
@[simp] theorem modCur_forced (s : State) (f : Issue → Issue) : (s.modCur f).forced = s.forced := rfl
@[simp] theorem modCur_stage (s : State) (f : Issue → Issue) : (s.modCur f).stage = s.stage := rfl
@[simp] theorem modCur_cycle (s : State) (f : Issue → Issue) : (s.modCur f).cycle = s.cycle := rfl
@[simp] theorem modCur_coreCycle (s : State) (f : Issue → Issue) : (s.modCur f).coreCycle = s.coreCycle := rfl
@[simp] theorem modCur_life (s : State) (f : Issue → Issue) : (s.modCur f).life = s.life := rfl
@[simp] theorem modCur_nextLife (s : State) (f : Issue → Issue) : (s.modCur f).nextLife = s.nextLife := rfl
@[simp] theorem modCur_alarm (s : State) (f : Issue → Issue) : (s.modCur f).alarm = s.alarm := rfl
@[simp] theorem modCur_keysErased (s : State) (f : Issue → Issue) : (s.modCur f).keysErased = s.keysErased := rfl
@[simp] theorem modCur_link (s : State) (f : Issue → Issue) : (s.modCur f).link = s.link := rfl
@[simp] theorem modCur_throttled (s : State) (f : Issue → Issue) : (s.modCur f).throttled = s.throttled := rfl
@[simp] theorem modCur_dies (s : State) (f : Issue → Issue) : (s.modCur f).dies = s.dies := rfl
@[simp] theorem modCur_trackCaps (s : State) (f : Issue → Issue) : (s.modCur f).trackCaps = s.trackCaps := rfl
@[simp] theorem modCur_deadClusters (s : State) (f : Issue → Issue) : (s.modCur f).deadClusters = s.deadClusters := rfl
@[simp] theorem modCur_spareSectors (s : State) (f : Issue → Issue) : (s.modCur f).spareSectors = s.spareSectors := rfl
@[simp] theorem modCur_mem (s : State) (f : Issue → Issue) : (s.modCur f).mem = s.mem := rfl
@[simp] theorem modCur_ilvBlocks (s : State) (f : Issue → Issue) : (s.modCur f).ilvBlocks = s.ilvBlocks := rfl
@[simp] theorem modCur_poison (s : State) (f : Issue → Issue) : (s.modCur f).poison = s.poison := rfl
@[simp] theorem modCur_codeErrs (s : State) (f : Issue → Issue) : (s.modCur f).codeErrs = s.codeErrs := rfl
@[simp] theorem modCur_regPoison (s : State) (f : Issue → Issue) : (s.modCur f).regPoison = s.regPoison := rfl
@[simp] theorem modCur_unswept (s : State) (f : Issue → Issue) : (s.modCur f).unswept = s.unswept := rfl
@[simp] theorem modCur_homeLines (s : State) (f : Issue → Issue) : (s.modCur f).homeLines = s.homeLines := rfl
@[simp] theorem modCur_sect (s : State) (f : Issue → Issue) : (s.modCur f).sect = s.sect := rfl
@[simp] theorem modCur_l1 (s : State) (f : Issue → Issue) : (s.modCur f).l1 = s.l1 := rfl
@[simp] theorem modCur_fills (s : State) (f : Issue → Issue) : (s.modCur f).fills = s.fills := rfl
@[simp] theorem modCur_versions (s : State) (f : Issue → Issue) : (s.modCur f).versions = s.versions := rfl
@[simp] theorem modCur_tlb (s : State) (f : Issue → Issue) : (s.modCur f).tlb = s.tlb := rfl
@[simp] theorem modCur_sectTlb (s : State) (f : Issue → Issue) : (s.modCur f).sectTlb = s.sectTlb := rfl
@[simp] theorem modCur_tlbInvs (s : State) (f : Issue → Issue) : (s.modCur f).tlbInvs = s.tlbInvs := rfl
@[simp] theorem modCur_hostLines (s : State) (f : Issue → Issue) : (s.modCur f).hostLines = s.hostLines := rfl
@[simp] theorem modCur_flows (s : State) (f : Issue → Issue) : (s.modCur f).flows = s.flows := rfl
@[simp] theorem modCur_groom (s : State) (f : Issue → Issue) : (s.modCur f).groom = s.groom := rfl
@[simp] theorem modCur_sunk (s : State) (f : Issue → Issue) : (s.modCur f).sunk = s.sunk := rfl
@[simp] theorem modCur_tiles (s : State) (f : Issue → Issue) : (s.modCur f).tiles = s.tiles := rfl
@[simp] theorem modCur_states (s : State) (f : Issue → Issue) : (s.modCur f).states = s.states := rfl
@[simp] theorem modCur_waves (s : State) (f : Issue → Issue) : (s.modCur f).waves = s.waves := rfl
@[simp] theorem modCur_gangs (s : State) (f : Issue → Issue) : (s.modCur f).gangs = s.gangs := rfl
@[simp] theorem modCur_launches (s : State) (f : Issue → Issue) : (s.modCur f).launches = s.launches := rfl
@[simp] theorem modCur_nextId (s : State) (f : Issue → Issue) : (s.modCur f).nextId = s.nextId := rfl
@[simp] theorem modCur_ctxs (s : State) (f : Issue → Issue) : (s.modCur f).ctxs = s.ctxs := rfl
@[simp] theorem modCur_queues (s : State) (f : Issue → Issue) : (s.modCur f).queues = s.queues := rfl
@[simp] theorem modCur_seals (s : State) (f : Issue → Issue) : (s.modCur f).seals = s.seals := rfl
@[simp] theorem modCur_vis (s : State) (f : Issue → Issue) : (s.modCur f).vis = s.vis := rfl
@[simp] theorem modCur_parts (s : State) (f : Issue → Issue) : (s.modCur f).parts = s.parts := rfl
@[simp] theorem modCur_faults (s : State) (f : Issue → Issue) : (s.modCur f).faults = s.faults := rfl
@[simp] theorem modCur_colls (s : State) (f : Issue → Issue) : (s.modCur f).colls = s.colls := rfl
@[simp] theorem modCur_picks (s : State) (f : Issue → Issue) : (s.modCur f).picks = s.picks := rfl
@[simp] theorem modCur_boot (s : State) (f : Issue → Issue) : (s.modCur f).boot = s.boot := rfl
@[simp] theorem modCur_supervisor (s : State) (f : Issue → Issue) : (s.modCur f).supervisor = s.supervisor := rfl
@[simp] theorem modCur_badDies (s : State) (f : Issue → Issue) : (s.modCur f).badDies = s.badDies := rfl
@[simp] theorem modCur_softErrs (s : State) (f : Issue → Issue) : (s.modCur f).softErrs = s.softErrs := rfl
@[simp] theorem modCur_groomWaits (s : State) (f : Issue → Issue) : (s.modCur f).groomWaits = s.groomWaits := rfl

/-! ## freshen -/

@[simp] theorem freshen_inputs (s : State) : s.freshen.inputs = s.inputs := rfl
@[simp] theorem freshen_turn (s : State) : s.freshen.turn = s.turn := rfl
@[simp] theorem freshen_cur (s : State) : s.freshen.cur = s.cur := rfl
@[simp] theorem freshen_forced (s : State) : s.freshen.forced = s.forced := rfl
@[simp] theorem freshen_stage (s : State) : s.freshen.stage = s.stage := rfl
@[simp] theorem freshen_cycle (s : State) : s.freshen.cycle = s.cycle := rfl
@[simp] theorem freshen_coreCycle (s : State) : s.freshen.coreCycle = s.coreCycle := rfl
@[simp] theorem freshen_life (s : State) : s.freshen.life = s.life := rfl
@[simp] theorem freshen_nextLife (s : State) : s.freshen.nextLife = s.nextLife := rfl
@[simp] theorem freshen_alarm (s : State) : s.freshen.alarm = s.alarm := rfl
@[simp] theorem freshen_keysErased (s : State) : s.freshen.keysErased = s.keysErased := rfl
@[simp] theorem freshen_link (s : State) : s.freshen.link = s.link := rfl
@[simp] theorem freshen_throttled (s : State) : s.freshen.throttled = s.throttled := rfl
@[simp] theorem freshen_dies (s : State) : s.freshen.dies = s.dies := rfl
@[simp] theorem freshen_trackCaps (s : State) : s.freshen.trackCaps = s.trackCaps := rfl
@[simp] theorem freshen_deadClusters (s : State) : s.freshen.deadClusters = s.deadClusters := rfl
@[simp] theorem freshen_spareSectors (s : State) : s.freshen.spareSectors = s.spareSectors := rfl
@[simp] theorem freshen_mem (s : State) : s.freshen.mem = s.mem := rfl
@[simp] theorem freshen_ilvBlocks (s : State) : s.freshen.ilvBlocks = s.ilvBlocks := rfl
@[simp] theorem freshen_poison (s : State) : s.freshen.poison = s.poison := rfl
@[simp] theorem freshen_codeErrs (s : State) : s.freshen.codeErrs = s.codeErrs := rfl
@[simp] theorem freshen_regPoison (s : State) : s.freshen.regPoison = s.regPoison := rfl
@[simp] theorem freshen_unswept (s : State) : s.freshen.unswept = s.unswept := rfl
@[simp] theorem freshen_homeLines (s : State) : s.freshen.homeLines = s.homeLines := rfl
@[simp] theorem freshen_sect (s : State) : s.freshen.sect = s.sect := rfl
@[simp] theorem freshen_l1 (s : State) : s.freshen.l1 = s.l1 := rfl
@[simp] theorem freshen_fills (s : State) : s.freshen.fills = s.fills := rfl
@[simp] theorem freshen_versions (s : State) : s.freshen.versions = s.versions := rfl
@[simp] theorem freshen_tlb (s : State) : s.freshen.tlb = s.tlb := rfl
@[simp] theorem freshen_sectTlb (s : State) : s.freshen.sectTlb = s.sectTlb := rfl
@[simp] theorem freshen_tlbInvs (s : State) : s.freshen.tlbInvs = s.tlbInvs := rfl
@[simp] theorem freshen_hostLines (s : State) : s.freshen.hostLines = s.hostLines := rfl
@[simp] theorem freshen_flows (s : State) : s.freshen.flows = s.flows := rfl
@[simp] theorem freshen_groom (s : State) : s.freshen.groom = s.groom := rfl
@[simp] theorem freshen_sunk (s : State) : s.freshen.sunk = s.sunk := rfl
@[simp] theorem freshen_tiles (s : State) : s.freshen.tiles = s.tiles := rfl
@[simp] theorem freshen_states (s : State) : s.freshen.states = s.states := rfl
@[simp] theorem freshen_waves (s : State) : s.freshen.waves = s.waves := rfl
@[simp] theorem freshen_gangs (s : State) : s.freshen.gangs = s.gangs := rfl
@[simp] theorem freshen_launches (s : State) : s.freshen.launches = s.launches := rfl
@[simp] theorem freshen_nextId (s : State) : s.freshen.nextId = s.nextId := rfl
@[simp] theorem freshen_ctxs (s : State) : s.freshen.ctxs = s.ctxs := rfl
@[simp] theorem freshen_queues (s : State) : s.freshen.queues = s.queues := rfl
@[simp] theorem freshen_seals (s : State) : s.freshen.seals = s.seals := rfl
@[simp] theorem freshen_vis (s : State) : s.freshen.vis = s.vis := rfl
@[simp] theorem freshen_parts (s : State) : s.freshen.parts = s.parts := rfl
@[simp] theorem freshen_faults (s : State) : s.freshen.faults = s.faults := rfl
@[simp] theorem freshen_colls (s : State) : s.freshen.colls = s.colls := rfl
@[simp] theorem freshen_picks (s : State) : s.freshen.picks = s.picks := rfl
@[simp] theorem freshen_boot (s : State) : s.freshen.boot = s.boot := rfl
@[simp] theorem freshen_supervisor (s : State) : s.freshen.supervisor = s.supervisor := rfl
@[simp] theorem freshen_badDies (s : State) : s.freshen.badDies = s.badDies := rfl
@[simp] theorem freshen_softErrs (s : State) : s.freshen.softErrs = s.softErrs := rfl
@[simp] theorem freshen_groomWaits (s : State) : s.freshen.groomWaits = s.groomWaits := rfl

/-! ## picked -/

@[simp] theorem picked_inputs (s : State) : s.picked.inputs = s.inputs := rfl
@[simp] theorem picked_turn (s : State) : s.picked.turn = s.turn := rfl
@[simp] theorem picked_fresh (s : State) : s.picked.fresh = s.fresh := rfl
@[simp] theorem picked_cur (s : State) : s.picked.cur = s.cur := rfl
@[simp] theorem picked_forced (s : State) : s.picked.forced = s.forced := rfl
@[simp] theorem picked_stage (s : State) : s.picked.stage = s.stage := rfl
@[simp] theorem picked_cycle (s : State) : s.picked.cycle = s.cycle := rfl
@[simp] theorem picked_coreCycle (s : State) : s.picked.coreCycle = s.coreCycle := rfl
@[simp] theorem picked_life (s : State) : s.picked.life = s.life := rfl
@[simp] theorem picked_nextLife (s : State) : s.picked.nextLife = s.nextLife := rfl
@[simp] theorem picked_alarm (s : State) : s.picked.alarm = s.alarm := rfl
@[simp] theorem picked_keysErased (s : State) : s.picked.keysErased = s.keysErased := rfl
@[simp] theorem picked_boot (s : State) : s.picked.boot = s.boot := rfl
@[simp] theorem picked_supervisor (s : State) : s.picked.supervisor = s.supervisor := rfl
@[simp] theorem picked_badDies (s : State) : s.picked.badDies = s.badDies := rfl
@[simp] theorem picked_link (s : State) : s.picked.link = s.link := rfl
@[simp] theorem picked_throttled (s : State) : s.picked.throttled = s.throttled := rfl
@[simp] theorem picked_dies (s : State) : s.picked.dies = s.dies := rfl
@[simp] theorem picked_trackCaps (s : State) : s.picked.trackCaps = s.trackCaps := rfl
@[simp] theorem picked_deadClusters (s : State) : s.picked.deadClusters = s.deadClusters := rfl
@[simp] theorem picked_spareSectors (s : State) : s.picked.spareSectors = s.spareSectors := rfl
@[simp] theorem picked_mem (s : State) : s.picked.mem = s.mem := rfl
@[simp] theorem picked_ilvBlocks (s : State) : s.picked.ilvBlocks = s.ilvBlocks := rfl
@[simp] theorem picked_poison (s : State) : s.picked.poison = s.poison := rfl
@[simp] theorem picked_softErrs (s : State) : s.picked.softErrs = s.softErrs := rfl
@[simp] theorem picked_codeErrs (s : State) : s.picked.codeErrs = s.codeErrs := rfl
@[simp] theorem picked_regPoison (s : State) : s.picked.regPoison = s.regPoison := rfl
@[simp] theorem picked_unswept (s : State) : s.picked.unswept = s.unswept := rfl
@[simp] theorem picked_homeLines (s : State) : s.picked.homeLines = s.homeLines := rfl
@[simp] theorem picked_sect (s : State) : s.picked.sect = s.sect := rfl
@[simp] theorem picked_l1 (s : State) : s.picked.l1 = s.l1 := rfl
@[simp] theorem picked_fills (s : State) : s.picked.fills = s.fills := rfl
@[simp] theorem picked_versions (s : State) : s.picked.versions = s.versions := rfl
@[simp] theorem picked_tlb (s : State) : s.picked.tlb = s.tlb := rfl
@[simp] theorem picked_sectTlb (s : State) : s.picked.sectTlb = s.sectTlb := rfl
@[simp] theorem picked_tlbInvs (s : State) : s.picked.tlbInvs = s.tlbInvs := rfl
@[simp] theorem picked_hostLines (s : State) : s.picked.hostLines = s.hostLines := rfl
@[simp] theorem picked_flows (s : State) : s.picked.flows = s.flows := rfl
@[simp] theorem picked_groom (s : State) : s.picked.groom = s.groom := rfl
@[simp] theorem picked_groomWaits (s : State) : s.picked.groomWaits = s.groomWaits := rfl
@[simp] theorem picked_sunk (s : State) : s.picked.sunk = s.sunk := rfl
@[simp] theorem picked_tiles (s : State) : s.picked.tiles = s.tiles := rfl
@[simp] theorem picked_states (s : State) : s.picked.states = s.states := rfl
@[simp] theorem picked_waves (s : State) : s.picked.waves = s.waves := rfl
@[simp] theorem picked_gangs (s : State) : s.picked.gangs = s.gangs := rfl
@[simp] theorem picked_launches (s : State) : s.picked.launches = s.launches := rfl
@[simp] theorem picked_nextId (s : State) : s.picked.nextId = s.nextId := rfl
@[simp] theorem picked_ctxs (s : State) : s.picked.ctxs = s.ctxs := rfl
@[simp] theorem picked_queues (s : State) : s.picked.queues = s.queues := rfl
@[simp] theorem picked_seals (s : State) : s.picked.seals = s.seals := rfl
@[simp] theorem picked_vis (s : State) : s.picked.vis = s.vis := rfl
@[simp] theorem picked_parts (s : State) : s.picked.parts = s.parts := rfl
@[simp] theorem picked_faults (s : State) : s.picked.faults = s.faults := rfl
@[simp] theorem picked_colls (s : State) : s.picked.colls = s.colls := rfl

end Sys2Proof.Machine
end

