-- ==== Sys2Proof/Laws/Memory.lean ====
section
/-! SUPPORT. Every operation over memory keeps its canonical form (`MemOk`), said once for each operation that writes a
byte of memory or of a scratchpad; `MemOk.same` and `MemOk.mod` serve every other one. And what a line of memory holds, byte by
byte. -/

namespace Sys2Proof.Machine

/-! ## What leaves memory alone -/

theorem MemOk.same {s t : State} (h : MemOk s) (hm : t.mem = s.mem) (hg : t.gangs = s.gangs) : MemOk t := by
  unfold MemOk; rw [hm, hg]; exact h

theorem MemOk.setMem {s : State} (h : MemOk s) {m : Memory} (hm : Memory.wf m = true) : MemOk { s with mem := m } := ⟨hm, h.2⟩

/-- A change of one gang that keeps the canonical form of its scratchpad. -/
theorem MemOk.mod {s : State} (h : MemOk s) {id : Nat} {f : Gang → Gang}
    (hf : ∀ g ∈ s.gangs, Memory.wf g.spad = true → Memory.wf (f g).spad = true) : MemOk (s.modGang id f) := by
  refine ⟨h.1, fun g hg => ?_⟩
  obtain ⟨x, hx, rfl⟩ := List.mem_map.mp (show g ∈ s.gangs.map _ from hg)
  split
  · exact hf x hx (h.2 x hx)
  · exact h.2 x hx

theorem MemOk.foldl {α : Type} {f : State → α → State} (hf : ∀ s x, MemOk s → MemOk (f s x)) :
    ∀ (l : List α) {s : State}, MemOk s → MemOk (l.foldl f s)
  | [], _, h => h
  | x :: l, _, h => MemOk.foldl hf l (hf _ x h)

theorem wf_foldl {α : Type} {f : Memory → α → Memory} (hf : ∀ m x, Memory.wf m = true → Memory.wf (f m x) = true) :
    ∀ (l : List α) {m : Memory}, Memory.wf m = true → Memory.wf (l.foldl f m) = true
  | [], _, h => h
  | x :: l, _, h => wf_foldl hf l (hf _ x h)

theorem wf_memPut {m : Memory} (h : Memory.wf m = true) (w : LineWrite) : Memory.wf (memPut m w) = true := by
  unfold memPut
  refine wf_foldl (fun m i h => ?_) _ h
  split; exacts [Memory.wf_write h, h]

/-! ## Reading a byte, a word and a line -/

theorem readNat_digit (m : Memory) : ∀ (n a i : Nat), i < n → Memory.readNat m a n / 256 ^ i % 256 = (Memory.read m (a + i)).toNat
  | n + 1, a, 0, _ => by
    have := (Memory.read m a).isLt
    simp only [Memory.readNat, Nat.pow_zero, Nat.div_one, Nat.add_zero]
    omega
  | n + 1, a, i + 1, h => by
    have hb := (Memory.read m a).isLt
    have e : Memory.readNat m a (n + 1) / 256 ^ (i + 1) = Memory.readNat m (a + 1) n / 256 ^ i := by
      rw [Nat.pow_succ, Nat.mul_comm, ← Nat.div_div_eq_div_mul]
      simp only [Memory.readNat]
      congr 1; omega
    rw [e, readNat_digit m n (a + 1) i (by omega), Nat.add_right_comm, Nat.add_assoc]

theorem readNat_lt (m : Memory) : ∀ (n a : Nat), Memory.readNat m a n < 256 ^ n
  | 0, _ => by simp [Memory.readNat]
  | n + 1, a => by
    have hb := (Memory.read m a).isLt
    have := readNat_lt m n (a + 1)
    simp only [Memory.readNat, Nat.pow_succ]
    omega

/-- Byte `n` of a line of memory is the byte at its address. -/
theorem lineByte_memLine (m : Memory) (line : Nat) {n : Nat} (h : n < 64) :
    lineByte (memLine m line) n = Memory.read m (64 * line + n) := by
  apply BitVec.eq_of_toNat_eq
  have hl : ∀ k, k = 8 * 64 → Memory.readNat m (64 * line) 64 < 2 ^ k := by
    rintro k rfl; rw [Nat.pow_mul]; exact readNat_lt m 64 _
  rw [lineByte, memLine, BitVec.toNat_ofNat, BitVec.toNat_ofNat, Nat.mod_eq_of_lt (hl 512 rfl), Nat.pow_mul]
  exact readNat_digit m 64 _ n h

/-- Where no sector holds a copy, the home serves what memory holds. -/
theorem homeView_clean {s : State} (h : s.sect = []) (line : Nat) : s.homeView line = memLine s.mem line := by
  simp [State.homeView, h]

/-- A number in a line, byte by byte. -/
theorem lineNat_memLine (m : Memory) (line : Nat) : ∀ (n i : Nat), i + n ≤ 64 →
    lineNat (memLine m line) i n = Memory.readNat m (64 * line + i) n
  | 0, i, _ => by simp [lineNat, Memory.readNat, Nat.mod_one]
  | n + 1, i, h => by
    have e := lineNat_memLine m line n (i + 1) (by omega)
    have b := congrArg BitVec.toNat (lineByte_memLine m line (n := i) (by omega))
    simp only [lineByte, BitVec.toNat_ofNat] at b
    simp only [lineNat] at e ⊢
    simp only [Memory.readNat]
    rw [← b, Nat.add_assoc (64 * line), ← e]
    have p : (2 : Nat) ^ (8 * (n + 1)) = 256 * 2 ^ (8 * n) := by
      rw [Nat.mul_add, Nat.pow_add, Nat.mul_comm]
    have q : (2 : Nat) ^ (8 * (i + 1)) = 2 ^ (8 * i) * 256 := by rw [Nat.mul_add, Nat.pow_add]
    rw [p, Nat.mod_mul, q, ← Nat.div_div_eq_div_mul]

/-! ## The home caches and the fabric -/

theorem MemOk.homeSync {s : State} (h : MemOk s) (line : Nat) : MemOk (s.homeSync line) :=
  ⟨wf_foldl (fun _ _ h => wf_memPut h _) _ h.1, h.2⟩

theorem MemOk.endOthers {s : State} (h : MemOk s) (keep : Option Nat) (line : Nat) : MemOk (s.endOthers keep line) :=
  (h.homeSync line).same rfl rfl

theorem MemOk.dropHome (d : Nat) (keep : Option Nat) : ∀ (n : Nat) {s : State}, MemOk s → MemOk (State.dropHome d keep n s)
  | 0, _, h => h
  | n + 1, _, h => by
    unfold State.dropHome
    split
    · exact MemOk.dropHome d keep n (h.same rfl rfl)
    · exact h

theorem MemOk.fitHome {s : State} (h : MemOk s) (d : Nat) (keep : Option Nat) : MemOk (s.fitHome d keep) := h.dropHome d keep _

theorem MemOk.touchHome {s : State} (h : MemOk s) (line : Nat) : MemOk (s.touchHome line) := by
  unfold State.touchHome
  split
  · exact h
  · apply MemOk.fitHome
    exact h.same rfl rfl

theorem MemOk.evictSect {s : State} (h : MemOk s) (sector line : Nat) : MemOk (s.evictSect sector line) := by
  unfold State.evictSect
  dsimp only
  split; exacts [(h.homeSync line).same rfl rfl, h.same rfl rfl]

theorem MemOk.homeWrite {s : State} (h : MemOk s) (w : LineWrite) : MemOk (s.homeWrite w) := by
  unfold State.homeWrite
  refine MemOk.same (s := State.touchHome _ w.line) (MemOk.touchHome ?_ _) rfl rfl
  exact ⟨wf_memPut (h.endOthers none w.line).1 w, h.2⟩

theorem MemOk.publish {s : State} (h : MemOk s) (d k wave : Nat) (b : PubBody) (n : Nat) :
    MemOk (s.publish d k wave b n) := h.same rfl rfl

theorem MemOk.endRemote {s : State} (h : MemOk s) (d line : Nat) : MemOk (s.endRemote d line) := h.same rfl rfl

theorem MemOk.unitWrite {s : State} (h : MemOk s) (d : Nat) (w : LineWrite) : MemOk (s.unitWrite d w) := by
  unfold State.unitWrite
  split
  · exact h.setMem (wf_memPut h.1 w)
  · split
    · exact h.homeWrite w
    · apply MemOk.homeWrite
      exact h.same rfl rfl

theorem MemOk.endPoison {s : State} (h : MemOk s) (w : LineWrite) : MemOk (s.endPoison w) := h.same rfl rfl

theorem MemOk.directWrite {s : State} (h : MemOk s) (d : Nat) (w : LineWrite) : MemOk (s.directWrite d w) :=
  (h.endPoison w).unitWrite d w

/-- A write that belongs to no home, or one performed at its home: the shape that commits and the host share. -/
theorem MemOk.lineWrite {s : State} (h : MemOk s) (w : LineWrite) :
    MemOk (if homeOfLine w.line == none then { s with mem := memPut s.mem w } else s.homeWrite w) := by
  split
  · exact h.setMem (wf_memPut h.1 w)
  · exact h.homeWrite w

theorem MemOk.monEvent {s : State} (h : MemOk s) (line : Nat) (p : Wave → Bool) : MemOk (s.monEvent line p) := ⟨h.1, h.2⟩

theorem MemOk.putSect {s : State} (h : MemOk s) (x : SectLine) : MemOk (s.putSect x) := by
  unfold State.putSect
  dsimp only
  split
  · refine MemOk.evictSect ?_ _ _
    exact h.same rfl rfl
  · exact h.same rfl rfl

theorem MemOk.putL1 {s : State} (h : MemOk s) (x : L1Line) : MemOk (s.putL1 x) := by
  unfold State.putL1
  dsimp only
  split <;> exact h.same rfl rfl

theorem MemOk.sendFills {s : State} (h : MemOk s) : MemOk s.sendFills := by
  refine MemOk.foldl (fun s f h => ?_) _ h
  unfold State.sendFill
  split
  · exact h
  · dsimp only
    split
    · split <;> exact h.same rfl rfl
    · exact h.same rfl rfl

theorem MemOk.missWith {s : State} (h : MemOk s) (core line : Nat) (fillSect load : Bool) (f : Fill → Fill) :
    MemOk (s.missWith core line fillSect load f) := by
  unfold State.missWith
  split
  · exact h.same rfl rfl
  · apply MemOk.sendFills
    exact h.same rfl rfl

theorem MemOk.storeNow {s : State} (h : MemOk s) (core wave : Nat) (pol : CachePol) (w : LineWrite) :
    MemOk (s.storeNow core wave pol w) := by
  unfold State.storeNow
  extract_lets sec d l1 u a b c a' b' c'
  have h1 : MemOk u := by
    cases pol <;> exact h.same rfl rfl
  have ha : MemOk a := h1.endOthers (some sec) w.line
  split
  · exact h1.setMem (wf_memPut h1.1 w)
  · split
    · have hb : MemOk b := ⟨ha.1, ha.2⟩
      have hc : MemOk c := by
        show MemOk (match b.sectLine? sec w.line, pol with
          | some x, _ => _
          | none, .stream => _
          | none, _ => _)
        split
        · exact hb.putSect _
        · exact (hb.setMem (wf_memPut hb.1 w)).touchHome _
        · exact hb.putSect _
      exact hc.monEvent _ _
    · have hb : MemOk b' := ⟨h1.1, h1.2⟩
      have hc : MemOk c' := by
        show MemOk (match b'.sectLine? sec w.line with
          | some x => _
          | none => _)
        split
        · exact (hb.putSect _).monEvent _ _
        · exact hb
      exact hc.publish _ _ _ _ _

theorem MemOk.storeLine {s : State} (h : MemOk s) (core wave : Nat) (lanes : LaneMask) (pol : CachePol) (w : LineWrite) :
    MemOk (s.storeLine core wave lanes pol w) := by
  unfold State.storeLine
  split
  · unfold State.holdStore
    apply MemOk.missWith
    exact h.same rfl rfl
  · exact h.storeNow _ _ _ _

theorem MemOk.verWrite {s : State} (h : MemOk s) (g : Gang) (core : Option Nat) (w : LineWrite) : MemOk (s.verWrite g core w) := by
  unfold State.verWrite
  split
  · exact h.same rfl rfl
  · apply MemOk.fitHome
    exact h.same rfl rfl

theorem MemOk.threadStore {s : State} (h : MemOk s) (w : Wave) (lanes : LaneMask) (pol : CachePol) (lw : LineWrite) :
    MemOk (s.threadStore w lanes pol lw) := by
  have hn : MemOk (s.noteSeal (s.gangOf w).launch lw) := by
    unfold State.noteSeal; split; exacts [h, h.same rfl rfl]
  unfold State.threadStore
  simp only
  split
  · apply MemOk.verWrite
    exact hn.same rfl rfl
  · refine MemOk.mod ?_ fun _ _ h => h
    apply MemOk.storeLine
    exact hn.same rfl rfl

theorem MemOk.commit {s : State} (h : MemOk s) (gid wave : Nat) : MemOk (s.commit gid wave) := by
  unfold State.commit
  split
  · exact h
  · next g _ =>
    dsimp only
    refine MemOk.mod (MemOk.foldl (fun s x h => h.verWrite _ _ _) _ (MemOk.same ?_ rfl rfl)) fun _ _ h => h
    refine MemOk.foldl (fun s w h => h.endPoison w) _ (MemOk.foldl (fun s k h => ?_) (List.range 8) (MemOk.same ?_ rfl rfl))
    · split; exacts [h, h.publish _ _ _ _ _]
    · exact MemOk.foldl (fun s w h => h.endRemote _ _) _ (MemOk.foldl (fun s w h => h.lineWrite w) _ h)

theorem MemOk.hostWrite {s : State} (h : MemOk s) (addr : Nat) (bytes : List Byte) : MemOk (s.hostWrite addr bytes) := by
  unfold State.hostWrite
  dsimp only
  refine MemOk.foldl (fun s w h => h.lineWrite w) _ (MemOk.foldl (fun s w h => h.endPoison w) _ ?_)
  exact h.same rfl rfl

theorem cacheEviction_memOk {s : State} (h : MemOk s) (level : CacheLevel) (unit line : Nat) :
    ∃ t, execCacheEviction level unit line s = .next t ∧ MemOk t := by
  unfold execCacheEviction
  split
  · exact ⟨_, rfl, h.same rfl rfl⟩
  · exact ⟨_, rfl, h.evictSect _ _⟩
  · split; exacts [⟨_, rfl, h.same rfl rfl⟩, ⟨_, rfl, h⟩]

/-! ## Scratchpads -/

theorem MemOk.fePerform {s : State} (h : MemOk s) (w : Wave) (l : Nat) (f : FeWait) : MemOk (s.fePerform w l f) := by
  unfold State.fePerform
  simp only
  split
  · split
    · exact MemOk.mod (h.same rfl rfl) fun _ _ h => h
    · exact h.same rfl rfl
  · exact h.mod fun _ _ h => Memory.wf_writeNat h

theorem MemOk.spadStore {s : State} (h : MemOk s) (w : Wave) (z : Width) (q : StoreFe) (ea x : Nat) (mates : LaneMask)
    (inst l : Nat) : MemOk (s.spadStore w z q ea x mates inst l) := by
  unfold State.spadStore
  split
  · exact h.mod fun _ _ h => Memory.wf_writeNat h
  · exact h.mod fun _ _ h => h
  · exact h.mod fun _ _ h => Memory.wf_writeNat h
  · dsimp only
    split
    · exact h.fePerform _ _ _
    · exact h.same rfl rfl

theorem setFull_spad (xs : List (Nat × Byte)) (g : Gang) : (xs.foldl (fun g x => g.setFull x.1 1) g).spad = g.spad := by
  induction xs generalizing g with
  | nil => rfl
  | cons x xs ih => rw [List.foldl_cons, ih]; rfl

theorem MemOk.engSpad {s : State} (h : MemOk s) (g : Gang) (fill : Bool) (xs : List (Nat × Byte)) : MemOk (s.engSpad g fill xs) := by
  refine h.mod fun x _ hx => ?_
  have : Memory.wf (xs.foldl (fun m x => m.write x.1 x.2) x.spad) = true := wf_foldl (fun _ _ h => Memory.wf_write h) _ hx
  simp only
  split
  · rw [setFull_spad]; exact this
  · exact this

/-- A reset keeps what the host's memory holds (R389). -/
theorem MemOk.resetModule {s : State} (h : MemOk s) : MemOk s.resetModule :=
  ⟨Map.wfFrom_filter _ h.1, fun g hg => by cases hg⟩

theorem wf_writeSpad {g : Gang} (h : Memory.wf g.spad = true) (a n x : Nat) : Memory.wf (g.writeSpad a n x).spad = true :=
  Memory.wf_writeNat h

end Sys2Proof.Machine
end

