-- ==== Sys2Proof/Laws/Return.lean ====
section
/-! SUPPORT. Words that compute a value at issue and return it (R34, R153), said once: `runReturn_done`. -/

namespace Sys2Proof.Machine

/-- The result of lane `l` that a returning computation leaves outstanding. -/
structure IsResult (i : Instr) (o : LaneOut) (m : LaneMask) (l : Nat) (p : Pending) : Prop where
  lane   : p.lane = if i.info.dst.any Reg.isUni then none else some l
  lanes  : p.lanes = if i.info.dst.any Reg.isUni then m else laneBit l
  regs   : p.regs = o.regs.map Prod.fst
  vals   : p.vals = o.regs.map Prod.snd
  flags  : p.flags = o.flags
  known  : p.opened = false ∧ p.clob = [] ∧ p.late = none ∧ p.slot = none

/-- An effect that leaves results outstanding and steps generators. -/
structure Returns (F : Wave → Wave) (ps : List Pending) (g : Nat → Option Word) : Prop where
  shape   : ∀ v, F v = { v with pend := v.pend ++ ps, threads := (F v).threads }
  length  : ∀ v, (F v).threads.length = v.threads.length
  threads : ∀ v l, l < v.threads.length → (F v).thread l = { v.thread l with gen := (g l).getD (v.thread l).gen }

theorem thread_ge {w : Wave} {l : Nat} (h : w.threads.length ≤ l) : w.thread l = { st := .ended } := by
  simp [Wave.thread, List.getD_eq_getElem?_getD, List.getElem?_eq_none h]

theorem Returns.thread_ge {F : Wave → Wave} {ps : List Pending} {g : Nat → Option Word} (h : Returns F ps g) (v : Wave) {l : Nat}
    (hl : v.threads.length ≤ l) : (F v).thread l = { st := .ended } := Machine.thread_ge (by rw [h.length]; exact hl)

theorem Returns.mild {F : Wave → Wave} {ps : List Pending} {g : Nat → Option Word} (h : Returns F ps g) : Mild F where
  id v := by rw [h.shape]
  gang v := by rw [h.shape]
  held v l x hst _ := by
    by_cases hl : l < v.threads.length
    · rw [h.threads v l hl] at hst; exact hst
    · rw [h.thread_ge v (Nat.le_of_not_lt hl), ← Machine.thread_ge (w := v) (Nat.le_of_not_lt hl)] at hst; exact hst

/-- What one lane's result does to the wave. -/
def returnWave (p : Pending) (l : Nat) (g : Option Word) (v : Wave) : Wave :=
  ({ v with pend := v.pend ++ [p] } : Wave).modThread l fun t => { t with gen := g.getD t.gen }

theorem returnWave_returns (p : Pending) (l : Nat) (hl : l < 32) (g : Option Word) :
    Returns (returnWave p l g) [p] fun k => if k = l then g else none where
  shape _ := rfl
  length v := length_mapLanes ..
  threads v k hk := by
    unfold returnWave Wave.modThread
    rw [thread_mapLanes]
    by_cases h : k = l
    · subst h
      rw [if_pos ⟨by simp [hl], hk⟩]
      simp [Wave.thread]
    · rw [if_neg (by simp [h])]
      simp [h, Wave.thread]

theorem Returns.comp {F G : Wave → Wave} {ps qs : List Pending} {g k : Nat → Option Word} (hF : Returns F ps g)
    (hG : Returns G qs k) : Returns (fun v => G (F v)) (ps ++ qs) fun l => (k l).or (g l) where
  shape v := by rw [hG.shape, hF.shape]; simp
  length v := (hG.length _).trans (hF.length v)
  threads v l hl := by
    rw [hG.threads _ l (by rw [hF.length]; exact hl), hF.threads v l hl]
    cases k l <;> simp

/-- The generator of another lane is not stepped. -/
theorem Returns.gen_ne {F : Wave → Wave} {ps : List Pending} {g : Nat → Option Word} (h : Returns F ps g) (v : Wave) {l : Nat}
    (hl : g l = none) : ((F v).thread l).gen = (v.thread l).gen := by
  by_cases hv : l < v.threads.length
  · rw [h.threads v l hv, hl]; rfl
  · rw [Machine.thread_ge (Nat.le_of_not_lt hv), h.thread_ge v (Nat.le_of_not_lt hv)]

/-- What a word reads in a lane does not depend on the results made meanwhile (R45). -/
theorem laneIn_mod (s : State) (n id : Nat) (F : Wave → Wave) (w : Wave) (l : Nat) :
    (({ s with nextId := n } : State).modWave id F).laneIn w l = s.laneIn w l := rfl

theorem returnLane_eq (i : Instr) (f : LaneOp) (w : Wave) (m : LaneMask) (s : State) (l : Nat) :
    ∃ p, IsResult i (f (s.laneIn w l)) m l p ∧
      State.returnLane i f w m s l =
        ({ s with nextId := s.nextId + 1 } : State).modWave w.id (returnWave p l (f (s.laneIn w l)).gen) := by
  refine ⟨{ id := s.nextId, lane := if i.info.dst.any Reg.isUni then none else some l,
            lanes := if i.info.dst.any Reg.isUni then m else laneBit l,
            regs := (f (s.laneIn w l)).regs.map (·.1), vals := (f (s.laneIn w l)).regs.map (·.2), flags := (f (s.laneIn w l)).flags },
    ⟨rfl, rfl, rfl, rfl, rfl, rfl, rfl, rfl, rfl⟩, ?_⟩
  unfold State.returnLane State.newId State.addPending
  simp only
  rw [modWave_modWave]
  · rfl
  · intro _; rfl

/-- The results that a group leaves outstanding. -/
theorem returnFold (i : Instr) (f : LaneOp) (w : Wave) (m : LaneMask) :
    ∀ (ls : List Nat) (s : State), ls.Nodup → (∀ l ∈ ls, l < 32) →
      ∃ n F ps g, ls.foldl (State.returnLane i f w m) s = ({ s with nextId := n } : State).modWave w.id F ∧ Returns F ps g ∧
        List.Forall₂ (fun l p => IsResult i (f (s.laneIn w l)) m l p) ls ps ∧
        ∀ l, g l = if l ∈ ls then (f (s.laneIn w l)).gen else none
  | [], s, _, _ => ⟨s.nextId, fun v => v, [], fun _ => none, by simp [State.modWave, modBy],
      ⟨fun v => by simp, fun _ => rfl, fun _ _ _ => rfl⟩, .nil, fun l => by simp⟩
  | l :: ls, s, hnd, hlt => by
    obtain ⟨p, hp, he⟩ := returnLane_eq i f w m s l
    have hr := returnWave_returns p l (hlt l (by simp)) (f (s.laneIn w l)).gen
    obtain ⟨n, F, ps, g, hfold, hF, hps, hg⟩ := returnFold i f w m ls (State.returnLane i f w m s l) (List.nodup_cons.mp hnd).2
      fun k hk => hlt k (by simp [hk])
    have hin : ∀ k, (State.returnLane i f w m s l).laneIn w k = s.laneIn w k := fun k => by rw [he, laneIn_mod]
    refine ⟨n, _, _, _, ?_, hr.comp hF, .cons hp ?_, ?_⟩
    · have hmm := modWave_modWave ({ s with nextId := n } : State) w.id (returnWave p l (f (s.laneIn w l)).gen) F hr.mild.id
      rw [List.foldl_cons, hfold, he]
      exact hmm
    · simp only [hin] at hps; exact hps
    · intro k
      rw [hg]
      by_cases hk : k ∈ ls
      · have hne : k ≠ l := fun e => (List.nodup_cons.mp hnd).1 (e ▸ hk)
        simp [hk, hin k, hne]
      · by_cases hkl : k = l
        · subst hkl; simp [hk]
        · simp [hk, hkl]

/-- What a returning word leaves: its frame, no register or mask changed, and a result outstanding for every computing lane. -/
structure ReturnDone (s : State) (i : Instr) (f : LaneOp) (c : Issue) (w : Wave) (t : State) (w' : Wave) : Prop where
  frame : WordFrame s c w t w'
  goOn  : GoOn c w w'
  regs  : RegsKept w w' []
  masks : MaskKept w w'
  flags : w'.xstat = w.xstat
  gens  : ∀ l, c.lanes.getLsbD l = true → (w'.thread l).gen = if (computing i c.lanes).getLsbD l = true then
      ((f (s.laneIn w l)).gen).getD (w.thread l).gen else (w.thread l).gen
  result : ∀ l, (computing i c.lanes).getLsbD l = true → ∃ p ∈ w'.pend, IsResult i (f (s.laneIn w l)) c.lanes l p

theorem forall₂_left {α β : Type} {R : α → β → Prop} {x : α} : ∀ {xs : List α} {ys : List β}, List.Forall₂ R xs ys → x ∈ xs →
    ∃ y ∈ ys, R x y
  | _, _, .cons h hs, hx => by
    rcases List.mem_cons.mp hx with rfl | hx
    · exact ⟨_, by simp, h⟩
    · obtain ⟨y, hy, hr⟩ := forall₂_left hs hx
      exact ⟨y, by simp [hy], hr⟩

theorem lt_of_mask {m : LaneMask} {l : Nat} (h : m.getLsbD l = true) : l < 32 := by
  by_contra hl
  rw [BitVec.getLsbD_of_ge _ _ (Nat.le_of_not_lt hl)] at h
  cases h

/-- The frame of a word that leaves results outstanding and steps generators. -/
theorem ended_returns {s u : State} {c : Issue} {w : Wave} {F : Wave → Wave} {ps : List Pending} {g : Nat → Option Word}
    (h : Issuing s c w) (hF : Returns F ps g) (hg : ∀ l, c.lanes.getLsbD l = false → g l = none) {t : State} {w' : Wave}
    (he : Ended u (Wave.issued c (F w)) t w') :
    WordFrame u c w t w' ∧ (∀ l, c.lanes.getLsbD l = true → w'.thread l =
      { w.thread l with pc := c.nextPc, count := 0, commitDone := false, v := (w'.thread l).v
                        gen := (g l).getD (w.thread l).gen }) ∧
    RegsKept w w' [] ∧ MaskKept w w' ∧ w'.xstat = w.xstat ∧ ∀ p ∈ ps, p ∈ w'.pend := by
  have hth : ∀ l, (Wave.issued c (F w)).thread l = if c.lanes.getLsbD l = true then
      { w.thread l with pc := c.nextPc, count := 0, commitDone := false, gen := (g l).getD (w.thread l).gen }
      else w.thread l := by
    intro l
    rw [issued_thread, h.advance, thread_mapLanes, hF.length]
    by_cases hl : l < w.threads.length
    · rw [hF.threads w l hl]
      by_cases hc : c.lanes.getLsbD l = true
      · simp [hc, hl]
      · simp [hc, hg l (by simpa using hc)]
    · have hc : ¬ c.lanes.getLsbD l = true := fun e => hl (h.lt e)
      simp [hc, hF.thread_ge w (Nat.le_of_not_lt hl), thread_ge (Nat.le_of_not_lt hl)]
  obtain ⟨T, L, Y, Z, hi⟩ : ∃ T L Y Z, Wave.issued c (F w) =
      { F w with threads := T, lead := L, yieldTrk := Y, yieldGrp := Z } := ⟨_, _, _, _, issued_shape _ _⟩
  obtain ⟨T', hf⟩ : ∃ T', F w = { w with pend := w.pend ++ ps, threads := T' } := ⟨_, hF.shape w⟩
  have hid : (Wave.issued c (F w)).id = w.id := by rw [hi, hf]
  have hgr : (Wave.issued c (F w)).grant = w.grant := by rw [hi, hf]
  have hpend : (Wave.issued c (F w)).pend = w.pend ++ ps := by rw [hi, hf]
  obtain ⟨qs, hq, _⟩ := he.kept.pend
  refine ⟨⟨he.rest, he.gangs, hid ▸ he.mine, fun id v hne => he.others id v (hid.symm ▸ hne), ?own, ?there, ?grant, ?monitor,
    ?pend⟩, ?here, ?regs, ?masks, ?flags, ?new⟩
  case own => rw [he.kept.rest, hi, hf]
  case there =>
    intro l hl
    have := he.kept.threads l
    rwa [hth, if_neg (by simp [hl])] at this
  case grant =>
    refine ⟨hgr ▸ he.kept.grant.1, ?_⟩
    rcases he.kept.grant.2 with e | e
    · exact .inl (e.trans hgr)
    · exact .inr (hid ▸ e)
  case monitor =>
    rcases he.kept.monitor with e | ⟨e, l, e'⟩
    · exact .inl (by rw [e, hi, hf])
    · refine .inr ⟨e, l, ?_⟩
      rw [hth] at e'
      split at e'
      · exact e'
      · exact e'
  case pend =>
    intro p hp
    exact ⟨p, by rw [hq, hpend]; simp [hp], rfl⟩
  case here =>
    intro l hl
    have h1 := he.kept.goes (l := l) (by rw [hth, if_pos hl]; exact h.runs l hl)
    rw [hth, if_pos hl] at h1
    exact h1
  case regs =>
    intro l r _
    refine (he.kept.raw l r).imp (fun e => e.trans ?_) (fun e => by unfold Granted at e ⊢; rwa [hgr] at e)
    apply raw_congr
    · rw [hi, hf]
    · rw [hth]; split <;> rfl
  case masks =>
    intro k l
    have hk : (Wave.issued c (F w)).kbit k l = w.kbit k l := by rw [hi, hf]; rfl
    rcases he.kept.masks k l with e | ⟨e, e'⟩
    · exact .inl (by rw [e, hk])
    · refine .inr ⟨?_, e'⟩
      rw [hth] at e
      split at e
      · exact e
      · exact e
  case flags => rw [he.kept.xstat, hi, hf]
  case new =>
    intro p hp
    rw [hq, hpend]
    simp [hp]

theorem WaveKept.congr {a b : State} (h : a.waves = b.waves) {v v' : Wave} (k : WaveKept a v v') : WaveKept b v v' :=
  { k with
    grant := ⟨k.grant.1, k.grant.2.imp_right fun ⟨x, hx, r⟩ => ⟨x, h ▸ hx, r⟩⟩
    pend := by obtain ⟨ps, e, hp⟩ := k.pend; exact ⟨ps, e, hp.imp_right fun ⟨x, hx, r⟩ => ⟨x, h ▸ hx, r⟩⟩ }

theorem GangKept.congr {a b : State} (h : a.waves = b.waves) {g g' : Gang} (k : GangKept a g g') : GangKept b g g' :=
  ⟨k.1, k.2.imp_right fun ⟨x, hx, r⟩ => ⟨x, h ▸ hx, r⟩⟩

/-- The counter of identifiers may advance in the word's effect as well. -/
theorem WordFrame.of_ids {u : State} {n : Nat} {c : Issue} {w w' : Wave} {t : State}
    (h : WordFrame ({ u with nextId := n } : State) c w t w') : WordFrame u c w t w' :=
  { h with
    rest := h.rest
    gangs := forall₂_imp (fun _ _ k => GangKept.congr (a := { u with nextId := n }) (b := u) rfl k) h.gangs
    others := fun id v hne hv => by
      obtain ⟨v', e, k⟩ := h.others id v hne hv
      exact ⟨v', e, WaveKept.congr (a := { u with nextId := n }) (b := u) rfl k⟩
    grant := h.grant }

/-- The meaning of a returning word that the wave may issue. -/
theorem runReturn_done {s : State} {i : Instr} {f : LaneOp} {c : Issue} {w : Wave} (h : Issuing s c w) (ha : Allowed s i w) :
    ∃ t w', runReturn i f s = .next t ∧ ReturnDone s i f c w t w' := by
  obtain ⟨n, F, ps, g, hact, hF, hps, hg⟩ := returnFold i f w c.lanes (lanesOf (computing i c.lanes)) s (lanesOf_nodup _)
    fun l hl => (mem_lanesOf.mp hl).1
  have hw : s.wave? w.id = some w := h.waveId ▸ h.wave
  obtain ⟨t, w', hrun, he⟩ := runWord_effect (op := { act := returnAct i f }) (u := { s with nextId := n }) h ha (fun _ _ => rfl)
    (fun _ => rfl) hact h.cur (v := w) hw hF.mild
  have hsub : ∀ l, c.lanes.getLsbD l = false → g l = none := by
    intro l hl
    rw [hg, if_neg]
    intro hm
    have := computing_sub h.lanes (mem_lanesOf.mp hm).2
    rw [hl] at this; cases this
  obtain ⟨hfr, hhere, hregs, hmask, hx, hnew⟩ := ended_returns h hF hsub he
  refine ⟨t, w', hrun, hfr.of_ids, ?_, hregs, hmask, hx, ?_, ?_⟩
  · intro l hl
    rw [hhere l hl]
  · intro l hl
    rw [congrArg Thread.gen (hhere l hl)]
    simp only [hg, mem_lanesOf]
    by_cases hc : (computing i c.lanes).getLsbD l = true
    · simp [hc, lt_of_mask hc]
    · simp [hc]
  · intro l hl
    obtain ⟨p, hp, hr⟩ := forall₂_left hps (mem_lanesOf.mpr ⟨lt_of_mask hl, hl⟩)
    exact ⟨p, hnew p hp, hr⟩

end Sys2Proof.Machine
end

