-- ==== Sys2Proof/Tests/Slice0.lean ====
section
/-! SUPPORT. Tests: ill-formed terms that the checks refuse, words of the spec and what they decode to, and, for every
statement with hypotheses, a state and operands that meet them together. -/

set_option maxRecDepth 20000

namespace Sys2Proof.Tests

set_option Elab.async false

open Sys2Proof.Machine Sys2Proof.Claims

/-! ## Well-formedness: an ill-formed term for each check -/

/-- An odd pair (R50). -/
theorem test_oddPair : (Instr.add64 (.v 2) (.v 9) (.v 4)).wellFormed = false := by decide
/-- A vector source with a uniform destination (R51). -/
theorem test_vectorToUniform : (Instr.add (.s 3) (.v 1) (.s 2)).wellFormed = false := by decide
/-- An event that names a cluster the module does not have (R1). -/
theorem test_noSuchCluster : (Instr.gangPlacement 0 128 0).wellFormed = false := by decide

/-! ## Decoding: words that spec/05 to spec/25 write out from their fields -/

/-- Does the word with C = W = 0 decode to the form? -/
def Reads (w : Word) (i : Instr) : Prop := decodeSlot w = some { c := false, w := false, i := i }

theorem test_decode_adds : Reads 0x02C1C388 (.addsI (.v 7) (.v 7) (.v 8)) := by unfold Reads; decide
theorem test_decode_shi : Reads 0x0C0A1203 (.shi (.v 5) (.v 4) .sar 3) := by unfold Reads; decide
theorem test_decode_li : Reads 0x0E060000 (.li (.v 3) 0) := by unfold Reads; decide
theorem test_decode_cmov : Reads 0x152850E0 (.cmov 2 true (.v 5) (.v 7)) := by unfold Reads; decide
theorem test_decode_frcp : Reads 0x18214200 (.frcp (.v 5) (.v 4)) := by unfold Reads; decide
theorem test_decode_dmac : Reads 0x19A20206 (.dmac (.v 8) (.v 4) (.v 6)) := by unfold Reads; decide
theorem test_decode_hmac2 : Reads 0x1A42858C (.hmac2 (.v 10) (.v 11) (.v 12)) := by unfold Reads; decide
theorem test_decode_join : Reads 0x2D090000 (.join 9) := by unfold Reads; decide
theorem test_decode_ldPass : Reads 0x22424201 (.ld .b32 (.v 9) (.v 4) .wave .plain .pass) := by unfold Reads; decide
theorem test_decode_eret : Reads 0x32020000 .eret := by unfold Reads; decide
theorem test_decode_liftst : Reads 0x33010A40 (.liftst (.v 5) .q1) := by unfold Reads; decide
theorem test_decode_tqadd : Reads 0x3400E400 (.tqadd (.s 18)) := by unfold Reads; decide
theorem test_decode_accpin : Reads 0x3405CBC8 (.accpin (.s 5) (.s 18)) := by unfold Reads; decide
theorem test_decode_dupd : Reads 0x3500E200 (.dupd (.s 17)) := by unfold Reads; decide
theorem test_decode_rkwait : Reads 0x36010080 (.rkwait 0 0 true) := by unfold Reads; decide
theorem test_decode_tidset : Reads 0x3700E1C4 (.tidset (.s 16) (.s 17)) := by unfold Reads; decide
theorem test_decode_bingo : Reads 0x3800E400 (.bingo (.s 18)) := by unfold Reads; decide
/-- The all-zero word is no instruction (R79). -/
theorem test_decode_zero : decodeSlot 0 = none := by decide
/-- A reserved major raises UNIMPL (R80). -/
theorem test_decode_unimpl : (decodeSlot 0x39000000).map (fun x => Instr.isUnimpl x.i) = some true := by decide

/-! ## A small machine

One context whose page table at 0x8000 maps the first 512 GiB onto themselves, one launch that declares every feature, one
gang, and its one wave on track 0 with every thread at 0x10004. -/

def launch0 : Launch :=
  { id := 1, ctx := 0, started := true, placed := true, hdr := { features := 0x7F, regs := 96, scratch := 4096 } }
def gang0 : Gang := { id := 2, launch := 1, place := some (0, 0) }
def wave0 : Wave :=
  { id := 3, gang := 2, track := some 0, grant := 96, lead := 1, threads := List.replicate 32 { pc := 0x10004 } }
def issue0 (w : Wave) : Issue :=
  { wave := w.id, lanes := 1, pc := 0x10004, word := 0x01000000, wordPc := 0x10004, nextPc := 0x10008, view := some w }

/-- The machine with a wave, its gang and its launch; lane 0 issues a word. -/
def world (w : Wave) (g : Gang) (l : Launch) : State :=
  { State.reset with
    mem := [(0x8000, 0x1F)]
    ctxs := [{ id := 0, fn := 0, root := 0x8000 }]
    launches := [l]
    gangs := [g]
    waves := [w]
    nextId := 10
    cur := some (issue0 w) }

def S : State := world wave0 gang0 launch0
def C : Issue := issue0 wave0

theorem lane0 {l : Nat} (h : (1 : LaneMask).getLsbD l = true) : l = 0 := by
  simpa using h

theorem issuing {w : Wave} (g : Gang) (l : Launch) (hid : w.id = 3) (hr : (w.thread 0).st = .run) :
    Issuing (world w g l) (issue0 w) w where
  cur := rfl
  wave := by simp [world, issue0, State.wave?, hid]
  single := rfl
  lanes := (by decide : (1 : LaneMask) ≠ 0)
  runs l h := by rw [lane0 h]; exact hr

theorem iss : Issuing S C wave0 := issuing gang0 launch0 rfl rfl

/-- The word may be issued on the small machine. -/
def Ready (i : Instr) : Prop := i.wellFormed = true ∧ Issuing S C wave0 ∧ illReg i wave0 = false ∧ Allowed S i wave0

theorem ready {i : Instr} (h : i.wellFormed = true) (hr : illReg i wave0 = false) (hg : S.groupCause i wave0 = none) : Ready i :=
  ⟨h, iss, hr, hg, hr⟩

/-! ## Witnesses: integer and floating words -/

theorem wit_IntegerResults :
    ((∃ d a b f, twoSource (.bfx (.v 95) (.v 0) (.s 31)) = some (d, a, b, f)) ∧ Ready (.bfx (.v 95) (.v 0) (.s 31))) ∧
    ((∃ d a f, oneSource (.lih (.s 30) 0x1FFFF) = some (d, a, f)) ∧ Ready (.lih (.s 30) 0x1FFFF)) ∧
    ((∃ d a b f, threeSource (.fshl (.s 31) (.s 0) (.s 1)) = some (d, a, b, f)) ∧ Ready (.fshl (.s 31) (.s 0) (.s 1))) ∧
    bitwiseForms[7]? = some .nor :=
  ⟨⟨⟨_, _, _, _, rfl⟩, ready (by decide) (by decide) (by decide)⟩, ⟨⟨_, _, _, rfl⟩, ready (by decide) (by decide) (by decide)⟩,
    ⟨⟨_, _, _, _, rfl⟩, ready (by decide) (by decide) (by decide)⟩, rfl⟩

theorem wit_PairAndSaturatingResults :
    ((∃ d a b f, pairSource (.min64 (.v 94) (.v 2) (.s 4)) = some (d, a, b, f)) ∧ Ready (.min64 (.v 94) (.v 2) (.s 4))) ∧
    ((∃ d a b f, pairShift (.sar64 (.v 94) (.v 2) (.v 1)) = some (d, a, b, f)) ∧ Ready (.sar64 (.v 94) (.v 2) (.v 1))) ∧
    ((∃ d a b f lo hi, saturating (.subsN (.v 95) (.v 2) (.v 1)) = some (d, a, b, f, lo, hi)) ∧ Ready (.subsN (.v 95) (.v 2) (.v 1))) ∧
    pairForms[0]? = some .add64 :=
  ⟨⟨⟨_, _, _, _, rfl⟩, ready (by decide) (by decide) (by decide)⟩, ⟨⟨_, _, _, _, rfl⟩, ready (by decide) (by decide) (by decide)⟩,
    ⟨⟨_, _, _, _, _, _, rfl⟩, ready (by decide) (by decide) (by decide)⟩, rfl⟩

theorem wit_PackingResults :
    ((∃ d a b f, packing (.unpk3 (.v 95) (.v 0) (.v 1)) = some (d, a, b, f)) ∧ Ready (.unpk3 (.v 95) (.v 0) (.v 1))) ∧
    Ready (.dp4Ps2 (.v 95) (.v 0) (.v 1)) ∧ Ready (.pkps (.v 95) (.v 0)) :=
  ⟨⟨⟨_, _, _, _, rfl⟩, ready (by decide) (by decide) (by decide)⟩, ready (by decide) (by decide) (by decide),
    ready (by decide) (by decide) (by decide)⟩

theorem wit_MaskResults :
    (∃ q, maskForm S wave0 (lowest C.lanes) (.cmp64 .gen 11 .andn (.v 94) (.v 0)) = some (11, q)) ∧
      Ready (.cmp64 .gen 11 .andn (.v 94) (.v 0)) :=
  ⟨⟨_, rfl⟩, ready (by decide) (by decide) (by decide)⟩

theorem wit_FloatCompareResults : Ready (.cmpF32 .ord 0 .set (.v 0) (.v 95)) ∧ Ready (.cmpF64 .un 11 .or (.v 94) (.v 0)) :=
  ⟨ready (by decide) (by decide) (by decide), ready (by decide) (by decide) (by decide)⟩

theorem wit_MoveResults :
    Ready (.cmov 11 true (.s 30) (.s 0)) ∧ Ready (.ktov (.v 95) 0) ∧
    (Ready (.movri (.v 95) (.v 0)) ∧ ∀ l, C.lanes.getLsbD l = true → (rd S wave0 l (.v 0)).toNat < 128 ∧
      ((rd S wave0 l (.v 0)).toNat < 96 → (rd S wave0 l (.v 0)).toNat < wave0.grant)) ∧
    (Ready (.movir (.v 95) (.v 0)) ∧ ∀ l, C.lanes.getLsbD l = true →
      ((rd S wave0 l (.v 0)).toNat < 96 ∧ (rd S wave0 l (.v 0)).toNat < wave0.grant) ∨ (rd S wave0 l (.v 0)).toNat = 127) :=
  ⟨ready (by decide) (by decide) (by decide), ready (by decide) (by decide) (by decide),
    ⟨ready (by decide) (by decide) (by decide), fun l h => by rw [lane0 h]; decide⟩,
    ⟨ready (by decide) (by decide) (by decide), fun l h => by rw [lane0 h]; decide⟩⟩

theorem wit_FloatResults :
    (∃ x, floatForm S wave0 (lowest C.lanes) (.fmac (.v 95) (.v 0) (.v 1)) = some (.v 95, 1, x)) ∧ Ready (.fmac (.v 95) (.v 0) (.v 1)) :=
  ⟨⟨_, rfl⟩, ready (by decide) (by decide) (by decide)⟩

theorem wit_FloatReturns :
    (∃ x, floatReturn S wave0 (lowest C.lanes) (.dmac (.v 94) (.v 0) (.v 2)) = some (.v 94, 2, x)) ∧ Ready (.dmac (.v 94) (.v 0) (.v 2)) :=
  ⟨⟨_, rfl⟩, ready (by decide) (by decide) (by decide)⟩

theorem wit_NanResults :
    nanSources (.fadd (.v 95) (.v 0) (.v 1)) = some (.v 95, [.v 0, .v 1]) ∧ Ready (.fadd (.v 95) (.v 0) (.v 1)) ∧ Reg.v 95 ≠ .s 31 :=
  ⟨rfl, ready (by decide) (by decide) (by decide), by decide⟩

/-- The largest binary32 subnormal, kept by FTZO = 0, and the smallest normal number under FTZO = 1. -/
theorem wit_RoundExact :
    (0x007FFFFF < 2 ^ FpFmt.f32.bits ∧ FpFmt.f32.read false 0x007FFFFF = .fin false 0x7FFFFF (-149)) ∧
    (0x00800000 < 2 ^ FpFmt.f32.bits ∧ FpFmt.f32.read false 0x00800000 = .fin false 0x800000 (-149) ∧ 2 ^ FpFmt.f32.fbits ≤ 0x800000) := by
  decide

theorem wit_CrossLaneResults :
    ((∃ d a b f, shuffle (.shflx (.v 95) (.v 0) (.v 1)) = some (d, a, b, f)) ∧ Ready (.shflx (.v 95) (.v 0) (.v 1))) ∧
    (Ready (.wrl (.v 95) (.s 0) (.s 1)) ∧ C.lanes.getLsbD ((rd S wave0 (lowest C.lanes) (.s 1)).toNat % 32) = true) :=
  ⟨⟨⟨_, _, _, _, rfl⟩, ready (by decide) (by decide) (by decide)⟩, ready (by decide) (by decide) (by decide), by decide⟩

theorem wit_ReductionResults :
    (∃ d a b f, reduction wave0 (.scanF32 (.v 95) (.v 0) (.v 1)) = some (true, d, a, b, f)) ∧ Ready (.scanF32 (.v 95) (.v 0) (.v 1)) :=
  ⟨⟨_, _, _, _, rfl⟩, ready (by decide) (by decide) (by decide)⟩

theorem wit_ControlRegisterResults :
    (Ready (.reads (.v 95) .fmode) ∧ ctlValue S wave0 (lowest C.lanes) .fmode = some 0) ∧
    (Ready (.writes (.s 0) .fmode) ∧ ((rd S wave0 0 (.s 0)).extractLsb' 0 3).toNat < 6) :=
  ⟨⟨ready (by decide) (by decide) (by decide), rfl⟩, ready (by decide) (by decide) (by decide), by decide⟩

theorem wit_GeneratorAndRecordResults : Ready (.rngseed (.v 95)) ∧ Ready (.rngnext (.v 95)) ∧ Ready (.srec (.v 95) 15) :=
  ⟨ready (by decide) (by decide) (by decide), ready (by decide) (by decide) (by decide), ready (by decide) (by decide) (by decide)⟩

/-- A result for lane 31 of register v95 and slot 15. -/
def pend0 : Pending := { id := 7, lane := some 31, lanes := laneBit 31, regs := [.v 95], vals := [1], slot := some (15, 4) }
def waiting0 : Wave :=
  { wave0 with pend := [pend0], threads := List.replicate 31 { pc := 0x10004 } ++ [{ pc := 0x10004, recOwner := [(15, 8)] }] }

theorem wit_ResultLanding :
    (world waiting0 gang0 launch0).wave? 3 = some waiting0 ∧
      waiting0.pend.find? (fun q => q.id == pend0.id && (world waiting0 gang0 launch0).mayLand q) = some pend0 ∧
      Map.get 0 (waiting0.thread 31).recOwner 15 = pend0.id + 1 :=
  ⟨rfl, rfl, rfl⟩

/-! ## Witnesses: memory, atomics, fences, schuss groups -/

/-- The same machine with a versioned kernel. -/
def SV : State := world wave0 gang0 { launch0 with hdr := { launch0.hdr with ver := true } }
theorem issV : Issuing SV C wave0 := issuing gang0 _ rfl rfl

/-- Nothing of lane 0 stands in the way of an order field. -/
theorem ordered (s : State) (w : Wave) (p : Scope) (r : Ord) (h1 : s.threadClear w 0 p = true) (h2 : (w.thread 0).rels = []) :
    Ordered s w 0 p r := ⟨fun _ => h1, fun _ => by simp [State.relsDone, h2]⟩

theorem wit_LoadResults :
    (∃ d ea, loadForm S wave0 (.ld .b32 (.v 95) (.v 0) .sys .acqrel .dflt) = some (.b32, d, ea, .sys, .acqrel, .dflt) ∧
      ∀ l, C.lanes.getLsbD l = true → LoadGoes S wave0 l .b32 (ea l) .sys .acqrel) ∧
    Ready (.ld .b32 (.v 95) (.v 0) .sys .acqrel .dflt) ∧ (ordRel .acqrel && scopeWide .sys && S.versioned (S.gangOf wave0)) = false :=
  ⟨⟨_, _, rfl, fun l h => by rw [lane0 h]; exact ⟨0, by decide +kernel, by decide, by decide, ordered _ _ _ _ (by decide) rfl⟩⟩, ready (by decide) (by decide) (by decide), rfl⟩

theorem wit_StoreResults :
    (∃ d a ea, storeForm S wave0 (.sto .b128 (.v 92) (.v 0) 0) = some (.b128, d, a, ea, .wave, .plain, .dflt) ∧
      (∀ l, C.lanes.getLsbD l = true → StoreGoes S wave0 l .b128 (ea l) .wave .plain) ∧
      ∀ l ∈ lanesOnce d a C, S.access wave0 .write (ea l) 16 = .ok 0 ∧ 0 % 16 = 0) ∧
    Ready (.sto .b128 (.v 92) (.v 0) 0) ∧ (∀ l, Coherent S l) ∧ SV.versioned (SV.gangOf wave0) = true ∧
      StoreGoes SV wave0 0 .b128 0 .wave .plain :=
  ⟨⟨_, _, _, rfl, fun l h => by rw [lane0 h]; exact ⟨0, by decide +kernel, by decide, by decide, ordered _ _ _ _ (by decide) rfl, by decide⟩,
    by decide +kernel⟩, ready (by decide) (by decide) (by decide), fun _ x h => by simp [S, world, State.reset] at h, rfl,
    0, by decide +kernel, by decide, by decide, ordered _ _ _ _ (by decide) rfl, fun _ => by decide⟩

/-- The gang with granule 0 full. -/
def gangFull : Gang := { gang0 with full := [0] }

theorem thread_rep {w : Wave} {n : Nat} {t : Thread} {l : Nat} (h : w.threads = List.replicate n t) :
    w.thread l = if l < n then t else { st := .ended } := by
  unfold Wave.thread
  rw [h, List.getD_eq_getElem?_getD, List.getElem?_replicate]
  split <;> rfl

/-- A thread that is not held waits for nothing. -/
theorem waits_held {t : Thread} {h : Hold} (hh : t.waits h) : ∃ x, t.st = .held x := by
  rcases hh.2 with e | ⟨e, _⟩
  · exact ⟨h, e⟩
  · exact e

theorem noFe : NoFeWait S 2 := by
  intro v hv _ l h hh
  obtain rfl : v = wave0 := by simpa [S, world] using hv
  exfalso
  obtain ⟨x, hx⟩ := waits_held hh
  rw [thread_rep (w := wave0) rfl] at hx
  split at hx <;> simp at hx

theorem wit_ScratchpadLoads :
    Ready (.ldsp .b64 (.v 94) (.s 0) .gang .acq .plain) ∧ S.gang? wave0.gang = some gang0 ∧
    (∀ l, C.lanes.getLsbD l = true → SpadGoes S wave0 l 8 (rd S wave0 l (.s 0)).toNat .gang .acq) ∧
    Ready (.ldsp .b64 (.v 94) (.s 0) .gang .plain .waittake) ∧ C.lanes = laneBit 0 ∧ AllFull gangFull 0 8 ∧
    ¬AllFull gang0 0 8 ∧ NoFeWait S wave0.gang :=
  ⟨ready (by decide) (by decide) (by decide), rfl, fun l h => by rw [lane0 h]; exact ⟨by decide, by decide, ordered _ _ _ _ (by decide) rfl⟩,
    ready (by decide) (by decide) (by decide), by decide,
    fun x h _ => by have : x = 0 := by omega
                    simp [this, gangFull],
    fun h => by simpa [gang0] using h 0 (by omega) (by omega), noFe⟩

theorem wit_ScratchpadStores :
    Ready (.stsp .b64 (.v 94) (.s 0) .gang .plain .fill) ∧ S.gang? wave0.gang = some gang0 ∧
    (∀ l, C.lanes.getLsbD l = true → SpadGoes S wave0 l 8 (rd S wave0 l (.s 0)).toNat .gang .plain) ∧
    Ready (.stsp .b64 (.v 94) (.s 0) .gang .plain .waitfill) ∧ C.lanes = laneBit 0 ∧ AllEmpty gang0 0 8 ∧
    ¬AllEmpty gangFull 0 8 ∧ NoFeWait S wave0.gang :=
  ⟨ready (by decide) (by decide) (by decide), rfl, fun l h => by rw [lane0 h]; exact ⟨by decide, by decide, ordered _ _ _ _ (by decide) rfl⟩,
    ready (by decide) (by decide) (by decide), by decide, fun x _ _ => by simp [gang0],
    fun h => h 0 (by omega) (by omega) (by simp [gangFull]), noFe⟩

theorem wit_FarAtomics :
    Ready (.atom .cas .b32 (.v 94) (.v 0) .pkg true) ∧ Ready (.atomr .add .f64 (.v 94) (.v 0) .sys false) ∧
    S.versioned (S.gangOf wave0) = false ∧
    ∀ l, C.lanes.getLsbD l = true → ∃ pa h, S.access wave0 .write (rd64 S wave0 l (.v 0)).toNat 8 = .ok pa ∧
      S.deviceFrame pa = true ∧ homeOf pa = some h ∧ (S.die h).feat.getLsbD 6 = true ∧ S.consumes wave0.gang pa 8 = false ∧
      S.lineClear wave0 l pa 8 = true ∧ S.stalled wave0 pa = false ∧ S.threadClear wave0 l .sys = true ∧
      S.relsDone wave0 l .sys = true :=
  ⟨ready (by decide) (by decide) (by decide), ready (by decide) (by decide) (by decide), rfl,
    fun l h => by rw [lane0 h]; exact ⟨0, 0, by decide +kernel⟩⟩

theorem wit_ScratchpadAtomics :
    Ready (.atomsp .cas .b32 (.v 94) (.v 0) .gang true) ∧ S.gang? wave0.gang = some gang0 ∧
    (∀ l, C.lanes.getLsbD l = true → SpadGoes S wave0 l 4 (rd S wave0 l (.v 0)).toNat .gang .plain) ∧
    ∀ l ∈ lanesOf C.lanes, (rd S wave0 l (.v 0)).toNat = 0 :=
  ⟨ready (by decide) (by decide) (by decide), rfl, fun l h => by rw [lane0 h]; exact ⟨by decide, by decide, ordered _ _ _ _ (by decide) rfl⟩,
    by decide⟩

theorem wit_AtomicRuns :
    (2 ^ 32 - 1 < 2 ^ 32 ∧ ∀ q ∈ [({ lane := 0, d := 1, c := 0, pid := none } : AtomPart)], q.d.toNat < 2 ^ 32 ∧ q.c.toNat < 2 ^ 32) :=
  by decide

theorem wit_FenceResults :
    (Ready (.fence .sys) ∧ S.versioned (S.gangOf wave0) = false ∧ ∀ l, C.lanes.getLsbD l = true → S.threadClear wave0 l .sys = true) ∧
    Ready (.acq .sys) ∧ ∀ l, C.lanes.getLsbD l = true → S.relsDone wave0 l .sys = true :=
  ⟨⟨ready (by decide) (by decide) (by decide), rfl, fun l h => by rw [lane0 h]; decide⟩, ready (by decide) (by decide) (by decide),
    fun l h => by rw [lane0 h]; decide⟩

/-- The versioned machine with one line of the gang's version. -/
def SVL : State := { SV with versions := [{ gang := 2, line := 0, data := 5, mask := 1, spill := false }] }

theorem wit_CommitPoints :
    Issuing SVL C wave0 ∧ Instr.commit.wellFormed = true ∧ Allowed SVL .commit wave0 ∧ SVL.gang? wave0.gang = some gang0 ∧
    SVL.versioned gang0 = true ∧ gang0.gate = false ∧
    (∀ l, C.lanes.getLsbD l = true → SVL.threadClear wave0 l .pkg = true ∧ (wave0.thread l).commitDone = false) ∧
    ∀ v ∈ SVL.versions, v.gang = gang0.id → homeOfLine v.line = some gang0.die :=
  ⟨{ cur := rfl, wave := rfl, single := rfl, lanes := by decide, runs := issV.runs }, by decide, ⟨by decide, by decide⟩, rfl, by decide, rfl,
    fun l h => by rw [lane0 h]; decide, by decide⟩

/-- The wave with an armed monitor, an event recorded or not. -/
def armed (e : Bool) : Wave := { wave0 with monitor := some { line := 0, event := e } }

theorem wit_MonitorWords :
    (Ready (.monitor (.s 0)) ∧ (∀ l, C.lanes.getLsbD l = true → S.access wave0 .read (rd64 S wave0 l (.s 0)).toNat 1 = .ok 0) ∧
      (S.waves.filter fun v => v.id != wave0.id && v.monitor.isSome && coreSector v.core == coreSector wave0.core).length < 256 ∧
      (S.waves.filter fun v => v.id != wave0.id &&
        v.monitor.any fun x => homeOfLine x.line == homeOfLine (0 / 64)).length < 4096) ∧
    ∀ e, Issuing (world (armed e) gang0 launch0) (issue0 (armed e)) (armed e) ∧
      (world (armed e) gang0 launch0).gang? (armed e).gang = some gang0 ∧ gang0.preempt = false ∧
      (armed e).monitor = some { line := 0, event := e } :=
  ⟨⟨ready (by decide) (by decide) (by decide), fun l h => by rw [lane0 h]; decide +kernel, by decide, by decide⟩, fun _ => ⟨issuing _ _ rfl rfl, rfl, rfl, rfl⟩⟩

/-- The machine with the group `LD.b32 v5, v2; ADDS.i v7, v7, v8` after the head, and with `LD.b64 v4, v2; LD.b32 v6, v4`. -/
def SG (x : Nat) : State := { S with mem := Memory.writeNat S.mem 0x10008 8 x }

def goesTo (r : Except Verdict Route) (n : Nat) : Bool := match r with | .ok (.line k) => k == n | _ => false
def goesInCore (r : Except Verdict Route) : Bool := match r with | .ok .core => true | _ => false
def ends (r : CoreEnd × State) : Bool := match r.1 with | .done _ => true | _ => false

theorem wit_SinkResults :
    (Instr.sink 1 15 .f0).wellFormed = true ∧ (∀ x, Issuing (SG x) C wave0) ∧ Allowed (SG 0) (.sink 1 15 .f0) wave0 ∧
    (∃ is next, (SG 0x02C1C38822414100).groupAt wave0 1 C.wordPc = .ok (is, next) ∧ (∀ i ∈ is, illReg i wave0 = false) ∧
      goesTo ((SG 0x02C1C38822414100).route wave0 0 is) 0 = true ∧ (SG 0x02C1C38822414100).lineClear wave0 0 0 64 = true) ∧
    ∃ is next, (SG 0x2241820022610100).groupAt wave0 1 C.wordPc = .ok (is, next) ∧ (∀ i ∈ is, illReg i wave0 = false) ∧
      goesInCore ((SG 0x2241820022610100).route wave0 0 is) = true ∧
      ends (State.coreGroup wave0 0 (is.drop ((SG 0x2241820022610100).groupStart wave0 0 is).done)
        ((SG 0x2241820022610100).groupStart wave0 0 is) (SG 0x2241820022610100)) = true :=
  ⟨by decide, fun x => { cur := rfl, wave := rfl, single := rfl, lanes := by decide, runs := iss.runs }, ⟨by decide, by decide⟩,
    ⟨[.ld .b32 (.v 5) (.v 2) .wave .plain .dflt, .addsI (.v 7) (.v 7) (.v 8)], 0x10014, by decide +kernel, by decide, by decide +kernel,
      by decide +kernel⟩,
    ⟨[.ld .b64 (.v 4) (.v 2) .wave .plain .dflt, .ld .b32 (.v 6) (.v 4) .wave .plain .dflt], 0x10014, by decide +kernel, by decide,
      by decide +kernel, by decide +kernel⟩⟩

/-! ## Witnesses: control flow, holds, exceptions -/

/-- The wave whose v0:v1 hold the program counter 0x1000C in every thread. -/
def jumpWave : Wave := { wave0 with threads := List.replicate 32 { pc := 0x10004, v := [(0, 0x1000C)] } }

theorem wit_TransferResults :
    Issuing (world jumpWave gang0 launch0) (issue0 jumpWave) jumpWave ∧ 96 ≤ jumpWave.grant ∧
    (∀ l, (issue0 jumpWave).lanes.getLsbD l = true →
      (rd64 (world jumpWave gang0 launch0) jumpWave l (.v 0)).toNat % 4 = 0 ∧
      (rd64 (world jumpWave gang0 launch0) jumpWave l (.v 0)).toNat / 4 % 4 ≠ 0 ∧
      (rd64 (world jumpWave gang0 launch0) jumpWave l (.v 0)).toNat < 2 ^ 51) ∧
    (Instr.jmp (.v 0)).wellFormed = true ∧ illReg (.jmp (.v 0)) jumpWave = false ∧
    (Instr.ret (.v 0)).wellFormed = true ∧ illReg (.ret (.v 0)) jumpWave = false ∧
    (Instr.callr (.v 0)).wellFormed = true ∧ illReg (.callr (.v 0)) jumpWave = false :=
  ⟨issuing _ _ rfl rfl, by decide, fun l h => by rw [lane0 h]; decide, by decide, by decide, by decide, by decide, by decide, by decide⟩

theorem no_wait {t : Thread} {h : Hold} (e : t.st = .run) : ¬t.waits h := fun hh => by
  obtain ⟨x, hx⟩ := waits_held hh
  rw [e] at hx; cases hx

theorem free0 : Free S wave0 := ⟨gang0, rfl, rfl, rfl⟩

/-- Lane 0 alone has its bit of k11; lane 1 has it too. -/
def bitWave (m : LaneMask) : Wave := { wave0 with k := [(11, m)] }

theorem wit_WaitkResults :
    (∀ m, Issuing (world (bitWave m) gang0 launch0) (issue0 (bitWave m)) (bitWave m) ∧ Free (world (bitWave m) gang0 launch0) (bitWave m)) ∧
    (∃ j, Live (bitWave 3) j ∧ (bitWave 3).kbit 11 j = true ∧ C.lanes.getLsbD j = false ∧
      ¬((bitWave 3).thread j).waits (.waitk 11)) ∧
    (∀ j, Live (bitWave 1) j → (bitWave 1).kbit 11 j = true →
      C.lanes.getLsbD j = true ∨ ((bitWave 1).thread j).st = .held (.waitk 11)) :=
  ⟨fun _ => ⟨issuing _ _ rfl rfl, gang0, rfl, rfl, rfl⟩, ⟨1, by unfold Live; decide, by decide, by decide, no_wait rfl⟩,
    fun j _ h => .inl (by simpa [bitWave, Wave.kbit, Wave.kreg, Map.get, C, issue0] using h)⟩

/-- The wave whose other threads have ended. -/
def lastThread : Wave := { wave0 with threads := { pc := 0x10004 } :: List.replicate 31 { pc := 0x10004, st := .ended } }

theorem wit_BarrierResults :
    (Issuing S C wave0 ∧ Free S wave0 ∧ wave0.wg < 4 ∧ ∃ v ∈ S.waves, v.gang = wave0.gang ∧ v.wg = wave0.wg ∧
      ∃ l, Live v l ∧ ¬(v.id = wave0.id ∧ C.lanes.getLsbD l = true) ∧ ¬(v.thread l).waits (.barWg 15)) ∧
    (Issuing (world lastThread gang0 launch0) (issue0 lastThread) lastThread ∧ Free (world lastThread gang0 launch0) lastThread ∧
      ∀ v ∈ (world lastThread gang0 launch0).waves, ∀ l, Live v l → v.id = lastThread.id ∧ C.lanes.getLsbD l = true) :=
  ⟨⟨iss, free0, by decide, wave0, by simp [S, world], rfl, rfl, 1, by unfold Live; decide, by decide, no_wait rfl⟩, issuing _ _ rfl rfl, ⟨gang0, rfl, rfl, rfl⟩, fun v hv l h => by
    obtain rfl : v = lastThread := by simpa [world] using hv
    have : ∀ l < 32, (lastThread.thread l).st ≠ .ended → l = 0 := by decide
    rw [this l h.1 h.2]; decide⟩

theorem noXacq {w : Wave} {g : Gang} {l : Launch} (t : Thread) (h : w.threads = List.replicate 32 t) (hr : t.st = .run) :
    ∀ v ∈ (world w g l).waves, v.track = some 0 → ∀ l h, (v.thread l).waits h → ¬Hold.isXacq h := by
  intro v hv _ l y hy
  obtain rfl : v = w := by simpa [world] using hv
  obtain ⟨x, hx⟩ := waits_held hy
  rw [thread_rep h] at hx
  split at hx <;> simp_all

/-- The wave granted 32 registers. -/
def smallWave : Wave := { wave0 with grant := 32 }

theorem wit_GrantResults :
    (Issuing S C wave0 ∧ Free S wave0 ∧ Grant.t .t96 ≤ wave0.grant ∧ wave0.quiet = true ∧
      Issuing (world waiting0 gang0 launch0) (issue0 waiting0) waiting0 ∧ waiting0.quiet = false) ∧
    (Issuing (world smallWave gang0 launch0) (issue0 smallWave) smallWave ∧ Free (world smallWave gang0 launch0) smallWave ∧
      smallWave.grant < Grant.t .t96 ∧ smallWave.track = some 0 ∧
      (∀ v ∈ (world smallWave gang0 launch0).waves, v.track = some 0 → ∀ l h, (v.thread l).waits h → ¬Hold.isXacq h) ∧
      Grant.t .t96 - smallWave.grant ≤ (world smallWave gang0 launch0).trackFree 0) ∧
    ({ (world smallWave gang0 launch0) with trackCaps := [(0, 32)] }).trackFree 0 < Grant.t .t96 - smallWave.grant :=
  ⟨⟨iss, free0, by decide, by decide, issuing _ _ rfl rfl, by decide⟩,
    ⟨issuing _ _ rfl rfl, ⟨gang0, rfl, rfl, rfl⟩, by decide, rfl, noXacq _ rfl rfl, by decide⟩, by decide⟩

/-- A result of lane 0 outstanding in the issuing wave. -/
def busyWave : Wave := { wave0 with pend := [{ pend0 with lane := some 0, lanes := laneBit 0 }] }

theorem wit_PlainWords : (Issuing S C wave0 ∧ ∀ l, C.lanes.getLsbD l = true → ∀ p ∈ wave0.pend, p.lanes.getLsbD l = false) ∧
    Issuing (world busyWave gang0 launch0) (issue0 busyWave) busyWave ∧
      ∃ l, (issue0 busyWave).lanes.getLsbD l = true ∧ ∃ p ∈ busyWave.pend, p.lanes.getLsbD l = true :=
  ⟨⟨iss, fun _ _ _ h => by simp [wave0] at h⟩, issuing _ _ rfl rfl, 0, by decide, by decide⟩

theorem wit_CauseAborts :
    IsWord (.trap 255) ∧ Issuing S C wave0 ∧ raisedBy S wave0 (.trap 255) = some (11, 255) ∧ S.gang? wave0.gang = some gang0 ∧
    gang0.st = .live ∧ S.commitsDone gang0 = true ∧ (∃ l, C.lanes.getLsbD l = true ∧ ¬Handled wave0 l 11) ∧
    (∃ x, decodeSlot 0x39000000 = some x ∧ IsWord x.i ∧ raisedBy S wave0 x.i = some (2, 0)) :=
  ⟨.inl (by decide), iss, by decide, rfl, rfl, by decide, ⟨0, by decide, fun h => by have := h.2.2.1; revert this; decide⟩,
    ⟨_, rfl, .inr (by decide), by decide⟩⟩

/-- The wave with a handler for TRAP at 0x10008, its frames at 0x20000; and the machine whose core holds their translation. -/
def trapWave : Wave := { wave0 with trapBase := 0x10008, trapFrame := 0x20000, trapEn := 0x800 }
def ST : State := { world trapWave gang0 launch0 with
  tlb := [{ core := 0, ctx := 0, vbase := 0, size := 2 ^ 39, pbase := 0, r := true, w := true, x := true }] }

theorem wit_HandlerEntry :
    IsWord (.trap 255) ∧ Issuing ST (issue0 trapWave) trapWave ∧ raisedBy ST trapWave (.trap 255) = some (11, 255) ∧ trapWave.grant ≤ 96 ∧
    (∀ l, (issue0 trapWave).lanes.getLsbD l = true → Handled trapWave l 11 ∧ (∀ p ∈ trapWave.pend, p.lanes.getLsbD l = false) ∧
      ST.frameAccess trapWave .write l = .ok 0x20000 ∧ 0x20000 % 64 = 0 ∧
      ∃ e, (e ∈ ST.tlb ∧ e.core = trapWave.core ∨ e ∈ ST.sectTlb ∧ e.core = coreSector trapWave.core) ∧ e.ctx = ST.ctxId trapWave ∧
        e.vbase ≤ frameOfLane ST trapWave l ∧ frameOfLane ST trapWave l < e.vbase + e.size) ∧
    ST.canPublish (coreDie trapWave.core) = true ∧ ST.versioned (ST.gangOf trapWave) = false ∧ (issue0 trapWave).lanes = laneBit 0 ∧
    ∀ k < 8, homeOfLine (0x20000 / 64 + k) = some (coreDie trapWave.core) :=
  ⟨.inl (by decide), { cur := rfl, wave := rfl, single := rfl, lanes := by decide, runs := (issuing gang0 launch0 rfl rfl : Issuing _ _ trapWave).runs },
    by decide, by decide, fun l h => by
      rw [lane0 h]
      exact ⟨⟨by decide, by decide, by decide, by decide, by decide, by decide, by decide⟩, by decide, by decide +kernel, by decide,
        _, .inl ⟨List.mem_singleton.mpr rfl, rfl⟩, rfl, by decide +kernel, by decide +kernel⟩,
    by decide, rfl, by decide, by decide⟩

/-- The wave in its handlers, with the frame of lane 0 at 0x20000. -/
def handlerWave : Wave := { trapWave with threads := List.replicate 32 { pc := 0x10004, inHandler := true } }
def SE : State := { world handlerWave gang0 launch0 with mem := Memory.writeNat S.mem 0x20000 8 0x1000C }

theorem wit_EretResults :
    Issuing SE (issue0 handlerWave) handlerWave ∧
    ∀ l, (issue0 handlerWave).lanes.getLsbD l = true → (handlerWave.thread l).inHandler = true ∧
      (∀ p ∈ handlerWave.pend, p.lanes.getLsbD l = false) ∧ SE.frameClear handlerWave l = true ∧
      SE.readFrame handlerWave l = .ok 0x1000C ∧ validPc (BitVec.ofNat 64 0x1000C) = true :=
  ⟨{ cur := rfl, wave := rfl, single := rfl, lanes := by decide, runs := (issuing gang0 launch0 rfl rfl : Issuing _ _ handlerWave).runs },
    fun l h => by rw [lane0 h]; exact ⟨by decide, by decide, by decide +kernel, by decide +kernel, by decide⟩⟩

/-! ## Witnesses: engine words -/

theorem issuing_same {s t : State} {c : Issue} {w : Wave} (h : Issuing s c w) (hc : t.cur = s.cur) (hw : t.waves = s.waves) :
    Issuing t c w where
  cur := hc.trans h.cur
  wave := by have := h.wave; unfold State.wave? at *; rw [hw]; exact this
  single := h.single
  lanes := h.lanes
  runs := h.runs

/-- The word may be issued on `s` by the small wave. -/
structure Runs (s : State) (i : Instr) : Prop where
  wf : i.wellFormed = true
  iss : Issuing s C wave0
  ok : Allowed s i wave0

theorem runs_of {s : State} {i : Instr} (h : i.wellFormed = true) (hc : s.cur = S.cur) (hw : s.waves = S.waves)
    (hg : s.groupCause i wave0 = none) (hr : illReg i wave0 = false) : Runs s i := ⟨h, issuing_same iss hc hw, hg, hr⟩

/-- A running graph whose node 0 feeds the bin of node 1, and the launch of node 0. -/
def nodeA : NodeSt :=
  { bin := false, shape := false, predictor := 0, c := 0, timer := 0, cost := 0, codeBase := 0, header := 0, x := 1, y := 1, z := 1,
    binOff := 0, binCap := 0, succ := [1], cell := 0, args := [] }
def nodeB : NodeSt := { nodeA with bin := true, succ := [], c := 1, binOff := 64, binCap := 4 }
def graph0 : Launch := { id := 5, ctx := 0, kind := .graph, started := true, args := 0x4000, graph := some { nodes := [nodeA, nodeB], patches := [], bufs := [] } }
def SN : State := { S with launches := [{ launch0 with kind := .node 5 0 }, graph0]
                           waves := [{ wave0 with s := [(0, 1)] }], cur := some (issue0 { wave0 with s := [(0, 1)] }) }

theorem wit_SignalResults :
    (S.gang? wave0.gang = some gang0 ∧ S.versioned gang0 = false ∧ (∀ x ∈ S.sect, homeOfLine x.line ≠ none) ∧
      Runs S (.sigdec (.s 0) (.s 31)) ∧ S.access wave0 .write (rd64 S wave0 0 (.s 0)).toNat 8 = .ok 0 ∧ S.deviceFrame 0 = true ∧
      S.consumes wave0.gang 0 8 = false ∧ (∀ l, C.lanes.getLsbD l = true → S.threadClear wave0 l .sys = true) ∧ S.writable (coreDie wave0.core) 0 = true) ∧
    (Issuing SN (issue0 { wave0 with s := [(0, 1)] }) { wave0 with s := [(0, 1)] } ∧ (Instr.nrec (.v 92) (.s 0)).wellFormed = true ∧
      Allowed SN (.nrec (.v 92) (.s 0)) { wave0 with s := [(0, 1)] } ∧
      SN.binOf { wave0 with s := [(0, 1)] } (rd SN { wave0 with s := [(0, 1)] } 0 (.s 0)).toNat = some (graph0, nodeB) ∧
      nodeB.count + (lanesOf C.lanes).length ≤ nodeB.binCap ∧
      SN.access { wave0 with s := [(0, 1)] } .write (0x4000 + 64) 16 = .ok 0x4040 ∧ SN.threadClear { wave0 with s := [(0, 1)] } 0 .pkg = true ∧
      homeOf 0x4040 = some 0 ∧ SN.writable (coreDie wave0.core) 0 = true) :=
  ⟨⟨rfl, rfl, by decide, runs_of (by decide) rfl rfl (by decide) (by decide), by decide +kernel, by decide +kernel,
      by decide, fun l h => by rw [lane0 h]; decide, by decide⟩,
    ⟨{ cur := rfl, wave := rfl, single := rfl, lanes := by decide, runs := iss.runs }, by decide, ⟨by decide, by decide⟩, by decide +kernel,
      by decide, by decide +kernel, by decide, by decide +kernel, by decide⟩⟩

/-- The gang whose lift queue 3 holds `n` chains, and which walks a chain or not. -/
def chain0 : LiftChain := { seq := 0, start := 0, fmode := 0, pc := 0x10004 }
def liftGang (n : Nat) (k : Option Walk) (spad : Memory) : Gang :=
  { gang0 with spad, queues := List.replicate 3 ({} : LiftQ) ++ [{ walk := k, held := List.replicate n chain0 }] }
/-- A walk that has read a COPY entry, held or not. -/
def walkAt (held : Bool) : Walk := { chain := chain0, pos := 0, cur := some (if held then 0x201 else 1) }
def SL (g : Gang) : State := { S with gangs := [g] }

theorem slRuns (g : Gang) {i : Instr} (hi : i.wellFormed = true) (hg : (SL g).groupCause i wave0 = none) (hr : illReg i wave0 = false) :
    Runs (SL g) i := runs_of hi rfl rfl hg hr

theorem wit_LiftWords :
    (Runs (SL (liftGang 7 none [])) (.lift 3 (.s 0)) ∧ RecordAt (SL (liftGang 7 none [])) (liftGang 7 none []) (rd S wave0 0 (.s 0)).toNat 32 32 ∧
      ((liftGang 7 none []).liftQ 3).held.length < 8 ∧ ((liftGang 7 none []).liftQ 3).walk = none) ∧
    (Runs (SL (liftGang 8 none [])) (.lift 3 (.s 0)) ∧ 8 ≤ ((liftGang 8 none []).liftQ 3).held.length) ∧
    Runs (SL gang0) (.liftst (.v 95) .bin) ∧
    (Runs (SL gang0) (.liftabt 3) ∧ (gang0.liftQ 3).walk = none ∧
      ∀ b, ((liftGang 1 (some (walkAt b)) []).liftQ 3).walk = some (walkAt b) ∧ ∃ e, (walkAt b).cur = some e ∧ entryKind e.toNat = 1 ∧
        (SL (liftGang 1 (some (walkAt b)) [])).entryWaits (liftGang 1 (some (walkAt b)) []) 3 (walkAt b) = b) :=
  ⟨⟨slRuns _ (by decide) (by decide) (by decide), ⟨by decide, by decide⟩, by decide, rfl⟩,
    ⟨slRuns _ (by decide) (by decide) (by decide), by decide⟩, slRuns _ (by decide) (by decide) (by decide),
    slRuns _ (by decide) (by decide) (by decide), rfl, fun b => ⟨rfl, _, rfl, by revert b; decide +kernel⟩⟩

/-- A tile of the gang at logical number 0, physical tile 5. -/
def tile0 : Tile := { cluster := 0, phys := 5, ctx := 0, st := .gangOwned 2 0 }
def task0 : TileCmd := { seq := 0, kind := .task, pc := 0x10004 }
/-- The gang with `n` tasks in its queue and the record of a ZERO of 32 by 32 at offset 0; the machine with that tile. -/
def tq (n : Nat) : Gang := { gang0 with tileQ := List.replicate n task0, spad := [(0, 4), (2, 32), (3, 32)] }
def SQ (n : Nat) : State := { S with gangs := [tq n], tiles := [tile0] }

theorem quiet (n : Nat) : Quiet (SQ n) wave0 (tq n) where
  gang := rfl
  ver := rfl
  acc x hx d hd := by
    obtain rfl : x = (tq n) := by simpa [SQ] using hx
    rw [List.eq_of_mem_replicate hd]; rfl
  tiles y hy := by obtain rfl : y = tile0 := by simpa [SQ] using hy
                   decide

theorem wit_TileQueueWords :
    (Runs (SQ 63) (.tqadd (.s 0)) ∧ Quiet (SQ 63) wave0 (tq 63) ∧
      RecordAt (SQ 63) (tq 63) (rd S wave0 0 (.s 0)).toNat 64 64 ∧ Room (tq 63) ∧
      List.Forall₂ (Named (SQ 63) (tq 63)) 
        (taskTiles (BitVec.ofNat 32 (Memory.readNat (tq 63).spad 0 4)) (Memory.readNat (tq 63).spad 14 2)) [5]) ∧
    (Runs (SQ 64) (.tqadd (.s 0)) ∧ Quiet (SQ 64) wave0 (tq 64) ∧
      ¬Room (tq 64)) ∧
    (Runs (SQ 63) (.dupd (.s 0)) ∧ RecordAt (SQ 63) (tq 63) (rd S wave0 0 (.s 0)).toNat 16 64) ∧ Runs (SQ 64) (.dqry (.s 0)) ∧
    (Runs (SQ 63) (.tqwait (.v 95) 63) ∧ ((tq 63).tileQ.filter TileCmd.counted).length ≤ 63) ∧
    (Runs (SQ 64) (.tqwait (.v 95) 63) ∧ ¬(((tq 64).tileQ.filter TileCmd.counted).length ≤ 63 ∨ (tq 64).preempt = true)) :=
  ⟨⟨runs_of (by decide) rfl rfl (by decide) (by decide), quiet _, ⟨by decide, by decide⟩, by unfold Room; decide,
      (List.Forall₂.cons ⟨tile0, rfl, rfl, rfl⟩ .nil : List.Forall₂ (Named (SQ 63) _) [0] [5])⟩,
    ⟨runs_of (by decide) rfl rfl (by decide) (by decide), quiet _, by unfold Room; decide⟩,
    ⟨runs_of (by decide) rfl rfl (by decide) (by decide), ⟨by decide, by decide⟩⟩, runs_of (by decide) rfl rfl (by decide) (by decide),
    ⟨runs_of (by decide) rfl rfl (by decide) (by decide), by decide⟩, runs_of (by decide) rfl rfl (by decide) (by decide), by decide⟩

theorem idle : Idle (SQ 0) wave0 (tq 0) where
  toQuiet := quiet 0
  empty x hx _ := by obtain rfl : x = tq 0 := by simpa [SQ] using hx
                     rfl
  place := rfl
  live := rfl

theorem named0 : Named (SQ 0) (tq 0) 0 5 := ⟨tile0, rfl, rfl, rfl⟩

theorem wit_AccumulatorWords :
    Idle (SQ 0) wave0 (tq 0) ∧
    (Runs (SQ 0) (.accz (.s 0) 0) ∧ (rd (SQ 0) wave0 0 (.s 0)).toNat % 256 + 0 + 1 ≤ 256 ∧
      List.Forall₂ (Named (SQ 0) (tq 0)) ((List.range 1).map ((rd (SQ 0) wave0 0 (.s 0)).toNat % 256 + ·)) [5]) ∧
    (S.window gang0 0 = none ∧ S.tile? gang0.cluster 0 = none) ∧
    (Runs (SQ 0) (.accrd (.v 95) (.v 0)) ∧ ∀ l ∈ lanesFor (.v 95) C, Named (SQ 0) (tq 0) ((rd (SQ 0) wave0 l (.v 0)).toNat / 2 ^ 10 % 256) 5) ∧
    (Runs (SQ 0) (.accwr (.v 0) (.v 95)) ∧
      (∀ l, C.lanes.getLsbD l = true → Named (SQ 0) (tq 0) ((rd (SQ 0) wave0 l (.v 0)).toNat / 2 ^ 10 % 256) 5) ∧
      ∀ l j, C.lanes.getLsbD l = true → C.lanes.getLsbD j = true → l = j) :=
  ⟨idle, ⟨runs_of (by decide) rfl rfl (by decide) (by decide), by decide, (List.Forall₂.cons named0 .nil : List.Forall₂ (Named (SQ 0) _) [0] [5])⟩, ⟨rfl, rfl⟩,
    ⟨runs_of (by decide) rfl rfl (by decide) (by decide), fun l h => by
      obtain rfl : l = 0 := (by decide : ∀ l ∈ lanesFor (.v 95) C, l = 0) l h
      exact named0⟩,
    ⟨runs_of (by decide) rfl rfl (by decide) (by decide), fun l h => by rw [lane0 h]; exact named0,
      fun l j h k => (lane0 h).trans (lane0 k).symm⟩⟩

/-- The wave with s0 = 1, and a state of handle 1 bound to the gang at logical tile 0 or unbound. -/
def wave1 : Wave := { wave0 with s := [(0, 1)] }
def rec0 (b : Option (Nat × Nat)) : StateRec :=
  { ctx := 0, handle := 1, dv := 32, dk := 32, tokens := 0, place := .cluster 0, bound := b }
def SP (ts : List Tile) (rs : List StateRec) : State :=
  { S with gangs := [gang0], waves := [wave1], cur := some (issue0 wave1), tiles := ts, states := rs }
def pinned0 : Tile := { cluster := 0, phys := 5, ctx := 0, st := .pinned 1 0 }

theorem issP (ts : List Tile) (rs : List StateRec) : Issuing (SP ts rs) (issue0 wave1) wave1 :=
  { cur := rfl, wave := rfl, single := rfl, lanes := by decide, runs := iss.runs }

theorem idleP {ts : List Tile} (rs : List StateRec) (h : ∀ y ∈ ts, y.phys < 256) : Idle (SP ts rs) wave1 gang0 where
  gang := rfl
  ver := rfl
  acc x hx d hd := by obtain rfl : x = gang0 := by simpa [SP] using hx
                      simp [gang0] at hd
  tiles := h
  empty x hx _ := by obtain rfl : x = gang0 := by simpa [SP] using hx
                     rfl
  place := rfl
  live := rfl

theorem wit_StateWords :
    (∀ rs, Idle (SP [tile0] rs) wave1 gang0) ∧ (∀ ts rs, Issuing (SP ts rs) (issue0 wave1) wave1) ∧
    (Allowed (SP [tile0] []) (.accpin (.s 0) (.s 31)) wave1 ∧ rd (SP [tile0] []) wave1 0 (.s 0) ≠ 0 ∧
      (SP [tile0] []).stateRec? 0 1 = none ∧ Named (SP [tile0] []) gang0 0 5 ∧
      ∀ y, (SP [tile0] []).tile? gang0.cluster 5 = some y → y.st = .gangOwned gang0.id 0) ∧
    (Allowed (SP [pinned0] [rec0 (some (2, 0))]) (.accunpin (.s 0)) wave1 ∧
      (SP [pinned0] [rec0 (some (2, 0))]).boundState gang0 (rd (SP [pinned0] [rec0 (some (2, 0))]) wave1 0 (.s 0)).toNat =
        some (rec0 (some (2, 0)))) ∧
    ((Instr.accspill (.s 0) (.s 2)).wellFormed = true ∧ Allowed (SP [pinned0] [rec0 (some (2, 0))]) (.accspill (.s 0) (.s 2)) wave1 ∧
      (SP [] []).access wave1 .write (rd64 (SP [] []) wave1 0 (.s 2)).toNat 64 = .ok 0 ∧ (SP [] []).deviceFrame 0 = true ∧
      ((SP [pinned0] [rec0 (some (2, 0))]).handleTiles gang0 1).Nodup) ∧
    ((Instr.accfill (.s 0) (.s 2)).wellFormed = true ∧ Allowed (SP [] []) (.accfill (.s 0) (.s 2)) wave1 ∧
      (SP [] []).access wave1 .read (rd64 (SP [] []) wave1 0 (.s 2)).toNat 64 = .ok 0) ∧
    ((Instr.accbind (.s 30) (.s 0)).wellFormed = true ∧ Allowed (SP [] []) (.accbind (.s 30) (.s 0)) wave1 ∧
      (SP [pinned0] [rec0 none]).stateRec? 0 1 = some (rec0 none) ∧ (rec0 none).ending = false ∧
      (rec0 none).place = .cluster gang0.cluster ∧ (SP [pinned0] [rec0 none]).window gang0 0 = none ∧
      0 + stateSize 32 32 ≤ 256 ∧ stateSize 32 32 = 1) :=
  ⟨fun rs => idleP rs (by decide), issP, ⟨⟨by decide, by decide⟩, by decide, rfl, ⟨tile0, rfl, rfl, rfl⟩, fun y h => by cases h; rfl⟩, ⟨⟨by decide, by decide⟩, by decide⟩,
    ⟨by decide, ⟨by decide, by decide⟩, by decide +kernel, by decide +kernel, by decide⟩,
    ⟨by decide, ⟨by decide, by decide⟩, by decide +kernel⟩, by decide, ⟨by decide, by decide⟩, rfl, rfl, rfl, rfl, by decide, by decide⟩

theorem wit_RinkWords :
    (Runs S (.rkinit 15 (.s 0)) ∧ (∀ q ∈ gang0.queues, q.walk = none ∧ q.held = []) ∧ gang0.tileQ = [] ∧
      (rd64 S wave0 0 (.s 0)).toNat / 2 ^ 54 = 0 ∧ RinkOk 4096 0 0 0 ∧ RinkOk 4096 0 256 16 ∧ ¬RinkOk 4096 0 16 1) ∧
    (Runs (SL (liftGang 1 none [])) (.rkinit 15 (.s 0)) ∧
      ∃ q ∈ (liftGang 1 none []).queues, ∃ h ∈ q.held, h.seq < S.nextId) ∧
    (∃ d ∈ ({ gang0 with tileQ := [{ task0 with head := 0x200 }] } : Gang).tileQ, d.kind = .task ∧ d.seq < S.nextId ∧ d.head.getLsbD 9 = true) ∧
    ((gang0.rinks.getD 15 {}).count = 0 ∧ Runs S (.rkwait 15 15 false) ∧ Runs S (.rkwait 15 15 true) ∧
      (∀ l, C.lanes.getLsbD l = true → S.relsDone wave0 l .gang = true ∧ S.threadClear wave0 l .gang = true) ∧
      (gang0.rinks.getD 15 {}).phases.getLsbD 15 = false ∧ Runs S (.rkflip 15 15)) :=
  ⟨⟨runs_of (by decide) rfl rfl (by decide) (by decide), by decide, rfl, by decide, .inl ⟨rfl, rfl, rfl⟩, .inr (by omega),
      by unfold RinkOk; omega⟩,
    ⟨runs_of (by decide) rfl rfl (by decide) (by decide), { held := [chain0] }, by decide, chain0, by decide⟩, ⟨_, List.mem_singleton.mpr rfl, rfl, by decide, by decide⟩,
    rfl, runs_of (by decide) rfl rfl (by decide) (by decide), runs_of (by decide) rfl rfl (by decide) (by decide),
    fun l h => by rw [lane0 h]; decide, rfl,
    runs_of (by decide) rfl rfl (by decide) (by decide)⟩

/-- The machine whose launch has a TID table of one entry. -/
def STid : State := { S with launches := [{ launch0 with hdr := { launch0.hdr with tidtable := 1 } }] }

theorem wit_TensorWords :
    STid.gang? wave0.gang = some gang0 ∧ (STid.launchOf gang0).hdr.tidtable = 1 ∧
    (Runs STid (.tidset (.s 0) (.s 0)) ∧ (rd STid wave0 0 (.s 0)).toNat % 4096 < 1 ∧ RecordAt STid gang0 0 16 128) ∧
    Runs STid (.tidinv (.s 0)) ∧ (Runs STid (.tidget (.v 95) (.v 0)) ∧
      ∀ l, C.lanes.getLsbD l = true → (rd STid wave0 l (.v 0)).toNat % 4096 < 1) ∧
    (Runs STid (.bingo (.s 0)) ∧ STid.versioned gang0 = false ∧ RecordAt STid gang0 0 16 (32 + 16 * Memory.readNat gang0.spad 16 2)) :=
  ⟨rfl, rfl, ⟨runs_of (by decide) rfl rfl (by decide) (by decide), by decide, by decide, by decide⟩,
    runs_of (by decide) rfl rfl (by decide) (by decide),
    ⟨runs_of (by decide) rfl rfl (by decide) (by decide), fun l h => by rw [lane0 h]; decide⟩,
    runs_of (by decide) rfl rfl (by decide) (by decide), rfl, by decide, by decide⟩

/-! ## Witnesses: events of threads, storage and the fabric -/

/-- The wave with thread 1 at another program counter, passed over 255 times, and 64 cycles of the wave's own. -/
def passedOver : Wave :=
  { wave0 with wait := 64, threads := { pc := 0x10004 } :: { pc := 0x10008, count := 255 } :: List.replicate 30 { pc := 0x10004 } }
/-- A gang with nothing left to do: its threads have ended. -/
def spent : Wave := { wave0 with threads := List.replicate 32 { pc := 0x10004, st := .ended } }
/-- The wave waits at WAITM. -/
def atWaitm : Wave := { armed false with threads := List.replicate 32 { pc := 0x10004, st := .held .waitm } }
/-- Lane 31 waits in trap entry for its turn. -/
def trap0 : TrapInfo := { code := 11, n := 255, pc := 0x10004, word := 0, pos := 0, detail := 0 }
def entering : Wave := { trapWave with threads := List.replicate 31 { pc := 0x10004 } ++ [{ pc := 0x10004, st := .held (.entry trap0 none) }] }

theorem wit_ThreadEvents :
    ((world (armed false) gang0 launch0).wave? 3 = some (armed false) ∧ (armed false).monitor = some { line := 0, event := false } ∧
      (world atWaitm gang0 launch0).wave? 3 = some atWaitm ∧ atWaitm.monitor = some { line := 0, event := false } ∧
      (∃ h ∈ atWaitm.threads, h.st = .held .waitm) ∧ (world atWaitm gang0 launch0).gangOf atWaitm = gang0 ∧ gang0.preempt = false ∧
      gang0.place.isSome = true) ∧
    ((world passedOver gang0 launch0).wave? 3 = some passedOver ∧ passedOver.track = some 0 ∧ passedOver.prog = true ∧
      (∃ l < 32, (passedOver.thread l).st = .run ∧ 255 ≤ (passedOver.thread l).count ∧
        ∀ k, passedOver.lead.getLsbD k = true → (passedOver.thread k).st = .run → (passedOver.thread k).pc ≠ (passedOver.thread l).pc) ∧
      64 ≤ passedOver.wait ∧ ∀ v ∈ (world passedOver gang0 launch0).waves, v.wait ≤ passedOver.wait) ∧
    (S.gang? 2 = some gang0 ∧ S.gangOn gang0 = true ∧ (∃ v ∈ S.waves, v.gang = 2 ∧ ∃ l, Live v l) ∧ S.commitsDone gang0 = true ∧
      gang0.st = .live) ∧
    ((world spent gang0 launch0).gang? 2 = some gang0 ∧ (world spent gang0 launch0).gangOn gang0 = true ∧
      (∀ v ∈ (world spent gang0 launch0).waves, ∀ l, ¬Live v l) ∧ ∀ q < 4, (world spent gang0 launch0).queueWaits gang0 q = false) ∧
    (∃ w ∈ S.waves, w.track.isSome = true ∧ w.core = 0 ∧ ∃ x ∈ [((3, 31, 95) : Nat × Nat × Nat)], x.1 = w.id ∧ x.2.2 < w.grant) ∧
    9 ∈ ({ S with unswept := [9] } : State).unswept ∧
    ((world entering gang0 launch0).wave? 3 = some entering ∧ (entering.thread 31).st = .held (.entry trap0 none) ∧
      (∀ k y, (entering.thread k).st = .held (.entry y none) → k = 31) ∧ entering.pend = [] ∧
      (world entering gang0 launch0).versioned ((world entering gang0 launch0).gangOf entering) = false ∧ validPc entering.trapBase = true ∧
      (world entering gang0 launch0).gangOn ((world entering gang0 launch0).gangOf entering) = true ∧
      (world entering gang0 launch0).canPublish (coreDie entering.core) = true ∧
      (world entering gang0 launch0).frameAccess entering .write 31 = .ok (0x20000 + 512 * 31)) :=
  ⟨⟨rfl, rfl, rfl, rfl, ⟨_, .head _, rfl⟩, rfl, rfl, rfl⟩,
    ⟨rfl, rfl, rfl, ⟨1, by decide, rfl, by decide, fun k h _ => by rw [lane0 h]; decide⟩, by decide, by decide⟩,
    ⟨rfl, rfl, ⟨wave0, .head _, rfl, 0, by unfold Live; decide⟩, by decide, rfl⟩, ⟨rfl, rfl, fun v hv l h => by
      obtain rfl : v = spent := by simpa [world] using hv
      have : ∀ l < 32, (spent.thread l).st = .ended := by decide
      exact h.2 (this l h.1), by decide⟩,
    ⟨wave0, by simp [S, world], rfl, rfl, _, List.mem_singleton.mpr rfl, rfl, by decide⟩, by decide,
    ⟨rfl, rfl, fun k y h => by
      have hk : k < 32 := by
        by_contra hk
        have : entering.thread k = { st := .ended } := by
          unfold Wave.thread; rw [List.getD_eq_default]; simp [entering]; omega
        rw [this] at h; cases h
      have : ∀ k < 31, (entering.thread k).st = .run := by decide
      rcases Nat.lt_or_ge k 31 with h' | h'
      · rw [this k h'] at h; cases h
      · omega, rfl, rfl, by decide, rfl, by decide, by decide +kernel⟩⟩

/-- A fill of line 0x1000 for the wave's load, and of line 2^32 of die 1. -/
def fill0 (line : Nat) (data : Option Line) : Fill :=
  { id := 8, sector := 0, core := 0, line := line, fillSect := true, deps := List.replicate 8 0, sent := true, data := data, applied := List.replicate 8 0
    waiters := [{ wave := 3, lanes := laneBit 31, pid := 7, off := 60, width := .b32, fillL1 := true, last := false }] }
def open0 : Pending := { id := 7, lane := some 31, lanes := laneBit 31, regs := [.v 95], vals := [], opened := true, far := true }
def SF (line : Nat) (data : Option Line) (fs : List Flow) : State :=
  { S with fills := [fill0 line data], waves := [{ wave0 with pend := [open0] }], flows := fs }

theorem wit_FillEvents :
    ((SF 0x1000 none []).fills.find? (fun x => x.id == 8) = some (fill0 0x1000 none) ∧ (0 : Nat) = coreSector 0 ∧
      Coherent (SF 0x1000 none []) 0x1000 ∧ (fill0 0x1000 none).sent = true ∧
      (SF 0x1000 none []).coverage (sectorDie 0) (List.replicate 8 0) = true ∧ homeOfLine 0x1000 = some (sectorDie 0) ∧
      (SF 0x1000 none []).wave? 3 = some { wave0 with pend := [open0] }) ∧
    (homeOfLine (2 ^ 32) = some 1 ∧ (1 : Nat) ≠ sectorDie 0 ∧ (fill0 (2 ^ 32) (some 5)).data = some 5 ∧
      .reply 8 ∈ ((SF (2 ^ 32) (some 5) [{ cls := .response, src := 1, dst := 0, ready := [.reply 8] }]).flow .response 1 0).ready) ∧
    (.read 8 ∈ ((SF (2 ^ 32) none [{ cls := .request, src := 0, dst := 1, ready := [.read 8] }]).flow .request 0 1).ready ∧
      S.coverage 1 (List.replicate 8 0) = true ∧ S.coverage 1 (List.replicate 8 1) = false ∧
      S.coverage (sectorDie 0) (List.replicate 8 1) = false) ∧
    S.sect = [] ∧ S.link = true ∧ S.stage = 6 ∧ ({ S with stage := 3 } : State).stage ≠ 6 ∧ ¬Reached { S with stage := 3 } 0x8000 64 ∧
    HostUncached S ∧ Reached S 0x8000 64 ∧ ¬Reached S (2 ^ 49 - 1) 2 ∧
    S.homeLines.length + S.versions.length + 64 + 1 < 2 ^ 22 ∧ S.deviceFrame 0x8000 = true ∧
    (0x200 ∈ ({ S with hostLines := [0x200] } : State).hostLines ∧ ∀ n < 64, S.frameOk (64 * 0x200 + n) = true) ∧
    ({ S with link := false } : State).link = false :=
  ⟨⟨rfl, rfl, fun _ h => by simp [SF, S, world, State.reset] at h, rfl, by decide, by decide, rfl⟩, ⟨by decide, by decide, rfl, by decide⟩,
    ⟨by decide, by decide, by decide, by decide⟩, rfl, rfl, rfl, by decide, by unfold Reached; decide,
    fun _ h => by simp [S, world, State.reset] at h, .inr (by decide),
    by unfold Reached; decide, by decide, by decide, ⟨by decide, by decide⟩, rfl⟩

/-- The flow from die 0 to die 1 with its oldest message a write of line 2^32, or a marker; and one with 256 flits ahead of
the one that is due. -/
def pubFlow (b : PubBody) : Flow := { cls := .publish, src := 0, dst := 1, ready := [.pub (List.replicate 8 0) 3 b] }
def fullFlow : Flow :=
  { cls := .request, src := 0, dst := 1, flight := [{ seq := 300, body := .read 8 }]
    buffer := (List.range 256).map fun k => { seq := k + 1, body := .read 8 }, refused := [{ seq := 301, body := .read 8, backoff := 16 }] }

/-- Die 0 has published once, which other dies depend on and die 1 has not applied. -/
def SM : State :=
  { S with dies := (List.range 8).map fun d => { id := d, pub := if d = 0 then 1 else 0, dep := List.replicate 8 1 } }

/-- A gang whose abort waits for the commit of which the write to line 2^32 is a part. -/
def dueGang : Gang := { gang0 with due := some { code := 0x80, pc := 0x10004 } }
def SDue : State := { S with gangs := [dueGang], flows := [pubFlow (.writes [{ line := 2 ^ 32, data := 1, mask := 1 }])] }
def appliedAll (o : Host.Outcome State Fault Refusal) : Bool := match o with | .next t => t.commitsDone dueGang | _ => false

theorem wit_FabricEvents :
    (SDue.gang? 2 = some dueGang ∧ dueGang.st = .live ∧ dueGang.due.isSome = true ∧
      appliedAll (exec (.publishedWriteApply 0 1) SDue) = true ∧ ∀ g ∈ S.gangs, g.due = none) ∧
    ((∀ k < 8, k ≠ 0 → k ≠ 1 → serialGe (vecAt (({ S with flows := [pubFlow (.writes [])] } : State).die 1).app k)
        (vecAt (List.replicate 8 0) k) = true) ∧
      (({ S with flows := [pubFlow (.writes [{ line := 2 ^ 32, data := 1, mask := 1 }])] } : State).flow .publish 0 1).ready =
        .pub (List.replicate 8 0) 3 (.writes [{ line := 2 ^ 32, data := 1, mask := 1 }]) :: [] ∧ homeOfLine (2 ^ 32) = some 1) ∧
    (({ S with flows := [pubFlow (.marker 1)] } : State).flow .publish 0 1).ready = .pub (List.replicate 8 0) 3 (.marker 1) :: [] ∧
    ((SM.flow .publish 0 1).bodies = [] ∧ vecAt (SM.die 1).app 0 ≠ (SM.die 0).pub ∧
      ∃ d ∈ SM.dies, serialGe (vecAt (SM.die 1).app 0) (vecAt d.dep 0) = false) ∧
    (({ S with flows := [fullFlow] } : State).flow? .request 0 1 = some fullFlow ∧
      fullFlow.flight.find? (fun y => y.seq == 300) = some { seq := 300, body := .read 8 } ∧ 300 ≠ fullFlow.expect ∧
      256 ≤ fullFlow.buffer.length ∧ fullFlow.refused.find? (fun y => y.seq == 301) = some { seq := 301, body := .read 8, backoff := 16 }) :=
  ⟨⟨rfl, rfl, rfl, by decide +kernel, by decide⟩, ⟨by decide, rfl, by decide⟩, rfl, by decide, ⟨by decide +kernel, rfl, by decide, by decide, rfl⟩⟩

/-- A request of the wave on byte 0x40 of die 0, and one on another line before it. -/
def req0 (id addr : Nat) : AtomReq :=
  { id := id, wave := 3, gang := 2, src := 0, addr := addr, op := .add, ty := .b32, core := 0, parts := [{ lane := 0, d := 1, c := 0, pid := some 7 }] }
/-- The group `LD.b32 v5, v2` of lane 31, with floor 5, on line 0x1000. -/
def sunk0 : Sunk :=
  { id := 11, wave := 3, gang := 2, lane := 31, pid := 7, core := 0, line := 0x1000, floor := 5, batch := 1, fmode := 0
    words := [.ld .b32 (.v 5) (.v 2) .wave .plain .dflt], regs := [(.v 2, 0x40000), (.v 3, 0)], ran := false }
def SK : State := { S with sunk := [sunk0], homeLines := [0x1000] }

theorem wit_GroomerAndGroups :
    (({ S with groom := [req0 9 0x80, req0 8 0x40] } : State).groom.find? (fun x => x.id == 8) = some (req0 8 0x40) ∧
      homeOf 0x40 = some 0 ∧ 0x40 % 4 = 0 ∧
      ∀ x ∈ ({ S with groom := [req0 9 0x80, req0 8 0x40] } : State).groom.takeWhile (fun x => x.id != 8),
        x.addr / 64 ≠ 0x40 / 64 ∨ homeOf x.addr ≠ some x.src) ∧ S.readable 0 0 = true ∧
    (SK.sunk.find? (fun y => y.id == 11 && !y.ran) = some sunk0 ∧
      SK.sunk.filter (fun y => y.batch == sunk0.batch && y.line == sunk0.line && !y.ran) = [sunk0] ∧ homeOfLine 0x1000 = some 0 ∧
      SK.gang? 2 = some gang0 ∧ SK.versioned gang0 = false ∧ RunsAt SK sunk0 0 4 (SK.homeView 0x1000) ∧ SK.wave? 3 = some wave0 ∧
      SK.vline? 2 0x1000 = none ∧ hasStore sunk0.words = false ∧ SK.canPublish (coreDie sunk0.core) = true ∧
      SK.writable (coreDie sunk0.core) 0 = true ∧ SK.groupPoison sunk0 = false ∧
      ({ SK with poison := [0x10000] } : State).groupPoison sunk0 = true ∧ gang0.st = .live) :=
  ⟨⟨rfl, by decide, by decide, by decide⟩, by decide, ⟨by decide, by decide, by decide, rfl, rfl,
    .inr (.inr (.inl ⟨rfl, ⟨rfl, by decide, by decide, by decide, rfl⟩, .inl (by decide)⟩)), rfl, rfl, by decide, by decide, by decide, by decide +kernel, by decide +kernel, rfl⟩⟩

/-! ## Memory of the small machine

Addresses below 32 GiB translate to themselves, and lie in device memory of die 0. -/

/-- No cache holds a copy, nothing that die 0 has seen is on its way to it, and context 0's table at 0x8000 maps the first 512 GiB onto themselves. -/
structure Plain (s : State) : Prop where
  sect  : s.sect = []
  ilv   : s.ilvBlocks = []
  ctx   : (s.ctx? 0).map (·.root) = some 0x8000
  cov   : s.coverage 0 (s.die 0).dep = true
  table : Memory.readNat s.mem 0x8000 8 = 0x1F

theorem frameOf_low {a : Nat} (h : a < 2 ^ 35) : frameOf a = .dram 0 false false := by
  have h1 : a < 2 ^ 41 := by omega
  have h2 : a % 2 ^ 38 = a := by omega
  have h3 : a / 2 ^ 38 = 0 := by omega
  simp only [frameOf, h1, h2, h3, h, ite_true]

theorem homeOf_low {a : Nat} (h : a < 2 ^ 35) : homeOf a = some 0 := by rw [homeOf, frameOf_low h]

theorem Plain.frame {s : State} (p : Plain s) {a : Nat} (h : a < 2 ^ 35) : s.frameOk a = true := by
  rw [State.frameOk, frameOf_low h, p.ilv]; rfl

theorem Plain.byte {s : State} (p : Plain s) (a : Nat) : lineByte (s.homeView (a / 64)) (a % 64) = Memory.read s.mem a := by
  rw [homeView_clean p.sect, lineByte_memLine _ _ (Nat.mod_lt _ (by decide)), Nat.div_add_mod]

theorem Plain.xlate {s : State} (p : Plain s) {a : Nat} (h : a < 2 ^ 35) (u : Use) : s.xlate none 0 u a = .ok a := by
  obtain ⟨c, hc, hr⟩ := Option.map_eq_some_iff.mp p.ctx
  have h1 : ¬2 ^ 51 ≤ a := by omega
  have h0 : a / 2 ^ 39 = 0 := by omega
  have hd : s.deviceFrame 0x8000 = true := by
    rw [State.deviceFrame, p.frame (by decide), frameOf_low (by decide)]; rfl
  have he : s.home64 (0x8000 + 8 * (a / 2 ^ 39 % 4096)) = 0x1F := by
    rw [h0, State.home64, homeView_clean p.sect, lineNat_memLine _ _ _ _ (by decide)]
    exact p.table
  have hl : s.leaf none 0 a = .ok { core := 0, ctx := 0, vbase := 0, size := 2 ^ 39, pbase := 0, r := true, w := true, x := true } := by
    simp only [State.leaf, State.walk, hc, hr]
    rw [State.walkFrom, hd, he, h0]
    rfl
  rw [State.xlate, if_neg h1, hl]
  simp only [Nat.sub_zero, Nat.zero_add, p.frame h, ite_true]
  cases u <;> rfl

theorem engAll_ok {α β : Type} {f : α → Except EngStop β} {g : α → β} :
    ∀ {l : List α}, (∀ x ∈ l, f x = .ok (g x)) → engAll f l = .ok (l.map g)
  | [], _ => rfl
  | x :: l, h => by
    rw [engAll, h x (by simp), engAll_ok fun y hy => h y (by simp [hy])]; rfl

theorem Plain.devPas {s : State} (p : Plain s) (u : Use) {a n : Nat} (h : a + n ≤ 2 ^ 35) :
    s.devPas 0 0 u a n = .ok ((List.range n).map (a + ·)) := by
  rw [State.devPas, engAll_ok (g := id)]
  · simp
  · intro x hx
    obtain ⟨i, hi, rfl⟩ := List.mem_map.mp hx
    have hx : a + i < 2 ^ 35 := by have := List.mem_range.mp hi; omega
    have hm : (a + i) % 2 ^ 64 = a + i := by omega
    rw [State.devPa, hm, p.xlate hx]
    simp [homeOf_low hx, State.readable, State.writable, p.cov]

/-- What the launch engine reads is what memory holds. -/
theorem Plain.devRead {s : State} (p : Plain s) {a n v : Nat} (h : a + n ≤ 2 ^ 35)
    (hv : bytesNat ((List.range n).map fun i => Memory.read s.mem (a + i)) = v) : s.devRead 0 0 a n = .ok v := by
  rw [State.devRead, p.devPas .read h]
  simp only [List.map_map, Function.comp_def, p.byte]
  rw [hv]

/-- A gang of context 0 on die 0, where no byte is poisoned. -/
structure Local (s : State) (g : Gang) : Prop extends Plain s where
  poison : s.poison = []
  vers   : s.versions = []
  ctx0   : (s.launchOf g).ctx = 0
  die    : g.die = 0

theorem Local.engPa {s : State} {g : Gang} (p : Local s g) (u : Use) {a : Nat} (h : a < 2 ^ 35) (ver : Bool) :
    s.engPa g u a ver = .ok a := by
  have hm : a % 2 ^ 64 = a := by omega
  unfold State.engPa
  rw [hm, p.ctx0, p.xlate h]
  cases u <;> simp [homeOf_low h, State.readable, State.writable, p.die, State.consumes, p.poison, p.cov]

theorem map_low {a n : Nat} (h : a + n ≤ 2 ^ 35) {f : Nat → Except EngStop Nat} (hf : ∀ x < 2 ^ 35, f x = .ok x) :
    engAll f ((List.range n).map (a + ·)) = .ok ((List.range n).map (a + ·)) := by
  rw [engAll_ok (g := id)]
  · simp
  · intro x hx
    obtain ⟨i, hi, rfl⟩ := List.mem_map.mp hx
    exact hf _ (by have := List.mem_range.mp hi; omega)

theorem Local.engPas {s : State} {g : Gang} (p : Local s g) (u : Use) {a n : Nat} (h : a + n ≤ 2 ^ 35) :
    s.engPas g u a n = .ok ((List.range n).map (a + ·)) := map_low h fun _ hx => p.engPa u hx _

theorem Local.direct {s : State} {g : Gang} (p : Local s g) {a n : Nat} (h : a + n ≤ 2 ^ 35) :
    s.engPasDirect g a n = .ok ((List.range n).map (a + ·)) := map_low h fun _ hx => p.engPa .write hx _

theorem Local.byteAt {s : State} {g : Gang} (p : Local s g) (a : Nat) : s.engByte g a = Memory.read s.mem a := by
  rw [State.engByte, State.overlay, State.vline?, p.vers]
  exact p.byte a

/-- What an engine of the gang reads is what memory holds. -/
theorem Local.reads {s : State} {g : Gang} (p : Local s g) {a n : Nat} (h : a + n ≤ 2 ^ 35) {bs : List Byte}
    (hb : (List.range n).map (fun i => Memory.read s.mem (a + i)) = bs) : Claims.Reads s g false a n bs := by
  refine ⟨_, p.engPas .read h, ?_⟩
  simp only [List.map_map, Function.comp_def, p.byteAt]
  exact hb.symm

theorem range_nodup (a n : Nat) : ((List.range n).map (a + ·)).Nodup :=
  List.Nodup.map (fun _ _ h => Nat.add_left_cancel h) List.nodup_range

theorem Local.places {s : State} {g : Gang} (p : Local s g) {a n : Nat} (h : a + n ≤ 2 ^ 35) :
    Places s g false a n ((List.range n).map (a + ·)) := ⟨p.engPas .write h, range_nodup a n⟩

/-! ## Witnesses: launches -/


/-- Does a read of an engine answer `v`? -/
def gives {α : Type} [DecidableEq α] (x : Except EngStop α) (v : α) : Bool := match x with | .ok y => y == v | .error _ => false
def answers {α : Type} (x : Except EngStop α) : Bool := match x with | .ok _ => true | .error _ => false

theorem of_gives {α : Type} [DecidableEq α] {x : Except EngStop α} {v : α} (h : gives x v = true) : x = .ok v := by
  cases x with
  | error e => simp [gives] at h
  | ok y => simp [gives] at h; rw [h]

theorem of_answers {α : Type} {x : Except EngStop α} (h : answers x = true) : ∃ v, x = .ok v := by
  cases x with
  | error e => simp [answers] at h
  | ok y => exact ⟨y, rfl⟩

/-- A queue whose write index at 0x6000 is 1, with a sealed packet in slot 0 of its ring at 0x7000. -/
def queue0 : Queue := { id := 20, fn := 0, num := 0, ctx := 0, index := 0x6000, ring := 0x7000, k := 4, prio := 0 }
def SQ2 (packet : Memory) : State := { S with queues := [queue0], mem := (0x6000, 1) :: packet ++ [(0x707C, 1), (0x8000, 0x1F)] }

/-- A kernel packet of grid 2 by 1 by 1 with its header at 0x5000 and its argument block at 0x4000; a barrier-and; a graph. -/
def kernelP : Memory := [(0x7000, 1), (0x7003, 1), (0x7011, 0x50), (0x7018, 2), (0x701C, 1), (0x701E, 1), (0x7029, 0x40)]
def kernelX : Nat := 1 + 2 ^ 24 + 0x5000 * 2 ^ 128 + 2 * 2 ^ 192 + 2 ^ 224 + 2 ^ 240 + 0x4000 * 2 ^ 320 + 2 ^ 496 * 2 ^ 496
def graphP : Memory := [(0x7000, 2), (0x7003, 1), (0x7011, 0x50), (0x7029, 0x40)]
def graphX : Nat := 2 + 2 ^ 24 + 0x5000 * 2 ^ 128 + 0x4000 * 2 ^ 320 + 2 ^ 496 * 2 ^ 496
def plainX (n : Nat) : Nat := n + 2 ^ 496 * 2 ^ 496

/-- Nothing has been published since reset. -/
theorem cov0 {s : State} (h : s.dies = State.reset.dies) : s.coverage 0 (s.die 0).dep = true := by
  unfold State.coverage State.die; rw [h]; decide

theorem plainQ {x : Memory} (h : Memory.readNat (SQ2 x).mem 0x8000 8 = 0x1F) : Plain (SQ2 x) := ⟨rfl, rfl, rfl, cov0 rfl, h⟩

theorem readNamed_of {s : State} {a n k v : Nat} (h : (a == 0 || a % k != 0) = false) (hr : s.devRead 0 0 a n = .ok v) :
    s.readNamed 0 0 a n k = .ok v := by
  rw [State.readNamed, h, State.devTry, hr]; rfl

theorem queueDie0 {x : Memory} (p : Plain (SQ2 x)) : (SQ2 x).queueDie queue0 = 0 := by
  have h : (SQ2 x).xlate none queue0.ctx .read queue0.index = .ok 0x6000 := p.xlate (by decide) .read
  rw [State.queueDie, h]; rfl

theorem indexWrites {x : Memory} (p : Plain (SQ2 x)) : IndexWrites (SQ2 x) queue0 ((List.range 8).map (0x6040 + ·)) :=
  ⟨fun y hy => by simp [SQ2, S, world, State.reset] at hy, range_nodup _ _, by
    rw [queueDie0 p]; exact p.devPas .write (by decide)⟩

theorem packetAt {x : Memory} {n : Nat} (p : Plain (SQ2 x)) (h1 : (SQ2 x).serves queue0 = true)
    (h2 : bytesNat ((List.range 8).map fun i => Memory.read (SQ2 x).mem (0x6000 + i)) = 1)
    (h3 : bytesNat ((List.range 4).map fun i => Memory.read (SQ2 x).mem (0x707C + i)) = 1)
    (h4 : bytesNat ((List.range 128).map fun i => Memory.read (SQ2 x).mem (0x7000 + i)) = n) : PacketAt (SQ2 x) queue0 n :=
  by
  unfold PacketAt
  rw [queueDie0 p]
  exact ⟨rfl, h1, ⟨1, p.devRead (by decide) h2, by decide⟩, p.devRead (by decide) h3, p.devRead (by decide) h4⟩

theorem kernelAt : PacketAt (SQ2 kernelP) queue0 kernelX :=
  packetAt (plainQ (by decide)) (by decide) (by decide) (by decide) (by decide +kernel)
theorem barrierAt : PacketAt (SQ2 [(0x7000, 3)]) queue0 (plainX 3) :=
  packetAt (plainQ (by decide)) (by decide) (by decide) (by decide) (by decide +kernel)
theorem graphAt : PacketAt (SQ2 graphP) queue0 graphX :=
  packetAt (plainQ (by decide)) (by decide) (by decide) (by decide) (by decide +kernel)
theorem emptyAt : PacketAt (SQ2 []) queue0 (plainX 0) :=
  packetAt (plainQ (by decide)) (by decide) (by decide) (by decide) (by decide +kernel)
theorem badGraphAt : PacketAt (SQ2 [(0x7000, 2)]) queue0 (plainX 2) :=
  packetAt (plainQ (by decide)) (by decide) (by decide) (by decide) (by decide +kernel)

theorem wit_PacketResults :
    (PacketAt (SQ2 kernelP) queue0 kernelX ∧ IndexWrites (SQ2 kernelP) queue0 ((List.range 8).map (0x6040 + ·)) ∧
      nfld kernelX 0 1 = 1 ∧ nfld kernelX 1 1 % 2 = 0 ∧
      packetBad kernelX 0 ((SQ2 kernelP).dieSet queue0 kernelX) ((SQ2 kernelP).sealLaunch queue0).isSome = false ∧ (SQ2 kernelP).readNamed 0 0 (nfld kernelX 0x10 8) 256 16 = .ok 0) ∧
    (PacketAt (SQ2 [(0x7000, 3)]) queue0 (plainX 3) ∧ IndexWrites (SQ2 [(0x7000, 3)]) queue0 ((List.range 8).map (0x6040 + ·)) ∧
      nfld (plainX 3) 0 1 = 3) ∧
    (PacketAt (SQ2 []) queue0 (plainX 0) ∧ IndexWrites (SQ2 []) queue0 ((List.range 8).map (0x6040 + ·)) ∧ nfld (plainX 0) 0 1 = 0 ∧
      packetBad (plainX 0) 0 ((SQ2 []).dieSet queue0 (plainX 0)) ((SQ2 []).sealLaunch queue0).isSome = true) ∧
    (PacketAt (SQ2 [(0x7000, 2)]) queue0 (plainX 2) ∧ IndexWrites (SQ2 [(0x7000, 2)]) queue0 ((List.range 8).map (0x6040 + ·)) ∧
      nfld (plainX 2) 0 1 = 2 ∧
      packetBad (plainX 2) 0 ((SQ2 [(0x7000, 2)]).dieSet queue0 (plainX 2)) ((SQ2 [(0x7000, 2)]).sealLaunch queue0).isSome = true) ∧
    (PacketAt (SQ2 graphP) queue0 graphX ∧ IndexWrites (SQ2 graphP) queue0 ((List.range 8).map (0x6040 + ·)) ∧ nfld graphX 0 1 = 2 ∧
      packetBad graphX 0 ((SQ2 graphP).dieSet queue0 graphX) ((SQ2 graphP).sealLaunch queue0).isSome = false ∧
      ∃ b, (SQ2 graphP).readGraph { (SQ2 graphP).packetLaunch queue0 graphX 10 with kind := .graph } = .ok b) :=
  ⟨⟨kernelAt, indexWrites (plainQ (by decide)), by decide +kernel, by decide +kernel, by decide +kernel, by
      rw [show nfld kernelX 0x10 8 = 0x5000 by decide +kernel]
      exact readNamed_of (by decide) ((plainQ (by decide)).devRead (by decide) (by decide +kernel))⟩,
    ⟨barrierAt, indexWrites (plainQ (by decide)), by decide +kernel⟩,
    ⟨emptyAt, indexWrites (plainQ (by decide)), by decide +kernel, by decide +kernel⟩,
    ⟨badGraphAt, indexWrites (plainQ (by decide)), by decide +kernel, by decide +kernel⟩,
    graphAt, indexWrites (plainQ (by decide)), by decide +kernel, by decide +kernel, of_answers (by decide +kernel)⟩

/-! ## Witnesses: launch events -/

/-- A machine with the launches `ls` of context 0, no gang, and memory `m` below 0x8000. -/
def LS (ls : List Launch) (m : Memory := []) : State :=
  { State.reset with mem := m ++ [(0x8000, 0x1F)], ctxs := [{ id := 0, fn := 0, root := 0x8000 }], launches := ls, nextId := 10 }

theorem plainL {ls : List Launch} {m : Memory} (h : Memory.readNat (m ++ [(0x8000, 0x1F)]) 0x8000 8 = 0x1F) : Plain (LS ls m) :=
  ⟨rfl, rfl, rfl, cov0 rfl, h⟩

/-- A kernel waiting to start; one with a dependency; one that has run. -/
def launchW : Launch := { launch0 with started := false, args := 0x4000 }
def launchD : Launch := { launchW with deps := [0x4000] }
def launchR : Launch := { launchW with started := true }
/-- A node of a grid, a bin that holds a record, and a graph of either. -/
def nodeK : NodeSt :=
  { bin := false, shape := false, predictor := 0, c := 1, timer := 0, cost := 0, codeBase := 0, header := 0x5000, x := 1, y := 1, z := 1
    binOff := 0, binCap := 4, succ := [], cell := 0, args := List.replicate 16 0 }
def nodeL : NodeSt := { nodeK with bin := true, count := 1, timer := 5 }
def launchG (n : NodeSt) : Launch := { launchR with kind := .graph, graph := some { nodes := [n], patches := [], bufs := [] } }

theorem read4000 (ls : List Launch) {n : Nat} (h : n ≤ 64)
    (hv : bytesNat ((List.range n).map fun i => Memory.read [(0x4000, 7), (0x8000, 0x1F)] (0x4000 + i)) = 7) :
    (LS ls [(0x4000, 7)]).devRead 0 0 0x4000 n = .ok 7 := (plainL (by decide)).devRead (by omega) hv

theorem header5000 (l : Launch) : (LS [l]).readNamed 0 0 0x5000 256 16 = .ok 0 :=
  readNamed_of (by decide) ((plainL (by decide)).devRead (by decide) (by
    change bytesNat ((List.range 256).map fun i => Memory.read [(0x8000, 0x1F)] (0x5000 + i)) = 0
    decide +kernel))

theorem complete {s : State} {l : Launch} (h1 : l.started = true) (h2 : l.todo = []) (h3 : s.gangs = []) (h4 : l.shape = false)
    (h5 : l.graph = none) : Complete s l :=
  ⟨h1, h2, by simp [h3], by simp [h4], by simp [h5]⟩

theorem wit_LaunchEvents :
    ((LS [launchW] [(0x4000, 7)]).launch? 1 = some launchW ∧ (LS [launchW] [(0x4000, 7)]).launchOn launchW = true ∧
      MayStart (LS [launchW] [(0x4000, 7)]) launchW ∧ (LS [launchW] [(0x4000, 7)]).devRead 0 0 launchW.args 64 = .ok 7) ∧
    ((LS [launchD] [(0x4000, 7)]).launch? 1 = some launchD ∧ (LS [launchD] [(0x4000, 7)]).launchOn launchD = true ∧
      ∀ a ∈ launchD.deps, ∃ v, (LS [launchD] [(0x4000, 7)]).devRead 0 0 a 8 = .ok v ∧ v ≠ 0 ∧ v < 2 ^ 63) ∧
    ((LS [launchG nodeK]).launch? 1 = some (launchG nodeK) ∧ (LS [launchG nodeK]).launchOn (launchG nodeK) = true ∧
      (∀ m ∈ [nodeK], 0 ∈ m.succ → m.completed = true) ∧ (LS [launchG nodeK]).readNamed 0 0 nodeK.header 256 16 = .ok 0 ∧
      ∀ m ∈ (LS [launchG nodeK]).launches, m.id ≠ (LS [launchG nodeK]).nextId) ∧
    ((LS [launchG nodeL]).launchOn (launchG nodeL) = true ∧ nodeL.args.length = 16 ∧ nodeL.given < nodeL.count ∧
      nodeL.c ≤ nodeL.count - nodeL.given ∧
      (Graph.patchesKnown { nodes := [nodeL], patches := [], bufs := [] } 0) = true ∧ { nodeL with timing := true }.timing = true ∧
      nodeL.timing = false ∧ (LS [launchG nodeL]).readNamed 0 0 nodeL.header 256 16 = .ok 0 ∧
      ∀ m ∈ (LS [launchG nodeL]).launches, m.id ≠ (LS [launchG nodeL]).nextId) ∧
    Complete (LS [launchR]) launchR ∧
    (Complete (LS [{ launchR with record := 0x4000 }]) { launchR with record := 0x4000 } ∧ HostUncached (LS [{ launchR with record := 0x4000 }]) ∧
      (LS [{ launchR with record := 0x4000 }]).devPas 0 0 .write 0x4000 64 = .ok ((List.range 64).map (0x4000 + ·))) ∧
    (Complete (LS [{ launchR with sig := 0x4000 }]) { launchR with sig := 0x4000 } ∧
      (LS [{ launchR with sig := 0x4000 }]).devPas 0 0 .write 0x4000 8 = .ok ((List.range 8).map (0x4000 + ·))) ∧
    Complete (LS [launchG nodeK, { launchR with id := 5, kind := .node 1 0 }]) { launchR with id := 5, kind := .node 1 0 } ∧
      (LS [launchG nodeK, { launchR with id := 5, kind := .node 1 0 }]).launch? 1 = some (launchG nodeK) :=
  ⟨⟨rfl, by decide, ⟨fun a ha => (List.not_mem_nil ha).elim, by decide, rfl⟩, read4000 _ (by decide) (by decide)⟩,
    ⟨rfl, by decide, fun a ha => ⟨7, by
      rw [List.mem_singleton.mp (show a ∈ [0x4000] from ha)]
      exact ⟨read4000 _ (by decide) (by decide), by decide, by decide⟩⟩⟩,
    ⟨rfl, by decide, by decide, header5000 _, by decide⟩,
    ⟨by decide, rfl, by decide, by decide, by decide, rfl, rfl, header5000 _, by decide⟩,
    complete rfl rfl rfl rfl rfl,
    ⟨complete rfl rfl rfl rfl rfl, fun x hx => by simp [LS, State.reset] at hx, (plainL (by decide)).devPas .write (by decide)⟩,
    ⟨complete rfl rfl rfl rfl rfl, (plainL (by decide)).devPas .write (by decide)⟩,
    complete rfl rfl rfl rfl rfl, rfl⟩

/-! ## Witnesses: the life of a gang -/

/-- The small machine between words, with memory `m` below 0x8000. -/
def GW (w : Wave) (g : Gang) (l : Launch) (m : Memory := []) : State := { world w g l with mem := m ++ [(0x8000, 0x1F)], cur := none }

theorem localG {w : Wave} {g : Gang} {l : Launch} {m : Memory} (h : Memory.readNat (m ++ [(0x8000, 0x1F)]) 0x8000 8 = 0x1F)
    (hc : ((GW w g l m).launchOf g).ctx = 0) (hd : g.die = 0) : Local (GW w g l m) g := ⟨⟨rfl, rfl, rfl, cov0 rfl, h⟩, rfl, rfl, hc, hd⟩

def waveE : Wave := { wave0 with threads := List.replicate 32 { pc := 0x10004, st := .ended } }
def versioned0 : Launch := { launch0 with hdr := { launch0.hdr with ver := true } }
/-- A launch with a gang to place; an aborted gang that may be run again, and one whose cause is final. -/
def toPlace : Launch := { launchR with todo := [(0, 0)], placed := true }
def faultG (code : Nat) : GangFault := { code, pc := 0x10004 }
def abortedG (code : Nat) : Gang := { gang0 with st := .aborted (faultG code) }
def rerunS : State := { GW waveE (abortedG 0x85) launch0 with waves := [] }
/-- A launch of four gangs that waits for its shape. -/
def shaping : Launch := { launchR with shape := true, x := 4, cell := 0x4000 }

theorem cellHolds {m : Memory} {v : Nat} (h : Memory.readNat (m ++ [(0x8000, 0x1F)]) 0x8000 8 = 0x1F)
    (hv : bytesNat ((List.range 8).map fun i => Memory.read (m ++ [(0x8000, 0x1F)]) (0x4000 + i)) = v) :
    CellHolds (LS [shaping] m) 1 shaping v :=
  ⟨rfl, rfl, rfl, rfl, (plainL h).devRead (by decide) hv⟩

theorem wit_GangLifecycle :
    ((LS [toPlace]).gangs.Pairwise (fun x y => x.id ≠ y.id) ∧ (LS [toPlace]).launch? 1 = some toPlace ∧
      (∀ x ∈ toPlace.todo, (LS [toPlace]).coveringDies toPlace x.1 ≠ []) ∧
      (∃ ts, (LS [toPlace]).placeNow toPlace 3 0 = some (0, 0, ts)) ∧ (LS [toPlace]).firstAt toPlace 3 = true ∧ toPlace.placed = true ∧
      ∀ g ∈ (LS [toPlace]).gangs, g.id ≠ (LS [toPlace]).nextId) ∧
    ((GW waveE gang0 launch0).gangs.Pairwise (fun x y => x.id ≠ y.id) ∧ (GW waveE gang0 launch0).gang? 2 = some gang0 ∧
      (GW waveE gang0 launch0).gangOn gang0 = true ∧ (GW waveE gang0 launch0).threadsDone gang0 = true ∧ gang0.commandsDone = true ∧
      (GW waveE gang0 launch0).versioned gang0 = false) ∧
    ((GW waveE gang0 versioned0).gangOn gang0 = true ∧ (GW waveE gang0 versioned0).threadsDone gang0 = true ∧
      (GW waveE gang0 versioned0).versioned gang0 = true ∧ gang0.retired = false ∧ gang0.gate = false ∧
      (GW waveE gang0 versioned0).publishedBy 2 = [] ∧ (∀ w ∈ (GW waveE gang0 versioned0).wavesOf 2, (GW waveE gang0 versioned0).publishedBy w.id = []) ∧
      ∀ v ∈ (GW waveE gang0 versioned0).versions, v.gang = 2 → homeOfLine v.line = some 0) ∧
    (∀ g ∈ [{ gang0 with st := .squashed }, abortedG 2, abortedG 0x85], (GW waveE g launch0).gang? 2 = some g ∧
      (GW waveE g launch0).wavesOf 2 ≠ [] ∧ g.tileQ = [] ∧ ∀ r ∈ (GW waveE g launch0).groom, r.gang ≠ 2) ∧
    (¬Requeues (GW waveE (abortedG 2) launch0) (abortedG 2) (faultG 2) ∧
      Requeues (GW waveE (abortedG 0x85) launch0) (abortedG 0x85) (faultG 0x85)) ∧
    (Requeues rerunS (abortedG 0x85) (faultG 0x85) ∧ rerunS.wavesOf 2 = [] ∧ rerunS.launch? 1 = some launch0 ∧
      ({ launch0 with shaped := true, extent := some 0 } : Launch).shaped = true ∧ launch0.shaped = false) ∧
    CellHolds (LS [shaping] [(0x4000, 2)]) 1 shaping 2 ∧ ((LS [shaping]).ctxOf shaping).predictor = none ∧
    CellHolds (LS [shaping] [(0x4000, 7)]) 1 shaping 7 ∧ shaping.x < 7 ∧
    CellHolds (LS [shaping] ((List.range 8).map fun i => (0x4000 + i, 0xFF))) 1 shaping (2 ^ 64 - 1) := by
  refine ⟨⟨.nil, rfl, by decide, ?_, by decide, rfl, fun g h => (List.not_mem_nil h).elim⟩,
    ⟨List.pairwise_singleton _ _, rfl, by decide, by decide, by decide, by decide⟩,
    ⟨by decide, by decide, by decide, rfl, rfl, by decide, by decide, fun v h => (List.not_mem_nil h).elim⟩, by decide,
    ⟨by unfold Requeues; decide, by unfold Requeues; decide⟩, ⟨by unfold Requeues; decide, rfl, rfl, rfl, rfl⟩,
    cellHolds (by decide) (by decide), rfl, cellHolds (by decide) (by decide), by decide, cellHolds (by decide) (by decide)⟩
  have h : ((LS [toPlace]).placeNow toPlace 3 0).map (fun x => (x.1, x.2.1)) = some (0, 0) := by decide +kernel
  obtain ⟨⟨i, a, ts⟩, hx, he⟩ := Option.map_eq_some_iff.mp h
  cases he
  exact ⟨ts, hx⟩

/-! ## Witnesses: pre-emption, contexts and states -/

/-- A wave whose threads wait for a page; its gang, asked to stop; evicted. -/
def waveH : Wave := { wave0 with threads := List.replicate 32 { pc := 0x10004, st := .held (.xlate 0 none) } }
def gangP : Gang := { gang0 with preempt := true }
def gangE : Gang := { gang0 with place := none }
def masked (m : Nat) (l : Launch) : Launch := { l with dieMask := m }
def dirtyS : State :=
  { GW waveH gangE (masked 0xFE versioned0) with versions := [{ gang := 2, line := 1, data := 0, mask := 1, spill := false }] }
/-- The context switched out. -/
def outC : Ctx := { id := 0, fn := 0, root := 0x8000, out := true }
def outS : State := { GW wave0 gangE launch0 with ctxs := [outC] }
/-- One of whose gang nothing fits. -/
def tightS : State := { GW wave0 gangE { launch0 with hdr := { launch0.hdr with g := 5 } } with ctxs := [outC], vis := [{ fn := 0, evq := some (0x6000, 0x7000, 4, 0) }] }
def waveM : Wave := { wave0 with monitor := some { line := 1, event := false } }

theorem noFeOf {s : State} {gang : Nat} (h : ∀ v ∈ s.waves, ∀ t ∈ v.threads, t.st = .run ∨ t.st = .ended) : NoFeWait s gang := by
  intro v hv hg l z hz
  exfalso
  obtain ⟨y, hy⟩ := waits_held hz
  rcases Nat.lt_or_ge l v.threads.length with hl | hl
  · have e := h v hv (v.thread l) (by rw [Wave.thread, List.getD_eq_getElem _ _ hl]; exact List.getElem_mem hl)
    rw [hy] at e; simp at e
  · rw [Wave.thread, List.getD_eq_default _ _ hl] at hy; cases hy

theorem restingH (w : Wave) (h : w ∈ (GW waveH gangP launch0).waves) : AtRest (GW waveH gangP launch0) gangP w := by
  obtain rfl := List.mem_singleton.mp (show w ∈ [waveH] from h)
  refine ⟨fun t ht _ => .inr ⟨.xlate 0 none, ?_, by simp, by simp, by simp⟩, fun f (hf : f ∈ ([] : List Fill)) => (List.not_mem_nil hf).elim,
    fun p (hp : p ∈ ([] : List Pending)) => (List.not_mem_nil hp).elim⟩
  rw [List.eq_of_mem_replicate (show t ∈ List.replicate 32 _ from ht)]

/-- A state whose image is at 0x4000 in the area, and a launch that names it; a cluster all of whose tiles are in use. -/
def state9 : StateRec := { ctx := 0, handle := 9, dv := 32, dk := 32, tokens := 0, place := .area 0, bound := none }
def namer : Launch := { toPlace with handles := [(9, false, 0)] }
def crc9 : Nat := (crc32c (List.replicate 4096 0)).toNat
def image9 (k : Nat) : Memory := [(0x4000, 0x54), (0x4001, 0x53), (0x4002, 0x57), (0x4003, 0x4B), (0x4004, 9), (0x4008, 32), (0x400A, 32)] ++
  [(0x4018, BitVec.ofNat 8 k), (0x4019, BitVec.ofNat 8 (k / 256)), (0x401A, BitVec.ofNat 8 (k / 65536)),
    (0x401B, BitVec.ofNat 8 (k / 16777216))]
def moveS (m : Memory) : State := { LS [namer] m with ctxs := [{ id := 0, fn := 0, root := 0x8000, area := 0x4000, areaSize := 8192 }], states := [state9] }
def fullS : State := { moveS (image9 crc9) with tiles := (List.range 256).map fun p => { cluster := 0, phys := p, ctx := 0, st := .gangOwned 7 p } }

theorem plainM {m : Memory} (h : Memory.readNat (m ++ [(0x8000, 0x1F)]) 0x8000 8 = 0x1F) : Plain (moveS m) := ⟨rfl, rfl, rfl, cov0 rfl, h⟩

/-- The image's bytes. -/
def bytes9 (m : Memory) : List Byte := (List.range 4160).map fun j => Memory.read (m ++ [(0x8000, 0x1F)]) (0x4000 + j)

theorem image_bytes {m : Memory} (h : Memory.readNat (m ++ [(0x8000, 0x1F)]) 0x8000 8 = 0x1F) :
    ((List.range 4160).map fun j => byteNow (moveS m) (0x4000 + j)) = bytes9 m :=
  List.map_congr_left fun j _ => (plainM h).byte (0x4000 + j)

theorem read_other {m : Memory} {a : Nat} (h : ∀ p ∈ m, p.1 ≠ a) : Memory.read m a = 0 := by
  induction m with
  | nil => rfl
  | cons p m ih =>
    rw [Memory.read, Map.get, if_neg (h p (by simp))]
    exact ih fun q hq => h q (by simp [hq])

/-- Its head, and zeros where memory holds nothing beyond it. -/
theorem bytes9_eq {m : Memory} (h : ∀ p ∈ m ++ [(0x8000, 0x1F)], p.1 < 0x4040 ∨ 0x5040 ≤ p.1) :
    bytes9 m = ((List.range 64).map fun j => Memory.read (m ++ [(0x8000, 0x1F)]) (0x4000 + j)) ++ List.replicate 4096 0 := by
  rw [bytes9, show (4160 : Nat) = 64 + 4096 from rfl, List.range_add, List.map_append]
  congr 1
  rw [List.eq_replicate_iff]
  constructor
  · simp
  · intro b hb
    simp only [List.mem_map, List.mem_range] at hb
    obtain ⟨_, ⟨j, hj, rfl⟩, rfl⟩ := hb
    refine read_other fun p hp he => ?_
    have := h p hp
    omega

theorem image_keys (k : Nat) : ∀ p ∈ image9 k ++ [(0x8000, 0x1F)], p.1 < 0x4040 ∨ 0x5040 ≤ p.1 := by
  intro p hp
  have key : ∀ a ∈ ([0x4000, 0x4001, 0x4002, 0x4003, 0x4004, 0x4008, 0x400A, 0x4018, 0x4019, 0x401A, 0x401B, 0x8000] : List Nat),
    a < 0x4040 ∨ 0x5040 ≤ a := by decide
  exact key _ (List.mem_map_of_mem (f := Prod.fst) hp)
theorem image_table (k : Nat) : Memory.readNat (image9 k ++ [(0x8000, 0x1F)]) 0x8000 8 = 0x1F := by
  simp [image9, Memory.readNat, Memory.read, Map.get]

theorem image_body (k : Nat) : (bytes9 (image9 k)).drop 64 = List.replicate 4096 0 := by
  rw [bytes9_eq (image_keys k), List.drop_left' (by simp)]
theorem bytesNat_append (a b : List Byte) : bytesNat (a ++ b) = bytesNat a + 256 ^ a.length * bytesNat b := by
  induction a with
  | nil => simp [bytesNat]
  | cons x a ih =>
    have e : bytesNat (x :: (a ++ b)) = x.toNat + 256 * bytesNat (a ++ b) := rfl
    have e' : bytesNat (x :: a) = x.toNat + 256 * bytesNat a := rfl
    rw [List.cons_append, e, e', ih, List.length_cons, Nat.pow_succ, Nat.mul_add, Nat.mul_comm (256 ^ _) 256, Nat.mul_assoc, Nat.add_assoc]
theorem image_head (k : Nat) : (bytes9 (image9 k)).take 64 = [0x54, 0x53, 0x57, 0x4B, 9, 0, 0, 0, 32, 0, 32, 0] ++
    List.replicate 12 0 ++ [BitVec.ofNat 8 k, BitVec.ofNat 8 (k / 256), BitVec.ofNat 8 (k / 65536), BitVec.ofNat 8 (k / 16777216)] ++
    List.replicate 36 0 := by
  rw [bytes9_eq (image_keys k), List.take_left' (by simp)]
  rfl
theorem image_fields {k : Nat} (hk : k < 2 ^ 32) {bs : List Byte} (hb : bs.take 64 = (bytes9 (image9 k)).take 64) :
    imageHead 9 bs = some (32, 32, 0, k) := by
  have hx : bytesNat (bs.take 64) = 0x200020000000094B575354 + 2 ^ 192 * k := by
    have h4 : bytesNat [BitVec.ofNat 8 k, BitVec.ofNat 8 (k / 256), BitVec.ofNat 8 (k / 65536), BitVec.ofNat 8 (k / 16777216)] = k := by
      simp only [bytesNat, List.foldr_cons, List.foldr_nil, BitVec.toNat_ofNat]
      omega
    rw [hb, image_head, bytesNat_append, bytesNat_append, bytesNat_append, h4]
    rfl
  rw [imageHead, hx]
  have h0 : nfld (0x200020000000094B575354 + 2 ^ 192 * k) 0 4 = 0x4B575354 := by simp only [nfld]; omega
  have h4 : nfld (0x200020000000094B575354 + 2 ^ 192 * k) 4 4 = 9 := by simp only [nfld]; omega
  have h8 : nfld (0x200020000000094B575354 + 2 ^ 192 * k) 8 2 = 32 := by simp only [nfld]; omega
  have h10 : nfld (0x200020000000094B575354 + 2 ^ 192 * k) 10 2 = 32 := by simp only [nfld]; omega
  have h12 : nfld (0x200020000000094B575354 + 2 ^ 192 * k) 12 4 = 0 := by simp only [nfld]; omega
  have h16 : nfld (0x200020000000094B575354 + 2 ^ 192 * k) 16 8 = 0 := by simp only [nfld]; omega
  have h24 : nfld (0x200020000000094B575354 + 2 ^ 192 * k) 24 4 = k := by simp only [nfld]; omega
  have h28 : nfld (0x200020000000094B575354 + 2 ^ 192 * k) 28 36 = 0 := by simp only [nfld]; omega
  rw [h0, h4, h8, h10, h12, h16, h24, h28]
  rfl
theorem crc_lt : crc9 < 2 ^ 32 := BitVec.isLt _
theorem image_good : imageHead 9 (bytes9 (image9 crc9)) = some (32, 32, 0, (crc32c ((bytes9 (image9 crc9)).drop 64)).toNat) := by
  rw [image_fields crc_lt rfl, image_body, crc9]
theorem image_bad : imageHead 9 (bytes9 []) = none := by
  rw [bytes9_eq (by decide), imageHead, List.take_left' (by simp)]; decide +kernel

theorem full_free : fullS.freeTiles 0 = [] := by
  rw [State.freeTiles, List.filter_eq_nil_iff]
  intro p hp
  simpa [fullS] using List.mem_range.mp hp

theorem wit_ContextEvents :
    ((GW wave0 gang0 launch0).gang? 2 = some gang0 ∧ gang0.st = .live ∧ gang0.place.isSome = true ∧
      ∃ w ∈ (GW wave0 gang0 launch0).waves, w.gang = 2 ∧ ∃ h ∈ w.threads, h.st = .run ∧ h.kept = false) ∧
    ((GW waveH gangP launch0).gang? 2 = some gangP ∧ (GW waveH gangP launch0).gangOn gangP = true ∧ gangP.preempt = true ∧
      (GW waveH gangP launch0).waves.Pairwise (fun x y => x.id ≠ y.id) ∧ (∀ d ∈ gangP.tileQ, d.started = false) ∧
      (∀ q ∈ gangP.queues, ∀ k, q.walk = some k → k.commit = false) ∧
      (∀ w ∈ (GW waveH gangP launch0).waves, w.gang = 2 →
        w.core ∉ (GW waveH gangP launch0).unswept ∧ AtRest (GW waveH gangP launch0) gangP w) ∧ AllPerformed (GW waveH gangP launch0)) ∧
    (dirtyS.gang? 2 = some gangE ∧ gangE.st = .live ∧ gangE.place = none ∧ dirtyS.launchOn (dirtyS.launchOf gangE) = true ∧
      (dirtyS.versioned gangE = true ∧ ∃ v ∈ dirtyS.versions, v.gang = 2) ∧
      gangE.die ∉ dirtyS.coveringDies (dirtyS.launchOf gangE) gangE.index ∧ dirtyS.commitsDone gangE = true) ∧
    ((GW waveH gangE (masked 0 launch0)).launchOn (masked 0 launch0) = true ∧
      (GW waveH gangE (masked 0 launch0)).versioned gangE = false ∧
      (GW waveH gangE (masked 0 launch0)).coveringDies (masked 0 launch0) 0 = [] ∧
      (GW waveH gangE (masked 0 launch0)).commitsDone gangE = true) ∧
    ((GW waveH gangE launch0).gang? 2 = some gangE ∧ (GW waveH gangE launch0).versioned gangE = false ∧
      (GW waveH gangE launch0).coveringDies launch0 0 ≠ [] ∧ (GW waveH gangE launch0).resumeRoom gangE 0 4 = none ∧
      ((GW waveH gangE launch0).resumeRoom gangE 0 0).isSome = true ∧ 0 ∈ (GW waveH gangE launch0).launchClusters launch0 0 ∧
      launch0.bandOk 0 0 = true ∧ clusterDie 0 = gangE.die ∧
      (GW waveH gangE launch0).waves.Pairwise (fun x y => x.id ≠ y.id) ∧ AllPerformed (GW waveH gangE launch0)) ∧
    ((∃ g ∈ (GW wave0 gang0 launch0).gangs, g.place.isSome = true ∧ ∃ c ∈ (GW wave0 gang0 launch0).ctxs, OnPart c 0 ∧
      c.id = ((GW wave0 gang0 launch0).launchOf g).ctx) ∧ ∀ g ∈ (GW wave0 gangE launch0).gangs, g.place = none) ∧
    (outS.gang? 2 = some gangE ∧ gangE.st = .live ∧ outS.ctx? (outS.launchOf gangE).ctx = some outC ∧ outC.out = true) ∧
    ((∃ c, (GW waveM gang0 launch0).ctx? ((GW waveM gang0 launch0).launchOf gang0).ctx = some c ∧ c.out = false) ∧
      NoFeWait (GW waveM gang0 launch0) 2 ∧ (GW waveM gang0 launch0).wave? 3 = some waveM ∧
      waveM.monitor = some { line := 1, event := false }) ∧
    (outS.ctx? 0 = some outC ∧ outC.lost = false ∧ (∀ x ∈ outS.ctxs, OnPart x 0 → x.fn = outC.fn) ∧ outC.part = 0 ∧ (∃ p, outS.part? 0 = some p ∧ outS.restorable outC p = true ∧
        State.putTiles p 0 outC.saved ((outC.saved.map (·.cluster)).eraseDups) outS = some outS) ∧
      (∃ p, tightS.part? 0 = some p ∧ tightS.restorable outC p = false) ∧ ∃ v, tightS.vi? 0 = some v ∧ v.evq.isSome = true) ∧
    (∀ m ∈ [image9 crc9, []], (moveS m).moveWanted 0 9 0 = some namer ∧ (moveS m).stateRec? 0 9 = some state9 ∧ state9.bound = none ∧
      state9.ending = false ∧ state9.place = .area 0 ∧
      (∀ j < 64 + 4 * 32 * 32, (moveS m).xlate none 0 .read (0x4000 + 0 + j) = .ok (0x4000 + j)) ∧ stateSize 32 32 ≤ ((moveS m).freeTiles 0).length) ∧
    imageHead 9 ((List.range 4160).map fun j => byteNow (moveS (image9 crc9)) (0x4000 + j)) =
      some (32, 32, 0, (crc32c (((List.range 4160).map fun j => byteNow (moveS (image9 crc9)) (0x4000 + j)).drop 64)).toNat) ∧
    imageHead 9 ((List.range 4160).map fun j => byteNow (moveS []) (0x4000 + j)) = none ∧ (moveS (image9 crc9)).poison = [] ∧ AllPerformed (moveS (image9 crc9)) ∧
    (fullS.moveWanted 0 9 0 = some namer ∧ fullS.stateRec? 0 9 = some state9 ∧ (fullS.freeTiles 0).length < stateSize 32 32) := by
  refine ⟨⟨rfl, rfl, rfl, by decide⟩, ⟨rfl, by decide, rfl, List.pairwise_singleton _ _, by decide, by decide, fun w h _ => ⟨List.not_mem_nil, restingH w h⟩, by
      unfold AllPerformed; decide⟩, ⟨rfl, rfl, rfl, by decide, by decide, by decide, by decide⟩,
    ⟨by decide, by decide, by decide, by decide⟩,
    ⟨rfl, by decide, by decide, by decide, by decide +kernel, by decide +kernel, by decide, by decide,
      List.pairwise_singleton _ _, by unfold AllPerformed; decide⟩,
    ⟨⟨gang0, by decide, rfl, _, List.mem_singleton.mpr rfl, ⟨rfl, rfl, rfl⟩, rfl⟩, by decide⟩, ⟨rfl, rfl, rfl, rfl⟩,
    ⟨⟨_, rfl, rfl⟩, noFeOf (by decide), rfl, rfl⟩,
    ⟨rfl, rfl, fun x hx _ => by rw [List.mem_singleton.mp (show x ∈ [outC] from hx)], rfl, ⟨_, rfl, by decide +kernel, rfl⟩, ⟨_, rfl, by decide +kernel⟩, _, rfl, rfl⟩, ?_, ?_, ?_, rfl, fun _ h => (List.not_mem_nil h).elim, ?_⟩
  · intro m hm
    have ht : Memory.readNat (m ++ [(0x8000, 0x1F)]) 0x8000 8 = 0x1F := by revert m; decide
    refine ⟨?_, rfl, rfl, rfl, rfl, fun j hj => (plainM ht).xlate (a := 0x4000 + j) (by omega) .read, ?_⟩
    · revert m; decide +kernel
    · revert m; decide +kernel
  · rw [image_bytes (by decide)]; exact image_good
  · rw [image_bytes (by decide)]; exact image_bad
  · exact ⟨by decide +kernel, rfl, by rw [full_free]; decide⟩

/-- A gang's core that has just woken; the core that a launch's track wakes (R387). -/
theorem wit_ContextEvents_wake : (∃ w ∈ ({ GW waveH gangP launch0 with unswept := [0] } : State).waves, w.gang = 2 ∧ w.core ∈ [0]) ∧
    CoreWakes (LS []) [13] 1 :=
  ⟨⟨waveH, List.mem_singleton.mpr rfl, rfl, by decide⟩, ⟨13, by decide, rfl⟩, by decide, fun _ h => (List.not_mem_nil h).elim⟩

theorem wit_ContextEvents_log : ({ outC with log := [(2, .flip 0 0)] } : Ctx).log ++ outC.held = [(2, .flip 0 0)] ∧ outS.gang? 2 = some gangE ∧
    gangE.stageOk 0 0 = true := ⟨rfl, rfl, by decide⟩

/-! ## Witnesses: chain entries -/

/-- A collective of two members at 0x3000; two tensors of one element at 0x5000, in memory and in the scratchpad. -/
def tens : Memory := [(0x3000, 2), (0x3004, 1), (0x5001, 0x40), (0x5009, 2), (0x500A, 1), (0x500D, 1), (0x5010, 1), (0x5014, 1),
  (0x5081, 2), (0x5089, 2), (0x508A, 1), (0x508D, 5), (0x5090, 1), (0x5094, 1)]
def launchT : Launch := { launch0 with hdr := { launch0.hdr with tidtable := 4 }, tidTable := 0x5000 }
def walk0 : Walk := { chain := { seq := 0, start := 224, fmode := 0, pc := 0x10004 }, pos := 256 }
/-- A gang whose queue 0 stands at the entry `x`, at 256 in the scratchpad. -/
def gangQ (x : Nat) (k : Walk := walk0) (held : List LiftChain := []) (q1 : LiftQ := {}) : Gang :=
  { gang0 with spad := Memory.writeNat [] 256 32 x, queues := [{ walk := some k, held }, q1, {}, {}] }
def LQ (g : Gang) (cs : List Coll := []) : State :=
  { GW waveE g launchT tens with ctxs := [{ id := 0, fn := 0, root := 0x8000, colls := some 0x3000 }], colls := cs }

theorem localQ {g : Gang} {cs : List Coll} (hl : g.launch = 1) (hd : g.die = 0) : Local (LQ g cs) g := by
  refine ⟨⟨rfl, rfl, rfl, cov0 rfl, show Memory.readNat (tens ++ [(0x8000, 0x1F)]) 0x8000 8 = 0x1F by decide⟩, rfl, rfl, ?_, hd⟩
  rw [State.launchOf, hl]; rfl

theorem quietQ (g : Gang) (cs : List Coll) : NoFeWait (LQ g cs) 2 := noFeOf (show ∀ v ∈ [waveE], _ by decide)

theorem standsQ {x : Nat} {k : Walk} (h : (LQ (gangQ x k)).entryHere (gangQ x k) k = some x) : Stands (LQ (gangQ x k)) 2 0 (gangQ x k) k x :=
  ⟨rfl, rfl, rfl, h⟩

theorem atQ {x : Nat} {k : Walk} {hl : List LiftChain} {q1 : LiftQ} {cs : List Coll}
    (h : (LQ (gangQ x k hl q1) cs).entryHere (gangQ x k hl q1) k = some x)
    (ho : (LQ (gangQ x k hl q1)).entryOk (gangQ x k hl q1) x = true) (hh : entryHeld x = false) (hs : k.stop = false) :
    AtEntry (LQ (gangQ x k hl q1) cs) 2 0 (gangQ x k hl q1) k x := ⟨⟨rfl, rfl, rfl, h⟩, ho, hh, hs, quietQ _ _⟩

def copyX : Nat := 1 + 8 * 2 ^ 8 + 4 * 2 ^ 32 + 0x4000 * 2 ^ 64 + 512 * 2 ^ 128
def gatherX : Nat := 2 + 8 * 2 ^ 8 + 4 * 2 ^ 16 + 2 ^ 32 + 0x4000 * 2 ^ 64 + 512 * 2 ^ 128 + 64 * 2 ^ 192 + 4 * 2 ^ 224
def transX : Nat := 4 + 2 ^ 32
def reduceX : Nat := 5 + 2 * 2 ^ 16 + 2 ^ 32 + 0x4000 * 2 ^ 64 + 0x4040 * 2 ^ 128
def agatherX : Nat := 6 + 2 ^ 32 + 0x4000 * 2 ^ 64 + 0x4040 * 2 ^ 128
def loopX (b n : Nat) : Nat := 7 + b * 2 ^ 16 + n * 2 ^ 32
def sigdecX : Nat := 11 + 2 ^ 32 + 0x4000 * 2 ^ 64
def fenceX : Nat := 12 + 2 * 2 ^ 32

theorem dieQ (x : Nat) : (gangQ x).die = 0 := by simp [Gang.die, Gang.cluster, gangQ, gang0, clusterDie]

/-- An entry of every kind stands where it can be performed. -/
def entries : List Nat :=
  [0, copyX, gatherX, gatherX + 1, transX, reduceX, agatherX, loopX 1 2, loopX 1 1, loopX 5 2, 8 + 2 ^ 16, 9, 10, sigdecX, fenceX]
theorem atEntries : ∀ x ∈ entries, ∀ cs, AtEntry (LQ (gangQ x) cs) 2 0 (gangQ x) walk0 x := by
  intro x hx cs
  refine atQ (show (LQ (gangQ x)).entryHere (gangQ x) walk0 = _ from ?_) ?_ ?_ rfl <;> revert x <;> decide +kernel

theorem Local.tensor {s : State} {g : Gang} (p : Local s g) {tid a : Nat} {t : Tensor} (ht : tid < (s.launchOf g).hdr.tidtable)
    (ha : (s.launchOf g).tidTable + 128 * tid = a) (h : a + 128 ≤ 2 ^ 35)
    (he : parseTensor tid (bytesNat ((List.range 128).map fun i => Memory.read s.mem (a + i))) = some t) :
    ∃ ps, s.tensor g tid = .ok (t, ps) := by
  refine ⟨(List.range 128).map (a + ·), ?_⟩
  simp only [State.tensor, Nat.not_le.mpr ht, ite_false, Bool.false_eq_true, ha, State.engRead, p.engPas .read h, List.map_map, Function.comp_def, p.byteAt]
  rw [he]

/-- Every field of a tensor entry. -/
def fieldsOf (t : Tensor) : List Nat × List Bool × List Nat × List Int × List Int :=
  ([t.tid, t.base, t.fmt, t.rank, t.sdim, t.sblk, t.sbase, t.ts], [t.ro, t.sp], t.ext, t.st, t.sst)
theorem fieldsOf_inj {x : Option Tensor} {t : Tensor} (h : x.map fieldsOf = some (fieldsOf t)) : x = some t := by
  obtain ⟨y, rfl, hy⟩ := Option.map_eq_some_iff.mp h
  cases y; cases t
  simp only [fieldsOf, Prod.mk.injEq, List.cons.injEq] at hy
  obtain ⟨⟨rfl, rfl, rfl, rfl, rfl, rfl, rfl, rfl, _⟩, ⟨rfl, rfl, _⟩, rfl, rfl, rfl⟩ := hy
  rfl

def tensA : Tensor :=
  { tid := 0, base := 0x4000, fmt := 0, rank := 2, sdim := 0, sblk := 0, ro := false, sp := false, ext := [1, 1, 1, 1], st := [1, 1, 1, 1]
    sbase := 0, sst := [0, 0, 0, 0], ts := 0x3F800000 }
def tensB : Tensor := { tensA with tid := 1, base := 512, sp := true }

theorem tensorA (g : Gang) (hl : g.launch = 1) (hd : g.die = 0) : ∃ ps, (LQ g).tensor g 0 = .ok (tensA, ps) := by
  have e : (LQ g).launchOf g = launchT := by rw [State.launchOf, hl]; rfl
  refine (localQ hl hd).tensor (a := 0x5000) (by rw [e]; decide) (by rw [e]; rfl) (by decide) (fieldsOf_inj ?_)
  change (parseTensor 0 (bytesNat ((List.range 128).map fun i => Memory.read (tens ++ [(0x8000, 0x1F)]) (0x5000 + i)))).map fieldsOf = _
  decide +kernel
theorem tensorB (g : Gang) (hl : g.launch = 1) (hd : g.die = 0) : ∃ ps, (LQ g).tensor g 1 = .ok (tensB, ps) := by
  have e : (LQ g).launchOf g = launchT := by rw [State.launchOf, hl]; rfl
  refine (localQ hl hd).tensor (a := 0x5080) (by rw [e]; decide) (by rw [e]; rfl) (by decide) (fieldsOf_inj ?_)
  change (parseTensor 1 (bytesNat ((List.range 128).map fun i => Memory.read (tens ++ [(0x8000, 0x1F)]) (0x5080 + i)))).map fieldsOf = _
  decide +kernel

theorem table_bytes : bytesNat ((List.range 64).map fun i => Memory.read (tens ++ [(0x8000, 0x1F)]) (0x3000 + i)) = 0x100000002 := by
  decide +kernel
theorem table_addr (x : Nat) (cs : List Coll) : ((LQ (gangQ x) cs).ctxOf ((LQ (gangQ x) cs).launchOf (gangQ x))).colls = some 0x3000 := rfl
def tableRead : EngRead :=
  ⟨(List.range 64).map fun i => Memory.read (tens ++ [(0x8000, 0x1F)]) (0x3000 + i), (List.range 64).map (0x3000 + ·)⟩
theorem table_read (x : Nat) (cs : List Coll) : (LQ (gangQ x) cs).engRead (gangQ x) false (0x3000 + 64 * 0) 64 = .ok tableRead := by
  have p := localQ (g := gangQ x) (cs := cs) rfl (dieQ x)
  rw [Nat.mul_zero, Nat.add_zero, State.engRead, p.engPas .read (by decide)]
  simp only [Bool.false_eq_true, ite_false, List.map_map, Function.comp_def, p.byteAt]
  rfl
theorem collTable0 (x : Nat) (cs : List Coll) : ∃ tb, (LQ (gangQ x) cs).collTable (gangQ x) 0 = .ok tb ∧ tb.members = 2 ∧ tb.rank = 0 := by
  have hb : bytesNat tableRead.bytes = 0x100000002 := table_bytes
  rw [State.collTable, table_addr]
  simp only [table_read, hb]
  exact ⟨_, rfl, by decide, by decide⟩

/-- The collective with this module's member there, and another's. -/
def collH (as : List CollArr) : Coll := { ctx := 0, num := 0, here := some (2, 0), arrived := as }
def member1 (x : Nat) : CollArr := { member := 1, desc := collDesc x, data := [1, 0, 0, 0] }

theorem hostQ (g : Gang) (cs : List Coll) : HostUncached (LQ g cs) := fun _ h => (List.not_mem_nil h).elim

theorem clean {g : Gang} (h : g.spadPoison = []) (a n : Nat) : g.spadBad a n = false := by simp [Gang.spadBad, h]

theorem spadReads {s : State} {g : Gang} {a n : Nat} (h : a + n ≤ (s.launchOf g).hdr.scratch) (hp : g.spadPoison = [] := by rfl) :
    Claims.Reads s g true a n ((List.range n).map fun i => Memory.read g.spad (a + i)) := ⟨h, clean hp a n, rfl⟩

theorem wit_LiftEntries :
    (Stands (LQ (gangQ 13)) 2 0 (gangQ 13) walk0 13 ∧ (LQ (gangQ 13)).entryOk (gangQ 13) 13 = false) ∧
    (Stands (LQ (gangQ (copyX + 512))) 2 0 (gangQ (copyX + 512)) walk0 (copyX + 512) ∧ entryKind (copyX + 512) = 1 ∧
      (LQ (gangQ (copyX + 512))).entryOk (gangQ (copyX + 512)) (copyX + 512) = true ∧ entryHeld (copyX + 512) = true) ∧
    ((LQ gangP).gang? 2 = some gangP ∧ (LQ gangP).engineOn gangP = false ∧ (gangP.queues.getD 0 {}).walk = none) ∧
    ((LQ (gangQ 0 { walk0 with pos := 4080 })).engineOn (gangQ 0 { walk0 with pos := 4080 }) = true ∧
      ((LQ gang0).launchOf gang0).hdr.scratch < 4080 + 32 ∧ walk0.cur = none ∧ walk0.copy = [] ∧ (LQ gang0).commitsDone gang0 = true) ∧
    (∀ x ∈ entries, ∀ cs, AtEntry (LQ (gangQ x) cs) 2 0 (gangQ x) walk0 x ∧ (LQ (gangQ x) cs).versioned (gangQ x) = false ∧
      HostUncached (LQ (gangQ x) cs)) ∧
    (∀ g : Gang, g.launch = 1 → g.die = 0 → Claims.Reads (LQ g) g false 0x4000 4 [0, 0, 0, 0] ∧ Places (LQ g) g true 512 4 [512, 513, 514, 515] ∧
      (LQ g).engPasDirect g 0x4000 8 = .ok ((List.range 8).map (0x4000 + ·)) ∧ (LQ g).deviceFrame 0x4000 = true) ∧
    ((entryKind copyX, nfld copyX 8 8, nfld copyX 16 8, nfld copyX 4 4) = (1, 0x4000, 512, 4) ∧
      (entryKind gatherX, nfld gatherX 4 4, nfld gatherX 2 2, Memory.readNat (gangQ gatherX).spad (nfld gatherX 24 4) 4) = (2, 1, 4, 0) ∧
      entryKind (gatherX + 1) = 3 ∧ entryKind sigdecX = 11 ∧ nfld sigdecX 8 8 = 0x4000) ∧
    (entryKind transX = 4 ∧ ((LQ (gangQ transX)).die 0).feat.getLsbD Feature.req.bit = true ∧
      (∃ ps, (LQ (gangQ transX)).tensor (gangQ transX) (nfld transX 2 2) = .ok (tensA, ps)) ∧
      (∃ ps, (LQ (gangQ transX)).tensor (gangQ transX) (nfld transX 4 2) = .ok (tensB, ps)) ∧
      (LQ (gangQ transX)).tidsSet (gangQ transX) walk0.chain.seq [nfld transX 2 2, nfld transX 4 2] = true ∧
      (LQ { gangQ transX { walk0 with chain := { walk0.chain with seq := 5 } } with
          tidOps := [{ seq := 4, entry := 1, act := .inv, pc := 0 }] }).tidsSet
        { gangQ transX { walk0 with chain := { walk0.chain with seq := 5 } } with
          tidOps := [{ seq := 4, entry := 1, act := .inv, pc := 0 }] } 5 [nfld transX 2 2, nfld transX 4 2] = false ∧
      tensA.addr 0 0 = some 0x4000 ∧ tensB.addr 0 0 = some 512 ∧ tensA.fmt = tensB.fmt ∧ tensB.sp = true ∧ tensA.bytes = 4) ∧
    ((loopX 1 2).testBit 0 = true ∧ entryKind (loopX 1 2) = 7 ∧ (nfld (loopX 1 2) 4 4, nfld (loopX 1 1) 4 4, nfld (loopX 5 2) 2 1) = (2, 1, 5) ∧
      ∀ x ∈ [loopX 1 2, loopX 1 1], (LQ (gangQ x)).entryAt (gangQ x) walk0 224 = some 0) ∧
    (entryKind fenceX = 12 ∧ (∀ i, i < 4 ∧ i ≠ 0 ∧ (nfld fenceX 4 1).testBit i = true → ((gangQ fenceX).queues.getD i {}).walk = none)) ∧
    (entryKind reduceX = 5 ∧ entryKind agatherX = 6 ∧ ∀ x ∈ [reduceX, agatherX], ∀ cs, ∃ tb, (LQ (gangQ x) cs).collTable (gangQ x) 0 = .ok tb ∧
      AtEntry (LQ (gangQ x { walk0 with commit := true }) cs) 2 0 (gangQ x { walk0 with commit := true }) { walk0 with commit := true } x ∧
      ¬Gathered tb (collH []) ∧ Gathered tb (collH [member1 x]) ∧ (LQ (gangQ x) [collH [member1 x]]).coll? 0 0 = some (collH [member1 x]) ∧
      ∀ n ≤ 8, (LQ (gangQ x) cs).engPasDirect (gangQ x) 0x4040 n = .ok ((List.range n).map (0x4040 + ·))) ∧
    (∃ h, AtEntry (LQ (gangQ 0 walk0 [h])) 2 0 (gangQ 0 walk0 [h]) walk0 0 ∧ ∀ r ∈ (gangQ 0 walk0 [h]).rkOps, h.seq ≤ r.seq) ∧
    (AtEntry (LQ (gangQ fenceX walk0 [] { walk := some walk0 })) 2 0 (gangQ fenceX walk0 [] { walk := some walk0 }) walk0 fenceX ∧
      ∃ ts, AtEntry (LQ (gangQ fenceX { walk0 with fence := some ts })) 2 0 (gangQ fenceX { walk0 with fence := some ts })
        { walk0 with fence := some ts } fenceX) ∧
    (collDesc reduceX ≠ collDesc agatherX ∧ (∃ c, (LQ gang0).ctx? 0 = some c) ∧ (∃ c, (LQ gang0 [collH []]).coll? 0 0 = some c) ∧
      (LQ gang0 [collH []]).gang? 2 = some gang0) := by
  refine ⟨⟨standsQ (by decide +kernel), by decide +kernel⟩, ⟨standsQ (by decide +kernel), by decide +kernel, by decide +kernel, by decide +kernel⟩,
    ⟨rfl, by decide, by decide⟩, ⟨rfl, by decide, rfl, rfl, by decide⟩, fun x hx cs => ⟨atEntries x hx cs, rfl, hostQ _ _⟩, fun g hl hd => ?_, by decide +kernel, ?_, by decide +kernel, ?_, ?_,
    ⟨walk0.chain, atQ (by decide +kernel) (by decide +kernel) (by decide) rfl, by decide⟩,
    ⟨atQ (by decide +kernel) (by decide +kernel) (by decide +kernel) rfl, [(1, 1)], atQ (by decide +kernel) (by decide +kernel) (by decide +kernel) rfl⟩, ?_⟩
  · refine ⟨(localQ hl hd).reads (by decide) (show (List.range 4).map (fun i => Memory.read (tens ++ [(0x8000, 0x1F)]) (0x4000 + i)) = _ by decide),
      ⟨?_, rfl⟩, (localQ hl hd).direct (by decide), ?_⟩
    · rw [State.launchOf, hl]; exact (by decide : 512 + 4 ≤ 4096)
    · rw [State.deviceFrame, (localQ hl hd).frame (by decide), frameOf_low (by decide)]; rfl
  · exact ⟨by decide, by decide +kernel, tensorA _ rfl (dieQ _), tensorB _ rfl (dieQ _), by decide +kernel, by decide +kernel,
      by decide, by decide, rfl, rfl, rfl⟩
  · refine ⟨by decide, fun i ⟨h1, h2, h3⟩ => ?_⟩
    obtain rfl | rfl | rfl : i = 1 ∨ i = 2 ∨ i = 3 := by omega
    all_goals rfl
  · refine ⟨by decide +kernel, by decide +kernel, fun x hx cs => ?_⟩
    obtain ⟨tb, h, hm, hr⟩ := collTable0 x cs
    refine ⟨tb, h, ?_, fun hg => ?_, fun m h1 h2 => ⟨member1 x, by simp [collH], by rw [hm] at h1; rw [hr] at h2; simp [member1]; omega⟩, rfl,
      fun n hn => (localQ rfl (dieQ x)).direct (by omega)⟩
    · refine atQ (show (LQ (gangQ x { walk0 with commit := true })).entryHere _ { walk0 with commit := true } = _ from ?_) ?_ ?_ rfl <;>
        clear h <;> revert x <;> decide +kernel
    obtain ⟨a, ha, _⟩ := hg 1 (by rw [hm]; decide) (by rw [hr]; decide)
    exact (List.not_mem_nil ha).elim
  · exact ⟨by decide +kernel, ⟨_, rfl⟩, ⟨_, rfl⟩, rfl⟩

/-! ## Witnesses: tile tasks -/

/-- A tensor of 16 by 16 zeros in the scratchpad. -/
def tensM : Memory := [(0x5001, 2), (0x5009, 2), (0x500A, 1), (0x500D, 5), (0x5010, 16), (0x5014, 16)]
def tensS : Tensor :=
  { tid := 0, base := 512, fmt := 0, rank := 2, sdim := 0, sblk := 0, ro := false, sp := true, ext := [16, 16, 1, 1], st := [1, 16, 256, 256]
    sbase := 0, sst := [0, 0, 0, 0], ts := 0x3F800000 }

def headT (k : Nat) : Nat := k + 16 * 2 ^ 16 + 16 * 2 ^ 24
def mmaX : Nat := headT 0 + 2 * 2 ^ 32
def mmagX : Nat := headT 1 + 2 * 2 ^ 32 + 1024 * 2 ^ 224
/-- One row of the sixteen. -/
def epiX : Nat := headT 2 + 32 * 2 ^ 8 + 0xFFFFFFFF * 2 ^ 64 + 2 ^ 320
def zeroX : Nat := headT 3
/-- A task over the first tile of a gang's window, physical tile 5. -/
def taskC (x : Nat) : TileCmd := { seq := 7, kind := .task, off := 256, pc := 0x10004, head := BitVec.ofNat 32 x, foot := [5] }
def gangT (c : TileCmd) (x : Nat) : Gang := { gang0 with spad := Memory.writeNat [] 256 64 x, tileQ := [c] }
def TQ (g : Gang) : State :=
  { GW waveE g launchT tensM with tiles := [{ cluster := 0, phys := 5, ctx := 0, st := .gangOwned 2 0 }] }

theorem localT {g : Gang} (hl : g.launch = 1) (hd : g.die = 0) : Local (TQ g) g := by
  refine ⟨⟨rfl, rfl, rfl, cov0 rfl, show Memory.readNat (tensM ++ [(0x8000, 0x1F)]) 0x8000 8 = 0x1F by decide⟩, rfl, rfl, ?_, hd⟩
  rw [State.launchOf, hl]; rfl

theorem dieT (c : TileCmd) (x : Nat) : (gangT c x).die = 0 := by simp [Gang.die, Gang.cluster, gangT, gang0, clusterDie]

theorem tensorS (c : TileCmd) (x : Nat) : ∃ ps, (TQ (gangT c x)).tensor (gangT c x) 0 = .ok (tensS, ps) := by
  refine (localT rfl (dieT c x)).tensor (a := 0x5000) (by decide : 0 < 4) rfl (by decide) (fieldsOf_inj ?_)
  change (parseTensor 0 (bytesNat ((List.range 128).map fun i => Memory.read (tensM ++ [(0x8000, 0x1F)]) (0x5000 + i)))).map fieldsOf = _
  decide +kernel

theorem addrS : ∀ i < 16, ∀ j < 16, tensS.addr i j = some (512 + 4 * (i + 16 * j)) := by decide +kernel

/-- Each of its elements is +0. -/
theorem elemS (c : TileCmd) (x : Nat) {i j : Nat} (hi : i < 16) (hj : j < 16) :
    (TQ (gangT c x)).elem (gangT c x) tensS i j = .ok { v := (elemValue 0 0 0).1, flags := (elemValue 0 0 0).2 } := by
  have hs : (TQ (gangT c x)).spadBytes (gangT c x) = 4096 := rfl
  have hz : ∀ k < 4, Memory.read (gangT c x).spad (512 + 4 * (i + 16 * j) + k) = 0 := fun k hk => by
    rw [gangT, Memory.read_writeNat_ne (by omega)]; rfl
  have hr : (TQ (gangT c x)).engRead (gangT c x) true (512 + 4 * (i + 16 * j)) 4 = .ok { bytes := [0, 0, 0, 0] } := by
    rw [State.engRead, if_pos rfl, hs, if_neg (by omega), clean rfl]
    simp only [Bool.false_eq_true, ite_false, List.range, List.range.loop, List.map, hz 0 (by decide), hz 1 (by decide), hz 2 (by decide), hz 3 (by decide)]
  have hb : tensS.bytes = 4 := rfl
  have ht : tensS.sp = true := rfl
  rw [State.elem, addrS i hi j hj, State.engReadAt, hb, ht]
  simp only [hr]
  rfl

theorem startsT : ∀ p ∈ [mmaX, mmagX, epiX, zeroX, headT 0, headT 0 + 2 ^ 32, mmaX + 2 ^ 304],
    Starts (TQ (gangT (taskC p) p)) 2 7 (gangT (taskC p) p) (taskC p) p := by
  intro p hp
  refine ⟨rfl, ?_, (by decide : ∀ q ∈ [5], q < 256), ?_⟩ <;> revert p <;> decide +kernel

theorem placesS (c : TileCmd) (x : Nat) {i j : Nat} (hi : i < 16) (hj : j < 16) : ∃ e, tensS.addr (0 + j) (0 + i) = some e ∧
    Places (TQ (gangT c x)) (gangT c x) true e 4 ((List.range 4).map (512 + 4 * (j + 16 * i) + ·)) := by
  rw [Nat.zero_add, Nat.zero_add]
  refine ⟨_, addrS j hj i hi, ?_, rfl⟩
  change 512 + 4 * (j + 16 * i) + 4 ≤ 4096
  omega

theorem wit_TileTasks :
    (∀ x ∈ [mmaX, mmagX, epiX, zeroX], (TQ (gangT (taskC x) x)).gang? 2 = some (gangT (taskC x) x) ∧ (taskC x).kind = .task ∧
      (TQ (gangT (taskC x) x)).engineOn (gangT (taskC x) x) = true ∧
      ((gangT (taskC x) x).tileQ.filter fun d => d.kind == .task && d.started).length < ((TQ (gangT (taskC x) x)).launchOf (gangT (taskC x) x)).hdr.g ∧
      (taskC x).held = false ∧ (taskC x).started = false ∧ (gangT (taskC x) x).rkOps = [] ∧
      (TQ (gangT (taskC x) x)).tidsSet (gangT (taskC x) x) (taskC x).seq (taskC x).tids = true ∧ (taskC x).head.getLsbD 9 = false ∧
      (TQ (gangT (taskC x) x)).commitsDone (gangT (taskC x) x) = true ∧ x = Memory.readNat (gangT (taskC x) x).spad 256 64) ∧
    (∀ c ∈ [{ taskC mmaX with held := true }, { taskC mmaX with started := true }], (TQ (gangT c mmaX)).cmd? 2 7 = some (gangT c mmaX, c) ∧
      (c.held = true ∨ c.started = true)) ∧
    (∀ p ∈ [mmaX, mmagX, epiX, zeroX, headT 0, headT 0 + 2 ^ 32, mmaX + 2 ^ 304],
      Starts (TQ (gangT (taskC p) p)) 2 7 (gangT (taskC p) p) (taskC p) p ∧ NoFeWait (TQ (gangT (taskC p) p)) 2 ∧
      (TQ (gangT (taskC p) p)).taskOk (gangT (taskC p) p) { cmd := taskC p, x := p } = decide (p ≠ mmaX + 2 ^ 304) ∧
      ((TQ (gangT (taskC p) p)).versioned (gangT (taskC p) p) = false ∧ HostUncached (TQ (gangT (taskC p) p)))) ∧
    (∀ p ∈ [mmaX, mmagX], (∃ ps, (TQ (gangT (taskC p) p)).tensor (gangT (taskC p) p) (nfld p 8 2) = .ok (tensS, ps)) ∧
      (∃ ps, (TQ (gangT (taskC p) p)).tensor (gangT (taskC p) p) (nfld p 10 2) = .ok (tensS, ps)) ∧
      MmaOk (TQ (gangT (taskC p) p)) (gangT (taskC p) p) (taskC p) p tensS tensS ((List.range 16).map (0 + ·)) 2 ∧
      nfld p 4 4 = 2 ∧ nfld p 24 4 = 0 ∧ nfld p 20 4 = 0 ∧ taskRows (taskC p) p = 16 ∧
      (∀ i < 16, ∀ j < 16, (TQ (gangT (taskC p) p)).elem (gangT (taskC p) p) tensS i j =
        .ok { v := (elemValue 0 0 0).1, flags := (elemValue 0 0 0).2 }) ∧ (taskC p).foot.Nodup ∧
      (∀ q ∈ (taskC p).foot, ((TQ (gangT (taskC p) p)).tile? 0 q).isSome = true) ∧
      (taskC p).foot.length = (taskTiles (taskC p).head (taskC p).tile).length) ∧
    (pairOf tensS.fmt tensS.fmt = some (2, 2) ∧ nfld (headT 0 + 2 ^ 32) 4 4 % 2 ≠ 0) ∧
    ((nfld epiX 8 2, nfld epiX 10 2, nfld epiX 12 2, nfld epiX 16 4, nfld epiX 20 4) = (0xFFFF, 0xFFFF, 0, 0, 0) ∧
      (∃ ps, (TQ (gangT (taskC epiX) epiX)).tensor (gangT (taskC epiX) epiX) 0 = .ok (tensS, ps)) ∧
      taskRows (taskC epiX) epiX = 1 ∧ (∀ i < 1, ∀ j < 16, ∃ e, tensS.addr (0 + j) (0 + i) = some e ∧ Places (TQ (gangT (taskC epiX) epiX)) (gangT (taskC epiX) epiX) true e 4
        ((List.range 4).map (512 + 4 * (j + 16 * i) + ·))) ∧
      ((List.range 1).flatMap fun i => (List.range 16).flatMap fun j => (List.range 4).map (512 + 4 * (j + 16 * i) + ·)).Nodup) ∧
    ((TQ (gangT { taskC mmaX with started := true } mmaX)).cmd? 2 7 =
        some (gangT { taskC mmaX with started := true } mmaX, { taskC mmaX with started := true }) ∧
      AllPerformed (TQ (gangT { taskC mmaX with started := true } mmaX))) := by
  refine ⟨by decide +kernel, by decide +kernel, fun p hp => ⟨startsT p hp, noFeOf (show ∀ v ∈ [waveE], _ by decide), ?_, rfl,
      fun _ h => (List.not_mem_nil h).elim⟩, fun p hp => ⟨?_, ?_, ?_, ?_⟩, by decide +kernel,
    ⟨by decide +kernel, tensorS _ _, by decide +kernel, fun i hi j hj => placesS _ _ (by omega) hj, by decide +kernel⟩, rfl, by unfold AllPerformed; decide⟩
  · revert p; decide +kernel
  · rw [show nfld p 8 2 = 0 by revert p; decide +kernel]; exact tensorS _ _
  · rw [show nfld p 10 2 = 0 by revert p; decide +kernel]; exact tensorS _ _
  · refine ⟨2, 2, by decide, ?_⟩
    revert p; decide +kernel
  · refine ⟨by revert p; decide +kernel, by revert p; decide +kernel, by revert p; decide +kernel, by revert p; decide +kernel,
      fun i hi j hj => elemS _ _ hi hj, (by decide : [5].Nodup), by revert p; decide +kernel, by revert p; decide +kernel⟩

/-! ## Witnesses: engine commands -/

/-- A tensor of 32 by 16 zeros in the scratchpad, one of a single element, and one of 32. -/
def tensD : Memory := [(0x5001, 2), (0x5009, 2), (0x500A, 1), (0x500D, 5), (0x5010, 32), (0x5014, 16),
  (0x5081, 2), (0x5089, 2), (0x508A, 1), (0x508D, 5), (0x5090, 1), (0x5094, 1),
  (0x5101, 10), (0x5109, 2), (0x510A, 1), (0x510D, 5), (0x5110, 32), (0x5114, 1)]
def tensW : Tensor :=
  { tid := 0, base := 512, fmt := 0, rank := 2, sdim := 0, sblk := 0, ro := false, sp := true, ext := [32, 16, 1, 1], st := [1, 32, 512, 512]
    sbase := 0, sst := [0, 0, 0, 0], ts := 0x3F800000 }
def cmdE (k : TqKind) : TileCmd :=
  { seq := 7, kind := k, off := if k = .spill ∨ k = .fill then 0x4000 else 256, pc := 0x10004, handle := 9, dv := 32, dk := 32, foot := [5] }
/-- A gang with the record `x` at 256 and one command, of kind `k`. -/
def gangC (k : TqKind) (x : Nat) : Gang := { gang0 with spad := Memory.writeNat [] 256 64 x, tileQ := [cmdE k] }
def state9b : StateRec := { state9 with place := .cluster 0, bound := some (2, 0) }
def CQ (g : Gang) (n : Nat) (m : Memory := tensD) : State :=
  { GW waveE g launchT m with
    tiles := (List.range n).map fun p => { cluster := 0, phys := 5 + p, ctx := 0, st := .pinned 9 p }
    states := [state9b] }

theorem localC {g : Gang} {n : Nat} {m : Memory} (h : Memory.readNat (m ++ [(0x8000, 0x1F)]) 0x8000 8 = 0x1F) (hl : g.launch = 1)
    (hd : g.die = 0) : Local (CQ g n m) g := by
  refine ⟨⟨rfl, rfl, rfl, cov0 rfl, h⟩, rfl, rfl, ?_, hd⟩
  rw [State.launchOf, hl]; rfl

theorem dieC (k : TqKind) (x : Nat) : (gangC k x).die = 0 := by simp [Gang.die, Gang.cluster, gangC, gang0, clusterDie]

theorem tensorW (k : TqKind) (x n : Nat) : ∃ ps, (CQ (gangC k x) n).tensor (gangC k x) 0 = .ok (tensW, ps) := by
  refine (localC (by decide) rfl (dieC k x)).tensor (a := 0x5000) (by decide : 0 < 4) rfl (by decide) (fieldsOf_inj ?_)
  change (parseTensor 0 (bytesNat ((List.range 128).map fun i => Memory.read (tensD ++ [(0x8000, 0x1F)]) (0x5000 + i)))).map fieldsOf = _
  decide +kernel

def tensV : Tensor := { tensW with tid := 1, ext := [1, 1, 1, 1], st := [1, 1, 1, 1] }
theorem tensorV (k : TqKind) (x n : Nat) : ∃ ps, (CQ (gangC k x) n).tensor (gangC k x) 1 = .ok (tensV, ps) := by
  refine (localC (by decide) rfl (dieC k x)).tensor (a := 0x5080) (by decide : 1 < 4) rfl (by decide) (fieldsOf_inj ?_)
  change (parseTensor 1 (bytesNat ((List.range 128).map fun i => Memory.read (tensD ++ [(0x8000, 0x1F)]) (0x5080 + i)))).map fieldsOf = _
  decide +kernel

theorem entryW (k : TqKind) (x n : Nat) {m c : Nat} (hm : m ≤ 32) (hc : c ≤ 16) : Entry (CQ (gangC k x) n) (gangC k x) 0 m c true := by
  obtain ⟨ps, h⟩ := tensorW k x n
  exact ⟨tensW, ps, h, (decide_eq_true (⟨.inl rfl, hm, hc⟩ : (0 = 0 ∨ 0 = 2 ∨ 0 = 3) ∧ m ≤ 32 ∧ c ≤ 16)).symm⟩
theorem entryV (k : TqKind) (x n : Nat) : Entry (CQ (gangC k x) n) (gangC k x) 1 32 1 false := by
  obtain ⟨ps, h⟩ := tensorV k x n
  exact ⟨tensV, ps, h, by decide⟩

theorem addrW : ∀ i < 32, ∀ j < 16, tensW.addr i j = some (512 + 4 * (i + 32 * j)) := by decide +kernel

theorem elemW (c : TqKind) (x n : Nat) {i j : Nat} (hi : i < 32) (hj : j < 16) :
    (CQ (gangC c x) n).elem (gangC c x) tensW i j = .ok { v := (elemValue 0 0 0).1, flags := (elemValue 0 0 0).2 } := by
  have hs : (CQ (gangC c x) n).spadBytes (gangC c x) = 4096 := rfl
  have hz : ∀ k < 4, Memory.read (gangC c x).spad (512 + 4 * (i + 32 * j) + k) = 0 := fun k hk => by
    rw [gangC, Memory.read_writeNat_ne (by omega)]; rfl
  have hr : (CQ (gangC c x) n).engRead (gangC c x) true (512 + 4 * (i + 32 * j)) 4 = .ok { bytes := [0, 0, 0, 0] } := by
    rw [State.engRead, if_pos rfl, hs, if_neg (by omega), clean rfl]
    simp only [Bool.false_eq_true, ite_false, List.range, List.range.loop, List.map, hz 0 (by decide), hz 1 (by decide), hz 2 (by decide), hz 3 (by decide)]
  have hb : tensW.bytes = 4 := rfl
  have ht : tensW.sp = true := rfl
  rw [State.elem, addrW i hi j hj, State.engReadAt, hb, ht]
  simp only [hr]
  rfl

theorem operandW (c : TqKind) (x n : Nat) {k m : Nat} (hk : k ≤ 32) (hm : m ≤ 16) :
    Operand (CQ (gangC c x) n) (gangC c x) 0 k m fun _ _ => (elemValue 0 0 0).1 := by
  obtain ⟨ps, h⟩ := tensorW c x n
  exact ⟨tensW, ps, h, .inl rfl, rfl, hk, hm, fun t ht j hj => ⟨_, elemW c x n (by omega) (by omega), rfl⟩⟩

/-- Its record: one token, every operand in entry 0. -/
def deltaX : Nat := 2 ^ 32
/-- The same with K in an entry that does not fit. -/
def deltaBad : Nat := deltaX + 2 ^ 64

theorem runsC (k : TqKind) (x n : Nat) (m : Memory) (hk : TileCmd.counted (cmdE k) = true) : Claims.Runs (CQ (gangC k x) n m) 2 7 (gangC k x) (cmdE k) k true :=
  ⟨rfl, rfl, rfl, rfl, noFeOf (show ∀ v ∈ [waveE], _ by decide), fun y hy d hd => by
    obtain rfl := List.mem_singleton.mp (show y ∈ [gangC k x] from hy)
    obtain rfl := List.mem_singleton.mp (show d ∈ [cmdE k] from hd)
    exact hk⟩

/-- The head of an image whose CRC field holds `k`, and its body. -/
def head9 (k : Nat) : List Byte := (List.range 64).map fun j => Memory.read (image9 k ++ [(0x8000, 0x1F)]) (0x4000 + j)

theorem head_fields {k : Nat} (hk : k < 2 ^ 32) : imageHead 9 (head9 k) = some (32, 32, 0, k) := by
  refine image_fields hk ?_
  rw [bytes9_eq (image_keys k), List.take_left' (by simp), List.take_of_length_le (by simp [head9])]
  rfl

theorem fill_head (n k : Nat) : Claims.Reads (CQ (gangC .fill 0) n (image9 k)) (gangC .fill 0) false 0x4000 64 (head9 k) :=
  (localC (image_table k) rfl (dieC _ _)).reads (by decide) rfl

theorem fill_body (n k : Nat) : Claims.Reads (CQ (gangC .fill 0) n (image9 k)) (gangC .fill 0) false (0x4000 + 64) (4 * 32 * 32)
    (List.replicate 4096 0) := by
  refine (localC (image_table k) rfl (dieC _ _)).reads (by decide) ?_
  rw [List.eq_replicate_iff]
  refine ⟨by simp, fun b hb => ?_⟩
  obtain ⟨i, hi, rfl⟩ := List.mem_map.mp hb
  have hi := List.mem_range.mp hi
  refine read_other fun p hp he => ?_
  have := image_keys k p hp
  omega

def bin0 : BinCmd := { seq := 9, off := 256, pc := 0x10004 }
def rk0 (size : Nat) : RkOp := { seq := 8, wave := 3, lanes := 1, rink := 0, base := 256, size, count := 2 }
/-- A gang with a binning descriptor at 256 and a patch record at 288; `c` is what its tile queue holds. -/
def gangB (x : Nat) (cs : List TileCmd := []) (e : Nat := 0) (rk : List RkOp := []) : Gang :=
  { gang0 with spad := Memory.writeNat (Memory.writeNat [] 256 48 x) 1024 4 e, bins := [bin0], tileQ := cs, rkOps := rk }
/-- `n` items of four bytes at 0x10000, one bin; a patch of kind `k` on `t`, with multiplier `m`. -/
def binList (n : Nat) : Nat := 0x10000 + n * 2 ^ 64 + 4 * 2 ^ 96 + 2 ^ 128
def patchX (n k m t : Nat) : Nat := binList n + 2 ^ 256 * (k + m * 2 ^ 16 + t * 2 ^ 64)
def binX (n : Nat) : Nat := patchX n 0 1 0
def heldTask : TileCmd := { taskC mmaX with off := 1024, held := true }

theorem localB {g : Gang} (hl : g.launch = 1) (hd : g.die = 0) : Local (CQ g 1) g := localC (by decide) hl hd
theorem dieB (x : Nat) (cs : List TileCmd) (e : Nat) : (gangB x cs e).die = 0 := by simp [Gang.die, Gang.cluster, gangB, gang0, clusterDie]

theorem items (n : Nat) (h : n ≤ 2 ^ 20) (x : Nat) (cs : List TileCmd) (e : Nat) :
    Claims.Reads (CQ (gangB x cs e) 1) (gangB x cs e) false 0x10000 (4 * n) (List.replicate (4 * n) 0) := by
  refine (localB rfl (dieB x cs e)).reads (by omega) ?_
  rw [List.eq_replicate_iff]
  refine ⟨by simp, fun b hb => ?_⟩
  obtain ⟨i, _, rfl⟩ := List.mem_map.mp hb
  refine read_other fun p hp he => ?_
  have : ∀ p ∈ tensD ++ [(0x8000, 0x1F)], p.1 < 0x10000 := by decide
  have := this p hp
  omega

theorem bytesNat_zeros (n : Nat) : bytesNat (List.replicate n 0) = 0 := by
  induction n with
  | zero => rfl
  | succ n ih =>
    have e : bytesNat (0 :: List.replicate n 0) = (0 : Byte).toNat + 256 * bytesNat (List.replicate n 0) := rfl
    rw [List.replicate_succ, e, ih]; rfl

/-- A list of zeros sends every item to bin 0. -/
theorem destinations_zeros (x m : Nat) : destinations x (List.replicate m 0) = List.replicate (nfld x 8 4) 0 := by
  rw [destinations, List.eq_replicate_iff]
  refine ⟨by simp, fun b hb => ?_⟩
  obtain ⟨i, _, rfl⟩ := List.mem_map.mp hb
  rw [List.drop_replicate, List.take_replicate, bytesNat_zeros]

/-- A gang with an operation on the TID table, or an RKINIT, and what that may wait for. -/
def gangTid (act : TidAct) (earlier : List TidOp := []) : Gang :=
  { gang0 with tidOps := earlier ++ [{ seq := 7, entry := 1, act, pc := 0x10004 }] }
def gangRk (size : Nat) (cs : List TileCmd := []) : Gang :=
  { gang0 with tileQ := cs
               rkOps := [rk0 size] }
theorem dieTid (a : TidAct) (e : List TidOp) : (gangTid a e).die = 0 := by simp [Gang.die, Gang.cluster, gangTid, gang0, clusterDie]

theorem wit_EngineCommands :
    ((CQ (gangC .dupd deltaX) 1).heldState (gangC .dupd deltaX) 9 = some state9b ∧
      (CQ (gangC .dupd deltaX) 1).handleTiles (gangC .dupd deltaX) 9 = [5] ∧ (nfld deltaX 4 1, nfld deltaX 5 1, nfld deltaX 6 2, nfld deltaX 18 46) = (1, 0, 0, 0) ∧
      (∀ k ∈ [TqKind.dupd, .dqry], ∀ x ∈ [deltaX, 0], Claims.Runs (CQ (gangC k x) 1) 2 7 (gangC k x) (cmdE k) k true ∧
        (CQ (gangC k x) 1).engineOn (gangC k x) = true) ∧
      (∀ k, Operand (CQ (gangC k deltaX) 1) (gangC k deltaX) 0 32 1 (fun _ _ => (elemValue 0 0 0).1) ∧
        Operand (CQ (gangC k deltaX) 1) (gangC k deltaX) 0 2 1 (fun _ _ => (elemValue 0 0 0).1) ∧
        ∃ ps, (CQ (gangC k deltaX) 1).tensor (gangC k deltaX) 0 = .ok (tensW, ps)) ∧
      (∀ k m, m ≤ 32 → Entry (CQ (gangC k deltaX) 1) (gangC k deltaX) 0 m 1 true) ∧
      (∀ k, (∀ p ∈ [(8, 1), (10, 0), (12, 0), (14, 0), (16, 0)], nfld deltaBad p.1 2 = p.2) ∧ nfld deltaBad 4 1 = 1 ∧
        Entry (CQ (gangC k deltaBad) 1) (gangC k deltaBad) 1 32 1 false ∧
        ∀ m, m ≤ 32 → Entry (CQ (gangC k deltaBad) 1) (gangC k deltaBad) 0 m 1 true) ∧
      (CQ (gangC .dupd 0) 1).commitsDone (gangC .dupd 0) = true ∧ ((List.range 32).map (tensW.addr · 0)).Nodup ∧ ∀ i < 32, ∃ a, tensW.addr i 0 = some a ∧ a % 4 = 0 ∧ a + 4 ≤ 4096) ∧
    (Claims.Runs (CQ (gangC .spill 0) 1) 2 7 (gangC .spill 0) (cmdE .spill) .spill ((CQ (gangC .spill 0) 1).gangOn (gangC .spill 0)) ∧
      (CQ (gangC .spill 0) 1).engPasDirect (gangC .spill 0) 0x4000 (64 + 4 * 32 * 32) = .ok ((List.range (64 + 4 * 32 * 32)).map (0x4000 + ·))) ∧
    (∀ n k, Claims.Runs (CQ (gangC .fill 0) n (image9 k)) 2 7 (gangC .fill 0) (cmdE .fill) .fill true ∧
      Claims.Reads (CQ (gangC .fill 0) n (image9 k)) (gangC .fill 0) false 0x4000 64 (head9 k) ∧ (k < 2 ^ 32 → imageHead 9 (head9 k) = some (32, 32, 0, k)) ∧
      Claims.Reads (CQ (gangC .fill 0) n (image9 k)) (gangC .fill 0) false (0x4000 + 64) (4 * 32 * 32) (List.replicate 4096 0) ∧
      (CQ (gangC .fill 0) n (image9 k)).stateRec? ((CQ (gangC .fill 0) n (image9 k)).launchOf (gangC .fill 0)).ctx 9 = some state9b) ∧
    (imageHead 8 (head9 0) = none ∧ crc9 = (crc32c (List.replicate 4096 0)).toNat ∧ (∃ k, k < 2 ^ 32 ∧ k ≠ crc9) ∧
      1 ≤ ((CQ (gangC .fill 0) 1 (image9 crc9)).freeTiles 0).length) ∧
    (∀ x ∈ [binX 1, patchX 1 1 1 1024, patchX 1 2 1 1024, patchX 1 3 1 0x4000, patchX 65538 1 65535 1024], ∀ e ∈ [0, 512], ∀ cs ∈ [[], [heldTask]],
      (CQ (gangB x cs e) 1).gang? 2 = some (gangB x cs e) ∧ (CQ (gangB x cs e) 1).gangOn (gangB x cs e) = true ∧
      (CQ (gangB x cs e) 1).binOk (gangB x cs e) 256 = true ∧ NoFeWait (CQ (gangB x cs e) 1) 2 ∧ (gangB x cs e).bins = [bin0] ∧
      (gangB x cs e).rkOps = [] ∧ (CQ (gangB x cs e) 1).commitsDone (gangB x cs e) = true ∧ nfld x 18 1 / 2 ≠ 1) ∧
    (∃ r ∈ (gangB 0 [] 0 [rk0 64]).rkOps, r.seq < bin0.seq) ∧
    (∀ n ≤ 2 ^ 20, ∀ x cs e, Claims.Reads (CQ (gangB x cs e) 1) (gangB x cs e) false 0x10000 (4 * n) (List.replicate (4 * n) 0)) ∧
    ((CQ (gangB 0) 1).binOk (gangB 0) 256 = false ∧ (∀ k < 1, (patchAt (gangB (binX 1)) 256 k).kind = 0) ∧
      (∀ k ∈ [1, 2], (patchAt (gangB (patchX 1 k 1 1024)) 256 0).kind = k ∧ (patchAt (gangB (patchX 1 k 1 1024)) 256 0).at_ = 1024) ∧
      (∀ m, ((destinations (patchX 65538 1 65535 1024) (List.replicate m 0)).filter (· == 0)).length * 65535 ≥ 2 ^ 32) ∧
      (patchAt (gangB (patchX 65538 1 65535 1024)) 256 0).mult = 65535 ∧
      (Memory.read (gangB 0 [] 0).spad 1025).toNat / 2 % 2 = 0 ∧ (Memory.read (gangB 0 [] 512).spad 1025).toNat / 2 % 2 = 1 ∧
      heldTask.held = true ∧ heldTask.off = 1024 ∧ (patchAt (gangB (patchX 1 3 1 0x4000)) 256 0).kind = 3 ∧
      ∀ x, (CQ (gangB x) 1).engPasDirect (gangB x) 0x4000 8 = .ok ((List.range 8).map (0x4000 + ·))) ∧
    (∀ a ∈ [TidAct.set 512, .inv, .get 3 1 2], (CQ (gangTid a) 1).gang? 2 = some (gangTid a) ∧ (CQ (gangTid a) 1).gangOn (gangTid a) = true ∧
      ((gangTid a).tidOps.find? fun o => o.seq == 7) = some { seq := 7, entry := 1, act := a, pc := 0x10004 } ∧
      (CQ (gangTid a) 1).tidClear (gangTid a) { seq := 7, entry := 1, act := a, pc := 0x10004 } = true ∧ HostUncached (CQ (gangTid a) 1)) ∧
    ((CQ (gangTid .inv [{ seq := 6, entry := 1, act := .inv, pc := 0 }]) 1).tidClear (gangTid .inv [{ seq := 6, entry := 1, act := .inv, pc := 0 }]) { seq := 7, entry := 1, act := .inv, pc := 0x10004 } = false ∧
      (CQ (gangTid (.set 512)) 1).engPasDirect (gangTid (.set 512)) (0x5000 + 128 * 1) 128 = .ok ((List.range 128).map (0x5080 + ·)) ∧
      Claims.Reads (CQ (gangTid (.set 512)) 1) (gangTid (.set 512)) true 512 128 (List.replicate 128 0) ∧
      Claims.Reads (CQ (gangTid .inv) 1) (gangTid .inv) false (0x5080 + 13) 1 [5] ∧
      (CQ (gangTid .inv) 1).engPasDirect (gangTid .inv) (0x5080 + 13) 1 = .ok [0x5080 + 13] ∧ homeOf (0x5080 + 13) = some (gangTid .inv).die ∧
      Claims.Reads (CQ (gangTid (.get 3 1 2)) 1) (gangTid (.get 3 1 2)) false (0x5080 + 4 * 2) 4 [0, 2, 1, 0]) ∧
    (∀ size ∈ [64, 0], (CQ (gangRk size) 1).gang? 2 = some (gangRk size) ∧ (CQ (gangRk size) 1).gangOn (gangRk size) = true ∧
      ((gangRk size).rkOps.find? fun o => o.seq == 8).isSome = true ∧ (∀ q ∈ (gangRk size).queues, q.walk = none ∧ q.held = []) ∧ (gangRk size).tileQ = []) ∧
    (RinkOk 4096 256 64 2 ∧ ¬RinkOk 4096 256 0 2 ∧
      ∃ d ∈ (gangRk 64 [taskC (mmaX + 512)]).tileQ, d.kind = .task ∧ d.seq < 8 ∧ (d.head.getLsbD 9 = true ∨ d.head.getLsbD 10 = true)) := by
  refine ⟨⟨rfl, by decide +kernel, by decide +kernel, fun k hk x hx => ⟨runsC k x 1 _ (by revert k; decide), rfl⟩,
      fun k => ⟨operandW _ _ _ (by decide) (by decide), operandW _ _ _ (by decide) (by decide), tensorW _ _ _⟩, fun k m hm => entryW _ _ _ hm (by decide),
      fun k => ⟨by decide +kernel, by decide +kernel, entryV _ _ _, fun m hm => entryW _ _ _ hm (by decide)⟩, by decide, by decide +kernel,
      fun i hi => ?_⟩,
    ⟨runsC _ _ _ _ (by decide), (localC (by decide) rfl (dieC _ _)).direct (by decide)⟩,
    fun n k => ⟨runsC _ _ _ _ (by decide), fill_head n k, head_fields, fill_body n k, rfl⟩,
    ⟨by decide +kernel, rfl, ?_, by decide +kernel⟩, fun x hx e he cs hc => ⟨rfl, rfl, ?_, noFeOf (show ∀ v ∈ [waveE], _ by decide), rfl, rfl, ?_, ?_⟩,
    ⟨rk0 64, by decide⟩, fun n hn x cs e => items n hn x cs e, ⟨by decide +kernel, by decide +kernel, by decide +kernel, fun m => ?_, by decide +kernel, by decide +kernel,
      by decide +kernel, rfl, rfl, by decide +kernel, fun x => (localB rfl (dieB x [] 0)).direct (by decide)⟩,
    fun a _ => ⟨rfl, rfl, rfl, ?_, fun _ h => (List.not_mem_nil h).elim⟩, ⟨by decide, (localC (by decide) rfl (dieTid _ _)).direct (by decide),
      ⟨by decide, by decide +kernel⟩, ?_, (localC (by decide) rfl (dieTid _ _)).direct (by decide), by decide, ?_⟩, by decide, ?_⟩
  · exact ⟨_, addrW i hi 0 (by decide), by omega, by omega⟩
  · by_cases h : crc9 = 0
    · exact ⟨1, by decide, by omega⟩
    · exact ⟨0, by decide, fun e => h e.symm⟩
  · revert x e cs; decide +kernel
  · revert x e cs; decide +kernel
  · clear hc he; revert x; decide +kernel
  · rw [destinations_zeros, List.filter_eq_self.mpr (by simp), List.length_replicate]
    decide +kernel
  · cases a <;> rfl
  · exact (localC (by decide) rfl (dieTid _ _)).reads (by decide) (by decide +kernel)
  · exact (localC (by decide) rfl (dieTid _ _)).reads (by decide) (by decide +kernel)
  · exact ⟨by unfold RinkOk; decide, by unfold RinkOk; decide, by decide +kernel⟩

/-! ## Witnesses: mailboxes -/

/-- The argument bytes that a command uses. -/
def mailArgs : Nat → List (Nat × Nat)
  | 1 => [(8, 44)] | 2 => [(8, 18)] | 3 => [(8, 2)] | 4 => [(8, 8)] | 5 => [(8, 8)] | 6 => [(8, 1)] | 7 => [(8, 16)] | 8 => [(8, 9)]
  | 9 => [] | 10 => [(8, 17)] | _ => [(8, 40)]

theorem args_of {fn op : Nat} {i : Instr} {bs : List (Nat × Nat)} (h : IsMail fn op i bs) : bs = mailArgs op := by
  rcases h with ⟨rfl, _, rfl⟩ | ⟨rfl, _, rfl⟩ | ⟨rfl, _, rfl⟩ | ⟨rfl, _, rfl⟩ | ⟨rfl, _, rfl⟩ | ⟨rfl, _, rfl⟩ | ⟨rfl, _, rfl⟩ |
    ⟨rfl, _, rfl⟩ | ⟨rfl, _, rfl⟩ | ⟨rfl, _, rfl⟩ | ⟨rfl, _, rfl⟩ <;> rfl

/-- Function 0's window with the command `x` in its buffer, submitted. -/
def mailV (x : Nat) : Vi :=
  { fn := 0, window := Memory.writeNat (Memory.writeNat [] 0x100 64 x) 0x140 4 1, sub := true, evq := some (0x6000, 0x7000, 4, 0), recs := [{ kind := 0x82 }] }
def mail (b : State) (x : Nat) : State := { b with vis := [mailV x], queues := [queue0] }
/-- A module with nothing in progress, and one with a launch. -/
def restS (x : Nat) : State := mail (LS []) x
def busyS (x : Nat) : State := mail (GW waveH gang0 { launch0 with queue := some 20, placed := false }) x

/-- What a test of a command's words decides. -/
def wordsOk (op x : Nat) : Bool :=
  x == Memory.readNat (mailV x).window 0x100 64 && nfld x 0 2 == op
def argsOk (op x : Nat) : Bool :=
  nfld x 2 2 != 0 && (List.range 56).all fun j => (mailArgs op).any (fun r => r.1 ≤ 8 + j && 8 + j < r.1 + r.2) || nfld x (8 + j) 1 == 0

theorem submitted {b : State} {op x : Nat} {i : Instr} (hm : IsMail 0 op i (mailArgs op)) (hb : b.stage = 6) (hw : wordsOk op x = true) :
    Submitted (mail b x) 0 op i (mailV x) x := by
  simp only [wordsOk, Bool.and_eq_true, beq_iff_eq] at hw
  exact ⟨⟨_, hm⟩, rfl, hb, .inr ⟨rfl, rfl, hw.1⟩, hw.2⟩

theorem formed {op x : Nat} (h : argsOk op x = true) : Formed 0 op x := by
  simp only [argsOk, Bool.and_eq_true, bne_iff_ne, List.all_eq_true, List.mem_range, Bool.or_eq_true, beq_iff_eq, List.any_eq_true,
    decide_eq_true_eq] at h
  refine ⟨h.1, fun i bs hm j hj hr => ?_⟩
  rw [args_of hm] at hr
  rcases h.2 j hj with ⟨r, h1, h2⟩ | h
  · exact absurd h2 (hr r h1)
  · exact h

theorem command {op x : Nat} {i : Instr} (hm : IsMail 0 op i (mailArgs op)) (hw : wordsOk op x = true) (ha : argsOk op x = true) :
    ∀ b : State, b.stage = 6 → Command (mail b x) 0 op i (mailV x) x := fun _ hb => ⟨submitted hm hb hw, formed ha⟩

/-- A command's head: opcode, tag 1, context 0 or none. -/
def cmd0 (op : Nat) : Nat := op + 2 ^ 16
def cmdN (op : Nat) : Nat := cmd0 op + 0xFFFFFFFF * 2 ^ 32
/-- One command of each opcode. -/
def commands : List (Nat × Nat) :=
  [(1, cmd0 1 + 0x8000 * 2 ^ 64), (1, cmdN 1 + 0x8000 * 2 ^ 64), (2, cmd0 2 + 0x6000 * 2 ^ 64 + 0x7000 * 2 ^ 128 + 4 * 2 ^ 192), (3, cmdN 3),
    (4, cmd0 4 + 0x4000 * 2 ^ 64), (5, cmd0 5 + 0x4000 * 2 ^ 64), (6, cmdN 6 + 20 * 2 ^ 64), (6, cmdN 6 + 41 * 2 ^ 64), (7, cmd0 7 + 0x8000 * 2 ^ 64),
    (8, cmd0 8), (8, cmd0 8 + 2 ^ 128), (9, cmdN 9), (10, cmdN 10 + 0x6000 * 2 ^ 64 + 0x7000 * 2 ^ 128 + 4 * 2 ^ 192), (11, cmdN 11 + 0x4000 * 2 ^ 320)]

theorem isMail : ∀ op, 1 ≤ op → op ≤ 11 → ∃ i, IsMail 0 op i (mailArgs op) := by
  intro op h1 h2
  obtain rfl | rfl | rfl | rfl | rfl | rfl | rfl | rfl | rfl | rfl | rfl :
    op = 1 ∨ op = 2 ∨ op = 3 ∨ op = 4 ∨ op = 5 ∨ op = 6 ∨ op = 7 ∨ op = 8 ∨ op = 9 ∨ op = 10 ∨ op = 11 := by omega
  all_goals simp [IsMail, mailArgs]
theorem isMail1 : IsMail 0 1 (.setContext 0) (mailArgs 1) := .inl ⟨rfl, rfl, rfl⟩
theorem isMail4 : IsMail 0 4 (.regPredictor 0) (mailArgs 4) := .inr (.inr (.inr (.inl ⟨rfl, rfl, rfl⟩)))

theorem names {x : Nat} {b : State} (h : nfld x 4 4 = 0) (hc : b.ctxs = [{ id := 0, fn := 0, root := 0x8000 }]) :
    Names (mail b x) 0 x { id := 0, fn := 0, root := 0x8000 } := by
  refine ⟨by rw [h]; decide, ?_, rfl, rfl⟩
  rw [h, State.ctx?, mail, hc]; rfl

/-- A command under way. -/
def begunV : Vi := { mailV 0 with cmd := some 0x10007, sub := false }
/-- A TLB invalidation under way, and an access of its context that is not done. -/
def invS (f : List Fill) : State :=
  { mail (GW wave0 gang0 launch0) 0 with vis := [begunV], tlbInvs := [{ fn := 0, tag := 1, ctx := 0, base := 0x8000, len := 0 }], fills := f }

theorem wit_MailboxCommands :
    (Submitted (restS 1) 0 1 (.setContext 0) (mailV 1) 1 ∧ ¬Formed 0 1 1) ∧
    (Command (restS (cmd0 4 + 7 * 2 ^ 32)) 0 4 (.regPredictor 0) (mailV (cmd0 4 + 7 * 2 ^ 32)) (cmd0 4 + 7 * 2 ^ 32) ∧
      (restS (cmd0 4 + 7 * 2 ^ 32)).ctx? (nfld (cmd0 4 + 7 * 2 ^ 32) 4 4) = none) ∧
    (Command (mail { LS [] with ctxs := [{ outC with lost := true }] } (cmd0 4)) 0 4 (.regPredictor 0) (mailV (cmd0 4)) (cmd0 4) ∧
      (mail { LS [] with ctxs := [{ outC with lost := true }] } (cmd0 4)).ctx? (nfld (cmd0 4) 4 4) = some { outC with lost := true }) ∧
    (Command (restS (cmdN 4)) 0 4 (.regPredictor 0) (mailV (cmdN 4)) (cmdN 4) ∧ Unnamed (cmdN 4)) ∧
    (∃ v, State.reset.vi? 0 = some v ∧ ∀ x, ¬Stored v x) ∧
    (Stored (mailV 0) 0 ∧ nfld 0 0 2 = 0 ∧ Stored (mailV 12) 12 ∧ nfld 12 0 2 = 12) ∧
    (∀ p ∈ commands, ∃ i, IsMail 0 p.1 i (mailArgs p.1) ∧ ∀ b : State, b.stage = 6 → Command (mail b p.2) 0 p.1 i (mailV p.2) p.2) ∧
    (∀ p ∈ commands, Unnamed p.2 ∨ ∀ b : State, b.ctxs = [{ id := 0, fn := 0, root := 0x8000 }] →
      Names (mail b p.2) 0 p.2 { id := 0, fn := 0, root := 0x8000 }) ∧
    (∀ x, (∀ l ∈ (restS x).launches, l.ctx ≠ 0) ∧ (∃ l ∈ (busyS x).launches, l.ctx = 0 ∧ l.noRerun = false ∧ l.queue = some 20 ∧ l.begun = false) ∧
      (restS x).stage = 6 ∧ (busyS x).stage = 6 ∧ (∃ p, (restS x).part? (mailV x).part = some p) ∧
      (restS x).queues.find? (fun q => q.fn == 0 && q.num == 0) = some queue0 ∧ (∃ q ∈ (restS x).queues, q.fn = 0 ∧ q.num = 0) ∧
      (∀ q ∈ (restS x).queues, ¬(q.fn = 0 ∧ q.num = 1)) ∧ (∀ j ∈ (restS x).tlbInvs, j.fn ≠ 0) ∧ (∃ j ∈ (invS []).tlbInvs, j.fn = 0) ∧
      gang0.st = .live ∧ (busyS x).commitsDone gang0 = true ∧ (waveH.thread 0).todo = [] ∧
      (busyS x).gang? 2 = some gang0 ∧ WaitsOn (busyS x) 2 0 ∧ gang0.preempt = false ∧ (busyS x).waves.Pairwise (fun a b => a.id ≠ b.id)) ∧
    ((∀ j < 4096, (restS 0).frameOk (0x4000 + j) = true) ∧ (restS 0).life ≠ .ret ∧ HostUncached (restS 0)) ∧
    (((invS []).ctxClear 0 = true ∧ (invS []).vi? 0 = some begunV ∧ begunV.cmd = some 0x10007) ∧
      (invS [{ id := 9, sector := 0, core := 0, line := 1, fillSect := true, deps := [], waiters := [{ wave := 3, lanes := laneBit 0, pid := 8, off := 0, width := .b32, fillL1 := true, last := false, acq := none }] }]).ctxClear 0 = false) ∧
    ((restS 0).link = true ∧ (restS 0).vi? 0 = some (mailV 0) ∧ (mailV 0).evq = some (0x6000, 0x7000, 4, 0) ∧ (mailV 0).recs = [{ kind := 0x82 }] ∧
      ¬2 ^ 4 ≤ (0 + 2 ^ 64 - (restS 0).home64 (0x6000 + 64)) % 2 ^ 64) := by
  have hc : ∀ p ∈ commands, 1 ≤ p.1 ∧ p.1 ≤ 11 ∧ wordsOk p.1 p.2 = true ∧ argsOk p.1 p.2 = true := by decide +kernel
  have hn : ∀ p ∈ commands, nfld p.2 4 4 = 0xFFFFFFFF ∨ nfld p.2 4 4 = 0 := by decide +kernel
  have hm : ∀ x b, wordsOk 4 x = true → argsOk 4 x = true → b.stage = 6 → Command (mail b x) 0 4 (.regPredictor 0) (mailV x) x :=
    fun x b hw ha hb => command isMail4 hw ha b hb
  refine ⟨⟨submitted isMail1 rfl (by decide +kernel), fun h => h.tag (by decide +kernel)⟩,
    ⟨hm _ _ (by decide +kernel) (by decide +kernel) rfl, by decide +kernel⟩, ⟨hm _ _ (by decide +kernel) (by decide +kernel) rfl, by decide +kernel⟩,
    ⟨hm _ _ (by decide +kernel) (by decide +kernel) rfl, by unfold Unnamed; decide +kernel⟩, ⟨_, rfl, fun x h => ?_⟩, ⟨.inr ⟨rfl, rfl, by decide +kernel⟩, by decide +kernel, .inr ⟨rfl, rfl, by decide +kernel⟩, by decide +kernel⟩,
    fun p hp => (isMail p.1 (hc p hp).1 (hc p hp).2.1).imp fun i h => ⟨h, command h (hc p hp).2.2.1 (hc p hp).2.2.2⟩,
    fun p hp => (hn p hp).imp id fun h b hb => names h hb, fun x => ⟨fun l hl => (List.not_mem_nil hl).elim, ⟨_, List.mem_singleton.mpr rfl, rfl, rfl, rfl, by decide +kernel⟩, rfl, rfl, ⟨_, rfl⟩, rfl,
      ⟨queue0, List.mem_singleton.mpr rfl, rfl, rfl⟩, fun q hq => ?_, fun j hj => (List.not_mem_nil hj).elim, ⟨_, List.mem_singleton.mpr rfl, rfl⟩, rfl, ?_, rfl, rfl, ?_, rfl, List.pairwise_singleton _ _⟩,
    ⟨fun j hj => ?_, by decide +kernel, fun _ h => (List.not_mem_nil h).elim⟩, ⟨⟨by decide +kernel, rfl, rfl⟩, by decide +kernel⟩, rfl, rfl, rfl, rfl, by decide +kernel⟩
  · rcases h with ⟨y, h, _⟩ | ⟨_, h, _⟩ <;> cases h
  · rw [List.mem_singleton.mp (show q ∈ [queue0] from hq)]; decide
  · show (mail (GW waveH gang0 { launch0 with queue := some 20, placed := false }) x).commitsDone gang0 = true
    rfl
  · exact ⟨waveH, List.mem_singleton.mpr rfl, rfl, 0, by decide +kernel, none, rfl⟩
  · exact Plain.frame (s := restS 0) ⟨rfl, rfl, rfl, cov0 rfl, by decide +kernel⟩ (by omega)

/-! ## Witnesses: reliability, issue and the whole machine -/

/-- R389: a reset wipes a byte of device memory and keeps one of the host's. -/
theorem test_resetKeepsHost : (State.resetModule { S with mem := [(0x10, 1), (2 ^ 49 + 1, 2)] }).mem = [(2 ^ 49 + 1, 2)] := by decide

/-- R387: no wave of a core that has not been swept is a candidate of its track. -/
theorem test_unswept : (State.scans { S with unswept := [0] } 0).isEmpty = true ∧ (State.scans S 0).isEmpty = false := by decide +kernel

theorem wit_ReliabilityEvents :
    (3 ∉ (GW wave0 gang0 launch0).deadClusters ∧ (GW wave0 gang0 launch0).gang? 2 = some gang0 ∧ gang0.st = .live ∧
      gang0.place.isSome = true ∧ gang0.cluster = 0 ∧ gang0.die = 0 ∧ 3 / 8 ∉ (GW wave0 gang0 launch0).spareSectors ∧
      3 / 8 ∈ { GW wave0 gang0 launch0 with spareSectors := [0] }.spareSectors ∧ (∃ x ∈ (GW wave0 gang0 launch0).dies, x.id = 0) ∧
      (GW wave0 gang0 launch0).commitsDone gang0 = true ∧
      ({ GW wave0 gang0 versioned0 with flows := [pubFlow (.writes [])] } : State).commitsDone gang0 = false ∧ gang0.due = none ∧
      (GW wave0 gang0 launch0).gangs.Pairwise fun x y => x.id ≠ y.id) ∧
    ((restS 0).deviceFrame (2 ^ 15 * 1) = true ∧ (restS 0).deviceFrame (2 ^ 15 * 2) = true ∧ (restS 0).vi? 0 = some (mailV 0) ∧
      (mailV 0).evq.isSome = true) ∧
    ((LS []).link = true ∧ { LS [] with link := false }.link = false) ∧
    ((∃ d ∈ (LS []).dies, d.withdrawn = false) ∧ (LS []).keysErased = false ∧ { LS [] with keysErased := true }.keysErased = true) ∧
    ((restS 0).alarm = 0 ∧ ((restS 0).vis.map (·.fn)).Nodup ∧ { LS [] with alarm := 1 }.alarm = 1 ∧ { LS [] with alarm := 2 }.alarm = 2) ∧
    (LS []).life = .production :=
  ⟨⟨by decide, rfl, rfl, rfl, rfl, rfl, by decide, by decide, by decide, by decide, by decide, rfl, List.pairwise_singleton _ _⟩,
    ⟨by decide +kernel, by decide +kernel, rfl, rfl⟩, ⟨rfl, rfl⟩, ⟨by decide, rfl, rfl⟩, ⟨rfl, by decide, rfl, rfl⟩, rfl⟩

/-- The wave's next word is NOP, alone in its chain; the next input is a cycle of its track. -/
def nopS : State := { GW wave0 gang0 launch0 with mem := [(0x8000, 0x1F), (0x10007, 1)], inputs := [.track 0] }
/-- It, as the track's cycle begins. -/
def nopNext : State := (State.lateTrack { nopS with cycle := nopS.cycle + 1, inputs := [] } 0).leaveTrack 0
/-- Does the choice of R229 find a wave, its candidate a word, and the word a form that ends its chain? -/
def chosenOk (s : State) (tk : Nat) : Bool :=
  match s.choose ((s.scans tk).filter fun y => y.pick.isSome) with
  | none => false
  | some x => match x.pick with
    | none => false
    | some c => match s.fetchWord x.wave c.pc with
      | .error _ => false
      | .ok w => !w.getLsbD 31 && (decodeSlot w).isSome

/-- A track of the groomer's wave, one of whose requests is queued; no wave of a launch is on it. -/
def groomTk : Nat := 32 * (Config.groomHash 1 % 16) + 7
def SGroom : State := { LS [] with groom := [req0 9 0x40] }

theorem groomer_turn (s : State) (hw : s.waves = []) (hg : s.groom = [req0 9 0x40]) (hq : s.groomWaits = []) :
    let s1 := (s.lateTrack groomTk).leaveTrack groomTk
    s1.groomerTurn groomTk ((s1.scans groomTk).filter fun y => y.pick.isSome) = true := by
  have e : (s.lateTrack groomTk).leaveTrack groomTk = s := by
    simp [State.lateTrack, State.leaveTrack, State.settleTracks, State.xacqs, State.testGrants, State.servable, State.nextXacq, firstXacq, hw]
  have ht : isGroomerTrack groomTk = true ∧ groomTk / 512 = 0 ∧ groomTk / 32 % 16 = Config.groomHash 1 % 16 := by
    unfold isGroomerTrack groomTk
    refine ⟨beq_iff_eq.mpr ?_, ?_, ?_⟩ <;> omega
  simp [e, State.scans, State.trackWaves, hw, State.groomerTurn, State.groomerOn, ht, hg, hq, req0, State.oldest]
  exact ⟨by decide, rfl⟩

theorem of_chosen {s : State} {tk : Nat} (h : chosenOk s tk = true) :
    ∃ x c word sl, s.choose ((s.scans tk).filter fun y => y.pick.isSome) = some x ∧ x.pick = some c ∧
      s.fetchWord x.wave c.pc = .ok word ∧ word.getLsbD 31 = false ∧ decodeSlot word = some sl := by
  unfold chosenOk at h
  split at h
  · cases h
  · split at h
    · cases h
    · split at h
      · cases h
      · rename_i x hx _ c hc _ w hw
        simp only [Bool.and_eq_true, Bool.not_eq_true', Option.isSome_iff_exists] at h
        obtain ⟨h1, sl, h2⟩ := h
        exact ⟨x, c, w, sl, hx, hc, hw, h1, h2⟩

theorem wit_StepRunsWord :
    (nopS.forced = none ∧ nopS.inputs = [.track 0] ∧ WaveIds nopS ∧
      nopNext.groomerTurn 0 ((nopNext.scans 0).filter fun y => y.pick.isSome) = false ∧
      ∃ x c word sl, nopNext.choose ((nopNext.scans 0).filter fun y => y.pick.isSome) = some x ∧ x.pick = some c ∧
        nopNext.fetchWord x.wave c.pc = .ok word ∧ word.getLsbD 31 = false ∧ decodeSlot word = some sl) ∧
    { nopS with inputs := [.event .hostLinkDown] }.inputs = [.event .hostLinkDown] ∧ ¬IsWord .hostLinkDown :=
  ⟨⟨rfl, rfl, List.pairwise_singleton _ _, by decide +kernel, of_chosen (by decide +kernel)⟩, rfl, by unfold IsWord; decide⟩

theorem wit_StepKeepsMemory : MemOk nopS := ⟨by decide, by decide⟩

theorem wit_RoundTrip : (Instr.add (.v 7) (.v 7) (.v 8)).wellFormed = true ∧ IsWord (.add (.v 7) (.v 7) (.v 8)) ∧
    ∃ sl, decodeSlot 0x01000000 = some sl := ⟨by decide, by unfold IsWord; decide, _, rfl⟩

theorem wit_DecodeWords : ∃ i w, (i, w) ∈ decodeSamples := ⟨_, _, List.mem_cons_self⟩

/-- Two groups of a wave, lanes 0 and 1, the second with a count; the wave's lead is lane 0. -/
def groupA (ready : LaneMask) : Cand := { pc := 0x10004, lanes := 1, ready, count := 0, chain := .ok [] }
def groupB (n : Nat) : Cand := { pc := 0x10008, lanes := 2, ready := 2, count := n, chain := .ok [] }
def waveG (prog yg : Bool) : Wave := { wave0 with prog, yieldGrp := yg }
def scan0 (w : Wave) (n : Nat) : Scan := scanOf w [groupA 1, groupB n]

theorem wit_IssueOrder :
    ((∃ c, (scan0 (waveG true false) 0).pick = some c) ∧ (∃ c ∈ [groupA 1, groupB 0], c.lanes &&& (waveG true false).lead ≠ 0) ∧
      (waveG false false).prog = false ∧ (∀ n, (scan0 (waveG true true) n).lead = some (groupA 1)) ∧
      (OtherReady [groupA 1, groupB 255] (groupA 1) (groupB 255) ∧ 255 ≤ (groupB 255).count) ∧
      (∀ c, OtherReady [groupA 1, groupB 254] (groupA 1) c → c.count < 255) ∧ OtherReady [groupA 1, groupB 254] (groupA 1) (groupB 254) ∧
      ∀ c, ¬OtherReady [groupA 1] (groupA 1) c) ∧
    (∀ v w : Wave, v.id ≠ w.id → ([scan0 v 0, scan0 w 0].Pairwise fun x y => x.wave.id ≠ y.wave.id) ∧ [scan0 v 0, scan0 w 0] ≠ []) ∧
    ((scan0 (waveG true false) 255).due.isSome = true ∧ (scan0 (waveG true false) 0).due = none ∧
      64 ≤ (scan0 { waveG true false with wait := 64 } 0).wave.wait ∧ (scan0 { waveG true false with wait := 63 } 0).wave.wait < 64 ∧
      (scan0 { waveG true false with yieldTrk := true } 0).wave.yieldTrk = true ∧
      OtherReady (scan0 { waveG true false with yieldTrk := true } 0).cands (groupA 1) (groupB 0)) ∧
    (WaveIds (GW waveH gang0 launch0) ∧ ∀ x ∈ (((GW waveH gang0 launch0).lateTrack 0).leaveTrack 0).scans 0, x.pick = none) ∧
    (WaveIds SGroom ∧ let s1 := (SGroom.lateTrack groomTk).leaveTrack groomTk
      s1.groomerTurn groomTk ((s1.scans groomTk).filter fun y => y.pick.isSome) = true) := by
  have hw : ∀ w n, (scan0 w n).wave = w := fun w n => by unfold scan0 scanOf; dsimp only; repeat' (split <;> try rfl)
  refine ⟨⟨⟨_, rfl⟩, ⟨groupA 1, by simp, by decide⟩, rfl, fun n => ?_, ⟨⟨by simp, by decide, by decide⟩, by decide⟩, fun c hc => ?_,
      ⟨by simp, by decide, by decide⟩, fun c hc => ?_⟩, fun v w h => ⟨by simp [hw, h], by simp⟩,
    ⟨rfl, rfl, by rw [hw], by rw [hw]; decide, by rw [hw], ?_⟩, ⟨List.pairwise_singleton _ _, ?_⟩, List.Pairwise.nil, groomer_turn _ rfl rfl rfl⟩
  · unfold scan0 scanOf; dsimp only; repeat' (split <;> try rfl)
  · obtain ⟨h, h1, _⟩ := hc
    simp only [List.mem_cons, List.not_mem_nil, or_false] at h
    rcases h with rfl | rfl
    · exact absurd rfl h1
    · decide
  · obtain ⟨h, h1, _⟩ := hc
    simp only [List.mem_cons, List.not_mem_nil, or_false] at h
    exact h1 (by rw [h])
  · exact ⟨.tail _ (.head _), by decide, by decide⟩
  · have h : ((((GW waveH gang0 launch0).lateTrack 0).leaveTrack 0).scans 0).all (fun x => x.pick.isNone) = true := by decide +kernel
    intro x hx
    simpa using List.all_eq_true.mp h x hx

/-! ## Witnesses: poison, errors, groups of several threads -/

/-- A result that is poisoned. -/
def badPend : Pending := { pend0 with bad := true }
def badWave : Wave := { waiting0 with pend := [badPend] }

theorem wit_ResultLandingPoison :
    (world badWave gang0 launch0).wave? 3 = some badWave ∧
      badWave.pend.find? (fun q => q.id == badPend.id && (world badWave gang0 launch0).mayLand q) = some badPend ∧ badPend.bad = true ∧
      (world badWave gang0 launch0).gang? badWave.gang = some gang0 ∧ gang0.st = .live ∧
      (world badWave gang0 launch0).commitsDone gang0 = true := ⟨rfl, rfl, rfl, rfl, rfl, by decide⟩

/-- The small machine with an error that ECC corrects in word 0, and function 0's event ring. -/
def SErr : State := { S with softErrs := [(0, 0)], vis := [{ fn := 0, evq := some (0x6000, 0x7000, 4, 0) }] }

theorem wit_LoadErrors :
    Runs SErr (.ld .b32 (.v 95) (.v 0) .sys .acqrel .dflt) ∧
    (∃ d ea, loadForm SErr wave0 (.ld .b32 (.v 95) (.v 0) .sys .acqrel .dflt) = some (.b32, d, ea, .sys, .acqrel, .dflt) ∧
      (∀ l, C.lanes.getLsbD l = true → LoadGoes SErr wave0 l .b32 (ea l) .sys .acqrel) ∧
      ∃ l ∈ lanesFor d C, SErr.access wave0 .read (ea l) 4 = .ok 0 ∧ 0 < 4 * 0 + 4) ∧
    (∃ v, SErr.vi? 0 = some v ∧ v.evq = some (0x6000, 0x7000, 4, 0)) ∧ SErr.ringFull (0x6000, 0x7000, 4, 0) = false :=
  ⟨runs_of (by decide) rfl rfl (by decide) (by decide),
    ⟨_, _, rfl, fun l h => by rw [lane0 h]; exact ⟨0, by decide +kernel, by decide, by decide, ordered _ _ _ _ (by decide) rfl⟩,
      by decide +kernel⟩, ⟨_, rfl, rfl⟩, by decide +kernel⟩

/-- A byte store to a line that its sector cache does not hold waits for a merging fill. -/
theorem wit_HeldStore :
    (∃ d a ea, storeForm S wave0 (.sto .b8 (.v 92) (.v 0) 0) = some (.b8, d, a, ea, .wave, .plain, .dflt) ∧
      (∀ l, C.lanes.getLsbD l = true → StoreGoes S wave0 l .b8 (ea l) .wave .plain) ∧
      ∀ l ∈ lanesOnce d a C, S.access wave0 .write (ea l) 1 = .ok 0) ∧
    Ready (.sto .b8 (.v 92) (.v 0) 0) ∧ S.partStore wave0.core .dflt (lineWrite 0 1 0) = true ∧
    (∀ f ∈ S.fills, ∀ x ∈ f.stores, x.id < S.nextId) ∧ (S.sect.filter fun x => x.sector == coreSector wave0.core).length ≤ sectLines :=
  ⟨⟨_, _, _, rfl, fun l h => by rw [lane0 h]; exact ⟨0, by decide +kernel, by decide, by decide, ordered _ _ _ _ (by decide) rfl, by decide⟩,
    by decide +kernel⟩, ready (by decide) (by decide) (by decide), by decide +kernel, by decide, by decide +kernel⟩

/-- Lanes 0 and 1 issue; the gang's scratchpad has a poisoned word. -/
def two (w : Wave) : Issue := { issue0 w with lanes := 3 }
def gangBad : Gang := { gang0 with spadPoison := [0] }
def W2 (g : Gang) : State := { world wave0 g launch0 with cur := some (two wave0) }

theorem iss2 (g : Gang) : Issuing (W2 g) (two wave0) wave0 where
  cur := rfl
  wave := rfl
  single := rfl
  lanes := (by decide : (3 : LaneMask) ≠ 0)
  runs l h := by
    have : ∀ l < 32, (3 : LaneMask).getLsbD l = true → (wave0.thread l).st = .run := by decide
    rcases Nat.lt_or_ge l 32 with hl | hl
    · exact this l hl h
    · rw [BitVec.getLsbD_of_ge _ _ hl] at h; cases h

theorem lanes2 {l : Nat} (h : (two wave0).lanes.getLsbD l = true) : l = 0 ∨ l = 1 := by
  have : ∀ l < 32, (3 : LaneMask).getLsbD l = true → l = 0 ∨ l = 1 := by decide
  rcases Nat.lt_or_ge l 32 with hl | hl
  · exact this l hl h
  · rw [BitVec.getLsbD_of_ge _ _ hl] at h; cases h

theorem goes2 (g : Gang) (n a : Nat) (p : Scope) (h : ∀ l ∈ [(0 : Nat), 1], SpadGoes (W2 g) wave0 l n a p .plain) :
    ∀ l, (two wave0).lanes.getLsbD l = true → SpadGoes (W2 g) wave0 l n a p .plain := fun l hl =>
  h l (by rcases lanes2 hl with rfl | rfl <;> simp)

theorem noFe2 (g : Gang) : NoFeWait (W2 g) 2 := noFeOf (show ∀ v ∈ [wave0], _ by decide)

theorem spadGoes2 : ∀ g ∈ [gang0, gangFull, gangBad], ∀ l ∈ [(0 : Nat), 1], SpadGoes (W2 g) wave0 l 4 0 .gang .plain := by
  intro g hg l hl
  exact ⟨by revert g l; decide, by revert g l; decide, fun _ => by revert g l; decide, fun _ => by revert g l; decide⟩

theorem wit_ScratchpadGroups :
    (∀ i ∈ [Instr.ldsp .b32 (.v 94) (.v 0) .gang .plain .plain, .ldsp .b32 (.v 94) (.v 0) .gang .plain .waittake,
        .ldsp .b32 (.s 0) (.s 1) .gang .plain .waitkeep, .stsp .b32 (.v 94) (.v 0) .gang .plain .waitfill,
        .stsp .b32 (.s 0) (.s 1) .gang .plain .waitfill, .atomsp .add .b32 (.v 94) (.v 0) .gang true],
      i.wellFormed = true ∧ illReg i wave0 = false) ∧
    (∀ g ∈ [gang0, gangFull, gangBad], Issuing (W2 g) (two wave0) wave0 ∧ (W2 g).gang? wave0.gang = some g ∧ NoFeWait (W2 g) wave0.gang ∧
      g.st = .live ∧ (W2 g).commitsDone g = true ∧ ∀ l, (two wave0).lanes.getLsbD l = true → SpadGoes (W2 g) wave0 l 4 0 .gang .plain) ∧
    (∀ g ∈ [gang0, gangFull, gangBad], ∀ l ∈ [0, 1], rd (W2 g) wave0 l (.v 0) = 0 ∧ rd (W2 g) wave0 l (.s 1) = 0) ∧
    gangBad.spadBad 0 4 = true ∧ gang0.spadBad 0 4 = false ∧ gangFull.spadBad 0 4 = false ∧ ¬AllFull gang0 0 4 ∧ ¬AllEmpty gangFull 0 4 ∧
    loadTurns true 4 (fun _ => 0) gangFull.full (lanesOf (two wave0).lanes) = ([0], []) ∧
    storeTurns 4 (fun _ => 0) gang0.full (lanesOf (two wave0).lanes) = [0] ∧ (two wave0).lanes ≠ laneBit 0 :=
  ⟨by decide, fun g hg => ⟨iss2 g, by revert g; decide, noFe2 g, by revert g; decide, by revert g; decide, goes2 g 4 0 .gang (spadGoes2 g hg)⟩,
    by decide, by decide, by decide, by decide, fun h => by simpa [gang0] using h 0 (by omega) (by omega),
    fun h => h 0 (by omega) (by omega) (by simp [gangFull]), by decide +kernel, by decide +kernel, by decide⟩

/-- A tile with poisoned words at logical number 0. -/
def SBadT : State := { SQ 0 with tiles := [{ tile0 with poison := [0] }] }
theorem idleB : Idle SBadT wave0 (tq 0) :=
  { idle with tiles := fun y hy => by obtain rfl := List.mem_singleton.mp (show y ∈ [{ tile0 with poison := [0] }] from hy); decide }

theorem wit_AccumulatorPoison :
    Idle SBadT wave0 (tq 0) ∧ Runs SBadT (.accrd (.v 95) (.v 0)) ∧ (∀ q ∈ wave0.pend, q.id < SBadT.nextId) ∧
    (∀ l ∈ lanesFor (.v 95) C, Named SBadT (tq 0) ((rd SBadT wave0 l (.v 0)).toNat / 2 ^ 10 % 256) 5) ∧
    (∃ l ∈ lanesFor (.v 95) C, SBadT.wordBad (tq 0).cluster 5 ((rd SBadT wave0 l (.v 0)).toNat % 2 ^ 10) = true) ∧
    (∀ l ∈ lanesFor (.v 95) C, (SQ 0).wordBad (tq 0).cluster 5 ((rd (SQ 0) wave0 l (.v 0)).toNat % 2 ^ 10) = false) ∧
    ((SP [] []).window gang0 ((rd (SP [] []) wave0 0 (.s 0)).toNat % 256) = none ∧ (∀ rs, Idle (SP [] rs) wave1 gang0) ∧
      Allowed (SP [] []) (.accz (.s 0) 0) wave1 ∧ ∃ p < 256, (SP [] []).tile? gang0.cluster p = none) :=
  ⟨idleB, runs_of (by decide) rfl rfl (by decide) (by decide), by decide, fun l h => by
      obtain rfl : l = 0 := (by decide : ∀ l ∈ lanesFor (.v 95) C, l = 0) l h
      exact ⟨{ tile0 with poison := [0] }, rfl, rfl, rfl⟩, by decide +kernel, by decide +kernel,
    rfl, fun rs => idleP rs (by decide), ⟨by decide, by decide⟩, 0, by decide, rfl⟩

/-- The gang with a record of an engine command whose first word is poisoned. -/
def tqBad : Gang := { tq 63 with spadPoison := [0] }
def SBadQ : State := { SQ 63 with gangs := [tqBad] }
theorem quietB : Quiet SBadQ wave0 tqBad :=
  { quiet 63 with
    gang := rfl
    ver := rfl
    acc := fun x hx d hd => by
      obtain rfl := List.mem_singleton.mp (show x ∈ [tqBad] from hx)
      rw [List.eq_of_mem_replicate (show d ∈ List.replicate 63 task0 from hd)]; rfl }

theorem wit_RecordPoison :
    Quiet SBadQ wave0 tqBad ∧ Runs SBadQ (.tqadd (.s 0)) ∧ RecordAt SBadQ tqBad (rd SBadQ wave0 0 (.s 0)).toNat 64 64 ∧
    Runs SBadQ (.dqry (.s 0)) ∧ tqBad.spadBad (rd SBadQ wave0 0 (.s 0)).toNat 64 = true ∧ tqBad.st = .live ∧
    SBadQ.commitsDone tqBad = true ∧ (tq 63).spadBad 0 64 = false ∧
    (Runs { STid with gangs := [gangBad] } (.bingo (.s 0)) ∧ State.versioned { STid with gangs := [gangBad] } gangBad = false ∧
      RecordAt { STid with gangs := [gangBad] } gangBad 0 16 (32 + 16 * Memory.readNat gangBad.spad 16 2) ∧
      gangBad.spadBad 0 32 = true ∧ gangBad.st = .live ∧ gang0.spadBad 0 32 = false) :=
  ⟨quietB, runs_of (by decide) rfl rfl (by decide) (by decide), ⟨by decide, by decide⟩, runs_of (by decide) rfl rfl (by decide) (by decide),
    by decide, rfl, by decide, by decide, runs_of (by decide) rfl rfl (by decide) (by decide), rfl, ⟨by decide, by decide⟩, by decide, rfl, by decide⟩

/-! ## Witnesses: events with the state that they may meet -/

/-- A gang whose only command, on the accumulator, waits for a tile: every tile of its cluster is another gang's. -/
def tileCmdW : TileCmd := { seq := 7, kind := .accz, pc := 0x10004, foot := [256] }
def gangW : Gang := { gang0 with tileQ := [tileCmdW] }
def SWait : State :=
  { GW waveE gangW launch0 with tiles := (List.range 256).map fun p => { cluster := 0, phys := p, ctx := 0, st := .gangOwned 7 p } }
/-- A core that has not been swept, with a granted register in error. -/
def SSweep : State := { GW wave0 gang0 launch0 with unswept := [0], regPoison := [(3, 0, 5)] }
/-- Lanes 30 and 31 wait in trap entry, at words of their own; a result of lane 30 is outstanding. -/
def entering2 : Wave :=
  { trapWave with threads := List.replicate 30 { pc := 0x10004 } ++
      [{ pc := 0x10008, st := .held (.entry { trap0 with pc := 0x10008 } none) }, { pc := 0x10004, st := .held (.entry trap0 none) }]
                  pend := [{ pend0 with lane := some 30, lanes := laneBit 30 }] }

theorem wit_ThreadEventsMore :
    (SWait.gang? 2 = some gangW ∧ SWait.gangOn gangW = true ∧ (∃ d ∈ gangW.tileQ, SWait.tileWaits gangW d = true) ∧
      SWait.commitsDone gangW = true ∧ ∀ v ∈ SWait.waves, ∀ l, ¬Live v l) ∧
    (0 ∈ SSweep.unswept ∧ wave0 ∈ SSweep.waves ∧ wave0.track.isSome = true ∧ wave0.core = 0 ∧
      (∃ x ∈ SSweep.regPoison, x.1 = wave0.id ∧ x.2.2 < wave0.grant) ∧ SSweep.gang? wave0.gang = some gang0 ∧ gang0.st = .live ∧
      SSweep.commitsDone gang0 = true) ∧
    ((world entering2 gang0 launch0).wave? 3 = some entering2 ∧ (entering2.thread 31).st = .held (.entry trap0 none) ∧
      (∀ k < 32, ∀ y, (entering2.thread k).st = .held (.entry y none) → k = 31 ∨
        (y.pc ≠ trap0.pc ∨ y.cycle ≠ trap0.cycle) ∧ ∃ p ∈ entering2.pend, p.lanes.getLsbD k = true) ∧
      ∀ p ∈ entering2.pend, p.lanes.getLsbD 31 = false) := by
  refine ⟨⟨rfl, rfl, ⟨tileCmdW, List.mem_singleton.mpr rfl, by decide +kernel⟩, by decide, fun v hv l h => ?_⟩, by decide +kernel, rfl, rfl,
    fun k hk y h => ?_, by decide⟩
  · obtain rfl := List.mem_singleton.mp (show v ∈ [waveE] from hv)
    exact h.2 ((by decide : ∀ l < 32, (waveE.thread l).st = .ended) l h.1)
  · have hr : ∀ k < 30, (entering2.thread k).st = .run := by decide
    rcases Nat.lt_or_ge k 30 with h' | h'
    · rw [hr k h'] at h; cases h
    · obtain rfl | rfl : k = 30 ∨ k = 31 := by omega
      · cases h; exact .inr (by decide)
      · exact .inl rfl

/-- A fill that a byte store waits for. -/
def fillH : Fill :=
  { id := 8, sector := 0, core := 0, line := 0x1000, fillSect := true, deps := List.replicate 8 0, waiters := []
    stores := [{ id := 9, wave := 3, lanes := laneBit 0, core := 0, pol := .dflt, w := lineWrite 0x40001 1 5 }] }
def SHeld : State := { S with fills := [fillH] }

theorem wit_HeldStoreFill :
    SHeld.fills.find? (fun x => x.id == 8) = some fillH ∧ fillH.sector = coreSector fillH.core ∧ Coherent SHeld fillH.line ∧ fillH.sent = true ∧
      homeOfLine fillH.line = some (sectorDie fillH.sector) ∧ SHeld.coverage (sectorDie fillH.sector) fillH.deps = true ∧
      (∀ x ∈ fillH.stores, fillH.fillSect = true ∧ x.w.line = fillH.line ∧ coreSector x.core = fillH.sector) ∧
      ({ fillH with sent := false } : Fill).sent = false :=
  ⟨rfl, rfl, fun _ h => by simp [SHeld, S, world, State.reset] at h, rfl, by decide, by decide, by decide, rfl⟩

/-- A write of a line that a wave monitors, on its way to the line's home. -/
def flitF : Flit := { seq := 0, body := .pub (List.replicate 8 0) 5 (.writes [lineWrite 64 1 5]) }
def monFlow : Flow := { cls := .publish, src := 1, dst := 0, flight := [flitF] }
def SMonF : State := { GW waveM gang0 launch0 with flows := [monFlow] }

theorem wit_FlitMonitor :
    SMonF.flow? .publish 1 0 = some monFlow ∧ monFlow.flight.find? (fun y => y.seq == flitF.seq) = some flitF ∧ SMonF.wave? 3 = some waveM ∧
      waveM.monitor = some { line := 1, event := false } ∧ (∃ st n ws, flitF.body = .pub st n (.writes ws) ∧ ∃ y ∈ ws, y.line = 1) ∧
      (¬∃ h ∈ waveM.threads, h.st = .held .waitm) ∧ flitF.seq = monFlow.expect ∧ ∀ y ∈ monFlow.buffer, y.seq ≠ monFlow.expect :=
  ⟨rfl, rfl, rfl, rfl, ⟨_, _, _, rfl, by decide⟩, by decide, rfl, by decide⟩

/-! ## Witnesses: the checks of packets -/

/-- A kernel header: one core, one wave of 32 registers, one word of code. -/
def hdrAt (a : Nat) : Memory :=
  [(a, 0x48), (a + 1, 0x4B), (a + 2, 0x57), (a + 3, 0x4B), (a + 4, 1), (a + 5, 1), (a + 16, 4), (a + 20, 32), (a + 21, 1), (a + 22, 1), (a + 40, 16)]
/-- The flags of a versioned kernel with a shape. -/
def shapeHdr : Memory := (0x500C, 3) :: hdrAt 0x5000
def packX (m : Memory) : Nat := bytesNat ((List.range 128).map fun i => Memory.read (SQ2 m).mem (0x7000 + i))
def hdrX (m : Memory) : Nat := bytesNat ((List.range 256).map fun i => Memory.read (SQ2 m).mem (0x5000 + i))

/-- A packet that passes every check, and one that fails each: a grid of none, a stride of bands that no band divides, a shape of
a kernel that has none, a handle that names no state. -/
def goodP : Memory := kernelP ++ hdrAt 0x5000
def gridP : Memory := (0x701E, 0) :: goodP
def bandP : Memory := (0x7024, 2) :: goodP
def shapeP : Memory := [(0x7001, 1), (0x7071, 0x61)] ++ (List.range 8).map (fun i => (0x6100 + i, 0xFF)) ++ goodP
def handleP : Memory := [(0x7005, 1), (0x7068, 9)] ++ goodP

theorem plainP : ∀ m ∈ [goodP, gridP, bandP, handleP], Plain (SQ2 m) := fun m hm => plainQ (by revert m; decide)

theorem atP : ∀ m ∈ [goodP, gridP, bandP, handleP], PacketAt (SQ2 m) queue0 (packX m) := fun m hm =>
  packetAt (plainP m hm) (by revert m; decide) (by revert m; decide) (by revert m; decide) rfl

theorem hdrRead : ∀ m ∈ [goodP, gridP, bandP, handleP], (SQ2 m).readNamed 0 0 0x5000 256 16 = .ok (hdrX m) := fun m hm =>
  readNamed_of (by decide) ((plainP m hm).devRead (by decide) rfl)

theorem wit_PacketChecks :
    ∀ m ∈ [goodP, gridP, bandP, handleP], PacketAt (SQ2 m) queue0 (packX m) ∧ IndexWrites (SQ2 m) queue0 ((List.range 8).map (0x6040 + ·)) ∧
      (nfld (packX m) 0 1 ≠ 2 ∧ nfld (packX m) 0 1 ≠ 3 ∧ nfld (packX m) 1 1 % 2 = 0) ∧
      packetBad (packX m) 0 ((SQ2 m).dieSet queue0 (packX m)) ((SQ2 m).sealLaunch queue0).isSome = false ∧
      packetBad (packX m) (hdrX m) ((SQ2 m).dieSet queue0 (packX m)) ((SQ2 m).sealLaunch queue0).isSome = false ∧
      (nfld (packX m) 0x10 8 = 0x5000 ∧ (SQ2 m).readNamed 0 0 0x5000 256 16 = .ok (hdrX m)) ∧
      answers ((SQ2 m).readPredictor ((SQ2 m).packetLaunch queue0 (packX m) (SQ2 m).nextId) false) = true ∧ headerStatus (hdrX m) = 0 ∧
      (SQ2 m).dieSet queue0 (packX m) = [0] ∧ ((SQ2 m).die 0).withdrawn = false ∧ (parseHeader (hdrX m)).features = 0 ∧
      (nfld (packX m) 0x18 4, nfld (packX m) 0x1C 2) = (2, 1) ∧ (nfld (packX m) 0x1E 1 = 0 ↔ m = gridP) ∧
      (nfld (packX m) 0x20 4 = 0 ∧ (nfld (packX m) 0x24 4 ≠ 0 ↔ m = bandP)) ∧
      packetHandles (packX m) = (if m = handleP then [(9, false, 0)] else []) ∧ (SQ2 m).stateRec? 0 9 = none := by
  intro m hm
  refine ⟨atP m hm, indexWrites (plainP m hm), ?_, ?_, ?_, ⟨?_, hdrRead m hm⟩, ?_, ?_, ?_, ?_, ?_, ?_, ?_, ?_, ?_, rfl⟩ <;> revert m <;> decide +kernel

/-- Dies that are withdrawn cover nothing. -/
def SQW : State := { SQ2 goodP with dies := (SQ2 goodP).dies.map fun d => { d with withdrawn := true } }

theorem plainW : Plain SQW := ⟨rfl, rfl, rfl, by decide, by decide⟩

theorem wit_PacketUncovered :
    (∀ e < 8, (SQW.die e).withdrawn = true) ∧ SQW.readNamed 0 0 0x5000 256 16 = .ok (hdrX goodP) ∧
      SQW.devRead 0 0 0x7000 128 = .ok (packX goodP) ∧ SQW.dieSet queue0 (packX goodP) = [0] :=
  ⟨by decide, readNamed_of (by decide) (plainW.devRead (by decide) rfl), plainW.devRead (by decide) rfl, by decide +kernel⟩

/-- What the launch engine finds of a packet with a shape: its cell, read once the index has been written. -/
def cellNow (m : Memory) : Bool := match (SQ2 m).takeOne queue0 0 with
  | .ok u => gives (u.devRead 0 0 (nfld (packX m) 0x70 8) 8) (2 ^ 64 - 1)
  | .error _ => false

/-- A graph of one grid node. -/
def graphB : Memory :=
  graphP ++ [(0x5000, 0x50), (0x5001, 0x47), (0x5002, 0x57), (0x5003, 0x4B), (0x5004, 1), (0x5005, 1), (0x5008, 1), (0x5018, 64), (0x501C, 64),
    (0x5020, 64), (0x5024, 64), (0x5040, 1), (0x5059, 0x52), (0x5060, 1), (0x5064, 1), (0x5066, 1)] ++ hdrAt 0x5200
def bytesAt (m : Memory) (a n : Nat) : Nat := bytesNat ((List.range n).map fun i => Memory.read (SQ2 m).mem (a + i))
/-- What the launch engine reads of it. -/
def graphBin : GraphBin := { head := bytesAt graphB 0x5000 64, nodes := [bytesAt graphB 0x5040 128], headers := [bytesAt graphB 0x5200 256] }
def graphL : Launch := { (SQ2 graphB).packetLaunch queue0 (packX graphB) (SQ2 graphB).nextId with kind := .graph }

theorem launch_fields (s : State) (q : Queue) (x id : Nat) :
    ({ s.packetLaunch q x id with kind := .graph } : Launch).die = s.queueDie q ∧
      ({ s.packetLaunch q x id with kind := .graph } : Launch).header = nfld x 0x10 8 := ⟨rfl, rfl⟩
theorem graphPlain : Plain (SQ2 graphB) := plainQ (by decide)

theorem bytesTry {a n : Nat} (h : a + n ≤ 2 ^ 35) : (SQ2 graphB).devTry 0 0 a n = .ok (some (bytesAt graphB a n)) := by
  rw [State.devTry, graphPlain.devRead h (v := bytesAt graphB a n) rfl]
theorem bytesNamed {a n k : Nat} (hk : (a == 0 || a % k != 0) = false) (h : a + n ≤ 2 ^ 35) :
    (SQ2 graphB).readNamed 0 0 a n k = .ok (bytesAt graphB a n) := readNamed_of hk (graphPlain.devRead h rfl)

/-- A graph of one node and nothing else, as it is read. -/
theorem readGraph_one {s : State} {l : Launch} {H N K : Nat} (hh : s.readNamed l.ctx l.die l.header 64 16 = .ok H)
    (hk : graphHeadOk H = true) (h0 : s.devTry l.ctx l.die (l.header + nfld H 0x18 4) (128 * nfld H 8 4) = .ok (some N))
    (hn : tableOf N (nfld H 8 4) 128 = [N]) (z1 : nfld H 0x0C 4 = 0) (z2 : nfld H 0x10 4 = 0) (z3 : nfld H 0x14 4 = 0)
    (hr : s.readNamed l.ctx l.die (nfld N 0x18 8) 256 16 = .ok K) :
    s.readGraph l = .ok { head := H, nodes := [N], headers := [K] } := by
  simp only [State.readGraph, hh, bind, Except.bind, pure, Except.pure, hk, Bool.not_true, Bool.false_eq_true, ite_false, Nat.mul_zero,
    Nat.mul_one, Nat.add_zero, Nat.reduceMul, Nat.reduceAdd, h0, hn, Except.map, Option.map, Option.getD, engAll, hr, z1, z2, z3]
  rfl

theorem graphRead : (SQ2 graphB).readGraph graphL = .ok graphBin := by
  have h1 : graphL.ctx = 0 := rfl
  have h2 : graphL.die = 0 := (launch_fields _ _ _ _).1.trans (queueDie0 graphPlain)
  have h3 : graphL.header = 0x5000 := (launch_fields _ _ _ _).2.trans (by decide +kernel)
  have h5 : nfld (bytesAt graphB 0x5000 64) 0x18 4 = 64 := by decide +kernel
  have h6 : ∀ o ∈ [0x0C, 0x10, 0x14], nfld (bytesAt graphB 0x5000 64) o 4 = 0 := by decide +kernel
  have h8 : nfld (bytesAt graphB 0x5000 64) 8 4 = 1 := by decide +kernel
  refine readGraph_one ?_ (by decide +kernel) ?_ (by decide +kernel) (h6 _ (by simp)) (h6 _ (by simp))
    (h6 _ (by simp)) ?_ <;> rw [h1, h2]
  · rw [h3]; exact bytesNamed (by decide) (by decide)
  · rw [h3, h5, h8]; exact bytesTry (by decide)
  · rw [(by decide +kernel : nfld (bytesAt graphB 0x5040 128) 0x18 8 = 0x5200)]; exact bytesNamed (by decide) (by decide)

theorem wit_GoodGraph :
    PacketAt (SQ2 graphB) queue0 (packX graphB) ∧ IndexWrites (SQ2 graphB) queue0 ((List.range 8).map (0x6040 + ·)) ∧
      nfld (packX graphB) 0 1 = 2 ∧ nfld (packX graphB) 1 1 % 2 = 0 ∧ packetHandles (packX graphB) = [] ∧
      packetBad (packX graphB) 0 ((SQ2 graphB).dieSet queue0 (packX graphB)) ((SQ2 graphB).sealLaunch queue0).isSome = false ∧
      (nfld (packX graphB) 0x20 4, nfld (packX graphB) 0x24 4) = (0, 0) ∧ (SQ2 graphB).dieSet queue0 (packX graphB) = [0] ∧
      (SQ2 graphB).readGraph graphL = .ok graphBin ∧ graphBin.ok = true ∧
      (∀ h ∈ graphBin.headers, nfld h 0x1C 2 = 0 ∧ nfld h 0x24 4 = 0 ∧ (parseHeader h).features = 0) ∧
      ∀ p ∈ graphBin.grids, (p.1.x, p.1.y, p.1.z, p.1.shape) = (1, 1, 1, false) :=
  ⟨packetAt graphPlain (by decide) (by decide) (by decide) (by decide +kernel), indexWrites graphPlain, by decide +kernel, by decide +kernel,
    by decide +kernel, by decide +kernel, by decide +kernel, by decide +kernel, graphRead, by decide +kernel, by decide +kernel, by decide +kernel⟩

theorem wit_ShapePacket :
    PacketAt (SQ2 shapeP) queue0 (packX shapeP) ∧ IndexWrites (SQ2 shapeP) queue0 ((List.range 8).map (0x6040 + ·)) ∧
      cellNow shapeP = true ∧ nfld (packX shapeP) 1 1 % 2 = 1 ∧ (parseHeader (hdrX shapeP)).shape = false ∧ headerStatus (hdrX shapeP) = 0 ∧
      packetBad (packX shapeP) (hdrX shapeP) ((SQ2 shapeP).dieSet queue0 (packX shapeP)) ((SQ2 shapeP).sealLaunch queue0).isSome = false ∧
      answers ((SQ2 shapeP).readPredictor ((SQ2 shapeP).packetLaunch queue0 (packX shapeP) (SQ2 shapeP).nextId) true) = true ∧
      (nfld (packX shapeP) 0x18 4, nfld (packX shapeP) 0x1C 2, nfld (packX shapeP) 0x1E 1) = (2, 1, 1) := by
  have p : Plain (SQ2 shapeP) := plainQ (by decide)
  refine ⟨packetAt p (by decide) (by decide) (by decide) (by decide +kernel), indexWrites p, ?_, ?_, ?_, ?_, ?_, ?_, ?_⟩ <;> decide +kernel

/-! ## Witnesses: graphs, contexts, chains -/

/-- A graph whose one node's patch names a buffer behind another, of a shape node whose shape is not known yet. -/
def nodeS : NodeSt := { nodeK with shape := true }
def patched0 : Graph :=
  { nodes := [{ nodeK with succ := [] }, nodeS], patches := [{ node := 0, word := 0, buf := 1, off := 0 }]
    bufs := [{ off := 0, fixed := 256, perGang := 256, shapeNode := some 1, follows := none, first := 0, last := 0, retract := false },
      { off := 0, fixed := 256, perGang := 0, shapeNode := some 1, follows := some 0, first := 0, last := 0, retract := false }] }
def launchP : Launch := { launchR with kind := .graph, graph := some patched0 }

theorem wit_PatchesWait :
    (LS [launchP]).launch? 1 = some launchP ∧ launchP.started = true ∧ (LS [launchP]).launchOn launchP = true ∧
      patched0.nodes[0]? = some { nodeK with succ := [] } ∧ patched0.patchesKnown 0 = false ∧ nodeK.bin = false :=
  ⟨rfl, rfl, by decide, rfl, by decide, rfl⟩

/-- The wave at a NOP with its W bit set, a result of lane 0 from beyond its core outstanding. -/
def farWave : Wave := { wave0 with pend := [{ pend0 with lane := some 0, lanes := laneBit 0, far := true, opened := true }] }
def SPark : State := { GW farWave gang0 launch0 with mem := [(0x8000, 0x1F), (0x10007, 0x41)] }

theorem wit_Parked : SPark.gang? 2 = some gang0 ∧ gang0.st = .live ∧ gang0.place.isSome = true ∧ SPark.wave? 3 = some farWave ∧
    Parked SPark farWave 0 := by
  refine ⟨rfl, rfl, rfl, rfl, by decide, rfl, by decide, ?_⟩
  have h : (match SPark.chainAt farWave (slotsLeft (farWave.thread 0).pc) (farWave.thread 0).pc with
    | .ok ws => ws.any (·.getLsbD 30) | .error _ => false) = true := by decide +kernel
  split at h
  · rename_i ws e
    obtain ⟨x, hx, hb⟩ := List.any_eq_true.mp h
    exact ⟨ws, e, x, hx, hb⟩
  · cases h

theorem wit_FillArrival :
    (GW wave0 gang0 launch0).gang? 2 = some gang0 ∧ gang0.st = .live ∧
      (∃ c, (GW wave0 gang0 launch0).ctx? ((GW wave0 gang0 launch0).launchOf gang0).ctx = some c ∧ c.out = false) ∧
      NoFeWait (GW wave0 gang0 launch0) 2 ∧ 16 * 0 < ((GW wave0 gang0 launch0).launchOf gang0).hdr.scratch ∧
      ¬16 * 256 < ((GW wave0 gang0 launch0).launchOf gang0).hdr.scratch :=
  ⟨rfl, rfl, ⟨_, rfl, rfl⟩, noFeOf (show ∀ v ∈ [wave0], _ by decide), by decide, by decide⟩

/-- A gang at an entry, with poisoned words in its scratchpad. -/
def gangQB (x : Nat) (ps : List Nat) : Gang := { gangQ x with spadPoison := ps }
def ifX : Nat := 8 + 2 ^ 16 + 1024 * 2 ^ 32

theorem atBad : ∀ p ∈ [(gatherX, 16), (gatherX + 1, 16), (ifX, 256)], AtEntry (LQ (gangQB p.1 [p.2])) 2 0 (gangQB p.1 [p.2]) walk0 p.1 := by
  intro p hp
  refine ⟨⟨?_, ?_, ?_, ?_⟩, ?_, ?_, rfl, quietQ _ _⟩ <;> revert p <;> decide +kernel

/-- The collective whose other member has arrived before this module's. -/
def collN (x : Nat) : Coll := { ctx := 0, num := 0, arrived := [member1 x] }

theorem wit_LiftPoison :
    ((LQ (gangQB 0 [64])).gang? 2 = some (gangQB 0 [64]) ∧ (LQ (gangQB 0 [64])).engineOn (gangQB 0 [64]) = true ∧
      ((gangQB 0 [64]).queues.getD 0 {}).walk = some walk0 ∧ walk0.cur = none ∧ walk0.copy.lookup walk0.pos = none ∧
      walk0.pos + 32 ≤ 4096 ∧ (gangQB 0 [64]).spadBad walk0.pos 32 = true ∧ (LQ (gangQB 0 [64])).commitsDone (gangQB 0 [64]) = true) ∧
    (∀ p ∈ [(gatherX, 16), (gatherX + 1, 16), (ifX, 256)], AtEntry (LQ (gangQB p.1 [p.2])) 2 0 (gangQB p.1 [p.2]) walk0 p.1 ∧
      (entryKind p.1 = 2 ∧ (gangQB p.1 [p.2]).spadBad (nfld p.1 24 4) (4 * nfld p.1 4 4) = true ∨
        entryKind p.1 = 3 ∧ (gangQB p.1 [p.2]).spadBad (nfld p.1 24 4) (4 * nfld p.1 4 4) = true ∨
        entryKind p.1 = 8 ∧ nfld p.1 1 1 ≤ 1 ∧ (gangQB p.1 [p.2]).spadBad (nfld p.1 4 4) 4 = true) ∧
      (LQ (gangQB p.1 [p.2])).commitsDone (gangQB p.1 [p.2]) = true) ∧
    (∀ x ∈ [reduceX, agatherX], AtEntry (LQ (gangQ x) [collN x]) 2 0 (gangQ x) walk0 x ∧ (LQ (gangQ x) [collN x]).coll? 0 0 = some (collN x) ∧
      (collN x).here = none ∧ ∃ tb, (LQ (gangQ x) [collN x]).collTable (gangQ x) 0 = .ok tb ∧ Gathered tb (collN x)) ∧
    (∀ x ∈ [reduceX, agatherX], (LQ (gangQ x) [collH []]).coll? 0 0 = some (collH []) ∧ (∃ c, (LQ (gangQ x) [collH []]).ctx? 0 = some c) ∧
      (collH []).here = some (2, 0) ∧ (LQ (gangQ x) [collH []]).gang? 2 = some (gangQ x) ∧
      ((gangQ x).queues.getD 0 {}).walk = some walk0 ∧
      ∃ tb, (LQ (gangQ x) [collH []]).collTable (gangQ x) 0 = .ok tb ∧ Gathered tb { collH [] with arrived := [member1 x] }) := by
  refine ⟨by decide +kernel, fun p hp => ⟨atBad p hp, ?_, ?_⟩, fun x hx => ⟨atEntries x (by revert x; decide) _, rfl, rfl, ?_⟩,
    fun x _ => ⟨rfl, ⟨_, rfl⟩, rfl, rfl, rfl, ?_⟩⟩
  · revert p; decide +kernel
  · revert p; decide +kernel
  · obtain ⟨tb, h, hm, hr⟩ := collTable0 x [collN x]
    exact ⟨tb, h, fun m h1 h2 => ⟨member1 x, by simp [collN], by rw [hm] at h1; rw [hr] at h2; simp [member1]; omega⟩⟩
  · obtain ⟨tb, h, hm, hr⟩ := collTable0 x [collH []]
    exact ⟨tb, h, fun m h1 h2 => ⟨member1 x, by simp, by rw [hm] at h1; rw [hr] at h2; simp [member1]; omega⟩⟩

/-! ## Witnesses: poisoned records, indices and accumulators -/

/-- A task whose record, or one of whose rows' numbers, is poisoned; a region with a poisoned word. -/
def gangTB (x : Nat) (ps : List Nat) : Gang := { gangT (taskC x) x with spadPoison := ps }
def TQB (x : Nat) : State := { TQ (gangT (taskC x) x) with tiles := [{ cluster := 0, phys := 5, ctx := 0, st := .gangOwned 2 0, poison := [0] }] }

theorem startsTB : ∀ p ∈ [(mmaX, [64]), (mmagX, [64]), (epiX, [64]), (zeroX, [64]), (mmagX, [256])],
    Starts (TQ (gangTB p.1 p.2)) 2 7 (gangTB p.1 p.2) (taskC p.1) p.1 := by
  intro p hp
  refine ⟨?_, ?_, (by decide : ∀ q ∈ [5], q < 256), ?_⟩ <;> revert p <;> decide +kernel

theorem localTB (x : Nat) : Local (TQB x) (gangT (taskC x) x) :=
  ⟨⟨rfl, rfl, rfl, cov0 rfl, show Memory.readNat (tensM ++ [(0x8000, 0x1F)]) 0x8000 8 = 0x1F by decide⟩, rfl, rfl, rfl, dieT _ x⟩

theorem tensorTB (x : Nat) : ∃ ps, (TQB x).tensor (gangT (taskC x) x) 0 = .ok (tensS, ps) := by
  refine (localTB x).tensor (a := 0x5000) (by decide : 0 < 4) rfl (by decide) (fieldsOf_inj ?_)
  change (parseTensor 0 (bytesNat ((List.range 128).map fun i => Memory.read (tensM ++ [(0x8000, 0x1F)]) (0x5000 + i)))).map fieldsOf = _
  decide +kernel

theorem wit_TaskPoison :
    (∀ p ∈ [(mmaX, [64]), (mmagX, [64]), (epiX, [64]), (zeroX, [64])], Starts (TQ (gangTB p.1 p.2)) 2 7 (gangTB p.1 p.2) (taskC p.1) p.1 ∧
      NoFeWait (TQ (gangTB p.1 p.2)) 2 ∧ (gangTB p.1 p.2).spadBad (taskC p.1).off 64 = true ∧
      (TQ (gangTB p.1 p.2)).commitsDone (gangTB p.1 p.2) = true) ∧
    (Starts (TQ (gangTB mmagX [256])) 2 7 (gangTB mmagX [256]) (taskC mmagX) mmagX ∧ (gangTB mmagX [256]).spadBad 256 64 = false ∧
      (gangTB mmagX [256]).spadBad (nfld mmagX 28 4) (4 * taskRows (taskC mmagX) mmagX) = true) ∧
    (∀ x ∈ [mmaX, epiX], Starts (TQB x) 2 7 (gangT (taskC x) x) (taskC x) x ∧ NoFeWait (TQB x) 2 ∧ (gangT (taskC x) x).spadBad 256 64 = false ∧
      (TQB x).taskOk (gangT (taskC x) x) { cmd := taskC x, x } = true ∧ (TQB x).accBad 0 { cmd := taskC x, x } = true ∧
      (TQB x).commitsDone (gangT (taskC x) x) = true ∧ taskRows (taskC x) x ≠ 0 ∧
      ∃ ps, (TQB x).tensor (gangT (taskC x) x) 0 = .ok (tensS, ps)) ∧
    (nfld mmaX 8 2 = 0 ∧ nfld mmaX 10 2 = 0 ∧ nfld mmaX 4 4 ≠ 0 ∧
      MmaOk (TQB mmaX) (gangT (taskC mmaX) mmaX) (taskC mmaX) mmaX tensS tensS ((List.range 16).map (0 + ·)) 2) ∧
    (nfld (headT 0) 4 4 = 0 ∧
      MmaOk (TQ (gangT (taskC (headT 0)) (headT 0))) (gangT (taskC (headT 0)) (headT 0)) (taskC (headT 0)) (headT 0) tensS tensS
        ((List.range 16).map (0 + ·)) 2) := by
  refine ⟨fun p hp => ⟨startsTB p (List.mem_append_left [(mmagX, [256])] hp), noFeOf (show ∀ v ∈ [waveE], _ by decide), ?_, ?_⟩,
    ⟨startsTB (mmagX, [256]) (by simp), by decide +kernel, by decide +kernel⟩, fun x hx => ⟨⟨rfl, ?_, (by decide : ∀ q ∈ [5], q < 256), ?_⟩,
      noFeOf (show ∀ v ∈ [waveE], _ by decide), ?_, ?_, ?_, ?_, ?_, tensorTB x⟩, ⟨by decide +kernel, by decide +kernel, by decide +kernel, 2, 2, by decide +kernel⟩,
    by decide +kernel, 2, 2, by decide +kernel⟩
  · revert p; decide +kernel
  · revert p; decide +kernel
  all_goals revert x; decide +kernel

/-! ## Witnesses: outputs of chunks, poisoned commands, resets -/

/-- A chunk of one token that also writes its outputs, in entry 2; a query's into the same. -/
def outX : Nat := 2 ^ 32 + 2 ^ 40 + 2 * 2 ^ 128
def queryX : Nat := 2 ^ 32 + 2 * 2 ^ 128
def tensO : Tensor := { tensW with tid := 2, base := 2560, ext := [32, 1, 1, 1], st := [1, 32, 32, 32] }

theorem tensorO (k : TqKind) (x n : Nat) : ∃ ps, (CQ (gangC k x) n).tensor (gangC k x) 2 = .ok (tensO, ps) := by
  refine (localC (by decide) rfl (dieC k x)).tensor (a := 0x5100) (by decide : 2 < 4) rfl (by decide) (fieldsOf_inj ?_)
  change (parseTensor 2 (bytesNat ((List.range 128).map fun i => Memory.read (tensD ++ [(0x8000, 0x1F)]) (0x5100 + i)))).map fieldsOf = _
  decide +kernel

theorem addrO : ∀ i < 32, tensO.addr i 0 = some (2560 + 4 * i) := by decide +kernel

/-- The bytes of its elements. -/
def outPlaces : List Nat := (List.range 1).flatMap fun t => (List.range 32).flatMap fun i => (List.range 4).map ((fun _ i => 2560 + 4 * i) t i + ·)

theorem apartW (k : TqKind) (x : Nat) {n : Nat} (hn : n ≤ 32) : Apart (CQ (gangC k x) 1) (gangC k x) 0 n 1 outPlaces := by
  intro e p he t ht j hj a ha i hi hm
  obtain ⟨ps, h⟩ := tensorW k x 1
  rw [h] at he; cases he
  obtain rfl : t = 0 := by omega
  rw [addrW j (by omega) 0 (by decide)] at ha
  cases ha
  have hb : tensW.bytes = 4 := rfl
  have : ∀ y ∈ outPlaces, 2560 ≤ y := by decide +kernel
  have := this _ hm
  omega

theorem wit_ChunkOutputs :
    (∀ p ∈ [(TqKind.dupd, outX), (.dqry, queryX)], Claims.Runs (CQ (gangC p.1 p.2) 1) 2 7 (gangC p.1 p.2) (cmdE p.1) p.1 true ∧
      (CQ (gangC p.1 p.2) 1).heldState (gangC p.1 p.2) 9 = some state9b ∧ (CQ (gangC p.1 p.2) 1).handleTiles (gangC p.1 p.2) 9 = [5] ∧
      (gangC p.1 p.2).spadBad 256 64 = false ∧ (CQ (gangC p.1 p.2) 1).tileBad 0 5 = false ∧
      (nfld p.2 4 1, nfld p.2 6 2, nfld p.2 18 46) = (1, 0, 0) ∧ (nfld p.2 5 1 = 1 ↔ p.1 = .dupd) ∧
      (nfld p.2 8 2, nfld p.2 10 2, nfld p.2 12 2, nfld p.2 14 2, nfld p.2 16 2) = (0, 0, 0, 0, 2)) ∧
    (∀ k x, (∃ ps, (CQ (gangC k x) 1).tensor (gangC k x) 2 = .ok (tensO, ps)) ∧
      (∀ n ≤ 32, Apart (CQ (gangC k x) 1) (gangC k x) 0 n 1 outPlaces ∧ Entry (CQ (gangC k x) 1) (gangC k x) 0 n 1 true ∧
        Operand (CQ (gangC k x) 1) (gangC k x) 0 n 1 fun _ _ => (elemValue 0 0 0).1)) ∧
    tensO.ro = false ∧ tensO.sp = true ∧ tensO.fmt = 0 ∧ tensO.bytes = 4 ∧ 32 ≤ tensO.ext.getD 0 1 ∧ 1 ≤ tensO.ext.getD 1 1 ∧ outPlaces.Nodup ∧
    ∀ i < 32, tensO.addr i 0 = some (2560 + 4 * i) ∧ 2560 + 4 * i + 4 ≤ 4096 :=
  ⟨fun p hp => ⟨runsC _ _ _ _ (by revert p; decide), rfl, by revert p; decide +kernel, by revert p; decide +kernel, by revert p; decide +kernel,
      by revert p; decide +kernel, by revert p; decide +kernel, by revert p; decide +kernel⟩,
    fun k x => ⟨tensorO k x 1, fun n hn => ⟨apartW k x hn, entryW _ _ _ hn (by decide), operandW _ _ _ hn (by decide)⟩⟩,
    rfl, rfl, rfl, rfl, by decide, by decide, by decide +kernel, fun i hi => ⟨addrO i hi, by omega⟩⟩

/-- A command whose record is poisoned; a state with a poisoned word; a descriptor. -/
def gangCB (k : TqKind) : Gang := { gangC k deltaX with spadPoison := [64] }
def CQB (k : TqKind) : State := { CQ (gangC k deltaX) 1 with tiles := [{ cluster := 0, phys := 5, ctx := 0, st := .pinned 9 0, poison := [7] }] }
def gangBB : Gang := { gangB (binX 1) with spadPoison := [64] }

theorem performed {s : State} {g : Gang} {k : TqKind} (hk : k ∈ [TqKind.dupd, .dqry]) (hq : g.tileQ = [cmdE k]) (hs : s.gangs = [g] := by rfl) :
    AllPerformed s := fun y hy d hd => by
  rw [hs] at hy
  obtain rfl := List.mem_singleton.mp hy
  rw [hq] at hd
  obtain rfl := List.mem_singleton.mp hd
  exact (by decide : ∀ k ∈ [TqKind.dupd, .dqry], TileCmd.counted (cmdE k) = true) k hk

theorem wit_CommandPoison :
    (∀ k ∈ [TqKind.dupd, .dqry], Claims.Runs (CQ (gangCB k) 1) 2 7 (gangCB k) (cmdE k) k true ∧ (gangCB k).spadBad (cmdE k).off 64 = true ∧
      (CQ (gangCB k) 1).commitsDone (gangCB k) = true ∧
      Claims.Runs (CQB k) 2 7 (gangC k deltaX) (cmdE k) k true ∧ (∃ p ∈ (CQB k).handleTiles (gangC k deltaX) 9, (CQB k).tileBad 0 p = true)) ∧
    ((CQ gangBB 1).gang? 2 = some gangBB ∧ (CQ gangBB 1).gangOn gangBB = true ∧ gangBB.bins = [bin0] ∧ NoFeWait (CQ gangBB 1) 2 ∧
      gangBB.rkOps = [] ∧ gangBB.binBad 256 = true ∧ (gangB (binX 1)).binBad 256 = false ∧ (gangB 0).binBad 256 = false ∧
      (CQ gangBB 1).commitsDone gangBB = true) :=
  ⟨fun k hk => ⟨⟨rfl, rfl, rfl, rfl, noFeOf (show ∀ v ∈ [waveE], _ by decide), performed hk rfl⟩, by revert k; decide +kernel, by revert k; decide,
      ⟨rfl, rfl, rfl, rfl, noFeOf (show ∀ v ∈ [waveE], _ by decide), performed hk rfl⟩, by revert k; decide +kernel⟩,
    rfl, rfl, rfl, noFeOf (show ∀ v ∈ [waveE], _ by decide), rfl, by decide +kernel, by decide +kernel, by decide +kernel, rfl⟩

/-- RESET_VI while a gang waits for its re-run. -/
def resetX : Nat := cmdN 9
theorem wit_ResetFreed :
    Command (mail rerunS resetX) 0 9 (.resetVi 0) (mailV resetX) resetX ∧ Unnamed resetX ∧ (∃ l ∈ (mail rerunS resetX).launches, l.ctx = 0) ∧
      (∃ c, (mail rerunS resetX).ctx? 0 = some c ∧ c.fn = 0) ∧
      ((mail rerunS resetX).gangs.Pairwise fun a b => a.id ≠ b.id) ∧ (mail rerunS resetX).gang? 2 = some (abortedG 0x85) ∧
      (abortedG 0x85).st ≠ .live ∧ ((mail rerunS resetX).launchOf (abortedG 0x85)).ctx = 0 ∧ (∀ w ∈ (mail rerunS resetX).waves, w.gang ≠ 2) ∧
      ({ restS 0 with keysErased := true } : State).keysErased = true ∧ ({ restS 0 with keysErased := true } : State).life ≠ .ret := by
  have hm : IsMail 0 9 (.resetVi 0) (mailArgs 9) := by simp [IsMail, mailArgs]
  refine ⟨command hm (by decide +kernel) (by decide +kernel) rerunS rfl, by unfold Unnamed; decide +kernel, ⟨_, List.mem_singleton.mpr rfl, rfl⟩,
    ⟨_, rfl, rfl⟩, List.pairwise_singleton _ _, rfl, (fun h => by cases h), rfl, fun w h => (List.not_mem_nil h).elim, rfl, by decide +kernel⟩

/-- Each way for a reset to end: recovery, no die left, a supervisor that is refused, and the last stage. -/
def bootOk (s : State) : Bool := s.boot.intact && s.boot.key == .production
theorem wit_ResetStages :
    State.reset.life = .production ∧ Accepts .production false .production ∧ ¬Accepts .production false .development ∧
      Accepts .production true .recovery ∧ ¬Accepts .production true .production ∧ ¬Accepts .scrapped false .production ∧
      bootOk State.reset = true ∧ bootOk { State.reset with boot := { intact := false } } = false ∧
      (∃ d ∈ State.reset.dies, d.withdrawn = false ∧ d.id ∉ State.reset.badDies) ∧
      (∀ d ∈ ({ State.reset with badDies := List.range 8 } : State).dies, d.id ∈ ({ State.reset with badDies := List.range 8 } : State).badDies) ∧
      ({ State.reset with supervisor := { key := .development } } : State).supervisor.key = .development ∧
      (∃ k : FwKey, k ≠ .production) :=
  ⟨by decide, by unfold Accepts; decide, by unfold Accepts; decide, by unfold Accepts; decide, by unfold Accepts; decide, by unfold Accepts; decide,
    by decide, by decide, by decide, by decide, rfl, .recovery, by decide⟩

/-- A command that names a context stands in the window when the alarm resets the module. -/
theorem wit_AlarmLost :
    ∀ a ∈ [1, 2], ({ restS (cmd0 4) with alarm := a } : State).alarm = a ∧ (({ restS (cmd0 4) with alarm := a } : State).vis.map (·.fn)).Nodup ∧
      ({ restS (cmd0 4) with alarm := a } : State).vi? 0 = some (mailV (cmd0 4)) ∧ Stored (mailV (cmd0 4)) (cmd0 4) ∧
      ∃ c, ({ restS (cmd0 4) with alarm := a } : State).ctx? (nfld (cmd0 4) 4 4) = some c ∧ c.fn = 0 :=
  fun a _ => ⟨rfl, by show ([0] : List Nat).Nodup; decide, rfl, .inr ⟨rfl, rfl, by decide +kernel⟩, _, by
    rw [(by decide +kernel : nfld (cmd0 4) 4 4 = 0)]; rfl, rfl⟩

end Sys2Proof.Tests
end

section
/-! The floating forms of returning class (R34, R153, R156 to R158): each computes what the spec's row says. -/

namespace Sys2Proof.Machine
open Sys2Proof.Claims

/-! ## What a lane reads, as the claims name it -/

theorem ofNat_toNat (r : Reg) : Reg.ofNat r.toNat = r := by
  cases r with
  | v n => simp [Reg.toNat, Reg.ofNat]
  | s n =>
    have : ¬ 96 + n.val < 96 := by omega
    simp [Reg.toNat, Reg.ofNat]

theorem toNat_words (hi lo : Word) : (hi ++ lo : DWord).toNat = lo.toNat + 2 ^ 32 * hi.toNat := by
  have := BitVec.toNat_append hi lo
  rw [Nat.shiftLeft_eq, Nat.mul_comm, ← Nat.two_pow_add_eq_or_of_lt lo.isLt] at this
  exact this.trans (Nat.add_comm _ _)

/-- The number in a pair is that of its two words (R50). -/
theorem wide_pair (s : State) (w : Wave) (l : Nat) (r : Reg) : wide (s.laneIn w l).rd 2 r = (rd64 s w l r).toNat := by
  rw [rd64, toNat_words]
  simp [wide, regs, List.range_succ, ofNat_toNat, State.laneIn]

theorem rounding_laneIn (s : State) (w : Wave) (l : Nat) : (s.laneIn w l).rounding = fpu w l := by
  simp [LaneIn.rounding, State.laneIn, fpu, rmodeOf, ftzoOf]

theorem f64_laneIn (s : State) (w : Wave) (l : Nat) (r : Reg) : (s.laneIn w l).f64 r = f64 s w l r := by
  unfold LaneIn.f64
  rw [wide_pair]
  rfl

/-! ## The forms -/

/-- A pair is uniform as its first register is (R49, R50). -/
theorem any_isUni_regs_two {d : Reg} (h : al 2 d = true) : (regs 2 d).any Reg.isUni = d.isUni := by
  cases d with
  | s n =>
    simp [regs, List.range_succ, ofNat_toNat, Reg.isUni]
  | v n =>
    have hn : n.val + 1 < 96 := by
      simp only [al, Reg.toNat, beq_iff_eq] at h
      omega
    simp [regs, List.range_succ, Reg.toNat, Reg.ofNat, Reg.isUni, hn]

/-- What a form of returning class is: a rounded result of what the lane reads, in `k` registers from `d`. -/
structure ReturnsRounded (i : Instr) (d : Reg) (k : Nat) (f : LaneIn → Rounded) : Prop where
  exec   : ∀ s, exec i s = runReturn i (laneRound k d f) s
  result : ∀ s w l, floatReturn s w l i = some (d, k, f (s.laneIn w l))
  uni    : i.info.dst.any Reg.isUni = d.isUni

/-- A form with one destination register. -/
theorem returnsRounded_single {i : Instr} {d : Reg} {f : LaneIn → Rounded}
    (he : ∀ s, exec i s = runReturn i (laneRound 1 d f) s) (hd : i.info.dst = [d])
    (hr : ∀ s w l, floatReturn s w l i = some (d, 1, f (s.laneIn w l))) : ReturnsRounded i d 1 f :=
  ⟨he, hr, by simp [hd]⟩

/-- A form with a pair as its destination, of even number. -/
theorem returnsRounded_pair {i : Instr} {d : Reg} {f : LaneIn → Rounded} (hal : al 2 d = true)
    (he : ∀ s, exec i s = runReturn i (laneRound 2 d f) s) (hd : i.info.dst = regs 2 d)
    (hr : ∀ s w l, floatReturn s w l i = some (d, 2, f (s.laneIn w l))) : ReturnsRounded i d 2 f :=
  ⟨he, hr, by rw [hd, any_isUni_regs_two hal]⟩

/-- Every form of the table of `floatReturn` is one of these. -/
theorem floatReturn_rounded {s : State} {w : Wave} {l : Nat} {i : Instr} {d : Reg} {k : Nat} {x : Rounded}
    (h : floatReturn s w l i = some (d, k, x)) (hwf : i.wellFormed = true) : ∃ f, ReturnsRounded i d k f := by
  have hshape : i.info.shapeOk = true := by
    simp only [Instr.wellFormed, Bool.and_eq_true] at hwf
    exact hwf.1.1
  unfold floatReturn at h
  split at h <;> simp only [Option.some.injEq, Prod.mk.injEq, reduceCtorEq] at h <;> obtain ⟨rfl, rfl, -⟩ := h
  case h_1 | h_2 | h_3 | h_4 | h_5 | h_6 | h_7 | h_8 =>
    exact ⟨_, returnsRounded_single (fun _ => rfl) rfl fun _ _ _ => by rw [rounding_laneIn]; rfl⟩
  case h_9 | h_10 | h_11 | h_14 | h_15 =>
    simp only [Instr.info, Bool.and_eq_true] at hshape
    exact ⟨_, returnsRounded_pair (by simp only [hshape]) (fun _ => rfl) rfl fun _ _ _ => by simp only [rounding_laneIn, f64_laneIn]; rfl⟩
  case h_12 | h_13 =>
    simp only [Instr.info, Bool.and_eq_true] at hshape
    exact ⟨_, returnsRounded_pair (by simp only [hshape]) (fun _ => rfl) rfl fun _ _ _ => by simp only [wide_pair]; rfl⟩

/-! ## The lanes that compute -/

theorem computing_of_uni {i : Instr} {d : Reg} (h : i.info.dst.any Reg.isUni = d.isUni) {c : Issue} (hc : c.lanes ≠ 0) (l : Nat) :
    l ∈ lanesFor d c ↔ (computing i c.lanes).getLsbD l = true := by
  unfold lanesFor computing
  rw [h]
  split
  · have := (lowest_mem hc).1
    simp only [List.mem_singleton, getLsbD_laneBit, Bool.and_eq_true, decide_eq_true_eq]
    exact ⟨fun e => ⟨e ▸ this, e⟩, And.right⟩
  · rw [mem_lanesOf]
    exact ⟨And.right, fun hl => ⟨lt_of_mask hl, hl⟩⟩

theorem laneRound_gen (k : Nat) (d : Reg) (f : LaneIn → Rounded) (x : LaneIn) :
    ((laneRound k d f x).gen).getD x.gen = (f x).gen := by
  unfold laneRound
  dsimp only
  split
  · exact Eq.symm ‹_›
  · rfl

/-- Settles O8: a word of returning class does what `runReturn_done` says, with the result of its row in every lane. -/
theorem floatReturns : Obligations.FloatReturns := by
  rintro s c w i d k ⟨x, hx⟩ hwf hi ha
  obtain ⟨f, hf⟩ := floatReturn_rounded hx hwf
  have hres : ∀ l, roundedOf (floatReturn s w l i) = f (s.laneIn w l) := fun l => by rw [hf.result]; rfl
  obtain ⟨t, w', hrun, hd⟩ := runReturn_done (f := laneRound k d f) hi ha
  refine ⟨t, w', (hf.exec s).trans hrun, ⟨hd.frame, hd.goOn, hd.masks, hd.regs, hd.flags⟩, ?_, ?_⟩
  · intro l hl
    obtain ⟨p, hp, hr⟩ := hd.result l ((computing_of_uni hf.uni hi.lanes l).mp hl)
    obtain ⟨hopen, hclob, hlate, hslot⟩ := hr.known
    simp only [hres]
    refine ⟨p, hp, ?_, ?_, hr.regs, hr.vals, hr.flags, hopen, hclob, hlate, hslot⟩
    · rw [hr.lane, hf.uni]
    · rw [hr.lanes, hf.uni]
  · intro l hl
    rw [hd.gens l hl]
    simp only [hres, computing_of_uni hf.uni hi.lanes]
    exact if_congr Iff.rfl (laneRound_gen k d f (s.laneIn w l)) rfl

end Sys2Proof.Machine
end

section
/-! XACQ on a track that lists two waves of one number (R28, R281). No hypothesis of GrantResults asks that wave numbers be
distinct (`WaveIds`), and the end of an issue moves the threads of every wave of the issuing wave's number. -/

namespace Sys2Proof.Machine
open Sys2Proof.Claims

/-- The wave that issues: 32 running threads on track 0 with a grant of 32. -/
def holderWave : Wave := { id := 1, gang := 2, track := some 0, threads := List.replicate 32 {} }

/-- A second wave of the same number on the same track, whose threads have ended: it uses none of the track's registers until
the issue moves its threads, and 32 from then on. -/
def twinWave : Wave := { holderWave with threads := List.replicate 32 { st := .ended } }

/-- Every thread of the first wave issues one word. -/
def twinIssue : Issue :=
  { wave := 1, lanes := BitVec.allOnes 32, pc := 4, word := 0, wordPc := 4, nextPc := 8, view := some holderWave }

/-- Track 0 has 64 registers (R32). -/
def twinState : State :=
  { trackCaps := [(0, 64)], cur := some twinIssue, waves := [holderWave, twinWave]
    gangs := [{ id := 2, launch := 3, place := some (0, 0) }] }

theorem thread_replicate (w : Wave) (t : Thread) (l n : Nat) (h : w.threads = List.replicate n t) :
    w.thread l = if l < n then t else { st := .ended } := by
  simp only [Wave.thread, h, List.getD_eq_getElem?_getD, List.getElem?_replicate]
  split <;> rfl

theorem twin_issuing : Issuing twinState twinIssue holderWave where
  cur := rfl
  wave := rfl
  single := rfl
  lanes := by decide
  runs l hl := by rw [thread_replicate holderWave {} l 32 rfl, if_pos (lt_of_mask hl)]

/-- A thread that is not held waits for nothing. -/
theorem not_waits_of_not_held {t : Thread} (h : ∀ x, t.st ≠ .held x) (x : Hold) : ¬ t.waits x := by
  rintro ⟨-, e | ⟨⟨y, e⟩, -⟩⟩
  · exact h x e
  · exact h y e

theorem twin_not_waiting {v : Wave} (hv : v ∈ twinState.waves) (l : Nat) (x : Hold) : ¬ (v.thread l).waits x := by
  apply not_waits_of_not_held
  intro y
  rcases List.mem_pair.mp hv with rfl | rfl
  · rw [thread_replicate holderWave {} l 32 rfl]; split <;> simp
  · rw [thread_replicate twinWave { st := .ended } l 32 rfl]; split <;> simp

/-- The grant of the first wave numbered 1 after a step. -/
def grantAfter : Host.Outcome State Fault Refusal → Option Nat
  | .next t => (t.wave? 1).map (·.grant)
  | _ => none

/-- Before the issue the track has 32 registers free; at its end it has none, and the XACQ is not served. -/
theorem twin_not_granted : twinState.trackFree 0 = 32 ∧ grantAfter (exec (.xacq .t48) twinState) = some 32 := by
  decide +kernel

/-- Refutes O30: of two waves of one number on one track the second, whose threads had ended, takes the track's registers as the
first issues its XACQ, so the grant is not raised at once although the track had the registers. -/
theorem not_grantResults : ¬ Obligations.GrantResults := by
  intro h
  obtain ⟨-, hacq, -, -⟩ := h twinState twinIssue holderWave .t48 twin_issuing ⟨_, rfl, rfl, rfl⟩
  obtain ⟨t, w', hexec, hw', -, hroom, -⟩ := hacq 0 (by decide) rfl fun v hv _ l x hx => absurd hx (twin_not_waiting hv l x)
  obtain ⟨hfree, hgrant⟩ := twin_not_granted
  obtain ⟨hraised, -⟩ := hroom (by rw [hfree]; decide)
  rw [hexec, grantAfter, show t.wave? 1 = some w' from hw'] at hgrant
  simp only [Option.map_some, Option.some.injEq, hraised] at hgrant
  exact absurd hgrant (by decide)

end Sys2Proof.Machine
end

section
/-! The end of gangs (R258, R263, R364), said once: `EndStep` is what the abort or squash of a gang may change, and
`endFold_split` what a sequence of them does to one gang. -/

namespace Sys2Proof.Machine
open Sys2Proof.Claims

/-! ## Units found after a change of those of one number -/

section Find
variable {α : Type} {k : α → Nat} {f : α → α}

/-- A change that keeps the numbers changes the first of its number, and no first of another. -/
theorem find?_modBy_key (hf : ∀ x, k (f x) = k x) (l : List α) (id id' : Nat) :
    (modBy l (fun x => k x == id) f).find? (fun x => k x == id') =
      (l.find? fun x => k x == id').map fun x => if id' = id then f x else x := by
  induction l with
  | nil => rfl
  | cons x l ih =>
    have hk : k (if (k x == id) = true then f x else x) = k x := by split <;> simp [hf]
    rw [modBy] at ih ⊢
    rw [List.map_cons]
    by_cases h' : k x = id'
    · rw [List.find?_cons_of_pos (by rw [hk]; simpa using h'), List.find?_cons_of_pos (by simp [h'])]
      simp [h']
    · rw [List.find?_cons_of_neg (by rw [hk]; simpa using h'), List.find?_cons_of_neg (by simp [h']), ih]

/-- Lists related one by one, with the numbers kept, have related first elements of a number. -/
theorem find?_forall₂_key {R : α → α → Prop} (hR : ∀ x y, R x y → k y = k x) {id : Nat} {x : α} :
    ∀ {xs ys : List α}, List.Forall₂ R xs ys → xs.find? (fun x => k x == id) = some x →
      ∃ y, ys.find? (fun x => k x == id) = some y ∧ R x y
  | _, _, .nil, h => by simp at h
  | a :: xs, b :: ys, .cons hab hs, h => by
    by_cases ha : k a = id
    · rw [List.find?_cons_of_pos (by simpa using ha), Option.some.injEq] at h
      subst h
      exact ⟨b, List.find?_cons_of_pos (by simpa [hR _ _ hab] using ha), hab⟩
    · rw [List.find?_cons_of_neg (by simpa using ha)] at h
      obtain ⟨y, hy, hr⟩ := find?_forall₂_key hR hs h
      exact ⟨y, by rw [List.find?_cons_of_neg (by simpa [hR _ _ hab] using ha)]; exact hy, hr⟩

end Find

theorem gang?_modGang {s : State} {id id' : Nat} {f : Gang → Gang} (hf : ∀ g, (f g).id = g.id) :
    (s.modGang id f).gang? id' = (s.gang? id').map fun g => if id' = id then f g else g :=
  find?_modBy_key hf s.gangs id id'

theorem gang?_id {s : State} {id : Nat} {g : Gang} (h : s.gang? id = some g) : g.id = id := by
  simpa using List.find?_some h

theorem gang?_mem {s : State} {id : Nat} {g : Gang} (h : s.gang? id = some g) : g ∈ s.gangs := List.mem_of_find?_eq_some h

/-- Where the numbers are distinct every gang is the first of its number. -/
theorem gang?_of_mem {s : State} (hd : s.gangs.Pairwise fun x y => x.id ≠ y.id) {g : Gang} (hg : g ∈ s.gangs) :
    s.gang? g.id = some g := by
  unfold State.gang?
  generalize s.gangs = gs at hd hg
  induction gs with
  | nil => cases hg
  | cons x gs ih =>
    obtain ⟨hx, hgs⟩ := List.pairwise_cons.mp hd
    rcases List.mem_cons.mp hg with rfl | hg
    · exact List.find?_cons_of_pos (by simp)
    · rw [List.find?_cons_of_neg (by simpa using hx g hg)]
      exact ih hgs hg

/-! ## A track's service changes waves alone -/

theorem testGrants_rest (t : Nat) : ∀ (n : Nat) (s : State),
    State.testGrants t n s = { s with waves := (State.testGrants t n s).waves }
  | 0, _ => rfl
  | n + 1, s => by
    unfold State.testGrants
    split
    · rfl
    · rw [testGrants_rest t n]
      rfl

theorem settleTracks_rest (ts : List Nat) (s : State) : s.settleTracks ts = { s with waves := (s.settleTracks ts).waves } := by
  unfold State.settleTracks
  induction ts generalizing s with
  | nil => rfl
  | cons t ts ih => rw [List.foldl_cons, ih, testGrants_rest]

theorem settleTracks_settled (ts : List Nat) (s : State) : Settled s (s.settleTracks ts) :=
  Settled.foldl (fun s t => testGrants_settled t _ s) ts s

/-! ## What the end of gangs may change -/

/-- A wave keeps its number and gang, and no thread that has ended begins again. -/
structure WaveEnds (v v' : Wave) : Prop where
  id    : v'.id = v.id
  gang  : v'.gang = v.gang
  ended : ∀ l, (v.thread l).st = .ended → (v'.thread l).st = .ended

/-- A gang keeps all but its commands and how it stands; once it has ended it stays so, and an abort that is due stays due. -/
structure GangEnds (g g' : Gang) : Prop where
  rest  : g' = { g with st := g'.st, tileQ := g'.tileQ, bins := g'.bins, tidOps := g'.tidOps, rkOps := g'.rkOps
                        queues := g'.queues, due := g'.due }
  ended : g.st ≠ .live → g'.st = g.st

/-- What the abort or squash of a gang, or one that is put off, may change. -/
structure EndStep (s t : State) : Prop where
  rest  : t = { s with fresh := t.fresh, waves := t.waves, fills := t.fills, sunk := t.sunk, versions := t.versions
                       gangs := t.gangs, states := t.states, colls := t.colls }
  waves : List.Forall₂ WaveEnds s.waves t.waves
  gangs : ∀ id g, s.gang? id = some g → ∃ g', t.gang? id = some g' ∧ GangEnds g g'

theorem WaveEnds.refl (v : Wave) : WaveEnds v v := ⟨rfl, rfl, fun _ h => h⟩
theorem GangEnds.refl (g : Gang) : GangEnds g g := ⟨rfl, fun _ => rfl⟩

theorem WaveEnds.trans {a b c : Wave} (h : WaveEnds a b) (h' : WaveEnds b c) : WaveEnds a c :=
  ⟨h'.id.trans h.id, h'.gang.trans h.gang, fun l hl => h'.ended l (h.ended l hl)⟩

theorem GangEnds.trans {a b c : Gang} (h : GangEnds a b) (h' : GangEnds b c) : GangEnds a c :=
  ⟨by rw [h'.rest, h.rest], fun hl => (h'.ended (by rw [h.ended hl]; exact hl)).trans (h.ended hl)⟩

theorem GangEnds.id {g g' : Gang} (h : GangEnds g g') : g'.id = g.id := by rw [h.rest]
theorem GangEnds.launch {g g' : Gang} (h : GangEnds g g') : g'.launch = g.launch := by rw [h.rest]

theorem EndStep.refl (s : State) : EndStep s s :=
  ⟨rfl, forall₂_refl WaveEnds.refl _, fun _ g hg => ⟨g, hg, .refl g⟩⟩

theorem EndStep.trans {a b c : State} (h : EndStep a b) (h' : EndStep b c) : EndStep a c where
  rest := by rw [h'.rest, h.rest]
  waves := forall₂_trans (R := WaveEnds) (fun _ _ _ => WaveEnds.trans) h.waves h'.waves
  gangs id g hg := by
    obtain ⟨g1, hg1, hk⟩ := h.gangs id g hg
    obtain ⟨g2, hg2, hk'⟩ := h'.gangs id g1 hg1
    exact ⟨g2, hg2, hk.trans hk'⟩

theorem EndStep.foldl {α : Type} {F : State → α → State} (h : ∀ s x, EndStep s (F s x)) :
    ∀ (l : List α) (s : State), EndStep s (l.foldl F s)
  | [], s => .refl s
  | x :: l, s => (h s x).trans (EndStep.foldl h l (F s x))

/-- A release ends no thread's end. -/
theorem WaveKept.ends {s : State} {v v' : Wave} (h : WaveKept s v v') : WaveEnds v v' where
  id := h.id
  gang := h.gang
  ended l hl := by
    have := (h.threads l).of_run (by simp [hl])
    rw [← hl, ← this]

/-- A gang that has been aborted stays so. -/
theorem EndStep.aborted {s t : State} (h : EndStep s t) {gid code : Nat} (ha : Aborted s gid code) : Aborted t gid code := by
  obtain ⟨⟨g, f, hg, hst, hf⟩, hw⟩ := ha
  obtain ⟨g', hg', hk⟩ := h.gangs gid g hg
  refine ⟨⟨g', f, hg', (hk.ended (by simp [hst])).trans hst, hf⟩, fun v' hv' he l => ?_⟩
  obtain ⟨v, hv, hk⟩ := forall₂_mem h.waves hv'
  exact hk.ended l (hw v hv (hk.gang ▸ he) l)

/-! ## The end of one gang (R258, R364) -/

/-- The gang as it ends. -/
def Gang.endedAs (st : GangSt) (g : Gang) : Gang :=
  { g with st := st, tileQ := g.tileQ.filter (·.started), bins := [], tidOps := [], rkOps := [], queues := g.queues.map LiftQ.cut }

/-- A wave of the gang as it ends. -/
def Wave.endedAll (w : Wave) : Wave :=
  { w with monitor := none, pend := []
           threads := w.threads.map fun t => { t with st := .ended, parked := none, todo := [], group := none } }

theorem thread_endedAll (w : Wave) (l : Nat) : (w.endedAll.thread l).st = .ended := by
  simp only [Wave.endedAll, Wave.thread, List.getD_eq_getElem?_getD, List.getElem?_map]
  cases w.threads[l]? <;> rfl

theorem endGang_none {s : State} {gid : Nat} {st : GangSt} (h : ∀ g, s.gang? gid = some g → g.st ≠ .live) :
    s.endGang gid st = s := by
  unfold State.endGang
  split
  · rfl
  · next g hg => rw [if_pos (by simpa using h g hg)]

/-- What the end of a live gang does, before the tracks of its waves serve their XACQs. -/
theorem endGang_live {s : State} {gid : Nat} {st : GangSt} {g : Gang} (hg : s.gang? gid = some g) (hl : g.st = .live) :
    ∃ (u : State) (ts : List Nat), s.endGang gid st = u.settleTracks ts ∧
      u = { s with waves := modBy s.waves (fun w => w.gang == gid) Wave.endedAll
                   gangs := modBy s.gangs (fun g => g.id == gid) (Gang.endedAs st)
                   fills := u.fills, sunk := u.sunk, versions := u.versions, states := u.states, colls := u.colls } := by
  unfold State.endGang
  rw [hg]
  dsimp only
  rw [if_neg (by simp [hl])]
  refine ⟨_, _, rfl, ?_⟩
  split <;> rfl

/-- What a service of tracks, after the waves' gangs have been changed, leaves of an end. -/
theorem EndStep.settleTracks (s : State) (ts : List Nat) : EndStep s (s.settleTracks ts) where
  rest := by rw [settleTracks_rest]
  waves := forall₂_imp (fun _ _ => WaveKept.ends) (settleTracks_settled ts s).waves
  gangs id g hg := ⟨g, by rw [settleTracks_rest]; exact hg, .refl g⟩

theorem endedAll_ends (v : Wave) : WaveEnds v v.endedAll := ⟨rfl, rfl, fun l _ => thread_endedAll v l⟩

/-- The waves and gangs of an end, before any service of tracks. -/
theorem endGang_first {s u : State} {gid : Nat} {st : GangSt} {g : Gang} (hg : s.gang? gid = some g) (hl : g.st = .live)
    (hu : u = { s with waves := modBy s.waves (fun w => w.gang == gid) Wave.endedAll
                       gangs := modBy s.gangs (fun g => g.id == gid) (Gang.endedAs st)
                       fills := u.fills, sunk := u.sunk, versions := u.versions, states := u.states, colls := u.colls }) :
    EndStep s u ∧ (∀ id, u.gang? id = (s.gang? id).map fun g => if id = gid then g.endedAs st else g) ∧
      ∀ v ∈ u.waves, v.gang = gid → ∀ l, (v.thread l).st = .ended := by
  have hgang : ∀ id, u.gang? id = (s.gang? id).map fun g => if id = gid then g.endedAs st else g := fun id => by
    rw [hu]; exact find?_modBy_key (k := Gang.id) (f := Gang.endedAs st) (fun _ => rfl) s.gangs gid id
  have hwaves : u.waves = modBy s.waves (fun w => w.gang == gid) Wave.endedAll := by rw [hu]
  refine ⟨⟨by rw [hu], ?_, fun id x hx => ?_⟩, hgang, ?_⟩
  · rw [hwaves]
    refine forall₂_map (fun v => ?_) s.waves
    split
    · exact endedAll_ends v
    · exact .refl v
  · rw [hgang, hx]
    refine ⟨_, rfl, ?_⟩
    split
    · next e =>
      subst e
      obtain rfl : g = x := Option.some.inj (hg.symm.trans hx)
      exact ⟨rfl, fun h => absurd hl h⟩
    · exact .refl x
  · rw [hwaves]
    intro v hv he l
    obtain ⟨x, -, rfl⟩ := List.mem_map.mp (show v ∈ s.waves.map _ from hv)
    by_cases h : x.gang = gid
    · simp only [h, beq_self_eq_true, if_true]
      exact thread_endedAll x l
    · simp [h] at he

theorem endGang_step (s : State) (gid : Nat) (st : GangSt) : EndStep s (s.endGang gid st) := by
  by_cases h : ∃ g, s.gang? gid = some g ∧ g.st = .live
  · obtain ⟨g, hg, hl⟩ := h
    obtain ⟨u, ts, he, hu⟩ := endGang_live (st := st) hg hl
    rw [he]
    exact (endGang_first hg hl hu).1.trans (.settleTracks u ts)
  · rw [endGang_none fun g hg hl => h ⟨g, hg, hl⟩]
    exact .refl s

/-- A gang of another number is left alone. -/
theorem endGang_other (s : State) {gid id : Nat} (st : GangSt) (h : id ≠ gid) : (s.endGang gid st).gang? id = s.gang? id := by
  by_cases hx : ∃ g, s.gang? gid = some g ∧ g.st = .live
  · obtain ⟨g, hg, hl⟩ := hx
    obtain ⟨u, ts, he, hu⟩ := endGang_live (st := st) hg hl
    rw [he, settleTracks_rest]
    refine ((endGang_first hg hl hu).2.1 id).trans ?_
    simp [h]
  · rw [endGang_none fun g hg hl => hx ⟨g, hg, hl⟩]

/-- A live gang ends, with its threads. -/
theorem endGang_ends {s : State} {gid : Nat} (st : GangSt) {g : Gang} (hg : s.gang? gid = some g) (hl : g.st = .live) :
    (s.endGang gid st).gang? gid = some (g.endedAs st) ∧
      ∀ v ∈ (s.endGang gid st).waves, v.gang = gid → ∀ l, (v.thread l).st = .ended := by
  obtain ⟨u, ts, he, hu⟩ := endGang_live (st := st) hg hl
  obtain ⟨-, hgang, hend⟩ := endGang_first hg hl hu
  rw [he]
  constructor
  · rw [settleTracks_rest]
    refine (hgang gid).trans ?_
    simp [hg]
  · intro v' hv' e l
    obtain ⟨v, hv, hk⟩ := forall₂_mem (EndStep.settleTracks u ts).waves hv'
    exact hk.ended l (hend v hv (hk.gang ▸ e) l)

/-! ## Aborts (R258, R263) -/

theorem waves_ids_map {s t : State} (h : EndStep s t) :
    t.waves.map (fun v => (v.id, v.gang)) = s.waves.map fun v => (v.id, v.gang) := by
  have : ∀ {xs ys : List Wave}, List.Forall₂ WaveEnds xs ys →
      ys.map (fun v => (v.id, v.gang)) = xs.map fun v => (v.id, v.gang) := by
    intro xs ys hf
    induction hf with
    | nil => rfl
    | cons hk _ ih => rw [List.map_cons, List.map_cons, ih, hk.id, hk.gang]
  exact this h.waves

/-- Whether a gang's commits are performed does not depend on the end of gangs (R206). -/
theorem EndStep.commitsDone {s t : State} (h : EndStep s t) {g g' : Gang} (hk : GangEnds g g') :
    t.commitsDone g' = s.commitsDone g := by
  have hany : ∀ w gang, t.waves.any (fun v => v.id == w && v.gang == gang) = s.waves.any fun v => v.id == w && v.gang == gang := by
    intro w gang
    have := congrArg (List.any · fun x : Nat × Nat => x.1 == w && x.2 == gang) (waves_ids_map h)
    simpa only [List.any_map, Function.comp_def] using this
  have hof : ∀ gang, t.commitOf gang = s.commitOf gang := fun gang => by
    funext b
    unfold State.commitOf
    simp only [hany]
  have hl : t.launches = s.launches := by rw [h.rest]
  have hf : t.flows = s.flows := by rw [h.rest]
  simp only [State.commitsDone, State.versioned, State.launchOf, State.launch?, State.commitsOut, hof, hl, hf, hk.id, hk.launch]

theorem freshen_step (s : State) : EndStep s s.freshen :=
  ⟨rfl, forall₂_refl WaveEnds.refl _, fun _ g hg => ⟨g, hg, .refl g⟩⟩

theorem abortGang_done {s : State} {gid : Nat} {f : GangFault} {g : Gang} (hg : s.gang? gid = some g) (hd : s.commitsDone g = true) :
    s.abortGang gid f = s.endGang gid (.aborted f) := by simp [State.abortGang, hg, hd]

theorem abortGang_due {s : State} {gid : Nat} {f : GangFault} {g : Gang} (hg : s.gang? gid = some g) (hd : s.commitsDone g = false) :
    s.abortGang gid f = s.modGang gid fun g => { g with due := g.due.or (some f) } := by simp [State.abortGang, hg, hd]

theorem abortGang_none {s : State} {gid : Nat} {f : GangFault} (hg : s.gang? gid = none) : s.abortGang gid f = s := by
  simp [State.abortGang, hg]

theorem gang?_due (s : State) (gid : Nat) (f : GangFault) (id : Nat) :
    (s.modGang gid fun g => { g with due := g.due.or (some f) }).gang? id =
      (s.gang? id).map fun g => if id = gid then { g with due := g.due.or (some f) } else g := gang?_modGang fun _ => rfl

theorem abortGang_step (s : State) (gid : Nat) (f : GangFault) : EndStep s (s.abortGang gid f) := by
  cases hg : s.gang? gid with
  | none => rw [abortGang_none hg]; exact .refl s
  | some g =>
    cases hd : s.commitsDone g with
    | true => rw [abortGang_done hg hd]; exact endGang_step s gid _
    | false =>
      rw [abortGang_due hg hd]
      refine ⟨rfl, forall₂_refl WaveEnds.refl _, fun id x hx => ⟨_, by rw [gang?_due, hx]; rfl, ?_⟩⟩
      split
      · exact ⟨rfl, fun _ => rfl⟩
      · exact .refl x

theorem abortGang_other (s : State) {gid id : Nat} (f : GangFault) (h : id ≠ gid) : (s.abortGang gid f).gang? id = s.gang? id := by
  cases hg : s.gang? gid with
  | none => rw [abortGang_none hg]
  | some g =>
    cases hd : s.commitsDone g with
    | true => rw [abortGang_done hg hd]; exact endGang_other s _ h
    | false => rw [abortGang_due hg hd, gang?_due]; simp [h]

theorem abortFree_step (s : State) (gid code : Nat) : EndStep s (s.abortFree gid code) :=
  (freshen_step s).trans (abortGang_step _ _ _)

theorem abortFree_other (s : State) {gid id : Nat} (code : Nat) (h : id ≠ gid) : (s.abortFree gid code).gang? id = s.gang? id :=
  abortGang_other s.freshen _ h

/-- A live gang whose commits are performed aborts at once. -/
theorem abortFree_aborted {s : State} {gid : Nat} (code : Nat) {g : Gang} (hg : s.gang? gid = some g) (hl : g.st = .live)
    (hd : s.commitsDone g = true) : Aborted (s.abortFree gid code) gid code := by
  have he : s.abortFree gid code = s.freshen.endGang gid (.aborted { code, pc := freePc s.fresh }) := abortGang_done hg hd
  obtain ⟨hst, hend⟩ := endGang_ends (s := s.freshen) (.aborted { code, pc := freePc s.fresh }) hg hl
  rw [he]
  exact ⟨⟨_, _, hst, rfl, rfl⟩, hend⟩

/-! ## Several gangs, one after the other -/

/-- An end of one gang by its number. -/
structure Ends (F : State → Nat → State) : Prop where
  step  : ∀ s gid, EndStep s (F s gid)
  other : ∀ s {gid id : Nat}, id ≠ gid → (F s gid).gang? id = s.gang? id

theorem abortFree_ends (code : Nat) : Ends fun s gid => s.abortFree gid code :=
  ⟨fun s gid => abortFree_step s gid code, fun s => abortFree_other s code⟩

theorem endGang_isEnd (st : GangSt) : Ends fun s gid => s.endGang gid st :=
  ⟨fun s gid => endGang_step s gid st, fun s => endGang_other s st⟩

section Fold
variable {F : State → Nat → State} (hF : Ends F)
include hF

/-- A gang that is none of them is left alone. -/
theorem endFold_other {id : Nat} : ∀ (ids : List Nat) (s : State), id ∉ ids → (ids.foldl F s).gang? id = s.gang? id
  | [], _, _ => rfl
  | x :: ids, s, h => by
    rw [List.foldl_cons, endFold_other ids _ fun hm => h (by simp [hm]), hF.other s fun e => h (by simp [e])]

/-- A gang that is one of them stands as before when its turn first comes. -/
theorem endFold_split {id : Nat} {ids : List Nat} (s : State) (h : id ∈ ids) :
    ∃ u, EndStep s u ∧ u.gang? id = s.gang? id ∧ EndStep (F u id) (ids.foldl F s) := by
  obtain ⟨xs, ys, rfl, hx⟩ := List.eq_append_cons_of_mem h
  refine ⟨xs.foldl F s, EndStep.foldl hF.step xs s, endFold_other hF xs s hx, ?_⟩
  rw [List.foldl_append, List.foldl_cons]
  exact EndStep.foldl hF.step ys _

end Fold

/-- Of several gangs that are aborted in turn, a live one whose commits are performed is aborted. -/
theorem abortFold_aborted {s : State} {gid code : Nat} {ids : List Nat} (h : gid ∈ ids) {g : Gang} (hg : s.gang? gid = some g)
    (hl : g.st = .live) (hd : s.commitsDone g = true) : Aborted (ids.foldl (fun t g => State.abortFree t g code) s) gid code := by
  obtain ⟨u, hsu, hgu, hut⟩ := endFold_split (abortFree_ends code) s h
  exact hut.aborted (abortFree_aborted code (hgu.trans hg) hl ((hsu.commitsDone (.refl g)).trans hd))

end Sys2Proof.Machine
end

section
/-! The landing of an outstanding result (R34, R35, R123), said once: `land_eq`, `land_pend`, `land_raw` and `land_recs`. -/

namespace Sys2Proof.Machine
open Sys2Proof.Claims

/-! ## The values that land -/

theorem fst_mem_of_landing {use : Nat} {w : Wave} {p : Pending} {x : Reg × Word} (h : x ∈ p.landing use w) : x.1 ∈ p.regs := by
  obtain ⟨y, hy, rfl⟩ := List.mem_map.mp h
  have hm : y.1 ∈ p.regs := (List.of_mem_zip hy).1
  split <;> exact hm

/-- A register that the result does not name keeps its value. -/
theorem written_landing_of_not_mem {use : Nat} {w : Wave} {p : Pending} {r : Reg} (d : Word) (h : r ∉ p.regs) :
    written (p.landing use w) r d = d :=
  written_of_not_mem fun hm => by
    obtain ⟨x, hx, rfl⟩ := List.mem_map.mp hm
    exact h (fst_mem_of_landing hx)

/-- Where no other write fell between, and the value was known at issue, the result's own values land (R35). -/
theorem landing_known (use : Nat) (w : Wave) {p : Pending} (hc : p.clob = []) (hs : p.seen = []) :
    p.landing use w = p.regs.zip p.vals := by
  simp [Pending.landing, Pending.lateVals, hc, hs]

/-- Of distinct registers, each gets its value. -/
theorem written_zip : ∀ {rs : List Reg} {xs : List Word} {j : Nat} (d : Word), rs.Nodup → rs.length = xs.length → j < rs.length →
    written (rs.zip xs) (rs.getD j (.s 31)) d = xs.getD j 0
  | r :: rs, x :: xs, 0, d, hn, _, _ => by
    have hr : r ∉ (rs.zip xs).map Prod.fst := fun hm => by
      obtain ⟨y, hy, rfl⟩ := List.mem_map.mp hm
      exact (List.nodup_cons.mp hn).1 (List.of_mem_zip hy).1
    simp [written_of_not_mem hr]
  | r :: rs, x :: xs, j + 1, d, hn, he, hj => by
    simpa using written_zip _ (List.nodup_cons.mp hn).2 (by simpa using he) (by simpa using hj)

/-! ## The wave after a landing -/

/-- The wave with the registers and the record slot of the landing result written. -/
def Wave.landRegs (use : Nat) (w : Wave) (p : Pending) : Wave :=
  let v : Wave := { w with pend := w.pend.filter fun q => q.id != p.id }
  match p.lane with
  | some l => (v.putLanes (laneBit l) fun _ => p.landing use w).modThread l fun t => t.landSlot p
  | none => v.putUnis (p.landing use w)

/-- What a landing notes in another result: the values of a slot that a late read waits for (R124). -/
def Pending.seen? (use : Nat) (w : Wave) (p q : Pending) : Pending :=
  match p.lane, p.slot with
  | some l, some (i, code) => if ((w.landRegs use p).thread l).owns i p then q.seeSlot l i p.id code else q
  | _, _ => q

theorem land_landRegs (use : Nat) (w : Wave) (p : Pending) :
    w.land use p =
      let v := w.landRegs use p
      let u : Wave := match p.lane, p.slot with
        | some l, some (i, code) =>
          if (v.thread l).owns i p then { v with pend := v.pend.map fun (q : Pending) => q.seeSlot l i p.id code } else v
        | _, _ => v
      { u with xstat := u.xstat ||| p.flags } := rfl

theorem land_def (use : Nat) (w : Wave) (p : Pending) :
    w.land use p = { w.landRegs use p with pend := (w.landRegs use p).pend.map (p.seen? use w)
                                           xstat := (w.landRegs use p).xstat ||| p.flags } := by
  rw [land_landRegs]
  unfold Pending.seen?
  generalize w.landRegs use p = v
  cases p.lane with
  | none => simp
  | some l =>
    cases p.slot with
    | none => simp
    | some x =>
      by_cases ho : (v.thread l).owns x.1 p = true <;> simp [ho]

theorem landRegs_eq (use : Nat) (w : Wave) (p : Pending) :
    w.landRegs use p = { w with s := (w.landRegs use p).s, pend := (w.landRegs use p).pend, threads := (w.landRegs use p).threads } := by
  unfold Wave.landRegs
  cases p.lane with
  | none => simp only; rw [putUnis_eq]
  | some l => rfl

/-- A landing changes registers, flags, what is outstanding and the threads. -/
theorem land_eq (use : Nat) (w : Wave) (p : Pending) :
    w.land use p = { w with s := (w.land use p).s, xstat := w.xstat ||| p.flags, pend := (w.land use p).pend
                            threads := (w.land use p).threads } := by
  rw [land_def, landRegs_eq]

/-! ### What is outstanding -/

theorem seeSlot_kept (q : Pending) (l i pid code : Nat) : PendingKept q (q.seeSlot l i pid code) := by
  unfold Pending.seeSlot PendingKept
  split <;> rfl

theorem seen?_kept (use : Nat) (w : Wave) (p q : Pending) : PendingKept q (p.seen? use w q) := by
  unfold Pending.seen?
  split
  · split
    · exact seeSlot_kept ..
    · rfl
  · rfl

/-- The other results stay outstanding, and only what they note of other writes differs. -/
theorem landRegs_pend (use : Nat) (w : Wave) (p : Pending) :
    ∃ f, (∀ q, PendingKept q (f q)) ∧ (w.landRegs use p).pend = (w.pend.filter fun q => q.id != p.id).map f := by
  unfold Wave.landRegs
  cases p.lane with
  | none => exact ⟨_, fun q => (seeUni_kept (p.landing use w) q).trans (markUni_kept _ _), rfl⟩
  | some l =>
    exact ⟨_, fun q => (seeLane_kept (laneBit l) (fun _ => p.landing use w) q).trans
      (markLane_kept (laneBit l) (fun _ => p.landing use w) _), rfl⟩

theorem land_pend (use : Nat) (w : Wave) (p : Pending) :
    ∃ f, (∀ q, PendingKept q (f q)) ∧ (w.land use p).pend = (w.pend.filter fun q => q.id != p.id).map f := by
  obtain ⟨f, hf, he⟩ := landRegs_pend use w p
  refine ⟨fun q => p.seen? use w (f q), fun q => (hf q).trans (seen?_kept use w p _), ?_⟩
  rw [land_def]
  simp only [he, List.map_map]
  rfl

/-! ### Threads -/

theorem landSlot_eq (t : Thread) (p : Pending) : t.landSlot p = { t with recs := (t.landSlot p).recs } := by
  unfold Thread.landSlot
  split
  · rfl
  · split <;> rfl

theorem land_thread (use : Nat) (w : Wave) (p : Pending) (l : Nat) :
    (w.land use p).thread l = if p.lane = some l ∧ l < 32 ∧ l < w.threads.length then
        ((w.thread l).putAll (p.landing use w)).landSlot p else w.thread l := by
  have h : (w.land use p).thread l = (w.landRegs use p).thread l := by rw [land_def]; rfl
  rw [h, Wave.landRegs]
  cases hp : p.lane with
  | none => simp only; rw [putUnis_eq]; simp [Wave.thread]
  | some k =>
    have hlen : ∀ v : Wave, v.threads.length = w.threads.length →
        (v.putLanes (laneBit k) fun _ => p.landing use w).threads.length = w.threads.length :=
      fun v hv => (length_mapLanes ..).trans hv
    simp only [Wave.modThread, thread_mapLanes, thread_putLanes, hlen, getLsbD_laneBit, Bool.and_eq_true, decide_eq_true_eq,
      Option.some.injEq]
    by_cases h : (l < 32 ∧ l = k) ∧ l < w.threads.length
    · obtain ⟨⟨h32, rfl⟩, hl⟩ := h
      simp [h32, hl, Wave.thread]
    · have h' : ¬ (k = l ∧ l < 32 ∧ l < w.threads.length) := fun e => h ⟨⟨e.2.1, e.1.symm⟩, e.2.2⟩
      simp only [h, h', if_false]
      rfl

theorem land_thread_eq (use : Nat) (w : Wave) (p : Pending) (l : Nat) :
    (w.land use p).thread l = { w.thread l with v := ((w.land use p).thread l).v, recs := ((w.land use p).thread l).recs } := by
  rw [land_thread]
  split
  · rw [landSlot_eq, putAll_eq]
  · rfl

/-! ### Registers -/

/-- Does the result write register `r` of lane `l`: its lane's v registers, or the wave's uniform ones? -/
def Pending.writesTo (p : Pending) (w : Wave) (l : Nat) (r : Reg) : Prop :=
  r.isUni = p.lane.isNone ∧ r ≠ .s 31 ∧ ∀ k, p.lane = some k → k = l ∧ k < w.threads.length ∧ k < 32

open Classical in
theorem land_raw (use : Nat) (w : Wave) (p : Pending) (l : Nat) (r : Reg) :
    (w.land use p).raw l r = if p.writesTo w l r then written (p.landing use w) r (w.raw l r) else w.raw l r := by
  cases r with
  | v n =>
    have hw : p.writesTo w l (.v n) ↔ p.lane = some l ∧ l < 32 ∧ l < w.threads.length := by
      unfold Pending.writesTo
      cases p.lane with
      | none => simp [Reg.isUni]
      | some k =>
        simp only [Reg.isUni, Option.isNone_some, ne_eq, reduceCtorEq, not_false_eq_true, Option.some.injEq, true_and]
        exact ⟨fun h => by obtain ⟨rfl, h1, h2⟩ := h k rfl; exact ⟨rfl, h2, h1⟩, fun ⟨e, h2, h1⟩ j hj => by
          subst hj; exact ⟨e, e ▸ h1, e ▸ h2⟩⟩
    simp only [Wave.raw, land_thread, hw]
    split
    · rw [landSlot_eq]; exact putAll_get _ _ n
    · rfl
  | s n =>
    have hs : (w.land use p).s = match p.lane with
        | some _ => w.s
        | none => ((p.landing use w).foldl Wave.putUni { w with pend := w.pend.filter fun q => q.id != p.id }).s := by
      rw [land_def, Wave.landRegs]
      cases p.lane <;> rfl
    by_cases hn : n = 31
    · subst hn; simp [Wave.raw, Pending.writesTo]
    · simp only [Wave.raw, hn, if_false, hs]
      cases hp : p.lane with
      | some k => simp [Pending.writesTo, hp, Reg.isUni]
      | none =>
        simp only [Pending.writesTo, hp, Reg.isUni, Option.isNone_none, ne_eq, Reg.s.injEq, hn, not_false_eq_true, reduceCtorEq,
          false_implies, implies_true, and_self, if_true]
        exact putUniFold_s _ _ n hn

/-! ### Record slots (R123) -/

/-- Slot `j` after slot `i` has been set. -/
theorem extract_slot (x : BitVec 64) (c i j : Nat) (hj : j < 16) :
    ((x &&& ~~~(0xF#64 <<< (4 * i))) ||| (BitVec.ofNat 64 (c % 16) <<< (4 * i))).extractLsb' (4 * j) 4 =
      if i = j then BitVec.ofNat 4 c else x.extractLsb' (4 * j) 4 := by
  have hF : ∀ b, (0xF#64 : BitVec 64).getLsbD b = decide (b < 4) := fun b => by
    by_cases hb : b < 4
    · have : b = 0 ∨ b = 1 ∨ b = 2 ∨ b = 3 := by omega
      rcases this with rfl | rfl | rfl | rfl <;> rfl
    · rw [BitVec.getLsbD_ofNat, show (15 : Nat) = 2 ^ 4 - 1 from rfl, Nat.testBit_two_pow_sub_one]; simp [hb]
  have hC : ∀ b, (BitVec.ofNat 64 (c % 16)).getLsbD b = (decide (b < 4) && c.testBit b) := fun b => by
    rw [BitVec.getLsbD_ofNat, show (16 : Nat) = 2 ^ 4 from rfl, Nat.testBit_mod_two_pow]
    by_cases hb : b < 4
    · simp [hb, show b < 64 by omega]
    · simp [hb]
  apply BitVec.eq_of_getLsbD_eq
  intro b hb
  simp only [BitVec.getLsbD_extractLsb', hb, decide_true, Bool.true_and, BitVec.getLsbD_or, BitVec.getLsbD_and, BitVec.getLsbD_not,
    BitVec.getLsbD_shiftLeft, hF, hC, show 4 * j + b < 64 by omega]
  by_cases hij : i = j
  · subst hij
    rw [if_pos rfl, BitVec.getLsbD_ofNat]
    simp [hb]
  · rw [if_neg hij, BitVec.getLsbD_extractLsb']
    by_cases hlt : 4 * j + b < 4 * i
    · simp [hlt, hb]
    · have : ¬ 4 * j + b - 4 * i < 4 := by omega
      simp [hlt, hb, this]

theorem landSlot_slot (t : Thread) (p : Pending) (j : Nat) (hj : j < 16) :
    (t.landSlot p).recs.extractLsb' (4 * j) 4 = match p.slot with
      | some (i, c) => if i = j ∧ t.owns i p = true then BitVec.ofNat 4 c else t.recs.extractLsb' (4 * j) 4
      | none => t.recs.extractLsb' (4 * j) 4 := by
  unfold Thread.landSlot
  cases p.slot with
  | none => rfl
  | some x =>
    dsimp only
    by_cases ho : t.owns x.1 p = true
    · rw [if_pos ho]
      simp only [extract_slot _ _ _ _ hj, ho, and_true]
    · simp [ho]

theorem putAll_owns (t : Thread) (ws : List (Reg × Word)) (i : Nat) (p : Pending) : (t.putAll ws).owns i p = t.owns i p := by
  rw [putAll_eq]; rfl

theorem putAll_recs (t : Thread) (ws : List (Reg × Word)) : (t.putAll ws).recs = t.recs := by rw [putAll_eq]

/-- The landing sets the slot that its group was the last to name. -/
theorem land_slot (use : Nat) (w : Wave) {p : Pending} {l i c : Nat} (hl : p.lane = some l) (hs : p.slot = some (i, c)) (hi : i < 16)
    (hlt : l < w.threads.length) (h32 : l < 32) (ho : (w.thread l).owns i p = true) :
    ((w.land use p).thread l).recs.extractLsb' (4 * i) 4 = BitVec.ofNat 4 c := by
  rw [land_thread, if_pos ⟨hl, h32, hlt⟩, landSlot_slot _ _ _ hi, hs]
  simp [putAll_owns, ho]

/-- Every other slot is as before. -/
theorem land_slot_other (use : Nat) (w : Wave) {p : Pending} {l j : Nat} (hj : j < 16)
    (h : p.lane ≠ some l ∨ ∀ c, p.slot ≠ some (j, c)) :
    ((w.land use p).thread l).recs.extractLsb' (4 * j) 4 = (w.thread l).recs.extractLsb' (4 * j) 4 := by
  rw [land_thread]
  split
  · next hp =>
    rw [landSlot_slot _ _ _ hj, putAll_recs]
    split
    · next i c hs =>
      have hij : i ≠ j := fun e => (h.resolve_left fun hn => hn hp.1) c (e ▸ hs)
      simp [hij]
    · rfl
  · rfl

theorem land_kbit (use : Nat) (w : Wave) (p : Pending) (k : Mask) (l : Nat) : (w.land use p).kbit k l = w.kbit k l := by
  rw [land_eq]; rfl

/-! ## The event -/

/-- The state as a result has landed, before held threads are released; a schuss group's hold on its line ends (R120). -/
def State.landed (s : State) (v : Nat) (p : Pending) : State :=
  ({ s.modWave v fun w => w.land s.fresh p with
      sunk := s.sunk.filter fun x => !(x.ran && x.wave == v && x.pid == p.id) } : State).freshen

theorem execResultLanding_bad {s : State} {v : Nat} {w : Wave} {p : Pending} (hw : s.wave? v = some w)
    (hp : w.pend.find? (fun q => q.id == p.id && s.mayLand q) = some p) (hb : p.bad = true) :
    exec (.resultLanding v p.id) s = .next (s.abortFree w.gang 0x80) := by
  show execResultLanding v p.id s = _
  simp [execResultLanding, hw, hp, hb]

theorem execResultLanding_land {s : State} {v : Nat} {w : Wave} {p : Pending} (hw : s.wave? v = some w)
    (hp : w.pend.find? (fun q => q.id == p.id && s.mayLand q) = some p) (hb : p.bad = false) :
    exec (.resultLanding v p.id) s = .next ((s.landed v p).settle w.gang) := by
  show execResultLanding v p.id s = _
  simp [execResultLanding, hw, hp, hb, State.landed]

theorem land_id (use : Nat) (w : Wave) (p : Pending) : (w.land use p).id = w.id := by rw [land_eq]

theorem wave?_landed (s : State) (v : Nat) (p : Pending) (id : Nat) :
    (s.landed v p).wave? id = (s.wave? id).map fun w => if id = v then w.land s.fresh p else w :=
  wave?_modWave fun w => land_id s.fresh w p

/-- Settles O15: the landing is `Wave.land`, whose laws stand above, and the release of held threads follows it. -/
theorem resultLanding : Obligations.ResultLanding := by
  intro s v w p hw hp
  refine ⟨fun hb g hg hl hd => ⟨_, execResultLanding_bad hw hp hb, abortFree_aborted 0x80 hg hl hd⟩, fun hb => ?_⟩
  have hset := settle_settled (s.landed v p) w.gang
  have hu : (s.landed v p).wave? v = some (w.land s.fresh p) := by rw [wave?_landed, hw]; simp
  obtain ⟨w', hw', hk⟩ := find?_forall₂ hset.waves hu
  obtain ⟨f, hf, hpend⟩ := land_pend s.fresh w p
  refine ⟨_, s.landed v p, _, w', execResultLanding_land hw hp hb, hset, hu, hw', hk, rfl, ?others, land_eq _ _ _, ?left, ?kept,
    land_thread_eq _ _ _, ?regs, ?vals, ?slot, ?slots, land_kbit _ _ _⟩
  case others =>
    intro id hne
    rw [wave?_landed]
    simp [hne]
  case left =>
    intro q' hq'
    rw [hpend] at hq'
    obtain ⟨q, hq, rfl⟩ := List.mem_map.mp hq'
    obtain ⟨hq, hne⟩ := List.mem_filter.mp hq
    exact ⟨q, hq, by simpa using hne, hf q⟩
  case kept =>
    intro q hq hne
    refine ⟨f q, ?_, hf q⟩
    rw [hpend]
    exact List.mem_map.mpr ⟨q, List.mem_filter.mpr ⟨hq, by simpa using hne⟩, rfl⟩
  case regs =>
    intro l r h
    rw [land_raw]
    split
    · next hto =>
      refine written_landing_of_not_mem _ (h.resolve_right ?_)
      rintro ⟨k, hk, hne⟩
      exact hne (hto.2.2 k hk).1
    · rfl
  case vals =>
    intro hc hs hn hlen l j hj huni hne hlane
    rw [land_raw, if_pos ⟨huni, hne, hlane⟩, landing_known _ _ hc hs]
    exact written_zip _ hn hlen hj
  case slot =>
    intro l i code hl hs hi hlt h32 hown
    exact land_slot s.fresh w hl hs hi hlt h32 (by simp [Thread.owns, hown])
  case slots => exact fun l j hj h => land_slot_other s.fresh w hj h

end Sys2Proof.Machine
end

section
/-! What the homes serve, byte by byte (R176, R188): `homeView_homeSync` (a write-back changes nothing that is served) and
`homeView_homeWrite` (a write performed at a home changes its own bytes and no other). -/

namespace Sys2Proof.Machine

/-- What every step of a sequence keeps, the sequence keeps. -/
theorem foldl_keeps {α β γ : Type} (proj : β → γ) {F : β → α → β} (h : ∀ s x, proj (F s x) = proj s) :
    ∀ (l : List α) (s : β), proj (l.foldl F s) = proj s
  | [], _ => rfl
  | x :: l, s => (foldl_keeps proj h l (F s x)).trans (h s x)

/-! ## Bytes of a line -/

theorem getLsbD_lineByte (x : Line) (i b : Nat) : (lineByte x i).getLsbD b = (decide (b < 8) && x.getLsbD (8 * i + b)) := by
  rw [lineByte, BitVec.getLsbD_ofNat, Nat.testBit_div_two_pow, BitVec.getLsbD, Nat.add_comm b]

/-- Lines with the same bytes are the same. -/
theorem line_ext {x y : Line} (h : ∀ n < 64, lineByte x n = lineByte y n) : x = y := by
  refine BitVec.eq_of_getLsbD_eq fun j hj => ?_
  have hb : (lineByte x (j / 8)).getLsbD (j % 8) = (lineByte y (j / 8)).getLsbD (j % 8) := by rw [h _ (by omega)]
  rw [getLsbD_lineByte, getLsbD_lineByte, Nat.div_add_mod] at hb
  simpa only [show j % 8 < 8 from Nat.mod_lt _ (by decide), decide_true, Bool.true_and] using hb

theorem testBit_byteFold (m : BitVec 64) (j : Nat) : ∀ k,
    (List.range k).foldl (fun a i => if m.getLsbD i then a + 255 * 2 ^ (8 * i) else a) 0 < 2 ^ (8 * k) ∧
    ((List.range k).foldl (fun a i => if m.getLsbD i then a + 255 * 2 ^ (8 * i) else a) 0).testBit j =
      (decide (j < 8 * k) && m.getLsbD (j / 8))
  | 0 => by simp
  | k + 1 => by
    obtain ⟨hlt, hbit⟩ := testBit_byteFold m j k
    rw [List.range_succ, List.foldl_append, List.foldl_cons, List.foldl_nil]
    generalize (List.range k).foldl (fun a i => if m.getLsbD i then a + 255 * 2 ^ (8 * i) else a) 0 = a at hlt hbit
    have hp : (2 : Nat) ^ (8 * (k + 1)) = 256 * 2 ^ (8 * k) := by rw [Nat.mul_add, Nat.pow_add, Nat.mul_comm]
    split
    · next hk =>
      refine ⟨by rw [hp]; omega, ?_⟩
      rw [Nat.add_comm, Nat.mul_comm, Nat.testBit_two_pow_mul_add _ hlt]
      split
      · next hj => rw [hbit]; simp [hj, show j < 8 * (k + 1) by omega]
      · next hj =>
        rw [show (255 : Nat) = 2 ^ 8 - 1 from rfl, Nat.testBit_two_pow_sub_one]
        by_cases h : j < 8 * (k + 1)
        · have : j / 8 = k := by omega
          simp [h, this, hk, show j - 8 * k < 8 by omega]
        · simp [h, show ¬ j - 8 * k < 8 by omega]
    · next hk =>
      refine ⟨by rw [hp]; omega, ?_⟩
      rw [hbit]
      by_cases hj : j < 8 * k
      · simp [hj, show j < 8 * (k + 1) by omega]
      · by_cases h : j < 8 * (k + 1)
        · have : j / 8 = k := by omega
          simp [this, hk]
        · simp [hj, h]

theorem getLsbD_byteMask (m : BitVec 64) (j : Nat) : (byteMask m).getLsbD j = (decide (j < 512) && m.getLsbD (j / 8)) := by
  rw [byteMask, BitVec.getLsbD_ofNat, (testBit_byteFold m j 64).2]
  by_cases h : j < 512 <;> simp [h]

/-- A merged line has the new bytes where the mask has a one, and the old ones elsewhere. -/
theorem lineByte_mergeLine (m : BitVec 64) (old new : Line) {n : Nat} (h : n < 64) :
    lineByte (mergeLine m old new) n = if m.getLsbD n = true then lineByte new n else lineByte old n := by
  refine BitVec.eq_of_getLsbD_eq fun b hb => ?_
  have hj : 8 * n + b < 512 := by omega
  have hd : (8 * n + b) / 8 = n := by omega
  simp only [getLsbD_lineByte, hb, mergeLine, BitVec.getLsbD_or, BitVec.getLsbD_and, BitVec.getLsbD_not, getLsbD_byteMask, hj, hd,
    decide_true, Bool.true_and]
  cases hm : m.getLsbD n
  · simp only [Bool.and_false, Bool.or_false, Bool.not_false, Bool.and_true, Bool.false_eq_true, if_false, getLsbD_lineByte, hb,
      decide_true, Bool.true_and]
  · simp only [Bool.and_false, Bool.false_or, Bool.not_true, Bool.and_true, if_true, getLsbD_lineByte, hb, decide_true, Bool.true_and]

/-- A write of every byte leaves nothing of the old line. -/
theorem mergeLine_allOnes (old new : Line) : mergeLine (BitVec.allOnes 64) old new = new :=
  line_ext fun n hn => by
    rw [lineByte_mergeLine _ _ _ hn, if_pos (by rw [BitVec.getLsbD_allOnes]; simpa using hn)]

/-! ## Masked writes to memory -/

/-- What a byte of memory is after a masked write. -/
theorem read_memPut (m : Memory) (w : LineWrite) (a : Nat) :
    Memory.read (memPut m w) a =
      if a / 64 = w.line ∧ w.mask.getLsbD (a % 64) = true then lineByte w.data (a % 64) else Memory.read m a := by
  have key : ∀ k ≤ 64, Memory.read
      ((List.range k).foldl (fun m i => if w.mask.getLsbD i then m.write (64 * w.line + i) (lineByte w.data i) else m) m) a =
        if a / 64 = w.line ∧ a % 64 < k ∧ w.mask.getLsbD (a % 64) = true then lineByte w.data (a % 64) else Memory.read m a := by
    intro k
    induction k with
    | zero => simp
    | succ k ih =>
      intro hk
      rw [List.range_succ, List.foldl_append, List.foldl_cons, List.foldl_nil]
      have ih := ih (by omega)
      by_cases ha : a = 64 * w.line + k
      · have hd : a / 64 = w.line := by omega
        have hm : a % 64 = k := by omega
        rw [hm] at ih
        cases hb : w.mask.getLsbD k
        · rw [if_neg (by simp), ih, hm]; simp [hb]
        · rw [if_pos rfl, ← ha, Memory.read_write_same, hm]; simp [hb, hd]
      · have hiff : (a / 64 = w.line ∧ a % 64 < k + 1 ∧ w.mask.getLsbD (a % 64) = true) ↔
            a / 64 = w.line ∧ a % 64 < k ∧ w.mask.getLsbD (a % 64) = true :=
          ⟨fun ⟨h1, h2, h3⟩ => ⟨h1, by omega, h3⟩, fun ⟨h1, h2, h3⟩ => ⟨h1, by omega, h3⟩⟩
        rw [if_congr hiff rfl rfl, ← ih]
        split
        · rw [Memory.read_write_ne ha]
        · rfl
  have hlt : a % 64 < 64 := Nat.mod_lt _ (by decide)
  rw [memPut, key 64 (Nat.le_refl _)]
  simp [hlt]

/-- What a line of memory is after a masked write. -/
theorem memLine_memPut (m : Memory) (w : LineWrite) (line : Nat) :
    memLine (memPut m w) line = if line = w.line then mergeLine w.mask (memLine m line) w.data else memLine m line := by
  apply line_ext
  intro n hn
  have hd : (64 * line + n) / 64 = line := by omega
  have hm : (64 * line + n) % 64 = n := by omega
  rw [lineByte_memLine _ _ hn, read_memPut, hd, hm]
  by_cases hl : line = w.line
  · rw [if_pos hl, lineByte_mergeLine _ _ _ hn, lineByte_memLine _ _ hn]
    simp [hl]
  · rw [if_neg hl, lineByte_memLine _ _ hn]
    simp [hl]

/-! ## What the homes serve -/

/-- The copies of a line that a write-back finds. -/
def State.dirtyOf (s : State) (line : Nat) : List SectLine := s.sect.filter fun x => x.line == line && !x.remote && x.dirty != 0

theorem homeView_def (s : State) (line : Nat) :
    s.homeView line = (s.dirtyOf line).foldl (fun l x => mergeLine (wordBytes x.dirty) l x.data) (memLine s.mem line) := rfl

theorem homeView_congr {s t : State} (hm : t.mem = s.mem) (hs : t.sect = s.sect) (line : Nat) : t.homeView line = s.homeView line := by
  rw [State.homeView, hm, hs]; rfl

theorem homeSync_mem (s : State) (line : Nat) : (s.homeSync line).mem =
    (s.dirtyOf line).foldl (fun m x => memPut m { line, data := x.data, mask := wordBytes x.dirty }) s.mem := rfl

theorem memLine_syncFold (line l' : Nat) : ∀ (ds : List SectLine) (m : Memory),
    memLine (ds.foldl (fun m x => memPut m { line, data := x.data, mask := wordBytes x.dirty }) m) l' =
      if l' = line then ds.foldl (fun l x => mergeLine (wordBytes x.dirty) l x.data) (memLine m l') else memLine m l'
  | [], m => by rw [List.foldl_nil, List.foldl_nil, ite_self]
  | x :: ds, m => by
    rw [List.foldl_cons, memLine_syncFold line l' ds, memLine_memPut]
    by_cases h : l' = line
    · simp only [h, if_true, List.foldl_cons]
    · simp only [h, if_false]

/-- A write-back puts into memory what the home serves, and leaves every other line of memory alone. -/
theorem memLine_homeSync (s : State) (line l' : Nat) :
    memLine (s.homeSync line).mem l' = if l' = line then s.homeView line else memLine s.mem l' := by
  rw [homeSync_mem, memLine_syncFold]
  split
  · next h => rw [h, homeView_def]
  · rfl

theorem filter_map_untouched {α : Type} {p q : α → Bool} {f : α → α} (h : ∀ x, q x = true → p x = false ∧ p (f x) = false) :
    ∀ l : List α, (l.map fun x => if q x then f x else x).filter p = l.filter p
  | [] => rfl
  | x :: l => by
    rw [List.map_cons, List.filter_cons, List.filter_cons, filter_map_untouched h l]
    by_cases hq : q x = true
    · simp only [hq, if_true, (h x hq).1, (h x hq).2, Bool.false_eq_true, if_false]
    · rw [if_neg hq]

theorem dirtyOf_homeSync (s : State) (line l' : Nat) : (s.homeSync line).dirtyOf l' = if l' = line then [] else s.dirtyOf l' := by
  unfold State.dirtyOf State.homeSync
  split
  · next h =>
    subst h
    simp only [List.filter_eq_nil_iff, List.mem_map]
    rintro x ⟨y, -, rfl⟩
    cases hy : (y.line == l' && !y.remote) <;> simp [hy]
  · next h =>
    refine filter_map_untouched (fun x hx => ?_) s.sect
    simp only [Bool.and_eq_true, beq_iff_eq] at hx
    have hne : (x.line == l') = false := by simpa [hx.1] using Ne.symm h
    simp [hne]

/-- A write-back changes nothing that any home serves. -/
theorem homeView_homeSync (s : State) (line l' : Nat) : (s.homeSync line).homeView l' = s.homeView l' := by
  rw [homeView_def, homeView_def, dirtyOf_homeSync, memLine_homeSync]
  split
  · next h => rw [h, List.foldl_nil, homeView_def]
  · rfl

/-! ### Writes at a home (R186, R207) -/

/-- The copies of other sectors end; what the homes serve stays, and the line's memory holds it. -/
theorem dirtyOf_endOthers (s : State) (line l' : Nat) : (s.endOthers none line).dirtyOf l' = if l' = line then [] else s.dirtyOf l' := by
  have h : (s.endOthers none line).dirtyOf l' = ((s.homeSync line).dirtyOf l').filter fun x => !(x.line == line && !x.remote) := by
    unfold State.endOthers State.dirtyOf
    simp only [List.filter_filter]
    exact List.filter_congr fun x _ => by simp [Bool.and_comm, bne]
  rw [h, dirtyOf_homeSync]
  split
  · rfl
  · next hne =>
    refine List.filter_eq_self.mpr fun x hx => ?_
    have hx := (List.mem_filter.mp hx).2
    simp only [Bool.and_eq_true, beq_iff_eq] at hx
    simp [hx.1.1, hne]

/-- The eviction of lines from a home cache changes the lines it holds and the counter of choices. -/
theorem dropHome_rest (h : Nat) (keep : Option Nat) : ∀ (n : Nat) (s : State), State.dropHome h keep n s =
    { s with homeLines := (State.dropHome h keep n s).homeLines, picks := (State.dropHome h keep n s).picks }
  | 0, _ => rfl
  | n + 1, s => by
    unfold State.dropHome
    split
    · rw [dropHome_rest h keep n]; rfl
    · rfl

theorem fitHome_rest (s : State) (h : Nat) (keep : Option Nat) :
    ∃ hl ps, s.fitHome h keep = { s with homeLines := hl, picks := ps } := by
  unfold State.fitHome
  generalize (s.homeHeld h none).length + s.verUsed h - homeCacheLines = n
  exact ⟨_, _, dropHome_rest h keep n s⟩

theorem touchHome_rest (s : State) (line : Nat) : ∃ hl ps, s.touchHome line = { s with homeLines := hl, picks := ps } := by
  unfold State.touchHome
  split
  · exact ⟨_, _, rfl⟩
  · obtain ⟨hl, ps, h⟩ := fitHome_rest { s with homeLines := line :: s.homeLines } ((homeOfLine line).getD 0) (some line)
    exact ⟨hl, ps, h⟩

theorem homeWrite_def (s : State) (w : LineWrite) : s.homeWrite w =
    (State.touchHome { s.endOthers none w.line with mem := memPut (s.homeSync w.line).mem w
                                                    hostLines := s.hostLines.filter (· != w.line) } w.line).monEvent
      w.line fun _ => true := rfl

/-- What a write performed at a home changes. -/
theorem homeWrite_rest (s : State) (w : LineWrite) : ∃ hs hl ps ws, s.homeWrite w =
    { s with mem := memPut (s.homeSync w.line).mem w, sect := (s.endOthers none w.line).sect, hostLines := hs, homeLines := hl
             picks := ps, waves := ws } := by
  rw [homeWrite_def]
  obtain ⟨hl, ps, h⟩ := touchHome_rest { s.endOthers none w.line with
    mem := memPut (s.homeSync w.line).mem w, hostLines := s.hostLines.filter (· != w.line) } w.line
  rw [h]
  exact ⟨_, _, _, _, rfl⟩

theorem homeWrite_mem (s : State) (w : LineWrite) : (s.homeWrite w).mem = memPut (s.homeSync w.line).mem w := by
  obtain ⟨hs, hl, ps, ws, h⟩ := homeWrite_rest s w
  rw [h]

theorem dirtyOf_homeWrite (s : State) (w : LineWrite) (l' : Nat) :
    (s.homeWrite w).dirtyOf l' = if l' = w.line then [] else s.dirtyOf l' := by
  obtain ⟨hs, hl, ps, ws, h⟩ := homeWrite_rest s w
  rw [← dirtyOf_endOthers, h]
  rfl

/-- A write performed at a home changes the bytes it covers of its line, and nothing else that any home serves. -/
theorem homeView_homeWrite (s : State) (w : LineWrite) (l' : Nat) :
    (s.homeWrite w).homeView l' = if l' = w.line then mergeLine w.mask (s.homeView w.line) w.data else s.homeView l' := by
  rw [homeView_def, dirtyOf_homeWrite, homeWrite_mem, memLine_memPut, memLine_homeSync]
  split
  · rw [List.foldl_nil]
  · rfl

/-- Memory itself changes in the line written alone. -/
theorem memLine_homeWrite (s : State) {w : LineWrite} {l' : Nat} (h : l' ≠ w.line) :
    memLine (s.homeWrite w).mem l' = memLine s.mem l' := by
  rw [homeWrite_mem, memLine_memPut, if_neg h, memLine_homeSync, if_neg h]

end Sys2Proof.Machine
end

section
/-! Spares, repair and the retirement of a page (R32, R264, R265, R385), the withdrawal of a die (R378) and the host link
(R373). -/

namespace Sys2Proof.Machine
open Sys2Proof.Claims

/-! ## Dies and interfaces found after a change of those of one number -/

theorem find?_die (s : State) (d : Nat) (f : Die → Die) (hf : ∀ x, (f x).id = x.id) (k : Nat) :
    (s.modDie d f).dies.find? (fun x => x.id == k) = (s.dies.find? fun x => x.id == k).map fun x => if k = d then f x else x :=
  find?_modBy_key (k := Die.id) hf s.dies d k

/-- A die of another number is left alone. -/
theorem die_modDie_ne {s : State} {d k : Nat} {f : Die → Die} (hf : ∀ x, (f x).id = x.id) (h : k ≠ d) :
    (s.modDie d f).die k = s.die k := by
  rw [State.die, State.die, find?_die s d f hf]
  simp [h]

/-- The die of the number is changed, where the module lists it. -/
theorem die_modDie_same {s : State} {d : Nat} {f : Die → Die} (hf : ∀ x, (f x).id = x.id) :
    (s.modDie d f).die d = s.die d ∧ (∀ x ∈ s.dies, x.id ≠ d) ∨ (s.modDie d f).die d = f (s.die d) ∧ ∃ x ∈ s.dies, x.id = d := by
  rw [State.die, State.die, find?_die s d f hf]
  cases h : s.dies.find? fun x => x.id == d with
  | none => exact .inl ⟨rfl, fun x hx => by simpa using List.find?_eq_none.mp h x hx⟩
  | some x => exact .inr ⟨by simp, x, List.mem_of_find?_eq_some h, by simpa using List.find?_some h⟩

theorem vi?_modVi {s : State} {fn fn' : Nat} {f : Vi → Vi} (hf : ∀ v, (f v).fn = v.fn) :
    (s.modVi fn f).vi? fn' = (s.vi? fn').map fun v => if fn' = fn then f v else v :=
  find?_modBy_key (k := Vi.fn) hf s.vis fn fn'

theorem vi?_fn {s : State} {fn : Nat} {v : Vi} (h : s.vi? fn = some v) : v.fn = fn := by simpa using List.find?_some h

/-! ## Event records (R384) -/

/-- An interface after a record for it. -/
def State.recorded (s : State) (e : EvRec) (v : Vi) : Vi :=
  match v.evq with
  | none => if kindHeld e.kind then { v with recs := v.recs ++ [e] } else v
  | some q => match (if e.kind == 0x81 && s.ringFull q then mergeRec e v.recs else none) with
    | some rs => { v with recs := rs }
    | none => { v with recs := v.recs ++ [e] }

theorem record_eq (s : State) (fn : Nat) (e : EvRec) : s.record fn e = s.modVi fn (s.recorded e) := rfl

theorem recorded_recs (s : State) (e : EvRec) (v : Vi) : s.recorded e v = { v with recs := (s.recorded e v).recs } := by
  unfold State.recorded
  split
  · split <;> rfl
  · split <;> rfl

theorem recorded_fn (s : State) (e : EvRec) (v : Vi) : (s.recorded e v).fn = v.fn := by rw [recorded_recs]

/-- A registered queue gets every record, but that corrected errors may be counted in an earlier one. -/
theorem recorded_append (s : State) {e : EvRec} {v : Vi} (hk : e.kind ≠ 0x81) (hq : v.evq.isSome = true) :
    s.recorded e v = { v with recs := v.recs ++ [e] } := by
  obtain ⟨q, hq⟩ := Option.isSome_iff_exists.mp hq
  have hb : (e.kind == 0x81) = false := by simpa using hk
  simp [State.recorded, hq, hb]

theorem vi?_record (s : State) (fn fn' : Nat) (e : EvRec) :
    (s.record fn e).vi? fn' = (s.vi? fn').map fun v => if fn' = fn then s.recorded e v else v := by
  rw [record_eq, vi?_modVi (recorded_fn s e)]

/-! ## Spare clusters (R385) -/

/-- The gangs that abort as a cluster fails. -/
def State.onCluster (s : State) (cluster : Nat) : List Nat :=
  (s.gangs.filter fun g => g.st == .live && g.place.isSome && g.cluster == cluster).map (·.id)

/-- The state once they have. -/
def State.clusterFailed (s : State) (cluster : Nat) : State :=
  (s.onCluster cluster).foldl (fun t g => State.abortFree t g 0x85) s

theorem clusterFailed_step (s : State) (cluster : Nat) : EndStep s (s.clusterFailed cluster) :=
  EndStep.foldl (abortFree_ends 0x85).step _ s

/-- Where the spare of its sector is there it takes the number; where it is spent the cluster is withdrawn, and function 0 told. -/
theorem execSpareClusterSwap_eq {s : State} {cluster : Nat} (h : cluster < 128) (hd : cluster ∉ s.deadClusters) :
    exec (.spareClusterSwap cluster) s = .next (if (s.clusterFailed cluster).spareSectors.contains (clusterSector cluster) then
        State.recordSpent { s.clusterFailed cluster with deadClusters := cluster :: (s.clusterFailed cluster).deadClusters }
          (clusterDie cluster) (cluster % 16)
      else { s.clusterFailed cluster with spareSectors := clusterSector cluster :: (s.clusterFailed cluster).spareSectors }) := by
  show execSpareClusterSwap cluster s = _
  unfold execSpareClusterSwap
  rw [if_neg (by simp [hd, h]), apply_ite Host.Outcome.next]
  rfl

theorem spareClusterSwap_spec (s : State) {cluster : Nat} (h : cluster < 128) (hd : cluster ∉ s.deadClusters) :
    ∃ t, exec (.spareClusterSwap cluster) s = .next t ∧
      (∀ gid g, s.gang? gid = some g → g.st = .live → g.place.isSome = true → g.cluster = cluster → s.commitsDone g = true →
        Aborted t gid 0x85) ∧ t.tiles = s.tiles ∧
      (cluster / 8 ∉ s.spareSectors → cluster / 8 ∈ t.spareSectors ∧ t.deadClusters = s.deadClusters) ∧
      (cluster / 8 ∈ s.spareSectors → cluster ∈ t.deadClusters ∧ t.spareSectors = s.spareSectors) := by
  refine ⟨_, execSpareClusterSwap_eq h hd, ?_⟩
  have hrest := (clusterFailed_step s cluster).rest
  have htiles := congrArg State.tiles hrest
  have hspare := congrArg State.spareSectors hrest
  have hdead := congrArg State.deadClusters hrest
  have habort : ∀ gid g, s.gang? gid = some g → g.st = .live → g.place.isSome = true → g.cluster = cluster →
      s.commitsDone g = true → Aborted (s.clusterFailed cluster) gid 0x85 := fun gid g hg hl hp hc hdone =>
    abortFold_aborted (List.mem_map.mpr ⟨g, List.mem_filter.mpr ⟨gang?_mem hg, by simp [hl, hp, hc]⟩, gang?_id hg⟩) hg hl hdone
  clear hrest
  generalize s.clusterFailed cluster = t at *
  dsimp only at htiles hspare hdead
  rw [hspare]
  by_cases hm : cluster / 8 ∈ s.spareSectors
  · rw [if_pos (by simpa [clusterSector] using hm)]
    exact ⟨habort, htiles, fun hn => absurd hm hn, fun _ => ⟨List.mem_cons_self, hspare⟩⟩
  · rw [if_neg (by simpa [clusterSector] using hm)]
    exact ⟨habort, htiles, fun _ => ⟨List.mem_cons_self, hdead⟩, fun hy => absurd hy hm⟩

/-! ## Repairs (R32, R264, R265, R385) -/

theorem regFile_spec (s : State) (core : Nat) :
    ∃ t, exec (.spareRowRepair (.regFile core)) s = .next t ∧ t = { s with trackCaps := t.trackCaps, fresh := t.fresh } ∧
      ∀ k, Map.get 256 t.trackCaps k = Map.get 256 s.trackCaps k ∨
        8 * core ≤ k ∧ k < 8 * core + 8 ∧ Map.get 256 t.trackCaps k = Map.get 256 s.trackCaps k - 16 := by
  show ∃ t, execSpareRowRepair (.regFile core) s = .next t ∧ _
  simp only [execSpareRowRepair]
  split
  · refine ⟨_, rfl, rfl, fun k => ?_⟩
    simp only [State.freshen, Map.get_set]
    split
    · next hk => subst hk; exact .inr ⟨by omega, by omega, rfl⟩
    · exact .inl rfl
  · exact ⟨_, rfl, rfl, fun k => .inl rfl⟩

/-- A die whose home caches have lost ways. -/
def Die.fewerWays (n : Nat) (x : Die) : Die := { x with verCap := x.verCap - n % (x.verCap + 1) }

/-- A die without the unit behind a FEAT bit. -/
def Die.withoutUnit (bit : Fin 7) (x : Die) : Die := { x with feat := x.feat &&& ~~~(1#7 <<< bit.val) }

theorem homeWays_spec (s : State) (d : Nat) :
    ∃ t, exec (.spareRowRepair (.homeWays d)) s = .next t ∧ t = { s with dies := t.dies, fresh := t.fresh } ∧
      ∀ k, (t.die k).verCap ≤ (s.die k).verCap ∧ (k ≠ d → t.die k = s.die k) := by
  refine ⟨_, rfl, rfl, fun k => ?_⟩
  change ((s.modDie d (Die.fewerWays (Config.freePick s.fresh d 2))).die k).verCap ≤ _ ∧
    (k ≠ d → (s.modDie d (Die.fewerWays (Config.freePick s.fresh d 2))).die k = s.die k)
  have hid : ∀ x, (Die.fewerWays (Config.freePick s.fresh d 2) x).id = x.id := fun _ => rfl
  by_cases hk : k = d
  · subst hk
    refine ⟨?_, fun hn => absurd rfl hn⟩
    rcases die_modDie_same (s := s) (d := k) hid with ⟨h, -⟩ | ⟨h, -⟩
    · rw [h]
    · rw [h]; exact Nat.sub_le _ _
  · rw [die_modDie_ne hid hk]
    exact ⟨Nat.le_refl _, fun _ => rfl⟩

theorem getLsbD_withoutUnit (x : Die) (bit : Fin 7) (b : Nat) :
    (x.withoutUnit bit).feat.getLsbD b = (x.feat.getLsbD b && !decide (b = bit.val)) := by
  by_cases hb : b < 7
  · obtain ⟨i, hi⟩ := bit
    simp only [Die.withoutUnit, BitVec.getLsbD_and, BitVec.getLsbD_not, BitVec.getLsbD_shiftLeft, BitVec.getLsbD_one, hb]
    grind
  · simp [BitVec.getLsbD_of_ge _ b (Nat.le_of_not_lt hb)]

theorem feature_spec (s : State) (d : Nat) (bit : Fin 7) :
    ∃ t, exec (.spareRowRepair (.feature d bit)) s = .next t ∧ t = { s with dies := t.dies, vis := t.vis } ∧
      ∀ k (b : Nat), (t.die k).feat.getLsbD b = ((s.die k).feat.getLsbD b && !(decide (k = d) && decide (b = bit.val))) := by
  refine ⟨_, rfl, rfl, fun k b => ?_⟩
  change ((s.modDie d (Die.withoutUnit bit)).die k).feat.getLsbD b = _
  have hid : ∀ x, (Die.withoutUnit bit x).id = x.id := fun _ => rfl
  by_cases hk : k = d
  · subst hk
    rcases die_modDie_same (s := s) (d := k) hid with ⟨h, hn⟩ | ⟨h, -⟩
    · have h0 : (s.die k).feat = 0 := by
        rw [State.die, List.find?_eq_none.mpr fun x hx => by simpa using hn x hx]
        rfl
      rw [h, h0]
      simp
    · rw [h]
      simpa using getLsbD_withoutUnit _ bit b
  · rw [die_modDie_ne hid hk]
    simp [hk]

end Sys2Proof.Machine
end

section
/-! The retirement of a page (R384, R385): `byteNow_copyFrame`. -/

namespace Sys2Proof.Machine
open Sys2Proof.Claims

/-- Once several lines have been written back, memory holds what the homes serve of each, and any other line as before. -/
theorem memLine_syncs (l : Nat) (ns : List Nat) (s : State) :
    memLine (ns.foldl (fun (s : State) n => s.homeSync n) s).mem l = if l ∈ ns then s.homeView l else memLine s.mem l := by
  induction ns generalizing s with
  | nil => simp
  | cons n ns ih =>
    rw [List.foldl_cons, ih, homeView_homeSync, memLine_homeSync]
    by_cases hl : l ∈ ns
    · simp [hl]
    · by_cases he : l = n
      · simp [he]
      · simp [hl, he]

/-! ## The lines of one frame written into another -/

/-- Where a line of frame `a` stands in frame `b`. -/
def movedLine (a b n : Nat) : Nat := n + 512 * b - 512 * a

/-- A line of frame `a` written whole where it stands in frame `b`. -/
def State.moveLine (a b : Nat) (s : State) (n : Nat) : State :=
  s.homeWrite { line := movedLine a b n, data := memLine s.mem n, mask := BitVec.allOnes 64 }

theorem mem_frameRange {a n : Nat} : n ∈ frameRange a ↔ 512 * a ≤ n ∧ n < 512 * a + 512 := by
  simp only [frameRange, List.mem_map, List.mem_range]
  exact ⟨by rintro ⟨i, hi, rfl⟩; omega, fun h => ⟨n - 512 * a, by omega, by omega⟩⟩

section Move
variable {a b : Nat}

theorem homeView_moveLine (s : State) (n l : Nat) :
    (s.moveLine a b n).homeView l = if l = movedLine a b n then memLine s.mem n else s.homeView l := by
  rw [State.moveLine, homeView_homeWrite]
  simp only [mergeLine_allOnes]

/-- The lines that are still to be moved stay as they are. -/
theorem memLine_moveLine (s : State) {n l : Nat} (hab : a ≠ b) (hn : n ∈ frameRange a) (hl : l ∈ frameRange a) :
    memLine (s.moveLine a b n).mem l = memLine s.mem l := by
  rw [mem_frameRange] at hn hl
  exact memLine_homeWrite s (by show l ≠ movedLine a b n; unfold movedLine; omega)

theorem homeView_moves {n : Nat} (hab : a ≠ b) : ∀ (ns : List Nat) (s : State), (∀ m ∈ ns, m ∈ frameRange a) → n ∈ frameRange a →
    (ns.foldl (State.moveLine a b) s).homeView (movedLine a b n) =
      if n ∈ ns then memLine s.mem n else s.homeView (movedLine a b n)
  | [], _, _, _ => by simp
  | m :: ns, s, hns, hn => by
    have hm := hns m List.mem_cons_self
    rw [List.foldl_cons, homeView_moves hab ns _ (fun x hx => hns x (List.mem_cons_of_mem _ hx)) hn, memLine_moveLine s hab hm hn,
      homeView_moveLine]
    have hinj : movedLine a b n = movedLine a b m ↔ n = m := by
      rw [mem_frameRange] at hm hn
      unfold movedLine
      omega
    by_cases hx : n ∈ ns
    · simp [hx]
    · by_cases he : n = m
      · simp [he]
      · simp [hx, he, hinj]

end Move

/-- The lines of frame `a`, written back, then written into frame `b`. -/
def State.moveFrame (a b : Nat) (s : State) : State :=
  (frameRange a).foldl (State.moveLine a b) ((frameRange a).foldl (fun (s : State) n => s.homeSync n) s)

theorem copyFrame_fields (s : State) (a b : Nat) : (s.copyFrame a b).mem = (s.moveFrame a b).mem ∧
    (s.copyFrame a b).sect = (s.moveFrame a b).sect ∧ (s.copyFrame a b).vis = (s.moveFrame a b).vis := by
  unfold State.copyFrame State.moveFrame
  generalize frameRange a = ns
  exact ⟨rfl, rfl, rfl⟩

/-- The copy of a frame serves in the second what the homes served of the first. -/
theorem homeView_moveFrame (s : State) {a b i : Nat} (hab : a ≠ b) (hi : i < 512) :
    (s.moveFrame a b).homeView (512 * b + i) = s.homeView (512 * a + i) := by
  have hn : 512 * a + i ∈ frameRange a := mem_frameRange.mpr ⟨by omega, by omega⟩
  rw [show 512 * b + i = movedLine a b (512 * a + i) by unfold movedLine; omega, State.moveFrame,
    homeView_moves hab _ _ (fun _ h => h) hn, if_pos hn, memLine_syncs, if_pos hn]

theorem moveLine_vis (a b : Nat) (t : State) (n : Nat) : (t.moveLine a b n).vis = t.vis := by
  obtain ⟨hs, hl, ps, ws, h⟩ := homeWrite_rest t { line := movedLine a b n, data := memLine t.mem n, mask := BitVec.allOnes 64 }
  rw [State.moveLine, h]

theorem moveFrame_vis (s : State) (a b : Nat) : (s.moveFrame a b).vis = s.vis := by
  unfold State.moveFrame
  generalize frameRange a = ns
  rw [foldl_keeps State.vis (moveLine_vis a b), foldl_keeps State.vis (F := fun (s : State) n => s.homeSync n) fun _ _ => rfl]

theorem homeView_record (s : State) (fn : Nat) (e : EvRec) (l : Nat) : (s.record fn e).homeView l = s.homeView l :=
  homeView_congr (s := s) (t := s.record fn e) rfl rfl l

theorem execPageRetirement_eq {s : State} {frame spare : Nat} (ha : s.deviceFrame (2 ^ 15 * frame) = true)
    (hb : s.deviceFrame (2 ^ 15 * spare) = true) (hne : frame ≠ spare) :
    exec (.pageRetirement frame spare) s = .next ((s.copyFrame frame spare).record 0
      { addr := 2 ^ 15 * frame, kind := 0x82, die := (homeOf (2 ^ 15 * frame)).getD 0, detail := 2 ^ 15 * spare }) := by
  show execPageRetirement frame spare s = _
  unfold execPageRetirement
  dsimp only
  rw [if_pos (by rw [ha, hb]; simpa using hne)]

theorem pageRetirement_spec (s : State) {frame spare : Nat} (ha : s.deviceFrame (2 ^ 15 * frame) = true)
    (hb : s.deviceFrame (2 ^ 15 * spare) = true) (hne : frame ≠ spare) :
    ∃ t, exec (.pageRetirement frame spare) s = .next t ∧
      (∀ j < 2 ^ 15, byteNow t (2 ^ 15 * spare + j) = byteNow s (2 ^ 15 * frame + j)) ∧
      ∀ v, s.vi? 0 = some v → v.evq.isSome = true → ∃ v' e, t.vi? 0 = some v' ∧ v'.recs = v.recs ++ [e] ∧ e.kind = 0x82 ∧
        e.addr = 2 ^ 15 * frame ∧ e.detail = 2 ^ 15 * spare := by
  refine ⟨_, execPageRetirement_eq ha hb hne, ?_⟩
  obtain ⟨hmem, hsect, hvis⟩ := copyFrame_fields s frame spare
  have hview {i : Nat} (hi : i < 512) : (s.copyFrame frame spare).homeView (512 * spare + i) = s.homeView (512 * frame + i) := by
    rw [homeView_congr hmem hsect, homeView_moveFrame s hne hi]
  rw [moveFrame_vis] at hvis
  generalize s.copyFrame frame spare = t at hview hvis
  refine ⟨fun j hj => ?_, fun v hv hq => ?_⟩
  · have hl (f : Nat) : (2 ^ 15 * f + j) / 64 = 512 * f + j / 64 ∧ (2 ^ 15 * f + j) % 64 = j % 64 := by omega
    rw [byteNow, byteNow, (hl spare).1, (hl spare).2, (hl frame).1, (hl frame).2, homeView_record, hview (by omega)]
  · have hv : t.vi? 0 = some v := by rw [State.vi?, hvis]; exact hv
    rw [vi?_record, hv]
    rw [Option.map_some, if_pos rfl, recorded_append _ (by simp) hq]
    exact ⟨_, _, rfl, rfl, rfl, rfl, rfl⟩

end Sys2Proof.Machine
end

section
/-! The withdrawal of a die (R255, R378) and the host link (R373). -/

namespace Sys2Proof.Machine
open Sys2Proof.Claims

/-! ## Aborts that are put off (R206, R258) -/

/-- The first abort that is put off stands. -/
theorem abortFree_due_kept {s : State} {gid : Nat} {g : Gang} {f : GangFault} (hg : s.gang? gid = some g)
    (hd : s.commitsDone g = false) (hf : g.due = some f) (x code : Nat) : (s.abortFree x code).gang? gid = some g := by
  by_cases hx : gid = x
  · subst hx
    unfold State.abortFree
    rw [abortGang_due (s := s.freshen) hg hd, gang?_due, show s.freshen.gang? gid = some g from hg]
    rw [Option.map_some, if_pos rfl, hf, Option.some_or, ← hf]
  · rw [abortFree_other s code hx, hg]

theorem abortFold_due_kept {gid : Nat} {g : Gang} {f : GangFault} (code : Nat) (hf : g.due = some f) : ∀ (ids : List Nat) (s : State),
    s.gang? gid = some g → s.commitsDone g = false →
      (ids.foldl (fun t x => State.abortFree t x code) s).gang? gid = some g
  | [], _, hg, _ => hg
  | x :: ids, s, hg, hd =>
    abortFold_due_kept code hf ids _ (abortFree_due_kept hg hd hf x code)
      (((abortFree_step s x code).commitsDone (.refl g)).trans hd)

/-- Of several gangs that are aborted in turn, one with a commit under way aborts once it is performed. -/
theorem abortFold_due {s : State} {gid code : Nat} {ids : List Nat} (h : gid ∈ ids) {g : Gang} (hg : s.gang? gid = some g)
    (hd : s.commitsDone g = false) (hn : g.due = none) :
    ∃ f, (ids.foldl (fun t x => State.abortFree t x code) s).gang? gid = some { g with due := some f } ∧ f.code = code := by
  obtain ⟨xs, ys, rfl, hx⟩ := List.eq_append_cons_of_mem h
  rw [List.foldl_append, List.foldl_cons]
  have hsu := EndStep.foldl (abortFree_ends code).step xs s
  have hgu := (endFold_other (abortFree_ends code) xs s hx).trans hg
  generalize xs.foldl (fun t x => State.abortFree t x code) s = u at hsu hgu
  have hdu : u.commitsDone g = false := (hsu.commitsDone (.refl g)).trans hd
  refine ⟨{ code, pc := freePc u.fresh }, ?_, rfl⟩
  have hgv : (u.abortFree gid code).gang? gid = some { g with due := some { code, pc := freePc u.fresh } } := by
    unfold State.abortFree
    rw [abortGang_due (s := u.freshen) hgu hdu, gang?_due, show u.freshen.gang? gid = some g from hgu]
    simp [hn]
  have hdv : (u.abortFree gid code).commitsDone { g with due := some { code, pc := freePc u.fresh } } = false :=
    ((abortFree_step u gid code).commitsDone ⟨rfl, fun _ => rfl⟩).trans hdu
  exact abortFold_due_kept code rfl ys _ hgv hdv

/-! ## The withdrawal of a die (R255, R378) -/

/-- The state in which no page of the die is home. -/
def State.withoutDie (s : State) (d : Nat) : State := s.modDie d fun x => { x with withdrawn := true }

/-- The gangs that abort as a die is withdrawn. -/
def State.onDie (s : State) (d : Nat) : List Nat :=
  ((s.withoutDie d).gangs.filter fun g => g.st == .live && g.die == d &&
    (g.place.isSome || !((s.withoutDie d).version g.id).isEmpty)).map (·.id)

theorem execDieWithdrawal_eq (s : State) (d : Nat) :
    exec (.dieWithdrawal d) s = .next ((s.onDie d).foldl (fun t g => State.abortFree t g 0x85) (s.withoutDie d)) := rfl

theorem withoutDie_die {s : State} {d : Nat} (h : ∃ x ∈ s.dies, x.id = d) : ((s.withoutDie d).die d).withdrawn = true := by
  obtain ⟨x, hx, he⟩ := h
  rcases die_modDie_same (s := s) (d := d) (f := fun x => { x with withdrawn := true }) (fun _ => rfl) with ⟨-, hn⟩ | ⟨h, -⟩
  · exact absurd he (hn x hx)
  · rw [State.withoutDie, h]

theorem mem_onDie {s : State} {d gid : Nat} {g : Gang} (hg : s.gang? gid = some g) (hl : g.st = .live) (hd : g.die = d)
    (h : g.place.isSome = true ∨ ∃ v ∈ s.versions, v.gang = gid) : gid ∈ s.onDie d := by
  refine List.mem_map.mpr ⟨g, List.mem_filter.mpr ⟨gang?_mem hg, ?_⟩, gang?_id hg⟩
  have hv : (∃ v ∈ s.versions, v.gang = gid) → (!((s.withoutDie d).version g.id).isEmpty) = true := by
    rintro ⟨v, hv, he⟩
    rw [gang?_id hg, Bool.not_eq_true', List.isEmpty_eq_false_iff_exists_mem]
    exact ⟨v, List.mem_filter.mpr ⟨hv, by simpa using he⟩⟩
  rcases h with h | h
  · simp [hl, hd, h]
  · simp [hl, hd, hv h]

theorem not_mem_onDie {s : State} {d gid : Nat} {g : Gang} (hp : s.gangs.Pairwise fun x y => x.id ≠ y.id)
    (hg : s.gang? gid = some g) (hd : g.die ≠ d) : gid ∉ s.onDie d := by
  intro hm
  obtain ⟨x, hx, he⟩ := List.mem_map.mp hm
  obtain ⟨hx, hc⟩ := List.mem_filter.mp hx
  have := gang?_of_mem hp hx
  rw [he, hg, Option.some.injEq] at this
  subst this
  simp [hd] at hc

theorem dieWithdrawal_spec (s : State) (d : Nat) :
    ∃ t, exec (.dieWithdrawal d) s = .next t ∧ ((∃ x ∈ s.dies, x.id = d) → (t.die d).withdrawn = true) ∧
      (∀ gid g, s.gang? gid = some g → g.st = .live → g.die = d → (g.place.isSome = true ∨ ∃ v ∈ s.versions, v.gang = gid) →
        (s.commitsDone g = true → Aborted t gid 0x85) ∧
        (s.commitsDone g = false → g.due = none → ∃ g' f, t.gang? gid = some g' ∧ g'.st = .live ∧ g'.due = some f ∧ f.code = 0x85)) ∧
      ∀ gid g, s.gang? gid = some g → g.die ≠ d → (s.gangs.Pairwise fun x y => x.id ≠ y.id) →
        ∃ g', t.gang? gid = some g' ∧ g'.st = g.st := by
  refine ⟨_, execDieWithdrawal_eq s d, fun h => ?_, fun gid g hg hl hd hp => ?_, fun gid g hg hd hp => ?_⟩
  · have hdies := congrArg State.dies (EndStep.foldl (abortFree_ends 0x85).step (s.onDie d) (s.withoutDie d)).rest
    rw [State.die, hdies]
    exact withoutDie_die h
  · have hm := mem_onDie hg hl hd hp
    refine ⟨fun hc => abortFold_aborted (s := s.withoutDie d) hm hg hl hc, fun hc hn => ?_⟩
    obtain ⟨f, hf, hcode⟩ := abortFold_due (code := 0x85) (s := s.withoutDie d) hm hg hc hn
    exact ⟨_, f, hf, hl, rfl, hcode⟩
  · exact ⟨g, (endFold_other (abortFree_ends 0x85) _ (s.withoutDie d) (not_mem_onDie hp hg hd)).trans hg, rfl⟩

/-! ## The host link (R373) -/

theorem hostLinkDown_spec (s : State) : ∃ t, exec .hostLinkDown s = .next t ∧ t = { s with link := false, parts := t.parts } ∧
    t.parts = s.parts.map fun p => { p with halted := true } := ⟨_, rfl, rfl, rfl⟩

theorem hostLinkUp_up {s : State} (h : s.link = true) : exec .hostLinkUp s = .next s := if_pos h

/-- What a context's loss does before the lists are emptied leaves memory and the contexts alone. -/
theorem foldl_keeps_mem_ctxs {α : Type} {F : State → α → State} (h : ∀ s x, (F s x).mem = s.mem ∧ (F s x).ctxs = s.ctxs)
    (l : List α) (s : State) : (l.foldl F s).mem = s.mem ∧ (l.foldl F s).ctxs = s.ctxs :=
  ⟨foldl_keeps State.mem (fun s x => (h s x).1) l s, foldl_keeps State.ctxs (fun s x => (h s x).2) l s⟩

theorem endGang_keeps_mem_ctxs (s : State) (gid : Nat) (st : GangSt) :
    (s.endGang gid st).mem = s.mem ∧ (s.endGang gid st).ctxs = s.ctxs := by
  rw [(endGang_step s gid st).rest]
  exact ⟨rfl, rfl⟩

/-- The contexts keep their numbers, and memory its bytes. -/
theorem loseContexts_keeps (s : State) : s.loseContexts.mem = s.mem ∧ (∀ c ∈ s.loseContexts.ctxs, c.lost = true) ∧
    s.loseContexts.ctxs.map (·.id) = s.ctxs.map (·.id) := by
  obtain ⟨hm, hc⟩ := foldl_keeps_mem_ctxs (F := fun (t : State) (i : TlbInv) => t.replyNow i.fn lost 0) (fun _ _ => ⟨rfl, rfl⟩)
    s.tlbInvs s
  obtain ⟨hm', hc'⟩ := foldl_keeps_mem_ctxs (F := fun (t : State) (g : Gang) => t.endGang g.id .squashed)
    (fun t g => endGang_keeps_mem_ctxs t g.id .squashed) s.gangs
    (s.tlbInvs.foldl (fun (t : State) i => t.replyNow i.fn lost 0) s)
  refine ⟨hm'.trans hm, fun c h => ?_, ?_⟩
  · obtain ⟨x, -, rfl⟩ := List.mem_map.mp h
    rfl
  · rw [← hc, ← hc']
    exact List.map_map

theorem hostLinkUp_down {s : State} (h : s.link = false) : ∃ t, exec .hostLinkUp s = .next t ∧ t.link = true ∧ t.waves = [] ∧
    t.gangs = [] ∧ t.launches = [] ∧ t.queues = [] ∧ t.versions = [] ∧ (∀ c ∈ t.ctxs, c.lost = true) ∧
    (∀ p ∈ t.parts, p.halted = false) ∧ t.ctxs.map (·.id) = s.ctxs.map (·.id) ∧ t.mem = s.mem := by
  obtain ⟨hm, hl, hid⟩ := loseContexts_keeps s
  exact ⟨_, if_neg (by simp [h]), rfl, rfl, rfl, rfl, rfl, rfl, hl, by simp, hid, hm⟩

end Sys2Proof.Machine
end

section
/-! Reset (R391), the security alarm (R390) and the life cycle (R389). -/

namespace Sys2Proof.Machine
open Sys2Proof.Claims

/-! ## Numbers read among bytes just written -/

/-- A read of some of the bytes just written. -/
theorem readNat_writeNat_part (m : Memory) (a x : Nat) {n : Nat} : ∀ {k c : Nat}, c + k ≤ n →
    Memory.readNat (Memory.writeNat m a n x) (a + c) k = x / 256 ^ c % 256 ^ k
  | 0, c, _ => by simp [Memory.readNat, Nat.mod_one]
  | k + 1, c, h => by
    rw [Memory.readNat, Memory.read_writeNat (by omega), Nat.add_assoc, readNat_writeNat_part m a x (c := c + 1) (by omega),
      BitVec.toNat_ofNat, Nat.pow_succ 256 c, ← Nat.div_div_eq_div_mul, Nat.pow_succ 256 k, Nat.mul_comm (256 ^ k), Nat.mod_mul]

/-- A read beside the bytes just written. -/
theorem readNat_writeNat_ne (m : Memory) {a n : Nat} (x : Nat) : ∀ {k b : Nat}, b + k ≤ a ∨ a + n ≤ b →
    Memory.readNat (Memory.writeNat m a n x) b k = Memory.readNat m b k
  | 0, _, _ => rfl
  | k + 1, b, h => by
    rw [Memory.readNat, Memory.readNat, Memory.read_writeNat_ne (by omega), readNat_writeNat_ne m x (by omega)]

/-! ## Replies (R383) -/

theorem vi?_reply (s : State) (fn x status res fn' : Nat) :
    (s.reply fn x status res).vi? fn' = (s.vi? fn').map fun v => if fn' = fn then v.reply x status res else v :=
  vi?_modVi fun _ => rfl

/-- A reply leaves the window below the reply buffer as it is. -/
theorem reply_window_low (v : Vi) (x status res : Nat) {b k : Nat} (h : b + k ≤ 0x180) :
    Memory.readNat (v.reply x status res).window b k = Memory.readNat v.window b k := by
  rw [Vi.reply, readNat_writeNat_ne _ _ (by omega), readNat_writeNat_ne _ _ (by omega)]

theorem reply_status (v : Vi) (x res : Nat) {status : Nat} (h : status < 2 ^ 32) :
    Memory.readNat (v.reply x status res).window 0x184 4 = status := by
  have hx : nfld x 0 4 < 2 ^ 32 := Nat.mod_lt _ (by decide)
  rw [Vi.reply, readNat_writeNat_ne _ _ (by omega), readNat_writeNat_part _ 0x180 _ (c := 4) (by omega)]
  omega

theorem reply_done (v : Vi) (x status res : Nat) : Memory.readNat (v.reply x status res).window 0x1C0 4 = nfld x 2 2 := by
  have hx : nfld x 2 2 < 2 ^ 16 := Nat.mod_lt _ (by decide)
  rw [Vi.reply, Memory.readNat_writeNat (by omega)]

/-- The commands `xs` are answered LOST, each to its function (R382). -/
def State.answerLost (s : State) (xs : List (Nat × Nat)) : State := xs.foldl (fun t x => State.reply t x.1 x.2 lost 0) s

theorem answerLost_rest (s : State) (xs : List (Nat × Nat)) : s.answerLost xs = { s with vis := (s.answerLost xs).vis } := by
  unfold State.answerLost
  induction xs generalizing s with
  | nil => rfl
  | cons x xs ih => rw [List.foldl_cons, ih]; rfl

theorem answerLost_other {fn : Nat} : ∀ (xs : List (Nat × Nat)) (s : State), (∀ x ∈ xs, x.1 ≠ fn) →
    (s.answerLost xs).vi? fn = s.vi? fn
  | [], _, _ => rfl
  | x :: xs, s, h => by
    have hx : fn ≠ x.1 := (h x List.mem_cons_self).symm
    show ((s.reply x.1 x.2 lost 0).answerLost xs).vi? fn = _
    rw [answerLost_other xs _ fun y hy => h y (List.mem_cons_of_mem _ hy), vi?_reply]
    simp [hx]

/-- The stage word of the register page is in no reply. -/
theorem answerLost_stage (s : State) (xs : List (Nat × Nat)) :
    Memory.readNat (((s.answerLost xs).vi? 0).elim [] (·.window)) 0 4 = Memory.readNat ((s.vi? 0).elim [] (·.window)) 0 4 := by
  refine foldl_keeps (fun t : State => Memory.readNat ((t.vi? 0).elim [] (·.window)) 0 4) (fun t x => ?_) xs s
  rw [vi?_reply]
  cases t.vi? 0 with
  | none => rfl
  | some v =>
    dsimp only [Option.map_some, Option.elim_some]
    split
    · exact reply_window_low v x.2 lost 0 (by omega)
    · rfl

/-- Where each function has one command at most, the one of function `fn` is answered. -/
theorem answerLost_answers {s : State} {xs : List (Nat × Nat)} {fn x : Nat} (hx : (fn, x) ∈ xs) (hp : xs.Pairwise fun a b => a.1 ≠ b.1)
    (hv : (s.vi? fn).isSome = true) : ∃ v', (s.answerLost xs).vi? fn = some v' ∧
      Memory.readNat v'.window 0x184 4 = 4 ∧ Memory.readNat v'.window 0x1C0 4 = nfld x 2 2 := by
  obtain ⟨as, bs, rfl⟩ := List.append_of_mem hx
  obtain ⟨-, hbs, has⟩ := List.pairwise_append.mp hp
  have ha : (s.answerLost as).vi? fn = s.vi? fn := answerLost_other as s fun y hy => has y hy (fn, x) List.mem_cons_self
  have hb := answerLost_other (fn := fn) bs ((s.answerLost as).reply fn x lost 0) fun y hy => ((List.pairwise_cons.mp hbs).1 y hy).symm
  have he : s.answerLost (as ++ (fn, x) :: bs) = ((s.answerLost as).reply fn x lost 0).answerLost bs := by
    simp only [State.answerLost, List.foldl_append, List.foldl_cons]
  obtain ⟨v, hv⟩ := Option.isSome_iff_exists.mp hv
  refine ⟨v.reply x lost 0, ?_, reply_status v x 0 (by decide), reply_done v x lost 0⟩
  rw [he, hb, vi?_reply, ha, hv]
  simp

/-! ## Bring-up (R389, R391) -/

theorem fwKeys_erased {life : LifeCycle} (h : life ≠ .scrapped) : fwKeys life true = [.recovery] := by
  cases life with
  | scrapped => exact absurd rfl h
  | blank | develop | production | ret => rfl

theorem fwKeys_accepts (life : LifeCycle) (erased : Bool) (k : FwKey) : k ∈ fwKeys life erased ↔ Accepts life erased k := by
  unfold Accepts
  by_cases hs : life = .scrapped
  · subst hs
    simp [show fwKeys .scrapped erased = [] from rfl]
  · cases erased with
    | true => simp [fwKeys_erased hs, hs]
    | false =>
      cases life with
      | scrapped => exact absurd rfl hs
      | blank => simp [show fwKeys .blank false = [.manufacturing] from rfl]
      | develop => simp [show fwKeys .develop false = [.development, .production] from rfl]
      | production => simp [show fwKeys .production false = [.production] from rfl]
      | ret => simp [show fwKeys .ret false = [.analysis] from rfl]

theorem verified_iff (s : State) (life : LifeCycle) (x : FwImage) :
    s.verified life x = true ↔ x.intact = true ∧ Accepts life s.keysErased x.key := by
  simp [State.verified, fwKeys_accepts]

/-- Some die passes its training. -/
theorem trained_left (s : State) :
    (s.dies.map s.trained).all (·.withdrawn) = false ↔ ∃ d ∈ s.dies, d.withdrawn = false ∧ d.id ∉ s.badDies := by
  simp [State.trained]

/-- The module's dies after a reset. -/
def State.resetDies (s : State) (life : LifeCycle) : List Die :=
  if (s.bringUp life).contains 3 then s.dies.map s.trained
  else s.dies.map fun d => { id := d.id, feat := d.feat, withdrawn := d.withdrawn, verCap := d.verCap }

theorem bringUp_stages (s : State) (life : LifeCycle) :
    (s.verified life s.boot = false → (s.bringUp life).getLastD 6 = 0xE2) ∧
    (s.verified life s.boot = true → (s.dies.map s.trained).all (·.withdrawn) = true → (s.bringUp life).getLastD 6 = 0xE3) ∧
    (s.verified life s.boot = true → (s.dies.map s.trained).all (·.withdrawn) = false → s.verified life s.supervisor = false →
      (s.bringUp life).getLastD 6 = 0xE5) ∧
    (s.verified life s.boot = true → (s.dies.map s.trained).all (·.withdrawn) = false → s.verified life s.supervisor = true →
      (s.bringUp life).getLastD 6 = 6) ∧
    (s.verified life s.boot = true → 3 ∈ s.bringUp life) := by
  unfold State.bringUp
  cases s.verified life s.boot <;> cases (s.dies.map s.trained).all (·.withdrawn) <;> cases s.verified life s.supervisor <;> simp

/-- The register page of function 0 shows the last stage. -/
theorem bringUp_window (s : State) (life : LifeCycle) :
    Memory.readNat ((s.bringUp life).foldl (fun m c => Memory.writeNat m 0 4 c) []) 0 4 = (s.bringUp life).getLastD 6 := by
  have key (cs : List Nat) (c : Nat) (hc : c < 256 ^ 4) :
      Memory.readNat ((cs ++ [c]).foldl (fun m c => Memory.writeNat m 0 4 c) []) 0 4 = (cs ++ [c]).getLastD 6 := by
    rw [List.foldl_append, List.foldl_cons, List.foldl_nil, Memory.readNat_writeNat hc]
    simp
  unfold State.bringUp
  split
  · exact key [1, 2] 0xE2 (by decide)
  · split
    · exact key [1, 2, 3] 0xE3 (by decide)
    · split
      · exact key [1, 2, 3, 4, 5] 0xE5 (by decide)
      · exact key [1, 2, 3, 4, 5] 6 (by decide)

theorem staged_of {s t : State} (hstage : t.stage = (s.bringUp t.life).getLastD 6) (hdies : t.dies = s.resetDies t.life) :
    Staged s t s.keysErased := by
  obtain ⟨h2, h3, h5, h6, htrain⟩ := bringUp_stages s t.life
  unfold Staged
  simp only [← verified_iff, ← trained_left, hstage, Bool.not_eq_true, Bool.not_eq_false]
  refine ⟨h2, h3, h5, h6, fun hb d hd hbad => ?_⟩
  have hmem : t.dies = s.dies.map s.trained := by
    rw [hdies, State.resetDies, if_pos (by simpa using htrain hb)]
  rw [State.die, hmem, List.find?_map]
  have hf : (s.dies.find? ((fun x : Die => x.id == d.id) ∘ s.trained)).isSome = true := by
    rw [List.find?_isSome]
    exact ⟨d, hd, by simp [State.trained]⟩
  obtain ⟨x, hx⟩ := Option.isSome_iff_exists.mp hf
  have hid : x.id = d.id := by simpa [State.trained] using List.find?_some hx
  rw [hx]
  simp [State.trained, hid, hbad]

end Sys2Proof.Machine
end

section
/-! The module after a reset and after an alarm (R390, R391), and the statement O54. -/

namespace Sys2Proof.Machine
open Sys2Proof.Claims

/-! ## What a reset leaves (R391) -/

/-- A state that differs from the module after a reset in its contexts and windows alone. -/
structure AfterReset (s t : State) : Prop where
  rest   : t = { s.resetModule with ctxs := t.ctxs, vis := t.vis }
  window : Memory.readNat ((t.vi? 0).elim [] (·.window)) 0 4 = t.stage

theorem resetModule_after (s : State) : AfterReset s s.resetModule :=
  ⟨rfl, bringUp_window s (s.nextLife.getD s.life)⟩

theorem resetDies_feat (s : State) (life : LifeCycle) (d : Nat) :
    (((s.resetDies life).find? fun x => x.id == d).getD { id := d, feat := 0, withdrawn := true }).feat = (s.die d).feat := by
  have key (f : Die → Die) (hid : ∀ x, (f x).id = x.id) (hf : ∀ x, (f x).feat = x.feat) :
      (((s.dies.map f).find? fun x => x.id == d).getD { id := d, feat := 0, withdrawn := true }).feat = (s.die d).feat := by
    have hc : ((fun x : Die => x.id == d) ∘ f) = fun x => x.id == d := funext fun x => by simp [hid]
    rw [List.find?_map, hc, State.die]
    cases s.dies.find? fun x => x.id == d with
    | none => rfl
    | some x => exact hf x
  unfold State.resetDies
  split
  · exact key s.trained (fun _ => rfl) fun _ => rfl
  · exact key _ (fun _ => rfl) fun _ => rfl

theorem AfterReset.wiped {s t : State} (h : AfterReset s t) : Wiped s t := by
  obtain ⟨hrest, hwin⟩ := h
  have hmem : t.mem = s.mem.filter fun x => 2 ^ 49 ≤ x.1 := by rw [hrest]; rfl
  have hsect : t.sect = [] := by rw [hrest]; rfl
  have hdies : t.dies = s.resetDies (s.nextLife.getD s.life) := by rw [hrest]; rfl
  have hbyte (A : Nat) : byteNow t A = if A < 2 ^ 49 then 0 else Memory.read s.mem A := by
    rw [byteNow, homeView_clean hsect, lineByte_memLine _ _ (Nat.mod_lt _ (by decide)), Nat.div_add_mod, hmem, Memory.read,
      Map.get_filter fun k => decide (2 ^ 49 ≤ k)]
    by_cases hA : A < 2 ^ 49
    · rw [if_pos hA, if_neg (by simpa using hA)]
      rfl
    · rw [if_neg hA, if_pos (by simpa using hA)]
      rfl
  have hpoison (a : Nat) (ha : a ∈ t.poison) : a ∈ s.poison ∧ 2 ^ 49 ≤ 4 * a := by
    rw [show t.poison = s.poison.filter fun a => 2 ^ 49 ≤ 4 * a by rw [hrest]; rfl] at ha
    simpa using ha
  have hfeat (d : Nat) : (t.die d).feat = (s.die d).feat := by
    rw [State.die, hdies]
    exact resetDies_feat s _ d
  refine ⟨hbyte, hsect, ?_, ?_, ?_, ?_, ?_, ?_, ?_, ?_, ?_, ?_, hpoison, ?_, hfeat, hwin⟩
  all_goals rw [hrest]; rfl

theorem AfterReset.staged {s t : State} (h : AfterReset s t) : Staged s t s.keysErased := by
  have hlife : t.life = s.nextLife.getD s.life := by rw [h.rest]; rfl
  refine staged_of ?_ ?_
  · rw [hlife, h.rest]; rfl
  · rw [hlife, h.rest]; rfl

/-! ## The alarm (R390) -/

theorem recordFold_other {fn : Nat} (e : EvRec) : ∀ (fns : List Nat) (s : State), fn ∉ fns →
    (fns.foldl (fun (t : State) k => t.record k e) s).vi? fn = s.vi? fn
  | [], _, _ => rfl
  | k :: fns, s, h => by
    have hk : fn ≠ k := fun he => h (by simp [he])
    rw [List.foldl_cons, recordFold_other e fns _ fun hm => h (List.mem_cons_of_mem _ hm), vi?_record]
    simp [hk]

/-- Where a function is told once, its queue gets one record. -/
theorem recordFold_once {s : State} {fns : List Nat} {fn : Nat} {v : Vi} {e : EvRec} (hk : e.kind ≠ 0x81) (hd : fns.Nodup)
    (hm : fn ∈ fns) (hv : s.vi? fn = some v) (hq : v.evq.isSome = true) :
    (fns.foldl (fun (t : State) k => t.record k e) s).vi? fn = some { v with recs := v.recs ++ [e] } := by
  obtain ⟨as, bs, rfl⟩ := List.append_of_mem hm
  obtain ⟨-, hbs, has⟩ := List.nodup_append.mp hd
  have ha := (recordFold_other e as s fun h => has fn h fn List.mem_cons_self rfl).trans hv
  rw [List.foldl_append, List.foldl_cons, recordFold_other e bs _ (List.nodup_cons.mp hbs).1, vi?_record, ha, Option.map_some, if_pos rfl,
    recorded_append _ hk hq]

theorem mem_of_vi? {s : State} {fn : Nat} {v : Vi} (h : s.vi? fn = some v) : v ∈ s.vis := List.mem_of_find?_eq_some h

theorem alarm_records {s : State} (b : BitVec 4) (h : s.alarm = 0) :
    ∃ t, exec (.securityAlarm b) s = .next t ∧ t = { s with vis := t.vis } ∧
    ((s.vis.map (·.fn)).Nodup → ∀ fn v, s.vi? fn = some v → v.evq.isSome = true → ∃ v', t.vi? fn = some v' ∧
      v'.recs = v.recs ++ [{ kind := 0x84, detail := b.toNat }]) := by
  refine ⟨(s.vis.map (·.fn)).foldl (fun (t : State) k => t.record k { kind := 0x84, detail := b.toNat }) s, ?_, ?_,
    fun hd fn v hv hq => ?_⟩
  · show execSecurityAlarm b s = _
    unfold execSecurityAlarm
    rw [h]
    rfl
  · generalize s.vis.map (·.fn) = fns
    induction fns generalizing s with
    | nil => rfl
    | cons k fns ih => rw [List.foldl_cons, ih (s := s.record k _) h]; rfl
  · exact ⟨_, recordFold_once (by simp) hd (List.mem_map.mpr ⟨v, mem_of_vi? hv, vi?_fn hv⟩) hv hq, rfl⟩

/-- The commands that name a context of their function. -/
def State.ctxCommands (s : State) : List (Nat × Nat) :=
  s.vis.filterMap fun v => (v.command.filter fun x => (s.ctx? (nfld x 4 4)).any fun c => c.fn == v.fn).map fun x => (v.fn, x)

/-- The module after a reset, with the contexts listed as lost. -/
def State.resetLost (s : State) : State :=
  { s.resetModule with ctxs := s.ctxs.map fun c => { id := c.id, fn := c.fn, root := 0, lost := true } }

theorem alarmReset_eq (s : State) : s.alarmReset = s.resetLost.answerLost s.ctxCommands := rfl

theorem vi?_congr {s t : State} (h : t.vis = s.vis) (fn : Nat) : t.vi? fn = s.vi? fn := by rw [State.vi?, h, State.vi?]

theorem resetLost_fields (s : State) : s.resetLost.vis = s.resetModule.vis ∧ s.resetLost.stage = s.resetModule.stage := ⟨rfl, rfl⟩

theorem alarmReset_after (s : State) : AfterReset s s.alarmReset := by
  have hrest := answerLost_rest s.resetLost s.ctxCommands
  obtain ⟨hvis, hstage⟩ := resetLost_fields s
  have hwin := answerLost_stage s.resetLost s.ctxCommands
  rw [vi?_congr hvis, (resetModule_after s).window, ← hstage] at hwin
  rw [alarmReset_eq]
  generalize s.resetLost.answerLost s.ctxCommands = t at hrest hwin
  have hstage' := congrArg State.stage hrest
  exact ⟨by rw [hrest]; rfl, hwin.trans hstage'.symm⟩

theorem Stored.command {v : Vi} {x : Nat} (h : Stored v x) : v.command = some x := by
  rcases h with ⟨y, hy, hx⟩ | ⟨hc, hs, hx⟩
  · simp [Vi.command, hy, hx]
  · simp [Vi.command, hc, hs, hx]

theorem ctxCommands_pairwise {s : State} (h : (s.vis.map (·.fn)).Nodup) : s.ctxCommands.Pairwise fun a b => a.1 ≠ b.1 := by
  refine List.Pairwise.filterMap _ (fun v w hne a ha b hb => ?_) (List.pairwise_map.mp h)
  obtain ⟨x, -, rfl⟩ := Option.map_eq_some_iff.mp ha
  obtain ⟨y, -, rfl⟩ := Option.map_eq_some_iff.mp hb
  exact hne

theorem mem_ctxCommands {s : State} {fn x : Nat} {v : Vi} {c : Ctx} (hv : s.vi? fn = some v) (hx : Stored v x)
    (hc : s.ctx? (nfld x 4 4) = some c) (hfn : c.fn = fn) : (fn, x) ∈ s.ctxCommands := by
  refine List.mem_filterMap.mpr ⟨v, mem_of_vi? hv, ?_⟩
  simp [Stored.command hx, hc, hfn, vi?_fn hv]

theorem resetModule_vi? {s : State} {fn : Nat} (h : fn < 64) : (s.resetModule.vi? fn).isSome = true := by
  refine List.find?_isSome.mpr ⟨_, List.mem_map.mpr ⟨fn, List.mem_range.mpr h, rfl⟩, ?_⟩
  simp

/-- Every context is lost, and so is every command under way that names one (R382, R390). -/
def AllLost (s t : State) : Prop :=
  (∀ c ∈ t.ctxs, c.lost = true) ∧ t.ctxs.map (fun c => (c.id, c.fn)) = s.ctxs.map (fun c => (c.id, c.fn)) ∧
    ((s.vis.map (·.fn)).Nodup → ∀ fn v x c, fn < 64 → s.vi? fn = some v → Stored v x → s.ctx? (nfld x 4 4) = some c → c.fn = fn →
      ∃ v', t.vi? fn = some v' ∧ Memory.readNat v'.window 0x184 4 = 4 ∧ Memory.readNat v'.window 0x1C0 4 = nfld x 2 2)

theorem alarmReset_lost (s : State) : AllLost s s.alarmReset := by
  have hc : s.alarmReset.ctxs = s.ctxs.map fun c => { id := c.id, fn := c.fn, root := 0, lost := true } := by
    rw [alarmReset_eq, answerLost_rest]
    rfl
  refine ⟨?_, ?_, fun hd fn v x c hlt hv hx hctx hfn => ?_⟩
  · rw [hc]
    simp
  · rw [hc, List.map_map]
    rfl
  · exact answerLost_answers (mem_ctxCommands hv hx hctx hfn) (ctxCommands_pairwise hd) (resetModule_vi? hlt)

theorem alarm_resets {s : State} (b : BitVec 4) (h : s.alarm = 1) :
    ∃ t, exec (.securityAlarm b) s = .next t ∧ Wiped s t ∧ AllLost s t ∧ Staged s t s.keysErased := by
  refine ⟨s.alarmReset, ?_, (alarmReset_after s).wiped, alarmReset_lost s, (alarmReset_after s).staged⟩
  show execSecurityAlarm b s = _
  unfold execSecurityAlarm
  rw [h]
  rfl

theorem alarm_erases {s : State} (b : BitVec 4) (h : s.alarm = 2) :
    ∃ t, exec (.securityAlarm b) s = .next t ∧ Wiped s t ∧ AllLost s t ∧ t.keysErased = true ∧ Staged s t true := by
  have hafter := alarmReset_after { s with keysErased := true }
  refine ⟨State.alarmReset { s with keysErased := true }, ?_, hafter.wiped, alarmReset_lost { s with keysErased := true }, ?_,
    hafter.staged⟩
  · show execSecurityAlarm b s = _
    unfold execSecurityAlarm
    rw [h]
    rfl
  · rw [hafter.rest]
    rfl

/-! ## The life cycle (R389) -/

/-- The transitions that R389 lists. -/
def LifeStep (life x : LifeCycle) : Prop :=
  life = .blank ∧ (x = .develop ∨ x = .production) ∨ life = .develop ∧ (x = .production ∨ x = .scrapped) ∨
    life = .production ∧ (x = .ret ∨ x = .scrapped) ∨ life = .ret ∧ x = .scrapped

theorem mem_lifeNext (life x : LifeCycle) : x ∈ lifeNext life ↔ LifeStep life x := by
  unfold LifeStep
  cases life <;> simp [lifeNext]

theorem lifeCycleTransition_spec (s : State) (x : LifeCycle) :
    (LifeStep s.life x → exec (.lifeCycleTransition x) s = .next { s with nextLife := some x }) ∧
    (¬LifeStep s.life x → exec (.lifeCycleTransition x) s = .next s) := by
  have he : exec (.lifeCycleTransition x) s = .next (if x ∈ lifeNext s.life then { s with nextLife := some x } else s) := by
    show execLifeCycleTransition x s = _
    simp [execLifeCycleTransition]
  rw [he]
  exact ⟨fun h => by rw [if_pos ((mem_lifeNext _ _).mpr h)], fun h => by rw [if_neg (mt (mem_lifeNext _ _).mp h)]⟩

/-- Settles O54: each event by its own lemma, `abortFold_aborted` for the gangs that abort, `homeView_moveFrame` for the retired
frame and `AfterReset` for what a reset leaves. -/
theorem reliabilityEvents : Obligations.ReliabilityEvents := fun s =>
  ⟨fun _ h hd => spareClusterSwap_spec s h hd, regFile_spec s, homeWays_spec s, feature_spec s, fun _ _ _ => ⟨rfl, rfl⟩,
    fun _ _ ha hb hne => pageRetirement_spec s ha hb hne, fun _ => rfl, dieWithdrawal_spec s, hostLinkDown_spec s, hostLinkUp_up,
    hostLinkUp_down,
    ⟨⟨s.resetModule, rfl, (resetModule_after s).wiped, rfl, (resetModule_after s).staged⟩,
      fun b => ⟨alarm_records b, alarm_resets b, alarm_erases b⟩⟩,
    lifeCycleTransition_spec s, fun _ => rfl⟩

end Sys2Proof.Machine
end

section
/-! What becomes free as a gang goes (R258, R280, R330, R331): `Apart gid` is what the service of tracks and the accumulator
words of other gangs may change, and `dropGang_apart` that a gang that is dropped leaves nothing of its own. -/

namespace Sys2Proof.Machine
open Sys2Proof.Claims

/-! ## Work of other gangs -/

/-- What other gangs' accumulator words, and the aborts they lead to, may change: gang `gid` stands as it stood, no wave joins a
gang, no tile becomes its own, and no version gains a line. -/
structure Apart (gid : Nat) (s t : State) : Prop where
  rest     : t = { s with fresh := t.fresh, waves := t.waves, fills := t.fills, sunk := t.sunk, versions := t.versions
                          gangs := t.gangs, states := t.states, colls := t.colls, tiles := t.tiles }
  gang     : t.gang? gid = s.gang? gid
  waves    : ∀ w ∈ t.waves, ∃ v ∈ s.waves, v.gang = w.gang
  tiles    : ∀ y ∈ t.tiles, ∀ n, y.st = .gangOwned gid n → ∃ x ∈ s.tiles, x.st = .gangOwned gid n
  versions : ∀ v ∈ t.versions, v ∈ s.versions

section Apart
variable {gid : Nat} {s t : State}

theorem Apart.refl (gid : Nat) (s : State) : Apart gid s s :=
  ⟨rfl, rfl, fun w h => ⟨w, h, rfl⟩, fun y h _ e => ⟨y, h, e⟩, fun _ h => h⟩

theorem Apart.trans {u : State} (h : Apart gid s t) (h' : Apart gid t u) : Apart gid s u where
  rest := by rw [h'.rest, h.rest]
  gang := h'.gang.trans h.gang
  waves w hw := by
    obtain ⟨v, hv, he⟩ := h'.waves w hw
    obtain ⟨x, hx, hx'⟩ := h.waves v hv
    exact ⟨x, hx, hx'.trans he⟩
  tiles y hy n e := by
    obtain ⟨x, hx, he⟩ := h'.tiles y hy n e
    exact h.tiles x hx n he
  versions v hv := h.versions v (h'.versions v hv)

/-- A change of tiles and states that gives the gang no tile. -/
theorem Apart.of_tiles (tiles : List Tile) (states : List StateRec)
    (h : ∀ y ∈ tiles, ∀ n, y.st = .gangOwned gid n → ∃ x ∈ s.tiles, x.st = .gangOwned gid n) :
    Apart gid s { s with tiles, states } :=
  ⟨rfl, rfl, fun w h => ⟨w, h, rfl⟩, h, fun _ h => h⟩

theorem Apart.modTile (s : State) (c p : Nat) {f : Tile → Tile} (hf : ∀ x n, (f x).st = .gangOwned gid n → x.st = .gangOwned gid n) :
    Apart gid s (s.modTile c p f) := by
  refine .of_tiles _ s.states fun y hy n e => ?_
  obtain ⟨x, hx, rfl⟩ := List.mem_map.mp (show y ∈ s.tiles.map _ from hy)
  refine ⟨x, hx, ?_⟩
  split at e
  · exact hf x n e
  · exact e

theorem Apart.modGang (s : State) {id : Nat} {f : Gang → Gang} (hf : ∀ g, (f g).id = g.id) (hne : id ≠ gid) :
    Apart gid s (s.modGang id f) :=
  ⟨rfl, by rw [gang?_modGang hf]; simp [Ne.symm hne], fun w h => ⟨w, h, rfl⟩, fun y h n e => ⟨y, h, e⟩, fun _ h => h⟩

theorem Apart.modWave (s : State) (id : Nat) {f : Wave → Wave} (hf : ∀ w, (f w).gang = w.gang) : Apart gid s (s.modWave id f) := by
  refine ⟨rfl, rfl, fun w hw => ?_, fun y h n e => ⟨y, h, e⟩, fun _ h => h⟩
  obtain ⟨v, hv, rfl⟩ := List.mem_map.mp (show w ∈ s.waves.map _ from hw)
  refine ⟨v, hv, ?_⟩
  split
  · exact (hf v).symm
  · rfl

theorem Apart.settleTracks (s : State) (ts : List Nat) : Apart gid s (s.settleTracks ts) where
  rest := by rw [settleTracks_rest]
  gang := by rw [settleTracks_rest]; rfl
  waves w hw := by
    obtain ⟨v, hv, hk⟩ := forall₂_mem (settleTracks_settled ts s).waves hw
    exact ⟨v, hv, hk.gang.symm⟩
  tiles y hy n e := ⟨y, by rw [settleTracks_rest] at hy; exact hy, e⟩
  versions v hv := by rw [settleTracks_rest] at hv; exact hv

/-- No end of a gang adds a line to a version. -/
theorem endGang_versions (s : State) (id : Nat) (st : GangSt) : ∀ v ∈ (s.endGang id st).versions, v ∈ s.versions := by
  unfold State.endGang
  split
  · exact fun _ h => h
  · dsimp only
    split
    · exact fun _ h => h
    · rw [settleTracks_rest]
      split
      · exact fun v h => List.mem_of_mem_filter h
      · exact fun _ h => h

theorem Apart.of_endStep (h : EndStep s t) (hg : t.gang? gid = s.gang? gid) (hv : ∀ v ∈ t.versions, v ∈ s.versions) : Apart gid s t where
  rest := by rw [h.rest]
  gang := hg
  waves w hw := by
    obtain ⟨v, hv, hk⟩ := forall₂_mem h.waves hw
    exact ⟨v, hv, hk.gang.symm⟩
  tiles y hy n e := ⟨y, by rw [h.rest] at hy; exact hy, e⟩
  versions := hv

theorem abortGang_versions (s : State) (id : Nat) (f : GangFault) : ∀ v ∈ (s.abortGang id f).versions, v ∈ s.versions := by
  cases hg : s.gang? id with
  | none => rw [abortGang_none hg]; exact fun _ h => h
  | some g =>
    cases hd : s.commitsDone g with
    | true => rw [abortGang_done hg hd]; exact endGang_versions s id _
    | false => rw [abortGang_due hg hd]; exact fun _ h => h

theorem Apart.abortGang (s : State) {id : Nat} (f : GangFault) (hne : id ≠ gid) : Apart gid s (s.abortGang id f) :=
  .of_endStep (abortGang_step s id f) (abortGang_other s f (Ne.symm hne)) (abortGang_versions s id f)

theorem Apart.foldl {α : Type} {F : State → α → State} (h : ∀ s x, Apart gid s (F s x)) : ∀ (l : List α) (s : State), Apart gid s (l.foldl F s)
  | [], s => .refl gid s
  | x :: l, s => (h s x).trans (Apart.foldl h l (F s x))

end Apart

/-! ## Accumulator words (R327, R331, R345 to R347) -/

section Acc
variable {gid : Nat} {g : Gang} (hne : g.id ≠ gid)
include hne

theorem mapTile_apart {s t : State} {n p : Nat} (h : s.mapTile g n = some (p, t)) : Apart gid s t := by
  unfold State.mapTile at h
  split at h
  · cases h
    exact .refl gid s
  · split at h
    · cases h
    · cases h
      refine Apart.trans (.of_tiles _ s.states fun y hy n e => ?_) (.modGang _ (fun _ => rfl) hne)
      rcases List.mem_cons.mp hy with rfl | hy
      · cases e
        exact absurd rfl hne
      · exact ⟨y, hy, e⟩

theorem mapCmd_apart {s t : State} {c : TileCmd} (h : s.mapCmd g c = some t) : Apart gid s t := by
  unfold State.mapCmd at h
  generalize c.foot.filter (256 ≤ ·) = xs at h
  induction xs generalizing s with
  | nil =>
    cases h
    exact .refl gid _
  | cons x xs ih =>
    rw [List.foldl_cons, Option.bind_some] at h
    cases hm : s.mapTile g (x - 256) with
    | none =>
      rw [hm, Option.map_none] at h
      rw [List.foldl_fixed' (fun _ => rfl) xs] at h
      cases h
    | some pu =>
      rw [hm, Option.map_some] at h
      exact (mapTile_apart hne hm).trans (ih h)

theorem runPin_apart (s : State) (c : TileCmd) : Apart gid s (s.runPin g c) := by
  unfold State.runPin
  dsimp only
  split
  · exact .abortGang s _ hne
  · exact (Apart.foldl (F := fun (s : State) (x : Nat × Nat) => s.modTile g.cluster x.1 fun t => { t with st := .pinned c.handle x.2 })
      (fun s x => .modTile s _ _ fun _ _ e => by cases e) _ s).trans (.of_tiles _ _ fun y hy n e => ⟨y, hy, e⟩)

theorem runAcc_apart (s : State) (c : TileCmd) : Apart gid s (s.runAcc g c) := by
  unfold State.runAcc
  refine Apart.trans ?_ (.modGang _ (fun _ => rfl) hne)
  split
  · exact Apart.foldl (F := fun (s : State) (p : Nat) => s.modTile g.cluster p fun t => { t with data := [], poison := [] })
      (fun s p => .modTile s _ _ fun _ _ e => e) _ s
  · split
    · exact .abortGang s _ hne
    · exact .modWave s _ fun _ => rfl
  · exact Apart.foldl (F := fun (s : State) (x : Nat × Word) => s.setTileWord g.cluster (c.foot.headD 0) x.1 x.2)
      (fun s x => Apart.modTile s g.cluster (c.foot.headD 0)
        (f := fun t => { t with data := Map.set 0#32 t.data x.1 x.2, poison := t.poison.filter (· != x.1) }) fun _ _ e => e) _ s
  · exact runPin_apart hne s c
  · exact .of_tiles _ _ fun y hy n e => ⟨y, List.mem_of_mem_filter hy, e⟩
  · exact .refl gid s

end Acc

theorem runAccs_apart {gid id : Nat} (hne : id ≠ gid) : ∀ (n : Nat) (s : State), Apart gid s (State.runAccs id n s)
  | 0, s => .refl gid s
  | n + 1, s => by
    unfold State.runAccs
    split
    · exact .refl gid s
    · next g hg =>
      split
      · exact .refl gid s
      · split
        · exact .refl gid s
        · next t seq hf =>
          obtain ⟨c, -, hc⟩ := List.exists_of_findSome?_eq_some hf
          split at hc
          · obtain ⟨u, hu, he⟩ := Option.map_eq_some_iff.mp hc
            cases he
            have hmap := mapCmd_apart (gid := gid) (by rw [gang?_id hg]; exact hne) hu
            split
            · next g' c' hcmd =>
              obtain ⟨x, hx, hx'⟩ := Option.bind_eq_some_iff.mp hcmd
              obtain ⟨y, -, hy⟩ := Option.map_eq_some_iff.mp hx'
              cases hy
              exact hmap.trans ((runAcc_apart (by rw [gang?_id hx]; exact hne) t _).trans (runAccs_apart hne n _))
            · exact .refl gid s
          · cases hc

/-- A gang with no accumulator word left is left alone as tiles become free. -/
theorem drainAll_apart {gid : Nat} {s : State} (hq : ∀ g, s.gang? gid = some g → g.tileQ = []) : Apart gid s s.drainAll := by
  unfold State.drainAll
  generalize s.gangs = gs
  induction gs generalizing s with
  | nil => exact .refl gid s
  | cons x gs ih =>
    have hx : Apart gid s (s.drainAcc x.id) := by
      unfold State.drainAcc
      by_cases he : x.id = gid
      · rw [he]
        cases hg : s.gang? gid with
        | none => exact .refl gid s
        | some g =>
          rw [Option.map_some, hq g hg]
          exact .refl gid s
      · exact runAccs_apart he _ s
    exact hx.trans (ih fun g hg => hq g (hx.gang ▸ hg))

end Sys2Proof.Machine
end

section
/-! The release of a gang (R258), its re-run (R259) and its retirement where it has no version (R280). -/

namespace Sys2Proof.Machine
open Sys2Proof.Claims

/-! ## What a release leaves (R258, R330) -/

/-- What stands once the resources of gang `gid` are free. -/
structure Released (gid : Nat) (s t : State) : Prop where
  waves    : ∀ w ∈ t.waves, w.gang ≠ gid
  tiles    : ∀ y ∈ t.tiles, ∀ n, y.st ≠ .gangOwned gid n
  versions : ∀ v ∈ t.versions, v.gang ≠ gid
  gang     : t.gang? gid = s.gang? gid
  launches : t.launches = s.launches
  mem      : t.mem = s.mem
  sect     : t.sect = s.sect

/-- The state once the gang's tiles, waves, version and bindings are gone, before what waits for them is served. -/
def State.freed (s : State) (g : Gang) : State :=
  { s with
    tiles := s.tiles.filter fun t => !(match t.st with | .gangOwned id _ => id == g.id | _ => false) && !(s.orphan g t)
    waves := s.waves.filter fun w => w.gang != g.id
    versions := s.versions.filter fun v => v.gang != g.id
    states := modBy s.states (fun x => x.bound.any fun b => b.1 == g.id) fun x => { x with bound := none, ending := false } }

theorem releaseGang_eq (s : State) (g : Gang) :
    s.releaseGang g = ((s.freed g).settleTracks ((s.wavesOf g.id).filterMap (·.track))).drainAll := rfl

theorem releaseGang_released {s : State} {g : Gang} (hq : ∀ x, s.gang? g.id = some x → x.tileQ = []) :
    Released g.id s (s.releaseGang g) := by
  have hset := Apart.settleTracks (gid := g.id) (s.freed g) ((s.wavesOf g.id).filterMap (·.track))
  have happ : Apart g.id (s.freed g) (s.releaseGang g) := by
    rw [releaseGang_eq]
    exact hset.trans (drainAll_apart fun x hx => hq x (hset.gang ▸ hx))
  refine ⟨fun w hw he => ?_, fun y hy n he => ?_, fun v hv he => ?_, happ.gang, ?_, ?_, ?_⟩
  · obtain ⟨v, hv, hv'⟩ := happ.waves w hw
    simpa [hv', he] using (List.mem_filter.mp hv).2
  · obtain ⟨x, hx, hx'⟩ := happ.tiles y hy n he
    have := (List.mem_filter.mp hx).2
    simp [hx'] at this
  · simpa [he] using (List.mem_filter.mp (happ.versions v hv)).2
  all_goals rw [happ.rest]; rfl

theorem gang?_filter_none (s : State) (gid : Nat) (gs : List Gang) :
    State.gang? { s with gangs := gs.filter fun x => x.id != gid } gid = none :=
  List.find?_eq_none.mpr fun x hx => by simpa using (List.mem_filter.mp hx).2

/-- A gang that is dropped is gone, and nothing of it with the launch or in memory changes. -/
structure Dropped (gid : Nat) (s t : State) : Prop where
  gone     : Gone t gid
  versions : ∀ v ∈ t.versions, v.gang ≠ gid
  launches : t.launches = s.launches
  mem      : t.mem = s.mem
  sect     : t.sect = s.sect

theorem dropGang_dropped {s : State} {g : Gang} {gid : Nat} (hid : g.id = gid) (hq : ∀ x, s.gang? gid = some x → x.tileQ = []) :
    Dropped gid s (s.dropGang g) := by
  subst hid
  have h := releaseGang_released hq
  exact ⟨⟨gang?_filter_none _ _ _, h.waves, h.tiles⟩, h.versions, h.launches, h.mem, h.sect⟩

/-! ## Launches found after a change of those of one number -/

theorem launch?_modLaunch {s : State} {id id' : Nat} {f : Launch → Launch} (hf : ∀ l, (f l).id = l.id) :
    (s.modLaunch id f).launch? id' = (s.launch? id').map fun l => if id' = id then f l else l :=
  find?_modBy_key (k := Launch.id) hf s.launches id id'

theorem launch?_modLaunch_same {s : State} {id : Nat} {f : Launch → Launch} (hf : ∀ l, (f l).id = l.id) {l : Launch}
    (hl : s.launch? id = some l) : (s.modLaunch id f).launch? id = some (f l) := by
  rw [launch?_modLaunch hf, hl, Option.map_some, if_pos rfl]

theorem launch?_congr {s t : State} (h : t.launches = s.launches) (id : Nat) : t.launch? id = s.launch? id := by
  rw [State.launch?, h, State.launch?]

theorem launch?_id {s : State} {id : Nat} {l : Launch} (h : s.launch? id = some l) : l.id = id := by
  simpa using List.find?_some h

/-! ## GANG_RESOURCE_FREE (R258) and GANG_RERUN (R259) -/

theorem reruns_iff (s : State) (g : Gang) (f : GangFault) : s.reruns g f = true ↔ Requeues s g f := by
  simp [State.reruns, GangFault.requeue, Requeues, or_assoc, and_assoc]

/-- The launch with the flags and the fault of an aborted gang. -/
def Launch.withAbort (s : State) (g : Gang) (f : GangFault) (l : Launch) : Launch :=
  (l.addFlags g.index (s.gangFlags g)).addFault g.index f

theorem withAbort_id (s : State) (g : Gang) (f : GangFault) (l : Launch) : (l.withAbort s g f).id = l.id := by
  unfold Launch.withAbort Launch.addFault
  split <;> rfl

/-- The fault of the gang with the lowest index stays. -/
theorem withAbort_fault (s : State) (g : Gang) (f : GangFault) (l : Launch) :
    (l.withAbort s g f).fault = if ∀ x, l.fault = some x → g.index < x.1 then some (g.index, f) else l.fault := by
  unfold Launch.withAbort Launch.addFault
  have hiff : ((l.addFlags g.index (s.gangFlags g)).fault.all fun x => g.index < x.1) = true ↔
      ∀ x, l.fault = some x → g.index < x.1 := by
    simp [Launch.addFlags, Option.all_eq_true]
  rw [apply_ite Launch.fault]
  exact if_congr hiff rfl rfl

/-- A gang that is kept for its re-run, with nothing of its place. -/
def Gang.displaced (g : Gang) : Gang :=
  { g with place := none, lastCluster := g.cluster, spad := [], spadPoison := [], full := [], savedTiles := [] }

section Free
variable {s : State} {gid : Nat} {g : Gang} (hg : s.gang? gid = some g) (hw : s.wavesOf gid ≠ []) (hq : g.tileQ = [])
  (hwalk : ∀ q ∈ g.queues, q.walk = none) (hgroom : ∀ r ∈ s.groom, r.gang ≠ gid)
include hg hw hq hwalk hgroom

/-- What the release of an ended gang does, once nothing of it is under way. -/
theorem execGangResourceFree_eq (hl : g.st ≠ .live) : exec (.gangResourceFree gid) s = match g.st with
    | .live => .next s
    | .squashed => .next (s.dropGang g)
    | .aborted f => if s.reruns g f then
        .next ((s.releaseGang g).modGang gid Gang.displaced)
      else .next ((s.modLaunch g.launch (Launch.withAbort s g f)).dropGang g) := by
  show execGangResourceFree gid s = _
  unfold execGangResourceFree
  have h1 : (s.wavesOf gid).isEmpty = false := by simpa using hw
  have h2 : g.queues.any (·.walk.isSome) = false := by
    simpa using fun q hqm => hwalk q hqm
  have h3 : (s.groom.any fun r => r.gang == gid) = false := by simpa using hgroom
  rw [hg]
  dsimp only
  rw [if_neg (by simp [hl, h1, hq, h2, h3])]
  rfl

theorem gangResourceFree_spec :
    (g.st = .squashed → ∃ t, exec (.gangResourceFree gid) s = .next t ∧ Gone t gid) ∧
    ∀ f, g.st = .aborted f →
      (¬Requeues s g f → ∃ t, exec (.gangResourceFree gid) s = .next t ∧ Gone t gid ∧
        ∀ l, s.launch? g.launch = some l → ∃ l', t.launch? g.launch = some l' ∧
          l'.fault = if ∀ x, l.fault = some x → g.index < x.1 then some (g.index, f) else l.fault) ∧
      (Requeues s g f → ∃ t g', exec (.gangResourceFree gid) s = .next t ∧ t.gang? gid = some g' ∧ g'.place = none ∧
        g'.st = g.st ∧ (∀ w ∈ t.waves, w.gang ≠ gid) ∧ ∀ y ∈ t.tiles, ∀ n, y.st ≠ .gangOwned gid n) := by
  have hid := gang?_id hg
  have hq' : ∀ x, s.gang? gid = some x → x.tileQ = [] := fun x hx => by
    rw [hg, Option.some.injEq] at hx
    exact hx ▸ hq
  have he := execGangResourceFree_eq hg hw hq hwalk hgroom
  refine ⟨fun hst => ?_, fun f hst => ⟨fun hr => ?_, fun hr => ?_⟩⟩
  · rw [he (by simp [hst]), hst]
    exact ⟨_, rfl, (dropGang_dropped hid hq').gone⟩
  · rw [he (by simp [hst]), hst]
    dsimp only
    rw [if_neg (mt (reruns_iff s g f).mp hr)]
    have hd := dropGang_dropped (s := s.modLaunch g.launch (Launch.withAbort s g f)) hid hq'
    refine ⟨_, rfl, hd.gone, fun l hl => ⟨l.withAbort s g f, ?_, withAbort_fault s g f l⟩⟩
    rw [launch?_congr hd.launches, launch?_modLaunch_same (withAbort_id s g f) hl]
  · rw [he (by simp [hst])]
    subst hid
    have hr' := releaseGang_released hq'
    rw [hst]
    dsimp only
    rw [if_pos ((reruns_iff s g f).mpr hr)]
    refine ⟨_, g.displaced, rfl, ?_, rfl, hst, hr'.waves, hr'.tiles⟩
    rw [gang?_modGang (f := Gang.displaced) fun _ => rfl, hr'.gang, hg, Option.map_some, if_pos rfl]

end Free

theorem mem_insertTodo (x y : Nat × Nat) (xs : List (Nat × Nat)) : y ∈ insertTodo x xs ↔ y = x ∨ y ∈ xs := by
  induction xs with
  | nil => simp [insertTodo]
  | cons z xs ih =>
    unfold insertTodo
    split
    · simp
    · rw [List.mem_cons, ih, List.mem_cons]
      exact or_left_comm

/-- The launch as a gang of it is run again. -/
def Launch.withRerun (g : Gang) (f : GangFault) (l : Launch) : Launch :=
  if l.shaped && l.extent.all (· ≤ g.index) then { l with trimmed := l.trimmed + 1 }
  else { l with todo := insertTodo (g.index, g.attempt + 1) l.todo
                noDies := if f.code == 0x85 then (g.index, g.die) :: l.noDies else l.noDies }

theorem withRerun_id (g : Gang) (f : GangFault) (l : Launch) : (l.withRerun g f).id = l.id := by
  unfold Launch.withRerun
  split <;> rfl

/-- Beyond the shape it is trimmed; else it is to be placed again, not on the die of a die fault. -/
theorem withRerun_spec (g : Gang) (f : GangFault) (l : Launch) :
    if l.shaped = true ∧ (∀ v, l.extent = some v → v ≤ g.index) then l.withRerun g f = { l with trimmed := l.trimmed + 1 }
    else (∀ x, x ∈ (l.withRerun g f).todo ↔ x = (g.index, g.attempt + 1) ∨ x ∈ l.todo) ∧
      (f.code = 0x85 → (g.index, g.die) ∈ (l.withRerun g f).noDies) := by
  have hiff : (l.shaped && l.extent.all (· ≤ g.index)) = true ↔ l.shaped = true ∧ ∀ v, l.extent = some v → v ≤ g.index := by
    simp [Option.all_eq_true]
  unfold Launch.withRerun
  split
  · next h => rw [if_pos (hiff.mpr h)]
  · next h =>
    rw [if_neg (mt hiff.mp h)]
    exact ⟨fun x => mem_insertTodo _ _ _, fun hc => by simp [hc]⟩

theorem gangRerun_spec {s : State} {gid : Nat} {g : Gang} {f : GangFault} {l : Launch} (hg : s.gang? gid = some g)
    (hst : g.st = .aborted f) (hr : Requeues s g f) (hw : s.wavesOf gid = []) (hl : s.launch? g.launch = some l) :
    ∃ t l', exec (.gangRerun gid) s = .next t ∧ t = { s with gangs := t.gangs, launches := t.launches } ∧
      t.gang? gid = none ∧ t.launch? g.launch = some l' ∧
      if l.shaped = true ∧ (∀ v, l.extent = some v → v ≤ g.index) then l' = { l with trimmed := l.trimmed + 1 }
      else (∀ x, x ∈ l'.todo ↔ x = (g.index, g.attempt + 1) ∨ x ∈ l.todo) ∧ (f.code = 0x85 → (g.index, g.die) ∈ l'.noDies) := by
  have he : exec (.gangRerun gid) s = .next
      { s.modLaunch g.launch (Launch.withRerun g f) with gangs := s.gangs.filter fun x => x.id != gid } := by
    show execGangRerun gid s = _
    unfold execGangRerun
    rw [hg]
    dsimp only
    rw [hst]
    dsimp only
    rw [if_neg (by simp [(reruns_iff s g f).mpr hr, hw])]
    rfl
  exact ⟨_, l.withRerun g f, he, rfl, gang?_filter_none _ _ _, launch?_modLaunch_same (withRerun_id g f) hl, withRerun_spec g f l⟩

end Sys2Proof.Machine
end

section
/-! The shape of a launch (R362 to R365): `cutLaunch_gangs` and `Launch.cutAt` say what a cut does. -/

namespace Sys2Proof.Machine
open Sys2Proof.Claims

/-! ## The cut of a launch (R364) -/

/-- The placed gangs that a cut squashes. -/
def State.beyond (s : State) (lid lim : Nat) : List Gang := s.gangs.filter fun g => g.launch == lid && g.st == .live && lim ≤ g.index

/-- The launch after a cut. -/
def Launch.cutAt (lim squashed : Nat) (l : Launch) : Launch :=
  { l with todo := l.todo.filter fun x => x.1 < lim
           trimmed := l.trimmed + (l.todo.filter fun x => lim ≤ x.1).length
           squashed := l.squashed + squashed }

theorem cutLaunch_eq (s : State) (lid lim : Nat) : s.cutLaunch lid lim =
    ((s.beyond lid lim).map (·.id)).foldl (fun (t : State) id => t.endGang id .squashed)
      (s.modLaunch lid (Launch.cutAt lim (s.beyond lid lim).length)) := by
  rw [List.foldl_map]
  rfl

theorem cutLaunch_step (s : State) (lid lim : Nat) :
    EndStep (s.modLaunch lid (Launch.cutAt lim (s.beyond lid lim).length)) (s.cutLaunch lid lim) := by
  rw [cutLaunch_eq]
  exact EndStep.foldl (endGang_isEnd .squashed).step _ _

theorem EndStep.launches {s t : State} (h : EndStep s t) : t.launches = s.launches := by rw [h.rest]

theorem launch?_cutLaunch {s : State} {lid lim : Nat} {l : Launch} (hl : s.launch? lid = some l) :
    (s.cutLaunch lid lim).launch? lid = some (l.cutAt lim (s.beyond lid lim).length) := by
  rw [launch?_congr (cutLaunch_step s lid lim).launches]
  exact launch?_modLaunch_same (f := Launch.cutAt lim (s.beyond lid lim).length) (fun _ => rfl) hl

/-- The live gangs of the launch at or beyond the limit are squashed, and no other gang changes in how it stands. -/
theorem cutLaunch_gangs {s : State} (hp : s.gangs.Pairwise fun x y => x.id ≠ y.id) (lid lim : Nat) {id : Nat} {g : Gang}
    (hg : s.gang? id = some g) : ∃ g', (s.cutLaunch lid lim).gang? id = some g' ∧
      (g.launch = lid → g.st = .live → lim ≤ g.index → g'.st = .squashed) ∧
      (¬(g.launch = lid ∧ g.st = .live ∧ lim ≤ g.index) → g'.st = g.st) := by
  have hmem : id ∈ (s.beyond lid lim).map (·.id) ↔ g.launch = lid ∧ g.st = .live ∧ lim ≤ g.index := by
    constructor
    · intro h
      obtain ⟨x, hx, he⟩ := List.mem_map.mp h
      obtain ⟨hx, hc⟩ := List.mem_filter.mp hx
      have hx' := gang?_of_mem hp hx
      rw [he, hg, Option.some.injEq] at hx'
      subst hx'
      simpa [and_assoc] using hc
    · rintro ⟨h1, h2, h3⟩
      exact List.mem_map.mpr ⟨g, List.mem_filter.mpr ⟨gang?_mem hg, by simp [h1, h2, h3]⟩, gang?_id hg⟩
  rw [cutLaunch_eq]
  by_cases h : id ∈ (s.beyond lid lim).map (·.id)
  · obtain ⟨u, -, hu, hut⟩ := endFold_split (endGang_isEnd .squashed)
      (s.modLaunch lid (Launch.cutAt lim (s.beyond lid lim).length)) h
    obtain ⟨-, hl, -⟩ := hmem.mp h
    obtain ⟨g', hg', hk⟩ := hut.gangs id _ (endGang_ends .squashed (hu.trans hg) hl).1
    exact ⟨g', hg', fun _ _ _ => hk.ended (by simp [Gang.endedAs]), fun hn => absurd (hmem.mp h) hn⟩
  · exact ⟨g, (endFold_other (endGang_isEnd .squashed) _ _ h).trans hg, fun h1 h2 h3 => absurd (hmem.mpr ⟨h1, h2, h3⟩) h, fun _ => rfl⟩

/-- A cut, from the launch and the gangs that a state holds. -/
theorem cut_of_cutLaunch {s t : State} (hp : s.gangs.Pairwise fun x y => x.id ≠ y.id) {lid v : Nat} {l l' : Launch}
    (hl : t.launch? lid = some l') (hs : l'.shaped = true) (htrim : l'.trimmed = (l.cutAt v (s.beyond lid v).length).trimmed)
    (hsq : l'.squashed = (l.cutAt v (s.beyond lid v).length).squashed)
    (hg : ∀ id g, (s.cutLaunch lid v).gang? id = some g → ∃ g', t.gang? id = some g' ∧ g'.st = g.st) : Cut s t lid l l' v := by
  refine ⟨hl, hs, fun id g h => ?_, htrim, hsq⟩
  obtain ⟨x, hx, hsquash, hkeep⟩ := cutLaunch_gangs hp lid v h
  obtain ⟨g', hg', he⟩ := hg id x hx
  exact ⟨g', hg', fun h1 h2 h3 => he.trans (hsquash h1 h2 h3), fun hn => he.trans (hkeep hn)⟩

/-! ## The end of a launch by its shape (R364, R365) -/

/-- The launch that its shape has ended. -/
def Launch.shapeEnded (status : Nat) (l : Launch) : Launch := { l with shaped := true, started := true, status }

theorem endShape_eq (s : State) (l : Launch) (status : Nat) :
    s.endShape l status = (s.cutLaunch l.id 0).modLaunch l.id (Launch.shapeEnded status) := rfl

theorem endShape_cut {s : State} (hp : s.gangs.Pairwise fun x y => x.id ≠ y.id) {lid : Nat} {l : Launch} (hl : s.launch? lid = some l)
    (status : Nat) : ∃ l', Cut s (s.endShape l status) lid l l' 0 ∧ l'.status = status ∧ l'.todo = [] := by
  rw [endShape_eq, launch?_id hl]
  refine ⟨(l.cutAt 0 (s.beyond lid 0).length).shapeEnded status, ?_, rfl, ?_⟩
  · exact cut_of_cutLaunch hp (launch?_modLaunch_same (f := Launch.shapeEnded status) (fun _ => rfl) (launch?_cutLaunch hl)) rfl rfl rfl fun id g hg => ⟨g, hg, rfl⟩
  · simp [Launch.shapeEnded, Launch.cutAt]

/-! ## The shape known (R364) -/

/-- The launch with its true extent, and its tail from the prediction up. -/
def Launch.withShape (xp v : Nat) (l : Launch) : Launch :=
  { l with shaped := true, extent := some v, todo := l.todo ++ (List.range (v - xp)).map fun i => (xp + i, 0)
           tail := l.tail + (v - xp) }

/-- A gang once the gates of a launch open. -/
def Gang.ungated (lid : Nat) (g : Gang) : Gang := if g.launch == lid then { g with gate := false } else g

theorem ungated_id (lid : Nat) (g : Gang) : (g.ungated lid).id = g.id := by unfold Gang.ungated; split <;> rfl
theorem ungated_st (lid : Nat) (g : Gang) : (g.ungated lid).st = g.st := by unfold Gang.ungated; split <;> rfl

theorem gang?_openGates (s : State) (lid id : Nat) : (s.openGates lid).gang? id = (s.gang? id).map (Gang.ungated lid) := by
  have hc : ((fun x : Gang => x.id == id) ∘ Gang.ungated lid) = fun x => x.id == id := by
    funext g
    simp only [Function.comp, ungated_id]
  show (s.gangs.map (Gang.ungated lid)).find? _ = _
  rw [List.find?_map, hc, State.gang?]

theorem openGates_gates (s : State) (lid : Nat) : ∀ g ∈ (s.openGates lid).gangs, g.launch = lid → g.gate = false := by
  intro g hg
  obtain ⟨x, -, rfl⟩ := List.mem_map.mp (show g ∈ s.gangs.map _ from hg)
  by_cases hx : x.launch = lid
  · simp [hx]
  · intro he
    simp [hx] at he

theorem noteExtent_gangs (s : State) (l : Launch) (v : Nat) : (s.noteExtent l v).gangs = s.gangs := by
  unfold State.noteExtent
  split <;> rfl

theorem launch?_noteExtent {s : State} {id : Nat} {l : Launch} (hl : s.launch? id = some l) (m : Launch) (v : Nat) :
    ∃ gr, (s.noteExtent m v).launch? id = some { l with graph := gr } := by
  unfold State.noteExtent
  split
  · next g i _ =>
    rw [launch?_modLaunch (f := fun x => { x with graph := x.graph.map fun y => { y with extents := (i, v) :: y.extents } })
      fun _ => rfl, hl, Option.map_some]
    split
    · exact ⟨_, rfl⟩
    · exact ⟨_, rfl⟩
  · exact ⟨_, hl⟩

/-- The state in which the shape has been applied. -/
def State.shapeApplied (s : State) (l : Launch) (v : Nat) : State :=
  (((s.cutLaunch l.id v).openGates l.id).modLaunch l.id (Launch.withShape l.xp v)).noteExtent l v

theorem shapeApplied_cut {s : State} (hp : s.gangs.Pairwise fun x y => x.id ≠ y.id) {lid v : Nat} {l : Launch}
    (hl : s.launch? lid = some l) : ∃ l', Cut s (s.shapeApplied l v) lid l l' v ∧ l'.extent = some v ∧ l'.status = l.status ∧
      (l'.todo = l.todo.filter (fun x => x.1 < v) ++ (List.range (v - l.xp)).map fun i => (l.xp + i, 0)) ∧
      ∀ g ∈ (s.shapeApplied l v).gangs, g.launch = lid → g.gate = false := by
  unfold State.shapeApplied
  rw [launch?_id hl]
  have hl1 : (((s.cutLaunch lid v).openGates lid).modLaunch lid (Launch.withShape l.xp v)).launch? lid =
      some ((l.cutAt v (s.beyond lid v).length).withShape l.xp v) :=
    launch?_modLaunch_same (f := Launch.withShape l.xp v) (fun _ => rfl) (launch?_cutLaunch hl)
  obtain ⟨gr, hgr⟩ := launch?_noteExtent hl1 l v
  refine ⟨_, cut_of_cutLaunch hp hgr rfl rfl rfl fun id g hg => ?_, rfl, rfl, rfl, ?_⟩
  · rw [State.gang?, noteExtent_gangs]
    exact ⟨g.ungated lid, (gang?_openGates _ lid id).trans (by rw [hg, Option.map_some]), ungated_st lid g⟩
  · rw [noteExtent_gangs]
    exact openGates_gates _ lid

theorem applyShape_ok {s : State} {l : Launch} {v : Nat} (hpred : (s.ctxOf l).predictor = none) (hv : v ≤ l.x) :
    s.applyShape l v = .ok (s.shapeApplied l v) := by
  unfold State.applyShape
  rw [if_neg (Nat.not_lt.mpr hv), State.shiftPredictor, State.predictorAt, hpred]
  simp only [List.length_map, List.length_range]
  rfl

theorem applyShape_over {s : State} {l : Launch} {v : Nat} (hv : l.x < v) : s.applyShape l v = .ok (s.endShape l 9) := if_pos hv

/-! ## SHAPE_APPLY and SHAPE_TIMEOUT (R364, R365) -/

section Cell
variable {s : State} {lid : Nat} {l : Launch} {v : Nat}

theorem cellHolds_cell (h : CellHolds s lid l v) : s.shapeCell lid = some (l, .ok v) := by
  obtain ⟨hl, hs, hn, hon, hr⟩ := h
  simp [State.shapeCell, hl, hs, hn, hon, hr]

theorem cellHolds_launch (h : CellHolds s lid l v) : s.launch? lid = some l := h.1

theorem execShapeApply_known (h : CellHolds s lid l v) (hv : v ≠ 2 ^ 64 - 1) {t : State} (ht : s.applyShape l v = .ok t) :
    exec (.shapeApply lid) s = .next t := by
  show execShapeApply lid s = _
  unfold execShapeApply
  rw [cellHolds_cell h]
  dsimp only
  rw [if_neg (by simpa [shapeUnknown] using hv), ht]

theorem execShapeApply_unknown (h : CellHolds s lid l (2 ^ 64 - 1)) : exec (.shapeApply lid) s = .next s := by
  show execShapeApply lid s = _
  unfold execShapeApply
  rw [cellHolds_cell h]
  rfl

theorem execShapeTimeout_unknown (h : CellHolds s lid l (2 ^ 64 - 1)) : exec (.shapeTimeout lid) s = .next (s.endShape l 12) := by
  show execShapeTimeout lid s = _
  unfold execShapeTimeout
  rw [cellHolds_cell h]
  rfl

theorem shape_spec (hp : s.gangs.Pairwise fun x y => x.id ≠ y.id) (h : CellHolds s lid l v) :
    (v ≠ 2 ^ 64 - 1 → (s.ctxOf l).predictor = none → v ≤ l.x → ∃ t l', exec (.shapeApply lid) s = .next t ∧
      Cut s t lid l l' v ∧ l'.extent = some v ∧ l'.status = l.status ∧
      (l'.todo = l.todo.filter (fun x => x.1 < v) ++ (List.range (v - l.xp)).map fun i => (l.xp + i, 0)) ∧
      ∀ g ∈ t.gangs, g.launch = lid → g.gate = false) ∧
    (v ≠ 2 ^ 64 - 1 → l.x < v → ∃ t l', exec (.shapeApply lid) s = .next t ∧ Cut s t lid l l' 0 ∧ l'.status = 9 ∧ l'.todo = []) ∧
    (v = 2 ^ 64 - 1 → exec (.shapeApply lid) s = .next s ∧
      ∃ t l', exec (.shapeTimeout lid) s = .next t ∧ Cut s t lid l l' 0 ∧ l'.status = 12 ∧ l'.todo = []) := by
  refine ⟨fun hv hpred hx => ?_, fun hv hx => ?_, fun hv => ?_⟩
  · obtain ⟨l', hl'⟩ := shapeApplied_cut (v := v) hp (cellHolds_launch h)
    exact ⟨_, l', execShapeApply_known h hv (applyShape_ok hpred hx), hl'⟩
  · obtain ⟨l', hl'⟩ := endShape_cut hp (cellHolds_launch h) 9
    exact ⟨_, l', execShapeApply_known h hv (applyShape_over hx), hl'⟩
  · subst hv
    obtain ⟨l', hl'⟩ := endShape_cut hp (cellHolds_launch h) 12
    exact ⟨execShapeApply_unknown h, _, l', execShapeTimeout_unknown h, hl'⟩

end Cell

end Sys2Proof.Machine
end

section
/-! The last commit (R206, R262) and the retirement of a gang (R280): `commit_here` says what a commit does whose lines are all
homed on the gang's die. -/

namespace Sys2Proof.Machine
open Sys2Proof.Claims

/-! ## The stages of a commit (R206) -/

/-- The writes of a gang's version. -/
def State.commitWrites (s : State) (gid : Nat) : List LineWrite :=
  ((s.version gid).filter fun v => v.mask != 0).map fun v => { line := v.line, data := v.data, mask := v.mask }

/-- Those for lines of the die, or of the host, performed. -/
def State.performHere (d : Nat) (ws : List LineWrite) (s : State) : State :=
  (ws.filter fun w => homeOfLine w.line == some d || homeOfLine w.line == none).foldl
    (fun s w => if homeOfLine w.line == none then { s with mem := memPut s.mem w } else s.homeWrite w) s

/-- The copies of the lines that end. -/
def State.endCopies (gid d : Nat) (ws : List LineWrite) (s : State) : State :=
  let s := ws.foldl (fun (s : State) w => s.endRemote d w.line) s
  let cores := (s.waves.filter fun w => w.gang == gid).map Wave.core
  { s with l1 := s.l1.filter fun x => !(cores.contains x.core && ws.any fun w => w.line == x.line) }

/-- The bundles to other dies. -/
def State.publishThere (d wave : Nat) (ws : List LineWrite) (s : State) : State :=
  (List.range 8).foldl (fun s h =>
    let b := ws.filter fun w => homeOfLine w.line == some h
    if h == d || b.isEmpty then s else s.publish d h wave (.writes b) (bundleWords b)) s

/-- The version emptied, but for the room that groups under way have. -/
def State.emptyVersion (gid : Nat) (g : Gang) (ws : List LineWrite) (s : State) : State :=
  let s := ws.foldl State.endPoison s
  let s := { s with versions := s.versions.filter fun v => v.gang != gid }
  (s.sunk.filter fun x => x.gang == gid && !x.ran && x.stores).foldl
    (fun (s : State) x => s.verWrite g none { line := x.line, data := 0, mask := 0 }) s

/-- A gang that has committed once more. -/
def Gang.withCommit (g : Gang) : Gang := { g with committed := true, ccnt := g.ccnt + 1 }

theorem commit_stages {s : State} {gid wave : Nat} {g : Gang} (hg : s.gang? gid = some g) : s.commit gid wave =
    (((((s.performHere g.die (s.commitWrites gid)).endCopies gid g.die (s.commitWrites gid)).publishThere g.die wave
      (s.commitWrites gid)).emptyVersion gid g (s.commitWrites gid))).modGang gid Gang.withCommit := by
  unfold State.commit
  rw [hg]
  rfl

/-! ## What a commit leaves alone -/

/-- A wave's number, gang and flags. -/
def Wave.key (w : Wave) : Nat × Nat × BitVec 7 := (w.id, w.gang, w.xstat)

/-- What a commit on one die leaves as it is: gangs, launches, the fabric, groups that left their cores, and the waves' numbers
and flags. -/
structure CommitFrame (s t : State) : Prop where
  gangs    : t.gangs = s.gangs
  launches : t.launches = s.launches
  flows    : t.flows = s.flows
  sunk     : t.sunk = s.sunk
  waves    : t.waves.map Wave.key = s.waves.map Wave.key

theorem CommitFrame.refl (s : State) : CommitFrame s s := ⟨rfl, rfl, rfl, rfl, rfl⟩

theorem CommitFrame.trans {s t u : State} (h : CommitFrame s t) (h' : CommitFrame t u) : CommitFrame s u :=
  ⟨h'.gangs.trans h.gangs, h'.launches.trans h.launches, h'.flows.trans h.flows, h'.sunk.trans h.sunk, h'.waves.trans h.waves⟩

theorem CommitFrame.foldl {α : Type} {F : State → α → State} (h : ∀ s x, CommitFrame s (F s x)) :
    ∀ (l : List α) (s : State), CommitFrame s (l.foldl F s)
  | [], s => .refl s
  | x :: l, s => (h s x).trans (CommitFrame.foldl h l (F s x))

theorem monEvent_keys (s : State) (line : Nat) (p : Wave → Bool) : (s.monEvent line p).waves.map Wave.key = s.waves.map Wave.key := by
  unfold State.monEvent
  rw [List.map_map]
  refine List.map_congr_left fun w _ => ?_
  simp only [Function.comp]
  split
  · split
    · split <;> rfl
    · rfl
  · rfl

theorem homeWrite_frame (s : State) (w : LineWrite) : CommitFrame s (s.homeWrite w) := by
  have hwaves : (s.homeWrite w).waves.map Wave.key = s.waves.map Wave.key := by
    rw [homeWrite_def, monEvent_keys]
    obtain ⟨hl, ps, h⟩ := touchHome_rest { s.endOthers none w.line with
      mem := memPut (s.homeSync w.line).mem w, hostLines := s.hostLines.filter (· != w.line) } w.line
    rw [h]
    rfl
  obtain ⟨hs, hl, ps, ws, h⟩ := homeWrite_rest s w
  rw [h] at hwaves ⊢
  exact ⟨rfl, rfl, rfl, rfl, hwaves⟩

/-! ## The lines of the version at their homes -/

/-- A byte of a line after writes in turn. -/
def writtenByte (ws : List LineWrite) (line n : Nat) (b : Byte) : Byte :=
  ws.foldl (fun b w => if w.line = line ∧ w.mask.getLsbD n = true then lineByte w.data n else b) b

/-- Writes performed at homes of one die, in turn. -/
theorem performHere_eq {d : Nat} {ws : List LineWrite} (s : State) (h : ∀ w ∈ ws, homeOfLine w.line = some d) :
    s.performHere d ws = ws.foldl State.homeWrite s := by
  unfold State.performHere
  rw [List.filter_eq_self.mpr fun w hw => by simp [h w hw]]
  exact List.foldl_ext _ _ _ fun t w hw => by simp [h w hw]

theorem homeWrites_byte {line n : Nat} (hn : n < 64) : ∀ (ws : List LineWrite) (s : State),
    lineByte ((ws.foldl State.homeWrite s).homeView line) n = writtenByte ws line n (lineByte (s.homeView line) n)
  | [], _ => rfl
  | w :: ws, s => by
    rw [List.foldl_cons, homeWrites_byte hn ws, homeView_homeWrite, writtenByte, writtenByte, List.foldl_cons]
    congr 1
    by_cases hl : line = w.line
    · rw [if_pos hl, lineByte_mergeLine _ _ _ hn]
      simp [hl]
    · rw [if_neg hl, if_neg fun h => hl h.1.symm]

theorem endRemote_frame (s : State) (d line : Nat) : CommitFrame s (s.endRemote d line) := ⟨rfl, rfl, rfl, rfl, rfl⟩

theorem homeView_endRemote (s : State) (d line l : Nat) : (s.endRemote d line).homeView l = s.homeView l := by
  have hd : (s.endRemote d line).dirtyOf l = s.dirtyOf l := by
    show (s.sect.filter _).filter _ = s.sect.filter _
    rw [List.filter_filter]
    refine List.filter_congr fun x _ => ?_
    cases x.remote <;> simp
  rw [homeView_def, homeView_def, hd]
  rfl

theorem endCopies_frame (gid d : Nat) (ws : List LineWrite) (s : State) : CommitFrame s (s.endCopies gid d ws) := by
  refine (CommitFrame.foldl (F := fun (s : State) (w : LineWrite) => s.endRemote d w.line) (fun s w => endRemote_frame s d w.line)
    ws s).trans ⟨rfl, rfl, rfl, rfl, rfl⟩

theorem homeView_endCopies (gid d : Nat) (ws : List LineWrite) (s : State) (l : Nat) :
    (s.endCopies gid d ws).homeView l = s.homeView l :=
  (homeView_congr rfl rfl l).trans (foldl_keeps (fun s : State => s.homeView l)
    (F := fun (s : State) (w : LineWrite) => s.endRemote d w.line) (fun s w => homeView_endRemote s d w.line l) ws s)

/-- Nothing leaves for another die. -/
theorem publishThere_eq {d wave : Nat} {ws : List LineWrite} (s : State) (h : ∀ w ∈ ws, homeOfLine w.line = some d) :
    s.publishThere d wave ws = s := by
  unfold State.publishThere
  rw [List.foldl_ext _ (fun s _ => s) s fun t k _ => ?_, List.foldl_fixed]
  have hb : k ≠ d → (ws.filter fun w => homeOfLine w.line == some k) = [] := fun hk =>
    List.filter_eq_nil_iff.mpr fun w hw => by simp [h w hw, Ne.symm hk]
  by_cases hk : k = d
  · simp [hk]
  · simp [hb hk]

theorem emptyVersion_spec {gid : Nat} {g : Gang} (ws : List LineWrite) {s : State} (hs : ∀ x ∈ s.sunk, x.gang ≠ gid) :
    CommitFrame s (s.emptyVersion gid g ws) ∧ (∀ l, (s.emptyVersion gid g ws).homeView l = s.homeView l) ∧
      ∀ v ∈ (s.emptyVersion gid g ws).versions, v.gang ≠ gid := by
  have hp : CommitFrame s (ws.foldl State.endPoison s) :=
    CommitFrame.foldl (F := State.endPoison) (fun _ _ => ⟨rfl, rfl, rfl, rfl, rfl⟩) ws s
  have hv (l : Nat) : (ws.foldl State.endPoison s).homeView l = s.homeView l :=
    foldl_keeps (fun s : State => s.homeView l) (F := State.endPoison) (fun _ _ => homeView_congr rfl rfl l) ws s
  have hnone : (ws.foldl State.endPoison s).sunk.filter (fun x => x.gang == gid && !x.ran && x.stores) = [] := by
    rw [hp.sunk]
    exact List.filter_eq_nil_iff.mpr fun x hx => by simp [hs x hx]
  unfold State.emptyVersion
  dsimp only
  rw [hnone, List.foldl_nil]
  refine ⟨hp.trans ⟨rfl, rfl, rfl, rfl, rfl⟩, hv, fun v hv => ?_⟩
  simpa using (List.mem_filter.mp hv).2

/-- A commit whose lines are all homed on the gang's die is performed at once, and empties the version. -/
theorem commit_here {s : State} {gid wave : Nat} {g : Gang} (hg : s.gang? gid = some g)
    (hhome : ∀ v ∈ s.versions, v.gang = gid → homeOfLine v.line = some g.die) (hs : ∀ x ∈ s.sunk, x.gang ≠ gid) :
    ∃ t, s.commit gid wave = t.modGang gid Gang.withCommit ∧ CommitFrame s t ∧ (∀ v ∈ t.versions, v.gang ≠ gid) ∧
      ∀ line n, n < 64 → lineByte (t.homeView line) n = writtenByte (s.commitWrites gid) line n (lineByte (s.homeView line) n) := by
  have hws : ∀ w ∈ s.commitWrites gid, homeOfLine w.line = some g.die := by
    intro w hw
    obtain ⟨v, hv, rfl⟩ := List.mem_map.mp hw
    obtain ⟨hv, hgang⟩ := List.mem_filter.mp (List.mem_filter.mp hv).1
    exact hhome v hv (by simpa using hgang)
  refine ⟨_, commit_stages hg, ?_⟩
  rw [publishThere_eq _ hws, performHere_eq s hws]
  generalize s.commitWrites gid = ws
  have hw := CommitFrame.foldl homeWrite_frame ws s
  have hb {line n : Nat} (hn : n < 64) := homeWrites_byte (line := line) hn ws s
  generalize ws.foldl State.homeWrite s = t at hw hb
  have hc := hw.trans (endCopies_frame gid g.die ws t)
  obtain ⟨he, hv, hver⟩ := emptyVersion_spec (gid := gid) (g := g) ws (s := t.endCopies gid g.die ws) (by rw [hc.sunk]; exact hs)
  exact ⟨hc.trans he, hver, fun line n hn => by rw [hv, homeView_endCopies, hb hn]⟩

/-- The bytes of the version, line by line in its own order. -/
theorem writtenByte_commitWrites (s : State) (gid line n : Nat) (b : Byte) : writtenByte (s.commitWrites gid) line n b =
    s.versions.foldl (fun b v => if v.gang = gid ∧ v.line = line ∧ v.mask.getLsbD n = true then lineByte v.data n else b) b := by
  unfold writtenByte State.commitWrites State.version
  rw [List.foldl_map, List.foldl_filter, List.foldl_filter]
  refine List.foldl_ext _ _ _ fun c v _ => ?_
  by_cases hg : v.gang = gid
  · by_cases hm : v.mask = 0#64
    · simp [hg, hm]
    · simp [hg, hm]
  · simp [hg]

end Sys2Proof.Machine
end

section
/-! Retirement (R262, R280): the gang's last commit, then what it leaves with its launch. -/

namespace Sys2Proof.Machine
open Sys2Proof.Claims

/-! ## The flags of a gang (R372) -/

theorem getLsbD_flagFold (ws : List Wave) (f : BitVec 7) (b : Nat) :
    (ws.foldl (fun f w => f ||| w.xstat) f).getLsbD b = (f.getLsbD b || ws.any fun w => w.xstat.getLsbD b) := by
  induction ws generalizing f with
  | nil => simp
  | cons w ws ih => rw [List.foldl_cons, ih, BitVec.getLsbD_or, List.any_cons, Bool.or_assoc]

theorem getLsbD_gangFlags (s : State) (g : Gang) (b : Nat) :
    (s.gangFlags g).getLsbD b = (g.flags.getLsbD b || s.waves.any fun w => w.gang == g.id && w.xstat.getLsbD b) := by
  rw [State.gangFlags, getLsbD_flagFold, State.wavesOf, List.any_filter]

theorem any_waves_congr {s t : State} (h : t.waves.map Wave.key = s.waves.map Wave.key) (p : Nat × Nat × BitVec 7 → Bool) :
    (t.waves.any fun w => p w.key) = s.waves.any fun w => p w.key := by
  have := congrArg (List.any · p) h
  simpa only [List.any_map, Function.comp_def] using this

theorem commitsOut_congr {s t : State} (hw : t.waves.map Wave.key = s.waves.map Wave.key) (hf : t.flows = s.flows) (gid : Nat) :
    t.commitsOut gid = s.commitsOut gid := by
  have hany : ∀ w, (t.waves.any fun v => v.id == w && v.gang == gid) = s.waves.any fun v => v.id == w && v.gang == gid :=
    fun w => any_waves_congr hw fun k => k.1 == w && k.2.1 == gid
  have hof : t.commitOf gid = s.commitOf gid := by
    funext b
    unfold State.commitOf
    simp only [hany]
  rw [State.commitsOut, State.commitsOut, hof, hf]

/-! ## The retirement -/

/-- A gang whose last commit has been made. -/
def Gang.withRetired (g : Gang) : Gang := { g with retired := true }

/-- The launch with a gang that has run. -/
def Launch.withRun (t : State) (g : Gang) (l : Launch) : Launch := { l.addFlags g.index (t.gangFlags g) with run := l.run + 1 }

/-- A gang has made its last commit: `g'` stands for `g`, and nothing else of the launches, the fabric and the waves' numbers
and flags has changed. -/
structure LastCommit (s t : State) (gid : Nat) (g g' : Gang) : Prop where
  gang     : t.gang? gid = some g'
  rest     : g' = { g with committed := g'.committed, ccnt := g'.ccnt, retired := true }
  launches : t.launches = s.launches
  flows    : t.flows = s.flows
  waves    : t.waves.map Wave.key = s.waves.map Wave.key

theorem LastCommit.commandsDone {s t : State} {gid : Nat} {g g' : Gang} (h : LastCommit s t gid g g') : g'.commandsDone = g.commandsDone := by
  rw [h.rest]
  rfl

theorem LastCommit.versioned {s t : State} {gid : Nat} {g g' : Gang} (h : LastCommit s t gid g g') : t.versioned g' = s.versioned g := by
  rw [State.versioned, State.launchOf, launch?_congr h.launches, h.rest]
  rfl

/-- The flags that the launch takes from the gang. -/
theorem LastCommit.gangFlags {s t : State} {gid : Nat} {g g' : Gang} (h : LastCommit s t gid g g') (hid : g.id = gid) (b : Nat) :
    (t.gangFlags g').getLsbD b = (g.flags.getLsbD b || s.waves.any fun w => w.gang == gid && w.xstat.getLsbD b) := by
  have hid' : g'.id = gid := by rw [h.rest]; exact hid
  have hfl : g'.flags = g.flags := by rw [h.rest]
  rw [getLsbD_gangFlags, hid', hfl]
  exact congrArg _ (any_waves_congr h.waves fun k => k.2.1 == gid && k.2.2.getLsbD b)

section Retire
variable {s : State} {gid : Nat} {g : Gang} (hg : s.gang? gid = some g)
include hg

/-- A gang with no version has nothing to commit. -/
theorem retireCommit_plain (hv : s.versioned g = false) : s.retireCommit g = s.modGang gid Gang.withRetired := by
  have hid := gang?_id hg
  subst hid
  unfold State.retireCommit
  rw [if_pos (by simp [hv])]
  rfl

theorem retireCommit_versioned (hv : s.versioned g = true) (hr : g.retired = false) (hgate : g.gate = false)
    (hhome : ∀ v ∈ s.versions, v.gang = gid → homeOfLine v.line = some g.die) :
    s.retireCommit g = (s.commit gid (s.firstWave gid)).modGang gid Gang.withRetired := by
  have hid := gang?_id hg
  subst hid
  have hremote : s.commitRemote g = false := by
    unfold State.commitRemote
    refine List.any_eq_false.mpr fun v hvm => ?_
    obtain ⟨hvm, he⟩ := List.mem_filter.mp hvm
    simp [hhome v hvm (by simpa using he)]
  unfold State.retireCommit
  rw [if_neg (by simp [hv, hr]), if_neg (by simp [hgate, hremote])]
  rfl

theorem lastCommit_plain : LastCommit s (s.modGang gid Gang.withRetired) gid g g.withRetired :=
  ⟨by rw [gang?_modGang (f := Gang.withRetired) fun _ => rfl, hg, Option.map_some, if_pos rfl], rfl, rfl, rfl, rfl⟩

/-- The last commit of a versioned gang whose lines are all homed on its die. -/
theorem lastCommit_versioned {wave : Nat} (hhome : ∀ v ∈ s.versions, v.gang = gid → homeOfLine v.line = some g.die)
    (hs : ∀ x ∈ s.sunk, x.gang ≠ gid) :
    LastCommit s ((s.commit gid wave).modGang gid Gang.withRetired) gid g g.withCommit.withRetired ∧
      ∀ line n, n < 64 → lineByte (State.homeView ((s.commit gid wave).modGang gid Gang.withRetired) line) n =
        s.versions.foldl (fun b v => if v.gang = gid ∧ v.line = line ∧ v.mask.getLsbD n = true then lineByte v.data n else b)
          (lineByte (s.homeView line) n) := by
  obtain ⟨t, ht, hf, -, hb⟩ := commit_here (wave := wave) hg hhome hs
  rw [ht]
  refine ⟨⟨?_, rfl, hf.launches, hf.flows, hf.waves⟩, fun line n hn => ?_⟩
  · have hgt : t.gang? gid = some g := by rw [State.gang?, hf.gangs]; exact hg
    rw [gang?_modGang (f := Gang.withRetired) fun _ => rfl, gang?_modGang (f := Gang.withCommit) fun _ => rfl, hgt, Option.map_some,
      if_pos rfl, Option.map_some, if_pos rfl]
  · rw [← writtenByte_commitWrites, ← hb line n hn]
    exact congrArg (lineByte · n) (homeView_congr rfl rfl line)

/-- A gang that may retire is dropped, once nothing more of it is under way after its last commit. -/
theorem gangRetire_drops {t : State} {g' : Gang} (hon : s.gangOn g = true) (hdone : s.threadsDone g = true)
    (hcmd : g.commandsDone = true) (ht : s.retireCommit g = t) (h : LastCommit s t gid g g')
    (hout : s.versioned g = false ∨ s.commitsOut gid = []) :
    ∃ u, exec (.gangRetire gid) s = .next u ∧ Gone u gid ∧
      (∀ l, s.launch? g.launch = some l → ∃ l', u.launch? g.launch = some l' ∧ l'.run = l.run + 1 ∧
        ∀ b < 7, l'.summary.getLsbD b = (l.summary.getLsbD b || g.flags.getLsbD b ||
          s.waves.any fun w => w.gang == gid && w.xstat.getLsbD b)) ∧
      u.mem = t.mem ∧ u.sect = t.sect ∧ ∀ v ∈ u.versions, v.gang ≠ gid := by
  have hid := gang?_id hg
  have hid' : g'.id = gid := by rw [h.rest]; exact hid
  have hlaunch : g'.launch = g.launch := by rw [h.rest]
  have hretired : g'.retired = true := by rw [h.rest]
  have hdone' : t.commitsDone g' = true := by
    unfold State.commitsDone
    rw [h.versioned, hid', commitsOut_congr h.waves h.flows]
    rcases hout with hv | ho
    · simp [hv]
    · simp [ho]
  have hcmd' : g'.commandsDone = true := h.commandsDone.trans hcmd
  have hq : g'.tileQ = [] := by
    unfold Gang.commandsDone at hcmd'
    simp only [Bool.and_eq_true, List.isEmpty_iff] at hcmd'
    exact hcmd'.1.1.1.1
  have he : exec (.gangRetire gid) s = .next ((t.modLaunch g'.launch (Launch.withRun t g')).dropGang g') := by
    show execGangRetire gid s = _
    unfold execGangRetire
    rw [hg]
    dsimp only
    rw [if_neg (by simp [hon, hdone]), ht, h.gang]
    dsimp only
    rw [if_pos (by simp [hretired, hdone', hcmd'])]
    rfl
  have hd := dropGang_dropped (s := t.modLaunch g'.launch (Launch.withRun t g')) hid' fun x hx => by
    rw [show State.gang? (t.modLaunch g'.launch (Launch.withRun t g')) gid = some g' from h.gang, Option.some.injEq] at hx
    exact hx ▸ hq
  refine ⟨_, he, hd.gone, fun l hl => ⟨l.withRun t g', ?_, rfl, fun b _ => ?_⟩, hd.mem, hd.sect, hd.versions⟩
  · rw [launch?_congr hd.launches, hlaunch]
    exact launch?_modLaunch_same (f := Launch.withRun t g') (fun _ => rfl) ((launch?_congr h.launches _).trans hl)
  · show (l.summary ||| t.gangFlags g').getLsbD b = _
    rw [BitVec.getLsbD_or, h.gangFlags hid, Bool.or_assoc]

theorem gangRetire_spec (hon : s.gangOn g = true) (hdone : s.threadsDone g = true) (hcmd : g.commandsDone = true)
    (hmay : s.versioned g = false ∨ g.retired = false ∧ g.gate = false ∧ s.commitsOut gid = [] ∧
      ∀ v ∈ s.versions, v.gang = gid → homeOfLine v.line = some g.die) :
    ∃ t, exec (.gangRetire gid) s = .next t ∧ Gone t gid ∧
      (∀ l, s.launch? g.launch = some l → ∃ l', t.launch? g.launch = some l' ∧ l'.run = l.run + 1 ∧
        ∀ b < 7, l'.summary.getLsbD b = (l.summary.getLsbD b || g.flags.getLsbD b ||
          s.waves.any fun w => w.gang == gid && w.xstat.getLsbD b)) ∧
      (s.versioned g = false → t.mem = s.mem ∧ t.sect = s.sect) ∧
      (s.versioned g = true → (∀ v ∈ t.versions, v.gang ≠ gid) ∧ ∀ line n, n < 64 → lineByte (t.homeView line) n =
        s.versions.foldl (fun b v => if v.gang = gid ∧ v.line = line ∧ v.mask.getLsbD n = true then lineByte v.data n else b)
          (lineByte (s.homeView line) n)) := by
  cases hv : s.versioned g with
  | false =>
    obtain ⟨u, he, hgone, hl, hm, hsect, -⟩ := gangRetire_drops hg hon hdone hcmd (retireCommit_plain hg hv) (lastCommit_plain hg) (.inl hv)
    exact ⟨u, he, hgone, hl, fun _ => ⟨hm, hsect⟩, nofun⟩
  | true =>
    obtain ⟨hr, hgate, hout, hhome⟩ := hmay.resolve_left (by simp [hv])
    have hs : ∀ x ∈ s.sunk, x.gang ≠ gid := by
      have hid := gang?_id hg
      unfold State.threadsDone at hdone
      simp only [Bool.and_eq_true, Bool.not_eq_true', List.any_eq_false, beq_iff_eq] at hdone
      exact fun x hx => hid ▸ hdone.2 x hx
    obtain ⟨hlast, hb⟩ := lastCommit_versioned (wave := s.firstWave gid) hg hhome hs
    obtain ⟨u, he, hgone, hl, hm, hsect, hver⟩ :=
      gangRetire_drops hg hon hdone hcmd (retireCommit_versioned hg hv hr hgate hhome) hlast (.inr hout)
    exact ⟨u, he, hgone, hl, nofun, fun _ => ⟨hver, fun line n hn => by rw [homeView_congr hm hsect, hb line n hn]⟩⟩

end Retire

end Sys2Proof.Machine
end

section
/-! Placement (R14, R20 to R32, R290, R292, R387), and the statement O48. -/

namespace Sys2Proof.Machine
open Sys2Proof.Claims

/-! ## The waves of a gang as they start (R24, R292) -/

theorem get_zipIdxFold {n : Nat} : ∀ (xs : List Word) (k : Nat) (m : Map Word),
    Map.get 0#32 ((xs.zipIdx k).foldl (fun m x => Map.set 0#32 m x.2 x.1) m) n =
      if k ≤ n ∧ n < k + xs.length then xs.getD (n - k) 0#32 else Map.get 0#32 m n
  | [], k, m => by simp
  | x :: xs, k, m => by
    rw [List.zipIdx_cons, List.foldl_cons, get_zipIdxFold xs (k + 1), Map.get_set, List.length_cons]
    by_cases hk : n = k
    · subst hk
      simp
    · by_cases hin : k + 1 ≤ n ∧ n < k + 1 + xs.length
      · rw [if_pos hin, if_pos (by omega), show n - k = (n - (k + 1)) + 1 by omega, List.getD_cons_succ]
      · rw [if_neg hin, if_neg fun h => hk h, if_neg (by omega)]

/-- The argument block stands in s0 to s15. -/
theorem get_startUniforms (args : List Word) (n : Nat) :
    Map.get 0#32 (startUniforms args) n = if n < 16 then args.getD n 0#32 else 0#32 := by
  rw [startUniforms, get_zipIdxFold]
  by_cases h : n < 16
  · by_cases hl : n < args.length
    · simp [h, hl, List.getD_eq_getElem?_getD]
    · simp [h, hl, List.getD_eq_getElem?_getD, Map.get]
  · simp [h, Map.get]

theorem startWave_fresh (id gang cycle : Nat) (l : Launch) (p : WavePlan) (tk : Nat) :
    Fresh l gang p tk (startWave id gang cycle l p tk) := by
  refine ⟨rfl, rfl, rfl, rfl, rfl, rfl, rfl, rfl, rfl, rfl, rfl, rfl, rfl, ?_, fun k hk => ?_, fun n => ?_⟩
  · simp [startWave]
  · have ht : (startWave id gang cycle l p tk).thread k =
        { pc := BitVec.ofNat 64 (l.codeBase + p.entry), gen := genState (laneSalt k) } := by
      simp [startWave, Wave.thread, List.getD_eq_getElem?_getD, hk]
    rw [ht]
    exact ⟨rfl, rfl, rfl, rfl, rfl⟩
  · have hg := get_startUniforms l.argWords n.val
    simp only [Wave.raw, startWave]
    split
    · next h =>
      subst h
      rfl
    · exact hg

/-- The waves of a gang are put at the end, one for each plan and track. -/
theorem startWaves_eq (gang : Nat) (l : Launch) : ∀ (xs : List (WavePlan × Nat)) (s : State),
    ∃ ws n, s.startWaves gang l xs = { s with waves := s.waves ++ ws, nextId := n } ∧
      List.Forall₂ (fun x w => Fresh l gang x.1 x.2 w) xs ws
  | [], s => ⟨[], s.nextId, by rw [List.append_nil]; rfl, .nil⟩
  | x :: xs, s => by
    obtain ⟨ws, n, he, hf⟩ := startWaves_eq gang l xs
      { s with waves := s.waves ++ [startWave s.nextId gang s.cycle l x.1 x.2], nextId := s.nextId + 1 }
    refine ⟨startWave s.nextId gang s.cycle l x.1 x.2 :: ws, n, ?_, .cons (startWave_fresh _ _ _ _ _ _) hf⟩
    rw [List.append_cons]
    exact he

/-! ## The cores that wake (R387) -/

theorem live_eq_zero_iff (w : Wave) : w.live = 0 ↔ ¬∃ l, Live w l := by
  have hbit (l : Nat) : w.live.getLsbD l = true ↔ Live w l := by
    simp [Wave.live, Live, Thread.ended]
  constructor
  · rintro h ⟨l, hl⟩
    have := (hbit l).mpr hl
    simp [h] at this
  · intro h
    refine BitVec.eq_of_getLsbD_eq fun l _ => ?_
    exact (Bool.eq_false_iff.mpr fun hl => h ⟨l, (hbit l).mp hl⟩).trans BitVec.getLsbD_zero.symm

theorem asleep_iff (s : State) (core : Nat) :
    s.asleep core = true ↔ core % 4 ≠ 0 ∧ ∀ w ∈ s.waves, w.track.isSome = true → (∃ l, Live w l) → w.core ≠ core := by
  have hw (w : Wave) : (w.track.isNone || w.core != core || w.live == 0) = true ↔
      (w.track.isSome = true → (∃ l, Live w l) → w.core ≠ core) := by
    have hl : (w.live == 0) = true ↔ ¬∃ l, Live w l := by rw [beq_iff_eq, live_eq_zero_iff]
    rw [Bool.or_eq_true, Bool.or_eq_true, hl, bne_iff_ne]
    cases w.track with
    | none => simp
    | some t =>
      simp only [Option.isNone_some, Bool.false_eq_true, false_or, Option.isSome_some, forall_const]
      tauto
  unfold State.asleep
  rw [Bool.and_eq_true, bne_iff_ne, List.all_eq_true]
  exact and_congr_right fun _ => forall₂_congr fun w _ => hw w

theorem mem_wake (s : State) (ts : List Nat) (c : Nat) : c ∈ (s.wake ts).unswept ↔ c ∈ s.unswept ∨ CoreWakes s ts c := by
  have hc : c ∈ ((ts.map (· / 8)).eraseDups).filter s.asleep ↔ CoreWakes s ts c := by
    rw [List.mem_filter, List.mem_eraseDups, List.mem_map, asleep_iff]
    rfl
  unfold State.wake
  rw [List.mem_append, hc, List.mem_filter, Bool.not_eq_true', ← Bool.not_eq_true, List.contains_iff_mem, hc]
  tauto

/-! ## The launch as its gang is placed (R22, R259, R358) -/

/-- The launch after a placement. -/
def Launch.withPlacement (i a cluster : Nat) (l : Launch) : Launch :=
  { l.noteBands i cluster with
    todo := l.todo.drop 1, placed := true, reruns := if a == 0 then l.reruns else l.reruns + 1 }

/-- A launch that has placed a gang. -/
def Launch.nowPlaced (l : Launch) : Launch := { l with placed := true }

/-- A launch whose graph has the node's image copied. -/
def Launch.nodeCopied (k : Nat) (l : Launch) : Launch :=
  { l with graph := l.graph.map fun g => { g with nodes := g.nodes.modify k fun n => { n with copied := n.bin } } }

theorem notePlacement_cases (s : State) (l : Launch) (i a cluster : Nat) :
    s.notePlacement l i a cluster = s.modLaunch l.id (Launch.withPlacement i a cluster) ∨
    ∃ g k, s.notePlacement l i a cluster =
      ((s.modLaunch l.id (Launch.withPlacement i a cluster)).modLaunch g Launch.nowPlaced).modLaunch g (Launch.nodeCopied k) := by
  unfold State.notePlacement
  cases l.kind with
  | kernel | graph | barrier => exact .inl rfl
  | node g k => exact .inr ⟨g, k, rfl⟩

theorem notePlacement_rest (s : State) (l : Launch) (i a cluster : Nat) :
    s.notePlacement l i a cluster = { s with launches := (s.notePlacement l i a cluster).launches } := by
  rcases notePlacement_cases s l i a cluster with h | ⟨g, k, h⟩ <;> rw [h] <;> rfl

theorem launch?_notePlacement {s : State} {lid i a cluster : Nat} {l : Launch} (hl : s.launch? lid = some l) :
    ∃ l', (s.notePlacement l i a cluster).launch? lid = some l' ∧ l'.todo = l.todo.drop 1 ∧ l'.placed = true ∧
      l'.reruns = l.reruns + if a = 0 then 0 else 1 := by
  have hplace : (s.modLaunch l.id (Launch.withPlacement i a cluster)).launch? lid = some (l.withPlacement i a cluster) := by
    rw [launch?_id hl]
    exact launch?_modLaunch_same (f := Launch.withPlacement i a cluster) (fun _ => rfl) hl
  have hre : (l.withPlacement i a cluster).reruns = l.reruns + if a = 0 then 0 else 1 := by
    by_cases ha : a = 0 <;> simp [Launch.withPlacement, ha]
  rcases notePlacement_cases s l i a cluster with h | ⟨g, k, h⟩
  · rw [h]
    exact ⟨_, hplace, rfl, rfl, hre⟩
  · rw [h, launch?_modLaunch (f := Launch.nodeCopied k) fun _ => rfl, launch?_modLaunch (f := Launch.nowPlaced) fun _ => rfl, hplace]
    refine ⟨_, rfl, ?_⟩
    by_cases hg : lid = g
    · simp only [if_pos hg]
      exact ⟨rfl, rfl, hre⟩
    · simp only [if_neg hg]
      exact ⟨rfl, rfl, hre⟩

/-! ## GANG_PLACEMENT (R21, R265, R297, R333, R358) -/

section Place
variable {s : State} {lid cluster core i a : Nat} {l : Launch} {rest : List (Nat × Nat)} {ts : List (Nat × Nat)}

theorem noCover_covered (hl : s.launch? lid = some l) (hc : ∀ x ∈ l.todo, s.coveringDies l x.1 ≠ []) : s.noCover lid = s := by
  unfold State.noCover
  rw [hl]
  dsimp only
  have hnone : l.todo.filter (fun x => (s.coveringDies l x.1).isEmpty) = [] :=
    List.filter_eq_nil_iff.mpr fun x hx => by simpa using hc x hx
  rw [if_pos (by rw [hnone]; rfl)]

/-- A launch that has placed a gang, or names no new state and no TID image, needs nothing more before its next. -/
theorem firstPlacement_none (h : l.placed = true ∨ l.hdr.tidtable = 0 ∧ ∀ x ∈ l.handles, x.2.1 = false) :
    s.newStates l = [] ∧ s.imageBusy l = false ∧ s.firstPlacement l cluster = .ok s := by
  have hnew : s.newStates l = [] := by
    unfold State.newStates
    rcases h with hp | ⟨-, hh⟩
    · simp [State.created, hp]
    · split
      · rfl
      · exact List.filterMap_eq_nil_iff.mpr fun x hx => by simp [hh x hx]
  have himage : s.imageCopied l = true ∨ l.hdr.tidtable = 0 := h.imp (fun hp => by simp [State.imageCopied, hp]) And.left
  refine ⟨hnew, ?_, ?_⟩
  · unfold State.imageBusy
    rcases himage with hi | hi <;> simp [hi]
  · unfold State.firstPlacement
    rw [hnew, List.foldl_nil]
    dsimp only
    rw [if_pos (by rcases himage with hi | hi <;> simp [hi])]

theorem execGangPlacement_eq (hl : s.launch? lid = some l) (hc : ∀ x ∈ l.todo, s.coveringDies l x.1 ≠ [])
    (hp : s.placeNow l cluster core = some (i, a, ts)) (hf : s.firstAt l cluster = true)
    (hn : l.placed = true ∨ l.hdr.tidtable = 0 ∧ ∀ x ∈ l.handles, x.2.1 = false) :
    exec (.gangPlacement lid cluster core) s = .next ((s.notePlacement l i a cluster).startGang l i a cluster core ts) := by
  obtain ⟨hnew, hbusy, hfirst⟩ := firstPlacement_none (s := s) (cluster := cluster) hn
  show execGangPlacement lid cluster core s = _
  unfold execGangPlacement
  rw [noCover_covered hl hc]
  dsimp only
  rw [hl]
  dsimp only
  rw [hp]
  dsimp only
  rw [if_neg (by simp [hf]), if_neg (by simp [hnew]), if_neg (by simp [hbusy]), hfirst]

/-- A gang as it starts. -/
def Launch.newGang (l : Launch) (id i a cluster core : Nat) : Gang :=
  { id, launch := l.id, index := i, attempt := a, place := some (cluster, core), lastCluster := cluster
    x := i % l.x, y := i / l.x % l.y, z := i / (l.x * l.y), gate := l.shape && !l.shaped }

theorem startGang_eq (s : State) (l : Launch) (i a cluster core : Nat) (ts : List (Nat × Nat)) :
    ∃ ws n us, s.startGang l i a cluster core ts =
        { s with gangs := s.gangs ++ [l.newGang s.nextId i a cluster core], waves := s.waves ++ ws, nextId := n, unswept := us } ∧
      List.Forall₂ (fun x w => Fresh l s.nextId x.1 x.2 w) (l.hdr.plan.zip (ts.map Prod.fst)) ws ∧
      ∀ c, c ∈ us ↔ c ∈ s.unswept ∨ CoreWakes s (ts.map Prod.fst) c := by
  obtain ⟨ws, n, he, hf⟩ := startWaves_eq s.nextId l (l.hdr.plan.zip (ts.map Prod.fst))
    (State.wake { s with gangs := s.gangs ++ [l.newGang s.nextId i a cluster core], nextId := s.nextId + 1 } (ts.map Prod.fst))
  exact ⟨ws, n, _, he, hf, fun c => mem_wake
    { s with gangs := s.gangs ++ [l.newGang s.nextId i a cluster core], nextId := s.nextId + 1 } (ts.map Prod.fst) c⟩

theorem gangPlacement_spec (hl : s.launch? lid = some l) (htodo : l.todo = (i, a) :: rest)
    (hc : ∀ x ∈ l.todo, s.coveringDies l x.1 ≠ []) (hp : s.placeNow l cluster core = some (i, a, ts)) (hf : s.firstAt l cluster = true)
    (hn : l.placed = true ∨ l.hdr.tidtable = 0 ∧ ∀ x ∈ l.handles, x.2.1 = false) :
    ∃ t g ws l', exec (.gangPlacement lid cluster core) s = .next t ∧ t.gangs = s.gangs ++ [g] ∧ g.id = s.nextId ∧
      g.launch = lid ∧ g.index = i ∧ g.attempt = a ∧ g.place = some (cluster, core) ∧ (g.x, g.y, g.z) = coordinates l i ∧
      g.st = .live ∧ g.spad = [] ∧ g.spadPoison = [] ∧ g.full = [] ∧ g.rinks = List.replicate 16 ({} : Rink) ∧
      g.queues = List.replicate 4 ({} : LiftQ) ∧
      g.tileQ = [] ∧ g.committed = false ∧ g.ccnt = 0 ∧ g.gate = (l.shape && !l.shaped) ∧ t.waves = s.waves ++ ws ∧
      List.Forall₂ (fun x w => Fresh l s.nextId x.1 x.2 w) (l.hdr.plan.zip (ts.map Prod.fst)) ws ∧ t.mem = s.mem ∧
      (∀ c, c ∈ t.unswept ↔ c ∈ s.unswept ∨ CoreWakes s (ts.map Prod.fst) c) ∧
      t.launch? lid = some l' ∧ l'.todo = rest ∧ l'.placed = true ∧ l'.reruns = l.reruns + if a = 0 then 0 else 1 := by
  obtain ⟨l', hl', htodo', hplaced, hreruns⟩ := launch?_notePlacement (i := i) (a := a) (cluster := cluster) hl
  rw [htodo, List.drop_one, List.tail_cons] at htodo'
  have he := execGangPlacement_eq hl hc hp hf hn
  have hrest := notePlacement_rest s l i a cluster
  generalize s.notePlacement l i a cluster = u at he hrest hl'
  obtain ⟨ws, n, us, hst, hws, hus⟩ := startGang_eq u l i a cluster core ts
  rw [hst] at he
  have hgangs : u.gangs = s.gangs := by rw [hrest]
  have hwaves : u.waves = s.waves := by rw [hrest]
  have hnext : u.nextId = s.nextId := by rw [hrest]
  have hmem : u.mem = s.mem := by rw [hrest]
  have hun : u.unswept = s.unswept := by rw [hrest]
  rw [hnext] at hws
  have hwake (c : Nat) : CoreWakes u (ts.map Prod.fst) c ↔ CoreWakes s (ts.map Prod.fst) c := by rw [CoreWakes, hwaves, CoreWakes]
  refine ⟨_, l.newGang u.nextId i a cluster core, ws, l', he, by rw [hgangs], hnext, launch?_id hl, rfl, rfl, rfl, rfl, rfl, rfl, rfl, rfl,
    rfl, rfl, rfl, rfl, rfl, rfl, by rw [hwaves], hws, hmem, fun c => ?_, hl', htodo', hplaced, hreruns⟩
  rw [← hun, ← hwake]
  exact hus c

end Place

/-- Settles O48: each event by its own lemma, with `drainAll_apart` for what becomes free, `commit_here` for the last commit and
`cutLaunch_gangs` for the shapes. -/
theorem gangLifecycle : Obligations.GangLifecycle := fun _ hp =>
  ⟨fun _ _ _ _ _ _ _ _ hl htodo hc hpl hf hn _ => gangPlacement_spec hl htodo hc hpl hf hn,
    fun _ _ hg hon hdone hcmd hmay => gangRetire_spec hg hon hdone hcmd hmay,
    fun _ _ hg hw hq hwalk hgroom => gangResourceFree_spec hg hw hq hwalk hgroom,
    fun _ _ _ _ hg hst hr hw hl => gangRerun_spec hg hst hr hw hl,
    fun _ _ _ h => shape_spec hp h⟩

end Sys2Proof.Machine
end

section
/-! The decoder reads back what the encoder writes (R43, R52, R79, R80). A word of a form is its fixed bits with the fields at
their places: a shift takes away the fields below, and nothing of a field reaches above its place. -/

namespace Sys2Proof
open Sys2Proof.Machine (ofNat_toNat)
open Sys2Proof.Claims

/-! ## Fields at their places -/

theorem fld_eq_shiftRight (w lo len : Nat) : fld w lo len = (w >>> lo) % 2 ^ len := by rw [fld, Nat.shiftRight_eq_div_pow]

theorem mul_two_pow_add_shiftRight (lo x y : Nat) : (x * 2 ^ lo + y) >>> lo = x + y >>> lo := by
  rw [Nat.shiftRight_eq_div_pow, Nat.shiftRight_eq_div_pow, Nat.add_comm, Nat.add_mul_div_right _ _ (Nat.two_pow_pos lo), Nat.add_comm]

/-- A field does not see what is written above it. -/
theorem fld_mul_two_pow_add {lo len n : Nat} (x y : Nat) (h : lo + len ≤ n) : fld (x * 2 ^ n + y) lo len = fld y lo len := by
  obtain ⟨d, rfl⟩ := Nat.exists_eq_add_of_le h
  have hx : x * 2 ^ (lo + len + d) = 2 ^ len * (2 ^ d * x) * 2 ^ lo := by rw [Nat.pow_add, Nat.pow_add]; ring
  rw [fld_eq_shiftRight, fld_eq_shiftRight, hx, mul_two_pow_add_shiftRight, Nat.mul_add_mod]

@[simp] theorem put_shiftRight {lo k : Nat} (x rest : Nat) (h : lo ≤ k) : put lo x rest >>> k = (x + rest >>> lo) >>> (k - lo) := by
  rw [← mul_two_pow_add_shiftRight, ← Nat.shiftRight_add, Nat.add_sub_cancel' h, put]

@[simp] theorem fld_put_above {lo len n : Nat} (x rest : Nat) (h : lo + len ≤ n) : fld (put n x rest) lo len = fld rest lo len :=
  fld_mul_two_pow_add x rest h

@[simp] theorem fld_put_below {lo n : Nat} (x rest len : Nat) (h : n ≤ lo) :
    fld (put n x rest) lo len = ((x + rest >>> n) >>> (lo - n)) % 2 ^ len := by
  rw [fld_eq_shiftRight, put_shiftRight x rest h]

/-- A field of the operands lies below the fixed bits. -/
@[simp low] theorem fld_form_fields {base lo len : Nat} (fields : Nat) (h : base % 2 ^ (lo + len) = 0) :
    fld (form base fields) lo len = fld fields lo len := by
  rw [form, ← Nat.div_add_mod' base (2 ^ (lo + len)), h]
  exact fld_mul_two_pow_add _ _ (Nat.le_refl _)

/-- A field of the fixed bits lies above the operands, which take bits [k-1:0]. -/
theorem fld_form_base {k base fields lo : Nat} (len : Nat) (hb : base % 2 ^ k = 0) (hf : fields >>> k = 0) (hk : k ≤ lo) :
    fld (form base fields) lo len = (base >>> lo) % 2 ^ len := by
  obtain ⟨b, rfl⟩ := Nat.dvd_of_mod_eq_zero hb
  obtain ⟨d, rfl⟩ := Nat.exists_eq_add_of_le hk
  rw [fld_eq_shiftRight, form, Nat.mul_comm, Nat.shiftRight_add, mul_two_pow_add_shiftRight, hf, Nat.shiftRight_add,
    Nat.shiftRight_eq_div_pow (b * _), Nat.mul_div_cancel _ (Nat.two_pow_pos k), Nat.add_zero]

/-! ## The values of fields -/

@[simp] theorem shiftRight_eq_zero_of_lt {k x : Nat} (h : x < 2 ^ k) : x >>> k = 0 := Nat.shiftRight_eq_zero x k h

@[simp] theorem Reg.toNat_lt {m : Nat} (r : Reg) (h : 128 ≤ m) : r.toNat < m := by cases r <;> simp only [Reg.toNat] <;> omega
@[simp] theorem bits_lt {n m : Nat} (x : BitVec n) (h : 2 ^ n ≤ m) : x.toNat < m := Nat.lt_of_lt_of_le x.isLt h
@[simp] theorem number_lt {n m : Nat} (x : Fin n) (h : n ≤ m) : x.val < m := Nat.lt_of_lt_of_le x.isLt h
@[simp] theorem omaskTo_lt {m : Nat} (k : Option Mask) (h : 13 ≤ m) : omaskTo k < m := by cases k <;> simp only [omaskTo] <;> omega

@[simp] theorem bitTo_true : bitTo true = 1 := rfl
@[simp] theorem bitTo_false : bitTo false = 0 := rfl
theorem bitTo_lt (b : Bool) : bitTo b < 2 := by cases b <;> decide
@[simp] theorem bitTo_shiftRight {k : Nat} (b : Bool) (h : 1 ≤ k) : bitTo b >>> k = 0 :=
  Nat.shiftRight_eq_zero _ _ (Nat.lt_of_lt_of_le (bitTo_lt b) (Nat.pow_le_pow_right (n := 2) (by decide) h))
@[simp] theorem bitTo_mod_two (b : Bool) : bitTo b % 2 = bitTo b := Nat.mod_eq_of_lt (bitTo_lt b)
@[simp] theorem bitOf_bitTo (b : Bool) : bitOf (bitTo b) = b := by cases b <;> rfl
@[simp] theorem maskOf_val (k : Mask) : maskOf k.val = some k := dif_pos k.isLt
@[simp] theorem tqcountOf_val (n : TqCount) : tqcountOf n.val = some n := dif_pos n.isLt
@[simp] theorem omaskOf_omaskTo (k : Option Mask) : omaskOf (omaskTo k) = some k := by
  cases k with
  | none => rfl
  | some k => simp [omaskOf, omaskTo, Nat.ne_of_lt k.isLt]

@[simp] theorem ICond.code_lt {m : Nat} (x : ICond) (h : 6 ≤ m) : x.code < m := by cases x <;> simp only [code] <;> omega
@[simp] theorem ICond.ofCode_code (x : ICond) : ofCode x.code = some x := by cases x <;> rfl
@[simp] theorem FCond.code_lt {m : Nat} (x : FCond) (h : 8 ≤ m) : x.code < m := by cases x <;> simp only [code] <;> omega
@[simp] theorem FCond.ofCode_code (x : FCond) : ofCode x.code = some x := by cases x <;> rfl
@[simp] theorem LCond.code_lt {m : Nat} (x : LCond) (h : 14 ≤ m) : x.code < m := by cases x <;> simp only [code] <;> omega
@[simp] theorem LCond.ofCode_code (x : LCond) : ofCode x.code = some x := by cases x <;> rfl
@[simp] theorem Combine.code_lt {m : Nat} (x : Combine) (h : 4 ≤ m) : x.code < m := by cases x <;> simp only [code] <;> omega
@[simp] theorem Combine.ofCode_code (x : Combine) : ofCode x.code = some x := by cases x <;> rfl
@[simp] theorem ShiOp.code_lt {m : Nat} (x : ShiOp) (h : 4 ≤ m) : x.code < m := by cases x <;> simp only [code] <;> omega
@[simp] theorem ShiOp.ofCode_code (x : ShiOp) : ofCode x.code = some x := by cases x <;> rfl
@[simp] theorem CvFmt.code_lt {m : Nat} (x : CvFmt) (h : 15 ≤ m) : x.code < m := by cases x <;> simp only [code] <;> omega
@[simp] theorem CvFmt.ofCode_code (x : CvFmt) : ofCode x.code = some x := by cases x <;> rfl
@[simp] theorem CvRound.code_lt {m : Nat} (x : CvRound) (h : 4 ≤ m) : x.code < m := by cases x <;> simp only [code] <;> omega
@[simp] theorem CvRound.ofCode_code (x : CvRound) : ofCode x.code = some x := by cases x <;> rfl
@[simp] theorem Width.code_lt {m : Nat} (x : Width) (h : 6 ≤ m) : x.code < m := by cases x <;> simp only [code] <;> omega
@[simp] theorem Width.ofCode_code (x : Width) : ofCode x.code = some x := by cases x <;> rfl
@[simp] theorem Scope.code_lt {m : Nat} (x : Scope) (h : 7 ≤ m) : x.code < m := by cases x <;> simp only [code] <;> omega
@[simp] theorem Scope.ofCode_code (x : Scope) : ofCode x.code = some x := by cases x <;> rfl
@[simp] theorem Ord.code_lt {m : Nat} (x : Ord) (h : 4 ≤ m) : x.code < m := by cases x <;> simp only [code] <;> omega
@[simp] theorem Ord.ofCode_code (x : Ord) : ofCode x.code = some x := by cases x <;> rfl
@[simp] theorem CachePol.code_lt {m : Nat} (x : CachePol) (h : 4 ≤ m) : x.code < m := by cases x <;> simp only [code] <;> omega
@[simp] theorem CachePol.ofCode_code (x : CachePol) : ofCode x.code = some x := by cases x <;> rfl
@[simp] theorem LoadFe.code_lt {m : Nat} (x : LoadFe) (h : 3 ≤ m) : x.code < m := by cases x <;> simp only [code] <;> omega
@[simp] theorem LoadFe.ofCode_code (x : LoadFe) : ofCode x.code = some x := by cases x <;> rfl
@[simp] theorem StoreFe.code_lt {m : Nat} (x : StoreFe) (h : 4 ≤ m) : x.code < m := by cases x <;> simp only [code] <;> omega
@[simp] theorem StoreFe.ofCode_code (x : StoreFe) : ofCode x.code = some x := by cases x <;> rfl
@[simp] theorem AtomOp.code_lt {m : Nat} (x : AtomOp) (h : 12 ≤ m) : x.code < m := by cases x <;> simp only [code] <;> omega
@[simp] theorem AtomOp.ofCode_code (x : AtomOp) : ofCode x.code = some x := by cases x <;> rfl
@[simp] theorem AtomTy.code_lt {m : Nat} (x : AtomTy) (h : 4 ≤ m) : x.code < m := by cases x <;> simp only [code] <;> omega
@[simp] theorem AtomTy.ofCode_code (x : AtomTy) : ofCode x.code = some x := by cases x <;> rfl
@[simp] theorem SlotNo.code_lt {m : Nat} (x : SlotNo) (h : 4 ≤ m) : x.code < m := by cases x <;> simp only [code] <;> omega
@[simp] theorem SlotNo.ofCode_code (x : SlotNo) : ofCode x.code = some x := by cases x <;> rfl
@[simp] theorem Floor.code_lt {m : Nat} (x : Floor) (h : 6 ≤ m) : x.code < m := by cases x <;> simp only [code] <;> omega
@[simp] theorem Floor.ofCode_code (x : Floor) : ofCode x.code = some x := by cases x <;> rfl
@[simp] theorem Grant.code_lt {m : Nat} (x : Grant) (h : 5 ≤ m) : x.code < m := by cases x <;> simp only [code] <;> omega
@[simp] theorem Grant.ofCode_code (x : Grant) : ofCode x.code = some x := by cases x <;> rfl
@[simp] theorem StQueue.code_lt {m : Nat} (x : StQueue) (h : 5 ≤ m) : x.code < m := by cases x <;> simp only [code] <;> omega
@[simp] theorem StQueue.ofCode_code (x : StQueue) : ofCode x.code = some x := by cases x <;> rfl
@[simp] theorem CtlReg.code_lt {m : Nat} (x : CtlReg) (h : 21 ≤ m) : x.code < m := by cases x <;> simp only [code] <;> omega
@[simp] theorem CtlReg.ofCode_code (x : CtlReg) : ofCode x.code = some x := by cases x <;> rfl

/-! ## Forms that are read back -/

/-- The form has a word of 30 bits, which is read as that form. -/
def ReadBack (i : Instr) : Prop := ∃ n, encode i = some n ∧ n < 2 ^ 30 ∧ ∀ x, decodeRaw (put 30 x n) = some i

/-- A form whose operands take bits [k-1:0] has its fixed bits above them. -/
theorem readBack_of_form (k : Nat) {i : Instr} {base fields : Nat} (he : encode i = some (form base fields))
    (hb : base % 2 ^ k = 0 ∧ base + 2 ^ k ≤ 2 ^ 30) (hf : fields >>> k = 0)
    (hd : ∀ x, (∀ lo len, k ≤ lo → lo + len ≤ 30 → fld (put 30 x (form base fields)) lo len = (base >>> lo) % 2 ^ len) →
      decodeRaw (put 30 x (form base fields)) = some i) :
    ReadBack i := by
  refine ⟨_, he, ?_, fun x => hd x fun lo len hk hlen => ?_⟩
  swap
  · exact (fld_put_above x _ hlen).trans (fld_form_base len hb.1 hf hk)
  have hlt : fields < 2 ^ k := by
    rw [Nat.shiftRight_eq_div_pow] at hf
    exact (Nat.div_eq_zero_iff_lt (Nat.two_pow_pos k)).mp hf
  exact Nat.lt_of_lt_of_le (Nat.add_lt_add_left hlt base) hb.2

/-! ## The form of a word by its major opcode (R43) -/

theorem decodeRaw_of_major_01 {w : Nat} (h : fld w 24 6 = 0x01) : decodeRaw w = decode01 w := by simp only [decodeRaw, h]
theorem decodeRaw_of_major_02 {w : Nat} (h : fld w 24 6 = 0x02) : decodeRaw w = decode02 w := by simp only [decodeRaw, h]
theorem decodeRaw_of_major_03 {w : Nat} (h : fld w 24 6 = 0x03) : decodeRaw w = decode03 w := by simp only [decodeRaw, h]
theorem decodeRaw_of_major_04 {w : Nat} (h : fld w 24 6 = 0x04) : decodeRaw w = decode04 w := by simp only [decodeRaw, h]
theorem decodeRaw_of_major_05 {w : Nat} (h : fld w 24 6 = 0x05) : decodeRaw w = decode05 w := by simp only [decodeRaw, h]
theorem decodeRaw_of_major_06 {w : Nat} (h : fld w 24 6 = 0x06) : decodeRaw w = decode06 w := by simp only [decodeRaw, h]
theorem decodeRaw_of_major_07 {w : Nat} (h : fld w 24 6 = 0x07) : decodeRaw w = decode07 w := by simp only [decodeRaw, h]
theorem decodeRaw_of_major_16 {w : Nat} (h : fld w 24 6 = 0x16) : decodeRaw w = decode16 w := by simp only [decodeRaw, h]
theorem decodeRaw_of_major_17 {w : Nat} (h : fld w 24 6 = 0x17) : decodeRaw w = decode17 w := by simp only [decodeRaw, h]
theorem decodeRaw_of_major_18 {w : Nat} (h : fld w 24 6 = 0x18) : decodeRaw w = decode18 w := by simp only [decodeRaw, h]
theorem decodeRaw_of_major_19 {w : Nat} (h : fld w 24 6 = 0x19) : decodeRaw w = decode19 w := by simp only [decodeRaw, h]
theorem decodeRaw_of_major_1A {w : Nat} (h : fld w 24 6 = 0x1A) : decodeRaw w = decode1A w := by simp only [decodeRaw, h]
theorem decodeRaw_of_major_1B {w : Nat} (h : fld w 24 6 = 0x1B) : decodeRaw w = decode1B w := by simp only [decodeRaw, h]
theorem decodeRaw_of_major_1E {w : Nat} (h : fld w 24 6 = 0x1E) : decodeRaw w = decode1E w := by simp only [decodeRaw, h]
theorem decodeRaw_of_major_1F {w : Nat} (h : fld w 24 6 = 0x1F) : decodeRaw w = decode1F w := by simp only [decodeRaw, h]
theorem decodeRaw_of_major_20 {w : Nat} (h : fld w 24 6 = 0x20) : decodeRaw w = decode20 w := by simp only [decodeRaw, h]
theorem decodeRaw_of_major_21 {w : Nat} (h : fld w 24 6 = 0x21) : decodeRaw w = decode21 w := by simp only [decodeRaw, h]
theorem decodeRaw_of_major_2B {w : Nat} (h : fld w 24 6 = 0x2B) : decodeRaw w = decode2B w := by simp only [decodeRaw, h]
theorem decodeRaw_of_major_2D {w : Nat} (h : fld w 24 6 = 0x2D) : decodeRaw w = decode2D w := by simp only [decodeRaw, h]
theorem decodeRaw_of_major_30 {w : Nat} (h : fld w 24 6 = 0x30) : decodeRaw w = decode30 w := by simp only [decodeRaw, h]
theorem decodeRaw_of_major_32 {w : Nat} (h : fld w 24 6 = 0x32) : decodeRaw w = decode32 w := by simp only [decodeRaw, h]
theorem decodeRaw_of_major_33 {w : Nat} (h : fld w 24 6 = 0x33) : decodeRaw w = decode33 w := by simp only [decodeRaw, h]
theorem decodeRaw_of_major_34 {w : Nat} (h : fld w 24 6 = 0x34) : decodeRaw w = decode34 w := by simp only [decodeRaw, h]
theorem decodeRaw_of_major_35 {w : Nat} (h : fld w 24 6 = 0x35) : decodeRaw w = decode35 w := by simp only [decodeRaw, h]
theorem decodeRaw_of_major_36 {w : Nat} (h : fld w 24 6 = 0x36) : decodeRaw w = decode36 w := by simp only [decodeRaw, h]
theorem decodeRaw_of_major_37 {w : Nat} (h : fld w 24 6 = 0x37) : decodeRaw w = decode37 w := by simp only [decodeRaw, h]
theorem decodeRaw_of_major_38 {w : Nat} (h : fld w 24 6 = 0x38) : decodeRaw w = decode38 w := by simp only [decodeRaw, h]

/-! ## The formats (R52) -/

/-- A form of a major with a function code or subop: its own decoder `D` reads it. -/
theorem readBack_of_sub (k : Nat) {i : Instr} {base fields m : Nat} {D : Nat → Option Instr}
    (hmajor : ∀ {w}, fld w 24 6 = m → decodeRaw w = D w) (he : encode i = some (form base fields))
    (hb : (base % 2 ^ k = 0 ∧ base + 2 ^ k ≤ 2 ^ 30) ∧ k ≤ 24 ∧ (base >>> 24) % 2 ^ 6 = m) (hf : fields >>> k = 0)
    (hd : ∀ x, (∀ lo len, k ≤ lo → lo + len ≤ 30 → fld (put 30 x (form base fields)) lo len = (base >>> lo) % 2 ^ len) →
      D (put 30 x (form base fields)) = some i) : ReadBack i := by
  obtain ⟨hbase, hk, hm⟩ := hb
  refine readBack_of_form k he hbase hf fun x h => ?_
  rw [hmajor ((h 24 6 hk (by decide)).trans hm)]
  exact hd x h

theorem mod_two_pow_of_le {base j k : Nat} (hb : base % 2 ^ k = 0) (hj : j ≤ k) : base % 2 ^ j = 0 :=
  Nat.mod_eq_zero_of_dvd ((Nat.pow_dvd_pow 2 hj).trans (Nat.dvd_of_mod_eq_zero hb))

/-- Format RRR: a function code in [23:21] and three registers. -/
theorem readBack_rrr {f : Reg → Reg → Reg → Instr} {base m : Nat} {D : Nat → Option Instr} {d a b : Reg}
    (hmajor : ∀ {w}, fld w 24 6 = m → decodeRaw w = D w)
    (he : encode (f d a b) = some (form base (put 14 d.toNat (put 7 a.toNat (put 0 b.toNat 0)))))
    (hb : (base % 2 ^ 21 = 0 ∧ base + 2 ^ 21 ≤ 2 ^ 30) ∧ 21 ≤ 24 ∧ (base >>> 24) % 2 ^ 6 = m)
    (hd : ∀ w, fld w 21 3 = (base >>> 21) % 2 ^ 3 →
      D w = some (f (Reg.ofNat (fld w 14 7)) (Reg.ofNat (fld w 7 7)) (Reg.ofNat (fld w 0 7)))) : ReadBack (f d a b) := by
  refine readBack_of_sub 21 hmajor he hb (by simp) fun x h => ?_
  obtain ⟨⟨hbase, -⟩, -⟩ := hb
  have hlow {lo len : Nat} (fields : Nat) (hlo : lo + len ≤ 21) : fld (form base fields) lo len = fld fields lo len :=
    fld_form_fields fields (mod_two_pow_of_le hbase hlo)
  rw [hd _ (h 21 3 (by decide) (by decide))]
  simp [ofNat_toNat, Nat.mod_eq_of_lt, hlow]

/-- Format RRR without its third register, whose field is zero. -/
theorem readBack_rr {f : Reg → Reg → Instr} {base m : Nat} {D : Nat → Option Instr} {d a : Reg}
    (hmajor : ∀ {w}, fld w 24 6 = m → decodeRaw w = D w)
    (he : encode (f d a) = some (form base (put 14 d.toNat (put 7 a.toNat 0))))
    (hb : (base % 2 ^ 21 = 0 ∧ base + 2 ^ 21 ≤ 2 ^ 30) ∧ 21 ≤ 24 ∧ (base >>> 24) % 2 ^ 6 = m)
    (hd : ∀ w, fld w 21 3 = (base >>> 21) % 2 ^ 3 → D w = some (f (Reg.ofNat (fld w 14 7)) (Reg.ofNat (fld w 7 7)))) :
    ReadBack (f d a) := by
  refine readBack_of_sub 21 hmajor he hb (by simp) fun x h => ?_
  obtain ⟨⟨hbase, -⟩, -⟩ := hb
  have hlow {lo len : Nat} (fields : Nat) (hlo : lo + len ≤ 21) : fld (form base fields) lo len = fld fields lo len :=
    fld_form_fields fields (mod_two_pow_of_le hbase hlo)
  rw [hd _ (h 21 3 (by decide) (by decide))]
  simp [ofNat_toNat, Nat.mod_eq_of_lt, hlow]

/-! ## The forms, pipe by pipe (R44, R68 to R73) -/

theorem readBack_int {i : Instr} (hp : i.info.pipe = some .int) : ReadBack i := by
  cases i <;> cases hp
  case popc | clz | ctz | brev | bswap =>
    exact readBack_rr decodeRaw_of_major_06 rfl (by decide) fun w hf => by rw [decode06, hf]; rfl
  case addi | andi | ori | xori | shi | muli | li | lih | cmpI | cmpN | cmpF32 | cmpF64 | cmp64 | cmov =>
    exact readBack_of_form 24 rfl (by decide) (by simp) fun x h => by simp [decodeRaw, h, ofNat_toNat, Nat.mod_eq_of_lt]
  case add | sub | mullo | mulhiI | minI | maxI | addsI | subsI =>
    exact readBack_rrr decodeRaw_of_major_02 rfl (by decide) fun w hf => by rw [decode02, hf]; rfl
  case mulhiN | minN | maxN | addsN | subsN | absdI | absdN | avgN =>
    exact readBack_rrr decodeRaw_of_major_03 rfl (by decide) fun w hf => by rw [decode03, hf]; rfl
  case and | or | xor | andn | orn | xnor | nand | nor =>
    exact readBack_rrr decodeRaw_of_major_04 rfl (by decide) fun w hf => by rw [decode04, hf]; rfl
  case shl | shr | sar | rol | ror | fshl | fshr =>
    exact readBack_rrr decodeRaw_of_major_05 rfl (by decide) fun w hf => by rw [decode05, hf]; rfl
  case bfx | bfi =>
    exact readBack_rrr decodeRaw_of_major_06 rfl (by decide) fun w hf => by rw [decode06, hf]; rfl
  all_goals
    exact readBack_rrr decodeRaw_of_major_07 rfl (by decide) fun w hf => by rw [decode07, hf]; rfl

theorem readBack_fp {i : Instr} (hp : i.info.pipe = some .fp) : ReadBack i := by
  cases i <;> cases hp
  case fneg | fabs =>
    exact readBack_rr decodeRaw_of_major_16 rfl (by decide) fun w hf => by rw [decode16, hf]; rfl
  case fsqrt | frcp | frsq | fex2 | flg2 | fsin | fcos | ftanh =>
    exact readBack_rr decodeRaw_of_major_18 rfl (by decide) fun w hf => by rw [decode18, hf]; rfl
  case dsqrt =>
    exact readBack_rr decodeRaw_of_major_19 rfl (by decide) fun w hf => by rw [decode19, hf]; rfl
  case pkps =>
    exact readBack_rr decodeRaw_of_major_1E rfl (by decide) fun w hf => by rw [decode1E, hf]; rfl
  case cvt | cvts =>
    exact readBack_of_form 24 rfl (by decide) (by simp) fun x h => by simp [decodeRaw, h, ofNat_toNat, Nat.mod_eq_of_lt]
  case rngnext =>
    exact readBack_of_sub 16 decodeRaw_of_major_21 rfl (by decide) (by simp) fun x h => by
      simp [decode21, h, ofNat_toNat, Nat.mod_eq_of_lt]
  case fadd | fsub | fmul | fmin | fmax | fcpys =>
    exact readBack_rrr decodeRaw_of_major_16 rfl (by decide) fun w hf => by rw [decode16, hf]; rfl
  case fmac | fmsc | fnmac | fnmsc =>
    exact readBack_rrr decodeRaw_of_major_17 rfl (by decide) fun w hf => by rw [decode17, hf]; rfl
  case dadd | dsub | dmul | dmin | dmax | dmac =>
    exact readBack_rrr decodeRaw_of_major_19 rfl (by decide) fun w hf => by rw [decode19, hf]; rfl
  case hadd2 | hmul2 | hmac2 | hmax2 | badd2 | bmul2 | bmac2 | bmax2 =>
    exact readBack_rrr decodeRaw_of_major_1A rfl (by decide) fun w hf => by rw [decode1A, hf]; rfl
  case dp4I8 | dp4E4m3 | dp4E5m2 | dp2F16 | dp2Bf16 | dp4Ps2 =>
    exact readBack_rrr decodeRaw_of_major_1B rfl (by decide) fun w hf => by rw [decode1B, hf]; rfl
  all_goals
    exact readBack_rrr decodeRaw_of_major_1E rfl (by decide) fun w hf => by rw [decode1E, hf]; rfl

theorem readBack_xl {i : Instr} (hp : i.info.pipe = some .xl) : ReadBack i := by
  cases i <;> cases hp
  case shfl | shflx | shflu | shfld | rdl | wrl =>
    exact readBack_rrr decodeRaw_of_major_1F rfl (by decide) fun w hf => by rw [decode1F, hf]; rfl
  all_goals
    exact readBack_rrr decodeRaw_of_major_20 rfl (by decide) fun w hf => by rw [decode20, hf]; rfl

theorem readBack_mem {i : Instr} (hp : i.info.pipe = some .mem) : ReadBack i := by
  cases i <;> cases hp
  case srec =>
    exact readBack_of_sub 16 decodeRaw_of_major_21 rfl (by decide) (by simp) fun x h => by
      simp [decode21, h, ofNat_toNat, Nat.mod_eq_of_lt]
  case fence | acq | rel | commit | monitor | waitm =>
    exact readBack_of_sub 16 decodeRaw_of_major_2B rfl (by decide) (by simp) fun x h => by
      simp [decode2B, h, ofNat_toNat, Nat.mod_eq_of_lt]
  all_goals
    exact readBack_of_form 24 rfl (by decide) (by simp) fun x h => by simp [decodeRaw, h, ofNat_toNat, Nat.mod_eq_of_lt]

theorem readBack_ctl {i : Instr} (hp : i.info.pipe = some .ctl) : ReadBack i := by
  cases i <;> cases hp
  case br | call | tramp =>
    exact readBack_of_form 24 rfl (by decide) (by simp) fun x h => by simp [decodeRaw, h, Nat.mod_eq_of_lt]
  case jmp | callr | ret =>
    exact readBack_of_sub 21 decodeRaw_of_major_30 rfl (by decide) (by simp) fun x h => by
      simp [decode30, h, ofNat_toNat, Nat.mod_eq_of_lt]
  case join | leave | waitk | kand | kor | kxor | knot | kset =>
    exact readBack_of_sub 20 decodeRaw_of_major_2D rfl (by decide) (by simp) fun x h => by
      simp [decode2D, h, Nat.mod_eq_of_lt]
  case nop | pause =>
    exact readBack_of_sub 16 decodeRaw_of_major_01 rfl (by decide) (by simp) fun x h => by
      simp [decode01, h, Nat.mod_eq_of_lt]
  case reads | writes | rngseed | ktov | vtok | movri | movir =>
    exact readBack_of_sub 16 decodeRaw_of_major_21 rfl (by decide) (by simp) fun x h => by
      simp [decode21, h, ofNat_toNat, Nat.mod_eq_of_lt]
  all_goals
    exact readBack_of_sub 16 decodeRaw_of_major_32 rfl (by decide) (by simp) fun x h => by
      simp [decode32, h, ofNat_toNat, Nat.mod_eq_of_lt]

theorem readBack_eng {i : Instr} (hp : i.info.pipe = some .eng) : ReadBack i := by
  cases i <;> cases hp
  case lift | liftst | liftabt =>
    exact readBack_of_sub 16 decodeRaw_of_major_33 rfl (by decide) (by simp) fun x h => by
      simp [decode33, h, ofNat_toNat, Nat.mod_eq_of_lt]
  case dupd | dqry =>
    exact readBack_of_sub 16 decodeRaw_of_major_35 rfl (by decide) (by simp) fun x h => by
      simp [decode35, h, ofNat_toNat, Nat.mod_eq_of_lt]
  case rkinit | rkwait | rkflip =>
    exact readBack_of_sub 16 decodeRaw_of_major_36 rfl (by decide) (by simp) fun x h => by
      simp [decode36, h, ofNat_toNat, Nat.mod_eq_of_lt]
  case tidset | tidget | tidinv =>
    exact readBack_of_sub 16 decodeRaw_of_major_37 rfl (by decide) (by simp) fun x h => by
      simp [decode37, h, ofNat_toNat, Nat.mod_eq_of_lt]
  case bingo =>
    exact readBack_of_sub 16 decodeRaw_of_major_38 rfl (by decide) (by simp) fun x h => by
      simp [decode38, h, ofNat_toNat, Nat.mod_eq_of_lt]
  all_goals
    exact readBack_of_sub 16 decodeRaw_of_major_34 rfl (by decide) (by simp) fun x h => by
      simp [decode34, h, ofNat_toNat, Nat.mod_eq_of_lt]

/-- Majors 0x39 to 0x3E (R80). -/
theorem decodeRaw_of_major_unimpl {w : Nat} (m : Fin 6) (h : fld w 24 6 = 57 + m.val) :
    decodeRaw w = (unimplOf (fld w 0 27)).bind fun x => some (.unimplWord x) := by
  fin_cases m <;> simp only [decodeRaw, h]

theorem unimplOf_unimplTo (x : UnimplBits) : unimplOf (unimplTo x) = some x := by
  obtain ⟨m, rest⟩ := x
  have hrest := rest.isLt
  have hdiv : unimplTo ⟨m, rest⟩ / 2 ^ 24 = m.val + 1 := by simp only [unimplTo]; omega
  have hlow : BitVec.ofNat 24 (unimplTo ⟨m, rest⟩) = rest :=
    BitVec.eq_of_toNat_eq (by simp only [unimplTo, BitVec.toNat_ofNat]; omega)
  unfold unimplOf
  simp only [hdiv, hlow, Nat.add_sub_cancel]
  exact dif_pos ⟨m.isLt, Nat.le_add_left 1 _⟩

theorem readBack_unimplWord (x : UnimplBits) : ReadBack (.unimplWord x) := by
  have hrest := x.rest.isLt
  have hm := x.major.isLt
  have hn : form 0x38000000 (put 0 (unimplTo x) 0) = 0x38000000 + ((x.major.val + 1) * 2 ^ 24 + x.rest.toNat) := by
    simp [form, put, unimplTo]
  refine ⟨_, rfl, by omega, fun y => ?_⟩
  have hmajor : fld (put 30 y (form 0x38000000 (put 0 (unimplTo x) 0))) 24 6 = 57 + x.major.val := by
    rw [fld_put_above _ _ (by decide), hn, fld]
    omega
  have hbits : fld (put 30 y (form 0x38000000 (put 0 (unimplTo x) 0))) 0 27 = unimplTo x := by
    rw [fld_put_above _ _ (by decide), hn, fld, unimplTo]
    omega
  rw [decodeRaw_of_major_unimpl _ hmajor, hbits, unimplOf_unimplTo]
  rfl

theorem readBack_of_isWord {i : Instr} (h : IsWord i) : ReadBack i := by
  rcases h with hp | hu
  · match hpipe : i.info.pipe with
    | some .int => exact readBack_int hpipe
    | some .fp => exact readBack_fp hpipe
    | some .xl => exact readBack_xl hpipe
    | some .mem => exact readBack_mem hpipe
    | some .ctl => exact readBack_ctl hpipe
    | some .eng => exact readBack_eng hpipe
    | none => exact absurd hpipe hp
  · cases i <;> cases hu
    exact readBack_unimplWord _

theorem isWord_of_encode {i : Instr} {n : Nat} (h : encode i = some n) : IsWord i := by
  by_cases hp : i.info.pipe = none
  · right
    cases i <;> cases hp <;> cases h
    rfl
  · exact Or.inl hp

/-! ## Words with C and W (R43) -/

/-- The word of C, W and bits [29:0]. -/
theorem slot_value (c b : Bool) (n : Nat) : bitTo c * 2 ^ 31 + bitTo b * 2 ^ 30 + n = put 30 (2 * bitTo c + bitTo b) n := by
  rw [put]; ring

theorem toNat_slot {c b : Bool} {n : Nat} (hn : n < 2 ^ 30) :
    (BitVec.ofNat 32 (bitTo c * 2 ^ 31 + bitTo b * 2 ^ 30 + n)).toNat = put 30 (2 * bitTo c + bitTo b) n := by
  rw [BitVec.toNat_ofNat, slot_value, Nat.mod_eq_of_lt]
  cases c <;> cases b <;> simp only [bitTo_true, bitTo_false, put] <;> omega

theorem decodeForm_of_encode {i : Instr} {n : Nat} (h : encode i = some n) (hwf : i.wellFormed = true) (x : Nat) :
    n < 2 ^ 30 ∧ decodeForm (put 30 x n) = some i := by
  obtain ⟨m, hm, hlt, hraw⟩ := readBack_of_isWord (isWord_of_encode h)
  obtain rfl : n = m := Option.some.inj (h.symm.trans hm)
  have hmod : put 30 x n % 2 ^ 30 = n := by rw [put, Nat.mul_comm, Nat.mul_add_mod, Nat.mod_eq_of_lt hlt]
  refine ⟨hlt, ?_⟩
  rw [decodeForm, hraw, Option.bind_some, hmod, if_pos ⟨h, hwf⟩]

theorem decodeSlot_of_encode {i : Instr} {n : Nat} (c b : Bool) (h : encode i = some n) (hwf : i.wellFormed = true) :
    decodeSlot (BitVec.ofNat 32 (bitTo c * 2 ^ 31 + bitTo b * 2 ^ 30 + n)) = some ⟨c, b, i⟩ := by
  obtain ⟨hlt, hform⟩ := decodeForm_of_encode h hwf (2 * bitTo c + bitTo b)
  have hc : bitOf (put 30 (2 * bitTo c + bitTo b) n / 2 ^ 31) = c := by
    cases c <;> cases b <;> simp only [bitTo_true, bitTo_false, put, bitOf, beq_eq_false_iff_ne, beq_iff_eq] <;> omega
  have hb : bitOf (put 30 (2 * bitTo c + bitTo b) n / 2 ^ 30) = b := by
    cases c <;> cases b <;> simp only [bitTo_true, bitTo_false, put, bitOf, beq_eq_false_iff_ne, beq_iff_eq] <;> omega
  rw [decodeSlot, toNat_slot hlt, hform, Option.map_some, hc, hb]

theorem bitTo_bitOf (n : Nat) : bitTo (bitOf n) = n % 2 := by
  rw [bitTo, bitOf]
  rcases Nat.mod_two_eq_zero_or_one n with h | h <;> simp [h]

/-- A word is its C and W and its bits [29:0]. -/
theorem slot_bits (w : Word) :
    BitVec.ofNat 32 (bitTo (bitOf (w.toNat / 2 ^ 31)) * 2 ^ 31 + bitTo (bitOf (w.toNat / 2 ^ 30)) * 2 ^ 30 + w.toNat % 2 ^ 30) = w := by
  have hw := w.isLt
  apply BitVec.eq_of_toNat_eq
  rw [bitTo_bitOf, bitTo_bitOf, BitVec.toNat_ofNat]
  omega

theorem encodeSlot_of_decodeSlot {w : Word} {sl : Slot} (h : decodeSlot w = some sl) :
    encodeSlot sl = some w ∧ sl.i.wellFormed = true ∧ IsWord sl.i := by
  obtain ⟨i, hi, rfl⟩ := Option.map_eq_some_iff.mp h
  obtain ⟨j, -, hj⟩ := Option.bind_eq_some_iff.mp hi
  obtain ⟨⟨henc, hwf⟩, rfl⟩ : (encode j = some (w.toNat % 2 ^ 30) ∧ j.wellFormed = true) ∧ j = i := by
    split at hj
    · exact ⟨‹_›, Option.some.inj hj⟩
    · cases hj
  exact ⟨by rw [encodeSlot, henc, Option.map_some, slot_bits], hwf, isWord_of_encode henc⟩

/-- Settles O59: `decodeSlot_of_encode` one way, `encodeSlot_of_decodeSlot` the other. -/
theorem roundTrip : Obligations.RoundTrip := by
  refine ⟨fun i c b hwf hword => ?_, fun w sl => encodeSlot_of_decodeSlot⟩
  obtain ⟨n, hn, -⟩ := readBack_of_isWord hword
  exact ⟨_, by rw [encodeSlot, hn]; rfl, decodeSlot_of_encode c b hn hwf⟩

/-! ## The samples of ten families (R43, R52, R68 to R73) -/

/-- C and W stand above bits [29:0]. -/
theorem slot_or (c b : Bool) {w : Word} (hw : w.toNat < 2 ^ 30) :
    ((if c then 0x80000000#32 else 0) ||| (if b then 0x40000000#32 else 0) ||| w) =
      BitVec.ofNat 32 (bitTo c * 2 ^ 31 + bitTo b * 2 ^ 30 + w.toNat) := by
  have htop : ((if c then 0x80000000#32 else 0) ||| (if b then 0x40000000#32 else 0)).toNat = 2 ^ 30 * (2 * bitTo c + bitTo b) := by
    cases c <;> cases b <;> rfl
  apply BitVec.eq_of_toNat_eq
  rw [BitVec.toNat_or, htop, ← Nat.two_pow_add_eq_or_of_lt hw, toNat_slot hw, put, Nat.mul_comm]

theorem decodeSamples_encode : ∀ x ∈ decodeSamples, encode x.1 = some x.2.toNat ∧ x.1.wellFormed = true ∧ x.2.toNat < 2 ^ 30 := by
  decide

/-- Settles O56: each sample is the word of its form, which `decodeSlot_of_encode` reads back; NOP's bit 0 must be zero. -/
theorem decodeWords : Obligations.DecodeWords := by
  refine ⟨fun i w hiw c b => ?_, by decide⟩
  obtain ⟨henc, hwf, hlt⟩ := decodeSamples_encode (i, w) hiw
  rw [slot_or c b hlt]
  exact decodeSlot_of_encode c b henc hwf

end Sys2Proof
end

section
/-! PAUSE beside a thread that waits at an XACQ (R28, R276, R281). The end of the issue serves the XACQ, and what a thread holds
above the old grant is dropped as the registers newly granted read zero; PlainWords asks that the threads of a PAUSE keep
their registers exactly. -/

namespace Sys2Proof.Machine
open Sys2Proof.Claims

/-- Lane 0 runs and holds a value in v40, above the grant of 32; lane 1 waits at an XACQ for 48 registers. -/
def staleWave : Wave :=
  { id := 1, gang := 2, track := some 0, threads := [{ v := [(40, 7)] }, { st := .held (.xacq 48 0) }] }

/-- Lane 0 issues one word. -/
def staleIssue : Issue := { wave := 1, lanes := 1, pc := 4, word := 0, wordPc := 4, nextPc := 8, view := some staleWave }

/-- The track has registers to spare. -/
def staleState : State :=
  { cur := some staleIssue, waves := [staleWave], gangs := [{ id := 2, launch := 3, place := some (0, 0) }] }

theorem stale_lane {l : Nat} (h : staleIssue.lanes.getLsbD l = true) : l = 0 := by
  simpa [staleIssue] using h

theorem stale_issuing : Issuing staleState staleIssue staleWave where
  cur := rfl
  wave := rfl
  single := rfl
  lanes := by decide
  runs l hl := by rw [stale_lane hl]; rfl

/-- What lane 0 of the wave numbered 1 holds after a step. -/
def heldAfter : Host.Outcome State Fault Refusal → Option (Map Word)
  | .next t => (t.wave? 1).map fun w => (w.thread 0).v
  | _ => none

/-- The PAUSE of lane 0 ends with the XACQ of lane 1 served: lane 0 no longer holds its value. -/
theorem stale_dropped : heldAfter (exec (.pause 0) staleState) = some [] := by decide +kernel

/-- Refutes O31: the clause of PAUSE says that a thread keeps its registers exactly, but where the end of the issue serves an
XACQ of another thread of the wave, a value held above the old grant is lost (R28). -/
theorem not_plainWords : ¬ Obligations.PlainWords := by
  intro h
  obtain ⟨-, -, hpause, -⟩ := h staleState staleIssue staleWave stale_issuing
  obtain ⟨t, w', hexec, hframe, -, -, -, hthread⟩ := hpause 0
  have hheld := stale_dropped
  rw [hexec, heldAfter, show t.wave? 1 = some w' from hframe.mine, Option.map_some, hthread 0 (by decide)] at hheld
  simp [staleWave, Wave.thread] at hheld

end Sys2Proof.Machine
end

section
/-! Control transfers (R39, R235 to R238): `ended_frame` gives the frame of a word that touches only the threads of its issue,
`runWord_going` the end of an issue whose threads have targets, and `Linked` what a link leaves in the wave. -/

namespace Sys2Proof.Machine
open Sys2Proof.Claims

/-! ## The frame of a word that touches the threads of its issue -/

/-- What a word may make of its wave, up to the release of held threads: the threads that issue it, its notes in what is
outstanding, the lead and the hints. -/
structure OwnThreads (c : Issue) (w w1 : Wave) : Prop where
  shape : w1 = { w with pend := w1.pend, lead := w1.lead, yieldTrk := w1.yieldTrk, yieldGrp := w1.yieldGrp, threads := w1.threads }
  there : ∀ l, c.lanes.getLsbD l = false → w1.thread l = w.thread l
  here  : ∀ l, c.lanes.getLsbD l = true → ∀ x, (w1.thread l).st ≠ .held x
  pend  : ∀ p ∈ w.pend, ∃ p' ∈ w1.pend, PendingKept p p'

/-- A thread that waits does not issue. -/
theorem OwnThreads.waits {c : Issue} {w w1 : Wave} (h : OwnThreads c w w1) {l : Nat} {x : Hold} (hx : (w1.thread l).waits x) :
    (w.thread l).waits x := by
  by_cases hl : c.lanes.getLsbD l = true
  · exact absurd hx (not_waits_of_not_held (h.here l hl) x)
  · rwa [h.there l (by simpa using hl)] at hx

theorem ended_frame {s t : State} {c : Issue} {w w1 w' : Wave} (h : OwnThreads c w w1) (he : Ended s w1 t w') :
    WordFrame s c w t w' ∧ MaskKept w w' ∧ w'.xstat = w.xstat ∧
      (∀ l, c.lanes.getLsbD l = true → w'.thread l = { w1.thread l with v := (w'.thread l).v }) ∧
      ∀ l r, w'.raw l r = w1.raw l r ∨ Granted w w' l r := by
  obtain ⟨P, L, Y, Z, T, hs⟩ : ∃ P L Y Z T, w1 = { w with pend := P, lead := L, yieldTrk := Y, yieldGrp := Z, threads := T } :=
    ⟨_, _, _, _, _, h.shape⟩
  have hid : w1.id = w.id := by rw [hs]
  have hgr : w1.grant = w.grant := by rw [hs]
  refine ⟨⟨he.rest, he.gangs, hid ▸ he.mine, fun id v hne => he.others id v (hid.symm ▸ hne), ?own, ?there, ?grant, ?monitor,
    ?pend⟩, ?masks, ?flags, ?here, ?regs⟩
  case own => rw [he.kept.rest, hs]
  case there =>
    intro l hl
    have := he.kept.threads l
    rwa [h.there l hl] at this
  case grant => exact ⟨hgr ▸ he.kept.grant.1, he.kept.grant.2.imp (·.trans hgr) (hid ▸ ·)⟩
  case monitor =>
    rcases he.kept.monitor with e | ⟨e, l, hl⟩
    · exact .inl (by rw [e, hs])
    · exact .inr ⟨e, l, h.waits hl⟩
  case pend =>
    intro p hp
    obtain ⟨q, hq, hpq⟩ := h.pend p hp
    obtain ⟨ps, e, _⟩ := he.kept.pend
    exact ⟨q, by rw [e]; simp [hq], hpq⟩
  case masks =>
    intro k l
    have hk : w1.kbit k l = w.kbit k l := by rw [hs]; rfl
    exact (he.kept.masks k l).imp (·.trans hk) (.imp_left h.waits)
  case flags => rw [he.kept.xstat, hs]
  case here =>
    intro l hl
    rw [← (he.kept.threads l).of_run (h.here l hl)]
  case regs =>
    intro l r
    exact (he.kept.raw l r).imp_right fun e => by unfold Granted at e ⊢; rwa [hgr] at e

/-! ## The targets of an issue -/

/-- The issue with control transfers noted: the program counters at which threads go on (R47). -/
def Issue.going (c : Issue) (ts : List (Nat × DWord)) : Issue := { c with targets := ts }

/-- The transfers of the threads that satisfy `p`. -/
def goesTo (m : LaneMask) (p : Nat → Bool) (pc : Nat → DWord) : List (Nat × DWord) :=
  ((lanesOf m).filter p).map fun l => (l, pc l)

theorem lookup_goesTo {m : LaneMask} (p : Nat → Bool) (pc : Nat → DWord) {l : Nat} (hl : m.getLsbD l = true) :
    (goesTo m p pc).lookup l = if p l then some (pc l) else none := by
  cases hp : p l with
  | true => exact List.lookup_graph pc (by simp [mem_lanesOf, lt_of_mask hl, hl, hp])
  | false =>
    refine List.lookup_eq_none_iff.mpr fun x hx => ?_
    obtain ⟨k, hk, rfl⟩ := List.mem_map.mp hx
    have hpk : p k = true := (List.mem_filter.mp hk).2
    simpa using fun e : l = k => by rw [e, hpk] at hp; cases hp

section Going
variable {s : State} {c : Issue} {w : Wave} (h : Issuing s c w) (ts : List (Nat × DWord))
include h

theorem transfer_eq (m : LaneMask) (p : Nat → Bool) (pc : Nat → DWord) :
    s.transfer m p pc = { s with cur := some (c.going (goesTo m p pc)) } := by
  simp [State.transfer, State.modCur, h.cur, h.targets, Issue.going, goesTo]

theorem putLink_transfer_eq (m m' : LaneMask) (r : Nat) (p q : Nat → Bool) (pc : Nat → DWord) :
    (s.putLink c w m r p).transfer m' q pc = ({ s with cur := some (c.going (goesTo m' q pc)) } : State).modWave w.id
      fun v => v.putLanes (m &&& maskBy p) fun _ => spread 2 (Reg.ofNat r) c.nextPc.toNat := by
  simp [State.putLink, State.transfer, State.modCur, State.modWave, h.cur, h.targets, Issue.going, goesTo]

/-- The threads of an issue go on at their targets, or else at the next word (R39, R47). -/
theorem advance_going (v : Wave) : v.advance (c.going ts) =
    v.mapLanes c.lanes fun l t => { t with count := 0, pc := (ts.lookup l).getD c.nextPc, commitDone := false } := by
  have hact : (c.going ts).acting = c.lanes := acting_of (c := c.going ts) h.traps h.xlates h.waits
  unfold Wave.advance
  rw [hact]
  simp [Issue.going, h.parks, h.exits, h.holds, h.stays, h.leaves, Issue.rest]

theorem mild_going : Mild (Wave.issued (c.going ts)) where
  id v := by rw [issued_shape]
  gang v := by rw [issued_shape]
  held v l x hst _ := by
    rw [issued_thread, advance_going h, thread_mapLanes] at hst
    split at hst <;> exact hst

/-- A word whose checks go on, which notes targets and has an effect on the issuing wave. -/
theorem runWord_going {i : Instr} {op : WordOp} {F : Wave → Wave} (ha : Allowed s i w) (hg : ChecksGo s op c w)
    (hc : s.versioned (s.gangOf w) = true → op.commit s w (s.gangOf w) = false)
    (hact : op.act s c w c.lanes = ({ s with cur := some (c.going ts) } : State).modWave w.id F) (hF : Mild F) :
    ∃ t w', runWord i op s = .next t ∧ Ended s (Wave.issued (c.going ts) (F w)) t w' := by
  have hv : s.wave? w.id = some w := h.waveId ▸ h.wave
  have hw : (({ s with cur := some (c.going ts) } : State).modWave w.id F).wave? c.wave = some (F w) := by
    rw [h.waveId, wave?_modWave hF.id]
    exact (congrArg _ hv).trans (by simp)
  have hset := finishIssue_settled (u := ({ s with cur := some (c.going ts) } : State).modWave w.id F) (c := c.going ts)
    rfl hw h.traps h.xlates h.waits
  have he : (({ s with cur := some (c.going ts) } : State).modWave w.id F).issued (c.going ts) =
      (({ s with cur := none } : State).modWave w.id fun v => Wave.issued (c.going ts) (F v)).freshen := by
    rw [← modWave_modWave _ _ _ _ hF.id]
    simp [State.issued, Issue.going, h.waveId, State.modWave]
  rw [he] at hset
  obtain ⟨w', hw'⟩ := settled_ended (hF.comp (mild_going h ts)) hv hset
  exact ⟨_, w', by rw [runWord_next h ha hg hc, hact], hw'⟩

end Going

/-! ## The wave with its links written (R235) -/

/-- The wave before the end of an issue whose threads write `ws l` to their own registers. -/
structure Linked (c : Issue) (w v : Wave) (ws : Nat → List (Reg × Word)) : Prop where
  shape   : v = { w with pend := v.pend, threads := v.threads }
  length  : v.threads.length = w.threads.length
  threads : ∀ l, v.thread l = { w.thread l with v := (v.thread l).v }
  there   : ∀ l, c.lanes.getLsbD l = false → v.thread l = w.thread l
  pend    : ∀ p ∈ w.pend, ∃ p' ∈ v.pend, PendingKept p p'
  regs    : ∀ l n, v.raw l (.v n) = if c.lanes.getLsbD l = true then ((ws l).lookup (.v n)).getD (w.raw l (.v n)) else w.raw l (.v n)
  unis    : ∀ l n, (ws l).lookup (.s n) = none

theorem Linked.none (c : Issue) (w : Wave) : Linked c w w fun _ => [] where
  shape := rfl
  length := rfl
  threads _ := rfl
  there _ _ := rfl
  pend p hp := ⟨p, hp, rfl⟩
  regs l n := by simp
  unis _ _ := rfl

/-- The halves of a program counter in a link's two registers. -/
theorem spread_pair {r : Reg} (x : DWord) : spread 2 r x.toNat = pairWrites r x := by
  have hlo : BitVec.ofNat 32 x.toNat = x.extractLsb' 0 32 := by
    apply BitVec.eq_of_toNat_eq; simp
  have hhi : BitVec.ofNat 32 (x.toNat / 2 ^ 32) = x.extractLsb' 32 32 := by
    apply BitVec.eq_of_toNat_eq; simp [Nat.shiftRight_eq_div_pow]
  simp [spread, pairWrites, List.range_succ, ofNat_toNat, hlo, ← hhi]

/-- The registers of a pair that lies below v96. -/
theorem pairWrites_v {n : Fin 96} (hn : n.val + 1 < 96) (x : DWord) :
    pairWrites (.v n) x = [(.v n, x.extractLsb' 0 32), (.v ⟨n.val + 1, hn⟩, x.extractLsb' 32 32)] := by
  simp [pairWrites, Reg.toNat, Reg.ofNat, hn]

/-- Each register of a pair gets its half, and every other register keeps what it held. -/
theorem written_pairWrites {n : Fin 96} (hn : n.val + 1 < 96) (x : DWord) (r : Reg) (d : Word) :
    written (pairWrites (.v n) x) r d = ((pairWrites (.v n) x).lookup r).getD d := by
  have hne : (⟨n.val + 1, hn⟩ : Fin 96) ≠ n := fun e => by simpa using congrArg Fin.val e
  simp only [pairWrites_v hn, written_cons, written_nil, List.lookup_cons, List.lookup_nil]
  by_cases h0 : r = .v n
  · simp [h0, hne]
  · by_cases h1 : r = .v ⟨n.val + 1, hn⟩
    · subst h1
      simp [beq_eq_false_iff_ne.mpr h0]
    · simp [beq_eq_false_iff_ne.mpr h0, beq_eq_false_iff_ne.mpr h1, Ne.symm h0, Ne.symm h1]

theorem Issuing.linked {s : State} {c : Issue} {w : Wave} (h : Issuing s c w) {n : Fin 96} (hn : n.val + 1 < 96) (p : Nat → Bool)
    (x : DWord) :
    Linked c w (w.putLanes (c.lanes &&& maskBy p) fun _ => spread 2 (.v n) x.toNat)
      fun l => if p l then pairWrites (.v n) x else [] where
  shape := rfl
  length := length_mapLanes ..
  threads l := by
    rw [thread_putLanes]
    split
    · rw [← putAll_eq]
    · rfl
  there l hl := by rw [thread_putLanes]; simp [hl]
  pend := putLanes_pend w _ _
  regs l k := by
    rw [raw_putLanes_v, spread_pair, written_pairWrites hn, BitVec.getLsbD_and, getLsbD_maskBy]
    by_cases hl : c.lanes.getLsbD l = true
    · cases hp : p l <;> simp [hl, h.lt hl, lt_of_mask hl]
    · simp [hl]
  unis l k := by
    split
    · exact List.lookup_eq_none_iff.mpr (by simp [pairWrites_v hn])
    · rfl

theorem mild_putLanes (m : LaneMask) (f : Nat → List (Reg × Word)) : Mild fun v => v.putLanes m f where
  id _ := rfl
  gang _ := rfl
  held v l x hx _ := by
    rw [thread_putLanes] at hx
    split at hx
    · rwa [putAll_eq] at hx
    · exact hx

theorem mild_self : Mild fun v => v := ⟨fun _ => rfl, fun _ => rfl, fun _ _ _ h _ => h⟩

/-! ## The transfer -/

section Transfer
variable {s : State} {c : Issue} {w : Wave} (h : Issuing s c w)
include h

theorem issued_going_thread {v : Wave} (ts : List (Nat × DWord)) (hlen : v.threads.length = w.threads.length) (l : Nat) :
    (Wave.issued (c.going ts) v).thread l = if c.lanes.getLsbD l = true then
      { v.thread l with count := 0, pc := (ts.lookup l).getD c.nextPc, commitDone := false } else v.thread l := by
  rw [issued_thread, advance_going h, thread_mapLanes, hlen]
  by_cases hl : c.lanes.getLsbD l = true
  · simp [hl, h.lt hl]
  · simp [hl]

theorem Linked.ownThreads {v : Wave} {ws : Nat → List (Reg × Word)} (hv : Linked c w v ws) (ts : List (Nat × DWord)) :
    OwnThreads c w (Wave.issued (c.going ts) v) where
  shape := by
    rw [issued_shape, hv.shape]
  there l hl := by rw [issued_going_thread h ts hv.length, if_neg (by simp [hl]), hv.there l hl]
  here l hl x := by
    rw [issued_going_thread h ts hv.length, if_pos hl, hv.threads]
    simp [h.runs l hl]
  pend p hp := by
    rw [issued_shape]
    exact hv.pend p hp

/-- A wave whose threads issued a transfer, with its links written. -/
theorem transfers_of_ended {v w' : Wave} {t : State} {ws : Nat → List (Reg × Word)} {ts : List (Nat × DWord)} {pc : Nat → DWord}
    (hv : Linked c w v ws) (hpc : ∀ l, c.lanes.getLsbD l = true → (ts.lookup l).getD c.nextPc = pc l)
    (he : Ended s (Wave.issued (c.going ts) v) t w') : Transfers s c w t w' pc ws := by
  obtain ⟨hframe, hmasks, hflags, hhere, hregs⟩ := ended_frame (hv.ownThreads h ts) he
  refine ⟨hframe, hmasks, hflags, fun l r => (hregs l r).imp_left fun e => e.trans ?regs, fun l hl => ?here⟩
  case regs =>
    have hraw : (Wave.issued (c.going ts) v).raw l r = v.raw l r := by
      refine raw_congr (by rw [issued_shape]) ?_ r
      rw [issued_going_thread h ts hv.length]
      split <;> rfl
    rw [hraw]
    cases r with
    | v n => exact hv.regs l n
    | s n =>
      have hs : v.raw l (.s n) = w.raw l (.s n) := by
        have : v.s = w.s := by rw [hv.shape]
        simp [Wave.raw, this]
      rw [hs]
      simp only [hv.unis, Option.getD_none]
      split
      · next e => simp [e, Wave.raw]
      · rfl
  case here => rw [hhere l hl, issued_going_thread h ts hv.length, if_pos hl, hv.threads, hpc l hl]

end Transfer

/-! ## Targets and link values -/

/-- A program counter with its low four bits clear is that of its packet. -/
theorem packet_ofNat (pc : DWord) : pc &&& ~~~0xF#64 = BitVec.ofNat 64 (pc.toNat / 16 * 16) := by
  have h : pc &&& ~~~0xF#64 = (pc >>> 4) <<< 4 := by
    apply BitVec.eq_of_getLsbD_eq
    intro i hi
    simp only [BitVec.getLsbD_and, BitVec.getLsbD_not, BitVec.getLsbD_shiftLeft, BitVec.getLsbD_ushiftRight]
    have h15 : (15#64).getLsbD i = decide (i < 4) := by
      rw [BitVec.getLsbD_ofNat, show (15 : Nat) = 2 ^ 4 - 1 from rfl, Nat.testBit_two_pow_sub_one]
      simp [hi]
    rw [h15]
    by_cases h4 : i < 4
    · simp [h4, hi]
    · simp [h4, hi, show 4 + (i - 4) = i by omega]
  rw [h]
  apply BitVec.eq_of_toNat_eq
  simp [Nat.shiftLeft_eq, Nat.shiftRight_eq_div_pow]

/-- The target of a word with a packet offset, as the claims compute it (R53). -/
theorem branchTarget_eq (pc : DWord) (u : SlotNo) (o : BitVec 17) : branchTarget pc u o = slotTarget pc u o := by
  have ho : (o.signExtend 64 : DWord) = BitVec.ofInt 64 o.toInt := rfl
  unfold slotTarget
  rw [branchTarget, packet_ofNat, ho, BitVec.ofInt_add, BitVec.ofInt_add, BitVec.ofInt_mul, BitVec.ofInt_natCast]
  cases u <;> rfl

theorem taken_eq (n : Bool) (k : Option Mask) (w : Wave) : taken n k w = takes n k w := by
  funext l
  cases k <;> cases n <;> simp [taken, takes]

theorem jumpTarget_eq (s : State) (a : Reg) (w : Wave) (l : Nat) : s.jumpTarget a w l = rd64 s w l a := by
  apply BitVec.eq_of_toNat_eq
  rw [← wide_pair]
  have := wide_pair s w l a
  simp only [State.jumpTarget, pair, BitVec.toNat_ofNat]
  exact Nat.mod_eq_of_lt (this ▸ (rd64 s w l a).isLt)

theorem validPc_iff (pc : DWord) : validPc pc = true ↔ pc.toNat % 4 = 0 ∧ pc.toNat / 4 % 4 ≠ 0 ∧ pc.toNat < 2 ^ 51 := by
  simp [validPc, and_assoc, Nat.div_eq_zero_iff]

/-! ## The words -/

/-- A word with no feature that any role may issue is allowed where its registers lie below the grant. -/
theorem allowed_of {s : State} {i : Instr} {w : Wave} (hu : Instr.isUnimpl i = false) (hr : i.info.role.permits w.role = true)
    (hf : i.info.feat = none) (hreg : illReg i w = false) : Allowed s i w :=
  ⟨by simp [State.groupCause, hu, hr, hf], hreg⟩

section Words
variable {s : State} {c : Issue} {w : Wave} (h : Issuing s c w)
include h

/-- A word whose threads that satisfy `p` go to `pc`, and that writes no register. -/
theorem runWord_transfers {i : Instr} {op : WordOp} {p : Nat → Bool} {pc : Nat → DWord} (hex : exec i s = runWord i op s)
    (ha : Allowed s i w) (hg : ChecksGo s op c w) (hc : s.versioned (s.gangOf w) = true → op.commit s w (s.gangOf w) = false)
    (hact : op.act s c w c.lanes = s.transfer c.lanes p pc) :
    ∃ t w', exec i s = .next t ∧ Transfers s c w t w' (fun l => if p l then pc l else c.nextPc) fun _ => [] := by
  obtain ⟨t, w', hrun, he⟩ := runWord_going h (goesTo c.lanes p pc) (F := fun v => v) ha hg hc
    (by rw [hact, transfer_eq h]; simp [State.modWave, modBy]) mild_self
  refine ⟨t, w', hex.trans hrun, transfers_of_ended h (Linked.none c w) (fun l hl => ?_) he⟩
  rw [lookup_goesTo _ _ hl]
  split <;> rfl

/-- The same, with the link written at `n` in the threads that go. -/
theorem runWord_links {i : Instr} {op : WordOp} {p : Nat → Bool} {pc : Nat → DWord} {n : Fin 96} (hn : n.val + 1 < 96)
    (hex : exec i s = runWord i op s) (ha : Allowed s i w) (hg : ChecksGo s op c w)
    (hc : s.versioned (s.gangOf w) = true → op.commit s w (s.gangOf w) = false)
    (hact : op.act s c w c.lanes = (s.putLink c w c.lanes n.val p).transfer c.lanes p pc) :
    ∃ t w', exec i s = .next t ∧ Transfers s c w t w' (fun l => if p l then pc l else c.nextPc)
      fun l => if p l then pairWrites (.v n) c.nextPc else [] := by
  have hr : Reg.ofNat n.val = .v n := by simp [Reg.ofNat]
  obtain ⟨t, w', hrun, he⟩ := runWord_going h (goesTo c.lanes p pc) ha hg hc
    (by rw [hact, putLink_transfer_eq h, hr]) (mild_putLanes _ _)
  refine ⟨t, w', hex.trans hrun, transfers_of_ended h (h.linked hn p c.nextPc) (fun l hl => ?_) he⟩
  rw [lookup_goesTo _ _ hl]
  split <;> rfl

end Words

/-- Settles O27: each word notes the targets of its threads, and a link is two register writes (`runWord_transfers`,
`runWord_links`). -/
theorem transferResults : Obligations.TransferResults := by
  intro s c w h
  have hvalid : ∀ {a}, (∀ l, c.lanes.getLsbD l = true → (rd64 s w l a).toNat % 4 = 0 ∧ (rd64 s w l a).toNat / 4 % 4 ≠ 0 ∧
      (rd64 s w l a).toNat < 2 ^ 51) → ∀ l, c.lanes.getLsbD l = true → jumpCheck a s c w l = .go := fun ha l hl => by
    simp [jumpCheck, jumpTarget_eq, (validPc_iff _).mpr (ha l hl)]
  refine ⟨fun u n k o => ?br, fun u n k o hgr => ?call, fun u k o hgr => ?tramp, fun a ha => ⟨fun _ hreg => ?jmp,
    fun _ hreg => ?ret, fun _ hreg hgr => ?callr⟩⟩
  case br =>
    exact runWord_transfers h (op := { act := brAct u n k o }) rfl (allowed_of rfl rfl rfl rfl) (fun _ _ => rfl) (fun _ => rfl)
      (by simp only [brAct, taken_eq, branchTarget_eq])
  case call =>
    refine runWord_links h (n := 94) (op := { check := callCheck n k, act := callAct u n k o }) (by decide) rfl
      (allowed_of rfl rfl rfl rfl) (fun l hl => ?_) (fun _ => rfl) ?_
    · cases ht : takes n k w l with
      | true => simp [callCheck, Nat.not_lt.mpr (hgr l hl ht)]
      | false => simp [callCheck, taken_eq, ht]
    · simp only [callAct, taken_eq, branchTarget_eq]
      rfl
  case tramp =>
    simpa using runWord_links h (n := 92) (p := fun _ => true) (op := { check := trampCheck false, act := trampAct u o })
      (by decide) (i := .tramp u false k o) rfl (allowed_of rfl rfl rfl rfl) (fun _ _ => by simp [trampCheck, Nat.not_lt.mpr hgr])
      (fun _ => rfl) (by simp only [trampAct, branchTarget_eq]; rfl)
  case jmp =>
    simpa using runWord_transfers h (i := .jmp a) (p := fun _ => true) (op := { check := jumpCheck a, act := jumpAct a }) rfl
      (allowed_of rfl rfl rfl hreg) (hvalid ha) (fun _ => rfl) (by simp only [jumpAct, jumpTarget_eq])
  case ret =>
    simpa using runWord_transfers h (i := .ret a) (p := fun _ => true) (op := { check := jumpCheck a, act := jumpAct a }) rfl
      (allowed_of rfl rfl rfl hreg) (hvalid ha) (fun _ => rfl) (by simp only [jumpAct, jumpTarget_eq])
  case callr =>
    simpa using runWord_links h (n := 94) (p := fun _ => true) (op := { check := callrCheck a, act := callrAct a })
      (by decide) (i := .callr a) rfl (allowed_of rfl rfl rfl hreg)
      (fun l hl => by simp [callrCheck, Nat.not_lt.mpr hgr, hvalid ha l hl])
      (fun _ => rfl) (by simp only [callrAct, jumpTarget_eq]; rfl)

end Sys2Proof.Machine
end

section
/-! A word that raises a cause (R81, R246): `exec_raises` finds the cause and the step of R81 at which every thread meets it,
`runWord_raised` reduces the word to the traps that its threads then take. -/

namespace Sys2Proof.Machine
open Sys2Proof.Claims

/-! ## The words of the machine -/

/-- Every word runs as one issue does: its checks, its effect, the end (R45, R81). -/
theorem exec_word {i : Instr} (h : IsWord i) (s : State) : ∃ op, exec i s = runWord i op s := by
  rcases h with hpipe | hunimpl
  · replace hpipe : i.info.pipe.isSome = true := Option.isSome_iff_ne_none.mpr hpipe
    cases i
    all_goals try contradiction
    all_goals exact ⟨_, rfl⟩
  · cases i
    all_goals try contradiction
    exact ⟨_, rfl⟩

theorem groomAtHome_iff (i : Instr) : Instr.groomAtHome i = (i.info.feat == some .groom) := by
  cases i <;> rfl

/-! ## The cause of a word -/

/-- What a check answers for a cause: aborting causes lie above the codes of traps (R246, R255). -/
def raisedVerdict (code n : Nat) : Verdict := if code < 12 then .trap code n 0 else .abort code 0 0

/-- The trap that is noted for it. -/
def Issue.raisedTrap (c : Issue) (code n : Nat) : TrapInfo :=
  { code, pos := c.pos, word := c.word, n := if code < 12 then n else 0, pc := c.pc }

/-- The causes that are the same for every thread, in terms of the model's own check of registers. -/
theorem wordCause_def (s : State) (w : Wave) (i : Instr) : wordCause s w i =
    if Instr.isUnimpl i then some 2
    else if !(i.info.role.permits w.role) then some 5
    else match i.info.feat with
      | none => if illReg i w then some 4 else none
      | some f =>
        if !((s.launchOf (s.gangOf w)).hdr.features.getLsbD f.bit) then some 0x83
        else if f ≠ .groom ∧ !((s.die (s.gangOf w).die).feat.getLsbD f.bit) then some 9
        else if illReg i w then some 4 else none := rfl

/-- The model's checks find the cause that the claims name, in R81's order. -/
theorem wordCause_eq (s : State) (w : Wave) (i : Instr) :
    wordCause s w i = match s.groupCause i w with
      | some (_, code) => some code
      | none => if illReg i w then some 4 else none := by
  unfold State.groupCause
  rw [wordCause_def, groomAtHome_iff]
  split
  · rfl
  split
  · rfl
  cases hf : i.info.feat with
  | none => rfl
  | some f =>
    cases hdecl : (s.launchOf (s.gangOf w)).hdr.features.getLsbD f.bit
    · simp [hdecl]
    · by_cases hg : f = .groom
      · subst hg
        simp [hdecl]
      · cases hdie : (s.die (s.gangOf w).die).feat.getLsbD f.bit <;> simp [hdecl, hg, hdie]

theorem groupCause_step {s : State} {i : Instr} {w : Wave} {x : Nat × Nat} (h : s.groupCause i w = some x) : x.1 < 7 := by
  unfold State.groupCause at h
  dsimp only at h
  repeat' split at h
  all_goals cases h
  all_goals decide

theorem laneCause_of_groupCause {s : State} {i : Instr} {w : Wave} {step code : Nat} (h : s.groupCause i w = some (step, code))
    (op : WordOp) (c : Issue) (l : Nat) : s.laneCause i op c w l = (step, raisedVerdict code 0) := by
  unfold State.laneCause
  rw [h]
  rfl

theorem laneCause_of_illReg {s : State} {i : Instr} {w : Wave} (h : s.groupCause i w = none) (hreg : illReg i w = true)
    (op : WordOp) (c : Issue) (l : Nat) : s.laneCause i op c w l = (6, raisedVerdict 4 0) := by
  unfold State.laneCause
  rw [h]
  simp [hreg, raisedVerdict]

theorem laneCause_of_wordCause {s : State} {i : Instr} {w : Wave} {code : Nat} (h : wordCause s w i = some code) :
    ∃ step < 7, ∀ op c l, s.laneCause i op c w l = (step, raisedVerdict code 0) := by
  rw [wordCause_eq] at h
  cases hg : s.groupCause i w with
  | some x =>
    obtain rfl : x.2 = code := by simpa [hg] using h
    exact ⟨x.1, groupCause_step hg, laneCause_of_groupCause hg⟩
  | none =>
    obtain ⟨hreg, rfl⟩ : illReg i w = true ∧ 4 = code := by simpa [hg] using h
    exact ⟨6, by decide, laneCause_of_illReg hg hreg⟩

theorem allowed_of_wordCause {s : State} {i : Instr} {w : Wave} (h : wordCause s w i = none) : Allowed s i w := by
  rw [wordCause_eq] at h
  cases hg : s.groupCause i w with
  | some x => simp [hg] at h
  | none => exact ⟨hg, by simpa [hg] using h⟩

/-- A word whose check raises one cause in every thread. -/
theorem laneCause_of_check {s : State} {i : Instr} {w : Wave} {op : WordOp} {c : Issue} {code n : Nat} (ha : Allowed s i w)
    (hcode : code ≠ 4) {l : Nat} (hop : op.check s c w l = .trap code n 0) :
    s.laneCause i op c w l = (7, .trap code n 0) := by
  unfold State.laneCause
  rw [ha.1, hop]
  simp [ha.2, hcode]

/-- Where a word raises a cause, every thread meets it at one step of R81, and the word has no part that is performed in
threads that trap (R116). -/
theorem exec_raises {s : State} {w : Wave} {i : Instr} {code n : Nat} (hi : IsWord i) (h : raisedBy s w i = some (code, n)) :
    ∃ op step, exec i s = runWord i op s ∧ (∀ c l, s.laneCause i op c w l = (step, raisedVerdict code n)) ∧
      (step < 7 ∨ op.always = false) := by
  unfold raisedBy at h
  split at h
  · next hc =>
    cases h
    obtain ⟨op, hop⟩ := exec_word hi s
    obtain ⟨step, hstep, hl⟩ := laneCause_of_wordCause hc
    exact ⟨op, step, hop, hl op, .inl hstep⟩
  · next hc =>
    have ha := allowed_of_wordCause hc
    split at h
    · cases h
      exact ⟨raise (.trap 11 _ 0), 7, rfl, fun c l => laneCause_of_check ha (by decide) rfl, .inr rfl⟩
    · cases h
      exact ⟨raise (.trap 7 0 0), 7, rfl, fun c l => laneCause_of_check ha (by decide) rfl, .inr rfl⟩
    · cases h
      exact ⟨{ check := trampCheck true, act := trampAct _ _ }, 7, rfl, fun c l => laneCause_of_check ha (by decide) rfl, .inr rfl⟩
    · cases h

/-! ## The traps of the chain -/

/-- The chain after its threads' checks have each found the trap `t` at `step`; what it notes of commits is left aside, as no
thread acts. -/
def Issue.trapped (c : Issue) (step : Nat) (t : TrapInfo) (commits : Nat) (waits : LaneMask) : Issue :=
  { c with traps := (lanesOf c.lanes).map fun l => (l, step, t), commits, waits }

theorem note_raised {c : Issue} (hx : c.xlates = []) (l step code n : Nat) :
    c.note l (step, raisedVerdict code n) = { c with traps := c.traps ++ [(l, step, c.raisedTrap code n)] } := by
  unfold raisedVerdict Issue.raisedTrap
  split <;> simp [Issue.note, Issue.addTrap, hx]

/-- The checks of several threads, each of which raises the cause. -/
theorem noteFold_raised (step code n : Nat) : ∀ (ls : List Nat) (c : Issue), c.xlates = [] →
    ls.foldl (fun c' l => Issue.note c' l (step, raisedVerdict code n)) c =
      { c with traps := c.traps ++ ls.map fun l => (l, step, c.raisedTrap code n) }
  | [], c, _ => by simp
  | l :: ls, c, hx => by
    rw [List.foldl_cons, note_raised hx]
    refine (noteFold_raised step code n ls { c with traps := c.traps ++ [(l, step, c.raisedTrap code n)] } hx).trans ?_
    simp [Issue.raisedTrap]

section Trapped
variable (c : Issue) (step : Nat) (t : TrapInfo) (k : Nat) (m : LaneMask)

theorem clean_trapped : (c.trapped step t k m).clean = 0 := by
  apply laneMask_ext
  intro l hl
  by_cases hc : c.lanes.getLsbD l = true
  · have htrap : ((c.trapped step t k m).traps.any fun x => x.1 == l) = true :=
      List.any_eq_true.mpr ⟨(l, step, t), List.mem_map.mpr ⟨l, mem_lanesOf.mpr ⟨hl, hc⟩, rfl⟩, by simp⟩
    rw [Issue.clean, BitVec.getLsbD_and, getLsbD_maskBy, htrap]
    simp
  · simp [Issue.clean, Issue.trapped, hc]

theorem waiting_trapped : (c.trapped step t k m).waiting = 0 := by simp [Issue.waiting, clean_trapped]

theorem acting_trapped : (c.trapped step t k m).acting = 0 := by simp [Issue.acting, clean_trapped, waiting_trapped]

/-- Every thread of the issue takes the trap. -/
theorem taken_trapped : (c.trapped step t k m).taken = (lanesOf c.lanes).map fun l => (l, t) := by
  have hone : ∀ l ∈ lanesOf c.lanes, pickTrap (((c.trapped step t k m).traps.filter fun x => x.1 == l).map (·.2)) = some t := by
    intro l hl
    have : ((lanesOf c.lanes).filter fun x => x == l) = [l] := by
      rw [List.filter_beq, List.count_eq_one_of_mem (lanesOf_nodup _) hl]
      rfl
    simp only [Issue.trapped, List.filter_map, Function.comp_def, this]
    rfl
  unfold Issue.taken
  rw [show (c.trapped step t k m).lanes = c.lanes from rfl]
  exact List.filterMap_eq_map_iff_forall_eq_some.mpr fun l hl => by rw [hone l hl]; rfl

end Trapped

/-- A chain in which no thread acts has no effect, but for the part of a SINK head (R116). -/
theorem actWord_idle {s : State} {op : WordOp} {c : Issue} {w : Wave} (hc : s.cur = some c) (hv : c.view = some w)
    (ha : c.acting = 0) (hidle : (op.always && c.waiting == 0 && c.traps.all fun t => 7 ≤ t.2.1) = false) :
    s.actWord op = s := by
  have hchain : s.commitChain c w = s := by simp [State.commitChain, ha]
  unfold State.actWord
  rw [hc]
  simp only [hv, hchain, hc, ha, hidle]
  simp

/-- Where every thread of the group raises the cause, the word has no effect (R47): what is left is the end of the issue, with
the trap in each of its threads. -/
theorem runWord_raised {s : State} {c : Issue} {w : Wave} (h : Issuing s c w) {i : Instr} {op : WordOp} {step code n : Nat}
    (hl : ∀ c l, s.laneCause i op c w l = (step, raisedVerdict code n)) (hop : step < 7 ∨ op.always = false) :
    ∃ k m, runWord i op s =
      .next ({ s with cur := some (c.trapped step (c.raisedTrap code n) k m) } : State).finishIssue := by
  have hcheck : ∃ k m, s.checkWord i op c w = { s with cur := some (c.trapped step (c.raisedTrap code n) k m) } := by
    unfold State.checkWord
    simp only [hl, noteFold_raised step code n _ c h.xlates, h.traps, List.nil_append]
    split
    · exact ⟨_, _, rfl⟩
    · exact ⟨_, _, rfl⟩
  obtain ⟨k, m, hk⟩ := hcheck
  have hact : ({ s with cur := some (c.trapped step (c.raisedTrap code n) k m) } : State).actWord op =
      { s with cur := some (c.trapped step (c.raisedTrap code n) k m) } := by
    have hidle : (op.always && (c.trapped step (c.raisedTrap code n) k m).waiting == 0 &&
        (c.trapped step (c.raisedTrap code n) k m).traps.all fun t => 7 ≤ t.2.1) = false := by
      rcases hop with hstep | halways
      · have hall : ((c.trapped step (c.raisedTrap code n) k m).traps.all fun t => 7 ≤ t.2.1) = false :=
          List.all_eq_false.mpr ⟨_, List.mem_map.mpr ⟨_, mem_lanesOf.mpr (lowest_mem h.lanes), rfl⟩, by simp; omega⟩
        simp [hall]
      · simp [halways]
    exact actWord_idle rfl h.view (acting_trapped ..) hidle
  refine ⟨k, m, ?_⟩
  simp [runWord, h.cur, h.wave, h.phase, hk, hact]

end Sys2Proof.Machine
end

section
/-! The abort of a gang at a cause that no handler takes (R47, R255, R258, R263), and the statement O32. -/

namespace Sys2Proof.Machine
open Sys2Proof.Claims

/-! ## The releases after an issue (R223, R28) -/

/-- Holds of the issuing gang, then XACQs on its wave's track, are tested at the end of an issue of `w`. -/
def State.releases (s : State) (w : Wave) : State :=
  match w.track with
  | some t => State.testGrants t (((s.settle w.gang).xacqs t).length + 1) (s.settle w.gang)
  | none => s.settle w.gang

theorem releases_settled (s : State) (w : Wave) : Settled s (s.releases w) := by
  unfold State.releases
  split
  · exact (settle_settled _ _).trans (testGrants_settled _ _ _)
  · exact settle_settled _ _

/-- The end of an issue in which no thread acts or waits: its traps are taken, and held threads are released. -/
theorem finishIssue_traps {s : State} {c : Issue} {w : Wave} (hw : s.wave? c.wave = some w) (ha : c.acting = 0)
    (hn : c.waiting = 0) (hx : c.xlates = []) : ({ s with cur := some c } : State).finishIssue =
      (((({ s with cur := none } : State).takeTraps c.wave c.taken).modWave c.wave Wave.fixLead).freshen).releases w := by
  have hadv : ∀ v : Wave, v.advance c = v := fun v => by rw [Wave.advance, ha]; exact mapLanes_zero ..
  have hsame : ({ s with cur := none } : State).modWave c.wave (fun v => v) = { s with cur := none } := by
    simp [State.modWave, modBy]
  unfold State.finishIssue
  simp only [show State.wave? { s with cur := some c } c.wave = some w from hw, hn, ha, hx, hadv, holdXlates_nil hx]
  simp only [hsame, bne_self_eq_false, Bool.false_eq_true, ↓reduceIte, Bool.and_false, Bool.false_and, List.foldl_nil]
  rfl

/-! ## A gang all of whose threads have ended -/

/-- Nothing of the gang's waves runs or is outstanding (R258). -/
def AllEnded (gid : Nat) (s : State) : Prop := ∀ v ∈ s.waves, v.gang = gid → v.pend = [] ∧ ∀ l, (v.thread l).st = .ended

/-- A change of one wave that starts nothing in it. -/
structure StartsNone (v v' : Wave) : Prop where
  ends : WaveEnds v v'
  pend : v'.pend = v.pend

theorem AllEnded.modBy {gid : Nat} {s : State} (h : AllEnded gid s) {p : Wave → Bool} {f : Wave → Wave}
    (hf : ∀ v, StartsNone v (f v)) : AllEnded gid { s with waves := modBy s.waves p f } := by
  intro v' hv' he
  obtain ⟨v, hv, rfl⟩ := List.mem_map.mp (show v' ∈ s.waves.map _ from hv')
  by_cases hp : p v = true
  · rw [if_pos hp] at he ⊢
    obtain ⟨hpend, hend⟩ := h v hv ((hf v).ends.gang ▸ he)
    exact ⟨(hf v).pend.trans hpend, fun l => (hf v).ends.ended l (hend l)⟩
  · rw [if_neg hp] at he ⊢
    exact h v hv he

/-- A release that no wave waits for adds no result. -/
theorem WaveKept.startsNone {v v' : Wave} (k : WaveKept ({} : State) v v') : StartsNone v v' := by
  refine ⟨k.ends, ?_⟩
  obtain ⟨ps, e, rfl | ⟨x, hx, -⟩⟩ := k.pend
  · simpa using e
  · cases hx

theorem StartsNone.trans {a b c : Wave} (h : StartsNone a b) (h' : StartsNone b c) : StartsNone a c :=
  ⟨h.ends.trans h'.ends, h'.pend.trans h.pend⟩

theorem raise_startsNone (w : Wave) (t : Nat) : StartsNone w (w.raise t) := by
  unfold Wave.raise
  split
  · exact ⟨.refl w, rfl⟩
  · refine ⟨⟨rfl, rfl, fun l hl => ?_⟩, rfl⟩
    simp only [Wave.thread, List.getD_eq_getElem?_getD, List.getElem?_map] at hl ⊢
    cases h : w.threads[l]? with
    | none => simp
    | some t => simpa [h] using hl

theorem fixLead_startsNone (w : Wave) : StartsNone w w.fixLead := by
  rw [fixLead_eq]
  exact ⟨⟨rfl, rfl, fun _ h => h⟩, rfl⟩

section Ended
variable {gid : Nat} {s : State}

theorem AllEnded.feWaits (h : AllEnded gid s) : s.feWaits gid = [] := by
  refine List.eq_nil_iff_forall_not_mem.mpr fun x hx => ?_
  simp only [State.feWaits, State.wavesOf, List.mem_flatMap, List.mem_filter, List.mem_filterMap] at hx
  obtain ⟨v, ⟨hv, hg⟩, l, -, hl⟩ := hx
  simp [Thread.hold?, (h v hv (by simpa using hg)).2 l] at hl

/-- No full-empty access is held, so none is performed. -/
theorem AllEnded.testGranules (h : AllEnded gid s) (n : Nat) : State.testGranules gid n s = s := by
  cases n with
  | zero => rfl
  | succ n =>
    unfold State.testGranules
    split
    · rfl
    · simp [h.feWaits, firstTurns]

theorem AllEnded.testBarriers (h : AllEnded gid s) : AllEnded gid (s.testBarriers gid) :=
  h.modBy fun v => (releaseHeld_kept {} v _ rfl).startsNone

theorem AllEnded.testRinks (h : AllEnded gid s) : AllEnded gid (s.testRinks gid) := by
  unfold State.testRinks
  split
  · exact h
  · exact h.modBy fun v => (releaseHeld_kept {} v _ rfl).startsNone

theorem AllEnded.settleOnce (h : AllEnded gid s) : AllEnded gid (s.settleOnce gid) := by
  have hmasks := h.modBy (p := fun w => w.gang == gid) (f := fun w => w.testMonitor.testMasks) fun v =>
    ((testMonitor_kept {} v).trans (testMasks_kept {} _)).startsNone
  have hrest := hmasks.testBarriers.testRinks
  unfold State.settleOnce
  dsimp only
  rw [hrest.testGranules]
  exact hrest

theorem AllEnded.settle (h : AllEnded gid s) : AllEnded gid (s.settle gid) := by
  have hN : ∀ n {u}, AllEnded gid u → AllEnded gid (State.settleN gid n u) := by
    intro n
    induction n with
    | zero => exact fun hu => hu
    | succ n ih => exact fun hu => ih hu.settleOnce
  unfold State.settle
  split
  · exact h
  · split
    · exact h
    · exact hN _ h

theorem AllEnded.testGrants (t : Nat) : ∀ (n : Nat) {s : State}, AllEnded gid s → AllEnded gid (State.testGrants t n s)
  | 0, _, h => h
  | n + 1, s, h => by
    unfold State.testGrants
    split
    · exact h
    · exact AllEnded.testGrants t n <| h.modBy fun v =>
        (releaseHeld_kept {} v _ (by simp)).startsNone.trans (raise_startsNone _ _)

theorem AllEnded.releases {w : Wave} (h : AllEnded w.gang s) : AllEnded w.gang (s.releases w) := by
  unfold State.releases
  split
  · exact h.settle.testGrants _ _
  · exact h.settle

theorem AllEnded.settleTracks (h : AllEnded gid s) (ts : List Nat) : AllEnded gid (s.settleTracks ts) := by
  unfold State.settleTracks
  induction ts generalizing s with
  | nil => exact h
  | cons t ts ih => exact ih (h.testGrants t _)

/-- The end of a live gang ends its threads and discards their results. -/
theorem endGang_allEnded {st : GangSt} {g : Gang} (hg : s.gang? gid = some g) (hl : g.st = .live) : AllEnded gid (s.endGang gid st) := by
  obtain ⟨u, ts, he, hu⟩ := endGang_live (st := st) hg hl
  rw [he]
  refine AllEnded.settleTracks (fun v hv hgang => ?_) ts
  obtain ⟨-, -, hend⟩ := endGang_first hg hl hu
  refine ⟨?_, hend v hv hgang⟩
  rw [hu] at hv
  obtain ⟨x, -, rfl⟩ := List.mem_map.mp (show v ∈ s.waves.map _ from hv)
  by_cases hx : (x.gang == gid) = true
  · rw [if_pos hx]
    rfl
  · rw [if_neg hx] at hgang
    exact absurd (by simpa using hgang) hx

end Ended

/-! ## The traps that no handler takes -/

theorem handles_iff (w : Wave) (l : Nat) (t : TrapInfo) : w.handles l t = true ↔ Handled w l t.code := by
  simp [Wave.handles, Handled, validPc_iff]
  tauto

/-- The first thread whose cause enters no handler aborts the gang (R47). -/
theorem takeTraps_abort {s : State} {wid : Nat} {w : Wave} {t : TrapInfo} {ls : List Nat} (hw : s.wave? wid = some w)
    (h : ∃ l ∈ ls, ¬Handled w l t.code) : ∃ l, s.takeTraps wid (ls.map fun l => (l, t)) = s.abortTrap w l t := by
  obtain ⟨l, hl, hn⟩ := h
  unfold State.takeTraps
  rw [hw]
  dsimp only
  cases hf : (ls.map fun l => (l, t)).find? fun x => !(w.handles x.1 x.2) with
  | none =>
    have := List.find?_eq_none.mp hf (l, t) (List.mem_map.mpr ⟨l, hl, rfl⟩)
    exact absurd ((handles_iff w l t).mp (by simpa using this)) hn
  | some x =>
    obtain ⟨k, -, rfl⟩ := List.mem_map.mp (List.mem_of_find?_eq_some hf)
    exact ⟨k, rfl⟩

theorem versioned_modLaunch (s : State) (id : Nat) {f : Launch → Launch} (hid : ∀ l, (f l).id = l.id) (hhdr : ∀ l, (f l).hdr = l.hdr)
    (g : Gang) : (s.modLaunch id f).versioned g = s.versioned g := by
  unfold State.versioned State.launchOf
  rw [launch?_modLaunch hid]
  cases s.launch? g.launch with
  | none => rfl
  | some l =>
    simp only [Option.map_some, Option.getD_some]
    split
    · rw [hhdr]
    · rfl

/-- The note of a feature that the launch's gangs need changes the launches alone, and makes no gang versioned or not (R266). -/
theorem needFeature_spec (s : State) (gid : Nat) (t : TrapInfo) : ∃ ls, s.needFeature gid t = { s with launches := ls } ∧
    ∀ g, ({ s with launches := ls } : State).versioned g = s.versioned g := by
  unfold State.needFeature
  split
  · split
    · exact ⟨_, rfl, versioned_modLaunch s _ (fun _ => rfl) fun _ => rfl⟩
    · exact ⟨s.launches, rfl, fun _ => rfl⟩
  · exact ⟨s.launches, rfl, fun _ => rfl⟩

theorem commitsDone_launches {s : State} {ls : List Launch} {g : Gang}
    (h : ({ s with launches := ls } : State).versioned g = s.versioned g) :
    ({ s with launches := ls } : State).commitsDone g = s.commitsDone g := by
  unfold State.commitsDone
  rw [h]
  rfl

/-- What the abort of a live gang leaves, its held threads released or not. -/
structure AbortLeaves (s : State) (gid : Nat) (g : Gang) (f : GangFault) (t : State) : Prop where
  mem  : t.mem = s.mem
  sect : t.sect = s.sect
  gang : ∃ g', t.gang? gid = some g' ∧ (s.commitsDone g = true → g'.st = .aborted f) ∧
    (s.commitsDone g = false → g'.st = .live ∧ g'.due = g.due.or (some f))
  ended : s.commitsDone g = true → AllEnded gid t

theorem abortGang_leaves {s : State} {gid : Nat} {g : Gang} (f : GangFault) (hg : s.gang? gid = some g) (hl : g.st = .live) :
    AbortLeaves s gid g f (s.abortGang gid f) where
  mem := by rw [(abortGang_step s gid f).rest]
  sect := by rw [(abortGang_step s gid f).rest]
  gang := by
    cases hd : s.commitsDone g with
    | true =>
      rw [abortGang_done hg hd]
      exact ⟨_, (endGang_ends _ hg hl).1, fun _ => rfl, nofun⟩
    | false =>
      rw [abortGang_due hg hd, gang?_due, hg, Option.map_some, if_pos rfl]
      exact ⟨_, rfl, nofun, fun _ => ⟨hl, rfl⟩⟩
  ended hd := by
    rw [abortGang_done hg hd]
    exact endGang_allEnded hg hl

/-- The releases that follow change nothing of it. -/
theorem AbortLeaves.releases {s u : State} {g : Gang} {f : GangFault} {w : Wave} (h : AbortLeaves s w.gang g f u) (wid : Nat) :
    AbortLeaves s w.gang g f (((u.modWave wid Wave.fixLead).freshen).releases w) := by
  have hset := releases_settled ((u.modWave wid Wave.fixLead).freshen) w
  obtain ⟨g', hg', hdone, hdue⟩ := h.gang
  obtain ⟨g'', hg'', hk⟩ := find?_forall₂_key (k := Gang.id) (fun _ _ hk => by rw [hk.1]) hset.gangs
    (show ((u.modWave wid Wave.fixLead).freshen).gang? w.gang = some g' from hg')
  have hst : g''.st = g'.st := by rw [hk.1]
  have hdue' : g''.due = g'.due := by rw [hk.1]
  refine ⟨?_, ?_, ⟨g'', hg'', fun hd => hst.trans (hdone hd), fun hd => ?_⟩, fun hd => ?_⟩
  · rw [hset.rest]
    exact h.mem
  · rw [hset.rest]
    exact h.sect
  · rw [hst, hdue']
    exact hdue hd
  · have hfix : AllEnded w.gang (u.modWave wid Wave.fixLead) := (h.ended hd).modBy fixLead_startsNone
    exact AllEnded.releases (s := (u.modWave wid Wave.fixLead).freshen) hfix

/-- The record of an abort at a trap of lane `l` (R258, R371). -/
def Wave.faultOf (w : Wave) (l : Nat) (t : TrapInfo) : GangFault :=
  { code := t.code, flags := t.flags + (if t.code < 12 && (w.thread l).inHandler then 1 else 0), pc := t.pc
    final := t.code == 9 && wordFeature t.word == some .groom }

theorem abortTrap_eq (s : State) (w : Wave) (l : Nat) (t : TrapInfo) :
    s.abortTrap w l t = (s.needFeature w.gang t).abortGang w.gang (w.faultOf l t) := rfl

/-- A cause that no handler takes aborts the gang, the record naming the cause and the chain's first word (R255, R258). -/
theorem abortTrap_leaves {s : State} {w : Wave} {g : Gang} (l : Nat) (t : TrapInfo) (hg : s.gang? w.gang = some g)
    (hl : g.st = .live) : ∃ f, f.code = t.code ∧ f.pc = t.pc ∧ AbortLeaves s w.gang g f (s.abortTrap w l t) := by
  obtain ⟨ls, hneed, hver⟩ := needFeature_spec s w.gang t
  have h := abortGang_leaves (s := { s with launches := ls }) (w.faultOf l t) hg hl
  refine ⟨w.faultOf l t, rfl, rfl, ?_⟩
  rw [abortTrap_eq, hneed]
  refine ⟨h.mem, h.sect, ?_, ?_⟩
  · rw [← commitsDone_launches (hver g)]
    exact h.gang
  · rw [← commitsDone_launches (hver g)]
    exact h.ended

/-- Settles O32: every thread takes the same trap, the first that no handler takes aborts the gang, and the releases at the end
of the issue start nothing in it. -/
theorem causeAborts : Obligations.CauseAborts := by
  intro s c w i code n g hi h hr hg hl ⟨l, hlane, hn⟩
  obtain ⟨op, step, hex, hcause, hop⟩ := exec_raises hi hr
  obtain ⟨k, m, hrun⟩ := runWord_raised h hcause hop
  have hw : ({ s with cur := none } : State).wave? c.wave = some w := h.wave
  obtain ⟨l', htake⟩ := takeTraps_abort (t := c.raisedTrap code n) hw ⟨l, mem_lanesOf.mpr ⟨lt_of_mask hlane, hlane⟩, hn⟩
  have hend := finishIssue_traps (s := s) (c := c.trapped step (c.raisedTrap code n) k m) h.wave (acting_trapped ..)
    (waiting_trapped ..) h.xlates
  rw [taken_trapped, show (c.trapped step (c.raisedTrap code n) k m).wave = c.wave from rfl, htake] at hend
  obtain ⟨f, hcode, hpc, hab⟩ := abortTrap_leaves (s := { s with cur := none }) l' (c.raisedTrap code n) hg hl
  obtain ⟨hmem, hsect, ⟨g', hg', hdone, hdue⟩, hended⟩ := hab.releases c.wave
  exact ⟨_, g', f, by rw [hex, hrun, hend], hg', hmem, hsect, hcode, hpc, fun hd => ⟨hdone hd, hended hd⟩, hdue⟩

end Sys2Proof.Machine
end

section
/-! Words of the fixed class, their results as the claims name them (R33, R51, R82): `LaneDone.wrote` and `LaneDone.raised` read
registers and flags off `LaneDone`, and a form is one of a few shapes, each with its own lemma. -/

namespace Sys2Proof.Machine
open Sys2Proof.Claims

/-! ## Registers and their numbers (R49, R50) -/

theorem toNat_ofNat {n : Nat} (h : n < 128) : (Reg.ofNat n).toNat = n := by
  unfold Reg.ofNat
  split
  · rfl
  · simp only [Reg.toNat, Fin.val_ofNat]
    omega

/-- A register is uniform from number 96 on. -/
theorem isUni_iff (r : Reg) : r.isUni = true ↔ 96 ≤ r.toNat := by
  cases r with
  | v n => simp [Reg.isUni, Reg.toNat]
  | s n => simp [Reg.isUni, Reg.toNat]

/-- The second register of an aligned pair is another one, of the same kind. -/
theorem second_of_pair {d : Reg} (h : al 2 d = true) :
    Reg.ofNat (d.toNat + 1) ≠ d ∧ ((Reg.ofNat (d.toNat + 1)).isUni = true ↔ d.isUni = true) := by
  have hlt := d.toNat_lt (Nat.le_refl 128)
  simp only [al, beq_iff_eq] at h
  have hn : (Reg.ofNat (d.toNat + 1)).toNat = d.toNat + 1 := toNat_ofNat (by omega)
  refine ⟨fun e => ?_, ?_⟩
  · rw [e] at hn
    omega
  · rw [isUni_iff, isUni_iff, hn]
    omega

/-! ## Lists of writes -/

/-- Where no register is written twice, each holds what the list gives it. -/
theorem written_eq_lookup {ws : List (Reg × Word)} (h : (ws.map Prod.fst).Nodup) (r : Reg) (d : Word) :
    written ws r d = (ws.lookup r).getD d := by
  induction ws generalizing d with
  | nil => rfl
  | cons p ws ih =>
    rw [List.map_cons, List.nodup_cons] at h
    rw [written_cons, List.lookup_cons]
    by_cases e : r = p.1
    · subst e
      simp [written_of_not_mem h.1]
    · rw [beq_eq_false_iff_ne.mpr e, if_neg (Ne.symm e), ih h.2]

/-- The writes of one lane to a destination: none twice, and none to a v register where the destination is uniform (R51). -/
structure WritesOf (u : Bool) (ws : List (Reg × Word)) : Prop where
  nodup : (ws.map Prod.fst).Nodup
  kind  : u = true → ∀ r ∈ ws.map Prod.fst, r.isUni = true

theorem WritesOf.congr {u : Bool} {ws ws' : List (Reg × Word)} (h : WritesOf u ws') (he : ws.map Prod.fst = ws'.map Prod.fst) :
    WritesOf u ws := ⟨he ▸ h.nodup, he ▸ h.kind⟩

theorem WritesOf.nil (u : Bool) : WritesOf u [] := ⟨by simp, by simp⟩

theorem WritesOf.single (d : Reg) (x : Word) : WritesOf d.isUni [(d, x)] := ⟨by simp, by simp⟩

theorem WritesOf.pair {d : Reg} (h : al 2 d = true) (x : DWord) : WritesOf d.isUni (pairWrites d x) := by
  obtain ⟨hne, huni⟩ := second_of_pair h
  refine ⟨by simpa [pairWrites] using Ne.symm hne, fun hu r hr => ?_⟩
  rcases List.mem_pair.mp hr with rfl | rfl
  · exact hu
  · exact huni.mpr hu

theorem WritesOf.lookup_v {ws : List (Reg × Word)} (h : WritesOf true ws) (n : Fin 96) : ws.lookup (.v n) = none := by
  rw [List.lookup_eq_none_iff]
  intro p hp
  have hu := h.kind rfl p.1 (List.mem_map_of_mem hp)
  rw [bne_iff_ne]
  rintro e
  rw [← e] at hu
  cases hu

/-! ## What a fixed-class word leaves -/

theorem lowest_laneBit {l : Nat} (h : l < 32) : lowest (laneBit l) = l := by
  have hbit : (laneBit l).getLsbD l = true := by simp [h]
  have hne : laneBit l ≠ 0 := fun e => by simp [e] at hbit
  have := (lowest_mem hne).2
  simp only [getLsbD_laneBit, Bool.and_eq_true, decide_eq_true_eq] at this
  exact this.2

theorem lowest_computing {m : LaneMask} (hm : m ≠ 0) (i : Instr) : lowest (computing i m) = lowest m := by
  unfold computing
  split
  · exact lowest_laneBit (lowest_mem hm).1
  · rfl

theorem getLsbD_flagsOf (m : LaneMask) (f : Nat → LaneOut) (x : Flags) (b : Nat) :
    (flagsOf m f x).getLsbD b = (x.getLsbD b || (lanesOf m).any fun l => (f l).flags.getLsbD b) := by
  unfold flagsOf
  induction lanesOf m generalizing x with
  | nil => simp
  | cons l ls ih => rw [List.foldl_cons, ih, BitVec.getLsbD_or, List.any_cons, Bool.or_assoc]

theorem flagsOf_of_none {m : LaneMask} {f : Nat → LaneOut} (h : ∀ l, (f l).flags = 0) (x : Flags) : flagsOf m f x = x := by
  simp [flagsOf, h]

section Done
variable {s t : State} {i : Instr} {f : LaneOp} {c : Issue} {w w' : Wave} (h : LaneDone s i f c w t w')
include h

/-- The registers a word writes, given what each lane's list of writes leaves. -/
theorem LaneDone.wrote (hc : c.lanes ≠ 0) {ws : Nat → List (Reg × Word)} {u : Bool} (hu : i.info.dst.any Reg.isUni = u)
    (hw : ∀ l, WritesOf u (ws l)) (hf : ∀ l, c.lanes.getLsbD l = true → (f (s.laneIn w l)).regs = ws l) : Wrote c w w' ws := by
  intro l r
  refine (h.regs l r).imp_left fun e => e.trans ?_
  cases r with
  | v n =>
    simp only [writtenReg]
    cases u with
    | false =>
      simp only [computing, hu, Bool.false_eq_true, if_false]
      split
      · next hl => rw [hf l hl, written_eq_lookup (hw l).nodup]
      · rfl
    | true =>
      simp only [(hw l).lookup_v n, Option.getD_none, ite_self]
      split
      · next hl =>
        have hl := computing_sub hc hl
        rw [hf l hl, written_eq_lookup (hw l).nodup, (hw l).lookup_v n, Option.getD_none]
      · rfl
  | s n =>
    simp only [writtenReg, lowest_computing hc, hf _ (lowest_mem hc).2, written_eq_lookup (hw _).nodup]

theorem LaneDone.regsKept (hr : ∀ x, (f x).regs = []) : RegsKept w w' [] := by
  intro l r _
  refine (h.regs l r).imp_left fun e => e.trans ?_
  cases r with
  | v n => simp [writtenReg, hr]
  | s n => by_cases hn : n = 31 <;> simp [writtenReg, hr, Wave.raw, hn]

theorem LaneDone.genKept (hg : ∀ x, (f x).gen = none) : GenKept c w w' := by
  intro l _
  rw [h.gens l, hg, Option.getD_none, ite_self]

theorem LaneDone.maskKept (hk : ∀ x, (f x).ks = []) : MaskKept w w' := by
  intro k l
  simpa [hk] using h.masks k l

/-- The frame of a word that writes no mask and steps no generator. -/
theorem LaneDone.registerWord (hk : ∀ x, (f x).ks = []) (hg : ∀ x, (f x).gen = none) : RegisterWord s c w t w' :=
  ⟨h.frame, h.goOn, h.genKept hg, h.maskKept hk⟩

theorem LaneDone.xstat_kept (hfl : ∀ x, (f x).flags = 0) : w'.xstat = w.xstat := by
  rw [h.flags, flagsOf_of_none fun l => hfl _]

theorem LaneDone.raised (hc : c.lanes ≠ 0) {d : Reg} (hu : i.info.dst.any Reg.isUni = d.isUni) :
    Raised d c w w' fun l => (f (s.laneIn w l)).flags := by
  intro b
  rw [h.flags, getLsbD_flagsOf]
  congr 1
  rw [Bool.eq_iff_iff, List.any_eq_true, List.any_eq_true]
  refine exists_congr fun l => and_congr_left fun _ => ?_
  rw [computing_of_uni hu hc, mem_lanesOf]
  exact ⟨And.right, fun hl => ⟨lt_of_mask hl, hl⟩⟩

end Done

/-! ## The shapes of the forms -/

/-- A form with no feature that every role may issue (R25, R78). -/
structure Free (i : Instr) : Prop where
  word : Instr.isUnimpl i = false
  role : i.info.role = .all
  feat : i.info.feat = none

theorem Free.allowed {s : State} {i : Instr} {w : Wave} (hi : Free i) (hreg : illReg i w = false) : Allowed s i w :=
  allowed_of hi.word (by rw [hi.role]; rfl) hi.feat hreg

/-- A form whose meaning is `f` in each lane. -/
structure LaneForm (i : Instr) (f : LaneOp) : Prop extends Free i where
  exec : ∀ s, exec i s = runLane i f s

/-- A form that gives `d` the value `g`. -/
structure SingleForm (i : Instr) (d : Reg) (g : LaneIn → Word) : Prop extends LaneForm i fun x => { regs := [(d, g x)] } where
  dst : i.info.dst = [d]

/-- A form whose computation is written otherwise in the model, with the same result. -/
theorem SingleForm.of {i : Instr} {d : Reg} {g g' : LaneIn → Word} (h : SingleForm i d g') (hg : ∀ x, g' x = g x) : SingleForm i d g :=
  funext hg ▸ h

theorem LaneForm.done {s : State} {c : Issue} {w : Wave} {i : Instr} {f : LaneOp} (hf : LaneForm i f) (h : Issuing s c w)
    (hreg : illReg i w = false) : ∃ t w', Machine.exec i s = .next t ∧ LaneDone s i f c w t w' := by
  obtain ⟨t, w', hrun, hd⟩ := runLane_done (f := f) h (hf.allowed hreg)
  exact ⟨t, w', (hf.exec s).trans hrun, hd⟩

theorem SingleForm.results {s : State} {c : Issue} {w : Wave} {i : Instr} {d : Reg} {g : LaneIn → Word} (hf : SingleForm i d g)
    (h : Issuing s c w) (hreg : illReg i w = false) :
    ∃ t w', Machine.exec i s = .next t ∧ RegisterWord s c w t w' ∧ w'.xstat = w.xstat ∧
      Wrote c w w' fun l => [(d, g (s.laneIn w l))] := by
  obtain ⟨t, w', hex, hd⟩ := hf.done h hreg
  exact ⟨t, w', hex, hd.registerWord (fun _ => rfl) fun _ => rfl, hd.xstat_kept fun _ => rfl,
    hd.wrote h.lanes (by simp [hf.dst]) (fun _ => .single d _) fun _ _ => rfl⟩

end Sys2Proof.Machine
end

section
/-! The integer results (R83 to R89, R160, R165): what the model computes is what the spec's rows say, word by word. -/

namespace Sys2Proof.Machine
open Sys2Proof.Claims

/-! ## Sums, products and orders (R83) -/

theorem ofInt_toInt_add {n : Nat} (x y : BitVec n) : BitVec.ofInt n (x.toInt + y.toInt) = x + y := by
  rw [BitVec.ofInt_add, BitVec.ofInt_toInt, BitVec.ofInt_toInt]

theorem ofInt_toInt_sub {n : Nat} (x y : BitVec n) : BitVec.ofInt n (x.toInt - y.toInt) = x - y := by
  rw [Int.sub_eq_add_neg, BitVec.ofInt_add, BitVec.ofInt_neg, BitVec.ofInt_toInt, BitVec.ofInt_toInt, BitVec.sub_eq_add_neg]

theorem signExtend_mul_signExtend (x y : Word) : x.signExtend 64 * y.signExtend 64 = BitVec.ofInt 64 (x.toInt * y.toInt) := by
  rw [BitVec.ofInt_mul]; rfl

theorem mulhi_signed (x y : Word) :
    BitVec.ofInt 32 (x.toInt * y.toInt / 2 ^ 32) = (x.signExtend 64 * y.signExtend 64).extractLsb' 32 32 := by
  rw [signExtend_mul_signExtend]
  generalize x.toInt * y.toInt = z
  apply BitVec.eq_of_toNat_eq
  simp only [BitVec.extractLsb'_toNat, BitVec.toNat_ofInt, Nat.shiftRight_eq_div_pow]
  omega

theorem mulhi_unsigned (x y : Word) :
    BitVec.ofNat 32 (x.toNat * y.toNat / 2 ^ 32) = (x.setWidth 64 * y.setWidth 64).extractLsb' 32 32 := by
  have hxy := Nat.mul_lt_mul'' x.isLt y.isLt
  apply BitVec.eq_of_toNat_eq
  simp only [BitVec.extractLsb'_toNat, BitVec.toNat_mul, BitVec.toNat_setWidth, BitVec.toNat_ofNat, Nat.shiftRight_eq_div_pow]
  rw [Nat.mod_eq_of_lt (a := x.toNat) (by omega), Nat.mod_eq_of_lt (a := y.toNat) (by omega),
    Nat.mod_eq_of_lt (a := x.toNat * y.toNat) (by omega)]

/-- The smaller and the larger of two words by a strict order, as by the order itself. -/
theorem ite_slt {n : Nat} (x y : BitVec n) : (if x.slt y then x else y) = if x.toInt ≤ y.toInt then x else y := by
  simp only [BitVec.slt, decide_eq_true_eq]
  rcases Int.lt_trichotomy x.toInt y.toInt with h | h | h
  · rw [if_pos h, if_pos (Int.le_of_lt h)]
  · rw [BitVec.eq_of_toInt_eq h, ite_self, ite_self]
  · rw [if_neg (by omega), if_neg (by omega)]

theorem ite_slt_swap {n : Nat} (x y : BitVec n) : (if x.slt y then y else x) = if x.toInt ≤ y.toInt then y else x := by
  simp only [BitVec.slt, decide_eq_true_eq]
  rcases Int.lt_trichotomy x.toInt y.toInt with h | h | h
  · rw [if_pos h, if_pos (Int.le_of_lt h)]
  · rw [BitVec.eq_of_toInt_eq h, ite_self, ite_self]
  · rw [if_neg (by omega), if_neg (by omega)]

theorem ite_ult (x y : Word) : (if x.ult y then x else y) = if x.toNat ≤ y.toNat then x else y := by
  simp only [BitVec.ult, decide_eq_true_eq]
  rcases Nat.lt_trichotomy x.toNat y.toNat with h | h | h
  · rw [if_pos h, if_pos (Nat.le_of_lt h)]
  · rw [BitVec.eq_of_toNat_eq h, ite_self, ite_self]
  · rw [if_neg (by omega), if_neg (by omega)]

theorem ite_ult_swap (x y : Word) : (if x.ult y then y else x) = if x.toNat ≤ y.toNat then y else x := by
  simp only [BitVec.ult, decide_eq_true_eq]
  rcases Nat.lt_trichotomy x.toNat y.toNat with h | h | h
  · rw [if_pos h, if_pos (Nat.le_of_lt h)]
  · rw [BitVec.eq_of_toNat_eq h, ite_self, ite_self]
  · rw [if_neg (by omega), if_neg (by omega)]

theorem absd_signed (x y : Word) : BitVec.ofNat 32 (x.toInt - y.toInt).natAbs = if x.toInt ≤ y.toInt then y - x else x - y := by
  rw [← BitVec.ofInt_natCast, ← ofInt_toInt_sub, ← ofInt_toInt_sub, ← apply_ite (BitVec.ofInt 32)]
  congr 1
  split <;> omega

theorem absd_unsigned (x y : Word) :
    BitVec.ofNat 32 ((x.toNat : Int) - y.toNat).natAbs = if x.toNat ≤ y.toNat then y - x else x - y := by
  have hx := x.isLt
  have hy := y.isLt
  apply BitVec.eq_of_toNat_eq
  split <;> simp only [BitVec.toNat_ofNat, BitVec.toNat_sub] <;> omega

theorem average (x y : Word) :
    BitVec.ofNat 32 ((x.toNat + y.toNat + 1) / 2) = ((x.setWidth 33 + y.setWidth 33 + 1) >>> 1).setWidth 32 := by
  have hx := x.isLt
  have hy := y.isLt
  apply BitVec.eq_of_toNat_eq
  simp [BitVec.toNat_add, Nat.shiftRight_eq_div_pow]
  omega

/-! ## Shifts (R87) -/

theorem toNat_and_31 (y : Word) : (y &&& 31#32).toNat = count5 y := Nat.and_two_pow_sub_one_eq_mod y.toNat 5

theorem shiftLeft_count5 (x y : Word) : x <<< count5 y = x <<< (y &&& 31#32) := by rw [BitVec.shiftLeft_eq', toNat_and_31]

theorem shiftRight_count5 (x y : Word) : x >>> count5 y = x >>> (y &&& 31#32) := by rw [BitVec.ushiftRight_eq', toNat_and_31]

theorem sshiftRight_eq_ofInt {n : Nat} (x : BitVec n) (k : Nat) : x.sshiftRight k = BitVec.ofInt n (x.toInt / 2 ^ k) := by
  rw [BitVec.sshiftRight, Int.shiftRight_eq_div_pow]
  norm_cast

theorem rotateLeft_eq (x : Word) {n : Nat} (h : n < 32) : x.rotateLeft n = (x <<< n) ||| (x >>> (32 - n)) := by
  rw [BitVec.rotateLeft, BitVec.rotateLeftAux, Nat.mod_eq_of_lt h]

theorem rotateRight_eq (x : Word) {n : Nat} (h : n < 32) : x.rotateRight n = (x >>> n) ||| (x <<< (32 - n)) := by
  rw [BitVec.rotateRight, BitVec.rotateRightAux, Nat.mod_eq_of_lt h]

theorem count5_lt (y : Word) : count5 y < 32 := Nat.mod_lt _ (by decide)

theorem funnelL_eq (z x : Word) (n : Nat) : funnelL z x n = ((z ++ x : DWord) <<< n).extractLsb' 32 32 := by
  apply BitVec.eq_of_toNat_eq
  simp only [funnelL, BitVec.toNat_ofNat, BitVec.extractLsb'_toNat, BitVec.toNat_shiftLeft, toNat_words, Nat.shiftRight_eq_div_pow,
    Nat.shiftLeft_eq]
  rw [Nat.mul_comm z.toNat, Nat.add_comm (2 ^ 32 * _)]
  generalize (x.toNat + 2 ^ 32 * z.toNat) * 2 ^ n = m
  omega

theorem funnelR_eq (z x : Word) (n : Nat) : funnelR z x n = ((x ++ z : DWord) >>> n).extractLsb' 0 32 := by
  apply BitVec.eq_of_toNat_eq
  simp only [funnelR, BitVec.toNat_ofNat, BitVec.extractLsb'_toNat, BitVec.toNat_ushiftRight, toNat_words, Nat.shiftRight_eq_div_pow]
  rw [Nat.mul_comm x.toNat, Nat.add_comm (2 ^ 32 * _), Nat.pow_zero, Nat.div_one]

/-! ## Counts (R88) -/

/-- The zeros before the first one of a list of bits. -/
theorem length_takeWhile_not {n k : Nat} {f : Nat → Bool} (hk : k < n) (h1 : f k = true) (h0 : ∀ j < k, f j = false) :
    (((List.range n).map f).takeWhile (!·)).length = k := by
  have hidx : ((List.range n).map f).findIdx (fun a => !!a) = k := by
    rw [List.findIdx_eq (by simpa using hk)]
    simpa [h1] using h0
  rw [List.takeWhile_eq_take_findIdx_not, hidx, List.length_take, List.length_map, List.length_range, Nat.min_eq_left (Nat.le_of_lt hk)]

theorem length_takeWhile_not_zero {n : Nat} {f : Nat → Bool} (h0 : ∀ j < n, f j = false) :
    (((List.range n).map f).takeWhile (!·)).length = n := by
  rw [List.takeWhile_eq_self_iff.mpr (by simpa using h0), List.length_map, List.length_range]

theorem popcount_eq (x : Word) : popcount x = ((List.range 32).filter fun i => x.getLsbD i).length := by
  rw [popcount, bitsOf, List.countP_map, List.countP_eq_length_filter]
  rfl

theorem reverse_bitsOf (x : Word) : (bitsOf x).reverse = (List.range 32).map fun i => x.getLsbD (31 - i) := by
  apply List.ext_getElem
  · simp [bitsOf]
  · simp [bitsOf]

theorem leading_eq (x : Word) : BitVec.ofNat 32 (leading x) = if x = 0 then 32 else BitVec.ofNat 32 (31 - Nat.log2 x.toNat) := by
  rw [leading, reverse_bitsOf]
  split
  · next h => rw [h, length_takeWhile_not_zero (by simp)]; rfl
  · next h =>
    have hx : x.toNat ≠ 0 := fun e => h (BitVec.eq_of_toNat_eq e)
    have hlog : Nat.log2 x.toNat < 32 := (Nat.log2_lt hx).mpr x.isLt
    rw [length_takeWhile_not (k := 31 - Nat.log2 x.toNat) (by omega)]
    · rw [show 31 - (31 - Nat.log2 x.toNat) = Nat.log2 x.toNat by omega]
      exact Nat.testBit_log2 hx
    · intro j hj
      exact Nat.testBit_lt_two_pow (Nat.lt_of_lt_of_le Nat.lt_log2_self (Nat.pow_le_pow_right (by decide) (by omega)))

/-- The lowest set bit of a word alone. -/
theorem and_neg_of_lowest {x : Word} {k : Nat} (h1 : x.getLsbD k = true) (h0 : ∀ j < k, x.getLsbD j = false) :
    x &&& -x = BitVec.twoPow 32 k := by
  apply BitVec.eq_of_getLsbD_eq
  intro i hi
  rw [BitVec.getLsbD_and, BitVec.getLsbD_neg, BitVec.getLsbD_twoPow]
  rcases Nat.lt_trichotomy i k with h | rfl | h
  · simp [h0 i h, Nat.ne_of_gt h]
  · have hn : ¬∃ j < i, x.getLsbD j = true := fun ⟨j, hj, e⟩ => by simp [h0 j hj] at e
    simp [h1, hn, hi]
  · have hs : ∃ j < i, x.getLsbD j = true := ⟨k, h, h1⟩
    simp [hs, hi, Nat.ne_of_lt h]

theorem trailing_eq (x : Word) :
    BitVec.ofNat 32 (trailing x) = if x = 0 then 32 else BitVec.ofNat 32 (Nat.log2 (x &&& -x).toNat) := by
  rw [trailing, bitsOf]
  split
  · next h => rw [h, length_takeWhile_not_zero (by simp)]; rfl
  · next h =>
    have hex : ∃ k, x.getLsbD k = true := by
      by_contra hn
      exact h (laneMask_ext fun l _ => by simpa using fun e => hn ⟨l, e⟩)
    have h1 := Nat.find_spec hex
    have h0 : ∀ j < Nat.find hex, x.getLsbD j = false := fun j hj => by simpa using Nat.find_min hex hj
    have hlt := lt_of_mask h1
    rw [length_takeWhile_not hlt h1 h0, and_neg_of_lowest h1 h0, BitVec.toNat_twoPow_of_lt hlt, Nat.log2_two_pow]

theorem reverseBits_eq (x : Word) : reverseBits x = x.reverse := by
  apply BitVec.eq_of_getLsbD_eq
  intro i hi
  rw [reverseBits, getLsbD_maskBy, BitVec.getLsbD_reverse, BitVec.getMsbD]

theorem swapBytes_eq (x : Word) :
    swapBytes x = x.extractLsb' 0 8 ++ x.extractLsb' 8 8 ++ x.extractLsb' 16 8 ++ x.extractLsb' 24 8 := by
  apply BitVec.eq_of_getLsbD_eq
  intro i hi
  refine Eq.trans ?_ BitVec.getLsbD_append.symm
  simp only [BitVec.getLsbD_append]
  interval_cases i <;> simp [swapBytes]

/-! ## Bit fields (R88) -/

/-- The `n` low bits set. -/
def ones (n : Nat) : Word := BitVec.ofNat 32 (2 ^ n - 1)

theorem two_pow_le_word {n : Nat} (h : n ≤ 32) : 2 ^ n ≤ 2 ^ 32 := Nat.pow_le_pow_right (by decide) h

theorem toNat_ones {n : Nat} (h : n ≤ 32) : (ones n).toNat = 2 ^ n - 1 := by
  have := two_pow_le_word h
  have := Nat.two_pow_pos n
  rw [ones, BitVec.toNat_ofNat, Nat.mod_eq_of_lt (by omega)]

/-- The mask of a field, as the spec's row writes it for a field of 32 bits. -/
theorem ite_allOnes (n : Nat) : (if n = 32 then BitVec.allOnes 32 else BitVec.ofNat 32 (2 ^ n - 1)) = ones n := by
  split
  · next h => subst h; rfl
  · rfl

theorem toNat_and_ones (x : Word) {n : Nat} (h : n ≤ 32) : (x &&& ones n).toNat = x.toNat % 2 ^ n := by
  rw [BitVec.toNat_and, toNat_ones h, Nat.and_two_pow_sub_one_eq_mod]

theorem ofNat_mul_two_pow (m n : Nat) : BitVec.ofNat 32 (m * 2 ^ n) = BitVec.ofNat 32 m <<< n := by
  apply BitVec.eq_of_toNat_eq
  simp [Nat.shiftLeft_eq]

theorem fieldLen_le (y : Word) : fieldLen y ≤ 32 := Nat.min_le_right ..

theorem insertField_eq (z x y : Word) :
    insertField z x y = (z &&& ~~~(ones (fieldLen y) <<< fieldPos y)) ||| ((x &&& ones (fieldLen y)) <<< fieldPos y) := by
  have hx : BitVec.ofNat 32 (x.toNat % 2 ^ fieldLen y) = x &&& ones (fieldLen y) := by
    rw [← toNat_and_ones x (fieldLen_le y), BitVec.ofNat_toNat, BitVec.setWidth_eq]
  simp only [insertField, ofNat_mul_two_pow, hx]
  rfl

/-- The bits of a field, as a number and as a word. -/
theorem field_toNat (x y : Word) :
    ((x >>> fieldPos y) &&& ones (fieldLen y)).toNat = x.toNat / 2 ^ fieldPos y % 2 ^ fieldLen y := by
  rw [toNat_and_ones _ (fieldLen_le y), BitVec.toNat_ushiftRight, Nat.shiftRight_eq_div_pow]

/-- The top bit of a number of `n + 1` bits. -/
theorem testBit_top {m n : Nat} (h : m < 2 ^ (n + 1)) : m.testBit n = decide (2 ^ n ≤ m) := by
  by_cases hm : 2 ^ n ≤ m
  · rw [decide_eq_true hm]
    exact Nat.testBit_of_two_pow_le_and_two_pow_add_one_gt hm h
  · rw [decide_eq_false hm, Nat.testBit_lt_two_pow (Nat.lt_of_not_le hm)]

/-- A field of a word with every higher bit set. -/
theorem or_not_ones {f : Word} {n : Nat} (hn : n ≤ 32) (hf : f.toNat < 2 ^ n) :
    f ||| ~~~ones n = BitVec.ofNat 32 (2 ^ 32 + f.toNat - 2 ^ n) := by
  have hle := two_pow_le_word hn
  have hand : f &&& ones n = f := by
    apply BitVec.eq_of_toNat_eq
    rw [toNat_and_ones f hn, Nat.mod_eq_of_lt hf]
  have hdisj : f &&& ~~~ones n = 0#32 := by
    rw [← hand, BitVec.and_assoc, BitVec.and_not_self]
    exact BitVec.and_zero
  rw [← BitVec.add_eq_or_of_and_eq_zero _ _ hdisj]
  apply BitVec.eq_of_toNat_eq
  rw [BitVec.toNat_add, BitVec.toNat_not, toNat_ones hn, BitVec.toNat_ofNat]
  congr 1
  omega

theorem extractField_eq (x y : Word) :
    extractField x y =
      if fieldLen y = 0 then 0
      else if y.getLsbD 15 && ((x >>> fieldPos y) &&& ones (fieldLen y)).getLsbD (fieldLen y - 1) then
        ((x >>> fieldPos y) &&& ones (fieldLen y)) ||| ~~~ones (fieldLen y)
      else (x >>> fieldPos y) &&& ones (fieldLen y) := by
  have hlen := fieldLen_le y
  have hf := field_toNat x y
  have hlt : x.toNat / 2 ^ fieldPos y % 2 ^ fieldLen y < 2 ^ fieldLen y := Nat.mod_lt _ (Nat.two_pow_pos _)
  simp only [extractField, beq_iff_eq]
  split
  · rfl
  · next h0 =>
    have htop : ((x >>> fieldPos y) &&& ones (fieldLen y)).getLsbD (fieldLen y - 1) =
        decide (2 ^ (fieldLen y - 1) ≤ x.toNat / 2 ^ fieldPos y % 2 ^ fieldLen y) := by
      rw [BitVec.getLsbD, hf, testBit_top]
      rwa [Nat.sub_add_cancel (Nat.pos_of_ne_zero h0)]
    rw [htop, fieldSx, ← hf]
    split
    · rw [or_not_ones hlen (hf ▸ hlt)]
    · rw [BitVec.ofNat_toNat, BitVec.setWidth_eq]

/-! ## Immediates (R53, R89) -/

theorem ofInt_add_imm (x : Word) (i : BitVec 10) : BitVec.ofInt 32 (x.toInt + i.toInt) = x + i.signExtend 32 := by
  rw [BitVec.ofInt_add, BitVec.ofInt_toInt]; rfl

theorem ofInt_mul_imm (x : Word) (i : BitVec 10) : BitVec.ofInt 32 (x.toInt * i.toInt) = x * i.signExtend 32 := by
  rw [BitVec.ofInt_mul, BitVec.ofInt_toInt]; rfl

theorem lih_eq (x : Word) (i : BitVec 17) : (x &&& 0x7FFF#32) ||| (i.setWidth 32 <<< 15) = i ++ x.extractLsb' 0 15 := by
  apply BitVec.eq_of_getLsbD_eq
  intro n hn
  refine Eq.trans ?_ BitVec.getLsbD_append.symm
  interval_cases n <;> simp

/-! ## Bytes (R160, R165) -/

theorem pkb_eq (z x y : Word) :
    (z <<< 16) ||| ((y &&& 0xFF#32) <<< 8) ||| (x &&& 0xFF#32) = z.extractLsb' 0 16 ++ y.extractLsb' 0 8 ++ x.extractLsb' 0 8 := by
  apply BitVec.eq_of_getLsbD_eq
  intro n hn
  refine Eq.trans ?_ BitVec.getLsbD_append.symm
  simp only [BitVec.getLsbD_append]
  interval_cases n <;> simp

theorem intOf_elem (x : Word) (k : Nat) : intOf true 8 (elem x 8 k) = (x.extractLsb' (8 * k) 8).toInt := by
  have hlt := (x.extractLsb' (8 * k) 8).isLt
  have helem : elem x 8 k = (x.extractLsb' (8 * k) 8).toNat := by
    rw [elem, BitVec.extractLsb'_toNat, Nat.shiftRight_eq_div_pow]
  rw [helem, intOf, Nat.mod_eq_of_lt hlt, BitVec.toInt_eq_toNat_cond]
  simp only [Bool.true_and, decide_eq_true_eq]
  split <;> split <;> omega

theorem dp4_eq (z x y : Word) :
    z + BitVec.ofInt 32 ((List.range 4).foldl (fun s k => s + intOf true 8 (elem x 8 k) * intOf true 8 (elem y 8 k)) 0) =
      z + (x.extractLsb' 0 8).signExtend 32 * (y.extractLsb' 0 8).signExtend 32 +
        (x.extractLsb' 8 8).signExtend 32 * (y.extractLsb' 8 8).signExtend 32 +
        (x.extractLsb' 16 8).signExtend 32 * (y.extractLsb' 16 8).signExtend 32 +
        (x.extractLsb' 24 8).signExtend 32 * (y.extractLsb' 24 8).signExtend 32 := by
  simp only [List.range_succ, List.range_zero, List.nil_append, List.foldl_append, List.foldl_cons, List.foldl_nil, intOf_elem,
    BitVec.ofInt_add, BitVec.ofInt_mul, BitVec.signExtend]
  simp [BitVec.add_assoc]

end Sys2Proof.Machine
end

section
/-! O1 and O2: the integer, logic, shift and field forms, the pair forms and the saturating forms (R83 to R89, R160, R165). -/

namespace Sys2Proof.Machine
open Sys2Proof.Claims

/-! ## Forms with one destination register -/

/-- The two-source forms compute what their rows say of A and B. -/
theorem twoSource_single {i : Instr} {d a b : Reg} {f : Word → Word → Word} (h : twoSource i = some (d, a, b, f)) :
    SingleForm i d fun x => f (x.rd a) (x.rd b) := by
  suffices hs : ∃ g, SingleForm i d g ∧ ∀ x, g x = f (x.rd a) (x.rd b) by
    obtain ⟨g, hg, he⟩ := hs
    exact hg.of he
  cases i <;> cases h <;> refine ⟨_, ⟨⟨⟨rfl, rfl, rfl⟩, fun _ => rfl⟩, rfl⟩, fun x => ?_⟩
  case mullo | and | or | xor | andn | orn | xnor => rfl
  case add => exact (ofInt_toInt_add _ _).symm
  case sub => exact (ofInt_toInt_sub _ _).symm
  case mulhiI => exact mulhi_signed _ _
  case mulhiN => exact mulhi_unsigned _ _
  case minI => exact ite_slt _ _
  case maxI => exact ite_slt_swap _ _
  case minN => exact ite_ult _ _
  case maxN => exact ite_ult_swap _ _
  case absdI => exact absd_signed _ _
  case absdN => exact absd_unsigned _ _
  case avgN => exact average _ _
  case nand => exact BitVec.not_and
  case nor => exact BitVec.not_or
  case shl => exact shiftLeft_count5 _ _
  case shr => exact shiftRight_count5 _ _
  case sar => exact sshiftRight_eq_ofInt _ _
  case rol => exact rotateLeft_eq _ (count5_lt _)
  case ror => exact rotateRight_eq _ (count5_lt _)
  case bfx =>
    simp only [extractField_eq, ite_allOnes]
    rfl

/-- The one-source and immediate forms compute what their rows say of A. -/
theorem oneSource_single {i : Instr} {d a : Reg} {f : Word → Word} (h : oneSource i = some (d, a, f)) :
    SingleForm i d fun x => f (x.rd a) := by
  suffices hs : ∃ g, SingleForm i d g ∧ ∀ x, g x = f (x.rd a) by
    obtain ⟨g, hg, he⟩ := hs
    exact hg.of he
  cases i
  case shi d a o n =>
    cases o <;> cases h <;> refine ⟨_, ⟨⟨⟨rfl, rfl, rfl⟩, fun _ => rfl⟩, rfl⟩, fun x => ?_⟩
    case shl | shr => rfl
    case sar => exact sshiftRight_eq_ofInt _ _
    case rol => exact rotateLeft_eq _ n.isLt
  all_goals cases h <;> refine ⟨_, ⟨⟨⟨rfl, rfl, rfl⟩, fun _ => rfl⟩, rfl⟩, fun x => ?_⟩
  case andi | ori | xori | li => rfl
  case popc => exact congrArg (BitVec.ofNat 32) (popcount_eq _)
  case clz => exact leading_eq _
  case ctz => exact trailing_eq _
  case brev => exact reverseBits_eq _
  case bswap => exact swapBytes_eq _
  case addi => exact (ofInt_add_imm _ _).symm
  case muli => exact (ofInt_mul_imm _ _).symm
  case lih => exact lih_eq _ _

/-- The forms that read d as a third source compute what their rows say of D, A and B. -/
theorem threeSource_single {i : Instr} {d a b : Reg} {f : Word → Word → Word → Word} (h : threeSource i = some (d, a, b, f)) :
    SingleForm i d fun x => f (x.rd d) (x.rd a) (x.rd b) := by
  suffices hs : ∃ g, SingleForm i d g ∧ ∀ x, g x = f (x.rd d) (x.rd a) (x.rd b) by
    obtain ⟨g, hg, he⟩ := hs
    exact hg.of he
  cases i <;> cases h <;> refine ⟨_, ⟨⟨⟨rfl, rfl, rfl⟩, fun _ => rfl⟩, rfl⟩, fun x => ?_⟩
  case fshl => exact funnelL_eq _ _ _
  case fshr => exact funnelR_eq _ _ _
  case bfi =>
    simp only [insertField_eq, ite_allOnes]
    rfl
  case dp4I8 => exact dp4_eq _ _ _
  case pkb => exact pkb_eq _ _ _

/-- The word of a form of format RRR is that of its fixed bits and its registers (R52). -/
theorem form_rrr (major fn : Nat) (d a b : Reg) :
    form (major * 2 ^ 24 + fn * 2 ^ 21) (put 14 d.toNat (put 7 a.toNat (put 0 b.toNat 0))) = rrrWord major fn d a b := by
  simp only [form, put, rrrWord]
  omega

/-- Settles O1: each table's forms are `SingleForm`s, and the words are those of format RRR. -/
theorem integerResults : Obligations.IntegerResults := by
  refine ⟨fun s c w i d a b f hf _ h hreg => (twoSource_single hf).results h hreg,
    fun s c w i d a f hf _ h hreg => (oneSource_single hf).results h hreg,
    fun s c w i d a b f hf _ h hreg => (threeSource_single hf).results h hreg, fun fn f hf d a b => ?_⟩
  obtain ⟨hlt, rfl⟩ := List.getElem?_eq_some_iff.mp hf
  rw [← form_rrr]
  match fn, hlt with
  | 0, _ | 1, _ | 2, _ | 3, _ | 4, _ | 5, _ | 6, _ | 7, _ => rfl

/-! ## Forms on pairs -/

theorem pair_laneIn (s : State) (w : Wave) (l : Nat) (r : Reg) : pair (s.laneIn w l).rd r = rd64 s w l r := by
  rw [pair, wide_pair, BitVec.ofNat_toNat, BitVec.setWidth_eq]

/-- A form that gives the pair at `d` the value `g` (R50, R85). -/
structure PairForm (i : Instr) (d : Reg) (g : LaneIn → DWord) : Prop extends LaneForm i fun x => { regs := spread 2 d (g x).toNat } where
  dst : i.info.dst = regs 2 d
  al  : al 2 d = true

theorem PairForm.of {i : Instr} {d : Reg} {g g' : LaneIn → DWord} (h : PairForm i d g') (hg : ∀ x, g' x = g x) : PairForm i d g :=
  funext hg ▸ h

theorem PairForm.results {s : State} {c : Issue} {w : Wave} {i : Instr} {d : Reg} {g : LaneIn → DWord} (hf : PairForm i d g)
    (h : Issuing s c w) (hreg : illReg i w = false) :
    ∃ t w', Machine.exec i s = .next t ∧ RegisterWord s c w t w' ∧ w'.xstat = w.xstat ∧
      Wrote c w w' fun l => pairWrites d (g (s.laneIn w l)) := by
  obtain ⟨t, w', hex, hd⟩ := hf.done h hreg
  exact ⟨t, w', hex, hd.registerWord (fun _ => rfl) fun _ => rfl, hd.xstat_kept fun _ => rfl,
    hd.wrote h.lanes (by rw [hf.dst, any_isUni_regs_two hf.al]) (fun _ => .pair hf.al _) fun _ _ => spread_pair _⟩

/-- The words of a number in one register or in a pair (R50). -/
theorem spread_writesOf {k : Nat} {d : Reg} (hk : k = 1 ∨ k = 2) (hal : al k d = true) :
    (regs k d).any Reg.isUni = d.isUni ∧ ∀ x, WritesOf d.isUni (spread k d x) := by
  rcases hk with rfl | rfl
  · exact ⟨by simp [regs, ofNat_toNat], fun x => by simpa [spread, ofNat_toNat] using WritesOf.single d _⟩
  · exact ⟨any_isUni_regs_two hal, fun x => (WritesOf.pair hal 0).congr (by simp [spread, pairWrites, List.range_succ, ofNat_toNat])⟩

/-- The operands' fields have the shape that the form demands (R50). -/
theorem shapeOk_of_wellFormed {i : Instr} (h : i.wellFormed = true) : i.info.shapeOk = true := by
  simp only [Instr.wellFormed, Bool.and_eq_true] at h
  exact h.1.1

theorem pairSource_pair {i : Instr} {d a b : Reg} {f : DWord → DWord → DWord} (h : pairSource i = some (d, a, b, f))
    (hwf : i.wellFormed = true) : PairForm i d fun x => f (pair x.rd a) (pair x.rd b) := by
  have hshape := shapeOk_of_wellFormed hwf
  suffices hs : ∃ g, PairForm i d g ∧ ∀ x, g x = f (pair x.rd a) (pair x.rd b) by
    obtain ⟨g, hg, he⟩ := hs
    exact hg.of he
  cases i <;> cases h <;> simp only [Instr.info, Bool.and_eq_true] at hshape <;>
    refine ⟨_, ⟨⟨⟨rfl, rfl, rfl⟩, fun _ => rfl⟩, rfl, hshape.1.1⟩, fun x => ?_⟩
  case add64 | sub64 | mul64 => rfl
  case min64 => exact ite_slt _ _
  case max64 => exact ite_slt_swap _ _

theorem pairShift_pair {i : Instr} {d a b : Reg} {f : DWord → Nat → DWord} (h : pairShift i = some (d, a, b, f))
    (hwf : i.wellFormed = true) : PairForm i d fun x => f (pair x.rd a) ((x.rd b).toNat % 64) := by
  have hshape := shapeOk_of_wellFormed hwf
  suffices hs : ∃ g, PairForm i d g ∧ ∀ x, g x = f (pair x.rd a) ((x.rd b).toNat % 64) by
    obtain ⟨g, hg, he⟩ := hs
    exact hg.of he
  cases i <;> cases h <;> simp only [Instr.info, Bool.and_eq_true] at hshape <;>
    refine ⟨_, ⟨⟨⟨rfl, rfl, rfl⟩, fun _ => rfl⟩, rfl, hshape.1⟩, fun x => ?_⟩
  case shl64 | shr64 => rfl
  case sar64 => exact sshiftRight_eq_ofInt _ _

/-! ## Saturating forms (R84) -/

theorem clampWord_fst {lo hi : Int} (h : lo ≤ hi) (v : Int) : (clampWord lo hi v).1 = BitVec.ofInt 32 (max lo (min hi v)) := by
  unfold clampWord
  split
  · rw [max_eq_left (by omega)]
  · split
    · rw [min_eq_left (by omega), max_eq_right h]
    · rw [min_eq_right (by omega), max_eq_right (by omega)]

theorem clampWord_snd (lo hi v : Int) : (clampWord lo hi v).2 = if v < lo ∨ hi < v then flagSA else 0 := by
  unfold clampWord
  split
  · simp [*]
  · split <;> simp [*]

/-- A form that clamps the exact result `g` to a range. -/
structure ClampForm (i : Instr) (d : Reg) (lo hi : Int) (g : LaneIn → Int) : Prop
    extends LaneForm i fun x => { regs := [(d, (clampWord lo hi (g x)).1)], flags := (clampWord lo hi (g x)).2 } where
  dst   : i.info.dst = [d]
  range : lo ≤ hi

theorem saturating_clamp {i : Instr} {d a b : Reg} {f : Word → Word → Int} {lo hi : Int}
    (h : saturating i = some (d, a, b, f, lo, hi)) : ClampForm i d lo hi fun x => f (x.rd a) (x.rd b) := by
  cases i <;> cases h <;> exact ⟨⟨⟨rfl, rfl, rfl⟩, fun _ => rfl⟩, rfl, by decide⟩

theorem ClampForm.results {s : State} {c : Issue} {w : Wave} {i : Instr} {d : Reg} {lo hi : Int} {g : LaneIn → Int}
    (hf : ClampForm i d lo hi g) (h : Issuing s c w) (hreg : illReg i w = false) :
    ∃ t w', Machine.exec i s = .next t ∧ RegisterWord s c w t w' ∧
      (Wrote c w w' fun l => [(d, BitVec.ofInt 32 (max lo (min hi (g (s.laneIn w l)))))]) ∧
      Raised d c w w' fun l => if g (s.laneIn w l) < lo ∨ hi < g (s.laneIn w l) then flagSA else 0 := by
  have hu : i.info.dst.any Reg.isUni = d.isUni := by simp [hf.dst]
  obtain ⟨t, w', hex, hd⟩ := hf.done h hreg
  refine ⟨t, w', hex, hd.registerWord (fun _ => rfl) fun _ => rfl, ?_, ?_⟩
  · simp only [← clampWord_fst hf.range]
    exact hd.wrote h.lanes hu (fun _ => .single d _) fun _ _ => rfl
  · simp only [← clampWord_snd]
    exact hd.raised h.lanes hu

/-- Settles O2: the tables' forms are `PairForm`s and `ClampForm`s, and the words are those of format RRR. -/
theorem pairAndSaturatingResults : Obligations.PairAndSaturatingResults := by
  refine ⟨fun s c w i hwf h hreg => ⟨fun d a b f hf => ?_, fun d a b f hf => ?_⟩,
    fun s c w i d a b f lo hi hf _ h hreg => (saturating_clamp hf).results h hreg, fun fn f hf d a b => ?_⟩
  · simp only [← pair_laneIn]
    exact (pairSource_pair hf hwf).results h hreg
  · simp only [← pair_laneIn]
    exact (pairShift_pair hf hwf).results h hreg
  · obtain ⟨hlt, rfl⟩ := List.getElem?_eq_some_iff.mp hf
    rw [← form_rrr]
    match fn, hlt with
    | 0, _ | 1, _ | 2, _ | 3, _ | 4, _ | 5, _ | 6, _ | 7, _ => rfl

end Sys2Proof.Machine
end

section
/-! O4 and O5: the integer compares, the mask instructions and VTOK (R90, R240, R243), and the floating compares (R91). -/

namespace Sys2Proof.Machine
open Sys2Proof.Claims

/-! ## Forms that write a mask register -/

/-- A form that gives the own bits of `k` the value `g`, raising `fl`. -/
structure MaskForm (i : Instr) (k : Mask) (g : LaneIn → Bool) (fl : LaneIn → Flags) : Prop
    extends LaneForm i fun x => { ks := [(k, g x)], flags := fl x } where
  dst : i.info.dst = []

/-- A thread that issues waits for nothing. -/
theorem Issuing.not_waits {s : State} {c : Issue} {w : Wave} (h : Issuing s c w) {l : Nat} (hl : c.lanes.getLsbD l = true)
    (x : Hold) : ¬ (w.thread l).waits x :=
  not_waits_of_not_held (fun y e => by rw [h.runs l hl] at e; cases e) x

theorem MaskForm.results {s : State} {c : Issue} {w : Wave} {i : Instr} {k : Mask} {g : LaneIn → Bool} {fl : LaneIn → Flags}
    (hf : MaskForm i k g fl) (h : Issuing s c w) (hreg : illReg i w = false) :
    ∃ t w', Machine.exec i s = .next t ∧ MaskWord s c w t w' k (fun l => g (s.laneIn w l)) ∧
      ∀ n, w'.xstat.getLsbD n = (w.xstat.getLsbD n || (lanesOf c.lanes).any fun l => (fl (s.laneIn w l)).getLsbD n) := by
  have hall : computing i c.lanes = c.lanes := by simp [computing, hf.dst]
  obtain ⟨t, w', hex, hd⟩ := hf.done h hreg
  refine ⟨t, w', hex, ⟨hd.frame, hd.goOn, hd.genKept fun _ => rfl, hd.regsKept fun _ => rfl, fun l hl => ?own, fun k' l hne => ?other⟩,
    fun n => ?flags⟩
  case own =>
    rcases hd.masks k l with e | ⟨e, -⟩
    · simpa [hall, hl] using e
    · exact absurd e (h.not_waits hl _)
  case other =>
    refine (hd.masks k' l).imp_left fun e => e.trans (if_neg ?_)
    rw [hall]
    rintro ⟨hk, hl⟩
    rcases hne with hne | hne
    · exact hne (by simpa using hk)
    · rw [hl] at hne
      cases hne
  case flags => rw [hd.flags, getLsbD_flagsOf, hall]

/-! ## Compares of integers (R90) -/

theorem combineBit_eq (x : Combine) (old q : Bool) : combineBit x old q = combined x old q := by cases x <;> rfl

/-- Two words are equal as the numbers they stand for are. -/
theorem beq_toInt {n : Nat} (x y : BitVec n) : (x == y) = (x.toInt == y.toInt) := by
  rw [Bool.eq_iff_iff, beq_iff_eq, beq_iff_eq, BitVec.toInt_inj]

theorem beq_toNat {n : Nat} (x y : BitVec n) : (x == y) = ((x.toNat : Int) == y.toNat) := by
  rw [Bool.eq_iff_iff, beq_iff_eq, beq_iff_eq, Int.natCast_inj, BitVec.toNat_inj]

theorem icondI_eq (q : ICond) (x y : Word) : icondI q x y = holds q x.toInt y.toInt := by
  cases q with
  | eq => exact beq_toInt x y
  | ne => exact congrArg (!·) (beq_toInt x y)
  | lt | le | gt | ge => rfl

theorem decide_lt_natCast (m n : Nat) : decide (m < n) = decide ((m : Int) < n) := by simp
theorem decide_le_natCast (m n : Nat) : decide (m ≤ n) = decide ((m : Int) ≤ n) := by simp

theorem icondN_eq (q : ICond) (x y : Word) : icondN q x y = holds q x.toNat y.toNat := by
  cases q with
  | eq => exact beq_toNat x y
  | ne => exact congrArg (!·) (beq_toNat x y)
  | lt => exact decide_lt_natCast _ _
  | le => exact decide_le_natCast _ _
  | gt => exact decide_lt_natCast _ _
  | ge => exact decide_le_natCast _ _

theorem lcond_eq (q : LCond) (x y : DWord) : lcond q x y = holds64 q x y := by
  cases q with
  | eq => exact beq_toInt x y
  | ne => exact congrArg (!·) (beq_toInt x y)
  | lt | le | gt | ge => rfl
  | eqn => exact beq_toNat x y
  | nen => exact congrArg (!·) (beq_toNat x y)
  | ltn => exact decide_lt_natCast _ _
  | len => exact decide_le_natCast _ _
  | gtn => exact decide_lt_natCast _ _
  | gen => exact decide_le_natCast _ _

/-- Every form of the table of `maskForm` writes its mask and raises no flag. -/
theorem maskForm_form {s : State} {w : Wave} {l : Nat} {i : Instr} {k : Mask} {q : Bool} (h : maskForm s w l i = some (k, q)) :
    ∃ g, MaskForm i k g (fun _ => 0) ∧ ∀ s w l, maskForm s w l i = some (k, g (s.laneIn w l)) := by
  cases i <;> cases h <;> refine ⟨_, ⟨⟨⟨rfl, rfl, rfl⟩, fun _ => rfl⟩, rfl⟩, fun s w l => ?_⟩
  case join | leave | kand | kor | knot | kset | vtok => rfl
  case kxor => simp [maskForm, State.laneIn]
  case cmpI => simp only [maskForm, combineBit_eq, icondI_eq]; rfl
  case cmpN => simp only [maskForm, combineBit_eq, icondN_eq]; rfl
  case cmp64 => simp only [maskForm, combineBit_eq, lcond_eq, pair_laneIn]; rfl

/-- Settles O4: each form of the table is a `MaskForm` that raises no flag. -/
theorem maskResults : Obligations.MaskResults := by
  rintro s c w i k ⟨q, hq⟩ _ h hreg
  obtain ⟨g, hf, hg⟩ := maskForm_form hq
  obtain ⟨t, w', hex, hmask, hflags⟩ := hf.results h hreg
  refine ⟨t, w', hex, ?_, ?_⟩
  · apply BitVec.eq_of_getLsbD_eq
    intro n _
    simp [hflags]
  · simp only [hg]
    exact hmask

/-! ## Floating compares (R91) -/

theorem isNan_of_isSnan {x : Fv} (h : x.isSnan = true) : x.isNan = true := by
  cases x with
  | nan s => rfl
  | inf n | fin n m e => cases h

theorem fcmpOf_fst (q : FCond) (x y : Fv) : (fcmpOf q x y).1 = fholds q x y := by cases q <;> rfl

/-- A signalling NaN raises IV in every compare, and a quiet one in an ordering (R91). -/
theorem fcmpOf_snd (q : FCond) (x y : Fv) : (fcmpOf q x y).2 = when (fraises q x y) flagIV := by
  have hsig : (x.isSnan || y.isSnan || (x.isNan || y.isNan)) = (x.isNan || y.isNan) := by
    rw [Bool.or_eq_right_iff_imp]
    simp only [Bool.or_eq_true]
    exact Or.imp isNan_of_isSnan isNan_of_isSnan
  cases q <;> simp only [fcmpOf, fraises, Bool.or_false, hsig]

theorem getLsbD_when_flagIV (p : Bool) (n : Nat) : (when p flagIV).getLsbD n = (n == 0 && p) := by
  cases p with
  | false => simp [when]
  | true => cases n <;> simp [when, flagIV]

/-- The results of a compare of `A` with `B`, as `fholds` and `fraises` say them. -/
theorem compare_results {s : State} {c : Issue} {w : Wave} {i : Instr} {q : FCond} {k : Mask} {x : Combine} {A B : LaneIn → Fv}
    (hf : MaskForm i k (fun y => combineBit x (y.kb k) (fcmpOf q (A y) (B y)).1) fun y => (fcmpOf q (A y) (B y)).2)
    (h : Issuing s c w) (hreg : illReg i w = false) :
    ∃ t w', exec i s = .next t ∧
      (MaskWord s c w t w' k fun l => combined x (w.kbit k l) (fholds q (A (s.laneIn w l)) (B (s.laneIn w l)))) ∧
      ∀ n, w'.xstat.getLsbD n = (w.xstat.getLsbD n ||
        (n == 0 && (lanesOf c.lanes).any fun l => fraises q (A (s.laneIn w l)) (B (s.laneIn w l)))) := by
  obtain ⟨t, w', hex, hmask, hflags⟩ := hf.results h hreg
  refine ⟨t, w', hex, ?_, fun n => ?_⟩
  · simp only [combineBit_eq, fcmpOf_fst] at hmask
    exact hmask
  · rw [hflags]
    simp only [fcmpOf_snd, getLsbD_when_flagIV]
    cases n == 0 <;> simp

/-- Settles O5: both compares are `MaskForm`s whose bit and flag `fcmpOf` gives. -/
theorem floatCompareResults : Obligations.FloatCompareResults := by
  intro s c w q k x a b h
  refine ⟨fun hreg => ?_, fun _ hreg => ?_⟩
  · exact compare_results (A := fun y => y.f32 a) (B := fun y => y.f32 b) ⟨⟨⟨rfl, rfl, rfl⟩, fun _ => rfl⟩, rfl⟩ h hreg
  · simp only [← f64_laneIn]
    exact compare_results (A := fun y => y.f64 a) (B := fun y => y.f64 b) ⟨⟨⟨rfl, rfl, rfl⟩, fun _ => rfl⟩, rfl⟩ h hreg

end Sys2Proof.Machine
end

section
/-! O6 and O13: moves (R92, R102, R243) and control registers (R99, R100, R260). `runWord_lane` serves the words that have a check,
or whose computation reads more than its lane. -/

namespace Sys2Proof.Machine
open Sys2Proof.Claims

/-- A word whose checks go on and that acts as the computation `f` in each lane. -/
theorem runWord_lane {s : State} {i : Instr} {op : WordOp} {f : LaneOp} {c : Issue} {w : Wave} (h : Issuing s c w)
    (ha : Allowed s i w) (hg : ChecksGo s op c w) (hc : s.versioned (s.gangOf w) = true → op.commit s w (s.gangOf w) = false)
    (hact : op.act s c w c.lanes = laneAct i f s c w c.lanes) :
    ∃ t w', runWord i op s = .next t ∧ LaneDone s i f c w t w' := by
  obtain ⟨t, w', hrun, hd⟩ := runLane_done (f := f) h ha
  refine ⟨t, w', ?_, hd⟩
  rw [runWord_next h ha hg hc, hact, ← hrun]
  exact (runWord_next (op := { act := laneAct i f }) h ha (fun _ _ => rfl) fun _ => rfl).symm

/-! ## Moves (R92, R102, R243) -/

theorem opCmov_eq (k : Mask) (n : Bool) (d a : Reg) :
    opCmov k n d a = fun x => { regs := if xor (x.kb k) n then [(d, x.rd a)] else [] } := by
  funext x
  unfold opCmov
  cases x.kb k <;> cases n <;> rfl

theorem cmov_form (k : Mask) (n : Bool) (d a : Reg) :
    LaneForm (.cmov k n d a) fun x => { regs := if xor (x.kb k) n then [(d, x.rd a)] else [] } :=
  ⟨⟨rfl, rfl, rfl⟩, fun _ => opCmov_eq k n d a ▸ rfl⟩

/-- The lists of writes may differ in what they say of s31, which reads zero (R49). -/
theorem Wrote.congr {c : Issue} {w w' : Wave} {ws ws' : Nat → List (Reg × Word)} (h : Wrote c w w' ws')
    (hl : ∀ l r, r ≠ .s 31 → (ws l).lookup r = (ws' l).lookup r) : Wrote c w w' ws := by
  intro l r
  have hr := h l r
  cases r with
  | v n => simpa [hl] using hr
  | s n =>
    by_cases hn : n = 31
    · simpa [hn] using hr
    · simpa [hn, hl] using hr

/-- An index that MOVRI may read. -/
theorem badIndex_false {w : Wave} {x : Word} (h : x.toNat < 128 ∧ (x.toNat < 96 → x.toNat < w.grant)) : badIndex w x = false := by
  simp only [badIndex, Bool.or_eq_false_iff, Bool.and_eq_false_iff, decide_eq_false_iff_not]
  omega

/-- What MOVIR, alone in its chain, does in a lane (R102). -/
def movirAlone (d a : Reg) : LaneOp := fun x =>
  { regs := if Reg.ofNat (x.rd a).toNat = .s 31 then [] else [(Reg.ofNat (x.rd a).toNat, x.rd d)] }

theorem movirAct_alone {s : State} {c : Issue} {w : Wave} (h : Issuing s c w) (d a : Reg) :
    movirAct d a s c w c.lanes = laneAct (.movir d a) (movirAlone d a) s c w c.lanes := by
  have hothers : c.others = [] := by rw [h.single]
  have hcur : ∀ g : Nat × Hold → Nat × Hold, (s.modCur fun c => { c with holds := c.holds.map g }) = s := by
    intro g
    have hc : ({ c with holds := c.holds.map g } : Issue) = c := by rw [h.holds, List.map_nil, ← h.holds]
    simp only [State.modCur, h.cur, Option.map_some, hc]
    rw [← h.cur]
  have hop : (fun x : LaneIn =>
      let r := Reg.ofNat (x.rd a).toNat
      if r = .s 31 || (c.others.any (writesNow x r) && Config.freePick s.fresh x.lane r.toNat % 2 == 1) then ({} : LaneOut)
      else { regs := [(r, x.rd d)] }) = movirAlone d a := by
    funext x
    simp only [hothers, List.any_nil, Bool.false_and, Bool.or_false, decide_eq_true_eq, movirAlone]
    split <;> rfl
  unfold movirAct
  simp only [hcur]
  rw [← hop]

theorem movirCheck_go {s : State} (c : Issue) {w : Wave} {a : Reg} {l : Nat}
    (h : ((rd s w l a).toNat < 96 ∧ (rd s w l a).toNat < w.grant) ∨ (rd s w l a).toNat = 127) : movirCheck a s c w l = .go := by
  have hbad : badIndex w (rd s w l a) = false := badIndex_false (by omega)
  have hmid : ¬ (96 ≤ (rd s w l a).toNat ∧ (rd s w l a).toNat ≤ 126) := by omega
  simp only [movirCheck, hbad, Bool.false_or, Bool.and_eq_true, decide_eq_true_eq, if_neg hmid]

/-- Settles O6: CMOV is a `LaneForm`; the others are computations that `runWord_lane` runs, MOVIR by `movirAct_alone`. -/
theorem moveResults : Obligations.MoveResults := by
  intro s c w h
  refine ⟨fun k n d a _ hreg => ?cmov, fun d k hreg => ?ktov, fun d a _ hreg hidx => ?movri, fun d a _ hreg hidx => ?movir⟩
  case cmov =>
    obtain ⟨t, w', hex, hd⟩ := (cmov_form k n d a).done h hreg
    refine ⟨t, w', hex, hd.registerWord (fun _ => rfl) fun _ => rfl, hd.xstat_kept fun _ => rfl,
      hd.wrote h.lanes (u := d.isUni) (by simp [Instr.info]) (fun l => ?_) fun _ _ => rfl⟩
    split
    · exact .single d _
    · exact .nil _
  case ktov =>
    obtain ⟨t, w', hex, hd⟩ := runWord_lane (op := { act := ktovAct d k }) (f := fun _ => { regs := [(d, w.kreg k)] }) h
      (Free.allowed ⟨rfl, rfl, rfl⟩ hreg) (fun _ _ => rfl) (fun _ => rfl) rfl
    exact ⟨t, w', hex, hd.registerWord (fun _ => rfl) fun _ => rfl, hd.xstat_kept fun _ => rfl,
      hd.wrote h.lanes (u := d.isUni) (by simp [Instr.info]) (fun _ => .single d _) fun _ _ => rfl⟩
  case movri =>
    have hgo : ChecksGo s { check := movriCheck a, act := laneAct (.movri d a) (opMovri d a) } c w := fun l hl =>
      if_neg (by simp [badIndex_false (hidx l hl)])
    obtain ⟨t, w', hex, hd⟩ := runWord_lane h (Free.allowed ⟨rfl, rfl, rfl⟩ hreg) hgo (fun _ => rfl) rfl
    exact ⟨t, w', hex, hd.registerWord (fun _ => rfl) fun _ => rfl, hd.xstat_kept fun _ => rfl,
      hd.wrote h.lanes (u := d.isUni) (by simp [Instr.info]) (fun _ => .single d _) fun _ _ => rfl⟩
  case movir =>
    obtain ⟨t, w', hex, hd⟩ := runWord_lane (op := { check := movirCheck a, act := movirAct d a }) h
      (Free.allowed ⟨rfl, rfl, rfl⟩ hreg) (fun l hl => movirCheck_go c (hidx l hl)) (fun _ => rfl) (movirAct_alone h d a)
    refine ⟨t, w', hex, hd.registerWord (fun _ => rfl) fun _ => rfl, hd.xstat_kept fun _ => rfl, ?_⟩
    have hws : Wrote c w w' fun l => (movirAlone d a (s.laneIn w l)).regs := hd.wrote h.lanes (u := false) rfl (fun l => ?_) fun _ _ => rfl
    · refine Wrote.congr hws fun l r hr => ?_
      unfold movirAlone
      dsimp only
      split
      · next he =>
        have he : Reg.ofNat (rd s w l a).toNat = .s 31 := he
        simp [he, hr]
      · rfl
    · refine ⟨?_, fun e => by cases e⟩
      unfold movirAlone
      dsimp only
      split <;> simp

/-! ## READS (R99, R100, R260) -/

/-- A control register takes one register or a pair (R99). -/
theorem regCount_cases (r : CtlReg) : r.regCount = 1 ∨ r.regCount = 2 := by cases r <;> simp [CtlReg.regCount]

theorem wordsAt_one (d : Reg) (x : Nat) : wordsAt d 1 x = [(d, BitVec.ofNat 32 x)] := by simp [wordsAt, ofNat_toNat]

/-- What a READS leaves, for any control register. -/
theorem reads_results {s : State} {c : Issue} {w : Wave} (h : Issuing s c w) {d : Reg} {r : CtlReg}
    (hwf : (Instr.reads d r).wellFormed = true) (hreg : illReg (.reads d r) w = false) :
    ∃ t w', exec (.reads d r) s = .next t ∧ RegisterWord s c w t w' ∧ w'.xstat = w.xstat ∧
      Wrote c w w' fun l => wordsAt d r.regCount (s.ctlReg w l r) := by
  have hal : al r.regCount d = true := by
    have := shapeOk_of_wellFormed hwf
    simp only [Instr.info, Bool.and_eq_true] at this
    exact this.1
  have hval : ∀ l, s.readsValue c w l r = s.ctlReg w l r := fun l => by
    unfold State.readsValue
    rw [h.phase]
    cases r <;> rfl
  obtain ⟨t, w', hex, hd⟩ := runWord_lane (op := { act := readsAct d r })
    (f := fun x => { regs := spread r.regCount d (s.readsValue c w x.lane r) }) h (Free.allowed ⟨rfl, rfl, rfl⟩ hreg)
    (fun _ _ => rfl) (fun _ => rfl) rfl
  obtain ⟨hu, hw⟩ := spread_writesOf (k := r.regCount) (d := d) (regCount_cases r) hal
  refine ⟨t, w', hex, hd.registerWord (fun _ => rfl) fun _ => rfl, hd.xstat_kept fun _ => rfl,
    hd.wrote h.lanes (u := d.isUni) hu (fun _ => hw _) fun l _ => ?_⟩
  simp only [hval]
  rfl

/-- A control register whose value the rules fix has that value, in whichever lane it is asked for. -/
theorem ctlValue_eq {s : State} {w : Wave} {l x : Nat} {r : CtlReg} (h : ctlValue s w l r = some x) (l' : Nat) :
    ctlValue s w l' r = some (s.ctlReg w l' r) := by
  cases r <;> cases h
  case cluster => simp only [ctlValue, State.ctlReg, coreCluster, Wave.core, Nat.div_div_eq_div_mul]
  case sector => simp only [ctlValue, State.ctlReg, coreSector, Wave.core, Nat.div_div_eq_div_mul]
  case die | feat => simp only [ctlValue, State.ctlReg, coreDie, Wave.core, Nat.div_div_eq_div_mul]
  all_goals rfl

/-- Some of the flags of `ps` merged into `x`: those that it had stay, and each new one is of one of them. -/
theorem orFold_flags (p : Flags → Pending → Prop) [∀ x q, Decidable (p x q)] (n : Nat) : ∀ (ps : List Pending) (x : Flags),
    (x.getLsbD n = true → (ps.foldl (fun x q => if p x q then x ||| q.flags else x) x).getLsbD n = true) ∧
    ((ps.foldl (fun x q => if p x q then x ||| q.flags else x) x).getLsbD n = true →
      x.getLsbD n = true ∨ ∃ q ∈ ps, q.flags.getLsbD n = true)
  | [], x => ⟨id, .inl⟩
  | q :: ps, x => by
    obtain ⟨hkeep, hnew⟩ := orFold_flags p n ps (if p x q then x ||| q.flags else x)
    rw [List.foldl_cons]
    refine ⟨fun hx => hkeep ?_, fun hn => ?_⟩
    · split <;> simp [hx]
    · rcases hnew hn with e | ⟨r, hr, e⟩
      · split at e
        · rw [BitVec.getLsbD_or, Bool.or_eq_true] at e
          exact e.imp_right fun e => ⟨q, by simp, e⟩
        · exact .inl e
      · exact .inr ⟨r, by simp [hr], e⟩

/-- XSTAT as it is read has its own flags, and no others than those of outstanding results. -/
theorem xstatSeen_flags (s : State) (w : Wave) (n : Nat) :
    (w.xstat.getLsbD n = true → (s.xstatSeen w).getLsbD n = true) ∧
    ((s.xstatSeen w).getLsbD n = true → w.xstat.getLsbD n = true ∨ ∃ p ∈ w.pend, p.flags.getLsbD n = true) :=
  orFold_flags _ n w.pend w.xstat

/-- The least of `m` and the values of `f`. -/
theorem minFold (f : Nat → Nat) : ∀ (xs : List Nat) (m : Nat),
    (∀ t ∈ xs, xs.foldl (fun m t => min m (f t)) m ≤ f t) ∧ xs.foldl (fun m t => min m (f t)) m ≤ m ∧
    (xs.foldl (fun m t => min m (f t)) m = m ∨ ∃ t ∈ xs, xs.foldl (fun m t => min m (f t)) m = f t)
  | [], m => ⟨by simp, Nat.le_refl m, .inl rfl⟩
  | t :: xs, m => by
    obtain ⟨hall, hle, hone⟩ := minFold f xs (min m (f t))
    rw [List.foldl_cons]
    refine ⟨?_, by omega, ?_⟩
    · rintro u hu
      rcases List.mem_cons.mp hu with rfl | hu
      · omega
      · exact hall u hu
    · rcases hone with e | ⟨u, hu, e⟩
      · rcases Nat.le_total m (f t) with hm | hm
        · exact .inl (by omega)
        · exact .inr ⟨t, by simp, by omega⟩
      · exact .inr ⟨u, by simp [hu], e⟩

/-- CAPREG is the least capacity of a track of the core (R32). -/
theorem capreg_least (s : State) (core : Nat) :
    (∀ k < 8, s.capreg core ≤ s.trackCap (8 * core + k)) ∧ s.capreg core ≤ 256 ∧
    (s.capreg core = 256 ∨ ∃ k < 8, s.capreg core = s.trackCap (8 * core + k)) := by
  obtain ⟨hall, hle, hone⟩ := minFold (fun t => s.trackCap (8 * core + t)) (List.range 8) 256
  refine ⟨fun k hk => hall k (List.mem_range.mpr hk), hle, hone.imp_right ?_⟩
  rintro ⟨k, hk, e⟩
  exact ⟨k, List.mem_range.mp hk, e⟩

theorem bitTo_eq_zero (b : Bool) : bitTo b = 0 ↔ b = false := by cases b <;> simp

theorem dirty_false (s : State) (gid : Nat) : s.dirty gid = false ↔ ∀ v ∈ s.versions, v.gang = gid → v.mask = 0 := by
  simp [State.dirty, State.version]

/-- TASK holds the bits of R260. -/
theorem task_isTask (s : State) (w : Wave) : IsTask s w (s.task (s.gangOf w)) := by
  unfold IsTask State.task
  simp only
  rw [← dirty_false, ← bitTo_eq_zero]
  have h0 := bitTo_lt (s.launchOf (s.gangOf w)).hdr.ver
  have h1 := bitTo_lt (s.launchOf (s.gangOf w)).shape
  have h2 := bitTo_lt (s.gangOf w).gate
  have h3 := bitTo_lt (s.dirty (s.gangOf w).id)
  have h4 := bitTo_lt (s.gangOf w).committed
  have h5 := (s.gangOf w).ccnt.isLt
  omega

/-! ## WRITES (R100, R134, R254) -/

/-- A uniform register reads the same in every lane (R34, R49). -/
theorem rd_uniform (s : State) (w : Wave) {r : Reg} (h : r.isUni = true) (l l' : Nat) : rd s w l r = rd s w l' r := by
  cases r with
  | v n => cases h
  | s n => rfl

/-- The value that WRITES takes, as a word and as a pair. -/
theorem writesValue_one {s : State} {w : Wave} {l : Nat} {a : Reg} {r : CtlReg} (hr : r.regCount = 1) :
    s.writesValue a r w l = (rd s w l a).toNat := by
  simp [State.writesValue, hr, wide, regs, ofNat_toNat]

theorem writesValue_two {s : State} {w : Wave} {l : Nat} {a : Reg} {r : CtlReg} (hr : r.regCount = 2) :
    s.writesValue a r w l = (rd64 s w l a).toNat := by
  rw [← wide_pair, State.writesValue, hr]
  rfl

theorem setCtl_eq (s : State) (w : Wave) (a : Reg) (r : CtlReg) (l : Nat) :
    w.setCtl r (s.writesValue a r w l) = ctlWritten w r (rd s w l a) (rd64 s w l a) := by
  cases r
  case fmode | xstat => rw [writesValue_one rfl]; rfl
  case prog =>
    rw [writesValue_one rfl]
    simp [Wave.setCtl, ctlWritten, BitVec.getLsbD, Nat.testBit_zero]
    rfl
  case trapbase | trapframe =>
    rw [writesValue_two rfl]
    simp only [Wave.setCtl, ctlWritten, BitVec.ofNat_toNat, BitVec.setWidth_eq]
  case trapen =>
    rw [writesValue_one rfl]
    simp only [Wave.setCtl, ctlWritten, BitVec.ofNat_toNat, BitVec.setWidth_eq]
  all_goals rfl

/-- A uniform register or pair gives WRITES the same value in every lane. -/
theorem writesValue_uniform (s : State) (w : Wave) {a : Reg} {r : CtlReg} (hu : a.isUni = true) (hal : al r.regCount a = true)
    (l l' : Nat) : s.writesValue a r w l = s.writesValue a r w l' := by
  rcases regCount_cases r with hr | hr
  · rw [writesValue_one hr, writesValue_one hr, rd_uniform s w hu]
  · rw [hr] at hal
    rw [writesValue_two hr, writesValue_two hr, rd64, rd64, rd_uniform s w hu l l',
      rd_uniform s w ((second_of_pair hal).2.mpr hu) l l']

/-- The wave at the end of an issue after an effect on fields that the issue does not touch. -/
theorem advanced_issued {s : State} {c : Issue} {w : Wave} (h : Issuing s c w) (v : Wave) : Advanced c v (Wave.issued c v) := by
  unfold Advanced Went
  have hth : (Wave.issued c v).threads = (v.advance c).threads := by rw [issued_shape]
  rw [issued_shape, h.advance]
  rfl

theorem setCtl_shape (w : Wave) (r : CtlReg) (x : Nat) : (w.setCtl r x).id = w.id ∧ (w.setCtl r x).gang = w.gang ∧ (w.setCtl r x).threads = w.threads := by
  cases r <;> exact ⟨rfl, rfl, rfl⟩

theorem mild_setCtl (r : CtlReg) (x : Nat) : Mild fun v => v.setCtl r x where
  id v := (setCtl_shape v r x).1
  gang v := (setCtl_shape v r x).2.1
  held v l y hy _ := by
    unfold Wave.thread at hy ⊢
    rwa [(setCtl_shape v r x).2.2] at hy

/-- A WRITES whose value gives no reserved rmode goes on in every lane (R100, R134). -/
theorem writesCheck_go {s : State} {w : Wave} {a : Reg} {r : CtlReg} (hu : a.isUni = true)
    (hmode : r = .fmode → ((rd s w 0 a).extractLsb' 0 3).toNat < 6) (c : Issue) (l : Nat) : writesCheck a r s c w l = .go := by
  refine if_neg fun hbad => ?_
  simp only [Bool.and_eq_true, beq_iff_eq, decide_eq_true_eq] at hbad
  obtain ⟨rfl, hbad⟩ := hbad
  rw [writesValue_one rfl, rd_uniform s w hu l 0] at hbad
  have hlt := hmode rfl
  rw [BitVec.extractLsb'_toNat, Nat.shiftRight_zero] at hlt
  omega

/-- Settles O13: READS writes what `State.ctlReg` gives, and WRITES sets what `setCtl_eq` says. -/
theorem controlRegisterResults : Obligations.ControlRegisterResults := by
  refine ⟨fun s c w d r hwf h hreg => ?reads, fun s c w a r hwf h hreg hmode => ?writes⟩
  case reads =>
    obtain ⟨t, w', hex, hword, hx, hwrote⟩ := reads_results h hwf hreg
    have hone : r.regCount = 1 → Wrote c w w' fun l => [(d, BitVec.ofNat 32 (s.ctlReg w l r))] := fun hr => by
      simpa only [hr, wordsAt_one] using hwrote
    refine ⟨t, w', hex, hword, hx, fun x hval => ?fixed, ?xstat, ?capreg, ?task, ?cycle⟩
    case fixed =>
      simp only [ctlValue_eq hval, Option.getD_some]
      exact hwrote
    case xstat =>
      rintro rfl
      refine ⟨s.xstatSeen w, fun n => (xstatSeen_flags s w n).1, fun n => (xstatSeen_flags s w n).2, ?_⟩
      simpa only [State.ctlReg, BitVec.ofNat_toNat] using hone rfl
    case capreg =>
      rintro rfl
      obtain ⟨hall, hle, hleast⟩ := capreg_least s w.core
      exact ⟨s.capreg w.core, hall, hle, hleast, hone rfl⟩
    case task =>
      rintro rfl
      exact ⟨_, task_isTask s w, hone rfl⟩
    case cycle =>
      rintro rfl
      simpa only [State.ctlReg, Wave.core, BitVec.ofNat_toNat, BitVec.setWidth_eq] using hone rfl
  case writes =>
    have hshape := shapeOk_of_wellFormed hwf
    simp only [Instr.info, Bool.and_eq_true] at hshape
    obtain ⟨⟨hu, hal⟩, -⟩ := hshape
    obtain ⟨t, w', hrun, he⟩ := runWord_wave (op := { check := writesCheck a r, act := writesAct a r }) h
      (Free.allowed ⟨rfl, rfl, rfl⟩ hreg) (fun l _ => writesCheck_go hu hmode c l) (fun _ => rfl) rfl (mild_setCtl r _)
    refine ⟨t, w', _, hrun, ?_, he⟩
    rw [writesValue_uniform s w hu hal _ 0, setCtl_eq]
    exact advanced_issued h _

end Sys2Proof.Machine
end

section
/-! O11, O12 and O14: words of returning class that leave results outstanding (R34, R94 to R97, R124), and the generator (R101).
`pendFold` says once what a group's results are, and `runWord_pends` what such a word leaves. -/

namespace Sys2Proof.Machine
open Sys2Proof.Claims

/-! ## Results left outstanding (R34) -/

/-- Results appended to those that are outstanding. -/
def Wave.withPends (ps : List Pending) (v : Wave) : Wave := { v with pend := v.pend ++ ps }

theorem withPends_returns (ps : List Pending) : Returns (Wave.withPends ps) ps fun _ => none where
  shape _ := rfl
  length _ := rfl
  threads _ _ _ := rfl

/-- Each step takes a new number and appends the result that `mk` gives. -/
def Appends {α : Type} (wid : Nat) (step : State → α → State) (mk : α → Nat → Pending) : Prop :=
  ∀ s x, step s x = ({ s with nextId := s.nextId + 1 } : State).modWave wid (Wave.withPends [mk x s.nextId])

/-- The results that a group leaves outstanding, one for each of `xs`. -/
theorem pendFold {α : Type} {wid : Nat} {step : State → α → State} {mk : α → Nat → Pending} (h : Appends wid step mk) :
    ∀ (xs : List α) (s : State), ∃ n ps, xs.foldl step s = ({ s with nextId := n } : State).modWave wid (Wave.withPends ps) ∧
      List.Forall₂ (fun x p => ∃ id, p = mk x id) xs ps
  | [], s => ⟨s.nextId, [], by simp [State.modWave, modBy, Wave.withPends], .nil⟩
  | x :: xs, s => by
    obtain ⟨n, ps, hfold, hps⟩ := pendFold h xs (step s x)
    refine ⟨n, mk x s.nextId :: ps, ?_, .cons ⟨_, rfl⟩ hps⟩
    rw [List.foldl_cons, hfold, h]
    have hmm := modWave_modWave ({ s with nextId := n } : State) wid (Wave.withPends [mk x s.nextId]) (Wave.withPends ps) fun _ => rfl
    refine Eq.trans hmm ?_
    congr 1
    funext v
    simp [Wave.withPends]

/-- A word whose checks go on and whose whole effect is to leave `ps` outstanding. -/
theorem runWord_pends {s : State} {i : Instr} {op : WordOp} {c : Issue} {w : Wave} {n : Nat} {ps : List Pending} (h : Issuing s c w)
    (ha : Allowed s i w) (hg : ChecksGo s op c w) (hc : s.versioned (s.gangOf w) = true → op.commit s w (s.gangOf w) = false)
    (hact : op.act s c w c.lanes = ({ s with nextId := n } : State).modWave w.id (Wave.withPends ps)) :
    ∃ t w', runWord i op s = .next t ∧ ReturningWord s c w t w' ∧ GenKept c w w' ∧ (∀ p ∈ ps, p ∈ w'.pend) ∧
      (¬s.holding w.id Hold.isFe → w'.pend = w.pend ++ ps) := by
  have hw : s.wave? w.id = some w := h.waveId ▸ h.wave
  have hF := withPends_returns ps
  obtain ⟨t, w', hrun, he⟩ := runWord_effect (u := { s with nextId := n }) h ha hg hc hact h.cur (v := w) hw hF.mild
  obtain ⟨hfr, hhere, hregs, hmask, hx, hnew⟩ := ended_returns h hF (fun _ _ => rfl) he
  have hpend : (Wave.issued c (w.withPends ps)).pend = w.pend ++ ps := by rw [issued_shape]; rfl
  have hid : (Wave.issued c (w.withPends ps)).id = w.id := by rw [issued_shape]; rfl
  refine ⟨t, w', hrun, ⟨hfr.of_ids, fun l hl => ?_, hmask, hregs, hx⟩, fun l hl => ?_, hnew, fun hno => ?_⟩
  · rw [hhere l hl]
  · rw [hhere l hl]
    rfl
  · obtain ⟨qs, hq, hfe⟩ := he.kept.pend
    rw [hq, hpend, hfe.resolve_right fun e => hno (hid ▸ e), List.append_nil]

/-- A word that leaves one result for each of `xs`. -/
theorem runWord_results {α : Type} {s : State} {i : Instr} {op : WordOp} {c : Issue} {w : Wave} {step : State → α → State}
    {mk : α → Nat → Pending} {xs : List α} (h : Issuing s c w) (ha : Allowed s i w) (hg : ChecksGo s op c w)
    (hc : s.versioned (s.gangOf w) = true → op.commit s w (s.gangOf w) = false) (hact : op.act s c w c.lanes = xs.foldl step s)
    (hstep : Appends w.id step mk) :
    ∃ t w', runWord i op s = .next t ∧ ReturningWord s c w t w' ∧ GenKept c w w' ∧ ∀ x ∈ xs, ∃ id, mk x id ∈ w'.pend := by
  obtain ⟨n, ps, hfold, hps⟩ := pendFold hstep xs s
  obtain ⟨t, w', hrun, hret, hgen, hnew, -⟩ := runWord_pends h ha hg hc (hact.trans hfold)
  refine ⟨t, w', hrun, hret, hgen, fun x hx => ?_⟩
  obtain ⟨p, hp, id, rfl⟩ := forall₂_left hps hx
  exact ⟨id, hnew _ hp⟩

/-! ## Shuffles, RDL and WRL (R94, R95) -/

/-- The result of a shuffle in lane `l`, whose source lane is `src`. -/
def shuffleResult (s : State) (c : Issue) (w : Wave) (d a : Reg) (src : Nat → Nat) (l id : Nat) : Pending :=
  { id, lane := if d.isUni then none else some l, lanes := if d.isUni then c.lanes else laneBit l, regs := [d]
    vals := [(s.laneRead c w (src l) a).1], late := (s.laneRead c w (src l) a).2 }

theorem shuffleAct_eq (d a b : Reg) (f : Nat → Nat → Nat) (s : State) (c : Issue) (w : Wave) :
    ∃ step, shuffleAct d a b f s c w c.lanes = (lanesFor d c).foldl step s ∧
      Appends w.id step (shuffleResult s c w d a fun l => f l ((rd s w l b).toNat % 32)) := by
  unfold shuffleAct lanesFor
  split
  · next hd =>
    refine ⟨fun t l => t.pendRead w d none c.lanes (s.laneRead c w (f l ((rd s w l b).toNat % 32)) a), rfl, fun t l => ?_⟩
    simp only [shuffleResult, if_pos hd]
    rfl
  · next hd =>
    refine ⟨_, rfl, fun t l => ?_⟩
    simp only [shuffleResult, if_neg hd]
    rfl

/-- Every shuffle is one of `shuffleAct`. -/
theorem shuffle_exec {i : Instr} {d a b : Reg} {f : Nat → Nat → Nat} (h : shuffle i = some (d, a, b, f)) :
    Free i ∧ ∀ s, exec i s = runWord i { act := shuffleAct d a b f } s := by
  cases i <;> cases h <;> exact ⟨⟨rfl, rfl, rfl⟩, fun _ => rfl⟩

/-- The lane that a WRL writes (R94). -/
def wrlLane (s : State) (c : Issue) (w : Wave) (b : Reg) : Nat := (rd s w (lowest c.lanes) b).toNat % 32

/-- The result that a WRL leaves for a lane of the group. -/
def wrlResult (s : State) (c : Issue) (w : Wave) (d a b : Reg) : Pending :=
  { id := s.nextId, lane := some (wrlLane s c w b), lanes := laneBit (wrlLane s c w b), regs := [d]
    vals := [rd s w (lowest c.lanes) a] }

theorem writeLaneAct_in {s : State} {c : Issue} {w : Wave} (d a : Reg) {b : Reg} (h : c.lanes.getLsbD (wrlLane s c w b) = true) :
    writeLaneAct d a b s c w c.lanes =
      ({ s with nextId := s.nextId + 1 } : State).modWave w.id (Wave.withPends [wrlResult s c w d a b]) :=
  if_pos (by rw [Bool.and_self]; exact h)

theorem writeLaneAct_out {s : State} {c : Issue} {w : Wave} (d a : Reg) {b : Reg} (h : c.lanes.getLsbD (wrlLane s c w b) = false) :
    writeLaneAct d a b s c w c.lanes = ({ s with nextId := s.nextId } : State).modWave w.id (Wave.withPends []) := by
  have hout : writeLaneAct d a b s c w c.lanes = s := if_neg (by rw [Bool.and_self, Bool.not_eq_true]; exact h)
  rw [hout]
  simp [State.modWave, modBy, Wave.withPends]

/-- Settles O11: the shuffles leave the results of `shuffleResult`, WRL that of `wrlResult` or none. -/
theorem crossLaneResults : Obligations.CrossLaneResults := by
  intro s c w i hwf h hreg
  refine ⟨fun d a b f hf => ?shuffle, fun d a b hi => ?wrl⟩
  case shuffle =>
    obtain ⟨hfree, hex⟩ := shuffle_exec hf
    obtain ⟨step, hact, hstep⟩ := shuffleAct_eq d a b f s c w
    obtain ⟨t, w', hrun, hret, hgen, hres⟩ := runWord_results (op := { act := shuffleAct d a b f }) h (hfree.allowed hreg)
      (fun _ _ => rfl) (fun _ => rfl) hact hstep
    refine ⟨t, w', (hex s).trans hrun, hret, hgen, fun l hl => ?_⟩
    obtain ⟨id, hp⟩ := hres l hl
    refine ⟨_, hp, rfl, rfl, rfl, rfl, rfl, rfl, fun hin => ?_, fun hout => ?_⟩
    · simp [shuffleResult, State.laneRead, hin]
    · simp [shuffleResult, State.laneRead, hout]
  case wrl =>
    subst hi
    have ha : Allowed s (.wrl d a b) w := Free.allowed ⟨rfl, rfl, rfl⟩ hreg
    by_cases hin : c.lanes.getLsbD (wrlLane s c w b) = true
    · obtain ⟨t, w', hrun, hret, hgen, hnew, -⟩ := runWord_pends (op := { act := writeLaneAct d a b }) h ha (fun _ _ => rfl)
        (fun _ => rfl) (writeLaneAct_in d a hin)
      refine ⟨t, w', hrun, hret, hgen, fun _ => ⟨_, hnew _ (List.mem_singleton_self _), rfl, rfl, rfl, rfl, rfl, rfl, rfl⟩, fun hout => ?_⟩
      exact absurd (hin.symm.trans hout) (by decide)
    · obtain ⟨t, w', hrun, hret, hgen, -, hkept⟩ := runWord_pends (op := { act := writeLaneAct d a b }) h ha (fun _ _ => rfl)
        (fun _ => rfl) (writeLaneAct_out d a (by simpa using hin))
      exact ⟨t, w', hrun, hret, hgen, fun e => absurd e hin, fun _ hno => by simpa using hkept hno⟩

/-! ## Reductions and scans (R96, R97) -/

theorem combineAll_acc (f : Word → Word → Word × Flags) : ∀ (xs : List Word) (r : Word) (x : Flags),
    xs.foldl (fun acc x => ((f acc.1 x).1, acc.2 ||| (f acc.1 x).2)) (r, x) = ((combineAll f r xs).1, x ||| (combineAll f r xs).2)
  | [], r, x => by simp [combineAll]
  | y :: ys, r, x => by
    unfold combineAll
    rw [List.foldl_cons, List.foldl_cons, combineAll_acc f ys, combineAll_acc f ys]
    simp [BitVec.or_assoc]

/-- One term, then the others. -/
theorem combineAll_cons (f : Word → Word → Word × Flags) (r x : Word) (xs : List Word) :
    combineAll f r (x :: xs) = ((combineAll f (f r x).1 xs).1, (f r x).2 ||| (combineAll f (f r x).1 xs).2) := by
  rw [combineAll, List.foldl_cons, combineAll_acc]
  simp

/-- The last running value of a reduction, and the flags of all steps. -/
theorem reduceFold_last (f : Word → Word → Word × Flags) : ∀ (xs : List Word) (r : Word),
    ((reduceFold f r xs).1.getLastD r, (reduceFold f r xs).2) = combineAll f r xs
  | [], r => rfl
  | x :: xs, r => by
    rw [combineAll_cons, ← reduceFold_last f xs, reduceFold, List.getLastD_cons]

/-- The running value after each term of an ascending list of lanes. -/
theorem reduceFold_running (f : Word → Word → Word × Flags) (g : Nat → Word) : ∀ (ls : List Nat) (r : Word),
    ls.Pairwise (· < ·) → ls.zip (reduceFold f r (ls.map g)).1 =
      ls.map fun l => (l, (combineAll f r ((ls.filter (· ≤ l)).map g)).1)
  | [], r, _ => rfl
  | x :: ls, r, h => by
    obtain ⟨hx, hls⟩ := List.pairwise_cons.mp h
    have hfirst : ls.filter (· ≤ x) = [] := List.filter_eq_nil_iff.mpr fun l hl => by simpa using hx l hl
    have hrest : ∀ l ∈ ls, (x :: ls).filter (· ≤ l) = x :: ls.filter (· ≤ l) := fun l hl =>
      List.filter_cons_of_pos (by simpa using Nat.le_of_lt (hx l hl))
    rw [List.map_cons, List.map_cons, reduceFold, List.zip_cons_cons, reduceFold_running f g ls _ hls,
      List.filter_cons_of_pos (by simp), hfirst]
    refine congrArg₂ List.cons (by simp [combineAll]) (List.map_congr_left fun l hl => ?_)
    rw [hrest l hl, List.map_cons, combineAll_cons]

theorem lanesOf_pairwise (m : LaneMask) : (lanesOf m).Pairwise (· < ·) := List.Pairwise.filter _ List.pairwise_lt_range

section Reduce
variable (scan : Bool) (d a b : Reg) (f : Word → Word → Word × Flags) (s : State) (c : Issue) (w : Wave)

/-- The terms of the lanes `ls` combined from B of the lowest thread (R96). -/
def combinedOver (ls : List Nat) : Word × Flags := combineAll f (rd s w (lowest c.lanes) b) (ls.map fun j => rd s w j a)

/-- The result of a reduction or a scan in lane `l`. -/
def reduceResult (l id : Nat) : Pending :=
  { id, lane := if d.isUni then none else some l, lanes := if d.isUni then c.lanes else laneBit l, regs := [d]
    vals := [if scan && !d.isUni then (combinedOver a b f s c w ((lanesOf c.lanes).filter (· ≤ l))).1
      else (combinedOver a b f s c w (lanesOf c.lanes)).1]
    flags := (combinedOver a b f s c w (lanesOf c.lanes)).2 }

theorem reduceAct_def : reduceAct scan d a b f s c w c.lanes =
    let run := reduceFold f (rd s w (lowest c.lanes) b) ((lanesOf c.lanes).map fun l => rd s w l a)
    let last := run.1.getLastD (rd s w (lowest c.lanes) b)
    if d.isUni then s.pendValue w d none c.lanes last run.2
    else ((lanesOf c.lanes).zip run.1).foldl (fun t x => t.pendValue w d (some x.1) (laneBit x.1) (if scan then x.2 else last) run.2) s :=
  rfl

theorem reduceAct_eq : ∃ step, reduceAct scan d a b f s c w c.lanes = (lanesFor d c).foldl step s ∧
    Appends w.id step (reduceResult scan d a b f s c w) := by
  obtain ⟨hval, hfl⟩ := Prod.ext_iff.mp (reduceFold_last f ((lanesOf c.lanes).map fun l => rd s w l a) (rd s w (lowest c.lanes) b))
  have hrun := reduceFold_running f (fun l => rd s w l a) (lanesOf c.lanes) (rd s w (lowest c.lanes) b) (lanesOf_pairwise _)
  simp only at hval hfl
  simp only [reduceAct_def, hval, hfl, hrun, lanesFor]
  split
  · next hd =>
    refine ⟨fun t l => t.pendValue w d none c.lanes (combinedOver a b f s c w (lanesOf c.lanes)).1
      (combinedOver a b f s c w (lanesOf c.lanes)).2, rfl, fun t l => ?_⟩
    simp only [reduceResult, hd, Bool.not_true, Bool.and_false, Bool.false_eq_true, if_true, if_false]
    rfl
  · next hd =>
    refine ⟨_, List.foldl_map, fun t l => ?_⟩
    simp only [reduceResult, hd, Bool.not_false, Bool.and_true, Bool.false_eq_true, if_false]
    rfl

end Reduce

theorem intStep_min : intStep (fun r x => if x.slt r then x else r) = fun r x => (if r.toInt ≤ x.toInt then r else x, 0) := by
  funext r x
  simp only [intStep, BitVec.slt, decide_eq_true_eq, ← not_le, ite_not]

theorem intStep_max : intStep (fun r x => if r.slt x then x else r) = fun r x => (if x.toInt ≤ r.toInt then r else x, 0) := by
  funext r x
  simp only [intStep, BitVec.slt, decide_eq_true_eq, ← not_le, ite_not]

/-- Every reduction and scan is one of `reduceAct`, with the step of its row. -/
theorem reduction_exec {w : Wave} {i : Instr} {scan : Bool} {d a b : Reg} {f : Word → Word → Word × Flags}
    (h : reduction w i = some (scan, d, a, b, f)) :
    ∃ act, (∀ s, exec i s = runWord i { act := act } s) ∧ ∀ s c m, act s c w m = reduceAct scan d a b f s c w m := by
  cases i <;> cases h
  case redaddI | redand | redor | scanI | redaddF32 | scanF32 => exact ⟨_, fun _ => rfl, fun _ _ _ => rfl⟩
  case redminI => exact ⟨_, fun _ => rfl, fun s c m => by rw [intStep_min]⟩
  case redmaxI => exact ⟨_, fun _ => rfl, fun s c m => by rw [intStep_max]⟩

/-- Settles O12: each lane of `lanesFor` has the result of `reduceResult`. -/
theorem reductionResults : Obligations.ReductionResults := by
  intro s c w i scan d a b f hf _ h ha
  obtain ⟨act, hex, hact⟩ := reduction_exec hf
  obtain ⟨step, hfold, hstep⟩ := reduceAct_eq scan d a b f s c w
  obtain ⟨t, w', hrun, hret, hgen, hres⟩ := runWord_results (op := { act := act }) h ha (fun _ _ => rfl) (fun _ => rfl)
    ((hact s c c.lanes).trans hfold) hstep
  refine ⟨t, w', (hex s).trans hrun, hret, hgen, fun l hl => ?_⟩
  obtain ⟨id, hp⟩ := hres l hl
  exact ⟨_, hp, rfl, rfl, rfl, rfl, rfl, rfl, rfl, rfl, rfl⟩

/-! ## The generator (R101) -/

theorem rngseed_form (a : Reg) : LaneForm (.rngseed a) (opRngseed a) := ⟨⟨rfl, rfl, rfl⟩, fun _ => rfl⟩
theorem rngnext_form (d : Reg) : LaneForm (.rngnext d) (opRngnext d) := ⟨⟨rfl, rfl, rfl⟩, fun _ => rfl⟩

/-- What a generator's word leaves in the threads of its group, each of which computes. -/
theorem LaneDone.gen {s t : State} {i : Instr} {f : LaneOp} {g : LaneIn → Word} {c : Issue} {w w' : Wave} (h : LaneDone s i f c w t w')
    (hu : i.info.dst.any Reg.isUni = false) (hg : ∀ x, (f x).gen = some (g x)) {l : Nat} (hl : c.lanes.getLsbD l = true) :
    (w'.thread l).gen = g (s.laneIn w l) := by
  rw [h.gens l, if_pos (by simpa [computing, hu] using hl), hg, Option.getD_some]

/-! ## Record slots (R124) -/

/-- The result of a SREC in lane `l`. -/
def srecResult (c : Issue) (w : Wave) (d : Reg) (n : BitVec 4) (l id : Nat) : Pending :=
  { id, lane := if d.isUni then none else some l, lanes := if d.isUni then c.lanes else laneBit l, regs := [d]
    vals := [BitVec.ofNat 32 ((w.thread l).slot n.toNat)]
    late := some (l, .slot n.toNat (Map.get 0 (w.thread l).recOwner n.toNat)) }

theorem lanesOf_laneBit {l : Nat} (h : l < 32) : lanesOf (laneBit l) = [l] := by
  refine List.perm_singleton.mp ((List.perm_ext_iff_of_nodup (lanesOf_nodup _) (List.nodup_singleton l)).mpr fun j => ?_)
  simp only [mem_lanesOf, getLsbD_laneBit, List.mem_singleton, Bool.and_eq_true, decide_eq_true_eq]
  omega

theorem lanesFor_eq {c : Issue} (hc : c.lanes ≠ 0) (d : Reg) :
    lanesFor d c = lanesOf (if d.isUni then laneBit (lowest c.lanes) else c.lanes) := by
  unfold lanesFor
  split
  · exact (lanesOf_laneBit (lowest_mem hc).1).symm
  · rfl

theorem srecAct_eq {c : Issue} (hc : c.lanes ≠ 0) (d : Reg) (n : BitVec 4) (s : State) (w : Wave) :
    ∃ step, srecAct d n s c w c.lanes = (lanesFor d c).foldl step s ∧ Appends w.id step (srecResult c w d n) :=
  ⟨_, by rw [lanesFor_eq hc]; rfl, fun _ _ => rfl⟩

/-- Settles O14: the generator's words are of the fixed class, and SREC leaves the results of `srecResult`. -/
theorem generatorAndRecordResults : Obligations.GeneratorAndRecordResults := by
  refine ⟨fun s c w h => ⟨fun a hreg => ?seed, fun d hwf hreg => ?next⟩, fun s c w d n hwf h hreg => ?srec⟩
  case seed =>
    obtain ⟨t, w', hex, hd⟩ := (rngseed_form a).done h hreg
    exact ⟨t, w', hex, hd.frame, hd.goOn, hd.maskKept fun _ => rfl, hd.regsKept fun _ => rfl, hd.xstat_kept fun _ => rfl,
      fun l hl => hd.gen rfl (fun _ => rfl) hl⟩
  case next =>
    have hv : d.isUni = false := by simpa [Instr.info] using shapeOk_of_wellFormed hwf
    have hu : (Instr.rngnext d).info.dst.any Reg.isUni = d.isUni := by simp [Instr.info]
    obtain ⟨t, w', hex, hd⟩ := (rngnext_form d).done h hreg
    exact ⟨t, w', hex, hd.frame, hd.goOn, hd.maskKept fun _ => rfl, hd.xstat_kept fun _ => rfl,
      hd.wrote h.lanes hu (fun _ => .single d _) fun _ _ => rfl, fun l hl => hd.gen (hu.trans hv) (fun _ => rfl) hl⟩
  case srec =>
    obtain ⟨step, hact, hstep⟩ := srecAct_eq h.lanes d n s w
    obtain ⟨t, w', hrun, hret, hgen, hres⟩ := runWord_results (op := { act := srecAct d n }) h (Free.allowed ⟨rfl, rfl, rfl⟩ hreg)
      (fun _ _ => rfl) (fun _ => rfl) hact hstep
    refine ⟨t, w', hrun, hret, hgen, fun l hl => ?_⟩
    obtain ⟨id, hp⟩ := hres l hl
    refine ⟨_, hp, rfl, rfl, rfl, ?_, rfl, rfl, rfl⟩
    simp only [srecResult, Thread.slot, Nat.pow_mul, Nat.reducePow]

end Sys2Proof.Machine
end

section
/-! O23: FENCE, ACQ, REL and COMMIT where nothing is committed (R107, R217, R218). `acquire_sect` says what copies an acquire half
ends, and `runWord_unit` what a word leaves whose effect is on storage alone. -/

namespace Sys2Proof.Machine
open Sys2Proof.Claims

/-! ## Words with an effect on storage alone -/

/-- A word whose checks go on and that has an effect on no wave. -/
theorem runWord_unit {s u : State} {i : Instr} {op : WordOp} {c : Issue} {w : Wave} (h : Issuing s c w) (ha : Allowed s i w)
    (hg : ChecksGo s op c w) (hc : s.versioned (s.gangOf w) = true → op.commit s w (s.gangOf w) = false)
    (hact : op.act s c w c.lanes = u) (hcur : u.cur = s.cur) (hw : u.waves = s.waves) :
    ∃ t w', runWord i op s = .next t ∧ ReturningWord u c w t w' ∧ GenKept c w w' := by
  have hnone : u.modWave w.id (Wave.withPends []) = u := by simp [State.modWave, modBy, Wave.withPends]
  have hmine : u.wave? w.id = some w := by
    rw [← h.waveId, ← h.wave, State.wave?, hw]
    rfl
  have hF := withPends_returns []
  obtain ⟨t, w', hrun, he⟩ := runWord_effect h ha hg hc (hact.trans hnone.symm) (hcur.trans h.cur) hmine hF.mild
  obtain ⟨hfr, hhere, hregs, hmask, hx, -⟩ := ended_returns h hF (fun _ _ => rfl) he
  refine ⟨t, w', hrun, ⟨hfr, fun l hl => ?_, hmask, hregs, hx⟩, fun l hl => ?_⟩
  · rw [hhere l hl]
  · rw [hhere l hl]
    rfl

/-! ## The acquire half (R107, R199, R217) -/

/-- What the homes serve depends on memory and on the dirty words of the copies on the home dies. -/
theorem homeView_congr_dirty {s t : State} {line : Nat} (hm : t.mem = s.mem)
    (hd : (t.dirtyOf line).map (fun x => (x.dirty, x.data)) = (s.dirtyOf line).map fun x => (x.dirty, x.data)) :
    t.homeView line = s.homeView line := by
  have hfold : ∀ (xs : List SectLine) (l : Line), xs.foldl (fun l x => mergeLine (wordBytes x.dirty) l x.data) l =
      (xs.map fun x => (x.dirty, x.data)).foldl (fun l y => mergeLine (wordBytes y.1) l y.2) l := fun xs l => by
    rw [List.foldl_map]
  rw [homeView_def, homeView_def, hm, hfold, hd, ← hfold]

/-- Elements left out and changed where a second filter, and what is read of an element, do not see it. -/
theorem map_filter_modBy_filter {α β : Type} {p q d : α → Bool} {f : α → α} {g : α → β} (hp : ∀ x, d x = true → p x = true)
    (hd : ∀ x, d (f x) = d x) (hg : ∀ x, g (f x) = g x) :
    ∀ l : List α, ((modBy (l.filter p) q f).filter d).map g = (l.filter d).map g
  | [] => rfl
  | x :: l => by
    have ih := map_filter_modBy_filter (q := q) hp hd hg l
    unfold modBy at ih ⊢
    by_cases hx : p x = true
    · rw [List.filter_cons_of_pos hx, List.map_cons, List.filter_cons, List.filter_cons]
      by_cases hq : q x = true <;> by_cases hdx : d x = true <;> simp [hq, hdx, hd, hg, ih]
    · rw [List.filter_cons_of_neg hx, ih, List.filter_cons_of_neg fun e => hx (hp x e)]

/-- An acquire half ends copies and marks fills and copies; it does nothing else. -/
theorem acquire_rest (s : State) (core : Nat) (p : Scope) : s.acquire core p =
    { s with l1 := (s.acquire core p).l1, sect := (s.acquire core p).sect, fills := (s.acquire core p).fills } := by
  cases p <;> rfl

/-- Is the scope one whose acquire half ends L1 copies, or remote-tagged copies as well (R217)? -/
theorem acquire_narrow (s : State) (core : Nat) {p : Scope} (h : p = .wave ∨ p = .wg ∨ p = .gang) : s.acquire core p = s := by
  rcases h with rfl | rfl | rfl <;> rfl

theorem acquire_l1 (s : State) (core : Nat) {p : Scope} (h : p = .sect ∨ p = .die ∨ p = .pkg ∨ p = .sys) :
    (s.acquire core p).l1 = s.l1.filter fun x => x.core != core := by
  rcases h with rfl | rfl | rfl | rfl <;> rfl

theorem acquire_sect_near (s : State) (core : Nat) {p : Scope} (h : ¬(p = .pkg ∨ p = .sys)) : (s.acquire core p).sect = s.sect := by
  cases p <;> simp_all [State.acquire]

theorem acquire_sect_far (s : State) (core : Nat) {p : Scope} (h : p = .pkg ∨ p = .sys) : (s.acquire core p).sect =
    modBy (s.sect.filter fun x => !(x.sector == coreSector core && x.remote))
      (fun x => !(s.readable (coreDie core) (coreDie core)) && x.sector == coreSector core) fun x => { x with behind := true } := by
  rcases h with rfl | rfl <;> rfl

/-- An acquire half changes nothing that any home serves. -/
theorem homeView_acquire (s : State) (core : Nat) (p : Scope) (line : Nat) : (s.acquire core p).homeView line = s.homeView line := by
  have hm : (s.acquire core p).mem = s.mem := by rw [acquire_rest]
  by_cases h : p = .pkg ∨ p = .sys
  · refine homeView_congr_dirty hm ?_
    unfold State.dirtyOf
    rw [acquire_sect_far s core h]
    refine map_filter_modBy_filter (fun x hx => ?_) (fun x => ?_) (fun x => ?_) _
    · simp only [Bool.and_eq_true, Bool.not_eq_true'] at hx
      simp [hx.1.2]
    · rfl
    · rfl
  · exact homeView_congr hm (acquire_sect_near s core h) line

/-! ## The four words -/

theorem acquired {s : State} {w : Wave} {p : Scope} (hp : p = .sect ∨ p = .die ∨ p = .pkg ∨ p = .sys) :
    (∀ x, x ∈ (s.acquire w.core p).l1 ↔ x ∈ s.l1 ∧ x.core ≠ w.core) ∧
    let here (x : SectLine) : Prop := (p = .pkg ∨ p = .sys) ∧ x.sector = coreSector w.core
    let late : Prop := s.readable (coreDie w.core) (coreDie w.core) = false
    ∀ x, x ∈ (s.acquire w.core p).sect ↔ ∃ y ∈ s.sect, ¬(here y ∧ y.remote = true) ∧ (here y ∧ late → x = { y with behind := true }) ∧
      (¬(here y ∧ late) → x = y) := by
  refine ⟨fun x => by simp [acquire_l1 s w.core hp], fun x => ?_⟩
  by_cases hfar : p = .pkg ∨ p = .sys
  · simp only [acquire_sect_far s w.core hfar, modBy, List.mem_map, List.mem_filter, hfar, true_and]
    refine exists_congr fun y => ?_
    rw [and_assoc]
    refine and_congr_right fun _ => and_congr (by simp [imp_iff_not_or]) ?_
    by_cases hy : y.sector = coreSector w.core ∧ s.readable (coreDie w.core) (coreDie w.core) = false
    · rw [if_pos (by simp [hy.1, hy.2])]
      simp only [hy, and_self, true_imp_iff, not_true_eq_false, false_imp_iff, and_true]
      exact eq_comm
    · rw [if_neg (by simpa [and_comm] using hy)]
      simp only [hy, not_false_eq_true, true_imp_iff, false_imp_iff, true_and]
      exact eq_comm
  · simp [acquire_sect_near s w.core hfar, hfar]

theorem relCheck_go {p : Scope} {s : State} {c : Issue} {w : Wave} {l : Nat} (h : s.threadClear w l p = true) :
    relCheck p s c w l = .go := if_pos h

theorem acqCheck_go {p : Scope} {s : State} {c : Issue} {w : Wave} {l : Nat} (h : s.relsDone w l p = true) :
    acqCheck p s c w l = .go := if_pos h

/-- The four words as one shape: what each checks, where it is a commit point, and its acquire half. -/
theorem fence_exec {i : Instr} {p : Scope} (h : i = .fence p ∨ i = .acq p ∨ i = .rel p ∨ i = .commit ∧ p = .pkg) :
    ∃ op : WordOp, (∀ s, exec i s = runWord i op s) ∧
      (op.check = if i = .acq p then acqCheck p else relCheck p) ∧
      (∀ s w g, op.commit s w g = true → i ≠ .acq p ∧ (i ≠ .commit → scopeWide p = true)) ∧
      ∀ s c w m, op.act s c w m = if i = .fence p ∨ i = .acq p then s.acquire w.core p else s := by
  rcases h with rfl | rfl | rfl | ⟨rfl, rfl⟩
  · exact ⟨{ check := relCheck p, commit := relCommits p, act := acqAct p }, fun _ => rfl, by simp,
      fun _ _ _ h => ⟨by simp, fun _ => h⟩, fun _ _ _ _ => by simp [acqAct]⟩
  · exact ⟨{ check := acqCheck p, act := acqAct p }, fun _ => rfl, by simp, fun _ _ _ h => (Bool.false_ne_true h).elim,
      fun _ _ _ _ => by simp [acqAct]⟩
  · exact ⟨{ check := relCheck p, commit := relCommits p }, fun _ => rfl, by simp, fun _ _ _ h => ⟨by simp, fun _ => h⟩,
      fun _ _ _ _ => by simp⟩
  · exact ⟨{ check := relCheck .pkg, commit := fun _ _ _ => true }, fun _ => rfl, by simp, fun _ _ _ _ => ⟨by simp, fun h => absurd rfl h⟩,
      fun _ _ _ _ => by simp⟩

/-- Settles O23: the words differ in what they wait for and in whether they have an acquire half. -/
theorem fenceResults : Obligations.FenceResults := by
  intro s c w i p hi _ h ha hver hwait
  obtain ⟨op, hex, hcheck, hcommit, hact⟩ := fence_exec hi
  have hg : ChecksGo s op c w := fun l hl => by
    have hl := hwait l hl
    rw [hcheck]
    split at hl
    · next hacq => rw [if_pos hacq]; exact acqCheck_go hl
    · next hacq => rw [if_neg hacq]; exact relCheck_go hl
  have hc : s.versioned (s.gangOf w) = true → op.commit s w (s.gangOf w) = false := fun hv => by
    by_contra hcom
    obtain ⟨hne, hwide⟩ := hcommit s w _ (by simpa using hcom)
    obtain ⟨hn, hnarrow⟩ := (hver hv).resolve_left hne
    rw [hwide hn] at hnarrow
    cases hnarrow
  by_cases hacq : i = .fence p ∨ i = .acq p
  · have hact := (hact s c w c.lanes).trans (if_pos hacq)
    obtain ⟨t, w', hrun, hret, hgen⟩ := runWord_unit h ha hg hc hact (by rw [acquire_rest]) (by rw [acquire_rest])
    refine ⟨t, w', s.acquire w.core p, (hex s).trans hrun, hret, hgen, acquire_rest .., homeView_acquire s w.core p, ?_, fun _ => acquired⟩
    rintro (rfl | rfl | hp)
    · simp at hacq
    · simp at hacq
    · exact acquire_narrow s w.core hp
  · have hact := (hact s c w c.lanes).trans (if_neg hacq)
    obtain ⟨t, w', hrun, hret, hgen⟩ := runWord_unit h ha hg hc hact rfl rfl
    exact ⟨t, w', s, (hex s).trans hrun, hret, hgen, rfl, fun _ => rfl, fun _ => rfl, fun e => absurd e hacq⟩

end Sys2Proof.Machine
end

section
/-! O18: LDSP (R109 to R111). No hypothesis of ScratchpadLoads asks that gang numbers be distinct: its clause on groups gives every
gang of the number the full granules of the first, while a load leaves those of the others alone. -/

namespace Sys2Proof.Machine
open Sys2Proof.Claims

/-- A wave of one running thread of gang 2. -/
def loadingWave : Wave := { id := 1, gang := 2, track := some 0, threads := [{}] }

/-- The thread issues one word. -/
def loadingIssue : Issue :=
  { wave := 1, lanes := 1, pc := 4, word := 0, wordPc := 4, nextPc := 8, view := some loadingWave }

/-- The wave's gang, whose granule 0 is full, and another of its number, whose granule 1 is. -/
def loadingGang : Gang := { id := 2, launch := 3, place := some (0, 0), full := [0] }
def secondGang : Gang := { loadingGang with full := [1] }

/-- The gang has 64 bytes of scratchpad. -/
def twoGangs : State :=
  { cur := some loadingIssue, waves := [loadingWave], gangs := [loadingGang, secondGang]
    launches := [{ id := 3, ctx := 0, hdr := { scratch := 64 } }] }

/-- A waiting load of the four bytes at offset 0 of the scratchpad. -/
def keepingLoad : Instr := .ldsp .b32 (.v 0) (.s 0) .wave .plain .waitkeep

theorem twoGangs_issuing : Issuing twoGangs loadingIssue loadingWave where
  cur := rfl
  wave := rfl
  single := rfl
  lanes := by decide
  runs l hl := by
    have hl0 : l = 0 := of_decide_eq_true (Bool.and_eq_true_iff.mp (getLsbD_laneBit (l := 0) (k := l) ▸ hl)).2
    rw [hl0]
    rfl

theorem twoGangs_not_waiting : NoFeWait twoGangs 2 := by
  intro v hv _ l x hx
  rw [List.mem_singleton.mp hv] at hx
  refine absurd hx (not_waits_of_not_held (fun y => ?_) x)
  rw [thread_replicate loadingWave {} l 1 rfl]
  split <;> simp

/-- The full granules of every gang after a step. -/
def fullAfter : Host.Outcome State Fault Refusal → List (List Nat)
  | .next t => t.gangs.map (·.full)
  | _ => []

/-- The load leaves every granule as it was, and what the first gang's turns leave is its own. -/
theorem twoGangs_full : fullAfter (exec keepingLoad twoGangs) = [[0], [1]] ∧
    (loadTurns false 4 (fun l => (rd twoGangs loadingWave l (.s 0)).toNat) [0] (lanesOf 1)).2 = [0] := by
  decide +kernel

/-- Where no thread of a gang waits on granules, what a release may change leaves the gang as it is. -/
theorem GangKept.eq_of_noFeWait {s : State} {g g' : Gang} (h : GangKept s g g') (hno : NoFeWait s g.id) : g' = g := by
  obtain ⟨-, he | ⟨v, hv, hg, l, x, hx, hfe⟩⟩ := h
  · exact he
  · exact absurd hfe (hno v hv hg l x hx)

/-- Refutes O18: of two gangs of one number the second keeps its own full granules, where the clause on groups gives it those of the
first. -/
theorem not_scratchpadLoads : ¬ Obligations.ScratchpadLoads := by
  intro h
  have hea : ∀ l, rd twoGangs loadingWave l (.s 0) = 0 := fun _ => rfl
  obtain ⟨-, hgood⟩ := h twoGangs loadingIssue loadingWave .b32 (.v 0) (.s 0) .wave .plain .waitkeep loadingGang (by decide)
    twoGangs_issuing (by decide) rfl fun l _ => by rw [hea]; exact ⟨by decide, by decide, nofun, nofun⟩
  obtain ⟨-, -, hgroups, -⟩ := hgood fun _ _ => rfl
  obtain ⟨t, w', hexec, hframe, -⟩ := hgroups (by decide) rfl twoGangs_not_waiting
  obtain ⟨hfull, hturns⟩ := twoGangs_full
  have hkept : ∀ g ∈ t.gangs, g.full = [0] := fun g' hg' => by
    obtain ⟨g, hg, hk⟩ := forall₂_mem hframe.gangs hg'
    obtain ⟨x, hx, rfl⟩ := List.mem_map.mp hg
    have hid : (x.id == loadingWave.gang) = true := by
      rcases List.mem_pair.mp hx with rfl | rfl <;> rfl
    rw [if_pos hid] at hk
    rw [hk.eq_of_noFeWait fun v hv hg => twoGangs_not_waiting v hv (hg.trans (beq_iff_eq.mp hid))]
    exact hturns
  rw [show exec keepingLoad twoGangs = .next t from hexec, fullAfter] at hfull
  have hmem : [1] ∈ t.gangs.map (·.full) := by rw [hfull]; decide
  obtain ⟨g, hg, hone⟩ := List.mem_map.mp hmem
  exact absurd (hone.symm.trans (hkept g hg)) (by decide)

end Sys2Proof.Machine
end

section
/-! Copies of lines (R173, R175, R176): what a line put into a cache, an eviction and a fill change, and what they leave of what the
homes serve. `homeView_putSect` and `sectLine?_putSect` are the two rules that the loads, stores and fills below are told with. -/

namespace Sys2Proof.Machine
open Sys2Proof.Claims

theorem sectorDie_coreSector (core : Nat) : sectorDie (coreSector core) = coreDie core := by
  unfold sectorDie coreSector coreDie
  omega

/-! ## What each operation may change -/

theorem evictSect_rest (s : State) (sector line : Nat) : s.evictSect sector line =
    { s with mem := (s.evictSect sector line).mem, sect := (s.evictSect sector line).sect } := by
  unfold State.evictSect
  dsimp only
  split <;> rfl

/-- A line put into a sector cache, before another leaves it. -/
def State.withSect (s : State) (x : SectLine) : State :=
  { s with sect := x :: s.sect.filter fun y => !(y.sector == x.sector && y.line == x.line) }

/-- A line put into a sector cache, and the one that then leaves it: another line of the sector. -/
theorem putSect_eq (s : State) (x : SectLine) : s.putSect x = s.withSect x ∨
    ∃ v, v ≠ x.line ∧ s.putSect x = (s.withSect x).picked.evictSect x.sector v := by
  unfold State.putSect
  dsimp only
  split
  · next v hv =>
    refine .inr ⟨v, ?_, rfl⟩
    unfold State.victim at hv
    split at hv
    · cases hv
    · obtain ⟨y, hy, rfl⟩ := List.mem_map.mp (List.mem_of_getElem? hv)
      simp only [List.mem_filter, Bool.not_eq_true', Bool.and_eq_false_iff, beq_eq_false_iff_ne, beq_iff_eq] at hy
      exact hy.1.2.resolve_left fun h => h hy.2
  · exact .inl rfl

theorem putSect_rest (s : State) (x : SectLine) : ∃ m ls ps, s.putSect x = { s with mem := m, sect := ls, picks := ps } := by
  rcases putSect_eq s x with h | ⟨v, -, h⟩
  · exact ⟨_, _, _, h⟩
  · rw [h, evictSect_rest]
    exact ⟨_, _, _, rfl⟩

theorem putL1_rest (s : State) (x : L1Line) : ∃ ls ps, s.putL1 x = { s with l1 := ls, picks := ps } := by
  unfold State.putL1
  dsimp only
  split <;> exact ⟨_, _, rfl⟩

theorem fillL1_rest (s : State) (gang core : Nat) (pol : CachePol) (line : Nat) (x : Line) :
    ∃ ls ps, s.fillL1 gang core pol line x = { s with l1 := ls, picks := ps } := by
  unfold State.fillL1
  split
  · exact putL1_rest s _
  · exact ⟨_, _, rfl⟩

/-! ## What the homes serve -/

theorem homeView_dropSect {s : State} {sector line : Nat}
    (h : ∀ x ∈ s.sect, x.sector = sector → x.line = line → x.remote = true ∨ x.dirty = 0) (l : Nat) :
    (s.dropSect sector line).homeView l = s.homeView l := by
  have hd : (s.dropSect sector line).dirtyOf l = s.dirtyOf l := by
    show (s.sect.filter _).filter _ = s.sect.filter _
    rw [List.filter_filter]
    refine List.filter_congr fun x hx => ?_
    by_cases hxl : x.sector = sector ∧ x.line = line
    · rcases h x hx hxl.1 hxl.2 with hr | hr <;> simp [hr]
    · have : ¬ (x.sector == sector && x.line == line) = true := by simpa using hxl
      simp [this]
  rw [homeView_def, homeView_def, hd]
  rfl

/-- What is left of a line's copies after a write-back is clean. -/
theorem clean_homeSync {s : State} {line : Nat} {x : SectLine} (hx : x ∈ (s.homeSync line).sect) (hl : x.line = line) :
    x.remote = true ∨ x.dirty = 0 := by
  obtain ⟨y, -, rfl⟩ := List.mem_map.mp hx
  split
  · exact .inr rfl
  · next h =>
    rw [if_neg h] at hl
    exact .inl (by simpa [hl] using h)

/-- An eviction changes nothing that any home serves: what was dirty has been written back. -/
theorem homeView_evictSect (s : State) (sector line l : Nat) : (s.evictSect sector line).homeView l = s.homeView l := by
  unfold State.evictSect
  dsimp only
  split
  · rw [homeView_dropSect (fun x hx _ hl => clean_homeSync hx hl), homeView_homeSync]
  · next h =>
    refine homeView_dropSect (fun x hx hs hl => ?_) l
    simp only [List.any_eq_true, not_exists, Bool.and_eq_true, beq_iff_eq, Bool.not_eq_true', not_and, Bool.not_eq_false] at h
    exact .inl (h x hx ⟨hs, hl⟩)

theorem homeView_putSect (s : State) (x : SectLine) (l : Nat) : (s.putSect x).homeView l = (s.withSect x).homeView l := by
  rcases putSect_eq s x with h | ⟨v, -, h⟩
  · rw [h]
  · rw [h, homeView_evictSect]
    exact homeView_congr rfl rfl l

/-- The dirty copies of a line once a copy that replaces none of them has been put into a sector cache. -/
theorem dirtyOf_withSect {s : State} {x : SectLine} (h : ∀ y ∈ s.dirtyOf x.line, y.sector ≠ x.sector) (l : Nat) :
    (s.withSect x).dirtyOf l = if x.line = l ∧ x.remote = false ∧ x.dirty ≠ 0 then x :: s.dirtyOf l else s.dirtyOf l := by
  have hd : (s.sect.filter fun y => !(y.sector == x.sector && y.line == x.line)).filter (fun y => y.line == l && !y.remote && y.dirty != 0) =
      s.dirtyOf l := by
    rw [List.filter_filter]
    refine List.filter_congr fun y hy => ?_
    cases hc : (y.line == l && !y.remote && y.dirty != 0)
    · rfl
    · have hb := hc
      simp only [Bool.and_eq_true, beq_iff_eq] at hb
      by_cases hl : y.line = x.line
      · have hmem : y ∈ s.dirtyOf x.line := List.mem_filter.mpr ⟨hy, by rw [← hl, hb.1.1]; rw [hb.1.1] at hc; exact hc⟩
        simp [h y hmem]
      · simp [hl]
  show (x :: s.sect.filter _).filter _ = _
  rw [List.filter_cons, hd]
  refine if_congr ?_ rfl rfl
  simp [and_assoc]

/-- A copy that is clean, or of another die's line, changes nothing that any home serves. -/
theorem homeView_putSect_clean {s : State} {x : SectLine} (h : ∀ y ∈ s.dirtyOf x.line, y.sector ≠ x.sector)
    (hx : x.remote = true ∨ x.dirty = 0) (l : Nat) : (s.putSect x).homeView l = s.homeView l := by
  rw [homeView_putSect, homeView_def, homeView_def, dirtyOf_withSect h, if_neg]
  · rfl
  · rintro ⟨-, hr, hd⟩
    rcases hx with hx | hx
    · simp [hx] at hr
    · exact hd hx

theorem wordBytes_zero : wordBytes 0 = 0 := by decide

theorem mergeLine_zero (old new : Line) : mergeLine 0 old new = old :=
  line_ext fun n hn => by rw [lineByte_mergeLine _ _ _ hn, if_neg (by simp)]

/-- A copy put into a sector cache where no copy of its line is dirty: its own dirty words are what the home then serves. -/
theorem homeView_putSect_dirty {s : State} {x : SectLine} (h : s.dirtyOf x.line = []) (hx : x.remote = false) (l : Nat) :
    (s.putSect x).homeView l = if l = x.line then mergeLine (wordBytes x.dirty) (memLine s.mem l) x.data else s.homeView l := by
  rw [homeView_putSect, homeView_def, dirtyOf_withSect (by simp [h])]
  by_cases hl : x.line = l
  · subst hl
    rw [h, if_pos rfl]
    by_cases hd : x.dirty = 0
    · rw [if_neg (by simp [hd]), hd, wordBytes_zero, mergeLine_zero]
      rfl
    · rw [if_pos ⟨rfl, hx, hd⟩]
      rfl
  · rw [if_neg (fun e => hl e.1), if_neg (Ne.symm hl)]
    rfl

/-! ## What a sector cache holds -/

/-- What is looked for is found alike in the part of a list that holds all there is of it. -/
theorem find?_filter_of_imp {α : Type} {p q : α → Bool} (h : ∀ x, q x = true → p x = true) :
    ∀ l : List α, (l.filter p).find? q = l.find? q
  | [] => rfl
  | x :: l => by
    rw [List.filter_cons, List.find?_cons, ← find?_filter_of_imp h l]
    split
    · rw [List.find?_cons]
    · next hp => rw [Bool.eq_false_iff.mpr fun hq => hp (h x hq)]

theorem sectLine?_some {s : State} {sector line : Nat} {x : SectLine} (h : s.sectLine? sector line = some x) :
    x ∈ s.sect ∧ x.sector = sector ∧ x.line = line :=
  ⟨List.mem_of_find?_eq_some h, by simpa using List.find?_some h⟩

theorem sectLine?_withSect (s : State) (x : SectLine) : (s.withSect x).sectLine? x.sector x.line = some x := by
  simp [State.withSect, State.sectLine?]

/-- A write-back leaves a copy's words and marks the ones of its own die clean. -/
theorem sectLine?_homeSync (s : State) (l sec line : Nat) : (s.homeSync l).sectLine? sec line =
    (s.sectLine? sec line).map fun x => if x.line == l && !x.remote then { x with dirty := 0 } else x := by
  show (s.sect.map _).find? _ = _
  rw [List.find?_map]
  unfold State.sectLine?
  congr 2
  funext x
  dsimp only [Function.comp]
  split <;> rfl

/-- Another line's write-back and eviction leave a copy where it is. -/
theorem sectLine?_evictSect {s : State} {sector sec line v : Nat} (h : v ≠ line) :
    (s.evictSect sector v).sectLine? sec line = s.sectLine? sec line := by
  have hdrop (t : State) : (t.dropSect sector v).sectLine? sec line = t.sectLine? sec line :=
    find?_filter_of_imp (fun x hx => by
      simp only [Bool.and_eq_true, beq_iff_eq] at hx
      simp [hx.2, Ne.symm h]) t.sect
  have hsync : (s.homeSync v).sectLine? sec line = s.sectLine? sec line := by
    rw [sectLine?_homeSync]
    cases hx : s.sectLine? sec line with
    | none => rfl
    | some x => simp [(sectLine?_some hx).2.2, Ne.symm h]
  unfold State.evictSect
  dsimp only
  split
  · rw [hdrop, hsync]
  · rw [hdrop]

/-- The copy put into a sector cache is the one it then holds. -/
theorem sectLine?_putSect (s : State) (x : SectLine) : (s.putSect x).sectLine? x.sector x.line = some x := by
  rcases putSect_eq s x with h | ⟨v, hv, h⟩
  · rw [h, sectLine?_withSect]
  · rw [h, sectLine?_evictSect hv]
    exact sectLine?_withSect s x

/-! ## Fills (R108, R175) -/

/-- The copy that a fill leaves: the data in the words that were invalid (R175). -/
def State.filled (s : State) (core line : Nat) (last : Bool) (data : Line) : SectLine :=
  let x : SectLine := (s.sectLine? (coreSector core) line).getD
    { sector := coreSector core, line, data := 0, valid := 0, dirty := 0, remote := homeOfLine line != some (coreDie core) }
  { x with data := mergeLine (wordBytes (~~~x.valid)) x.data data, valid := BitVec.allOnes 16
           evictFirst := x.evictFirst || last, behind := s.sectBehind x }

theorem filled_sector (s : State) (core line : Nat) (last : Bool) (data : Line) :
    (s.filled core line last data).sector = coreSector core ∧ (s.filled core line last data).line = line := by
  unfold State.filled
  dsimp only
  cases h : s.sectLine? (coreSector core) line with
  | none => exact ⟨rfl, rfl⟩
  | some x => exact (sectLine?_some h).2

/-- A fill of a sector cache, before an L1 takes its copy. -/
theorem fillNow_eq (s : State) (core line : Nat) (fillSect fillL1 last : Bool) (data : Line) :
    let t := if fillSect then s.putSect (s.filled core line last data) else s
    s.fillNow core line fillSect fillL1 last data = if fillL1 then t.putL1
      { core, line, data := if fillSect then (s.filled core line last data).data else data, evictFirst := last } else t := rfl

theorem fillNow_rest (s : State) (core line : Nat) (fillSect fillL1 last : Bool) (data : Line) : ∃ m ls l1 ps,
    s.fillNow core line fillSect fillL1 last data = { s with mem := m, sect := ls, l1 := l1, picks := ps } := by
  have h : ∃ m ls ps, (if fillSect then s.putSect (s.filled core line last data) else s) = { s with mem := m, sect := ls, picks := ps } := by
    split
    · exact putSect_rest s _
    · exact ⟨_, _, _, rfl⟩
  obtain ⟨m, ls, ps, h⟩ := h
  rw [fillNow_eq, h]
  split
  · obtain ⟨l1, ps, h⟩ := putL1_rest { s with mem := m, sect := ls, picks := ps }
      { core, line, data := if fillSect then (s.filled core line last data).data else data, evictFirst := last }
    exact ⟨_, _, _, _, h⟩
  · exact ⟨_, _, _, _, rfl⟩

/-- An L1 copy has nothing to do with what sector caches hold and homes serve. -/
theorem fillNow_sect (s : State) (core line : Nat) (fillSect fillL1 last : Bool) (data : Line) :
    (s.fillNow core line fillSect fillL1 last data).mem = (if fillSect then s.putSect (s.filled core line last data) else s).mem ∧
    (s.fillNow core line fillSect fillL1 last data).sect = (if fillSect then s.putSect (s.filled core line last data) else s).sect := by
  rw [fillNow_eq]
  generalize (if fillSect then s.putSect (s.filled core line last data) else s) = t
  split
  · obtain ⟨l1, ps, h⟩ := putL1_rest t
      { core, line, data := if fillSect then (s.filled core line last data).data else data, evictFirst := last }
    rw [h]
    exact ⟨rfl, rfl⟩
  · exact ⟨rfl, rfl⟩

theorem sectLine?_fillNow (s : State) (core line : Nat) (fillL1 last : Bool) (data : Line) :
    (s.fillNow core line true fillL1 last data).sectLine? (coreSector core) line = some (s.filled core line last data) := by
  obtain ⟨h1, h2⟩ := filled_sector s core line last data
  have h := sectLine?_putSect s (s.filled core line last data)
  rw [h1, h2] at h
  rw [← h, State.sectLine?, (fillNow_sect s core line true fillL1 last data).2]
  rfl

/-- A fill changes nothing that any home serves where the copies of its line at the sector have nothing to write back. -/
theorem homeView_fillNow {s : State} {core line : Nat} (fillSect fillL1 last : Bool) (data : Line)
    (h : ∀ x ∈ s.sect, x.line = line → x.sector = coreSector core → x.remote = true ∨ x.dirty = 0) (l : Nat) :
    (s.fillNow core line fillSect fillL1 last data).homeView l = s.homeView l := by
  obtain ⟨hm, hs⟩ := fillNow_sect s core line fillSect fillL1 last data
  rw [homeView_congr hm hs]
  split
  · obtain ⟨h1, h2⟩ := filled_sector s core line last data
    refine homeView_putSect_clean (fun y hy he => ?_) ?_ l
    · obtain ⟨hy, hc⟩ := List.mem_filter.mp hy
      simp only [Bool.and_eq_true, beq_iff_eq, Bool.not_eq_true', bne_iff_ne, ne_eq, h2] at hc
      rcases h y hy hc.1.1 (he.trans h1) with e | e
      · simp [e] at hc
      · exact hc.2 e
    · unfold State.filled
      dsimp only
      cases hx : s.sectLine? (coreSector core) line with
      | none => exact .inr rfl
      | some x =>
        obtain ⟨hmem, hsec, hline⟩ := sectLine?_some hx
        exact h x hmem hline hsec
  · rfl

/-! ## Reads at a home (R176, R201) -/

theorem homeView_touchHome (s : State) (line l : Nat) : (s.touchHome line).homeView l = s.homeView l := by
  obtain ⟨hl, ps, h⟩ := touchHome_rest s line
  rw [h]
  exact homeView_congr rfl rfl l

theorem homeView_dropRemote (s : State) (d line l : Nat) : (s.dropRemote d line).homeView l = s.homeView l :=
  homeView_endRemote s d line l

end Sys2Proof.Machine
end

section
/-! Monitors (R184, R185, R220): what a performed write does to the waves that watch its line, and the rules of the performed store
(R105 to R108, R175) that say so. -/

namespace Sys2Proof.Machine
open Sys2Proof.Claims

/-! ## Waves whose monitors record events -/

/-- The threads that WAITM holds go on (R220). -/
def Wave.woken (v : Wave) : Wave :=
  { v with monitor := none, threads := v.threads.map fun t => if t.hold? == some .waitm then t.goOn else t }

/-- What a wave may be once lines have been written: its armed monitor has an event, or it has woken what WAITM held. -/
inductive Rung (v : Wave) : Wave → Prop
  | same : Rung v v
  | event (m : Monitor) : v.monitor = some m → Rung v { v with monitor := some { m with event := true } }
  | woken : v.monitor.isSome = true → Rung v v.woken

theorem Rung.eq {v v' : Wave} (h : Rung v v') : v' = { v with monitor := v'.monitor, threads := v'.threads } := by
  cases h <;> rfl

theorem Rung.id {v v' : Wave} (h : Rung v v') : v'.id = v.id := by rw [h.eq]

theorem Rung.trans {u v w : Wave} (h : Rung u v) (h' : Rung v w) : Rung u w := by
  cases h with
  | same => exact h'
  | event m hm =>
    cases h' with
    | same => exact .event m hm
    | event n hn =>
      obtain rfl : { m with event := true } = n := Option.some.inj hn
      exact .event m hm
    | woken _ => exact .woken (by rw [hm]; rfl)
  | woken _ =>
    cases h' with
    | same => exact .woken (by assumption)
    | event n hn => cases hn
    | woken hn => cases hn

theorem woken_thread (v : Wave) (l : Nat) :
    v.woken.thread l = if (v.thread l).hold? == some .waitm then (v.thread l).goOn else v.thread l := by
  show (v.threads.map _).getD l ({ st := .ended } : Thread) = _
  simp only [Wave.thread, List.getD_eq_getElem?_getD, List.getElem?_map]
  cases v.threads[l]? <;> rfl

/-- A thread of a wave is as before, or WAITM held it and it goes on. -/
theorem Rung.thread {v v' : Wave} (h : Rung v v') (l : Nat) :
    v'.thread l = v.thread l ∨ (v.thread l).st = .held .waitm ∧ v'.thread l = (v.thread l).goOn := by
  cases h with
  | same => exact .inl rfl
  | event m _ => exact .inl rfl
  | woken _ =>
    rw [woken_thread]
    split
    · next he =>
      refine .inr ⟨?_, rfl⟩
      unfold Thread.hold? at he
      split at he
      · next hs => rw [hs]; exact congrArg ThreadSt.held (Option.some.inj (beq_iff_eq.mp he))
      · cases he
    · exact .inl rfl

/-- The waves of a state after writes to lines, one for one. -/
def RungAll (vs vs' : List Wave) : Prop := List.Forall₂ Rung vs vs'

theorem RungAll.refl (vs : List Wave) : RungAll vs vs := List.forall₂_same.mpr fun _ _ => .same

theorem RungAll.trans {us vs ws : List Wave} (h : RungAll us vs) (h' : RungAll vs ws) : RungAll us ws := by
  unfold RungAll at *
  induction h generalizing ws with
  | nil => exact h'
  | cons hr _ ih =>
    cases h' with
    | cons hr' ht' => exact .cons (hr.trans hr') (ih ht')

/-- The wave with a number is found where it was. -/
theorem RungAll.find {vs vs' : List Wave} (h : RungAll vs vs') {id : Nat} {v : Wave} (hv : vs.find? (fun w => w.id == id) = some v) :
    ∃ v', vs'.find? (fun w => w.id == id) = some v' ∧ Rung v v' := by
  unfold RungAll at h
  induction h with
  | nil => cases hv
  | cons hr _ ih =>
    rw [List.find?_cons] at hv ⊢
    rw [hr.id]
    split at hv
    · exact ⟨_, rfl, Option.some.inj hv ▸ hr⟩
    · exact ih hv

theorem monEvent_rest (s : State) (line : Nat) (p : Wave → Bool) :
    ∃ ws, s.monEvent line p = { s with waves := ws } ∧ RungAll s.waves ws := by
  refine ⟨_, rfl, List.forall₂_map_right_iff.mpr (List.forall₂_same.mpr fun v _ => ?_)⟩
  split
  · next m hm =>
    split
    · split
      · exact .woken (by rw [hm]; rfl)
      · exact .event m hm
    · exact .same
  · exact .same

theorem homeView_monEvent (s : State) (line : Nat) (p : Wave → Bool) (l : Nat) : (s.monEvent line p).homeView l = s.homeView l :=
  homeView_congr rfl rfl l

theorem homeWrite_rung (s : State) (w : LineWrite) : ∃ m ls hs hl ps ws, RungAll s.waves ws ∧ s.homeWrite w =
    { s with mem := m, sect := ls, hostLines := hs, homeLines := hl, picks := ps, waves := ws } := by
  rw [homeWrite_def]
  obtain ⟨hl, ps, h⟩ := touchHome_rest { s.endOthers none w.line with
    mem := memPut (s.homeSync w.line).mem w, hostLines := s.hostLines.filter (· != w.line) } w.line
  rw [h]
  obtain ⟨ws, hws, hr⟩ := monEvent_rest { s.endOthers none w.line with
    mem := memPut (s.homeSync w.line).mem w, hostLines := s.hostLines.filter (· != w.line), homeLines := hl, picks := ps } w.line
    fun _ => true
  rw [hws]
  exact ⟨_, _, _, _, _, _, hr, rfl⟩

end Sys2Proof.Machine
end

section
/-! Stores of a thread at its own die (R105 to R108, R175, R176): `storeNow_near` gives the steps, and `stored_whole` the line that
the home serves and the sector's copy afterwards. -/

namespace Sys2Proof.Machine
open Sys2Proof.Claims

/-! ## Words and their bytes -/

/-- A number that has a field of `e` ones for each place with the property. -/
theorem testBit_fields (p : Nat → Bool) (e j : Nat) : ∀ k,
    (List.range k).foldl (fun a i => if p i then a + (2 ^ e - 1) * 2 ^ (e * i) else a) 0 < 2 ^ (e * k) ∧
    ((List.range k).foldl (fun a i => if p i then a + (2 ^ e - 1) * 2 ^ (e * i) else a) 0).testBit j =
      (decide (j < e * k) && p (j / e))
  | 0 => by simp
  | k + 1 => by
    obtain ⟨hlt, hbit⟩ := testBit_fields p e j k
    rw [List.range_succ, List.foldl_append, List.foldl_cons, List.foldl_nil]
    generalize (List.range k).foldl (fun a i => if p i then a + (2 ^ e - 1) * 2 ^ (e * i) else a) 0 = a at hlt hbit
    have hp : (2 : Nat) ^ (e * (k + 1)) = 2 ^ e * 2 ^ (e * k) := by rw [Nat.mul_add, Nat.pow_add, Nat.mul_one, Nat.mul_comm]
    have he : e * (k + 1) = e * k + e := Nat.mul_succ e k
    have hone : 0 < 2 ^ e := Nat.two_pow_pos e
    have hplace : ¬ j < e * k → j < e * (k + 1) → j / e = k := fun h1 h2 =>
      Nat.div_eq_of_lt_le (by rw [Nat.mul_comm]; omega) (by rw [Nat.mul_comm]; exact h2)
    split
    · next hk =>
      refine ⟨?_, ?_⟩
      · rw [hp]
        calc a + (2 ^ e - 1) * 2 ^ (e * k) < 2 ^ (e * k) + (2 ^ e - 1) * 2 ^ (e * k) := by omega
          _ = 2 ^ e * 2 ^ (e * k) := by rw [Nat.sub_mul, Nat.one_mul]; have := Nat.le_mul_of_pos_left (2 ^ (e * k)) hone; omega
      · rw [Nat.add_comm, Nat.mul_comm, Nat.testBit_two_pow_mul_add _ hlt]
        split
        · next hj => rw [hbit]; simp [hj, show j < e * (k + 1) by omega]
        · next hj =>
          rw [Nat.testBit_two_pow_sub_one]
          by_cases h : j < e * (k + 1)
          · simp [h, hplace hj h, hk, show j - e * k < e by omega]
          · simp [h, show ¬ j - e * k < e by omega]
    · next hk =>
      refine ⟨?_, ?_⟩
      · rw [hp]
        exact Nat.lt_of_lt_of_le hlt (Nat.le_mul_of_pos_left _ hone)
      · rw [hbit]
        by_cases hj : j < e * k
        · simp [hj, show j < e * (k + 1) by omega]
        · by_cases h : j < e * (k + 1)
          · simp [hplace hj h, hk]
          · simp [hj, h]

theorem getLsbD_wordBytes (v : BitVec 16) (j : Nat) : (wordBytes v).getLsbD j = (decide (j < 64) && v.getLsbD (j / 4)) := by
  have h := (testBit_fields (fun i => v.getLsbD i) 4 j 16).2
  simp only [Nat.reducePow, Nat.reduceSub] at h
  rw [wordBytes, BitVec.getLsbD_ofNat, h]
  by_cases h : j < 64 <;> simp [h]

theorem getLsbD_touched (m : BitVec 64) (i : Nat) :
    (touched m).getLsbD i = (decide (i < 16) && m.toNat / 2 ^ (4 * i) % 16 != 0) := by
  have h := (testBit_fields (fun i => m.toNat / 2 ^ (4 * i) % 16 != 0) 1 i 16).2
  simp only [Nat.reducePow, Nat.reduceSub, one_mul, Nat.div_one] at h
  rw [touched, BitVec.getLsbD_ofNat, h]
  by_cases h : i < 16 <;> simp [h]

/-- A byte of a mask lies in one of the words it touches. -/
theorem touched_of_bit {m : BitVec 64} {j : Nat} (h : m.getLsbD j = true) : (wordBytes (touched m)).getLsbD j = true := by
  have hj : j < 64 := BitVec.lt_of_getLsbD h
  rw [getLsbD_wordBytes, getLsbD_touched]
  simp only [hj, decide_true, Bool.true_and, show j / 4 < 16 by omega, bne_iff_ne]
  intro h0
  have hbit : (m.toNat / 2 ^ (4 * (j / 4)) % 2 ^ 4).testBit (j % 4) = true := by
    rw [Nat.testBit_mod_two_pow, Nat.testBit_div_two_pow]
    simp only [show j % 4 < 4 by omega, decide_true, Bool.true_and]
    rw [show j % 4 + 4 * (j / 4) = j by omega]
    exact h
  rw [show (2 : Nat) ^ 4 = 16 from rfl, h0] at hbit
  simp at hbit

theorem not_allOnes : ~~~BitVec.allOnes 16 = 0 := by decide

/-! ## The write-back before a store (R176) -/

theorem dirtyOf_endOthers_keep (s : State) (keep : Option Nat) (line l' : Nat) :
    (s.endOthers keep line).dirtyOf l' = if l' = line then [] else s.dirtyOf l' := by
  have h : (s.endOthers keep line).dirtyOf l' =
      ((s.homeSync line).dirtyOf l').filter fun x => !(x.line == line && !x.remote && keep != some x.sector) := by
    unfold State.endOthers State.dirtyOf
    simp only [List.filter_filter]
    exact List.filter_congr fun x _ => by simp [Bool.and_comm]
  rw [h, dirtyOf_homeSync]
  split
  · rfl
  · next hne =>
    refine List.filter_eq_self.mpr fun x hx => ?_
    have hx := (List.mem_filter.mp hx).2
    simp only [Bool.and_eq_true, beq_iff_eq] at hx
    simp [hx.1.1, hne]

theorem memLine_endOthers (s : State) (keep : Option Nat) (line l' : Nat) :
    memLine (s.endOthers keep line).mem l' = if l' = line then s.homeView line else memLine s.mem l' := memLine_homeSync s line l'

theorem homeView_endOthers (s : State) (keep : Option Nat) (line l' : Nat) : (s.endOthers keep line).homeView l' = s.homeView l' := by
  rw [homeView_def, dirtyOf_endOthers_keep, memLine_endOthers]
  split
  · next h => rw [h, List.foldl_nil]
  · rfl

theorem sectLine?_endOthers (s : State) (sec line : Nat) : (s.endOthers (some sec) line).sectLine? sec line =
    (s.sectLine? sec line).map fun x => if x.remote then x else { x with dirty := 0 } := by
  have h : (s.endOthers (some sec) line).sectLine? sec line = (s.homeSync line).sectLine? sec line :=
    find?_filter_of_imp (fun x hx => by
      simp only [Bool.and_eq_true, beq_iff_eq] at hx
      simp [hx.1]) (s.homeSync line).sect
  rw [h, sectLine?_homeSync]
  cases hx : s.sectLine? sec line with
  | none => rfl
  | some x =>
    cases hr : x.remote <;> simp [(sectLine?_some hx).2.2, hr]

/-! ## The store -/

/-- The L1 copies once a store has updated them or ended them (R108). -/
def State.l1Stored (s : State) (core : Nat) (pol : CachePol) (w : LineWrite) : List L1Line :=
  match pol with
  | .dflt | .last => modBy s.l1 (fun x => x.core == core && x.line == w.line) fun x => { x with data := mergeLine w.mask x.data w.data }
  | .pass | .stream => s.l1.filter fun x => !(x.core == core && x.line == w.line)

/-- The sector cache, or the home, takes the bytes (R108, R175). -/
def State.nearPut (s : State) (sec : Nat) (pol : CachePol) (w : LineWrite) : State :=
  match s.sectLine? sec w.line, pol with
  | some x, _ => s.putSect (x.store w (pol == CachePol.last))
  | none, .stream => State.touchHome { s with mem := memPut s.mem w } w.line
  | none, _ => s.putSect
      (SectLine.store { sector := sec, line := w.line, data := 0, valid := 0, dirty := 0, remote := false } w (pol == CachePol.last))

/-- The state in which a store at its own die finds the caches. -/
def State.nearStart (s : State) (core : Nat) (pol : CachePol) (w : LineWrite) : State :=
  { s.endOthers (some (coreSector core)) w.line with
    l1 := s.l1Stored core pol w, hostLines := s.hostLines.filter (· != w.line) }

theorem storeNow_near {s : State} {core wave : Nat} {pol : CachePol} {w : LineWrite} (h : homeOfLine w.line = some (coreDie core)) :
    s.storeNow core wave pol w =
      ((s.nearStart core pol w).nearPut (coreSector core) pol w).monEvent w.line fun _ => true := by
  unfold State.storeNow
  simp only [h, beq_self_eq_true, if_true]
  cases pol <;> rfl

theorem nearPut_rest (s : State) (sec : Nat) (pol : CachePol) (w : LineWrite) :
    ∃ m ls hl ps, s.nearPut sec pol w = { s with mem := m, sect := ls, homeLines := hl, picks := ps } := by
  have hput (x : SectLine) : ∃ m ls hl ps, s.putSect x = { s with mem := m, sect := ls, homeLines := hl, picks := ps } := by
    obtain ⟨m, ls, ps, h⟩ := putSect_rest s x
    exact ⟨_, _, _, _, h⟩
  unfold State.nearPut
  split
  · exact hput _
  · obtain ⟨hl, ps, h⟩ := touchHome_rest { s with mem := memPut s.mem w } w.line
    exact ⟨_, _, _, _, h⟩
  · exact hput _

/-- What a store at its own die may change. -/
theorem storeNow_near_rest {s : State} {core wave : Nat} {pol : CachePol} {w : LineWrite}
    (h : homeOfLine w.line = some (coreDie core)) : ∃ m ls l1 hs hl ps ws, RungAll s.waves ws ∧ s.storeNow core wave pol w =
      { s with mem := m, sect := ls, l1 := l1, hostLines := hs, homeLines := hl, picks := ps, waves := ws } := by
  rw [storeNow_near h]
  obtain ⟨m, ls, hl, ps, hput⟩ := nearPut_rest (s.nearStart core pol w) (coreSector core) pol w
  rw [hput]
  obtain ⟨ws, hws, hr⟩ := monEvent_rest { s.nearStart core pol w with mem := m, sect := ls, homeLines := hl, picks := ps } w.line
    fun _ => true
  rw [hws]
  exact ⟨_, _, _, _, _, _, _, hr, rfl⟩

/-- A sector's copy that is whole, of its own die's line, and agrees with what the home serves. -/
def State.Whole (s : State) (sec line : Nat) : Prop :=
  ∃ x, s.sectLine? sec line = some x ∧ x.remote = false ∧ x.valid = BitVec.allOnes 16 ∧ x.data = s.homeView line

theorem nearStart_clean (s : State) (core : Nat) (pol : CachePol) (w : LineWrite) : (s.nearStart core pol w).dirtyOf w.line = [] :=
  (dirtyOf_endOthers_keep s (some (coreSector core)) w.line w.line).trans (if_pos rfl)

theorem homeView_nearStart (s : State) (core : Nat) (pol : CachePol) (w : LineWrite) (l : Nat) :
    (s.nearStart core pol w).homeView l = s.homeView l :=
  (homeView_congr rfl rfl l).trans (homeView_endOthers s (some (coreSector core)) w.line l)

theorem memLine_nearStart (s : State) (core : Nat) (pol : CachePol) (w : LineWrite) :
    memLine (s.nearStart core pol w).mem w.line = s.homeView w.line :=
  (memLine_endOthers s (some (coreSector core)) w.line w.line).trans (if_pos rfl)

theorem sectLine?_nearStart (s : State) (core : Nat) (pol : CachePol) (w : LineWrite) :
    (s.nearStart core pol w).sectLine? (coreSector core) w.line =
      (s.sectLine? (coreSector core) w.line).map fun x => if x.remote then x else { x with dirty := 0 } :=
  sectLine?_endOthers s (coreSector core) w.line

/-- A line with dirty bytes merged over what it held is the line with those that a store covered. -/
theorem mergeLine_touched {m : BitVec 64} {old x new : Line}
    (h : ∀ n < 64, (wordBytes (touched m)).getLsbD n = true → m.getLsbD n = false → lineByte x n = lineByte old n) :
    mergeLine (wordBytes (touched m)) old (mergeLine m x new) = mergeLine m old new := by
  refine line_ext fun n hn => ?_
  rw [lineByte_mergeLine _ _ _ hn, lineByte_mergeLine _ _ _ hn, lineByte_mergeLine _ _ _ hn]
  by_cases hm : m.getLsbD n = true
  · rw [if_pos (touched_of_bit hm), if_pos hm, if_pos hm]
  · rw [if_neg hm, if_neg hm]
    split
    · next ht => exact h n hn ht (by simpa using hm)
    · rfl

/-- A store to a whole copy changes its own bytes of what the home serves, and the copy stays whole. -/
theorem stored_whole {s : State} {core wave : Nat} {pol : CachePol} {w : LineWrite} (h : homeOfLine w.line = some (coreDie core))
    (hx : s.Whole (coreSector core) w.line) :
    (s.storeNow core wave pol w).Whole (coreSector core) w.line ∧
    ∀ l, (s.storeNow core wave pol w).homeView l = if l = w.line then mergeLine w.mask (s.homeView l) w.data else s.homeView l := by
  obtain ⟨x, hx, hr, hv, hd⟩ := hx
  obtain ⟨-, hsec, hline⟩ := sectLine?_some hx
  obtain ⟨y, hy⟩ : ∃ y, y = SectLine.store { x with dirty := 0 } w (pol == CachePol.last) := ⟨_, rfl⟩
  have hyline : y.line = w.line := by rw [hy]; exact hline
  have hysec : y.sector = coreSector core := by rw [hy]; exact hsec
  have hyr : y.remote = false := by rw [hy]; exact hr
  have hyv : y.valid = BitVec.allOnes 16 := by
    rw [hy]
    show x.valid ||| _ = _
    rw [hv, BitVec.allOnes_or]
  have hyd : y.dirty = touched w.mask := by
    rw [hy]
    show (if x.remote then (0 : BitVec 16) else 0 ||| touched w.mask) = _
    rw [hr]
    simp
  have hydata : y.data = mergeLine w.mask (s.homeView w.line) w.data := by rw [hy, ← hd]; rfl
  have hput : (s.nearStart core pol w).nearPut (coreSector core) pol w = (s.nearStart core pol w).putSect y := by
    unfold State.nearPut
    rw [sectLine?_nearStart, hx, hy]
    simp [hr]
  rw [storeNow_near h, hput]
  have hserved (l : Nat) : (((s.nearStart core pol w).putSect y).monEvent w.line fun _ => true).homeView l =
      if l = w.line then mergeLine w.mask (s.homeView l) w.data else s.homeView l := by
    rw [homeView_monEvent, homeView_putSect_dirty (by rw [hyline]; exact nearStart_clean s core pol w) hyr, hyline,
      homeView_nearStart]
    split
    · next hl =>
      rw [hl, memLine_nearStart, hyd, hydata, mergeLine_touched fun _ _ _ _ => rfl]
    · rfl
  refine ⟨⟨y, ?_, hyr, hyv, ?_⟩, hserved⟩
  · rw [← hyline, ← hysec]
    exact sectLine?_putSect (s.nearStart core pol w) y
  · rw [hserved, if_pos rfl, hydata]

end Sys2Proof.Machine
end

section
/-! Results that become known below the core (R34, R201): `State.Holds` says that a wave of a gang has a result outstanding, and each
rule below says what an operation leaves of it. -/

namespace Sys2Proof.Machine
open Sys2Proof.Claims

/-- The wave with this number is of this gang and has the result outstanding. -/
def State.Holds (s : State) (id gang : Nat) (p : Pending) : Prop :=
  ∃ w, s.wave? id = some w ∧ w.gang = gang ∧ p ∈ w.pend

theorem State.Holds.congr {s t : State} (hw : t.waves = s.waves) {id gang : Nat} {p : Pending} (h : s.Holds id gang p) :
    t.Holds id gang p := by
  unfold State.Holds State.wave? at *
  rwa [hw]

theorem State.Holds.rung {s t : State} (hw : RungAll s.waves t.waves) {id gang : Nat} {p : Pending}
    (h : s.Holds id gang p) : t.Holds id gang p := by
  obtain ⟨w, hw0, hg, hp⟩ := h
  obtain ⟨w', hw', hr⟩ := hw.find hw0
  have he := hr.eq
  exact ⟨w', hw', by rw [he]; exact hg, by rw [he]; exact hp⟩

/-- A result whose value is now known. -/
def Pending.answer (p : Pending) (vals : List Word) (flags : BitVec 7) (code : Option Nat) : Pending :=
  { p with vals := vals, flags := p.flags ||| flags, opened := false
           slot := match code, p.slot with | some c, some (i, _) => some (i, c) | _, x => x }

theorem answer_plain (p : Pending) (vals : List Word) : p.answer vals 0 none = { p with opened := false, vals := vals } := by
  unfold Pending.answer
  cases p
  simp

theorem resolve_rest (s : State) (wave pid : Nat) (vals : List Word) (flags : BitVec 7) (code : Option Nat) :
    s.resolve wave pid vals flags code = { s with waves := (s.resolve wave pid vals flags code).waves } := rfl

theorem wave?_resolve (s : State) (wave pid : Nat) (vals : List Word) (flags : BitVec 7) (code : Option Nat) (id : Nat) :
    (s.resolve wave pid vals flags code).wave? id = (s.wave? id).map fun w => if id = wave then
      { w with pend := modBy w.pend (fun p => p.id == pid) fun p => p.answer vals flags code } else w :=
  wave?_modWave fun _ => rfl

theorem State.Holds.resolve_same {s : State} {id gang : Nat} {p : Pending} (h : s.Holds id gang p) (vals : List Word)
    (flags : BitVec 7) (code : Option Nat) : (s.resolve id p.id vals flags code).Holds id gang (p.answer vals flags code) := by
  obtain ⟨w, hw, hg, hp⟩ := h
  refine ⟨{ w with pend := modBy w.pend (fun q => q.id == p.id) fun q => q.answer vals flags code },
    by rw [wave?_resolve, hw, Option.map_some, if_pos rfl], hg, List.mem_map.mpr ⟨p, hp, ?_⟩⟩
  simp

/-- Another result, or another wave's, is left as it is. -/
theorem State.Holds.resolve_ne {s : State} {id gang : Nat} {p : Pending} (h : s.Holds id gang p) {wave pid : Nat}
    (hne : wave ≠ id ∨ pid ≠ p.id) (vals : List Word) (flags : BitVec 7) (code : Option Nat) :
    (s.resolve wave pid vals flags code).Holds id gang p := by
  obtain ⟨w, hw, hg, hp⟩ := h
  refine ⟨_, by rw [wave?_resolve, hw, Option.map_some], ?_⟩
  split
  · next he =>
    refine ⟨hg, List.mem_map.mpr ⟨p, hp, ?_⟩⟩
    have : p.id ≠ pid := fun e => (hne.resolve_left fun k => k he.symm) e.symm
    simp [this]
  · exact ⟨hg, hp⟩

/-- A result that a wave has outstanding before, and the answered one afterwards. -/
theorem answered_of_holds {s t : State} {wave : Nat} {p q : Pending}
    (h : ∀ w, s.wave? wave = some w → p ∈ w.pend → t.Holds wave w.gang q) : Answered s t wave p q := by
  intro w hw hp
  obtain ⟨w', hw', -, hq⟩ := h w hw hp
  exact ⟨w', hw', hq⟩

end Sys2Proof.Machine
end

section
/-! Fills (R107, R169, R175, R183): the stages of `State.completeFill`, and what each leaves. -/

namespace Sys2Proof.Machine
open Sys2Proof.Claims

/-! ## Entries of the miss tables (R183) -/

/-- Every fill outstanding in `t` has the number of one in `s`. -/
def FillsFrom (s t : State) : Prop := ∀ x ∈ t.fills, ∃ y ∈ s.fills, y.id = x.id

theorem FillsFrom.of_eq {s t : State} (h : t.fills = s.fills) : FillsFrom s t := fun x hx => ⟨x, h ▸ hx, rfl⟩

theorem FillsFrom.trans {s t u : State} (h : FillsFrom s t) (h' : FillsFrom t u) : FillsFrom s u := fun x hx => by
  obtain ⟨y, hy, he⟩ := h' x hx
  obtain ⟨z, hz, hf⟩ := h y hy
  exact ⟨z, hz, hf.trans he⟩

/-- Fills changed where they stand keep their numbers. -/
theorem FillsFrom.modBy {s t : State} {p : Fill → Bool} {f : Fill → Fill} (hf : ∀ x, (f x).id = x.id)
    (h : t.fills = Machine.modBy s.fills p f) : FillsFrom s t := fun x hx => by
  obtain ⟨y, hy, rfl⟩ := List.mem_map.mp (h ▸ hx : x ∈ Machine.modBy s.fills p f)
  exact ⟨y, hy, by split <;> simp [hf]⟩

theorem sendFill_rest (s : State) (f : Fill) :
    ∃ fs fl, s.sendFill f = { s with fills := fs, flows := fl } ∧ FillsFrom s (s.sendFill f) := by
  unfold State.sendFill
  split
  · exact ⟨_, _, rfl, .of_eq rfl⟩
  · have hmod : FillsFrom s { s with fills := Machine.modBy s.fills (fun x => x.id == f.id) fun x =>
        { x with sent := true, deps := (s.die (sectorDie f.sector)).dep } } :=
      .modBy (f := fun x => { x with sent := true, deps := (s.die (sectorDie f.sector)).dep }) (fun _ => rfl) rfl
    dsimp only
    split
    · split
      · exact ⟨_, _, rfl, hmod⟩
      · exact ⟨_, _, rfl, hmod⟩
    · exact ⟨_, _, rfl, hmod⟩

theorem sendFills_rest (s : State) : ∃ fs fl, s.sendFills = { s with fills := fs, flows := fl } ∧ FillsFrom s s.sendFills := by
  have h : ∀ (l : List Fill) (s : State), ∃ fs fl, l.foldl State.sendFill s = { s with fills := fs, flows := fl } ∧
      FillsFrom s (l.foldl State.sendFill s) := by
    intro l
    induction l with
    | nil => exact fun s => ⟨_, _, rfl, .of_eq rfl⟩
    | cons f l ih =>
      intro s
      obtain ⟨fs, fl, h1, hf⟩ := sendFill_rest s f
      obtain ⟨fs', fl', h2, hf'⟩ := ih (s.sendFill f)
      refine ⟨fs', fl', ?_, hf.trans hf'⟩
      rw [List.foldl_cons, h2, h1]
  exact h _ s

/-! ## The stages of a fill -/

/-- The fill's own entry is free, and a miss that waits has taken it. -/
def State.fillTaken (s : State) (f : Fill) : State :=
  let s := State.spoilServed { s with fills := s.fills.filter fun x => x.id != f.id } (sectorDie f.sector) f.line f.served
  (if f.far && !f.fillSect then s.dropSect f.sector f.line else s).sendFills

/-- The sector's copy filled, before the L1s take theirs. -/
def State.fillPut (s : State) (f : Fill) (data : Line) : State :=
  let s := (s.fillTaken f).fillNow f.core f.line f.fillSect false (f.waiters.any (·.last)) data
  { s with sect := modBy s.sect (fun x => f.behind && x.sector == f.sector && x.line == f.line) fun x => { x with behind := true } }

/-- The line that the waiting loads read. -/
def State.fillView (s : State) (f : Fill) (data : Line) : Line :=
  if f.fillSect then ((s.sectLine? f.sector f.line).map (·.data)).getD data else data

/-- The L1 copies that the waiting loads leave. -/
def State.fillL1s (f : Fill) (view : Line) (s : State) : State :=
  (f.waiters.filter (·.fillL1)).foldl (fun (s : State) (r : Waiter) =>
    s.fillL1 (((s.wave? r.wave).map (·.gang)).getD 0) (s.waiterCore f r) (if r.last then .last else .dflt) f.line view) s

/-- One waiting load is served, and its acquire half performed (R107). -/
def State.serveWaiter (f : Fill) (view : Line) (s : State) (r : Waiter) : State :=
  let gang := ((s.wave? r.wave).map (·.gang)).getD 0
  let s' := s.resolve r.wave r.pid (loadWords r.width (s.overlay gang f.line view) r.off) 0 none
  match r.acq with
  | some p => s'.acquire (s.waiterCore f r) p
  | none => s'

/-- A store that the sector cache has held. -/
def State.performHeld (s : State) (x : HeldStore) : State := s.storeNow x.core x.wave x.pol x.w

theorem completeFill_eq (s : State) (f : Fill) (data : Line) :
    let t := s.fillPut f data
    let view := t.fillView f data
    s.completeFill f data = f.stores.foldl State.performHeld (f.waiters.foldl (State.serveWaiter f view) (t.fillL1s f view)) := rfl

/-! ## What the stages leave -/

/-- What a fill leaves alone up to its waiting loads. -/
structure FillFrame (s t : State) : Prop where
  homes    : HomesKept s t
  waves    : t.waves = s.waves
  versions : t.versions = s.versions

theorem FillFrame.trans {s t u : State} (h : FillFrame s t) (h' : FillFrame t u) : FillFrame s u :=
  ⟨fun l => (h'.homes l).trans (h.homes l), h'.waves.trans h.waves, h'.versions.trans h.versions⟩

/-- No copy of the fill's line at its sector has words to write back. -/
def State.FillClean (s : State) (f : Fill) : Prop :=
  ∀ x ∈ s.sect, x.line = f.line → x.sector = f.sector → x.remote = true ∨ x.dirty = 0

theorem fillTaken_frame {s : State} {f : Fill} (hc : s.FillClean f) :
    FillFrame s (s.fillTaken f) ∧ (∀ x ∈ (s.fillTaken f).fills, x.id ≠ f.id) ∧ (s.fillTaken f).FillClean f ∧
      (s.fillTaken f).sect = if f.far && !f.fillSect then s.sect.filter fun x => !(x.sector == f.sector && x.line == f.line) else s.sect := by
  unfold State.fillTaken
  dsimp only
  obtain ⟨u, hu⟩ : ∃ u, u = State.spoilServed { s with fills := s.fills.filter fun x => x.id != f.id } (sectorDie f.sector) f.line
      f.served := ⟨_, rfl⟩
  rw [← hu]
  have hids : ∀ x ∈ u.fills, x.id ≠ f.id := by
    rw [hu]
    intro x hx
    obtain ⟨y, hy, he⟩ := (FillsFrom.modBy (s := { s with fills := s.fills.filter fun x => x.id != f.id })
      (f := Fill.spoil) (fun _ => rfl) rfl : FillsFrom _ _) x hx
    rw [← he]
    simpa using (List.mem_filter.mp hy).2
  have husect : u.sect = s.sect := by rw [hu]; rfl
  have hframe : FillFrame s u := by rw [hu]; exact ⟨fun l => homeView_congr rfl rfl l, rfl, rfl⟩
  obtain ⟨v, hv⟩ : ∃ v, v = if f.far && !f.fillSect then u.dropSect f.sector f.line else u := ⟨_, rfl⟩
  rw [← hv]
  have hvids : ∀ x ∈ v.fills, x.id ≠ f.id := by rw [hv]; split <;> exact hids
  have hvframe : FillFrame u v := by
    rw [hv]
    split
    · exact ⟨homeView_dropSect fun x hx hs hl => hc x (husect ▸ hx) hl hs, rfl, rfl⟩
    · exact ⟨fun _ => rfl, rfl, rfl⟩
  have hvsect : v.sect = if f.far && !f.fillSect then s.sect.filter fun x => !(x.sector == f.sector && x.line == f.line)
      else s.sect := by
    rw [hv, ← husect]
    split <;> rfl
  obtain ⟨fs, fl, hsend, hfrom⟩ := sendFills_rest v
  have hsect : v.sendFills.sect = v.sect := by rw [hsend]
  refine ⟨(hframe.trans hvframe).trans ?_, fun x hx => ?_, fun x hx hl hs => hc x ?_ hl hs, hsect.trans hvsect⟩
  · rw [hsend]
    exact ⟨fun l => homeView_congr rfl rfl l, rfl, rfl⟩
  · obtain ⟨y, hy, he⟩ := hfrom x hx
    rw [← he]
    exact hvids y hy
  · rw [hsect, hvsect] at hx
    split at hx
    · exact (List.mem_filter.mp hx).1
    · exact hx

/-- A mark on copies changes nothing that any home serves. -/
theorem homeView_markBehind (s : State) (p : SectLine → Bool) (l : Nat) :
    State.homeView { s with sect := modBy s.sect p fun x => { x with behind := true } } l = s.homeView l := by
  refine homeView_congr_dirty rfl ?_
  unfold State.dirtyOf
  have := map_filter_modBy_filter (p := fun _ => true) (q := p) (d := fun x : SectLine => x.line == l && !x.remote && x.dirty != 0)
    (f := fun x => { x with behind := true }) (g := fun x => (x.dirty, x.data)) (fun _ _ => rfl) (fun _ => rfl) (fun _ => rfl) s.sect
  rwa [List.filter_true] at this

theorem sectLine?_markBehind (s : State) (p : SectLine → Bool) (sec line : Nat) :
    State.sectLine? { s with sect := modBy s.sect p fun x => { x with behind := true } } sec line =
      (s.sectLine? sec line).map fun x => if p x then { x with behind := true } else x := by
  show (s.sect.map _).find? _ = _
  rw [List.find?_map]
  unfold State.sectLine?
  congr 2
  funext x
  dsimp only [Function.comp]
  split <;> rfl

theorem fillPut_frame {s : State} {f : Fill} (data : Line) (hf : f.sector = coreSector f.core) (hc : s.FillClean f) :
    FillFrame s (s.fillPut f data) ∧ ∀ x ∈ (s.fillPut f data).fills, x.id ≠ f.id := by
  obtain ⟨hframe, hids, hclean, -⟩ := fillTaken_frame hc
  obtain ⟨m, ls, l1, ps, he⟩ := fillNow_rest (s.fillTaken f) f.core f.line f.fillSect false (f.waiters.any (·.last)) data
  refine ⟨hframe.trans ⟨fun l => ?_, ?_, ?_⟩, ?_⟩
  · refine (homeView_markBehind _ _ l).trans ?_
    exact homeView_fillNow _ _ _ _ (fun x hx hl hs => hclean x hx hl (hs.trans hf.symm)) l
  · show State.waves (State.fillNow _ _ _ _ _ _ _) = _
    rw [he]
  · show State.versions (State.fillNow _ _ _ _ _ _ _) = _
    rw [he]
  · show ∀ x ∈ State.fills (State.fillNow _ _ _ _ _ _ _), _
    rw [he]
    exact hids

/-- The sector's copy after its fill. -/
theorem sectLine?_fillPut (s : State) {f : Fill} (data : Line) (hf : f.sector = coreSector f.core) (hfill : f.fillSect = true) :
    ∃ x, (s.fillPut f data).sectLine? f.sector f.line = some x ∧ x.valid = BitVec.allOnes 16 ∧
      x.data = ((s.sectLine? f.sector f.line).map fun y => mergeLine (wordBytes (~~~y.valid)) y.data data).getD data ∧
      x.remote = ((s.sectLine? f.sector f.line).map (·.remote)).getD (homeOfLine f.line != some (sectorDie f.sector)) := by
  have hsect : (s.fillTaken f).sectLine? f.sector f.line = s.sectLine? f.sector f.line := by
    unfold State.fillTaken
    dsimp only
    rw [if_neg (by simp [hfill])]
    obtain ⟨fs, fl, hsend, -⟩ := sendFills_rest (State.spoilServed { s with fills := s.fills.filter fun x => x.id != f.id }
      (sectorDie f.sector) f.line f.served)
    rw [hsend]
    rfl
  unfold State.fillPut
  dsimp only
  rw [sectLine?_markBehind, hfill, hf, sectLine?_fillNow, Option.map_some]
  refine ⟨_, rfl, ?_⟩
  have hx : ((s.fillTaken f).filled f.core f.line (f.waiters.any (·.last)) data).valid = BitVec.allOnes 16 ∧
      ((s.fillTaken f).filled f.core f.line (f.waiters.any (·.last)) data).data =
        ((s.sectLine? (coreSector f.core) f.line).map fun y => mergeLine (wordBytes (~~~y.valid)) y.data data).getD data ∧
      ((s.fillTaken f).filled f.core f.line (f.waiters.any (·.last)) data).remote =
        ((s.sectLine? (coreSector f.core) f.line).map (·.remote)).getD (homeOfLine f.line != some (sectorDie (coreSector f.core))) := by
    unfold State.filled
    rw [← hf, hsect]
    cases s.sectLine? f.sector f.line with
    | some y => exact ⟨rfl, rfl, rfl⟩
    | none =>
      refine ⟨rfl, ?_, ?_⟩
      · show mergeLine (wordBytes (~~~(0 : BitVec 16))) 0 data = data
        rw [show wordBytes (~~~(0 : BitVec 16)) = BitVec.allOnes 64 by decide, mergeLine_allOnes]
      · rw [hf, sectorDie_coreSector]
        rfl
  obtain ⟨h1, h2, h3⟩ := hx
  split
  · exact ⟨h1, h2, h3⟩
  · exact ⟨h1, h2, h3⟩

/-- The line that the waiting loads read. -/
theorem fillView_eq (s : State) {f : Fill} (data : Line) (hf : f.sector = coreSector f.core) :
    (s.fillPut f data).fillView f data = filledLine s f data := by
  unfold State.fillView filledLine
  by_cases hfill : f.fillSect = true
  · obtain ⟨x, hx, -, hd, -⟩ := sectLine?_fillPut s data hf hfill
    rw [if_pos hfill, hx]
    simp only [Option.map_some, Option.getD_some, hd, hfill, if_true]
    cases s.sectLine? f.sector f.line <;> rfl
  · simp only [hfill, if_false, Bool.false_eq_true]
    cases s.sectLine? f.sector f.line <;> rfl

theorem fillL1s_rest (f : Fill) (view : Line) (s : State) : ∃ ls ps, s.fillL1s f view = { s with l1 := ls, picks := ps } := by
  have h : ∀ (l : List Waiter) (s : State), ∃ ls ps, l.foldl (fun (s : State) (r : Waiter) =>
      s.fillL1 (((s.wave? r.wave).map (·.gang)).getD 0) (s.waiterCore f r) (if r.last then .last else .dflt) f.line view) s =
        { s with l1 := ls, picks := ps } := by
    intro l
    induction l with
    | nil => exact fun s => ⟨_, _, rfl⟩
    | cons r l ih =>
      intro s
      obtain ⟨ls, ps, h⟩ := fillL1_rest s (((s.wave? r.wave).map (·.gang)).getD 0) (s.waiterCore f r)
        (if r.last then .last else .dflt) f.line view
      obtain ⟨ls', ps', h'⟩ := ih (s.fillL1 (((s.wave? r.wave).map (·.gang)).getD 0) (s.waiterCore f r)
        (if r.last then .last else .dflt) f.line view)
      refine ⟨ls', ps', ?_⟩
      rw [List.foldl_cons, h', h]
  exact h _ s

end Sys2Proof.Machine
end

section
/-! The loads and stores that a fill completes (R107, R175). -/

namespace Sys2Proof.Machine
open Sys2Proof.Claims

/-! ## Waiting loads -/

theorem overlay_congr {s t : State} (h : t.versions = s.versions) (gang line : Nat) (x : Line) :
    t.overlay gang line x = s.overlay gang line x := by
  unfold State.overlay State.vline?
  rw [h]

/-- The answer that a waiting load of a wave of the gang gets. -/
def State.loadAnswer (s : State) (f : Fill) (view : Line) (gang : Nat) (r : Waiter) (p : Pending) : Pending :=
  { p with opened := false, vals := wordsOf r.width (lineNat (s.overlay gang f.line view) r.off r.width.bytes) }

theorem serveWaiter_eq (s : State) (f : Fill) (view : Line) (r : Waiter) : s.serveWaiter f view r =
    let u := s.resolve r.wave r.pid
      (loadWords r.width (s.overlay (((s.wave? r.wave).map (·.gang)).getD 0) f.line view) r.off) 0 none
    (r.acq.map (u.acquire (s.waiterCore f r))).getD u := by
  unfold State.serveWaiter
  dsimp only
  cases r.acq <;> rfl

theorem acq_rest (u : State) (core : Nat) (q : Option Scope) : ∃ l1 ls fs, (q.map (u.acquire core)).getD u =
    { u with l1 := l1, sect := ls, fills := fs } := by
  cases q with
  | none => exact ⟨_, _, _, rfl⟩
  | some p => exact ⟨_, _, _, acquire_rest u core p⟩

theorem acquire_fills (s : State) (core : Nat) (p : Scope) : FillsFrom s (s.acquire core p) := by
  have hfar (g : Fill → Fill) (hg : ∀ x, (g x).id = x.id) :
      FillsFrom s { s with fills := modBy s.fills (fun f => f.sector == coreSector core && f.far) g } := .modBy hg rfl
  cases p with
  | wave | wg | gang => exact .of_eq rfl
  | sect | die => exact hfar Fill.noL1 fun _ => rfl
  | pkg | sys =>
    refine (hfar Fill.spoil fun _ => rfl).trans ?_
    exact .modBy (f := fun f => { f.noL1 with behind := true }) (fun _ => rfl) rfl

/-- What a served load leaves alone. -/
theorem serveWaiter_frame (s : State) (f : Fill) (view : Line) (r : Waiter) :
    HomesKept s (s.serveWaiter f view r) ∧ (s.serveWaiter f view r).versions = s.versions ∧ FillsFrom s (s.serveWaiter f view r) := by
  rw [serveWaiter_eq]
  dsimp only
  generalize hu : s.resolve r.wave r.pid (loadWords r.width _ r.off) 0 none = u
  have hhome : HomesKept s u := fun l => by rw [← hu]; exact homeView_congr rfl rfl l
  have hver : u.versions = s.versions := by rw [← hu]; rfl
  have hfills : FillsFrom s u := by rw [← hu]; exact .of_eq rfl
  cases r.acq with
  | none => exact ⟨hhome, hver, hfills⟩
  | some p =>
    refine ⟨fun l => (homeView_acquire u _ p l).trans (hhome l), ?_, hfills.trans (acquire_fills u _ p)⟩
    rw [Option.map_some, Option.getD_some, acquire_rest]
    exact hver

/-- The waves after a load has been served are those after its answer. -/
theorem serveWaiter_waves (s : State) (f : Fill) (view : Line) (r : Waiter) : (s.serveWaiter f view r).waves = (s.resolve r.wave r.pid
    (loadWords r.width (s.overlay (((s.wave? r.wave).map (·.gang)).getD 0) f.line view) r.off) 0 none).waves := by
  rw [serveWaiter_eq]
  dsimp only
  obtain ⟨l1, ls, fs, h⟩ := acq_rest (s.resolve r.wave r.pid
    (loadWords r.width (s.overlay (((s.wave? r.wave).map (·.gang)).getD 0) f.line view) r.off) 0 none) (s.waiterCore f r) r.acq
  rw [h]

theorem holds_served {s : State} {f : Fill} {view : Line} {r : Waiter} {gang : Nat} {p : Pending} (hp : p.id = r.pid)
    (h : s.Holds r.wave gang p) : (s.serveWaiter f view r).Holds r.wave gang (s.loadAnswer f view gang r p) := by
  obtain ⟨w, hw, hg, -⟩ := id h
  refine .congr (serveWaiter_waves s f view r) ?_
  rw [hw, Option.map_some, Option.getD_some, hg, ← hp]
  have := h.resolve_same (loadWords r.width (s.overlay gang f.line view) r.off) 0 none
  rwa [answer_plain] at this

theorem holds_serve_ne {s : State} {f : Fill} {view : Line} {r : Waiter} {id gang : Nat} {p : Pending}
    (hne : r.wave ≠ id ∨ r.pid ≠ p.id) (h : s.Holds id gang p) : (s.serveWaiter f view r).Holds id gang p :=
  (h.resolve_ne hne _ _ _).congr (serveWaiter_waves s f view r)

theorem serveWaiters_frame (f : Fill) (view : Line) : ∀ (rs : List Waiter) (s : State),
    let t := rs.foldl (State.serveWaiter f view) s
    HomesKept s t ∧ t.versions = s.versions ∧ FillsFrom s t
  | [], s => ⟨fun _ => rfl, rfl, .of_eq rfl⟩
  | r :: rs, s => by
    obtain ⟨h1, h2, h3⟩ := serveWaiter_frame s f view r
    obtain ⟨k1, k2, k3⟩ := serveWaiters_frame f view rs (s.serveWaiter f view r)
    exact ⟨fun l => (k1 l).trans (h1 l), k2.trans h2, h3.trans k3⟩

/-- A result that none of the loads waits for stays as it is. -/
theorem holds_serveWaiters_ne {f : Fill} {view : Line} {id gang : Nat} {p : Pending} : ∀ {rs : List Waiter} {s : State},
    (∀ r ∈ rs, r.wave ≠ id ∨ r.pid ≠ p.id) → s.Holds id gang p → (rs.foldl (State.serveWaiter f view) s).Holds id gang p
  | [], _, _, h => h
  | r :: rs, _, hne, h => holds_serveWaiters_ne (rs := rs) (fun x hx => hne x (List.mem_cons_of_mem _ hx))
      (holds_serve_ne (hne r List.mem_cons_self) h)

/-- Each waiting load has its answer, where no two wait for one result. -/
theorem holds_serveWaiters {f : Fill} {view : Line} {gang : Nat} {p : Pending} {r : Waiter} (hp : p.id = r.pid) {rs : List Waiter}
    {s : State} (hpair : rs.Pairwise fun x y => x.wave ≠ y.wave ∨ x.pid ≠ y.pid) (hmem : r ∈ rs) (h : s.Holds r.wave gang p) :
    (rs.foldl (State.serveWaiter f view) s).Holds r.wave gang (s.loadAnswer f view gang r p) := by
  induction rs generalizing s with
  | nil => cases hmem
  | cons x rs ih =>
    obtain ⟨hx, hpair⟩ := List.pairwise_cons.mp hpair
    rw [List.foldl_cons]
    rcases List.mem_cons.mp hmem with rfl | hmem
    · refine holds_serveWaiters_ne (rs := rs) (fun y hy => ?_) (holds_served hp h)
      rw [show (s.loadAnswer f view gang r p).id = r.pid from hp]
      exact (hx y hy).imp Ne.symm Ne.symm
    · have hne : x.wave ≠ r.wave ∨ x.pid ≠ p.id := hp ▸ hx r hmem
      have hv : (s.serveWaiter f view x).loadAnswer f view gang r p = s.loadAnswer f view gang r p := by
        unfold State.loadAnswer
        rw [overlay_congr (serveWaiter_frame s f view x).2.1]
      rw [← hv]
      exact ih hpair hmem (holds_serve_ne hne h)

/-! ## A whole copy stays whole -/

theorem State.Whole.congr {s t : State} {sec line : Nat} (h : s.Whole sec line) (hs : t.sect = s.sect) (hh : HomesKept s t) :
    t.Whole sec line := by
  obtain ⟨x, hx, hr, hv, hd⟩ := h
  refine ⟨x, ?_, hr, hv, hd.trans (hh line).symm⟩
  unfold State.sectLine? at *
  rwa [hs]

/-- An acquire half ends remote-tagged copies alone, and marks others. -/
theorem State.Whole.acquire {s : State} {sec line : Nat} (h : s.Whole sec line) (core : Nat) (p : Scope) :
    (s.acquire core p).Whole sec line := by
  by_cases hfar : p = .pkg ∨ p = .sys
  · obtain ⟨x, hx, hr, hv, hd⟩ := h
    have hfind : State.sectLine? { s with sect := s.sect.filter fun x => !(x.sector == coreSector core && x.remote) } sec line =
        some x := by
      rw [State.sectLine?, List.find?_filter]
      obtain ⟨hq, as, bs, hs, has⟩ := List.find?_eq_some_iff_append.mp hx
      refine List.find?_eq_some_iff_append.mpr ⟨by simp only [hr, hq]; simp, as, bs, hs, fun a ha => ?_⟩
      have := has a ha
      simp only [Bool.not_eq_true', Bool.and_eq_false_iff, beq_eq_false_iff_ne] at this
      simp only [Bool.not_eq_true', decide_eq_false_iff_not, Bool.and_eq_true, beq_iff_eq]
      rintro ⟨-, h1, h2⟩
      exact this.elim (fun k => k h1) fun k => k h2
    have hm : (s.acquire core p).sectLine? sec line =
        (State.sectLine? { s with sect := s.sect.filter fun x => !(x.sector == coreSector core && x.remote) } sec line).map fun x =>
          if !(s.readable (coreDie core) (coreDie core)) && x.sector == coreSector core then { x with behind := true } else x := by
      rw [← sectLine?_markBehind, State.sectLine?, acquire_sect_far s core hfar]
      rfl
    rw [hfind, Option.map_some] at hm
    refine ⟨_, hm, ?_⟩
    rw [homeView_acquire]
    split <;> exact ⟨hr, hv, hd⟩
  · exact h.congr (acquire_sect_near s core hfar) fun l => homeView_acquire s core p l

theorem State.Whole.serveWaiters {sec line : Nat} {f : Fill} {view : Line} : ∀ {rs : List Waiter} {s : State}, s.Whole sec line →
    (rs.foldl (State.serveWaiter f view) s).Whole sec line
  | [], _, h => h
  | r :: _, s, h => by
    refine State.Whole.serveWaiters (s := s.serveWaiter f view r) ?_
    rw [serveWaiter_eq]
    dsimp only
    generalize hu : s.resolve r.wave r.pid (loadWords r.width _ r.off) 0 none = u
    have hw : u.Whole sec line := by
      rw [← hu]
      exact h.congr rfl fun l => homeView_congr rfl rfl l
    cases r.acq with
    | none => exact hw
    | some p => exact hw.acquire _ p

/-! ## Held stores (R175) -/

theorem storeNow_host {s : State} {core wave : Nat} {pol : CachePol} {w : LineWrite} (h : homeOfLine w.line = none) :
    s.storeNow core wave pol w = { s with l1 := s.l1Stored core pol w, mem := memPut s.mem w } := by
  unfold State.storeNow
  simp only [h]
  cases pol <;> rfl

/-- The copies of a line of another die once a store has updated its sector's and ended the others of its die. -/
def State.farPut (s : State) (core : Nat) (pol : CachePol) (w : LineWrite) : State :=
  let d := coreDie core
  let s := { s with sect := s.sect.filter fun x =>
    !(x.line == w.line && x.remote && sectorDie x.sector == d && x.sector != coreSector core) }
  let s := s.spoilFills d w.line
  match s.sectLine? (coreSector core) w.line with
  | some x => (s.putSect (x.store w (pol == CachePol.last))).monEvent w.line fun v => coreSector v.core == coreSector core
  | none => s

theorem storeNow_far {s : State} {core wave k : Nat} {pol : CachePol} {w : LineWrite} (h : homeOfLine w.line = some k)
    (hne : k ≠ coreDie core) : s.storeNow core wave pol w =
      (State.farPut { s with l1 := s.l1Stored core pol w } core pol w).publish (coreDie core) k wave (.writes [w]) := by
  unfold State.storeNow
  simp only [h, beq_eq_false_iff_ne.mpr hne, Bool.false_eq_true, if_false]
  cases pol <;> rfl

theorem farPut_rest (s : State) (core : Nat) (pol : CachePol) (w : LineWrite) : ∃ m ls fs ps ws, RungAll s.waves ws ∧
    FillsFrom s (s.farPut core pol w) ∧
    s.farPut core pol w = { s with mem := m, sect := ls, fills := fs, picks := ps, waves := ws } := by
  unfold State.farPut
  dsimp only
  obtain ⟨u, hu⟩ : ∃ u, u = State.spoilFills { s with sect := s.sect.filter fun x =>
    !(x.line == w.line && x.remote && sectorDie x.sector == coreDie core && x.sector != coreSector core) } (coreDie core) w.line :=
    ⟨_, rfl⟩
  rw [← hu]
  have hf : FillsFrom s u := by rw [hu]; exact .modBy (f := Fill.spoil) (fun _ => rfl) rfl
  have he : u = { s with sect := u.sect, fills := u.fills } := by rw [hu]; rfl
  have hw : u.waves = s.waves := by rw [hu]; rfl
  split
  · next x _ =>
    obtain ⟨m, ls, ps, hput⟩ := putSect_rest u (x.store w (pol == CachePol.last))
    obtain ⟨ws, hws, hr⟩ := monEvent_rest (u.putSect (x.store w (pol == CachePol.last))) w.line
      fun v => coreSector v.core == coreSector core
    rw [hput] at hr hws
    rw [hput, hws]
    refine ⟨m, ls, u.fills, ps, ws, hw ▸ hr, hf, ?_⟩
    rw [he]
  · exact ⟨_, _, _, _, _, hw ▸ .refl _, hf, he⟩

/-- What a store may change, wherever its line is homed. -/
theorem storeNow_rest (s : State) (core wave : Nat) (pol : CachePol) (w : LineWrite) :
    ∃ m ls l1 fs fl ds hs hl ps ws, RungAll s.waves ws ∧ FillsFrom s (s.storeNow core wave pol w) ∧ s.storeNow core wave pol w =
      { s with mem := m, sect := ls, l1 := l1, fills := fs, flows := fl, dies := ds, hostLines := hs, homeLines := hl, picks := ps
               waves := ws } := by
  by_cases h : homeOfLine w.line = some (coreDie core)
  · obtain ⟨m, ls, l1, hs, hl, ps, ws, hr, he⟩ := storeNow_near_rest (s := s) (wave := wave) (pol := pol) h
    exact ⟨_, _, _, _, _, _, _, _, _, _, hr, .of_eq (by rw [he]), he⟩
  · cases hk : homeOfLine w.line with
    | none =>
      rw [storeNow_host hk]
      exact ⟨_, _, _, _, _, _, _, _, _, _, .refl _, .of_eq rfl, rfl⟩
    | some k =>
      obtain ⟨m, ls, fs, ps, ws, hr, hf, he⟩ := farPut_rest { s with l1 := s.l1Stored core pol w } core pol w
      rw [storeNow_far hk fun e => h (hk.trans (congrArg some e)), he]
      rw [he] at hf
      exact ⟨_, _, _, _, _, _, _, _, _, _, hr, hf, rfl⟩

theorem performHelds_frame : ∀ (xs : List HeldStore) (s : State),
    let t := xs.foldl State.performHeld s
    RungAll s.waves t.waves ∧ t.versions = s.versions ∧ FillsFrom s t
  | [], _ => ⟨.refl _, rfl, .of_eq rfl⟩
  | x :: xs, s => by
    obtain ⟨m, ls, l1, fs, fl, ds, hs, hl, ps, ws, hr, hf, he⟩ := storeNow_rest s x.core x.wave x.pol x.w
    obtain ⟨k1, k2, k3⟩ := performHelds_frame xs (s.performHeld x)
    refine ⟨RungAll.trans ?_ k1, k2.trans ?_, FillsFrom.trans hf k3⟩
    · rw [State.performHeld, he]; exact hr
    · rw [State.performHeld, he]

/-- Stores to a line whose copy at their sector is whole, in turn. -/
theorem performHelds_whole {sec line : Nat} (hh : homeOfLine line = some (sectorDie sec)) : ∀ (xs : List HeldStore) (s : State),
    (∀ x ∈ xs, x.w.line = line ∧ coreSector x.core = sec) → s.Whole sec line → ∀ l n, n < 64 →
      lineByte ((xs.foldl State.performHeld s).homeView l) n = Claims.written (xs.map (·.w)) l n (lineByte (s.homeView l) n)
  | [], _, _, _, _, _, _ => rfl
  | x :: xs, s, hx, hw, l, n, hn => by
    obtain ⟨hline, hsec⟩ := hx x List.mem_cons_self
    obtain ⟨hw', hv⟩ := stored_whole (s := s) (wave := x.wave) (pol := x.pol) (w := x.w) (core := x.core)
      (by rw [hline, hh, ← hsec, sectorDie_coreSector]) (by rw [hline, hsec]; exact hw)
    rw [List.foldl_cons, performHelds_whole hh xs (s.performHeld x) (fun y hy => hx y (List.mem_cons_of_mem _ hy))
      (by rw [hline, hsec] at hw'; exact hw') l n hn, State.performHeld, hv]
    rw [List.map_cons, Claims.written, Claims.written, List.foldl_cons]
    congr 1
    by_cases hl : l = x.w.line
    · rw [if_pos hl, lineByte_mergeLine _ _ _ hn]
      simp [hl]
    · rw [if_neg hl, if_neg fun e => hl e.1.symm]

end Sys2Proof.Machine
end

section
/-! O43: fills, home reads, evictions and the host's accesses (R107, R173, R175, R176, R188, R201, R207, R373, R391). -/

namespace Sys2Proof.Machine
open Sys2Proof.Claims

/-! ## A fill arrives -/

/-- Up to its held stores, a fill leaves what the homes serve and answers its loads. -/
theorem served_fill {s : State} {f : Fill} (data : Line) (hf : f.sector = coreSector f.core) (hc : s.FillClean f)
    (hpair : f.waiters.Pairwise fun x y => x.wave ≠ y.wave ∨ x.pid ≠ y.pid) :
    let view := (s.fillPut f data).fillView f data
    let t := f.waiters.foldl (State.serveWaiter f view) ((s.fillPut f data).fillL1s f view)
    HomesKept s t ∧ t.versions = s.versions ∧ (∀ x ∈ t.fills, x.id ≠ f.id) ∧
      ∀ r ∈ f.waiters, ∀ p gang, p.id = r.pid → s.Holds r.wave gang p → t.Holds r.wave gang
        { p with opened := false
                 vals := wordsOf r.width (lineNat (s.overlay gang f.line (filledLine s f data)) r.off r.width.bytes) } := by
  obtain ⟨⟨hhome, hwaves, hver⟩, hids⟩ := fillPut_frame data hf hc
  rw [fillView_eq s data hf]
  obtain ⟨ls, ps, hl1⟩ := fillL1s_rest f (filledLine s f data) (s.fillPut f data)
  intro view t
  obtain ⟨k1, k2, k3⟩ := serveWaiters_frame f view f.waiters ((s.fillPut f data).fillL1s f view)
  have hu : HomesKept s ((s.fillPut f data).fillL1s f view) := fun l => by
    rw [hl1]
    exact (homeView_congr rfl rfl l).trans (hhome l)
  have huv : ((s.fillPut f data).fillL1s f view).versions = s.versions := by rw [hl1]; exact hver
  refine ⟨fun l => (k1 l).trans (hu l), k2.trans huv, fun x hx => ?_, fun r hr p gang hp h => ?_⟩
  · obtain ⟨y, hy, he⟩ := k3 x hx
    rw [hl1] at hy
    rw [← he]
    exact hids y hy
  · have hw : ((s.fillPut f data).fillL1s f view).waves = s.waves := by rw [hl1]; exact hwaves
    have := holds_serveWaiters (f := f) (view := view) hp hpair hr (h.congr hw)
    rwa [State.loadAnswer, overlay_congr huv] at this

/-- What a fill leaves. -/
theorem completeFill_spec {s : State} {f : Fill} (data : Line) (hf : f.sector = coreSector f.core) (hc : s.FillClean f)
    (hpair : f.waiters.Pairwise fun x y => x.wave ≠ y.wave ∨ x.pid ≠ y.pid) :
    let t := s.completeFill f data
    (f.stores = [] → HomesKept s t) ∧ t.versions = s.versions ∧ (∀ x ∈ t.fills, x.id ≠ f.id) ∧
      ∀ r ∈ f.waiters, ∀ p gang, p.id = r.pid → s.Holds r.wave gang p → t.Holds r.wave gang
        { p with opened := false
                 vals := wordsOf r.width (lineNat (s.overlay gang f.line (filledLine s f data)) r.off r.width.bytes) } := by
  obtain ⟨h1, h2, h3, h4⟩ := served_fill data hf hc hpair
  rw [completeFill_eq]
  dsimp only at h1 h2 h3 h4 ⊢
  generalize f.waiters.foldl _ _ = u at h1 h2 h3 h4 ⊢
  obtain ⟨k1, k2, k3⟩ := performHelds_frame f.stores u
  refine ⟨fun hs => by rw [hs]; exact h1, k2.trans h2, fun x hx => ?_, fun r hr p gang hp h => (h4 r hr p gang hp h).rung k1⟩
  obtain ⟨y, hy, he⟩ := k3 x hx
  exact he ▸ h3 y hy

/-- The copy that a fill of its own die's line leaves is whole. -/
theorem whole_fillPut {s : State} {f : Fill} {data : Line} (hf : f.sector = coreSector f.core) (hc : s.FillClean f)
    (hfill : f.fillSect = true) (hh : homeOfLine f.line = some (sectorDie f.sector)) (hcoh : Coherent s f.line)
    (hd : data = s.homeView f.line) : (s.fillPut f data).Whole f.sector f.line := by
  obtain ⟨x, hx, hv, hdata, hr⟩ := sectLine?_fillPut s data hf hfill
  refine ⟨x, hx, ?_, hv, ?_⟩
  · rw [hr]
    cases hs : s.sectLine? f.sector f.line with
    | none => simp [hh]
    | some y =>
      obtain ⟨hy, hsec, hline⟩ := sectLine?_some hs
      exact (hcoh y hy hline).1.mpr (hsec ▸ hh)
  · rw [hdata, (fillPut_frame data hf hc).1.homes]
    cases hs : s.sectLine? f.sector f.line with
    | none => exact hd
    | some y =>
      obtain ⟨hy, hsec, hline⟩ := sectLine?_some hs
      obtain ⟨hkind, hbytes⟩ := hcoh y hy hline
      refine line_ext fun n hn => ?_
      show lineByte (mergeLine _ _ _) n = _
      rw [lineByte_mergeLine _ _ _ hn]
      split
      · rw [hd]
      · next hm =>
        refine hbytes (hkind.mpr (hsec ▸ hh)) n hn ?_
        rw [getLsbD_wordBytes] at hm ⊢
        simpa [hn, show n / 4 < 16 by omega] using hm

/-- The held stores of a fill change their own bytes, in turn. -/
theorem completeFill_bytes {s : State} {f : Fill} {data : Line} (hf : f.sector = coreSector f.core) (hc : s.FillClean f)
    (hpair : f.waiters.Pairwise fun x y => x.wave ≠ y.wave ∨ x.pid ≠ y.pid)
    (hstores : ∀ x ∈ f.stores, f.fillSect = true ∧ x.w.line = f.line ∧ coreSector x.core = f.sector)
    (hh : homeOfLine f.line = some (sectorDie f.sector)) (hcoh : Coherent s f.line) (hd : data = s.homeView f.line) (A : Nat) :
    byteNow (s.completeFill f data) A = Claims.written (f.stores.map (·.w)) (A / 64) (A % 64) (byteNow s A) := by
  obtain ⟨hhome, -⟩ := served_fill data hf hc hpair
  have hn : A % 64 < 64 := Nat.mod_lt _ (by decide)
  rw [byteNow, completeFill_eq]
  cases hs : f.stores with
  | nil =>
    rw [List.foldl_nil, hhome]
    rfl
  | cons x xs =>
    have hfill := (hstores x (by rw [hs]; exact List.mem_cons_self)).1
    rw [← hs, performHelds_whole hh f.stores _ (fun y hy => (hstores y hy).2) ?_ _ _ hn, hhome]
    · rfl
    · refine State.Whole.serveWaiters ?_
      obtain ⟨ls, ps, hl1⟩ := fillL1s_rest f ((s.fillPut f data).fillView f data) (s.fillPut f data)
      rw [hl1]
      exact (whole_fillPut hf hc hfill hh hcoh hd).congr rfl fun l => homeView_congr rfl rfl l

end Sys2Proof.Machine
end

section
/-! O43, the events: the arrival of a fill, the service of a read at its home, evictions. -/

namespace Sys2Proof.Machine
open Sys2Proof.Claims

/-! ## The line that a home has at hand (R176) -/

/-- A line written back and present in its home cache. -/
def State.atHome (s : State) (line : Nat) : State := (s.homeSync line).touchHome line

theorem atHome_rest (s : State) (line : Nat) : ∃ hl ps, s.atHome line =
    { s with mem := (s.homeSync line).mem, sect := (s.homeSync line).sect, homeLines := hl, picks := ps } := by
  obtain ⟨hl, ps, h⟩ := touchHome_rest (s.homeSync line) line
  exact ⟨hl, ps, h⟩

theorem atHome_homes (s : State) (line : Nat) : HomesKept s (s.atHome line) := fun l =>
  (homeView_touchHome _ line l).trans (homeView_homeSync s line l)

theorem atHome_sect (s : State) (line : Nat) : (s.atHome line).sect = (s.homeSync line).sect := by
  obtain ⟨hl, ps, h⟩ := atHome_rest s line
  rw [h]

theorem memLine_atHome (s : State) (line : Nat) : memLine (s.atHome line).mem line = s.homeView line := by
  obtain ⟨hl, ps, h⟩ := atHome_rest s line
  rw [h]
  exact (memLine_homeSync s line line).trans (if_pos rfl)

theorem coherent_atHome {s : State} {line : Nat} (h : Coherent s line) : Coherent (s.atHome line) line := by
  intro x hx hl
  rw [atHome_sect] at hx
  obtain ⟨y, hy, rfl⟩ := List.mem_map.mp hx
  have hline : y.line = line := by
    by_cases hc : (y.line == line && !y.remote) = true
    · rw [if_pos hc] at hl; exact hl
    · rw [if_neg hc] at hl; exact hl
  obtain ⟨h1, h2⟩ := h y hy hline
  rw [atHome_homes]
  split <;> exact ⟨h1, h2⟩

theorem filledLine_atHome (s : State) (f : Fill) (data : Line) : filledLine (s.atHome f.line) f data = filledLine s f data := by
  have h : (s.atHome f.line).sectLine? f.sector f.line = (s.homeSync f.line).sectLine? f.sector f.line := by
    unfold State.sectLine?
    rw [atHome_sect]
  unfold filledLine
  rw [h, sectLine?_homeSync]
  cases s.sectLine? f.sector f.line with
  | none => rfl
  | some x =>
    rw [Option.map_some]
    dsimp only
    cases (x.line == f.line && !x.remote) <;> rfl

/-! ## The arrival of a fill (R175, R201) -/

/-- The state in which the data of a fill meets its sector: the home's line written back, or the reply taken from its flow. -/
structure FillStart (s u : State) (f : Fill) (data : Line) : Prop where
  frame  : FillFrame s u
  clean  : u.FillClean f
  line   : filledLine u f data = filledLine s f data
  coh    : Coherent u f.line

theorem fillStart_near {s : State} {f : Fill} (hc : Coherent s f.line) (data : Line) : FillStart s (s.atHome f.line) f data where
  frame := by
    refine ⟨atHome_homes s f.line, ?_, ?_⟩ <;>
      · obtain ⟨hl, ps, h⟩ := atHome_rest s f.line
        rw [h]
  clean x hx hl _ := clean_homeSync (atHome_sect s f.line ▸ hx) hl
  line := filledLine_atHome s f data
  coh := coherent_atHome hc

/-- A copy of another die's line is remote-tagged, and has nothing to write back. -/
theorem fillStart_far {s u : State} {f : Fill} {h : Nat} (hc : Coherent s f.line) (hh : homeOfLine f.line = some h)
    (hne : h ≠ sectorDie f.sector) (hu : ∃ fl ds, u = { s with flows := fl, dies := ds }) (data : Line) : FillStart s u f data := by
  obtain ⟨fl, ds, rfl⟩ := hu
  refine ⟨⟨fun l => homeView_congr rfl rfl l, rfl, rfl⟩, fun x hx hl hs => .inl ?_, rfl, hc⟩
  cases hr : x.remote
  · have := (hc x hx hl).1.mp hr
    rw [hh, hs] at this
    exact absurd (Option.some.inj this) hne
  · rfl

/-- What the arrival of a fill leaves, from where its data meets the sector. -/
theorem fill_arrives {s u : State} {f : Fill} {data : Line} {idx : Nat} (hid : f.id = idx) (hf : f.sector = coreSector f.core)
    (hpair : f.waiters.Pairwise fun x y => x.wave ≠ y.wave ∨ x.pid ≠ y.pid) (hu : FillStart s u f data)
    (hd : homeOfLine f.line = some (sectorDie f.sector) → data = s.homeView f.line) :
    let t := u.completeFill f data
    (f.stores = [] → HomesKept s t) ∧
    ((∀ x ∈ f.stores, f.fillSect = true ∧ x.w.line = f.line ∧ coreSector x.core = f.sector) →
      homeOfLine f.line = some (sectorDie f.sector) → ∀ A,
      byteNow t A = Claims.written (f.stores.map (·.w)) (A / 64) (A % 64) (byteNow s A)) ∧ t.versions = s.versions ∧
    (∀ x ∈ t.fills, x.id ≠ idx) ∧
    ∀ r ∈ f.waiters, ∀ w p, s.wave? r.wave = some w → p.id = r.pid → Answered s t r.wave p
      { p with
        opened := false
        vals := wordsOf r.width (lineNat (s.overlay w.gang f.line (filledLine s f data)) r.off r.width.bytes) } := by
  obtain ⟨⟨hhome, hwaves, hver⟩, hclean, hline, hcoh⟩ := hu
  obtain ⟨h1, h2, h3, h4⟩ := completeFill_spec data hf hclean hpair
  refine ⟨fun hs l => (h1 hs l).trans (hhome l), fun hs hh A => ?_, h2.trans hver, hid ▸ h3, fun r hr w p hw hp => ?_⟩
  · rw [completeFill_bytes hf hclean hpair hs hh hcoh ((hd hh).trans (hhome f.line).symm) A, byteNow, hhome]
    rfl
  · refine answered_of_holds fun w' hw' hpend => ?_
    obtain rfl : w = w' := Option.some.inj (hw.symm.trans hw')
    have hu' : u.Holds r.wave w.gang p := State.Holds.congr hwaves ⟨w, hw, rfl, hpend⟩
    have := h4 r hr p w.gang hp hu'
    rwa [overlay_congr hver, hline] at this

theorem fill_id {s : State} {idx : Nat} {f : Fill} (h : s.fills.find? (fun x => x.id == idx) = some f) : f.id = idx := by
  simpa using List.find?_some h

theorem mergingFillArrival_near {s : State} {idx : Nat} {f : Fill} (h : s.fills.find? (fun x => x.id == idx) = some f)
    (hsent : f.sent = true) (hh : homeOfLine f.line = some (sectorDie f.sector)) : exec (.mergingFillArrival idx) s =
      .next (if s.coverage (sectorDie f.sector) f.deps then (s.atHome f.line).completeFill f (s.homeView f.line) else s) := by
  show execMergingFillArrival idx s = _
  rw [← memLine_atHome]
  unfold execMergingFillArrival
  simp only [h, hsent, hh, Bool.not_true, Bool.false_eq_true, if_false, beq_self_eq_true, if_true]
  cases s.coverage (sectorDie f.sector) f.deps <;> rfl

theorem mergingFillArrival_far {s : State} {idx k : Nat} {f : Fill} {x : Line} (h : s.fills.find? (fun x => x.id == idx) = some f)
    (hsent : f.sent = true) (hh : homeOfLine f.line = some k) (hne : k ≠ sectorDie f.sector) (hx : f.data = some x)
    (hr : .reply idx ∈ (s.flow .response k (sectorDie f.sector)).ready) : ∃ fl ds, exec (.mergingFillArrival idx) s =
      .next (State.completeFill { s with flows := fl, dies := ds } f x) := by
  have he : execMergingFillArrival idx s = .next (State.completeFill (State.mergeReply (s.putFlow
      { s.flow .response k (sectorDie f.sector) with
        ready := (s.flow .response k (sectorDie f.sector)).ready.filter (· != .reply idx) }) (sectorDie f.sector) f.applied) f x) := by
    unfold execMergingFillArrival
    simp only [h, hsent, hh, Bool.not_true, Bool.false_eq_true, if_false, beq_eq_false_iff_ne.mpr hne, hx,
      List.contains_iff_mem.mpr hr, if_true]
  exact ⟨_, _, he⟩

theorem mergingFillArrival_unsent {s : State} {idx : Nat} {f : Fill} (h : s.fills.find? (fun x => x.id == idx) = some f)
    (hsent : f.sent = false) : exec (.mergingFillArrival idx) s = .next s := by
  show execMergingFillArrival idx s = _
  unfold execMergingFillArrival
  simp only [h, hsent, Bool.not_false, if_true]

/-! ## The service of a read (R201) -/

theorem flow?_putFlow_same (s : State) (f : Flow) : (s.putFlow f).flow? f.cls f.src f.dst = some f := by
  simp [State.putFlow, State.flow?]

theorem flow?_putFlow_ne {s : State} {f : Flow} {c : FlowClass} {j k : Nat} (h : ¬(f.cls = c ∧ f.src = j ∧ f.dst = k)) :
    (s.putFlow f).flow? c j k = s.flow? c j k := by
  have hf : (f.cls == c && f.src == j && f.dst == k) = false := by
    rw [Bool.eq_false_iff]
    simpa [and_assoc] using h
  show List.find? _ (f :: _) = _
  rw [List.find?_cons, hf]
  refine find?_filter_of_imp (fun x hx => ?_) s.flows
  simp only [Bool.and_eq_true, beq_iff_eq] at hx
  obtain ⟨⟨rfl, rfl⟩, rfl⟩ := hx
  simp only [Bool.not_eq_true', Bool.and_eq_false_iff, beq_eq_false_iff_ne, ne_eq]
  by_contra hall
  simp only [not_or, not_not] at hall
  exact h ⟨hall.1.1.symm, hall.1.2.symm, hall.2.symm⟩

/-- The flow found for a class and two dies is theirs. -/
theorem flow_key (s : State) (c : FlowClass) (j k : Nat) : (s.flow c j k).cls = c ∧ (s.flow c j k).src = j ∧ (s.flow c j k).dst = k := by
  unfold State.flow
  cases h : s.flow? c j k with
  | none => exact ⟨rfl, rfl, rfl⟩
  | some f =>
    have := List.find?_some h
    simp only [Bool.and_eq_true, beq_iff_eq] at this
    exact ⟨this.1.1, this.1.2, this.2⟩

theorem flow_putFlow_same {s : State} {f : Flow} {c : FlowClass} {j k : Nat} (hc : f.cls = c) (hj : f.src = j) (hk : f.dst = k) :
    (s.putFlow f).flow c j k = f := by
  subst hc hj hk
  rw [State.flow, flow?_putFlow_same]
  rfl

theorem flow_putFlow_ne {s : State} {f : Flow} {c : FlowClass} {j k : Nat} (h : ¬(f.cls = c ∧ f.src = j ∧ f.dst = k)) :
    (s.putFlow f).flow c j k = s.flow c j k := by
  rw [State.flow, flow?_putFlow_ne h]
  rfl

/-- A message sent is among those of its flow that have not been applied. -/
theorem send_bodies (s : State) (c : FlowClass) (j k : Nat) (b : FlitBody) : b ∈ ((s.send c j k b).flow c j k).bodies := by
  obtain ⟨h1, h2, h3⟩ := flow_key s c j k
  have he : (s.send c j k b).flow c j k = { s.flow c j k with
      next := (s.flow c j k).next + 1
      flight := (s.flow c j k).flight ++ [{ seq := (s.flow c j k).next, body := b }] } := flow_putFlow_same h1 h2 h3
  rw [he]
  simp [Flow.bodies]

theorem send_flow_ne {s : State} {c c' : FlowClass} (j k j' k' : Nat) (b : FlitBody) (h : c ≠ c') :
    (s.send c j k b).flow c' j' k' = s.flow c' j' k' :=
  flow_putFlow_ne fun e => h ((flow_key s c j k).1.symm.trans e.1)

theorem flow_congr {s t : State} (h : t.flows = s.flows) (c : FlowClass) (j k : Nat) : t.flow c j k = s.flow c j k := by
  unfold State.flow State.flow?
  rw [h]

/-- The state as a home has taken a read of its line from the flow. -/
def State.readTaken (s : State) (idx k : Nat) (f : Fill) : State :=
  let fl := s.flow .request (sectorDie f.sector) k
  (s.putFlow { fl with ready := fl.ready.filter (· != .read idx) }).atHome f.line

/-- The fill as its home has served it. -/
def State.servedFill (s : State) (k n : Nat) (f y : Fill) : Fill :=
  { y with data := some (s.homeView f.line), applied := (s.die k).app, served := n }

theorem homeReadServe_eq {s : State} {idx k : Nat} {f : Fill} (h : s.fills.find? (fun x => x.id == idx) = some f)
    (hh : homeOfLine f.line = some k) (hr : .read idx ∈ (s.flow .request (sectorDie f.sector) k).ready) :
    exec (.homeReadServe idx) s = .next (if s.coverage k f.deps then
      let t := s.readTaken idx k f
      State.send { t with
        nextId := t.nextId + 1
        fills := modBy t.fills (fun y => y.id == idx) fun y => s.servedFill k t.nextId f y } .response k (sectorDie f.sector)
        (.reply idx) else s) := by
  show execHomeReadServe idx s = _
  have hmem : memLine (s.readTaken idx k f).mem f.line = s.homeView f.line := memLine_atHome _ _
  unfold execHomeReadServe
  simp only [h, hh, List.contains_iff_mem.mpr hr, Bool.true_and]
  cases s.coverage k f.deps with
  | false => rfl
  | true =>
    simp only [if_true]
    unfold State.servedFill
    rw [← hmem]
    rfl

/-- A read that its home has taken is no longer ready there. -/
theorem read_taken {s t : State} {idx j k : Nat} (h : t.flows = (s.putFlow { s.flow .request j k with
    ready := (s.flow .request j k).ready.filter (· != .read idx) }).flows) : .read idx ∉ (t.flow .request j k).ready := by
  obtain ⟨h1, h2, h3⟩ := flow_key s .request j k
  have he : (s.putFlow { s.flow .request j k with ready := (s.flow .request j k).ready.filter (· != .read idx) }).flow .request j k =
      { s.flow .request j k with ready := (s.flow .request j k).ready.filter (· != .read idx) } := flow_putFlow_same h1 h2 h3
  rw [flow_congr h, he]
  simp

theorem homeRead_served {s : State} {idx k : Nat} {f : Fill} (h : s.fills.find? (fun x => x.id == idx) = some f)
    (hh : homeOfLine f.line = some k) (hr : .read idx ∈ (s.flow .request (sectorDie f.sector) k).ready)
    (hcov : s.coverage k f.deps = true) : ∃ t f', exec (.homeReadServe idx) s = .next t ∧ HomesKept s t ∧ f' ∈ t.fills ∧ f'.id = idx ∧
      f'.data = some (s.homeView f.line) ∧ f'.applied = (s.die k).app ∧
      .read idx ∉ (t.flow .request (sectorDie f.sector) k).ready ∧
      .reply idx ∈ (t.flow .response k (sectorDie f.sector)).bodies := by
  have he := homeReadServe_eq h hh hr
  rw [if_pos hcov] at he
  obtain ⟨hl, ps, hat⟩ := atHome_rest (s.putFlow { s.flow .request (sectorDie f.sector) k with
    ready := (s.flow .request (sectorDie f.sector) k).ready.filter (· != .read idx) }) f.line
  have hfills : (s.readTaken idx k f).fills = s.fills := by rw [State.readTaken, hat]; rfl
  have hflows : (s.readTaken idx k f).flows = (s.putFlow { s.flow .request (sectorDie f.sector) k with
    ready := (s.flow .request (sectorDie f.sector) k).ready.filter (· != .read idx) }).flows := by rw [State.readTaken, hat]
  refine ⟨_, s.servedFill k (s.readTaken idx k f).nextId f f, he, fun l => ?_, ?_, (fill_id h : f.id = idx), rfl, rfl, ?_, send_bodies _ _ _ _ _⟩
  · refine (homeView_congr rfl rfl l).trans ((atHome_homes _ f.line l).trans ?_)
    exact homeView_congr rfl rfl l
  · refine List.mem_map.mpr ⟨f, hfills ▸ List.mem_of_find?_eq_some h, ?_⟩
    rw [if_pos (by simp [fill_id h])]
  · rw [send_flow_ne _ _ _ _ _ (by decide)]
    exact read_taken hflows

/-! ## Evictions (R173) -/

theorem evictSect_copies (s : State) (unit line : Nat) :
    (∀ x ∈ (s.evictSect unit line).sect, ¬(x.sector = unit ∧ x.line = line) ∧
      ∃ y ∈ s.sect, x = { y with dirty := x.dirty } ∧ (y.line ≠ line → x = y)) ∧
    ∀ y ∈ s.sect, ¬(y.sector = unit ∧ y.line = line) →
      ∃ x ∈ (s.evictSect unit line).sect, x = { y with dirty := x.dirty } ∧ (y.line ≠ line → x = y) := by
  have hsync : (∀ x ∈ (s.homeSync line).sect, ∃ y ∈ s.sect, x = { y with dirty := x.dirty } ∧ (y.line ≠ line → x = y)) ∧
      ∀ y ∈ s.sect, ∃ x ∈ (s.homeSync line).sect, x = { y with dirty := x.dirty } ∧ (y.line ≠ line → x = y) := by
    have hone (y : SectLine) : let x := if y.line == line && !y.remote then { y with dirty := 0 } else y
        x = { y with dirty := x.dirty } ∧ (y.line ≠ line → x = y) := by
      dsimp only
      split
      · next hc => exact ⟨rfl, fun hne => absurd (by simpa using (Bool.and_eq_true_iff.mp hc).1) hne⟩
      · exact ⟨rfl, fun _ => rfl⟩
    refine ⟨fun x hx => ?_, fun y hy => ⟨_, List.mem_map.mpr ⟨y, hy, rfl⟩, hone y⟩⟩
    obtain ⟨y, hy, rfl⟩ := List.mem_map.mp hx
    exact ⟨y, hy, hone y⟩
  have hbase : ∃ u : State, s.evictSect unit line = u.dropSect unit line ∧
      (∀ x ∈ u.sect, ∃ y ∈ s.sect, x = { y with dirty := x.dirty } ∧ (y.line ≠ line → x = y)) ∧
      ∀ y ∈ s.sect, ∃ x ∈ u.sect, x = { y with dirty := x.dirty } ∧ (y.line ≠ line → x = y) := by
    unfold State.evictSect
    dsimp only
    split
    · exact ⟨_, rfl, hsync⟩
    · exact ⟨_, rfl, fun x hx => ⟨x, hx, rfl, fun _ => rfl⟩, fun y hy => ⟨y, hy, rfl, fun _ => rfl⟩⟩
  obtain ⟨u, he, h1, h2⟩ := hbase
  rw [he]
  refine ⟨fun x hx => ?_, fun y hy hne => ?_⟩
  · obtain ⟨hx, hp⟩ := List.mem_filter.mp hx
    exact ⟨by rintro ⟨rfl, rfl⟩; simp at hp, h1 x hx⟩
  · obtain ⟨x, hx, hxy, hsame⟩ := h2 y hy
    refine ⟨x, List.mem_filter.mpr ⟨hx, ?_⟩, hxy, hsame⟩
    rw [hxy]
    simpa [imp_iff_not_or] using hne

theorem homeEviction (s : State) (unit line : Nat) : ∃ t, exec (.cacheEviction .home unit line) s = .next t ∧
    t = { s with homeLines := t.homeLines } ∧ (homeOfLine line = some unit → line ∉ t.homeLines) := by
  show ∃ t, (if homeOfLine line == some unit then _ else _) = _ ∧ _
  split
  · exact ⟨_, rfl, rfl, fun _ => by simp⟩
  · next h => exact ⟨s, rfl, rfl, fun he => absurd (by simp [he]) h⟩

end Sys2Proof.Machine
end

section
/-! The host's accesses (R207, R373): lines read at their homes, and bytes written to them. `written_lineWrites` says that the line
writes of a list of bytes write those bytes. -/

namespace Sys2Proof.Machine
open Sys2Proof.Claims

/-! ## Bytes gathered into line writes -/

/-- Byte `a` after the bytes of a list have been written in turn. -/
def bytesPut (xs : List (Nat × Byte)) (a : Nat) (b : Byte) : Byte := xs.foldl (fun b x => if x.1 = a then x.2 else b) b

theorem lineWritten_append (ws vs : List LineWrite) (line n : Nat) (b : Byte) :
    Claims.written (ws ++ vs) line n b = Claims.written vs line n (Claims.written ws line n b) := List.foldl_append

theorem lineWritten_cons (w : LineWrite) (ws : List LineWrite) (line n : Nat) (b : Byte) : Claims.written (w :: ws) line n b =
    Claims.written ws line n (if w.line = line ∧ w.mask.getLsbD n = true then lineByte w.data n else b) := rfl

/-- Writes to other lines leave a byte alone. -/
theorem written_of_ne {ws : List LineWrite} {line : Nat} (h : ∀ w ∈ ws, w.line ≠ line) (n : Nat) (b : Byte) :
    Claims.written ws line n b = b := by
  induction ws with
  | nil => rfl
  | cons w ws ih =>
    rw [Claims.written, List.foldl_cons, if_neg fun e => h w List.mem_cons_self e.1]
    exact ih fun v hv => h v (List.mem_cons_of_mem _ hv)

theorem lineWrite_line (a : Nat) (x : Byte) : (lineWrite a 1 x.toNat).line = a / 64 := rfl

theorem lineWrite_mask (a : Nat) (x : Byte) {n : Nat} (hn : n < 64) :
    (lineWrite a 1 x.toNat).mask.getLsbD n = decide (n = a % 64) := by
  show (BitVec.ofNat 64 (1 * 2 ^ (a % 64))).getLsbD n = _
  rw [BitVec.getLsbD_ofNat, Nat.one_mul, Nat.testBit_two_pow]
  simp [hn, eq_comm]

theorem lineWrite_data (a : Nat) (x : Byte) : lineByte (lineWrite a 1 x.toNat).data (a % 64) = x := by
  have hx : x.toNat < 256 := x.isLt
  have hlt : x.toNat * 2 ^ (8 * (a % 64)) < 2 ^ 512 := by
    calc x.toNat * 2 ^ (8 * (a % 64)) < 256 * 2 ^ (8 * (a % 64)) := Nat.mul_lt_mul_of_pos_right hx (Nat.two_pow_pos _)
      _ = 2 ^ (8 * (a % 64) + 8) := by rw [Nat.pow_add, Nat.mul_comm]
      _ ≤ 2 ^ 512 := Nat.pow_le_pow_right (by decide) (by omega)
  show BitVec.ofNat 8 ((BitVec.ofNat 512 (x.toNat % 2 ^ (8 * 1) * 2 ^ (8 * (a % 64)))).toNat / 2 ^ (8 * (a % 64))) = x
  rw [Nat.mod_eq_of_lt (by simp), BitVec.toNat_ofNat, Nat.mod_eq_of_lt hlt, Nat.mul_div_cancel _ (Nat.two_pow_pos _),
    BitVec.ofNat_toNat, BitVec.setWidth_eq]

theorem lines_addByte (ws : List LineWrite) (x : Nat × Byte) : (addByte ws x).map (·.line) =
    if x.1 / 64 ∈ ws.map (·.line) then ws.map (·.line) else ws.map (·.line) ++ [x.1 / 64] := by
  have hany : (ws.any fun v => v.line == (lineWrite x.1 1 x.2.toNat).line) = decide (x.1 / 64 ∈ ws.map (·.line)) := by
    rw [Bool.eq_iff_iff]
    simp [lineWrite_line]
  unfold addByte
  dsimp only
  rw [hany]
  by_cases h : x.1 / 64 ∈ ws.map (·.line)
  · rw [if_pos (decide_eq_true h), if_pos h, modBy, List.map_map]
    refine List.map_congr_left fun v _ => ?_
    dsimp only [Function.comp]
    split <;> rfl
  · rw [if_neg (by simpa using h), if_neg h, List.map_append]
    rfl

/-- A byte more. -/
theorem written_addByte {ws : List LineWrite} (h : (ws.map (·.line)).Nodup) (x : Nat × Byte) {line n : Nat} (hn : n < 64) (b : Byte) :
    Claims.written (addByte ws x) line n b = if x.1 = 64 * line + n then x.2 else Claims.written ws line n b := by
  have hx : x.1 = 64 * line + n ↔ x.1 / 64 = line ∧ n = x.1 % 64 := by omega
  have hone (c : Byte) : Claims.written [lineWrite x.1 1 x.2.toNat] line n c = if x.1 = 64 * line + n then x.2 else c := by
    show (if _ ∧ _ then _ else _) = _
    simp only [lineWrite_line, lineWrite_mask x.1 x.2 hn, decide_eq_true_eq]
    by_cases hc : x.1 / 64 = line ∧ n = x.1 % 64
    · rw [if_pos hc, if_pos (hx.mpr hc), hc.2, lineWrite_data]
    · rw [if_neg hc, if_neg fun e => hc (hx.mp e)]
  unfold addByte
  dsimp only
  by_cases hany : (ws.any fun v => v.line == (lineWrite x.1 1 x.2.toNat).line) = true
  · rw [if_pos hany]
    obtain ⟨v, hv, hl⟩ := List.any_eq_true.mp hany
    obtain ⟨as, bs, rfl⟩ := List.append_of_mem hv
    have hl : v.line = x.1 / 64 := beq_iff_eq.mp hl
    rw [List.map_append, List.map_cons, List.nodup_append, List.nodup_cons] at h
    obtain ⟨-, ⟨hvbs, -⟩, hdis⟩ := h
    have has : ∀ u ∈ as, u.line ≠ v.line := fun u hu =>
      hdis _ (List.mem_map_of_mem hu) _ List.mem_cons_self
    have hbs : ∀ u ∈ bs, u.line ≠ v.line := fun u hu e => hvbs (e ▸ List.mem_map_of_mem hu)
    have hkeep : ∀ us : List LineWrite, (∀ u ∈ us, u.line ≠ v.line) → modBy us (fun u => u.line == (lineWrite x.1 1 x.2.toNat).line)
        (fun u => { u with data := mergeLine (lineWrite x.1 1 x.2.toNat).mask u.data (lineWrite x.1 1 x.2.toNat).data
                           mask := u.mask ||| (lineWrite x.1 1 x.2.toNat).mask }) = us := fun us hus => by
      refine (List.map_congr_left fun u hu => if_neg ?_).trans (List.map_id us)
      rw [lineWrite_line, ← hl]
      simpa using hus u hu
    rw [modBy, List.map_append, List.map_cons, ← modBy, ← modBy, hkeep as has, hkeep bs hbs, if_pos (by simp [hl, lineWrite_line]),
      lineWritten_append, lineWritten_append, lineWritten_cons, lineWritten_cons]
    by_cases hline : v.line = line
    · rw [written_of_ne (ws := bs) (fun u hu => hline ▸ hbs u hu), written_of_ne (ws := as) (fun u hu => hline ▸ has u hu),
        written_of_ne (ws := bs) (fun u hu => hline ▸ hbs u hu), ← hone]
      show _ = if _ ∧ _ then _ else _
      rw [lineByte_mergeLine _ _ _ hn, BitVec.getLsbD_or, lineWrite_line, ← hl]
      cases (lineWrite x.1 1 x.2.toNat).mask.getLsbD n <;> simp [hline]
    · rw [if_neg fun e => hline (hl.trans (hx.mp e).1), if_neg fun e => hline e.1, if_neg fun e => hline e.1]
  · rw [if_neg hany, lineWritten_append, hone]

theorem nodup_addByte {ws : List LineWrite} (h : (ws.map (·.line)).Nodup) (x : Nat × Byte) : ((addByte ws x).map (·.line)).Nodup := by
  rw [lines_addByte]
  split
  · exact h
  · next hn => exact List.nodup_append.mpr ⟨h, by simp, fun a ha c hc e => hn (by rw [← List.mem_singleton.mp hc, ← e]; exact ha)⟩

/-- The line writes of a list of bytes write those bytes, the last of each address. -/
theorem written_lineWrites (xs : List (Nat × Byte)) {line n : Nat} (hn : n < 64) (b : Byte) :
    Claims.written (lineWrites xs) line n b = bytesPut xs (64 * line + n) b := by
  have key : ∀ (xs : List (Nat × Byte)) (ws : List LineWrite), (ws.map (·.line)).Nodup →
      Claims.written (xs.foldl addByte ws) line n b = bytesPut xs (64 * line + n) (Claims.written ws line n b) := by
    intro xs
    induction xs with
    | nil => exact fun _ _ => rfl
    | cons x xs ih =>
      intro ws hws
      rw [List.foldl_cons, ih _ (nodup_addByte hws x), written_addByte hws x hn]
      rfl
  exact key xs [] List.nodup_nil

/-- Each line written holds one of the bytes. -/
theorem lines_lineWrites (xs : List (Nat × Byte)) {w : LineWrite} (h : w ∈ lineWrites xs) : ∃ x ∈ xs, w.line = x.1 / 64 := by
  have key : ∀ (xs : List (Nat × Byte)) (ws : List LineWrite), ∀ l ∈ (xs.foldl addByte ws).map (·.line),
      l ∈ ws.map (·.line) ∨ ∃ x ∈ xs, l = x.1 / 64 := by
    intro xs
    induction xs with
    | nil => exact fun _ _ hl => .inl hl
    | cons x xs ih =>
      intro ws l hl
      rcases ih (addByte ws x) l hl with hl | ⟨y, hy, hl⟩
      · rw [lines_addByte] at hl
        split at hl
        · exact .inl hl
        · rcases List.mem_append.mp hl with hl | hl
          · exact .inl hl
          · exact .inr ⟨x, List.mem_cons_self, List.mem_singleton.mp hl⟩
      · exact .inr ⟨y, List.mem_cons_of_mem _ hy, hl⟩
  exact (key xs [] _ (List.mem_map_of_mem h)).resolve_left (by simp)

/-- Bytes at successive addresses, of which only some are written. -/
theorem bytesPut_run (p : Nat → Bool) (A : Nat) : ∀ (bytes : List Byte) (addr k : Nat) (b : Byte),
    bytesPut (((bytes.zipIdx k).map fun x => (addr + x.2, x.1)).filter fun x => p x.1) A b =
      if addr + k ≤ A ∧ p A = true then (bytes[A - (addr + k)]?).getD b else b
  | [], _, _, b => by simp [bytesPut]
  | x :: xs, addr, k, b => by
    have ih := bytesPut_run p A xs addr (k + 1)
    rw [List.zipIdx_cons, List.map_cons, List.filter_cons]
    have hstep (c : Byte) : (if addr + (k + 1) ≤ A ∧ p A = true then (xs[A - (addr + (k + 1))]?).getD c else c) =
        if addr + k ≤ A ∧ p A = true ∧ A ≠ addr + k then ((x :: xs)[A - (addr + k)]?).getD c else c := by
      by_cases hA : addr + (k + 1) ≤ A
      · obtain ⟨j, rfl⟩ := Nat.exists_eq_add_of_le hA
        rw [show addr + (k + 1) + j - (addr + k) = j + 1 by omega, show addr + (k + 1) + j - (addr + (k + 1)) = j by omega,
          List.getElem?_cons_succ]
        refine if_congr ⟨fun h => ⟨by omega, h.2, by omega⟩, fun h => ⟨by omega, h.2.1⟩⟩ rfl rfl
      · rw [if_neg fun h => hA h.1, if_neg fun h => hA (by omega)]
    by_cases hp : p (addr + k) = true
    · rw [if_pos hp]
      show bytesPut _ A (if addr + k = A then x else b) = _
      rw [ih, hstep]
      by_cases hA : addr + k = A
      · subst hA
        simp [hp]
      · rw [if_neg hA]
        exact if_congr ⟨fun h => ⟨h.1, h.2.1⟩, fun h => ⟨h.1, h.2, Ne.symm hA⟩⟩ rfl rfl
    · rw [if_neg hp, ih, hstep]
      refine if_congr ⟨fun h => ⟨h.1, h.2.1⟩, fun h => ⟨h.1, h.2, fun e => hp (e ▸ h.2)⟩⟩ rfl rfl

/-! ## Writes at homes and in host memory -/

/-- A write performed for the host: in its own memory, or at the line's home. -/
def State.hostPut (s : State) (w : LineWrite) : State :=
  if homeOfLine w.line == none then { s with mem := memPut s.mem w } else s.homeWrite w

/-- A line of no home has no dirty copy. -/
def HomelessClean (s : State) (ws : List LineWrite) : Prop := ∀ w ∈ ws, homeOfLine w.line = none → s.dirtyOf w.line = []

theorem dirtyOf_hostPut (s : State) (w : LineWrite) (l : Nat) (h : s.dirtyOf l = []) : (s.hostPut w).dirtyOf l = [] := by
  unfold State.hostPut
  split
  · exact h
  · rw [dirtyOf_homeWrite]
    split
    · rfl
    · exact h

theorem homeView_hostPut {s : State} {w : LineWrite} (h : homeOfLine w.line = none → s.dirtyOf w.line = []) (l : Nat) :
    (s.hostPut w).homeView l = if l = w.line then mergeLine w.mask (s.homeView l) w.data else s.homeView l := by
  unfold State.hostPut
  split
  · next hn =>
    have hc := h (beq_iff_eq.mp hn)
    have hd : State.dirtyOf { s with mem := memPut s.mem w } l = s.dirtyOf l := rfl
    rw [homeView_def, hd, memLine_memPut]
    split
    · next hl =>
      subst hl
      rw [homeView_def, hc]
      rfl
    · rfl
  · rw [homeView_homeWrite]
    split
    · next hl => rw [hl]
    · rfl

/-- Writes for the host, in turn. -/
theorem hostPuts_byte {l n : Nat} (hn : n < 64) : ∀ (ws : List LineWrite) (s : State), HomelessClean s ws →
    lineByte ((ws.foldl State.hostPut s).homeView l) n = Claims.written ws l n (lineByte (s.homeView l) n)
  | [], _, _ => rfl
  | w :: ws, s, hc => by
    rw [List.foldl_cons, hostPuts_byte hn ws (s.hostPut w)
      (fun v hv hh => dirtyOf_hostPut s w _ (hc v (List.mem_cons_of_mem _ hv) hh)), homeView_hostPut (hc w List.mem_cons_self),
      Claims.written, Claims.written, List.foldl_cons]
    congr 1
    by_cases hl : l = w.line
    · rw [if_pos hl, lineByte_mergeLine _ _ _ hn]
      simp [hl]
    · rw [if_neg hl, if_neg fun e => hl e.1.symm]

theorem hostWrite_eq (s : State) (addr : Nat) (bytes : List Byte) :
    let ws := lineWrites ((bytes.zipIdx.map fun b => (addr + b.2, b.1)).filter fun x => s.frameOk x.1)
    s.hostWrite addr bytes = ws.foldl State.hostPut (ws.foldl State.endPoison (s.dropSeals ws)) := rfl

/-- The bytes that the host writes. -/
theorem byteNow_hostWrite {s : State} {addr : Nat} {bytes : List Byte}
    (h : HomelessClean s (lineWrites ((bytes.zipIdx.map fun b => (addr + b.2, b.1)).filter fun x => s.frameOk x.1))) (A : Nat) :
    byteNow (s.hostWrite addr bytes) A =
      if addr ≤ A ∧ s.frameOk A = true then (bytes[A - addr]?).getD (byteNow s A) else byteNow s A := by
  have hn : A % 64 < 64 := Nat.mod_lt _ (by decide)
  rw [hostWrite_eq]
  generalize hws : lineWrites _ = ws at h
  have hsect : (ws.foldl State.endPoison (s.dropSeals ws)).sect = s.sect :=
    foldl_keeps (fun s : State => s.sect) (F := State.endPoison) (fun _ _ => rfl) ws _
  have hmem : (ws.foldl State.endPoison (s.dropSeals ws)).mem = s.mem :=
    foldl_keeps (fun s : State => s.mem) (F := State.endPoison) (fun _ _ => rfl) ws _
  have hclean : HomelessClean (ws.foldl State.endPoison (s.dropSeals ws)) ws := fun w hw hh => by
    rw [State.dirtyOf, hsect]
    exact h w hw hh
  rw [byteNow, hostPuts_byte hn ws _ hclean, homeView_congr hmem hsect, ← hws, written_lineWrites _ hn, Nat.div_add_mod,
    bytesPut_run s.frameOk A bytes addr 0]
  rfl

/-! ## Lines read for the host -/

theorem fitHome_room {s : State} {h : Nat} {keep : Option Nat} (hroom : s.homeLines.length + s.versions.length ≤ homeCacheLines) :
    s.fitHome h keep = s := by
  have h1 : (s.homeHeld h none).length ≤ s.homeLines.length := List.length_filter_le _ _
  have h2 : s.verUsed h ≤ s.versions.length := List.length_filter_le _ _
  unfold State.fitHome
  rw [show (s.homeHeld h none).length + s.verUsed h - homeCacheLines = 0 by omega]
  rfl

/-- Where the home cache has room, a line brought to it is there, and those that were stay. -/
theorem atHome_room {s : State} (line : Nat) (h : s.homeLines.length + s.versions.length < homeCacheLines) :
    (s.atHome line).homeLines = if line ∈ s.homeLines then s.homeLines else line :: s.homeLines := by
  unfold State.atHome State.touchHome
  rw [show (s.homeSync line).homeLines = s.homeLines from rfl]
  by_cases hm : line ∈ s.homeLines
  · rw [if_pos (List.contains_iff_mem.mpr hm), if_pos hm]
    rfl
  · rw [if_neg (by simpa using hm), if_neg hm, fitHome_room]
    show (line :: s.homeLines).length + s.versions.length ≤ homeCacheLines
    rw [List.length_cons]
    omega

/-- A line of device memory read for the host. -/
def State.hostRead (s : State) (n : Nat) : State := if s.deviceFrame (64 * n) then s.atHome n else s

theorem hostRead_rest (s : State) (n : Nat) :
    ∃ m ls hl ps, s.hostRead n = { s with mem := m, sect := ls, homeLines := hl, picks := ps } := by
  unfold State.hostRead
  split
  · obtain ⟨hl, ps, h⟩ := atHome_rest s n
    exact ⟨_, _, _, _, h⟩
  · exact ⟨_, _, _, _, rfl⟩

theorem hostReads_rest : ∀ (ns : List Nat) (s : State),
    HomesKept s (ns.foldl State.hostRead s) ∧
    ∃ m ls hl ps, ns.foldl State.hostRead s = { s with mem := m, sect := ls, homeLines := hl, picks := ps }
  | [], _ => ⟨fun _ => rfl, _, _, _, _, rfl⟩
  | n :: ns, s => by
    obtain ⟨hk, m, ls, hl, ps, h⟩ := hostReads_rest ns (s.hostRead n)
    obtain ⟨m', ls', hl', ps', h'⟩ := hostRead_rest s n
    refine ⟨fun l => (hk l).trans ?_, m, ls, hl, ps, by rw [List.foldl_cons, h, h']⟩
    unfold State.hostRead
    split
    · exact atHome_homes s n l
    · rfl

theorem hostReads_room : ∀ (ns : List Nat) (s : State), s.homeLines.length + s.versions.length + ns.length ≤ homeCacheLines →
    (∀ x ∈ s.homeLines, x ∈ (ns.foldl State.hostRead s).homeLines) ∧
    ∀ n ∈ ns, s.deviceFrame (64 * n) = true → n ∈ (ns.foldl State.hostRead s).homeLines
  | [], _, _ => ⟨fun _ hx => hx, nofun⟩
  | n :: ns, s, hroom => by
    rw [List.length_cons] at hroom
    have hlines : (s.hostRead n).homeLines = if s.deviceFrame (64 * n) = true ∧ n ∉ s.homeLines then n :: s.homeLines
        else s.homeLines := by
      unfold State.hostRead
      by_cases hd : s.deviceFrame (64 * n) = true
      · rw [if_pos hd, atHome_room n (by omega)]
        by_cases hm : n ∈ s.homeLines <;> simp [hd, hm]
      · rw [if_neg hd, if_neg fun e => hd e.1]
    obtain ⟨m, ls, hl, ps, he⟩ := hostRead_rest s n
    have hver : (s.hostRead n).versions = s.versions := by rw [he]
    have hlen : (s.hostRead n).homeLines.length ≤ s.homeLines.length + 1 := by
      rw [hlines]
      split
      · exact Nat.le_refl _
      · omega
    obtain ⟨h1, h2⟩ := hostReads_room ns (s.hostRead n) (by rw [hver]; omega)
    have hsub : ∀ x ∈ s.homeLines, x ∈ (s.hostRead n).homeLines := fun x hx => by
      rw [hlines]
      split
      · exact List.mem_cons_of_mem _ hx
      · exact hx
    refine ⟨fun x hx => h1 x (hsub x hx), fun k hk hd => ?_⟩
    rcases List.mem_cons.mp hk with rfl | hk
    · refine h1 k ?_
      rw [hlines]
      by_cases hm : k ∈ s.homeLines
      · rw [if_neg fun e => e.2 hm]; exact hm
      · rw [if_pos ⟨hd, hm⟩]; exact List.mem_cons_self
    · refine h2 k hk ?_
      rw [he]
      exact hd

end Sys2Proof.Machine
end

section
/-! O43: the statement, from the laws of fills, reads, evictions and host writes above. -/

namespace Sys2Proof.Machine
open Sys2Proof.Claims

theorem exposed_iff (s : State) (a n : Nat) : s.exposed a n = true ↔ Reached s a n := by
  simp [State.exposed, Reached]

theorem unreached {s : State} {a n : Nat} (h : s.link = false ∨ ¬Reached s a n) : ¬(s.link && s.exposed a n) = true := by
  rw [← exposed_iff] at h
  rcases h with h | h <;> simp [h]

/-- The lines that hold the bytes the host reads. -/
def readLines (addr len : Nat) : List Nat := (List.range ((addr % 64 + len + 63) / 64)).map (addr / 64 + ·)

theorem mem_readLines {addr len A : Nat} (h : addr ≤ A) (hlt : A < addr + len) : A / 64 ∈ readLines addr len :=
  List.mem_map.mpr ⟨A / 64 - addr / 64, List.mem_range.mpr (by omega), by omega⟩

theorem length_readLines (addr len : Nat) : (readLines addr len).length ≤ len + 1 := by
  rw [readLines, List.length_map, List.length_range]
  omega

theorem hostMemRead_eq (s : State) (addr len : Nat) : exec (.hostMemRead addr len) s =
    .next (if s.link && s.exposed addr len then (readLines addr len).foldl State.hostRead s else s) := rfl

theorem hostMemWrite_eq (s : State) (addr : Nat) (bytes : List Byte) : exec (.hostMemWrite addr bytes) s =
    .next (if s.link && s.exposed addr bytes.length then s.hostWrite addr bytes else s) := rfl

theorem hostCacheRequest_off {s : State} (h : s.link = false ∨ s.stage ≠ 6) (line : Nat) (x : HostReq) :
    exec (.hostCacheRequest line x) s = .next s := by
  show execHostCacheRequest line x s = _
  unfold execHostCacheRequest
  rw [if_pos]
  rcases h with h | h <;> simp [h]

theorem hostCacheRequest_on {s : State} (hlink : s.link = true) (hstage : s.stage = 6) {line : Nat}
    (hd : s.deviceFrame (64 * line) = true) (x : HostReq) : exec (.hostCacheRequest line x) s = match x with
      | .take => .next (if (s.atHome line).hostLines.contains line then s.atHome line
          else { s.atHome line with hostLines := line :: (s.atHome line).hostLines })
      | .update data => if s.hostLines.contains line then
          .next { s.hostWrite (64 * line) (data.take 64) with
            hostLines := line :: (s.hostWrite (64 * line) (data.take 64)).hostLines.filter (· != line) } else .next s
      | .giveUp => .next { s with hostLines := s.hostLines.filter (· != line) } := by
  show execHostCacheRequest line x s = _
  unfold execHostCacheRequest
  rw [if_neg (by simp [hlink, hstage, hd])]
  rfl

/-- Device memory has a home. -/
theorem home_of_device {s : State} {pa : Nat} (h : s.deviceFrame pa = true) : homeOf pa ≠ none := by
  simp only [State.deviceFrame, Bool.and_eq_true, decide_eq_true_eq] at h
  obtain ⟨hok, hne⟩ := h
  unfold State.frameOk at hok
  unfold homeOf
  cases hf : frameOf pa with
  | dram d l i => nofun
  | host => exact absurd hf hne
  | reserved => simp [hf] at hok

theorem host_takes {s : State} (hlink : s.link = true) (hstage : s.stage = 6) {line : Nat}
    (hd : s.deviceFrame (64 * line) = true) :
    ∃ t, exec (.hostCacheRequest line .take) s = .next t ∧ line ∈ t.hostLines ∧ HomesKept s t := by
  refine ⟨_, hostCacheRequest_on hlink hstage hd .take, ?_⟩
  split
  · next h => exact ⟨List.contains_iff_mem.mp h, atHome_homes s line⟩
  · exact ⟨List.mem_cons_self, fun l => (homeView_congr rfl rfl l).trans (atHome_homes s line l)⟩

theorem host_updates {s : State} (hlink : s.link = true) (hstage : s.stage = 6) {line : Nat}
    (hd : s.deviceFrame (64 * line) = true) {data : List Byte} (hmem : line ∈ s.hostLines)
    (hok : ∀ n < 64, s.frameOk (64 * line + n) = true) :
    ∃ t, exec (.hostCacheRequest line (.update data)) s = .next t ∧ line ∈ t.hostLines ∧
      ∀ A, byteNow t A = if A / 64 = line then (data[A % 64]?).getD (byteNow s A) else byteNow s A := by
  have he := hostCacheRequest_on hlink hstage hd (.update data)
  dsimp only at he
  rw [if_pos (List.contains_iff_mem.mpr hmem)] at he
  refine ⟨_, he, List.mem_cons_self, fun A => ?_⟩
  have hlines : HomelessClean s (lineWrites (((data.take 64).zipIdx.map fun b => (64 * line + b.2, b.1)).filter fun x =>
      s.frameOk x.1)) := by
    intro w hw hh
    refine absurd hh ?_
    have hl : w.line = line := by
      obtain ⟨x, hx, hxl⟩ := lines_lineWrites _ hw
      obtain ⟨⟨b, k⟩, hb, rfl⟩ := List.mem_map.mp (List.mem_filter.mp hx).1
      have hk := List.snd_lt_of_mem_zipIdx hb
      have hle : (data.take 64).length ≤ 64 := List.length_take_le 64 data
      rw [hxl]
      dsimp only at hk ⊢
      omega
    rw [hl]
    exact home_of_device hd
  refine (byteNow_hostWrite hlines A).trans ?_
  by_cases hA : A / 64 = line
  · have hAeq : A = 64 * line + A % 64 := by omega
    have hm : A % 64 < 64 := Nat.mod_lt _ (by decide)
    rw [if_pos hA, if_pos ⟨by omega, hAeq ▸ hok _ hm⟩, show A - 64 * line = A % 64 by omega, List.getElem?_take_of_lt hm]
  · rw [if_neg hA]
    split
    · next h =>
      rw [List.getElem?_eq_none]
      · rfl
      · have hle : (data.take 64).length ≤ 64 := List.length_take_le 64 data
        omega
    · rfl

/-- Settles O43: each event is one equation of its own, and what it leaves follows from the laws of the operation it performs. -/
theorem fillEvents : Obligations.FillEvents := by
  intro s
  refine ⟨fun idx f data hfind hf hcoh hpair hsent hcase => ?fill, fun idx f hfind hcase => ?waits,
    fun idx f h hfind hh hr => ⟨homeRead_served hfind hh hr, fun hcov => ?unserved⟩,
    fun unit line => ⟨⟨_, rfl, rfl, fun x => ?l1⟩, ⟨_, rfl, evictSect_rest s unit line, fun l => homeView_evictSect s unit line l,
      evictSect_copies s unit line⟩, homeEviction s unit line⟩, fun hlink addr len hreach => ?read,
    fun hlink hun addr bytes hreach => ?write,
    fun hlink hstage line hd => ⟨host_takes hlink hstage hd, ⟨_, hostCacheRequest_on hlink hstage hd .giveUp, rfl, by simp⟩,
      fun data hmem hok => host_updates hlink hstage hd hmem hok⟩,
    fun addr bytes len => ⟨fun h => ?noRead, fun h => ?noWrite, fun line x h => hostCacheRequest_off h line x⟩⟩
  case fill =>
    rcases hcase with ⟨hh, hcov, rfl⟩ | ⟨k, hh, hne, hx, hr⟩
    · have he := mergingFillArrival_near hfind hsent hh
      rw [if_pos hcov] at he
      exact ⟨_, he, fill_arrives (fill_id hfind) hf hpair (fillStart_near hcoh _) fun _ => rfl⟩
    · obtain ⟨fl, ds, he⟩ := mergingFillArrival_far hfind hsent hh hne hx hr
      refine ⟨_, he, fill_arrives (fill_id hfind) hf hpair (fillStart_far hcoh hh hne ⟨fl, ds, rfl⟩ data) fun h => ?_⟩
      exact absurd (Option.some.inj (hh.symm.trans h)) hne
  case waits =>
    rcases hcase with hsent | ⟨hh, hcov⟩
    · exact mergingFillArrival_unsent hfind hsent
    · cases hsent : f.sent with
      | false => exact mergingFillArrival_unsent hfind hsent
      | true =>
        rw [mergingFillArrival_near hfind hsent hh, if_neg (by simp [hcov])]
  case unserved => rw [homeReadServe_eq hfind hh hr, if_neg (by simp [hcov])]
  case l1 => simp [State.dropL1, imp_iff_not_or]
  case read =>
    have he := hostMemRead_eq s addr len
    rw [hlink, (exposed_iff s addr len).mpr hreach, Bool.and_self, if_pos rfl] at he
    obtain ⟨hk, m, ls, hl, ps, hrest⟩ := hostReads_rest (readLines addr len) s
    refine ⟨_, he, hk, by rw [hrest], fun hroom A hA hlt hd => ?_⟩
    have hlen := length_readLines addr len
    refine (hostReads_room (readLines addr len) s ?_).2 _ (mem_readLines hA hlt) (by rwa [Nat.mul_comm])
    rw [homeCacheLines]
    omega
  case write =>
    have he := hostMemWrite_eq s addr bytes
    rw [hlink, (exposed_iff s addr bytes.length).mpr hreach, Bool.and_self, if_pos rfl] at he
    refine ⟨_, he, fun A => byteNow_hostWrite (fun w _ hh => List.filter_eq_nil_iff.mpr fun x hx => ?_) A⟩
    have hne : x.line ≠ w.line := fun e => hun x hx (e ▸ hh)
    simp [hne]
  case noRead => rw [hostMemRead_eq, if_neg (unreached h)]
  case noWrite => rw [hostMemWrite_eq, if_neg (unreached h)]

end Sys2Proof.Machine
end

section
/-! Atomics at the groomer (R211, R212): what one performed request leaves. -/

namespace Sys2Proof.Machine
open Sys2Proof.Claims

/-! ## A write of a few bytes of one line (R105) -/

theorem runMask_getLsbD {i n j : Nat} (h : j < 64) : (runMask i n).getLsbD j = decide (i ≤ j ∧ j < i + n) := by
  rw [runMask, BitVec.getLsbD_ofNat, Nat.mul_comm, Nat.testBit_two_pow_mul, Nat.testBit_two_pow_sub_one]
  by_cases hi : i ≤ j
  · simp only [h, hi, decide_true, Bool.true_and, true_and]
    exact decide_eq_decide.mpr (by omega)
  · simp [hi]

/-- The bytes that the write of `n` bytes at an address within one line leaves there. -/
theorem lineByte_lineWrite {a n x : Nat} (hfit : a % 64 + n ≤ 64) {A : Nat} (hA : a ≤ A) (hlt : A < a + n) :
    lineByte (lineWrite a n x).data (A % 64) = BitVec.ofNat 8 (x / 256 ^ (A - a)) := by
  have hm : A % 64 = a % 64 + (A - a) := by omega
  have hn : A - a < n := by omega
  refine BitVec.eq_of_getLsbD_eq fun b hb => ?_
  rw [getLsbD_lineByte, BitVec.getLsbD_ofNat, show (256 : Nat) = 2 ^ 8 from rfl, ← Nat.pow_mul, Nat.testBit_div_two_pow]
  show (_ && (BitVec.ofNat 512 (x % 2 ^ (8 * n) * 2 ^ (8 * (a % 64)))).getLsbD _) = _
  rw [BitVec.getLsbD_ofNat, Nat.mul_comm (x % _), Nat.testBit_two_pow_mul, Nat.testBit_mod_two_pow, hm]
  simp only [hb, decide_true, Bool.true_and, show 8 * (a % 64 + (A - a)) + b < 512 by omega,
    show 8 * (a % 64 + (A - a)) + b ≥ 8 * (a % 64) by omega, show 8 * (a % 64 + (A - a)) + b - 8 * (a % 64) < 8 * n by omega]
  congr 1
  omega

/-- A line with the write merged, byte by byte. -/
theorem lineByte_merge_lineWrite {a n x : Nat} (hfit : a % 64 + n ≤ 64) (A : Nat) (old : Line) :
    (if A / 64 = a / 64 then lineByte (mergeLine (lineWrite a n x).mask old (lineWrite a n x).data) (A % 64)
      else lineByte old (A % 64)) = (storedAt n [(a, x)] A).getD (lineByte old (A % 64)) := by
  have hlt : A % 64 < 64 := Nat.mod_lt _ (by decide)
  have hin : (A / 64 = a / 64 ∧ a % 64 ≤ A % 64 ∧ A % 64 < a % 64 + n) ↔ a ≤ A ∧ A < a + n := by omega
  show _ = (if a ≤ A ∧ A < a + n then some _ else none).getD _
  by_cases hl : A / 64 = a / 64
  · rw [if_pos hl, lineByte_mergeLine _ _ _ hlt, show (lineWrite a n x).mask = runMask (a % 64) n from rfl, runMask_getLsbD hlt]
    by_cases hc : a ≤ A ∧ A < a + n
    · rw [if_pos hc, if_pos (decide_eq_true (hin.mpr hc).2), lineByte_lineWrite hfit hc.1 hc.2]
      rfl
    · rw [if_neg hc, if_neg (by simpa only [decide_eq_true_eq] using fun e => hc (hin.mp ⟨hl, e⟩))]
      rfl
  · rw [if_neg hl, if_neg fun e => hl (hin.mpr e).1]
    rfl

/-- A write performed at a home is a store of its bytes. -/
theorem byteNow_homeWrite {s : State} {a n x : Nat} (hfit : a % 64 + n ≤ 64) (A : Nat) :
    byteNow (s.homeWrite (lineWrite a n x)) A = (storedAt n [(a, x)] A).getD (byteNow s A) := by
  rw [byteNow, byteNow, ← lineByte_merge_lineWrite hfit A, homeView_homeWrite, show (lineWrite a n x).line = a / 64 from rfl]
  by_cases h : A / 64 = a / 64
  · rw [if_pos h, if_pos h, h]
  · rw [if_neg h, if_neg h]

theorem byteNow_congr {s t : State} (h : HomesKept s t) (A : Nat) : byteNow t A = byteNow s A := by rw [byteNow, h, byteNow]

/-! ## The old values (R210, R212) -/

theorem length_atomTurns (f : Nat → AtomPart → Nat × Flags) : ∀ (ps : List AtomPart) (o : Nat), (atomTurns f o ps).1.length = ps.length
  | [], _ => rfl
  | p :: ps, o => congrArg Nat.succ (length_atomTurns f ps (f o p).1)

theorem length_atomSums (f : FpFmt) (o : Nat) : ∀ (ps : List AtomPart) (p : Option Nat), (atomSums f o p ps).1.length = ps.length
  | [], none => rfl
  | [], some _ => rfl
  | x :: xs, none => congrArg Nat.succ (length_atomSums f o xs (some x.d.toNat))
  | x :: xs, some p => congrArg Nat.succ (length_atomSums f o xs (some (atomAdd f p x.d.toNat).bits))

/-- Each participant has an old value. -/
theorem length_atomRun (op : AtomOp) (ty : AtomTy) (o : Nat) (ps : List AtomPart) : (atomRun op ty o ps).1.length = ps.length := by
  unfold atomRun
  cases ty with
  | b32 | b64 => exact length_atomTurns _ ps o
  | f32 | f64 =>
    dsimp only
    split
    · exact length_atomSums _ o ps none
    · exact length_atomTurns _ ps o

/-- One participant's old value returned. -/
def State.atomAnswer (wave : Nat) (ty : AtomTy) (s : State) (x : AtomPart × Nat) : State :=
  match x.1.pid with
  | some id => s.resolve wave id ((List.range ty.regCount).map fun j => BitVec.ofNat 32 (x.2 / 2 ^ (32 * j))) 0 none
  | none => s

theorem atomReturn_eq (s : State) (wave : Nat) (ty : AtomTy) (ps : List AtomPart) (olds : List Nat) :
    s.atomReturn wave ty ps olds = (ps.zip olds).foldl (State.atomAnswer wave ty) s := rfl

theorem atomAnswer_rest (wave : Nat) (ty : AtomTy) (s : State) (x : AtomPart × Nat) :
    ∃ ws, s.atomAnswer wave ty x = { s with waves := ws } := by
  unfold State.atomAnswer
  cases x.1.pid with
  | none => exact ⟨_, rfl⟩
  | some id => exact ⟨_, resolve_rest s wave id _ 0 none⟩

theorem atomAnswers_rest (wave : Nat) (ty : AtomTy) : ∀ (xs : List (AtomPart × Nat)) (s : State),
    ∃ ws, xs.foldl (State.atomAnswer wave ty) s = { s with waves := ws }
  | [], _ => ⟨_, rfl⟩
  | x :: xs, s => by
    obtain ⟨ws, h⟩ := atomAnswer_rest wave ty s x
    obtain ⟨ws', h'⟩ := atomAnswers_rest wave ty xs (s.atomAnswer wave ty x)
    exact ⟨ws', by rw [List.foldl_cons, h', h]⟩

theorem holds_atomAnswer_ne {wave gang : Nat} {ty : AtomTy} {s : State} {x : AtomPart × Nat} {q : Pending} (hne : x.1.pid ≠ some q.id)
    (h : s.Holds wave gang q) : (s.atomAnswer wave ty x).Holds wave gang q := by
  unfold State.atomAnswer
  cases hp : x.1.pid with
  | none => exact h
  | some id => exact h.resolve_ne (.inr fun e => hne (hp.trans (congrArg some e))) _ _ _

theorem holds_atomAnswers_ne {wave gang : Nat} {ty : AtomTy} {q : Pending} : ∀ {xs : List (AtomPart × Nat)} {s : State},
    (∀ x ∈ xs, x.1.pid ≠ some q.id) → s.Holds wave gang q → (xs.foldl (State.atomAnswer wave ty) s).Holds wave gang q
  | [], _, _, h => h
  | x :: xs, _, hne, h => holds_atomAnswers_ne (xs := xs) (fun y hy => hne y (List.mem_cons_of_mem _ hy))
      (holds_atomAnswer_ne (hne x List.mem_cons_self) h)

/-- Each participant that awaits its old value has it, where no two await one result. -/
theorem holds_atomAnswers {wave gang : Nat} {ty : AtomTy} {q : Pending} {xs : List (AtomPart × Nat)} {s : State}
    (hpair : xs.Pairwise fun x y => x.1.pid ≠ y.1.pid ∨ x.1.pid = none) {x : AtomPart × Nat} (hx : x ∈ xs) (hp : x.1.pid = some q.id)
    (h : s.Holds wave gang q) : (xs.foldl (State.atomAnswer wave ty) s).Holds wave gang { q with
      opened := false, vals := (List.range ty.regCount).map fun j => BitVec.ofNat 32 (x.2 / 2 ^ (32 * j)) } := by
  induction xs generalizing s with
  | nil => cases hx
  | cons y ys ih =>
    obtain ⟨hy, hpair⟩ := List.pairwise_cons.mp hpair
    rw [List.foldl_cons]
    rcases List.mem_cons.mp hx with rfl | hmem
    · refine holds_atomAnswers_ne (xs := ys) (fun z hz => ?_) ?_
      · rcases hy z hz with h1 | h1
        · exact fun e => h1 (hp.trans e.symm)
        · rw [hp] at h1; cases h1
      · rw [State.atomAnswer, hp, ← answer_plain]
        exact h.resolve_same _ 0 none
    · refine ih hpair hmem (holds_atomAnswer_ne (fun e => ?_) h)
      rcases hy x hmem with h1 | h1
      · exact h1 (e.trans hp.symm)
      · rw [e] at h1; cases h1

end Sys2Proof.Machine
end

section
/-! The groomer (R211): a request performed, and when. -/

namespace Sys2Proof.Machine
open Sys2Proof.Claims

theorem noteSeal_rest (s : State) (launch : Nat) (lw : LineWrite) : ∃ x, s.noteSeal launch lw = { s with seals := x } := by
  unfold State.noteSeal
  split <;> exact ⟨_, rfl⟩

theorem raiseFlags_gang (s : State) (gid : Nat) (f : BitVec 7) {g : Gang} (h : s.gang? gid = some g) :
    ∃ g', (s.raiseFlags gid f).gang? gid = some g' ∧ g'.flags = g.flags ||| f := by
  unfold State.raiseFlags
  split
  · next h0 => exact ⟨g, h, by rw [beq_iff_eq.mp h0]; simp⟩
  · exact ⟨_, by rw [gang?_modGang (f := fun g => { g with flags := g.flags ||| f }) fun _ => rfl, h, Option.map_some, if_pos rfl], rfl⟩

theorem raiseFlags_rest (s : State) (gid : Nat) (f : BitVec 7) : ∃ gs, s.raiseFlags gid f = { s with gangs := gs } := by
  unfold State.raiseFlags
  split <;> exact ⟨_, rfl⟩

/-- The request's write performed at its home, and the request gone from the groomer. -/
def State.atomWritten (s : State) (r : AtomReq) (v : Nat) : State :=
  let s := if homeOf r.addr == some r.src then s else s.endRemote r.src (r.addr / 64)
  let s := s.homeWrite (lineWrite r.addr r.ty.bytes v)
  let s := s.noteSeal (((s.gang? r.gang).map (·.launch)).getD 0) (lineWrite r.addr r.ty.bytes v)
  let s := { s with groom := s.groom.filter fun x => x.id != r.id }
  match homeOf r.addr with
  | some h => if h != r.src && (r.acq.isSome || r.parts.any (·.pid.isSome)) then s.mergeReply r.src (s.die h).app else s
  | none => s

theorem atomPerform_eq (s : State) (r : AtomReq) :
    let run := atomRun r.op r.ty (lineNat (s.homeView (r.addr / 64)) (r.addr % 64) r.ty.bytes) r.parts
    let u := ((s.atomWritten r run.2.1).atomReturn r.wave r.ty r.parts run.1).raiseFlags r.gang run.2.2
    s.atomPerform r = (r.acq.map (u.acquire r.core)).getD u := by
  unfold State.atomPerform State.atomWritten
  dsimp only
  cases r.acq <;> rfl

/-- What the write leaves besides its bytes. -/
theorem atomWritten_frame (s : State) (r : AtomReq) (v : Nat) :
    HomesKept (s.homeWrite (lineWrite r.addr r.ty.bytes v)) (s.atomWritten r v) ∧ RungAll s.waves (s.atomWritten r v).waves ∧
      (s.atomWritten r v).gangs = s.gangs ∧ (s.atomWritten r v).groom = s.groom.filter fun x => x.id != r.id := by
  unfold State.atomWritten
  dsimp only
  obtain ⟨u, hu⟩ : ∃ u, u = if homeOf r.addr == some r.src then s else s.endRemote r.src (r.addr / 64) := ⟨_, rfl⟩
  rw [← hu]
  have hhome : HomesKept s u := fun l => by
    rw [hu]
    split
    · rfl
    · exact homeView_endRemote s _ _ l
  have hrest : u.waves = s.waves ∧ u.gangs = s.gangs ∧ u.groom = s.groom := by rw [hu]; split <;> exact ⟨rfl, rfl, rfl⟩
  obtain ⟨m, ls, hs, hl, ps, ws, hr, hw⟩ := homeWrite_rung u (lineWrite r.addr r.ty.bytes v)
  have hserved : HomesKept (s.homeWrite (lineWrite r.addr r.ty.bytes v)) (u.homeWrite (lineWrite r.addr r.ty.bytes v)) := fun l => by
    rw [homeView_homeWrite, homeView_homeWrite, hhome, hhome]
  obtain ⟨x, hx⟩ := noteSeal_rest (u.homeWrite (lineWrite r.addr r.ty.bytes v))
    ((((u.homeWrite (lineWrite r.addr r.ty.bytes v)).gang? r.gang).map (·.launch)).getD 0) (lineWrite r.addr r.ty.bytes v)
  obtain ⟨h1, h2, h3⟩ := hrest
  rw [hx]
  have hgs : (u.homeWrite (lineWrite r.addr r.ty.bytes v)).gangs = s.gangs := by rw [hw]; exact h2
  have hgr : (u.homeWrite (lineWrite r.addr r.ty.bytes v)).groom = s.groom := by rw [hw]; exact h3
  have hwv : RungAll s.waves (u.homeWrite (lineWrite r.addr r.ty.bytes v)).waves := by rw [hw]; exact h1 ▸ hr
  generalize u.homeWrite (lineWrite r.addr r.ty.bytes v) = t at hserved hgs hgr hwv
  have hbase : let t' : State := { t with seals := x, groom := t.groom.filter fun x => x.id != r.id }
      HomesKept (s.homeWrite (lineWrite r.addr r.ty.bytes v)) t' ∧ RungAll s.waves t'.waves ∧ t'.gangs = s.gangs ∧
        t'.groom = s.groom.filter fun x => x.id != r.id :=
    ⟨fun l => (homeView_congr rfl rfl l).trans (hserved l), hwv, hgs, by rw [hgr]⟩
  split
  · split
    · exact ⟨fun l => (homeView_congr rfl rfl l).trans (hserved l), hwv, hgs, by rw [← hgr]; rfl⟩
    · exact hbase
  · exact hbase

/-- A request performed: its bytes, its flags and its old values. -/
theorem atomPerform_done {s : State} {r : AtomReq} (hal : r.addr % r.ty.bytes = 0)
    (hpair : r.parts.Pairwise fun x y => x.pid ≠ y.pid ∨ x.pid = none) : AtomDone s (s.atomPerform r) r := by
  have hfit : r.addr % 64 + r.ty.bytes ≤ 64 := by
    cases hty : r.ty <;> simp only [hty, AtomTy.bytes] at hal ⊢ <;> omega
  rw [atomPerform_eq]
  dsimp only [AtomDone]
  generalize hrun : atomRun r.op r.ty (lineNat (s.homeView (r.addr / 64)) (r.addr % 64) r.ty.bytes) r.parts = run
  have hlen : run.1.length = r.parts.length := by rw [← hrun, length_atomRun]
  obtain ⟨hserved, hrung, hgangs, hgroom⟩ := atomWritten_frame s r run.2.1
  obtain ⟨ws, hret⟩ := atomAnswers_rest r.wave r.ty (r.parts.zip run.1) (s.atomWritten r run.2.1)
  obtain ⟨gs, hraise⟩ := raiseFlags_rest ((s.atomWritten r run.2.1).atomReturn r.wave r.ty r.parts run.1) r.gang run.2.2
  have hflags : ∀ g, s.gang? r.gang = some g → ∃ g',
      (((s.atomWritten r run.2.1).atomReturn r.wave r.ty r.parts run.1).raiseFlags r.gang run.2.2).gang? r.gang = some g' ∧
        g'.flags = g.flags ||| run.2.2 := fun g hg => raiseFlags_gang _ _ _ (by
    rw [atomReturn_eq, hret, State.gang?, hgangs]
    exact hg)
  have hanswers : ∀ (gang j : Nat) (p : AtomPart) (id : Nat) (q : Pending), r.parts[j]? = some p → p.pid = some id → q.id = id →
      s.Holds r.wave gang q → ((s.atomWritten r run.2.1).atomReturn r.wave r.ty r.parts run.1).Holds r.wave gang { q with
        opened := false, vals := (List.range r.ty.regCount).map fun k => BitVec.ofNat 32 (run.1.getD j 0 / 2 ^ (32 * k)) } := by
    intro gang j p id q hp hpid hq h
    obtain ⟨hj, -⟩ := List.getElem?_eq_some_iff.mp hp
    have hx : (p, run.1.getD j 0) ∈ r.parts.zip run.1 := by
      refine List.mem_of_getElem? (i := j) ?_
      rw [List.getElem?_zip_eq_some]
      exact ⟨hp, by rw [List.getD_eq_getElem?_getD, List.getElem?_eq_getElem (hlen ▸ hj)]; rfl⟩
    rw [atomReturn_eq]
    refine holds_atomAnswers ?_ hx (by rw [hpid, hq]) (h.rung hrung)
    have hmap : (r.parts.zip run.1).map Prod.fst = r.parts := List.map_fst_zip (by omega)
    rw [← hmap, List.pairwise_map] at hpair
    exact hpair
  generalize hu : ((s.atomWritten r run.2.1).atomReturn r.wave r.ty r.parts run.1).raiseFlags r.gang run.2.2 = u at hflags hraise
  have hur : u = { s.atomWritten r run.2.1 with waves := ws, gangs := gs } := by rw [hraise, atomReturn_eq, hret]
  obtain ⟨l1, ls, fs, hacq⟩ := acq_rest u r.core r.acq
  have hkept : HomesKept u ((r.acq.map (u.acquire r.core)).getD u) := fun l => by
    cases r.acq with
    | none => rfl
    | some p => exact homeView_acquire u r.core p l
  refine ⟨fun A => ?_, fun x => ?_, fun g hg => ?_, fun j p id q hp hpid hq => answered_of_holds fun w hw hmem => ?_⟩
  · rw [byteNow_congr hkept, byteNow_congr (s := s.homeWrite (lineWrite r.addr r.ty.bytes run.2.1)), byteNow_homeWrite hfit]
    intro l
    rw [hur]
    exact (homeView_congr rfl rfl l).trans (hserved l)
  · rw [hacq, hur]
    show x ∈ (s.atomWritten r run.2.1).groom ↔ _
    rw [hgroom]
    simp
  · rw [hacq]
    exact hflags g hg
  · refine (hanswers w.gang j p id q hp hpid hq ⟨w, hw, rfl, hmem⟩).congr ?_
    rw [hacq, hraise]

theorem groomFirst_iff (s : State) (r : AtomReq) : s.groomFirst r = true ↔
    ∀ x ∈ s.groom.takeWhile (fun x => x.id != r.id), x.addr / 64 ≠ r.addr / 64 ∨ homeOf x.addr ≠ some x.src := by
  simp [State.groomFirst, List.all_eq_true]

theorem groomerAtomic_eq {s : State} {idx : Nat} {r : AtomReq} (h : s.groom.find? (fun x => x.id == idx) = some r)
    (hh : homeOf r.addr = some r.src) : exec (.groomerAtomic idx) s =
      .next (if s.groomFirst r && s.readable r.src r.src then s.atomPerform r else s) := by
  show execGroomerAtomic idx s = _
  unfold execGroomerAtomic
  simp only [h, hh, beq_self_eq_true, Bool.true_and]

end Sys2Proof.Machine
end

section
/-! Lines read at once (R108, R175, R201): `LineRead` says what a read of a line, at its home or in the core, may change. -/

namespace Sys2Proof.Machine
open Sys2Proof.Claims

/-- A line has been read: copies, fills and what the dies have seen may differ, and nothing that a home serves. -/
structure LineRead (s t : State) : Prop where
  rest  : t = { s with mem := t.mem, sect := t.sect, l1 := t.l1, homeLines := t.homeLines, fills := t.fills, dies := t.dies
                       picks := t.picks }
  homes : HomesKept s t
  pub   : ∀ d, (t.die d).pub = (s.die d).pub

theorem LineRead.refl (s : State) : LineRead s s := ⟨rfl, fun _ => rfl, fun _ => rfl⟩

theorem LineRead.trans {s t u : State} (h : LineRead s t) (h' : LineRead t u) : LineRead s u :=
  ⟨by rw [h'.rest, h.rest], fun l => (h'.homes l).trans (h.homes l), fun d => (h'.pub d).trans (h.pub d)⟩

theorem pub_modDie (s : State) (d : Nat) {f : Die → Die} (hid : ∀ x, (f x).id = x.id) (hpub : ∀ x, (f x).pub = x.pub) (k : Nat) :
    ((s.modDie d f).die k).pub = (s.die k).pub := by
  by_cases h : k = d
  · subst h
    rcases die_modDie_same (s := s) (d := k) hid with ⟨he, -⟩ | ⟨he, -⟩
    · rw [he]
    · rw [he, hpub]
  · rw [die_modDie_ne hid h]

/-- A reply from a home merged (R201). -/
theorem lineRead_mergeReply (s : State) (d : Nat) (app : List Word) : LineRead s (s.mergeReply d app) :=
  ⟨rfl, fun l => homeView_congr rfl rfl l, fun k => pub_modDie s d
    (f := fun x => { x with dep := vecSet (vecMerge x.dep app) d x.pub }) (fun _ => rfl) (fun _ => rfl) k⟩

theorem lineRead_atHome (s : State) (line : Nat) : LineRead s (s.atHome line) := by
  obtain ⟨hl, ps, h⟩ := atHome_rest s line
  refine ⟨?_, atHome_homes s line, fun d => ?_⟩
  · rw [h]
  · rw [h]
    rfl

theorem lineRead_dropRemote (s : State) (d line n : Nat) : LineRead s ((s.dropRemote d line).spoilServed d line n) :=
  ⟨rfl, fun l => (homeView_congr rfl rfl l).trans (homeView_dropRemote s d line l), fun _ => rfl⟩

theorem lineRead_fillNow {s : State} {core line : Nat} (fillSect fillL1 last : Bool) (data : Line)
    (h : ∀ x ∈ s.sect, x.line = line → x.sector = coreSector core → x.remote = true ∨ x.dirty = 0) :
    LineRead s (s.fillNow core line fillSect fillL1 last data) := by
  obtain ⟨m, ls, l1, ps, he⟩ := fillNow_rest s core line fillSect fillL1 last data
  refine ⟨?_, homeView_fillNow fillSect fillL1 last data h, fun d => ?_⟩
  · rw [he]
  · rw [he]
    rfl

theorem lineRead_fillL1 (s : State) (gang core : Nat) (pol : CachePol) (line : Nat) (x : Line) :
    LineRead s (s.fillL1 gang core pol line x) := by
  obtain ⟨ls, ps, he⟩ := fillL1_rest s gang core pol line x
  refine ⟨?_, fun l => ?_, fun d => ?_⟩
  · rw [he]
  · rw [he]
    exact homeView_congr rfl rfl l
  · rw [he]
    rfl

/-- The state after a read at the line's home `h`. -/
def State.homeTaken (s : State) (d line h : Nat) : State :=
  let s := ((s.atHome line).dropRemote d line).spoilServed d line (s.atHome line).nextId
  if h == d then s else s.mergeReply d (s.die h).app

theorem homeTaken_spec (s : State) (d line h : Nat) :
    LineRead s (s.homeTaken d line h) ∧ ∀ x ∈ (s.homeTaken d line h).sect, x ∈ (s.homeSync line).sect := by
  have hread := (lineRead_atHome s line).trans (lineRead_dropRemote (s.atHome line) d line (s.atHome line).nextId)
  have hsect : ∀ x ∈ ((s.atHome line).dropRemote d line).sect, x ∈ (s.homeSync line).sect := fun x hx =>
    atHome_sect s line ▸ (List.mem_filter.mp hx).1
  unfold State.homeTaken
  dsimp only
  split
  · exact ⟨hread, hsect⟩
  · exact ⟨hread.trans (lineRead_mergeReply _ d _), hsect⟩

/-- A read at a home that may serve it gives the freshest words of the line. -/
theorem homeRead_some {s : State} {d line h : Nat} (hh : homeOfLine line = some h) (hr : s.readable d h = true) :
    s.homeRead d line = some (s.homeView line, s.homeTaken d line h) := by
  rw [← memLine_atHome]
  unfold State.homeRead
  simp only [hh, hr, if_true]
  rfl

theorem homeRead_none {s : State} {d line h : Nat} (hh : homeOfLine line = some h) (hr : s.readable d h = false) :
    s.homeRead d line = none := by
  unfold State.homeRead
  simp [hh, hr]

/-- A line that a core reads at once. -/
theorem coreLine_read {s t : State} {gang core line : Nat} {m : BitVec 64} {y : Line}
    (h : s.coreLine gang core line m = some (y, t)) : LineRead s t := by
  unfold State.coreLine at h
  split at h
  · obtain ⟨-, rfl⟩ := Prod.mk.inj (Option.some.inj h)
    exact .refl s
  · obtain ⟨-, rfl⟩ := Prod.mk.inj (Option.some.inj h)
    exact lineRead_fillL1 s gang core .dflt line _
  · next hmiss =>
    split at h
    · cases h
    · obtain ⟨⟨x, u⟩, hu, he⟩ := Option.map_eq_some_iff.mp h
      obtain ⟨-, rfl⟩ := Prod.mk.inj he
      cases hh : homeOfLine line with
      | none =>
        unfold State.lookupFor State.lookup at hmiss
        rw [if_pos hh] at hmiss
        cases hmiss
      | some k =>
        cases hr : s.readable (coreDie core) k with
        | false =>
          rw [homeRead_none hh hr] at hu
          cases hu
        | true =>
          obtain ⟨-, rfl⟩ := Prod.mk.inj (Option.some.inj (hu.symm.trans (homeRead_some hh hr)))
          obtain ⟨hread, hsect⟩ := homeTaken_spec s (coreDie core) line k
          exact hread.trans (lineRead_fillNow _ _ _ _ fun z hz hl _ => clean_homeSync (hsect z hz) hl)

end Sys2Proof.Machine
end

section
/-! Where a group that left its core runs (R117, R118), and the line it runs on. -/

namespace Sys2Proof.Machine
open Sys2Proof.Claims

/-! ## The level -/

/-- The gang is not versioned, and holds no version of the group's line. -/
structure PlainGroup (s : State) (g : Sunk) : Prop where
  gang : ∀ y, s.gang? g.gang = some y → s.versioned y = false
  line : s.vline? g.gang g.line = none

theorem PlainGroup.steered {s : State} {g : Sunk} (h : PlainGroup s g) : s.steered g.gang g.core g.line = false := by
  unfold State.steered
  rw [h.line]
  rfl

theorem PlainGroup.written {s : State} {g : Sunk} (h : PlainGroup s g) : s.written g.gang g.line = false := by
  unfold State.written
  rw [h.line]
  rfl

theorem PlainGroup.overlay {s t : State} {g : Sunk} (h : PlainGroup s g) (hv : t.versions = s.versions) (x : Line) :
    t.overlay g.gang g.line x = x := by
  rw [overlay_congr hv]
  unfold State.overlay
  rw [h.line]

/-- The level of a group of a plain gang, where no peer is probed and no level is busy. -/
theorem groupLevel_plain {s : State} {g : Sunk} {h : Nat} (hp : PlainGroup s g) (hh : homeOfLine g.line = some h) (need : BitVec 16) :
    s.groupLevel g need none none =
      if (s.l1Line? g.core g.line).isSome then .l1 1
      else if g.floor < 2 then .l1 9
      else if s.sectorHolds (coreSector g.core) g.line (hasStore g.words) need then .sector
      else if g.floor < (if h = coreDie g.core then 3 else 4) then .l1 9
      else if s.homeLines.contains g.line || decide (g.floor < 5) || !((s.die h).feat.getLsbD 5) then
        .home h (if h = coreDie g.core then 4 else 5)
      else .ctrl h (if lineLpddr g.line then 7 else 6) := by
  unfold State.groupLevel
  extract_lets stores d ver own sec stop
  have hver : ver = false := by
    show (match s.gang? g.gang with | some x => _ | none => _) = _
    split
    · next y hy => exact hp.gang y hy
    · rfl
  have hown : own = false := hp.written
  clear_value ver own
  simp only [hver, hown, hp.steered, hh, Bool.not_false, Bool.and_true, Bool.false_and, Bool.and_false, Bool.or_false,
    Bool.false_eq_true, if_false, beq_iff_eq, State.peerHolds, Option.none_beq_some, decide_eq_true_eq, Bool.and_eq_true, stop, d]
  by_cases h2 : g.floor < 2
  · by_cases h1 : g.floor < 1 <;> simp [h1, h2]
  · have h1 : ¬ g.floor < 1 := by omega
    simp only [h1, h2, if_false, and_false]
    rfl

/-- The levels of the record codes (R117). -/
inductive LevelOf (h : Nat) : Nat → Level → Prop
  | l1 (c : Nat) : c = 1 ∨ c = 9 → LevelOf h c (.l1 c)
  | sector : LevelOf h 3 .sector
  | home (c : Nat) : c = 4 ∨ c = 5 → LevelOf h c (.home h c)
  | ctrl (c : Nat) : c = 6 ∨ c = 7 → LevelOf h c (.ctrl h c)

/-- The line as the level serves it. -/
theorem groupLine_home {s : State} {g : Sunk} {h : Nat} (hp : PlainGroup s g) (hh : homeOfLine g.line = some h)
    (hr : s.readable (coreDie g.core) h = true) {lv : Level} (hlv : (∃ k, lv = .home h k) ∨ ∃ k, lv = .ctrl h k) :
    ∃ t, s.groupLine g lv = some (s.homeView g.line, t) ∧ LineRead s t := by
  obtain ⟨hread, -⟩ := homeTaken_spec s (coreDie g.core) g.line h
  refine ⟨s.homeTaken (coreDie g.core) g.line h, ?_, hread⟩
  have hv : (s.homeTaken (coreDie g.core) g.line h).versions = s.versions := by rw [hread.rest]
  have he : s.groupLine g lv = (s.homeRead (coreDie g.core) g.line).map fun r => (s.overlay g.gang g.line r.1, r.2) := by
    rcases hlv with ⟨k, rfl⟩ | ⟨k, rfl⟩ <;> rfl
  rw [he, homeRead_some hh hr, Option.map_some, hp.overlay rfl]

theorem groupLine_l1 {s : State} {g : Sunk} {h : Nat} (hp : PlainGroup s g) (hh : homeOfLine g.line = some h) {y : L1Line}
    (hy : s.l1Line? g.core g.line = some y) (c : Nat) : s.groupLine g (.l1 c) = some (y.data, s) := by
  unfold State.groupLine State.coreLine State.lookupFor
  rw [hp.steered]
  have hl : s.lookup g.core .dflt g.line (BitVec.allOnes 64) = .l1 y.data := by
    unfold State.lookup
    rw [if_neg (by rw [hh]; nofun)]
    simp [hy]
  simp only [Bool.false_eq_true, if_false, hl]

theorem groupLine_sector {s : State} {g : Sunk} (hp : PlainGroup s g) {y : SectLine}
    (hy : s.sectLine? (coreSector g.core) g.line = some y) : s.groupLine g .sector = some (y.data, s) := by
  unfold State.groupLine
  rw [hy, Option.map_some, hp.overlay rfl]

/-- A group that returns to its core finds no copy, and reads the line from its home. -/
theorem groupLine_core {s : State} {g : Sunk} {h : Nat} (hp : PlainGroup s g) (hh : homeOfLine g.line = some h)
    (hl1 : s.l1Line? g.core g.line = none) (hsect : s.sectLine? (coreSector g.core) g.line = none)
    (hroom : s.coreRoom g.core g.line = true) (hr : s.readable (coreDie g.core) h = true) (c : Nat) :
    ∃ t, s.groupLine g (.l1 c) = some (s.homeView g.line, t) ∧ LineRead s t := by
  have hl : s.lookup g.core .dflt g.line (BitVec.allOnes 64) = .miss := by
    unfold State.lookup
    rw [if_neg (by rw [hh]; nofun)]
    simp [hl1, hsect]
  obtain ⟨hread, hcopies⟩ := homeTaken_spec s (coreDie g.core) g.line h
  obtain ⟨t, ht⟩ : ∃ t, t = (s.homeTaken (coreDie g.core) g.line h).fillNow g.core g.line true (!(s.written g.gang g.line)) false
      (s.homeView g.line) := ⟨_, rfl⟩
  have hnone : (s.homeTaken (coreDie g.core) g.line h).sectLine? (coreSector g.core) g.line = none := by
    refine List.find?_eq_none.mpr fun x hx => ?_
    have hsync : (s.homeSync g.line).sectLine? (coreSector g.core) g.line = none := by rw [sectLine?_homeSync, hsect]; rfl
    exact List.find?_eq_none.mp hsync x (hcopies x hx)
  have hfilled : t.sectLine? (coreSector g.core) g.line =
      some ((s.homeTaken (coreDie g.core) g.line h).filled g.core g.line false (s.homeView g.line)) := by
    rw [ht]
    exact sectLine?_fillNow _ _ _ _ _ _
  have hdata : ((s.homeTaken (coreDie g.core) g.line h).filled g.core g.line false (s.homeView g.line)).data = s.homeView g.line := by
    unfold State.filled
    rw [hnone]
    show mergeLine (wordBytes (~~~(0 : BitVec 16))) 0 (s.homeView g.line) = _
    rw [show wordBytes (~~~(0 : BitVec 16)) = BitVec.allOnes 64 by decide, mergeLine_allOnes]
  have hfull : LineRead s t := hread.trans (ht ▸
    lineRead_fillNow _ _ _ _ fun z hz hl _ => clean_homeSync (hcopies z hz) hl)
  refine ⟨t, ?_, hfull⟩
  unfold State.groupLine State.coreLine State.lookupFor
  rw [hp.steered]
  simp only [Bool.false_eq_true, if_false, hl, hroom, Bool.not_true, homeRead_some hh hr, Option.map_some, ← ht, hfilled,
    Option.getD_some, hdata]
  rw [hp.overlay (by rw [hfull.rest])]

/-- Where a group runs its level is the one of the code, and serves the line. -/
theorem runsAt_level {s : State} {g : Sunk} {h code : Nat} {x : Line} (hp : PlainGroup s g) (hh : homeOfLine g.line = some h)
    (hr : RunsAt s g h code x) : ∃ lv t, s.groupLevel g g.needs none none = lv ∧ LevelOf h code lv ∧
      s.groupLine g lv = some (x, t) ∧ LineRead s t := by
  rw [groupLevel_plain hp hh]
  rcases hr with ⟨rfl, y, hy, rfl⟩ | ⟨rfl, hl1, hfloor, hholds, y, hy, rfl⟩ |
      ⟨rfl, ⟨hl1, hholds, hfloor, hread, rfl⟩, hlast⟩ | ⟨rfl, ⟨hl1, hholds, hfloor, hread, rfl⟩, hlast⟩ |
      ⟨rfl, hl1, hfloor, hsect, hroom, hread, rfl⟩
  · exact ⟨.l1 1, s, by simp [hy], .l1 1 (.inl rfl), groupLine_l1 hp hh hy 1, .refl s⟩
  · exact ⟨.sector, s, by simp [hl1, hholds, Nat.not_lt.mpr hfloor], .sector, groupLine_sector hp hy, .refl s⟩
  · obtain ⟨t, ht, hrd⟩ := groupLine_home hp hh hread (lv := .home h (if h = coreDie g.core then 4 else 5)) (.inl ⟨_, rfl⟩)
    refine ⟨_, t, ?_, .home _ (by split <;> simp), ht, hrd⟩
    have h2 : ¬ g.floor < 2 := by split at hfloor <;> omega
    rw [if_neg (by simp [hl1]), if_neg h2, if_neg (by simp [hholds]), if_neg (Nat.not_lt.mpr hfloor), if_pos]
    simpa [or_assoc] using hlast
  · obtain ⟨t, ht, hrd⟩ := groupLine_home hp hh hread (lv := .ctrl h (if lineLpddr g.line then 7 else 6)) (.inr ⟨_, rfl⟩)
    refine ⟨_, t, ?_, .ctrl _ (by split <;> simp), ht, hrd⟩
    have h2 : ¬ g.floor < 2 := by split at hfloor <;> omega
    rw [if_neg (by simp [hl1]), if_neg h2, if_neg (by simp [hholds]), if_neg (Nat.not_lt.mpr hfloor), if_neg]
    simpa [or_assoc] using hlast
  · obtain ⟨t, ht, hrd⟩ := groupLine_core hp hh hl1 hsect hroom hread 9
    refine ⟨.l1 9, t, ?_, .l1 9 (.inr rfl), ht, hrd⟩
    have hholds : s.sectorHolds (coreSector g.core) g.line (hasStore g.words) g.needs = false := by
      unfold State.sectorHolds
      rw [hsect]
    rw [if_neg (by simp [hl1])]
    by_cases h2 : g.floor < 2
    · rw [if_pos h2]
    · rw [if_neg h2, if_neg (by simp [hholds]), if_pos hfloor]

end Sys2Proof.Machine
end

section
/-! Stores below the core (R119, R175, R200): `StoreFrame` says what every store leaves alone. -/

namespace Sys2Proof.Machine
open Sys2Proof.Claims

/-- What a store that enters no version leaves: waves but for what their monitors record, groups, versions, launches, and of every
gang its launch. -/
structure StoreFrame (s t : State) : Prop where
  waves    : RungAll s.waves t.waves
  sunk     : t.sunk = s.sunk
  versions : t.versions = s.versions
  launches : t.launches = s.launches
  gangs    : ∀ id, (t.gang? id).map (·.launch) = (s.gang? id).map (·.launch)

theorem StoreFrame.refl (s : State) : StoreFrame s s := ⟨.refl _, rfl, rfl, rfl, fun _ => rfl⟩

theorem StoreFrame.trans {s t u : State} (h : StoreFrame s t) (h' : StoreFrame t u) : StoreFrame s u :=
  ⟨h.waves.trans h'.waves, h'.sunk.trans h.sunk, h'.versions.trans h.versions, h'.launches.trans h.launches,
    fun id => (h'.gangs id).trans (h.gangs id)⟩

/-- What changes none of these. -/
theorem StoreFrame.of_eq {s t : State} (hw : t.waves = s.waves) (hs : t.sunk = s.sunk) (hv : t.versions = s.versions)
    (hl : t.launches = s.launches) (hg : t.gangs = s.gangs) : StoreFrame s t :=
  ⟨hw ▸ .refl _, hs, hv, hl, fun id => by rw [State.gang?, hg]; rfl⟩

theorem StoreFrame.foldl {α : Type} {F : State → α → State} (h : ∀ s x, StoreFrame s (F s x)) :
    ∀ (l : List α) (s : State), StoreFrame s (l.foldl F s)
  | [], s => .refl s
  | x :: l, s => (h s x).trans (StoreFrame.foldl h l (F s x))

/-- A gang is versioned as before. -/
theorem StoreFrame.versioned {s t : State} (h : StoreFrame s t) {id : Nat} (hp : ∀ y, s.gang? id = some y → s.versioned y = false) :
    ∀ y, t.gang? id = some y → t.versioned y = false := by
  intro y hy
  have hg := h.gangs id
  rw [hy, Option.map_some] at hg
  obtain ⟨z, hz, hl⟩ := Option.map_eq_some_iff.mp hg.symm
  have := hp z hz
  unfold State.versioned State.launchOf State.launch? at *
  rw [h.launches, ← hl]
  exact this

theorem missWith_rest (s : State) (core line : Nat) (fillSect load : Bool) (f : Fill → Fill) :
    ∃ fs fl n, s.missWith core line fillSect load f = { s with fills := fs, flows := fl, nextId := n } := by
  unfold State.missWith
  split
  · exact ⟨_, _, _, rfl⟩
  · obtain ⟨fs, fl, h, -⟩ := sendFills_rest { s with
      nextId := s.nextId + 1
      fills := s.fills ++ [f { id := s.nextId, sector := coreSector core, core, line, fillSect, sent := false, deps := [] }] }
    exact ⟨_, _, _, h⟩

theorem holdStore_rest (s : State) (core wave : Nat) (lanes : LaneMask) (pol : CachePol) (w : LineWrite) :
    ∃ fs fl n, s.holdStore core wave lanes pol w = { s with fills := fs, flows := fl, nextId := n } := by
  unfold State.holdStore
  obtain ⟨fs, fl, n, h⟩ := missWith_rest { s with nextId := s.nextId + 1 } core w.line true false fun f =>
    { f with stores := f.stores ++ [{ id := s.nextId, wave, lanes, core, pol, w }] }
  exact ⟨fs, fl, n, h⟩

theorem storeLine_frame (s : State) (core wave : Nat) (lanes : LaneMask) (pol : CachePol) (w : LineWrite) :
    StoreFrame s (s.storeLine core wave lanes pol w) := by
  unfold State.storeLine
  split
  · obtain ⟨fs, fl, n, h⟩ := holdStore_rest s core wave lanes pol w
    rw [h]
    exact .of_eq rfl rfl rfl rfl rfl
  · obtain ⟨m, ls, l1, fs, fl, ds, hs, hl, ps, ws, hr, -, h⟩ := storeNow_rest s core wave pol w
    rw [h]
    exact ⟨hr, rfl, rfl, rfl, fun _ => rfl⟩

theorem homeWrite_store (s : State) (w : LineWrite) : StoreFrame s (s.homeWrite w) := by
  obtain ⟨m, ls, hs, hl, ps, ws, hr, h⟩ := homeWrite_rung s w
  rw [h]
  exact ⟨hr, rfl, rfl, rfl, fun _ => rfl⟩

/-- A write of a unit at a home of another die, up to the write itself. -/
def State.unitStart (s : State) (d h : Nat) (w : LineWrite) : State :=
  let (stamp, s) := s.bumpPub d 1
  let s := s.modDie h fun x => { x with app := vecSet x.app d (vecAt stamp d), dep := vecSet (vecMerge x.dep stamp) h x.pub }
  s.endRemote d w.line

theorem unitStart_eq (s : State) (d h : Nat) (w : LineWrite) :
    ∃ ds, s.unitStart d h w = State.endRemote { s with dies := ds } d w.line := ⟨_, rfl⟩

theorem unitWrite_home {s : State} {d h : Nat} {w : LineWrite} (hh : homeOfLine w.line = some h) :
    s.unitWrite d w = (if h == d then s else s.unitStart d h w).homeWrite w := by
  unfold State.unitWrite
  simp only [hh]
  split <;> rfl

theorem directWrite_frame {s : State} {d h : Nat} {w : LineWrite} (hh : homeOfLine w.line = some h) :
    StoreFrame s (s.directWrite d w) ∧
    ∀ l, (s.directWrite d w).homeView l = if l = w.line then mergeLine w.mask (s.homeView l) w.data else s.homeView l := by
  obtain ⟨u, hu⟩ : ∃ u, u = if h == d then s.endPoison w else (s.endPoison w).unitStart d h w := ⟨_, rfl⟩
  have hframe : StoreFrame s u ∧ HomesKept s u := by
    rw [hu]
    split
    · exact ⟨.of_eq rfl rfl rfl rfl rfl, fun l => homeView_congr rfl rfl l⟩
    · obtain ⟨ds, he⟩ := unitStart_eq (s.endPoison w) d h w
      rw [he]
      exact ⟨.of_eq rfl rfl rfl rfl rfl, fun l => (homeView_endRemote _ d w.line l).trans (homeView_congr rfl rfl l)⟩
  rw [State.directWrite, unitWrite_home hh, ← hu]
  refine ⟨hframe.1.trans (homeWrite_store u w), fun l => ?_⟩
  rw [homeView_homeWrite, hframe.2, hframe.2]
  split
  · next hl => rw [hl]
  · rfl

theorem setCommitted_frame (s : State) (gid : Nat) : StoreFrame s (s.setCommitted gid) := by
  refine ⟨.refl _, rfl, rfl, rfl, fun id => ?_⟩
  unfold State.setCommitted
  rw [gang?_modGang (f := fun g => { g with committed := true }) fun _ => rfl]
  cases s.gang? id with
  | none => rfl
  | some g =>
    rw [Option.map_some]
    split <;> rfl

/-! ## The stores of a group (R119) -/

/-- A store of a group of a plain gang at its level, before the gang is marked as having written memory. -/
def State.groupPut (g : Sunk) (lv : Level) (s : State) (w : LineWrite) : State :=
  let s := (s.noteSeal (((s.gang? g.gang).map (·.launch)).getD 0) w).endPoison w
  match lv with
  | .l1 _ => s.storeLine g.core g.wave (laneBit g.lane) .dflt w
  | .peer => if (s.gang? g.gang).isSome then s else s.storeLine g.core g.wave (laneBit g.lane) .dflt w
  | .sector => s.storeLine g.core g.wave (laneBit g.lane) .pass w
  | .home _ _ | .ctrl _ _ => (s.dropL1 g.core w.line).directWrite (coreDie g.core) w

theorem groupStore_eq {s : State} {g : Sunk} (hp : ∀ y, s.gang? g.gang = some y → s.versioned y = false) (lv : Level) (w : LineWrite) :
    let t := s.groupPut g lv { w with line := g.line }
    s.groupStore g lv w = if (s.gang? g.gang).isSome then t.setCommitted g.gang else t := by
  obtain ⟨x, hseal⟩ := noteSeal_rest s (((s.gang? g.gang).map (·.launch)).getD 0) { w with line := g.line }
  have hgang : (s.noteSeal (((s.gang? g.gang).map (·.launch)).getD 0) { w with line := g.line }).gang? g.gang = s.gang? g.gang := by
    rw [hseal]
    rfl
  have hver (y : Gang) : (s.noteSeal (((s.gang? g.gang).map (·.launch)).getD 0) { w with line := g.line }).versioned y =
      s.versioned y := by
    rw [hseal]
    rfl
  have hgang' (u : State) (lw : LineWrite) : (u.endPoison lw).gang? g.gang = u.gang? g.gang := rfl
  unfold State.groupStore State.groupPut
  dsimp only
  rw [hgang', hgang]
  cases hg : s.gang? g.gang with
  | none => cases lv <;> rfl
  | some y =>
    rw [hg] at hver
    simp only [hver, hp y hg, Bool.false_eq_true, if_false, Option.isSome_some, if_true] <;> cases lv <;> rfl

theorem groupPut_frame (g : Sunk) (lv : Level) {h : Nat} (s : State) {w : LineWrite} (hh : homeOfLine w.line = some h) :
    StoreFrame s (s.groupPut g lv w) := by
  obtain ⟨x, hseal⟩ := noteSeal_rest s (((s.gang? g.gang).map (·.launch)).getD 0) w
  have hstart : StoreFrame s ((s.noteSeal (((s.gang? g.gang).map (·.launch)).getD 0) w).endPoison w) := by
    rw [hseal]
    exact .of_eq rfl rfl rfl rfl rfl
  unfold State.groupPut
  dsimp only
  generalize (s.noteSeal (((s.gang? g.gang).map (·.launch)).getD 0) w).endPoison w = u at hstart
  refine hstart.trans ?_
  have hdirect : StoreFrame u ((u.dropL1 g.core w.line).directWrite (coreDie g.core) w) :=
    (StoreFrame.of_eq (s := u) (t := u.dropL1 g.core w.line) rfl rfl rfl rfl rfl).trans (directWrite_frame (d := coreDie g.core) hh).1
  cases lv with
  | l1 c => exact storeLine_frame u _ _ _ _ _
  | peer =>
    dsimp only
    split
    · exact .refl u
    · exact storeLine_frame u _ _ _ _ _
  | sector => exact storeLine_frame u _ _ _ _ _
  | home k c => exact hdirect
  | ctrl k c => exact hdirect

theorem groupStore_frame {s : State} {g : Sunk} {h : Nat} (hh : homeOfLine g.line = some h)
    (hp : ∀ y, s.gang? g.gang = some y → s.versioned y = false) (lv : Level) (w : LineWrite) :
    StoreFrame s (s.groupStore g lv w) := by
  have hput := groupPut_frame g lv s (w := { w with line := g.line }) hh
  rw [groupStore_eq hp]
  split
  · exact hput.trans (setCommitted_frame _ _)
  · exact hput

/-- A store at the home is seen there. -/
theorem homeView_groupStore {s : State} {g : Sunk} {h : Nat} (hh : homeOfLine g.line = some h)
    (hp : ∀ y, s.gang? g.gang = some y → s.versioned y = false) {lv : Level} (hlv : (∃ k, lv = .home h k) ∨ ∃ k, lv = .ctrl h k)
    (w : LineWrite) (l : Nat) : (s.groupStore g lv w).homeView l =
      if l = g.line then mergeLine w.mask (s.homeView l) w.data else s.homeView l := by
  obtain ⟨lw, hlw⟩ : ∃ lw : LineWrite, lw = { w with line := g.line } := ⟨_, rfl⟩
  obtain ⟨x, hseal⟩ := noteSeal_rest s (((s.gang? g.gang).map (·.launch)).getD 0) lw
  obtain ⟨u, hu⟩ : ∃ u, u = ((s.noteSeal (((s.gang? g.gang).map (·.launch)).getD 0) lw).endPoison lw).dropL1 g.core lw.line := ⟨_, rfl⟩
  have hput : s.groupPut g lv lw = u.directWrite (coreDie g.core) lw := by
    rw [hu]
    rcases hlv with ⟨k, rfl⟩ | ⟨k, rfl⟩ <;> rfl
  have hview : (s.groupStore g lv w).homeView l = (u.directWrite (coreDie g.core) lw).homeView l := by
    rw [groupStore_eq hp, ← hput, hlw]
    split
    · exact homeView_congr rfl rfl l
    · rfl
  have huv : HomesKept s u := fun l => by
    rw [hu, hseal]
    exact homeView_congr rfl rfl l
  have hhome : homeOfLine lw.line = some h := by rw [hlw]; exact hh
  rw [hview, (directWrite_frame hhome).2, huv, hlw]

/-- The stores of a group, in turn. -/
theorem groupStores_frame {g : Sunk} {h : Nat} (hh : homeOfLine g.line = some h) (lv : Level) : ∀ (ws : List LineWrite) (s : State),
    (∀ y, s.gang? g.gang = some y → s.versioned y = false) → StoreFrame s (ws.foldl (State.groupStore g lv) s)
  | [], s, _ => .refl s
  | w :: ws, s, hp => by
    have hw := groupStore_frame hh hp lv w
    exact hw.trans (groupStores_frame hh lv ws _ (hw.versioned hp))

theorem groupStores_bytes {g : Sunk} {h : Nat} (hh : homeOfLine g.line = some h) {lv : Level}
    (hlv : (∃ k, lv = .home h k) ∨ ∃ k, lv = .ctrl h k) {n : Nat} (hn : n < 64) : ∀ (ws : List LineWrite) (s : State),
    (∀ y, s.gang? g.gang = some y → s.versioned y = false) →
    lineByte ((ws.foldl (State.groupStore g lv) s).homeView g.line) n =
      Claims.written (ws.map fun y => { y with line := g.line }) g.line n (lineByte (s.homeView g.line) n)
  | [], _, _ => rfl
  | w :: ws, s, hp => by
    rw [List.foldl_cons, groupStores_bytes hh hlv hn ws _ ((groupStore_frame hh hp lv w).versioned hp),
      homeView_groupStore hh hp hlv, if_pos rfl, lineByte_mergeLine _ _ _ hn, List.map_cons, lineWritten_cons]
    simp

end Sys2Proof.Machine
end

section
/-! O45: the groomer's atomics, and schuss groups below the core (R117 to R120, R192, R201, R211, R212, R274). -/

namespace Sys2Proof.Machine
open Sys2Proof.Claims

/-! ## A result that waits for published writes (R192) -/

theorem wave?_setPubs (s : State) (wave pid : Nat) (pubs : List (Nat × Word)) (id : Nat) :
    (s.setPubs wave pid pubs).wave? id = (s.wave? id).map fun w => if id = wave then
      { w with pend := modBy w.pend (fun p => p.id == pid) fun p => { p with pubs } } else w :=
  wave?_modWave fun _ => rfl

theorem State.Holds.setPubs {s : State} {id gang : Nat} {p : Pending} (h : s.Holds id gang p) (pubs : List (Nat × Word)) :
    (s.setPubs id p.id pubs).Holds id gang { p with pubs } := by
  obtain ⟨w, hw, hg, hp⟩ := h
  refine ⟨{ w with pend := modBy w.pend (fun q => q.id == p.id) fun q => { q with pubs } },
    by rw [wave?_setPubs, hw, Option.map_some, if_pos rfl], hg, List.mem_map.mpr ⟨p, hp, ?_⟩⟩
  simp

theorem State.Holds.modThread {s : State} {id gang : Nat} {p : Pending} (h : s.Holds id gang p) (wave l : Nat) (f : Thread → Thread) :
    (s.modWave wave fun w => w.modThread l f).Holds id gang p := by
  obtain ⟨w, hw, hg, hp⟩ := h
  refine ⟨_, by rw [wave?_modWave (f := fun w => w.modThread l f) fun _ => rfl, hw, Option.map_some], ?_⟩
  split
  · exact ⟨hg, hp⟩
  · exact ⟨hg, hp⟩

/-! ## One group (R119 to R122) -/

/-- The run of a group on the line `x`. -/
def Sunk.run (g : Sunk) (gen : Word) (x : Line) : GroupRun :=
  g.words.foldl (GroupRun.step (fun r => (g.regs.lookup r).getD 0) g.lane g.fmode) { gen, line := x }

/-- The results of a group made known. -/
def State.groupAnswer (t : State) (g : Sunk) (lv : Level) (r : GroupRun) (s : State) : State :=
  let t := t.resolve g.wave g.pid (r.vals (groupDst g.words)) r.flags (some lv.code)
  let t := match lv with
    | .l1 _ => t.setPubs g.wave g.pid (pubsSince (coreDie g.core) s t)
    | _ => t
  t.modWave g.wave fun w => w.modThread g.lane fun h => { h with gen := r.gen }

theorem groupAnswer_rest (g : Sunk) (lv : Level) (r : GroupRun) (s t : State) :
    ∃ ws, t.groupAnswer g lv r s = { t with waves := ws } := by
  unfold State.groupAnswer
  cases lv <;> exact ⟨_, rfl⟩

/-- Does a group at the level run in the core? -/
def Level.inCore : Level → Bool
  | .l1 _ => true
  | _ => false

/-- The group's result, its values known. -/
def groupResult (g : Sunk) (lv : Level) (r : GroupRun) (s t : State) (p : Pending) : Pending :=
  { p with opened := false, vals := r.vals (groupDst g.words), flags := p.flags ||| r.flags
           slot := p.slot.map fun y => (y.1, lv.code)
           pubs := if lv.inCore then pubsSince (coreDie g.core) s t else p.pubs }

theorem answer_slot (p : Pending) (vals : List Word) (flags : BitVec 7) (c : Nat) : p.answer vals flags (some c) =
    { p with opened := false, vals := vals, flags := p.flags ||| flags, slot := p.slot.map fun y => (y.1, c) } := by
  unfold Pending.answer
  cases p.slot <;> rfl

theorem holds_groupAnswer {g : Sunk} (lv : Level) (r : GroupRun) (s : State) {t : State} {gang : Nat} {p : Pending} (hp : p.id = g.pid)
    (h : t.Holds g.wave gang p) : (t.groupAnswer g lv r s).Holds g.wave gang (groupResult g lv r s t p) := by
  have hans := h.resolve_same (r.vals (groupDst g.words)) r.flags (some lv.code)
  rw [answer_slot] at hans
  unfold State.groupAnswer groupResult
  rw [← hp]
  cases lv with
  | l1 c =>
    exact (hans.setPubs (pubsSince (coreDie g.core) s _)).modThread _ _ _
  | peer | sector | home d c | ctrl d c => exact hans.modThread _ _ _

/-- A group that loads a poisoned word aborts its gang (R274). -/
theorem groupOne_poison {lv : Level} {x : Line} {s : State} {g : Sunk} (hg : g ∈ s.sunk) (hp : s.groupPoison g = true) :
    State.groupOne lv (x, s) g = (x, { s.abortGang g.gang { code := 0x80, pc := g.pc } with
      sunk := (s.abortGang g.gang { code := 0x80, pc := g.pc }).sunk.filter fun y => y.id != g.id }) := by
  have hany : (s.sunk.any fun y => y.id == g.id) = true := List.any_eq_true.mpr ⟨g, hg, by simp⟩
  unfold State.groupOne
  simp only [hany, hp, Bool.not_true, Bool.false_eq_true, if_false, if_true]

theorem groupOne_runs {lv : Level} {x : Line} {s : State} {g : Sunk} {w : Wave} (hg : g ∈ s.sunk) (hp : s.groupPoison g = false)
    (hw : s.wave? g.wave = some w) {r : GroupRun} (hr : g.run (w.thread g.lane).gen x = r) :
    let t := (r.stores.foldl (State.groupStore g lv) s).groupAnswer g lv r s
    (State.groupOne lv (x, s) g).2 = { t with
      sunk := if (t.wave? g.wave).any fun w => w.pend.any fun p => p.id == g.pid then
          modBy t.sunk (fun y => y.id == g.id) fun y => { y with ran := true } else t.sunk.filter fun y => y.id != g.id } := by
  have hany : (s.sunk.any fun y => y.id == g.id) = true := List.any_eq_true.mpr ⟨g, hg, by simp⟩
  rw [← hr]
  unfold State.groupOne
  simp only [hany, hp, hw, Bool.not_true, Bool.false_eq_true, if_false, Option.map_some, Option.getD_some]
  cases lv <;> rfl

/-! ## The event -/

/-- The event where one group is its batch: a group at a controller leaves the home cache without its line (R120). -/
theorem schussGroupRun_one {s t : State} {idx : Nat} {g : Sunk} {lv : Level} {x : Line}
    (hfind : s.sunk.find? (fun y => y.id == idx && !y.ran) = some g)
    (hone : s.sunk.filter (fun y => y.batch == g.batch && y.line == g.line && !y.ran) = [g])
    (hlv : s.groupLevel g g.needs none none = lv) (hready : s.groupReady g lv = true) (hline : s.groupLine g lv = some (x, t)) :
    ∃ hl, exec (.schussGroupRun idx none none) s = .next { (State.groupOne lv (x, t) g).2 with homeLines := hl } := by
  show ∃ hl, execSchussGroupRun idx none none s = _
  have hneed : ([g] : List Sunk).foldl (fun v x => v ||| x.needs) 0 = g.needs := by simp
  unfold execSchussGroupRun
  simp only [hfind, hone, hneed, hlv, hready, hline, Bool.not_true, Bool.false_eq_true, if_false]
  cases lv <;> exact ⟨_, rfl⟩

theorem aborted_congr {s t : State} (hg : t.gangs = s.gangs) (hw : t.waves = s.waves) {gid code : Nat} (h : Aborted s gid code) :
    Aborted t gid code := by
  unfold Aborted State.gang? at *
  rwa [hg, hw]

theorem abortGang_aborted {s : State} {gid : Nat} (f : GangFault) {y : Gang} (hy : s.gang? gid = some y) (hl : y.st = .live)
    (hv : s.versioned y = false) : Aborted (s.abortGang gid f) gid f.code := by
  have hd : s.commitsDone y = true := by simp [State.commitsDone, hv]
  rw [abortGang_done hy hd]
  obtain ⟨hst, hend⟩ := endGang_ends (.aborted f) hy hl
  exact ⟨⟨_, f, hst, rfl, rfl⟩, hend⟩

theorem LevelOf.code {h code : Nat} {lv : Level} (hl : LevelOf h code lv) : lv.code = code := by cases hl <;> rfl

theorem LevelOf.inCore {h code : Nat} {lv : Level} (hl : LevelOf h code lv) : lv.inCore = true ↔ code = 1 ∨ code = 9 := by
  cases hl with
  | l1 c hc => exact ⟨fun _ => hc, fun _ => rfl⟩
  | sector => simp [Level.inCore]
  | home c hc => exact ⟨nofun, fun h => by omega⟩
  | ctrl c hc => exact ⟨nofun, fun h => by omega⟩

theorem LevelOf.atHome {h code : Nat} {lv : Level} (hl : LevelOf h code lv) (h4 : 4 ≤ code) (h7 : code ≤ 7) :
    (∃ k, lv = .home h k) ∨ ∃ k, lv = .ctrl h k := by
  cases hl with
  | l1 c hc => omega
  | sector => omega
  | home c hc => exact .inl ⟨_, rfl⟩
  | ctrl c hc => exact .inr ⟨_, rfl⟩

theorem LevelOf.ready {s : State} {g : Sunk} {h code : Nat} {lv : Level} (hl : LevelOf h code lv)
    (hs : hasStore g.words = true → s.canPublish (coreDie g.core) = true ∧ s.writable (coreDie g.core) h = true) :
    s.groupReady g lv = true := by
  unfold State.groupReady
  cases hst : hasStore g.words with
  | false => cases hl <;> rfl
  | true =>
    obtain ⟨h1, h2⟩ := hs hst
    cases hl with
    | l1 c hc => simp [h1]
    | sector => simp [h1]
    | home c hc => simp [h2]
    | ctrl c hc => simp [h2]

theorem pubsSince_congr {d : Nat} {s s' t t' : State} (hs : (s'.die d).pub = (s.die d).pub) (ht : (t'.die d).pub = (t.die d).pub) :
    pubsSince d s' t' = pubsSince d s t := by
  unfold pubsSince
  rw [hs, ht]

/-- A group runs on the line its level serves. -/
theorem schussGroup_runs {s : State} {idx : Nat} {g : Sunk} {h code : Nat} {x : Line} {w : Wave}
    (hfind : s.sunk.find? (fun y => y.id == idx && !y.ran) = some g)
    (hone : s.sunk.filter (fun y => y.batch == g.batch && y.line == g.line && !y.ran) = [g]) (hh : homeOfLine g.line = some h)
    (hp : PlainGroup s g) (hr : RunsAt s g h code x) (hw : s.wave? g.wave = some w)
    (hs : hasStore g.words = true → s.canPublish (coreDie g.core) = true ∧ s.writable (coreDie g.core) h = true)
    {run : GroupRun} (hrun : g.run (w.thread g.lane).gen x = run) :
    ∃ t, exec (.schussGroupRun idx none none) s = .next t ∧
      (s.groupPoison g = true → (∃ y, s.gang? g.gang = some y ∧ y.st = .live) → Aborted t g.gang 0x80) ∧
      (s.groupPoison g = false → ∀ p ∈ w.pend, p.id = g.pid → { g with ran := true } ∈ t.sunk ∧ Answered s t g.wave p { p with
        opened := false, vals := run.vals (groupDst g.words), flags := p.flags ||| run.flags
        slot := p.slot.map fun y => (y.1, code)
        pubs := if code = 1 ∨ code = 9 then pubsSince (coreDie g.core) s t else p.pubs }) ∧
      (s.groupPoison g = false → 4 ≤ code → code ≤ 7 → ∀ n < 64, lineByte (t.homeView g.line) n =
        Claims.written (run.stores.map fun y => { y with line := g.line }) g.line n (lineByte (s.homeView g.line) n)) := by
  obtain ⟨lv, u, hlv, hof, hline, hread⟩ := runsAt_level hp hh hr
  obtain ⟨hl, hexec⟩ := schussGroupRun_one hfind hone hlv (hof.ready hs) hline
  have hmem : g ∈ u.sunk := by rw [hread.rest]; exact List.mem_of_find?_eq_some hfind
  have hpoison : u.groupPoison g = s.groupPoison g := by rw [hread.rest]; rfl
  have hgang (id : Nat) : u.gang? id = s.gang? id := by rw [hread.rest]; rfl
  have hver (y : Gang) : u.versioned y = s.versioned y := by rw [hread.rest]; rfl
  have hplain : ∀ y, u.gang? g.gang = some y → u.versioned y = false := fun y hy => (hver y).trans (hp.gang y (hgang _ ▸ hy))
  have hwave : u.wave? g.wave = some w := by rw [hread.rest]; exact hw
  refine ⟨_, hexec, fun hb ⟨y, hy, hlive⟩ => ?_, fun hb p hpend hpid => ?_, fun hb h4 h7 n hn => ?_⟩
  · rw [groupOne_poison hmem (hpoison.trans hb)]
    have hy' := (hgang g.gang).trans hy
    exact aborted_congr rfl rfl (abortGang_aborted { code := 0x80, pc := g.pc } hy' hlive (hplain y hy'))
  · have hone' := groupOne_runs (lv := lv) (x := x) hmem (hpoison.trans hb) hwave hrun
    dsimp only at hone'
    obtain ⟨v, hv⟩ : ∃ v, v = run.stores.foldl (State.groupStore g lv) u := ⟨_, rfl⟩
    have hframe : StoreFrame u v := hv ▸ groupStores_frame hh lv run.stores u hplain
    have hholds : v.Holds g.wave w.gang p := State.Holds.rung hframe.waves ⟨w, hwave, rfl, hpend⟩
    have hans := holds_groupAnswer lv run u hpid hholds
    obtain ⟨ws, hrest⟩ := groupAnswer_rest g lv run u v
    have hwaits : ((v.groupAnswer g lv run u).wave? g.wave).any (fun w => w.pend.any fun p => p.id == g.pid) = true := by
      obtain ⟨w', hw', -, hq⟩ := hans
      rw [hw', Option.any_some]
      exact List.any_eq_true.mpr ⟨_, hq, by simpa [groupResult] using hpid⟩
    rw [← hv, hwaits, if_pos rfl] at hone'
    rw [hone']
    refine ⟨?_, answered_of_holds fun w' hw' _ => ?_⟩
    · refine List.mem_map.mpr ⟨g, ?_, by simp⟩
      rw [hrest]
      exact hframe.sunk ▸ hmem
    · obtain rfl : w = w' := Option.some.inj (hw.symm.trans hw')
      have hpubs : pubsSince (coreDie g.core) s { v.groupAnswer g lv run u with
          sunk := modBy (v.groupAnswer g lv run u).sunk (fun y => y.id == g.id) fun y => { y with ran := true }
          homeLines := hl } = pubsSince (coreDie g.core) u v :=
        pubsSince_congr (hread.pub _).symm (by rw [hrest]; rfl)
      rw [hpubs]
      refine State.Holds.congr (s := v.groupAnswer g lv run u) rfl ?_
      rw [groupResult, hof.code] at hans
      rwa [if_congr hof.inCore rfl rfl] at hans
  · have hone' := groupOne_runs (lv := lv) (x := x) hmem (hpoison.trans hb) hwave hrun
    dsimp only at hone'
    obtain ⟨ws, hrest⟩ := groupAnswer_rest g lv run u (run.stores.foldl (State.groupStore g lv) u)
    rw [hone']
    have hview : State.homeView (run.stores.foldl (State.groupStore g lv) u) g.line =
        ((run.stores.foldl (State.groupStore g lv) u).groupAnswer g lv run u).homeView g.line := by
      rw [hrest]
      exact homeView_congr rfl rfl _
    rw [← hread.homes, ← groupStores_bytes hh (hof.atHome h4 h7) hn run.stores u hplain, hview]
    exact congrArg (lineByte · n) (homeView_congr rfl rfl _)

/-- Settles O45: the groomer's part is `atomPerform_done`, the groups' part `schussGroup_runs`. -/
theorem groomerAndGroups : Obligations.GroomerAndGroups := by
  intro s
  refine ⟨fun idx r hfind hh hal hpair => ?_, fun idx g h code x w hfind hone hh hver hline hr hw hs =>
    schussGroup_runs hfind hone hh ⟨hver, hline⟩ hr hw hs rfl⟩
  have hid : r.id = idx := by simpa using List.find?_some hfind
  have hfirst := groomFirst_iff s r
  rw [hid] at hfirst
  refine ⟨fun h1 h2 => ⟨_, ?_, atomPerform_done hal hpair⟩, fun h => ?_⟩
  · rw [groomerAtomic_eq hfind hh, hfirst.mpr h1, h2, Bool.and_self, if_pos rfl]
  · rw [groomerAtomic_eq hfind hh, if_neg]
    rw [Bool.and_eq_true, hfirst]
    rintro ⟨h1, h2⟩
    rcases h with h | h
    · exact h h1
    · rw [h] at h2; cases h2

end Sys2Proof.Machine
end

section
/-! A word of several effects on the issuing wave (R33, R34): `Wave.Carries` says what each of them keeps of the wave, and `Carried.ends`
what the end of the issue then leaves. -/

namespace Sys2Proof.Machine
open Sys2Proof.Claims

/-! ## What the effects keep of the wave -/

/-- `v` is the wave `w` in its registers, grant and flags, and the threads of `m` still run. -/
structure Wave.Carries (m : LaneMask) (w v : Wave) : Prop where
  id     : v.id = w.id
  grant  : v.grant = w.grant
  flags  : v.xstat = w.xstat
  uni    : v.s = w.s
  length : v.threads.length = w.threads.length
  regs   : ∀ l, (v.thread l).v = (w.thread l).v
  runs   : ∀ l, m.getLsbD l = true → (v.thread l).st = .run

theorem thread_modThread (v : Wave) (l : Nat) (f : Thread → Thread) (k : Nat) :
    (v.modThread l f).thread k = if k = l ∧ l < 32 ∧ l < v.threads.length then f (v.thread k) else v.thread k := by
  unfold Wave.modThread
  rw [thread_mapLanes, getLsbD_laneBit]
  by_cases hk : k = l
  · subst hk
    simp
  · simp [hk]

theorem Wave.Carries.modThread {m : LaneMask} {w v : Wave} (h : w.Carries m v) (l : Nat) {f : Thread → Thread}
    (hv : ∀ t, (f t).v = t.v) (hs : ∀ t, (f t).st = t.st) : w.Carries m (v.modThread l f) := by
  refine ⟨h.id, h.grant, h.flags, h.uni, (length_mapLanes ..).trans h.length, fun k => ?_, fun k hk => ?_⟩
  · rw [thread_modThread]
    split
    · exact (hv _).trans (h.regs k)
    · exact h.regs k
  · rw [thread_modThread]
    split
    · exact (hs _).trans (h.runs k hk)
    · exact h.runs k hk

theorem Wave.Carries.pend {m : LaneMask} {w v : Wave} (h : w.Carries m v) (ps : List Pending) : w.Carries m { v with pend := ps } :=
  ⟨h.id, h.grant, h.flags, h.uni, h.length, h.regs, h.runs⟩

theorem Rung.length {v v' : Wave} (h : Rung v v') : v'.threads.length = v.threads.length := by
  cases h with
  | same => rfl
  | event m _ => rfl
  | woken _ => exact List.length_map ..

theorem Wave.Carries.rung {m : LaneMask} {w v v' : Wave} (h : w.Carries m v) (hr : Rung v v') : w.Carries m v' := by
  have he := hr.eq
  refine ⟨hr.id.trans h.id, by rw [he]; exact h.grant, by rw [he]; exact h.flags, by rw [he]; exact h.uni,
    hr.length.trans h.length, fun l => ?_, fun l hl => ?_⟩
  · rcases hr.thread l with e | ⟨-, e⟩
    · rw [e]; exact h.regs l
    · rw [e, goOn_v]; exact h.regs l
  · rcases hr.thread l with e | ⟨e, -⟩
    · rw [e]; exact h.runs l hl
    · rw [h.runs l hl] at e
      cases e

theorem Wave.Carries.raw {m : LaneMask} {w v : Wave} (h : w.Carries m v) (l : Nat) (r : Reg) : v.raw l r = w.raw l r :=
  raw_congr h.uni (h.regs l) r

/-- The issue of `c` is open, and the issuing wave is `v`, which carries `w`. -/
structure Carried (s : State) (c : Issue) (w v : Wave) : Prop where
  cur  : s.cur = some c
  wave : s.wave? w.id = some v
  kept : w.Carries c.lanes v

theorem Issuing.carried {s : State} {c : Issue} {w : Wave} (h : Issuing s c w) : Carried s c w w :=
  ⟨h.cur, h.waveId ▸ h.wave, rfl, rfl, rfl, rfl, rfl, fun _ => rfl, h.runs⟩

theorem Carried.modWave {s : State} {c : Issue} {w v : Wave} (h : Carried s c w v) {F : Wave → Wave} (hid : ∀ v, (F v).id = v.id)
    (hF : w.Carries c.lanes v → w.Carries c.lanes (F v)) : Carried (s.modWave w.id F) c w (F v) :=
  ⟨h.cur, by rw [wave?_modWave hid, h.wave, Option.map_some, if_pos rfl], hF h.kept⟩

theorem Carried.congr {s t : State} {c : Issue} {w v : Wave} (h : Carried s c w v) (hw : t.waves = s.waves) (hc : t.cur = s.cur) :
    Carried t c w v := ⟨hc.trans h.cur, (show t.wave? w.id = s.wave? w.id by rw [State.wave?, hw]; rfl).trans h.wave, h.kept⟩

theorem Carried.rung {s t : State} {c : Issue} {w v : Wave} (h : Carried s c w v) (hw : RungAll s.waves t.waves)
    (hc : t.cur = s.cur) : ∃ v', Rung v v' ∧ Carried t c w v' := by
  obtain ⟨v', hv', hr⟩ := hw.find h.wave
  exact ⟨v', hr, hc.trans h.cur, hv', h.kept.rung hr⟩

/-! ## The end of the issue -/

/-- The end of an issue that goes on at `next`. -/
theorem Carried.ends {s u : State} {c : Issue} {w v : Wave} (hi : Issuing s c w) (h : Carried u c w v) (next : DWord) :
    ∃ t w', (u.modCur fun c => { c with nextPc := next }).finishIssue = t ∧ t.wave? w.id = some w' ∧ RegsKept w w' [] ∧
      w'.xstat = w.xstat ∧ (∀ p ∈ v.pend, p ∈ w'.pend) ∧
      (∀ l, c.lanes.getLsbD l = true →
        w'.thread l = { v.thread l with pc := next, count := 0, commitDone := false, v := (w'.thread l).v }) ∧
      t = { u with cur := none, waves := t.waves, gangs := t.gangs, fresh := t.fresh, picks := t.picks, nextId := t.nextId } := by
  obtain ⟨c', hc'⟩ : ∃ c', c' = { c with nextPc := next } := ⟨_, rfl⟩
  have hi' : Issuing { s with cur := some c' } c' w := by
    subst hc'
    exact ⟨rfl, hi.wave, by rw [hi.single], hi.lanes, hi.runs⟩
  have hcur : (u.modCur fun c => { c with nextPc := next }).cur = some c' := by
    rw [hc']
    show u.cur.map _ = _
    rw [h.cur]
    rfl
  have hlanes : c'.lanes = c.lanes := by rw [hc']
  have hwid : c'.wave = w.id := hi'.waveId
  have hfin := finishIssue_settled (u := u.modCur fun c => { c with nextPc := next }) hcur (hwid ▸ h.wave) hi'.traps hi'.xlates hi'.waits
  unfold State.issued at hfin
  rw [hwid] at hfin
  obtain ⟨w', hE⟩ := settled_ended (u := u.modCur fun c => { c with nextPc := next }) hi'.mild h.wave hfin
  have hth (l : Nat) : (Wave.issued c' v).thread l = if c.lanes.getLsbD l = true then
      { v.thread l with count := 0, pc := next, commitDone := false } else v.thread l := by
    rw [issued_thread, hi'.advance, thread_mapLanes, hlanes, hc']
    by_cases hl : c.lanes.getLsbD l = true
    · have := h.kept.length ▸ hi.lt hl
      simp [hl, this]
    · simp [hl]
  have hid : (Wave.issued c' v).id = w.id := by rw [issued_shape]; exact h.kept.id
  refine ⟨_, w', rfl, hid ▸ hE.mine, fun l r _ => ?_, ?_, fun p hp => ?_, fun l hl => ?_, hE.rest⟩
  · have hraw : (Wave.issued c' v).raw l r = w.raw l r := by
      rw [← h.kept.raw]
      refine raw_congr (by rw [issued_shape]) ?_ r
      rw [hth]
      split <;> rfl
    have hgr : (Wave.issued c' v).grant = w.grant := by rw [issued_shape]; exact h.kept.grant
    have := hE.kept.raw l r
    unfold Granted at *
    rwa [hraw, hgr] at this
  · rw [hE.kept.xstat, issued_shape]
    exact h.kept.flags
  · obtain ⟨ps, hps, -⟩ := hE.kept.pend
    rw [hps]
    refine List.mem_append_left _ ?_
    rw [issued_shape]
    exact hp
  · have := hE.kept.goes (l := l) (by rw [hth, if_pos hl]; exact h.kept.runs l hl)
    rw [hth, if_pos hl] at this
    exact this

end Sys2Proof.Machine
end

section
/-! Schuss groups as their head issues (R113 to R118, R123): the result outstanding for a group, a group that leaves the core, and one
that runs in it. -/

namespace Sys2Proof.Machine
open Sys2Proof.Claims

/-! ## The result outstanding for a group (R115, R123) -/

/-- The result outstanding for the group of lane `l`, as `groupPend` completes it from `p`. -/
def groupResultOf (id l slot : Nat) (is : List Instr) (p : Pending) : Pending :=
  { p with id := id, lane := some l, lanes := laneBit l, regs := groupDst is, slot := some (slot, 0) }

/-- A thread's slot, cleared and in the hands of the result with number `id`. -/
def Thread.slotFor (t : Thread) (slot id : Nat) : Thread :=
  { t with recs := t.recs &&& ~~~(0xF#64 <<< (4 * slot)), recOwner := Map.set 0 t.recOwner slot (id + 1) }

/-- A wave with one result more, which owns the slot of lane `l`. -/
def Wave.headed (v : Wave) (l slot : Nat) (q : Pending) : Wave :=
  { v with pend := v.pend ++ [q] }.modThread l fun t => t.slotFor slot q.id

theorem groupPend_eq (s : State) (w : Wave) (l slot : Nat) (is : List Instr) (p : Pending) :
    s.groupPend w l slot is p = (s.nextId, ({ s with nextId := s.nextId + 1 } : State).modWave w.id fun v =>
      v.headed l slot (groupResultOf s.nextId l slot is p)) := by
  obtain ⟨q, hq⟩ : ∃ q, q = groupResultOf s.nextId l slot is p := ⟨_, rfl⟩
  have hid : q.id = s.nextId := by rw [hq]; rfl
  rw [← hq]
  have := modWave_modWave ({ s with nextId := s.nextId + 1 } : State) w.id (fun v => { v with pend := v.pend ++ [q] })
    (fun v => v.modThread l fun t => t.slotFor slot q.id) fun _ => rfl
  unfold Wave.headed
  rw [← this, hid, hq]
  rfl

/-- The slot is clear, and the result with number `id` owns it. -/
structure SlotOwned (t : Thread) (slot id : Nat) : Prop where
  clear : t.recs.extractLsb' (4 * slot) 4 = 0
  owner : Map.get 0 t.recOwner slot = id + 1

theorem slotFor_owned (t : Thread) {slot : Nat} (hs : slot < 16) (id : Nat) : SlotOwned (t.slotFor slot id) slot id := by
  refine ⟨?_, by simp [Thread.slotFor]⟩
  have := extract_slot t.recs 0 slot slot hs
  rw [if_pos rfl] at this
  simpa [Thread.slotFor] using this

/-- The result `q` of lane `l` is outstanding and owns the lane's slot. -/
structure HasResult (v : Wave) (l slot : Nat) (q : Pending) : Prop where
  mem  : q ∈ v.pend
  slot : SlotOwned (v.thread l) slot q.id

theorem headed_result (v : Wave) {l slot : Nat} (hs : slot < 16) (h32 : l < 32) (hl : l < v.threads.length) (q : Pending) :
    HasResult (v.headed l slot q) l slot q := by
  refine ⟨List.mem_append_right _ (List.mem_singleton_self q), ?_⟩
  unfold Wave.headed
  rw [thread_modThread, if_pos ⟨rfl, h32, hl⟩]
  exact slotFor_owned _ hs _

/-- Another lane's result is left as it is. -/
theorem HasResult.headed {v : Wave} {l slot : Nat} {q : Pending} (h : HasResult v l slot q) {k : Nat} (hk : l ≠ k) (slot' : Nat)
    (p : Pending) : HasResult (v.headed k slot' p) l slot q := by
  refine ⟨List.mem_append_left _ h.mem, ?_⟩
  unfold Wave.headed
  rw [thread_modThread, if_neg fun e => hk e.1]
  exact h.slot

theorem Wave.Carries.headed {m : LaneMask} {w v : Wave} (h : w.Carries m v) (l slot : Nat) (q : Pending) :
    w.Carries m (v.headed l slot q) := by
  unfold Wave.headed
  exact (h.pend _).modThread l (fun _ => rfl) fun _ => rfl

theorem Carried.headed {s : State} {c : Issue} {w v : Wave} (h : Carried s c w v) (l slot : Nat) (q : Pending) :
    Carried (s.modWave w.id fun v => v.headed l slot q) c w (v.headed l slot q) :=
  h.modWave (F := fun v => v.headed l slot q) (fun _ => rfl) fun k => k.headed l slot q

/-! ## Groups that leave the core (R118) -/

/-- What the group of lane `l` takes with it: the registers as they stand in `s0`. -/
def sunkOf (s0 : State) (w : Wave) (pc : DWord) (floor : Floor) (batch : Nat) (is : List Instr) (l n pid id : Nat) : Sunk :=
  { id, batch, wave := w.id, lane := l, pid, core := w.core, gang := w.gang, pc, line := n, floor := floor.depth
    fmode := w.fmode, regs := (groupSrc is).map fun r => (r, w.reg s0.fresh l r), words := is, stores := hasStore is }

/-- The result of a group that leaves the core: its values are open. -/
def farResult (id l slot : Nat) (is : List Instr) : Pending :=
  groupResultOf id l slot is { id := 0, lane := none, lanes := 0, regs := [], vals := [], opened := true, far := true }

theorem verWrite_rest (s : State) (g : Gang) (core : Option Nat) (w : LineWrite) :
    ∃ vs hl ps, s.verWrite g core w = { s with versions := vs, homeLines := hl, picks := ps } := by
  unfold State.verWrite
  split
  · exact ⟨_, _, _, rfl⟩
  · obtain ⟨hl, ps, h⟩ := fitHome_rest { s with versions := s.versions ++
      [{ gang := g.id, line := w.line, data := w.data, mask := w.mask, cores := core.toList
         spill := decide ((s.die g.die).verCap / 64 ≤ s.verUsed g.die) }] } g.die none
    exact ⟨_, _, _, h⟩

/-- The room that a storing group takes in its gang's version (R264). -/
def State.groupRoom (s : State) (w : Wave) (is : List Instr) (n : Nat) : State :=
  if s.versioned (s.gangOf w) && hasStore is then s.verWrite (s.gangOf w) none { line := n, data := 0, mask := 0 } else s

theorem groupRoom_rest (s : State) (w : Wave) (is : List Instr) (n : Nat) :
    ∃ vs hl ps, s.groupRoom w is n = { s with versions := vs, homeLines := hl, picks := ps } := by
  unfold State.groupRoom
  split
  · exact verWrite_rest ..
  · exact ⟨_, _, _, rfl⟩

theorem sendGroup_eq {w : Wave} {pc : DWord} {slot : Nat} {floor : Floor} {batch : Nat} {is : List Instr} {s0 s : State} {l n : Nat}
    (hr : s0.route w l is = .ok (.line n)) : ∃ vs hl ps k, State.sendGroup w pc slot floor batch is s0 s l =
      ({ s with versions := vs, homeLines := hl, picks := ps, nextId := k
                sunk := s.sunk ++ [sunkOf s0 w pc floor batch is l n s.nextId (s.nextId + 1)] } : State).modWave w.id fun v =>
        v.headed l slot (farResult s.nextId l slot is) := by
  obtain ⟨u, hu⟩ : ∃ u : State, u = { ({ s with nextId := s.nextId + 1 } : State).modWave w.id (fun v =>
      v.headed l slot (farResult s.nextId l slot is)) with nextId := s.nextId + 2 } := ⟨_, rfl⟩
  obtain ⟨vs, hl, ps, hroom⟩ := groupRoom_rest u w is n
  have hdef : State.sendGroup w pc slot floor batch is s0 s l = { u.groupRoom w is n with
      sunk := (u.groupRoom w is n).sunk ++ [sunkOf s0 w pc floor batch is l n s.nextId (s.nextId + 1)] } := by
    unfold State.sendGroup
    simp only [hr]
    rw [groupPend_eq, hu]
    rfl
  refine ⟨vs, hl, ps, s.nextId + 2, ?_⟩
  rw [hdef, hroom, hu]
  rfl

theorem sendGroup_core {w : Wave} {pc : DWord} {slot : Nat} {floor : Floor} {batch : Nat} {is : List Instr} {s0 s : State} {l : Nat}
    (hr : s0.route w l is = .ok .core) : State.sendGroup w pc slot floor batch is s0 s l = s := by
  unfold State.sendGroup
  simp only [hr]

/-- The group of lane `l` is on its way to line `n`, its result outstanding in the issuing wave `v`. -/
def Sent (s0 : State) (w : Wave) (pc : DWord) (slot : Nat) (floor : Floor) (batch : Nat) (is : List Instr) (l n : Nat) (t : State)
    (v : Wave) : Prop :=
  ∃ pid id, HasResult v l slot (farResult pid l slot is) ∧ sunkOf s0 w pc floor batch is l n pid id ∈ t.sunk

/-- The groups of the lanes of a list leave the core. -/
theorem sendGroups_sent {s0 : State} {c : Issue} {w : Wave} {slot : Nat} (hs : slot < 16) {is : List Instr} {n : Nat → Nat}
    (pc : DWord) (floor : Floor) (batch : Nat) : ∀ (ls : List Nat) (s : State) (v : Wave), ls.Nodup →
    (∀ l ∈ ls, l < 32 ∧ l < w.threads.length ∧ s0.route w l is = .ok (.line (n l))) → Carried s c w v →
    ∃ t v', ls.foldl (State.sendGroup w pc slot floor batch is s0) s = t ∧ Carried t c w v' ∧ t.mem = s.mem ∧ t.sect = s.sect ∧
      t.l1 = s.l1 ∧ (∀ l ∈ ls, Sent s0 w pc slot floor batch is l (n l) t v') ∧
      ∀ l ∉ ls, Sent s0 w pc slot floor batch is l (n l) s v → Sent s0 w pc slot floor batch is l (n l) t v'
  | [], s, v, _, _, h => ⟨s, v, rfl, h, rfl, rfl, rfl, nofun, fun _ _ hk => hk⟩
  | l :: ls, s, v, hnd, hls, h => by
    obtain ⟨hnot, hnd'⟩ := List.nodup_cons.mp hnd
    obtain ⟨h32, hlen, hr⟩ := hls l (by simp)
    obtain ⟨vs, hl, ps, k, heq⟩ := sendGroup_eq (pc := pc) (slot := slot) (floor := floor) (batch := batch) (s := s) hr
    obtain ⟨u, hu⟩ : ∃ u, State.sendGroup w pc slot floor batch is s0 s l = u := ⟨_, rfl⟩
    have hcar : Carried u c w (v.headed l slot (farResult s.nextId l slot is)) := by
      rw [← hu, heq]
      exact Carried.headed (Carried.congr (t := { s with
        versions := vs, homeLines := hl, picks := ps, nextId := k
        sunk := s.sunk ++ [sunkOf s0 w pc floor batch is l (n l) s.nextId (s.nextId + 1)] }) h rfl rfl) l slot _
    have hsunk : u.sunk = s.sunk ++ [sunkOf s0 w pc floor batch is l (n l) s.nextId (s.nextId + 1)] := by rw [← hu, heq]; rfl
    have hmine : Sent s0 w pc slot floor batch is l (n l) u (v.headed l slot (farResult s.nextId l slot is)) :=
      ⟨s.nextId, s.nextId + 1, headed_result v hs h32 (h.kept.length ▸ hlen) _, by rw [hsunk]; simp⟩
    obtain ⟨t, v', hfold, hcar', hmem, hsect, hl1, hsent, hkeep⟩ :=
      sendGroups_sent hs pc floor batch ls u _ hnd' (fun k hk => hls k (by simp [hk])) hcar
    refine ⟨t, v', by rw [List.foldl_cons, hu, hfold], hcar', ?_, ?_, ?_, fun k hk => ?_, fun k hk hold => ?_⟩
    · rw [hmem, ← hu, heq]; rfl
    · rw [hsect, ← hu, heq]; rfl
    · rw [hl1, ← hu, heq]; rfl
    · rcases List.mem_cons.mp hk with rfl | hk
      · exact hkeep _ hnot hmine
      · exact hsent k hk
    · obtain ⟨hkl, hk'⟩ : k ≠ l ∧ k ∉ ls := by simpa using hk
      obtain ⟨pid, id, hres, hin⟩ := hold
      exact hkeep k hk' ⟨pid, id, hres.headed hkl slot _, by rw [hsunk]; exact List.mem_append_left _ hin⟩

end Sys2Proof.Machine
end

section
/-! O26: SINK, whose group leaves the core or runs in it (R113 to R118, R123). -/

namespace Sys2Proof.Machine
open Sys2Proof.Claims

/-! ## A group in the core (R116) -/

theorem threadStore_kept (s : State) (w : Wave) (lanes : LaneMask) (pol : CachePol) (lw : LineWrite) :
    (s.threadStore w lanes pol lw).cur = s.cur ∧ RungAll s.waves (s.threadStore w lanes pol lw).waves := by
  obtain ⟨x, hseal⟩ := noteSeal_rest s (s.gangOf w).launch lw
  unfold State.threadStore
  dsimp only
  rw [hseal]
  split
  · obtain ⟨vs, hl, ps, h⟩ := verWrite_rest (State.dropL1 { s with seals := x } w.core lw.line) (s.gangOf w) (some w.core) lw
    rw [h]
    exact ⟨rfl, .refl _⟩
  · unfold State.storeLine
    split
    · obtain ⟨fs, fl, n, h⟩ := holdStore_rest (State.endPoison { s with seals := x } lw) w.core w.id lanes pol lw
      rw [h]
      exact ⟨rfl, .refl _⟩
    · obtain ⟨m, ls, l1, fs, fl, ds, hs, hl, ps, ws, hr, -, h⟩ :=
        storeNow_rest (State.endPoison { s with seals := x } lw) w.core w.id pol lw
      rw [h]
      exact ⟨rfl, hr⟩

/-- The words of a group in the core leave the issue and the waves, but for monitors, as they are. -/
theorem coreGroup_kept (w : Wave) (l : Nat) : ∀ (is : List Instr) (x : GroupProg) (s : State) {r : CoreEnd} {u : State},
    State.coreGroup w l is x s = (r, u) → u.cur = s.cur ∧ RungAll s.waves u.waves
  | [], x, s, r, u, h => by
    obtain ⟨-, rfl⟩ := Prod.mk.inj h
    exact ⟨rfl, .refl _⟩
  | i :: is, x, s, r, u, h => by
    have hstop {v : Verdict} {y : GroupProg} (h : (CoreEnd.stop v y, s) = (r, u)) : u.cur = s.cur ∧ RungAll s.waves u.waves := by
      obtain ⟨-, rfl⟩ := Prod.mk.inj h
      exact ⟨rfl, .refl _⟩
    unfold State.coreGroup at h
    split at h
    · exact coreGroup_kept w l is _ s h
    · dsimp only at h
      split at h
      · exact hstop h
      · split at h
        · exact hstop h
        · split at h
          · split at h
            · exact hstop h
            · obtain ⟨hc, hw⟩ := coreGroup_kept w l is _ _ h
              obtain ⟨hc', hw'⟩ := threadStore_kept s w (laneBit l) .dflt _
              exact ⟨hc.trans hc', hw'.trans hw⟩
          · split at h
            · exact hstop h
            · split at h
              · exact hstop h
              · next hread =>
                obtain ⟨hc, hw⟩ := coreGroup_kept w l is _ _ h
                rw [(coreLine_read hread).rest] at hc hw
                exact ⟨hc, hw⟩

/-! ## Its result -/

theorem HasResult.modPend {v : Wave} {l slot : Nat} {q : Pending} (h : HasResult v l slot q) {f : Pending → Pending}
    (hid : (f q).id = q.id) : HasResult { v with pend := modBy v.pend (fun p => p.id == q.id) f } l slot (f q) :=
  ⟨List.mem_map.mpr ⟨q, h.mem, by simp⟩, hid ▸ h.slot⟩

theorem HasResult.modThread {v : Wave} {l slot : Nat} {q : Pending} (h : HasResult v l slot q) (k : Nat) {f : Thread → Thread}
    (hr : ∀ t, (f t).recs = t.recs) (ho : ∀ t, (f t).recOwner = t.recOwner) : HasResult (v.modThread k f) l slot q := by
  refine ⟨h.mem, ?_⟩
  rw [thread_modThread]
  split
  · exact ⟨by rw [hr]; exact h.slot.clear, by rw [ho]; exact h.slot.owner⟩
  · exact h.slot

/-- The result of a group that has run in the core: its values are known, its record code is 8 (R116, R123). -/
def coreResultOf (id l slot : Nat) (is : List Instr) (x : GroupProg) : Pending :=
  { id, lane := some l, lanes := laneBit l, regs := groupDst is
    vals := (groupDst is).map fun r => (x.writes.lookup r).getD 0, flags := x.flags, slot := some (slot, 8), pubs := x.pubs }

theorem coreResult_done {u : State} {c : Issue} {w v : Wave} {slot l : Nat} (hs : slot < 16) (h32 : l < 32)
    (hl : l < w.threads.length) (is : List Instr) (x : GroupProg) (h : Carried u c w v) :
    ∃ t v', State.coreResult w slot is u (l, .done x) = t ∧ Carried t c w v' ∧
      HasResult v' l slot (coreResultOf u.nextId l slot is x) ∧ t.mem = u.mem ∧ t.sect = u.sect ∧ t.versions = u.versions := by
  obtain ⟨vals, hvals⟩ : ∃ vals, vals = (groupDst is).map fun r => (x.writes.lookup r).getD 0 := ⟨_, rfl⟩
  obtain ⟨q0, hq0⟩ : ∃ q0, q0 = groupResultOf u.nextId l slot is
      { id := 0, lane := none, lanes := 0, regs := [], vals, flags := x.flags } := ⟨_, rfl⟩
  have hid : q0.id = u.nextId := by rw [hq0]; rfl
  have h0 : HasResult (v.headed l slot q0) l slot q0 := headed_result v hs h32 (h.kept.length ▸ hl) q0
  have h1 := h0.modPend (f := fun p => p.answer vals 0 (some 8)) rfl
  have h2 := h1.modPend (f := fun p => { p with pubs := x.pubs }) rfl
  have h3 := h2.modThread l (f := fun t => { t with gen := x.gen, group := none }) (fun _ => rfl) fun _ => rfl
  obtain ⟨u0, hu0⟩ : ∃ u0, u0 = ({ u with nextId := u.nextId + 1 } : State).modWave w.id fun v => v.headed l slot q0 := ⟨_, rfl⟩
  have c0 : Carried u0 c w (v.headed l slot q0) :=
    hu0 ▸ Carried.headed (Carried.congr (t := { u with nextId := u.nextId + 1 }) h rfl rfl) l slot q0
  have c1 : Carried (u0.resolve w.id q0.id vals 0 (some 8)) c w _ := c0.modWave (F := fun v =>
    { v with pend := modBy v.pend (fun p => p.id == q0.id) fun p => p.answer vals 0 (some 8) }) (fun _ => rfl) fun k => k.pend _
  obtain ⟨u1, hu1⟩ : ∃ u1, u1 = u0.resolve w.id q0.id vals 0 (some 8) := ⟨_, rfl⟩
  rw [← hu1] at c1
  have c2 : Carried (u1.setPubs w.id q0.id x.pubs) c w _ := c1.modWave (F := fun v =>
    { v with pend := modBy v.pend (fun p => p.id == q0.id) fun p => { p with pubs := x.pubs } }) (fun _ => rfl) fun k => k.pend _
  have c3 := c2.modWave (F := fun v => v.modThread l fun t => { t with gen := x.gen, group := none })
    (fun _ => rfl) fun k => k.modThread l (fun _ => rfl) fun _ => rfl
  have hq : { (q0.answer vals 0 (some 8)) with pubs := x.pubs } = coreResultOf u.nextId l slot is x := by
    rw [hq0, hvals]
    simp [Pending.answer, groupResultOf, coreResultOf]
  have hdef : State.coreResult w slot is u (l, .done x) =
      (u1.setPubs w.id q0.id x.pubs).modWave w.id fun v => v.modThread l fun t => { t with gen := x.gen, group := none } := by
    unfold State.coreResult
    dsimp only
    rw [← hvals, groupPend_eq, ← hq0, hu1, hu0, hid]
  have hrest : u1 = { u with nextId := u.nextId + 1, waves := u1.waves } := by rw [hu1, hu0]; rfl
  refine ⟨_, _, hdef, c3, ?_, ?_, ?_, ?_⟩
  · rw [← hq]; exact h3
  · show u1.mem = _; rw [hrest]
  · show u1.sect = _; rw [hrest]
  · show u1.versions = _; rw [hrest]

/-! ## The head -/

theorem rd_eq (s : State) (w : Wave) (l : Nat) (r : Reg) : w.reg s.fresh l r = rd s w l r := rfl

/-- The checks of a head whose group names no register above the grant. -/
theorem sinkCheck_line {s : State} {c : Issue} {w : Wave} {len : BitVec 3} {is : List Instr} {next : DWord}
    (hg : s.groupAt w len c.wordPc = .ok (is, next)) (hreg : ∀ i ∈ is, illReg i w = false) {l n : Nat}
    (hr : s.route w l is = .ok (.line n)) (hcore : s.coreLanes w c.lanes is = [])
    (hclear : s.lineClear w l (64 * n) 64 = true) (hstore : hasStore is = true → s.stalled w (64 * n) = false ∧
      (s.versioned (s.gangOf w) = true → s.verRoom (s.gangOf w) (s.groupLines s w is c.lanes l).length = true)) :
    sinkCheck len s c w l = .go := by
  have hill : (is.any fun i => illReg i w) = false := List.any_eq_false.mpr fun i hi => by simp [hreg i hi]
  unfold sinkCheck
  simp only [hg, hill, hr, hcore, State.coreGroups, hclear, Bool.false_eq_true, if_false, Bool.not_true, Bool.false_or]
  cases hs : hasStore is with
  | false => simp
  | true =>
    obtain ⟨h1, h2⟩ := hstore hs
    cases hv : s.versioned (s.gangOf w) with
    | false => simp [h1]
    | true => simp [h1, h2 hv]

/-- A list to which each lane adds at most one entry. -/
theorem length_lanesFold_le {f : List Nat → Nat → List Nat} (hf : ∀ xs k, (f xs k).length ≤ xs.length + 1) (m : LaneMask) (l : Nat) :
    (((lanesOf m).filter (· ≤ l)).foldl f []).length ≤ 32 := by
  have hfold (ks : List Nat) : ∀ xs : List Nat, (ks.foldl f xs).length ≤ xs.length + ks.length := by
    induction ks with
    | nil => intro xs; simp
    | cons k ks ih =>
      intro xs
      have h1 := ih (f xs k)
      have h2 := hf xs k
      rw [List.foldl_cons, List.length_cons]
      omega
  have hlen : (lanesOf m).length ≤ 32 := by
    have := List.length_filter_le (fun l => m.getLsbD l) (List.range 32)
    rwa [List.length_range] at this
  have := hfold ((lanesOf m).filter (· ≤ l)) []
  have := List.length_filter_le (· ≤ l) (lanesOf m)
  rw [List.length_nil] at *
  omega

theorem groupLines_length (s t : State) (w : Wave) (is : List Instr) (m : LaneMask) (l : Nat) :
    (s.groupLines t w is m l).length ≤ 32 := by
  obtain ⟨f, hf⟩ : ∃ f : List Nat → Nat → List Nat, f = fun xs k => match s.route w k is with
    | .ok (.line n) => if (t.vline? w.gang n).isNone && !xs.contains n then xs ++ [n] else xs
    | _ => xs := ⟨_, rfl⟩
  have hstep (xs : List Nat) (k : Nat) : (f xs k).length ≤ xs.length + 1 := by
    rw [hf]
    dsimp only
    split
    · split <;> simp
    · omega
  have hlines : s.groupLines t w is m l = ((lanesOf m).filter (· ≤ l)).foldl f [] := by rw [hf]; rfl
  rw [hlines]
  exact length_lanesFold_le hstep m l

theorem verRoom_le {s : State} {g : Gang} {m n : Nat} (h : s.verRoom g n = true) (hm : m ≤ n) : s.verRoom g m = true := by
  unfold State.verRoom at *
  simp only [decide_eq_true_eq] at *
  omega

/-- Where every thread's group leaves the core. -/
theorem sink_leaves {s : State} {c : Issue} {w : Wave} {len : BitVec 3} {slot : BitVec 4} {floor : Floor} {is : List Instr}
    {next : DWord} (h : Issuing s c w) (ha : Allowed s (.sink len slot floor) w) (hg : s.groupAt w len c.wordPc = .ok (is, next))
    (hreg : ∀ i ∈ is, illReg i w = false) {n : Nat → Nat}
    (hl : ∀ l, c.lanes.getLsbD l = true → s.route w l is = .ok (.line (n l)) ∧ s.lineClear w l (64 * n l) 64 = true ∧
      (hasStore is = true → s.stalled w (64 * n l) = false ∧ (s.versioned (s.gangOf w) = true → s.verRoom (s.gangOf w) 32 = true))) :
    ∃ t w', exec (.sink len slot floor) s = .next t ∧ t.wave? w.id = some w' ∧ RegsKept w w' [] ∧ w'.xstat = w.xstat ∧
      t.mem = s.mem ∧ t.sect = s.sect ∧ t.l1 = s.l1 ∧ ∀ l, c.lanes.getLsbD l = true → (w'.thread l).pc = next ∧
        ∃ batch, Sent s w c.wordPc slot.toNat floor batch is l (n l) t w' := by
  have hcore : s.coreLanes w c.lanes is = [] := by
    refine List.filter_eq_nil_iff.mpr fun l hm => ?_
    rw [(hl l (mem_lanesOf.mp hm).2).1]
    simp
  have hgo : ChecksGo s { check := sinkCheck len, act := sinkAct len slot floor, always := true } c w := fun l hm => by
    obtain ⟨hr, hclear, hst⟩ := hl l hm
    exact sinkCheck_line hg hreg hr hcore hclear fun hs =>
      ⟨(hst hs).1, fun hv => verRoom_le ((hst hs).2 hv) (groupLines_length ..)⟩
  obtain ⟨u, v, hfold, hcar, hmem, hsect, hl1, hsent, -⟩ :=
    sendGroups_sent slot.isLt c.wordPc floor s.nextId (lanesOf c.lanes) { s with nextId := s.nextId + 1 } w (lanesOf_nodup _)
      (fun l hm => ⟨(mem_lanesOf.mp hm).1, h.lt (mem_lanesOf.mp hm).2, (hl l (mem_lanesOf.mp hm).2).1⟩) (h.carried.congr rfl rfl)
  have hact : sinkAct len slot floor s c w c.lanes = u.modCur fun c => { c with nextPc := next } := by
    unfold sinkAct
    simp only [hg, hcore, State.coreGroups, List.foldl_nil, State.newId]
    rw [hfold]
  obtain ⟨t, w', ht, hw', hregs, hflags, hpend, hthreads, hrest⟩ := hcar.ends h next
  refine ⟨t, w', ?_, hw', hregs, hflags, ?_, ?_, ?_, fun l hm => ?_⟩
  · show runWord _ _ s = _
    rw [runWord_next h ha hgo fun _ => rfl, ← ht]
    exact congrArg (fun x => Host.Outcome.next (State.finishIssue x)) hact
  · rw [hrest]; exact hmem
  · rw [hrest]; exact hsect
  · rw [hrest]; exact hl1
  · have hth := hthreads l hm
    obtain ⟨pid, id, hres, hin⟩ := hsent l (mem_lanesOf.mpr ⟨lt_of_mask hm, hm⟩)
    refine ⟨by rw [hth], s.nextId, pid, id, ⟨hpend _ hres.mem, ?_⟩, by rw [hrest]; exact hin⟩
    rw [hth]
    exact ⟨hres.slot.clear, hres.slot.owner⟩

/-- A thread whose group runs in the core. -/
theorem sink_stays {s u : State} {c : Issue} {w : Wave} {len : BitVec 3} {slot : BitVec 4} {floor : Floor} {is : List Instr}
    {next : DWord} (h : Issuing s c w) (ha : Allowed s (.sink len slot floor) w) (hg : s.groupAt w len c.wordPc = .ok (is, next))
    (hreg : ∀ i ∈ is, illReg i w = false) {l : Nat} {x : GroupProg} (hl : c.lanes = laneBit l) (hr : s.route w l is = .ok .core)
    (hrun : State.coreGroup w l (is.drop (s.groupStart w l is).done) (s.groupStart w l is) s = (.done x, u)) :
    ∃ t w', exec (.sink len slot floor) s = .next t ∧ t.wave? w.id = some w' ∧ RegsKept w w' [] ∧ w'.xstat = w.xstat ∧
      t.mem = u.mem ∧ t.sect = u.sect ∧ t.versions = u.versions ∧ (w'.thread l).pc = next ∧
      HasResult w' l slot.toNat (coreResultOf u.nextId l slot.toNat is x) := by
  have hmine : c.lanes.getLsbD l = true := by
    have hlow := lowest_mem h.lanes
    rw [hl, getLsbD_laneBit] at hlow
    rw [hl, getLsbD_laneBit]
    simp only [Bool.and_eq_true, decide_eq_true_eq] at hlow ⊢
    exact ⟨by omega, trivial⟩
  have h32 := lt_of_mask hmine
  have hcore : s.coreLanes w c.lanes is = [l] := by
    unfold State.coreLanes
    rw [hl, lanesOf_laneBit h32, List.filter_cons_of_pos (by rw [hr])]
    rfl
  have hgroups : State.coreGroups is w [l] s = ([(l, .done x)], u) := by
    unfold State.coreGroups
    simp only [hrun, State.coreGroups]
  have hill : (is.any fun i => illReg i w) = false := List.any_eq_false.mpr fun i hi => by simp [hreg i hi]
  have hgo : ChecksGo s { check := sinkCheck len, act := sinkAct len slot floor, always := true } c w := fun k hm => by
    obtain rfl : k = l := by
      rw [hl, getLsbD_laneBit] at hm
      simp only [Bool.and_eq_true, decide_eq_true_eq] at hm
      exact hm.2
    show sinkCheck len s c w k = .go
    unfold sinkCheck
    simp [hg, hill, hr, hcore, hgroups]
  obtain ⟨hcur, hwaves⟩ := coreGroup_kept w l _ _ s hrun
  obtain ⟨v, -, hcar⟩ := h.carried.rung hwaves hcur
  obtain ⟨u1, v1, hres, hcar1, hhas, hmem, hsect, hver⟩ := coreResult_done slot.isLt h32 (h.lt hmine) is x hcar
  have hact : sinkAct len slot floor s c w c.lanes =
      State.modCur { u1 with nextId := u1.nextId + 1 } fun c => { c with nextPc := next } := by
    unfold sinkAct
    simp only [hg, hcore, hgroups, List.foldl_cons, List.foldl_nil, State.newId]
    rw [hl, lanesOf_laneBit h32, List.foldl_cons, List.foldl_nil, sendGroup_core hr, hres]
  obtain ⟨t, w', ht, hw', hregs, hflags, hpend, hthreads, hrest⟩ :=
    Carried.ends (u := { u1 with nextId := u1.nextId + 1 }) h (hcar1.congr rfl rfl) next
  have hth := hthreads l hmine
  refine ⟨t, w', ?_, hw', hregs, hflags, ?_, ?_, ?_, by rw [hth], hpend _ hhas.mem, ?_⟩
  · show runWord _ _ s = _
    rw [runWord_next h ha hgo fun _ => rfl, ← ht]
    exact congrArg (fun x => Host.Outcome.next (State.finishIssue x)) hact
  · rw [hrest]; exact hmem
  · rw [hrest]; exact hsect
  · rw [hrest]; exact hver
  · rw [hth]
    exact ⟨hhas.slot.clear, hhas.slot.owner⟩

/-- Settles O26: `sink_leaves` where the groups leave the core, `sink_stays` where one runs in it. -/
theorem sinkResults : Obligations.SinkResults := by
  intro s c w len slot floor is next _ h ha hg hreg
  refine ⟨fun n hl => ?_, fun l x u hl hr hrun => ?_⟩
  · obtain ⟨t, w', hexec, hw', hregs, hflags, hmem, hsect, hl1, hlanes⟩ := sink_leaves h ha hg hreg hl
    refine ⟨t, w', hexec, hw', hregs, hflags, hmem, hsect, hl1, fun l hm => ?_⟩
    obtain ⟨hpc, batch, pid, id, hres, hin⟩ := hlanes l hm
    exact ⟨hpc, hres.slot.clear, _, hres.mem, rfl, rfl, rfl, rfl, rfl, hres.slot.owner, _, hin, rfl, rfl, rfl, rfl, rfl, rfl, rfl,
      rfl, rfl, rfl, rfl⟩
  · obtain ⟨t, w', hexec, hw', hregs, hflags, hmem, hsect, hver, hpc, hres⟩ := sink_stays h ha hg hreg hl hr hrun
    exact ⟨t, w', hexec, hw', hregs, hflags, hmem, hsect, hver, hpc, hres.slot.clear, _, hres.mem, rfl, rfl, rfl, rfl,
      hres.slot.owner, rfl, rfl, rfl⟩

end Sys2Proof.Machine
end

section
/-! The release of held threads where no full-empty wait is met (R111, R221, R223): `Calm` says that no gang changes, no result becomes
outstanding, and the threads that wait on granules stay held. -/

namespace Sys2Proof.Machine
open Sys2Proof.Claims

/-- A wave whose full-empty waits, and outstanding results, a release leaves alone. -/
structure CalmWave (v v' : Wave) : Prop where
  id   : v'.id = v.id
  gang : v'.gang = v.gang
  pend : v'.pend = v.pend
  held : ∀ l x, (v.thread l).st = .held x → x.forFe = true → v'.thread l = { v.thread l with v := (v'.thread l).v }

theorem CalmWave.refl (v : Wave) : CalmWave v v := ⟨rfl, rfl, rfl, fun _ _ _ _ => rfl⟩

theorem CalmWave.trans {a b c : Wave} (h : CalmWave a b) (h' : CalmWave b c) : CalmWave a c where
  id := h'.id.trans h.id
  gang := h'.gang.trans h.gang
  pend := h'.pend.trans h.pend
  held l x hx hf := by
    have hb := h.held l x hx hf
    have hc := h'.held l x (by rw [hb]; exact hx) hf
    rw [hb] at hc
    rw [hc]

/-- Threads released from holds that are no full-empty waits. -/
theorem calm_release (v : Wave) {p : Hold → Bool} (hfe : ∀ f, p (.fe f) = false) (hmate : ∀ l, p (.feMate l) = false) :
    CalmWave v (v.release (v.heldBy p)) where
  id := rfl
  gang := rfl
  pend := rfl
  held l x hx hf := by
    rw [Wave.release, thread_mapLanes, if_neg]
    rintro ⟨hl, -⟩
    obtain ⟨y, hy, hpy⟩ := heldBy_held hl
    obtain rfl : x = y := ThreadSt.held.inj (hx.symm.trans hy)
    cases x with
    | fe f => rw [hfe f] at hpy; cases hpy
    | feMate k => rw [hmate k] at hpy; cases hpy
    | _ => cases hf

/-- A wave that differs in what concerns no hold. -/
theorem CalmWave.of_threads {v v' : Wave} (hi : v'.id = v.id) (hg : v'.gang = v.gang) (hp : v'.pend = v.pend)
    (ht : ∀ l, v'.thread l = { v.thread l with v := (v'.thread l).v }) : CalmWave v v' := ⟨hi, hg, hp, fun l _ _ _ => ht l⟩

theorem calm_testK (w : Wave) (k : Mask) : CalmWave w (w.testK k) := by
  unfold Wave.testK
  dsimp only
  split
  · refine CalmWave.trans (b := w.setK (w.heldBy (· == .waitk k)) k fun _ => false) (.of_threads rfl rfl rfl fun _ => rfl) ?_
    exact calm_release (w.setK (w.heldBy (· == .waitk k)) k fun _ => false) (p := (· == .waitk k)) (fun _ => rfl) fun _ => rfl
  · exact .refl w

theorem calm_testMasks (w : Wave) : CalmWave w w.testMasks := by
  unfold Wave.testMasks
  generalize List.finRange 12 = ks
  induction ks generalizing w with
  | nil => exact .refl w
  | cons k ks ih => exact (calm_testK w k).trans (ih _)

theorem calm_testMonitor (w : Wave) : CalmWave w w.testMonitor := by
  have hrel : CalmWave w (w.release (w.heldBy (· == .waitm))) := calm_release w (fun _ => rfl) fun _ => rfl
  unfold Wave.testMonitor
  dsimp only
  split
  · exact .refl w
  · split
    · split
      · exact hrel.trans (.of_threads rfl rfl rfl fun _ => rfl)
      · exact .refl w
    · exact hrel

theorem calm_raise (w : Wave) (t : Nat) : CalmWave w (w.raise t) := by
  unfold Wave.raise
  split
  · exact .refl w
  · refine .of_threads rfl rfl rfl fun l => ?_
    simp only [Wave.thread, List.getD_eq_getElem?_getD, List.getElem?_map]
    cases w.threads[l]? <;> rfl

/-! ## The state -/

/-- A release in which no full-empty access is performed. -/
structure Calm (s t : State) : Prop where
  settled : Settled s t
  gangs   : t.gangs = s.gangs
  waves   : List.Forall₂ CalmWave s.waves t.waves

theorem Calm.refl (s : State) : Calm s s := ⟨.refl s, rfl, forall₂_refl CalmWave.refl _⟩

theorem Calm.trans {a b c : State} (h : Calm a b) (h' : Calm b c) : Calm a c :=
  ⟨h.settled.trans h'.settled, h'.gangs.trans h.gangs, forall₂_trans (R := CalmWave) (fun _ _ _ => CalmWave.trans) h.waves h'.waves⟩

/-- No thread of the gang waits for a full-empty access that could be performed. -/
def NoneReady (gid : Nat) (s : State) : Prop :=
  ∀ v ∈ s.waves, v.gang = gid → ∀ l f, (v.thread l).waits (.fe f) → ∀ g, s.gang? gid = some g → g.feReady f = false

theorem NoneReady.calm {gid : Nat} {s t : State} (h : NoneReady gid s) (hc : Calm s t) : NoneReady gid t := by
  intro v' hv' hg l f hf g hgang
  obtain ⟨v, hv, hk⟩ := forall₂_mem hc.settled.waves hv'
  refine h v hv (hk.gang.symm.trans hg) l f (hk.waits hf) g ?_
  rwa [State.gang?, hc.gangs] at hgang

theorem feWaits_gang {s : State} {gid : Nat} {x : Wave × Nat × FeWait} (h : x ∈ s.feWaits gid) : x.1.gang = gid := by
  simp only [State.feWaits, State.wavesOf, List.mem_flatMap, List.mem_filter, List.mem_filterMap, List.mem_range] at h
  obtain ⟨w, ⟨-, hg⟩, l, -, h⟩ := h
  split at h
  · cases h
    exact beq_iff_eq.mp hg
  · cases h

theorem testGranules_none {gid : Nat} {s : State} (h : NoneReady gid s) : ∀ n, State.testGranules gid n s = s
  | 0 => rfl
  | n + 1 => by
    unfold State.testGranules
    split
    · rfl
    · next g hg =>
      have hnone : (s.feWaits gid).filter (fun x => g.feReady x.2.2) = [] := List.filter_eq_nil_iff.mpr fun x hx => by
        obtain ⟨hv, hl⟩ := feWaits_mem hx
        simp [h x.1 hv (feWaits_gang hx) x.2.1 x.2.2 (waits_held hl nofun) g hg]
      simp [hnone, firstTurns]

/-- The waves of a gang changed, each calmly. -/
theorem calm_modBy {s : State} {p : Wave → Bool} {f : Wave → Wave} (hs : Settled s { s with waves := modBy s.waves p f })
    (hf : ∀ v, CalmWave v (f v)) : Calm s { s with waves := modBy s.waves p f } := by
  refine ⟨hs, rfl, forall₂_map (fun v => ?_) s.waves⟩
  split
  · exact hf v
  · exact .refl v

theorem calm_testBarriers (s : State) (gid : Nat) : Calm s (s.testBarriers gid) :=
  calm_modBy (testBarriers_settled s gid) fun v => calm_release v (fun _ => rfl) fun _ => rfl

theorem calm_testRinks (s : State) (gid : Nat) : Calm s (s.testRinks gid) := by
  have hs := testRinks_settled s gid
  unfold State.testRinks at hs ⊢
  split
  · exact .refl s
  · next g hg =>
    rw [hg] at hs
    exact calm_modBy hs fun v => calm_release v (fun _ => rfl) fun _ => rfl

theorem settleOnce_calm {gid : Nat} {s : State} (h : NoneReady gid s) : Calm s (s.settleOnce gid) := by
  have h1 : Calm s { s with waves := modBy s.waves (fun w => w.gang == gid) fun w => w.testMonitor.testMasks } :=
    calm_modBy (settle_waves_settled s gid) fun v => (calm_testMonitor v).trans (calm_testMasks _)
  have h2 := (h1.trans (calm_testBarriers _ gid)).trans (calm_testRinks _ gid)
  unfold State.settleOnce
  dsimp only
  rw [testGranules_none (h.calm h2)]
  exact h2

theorem settleN_calm {gid : Nat} : ∀ (n : Nat) {s : State}, NoneReady gid s → Calm s (State.settleN gid n s)
  | 0, s, _ => .refl s
  | n + 1, _, h => (settleOnce_calm h).trans (settleN_calm n (h.calm (settleOnce_calm h)))

theorem settle_calm {gid : Nat} {s : State} (h : NoneReady gid s) : Calm s (s.settle gid) := by
  unfold State.settle
  split
  · exact .refl s
  · split
    · exact .refl s
    · exact settleN_calm _ h

theorem testGrants_calm (t : Nat) : ∀ (n : Nat) (s : State), Calm s (State.testGrants t n s)
  | 0, s => .refl s
  | n + 1, s => by
    have hs := testGrants_settled t 1 s
    unfold State.testGrants at hs ⊢
    split
    · exact .refl s
    · next wid need seq hx =>
      rw [hx] at hs
      refine Calm.trans (calm_modBy hs fun v => ?_) (testGrants_calm t n _)
      exact (calm_release v (fun _ => rfl) fun _ => rfl).trans (calm_raise _ need)

end Sys2Proof.Machine
end

section
/-! A word that holds threads by full-empty accesses, or whose own effect releases some (R111, R221): what the end of its issue leaves. -/

namespace Sys2Proof.Machine
open Sys2Proof.Claims

/-- The issue `c` in which the threads of `ks` are held as `H` says. -/
def Issue.holding (c : Issue) (ks : List Nat) (H : Nat → Hold) : Issue := { c with holds := ks.map fun k => (k, H k) }

theorem Issue.holding_nil {s : State} {c : Issue} {w : Wave} (h : Issuing s c w) (H : Nat → Hold) : c.holding [] H = c := by
  unfold Issue.holding
  rw [List.map_nil, ← h.holds]

/-- A thread that issued, after the issue. -/
def Thread.after (c : Issue) (ks : List Nat) (H : Nat → Hold) (l : Nat) (t : Thread) : Thread :=
  if l ∈ ks then { t with pc := c.nextPc, count := 0, commitDone := false, st := .held (H l), todo := [] }
  else { t with pc := c.nextPc, count := 0, commitDone := false }

theorem holding_rest {s : State} {c : Issue} {w : Wave} (h : Issuing s c w) {ks : List Nat} (hk : ks.Nodup) (H : Nat → Hold)
    (l : Nat) : (c.holding ks H).rest l = if l ∈ ks then [.hold (H l)] else [] := by
  have hfilter : (ks.map fun k => (k, H k)).filter (fun x => x.1 == l) = if l ∈ ks then [(l, H l)] else [] := by
    induction ks with
    | nil => rfl
    | cons k ks ih =>
      obtain ⟨hnot, hk'⟩ := List.nodup_cons.mp hk
      rw [List.map_cons, List.filter_cons, ih hk']
      by_cases hkl : k = l
      · subst hkl
        simp [hnot]
      · simp [hkl, Ne.symm hkl]
  unfold Issue.rest Issue.holding
  dsimp only
  rw [hfilter, h.leaves]
  split <;> rfl

theorem advance_holding {s : State} {c : Issue} {w : Wave} (h : Issuing s c w) {ks : List Nat} (hk : ks.Nodup) (H : Nat → Hold)
    (v : Wave) : v.advance (c.holding ks H) = v.mapLanes c.lanes (Thread.after c ks H) := by
  have hact : (c.holding ks H).acting = c.lanes := acting_of (c := c.holding ks H) h.traps h.xlates h.waits
  unfold Wave.advance
  rw [hact]
  congr 1
  funext l t
  have hstays : (c.holding ks H).stays = 0 := h.stays
  have hparks : (c.holding ks H).parks = [] := h.parks
  have htargets : (c.holding ks H).targets = [] := h.targets
  have hexits : (c.holding ks H).exits = 0 := h.exits
  have hnext : (c.holding ks H).nextPc = c.nextPc := rfl
  rw [hstays, hparks, htargets, hexits, hnext, holding_rest h hk]
  unfold Thread.after
  by_cases hl : l ∈ ks
  · simp [hl, Thread.goOn]
  · simp [hl]

theorem issued_holding_thread {s : State} {c : Issue} {w : Wave} (h : Issuing s c w) {ks : List Nat} (hk : ks.Nodup) (H : Nat → Hold)
    (v : Wave) (l : Nat) : (Wave.issued (c.holding ks H) v).thread l =
      if c.lanes.getLsbD l = true ∧ l < v.threads.length then (v.thread l).after c ks H l else v.thread l := by
  rw [issued_thread, advance_holding h hk, thread_mapLanes]

/-- What a thread waits for after the issue: what it waited for before, or what the word asks of it. -/
theorem waits_issued {s : State} {c : Issue} {w : Wave} (h : Issuing s c w) {ks : List Nat} (hk : ks.Nodup) {H : Nat → Hold}
    {v : Wave} {l : Nat} {x : Hold} (hx : ((Wave.issued (c.holding ks H) v).thread l).waits x) :
    (v.thread l).waits x ∨ l ∈ ks ∧ x = H l := by
  rw [issued_holding_thread h hk] at hx
  split at hx
  · unfold Thread.after at hx
    split at hx
    · next hl =>
      obtain ⟨-, hst | ⟨-, hmem⟩⟩ := hx
      · exact .inr ⟨hl, (ThreadSt.held.inj hst).symm⟩
      · cases hmem
    · exact .inl hx
  · exact .inl hx

/-! ## The state before the release -/

/-- The word has had its effect on the state, `A`; held threads may have been released since, `T`, in which the issue holds the threads
of `ks` by full-empty accesses. -/
structure Holding (s A T : State) (c : Issue) (w v : Wave) (ks : List Nat) (H : Nat → Hold) : Prop where
  issuing : Issuing s c w
  waves   : A.waves = s.waves
  settled : Settled A { T with cur := A.cur }
  cur     : T.cur = some (c.holding ks H)
  wave    : T.wave? w.id = some v
  kept    : WaveKept A w v
  nodup   : ks.Nodup
  fe      : ∀ k ∈ ks, (H k).forFe = true

section
variable {s A T : State} {c : Issue} {w v : Wave} {ks : List Nat} {H : Nat → Hold} (h : Holding s A T c w v ks H)
include h

theorem Holding.runs {l : Nat} (hl : c.lanes.getLsbD l = true) : v.thread l = { w.thread l with v := (v.thread l).v } :=
  h.kept.goes (h.issuing.runs l hl)

theorem Holding.thread (l : Nat) : (Wave.issued (c.holding ks H) v).thread l =
    if c.lanes.getLsbD l = true then (v.thread l).after c ks H l else v.thread l := by
  rw [issued_holding_thread h.issuing h.nodup]
  by_cases hl : c.lanes.getLsbD l = true
  · rw [if_pos ⟨hl, h.kept.length ▸ h.issuing.lt hl⟩, if_pos hl]
  · rw [if_neg fun e => hl e.1, if_neg hl]

/-- A thread that waits for something else than a full-empty access waited for it before the word. -/
theorem Holding.waits {l : Nat} {x : Hold} (hx : x.forFe = false) (hw : ((Wave.issued (c.holding ks H) v).thread l).waits x) :
    (w.thread l).waits x := by
  rcases waits_issued h.issuing h.nodup hw with e | ⟨hl, e⟩
  · exact h.kept.waits e
  · rw [e, h.fe l hl] at hx
    cases hx

/-- The frame of the word, from what the release after it leaves. -/
theorem Holding.frame {t : State} {w' : Wave} (hE : Ended T (Wave.issued (c.holding ks H) v) t w') : WordFrame A c w t w' := by
  have hid : (Wave.issued (c.holding ks H) v).id = w.id := by rw [issued_shape]; exact h.kept.id
  have hgr : (Wave.issued (c.holding ks H) v).grant = v.grant := by rw [issued_shape]
  have hkept : WaveKept A (Wave.issued (c.holding ks H) v) w' :=
    WaveKept.mono h.settled (WaveKept.congr (a := T) (b := { T with cur := A.cur }) rfl hE.kept)
  refine ⟨?rest, ?gangs, hid ▸ hE.mine, fun id x hne hx => ?others, ?own, fun l hl => ?there, ?grant, ?monitor, fun p hp => ?pend⟩
  case rest =>
    have := hE.rest
    have hT := h.settled.rest
    rw [this]
    obtain ⟨ws, gs, f, p, n, e⟩ : ∃ ws gs f p n, ({ T with cur := none } : State) =
        { A with cur := none, waves := ws, gangs := gs, fresh := f, picks := p, nextId := n } :=
      ⟨_, _, _, _, _, congrArg (fun x : State => { x with cur := none }) hT⟩
    exact congrArg (fun x : State => { x with waves := t.waves, gangs := t.gangs, fresh := t.fresh, picks := t.picks, nextId := t.nextId }) e
  case gangs =>
    exact forall₂_trans (R := GangKept A) (fun _ _ _ => GangKept.trans) h.settled.gangs
      (forall₂_imp (S := GangKept A) (fun _ _ k => GangKept.mono h.settled (k.congr rfl)) hE.gangs)
  case others =>
    obtain ⟨y, hy, hk⟩ := find?_forall₂ h.settled.waves hx
    obtain ⟨x', hx', hk'⟩ := hE.others id y (hid.symm ▸ hne) hy
    exact ⟨x', hx', hk.trans (WaveKept.mono h.settled (WaveKept.congr (a := T) (b := { T with cur := A.cur }) rfl hk'))⟩
  case own =>
    rw [hkept.rest, issued_shape, h.kept.rest]
  case there =>
    have h1 := h.kept.threads l
    have h2 := hkept.threads l
    rw [h.thread, if_neg (by simp [hl])] at h2
    exact h1.trans (h2.withV (w.thread l).v)
  case grant =>
    refine ⟨h.kept.grant.1.trans (hgr ▸ hkept.grant.1), ?_⟩
    rcases hkept.grant.2 with e | e
    · rcases h.kept.grant.2 with e' | e'
      · exact .inl (e.trans (hgr.trans e'))
      · exact .inr e'
    · exact .inr (hid ▸ e)
  case monitor =>
    have hm : (Wave.issued (c.holding ks H) v).monitor = v.monitor := by rw [issued_shape]
    rcases hkept.monitor with e | ⟨e, l, hl⟩
    · rcases h.kept.monitor with e' | ⟨e', k⟩
      · exact .inl (e.trans (hm.trans e'))
      · exact .inr ⟨e.trans (hm.trans e'), k⟩
    · exact .inr ⟨e, l, h.waits rfl hl⟩
  case pend =>
    obtain ⟨ps, hps, -⟩ := h.kept.pend
    obtain ⟨qs, hqs, -⟩ := hkept.pend
    refine ⟨p, ?_, rfl⟩
    rw [hqs, issued_shape, List.mem_append]
    left
    show p ∈ v.pend
    rw [hps]
    exact List.mem_append_left _ hp

/-- What the word leaves of the wave's registers, masks and flags. -/
theorem Holding.keeps {t : State} {w' : Wave} (hE : Ended T (Wave.issued (c.holding ks H) v) t w') :
    RegsKept w w' [] ∧ MaskKept w w' ∧ w'.xstat = w.xstat ∧ GenKept c w w' := by
  have hv (l : Nat) : ((Wave.issued (c.holding ks H) v).thread l).v = (v.thread l).v ∧
      ((Wave.issued (c.holding ks H) v).thread l).gen = (v.thread l).gen := by
    rw [h.thread]
    unfold Thread.after
    split
    · split <;> exact ⟨rfl, rfl⟩
    · exact ⟨rfl, rfl⟩
  have hgr : (Wave.issued (c.holding ks H) v).grant = v.grant := by rw [issued_shape]
  refine ⟨fun l r _ => ?_, fun k l => ?_, ?_, fun l _ => ?_⟩
  · have hraw : (Wave.issued (c.holding ks H) v).raw l r = v.raw l r := raw_congr (by rw [issued_shape]) (hv l).1 r
    have hle := hE.kept.grant.1
    rcases hE.kept.raw l r with e | ⟨h1, h2, h3⟩
    · rcases h.kept.raw l r with e' | ⟨h1, h2, h3⟩
      · exact .inl (e.trans (hraw.trans e'))
      · exact .inr ⟨h1.trans_le (hgr ▸ hle), h2, e.trans (hraw.trans h3)⟩
    · rw [hgr] at h1 h2
      refine .inr ⟨h.kept.grant.1.trans_lt h1, ?_, h3⟩
      cases r with
      | v n =>
        have := h.kept.grant.1
        simp only [aboveGrant, decide_eq_true_eq] at h2 ⊢
        omega
      | s n => cases h2
  · have hk : (Wave.issued (c.holding ks H) v).kbit k l = v.kbit k l := by rw [issued_shape]; rfl
    rcases hE.kept.masks k l with e | ⟨hw, e⟩
    · rcases h.kept.masks k l with e' | ⟨hw, e'⟩
      · exact .inl (e.trans (hk.trans e'))
      · exact .inr ⟨hw, e.trans (hk.trans e')⟩
    · exact .inr ⟨h.waits rfl hw, e⟩
  · rw [hE.kept.xstat, issued_shape]
    exact h.kept.xstat
  · rw [hE.kept.gen, (hv l).2, h.kept.gen]

/-- A thread of the issue that the word does not hold goes on. -/
theorem Holding.goes {t : State} {w' : Wave} (hE : Ended T (Wave.issued (c.holding ks H) v) t w') {l : Nat}
    (hl : c.lanes.getLsbD l = true) (hk : l ∉ ks) :
    w'.thread l = { w.thread l with pc := c.nextPc, count := 0, commitDone := false, v := (w'.thread l).v } := by
  have hx : (Wave.issued (c.holding ks H) v).thread l =
      { w.thread l with pc := c.nextPc, count := 0, commitDone := false, v := (v.thread l).v } := by
    rw [h.thread, if_pos hl, Thread.after, if_neg hk, h.runs hl]
  have := hE.kept.goes (l := l) (by rw [hx]; exact h.issuing.runs l hl)
  rw [hx] at this
  exact this

/-- A thread that the word holds stays held where nothing releases it. -/
theorem Holding.stays {w' : Wave} (hc : CalmWave (Wave.issued (c.holding ks H) v) w') {l : Nat}
    (hl : c.lanes.getLsbD l = true) (hk : l ∈ ks) :
    w'.thread l = { w.thread l with
      pc := c.nextPc, count := 0, commitDone := false, st := .held (H l), todo := [], v := (w'.thread l).v } := by
  have hx : (Wave.issued (c.holding ks H) v).thread l = { w.thread l with
      pc := c.nextPc, count := 0, commitDone := false, st := .held (H l), todo := [], v := (v.thread l).v } := by
    rw [h.thread, if_pos hl, Thread.after, if_pos hk, h.runs hl]
  have := hc.held l (H l) (by rw [hx]) (h.fe l hk)
  rw [hx] at this
  exact this

/-- The end of the issue settles the state in which its threads go on or are held. -/
theorem Holding.finish : Settled ((({ T with cur := none } : State).modWave w.id (Wave.issued (c.holding ks H))).freshen)
    T.finishIssue := by
  have hid : (c.holding ks H).wave = w.id := h.issuing.waveId
  have := finishIssue_settled h.cur (hid ▸ h.wave) h.issuing.traps h.issuing.xlates h.issuing.waits
  unfold State.issued at this
  rwa [hid] at this

end

theorem issued_id (c : Issue) (v : Wave) : (Wave.issued c v).id = v.id := by rw [issued_shape]
theorem issued_gang (c : Issue) (v : Wave) : (Wave.issued c v).gang = v.gang := by rw [issued_shape]

/-- The end of an issue that holds no thread. -/
theorem Holding.ended {s A T : State} {c : Issue} {w v : Wave} {H : Nat → Hold} (h : Holding s A T c w v [] H) :
    ∃ w', Ended T (Wave.issued (c.holding [] H) v) T.finishIssue w' := by
  have hmild : Mild (Wave.issued (c.holding [] H)) := by rw [Issue.holding_nil h.issuing]; exact h.issuing.mild
  exact settled_ended hmild h.wave h.finish

/-- The release at the end of an issue: the gang's holds, then the track's XACQs. -/
theorem finishIssue_eq {u : State} {c : Issue} {w : Wave} (hc : u.cur = some c) (hw : u.wave? c.wave = some w)
    (ht : c.traps = []) (hx : c.xlates = []) (hn : c.waits = 0) :
    ∃ t n, u.finishIssue = State.testGrants t n ((u.issued c).settle w.gang) := by
  have hfun : (fun w : Wave => (let w := (w.advance c).holdXlates c
      let w := if c.acting != 0 && w.lead &&& c.lanes != 0 then { w with lead := c.newLead } else w
      if c.yields && w.prog && c.acting != 0 then { w with yieldTrk := true, yieldGrp := true } else w).fixLead) =
      Wave.issued c := by
    funext v; simp only [holdXlates_nil hx, Wave.issued]
  unfold State.finishIssue
  rw [hc]
  simp only [hw, waiting_of_waits hn, hx, taken_nil ht, List.foldl_nil, takeTraps_nil]
  simp only [bne_self_eq_false, Bool.false_eq_true, ↓reduceIte]
  rw [modWave_modWave _ _ _ _ (fun v => by split <;> split <;> rfl), hfun]
  split
  · exact ⟨_, _, rfl⟩
  · exact ⟨0, 0, rfl⟩

theorem finishIssue_calm {u : State} {c : Issue} {w : Wave} (hc : u.cur = some c) (hw : u.wave? c.wave = some w)
    (ht : c.traps = []) (hx : c.xlates = []) (hn : c.waits = 0) (hr : NoneReady w.gang (u.issued c)) :
    Calm (u.issued c) u.finishIssue := by
  obtain ⟨t, n, he⟩ := finishIssue_eq hc hw ht hx hn
  rw [he]
  exact (settle_calm hr).trans (testGrants_calm _ _ _)

theorem not_isXacq {x : Hold} (h : x.forFe = true) : ¬x.isXacq := by
  cases x with
  | xacq _ _ => cases h
  | _ => exact fun hp => hp

theorem find?_calm {id : Nat} {v : Wave} : ∀ {xs ys : List Wave}, List.Forall₂ CalmWave xs ys →
    xs.find? (fun w => w.id == id) = some v → ∃ v', ys.find? (fun w => w.id == id) = some v' ∧ CalmWave v v'
  | _, _, .nil, h => by cases h
  | x :: xs, y :: ys, .cons hxy hs, h => by
    rw [List.find?_cons] at h ⊢
    rw [hxy.id]
    split at h
    · exact ⟨y, rfl, Option.some.inj h ▸ hxy⟩
    · exact find?_calm hs h

/-- The end of an issue that holds threads by accesses none of which can be performed, no thread of the gang having waited for one. -/
theorem Holding.calm {s A T : State} {c : Issue} {w v : Wave} {ks : List Nat} {H : Nat → Hold} (h : Holding s A T c w v ks H)
    (hT : T.waves = s.waves) (hno : NoFeWait s w.gang)
    (hready : ∀ k ∈ ks, ∀ f, H k = .fe f → ∀ g, T.gang? w.gang = some g → g.feReady f = false) :
    ∃ w', Ended T (Wave.issued (c.holding ks H) v) T.finishIssue w' ∧ CalmWave (Wave.issued (c.holding ks H) v) w' := by
  obtain ⟨F, hF⟩ : ∃ F, F = Wave.issued (c.holding ks H) := ⟨_, rfl⟩
  obtain ⟨B, hB⟩ : ∃ B, B = ((({ T with cur := none } : State).modWave w.id F).freshen) := ⟨_, rfl⟩
  have hid (x : Wave) : (F x).id = x.id := hF ▸ issued_id _ x
  have hgang (x : Wave) : (F x).gang = x.gang := hF ▸ issued_gang _ x
  have hwaves : B.waves = modBy s.waves (fun x => x.id == w.id) F := by rw [hB, ← hT]; rfl
  have hold {x : Wave} (hx : x ∈ B.waves) : ∃ y ∈ s.waves, y.id = x.id ∧ y.gang = x.gang ∧
      ∀ l z, (x.thread l).waits z → (y.thread l).waits z ∨ l ∈ ks ∧ z = H l := by
    rw [hwaves] at hx
    obtain ⟨y, hy, rfl⟩ := List.mem_map.mp hx
    refine ⟨y, hy, ?_⟩
    split
    · exact ⟨(hid y).symm, (hgang y).symm, fun l z hz => waits_issued h.issuing h.nodup (hF ▸ hz)⟩
    · exact ⟨rfl, rfl, fun l z hz => .inl hz⟩
  have hnone : NoneReady w.gang B := by
    intro x hx hg l f hf g hgang
    obtain ⟨y, hy, -, hyg, hw⟩ := hold hx
    rcases hw l _ hf with e | ⟨hl, e⟩
    · exact absurd trivial (hno y hy (hyg.trans hg) l _ e)
    · exact hready l hl f e.symm g (by rw [hB] at hgang; exact hgang)
  have hcalm : Calm B T.finishIssue := by
    have hwid : (c.holding ks H).wave = w.id := h.issuing.waveId
    have hvg : v.gang = w.gang := h.kept.gang
    have he : T.issued (c.holding ks H) = B := by rw [hB, hF, State.issued, hwid]
    have := finishIssue_calm h.cur (hwid ▸ h.wave) h.issuing.traps h.issuing.xlates h.issuing.waits (by rw [he, hvg]; exact hnone)
    rwa [he] at this
  have hxacq {i : Nat} (hi : B.holding i Hold.isXacq) : T.holding i Hold.isXacq := by
    obtain ⟨x, hx, rfl, l, z, hz, hp⟩ := hi
    obtain ⟨y, hy, hyid, -, hw⟩ := hold hx
    refine ⟨y, hT ▸ hy, hyid, l, z, (hw l z hz).resolve_right ?_, hp⟩
    rintro ⟨hl, rfl⟩
    exact not_isXacq (h.fe l hl) hp
  have mono {x x' : Wave} (k : WaveKept B x x') (hc : CalmWave x x') : WaveKept T x x' :=
    { k with
      grant := ⟨k.grant.1, k.grant.2.imp_right hxacq⟩
      pend := ⟨[], by rw [hc.pend, List.append_nil], .inl rfl⟩ }
  have hfind {i : Nat} {x : Wave} (hx : B.wave? i = some x) : ∃ x', T.finishIssue.wave? i = some x' ∧ WaveKept T x x' ∧ CalmWave x x' := by
    obtain ⟨x', hx', hk⟩ := find?_forall₂ hcalm.settled.waves hx
    obtain ⟨y, hy, hc⟩ := find?_calm hcalm.waves hx
    obtain rfl : x' = y := Option.some.inj (hx'.symm.trans hy)
    exact ⟨x', hx', mono hk hc, hc⟩
  have hwave (i : Nat) : B.wave? i = (T.wave? i).map fun x => if i = w.id then F x else x := by
    rw [hB]; exact wave?_modWave (s := { T with cur := none }) hid
  obtain ⟨w', hw', hk, hc⟩ := hfind (i := w.id) (x := F v) (by rw [hwave, h.wave]; simp)
  have hFid : (F v).id = w.id := (hid v).trans h.kept.id
  rw [← hF]
  refine ⟨w', ⟨?_, ?_, hFid ▸ hw', hk, fun i x hne hx => ?_⟩, hc⟩
  · rw [hcalm.settled.rest, hB]
    rfl
  · rw [hcalm.gangs, hB]
    exact forall₂_refl (GangKept.refl T) _
  · rw [hFid] at hne
    obtain ⟨x', hx', hkx, -⟩ := hfind (i := i) (x := x) (by rw [hwave, hx]; simp [hne])
    exact ⟨x', hx', hkx⟩

end Sys2Proof.Machine
end

section
/-! Scratchpad stores (R109 to R111): the granules an access touches, the turns of the lanes of a group, and the word's effect. -/

namespace Sys2Proof.Machine
open Sys2Proof.Claims

/-! ## Granules (R110) -/

theorem width_pos (z : Width) : 0 < z.bytes := by cases z <;> decide

theorem mem_granules {ea n x : Nat} (hn : 0 < n) : x ∈ granules ea n ↔ 16 * x < ea + n ∧ ea < 16 * x + 16 := by
  unfold granules
  rw [List.mem_map]
  constructor
  · rintro ⟨i, hi, rfl⟩
    rw [List.mem_range] at hi
    omega
  · rintro ⟨h1, h2⟩
    exact ⟨x - ea / 16, by rw [List.mem_range]; omega, by omega⟩

theorem isEmpty_emptyIn (g : Gang) (ea n : Nat) : g.isEmpty ea n = emptyIn g.full ea n := by
  unfold Gang.isEmpty emptyIn granules
  rw [List.all_map]
  rfl

theorem emptyIn_iff {fs : List Nat} {ea n : Nat} (hn : 0 < n) :
    emptyIn fs ea n = true ↔ ∀ x, 16 * x < ea + n → ea < 16 * x + 16 → x ∉ fs := by
  have : emptyIn fs ea n = (granules ea n).all fun x => !fs.contains x := by
    unfold emptyIn granules
    rw [List.all_map]
    rfl
  rw [this, List.all_eq_true]
  constructor
  · intro h x h1 h2
    have := h x ((mem_granules hn).mpr ⟨h1, h2⟩)
    simpa using this
  · intro h x hx
    obtain ⟨h1, h2⟩ := (mem_granules hn).mp hx
    simpa using h x h1 h2

theorem emptied_setEmpty (fs : List Nat) {ea n : Nat} (hn : 0 < n) :
    fs.filter (fun x => !(granules ea n).contains x) = emptied fs ea n := by
  unfold emptied
  congr 1
  funext x
  rw [List.contains_eq_mem]
  simp only [mem_granules hn, Bool.decide_and]

/-- What has granules that are not all empty still has once others have been filled. -/
theorem emptyIn_filled {fs : List Nat} {ea n : Nat} (hn : 0 < n) (h : emptyIn fs ea n = false) (ea' n' : Nat) :
    emptyIn (filled fs ea' n') ea n = false := by
  rw [Bool.eq_false_iff] at h ⊢
  intro he
  refine h ((emptyIn_iff hn).mpr fun x h1 h2 hx => (emptyIn_iff hn).mp he x h1 h2 ?_)
  exact List.mem_append_left _ hx

/-! ## The lanes' turns (R111) -/

/-- A lane whose granules are not empty as its turn comes finds them so after all turns. -/
theorem storeTurns_blocked {n : Nat} (hn : 0 < n) (ea : Nat → Nat) {k : Nat} : ∀ (ls : List Nat) (fs : List Nat), k ∈ ls →
    k ∉ storeTurns n ea fs ls →
    emptyIn ((storeTurns n ea fs ls).foldl (fun fs l => filled fs (ea l) n) fs) (ea k) n = false
  | l :: ls, fs, hk, hnot => by
    have hkeep (xs : List Nat) : ∀ fs, emptyIn fs (ea k) n = false →
        emptyIn (xs.foldl (fun fs l => filled fs (ea l) n) fs) (ea k) n = false := by
      induction xs with
      | nil => exact fun _ h => h
      | cons x xs ih => exact fun fs h => ih _ (emptyIn_filled hn h _ _)
    unfold storeTurns at hnot ⊢
    split
    · next he =>
      rw [if_pos he, List.mem_cons, not_or] at hnot
      rcases List.mem_cons.mp hk with rfl | hk
      · exact absurd rfl hnot.1
      · exact storeTurns_blocked hn ea ls _ hk hnot.2
    · next he =>
      rw [if_neg he] at hnot
      rcases List.mem_cons.mp hk with rfl | hk
      · exact hkeep _ _ (by simpa using he)
      · exact storeTurns_blocked hn ea ls _ hk hnot

theorem storeTurns_sub (n : Nat) (ea : Nat → Nat) : ∀ (ls fs : List Nat), storeTurns n ea fs ls ⊆ ls
  | [], _ => fun _ h => h
  | l :: ls, fs => by
    unfold storeTurns
    split
    · exact List.cons_subset_cons _ (storeTurns_sub n ea ls _)
    · exact List.subset_cons_of_subset _ (storeTurns_sub n ea ls _)

/-! ## One store (R109, R110) -/

theorem wide_lt (rd : Reg → Word) (k : Nat) (r : Reg) : wide rd k r < 2 ^ (32 * k) := by
  have hfold (rs : List Reg) : rs.foldr (fun x n => (rd x).toNat + 2 ^ 32 * n) 0 < 2 ^ (32 * rs.length) := by
    induction rs with
    | nil => exact Nat.one_pos
    | cons x rs ih =>
      have hx := (rd x).isLt
      rw [List.foldr_cons, List.length_cons, Nat.mul_succ, Nat.add_comm (32 * rs.length), Nat.pow_add]
      obtain ⟨N, hN⟩ : ∃ N, N = 2 ^ (32 * rs.length) := ⟨_, rfl⟩
      rw [← hN] at ih ⊢
      have : 2 ^ 32 * (rs.foldr (fun x n => (rd x).toNat + 2 ^ 32 * n) 0 + 1) ≤ 2 ^ 32 * N := Nat.mul_le_mul_left _ ih
      omega
  have hlen : (regs k r).length = k := by simp [regs]
  have := hfold (regs k r)
  rwa [hlen] at this

theorem wide_data (rd : Reg → Word) (z : Width) (r : Reg) :
    (BitVec.ofNat 256 (wide rd z.regCount r)).toNat = wide rd z.regCount r := by
  have hk : z.regCount ≤ 8 := by cases z <;> decide
  rw [BitVec.toNat_ofNat]
  refine Nat.mod_eq_of_lt ((wide_lt rd z.regCount r).trans_le ?_)
  exact Nat.pow_le_pow_right (by decide) (by omega)

/-- A function on gangs that concerns the bytes, poison and granules of the scratchpad alone. -/
def SpadOnly (f : Gang → Gang) : Prop := ∀ g, f g = { g with spad := (f g).spad, spadPoison := (f g).spadPoison, full := (f g).full }

theorem SpadOnly.id {f : Gang → Gang} (h : SpadOnly f) (g : Gang) : (f g).id = g.id := by rw [h g]

theorem spadPut_only (q : StoreFe) (ea n v : Nat) : SpadOnly (spadPut q ea n v) := by cases q <;> exact fun _ => rfl

theorem SpadOnly.comp {f g : Gang → Gang} (hf : SpadOnly f) (hg : SpadOnly g) : SpadOnly fun x => g (f x) := by
  intro x
  obtain ⟨y, hy⟩ : ∃ y, y = g (f x) := ⟨_, rfl⟩
  show g (f x) = { x with spad := (g (f x)).spad, spadPoison := (g (f x)).spadPoison, full := (g (f x)).full }
  have h := hg (f x)
  rw [← hy] at h ⊢
  rw [hf x] at h
  exact h

theorem SpadOnly.foldl {α : Type} {f : α → Gang → Gang} (h : ∀ a, SpadOnly (f a)) :
    ∀ ls : List α, SpadOnly fun x => ls.foldl (fun x a => f a x) x
  | [] => fun _ => rfl
  | a :: ls => (h a).comp (SpadOnly.foldl h ls)

theorem modGang_modGang (s : State) (id : Nat) (f g : Gang → Gang) (hf : ∀ x, (f x).id = x.id) :
    (s.modGang id f).modGang id g = s.modGang id fun x => g (f x) := by
  unfold State.modGang modBy
  rw [List.map_map]
  congr 1
  refine List.map_congr_left fun x _ => ?_
  by_cases hx : x.id = id <;> simp [hx, hf]

/-- The store of a lane whose access waits for nothing. -/
theorem spadStore_put {w : Wave} {z : Width} {q : StoreFe} (hq : q ≠ .waitfill) (ea x : Nat) (mates : LaneMask) (inst : Nat)
    (s : State) (l : Nat) : s.spadStore w z q ea x mates inst l = s.modGang w.gang (spadPut q ea z.bytes x) := by
  unfold State.spadStore
  cases q with
  | plain => rfl
  | clear =>
    dsimp only
    congr 1
    funext g
    show ({ g with full := g.full.filter fun x => !(granules ea z.bytes).contains x } : Gang) = _
    rw [emptied_setEmpty _ (width_pos z)]
    rfl
  | fill => rfl
  | waitfill => exact absurd rfl hq

/-- The access by which a lane of a .waitfill waits. -/
def storeWait (z : Width) (ea x : Nat) (mates : LaneMask) (inst : Nat) : FeWait :=
  { load := false, take := false, width := z, ea, reg := .s 31, data := BitVec.ofNat 256 x, mates, inst }

theorem storeWait_ready (g : Gang) (z : Width) (ea x : Nat) (mates : LaneMask) (inst : Nat) :
    g.feReady (storeWait z ea x mates inst) = emptyIn g.full ea z.bytes := isEmpty_emptyIn g ea z.bytes

theorem spadStore_waitfill {s : State} {w : Wave} {z : Width} {g : Gang} (hg : s.gang? w.gang = some g) (rd : Reg → Word) (d : Reg)
    (ea : Nat) (mates : LaneMask) (inst l : Nat) : s.spadStore w z .waitfill ea (wide rd z.regCount d) mates inst l =
      if emptyIn g.full ea z.bytes = true then s.modGang w.gang (spadPut .waitfill ea z.bytes (wide rd z.regCount d))
      else s.feHold l (storeWait z ea (wide rd z.regCount d) mates inst) := by
  have hof : s.gangOf w = g := by unfold State.gangOf; rw [hg]; rfl
  have hid : g.id = w.gang := gang?_id hg
  have hperform : s.fePerform w l (storeWait z ea (wide rd z.regCount d) mates inst) =
      s.modGang w.gang (spadPut .waitfill ea z.bytes (wide rd z.regCount d)) := by
    unfold State.fePerform
    rw [hof]
    simp only [storeWait, wide_data, Bool.false_eq_true, if_false, hid]
    rfl
  rw [← hperform, ← storeWait_ready g z ea (wide rd z.regCount d) mates inst, ← hof]
  rfl

end Sys2Proof.Machine
end

section
/-! O19: STSP (R109 to R111). -/

namespace Sys2Proof.Machine
open Sys2Proof.Claims

/-! ## Stores between which held threads are released (R221) -/

theorem Settled.modGang {s t : State} (h : Settled s t) (id : Nat) {f : Gang → Gang} (hf : SpadOnly f) :
    Settled (s.modGang id f) (t.modGang id f) := by
  refine ⟨?_, forall₂_imp (R := WaveKept s) (S := WaveKept (s.modGang id f)) (fun _ _ k => WaveKept.congr (a := s) (b := s.modGang id f) rfl k) h.waves, ?_⟩
  · have := h.rest
    unfold State.modGang
    rw [this]
  · have hone {g g' : Gang} (k : GangKept s g g') : GangKept (s.modGang id f) (if g.id == id then f g else g)
        (if g'.id == id then f g' else g') := by
      obtain ⟨hrest, hor⟩ := k
      have hid : g'.id = g.id := by rw [hrest]
      rw [hid]
      split
      · refine ⟨?_, hor.imp (fun e => by rw [e]) fun ⟨v, hv, hg, l⟩ => ⟨v, hv, hg.trans (hf.id g).symm, l⟩⟩
        have h1 := hf g'
        have h2 := hf g
        obtain ⟨y, hy⟩ : ∃ y, y = f g' := ⟨_, rfl⟩
        rw [← hy] at h1 ⊢
        rw [h1, hrest, h2]
      · exact ⟨hrest, hor⟩
    have hall : ∀ {gs gs' : List Gang}, List.Forall₂ (GangKept s) gs gs' →
        List.Forall₂ (GangKept (s.modGang id f)) (modBy gs (fun g => g.id == id) f) (modBy gs' (fun g => g.id == id) f) := by
      intro gs gs' hgs
      induction hgs with
      | nil => exact .nil
      | cons k _ ih => exact .cons (hone k) ih
    exact hall h.gangs

theorem settleGranules_settled (s : State) (gid : Nat) : Settled s (s.settleGranules gid) := by
  unfold State.settleGranules
  split
  · exact .refl s
  · split
    · exact .refl s
    · exact testGranules_settled gid _ s

theorem settleGranules_none {s : State} {gid : Nat} (h : NoFeWait s gid) : s.settleGranules gid = s := by
  have hnone : NoneReady gid s := fun v hv hg l f hf => absurd trivial (h v hv hg l _ hf)
  unfold State.settleGranules
  split
  · rfl
  · split
    · rfl
    · exact testGranules_none hnone _

/-- Effects on a gang's scratchpad, after each of which held threads are released, amount to the effects and the releases. -/
theorem puts_settled {id : Nat} {step : State → Nat → State} {f : Nat → Gang → Gang}
    (hstep : ∀ t l, step t l = (t.modGang id (f l)).settleGranules id) (hf : ∀ l, SpadOnly (f l)) :
    ∀ (ls : List Nat) {A T : State}, Settled A T →
      Settled (A.modGang id fun x => ls.foldl (fun x l => f l x) x) (ls.foldl step T)
  | [], A, T, h => by
    have : (A.modGang id fun x => x) = A := by simp [State.modGang, modBy]
    exact this.symm ▸ h
  | l :: ls, A, T, h => by
    have h1 : Settled (A.modGang id (f l)) (step T l) := hstep T l ▸ (h.modGang id (hf l)).trans (settleGranules_settled _ id)
    have h2 := puts_settled hstep hf ls h1
    rwa [modGang_modGang _ _ _ _ (hf l).id] at h2

/-- The end of a word whose effects have been `A` and releases. -/
theorem settled_returns {s A T : State} {c : Issue} {w : Wave} (hi : Issuing s c w) (hA : A.waves = s.waves) (hc : A.cur = s.cur)
    (h : Settled A T) : ∃ w', ReturningWord A c w T.finishIssue w' ∧ GenKept c w w' := by
  have hw : A.wave? w.id = some w := by
    rw [State.wave?, hA]
    exact hi.waveId ▸ hi.wave
  obtain ⟨v, hv, hk⟩ := find?_forall₂ h.waves hw
  have hcur : T.cur = A.cur := by rw [h.rest]
  have hT : ({ T with cur := A.cur } : State) = T := by rw [← hcur]
  have H : Holding s A T c w v [] fun _ => .waitm := {
    issuing := hi
    waves := hA
    settled := hT.symm ▸ h
    cur := by rw [Issue.holding_nil hi, hcur, hc, hi.cur]
    wave := hv
    kept := hk
    nodup := .nil
    fe := nofun }
  obtain ⟨w', hE⟩ := H.ended
  obtain ⟨hregs, hmask, hflags, hgen⟩ := H.keeps hE
  refine ⟨w', ⟨H.frame hE, fun l hl => ?_, hmask, hregs, hflags⟩, hgen⟩
  have := H.goes hE hl (by simp)
  rw [this]

/-! ## The word -/

/-- The store of lane `l`. -/
def lanePut (s : State) (w : Wave) (z : Width) (d a : Reg) (q : StoreFe) (l : Nat) : Gang → Gang :=
  spadPut q (rd s w l a).toNat z.bytes (wide (rd s w l) z.regCount d)

theorem lanePut_only (s : State) (w : Wave) (z : Width) (d a : Reg) (q : StoreFe) (l : Nat) : SpadOnly (lanePut s w z d a q l) :=
  spadPut_only q _ _ _

/-- The access by which lane `l` waits. -/
def laneWait (s : State) (c : Issue) (w : Wave) (z : Width) (d a : Reg) (l : Nat) : FeWait :=
  storeWait z (rd s w l a).toNat (wide (rd s w l) z.regCount d)
    (if d.isUni && a.isUni then c.lanes &&& ~~~(laneBit l) else 0) s.fresh

section
variable {s : State} {c : Issue} {w : Wave} {z : Width} {d a : Reg} {p : Scope} {r : Ord} {q : StoreFe}

theorem stsp_exec (h : Issuing s c w) (hreg : illReg (.stsp z d a p r q) w = false)
    (hgo : ∀ l, c.lanes.getLsbD l = true → SpadGoes s w l z.bytes (rd s w l a).toNat p r) :
    exec (.stsp z d a p r q) s = .next (stspAct z d a q s c w c.lanes).finishIssue := by
  refine runWord_next (op := { check := spadCheck z.bytes a p r, act := stspAct z d a q }) h ⟨rfl, hreg⟩ (fun l hl => ?_) fun _ => rfl
  obtain ⟨hsize, hal, hrel, hacq⟩ := hgo l hl
  have hfits : ¬ s.spadBytes (s.gangOf w) < (rd s w l a).toNat + z.bytes := by unfold State.spadBytes; omega
  have hea : s.spadEa a w l = (rd s w l a).toNat := rfl
  have hwait : (ordRel r && !(s.threadClear w l p) || ordAcq r && !(s.relsDone w l p)) = false := by
    cases hr : ordRel r <;> cases ha : ordAcq r <;> simp [hrel, hacq, hr, ha]
  show spadCheck z.bytes a p r s c w l = .go
  unfold spadCheck
  simp only [hea, if_neg hfits, hal, hwait, bne_self_eq_false, Bool.false_eq_true, if_false]

theorem stspAct_eq (h : Issuing s c w) : stspAct z d a q s c w c.lanes = (lanesOnce d a c).foldl (fun t l =>
    (t.spadStore w z q (rd s w l a).toNat (wide (rd s w l) z.regCount d)
      (if d.isUni && a.isUni then c.lanes &&& ~~~(laneBit l) else 0) s.fresh l).settleGranules w.gang) s := by
  have hls : lanesOf (storing d a c.lanes) = lanesOnce d a c := by
    unfold storing lanesOnce
    split
    · exact lanesOf_laneBit (lowest_mem h.lanes).1
    · rfl
  unfold stspAct
  rw [hls]
  rfl

/-- A store that waits for nothing. -/
theorem stsp_puts (h : Issuing s c w) (hq : q ≠ .waitfill) : Settled
    (s.modGang w.gang fun x => (lanesOnce d a c).foldl (fun x l => lanePut s w z d a q l x) x) (stspAct z d a q s c w c.lanes) := by
  rw [stspAct_eq h]
  exact puts_settled (f := lanePut s w z d a q) (fun t l => by rw [spadStore_put hq]; rfl) (lanePut_only s w z d a q) _ (.refl s)

/-- A .waitfill of one lane whose granules are empty. -/
theorem stsp_fills (h : Issuing s c w) {g : Gang} (hg : s.gang? w.gang = some g) {l : Nat} (hone : lanesOnce d a c = [l])
    (he : emptyIn g.full (rd s w l a).toNat z.bytes = true) : Settled
    (s.modGang w.gang fun x => [l].foldl (fun x l => lanePut s w z d a .waitfill l x) x) (stspAct z d a .waitfill s c w c.lanes) := by
  rw [stspAct_eq h, hone, List.foldl_cons, List.foldl_nil, spadStore_waitfill hg, if_pos he]
  exact settleGranules_settled _ _

/-- The full granules of a gang after the stores of several lanes. -/
theorem full_lanePuts (ls : List Nat) (x : Gang) : (ls.foldl (fun x l => lanePut s w z d a .waitfill l x) x).full =
    ls.foldl (fun fs l => filled fs (rd s w l a).toNat z.bytes) x.full := by
  induction ls generalizing x with
  | nil => rfl
  | cons l ls ih => exact ih _

/-- The turns of a .waitfill where no thread of the gang waits on granules: `B` is the state as the turns begin, `hs` those held. -/
theorem stsp_turns (hone : (d.isUni && a.isUni) = false) (h : Issuing s c w) (hno : NoFeWait s w.gang) : ∀ (ls : List Nat)
    {B : State} {g : Gang} {hs : List (Nat × Hold)}, ls.Nodup → B.waves = s.waves → B.gang? w.gang = some g →
    B.cur = some { c with holds := hs } →
    let done := storeTurns z.bytes (fun l => (rd s w l a).toNat) g.full ls
    ls.foldl (fun t l => (t.spadStore w z .waitfill (rd s w l a).toNat (wide (rd s w l) z.regCount d)
      (if d.isUni && a.isUni then c.lanes &&& ~~~(laneBit l) else 0) s.fresh l).settleGranules w.gang) B =
      { B.modGang w.gang (fun x => done.foldl (fun x l => lanePut s w z d a .waitfill l x) x) with
        cur := some { c with holds := hs ++ (ls.filter (· ∉ done)).map fun l => (l, .fe (laneWait s c w z d a l)) } }
  | [], B, g, hs, _, _, _, hcur => by
    have hmod : (B.modGang w.gang fun x => x) = B := by simp [State.modGang, modBy]
    show B = { B.modGang w.gang (fun x => x) with cur := some { c with holds := hs ++ [] } }
    rw [hmod, List.append_nil, ← hcur]
  | l :: ls, B, g, hs, hnd, hB, hg, hcur => by
    obtain ⟨hnot, hnd'⟩ := List.nodup_cons.mp hnd
    have hstay {t : State} (ht : t.waves = s.waves) : t.settleGranules w.gang = t :=
      settleGranules_none fun v hv => hno v (ht ▸ hv)
    intro done
    rw [List.foldl_cons, spadStore_waitfill hg]
    by_cases he : emptyIn g.full (rd s w l a).toNat z.bytes = true
    · have hdone : done = l :: storeTurns z.bytes (fun l => (rd s w l a).toNat) (filled g.full (rd s w l a).toNat z.bytes) ls := by
        show storeTurns _ _ _ _ = _
        rw [storeTurns, if_pos he]
      have hgang : (B.modGang w.gang (lanePut s w z d a .waitfill l)).gang? w.gang = some (lanePut s w z d a .waitfill l g) := by
        rw [gang?_modGang (f := lanePut s w z d a .waitfill l) (lanePut_only s w z d a .waitfill l).id, hg]
        simp
      have ih := stsp_turns hone h hno ls (B := B.modGang w.gang (lanePut s w z d a .waitfill l)) hnd' hB hgang hcur
      rw [if_pos he, hstay (t := B.modGang w.gang (spadPut .waitfill _ _ _)) hB]
      refine ih.trans ?_
      have hfilter : (l :: ls).filter (· ∉ done) =
          ls.filter (· ∉ storeTurns z.bytes (fun l => (rd s w l a).toNat) (filled g.full (rd s w l a).toNat z.bytes) ls) := by
        rw [hdone, List.filter_cons_of_neg (by simp)]
        refine List.filter_congr fun k hk => ?_
        have hne : k ≠ l := fun e => hnot (e ▸ hk)
        simp [hne]
      rw [hfilter, hdone, modGang_modGang _ _ _ _ (lanePut_only s w z d a .waitfill l).id]
      rfl
    · have hdone : done = storeTurns z.bytes (fun l => (rd s w l a).toNat) g.full ls := by
        show storeTurns _ _ _ _ = _
        rw [storeTurns, if_neg he]
      have hheld : B.feHold l (laneWait s c w z d a l) =
          { B with cur := some { c with holds := hs ++ [(l, .fe (laneWait s c w z d a l))] } } := by
        have hmates : (laneWait s c w z d a l).mates = 0 := by simp [laneWait, storeWait, hone]
        unfold State.feHold State.modCur
        rw [hcur, hmates]
        simp [lanesOf]
      obtain ⟨B', hB'⟩ : ∃ B', B' = { B with cur := some { c with holds := hs ++ [(l, Hold.fe (laneWait s c w z d a l))] } } := ⟨_, rfl⟩
      have ih := stsp_turns hone h hno ls (B := B') hnd' (by rw [hB']; exact hB) (by rw [hB']; exact hg) (by rw [hB'])
      have hmem : l ∉ storeTurns z.bytes (fun l => (rd s w l a).toNat) g.full ls := fun e => hnot (storeTurns_sub _ _ _ _ e)
      rw [if_neg he]
      show List.foldl _ ((B.feHold l (laneWait s c w z d a l)).settleGranules w.gang) ls = _
      rw [hheld, ← hB', hstay (by rw [hB']; exact hB), ih, hdone, List.filter_cons_of_pos (by simpa using hmem), hB']
      simp only [List.map_cons, List.append_assoc, List.singleton_append]
      rfl

/-! ## Threads held -/

theorem laneWait_data (l : Nat) : (laneWait s c w z d a l).data.toNat % 2 ^ (8 * z.bytes) =
    wide (rd s w l) z.regCount d % 2 ^ (8 * z.bytes) := by
  unfold laneWait storeWait
  dsimp only
  rw [wide_data]

/-- The turns of a group's .waitfill, where no thread of the gang waits on granules. -/
theorem waitfill_turns (h : Issuing s c w) (hreg : illReg (.stsp z d a p r .waitfill) w = false) {g : Gang}
    (hg : s.gang? w.gang = some g) (hgo : ∀ l, c.lanes.getLsbD l = true → SpadGoes s w l z.bytes (rd s w l a).toNat p r)
    (hone : (d.isUni && a.isUni) = false) (hno : NoFeWait s w.gang) :
    let done := storeTurns z.bytes (fun l => (rd s w l a).toNat) g.full (lanesOf c.lanes)
    ∃ t w', exec (.stsp z d a p r .waitfill) s = .next t ∧
      WordFrame (s.modGang w.gang fun x => done.foldl (fun x l => lanePut s w z d a .waitfill l x) x) c w t w' ∧ RegsKept w w' [] ∧
      MaskKept w w' ∧ w'.xstat = w.xstat ∧ GenKept c w w' ∧ w'.pend = w.pend ∧
      (∀ l ∈ done, w'.thread l = { w.thread l with pc := c.nextPc, count := 0, commitDone := false, v := (w'.thread l).v }) ∧
      ∀ l, c.lanes.getLsbD l = true → l ∉ done → HeldAt c w w' (.fe (laneWait s c w z d a l)) (· = l) := by
  intro done
  have hls : lanesOnce d a c = lanesOf c.lanes := by unfold lanesOnce; rw [hone]; rfl
  obtain ⟨A, hA⟩ : ∃ A, A = s.modGang w.gang fun x => done.foldl (fun x l => lanePut s w z d a .waitfill l x) x := ⟨_, rfl⟩
  obtain ⟨ks, hks⟩ : ∃ ks, ks = (lanesOf c.lanes).filter (· ∉ done) := ⟨_, rfl⟩
  obtain ⟨H, hH⟩ : ∃ H, H = fun l => Hold.fe (laneWait s c w z d a l) := ⟨_, rfl⟩
  obtain ⟨T, hT⟩ : ∃ T : State, T = { A with cur := some (c.holding ks H) } := ⟨_, rfl⟩
  have hact : stspAct z d a .waitfill s c w c.lanes = T := by
    rw [stspAct_eq h, hls, stsp_turns hone h hno (lanesOf c.lanes) (B := s) (hs := []) (lanesOf_nodup _) rfl hg
      (by rw [h.cur, ← h.holds]),
      hT, hA, hks, hH]
    rfl
  have hmem {l : Nat} : l ∈ ks ↔ c.lanes.getLsbD l = true ∧ l ∉ done := by
    rw [hks, List.mem_filter, mem_lanesOf]
    exact ⟨fun ⟨hl, hn⟩ => ⟨hl.2, by simpa using hn⟩, fun ⟨hl, hn⟩ => ⟨⟨lt_of_mask hl, hl⟩, by simpa using hn⟩⟩
  have K : Holding s A T c w w ks H := {
    issuing := h
    waves := by rw [hA]; rfl
    settled := by
      have : ({ T with cur := A.cur } : State) = A := by rw [hT]
      rw [this]
      exact .refl A
    cur := by rw [hT]
    wave := by rw [hT, hA]; exact h.waveId ▸ h.wave
    kept := .refl _ _
    nodup := by rw [hks]; exact (lanesOf_nodup _).filter _
    fe := fun k _ => by rw [hH]; rfl }
  have hfull : T.gang? w.gang = some (done.foldl (fun x l => lanePut s w z d a .waitfill l x) g) := by
    have : A.gang? w.gang = some (done.foldl (fun x l => lanePut s w z d a .waitfill l x) g) := by
      rw [hA, gang?_modGang (f := fun x => done.foldl (fun x l => lanePut s w z d a .waitfill l x) x)
        fun x => (SpadOnly.foldl (lanePut_only s w z d a .waitfill) done).id x, hg]
      simp
    rw [hT]
    exact this
  obtain ⟨w', hE, hcalm⟩ := K.calm (by rw [hT, hA]; rfl) hno fun k hk f hf x hx => by
    obtain rfl : done.foldl (fun x l => lanePut s w z d a .waitfill l x) g = x := Option.some.inj (hfull.symm.trans hx)
    rw [hH] at hf
    obtain rfl : laneWait s c w z d a k = f := Hold.fe.inj hf
    obtain ⟨hlane, hnot⟩ := hmem.mp hk
    rw [laneWait, storeWait_ready, full_lanePuts]
    exact storeTurns_blocked (width_pos z) (fun l => (rd s w l a).toNat) _ _ (mem_lanesOf.mpr ⟨lt_of_mask hlane, hlane⟩) hnot
  obtain ⟨hregs, hmask, hflags, hgen⟩ := K.keeps hE
  refine ⟨_, w', by rw [stsp_exec h hreg hgo, hact], hA ▸ K.frame hE, hregs, hmask, hflags, hgen, ?_, fun l hl => ?_,
    fun l hl hn k hk hkl => ?_⟩
  · rw [hcalm.pend, issued_shape]
  · have hlane := (mem_lanesOf.mp (storeTurns_sub _ _ _ _ hl)).2
    exact K.goes hE hlane fun hk => (hmem.mp hk).2 hl
  · obtain rfl : k = l := hkl
    have := K.stays hcalm hk (hmem.mpr ⟨hk, hn⟩)
    rw [hH] at this
    exact this

/-- A .waitfill with data and address uniform whose granules are not empty: the lowest thread waits, and the others with it. -/
theorem waitfill_holds (h : Issuing s c w) (hreg : illReg (.stsp z d a p r .waitfill) w = false) {g : Gang}
    (hg : s.gang? w.gang = some g) (hgo : ∀ l, c.lanes.getLsbD l = true → SpadGoes s w l z.bytes (rd s w l a).toNat p r)
    (hone : (d.isUni && a.isUni) = true) (hno : NoFeWait s w.gang)
    (he : emptyIn g.full (rd s w (lowest c.lanes) a).toNat z.bytes = false) :
    ∃ t w', exec (.stsp z d a p r .waitfill) s = .next t ∧ WordFrame s c w t w' ∧ RegsKept w w' [] ∧ MaskKept w w' ∧
      w'.xstat = w.xstat ∧ w'.pend = w.pend ∧
      HeldAt c w w' (.fe (laneWait s c w z d a (lowest c.lanes))) (· = lowest c.lanes) ∧
      HeldAt c w w' (.feMate (lowest c.lanes)) (· ≠ lowest c.lanes) := by
  obtain ⟨low, hlow⟩ : ∃ low, low = lowest c.lanes := ⟨_, rfl⟩
  rw [← hlow] at he ⊢
  have hin : low < 32 ∧ c.lanes.getLsbD low = true := hlow ▸ lowest_mem h.lanes
  have hls : lanesOnce d a c = [low] := by unfold lanesOnce; rw [if_pos hone, hlow]
  obtain ⟨f, hf⟩ : ∃ f, f = laneWait s c w z d a low := ⟨_, rfl⟩
  have hmates : f.mates = c.lanes &&& ~~~(laneBit low) := by rw [hf]; exact if_pos hone
  obtain ⟨ks, hks⟩ : ∃ ks, ks = low :: lanesOf f.mates := ⟨_, rfl⟩
  obtain ⟨H, hH⟩ : ∃ H : Nat → Hold, H = fun l => if l = low then .fe f else .feMate low := ⟨_, rfl⟩
  have hlowH : H low = .fe f := by rw [hH]; exact if_pos rfl
  have hmate {k : Nat} (hk : k ≠ low) : H k = .feMate low := by rw [hH]; exact if_neg hk
  have hmem {k : Nat} : k ∈ lanesOf f.mates ↔ c.lanes.getLsbD k = true ∧ k ≠ low := by
    rw [mem_lanesOf, hmates, BitVec.getLsbD_and, BitVec.getLsbD_not, getLsbD_laneBit]
    constructor
    · rintro ⟨hk, hm⟩
      simp only [hk, decide_true, Bool.true_and, Bool.and_eq_true, Bool.not_eq_true', decide_eq_false_iff_not] at hm
      exact hm
    · rintro ⟨hk, hne⟩
      have h32 := lt_of_mask hk
      simp [hk, hne, h32]
  obtain ⟨T, hT⟩ : ∃ T : State, T = { s with cur := some (c.holding ks H) } := ⟨_, rfl⟩
  have hact : stspAct z d a .waitfill s c w c.lanes = T := by
    have hheld : s.feHold low f = T := by
      have hmap : (lanesOf f.mates).map (fun k => (k, H k)) = (lanesOf f.mates).map fun k => (k, .feMate low) :=
        List.map_congr_left fun k hk => by rw [hmate (hmem.mp hk).2]
      unfold State.feHold State.modCur
      rw [h.cur, hT, hks]
      unfold Issue.holding
      rw [List.map_cons, hmap, hlowH, Option.map_some, h.holds]
      rfl
    rw [stspAct_eq h, hls, List.foldl_cons, List.foldl_nil, spadStore_waitfill hg, if_neg (by rw [he]; decide)]
    show (s.feHold low (laneWait s c w z d a low)).settleGranules w.gang = T
    rw [← hf, hheld]
    exact settleGranules_none (by rw [hT]; exact hno)
  have K : Holding s s T c w w ks H := {
    issuing := h
    waves := rfl
    settled := by
      have : ({ T with cur := s.cur } : State) = s := by rw [hT]
      rw [this]
      exact .refl s
    cur := by rw [hT]
    wave := by rw [hT]; exact h.waveId ▸ h.wave
    kept := .refl _ _
    nodup := by
      rw [hks]
      exact List.nodup_cons.mpr ⟨fun e => (hmem.mp e).2 rfl, lanesOf_nodup _⟩
    fe := fun k _ => by rw [hH]; dsimp only; split <;> rfl }
  obtain ⟨w', hE, hcalm⟩ := K.calm (by rw [hT]) hno fun k _ f' hk x hx => by
    obtain rfl : g = x := by rw [hT] at hx; exact Option.some.inj (hg.symm.trans hx)
    rw [hH] at hk
    dsimp only at hk
    split at hk
    · obtain rfl : f = f' := Hold.fe.inj hk
      rw [hf, laneWait, storeWait_ready]
      exact he
    · cases hk
  obtain ⟨hregs, hmask, hflags, -⟩ := K.keeps hE
  refine ⟨_, w', by rw [stsp_exec h hreg hgo, hact], K.frame hE, hregs, hmask, hflags, ?_, fun k hk hkl => ?_, fun k hk hkl => ?_⟩
  · rw [hcalm.pend, issued_shape]
  · obtain rfl : k = low := hkl
    have := K.stays hcalm hk (by rw [hks]; exact List.mem_cons_self)
    rw [hlowH, hf] at this
    exact this
  · have := K.stays hcalm hk (by rw [hks]; exact List.mem_cons_of_mem _ (hmem.mpr ⟨hk, hkl⟩))
    rw [hmate hkl] at this
    exact this

end

/-- Settles O19: `stsp_puts` and `stsp_fills` for what is stored at once, `waitfill_turns` and `waitfill_holds` for what waits. -/
theorem scratchpadStores : Obligations.ScratchpadStores := by
  intro s c w z d a p r q g _ h hreg hg hgo
  have hempty (l : Nat) : emptyIn g.full (rd s w l a).toNat z.bytes = true ↔ AllEmpty g (rd s w l a).toNat z.bytes :=
    emptyIn_iff (width_pos z)
  have hreturns {ls : List Nat} (hset : Settled (s.modGang w.gang fun x => ls.foldl (fun x l => lanePut s w z d a q l x) x)
      (stspAct z d a q s c w c.lanes)) : ∃ t w', exec (.stsp z d a p r q) s = .next t ∧
        ReturningWord (s.modGang w.gang fun x => ls.foldl (fun x l => lanePut s w z d a q l x) x) c w t w' ∧ GenKept c w w' := by
    obtain ⟨w', hret, hgen⟩ := settled_returns
      (A := s.modGang w.gang fun x => ls.foldl (fun x l => lanePut s w z d a q l x) x) (T := stspAct z d a q s c w c.lanes) h rfl rfl hset
    exact ⟨_, w', stsp_exec h hreg hgo, hret, hgen⟩
  refine ⟨fun hq => hreturns (stsp_puts h hq), fun l hl hq he => ?_, fun hq hone hno => ?_, fun hq hone hno he => ?_⟩
  · subst hq
    refine hreturns (stsp_fills h hg ?_ ((hempty l).mpr he))
    unfold lanesOnce
    rcases hl with hl | ⟨hone, rfl⟩
    · have h32 : l < 32 ∧ lowest (laneBit l) = l := by
        have := lowest_mem h.lanes
        rw [hl, getLsbD_laneBit] at this
        simp only [Bool.and_eq_true, decide_eq_true_eq] at this
        exact ⟨by omega, this.2.2⟩
      rw [hl, lanesOf_laneBit h32.1, h32.2, ite_self]
    · rw [if_pos hone]
  · subst hq
    obtain ⟨t, w', hexec, hframe, hregs, hmask, hflags, hgen, hpend, hgoes, hheld⟩ := waitfill_turns h hreg hg hgo hone hno
    refine ⟨t, w', hexec, hframe, hregs, hmask, hflags, hgen, hpend, hgoes, fun l hl hn => ?_⟩
    exact ⟨laneWait s c w z d a l, hheld l hl hn, rfl, rfl, rfl, rfl, rfl, laneWait_data l⟩
  · subst hq
    obtain ⟨t, w', hexec, hframe, hregs, hmask, hflags, hpend, hwait, hmates⟩ := waitfill_holds h hreg hg hgo hone hno
      (by rw [Bool.eq_false_iff]; exact fun e => he ((hempty _).mp e))
    exact ⟨t, w', hexec, hframe, hregs, hmask, hflags, hpend, ⟨laneWait s c w z d a _, hwait, rfl, rfl, rfl, rfl, rfl, laneWait_data _⟩,
      hmates⟩

end Sys2Proof.Machine
end

section
/-! A store performed where the stored line's copies are coherent (R105, R175, R176): the home serves its bytes, and coherent lines stay
so. -/

namespace Sys2Proof.Machine
open Sys2Proof.Claims

/-! ## Words that a store covers (R175) -/

theorem getLsbD_covered (m : BitVec 64) (i : Nat) :
    (covered m).getLsbD i = (decide (i < 16) && m.toNat / 2 ^ (4 * i) % 16 == 15) := by
  have h := (testBit_fields (fun i => m.toNat / 2 ^ (4 * i) % 16 == 15) 1 i 16).2
  simp only [Nat.reducePow, Nat.reduceSub, one_mul, Nat.div_one] at h
  rw [covered, BitVec.getLsbD_ofNat, h]
  by_cases h : i < 16 <;> simp [h]

/-- Byte `j` of a mask, in its word. -/
theorem nibble_testBit (m : BitVec 64) (j : Nat) : (m.toNat / 2 ^ (4 * (j / 4)) % 16).testBit (j % 4) = m.getLsbD j := by
  rw [show 16 = 2 ^ 4 from rfl, Nat.testBit_mod_two_pow, Nat.testBit_div_two_pow]
  simp only [show j % 4 < 4 by omega, decide_true, Bool.true_and]
  rw [show j % 4 + 4 * (j / 4) = j by omega]
  rfl

/-- Every byte of a covered word is in the mask. -/
theorem bit_of_covered {m : BitVec 64} {j : Nat} (h : (covered m).getLsbD (j / 4) = true) : m.getLsbD j = true := by
  rw [getLsbD_covered] at h
  simp only [Bool.and_eq_true, beq_iff_eq] at h
  rw [← nibble_testBit, h.2]
  have : j % 4 = 0 ∨ j % 4 = 1 ∨ j % 4 = 2 ∨ j % 4 = 3 := by omega
  rcases this with e | e | e | e <;> rw [e] <;> rfl

/-- A byte that a store leaves alone in a word that it touches lies in a valid word, where the store is held for no part of one. -/
theorem valid_of_touched {m : BitVec 64} {v : BitVec 16} (h : touched m &&& ~~~(covered m) &&& ~~~v = 0) {n : Nat} (hn : n < 64)
    (ht : (wordBytes (touched m)).getLsbD n = true) (hm : m.getLsbD n = false) : (wordBytes v).getLsbD n = true := by
  rw [getLsbD_wordBytes] at ht ⊢
  have hbit : (touched m &&& ~~~(covered m) &&& ~~~v).getLsbD (n / 4) = false := by rw [h]; simp
  have hcov : (covered m).getLsbD (n / 4) = false := by
    rw [Bool.eq_false_iff]
    intro hc
    rw [bit_of_covered hc] at hm
    cases hm
  have h16 : n / 4 < 16 := by omega
  simp only [hn, decide_true, Bool.true_and] at ht ⊢
  rw [BitVec.getLsbD_and, BitVec.getLsbD_and, BitVec.getLsbD_not, BitVec.getLsbD_not, ht, hcov] at hbit
  simpa only [h16, decide_true, Bool.true_and, Bool.not_false, Bool.not_eq_false'] using hbit

/-! ## Copies of a line -/

theorem mem_putSect {u : State} {z x : SectLine} (h : x ∈ (u.putSect z).sect) : x = { z with dirty := x.dirty } ∨
    ∃ y ∈ u.sect, x = { y with dirty := x.dirty } ∧ ¬(y.sector = z.sector ∧ y.line = z.line) := by
  have hrest {x : SectLine} (hx : x ∈ (u.withSect z).sect) : x = z ∨ x ∈ u.sect ∧ ¬(x.sector = z.sector ∧ x.line = z.line) := by
    rcases List.mem_cons.mp hx with rfl | hx
    · exact .inl rfl
    · obtain ⟨hx, hp⟩ := List.mem_filter.mp hx
      exact .inr ⟨hx, fun ⟨h1, h2⟩ => by simp [h1, h2] at hp⟩
  rcases putSect_eq u z with e | ⟨v, -, e⟩
  · rw [e] at h
    rcases hrest h with rfl | ⟨hx, hp⟩
    · exact .inl rfl
    · exact .inr ⟨x, hx, rfl, hp⟩
  · rw [e] at h
    obtain ⟨-, y, hy, hxy, -⟩ := (evictSect_copies _ _ _).1 x h
    rcases hrest (x := y) hy with rfl | ⟨hy, hp⟩
    · exact .inl hxy
    · exact .inr ⟨y, hy, hxy, hp⟩

theorem mem_endOthers {s : State} {sec line : Nat} {x : SectLine} (h : x ∈ (s.endOthers (some sec) line).sect) :
    (∃ y ∈ s.sect, x = { y with dirty := x.dirty }) ∧ (x.line = line → x.remote = false → x.sector = sec) := by
  obtain ⟨hx, hp⟩ := List.mem_filter.mp h
  refine ⟨?_, fun hl hr => ?_⟩
  · obtain ⟨y, hy, rfl⟩ := List.mem_map.mp hx
    refine ⟨y, hy, ?_⟩
    split <;> rfl
  · simp [hl, hr] at hp
    exact hp.symm

/-- A copy is of the right kind, and agrees with `view` in its valid words if it is the home's (R176). -/
def SectLine.Fits (x : SectLine) (view : Line) : Prop :=
  (x.remote = false ↔ homeOfLine x.line = some (sectorDie x.sector)) ∧
    (x.remote = false → ∀ i < 64, (wordBytes x.valid).getLsbD i = true → lineByte x.data i = lineByte view i)

theorem coherent_iff (s : State) (line : Nat) : Coherent s line ↔ ∀ x ∈ s.sect, x.line = line → x.Fits (s.homeView line) := by
  constructor
  · intro h x hx hl
    have := h x hx hl
    unfold SectLine.Fits
    rw [hl]
    exact this
  · intro h x hx hl
    have := h x hx hl
    unfold SectLine.Fits at this
    rw [hl] at this
    exact this

/-- A line all of whose copies were there before, and whose home serves the same. -/
theorem coherent_of_copies {s t : State} {line : Nat} (h : Coherent s line) (hv : t.homeView line = s.homeView line)
    (hx : ∀ x ∈ t.sect, x.line = line → ∃ y ∈ s.sect, x = { y with dirty := x.dirty }) : Coherent t line := by
  rw [coherent_iff] at h ⊢
  intro x hmem hl
  obtain ⟨y, hy, he⟩ := hx x hmem hl
  have := h y hy (by rw [he] at hl; exact hl)
  rw [hv, he]
  exact this

theorem coherent_congr {s t : State} {line : Nat} (h : Coherent s line) (hm : t.mem = s.mem) (hs : t.sect = s.sect) : Coherent t line :=
  coherent_of_copies h (homeView_congr hm hs line) fun x hx _ => ⟨x, hs ▸ hx, rfl⟩

/-! ## A store on the line's home die -/

/-- A store put into a copy that agrees with the home, and holds the words that the store covers in part. -/
theorem put_near {s : State} {core : Nat} {pol : CachePol} {w : LineWrite} {x : SectLine} (last : Bool)
    (hr : x.remote = false) (hd : x.dirty = 0) (hsec : x.sector = coreSector core) (hline : x.line = w.line)
    (hhome : homeOfLine w.line = some (coreDie core))
    (hvalid : ∀ n < 64, (wordBytes x.valid).getLsbD n = true → lineByte x.data n = lineByte (s.homeView w.line) n)
    (hpart : ∀ n < 64, (wordBytes (touched w.mask)).getLsbD n = true → w.mask.getLsbD n = false → (wordBytes x.valid).getLsbD n = true) :
    let t := (s.nearStart core pol w).putSect (x.store w last)
    (∀ l, t.homeView l = if l = w.line then mergeLine w.mask (s.homeView l) w.data else s.homeView l) ∧
      ∀ l, Coherent s l → Coherent t l := by
  intro t
  obtain ⟨y, hy⟩ : ∃ y, y = x.store w last := ⟨_, rfl⟩
  have hyline : y.line = w.line := by rw [hy]; exact hline
  have hysec : y.sector = coreSector core := by rw [hy]; exact hsec
  have hyr : y.remote = false := by rw [hy]; exact hr
  have hyd : y.dirty = touched w.mask := by
    rw [hy]
    show (if x.remote then (0 : BitVec 16) else x.dirty ||| touched w.mask) = _
    rw [hr, hd]
    simp
  have hydata : y.data = mergeLine w.mask x.data w.data := by rw [hy]; rfl
  have hyvalid : y.valid = x.valid ||| touched w.mask := by rw [hy]; rfl
  have ht : t = (s.nearStart core pol w).putSect y := by rw [hy]
  have hserved (l : Nat) : t.homeView l = if l = w.line then mergeLine w.mask (s.homeView l) w.data else s.homeView l := by
    rw [ht, homeView_putSect_dirty (by rw [hyline]; exact nearStart_clean s core pol w) hyr, hyline, homeView_nearStart]
    split
    · next hl =>
      rw [hl, memLine_nearStart, hyd, hydata, mergeLine_touched fun n hn h1 h2 => hvalid n hn (hpart n hn h1 h2)]
    · rfl
  refine ⟨hserved, fun l hc => ?_⟩
  by_cases hl : l = w.line
  · subst hl
    rw [coherent_iff] at hc ⊢
    intro z hz hzl
    rw [hserved, if_pos rfl]
    rw [ht] at hz
    rcases mem_putSect hz with e | ⟨v, hv, e, hne⟩
    · have hz : z.remote = y.remote ∧ z.line = y.line ∧ z.sector = y.sector ∧ z.valid = y.valid ∧ z.data = y.data := by
        rw [e]; exact ⟨rfl, rfl, rfl, rfl, rfl⟩
      obtain ⟨h1, h2, h3, h4, h5⟩ := hz
      refine ⟨?_, fun _ n hn hbit => ?_⟩
      · rw [h1, h2, h3, hyr, hyline, hysec, sectorDie_coreSector]
        simp [hhome]
      · rw [h4, hyvalid, getLsbD_wordBytes, BitVec.getLsbD_or] at hbit
        rw [h5, hydata, lineByte_mergeLine _ _ _ hn, lineByte_mergeLine _ _ _ hn]
        split
        · rfl
        · next hm =>
          refine hvalid n hn ?_
          simp only [Bool.and_eq_true, Bool.or_eq_true] at hbit
          rcases hbit.2 with e | e
          · rw [getLsbD_wordBytes, e, hbit.1]; rfl
          · exact hpart n hn (by rw [getLsbD_wordBytes, e, hbit.1]; rfl) (by simpa using hm)
    · have hvl : v.line = w.line := by rw [e] at hzl; exact hzl
      obtain ⟨⟨u, hu, he⟩, hother⟩ := mem_endOthers (sec := coreSector core) (line := w.line) hv
      have hul : u.line = w.line := by rw [he] at hvl; exact hvl
      have hfit := hc u hu hul
      have hzu : z.remote = u.remote ∧ z.line = u.line ∧ z.sector = u.sector := by rw [e, he]; exact ⟨rfl, rfl, rfl⟩
      obtain ⟨h1, h2, h3⟩ := hzu
      have hrem : z.remote = true := by
        by_contra hrem
        have hvr : v.remote = false := by rw [e] at hrem; simpa using hrem
        exact hne ⟨(hother hvl hvr).trans hysec.symm, hvl.trans hyline.symm⟩
      refine ⟨?_, fun h => by rw [hrem] at h; cases h⟩
      rw [h1, h2, h3]
      exact hfit.1
  · refine coherent_of_copies hc (by rw [hserved, if_neg hl]) fun z hz hzl => ?_
    rw [ht] at hz
    rcases mem_putSect hz with e | ⟨v, hv, e, -⟩
    · rw [e] at hzl
      exact absurd (hzl.symm.trans hyline) hl
    · obtain ⟨⟨u, hu, he⟩, -⟩ := mem_endOthers (sec := coreSector core) (line := w.line) hv
      exact ⟨u, hu, by rw [e, he]⟩

/-- A store has changed its own bytes of what the homes serve, where its line is `near`, and has left coherent lines coherent. -/
structure StoredBytes (near : Prop) [Decidable near] (s t : State) (w : LineWrite) : Prop where
  view     : ∀ l, t.homeView l = if l = w.line ∧ near then mergeLine w.mask (s.homeView l) w.data else s.homeView l
  coherent : ∀ l, Coherent s l → Coherent t l

theorem StoredBytes.of_put {s t : State} {w : LineWrite}
    (h : (∀ l, t.homeView l = if l = w.line then mergeLine w.mask (s.homeView l) w.data else s.homeView l) ∧
      ∀ l, Coherent s l → Coherent t l) : StoredBytes True s t w :=
  ⟨fun l => by rw [h.1]; simp, h.2⟩

section
variable {s : State} {core : Nat} {pol : CachePol} {w : LineWrite} (h : homeOfLine w.line = some (coreDie core))
include h

/-- A store to a copy that holds the words it writes in part. -/
theorem nearPut_hit (hc : Coherent s w.line) {x : SectLine} (hx : s.sectLine? (coreSector core) w.line = some x)
    (hpart : touched w.mask &&& ~~~(covered w.mask) &&& ~~~x.valid = 0) :
    StoredBytes True s ((s.nearStart core pol w).nearPut (coreSector core) pol w) w := by
  obtain ⟨hmem, hsec, hline⟩ := sectLine?_some hx
  obtain ⟨hkind, hagree⟩ := (coherent_iff s w.line).mp hc x hmem hline
  have hr : x.remote = false := hkind.mpr (by rw [hline, h, hsec, sectorDie_coreSector])
  obtain ⟨x', hx'⟩ : ∃ x', x' = { x with dirty := 0 } := ⟨_, rfl⟩
  have hput : (s.nearStart core pol w).nearPut (coreSector core) pol w =
      (s.nearStart core pol w).putSect (x'.store w (pol == CachePol.last)) := by
    unfold State.nearPut
    rw [sectLine?_nearStart, hx, hx']
    simp [hr]
  rw [hput]
  refine .of_put (put_near _ (by rw [hx']; exact hr) (by rw [hx']) (by rw [hx']; exact hsec) (by rw [hx']; exact hline) h
    (fun n hn hb => ?_) fun n hn h1 h2 => ?_)
  · rw [hx'] at hb ⊢
    exact hagree hr n hn hb
  · rw [hx']
    exact valid_of_touched hpart hn h1 h2

/-- A store of whole words to a line without a copy. -/
theorem nearPut_new (hx : s.sectLine? (coreSector core) w.line = none) (hp : pol ≠ .stream)
    (hpart : touched w.mask &&& ~~~(covered w.mask) = 0) :
    StoredBytes True s ((s.nearStart core pol w).nearPut (coreSector core) pol w) w := by
  obtain ⟨x, hx0⟩ : ∃ x : SectLine, x = { sector := coreSector core, line := w.line, data := 0, valid := 0, dirty := 0, remote := false } :=
    ⟨_, rfl⟩
  have hput : (s.nearStart core pol w).nearPut (coreSector core) pol w =
      (s.nearStart core pol w).putSect (x.store w (pol == CachePol.last)) := by
    unfold State.nearPut
    rw [sectLine?_nearStart, hx, hx0]
    cases pol with
    | stream => exact absurd rfl hp
    | dflt | last | pass => rfl
  rw [hput]
  refine .of_put (put_near _ (by rw [hx0]) (by rw [hx0]) (by rw [hx0]) (by rw [hx0]) h (fun n hn hb => ?_) fun n hn h1 h2 =>
    valid_of_touched (by rw [hpart]; simp) hn h1 h2)
  have hb' : (wordBytes 0).getLsbD n = true := by rw [hx0] at hb; exact hb
  rw [wordBytes_zero] at hb'
  simp at hb'

omit h in
/-- A .stream store to a line without a copy goes to the home. -/
theorem nearPut_stream (hx : s.sectLine? (coreSector core) w.line = none) :
    StoredBytes True s ((s.nearStart core .stream w).nearPut (coreSector core) .stream w) w := by
  obtain ⟨u, hu⟩ : ∃ u, u = s.nearStart core .stream w := ⟨_, rfl⟩
  have hput : u.nearPut (coreSector core) .stream w = State.touchHome { u with mem := memPut u.mem w } w.line := by
    unfold State.nearPut
    rw [hu, sectLine?_nearStart, hx]
    rfl
  have hview (l : Nat) : (State.touchHome { u with mem := memPut u.mem w } w.line).homeView l =
      if l = w.line then mergeLine w.mask (s.homeView l) w.data else s.homeView l := by
    have hd : State.dirtyOf { u with mem := memPut u.mem w } l = u.dirtyOf l := rfl
    rw [homeView_touchHome, homeView_def, hd, memLine_memPut]
    split
    · next hl => rw [hl, hu, nearStart_clean, memLine_nearStart]; rfl
    · rw [hu]
      exact (homeView_def _ _).symm.trans (homeView_nearStart ..)
  have hsect : (State.touchHome { u with mem := memPut u.mem w } w.line).sect = u.sect := by
    obtain ⟨hl, ps, he⟩ := touchHome_rest { u with mem := memPut u.mem w } w.line
    rw [he]
  rw [← hu, hput]
  refine .of_put ⟨hview, fun l hl => ?_⟩
  by_cases hw : l = w.line
  · subst hw
    rw [coherent_iff] at hl ⊢
    intro z hz hzl
    rw [hsect, hu] at hz
    obtain ⟨⟨y, hy, he⟩, hother⟩ := mem_endOthers (sec := coreSector core) (line := w.line) hz
    have hyl : y.line = w.line := by rw [he] at hzl; exact hzl
    have hrem : z.remote = true := by
      by_contra hr
      have hsec : y.sector = coreSector core := by
        have := hother hzl (by simpa using hr)
        rw [he] at this
        exact this
      have := List.find?_eq_none.mp hx y hy
      simp [hyl, hsec] at this
    refine ⟨?_, fun e => by rw [hrem] at e; cases e⟩
    have hk := (hl y hy hyl).1
    rw [he]
    exact hk
  · refine coherent_of_copies hl (by rw [hview, if_neg hw]) fun z hz _ => ?_
    rw [hsect, hu] at hz
    exact (mem_endOthers (sec := coreSector core) (line := w.line) hz).1

/-- A store on the line's home die that is not held. -/
theorem storeNow_near_bytes {wave : Nat} (hpart : s.partStore core pol w = false) (hc : Coherent s w.line) :
    StoredBytes True s (s.storeNow core wave pol w) w := by
  have hput : StoredBytes True s ((s.nearStart core pol w).nearPut (coreSector core) pol w) w := by
    unfold State.partStore at hpart
    rw [h] at hpart
    simp only [beq_self_eq_true, Bool.true_and] at hpart
    cases hx : s.sectLine? (coreSector core) w.line with
    | some x =>
      rw [hx] at hpart
      exact nearPut_hit h hc hx (by simpa using hpart)
    | none =>
      rw [hx] at hpart
      by_cases hp : pol = .stream
      · subst hp
        exact nearPut_stream hx
      · exact nearPut_new h hx hp (by simpa [hp] using hpart)
  rw [storeNow_near h]
  exact ⟨fun l => (homeView_monEvent ..).trans (hput.view l), fun l hl => coherent_congr (hput.coherent l hl) rfl rfl⟩

end
end Sys2Proof.Machine
end

section
/-! Stores to host memory and to lines of another die (R105, R175, R177, R200), and what a store leaves of the words that a sector cache
holds. -/

namespace Sys2Proof.Machine
open Sys2Proof.Claims

/-! ## Host memory -/

theorem dirtyOf_homeless {s : State} {line : Nat} (h : homeOfLine line = none) (hc : Coherent s line) : s.dirtyOf line = [] := by
  refine List.filter_eq_nil_iff.mpr fun x hx hp => ?_
  simp only [Bool.and_eq_true, beq_iff_eq, Bool.not_eq_true'] at hp
  obtain ⟨⟨hl, hr⟩, -⟩ := hp
  have := (hc x hx hl).1.mp hr
  rw [h] at this
  cases this

theorem storeNow_host_bytes {s : State} {core wave : Nat} {pol : CachePol} {w : LineWrite} (h : homeOfLine w.line = none)
    (hc : Coherent s w.line) : StoredBytes True s (s.storeNow core wave pol w) w := by
  have hview (l : Nat) : (s.storeNow core wave pol w).homeView l =
      if l = w.line then mergeLine w.mask (s.homeView l) w.data else s.homeView l := by
    have hd : State.dirtyOf { s with l1 := s.l1Stored core pol w, mem := memPut s.mem w } l = s.dirtyOf l := rfl
    rw [storeNow_host h, homeView_def, hd, memLine_memPut]
    split
    · next hl => rw [hl, homeView_def, dirtyOf_homeless h hc]; rfl
    · rfl
  refine .of_put ⟨hview, fun l hl => ?_⟩
  by_cases hw : l = w.line
  · subst hw
    rw [storeNow_host h, coherent_iff]
    rw [coherent_iff] at hl
    intro x hx hxl
    refine ⟨(hl x hx hxl).1, fun hr => ?_⟩
    have := (hl x hx hxl).1.mp hr
    rw [hxl, h] at this
    cases this
  · refine coherent_of_copies hl (by rw [hview, if_neg hw]) fun x hx _ => ⟨x, ?_, rfl⟩
    rw [storeNow_host h] at hx
    exact hx

/-! ## A home on another die -/

/-- The copies of the other sectors of a die end before a store to a line of another die. -/
def State.farStart (s : State) (core : Nat) (w : LineWrite) : State :=
  State.spoilFills { s with sect := s.sect.filter fun x =>
    !(x.line == w.line && x.remote && sectorDie x.sector == coreDie core && x.sector != coreSector core) } (coreDie core) w.line

theorem farStart_sect (s : State) (core : Nat) (w : LineWrite) : (s.farStart core w).sect = s.sect.filter fun x =>
    !(x.line == w.line && x.remote && sectorDie x.sector == coreDie core && x.sector != coreSector core) := rfl

theorem homeView_farStart (s : State) (core : Nat) (w : LineWrite) (l : Nat) : (s.farStart core w).homeView l = s.homeView l := by
  have hd : (s.farStart core w).dirtyOf l = s.dirtyOf l := by
    show (List.filter _ (List.filter _ s.sect)) = List.filter _ s.sect
    rw [List.filter_filter]
    refine List.filter_congr fun x _ => ?_
    cases x.remote <;> simp
  rw [homeView_def, hd]
  rfl

theorem sectLine?_farStart (s : State) (core : Nat) (w : LineWrite) (line : Nat) :
    (s.farStart core w).sectLine? (coreSector core) line = s.sectLine? (coreSector core) line := by
  unfold State.sectLine?
  rw [farStart_sect]
  refine find?_filter_of_imp (fun x hx => ?_) _
  simp only [Bool.and_eq_true, beq_iff_eq] at hx
  simp [hx.1]

theorem farPut_eq (s : State) (core : Nat) (pol : CachePol) (w : LineWrite) :
    (∃ x, s.sectLine? (coreSector core) w.line = some x ∧ s.farPut core pol w =
      ((s.farStart core w).putSect (x.store w (pol == CachePol.last))).monEvent w.line fun v => coreSector v.core == coreSector core) ∨
    s.sectLine? (coreSector core) w.line = none ∧ s.farPut core pol w = s.farStart core w := by
  have hdef : s.farPut core pol w = match (s.farStart core w).sectLine? (coreSector core) w.line with
    | some x => ((s.farStart core w).putSect (x.store w (pol == CachePol.last))).monEvent w.line fun v => coreSector v.core == coreSector core
    | none => s.farStart core w := rfl
  rw [hdef, sectLine?_farStart]
  cases s.sectLine? (coreSector core) w.line with
  | some x => exact .inl ⟨x, rfl, rfl⟩
  | none => exact .inr ⟨rfl, rfl⟩

theorem farPut_bytes {s : State} {core k : Nat} {pol : CachePol} {w : LineWrite} (h : homeOfLine w.line = some k) (hne : k ≠ coreDie core)
    (hc : Coherent s w.line) : StoredBytes False s (s.farPut core pol w) w := by
  have hstart : StoredBytes False s (s.farStart core w) w := by
    refine ⟨fun l => by rw [homeView_farStart]; simp, fun l hl => coherent_of_copies hl (homeView_farStart ..) fun x hx _ => ?_⟩
    exact ⟨x, (List.mem_filter.mp hx).1, rfl⟩
  rcases farPut_eq s core pol w with ⟨x, hx, he⟩ | ⟨-, he⟩
  · rw [he]
    obtain ⟨hmem, hsec, hline⟩ := sectLine?_some hx
    obtain ⟨hkind, -⟩ := (coherent_iff s w.line).mp hc x hmem hline
    have hr : x.remote = true := by
      by_contra hr
      have := hkind.mp (by simpa using hr)
      rw [hline, h, hsec, sectorDie_coreSector] at this
      exact hne (Option.some.inj this)
    obtain ⟨y, hy⟩ : ∃ y, y = x.store w (pol == CachePol.last) := ⟨_, rfl⟩
    have hyk : y.remote = true ∧ y.line = w.line ∧ y.sector = coreSector core := by
      rw [hy]; exact ⟨hr, hline, hsec⟩
    obtain ⟨hyr, hyl, hys⟩ := hyk
    rw [← hy]
    have hclean : ∀ z ∈ (s.farStart core w).dirtyOf y.line, z.sector ≠ y.sector := by
      intro z hz hzs
      obtain ⟨hz, hp⟩ := List.mem_filter.mp hz
      simp only [Bool.and_eq_true, beq_iff_eq, Bool.not_eq_true'] at hp
      have hzl := hp.1.1.trans hyl
      have := ((coherent_iff s w.line).mp hc z (List.mem_filter.mp hz).1 hzl).1.mp hp.1.2
      rw [hzl, h, hzs, hys, sectorDie_coreSector] at this
      exact hne (Option.some.inj this)
    have hview (l : Nat) : ((s.farStart core w).putSect y).homeView l = s.homeView l := by
      rw [homeView_putSect_clean hclean (.inl hyr), homeView_farStart]
    refine ⟨fun l => by rw [homeView_monEvent, hview]; simp, fun l hl => ?_⟩
    rw [coherent_iff] at hl ⊢
    intro z hz hzl
    rw [homeView_monEvent, hview]
    rcases mem_putSect hz with e | ⟨v, hv, e, -⟩
    · have hzk : z.remote = x.remote ∧ z.line = x.line ∧ z.sector = x.sector := by rw [e, hy]; exact ⟨rfl, rfl, rfl⟩
      obtain ⟨h1, h2, h3⟩ := hzk
      refine ⟨?_, fun e => by rw [h1, hr] at e; cases e⟩
      rw [h1, h2, h3]
      exact hkind
    · have := hl v (List.mem_filter.mp hv).1 (by rw [e] at hzl; exact hzl)
      rw [e]
      exact this
  · rw [he]; exact hstart

theorem storeNow_far_bytes {s : State} {core wave k : Nat} {pol : CachePol} {w : LineWrite} (h : homeOfLine w.line = some k)
    (hne : k ≠ coreDie core) (hc : Coherent s w.line) : StoredBytes False s (s.storeNow core wave pol w) w := by
  obtain ⟨u, hu⟩ : ∃ u, u = ({ s with l1 := s.l1Stored core pol w } : State) := ⟨_, rfl⟩
  have hput := farPut_bytes (s := u) (pol := pol) h hne (coherent_congr hc (by rw [hu]) (by rw [hu]))
  rw [storeNow_far h hne, ← hu]
  refine ⟨fun l => ?_, fun l hl => coherent_congr (hput.coherent l (coherent_congr hl (by rw [hu]) (by rw [hu]))) rfl rfl⟩
  refine Eq.trans ?_ ((hput.view l).trans ?_)
  · exact homeView_congr rfl rfl l
  · rw [hu]; rfl

/-- A store performed at once: seen at a home on its die, and in host memory. -/
theorem storeNow_bytes {s : State} {core wave : Nat} {pol : CachePol} {w : LineWrite} (hpart : s.partStore core pol w = false)
    (hc : Coherent s w.line) : StoredBytes (homeOfLine w.line = none ∨ homeOfLine w.line = some (coreDie core)) s
      (s.storeNow core wave pol w) w := by
  cases h : homeOfLine w.line with
  | none =>
    obtain ⟨hv, hk⟩ := storeNow_host_bytes (core := core) (wave := wave) (pol := pol) h hc
    exact ⟨fun l => by rw [hv]; simp, hk⟩
  | some k =>
    by_cases hkd : k = coreDie core
    · subst hkd
      obtain ⟨hv, hk⟩ := storeNow_near_bytes (wave := wave) h hpart hc
      exact ⟨fun l => by rw [hv]; simp, hk⟩
    · obtain ⟨hv, hk⟩ := storeNow_far_bytes (wave := wave) (pol := pol) h hkd hc
      exact ⟨fun l => by rw [hv]; simp [hkd], hk⟩

end Sys2Proof.Machine
end

section
/-! Stores that a sector cache holds for part of a word (R175): which are, and that the stores of a group leave this as it is. -/

namespace Sys2Proof.Machine
open Sys2Proof.Claims

/-! ## Stores of whole words -/

theorem covered_of_bits {m : BitVec 64} {i : Nat} (hi : i < 16) (h : ∀ j, j / 4 = i → m.getLsbD j = true) :
    (covered m).getLsbD i = true := by
  rw [getLsbD_covered]
  simp only [hi, decide_true, Bool.true_and, beq_iff_eq]
  refine Nat.eq_of_testBit_eq fun b => ?_
  by_cases hb : b < 4
  · have h4 : (4 * i + b) / 4 = i ∧ (4 * i + b) % 4 = b := by omega
    have hbit := nibble_testBit m (4 * i + b)
    rw [h4.1, h4.2, h _ h4.1] at hbit
    rw [hbit]
    have : b = 0 ∨ b = 1 ∨ b = 2 ∨ b = 3 := by omega
    rcases this with e | e | e | e <;> rw [e] <;> rfl
  · have h16 : (16 : Nat) = 2 ^ 4 := rfl
    have h15 : (15 : Nat) = 2 ^ 4 - 1 := rfl
    rw [h16, Nat.testBit_mod_two_pow, h15, Nat.testBit_two_pow_sub_one]
    simp [hb]

theorem bit_of_touched {m : BitVec 64} {i : Nat} (h : (touched m).getLsbD i = true) : ∃ j, j / 4 = i ∧ m.getLsbD j = true := by
  rw [getLsbD_touched] at h
  simp only [Bool.and_eq_true, bne_iff_ne] at h
  obtain ⟨b, hb⟩ := Nat.exists_testBit_of_ne_zero h.2
  have hlt : b < 4 := by
    by_contra hge
    rw [show 16 = 2 ^ 4 from rfl, Nat.testBit_mod_two_pow] at hb
    simp [hge] at hb
  have h4 : (4 * i + b) / 4 = i ∧ (4 * i + b) % 4 = b := by omega
  refine ⟨4 * i + b, h4.1, ?_⟩
  rw [← nibble_testBit, h4.1, h4.2]
  exact hb

/-- The bytes of an aligned access lie in one line, and those of a whole word in whole words. -/
theorem aligned_fits {z : Width} {pa : Nat} (h : pa % z.bytes = 0) : pa % 64 + z.bytes ≤ 64 := by
  cases z <;> simp only [Width.bytes] at h ⊢ <;> omega

theorem runMask_word {z : Width} {pa : Nat} (hz : 4 ≤ z.bytes) (h : pa % z.bytes = 0) {j k : Nat} (hjk : j / 4 = k / 4)
    (hj : (runMask (pa % 64) z.bytes).getLsbD j = true) : (runMask (pa % 64) z.bytes).getLsbD k = true := by
  have hj64 : j < 64 := BitVec.lt_of_getLsbD hj
  rw [runMask_getLsbD hj64] at hj
  rw [runMask_getLsbD (by omega)]
  simp only [decide_eq_true_eq] at hj ⊢
  cases z <;> simp only [Width.bytes] at h hz hj ⊢ <;> omega

theorem partStore_word (s : State) (core : Nat) (pol : CachePol) {z : Width} {pa : Nat} (x : Nat) (hz : 4 ≤ z.bytes)
    (h : pa % z.bytes = 0) : s.partStore core pol (lineWrite pa z.bytes x) = false := by
  obtain ⟨m, hm⟩ : ∃ m, m = (lineWrite pa z.bytes x).mask := ⟨_, rfl⟩
  have hpart : touched m &&& ~~~(covered m) = 0 := by
    refine BitVec.eq_of_getLsbD_eq fun i hi => ?_
    rw [BitVec.getLsbD_and, BitVec.getLsbD_not]
    cases ht : (touched m).getLsbD i with
    | false => simp
    | true =>
      obtain ⟨j, hj, hbit⟩ := bit_of_touched ht
      have hc := covered_of_bits (m := m) hi fun k hk => by
        rw [hm] at hbit ⊢
        exact runMask_word hz h (hj.trans hk.symm) hbit
      rw [hc]
      simp
  unfold State.partStore
  rw [← hm]
  simp only [hpart]
  split <;> simp

/-- A narrow store covers no word, and touches one. -/
theorem narrow_mask {z : Width} {pa : Nat} (x : Nat) (hz : z.bytes < 4) (h : pa % z.bytes = 0) :
    covered (lineWrite pa z.bytes x).mask = 0 ∧ touched (lineWrite pa z.bytes x).mask ≠ 0 := by
  have hfit := aligned_fits h
  obtain ⟨m, hm⟩ : ∃ m, m = (lineWrite pa z.bytes x).mask := ⟨_, rfl⟩
  have hbit {j : Nat} (hj : j < 64) : m.getLsbD j = decide (pa % 64 ≤ j ∧ j < pa % 64 + z.bytes) := by
    rw [hm]
    exact runMask_getLsbD hj
  have hpos := width_pos z
  rw [← hm]
  constructor
  · refine BitVec.eq_of_getLsbD_eq fun i hi => ?_
    show _ = (0#16).getLsbD i
    rw [BitVec.getLsbD_zero, Bool.eq_false_iff]
    intro hc
    have h0 : m.getLsbD (4 * i) = true := bit_of_covered (by rwa [show 4 * i / 4 = i by omega])
    have h3 : m.getLsbD (4 * i + 3) = true := bit_of_covered (by rwa [show (4 * i + 3) / 4 = i by omega])
    rw [hbit (by omega)] at h0 h3
    simp only [decide_eq_true_eq] at h0 h3
    omega
  · intro ht
    have h1 : m.getLsbD (pa % 64) = true := by
      rw [hbit (by omega)]
      simp only [decide_eq_true_eq]
      omega
    have := touched_of_bit h1
    rw [ht, wordBytes_zero] at this
    simp at this

/-! ## What a sector cache holds of its die's lines -/

/-- A state in which the core's sector holds the same words of its die's lines, and no more lines. -/
structure SectKept (core : Nat) (s t : State) : Prop where
  valid : ∀ line, homeOfLine line = some (coreDie core) →
    (t.sectLine? (coreSector core) line).map (·.valid) = (s.sectLine? (coreSector core) line).map (·.valid)
  count : (t.sect.filter fun x => x.sector == coreSector core).length ≤ (s.sect.filter fun x => x.sector == coreSector core).length

theorem SectKept.trans {core : Nat} {s t u : State} (h : SectKept core s t) (h' : SectKept core t u) : SectKept core s u :=
  ⟨fun l hl => (h'.valid l hl).trans (h.valid l hl), h'.count.trans h.count⟩

theorem SectKept.of_eq {core : Nat} {s t : State} (h : t.sect = s.sect) : SectKept core s t :=
  ⟨fun _ _ => by unfold State.sectLine?; rw [h], by rw [h]⟩

theorem SectKept.refl (core : Nat) (s : State) : SectKept core s s := .of_eq rfl

theorem SectKept.partStore {core : Nat} {s t : State} (h : SectKept core s t) (pol : CachePol) (w : LineWrite) :
    t.partStore core pol w = s.partStore core pol w := by
  unfold State.partStore
  by_cases hh : homeOfLine w.line = some (coreDie core)
  · have := h.valid w.line hh
    cases hs : s.sectLine? (coreSector core) w.line with
    | none =>
      rw [hs, Option.map_none, Option.map_eq_none_iff] at this
      rw [this]
    | some x =>
      rw [hs, Option.map_some] at this
      obtain ⟨y, hy, hv⟩ := Option.map_eq_some_iff.mp this
      rw [hy]
      dsimp only
      rw [hv]
  · rw [beq_eq_false_iff_ne.mpr hh]
    rfl

/-- A copy of the sector's rewritten, which evicts no other. -/
theorem sectKept_putSect {core : Nat} {s : State} {x y : SectLine} (hx : s.sectLine? (coreSector core) y.line = some x)
    (hs : y.sector = coreSector core) (hv : homeOfLine y.line = some (coreDie core) → y.valid = x.valid)
    (hroom : (s.sect.filter fun x => x.sector == coreSector core).length ≤ sectLines) : SectKept core s (s.putSect y) := by
  obtain ⟨hmem, hsec, hline⟩ := sectLine?_some hx
  obtain ⟨rest, hrest⟩ : ∃ rest, rest = s.sect.filter fun z => !(z.sector == y.sector && z.line == y.line) := ⟨_, rfl⟩
  have hlt : (rest.filter fun z => z.sector == coreSector core).length < (s.sect.filter fun x => x.sector == coreSector core).length := by
    have hff : rest.filter (fun z => z.sector == coreSector core) =
        (s.sect.filter fun x => x.sector == coreSector core).filter fun z => !(z.sector == y.sector && z.line == y.line) := by
      rw [hrest, List.filter_filter, List.filter_filter]
      refine List.filter_congr fun z _ => Bool.and_comm ..
    rw [hff]
    refine List.length_filter_lt_length_iff_exists.mpr ⟨x, List.mem_filter.mpr ⟨hmem, by simp [hsec]⟩, by simp [hsec, hs, hline]⟩
  have hput : s.putSect y = s.withSect y := by
    have hvic : s.victim sectLines y.sector ((rest.filter fun z => z.sector == y.sector).map (·.line)) = none := by
      unfold State.victim
      rw [List.length_map, hs, if_pos (hlt.trans_le hroom)]
    unfold State.putSect
    dsimp only
    rw [← hrest, hvic, State.withSect, ← hrest]
  have hsect : (s.putSect y).sect = y :: rest := by rw [hput, hrest]; rfl
  refine ⟨fun line hl => ?_, ?_⟩
  · by_cases he : line = y.line
    · subst he
      have := sectLine?_putSect s y
      rw [hs] at this
      rw [this, hx, Option.map_some, Option.map_some, hv hl]
    · have hfind : (s.putSect y).sectLine? (coreSector core) line = s.sectLine? (coreSector core) line := by
        have hne : (y.sector == coreSector core && y.line == line) = false := by simp [Ne.symm he]
        unfold State.sectLine?
        rw [hsect, List.find?_cons, hne, hrest]
        dsimp only
        refine find?_filter_of_imp (fun z hz => ?_) _
        simp only [Bool.and_eq_true, beq_iff_eq] at hz
        simp [hz.2, he]
      rw [hfind]
  · rw [hsect, List.filter_cons, if_pos (by simp [hs]), List.length_cons]
    exact hlt

theorem sectKept_nearStart (s : State) (core : Nat) (pol : CachePol) (w : LineWrite) : SectKept core s (s.nearStart core pol w) := by
  have hsect : (s.nearStart core pol w).sect = ((s.homeSync w.line).sect).filter fun x =>
    !(x.line == w.line && !x.remote && some (coreSector core) != some x.sector) := rfl
  refine ⟨fun line _ => ?_, ?_⟩
  · have hfind : (s.nearStart core pol w).sectLine? (coreSector core) line = (s.homeSync w.line).sectLine? (coreSector core) line := by
      unfold State.sectLine?
      rw [hsect]
      refine find?_filter_of_imp (fun z hz => ?_) _
      simp only [Bool.and_eq_true, beq_iff_eq] at hz
      simp [hz.1]
    rw [hfind, sectLine?_homeSync, Option.map_map]
    cases s.sectLine? (coreSector core) line with
    | none => rfl
    | some x =>
      simp only [Option.map_some, Function.comp]
      split <;> rfl
  · rw [hsect]
    refine (List.Sublist.filter _ List.filter_sublist).length_le.trans ?_
    show (List.filter _ (s.sect.map _)).length ≤ _
    rw [List.filter_map, List.length_map]
    refine Nat.le_of_eq (congrArg List.length (List.filter_congr fun x _ => ?_))
    simp only [Function.comp]
    split <;> rfl

theorem sectKept_farPut {s : State} {core k : Nat} {pol : CachePol} {w : LineWrite} (h : homeOfLine w.line = some k)
    (hk : k ≠ coreDie core) (hroom : (s.sect.filter fun x => x.sector == coreSector core).length ≤ sectLines) :
    SectKept core s (s.farPut core pol w) := by
  have hstart : SectKept core s (s.farStart core w) := by
    refine ⟨fun line _ => by rw [sectLine?_farStart], ?_⟩
    rw [farStart_sect]
    exact (List.Sublist.filter _ List.filter_sublist).length_le
  rcases farPut_eq s core pol w with ⟨x, hx, he⟩ | ⟨-, he⟩
  · obtain ⟨-, hsec, hline⟩ := sectLine?_some hx
    rw [he]
    refine (hstart.trans (sectKept_putSect (y := x.store w (pol == CachePol.last)) (x := x) ?_ hsec (fun hh => ?_)
      (hstart.count.trans hroom))).trans (.of_eq rfl)
    · rw [sectLine?_farStart, ← hx]
      exact congrArg _ hline
    · rw [show (x.store w (pol == CachePol.last)).line = w.line from hline, h] at hh
      exact absurd (Option.some.inj hh) hk
  · rw [he]; exact hstart

/-- A store of part of a word that is not held leaves the words that the sector cache holds. -/
theorem sectKept_storeNow {s : State} {core wave : Nat} {pol : CachePol} {w : LineWrite} (hcov : covered w.mask = 0)
    (htouch : touched w.mask ≠ 0) (hpart : s.partStore core pol w = false)
    (hroom : (s.sect.filter fun x => x.sector == coreSector core).length ≤ sectLines) : SectKept core s (s.storeNow core wave pol w) := by
  cases h : homeOfLine w.line with
  | none => exact .of_eq (by rw [storeNow_host h])
  | some k =>
    by_cases hk : k = coreDie core
    · subst hk
      obtain ⟨u, hu⟩ : ∃ u, u = s.nearStart core pol w := ⟨_, rfl⟩
      have hstart : SectKept core s u := hu ▸ sectKept_nearStart s core pol w
      have hpart' : u.partStore core pol w = false := (hstart.partStore pol w).trans hpart
      have hput : SectKept core u (u.nearPut (coreSector core) pol w) := by
        have hall : touched w.mask &&& ~~~(0 : BitVec 16) = touched w.mask := by
          rw [show ~~~(0 : BitVec 16) = BitVec.allOnes 16 by decide, BitVec.and_allOnes]
        unfold State.partStore at hpart'
        rw [h, hcov] at hpart'
        dsimp only at hpart'
        rw [hall, beq_self_eq_true, Bool.true_and] at hpart'
        unfold State.nearPut
        cases hx : u.sectLine? (coreSector core) w.line with
        | some x =>
          obtain ⟨-, hsec, hline⟩ := sectLine?_some hx
          rw [hx] at hpart'
          have hz : touched w.mask &&& ~~~x.valid = 0 := by simpa using hpart'
          have hvalid : x.valid ||| touched w.mask = x.valid := by
            refine BitVec.eq_of_getLsbD_eq fun i hi => ?_
            have hb : (touched w.mask &&& ~~~x.valid).getLsbD i = false := by rw [hz]; simp
            rw [BitVec.getLsbD_and, BitVec.getLsbD_not] at hb
            rw [BitVec.getLsbD_or]
            cases hv : x.valid.getLsbD i
            · simp only [hv, hi, decide_true, Bool.not_false, Bool.and_true] at hb
              rw [hb]
              rfl
            · rfl
          exact sectKept_putSect (y := x.store w (pol == CachePol.last)) (by rw [← hx]; exact congrArg _ hline) hsec
            (fun _ => hvalid) (hstart.count.trans hroom)
        | none =>
          rw [hx] at hpart'
          cases pol with
          | stream =>
            obtain ⟨hl, ps, he⟩ := touchHome_rest { u with mem := memPut u.mem w } w.line
            exact .of_eq (by dsimp only; rw [he])
          | dflt | last | pass =>
            exfalso
            refine htouch ?_
            simpa using hpart'
      rw [storeNow_near h, ← hu]
      exact (hstart.trans hput).trans (.of_eq rfl)
    · rw [storeNow_far h hk]
      have hl1 : SectKept core s { s with l1 := s.l1Stored core pol w } := .of_eq rfl
      exact (hl1.trans (sectKept_farPut h hk hroom)).trans (.of_eq rfl)

end Sys2Proof.Machine
end

section
/-! The fills and the publish flows under the stores of a group (R175, R200): held stores and published writes stay until a fill
completes, or a home applies them. -/

namespace Sys2Proof.Machine
open Sys2Proof.Claims

/-! ## Fills -/

/-- Every fill stays, with its held stores. -/
def FillsStay (s t : State) : Prop :=
  ∀ f ∈ s.fills, ∃ g ∈ t.fills, g.sector = f.sector ∧ g.line = f.line ∧ f.stores ⊆ g.stores

/-- No store is held that was not held before, but for those of `new`. -/
def StoresFrom (new : HeldStore → Prop) (s t : State) : Prop :=
  ∀ g ∈ t.fills, ∀ x ∈ g.stores, new x ∨ ∃ f ∈ s.fills, x ∈ f.stores

theorem FillsStay.trans {s t u : State} (h : FillsStay s t) (h' : FillsStay t u) : FillsStay s u := fun f hf => by
  obtain ⟨g, hg, h1, h2, h3⟩ := h f hf
  obtain ⟨k, hk, k1, k2, k3⟩ := h' g hg
  exact ⟨k, hk, k1.trans h1, k2.trans h2, fun x hx => k3 (h3 hx)⟩

theorem FillsStay.of_eq {s t : State} (h : t.fills = s.fills) : FillsStay s t := fun f hf => ⟨f, h ▸ hf, rfl, rfl, fun _ hx => hx⟩

theorem StoresFrom.trans {new : HeldStore → Prop} {s t u : State} (h : StoresFrom new s t) (h' : StoresFrom new t u) :
    StoresFrom new s u := fun g hg x hx => by
  rcases h' g hg x hx with e | ⟨f, hf, hx⟩
  · exact .inl e
  · exact h f hf x hx

theorem StoresFrom.mono {new new' : HeldStore → Prop} {s t : State} (h : StoresFrom new s t) (hn : ∀ x, new x → new' x) :
    StoresFrom new' s t := fun g hg x hx => (h g hg x hx).imp_left (hn x)

theorem StoresFrom.of_eq {new : HeldStore → Prop} {s t : State} (h : t.fills = s.fills) : StoresFrom new s t :=
  fun g hg _ hx => .inr ⟨g, h ▸ hg, hx⟩

/-- Both, where no store is new. -/
structure SameStores (s t : State) : Prop where
  stay : FillsStay s t
  sub  : StoresFrom (fun _ => False) s t

theorem SameStores.trans {s t u : State} (h : SameStores s t) (h' : SameStores t u) : SameStores s u :=
  ⟨h.stay.trans h'.stay, h.sub.trans h'.sub⟩

theorem SameStores.of_eq {s t : State} (h : t.fills = s.fills) : SameStores s t := ⟨.of_eq h, .of_eq h⟩

/-- Fills marked in what is not their place and their stores. -/
theorem SameStores.modBy {s t : State} {p : Fill → Bool} {f : Fill → Fill}
    (hf : ∀ x, (f x).sector = x.sector ∧ (f x).line = x.line ∧ (f x).stores = x.stores)
    (h : t.fills = Machine.modBy s.fills p f) : SameStores s t := by
  have hone (x : Fill) : (if p x then f x else x).sector = x.sector ∧ (if p x then f x else x).line = x.line ∧
      (if p x then f x else x).stores = x.stores := by
    split
    · exact hf x
    · exact ⟨rfl, rfl, rfl⟩
  refine ⟨fun x hx => ?_, fun y hy z hz => ?_⟩
  · obtain ⟨h1, h2, h3⟩ := hone x
    exact ⟨_, h ▸ List.mem_map.mpr ⟨x, hx, rfl⟩, h1, h2, fun z hz => h3 ▸ hz⟩
  · obtain ⟨x, hx, rfl⟩ := List.mem_map.mp (h ▸ hy : y ∈ Machine.modBy s.fills p f)
    exact .inr ⟨x, hx, (hone x).2.2 ▸ hz⟩

/-! ## Publish flows -/

/-- Every published message stays. -/
def PubsStay (s t : State) : Prop := ∀ j k, (s.flow .publish j k).bodies ⊆ (t.flow .publish j k).bodies

theorem PubsStay.trans {s t u : State} (h : PubsStay s t) (h' : PubsStay t u) : PubsStay s u := fun j k _ hb => h' j k (h j k hb)

theorem PubsStay.of_eq {s t : State} (h : t.flows = s.flows) : PubsStay s t := fun j k _ hb => by rwa [flow_congr h]

theorem pubsStay_send (s : State) (c : FlowClass) (j k : Nat) (b : FlitBody) : PubsStay s (s.send c j k b) := by
  intro j' k' x hx
  obtain ⟨h1, h2, h3⟩ := flow_key s c j k
  by_cases hk : c = .publish ∧ j = j' ∧ k = k'
  · obtain ⟨rfl, rfl, rfl⟩ := hk
    have he : (s.send .publish j k b).flow .publish j k = { s.flow .publish j k with
        next := (s.flow .publish j k).next + 1
        flight := (s.flow .publish j k).flight ++ [{ seq := (s.flow .publish j k).next, body := b }] } := flow_putFlow_same h1 h2 h3
    rw [he]
    simp only [Flow.bodies, List.map_append, List.mem_append] at hx ⊢
    tauto
  · have : (s.send c j k b).flow .publish j' k' = s.flow .publish j' k' :=
      flow_putFlow_ne fun ⟨e1, e2, e3⟩ => hk ⟨h1.symm.trans e1, h2.symm.trans e2, h3.symm.trans e3⟩
    rwa [this]

/-- A message under way has not been applied. -/
theorem pubDone_false {s : State} {d k : Nat} {b : FlitBody} {n : Word} (h : b ∈ (s.flow .publish d k).bodies)
    (hn : b.number d = some n) : s.pubDone d n = false := by
  unfold State.flow at h
  cases hf : s.flow? .publish d k with
  | none =>
    rw [hf] at h
    cases h
  | some f =>
    rw [hf] at h
    have hkey : f.cls = .publish ∧ f.src = d := by
      have := List.find?_some hf
      simp only [Bool.and_eq_true, beq_iff_eq] at this
      exact this.1
    have hany : (s.flows.any fun f => f.cls == .publish && f.src == d && f.bodies.any fun b => b.number d == some n) = true := by
      refine List.any_eq_true.mpr ⟨f, List.mem_of_find?_eq_some hf, ?_⟩
      simp only [hkey.1, hkey.2, beq_self_eq_true, Bool.true_and]
      exact List.any_eq_true.mpr ⟨b, h, by rw [hn]; exact beq_self_eq_true _⟩
    unfold State.pubDone
    rw [hany]
    rfl

/-! ## A store that is held -/

theorem sendFill_stays (s : State) (f : Fill) : SameStores s (s.sendFill f) ∧ PubsStay s (s.sendFill f) := by
  obtain ⟨u, hu⟩ : ∃ u : State, u = { s with fills := modBy s.fills (fun x => x.id == f.id) fun x =>
    { x with sent := true, deps := (s.die (sectorDie f.sector)).dep } } := ⟨_, rfl⟩
  have hmod : SameStores s u := .modBy (p := fun x => x.id == f.id)
    (f := fun x => { x with sent := true, deps := (s.die (sectorDie f.sector)).dep }) (fun _ => ⟨rfl, rfl, rfl⟩) (by rw [hu])
  have hpub : PubsStay s u := .of_eq (by rw [hu])
  unfold State.sendFill
  split
  · exact ⟨.of_eq rfl, .of_eq rfl⟩
  · dsimp only
    rw [← hu]
    split
    · split
      · exact ⟨hmod, hpub⟩
      · exact ⟨hmod.trans (.of_eq rfl), hpub.trans (pubsStay_send u _ _ _ _)⟩
    · exact ⟨hmod, hpub⟩

theorem sendFills_stays (s : State) : SameStores s s.sendFills ∧ PubsStay s s.sendFills := by
  have h : ∀ (l : List Fill) (s : State), SameStores s (l.foldl State.sendFill s) ∧ PubsStay s (l.foldl State.sendFill s) := by
    intro l
    induction l with
    | nil => exact fun s => ⟨.of_eq rfl, .of_eq rfl⟩
    | cons f l ih => exact fun s => ⟨(sendFill_stays s f).1.trans (ih _).1, (sendFill_stays s f).2.trans (ih _).2⟩
  exact h _ s

/-- The store is held by a fill of its sector and line. -/
def HeldIn (t : State) (core : Nat) (x : HeldStore) : Prop := ∃ f ∈ t.fills, f.sector = coreSector core ∧ f.line = x.w.line ∧ x ∈ f.stores

theorem HeldIn.stay {s t : State} {core : Nat} {x : HeldStore} (h : HeldIn s core x) (hs : FillsStay s t) : HeldIn t core x := by
  obtain ⟨f, hf, h1, h2, hx⟩ := h
  obtain ⟨g, hg, k1, k2, k3⟩ := hs f hf
  exact ⟨g, hg, k1.trans h1, k2.trans h2, k3 hx⟩

theorem HeldIn.storeId {s : State} {core : Nat} {x : HeldStore} (h : HeldIn s core x) : s.storeId x.id = true := by
  obtain ⟨f, hf, -, -, hx⟩ := h
  exact List.any_eq_true.mpr ⟨f, hf, List.any_eq_true.mpr ⟨x, hx, beq_self_eq_true _⟩⟩

theorem missWith_holds (s : State) (core : Nat) (x : HeldStore) :
    let t := s.missWith core x.w.line true false fun f => { f with stores := f.stores ++ [x] }
    FillsStay s t ∧ StoresFrom (· = x) s t ∧ HeldIn t core x ∧ PubsStay s t := by
  intro t
  obtain ⟨F, hF⟩ : ∃ F : Fill → Fill, F = fun f => { f with stores := f.stores ++ [x] } := ⟨_, rfl⟩
  have hkeep (f : Fill) : (F f).sector = f.sector ∧ (F f).line = f.line ∧ (F f).stores = f.stores ++ [x] := by rw [hF]; exact ⟨rfl, rfl, rfl⟩
  have ht : t = s.missWith core x.w.line true false F := by rw [hF]
  rw [ht]
  unfold State.missWith
  split
  · next g hg =>
    have hm := List.find?_some hg
    simp only [Bool.and_eq_true, State.merges, beq_iff_eq] at hm
    obtain ⟨⟨⟨⟨hsec, hline⟩, -⟩, -⟩, -⟩ := hm
    refine ⟨fun f hf => ?_, fun y hy z hz => ?_, ?_, .of_eq rfl⟩
    · refine ⟨_, List.mem_map.mpr ⟨f, hf, rfl⟩, ?_⟩
      split
      · obtain ⟨h1, h2, h3⟩ := hkeep { f with fillSect := f.fillSect || true }
        exact ⟨h1, h2, fun z hz => by rw [h3]; exact List.mem_append_left _ hz⟩
      · exact ⟨rfl, rfl, fun z hz => hz⟩
    · obtain ⟨f, hf, rfl⟩ := List.mem_map.mp hy
      split at hz
      · rw [(hkeep { f with fillSect := f.fillSect || true }).2.2, List.mem_append, List.mem_singleton] at hz
        rcases hz with hz | hz
        · exact .inr ⟨f, hf, hz⟩
        · exact .inl hz
      · exact .inr ⟨f, hf, hz⟩
    · obtain ⟨h1, h2, h3⟩ := hkeep { g with fillSect := g.fillSect || true }
      refine ⟨F { g with fillSect := g.fillSect || true }, List.mem_map.mpr ⟨g, List.mem_of_find?_eq_some hg, by simp⟩,
        h1.trans hsec, h2.trans hline, ?_⟩
      rw [h3]
      exact List.mem_append_right _ (List.mem_singleton_self x)
  · obtain ⟨g, hgdef⟩ : ∃ g : Fill, g = { id := s.nextId, sector := coreSector core, core, line := x.w.line, fillSect := true
                                          sent := false, deps := [] } := ⟨_, rfl⟩
    obtain ⟨u, hu⟩ : ∃ u : State, u = { s with nextId := s.nextId + 1, fills := s.fills ++ [F g] } := ⟨_, rfl⟩
    obtain ⟨hsame, hpub⟩ := sendFills_stays u
    obtain ⟨h1, h2, h3⟩ := hkeep g
    have hstay : FillsStay s u := fun f hf => ⟨f, by rw [hu]; exact List.mem_append_left _ hf, rfl, rfl, fun _ hz => hz⟩
    have hfrom : StoresFrom (· = x) s u := by
      intro y hy z hz
      rw [hu] at hy
      rcases List.mem_append.mp hy with hy | hy
      · exact .inr ⟨y, hy, hz⟩
      · rw [List.mem_singleton.mp hy, h3, hgdef] at hz
        exact .inl (by simpa using hz)
    have hheld : HeldIn u core x := ⟨F g, by rw [hu]; exact List.mem_append_right _ (List.mem_singleton_self _),
      by rw [h1, hgdef], by rw [h2, hgdef], by rw [h3]; exact List.mem_append_right _ (List.mem_singleton_self x)⟩
    have he : State.sendFills { s with nextId := s.nextId + 1, fills := s.fills ++ [F g] } = u.sendFills := by rw [hu]
    dsimp only [State.newId]
    rw [← hgdef, he]
    exact ⟨hstay.trans hsame.stay, hfrom.trans (hsame.sub.mono fun _ h => h.elim), hheld.stay hsame.stay, PubsStay.trans (.of_eq (by rw [hu])) hpub⟩

theorem nextId_missWith (s : State) (core line : Nat) (fillSect load : Bool) (f : Fill → Fill) :
    s.nextId ≤ (s.missWith core line fillSect load f).nextId := by
  unfold State.missWith
  split
  · exact Nat.le_refl _
  · obtain ⟨fs, fl, he, -⟩ := sendFills_rest { s with
      nextId := s.nextId + 1
      fills := s.fills ++ [f { id := s.nextId, sector := coreSector core, core, line, fillSect, sent := false, deps := [] }] }
    dsimp only [State.newId]
    rw [he]
    exact Nat.le_succ s.nextId

/-- A store held at the sector cache, with the next number. -/
theorem holdStore_held (s : State) (core wave : Nat) (lanes : LaneMask) (pol : CachePol) (w : LineWrite) :
    let x : HeldStore := { id := s.nextId, wave, lanes, core, pol, w }
    let t := s.holdStore core wave lanes pol w
    FillsStay s t ∧ StoresFrom (· = x) s t ∧ HeldIn t core x ∧ PubsStay s t ∧ s.nextId < t.nextId := by
  intro x t
  obtain ⟨u, hu⟩ : ∃ u : State, u = { s with nextId := s.nextId + 1 } := ⟨_, rfl⟩
  obtain ⟨h1, h2, h3, h4⟩ := missWith_holds u core x
  have ht : t = u.missWith core w.line true false fun f => { f with stores := f.stores ++ [x] } := by rw [hu]; rfl
  have hid := nextId_missWith u core w.line true false fun f => { f with stores := f.stores ++ [x] }
  rw [← ht] at hid
  have hstay : FillsStay s u := .of_eq (by rw [hu])
  have hfrom : StoresFrom (· = x) s u := .of_eq (by rw [hu])
  have hpub : PubsStay s u := .of_eq (by rw [hu])
  rw [show u.nextId = s.nextId + 1 by rw [hu]] at hid
  rw [ht]
  rw [ht] at hid
  exact ⟨hstay.trans h1, hfrom.trans h2, h3, hpub.trans h4, hid⟩

/-! ## A store performed -/

theorem publish_stays (s : State) (d k wave : Nat) (b : PubBody) (n : Nat) :
    SameStores s (s.publish d k wave b n) ∧ PubsStay s (s.publish d k wave b n) := by
  obtain ⟨u, hu⟩ : ∃ u, u = (s.bumpPub d n).2 := ⟨_, rfl⟩
  have he : s.publish d k wave b n = u.send .publish d k (.pub (s.bumpPub d n).1 wave b) := by rw [hu]; rfl
  rw [he]
  refine ⟨.of_eq (by rw [hu]; rfl), PubsStay.trans (t := u) (.of_eq (by rw [hu]; rfl)) (pubsStay_send u _ _ _ _)⟩

theorem storeNow_stays (s : State) (core wave : Nat) (pol : CachePol) (w : LineWrite) :
    SameStores s (s.storeNow core wave pol w) ∧ PubsStay s (s.storeNow core wave pol w) := by
  cases h : homeOfLine w.line with
  | none => rw [storeNow_host h]; exact ⟨.of_eq rfl, .of_eq rfl⟩
  | some k =>
    by_cases hk : k = coreDie core
    · subst hk
      obtain ⟨m, ls, l1, hs, hl, ps, ws, -, he⟩ := storeNow_near_rest (wave := wave) (pol := pol) h
      rw [he]
      exact ⟨.of_eq rfl, .of_eq rfl⟩
    · have hput (u : State) : SameStores u (u.farPut core pol w) ∧ PubsStay u (u.farPut core pol w) := by
        have hstart : SameStores u (u.farStart core w) := .modBy (f := Fill.spoil) (fun _ => ⟨rfl, rfl, rfl⟩) rfl
        rcases farPut_eq u core pol w with ⟨x, -, he⟩ | ⟨-, he⟩
        · obtain ⟨m, ls, ps, hp⟩ := putSect_rest (u.farStart core w) (x.store w (pol == CachePol.last))
          rw [he, hp]
          exact ⟨hstart.trans (.of_eq rfl), .of_eq rfl⟩
        · rw [he]
          exact ⟨hstart, .of_eq rfl⟩
      obtain ⟨u, hu⟩ : ∃ u : State, u = { s with l1 := s.l1Stored core pol w } := ⟨_, rfl⟩
      have hstart : SameStores s u ∧ PubsStay s u := ⟨.of_eq (by rw [hu]), .of_eq (by rw [hu])⟩
      obtain ⟨h1, h2⟩ := hput u
      obtain ⟨h3, h4⟩ := publish_stays (u.farPut core pol w) (coreDie core) k wave (.writes [w]) 1
      rw [storeNow_far h hk, ← hu]
      exact ⟨(hstart.1.trans h1).trans h3, (hstart.2.trans h2).trans h4⟩

/-- The publication of a store to a line of another die: its number is the die's count afterwards. -/
theorem storeNow_published {s : State} {core wave k : Nat} {pol : CachePol} {w : LineWrite} (h : homeOfLine w.line = some k)
    (hk : k ≠ coreDie core) :
    let t := s.storeNow core wave pol w
    let stamp := vecSet (s.die (coreDie core)).dep (coreDie core) ((s.die (coreDie core)).pub + 1)
    .pub stamp wave (.writes [w]) ∈ (t.flow .publish (coreDie core) k).bodies ∧
      ((∃ x ∈ s.dies, x.id = coreDie core) → (∃ x ∈ t.dies, x.id = coreDie core) ∧ (t.die (coreDie core)).dep = stamp ∧
        (t.die (coreDie core)).pub = (s.die (coreDie core)).pub + 1) := by
  intro t stamp
  obtain ⟨v, hv⟩ : ∃ v : State, v = { s with l1 := s.l1Stored core pol w } := ⟨_, rfl⟩
  obtain ⟨u, hu⟩ : ∃ u, u = v.farPut core pol w := ⟨_, rfl⟩
  obtain ⟨m, ls, fs, ps, ws, -, -, hrest⟩ := farPut_rest v core pol w
  have hdies : u.dies = s.dies := by
    rw [hu, hrest]
    show v.dies = s.dies
    rw [hv]
  have hdie (d : Nat) : u.die d = s.die d := by unfold State.die; rw [hdies]
  obtain ⟨f, hf⟩ : ∃ f : Die → Die, f = fun x => { x with
    pub := (s.die (coreDie core)).pub + 1, dep := stamp, app := vecSet x.app (coreDie core) ((s.die (coreDie core)).pub + 1) } := ⟨_, rfl⟩
  have ht : t = (u.modDie (coreDie core) f).send .publish (coreDie core) k (.pub stamp wave (.writes [w])) := by
    show s.storeNow core wave pol w = _
    rw [storeNow_far h hk, ← hv, ← hu]
    unfold State.publish State.bumpPub
    dsimp only
    rw [hdie, hf]
    rfl
  have hdie' : t.die (coreDie core) = (u.modDie (coreDie core) f).die (coreDie core) := by rw [ht]; rfl
  refine ⟨by rw [ht]; exact send_bodies .., fun ⟨x, hx, hxd⟩ => ?_⟩
  rw [hdie']
  rcases die_modDie_same (s := u) (d := coreDie core) (f := f) (fun _ => by rw [hf]) with ⟨-, hno⟩ | ⟨he, -⟩
  · exact absurd hxd (hno x (hdies ▸ hx))
  · refine ⟨⟨f x, ?_, by rw [hf]; exact hxd⟩, by rw [he, hf], by rw [he, hf]⟩
    rw [ht]
    exact List.mem_map.mpr ⟨x, hdies ▸ hx, if_pos (beq_iff_eq.mpr hxd)⟩

/-- A store on the line's home die, or to host memory, publishes nothing. -/
theorem storeNow_dies {s : State} {core wave : Nat} {pol : CachePol} {w : LineWrite}
    (h : homeOfLine w.line = none ∨ homeOfLine w.line = some (coreDie core)) : (s.storeNow core wave pol w).dies = s.dies := by
  rcases h with h | h
  · rw [storeNow_host h]
  · obtain ⟨m, ls, l1, hs, hl, ps, ws, -, he⟩ := storeNow_near_rest (wave := wave) (pol := pol) h
    rw [he]

theorem acquire_stays (s : State) (core : Nat) (p : Scope) : SameStores s (s.acquire core p) ∧ PubsStay s (s.acquire core p) := by
  have hflows : PubsStay s (s.acquire core p) := .of_eq (by rw [acquire_rest])
  refine ⟨?_, hflows⟩
  have hfar (g : Fill → Fill) (hg : ∀ x, (g x).sector = x.sector ∧ (g x).line = x.line ∧ (g x).stores = x.stores) :
      SameStores s { s with fills := modBy s.fills (fun f => f.sector == coreSector core && f.far) g } := .modBy hg rfl
  cases p with
  | wave | wg | gang => exact .of_eq rfl
  | sect | die => exact .modBy (f := Fill.noL1) (fun _ => ⟨rfl, rfl, rfl⟩) rfl
  | pkg | sys =>
    refine (hfar Fill.spoil fun _ => ⟨rfl, rfl, rfl⟩).trans ?_
    exact .modBy (f := fun f => { f.noL1 with behind := true }) (fun _ => ⟨rfl, rfl, rfl⟩) rfl

end Sys2Proof.Machine
end

section
/-! The waves under the stores of a word (R105, R107, R185, R220): the issuing threads note accesses that are not performed yet, and lines
that are written wake what WAITM held. `StoreRun.ends` gives the frame of the word. -/

namespace Sys2Proof.Machine
open Sys2Proof.Claims

/-! ## What the stores make of a wave -/

/-- The threads of `m` have noted accesses, or forgotten performed ones (R193 to R195). -/
structure Marked (m : LaneMask) (v v' : Wave) : Prop where
  eq     : v' = { v with threads := v'.threads }
  length : v'.threads.length = v.threads.length
  thread : ∀ l, v'.thread l =
    if m.getLsbD l = true then { v.thread l with acqs := (v'.thread l).acqs, rels := (v'.thread l).rels } else v.thread l

theorem Marked.refl (m : LaneMask) (v : Wave) : Marked m v v := ⟨rfl, rfl, fun l => by split <;> rfl⟩

theorem Marked.trans {m : LaneMask} {u v w : Wave} (h : Marked m u v) (h' : Marked m v w) : Marked m u w := by
  refine ⟨by rw [h'.eq, h.eq], h'.length.trans h.length, fun l => ?_⟩
  have h1 := h.thread l
  have h2 := h'.thread l
  split at h1
  · next hl =>
    rw [if_pos hl] at h2 ⊢
    rw [h1] at h2
    exact h2
  · next hl =>
    rw [if_neg hl] at h2 ⊢
    exact h2.trans h1

theorem Marked.st {m : LaneMask} {v v' : Wave} (h : Marked m v v') (l : Nat) :
    (v'.thread l).st = (v.thread l).st ∧ (v'.thread l).todo = (v.thread l).todo := by
  have := h.thread l
  split at this <;> rw [this] <;> exact ⟨rfl, rfl⟩

/-- A wave is woken with what its threads have noted. -/
theorem Marked.rung {m : LaneMask} {u v v' : Wave} (h : Marked m u v) (hr : Rung v v') : ∃ x, Rung u x ∧ Marked m x v' := by
  have hmon : v.monitor = u.monitor := by rw [h.eq]
  cases hr with
  | same => exact ⟨u, .same, h⟩
  | event n hn =>
    refine ⟨_, .event n (hmon ▸ hn), ?_, h.length, h.thread⟩
    show ({ v with monitor := some { n with event := true } } : Wave) = _
    rw [h.eq]
  | woken hn =>
    refine ⟨_, .woken (hmon ▸ hn), ?_, ?_, fun l => ?_⟩
    · show ({ v with monitor := none, threads := v.woken.threads } : Wave) = _
      rw [h.eq]
      rfl
    · show (v.threads.map _).length = (u.threads.map _).length
      rw [List.length_map, List.length_map, h.length]
    · have hl := h.thread l
      have hhold : (v.thread l).hold? = (u.thread l).hold? := by unfold Thread.hold?; rw [(h.st l).1]
      rw [woken_thread, woken_thread, hhold]
      split at hl
      · next hm =>
        rw [if_pos hm]
        split
        · rw [hl, goOn_eq, goOn_eq (u.thread l)]
          unfold Thread.goOn
          dsimp only
          split <;> rfl
        · exact hl
      · next hm => rw [if_neg hm, hl]

/-- Both: lines that the wave watches may have been written, and the threads of `m` have noted accesses. -/
def Noted (m : LaneMask) (v v' : Wave) : Prop := ∃ u, Rung v u ∧ Marked m u v'

theorem Noted.refl (m : LaneMask) (v : Wave) : Noted m v v := ⟨v, .same, .refl m v⟩

theorem Noted.trans {m : LaneMask} {u v w : Wave} (h : Noted m u v) (h' : Noted m v w) : Noted m u w := by
  obtain ⟨x, hx, hm⟩ := h
  obtain ⟨y, hy, hn⟩ := h'
  obtain ⟨z, hz, hk⟩ := hm.rung hy
  exact ⟨z, hx.trans hz, hk.trans hn⟩

section
variable {m : LaneMask} {v v' : Wave} (h : Noted m v v')
include h

theorem Noted.eq : v' = { v with monitor := v'.monitor, threads := v'.threads } := by
  obtain ⟨u, hu, hm⟩ := h
  rw [hm.eq, hu.eq]

theorem Noted.id : v'.id = v.id := by rw [h.eq]

theorem Noted.length : v'.threads.length = v.threads.length := by
  obtain ⟨u, hu, hm⟩ := h
  exact hm.length.trans hu.length

/-- A thread that the word does not issue is as it was, or WAITM held it and it goes on. -/
theorem Noted.other {l : Nat} (hl : m.getLsbD l = false) :
    v'.thread l = v.thread l ∨ (v.thread l).st = .held .waitm ∧ v'.thread l = (v.thread l).goOn := by
  obtain ⟨u, hu, hm⟩ := h
  have := hm.thread l
  rw [if_neg (by simp [hl])] at this
  rw [this]
  exact hu.thread l

/-- A thread that issues has only noted accesses. -/
theorem Noted.mine {l : Nat} (hl : m.getLsbD l = true) (hr : (v.thread l).st = .run) :
    v'.thread l = { v.thread l with acqs := (v'.thread l).acqs, rels := (v'.thread l).rels } := by
  obtain ⟨u, hu, hm⟩ := h
  have := hm.thread l
  rw [if_pos hl] at this
  rcases hu.thread l with e | ⟨e, -⟩
  · rw [e] at this
    exact this
  · rw [hr] at e
    cases e

theorem Noted.regs (l : Nat) : (v'.thread l).v = (v.thread l).v := by
  obtain ⟨u, hu, hm⟩ := h
  have hthread : (v'.thread l).v = (u.thread l).v := by
    have := hm.thread l
    split at this <;> rw [this]
  rw [hthread]
  rcases hu.thread l with e | ⟨-, e⟩
  · rw [e]
  · rw [e, goOn_eq]

theorem Noted.waits {l : Nat} {x : Hold} (hx : (v'.thread l).waits x) : (v.thread l).waits x := by
  obtain ⟨u, hu, hm⟩ := h
  have hu' : (u.thread l).waits x := by
    unfold Thread.waits at *
    rwa [(hm.st l).1, (hm.st l).2] at hx
  rcases hu.thread l with e | ⟨hst, e⟩
  · rwa [e] at hu'
  · refine (ThreadKept.one hst nofun).waits ?_
    have : ({ v.thread l with count := 0 } : Thread).goOn = { (v.thread l).goOn with count := 0 } := by
      unfold Thread.goOn
      dsimp only
      split <;> rfl
    rw [this]
    rw [e] at hu'
    exact hu'

end

/-! ## What they make of a state -/

/-- The mask for a wave: its own threads issue, or none. -/
def laneMaskOf (m : LaneMask) (id : Nat) (v : Wave) : LaneMask := if v.id = id then m else 0

/-- `t` is `s` after stores by the threads of `m` of wave `id`. -/
structure StoreRun (m : LaneMask) (id : Nat) (s t : State) : Prop where
  rest  : t = { s with waves := t.waves, gangs := t.gangs, picks := t.picks, nextId := t.nextId, mem := t.mem
                       sect := t.sect, l1 := t.l1, fills := t.fills, flows := t.flows, dies := t.dies, tlb := t.tlb
                       sectTlb := t.sectTlb, hostLines := t.hostLines, homeLines := t.homeLines, poison := t.poison
                       codeErrs := t.codeErrs, seals := t.seals, versions := t.versions }
  waves : List.Forall₂ (fun v v' => Noted (laneMaskOf m id v) v v') s.waves t.waves
  gangs : ∀ g, (t.gang? g).map (·.launch) = (s.gang? g).map (·.launch)

theorem StoreRun.refl (m : LaneMask) (id : Nat) (s : State) : StoreRun m id s s :=
  ⟨rfl, List.forall₂_same.mpr fun _ _ => .refl _ _, fun _ => rfl⟩

theorem StoreRun.trans {m : LaneMask} {id : Nat} {s t u : State} (h : StoreRun m id s t) (h' : StoreRun m id t u) : StoreRun m id s u := by
  refine ⟨by rw [h'.rest, h.rest], ?_, fun g => (h'.gangs g).trans (h.gangs g)⟩
  refine forall₂_trans (R := fun v v' => Noted (laneMaskOf m id v) v v') (fun a b c hab hbc => ?_) h.waves h'.waves
  have : laneMaskOf m id b = laneMaskOf m id a := by unfold laneMaskOf; rw [hab.id]
  exact hab.trans (this ▸ hbc)

theorem StoreRun.of_rung {m : LaneMask} {id : Nat} {s t : State} (hw : RungAll s.waves t.waves)
    (hg : ∀ g, (t.gang? g).map (·.launch) = (s.gang? g).map (·.launch))
    (hrest : t = { s with waves := t.waves, gangs := t.gangs, picks := t.picks, nextId := t.nextId, mem := t.mem
                          sect := t.sect, l1 := t.l1, fills := t.fills, flows := t.flows, dies := t.dies, tlb := t.tlb
                          sectTlb := t.sectTlb, hostLines := t.hostLines, homeLines := t.homeLines, poison := t.poison
                          codeErrs := t.codeErrs, seals := t.seals, versions := t.versions }) : StoreRun m id s t :=
  ⟨hrest, forall₂_imp (fun _ v' hr => ⟨v', hr, .refl _ _⟩) hw, hg⟩

section
variable {m : LaneMask} {id : Nat} {s t : State} (h : StoreRun m id s t)
include h

theorem StoreRun.cur : t.cur = s.cur := by rw [h.rest]

theorem StoreRun.wave {i : Nat} {v : Wave} (hv : s.wave? i = some v) :
    ∃ v', t.wave? i = some v' ∧ Noted (laneMaskOf m id v) v v' :=
  find?_forall₂_key (k := Wave.id) (R := fun v v' => Noted (laneMaskOf m id v) v v') (fun _ _ hn => hn.id) h.waves hv

theorem StoreRun.holding {i : Nat} {p : Hold → Prop} (hp : t.holding i p) : s.holding i p := by
  obtain ⟨v', hv', hid, l, x, hx, hpx⟩ := hp
  obtain ⟨v, hv, hn⟩ := forall₂_mem h.waves hv'
  exact ⟨v, hv, hn.id ▸ hid, l, x, hn.waits hx, hpx⟩

/-- A gang is versioned as before. -/
theorem StoreRun.versioned (w : Wave) : t.versioned (t.gangOf w) = s.versioned (s.gangOf w) := by
  have hg := h.gangs w.gang
  have hl : (t.gangOf w).launch = (s.gangOf w).launch := by
    unfold State.gangOf
    cases hs : s.gang? w.gang with
    | none =>
      rw [hs, Option.map_none, Option.map_eq_none_iff] at hg
      rw [hg]
    | some x =>
      rw [hs, Option.map_some] at hg
      obtain ⟨y, hy, hl⟩ := Option.map_eq_some_iff.mp hg
      rw [hy]
      exact hl
  have hls : t.launches = s.launches := by rw [h.rest]
  unfold State.versioned State.launchOf State.launch?
  rw [hls, hl]

end

/-! ## The end of the word -/

/-- What becomes of a thread that did not issue, through the stores and the release after them. -/
theorem woken_of {U : State} {v v1 v' : Wave} {l : Nat} (hs : v1.s = v.s) (hg : v1.grant = v.grant)
    (ht : v1.thread l = v.thread l ∨ (v.thread l).st = .held .waitm ∧ v1.thread l = (v.thread l).goOn) (hk : WaveKept U v1 v') :
    Woken v v' l := by
  have hv : (v1.thread l).v = (v.thread l).v := by
    rcases ht with e | ⟨-, e⟩
    · rw [e]
    · rw [e, goOn_eq]
  refine ⟨?_, fun r => ?_⟩
  · have hkept := hk.threads l
    rw [hv] at hkept
    exact ht.imp (fun e => by rwa [e] at hkept) fun ⟨hst, e⟩ => ⟨hst, by rwa [e] at hkept⟩
  · have hraw : v1.raw l r = v.raw l r := raw_congr hs hv r
    have := hk.raw l r
    unfold Granted at *
    rwa [hraw, hg] at this

/-- The frame of a word that has stored, and what its threads have noted. -/
theorem StoreRun.ends {s U : State} {c : Issue} {w : Wave} (hi : Issuing s c w) (h : StoreRun c.lanes w.id s U) :
    ∃ v w', U.wave? w.id = some v ∧ MemoryFrame s c w U.finishIssue w' ∧ StorageOnly s U.finishIssue ∧
      (∀ l, c.lanes.getLsbD l = true → (w'.thread l).acqs = (v.thread l).acqs ∧ (w'.thread l).rels = (v.thread l).rels) ∧
      ∃ ws gs f p n, U.finishIssue = { U with cur := none, waves := ws, gangs := gs, fresh := f, picks := p, nextId := n } := by
  have hwave : s.wave? w.id = some w := hi.waveId ▸ hi.wave
  obtain ⟨v, hv, hn⟩ := h.wave hwave
  rw [laneMaskOf, if_pos rfl] at hn
  have hcur : U.cur = some c := h.cur.trans hi.cur
  have hid : c.wave = w.id := hi.waveId
  have hfin := finishIssue_settled hcur (hid ▸ hv) hi.traps hi.xlates hi.waits
  unfold State.issued at hfin
  rw [hid] at hfin
  obtain ⟨w', hE⟩ := settled_ended hi.mild hv hfin
  obtain ⟨x, hx⟩ : ∃ x, x = Wave.issued c v := ⟨_, rfl⟩
  rw [← hx] at hE
  have hshape : x = { v with threads := x.threads, lead := x.lead, yieldTrk := x.yieldTrk, yieldGrp := x.yieldGrp } := by
    rw [hx, issued_shape]
  have hveq := hn.eq
  have hxid : x.id = w.id := by rw [hshape]; exact hn.id
  have hxs : x.s = w.s := by rw [hshape, hveq]
  have hxgrant : x.grant = w.grant := by rw [hshape, hveq]
  have hxpend : x.pend = w.pend := by rw [hshape, hveq]
  have hxk : x.k = w.k := by rw [hshape, hveq]
  have hth (l : Nat) : x.thread l = if c.lanes.getLsbD l = true then
      { v.thread l with count := 0, pc := c.nextPc, commitDone := false } else v.thread l := by
    rw [hx, issued_thread, hi.advance, thread_mapLanes]
    by_cases hl : c.lanes.getLsbD l = true
    · simp [hl, hn.length ▸ hi.lt hl]
    · simp [hl]
  have hmine {l : Nat} (hl : c.lanes.getLsbD l = true) : w'.thread l = { w.thread l with
      pc := c.nextPc, count := 0, commitDone := false, v := (w'.thread l).v, acqs := (v.thread l).acqs, rels := (v.thread l).rels } := by
    have hrun := hi.runs l hl
    have hvl := hn.mine hl hrun
    have hxl : x.thread l = { w.thread l with
        count := 0, pc := c.nextPc, commitDone := false, acqs := (v.thread l).acqs, rels := (v.thread l).rels } := by
      rw [hth, if_pos hl, hvl]
    have := hE.kept.goes (l := l) (by rw [hxl]; exact hrun)
    rw [hxl] at this
    exact this
  have hwaits {l : Nat} {y : Hold} (hy : (x.thread l).waits y) : (w.thread l).waits y := by
    refine hn.waits ?_
    rw [hth] at hy
    split at hy <;> exact hy
  have hregs (l : Nat) : (x.thread l).v = (w.thread l).v := by
    rw [hth, ← hn.regs l]
    split <;> rfl
  have hlook := hE.mine
  rw [hxid] at hlook
  refine ⟨v, w', hv, ⟨hlook, ?_, fun k l => ?_, fun l r _ => ?_, ?_, ?_, fun l hl => ?_, fun l hl => ?_, fun p hp => ?_,
    fun i y hne hy => ?_⟩, ?_, fun l hl => ?_, ?_⟩
  · rw [hE.kept.rest, hshape, hveq]
  · have hk : x.kbit k l = w.kbit k l := by unfold Wave.kbit; rw [hxk]
    exact (hE.kept.masks k l).imp (fun e => e.trans hk) fun ⟨hw, e⟩ => ⟨hwaits hw, e⟩
  · have hraw : x.raw l r = w.raw l r := raw_congr hxs (hregs l) r
    have := hE.kept.raw l r
    unfold Granted at *
    rwa [hraw, hxgrant] at this
  · exact hxgrant ▸ hE.kept.grant.1
  · exact hE.kept.grant.2.imp (fun e => e.trans hxgrant) fun e => h.holding (hxid ▸ e)
  · exact woken_of hxs hxgrant (by rw [hth, if_neg (by simp [hl])]; exact hn.other hl) hE.kept
  · rw [hmine hl]
  · obtain ⟨ps, hps, -⟩ := hE.kept.pend
    exact ⟨p, by rw [hps, hxpend]; exact List.mem_append_left _ hp, rfl⟩
  · obtain ⟨y1, hy1, hyn⟩ := h.wave hy
    have hzero : laneMaskOf c.lanes w.id y = 0 := by
      have : y.id = i := by simpa using List.find?_some hy
      rw [laneMaskOf, if_neg (this ▸ hne)]
    rw [hzero] at hyn
    obtain ⟨y', hy', hk⟩ := hE.others i y1 (hxid.symm ▸ hne) hy1
    have hyeq := hyn.eq
    refine ⟨y', hy', by rw [hk.rest, hyeq], fun l => woken_of (by rw [hyeq]) (by rw [hyeq]) (hyn.other (by simp)) hk⟩
  · unfold StorageOnly
    rw [hE.rest, h.rest]
  · rw [hmine hl]
    exact ⟨rfl, rfl⟩
  · exact ⟨_, _, _, _, _, hE.rest⟩

end Sys2Proof.Machine
end

section
/-! Accesses that are not performed yet, in the halves of the order field (R107, R188, R193 to R195): what `noteOrder` adds, and what stays
noted. -/

namespace Sys2Proof.Machine
open Sys2Proof.Claims

/-- The threads of `m` have noted the access in the halves that the order field has. -/
def Wave.Notes (v : Wave) (m : LaneMask) (r : Ord) (x : OrdRef) : Prop :=
  ∀ k, m.getLsbD k = true → (ordAcq r = true → x ∈ (v.thread k).acqs) ∧ (ordRel r = true → x ∈ (v.thread k).rels)

/-- What threads had noted and is not performed is noted still. -/
def OrdersKept (s : State) (w v v' : Wave) : Prop := ∀ k, (v.thread k).acqs ⊆ (v'.thread k).acqs ∧
  ∀ x ∈ (v.thread k).rels, s.performed w x.scope x.what = false → x ∈ (v'.thread k).rels

theorem OrdersKept.refl (s : State) (w v : Wave) : OrdersKept s w v v := fun _ => ⟨fun _ hx => hx, fun _ hx _ => hx⟩

theorem Wave.Notes.kept {s : State} {w v v' : Wave} {m : LaneMask} {r : Ord} {x : OrdRef} (h : v.Notes m r x)
    (hk : OrdersKept s w v v') (hp : s.performed w x.scope x.what = false) : v'.Notes m r x := fun k hm =>
  ⟨fun ha => (hk k).1 ((h k hm).1 ha), fun hr => (hk k).2 x ((h k hm).2 hr) hp⟩

theorem Rung.orders {v v' : Wave} (h : Rung v v') (k : Nat) :
    (v'.thread k).acqs = (v.thread k).acqs ∧ (v'.thread k).rels = (v.thread k).rels := by
  rcases h.thread k with e | ⟨-, e⟩
  · rw [e]; exact ⟨rfl, rfl⟩
  · rw [e, goOn_eq]; exact ⟨rfl, rfl⟩

theorem OrdersKept.rung {s : State} {w v v1 v' : Wave} (h : Rung v v1) (hk : OrdersKept s w v1 v') : OrdersKept s w v v' := fun k => by
  obtain ⟨ha, hr⟩ := h.orders k
  have := hk k
  rwa [ha, hr] at this

/-! ## `noteOrder` -/

/-- A thread that notes an access. -/
def State.notedThread (s : State) (w : Wave) (p : Scope) (r : Ord) (x : OrdAccess) (t : Thread) : Thread :=
  { t with acqs := if ordAcq r then { scope := p, what := x } :: t.acqs else t.acqs
           rels := if ordRel r then { scope := p, what := x } :: t.rels.filter (fun y => !(s.performed w y.scope y.what)) else t.rels }

theorem noteOrder_eq (s : State) (w : Wave) (m : LaneMask) (p : Scope) (r : Ord) (x : OrdAccess) : s.noteOrder w m p r x =
    if r = .plain || s.performed w p x then s else s.modWave w.id fun v => v.mapLanes m fun _ t => s.notedThread w p r x t := rfl

theorem noted_marked (s : State) (w : Wave) {m M : LaneMask} (hm : ∀ k, m.getLsbD k = true → M.getLsbD k = true) (p : Scope) (r : Ord)
    (x : OrdAccess) (v : Wave) : Marked M v (v.mapLanes m fun _ t => s.notedThread w p r x t) := by
  refine ⟨rfl, length_mapLanes .., fun l => ?_⟩
  rw [thread_mapLanes]
  split
  · next h => rw [if_pos (hm l h.1)]; rfl
  · split <;> rfl

theorem noteOrder_rest (s : State) (w : Wave) (m : LaneMask) (p : Scope) (r : Ord) (x : OrdAccess) :
    ∃ ws, s.noteOrder w m p r x = { s with waves := ws } := by
  rw [noteOrder_eq]
  split
  · exact ⟨_, rfl⟩
  · exact ⟨_, rfl⟩

theorem noteOrder_run (s : State) (w : Wave) {m M : LaneMask} (hm : ∀ k, m.getLsbD k = true → M.getLsbD k = true) (p : Scope) (r : Ord)
    (x : OrdAccess) : StoreRun M w.id s (s.noteOrder w m p r x) := by
  rw [noteOrder_eq]
  split
  · exact .refl M w.id s
  · refine ⟨rfl, forall₂_map (R := fun v v' => Noted (laneMaskOf M w.id v) v v') (fun v => ?_) s.waves, fun _ => rfl⟩
    split
    · next h =>
      rw [laneMaskOf, if_pos (beq_iff_eq.mp h)]
      exact ⟨v, .same, noted_marked s w hm p r x v⟩
    · exact .refl _ v

/-- The issuing wave after `noteOrder`: what it had noted stays, and the access is noted where it is not performed. -/
theorem noteOrder_notes {s : State} {w v : Wave} (hv : s.wave? w.id = some v) {m : LaneMask}
    (hlt : ∀ k, m.getLsbD k = true → k < v.threads.length) (p : Scope) (r : Ord) (x : OrdAccess) :
    ∃ v', (s.noteOrder w m p r x).wave? w.id = some v' ∧ OrdersKept s w v v' ∧
      (s.performed w p x = false → v'.Notes m r ⟨p, x⟩) := by
  rw [noteOrder_eq]
  split
  · next h =>
    refine ⟨v, hv, .refl s w v, fun hp k _ => ?_⟩
    obtain rfl : r = .plain := by simpa [hp] using h
    exact ⟨nofun, nofun⟩
  · obtain ⟨F, hF⟩ : ∃ F : Wave → Wave, F = fun v => v.mapLanes m fun _ t => s.notedThread w p r x t := ⟨_, rfl⟩
    have hth (k : Nat) : (F v).thread k = if m.getLsbD k = true ∧ k < v.threads.length then s.notedThread w p r x (v.thread k)
        else v.thread k := by rw [hF, thread_mapLanes]
    refine ⟨F v, ?_, fun k => ?_, fun _ k hk => ?_⟩
    · rw [← hF, wave?_modWave (fun _ => by rw [hF]; rfl), hv, Option.map_some, if_pos rfl]
    · rw [hth]
      split
      · unfold State.notedThread
        dsimp only
        refine ⟨fun y hy => ?_, fun y hy hp => ?_⟩
        · split
          · exact List.mem_cons_of_mem _ hy
          · exact hy
        · split
          · exact List.mem_cons_of_mem _ (List.mem_filter.mpr ⟨hy, by rw [hp]; rfl⟩)
          · exact hy
      · exact ⟨fun _ hy => hy, fun _ hy _ => hy⟩
    · rw [hth, if_pos ⟨hk, hlt k hk⟩]
      unfold State.notedThread
      dsimp only
      exact ⟨fun ha => by rw [if_pos ha]; exact List.mem_cons_self, fun hr => by rw [if_pos hr]; exact List.mem_cons_self⟩

/-! ## Stores that are noted -/

/-- A store that a sector cache holds is not performed beyond the workgroup. -/
theorem performed_held {s : State} {w : Wave} {p : Scope} {core : Nat} {x : HeldStore} (h : HeldIn s core x) (h1 : p ≠ .wave)
    (h2 : p ≠ .wg) : s.performed w p (.held x.id) = false := by
  have := h.storeId
  unfold State.performed
  cases p with
  | wave => exact absurd rfl h1
  | wg => exact absurd rfl h2
  | gang | sect | die | pkg | sys => simp [this]

/-- A published write that is under way is not performed at .die and wider. -/
theorem performed_published {s : State} {w : Wave} {p : Scope} {d k wave line : Nat} {stamp : List Word} {ws : List LineWrite}
    (h : .pub stamp wave (.writes ws) ∈ (s.flow .publish d k).bodies) (hp : p = .die ∨ p = .pkg ∨ p = .sys) :
    s.performed w p (.write d (stamp.getD d 0) line) = false := by
  have hdone : s.pubDone d (stamp.getD d 0) = false := pubDone_false h rfl
  rcases hp with rfl | rfl | rfl <;> exact hdone

/-- The store `lw` of the threads `m` is held, and they have noted it. -/
def StoreHeld (w : Wave) (p : Scope) (r : Ord) (pol : CachePol) (m : LaneMask) (lw : LineWrite) (t : State) (v : Wave) : Prop :=
  ∃ x : HeldStore, HeldIn t w.core x ∧ x.wave = w.id ∧ x.core = w.core ∧ x.pol = pol ∧ x.w = lw ∧ x.lanes = m ∧
    (p ≠ .wave → p ≠ .wg → v.Notes m r ⟨p, .held x.id⟩)

/-- The state lists the die, and its dependency vector has an entry for it. -/
def DieKnown (d : Nat) (t : State) : Prop := (∃ x ∈ t.dies, x.id = d) ∧ d < (t.die d).dep.length

/-- The store `lw` of the threads `m` is published to die `h`, and they have noted it if `known`. -/
def StorePublished (w : Wave) (p : Scope) (r : Ord) (m : LaneMask) (lw : LineWrite) (known : Prop) (h : Nat) (t : State) (v : Wave) :
    Prop :=
  ∃ stamp, .pub stamp w.id (.writes [lw]) ∈ (t.flow .publish (coreDie w.core) h).bodies ∧
    ((p = .die ∨ p = .pkg ∨ p = .sys) → known →
      v.Notes m r ⟨p, .write (coreDie w.core) (stamp.getD (coreDie w.core) 0) lw.line⟩)

theorem StoreHeld.kept {w : Wave} {p : Scope} {r : Ord} {pol : CachePol} {m : LaneMask} {lw : LineWrite} {s t u : State} {v v' : Wave}
    (h : StoreHeld w p r pol m lw s v) (hf : FillsStay s u) (hut : FillsStay u t) (hk : OrdersKept u w v v') :
    StoreHeld w p r pol m lw t v' := by
  obtain ⟨x, hx, h1, h2, h3, h4, h5, hn⟩ := h
  exact ⟨x, (hx.stay hf).stay hut, h1, h2, h3, h4, h5, fun e1 e2 => (hn e1 e2).kept hk (performed_held (hx.stay hf) e1 e2)⟩

theorem StorePublished.kept {w : Wave} {p : Scope} {r : Ord} {m : LaneMask} {lw : LineWrite} {known : Prop} {h : Nat} {s t u : State}
    {v v' : Wave} (hs : StorePublished w p r m lw known h s v) (hf : PubsStay s u) (hut : PubsStay u t) (hk : OrdersKept u w v v') :
    StorePublished w p r m lw known h t v' := by
  obtain ⟨stamp, hb, hn⟩ := hs
  exact ⟨stamp, hut _ _ (hf _ _ hb), fun hp hkn => (hn hp hkn).kept hk (performed_published (hf _ _ hb) hp)⟩

end Sys2Proof.Machine
end

section
/-! One store of a gang that is not versioned (R105, R107, R175, R200): held at the sector cache or performed, and noted by its threads where
it is not performed yet. -/

namespace Sys2Proof.Machine
open Sys2Proof.Claims

/-! ## What a store does to storage -/

/-- Every held store has a number below the next one. -/
def IdsBelow (s : State) : Prop := ∀ f ∈ s.fills, ∀ x ∈ f.stores, x.id < s.nextId

/-- Two states that agree in what a store looks at. -/
structure SameStorage (s t : State) : Prop where
  mem      : t.mem = s.mem
  sect     : t.sect = s.sect
  fills    : t.fills = s.fills
  flows    : t.flows = s.flows
  dies     : t.dies = s.dies
  nextId   : t.nextId = s.nextId
  versions : t.versions = s.versions

/-- What a store through the caches of `core` does to storage, one that enters no version. -/
structure LineStep (core : Nat) (pol : CachePol) (lw : LineWrite) (s t : State) : Prop where
  fills    : FillsStay s t
  pubs     : PubsStay s t
  versions : t.versions = s.versions
  ids      : IdsBelow s → IdsBelow t
  known    : DieKnown (coreDie core) s → DieKnown (coreDie core) t
  held     : s.partStore core pol lw = true → t.mem = s.mem ∧ t.sect = s.sect
  now      : s.partStore core pol lw = false → Coherent s lw.line →
    StoredBytes (homeOfLine lw.line = none ∨ homeOfLine lw.line = some (coreDie core)) s t lw
  kept     : s.partStore core pol lw = false → covered lw.mask = 0 → touched lw.mask ≠ 0 →
    (s.sect.filter fun x => x.sector == coreSector core).length ≤ sectLines → SectKept core s t

theorem partStore_congr {s t : State} (h : t.sect = s.sect) (core : Nat) (pol : CachePol) (w : LineWrite) :
    t.partStore core pol w = s.partStore core pol w := (SectKept.of_eq (core := core) h).partStore pol w

theorem dieKnown_congr {s t : State} (h : t.dies = s.dies) (d : Nat) : DieKnown d t ↔ DieKnown d s := by
  unfold DieKnown State.die
  rw [h]

theorem LineStep.between {core : Nat} {pol : CachePol} {lw : LineWrite} {t b x t' : State} (h : LineStep core pol lw b x)
    (hb : SameStorage t b) (ht : SameStorage x t') : LineStep core pol lw t t' := by
  have hpart := partStore_congr hb.sect core pol lw
  have hview (l : Nat) : b.homeView l = t.homeView l := homeView_congr hb.mem hb.sect l
  have hview' (l : Nat) : t'.homeView l = x.homeView l := homeView_congr ht.mem ht.sect l
  refine ⟨(FillsStay.of_eq hb.fills).trans (h.fills.trans (.of_eq ht.fills)),
    (PubsStay.of_eq hb.flows).trans (h.pubs.trans (.of_eq ht.flows)), ht.versions.trans (h.versions.trans hb.versions), fun hi => ?_,
    fun hk => ?_, fun hp => ?_, fun hp hc => ?_, fun hp h1 h2 h3 => ?_⟩
  · have hib : IdsBelow b := by unfold IdsBelow; rw [hb.fills, hb.nextId]; exact hi
    have := h.ids hib
    unfold IdsBelow
    rw [ht.fills, ht.nextId]
    exact this
  · exact (dieKnown_congr ht.dies _).mpr (h.known ((dieKnown_congr hb.dies _).mpr hk))
  · obtain ⟨hm, hs⟩ := h.held (hpart.trans hp)
    exact ⟨ht.mem.trans (hm.trans hb.mem), ht.sect.trans (hs.trans hb.sect)⟩
  · obtain ⟨hv, hk⟩ := h.now (hpart.trans hp) (coherent_congr hc hb.mem hb.sect)
    exact ⟨fun l => by rw [hview', hv, hview], fun l hl => coherent_congr (hk l (coherent_congr hl hb.mem hb.sect)) ht.mem ht.sect⟩
  · exact (SectKept.of_eq hb.sect).trans ((h.kept (hpart.trans hp) h1 h2 (by rw [hb.sect]; exact h3)).trans (.of_eq ht.sect))

/-! ## A store held -/

theorem holdStore_step {s : State} {core wave : Nat} {m : LaneMask} {pol : CachePol} {lw : LineWrite}
    (hp : s.partStore core pol lw = true) : LineStep core pol lw s (s.holdStore core wave m pol lw) := by
  obtain ⟨fs, fl, n, he⟩ := holdStore_rest s core wave m pol lw
  obtain ⟨hstay, hfrom, -, hpubs, hnext⟩ := holdStore_held s core wave m pol lw
  refine ⟨hstay, hpubs, by rw [he], fun hi g hg x hx => ?_, (dieKnown_congr (by rw [he]) _).mpr, fun _ => by rw [he]; exact ⟨rfl, rfl⟩,
    fun hf => (Bool.false_ne_true (hf.symm.trans hp)).elim, fun hf => (Bool.false_ne_true (hf.symm.trans hp)).elim⟩
  rcases hfrom g hg x hx with rfl | ⟨f, hf, hx⟩
  · exact hnext
  · exact (hi f hf x hx).trans hnext

/-! ## A store performed -/

theorem storeNow_known {s : State} {core wave : Nat} {pol : CachePol} {lw : LineWrite} (h : DieKnown (coreDie core) s) :
    DieKnown (coreDie core) (s.storeNow core wave pol lw) := by
  cases hh : homeOfLine lw.line with
  | none => exact (dieKnown_congr (storeNow_dies (.inl hh)) _).mpr h
  | some k =>
    by_cases hk : k = coreDie core
    · exact (dieKnown_congr (storeNow_dies (.inr (hk ▸ hh))) _).mpr h
    · obtain ⟨hex, hlen⟩ := h
      obtain ⟨hex', hdep, -⟩ := (storeNow_published (wave := wave) (pol := pol) hh hk).2 hex
      refine ⟨hex', ?_⟩
      rw [hdep, vecSet, List.length_set]
      exact hlen

theorem storeNow_step {s : State} {core wave : Nat} {pol : CachePol} {lw : LineWrite} (hp : s.partStore core pol lw = false) :
    LineStep core pol lw s (s.storeNow core wave pol lw) := by
  obtain ⟨m, ls, l1, fs, fl, ds, hs, hl, ps, ws, -, -, he⟩ := storeNow_rest s core wave pol lw
  obtain ⟨hsame, hpubs⟩ := storeNow_stays s core wave pol lw
  refine ⟨hsame.stay, hpubs, by rw [he], fun hi g hg x hx => ?_, storeNow_known, fun ht => (Bool.false_ne_true (hp.symm.trans ht)).elim,
    fun _ hc => storeNow_bytes hp hc, fun _ h1 h2 h3 => sectKept_storeNow h1 h2 hp h3⟩
  have hid : (s.storeNow core wave pol lw).nextId = s.nextId := by rw [he]
  rcases hsame.sub g hg x hx with hf | ⟨f, hf, hx⟩
  · exact hf.elim
  · rw [hid]; exact hi f hf x hx

/-- A store performed has not taken a number that a held store has. -/
theorem storeNow_unheld {s : State} {core wave : Nat} {pol : CachePol} {lw : LineWrite} (hi : IdsBelow s) :
    (s.storeNow core wave pol lw).storeId s.nextId = false := by
  rw [Bool.eq_false_iff]
  intro h
  obtain ⟨f, hf, hx⟩ := List.any_eq_true.mp h
  obtain ⟨x, hx, hid⟩ := List.any_eq_true.mp hx
  rcases (storeNow_stays s core wave pol lw).1.sub f hf x hx with e | ⟨g, hg, hx⟩
  · exact e
  · exact absurd (hi g hg x hx) (by rw [beq_iff_eq.mp hid]; exact Nat.lt_irrefl _)

/-! ## The store of one lane -/

/-- A lane's store in `u`, after which its threads note it where it is not performed; `t` is the state before the store. -/
def State.noteStore (t : State) (w : Wave) (m : LaneMask) (p : Scope) (r : Ord) (line : Nat) (u : State) : State :=
  if u.storeId t.nextId then u.noteOrder w m p r (.held t.nextId)
  else if (u.die (coreDie w.core)).pub = (t.die (coreDie w.core)).pub then u
  else u.noteOrder w m p r (.write (coreDie w.core) (u.die (coreDie w.core)).pub line)

theorem storeLane_eq {w : Wave} {z : Width} {d : Reg} {ea : Ea} {p : Scope} {r : Ord} {pol : CachePol} {lanes : Nat → LaneMask}
    {s0 t : State} {l pa : Nat} (h : s0.access w .write (ea s0 w l) z.bytes = .ok pa) :
    State.storeLane w z d ea p r pol lanes s0 t l = t.noteStore w (lanes l) p r (pa / 64)
      ((t.noteTlb w.core (t.ctxId w) (ea s0 w l)).threadStore w (lanes l) pol (lineWrite pa z.bytes (s0.storeData z d w l))) := by
  unfold State.storeLane
  rw [h]
  rfl

theorem noteTlb_rest (s : State) (core ctx va : Nat) : ∃ tl st, s.noteTlb core ctx va = { s with tlb := tl, sectTlb := st } := by
  unfold State.noteTlb
  split <;> exact ⟨_, _, rfl⟩

theorem noteStore_cases (t : State) (w : Wave) (m : LaneMask) (p : Scope) (r : Ord) (line : Nat) (u : State) :
    t.noteStore w m p r line u = u ∨ ∃ x, t.noteStore w m p r line u = u.noteOrder w m p r x := by
  unfold State.noteStore
  split
  · exact .inr ⟨_, rfl⟩
  · split
    · exact .inl rfl
    · exact .inr ⟨_, rfl⟩

theorem noteStore_rest (t : State) (w : Wave) (m : LaneMask) (p : Scope) (r : Ord) (line : Nat) (u : State) :
    ∃ ws, t.noteStore w m p r line u = { u with waves := ws } := by
  rcases noteStore_cases t w m p r line u with e | ⟨x, e⟩
  · exact ⟨u.waves, e⟩
  · rw [e]
    exact noteOrder_rest ..

theorem noteStore_run (t : State) (w : Wave) {m M : LaneMask} (hm : ∀ k, m.getLsbD k = true → M.getLsbD k = true) (p : Scope) (r : Ord)
    (line : Nat) (u : State) : StoreRun M w.id u (t.noteStore w m p r line u) := by
  rcases noteStore_cases t w m p r line u with e | ⟨x, e⟩
  · rw [e]
    exact .refl ..
  · rw [e]
    exact noteOrder_run u w hm p r x

theorem noteStore_kept {t u : State} {w v : Wave} (hv : u.wave? w.id = some v) {m : LaneMask}
    (hlt : ∀ k, m.getLsbD k = true → k < v.threads.length) (p : Scope) (r : Ord) (line : Nat) :
    ∃ v', (t.noteStore w m p r line u).wave? w.id = some v' ∧ OrdersKept u w v v' := by
  rcases noteStore_cases t w m p r line u with e | ⟨x, e⟩
  · rw [e]
    exact ⟨v, hv, .refl u w v⟩
  · rw [e]
    obtain ⟨v', hv', hk, -⟩ := noteOrder_notes hv hlt p r x
    exact ⟨v', hv', hk⟩

/-- One store by the threads `m`, from what the issuing wave `v` had noted in `t` to what it has noted in `t'`. -/
structure LaneStep (w : Wave) (p : Scope) (r : Ord) (pol : CachePol) (m : LaneMask) (lw : LineWrite) (t t' : State) (v v' : Wave) :
    Prop where
  line  : LineStep w.core pol lw t t'
  wave  : t'.wave? w.id = some v'
  kept  : ∃ u, FillsStay t u ∧ FillsStay u t' ∧ PubsStay t u ∧ PubsStay u t' ∧ OrdersKept u w v v'
  held  : t.partStore w.core pol lw = true → StoreHeld w p r pol m lw t' v'
  sent  : ∀ h, homeOfLine lw.line = some h → h ≠ coreDie w.core →
    StorePublished w p r m lw (DieKnown (coreDie w.core) t) h t' v'

theorem setCommitted_same (s : State) (gid : Nat) : SameStorage s (s.setCommitted gid) := ⟨rfl, rfl, rfl, rfl, rfl, rfl, rfl⟩

section
variable {w v : Wave} {p : Scope} {r : Ord} {pol : CachePol} {m : LaneMask} {lw : LineWrite} {t b u : State}
  (hb : SameStorage t b) (hwaves : b.waves = t.waves) (hv : t.wave? w.id = some v)
  (hlt : ∀ k, m.getLsbD k = true → k < v.threads.length)
include hb hwaves hv hlt

/-- A lane's store that is held. -/
theorem laneStep_held (hp : t.partStore w.core pol lw = true)
    (hu : u = (b.holdStore w.core w.id m pol lw).setCommitted w.gang) :
    ∃ v', LaneStep w p r pol m lw t (t.noteStore w m p r lw.line u) v v' := by
  obtain ⟨x, hx⟩ : ∃ x : HeldStore, x = { id := b.nextId, wave := w.id, lanes := m, core := w.core, pol := pol, w := lw } := ⟨_, rfl⟩
  obtain ⟨fs, fl, n, he⟩ := holdStore_rest b w.core w.id m pol lw
  obtain ⟨-, -, hheld, -, -⟩ := holdStore_held b w.core w.id m pol lw
  rw [← hx] at hheld
  have hheldu : HeldIn u w.core x := hheld.stay (.of_eq (by rw [hu]; rfl))
  have hid : u.storeId t.nextId = true := by
    have := hheldu.storeId
    rwa [show x.id = t.nextId by rw [hx]; exact hb.nextId] at this
  have hnote : t.noteStore w m p r lw.line u = u.noteOrder w m p r (.held t.nextId) := if_pos hid
  have hvu : u.wave? w.id = some v := by
    have : u.waves = t.waves := by rw [hu, he, ← hwaves]; rfl
    rw [State.wave?, this]
    exact hv
  obtain ⟨ws, hrest⟩ := noteOrder_rest u w m p r (.held t.nextId)
  obtain ⟨v', hv', hkept, hn⟩ := noteOrder_notes hvu hlt p r (.held t.nextId)
  obtain ⟨t', ht'⟩ : ∃ t', t' = u.noteOrder w m p r (.held t.nextId) := ⟨_, rfl⟩
  have hsame : SameStorage u t' := by rw [ht', hrest]; exact ⟨rfl, rfl, rfl, rfl, rfl, rfl, rfl⟩
  have hstep : LineStep w.core pol lw t u :=
    (holdStore_step (wave := w.id) (m := m) ((partStore_congr hb.sect ..).trans hp)).between hb (hu ▸ setCommitted_same _ _)
  rw [← ht'] at hv'
  rw [hnote, ← ht']
  refine ⟨v', hstep.between ⟨rfl, rfl, rfl, rfl, rfl, rfl, rfl⟩ hsame, hv',
    ⟨u, hstep.fills, .of_eq hsame.fills, hstep.pubs, .of_eq hsame.flows, hkept⟩, fun _ => ?_, fun h hh hne => ?_⟩
  · refine ⟨x, hheldu.stay (.of_eq hsame.fills), by rw [hx], by rw [hx], by rw [hx], by rw [hx], by rw [hx], fun h1 h2 => ?_⟩
    have hxid : x.id = t.nextId := by rw [hx]; exact hb.nextId
    rw [hxid]
    exact hn (by have := performed_held (w := w) hheldu h1 h2; rwa [hxid] at this)
  · unfold State.partStore at hp
    rw [hh] at hp
    simp [hne] at hp

/-- A lane's store that is performed. -/
theorem laneStep_now (hi : IdsBelow t) (hp : t.partStore w.core pol lw = false)
    (hu : u = (b.storeNow w.core w.id pol lw).setCommitted w.gang) :
    ∃ v', LaneStep w p r pol m lw t (t.noteStore w m p r lw.line u) v v' := by
  have hib : IdsBelow b := by unfold IdsBelow; rw [hb.fills, hb.nextId]; exact hi
  have hsame : SameStorage (b.storeNow w.core w.id pol lw) u := hu ▸ setCommitted_same _ _
  have hid : u.storeId t.nextId = false := by
    have := storeNow_unheld (core := w.core) (wave := w.id) (pol := pol) (lw := lw) hib
    unfold State.storeId at this ⊢
    rwa [hb.nextId, ← hsame.fills] at this
  have hstep : LineStep w.core pol lw t u :=
    (storeNow_step (wave := w.id) ((partStore_congr hb.sect ..).trans hp)).between hb hsame
  obtain ⟨ws, hrest⟩ := noteStore_rest t w m p r lw.line u
  have hsame' : SameStorage u (t.noteStore w m p r lw.line u) := by rw [hrest]; exact ⟨rfl, rfl, rfl, rfl, rfl, rfl, rfl⟩
  obtain ⟨v1, hv1, hr⟩ : ∃ v1, u.wave? w.id = some v1 ∧ Rung v v1 := by
    obtain ⟨m', ls, l1, fs, fl, ds, hs, hl, ps, ws', hrung, -, he⟩ := storeNow_rest b w.core w.id pol lw
    have hall : RungAll t.waves u.waves := by
      rw [hu, he, ← hwaves]
      exact hrung
    exact hall.find hv
  have hlt1 : ∀ k, m.getLsbD k = true → k < v1.threads.length := fun k hk => hr.length ▸ hlt k hk
  have hline : LineStep w.core pol lw t (t.noteStore w m p r lw.line u) :=
    hstep.between ⟨rfl, rfl, rfl, rfl, rfl, rfl, rfl⟩ hsame'
  obtain ⟨v', hv', hkept⟩ := noteStore_kept (t := t) hv1 hlt1 p r lw.line
  refine ⟨v', hline, hv', ⟨u, hstep.fills, .of_eq hsame'.fills, hstep.pubs, .of_eq hsame'.flows, hkept.rung hr⟩,
    fun e => (Bool.false_ne_true (hp.symm.trans e)).elim, fun h hh hne => ?_⟩
  obtain ⟨hbody, hdie⟩ := storeNow_published (s := b) (wave := w.id) (pol := pol) hh hne
  obtain ⟨stamp, hstamp⟩ : ∃ stamp, stamp = vecSet (b.die (coreDie w.core)).dep (coreDie w.core) ((b.die (coreDie w.core)).pub + 1) :=
    ⟨_, rfl⟩
  rw [← hstamp] at hbody hdie
  have hbodyu : .pub stamp w.id (.writes [lw]) ∈ (u.flow .publish (coreDie w.core) h).bodies := by
    rw [flow_congr hsame.flows]
    exact hbody
  refine ⟨stamp, PubsStay.of_eq hsame'.flows _ _ hbodyu, fun hscope hknown => ?_⟩
  obtain ⟨hex, hlen⟩ := (dieKnown_congr hb.dies _).mpr hknown
  obtain ⟨-, hdep, hpub⟩ := hdie hex
  have hbt : b.die (coreDie w.core) = t.die (coreDie w.core) := by unfold State.die; rw [hb.dies]
  have hpubu : (u.die (coreDie w.core)).pub = (t.die (coreDie w.core)).pub + 1 := by
    have : u.die (coreDie w.core) = (b.storeNow w.core w.id pol lw).die (coreDie w.core) := by unfold State.die; rw [hsame.dies]
    rw [this, hpub, hbt]
  have hnum : stamp.getD (coreDie w.core) 0 = (u.die (coreDie w.core)).pub := by
    rw [hpubu, hstamp, vecSet, hbt]
    rw [hbt] at hlen
    simp [List.getD_eq_getElem?_getD, hlen]
  have hnote : t.noteStore w m p r lw.line u =
      u.noteOrder w m p r (.write (coreDie w.core) (u.die (coreDie w.core)).pub lw.line) := by
    unfold State.noteStore
    rw [hid, if_neg (by decide), if_neg]
    rw [hpubu]
    intro e
    have := congrArg BitVec.toNat e
    bv_omega
  obtain ⟨v2, hv2, -, hn⟩ := noteOrder_notes hv1 hlt1 p r (.write (coreDie w.core) (u.die (coreDie w.core)).pub lw.line)
  obtain rfl : v' = v2 := by
    rw [hnote, hv2] at hv'
    exact (Option.some.inj hv').symm
  rw [hnum]
  refine hn ?_
  have := performed_published (w := w) (line := lw.line) hbodyu hscope
  rwa [hnum] at this

end

/-- The store of one lane of a gang that is not versioned. -/
theorem storeLane_step {w v : Wave} {z : Width} {d : Reg} {ea : Ea} {p : Scope} {r : Ord} {pol : CachePol} {lanes : Nat → LaneMask}
    {s0 t : State} {l pa : Nat} (hacc : s0.access w .write (ea s0 w l) z.bytes = .ok pa)
    (hver : t.versioned (t.gangOf w) = false) (hi : IdsBelow t) (hv : t.wave? w.id = some v)
    (hlt : ∀ k, (lanes l).getLsbD k = true → k < v.threads.length) :
    ∃ v', LaneStep w p r pol (lanes l) (lineWrite pa z.bytes (s0.storeData z d w l)) t
      (State.storeLane w z d ea p r pol lanes s0 t l) v v' := by
  obtain ⟨lw, hlw⟩ : ∃ lw, lw = lineWrite pa z.bytes (s0.storeData z d w l) := ⟨_, rfl⟩
  have hline : pa / 64 = lw.line := by rw [hlw]; rfl
  obtain ⟨tl, st, htlb⟩ := noteTlb_rest t w.core (t.ctxId w) (ea s0 w l)
  obtain ⟨a, ha⟩ : ∃ a : State, a = { t with tlb := tl, sectTlb := st } := ⟨_, rfl⟩
  obtain ⟨x, hseal⟩ := noteSeal_rest a (a.gangOf w).launch lw
  obtain ⟨b, hbdef⟩ : ∃ b, b = State.endPoison { a with seals := x } lw := ⟨_, rfl⟩
  have hstore : a.threadStore w (lanes l) pol lw = (b.storeLine w.core w.id (lanes l) pol lw).setCommitted w.gang := by
    have hva : State.versioned { a with seals := x } (a.gangOf w) = false := by rw [ha]; exact hver
    unfold State.threadStore
    dsimp only
    rw [hseal, hva, hbdef]
    rfl
  have hb : SameStorage t b := by rw [hbdef, ha]; exact ⟨rfl, rfl, rfl, rfl, rfl, rfl, rfl⟩
  have hwaves : b.waves = t.waves := by rw [hbdef, ha]; rfl
  have hpart := partStore_congr hb.sect w.core pol lw
  rw [storeLane_eq hacc, htlb, ← ha, ← hlw, hline, hstore]
  unfold State.storeLine
  split
  · next h => exact laneStep_held hb hwaves hv hlt (hpart.symm.trans h) rfl
  · next h => exact laneStep_now hb hwaves hv hlt hi (hpart.symm.trans (by simpa using h)) rfl

end Sys2Proof.Machine
end

section
/-! The stores of a word in a gang that is not versioned (R105, R106, R175): `StoresDone` says what holds as the lanes take their turns. -/

namespace Sys2Proof.Machine
open Sys2Proof.Claims

/-! ## Bytes -/

theorem storedAt_append (n : Nat) (ws : List (Nat × Nat)) (x : Nat × Nat) (a : Nat) (b : Byte) :
    (storedAt n (ws ++ [x]) a).getD b = (storedAt n [x] a).getD ((storedAt n ws a).getD b) := by
  unfold storedAt
  rw [List.foldl_append, List.foldl_cons, List.foldl_nil, List.foldl_cons, List.foldl_nil]
  split <;> rfl

theorem lineWrite_mod (a n x : Nat) : lineWrite a n (x % 2 ^ (8 * n)) = lineWrite a n x := by
  unfold lineWrite
  rw [Nat.mod_mod]

/-- The bytes that homes serve after a store that is seen at once on the core's die and in host memory. -/
theorem byteNow_stored {core a n x : Nat} {s t : State} (hfit : a % 64 + n ≤ 64)
    (h : StoredBytes (homeOfLine (a / 64) = none ∨ homeOfLine (a / 64) = some (coreDie core)) s t (lineWrite a n x)) (A : Nat) :
    byteNow t A = if homeOfLine (A / 64) = none ∨ homeOfLine (A / 64) = some (coreDie core) then
      (storedAt n [(a, x % 2 ^ (8 * n))] A).getD (byteNow s A) else byteNow s A := by
  have hbyte := lineByte_merge_lineWrite (x := x % 2 ^ (8 * n)) hfit A (s.homeView (A / 64))
  have hline : (lineWrite a n x).line = a / 64 := rfl
  rw [lineWrite_mod] at hbyte
  unfold byteNow
  rw [h.view, hline, ← hbyte]
  by_cases hl : A / 64 = a / 64
  · rw [hl, if_pos rfl, if_congr (and_iff_right rfl) rfl rfl]
    exact apply_ite (fun x => lineByte x (A % 64)) ..
  · rw [if_neg fun e => hl e.1, if_neg hl, ite_self]

theorem StorePublished.mono {w : Wave} {p : Scope} {r : Ord} {m : LaneMask} {lw : LineWrite} {known known' : Prop} {h : Nat} {t : State}
    {v : Wave} (hs : StorePublished w p r m lw known h t v) (hk : known' → known) : StorePublished w p r m lw known' h t v := by
  obtain ⟨stamp, hb, hn⟩ := hs
  exact ⟨stamp, hb, fun hp hkn => hn hp (hk hkn)⟩

/-! ## The lanes in turn -/

section
variable (s0 : State) (w : Wave) (z : Width) (d : Reg) (p : Scope) (r : Ord) (pol : CachePol) (lanes : Nat → LaneMask) (pa : Nat → Nat)
  (M : LaneMask) (all : List Nat)

/-- What a lane stores, and where. -/
def laneWrite (l : Nat) : LineWrite := lineWrite (pa l) z.bytes (s0.storeData z d w l)

/-- Is the lane's store held at the sector cache? -/
def laneHeld (l : Nat) : Bool := s0.partStore w.core pol (laneWrite s0 w z d pa l)

/-- The addresses and values of the lanes' stores. -/
def laneValues (ls : List Nat) : List (Nat × Nat) := ls.map fun l => (pa l, s0.storeData z d w l % 2 ^ (8 * z.bytes))

/-- The sector cache holds no more lines than it has. -/
def SectRoom (core : Nat) (s : State) : Prop := (s.sect.filter fun x => x.sector == coreSector core).length ≤ sectLines

/-- The state `t` and the issuing wave `v` in it, after the lanes of `done`, of all those of `all`. -/
structure StoresDone (done : List Nat) (t : State) (v : Wave) : Prop where
  run      : StoreRun M w.id s0 t
  wave     : t.wave? w.id = some v
  versions : t.versions = s0.versions
  ids      : IdsBelow t
  known    : DieKnown (coreDie w.core) s0 → DieKnown (coreDie w.core) t
  first    : done = [] → t.sect = s0.sect
  kept     : z.bytes < 4 → SectRoom w.core s0 → SectKept w.core s0 t
  coherent : (∀ l ∈ all, Coherent s0 (pa l / 64)) → ∀ line, Coherent s0 line → Coherent t line
  bytes    : (∀ l ∈ all, Coherent s0 (pa l / 64)) → ∀ A, byteNow t A =
    if homeOfLine (A / 64) = none ∨ homeOfLine (A / 64) = some (coreDie w.core) then
      (storedAt z.bytes (laneValues s0 w z d pa (done.filter fun l => !(laneHeld s0 w z d pol pa l))) A).getD (byteNow s0 A)
    else byteNow s0 A
  held     : ∀ l ∈ done, laneHeld s0 w z d pol pa l = true → StoreHeld w p r pol (lanes l) (laneWrite s0 w z d pa l) t v
  sent     : ∀ l ∈ done, ∀ h, homeOfLine (pa l / 64) = some h → h ≠ coreDie w.core →
    StorePublished w p r (lanes l) (laneWrite s0 w z d pa l) (DieKnown (coreDie w.core) s0) h t v

end

section
variable {s0 : State} {w : Wave} {z : Width} {d : Reg} {ea : Ea} {p : Scope} {r : Ord} {pol : CachePol} {lanes : Nat → LaneMask}
  {pa : Nat → Nat} {M : LaneMask} {all : List Nat}

theorem storesDone_start (hv : s0.wave? w.id = some w) (hi : IdsBelow s0) : StoresDone s0 w z d p r pol lanes pa M all [] s0 w where
  run := .refl ..
  wave := hv
  versions := rfl
  ids := hi
  known := fun h => h
  first := fun _ => rfl
  kept := fun _ _ => .refl ..
  coherent := fun _ _ h => h
  bytes := fun _ A => by simp [laneValues, storedAt]
  held := nofun
  sent := nofun

/-- The stores before a lane's turn have not changed whether its store is held. -/
theorem StoresDone.partStore {done rest : List Nat} {l : Nat} {t : State} {v : Wave}
    (h : StoresDone s0 w z d p r pol lanes pa M all done t v) (hall : done ++ l :: rest = all) (hal : pa l % z.bytes = 0)
    (hroom : 4 ≤ z.bytes ∨ all.length ≤ 1 ∨ SectRoom w.core s0) :
    t.partStore w.core pol (laneWrite s0 w z d pa l) = laneHeld s0 w z d pol pa l := by
  unfold laneHeld
  by_cases hz : 4 ≤ z.bytes
  · unfold laneWrite
    rw [partStore_word _ _ _ _ hz hal, partStore_word _ _ _ _ hz hal]
  · rcases hroom with h4 | hone | hroom
    · exact absurd h4 hz
    · refine partStore_congr (h.first ?_) ..
      rw [← hall, List.length_append, List.length_cons] at hone
      exact List.length_eq_zero_iff.mp (by omega)
    · exact (h.kept (by omega) hroom).partStore ..

/-- One lane's turn. -/
theorem StoresDone.step {done : List Nat} {l : Nat} {t t' : State} {v v' : Wave}
    (h : StoresDone s0 w z d p r pol lanes pa M all done t v) (hl : l ∈ all) (hal : pa l % z.bytes = 0)
    (hpart : t.partStore w.core pol (laneWrite s0 w z d pa l) = laneHeld s0 w z d pol pa l) (hrun : StoreRun M w.id t t')
    (hs : LaneStep w p r pol (lanes l) (laneWrite s0 w z d pa l) t t' v v') :
    StoresDone s0 w z d p r pol lanes pa M all (done ++ [l]) t' v' := by
  obtain ⟨u, hfu, hut, hpu, hput, hord⟩ := hs.kept
  have hline : (laneWrite s0 w z d pa l).line = pa l / 64 := rfl
  refine ⟨h.run.trans hrun, hs.wave, hs.line.versions.trans h.versions, hs.line.ids h.ids, fun hk => hs.line.known (h.known hk),
    fun he => by simp at he, fun hz hroom => ?_, fun hc line hcl => ?_, fun hc A => ?_, fun k hk hheld => ?_, fun k hk j hj hne => ?_⟩
  · have hkept := h.kept hz hroom
    refine hkept.trans ?_
    cases hp : t.partStore w.core pol (laneWrite s0 w z d pa l) with
    | true => exact .of_eq (hs.line.held hp).2
    | false =>
      obtain ⟨hcov, htouch⟩ := narrow_mask (s0.storeData z d w l) hz hal
      exact hs.line.kept hp hcov htouch (hkept.count.trans hroom)
  · have hct := h.coherent hc
    cases hp : t.partStore w.core pol (laneWrite s0 w z d pa l) with
    | true =>
      obtain ⟨hm, hse⟩ := hs.line.held hp
      exact coherent_congr (hct line hcl) hm hse
    | false => exact (hs.line.now hp (hct _ (hc l hl))).coherent line (hct line hcl)
  · have hold := h.bytes hc A
    rw [List.filter_append]
    cases hp : t.partStore w.core pol (laneWrite s0 w z d pa l) with
    | true =>
      obtain ⟨hm, hse⟩ := hs.line.held hp
      have hheld : laneHeld s0 w z d pol pa l = true := hpart.symm.trans hp
      rw [List.filter_cons_of_neg (by simp [hheld]), List.filter_nil, List.append_nil, ← hold]
      unfold byteNow
      rw [homeView_congr hm hse]
    | false =>
      have hheld : laneHeld s0 w z d pol pa l = false := hpart.symm.trans hp
      have hnow := byteNow_stored (aligned_fits hal) (hs.line.now hp (h.coherent hc _ (hc l hl))) A
      rw [List.filter_cons_of_pos (by simp [hheld]), List.filter_nil, hnow, hold]
      unfold laneValues
      rw [List.map_append, List.map_cons, List.map_nil, storedAt_append]
      split <;> rfl
  · rcases List.mem_append.mp hk with hk | hk
    · exact (h.held k hk hheld).kept hfu hut hord
    · obtain rfl : k = l := List.mem_singleton.mp hk
      exact hs.held (hpart.trans hheld)
  · rcases List.mem_append.mp hk with hk | hk
    · exact (h.sent k hk j hj hne).kept hpu hput hord
    · obtain rfl : k = l := List.mem_singleton.mp hk
      exact (hs.sent j (hline ▸ hj) hne).mono h.known

end

/-! ## The frame of a lane's store -/

theorem verWrite_run (M : LaneMask) (id : Nat) (s : State) (g : Gang) (core : Option Nat) (lw : LineWrite) :
    StoreRun M id s (s.verWrite g core lw) := by
  obtain ⟨vs, hl, ps, h⟩ := verWrite_rest s g core lw
  rw [h]
  exact .of_rung (.refl _) (fun _ => rfl) rfl

theorem storeLine_run (M : LaneMask) (id : Nat) (s : State) (core wave : Nat) (lanes : LaneMask) (pol : CachePol) (lw : LineWrite) :
    StoreRun M id s (s.storeLine core wave lanes pol lw) := by
  unfold State.storeLine
  split
  · obtain ⟨fs, fl, n, h⟩ := holdStore_rest s core wave lanes pol lw
    rw [h]
    exact .of_rung (.refl _) (fun _ => rfl) rfl
  · obtain ⟨m, ls, l1, fs, fl, ds, hs, hl, ps, ws, hr, -, h⟩ := storeNow_rest s core wave pol lw
    rw [h]
    exact .of_rung hr (fun _ => rfl) rfl

theorem threadStore_run (M : LaneMask) (id : Nat) (s : State) (w : Wave) (lanes : LaneMask) (pol : CachePol) (lw : LineWrite) :
    StoreRun M id s (s.threadStore w lanes pol lw) := by
  obtain ⟨x, hseal⟩ := noteSeal_rest s (s.gangOf w).launch lw
  obtain ⟨a, ha⟩ : ∃ a : State, a = { s with seals := x } := ⟨_, rfl⟩
  have hstart : StoreRun M id s a := by rw [ha]; exact .of_rung (.refl _) (fun _ => rfl) rfl
  unfold State.threadStore
  dsimp only
  rw [hseal, ← ha]
  split
  · exact hstart.trans ((StoreRun.of_rung (s := a) (t := a.dropL1 w.core lw.line) (.refl _) (fun _ => rfl) rfl).trans (verWrite_run ..))
  · have hpoison : StoreRun M id a (a.endPoison lw) := .of_rung (.refl _) (fun _ => rfl) rfl
    obtain ⟨y, hy⟩ : ∃ y, y = (a.endPoison lw).storeLine w.core w.id lanes pol lw := ⟨_, rfl⟩
    have hline : StoreRun M id (a.endPoison lw) y := hy ▸ storeLine_run ..
    rw [← hy]
    have hframe := setCommitted_frame y w.gang
    exact hstart.trans (hpoison.trans (hline.trans (.of_rung (.refl _) hframe.gangs rfl)))

theorem storeLane_run {w : Wave} {z : Width} {d : Reg} {ea : Ea} {p : Scope} {r : Ord} {pol : CachePol} {lanes : Nat → LaneMask}
    {s0 t : State} {l pa : Nat} {M : LaneMask} (hacc : s0.access w .write (ea s0 w l) z.bytes = .ok pa)
    (hm : ∀ k, (lanes l).getLsbD k = true → M.getLsbD k = true) : StoreRun M w.id t (State.storeLane w z d ea p r pol lanes s0 t l) := by
  obtain ⟨tl, st, htlb⟩ := noteTlb_rest t w.core (t.ctxId w) (ea s0 w l)
  obtain ⟨a, ha⟩ : ∃ a : State, a = { t with tlb := tl, sectTlb := st } := ⟨_, rfl⟩
  have hstart : StoreRun M w.id t a := by rw [ha]; exact .of_rung (.refl _) (fun _ => rfl) rfl
  rw [storeLane_eq hacc, htlb, ← ha]
  exact hstart.trans ((threadStore_run ..).trans (noteStore_run t w hm p r _ _))

/-- The lanes of a list in turn. -/
theorem storesDone_fold {s0 : State} {w : Wave} {z : Width} {d : Reg} {ea : Ea} {p : Scope} {r : Ord} {pol : CachePol}
    {lanes : Nat → LaneMask} {pa : Nat → Nat} {M : LaneMask} {all : List Nat}
    (hacc : ∀ l ∈ all, s0.access w .write (ea s0 w l) z.bytes = .ok (pa l) ∧ pa l % z.bytes = 0)
    (hver : s0.versioned (s0.gangOf w) = false) (hroom : 4 ≤ z.bytes ∨ all.length ≤ 1 ∨ SectRoom w.core s0)
    (hm : ∀ l ∈ all, ∀ k, (lanes l).getLsbD k = true → M.getLsbD k = true ∧ k < w.threads.length) (hw : s0.wave? w.id = some w) :
    ∀ (rest done : List Nat) (t : State) (v : Wave), done ++ rest = all → StoresDone s0 w z d p r pol lanes pa M all done t v →
      ∃ v', StoresDone s0 w z d p r pol lanes pa M all all (rest.foldl (State.storeLane w z d ea p r pol lanes s0) t) v'
  | [], done, t, v, hall, h => ⟨v, by rw [List.append_nil] at hall; exact hall ▸ h⟩
  | l :: rest, done, t, v, hall, h => by
    have hl : l ∈ all := hall ▸ List.mem_append_right _ List.mem_cons_self
    obtain ⟨hok, hal⟩ := hacc l hl
    have hlen : v.threads.length = w.threads.length := by
      obtain ⟨v2, hv2, hn⟩ := h.run.wave hw
      obtain rfl : v2 = v := Option.some.inj (hv2.symm.trans h.wave)
      exact hn.length
    obtain ⟨v', hs⟩ := storeLane_step (d := d) (p := p) (r := r) (pol := pol) (t := t) hok ((h.run.versioned w).trans hver) h.ids h.wave
      (fun k hk => hlen ▸ (hm l hl k hk).2)
    have hrun := storeLane_run (d := d) (p := p) (r := r) (pol := pol) (t := t) hok fun k hk => (hm l hl k hk).1
    exact storesDone_fold hacc hver hroom hm hw rest (done ++ [l]) _ v' (by rw [List.append_assoc]; exact hall)
      (h.step hl hal (h.partStore hall hal hroom) hrun hs)

end Sys2Proof.Machine
end

section
/-! The stores of a versioned gang (R261): they go to its version, byte by byte, and to nothing else. -/

namespace Sys2Proof.Machine
open Sys2Proof.Claims

/-! ## A version written -/

theorem mergeLine_or (m m' : BitVec 64) (x y z : Line) :
    mergeLine (m ||| m') x (mergeLine m' y z) = mergeLine m' (mergeLine m x y) z := by
  refine line_ext fun n hn => ?_
  rw [lineByte_mergeLine _ _ _ hn, lineByte_mergeLine _ _ _ hn, lineByte_mergeLine _ _ _ hn, lineByte_mergeLine _ _ _ hn,
    BitVec.getLsbD_or]
  by_cases hm : m'.getLsbD n = true
  · simp [hm]
  · simp [hm]

/-- A line of a version as a write leaves it. -/
def VLine.written (w : LineWrite) (core : Option Nat) (v : VLine) : VLine :=
  { v with data := mergeLine w.mask v.data w.data, mask := v.mask ||| w.mask, cores := core.toList ++ v.cores }

/-- The line that a write adds to a version. -/
def State.newVLine (s : State) (g : Gang) (core : Option Nat) (w : LineWrite) : VLine :=
  { gang := g.id, line := w.line, data := w.data, mask := w.mask, cores := core.toList
    spill := decide ((s.die g.die).verCap / 64 ≤ s.verUsed g.die) }

theorem vline?_verWrite_hit {s : State} {g : Gang} {core : Option Nat} {w : LineWrite} {y : VLine} (h : s.vline? g.id w.line = some y)
    (line : Nat) : (s.verWrite g core w).vline? g.id line = if line = w.line then some (y.written w core) else s.vline? g.id line := by
  obtain ⟨f, hf⟩ : ∃ f : VLine → VLine, f = fun v => if v.gang == g.id && v.line == w.line then v.written w core else v := ⟨_, rfl⟩
  have hkey (v : VLine) : (f v).gang = v.gang ∧ (f v).line = v.line := by
    rw [hf]
    dsimp only
    split <;> exact ⟨rfl, rfl⟩
  have hversions : (s.verWrite g core w).versions = s.versions.map f := by
    unfold State.verWrite
    rw [h, hf]
    rfl
  have hmap : (s.verWrite g core w).vline? g.id line = (s.vline? g.id line).map f := by
    unfold State.vline?
    rw [hversions, List.find?_map]
    congr 2
    funext v
    simp only [Function.comp, (hkey v).1, (hkey v).2]
  rw [hmap]
  by_cases hl : line = w.line
  · rw [if_pos hl, hl, h, Option.map_some, hf]
    exact congrArg some (if_pos (List.find?_some h))
  · rw [if_neg hl]
    cases hk : s.vline? g.id line with
    | none => rfl
    | some v =>
      have hline : v.line = line := by
        have := List.find?_some hk
        simp only [Bool.and_eq_true, beq_iff_eq] at this
        exact this.2
      rw [Option.map_some, hf]
      exact congrArg some (if_neg (by simp [hline, hl]))

theorem vline?_verWrite_new {s : State} {g : Gang} {core : Option Nat} {w : LineWrite} (h : s.vline? g.id w.line = none) (line : Nat) :
    (s.verWrite g core w).vline? g.id line = if line = w.line then some (s.newVLine g core w) else s.vline? g.id line := by
  have hversions : (s.verWrite g core w).versions = s.versions ++ [s.newVLine g core w] := by
    obtain ⟨hl, ps, hfit⟩ := fitHome_rest { s with versions := s.versions ++ [s.newVLine g core w] } g.die none
    unfold State.verWrite
    rw [h]
    exact congrArg State.versions hfit
  unfold State.vline? at h ⊢
  rw [hversions, List.find?_append, List.find?_cons]
  by_cases hl : line = w.line
  · have hmatch : ((s.newVLine g core w).gang == g.id && (s.newVLine g core w).line == line) = true := by
      rw [hl]
      show (g.id == g.id && w.line == w.line) = true
      simp
    rw [if_pos hl, hmatch, hl, h, Option.none_or]
  · have hmatch : ((s.newVLine g core w).gang == g.id && (s.newVLine g core w).line == line) = false := by
      show (g.id == g.id && w.line == line) = false
      simp [Ne.symm hl]
    rw [if_neg hl, hmatch, List.find?_nil, Option.or_none]

/-- A gang sees its own version's write over what lies below. -/
theorem overlay_verWrite (s : State) (g : Gang) (core : Option Nat) (w : LineWrite) (line : Nat) (x : Line) :
    (s.verWrite g core w).overlay g.id line x =
      if line = w.line then mergeLine w.mask (s.overlay g.id line x) w.data else s.overlay g.id line x := by
  unfold State.overlay
  cases hv : s.vline? g.id w.line with
  | some y =>
    rw [vline?_verWrite_hit hv]
    by_cases hl : line = w.line
    · rw [if_pos hl, if_pos hl, hl, hv]
      exact mergeLine_or ..
    · rw [if_neg hl, if_neg hl]
  | none =>
    rw [vline?_verWrite_new hv]
    by_cases hl : line = w.line
    · rw [if_pos hl, if_pos hl, hl, hv]
      rfl
    · rw [if_neg hl, if_neg hl]

/-! ## The lanes in turn -/

/-- The state after the lanes of `done`. -/
structure VersionsDone (s0 : State) (w : Wave) (z : Width) (d : Reg) (pa : Nat → Nat) (M : LaneMask) (done : List Nat) (t : State) :
    Prop where
  run   : StoreRun M w.id s0 t
  mem   : t.mem = s0.mem
  sect  : t.sect = s0.sect
  flows : t.flows = s0.flows
  gangs : t.gangs = s0.gangs
  bytes : ∀ line x n, n < 64 → lineByte (t.overlay (s0.gangOf w).id line x) n =
    (storedAt z.bytes (laneValues s0 w z d pa done) (64 * line + n)).getD (lineByte (s0.overlay (s0.gangOf w).id line x) n)

theorem versionsDone_start (s0 : State) (w : Wave) (z : Width) (d : Reg) (pa : Nat → Nat) (M : LaneMask) :
    VersionsDone s0 w z d pa M [] s0 := ⟨.refl .., rfl, rfl, rfl, rfl, fun _ _ _ _ => rfl⟩

section
variable {s0 : State} {w : Wave} {z : Width} {d : Reg} {ea : Ea} {p : Scope} {r : Ord} {pol : CachePol} {lanes : Nat → LaneMask}
  {pa : Nat → Nat} {M : LaneMask}

/-- One lane's turn. -/
theorem VersionsDone.step {done : List Nat} {l : Nat} {t : State} (h : VersionsDone s0 w z d pa M done t)
    (hacc : s0.access w .write (ea s0 w l) z.bytes = .ok (pa l)) (hal : pa l % z.bytes = 0)
    (hver : s0.versioned (s0.gangOf w) = true) (hm : ∀ k, (lanes l).getLsbD k = true → M.getLsbD k = true) :
    VersionsDone s0 w z d pa M (done ++ [l]) (State.storeLane w z d ea p r pol lanes s0 t l) := by
  obtain ⟨g, hg⟩ : ∃ g, g = s0.gangOf w := ⟨_, rfl⟩
  obtain ⟨lw, hlw⟩ : ∃ lw, lw = laneWrite s0 w z d pa l := ⟨_, rfl⟩
  obtain ⟨tl, st, htlb⟩ := noteTlb_rest t w.core (t.ctxId w) (ea s0 w l)
  obtain ⟨a, ha⟩ : ∃ a : State, a = { t with tlb := tl, sectTlb := st } := ⟨_, rfl⟩
  have hga : a.gangOf w = g := by
    unfold State.gangOf State.gang?
    rw [ha, hg, h.gangs]
    rfl
  obtain ⟨x, hseal⟩ := noteSeal_rest a g.launch lw
  obtain ⟨b, hb⟩ : ∃ b, b = State.dropL1 { a with seals := x } w.core lw.line := ⟨_, rfl⟩
  have hvb : State.versioned { a with seals := x } g = true := by
    have := (h.run.versioned w).trans hver
    rwa [show t.gangOf w = g by rw [← hga, ha]; rfl, show t.versioned g = State.versioned { a with seals := x } g by rw [ha]; rfl] at this
  have hstore : a.threadStore w (lanes l) pol lw = b.verWrite g (some w.core) lw := by
    unfold State.threadStore
    rw [hga]
    dsimp only
    rw [hseal, hvb, hb]
    rfl
  obtain ⟨u, hu⟩ : ∃ u, u = b.verWrite g (some w.core) lw := ⟨_, rfl⟩
  obtain ⟨ws, hrest⟩ := noteStore_rest t w (lanes l) p r (pa l / 64) u
  obtain ⟨vs, hl, ps, hkept⟩ := verWrite_rest b g (some w.core) lw
  have hrun := storeLane_run (d := d) (p := p) (r := r) (pol := pol) (t := t) hacc hm
  have hend : State.storeLane w z d ea p r pol lanes s0 t l = { u with waves := ws } := by
    rw [storeLane_eq hacc, htlb, ← ha]
    refine Eq.trans (congrArg _ ?_) hrest
    rw [hu, ← hstore, hlw]
    rfl
  refine ⟨h.run.trans hrun, ?_, ?_, ?_, ?_, fun line y n hn => ?_⟩
  · rw [hend, hu, hkept, hb, ha]; exact h.mem
  · rw [hend, hu, hkept, hb, ha]; exact h.sect
  · rw [hend, hu, hkept, hb, ha]; exact h.flows
  · rw [hend, hu, hkept, hb, ha]; exact h.gangs
  · have hdiv : (64 * line + n) / 64 = line ∧ (64 * line + n) % 64 = n := by omega
    have hbase : b.overlay g.id line y = t.overlay g.id line y := overlay_congr (by rw [hb, ha]; rfl) ..
    have hover : State.overlay { u with waves := ws } g.id line y =
        if line = lw.line then mergeLine lw.mask (t.overlay g.id line y) lw.data else t.overlay g.id line y := by
      refine Eq.trans (overlay_congr (s := u) rfl ..) ?_
      rw [hu, overlay_verWrite, hbase]
    have hbyte := lineByte_merge_lineWrite (x := s0.storeData z d w l % 2 ^ (8 * z.bytes)) (aligned_fits hal) (64 * line + n)
      (t.overlay g.id line y)
    have hold := h.bytes line y n hn
    rw [lineWrite_mod, hdiv.1, hdiv.2] at hbyte
    rw [← hg] at hold ⊢
    unfold laneValues
    rw [List.map_append, List.map_cons, List.map_nil, storedAt_append, ← laneValues, ← hold, ← hbyte, hend, hover, hlw]
    exact apply_ite (fun x => lineByte x n) ..

theorem versionsDone_fold {all : List Nat} (hacc : ∀ l ∈ all, s0.access w .write (ea s0 w l) z.bytes = .ok (pa l) ∧ pa l % z.bytes = 0)
    (hver : s0.versioned (s0.gangOf w) = true) (hm : ∀ l ∈ all, ∀ k, (lanes l).getLsbD k = true → M.getLsbD k = true) :
    ∀ (rest done : List Nat) (t : State), done ++ rest = all → VersionsDone s0 w z d pa M done t →
      VersionsDone s0 w z d pa M all (rest.foldl (State.storeLane w z d ea p r pol lanes s0) t)
  | [], done, t, hall, h => by rw [List.append_nil] at hall; exact hall ▸ h
  | l :: rest, done, t, hall, h => by
    have hl : l ∈ all := hall ▸ List.mem_append_right _ List.mem_cons_self
    exact versionsDone_fold hacc hver hm rest (done ++ [l]) _ (by rw [List.append_assoc]; exact hall)
      (h.step (hacc l hl).1 (hacc l hl).2 hver (hm l hl))

end

end Sys2Proof.Machine
end

section
/-! O17: ST and STO (R105 to R107, R175, R178, R261). -/

namespace Sys2Proof.Machine
open Sys2Proof.Claims

/-! ## The checks -/

theorem newLines_length (s : State) (ea : Ea) (z : Width) (w : Wave) (m : LaneMask) (l : Nat) : (s.newLines ea z w m l).length ≤ 32 := by
  obtain ⟨f, hf⟩ : ∃ f : List Nat → Nat → List Nat, f = fun xs k => match s.access w .write (ea s w k) z.bytes with
    | .ok pa => if (s.vline? w.gang (pa / 64)).isNone && !xs.contains (pa / 64) then xs ++ [pa / 64] else xs
    | .error _ => xs := ⟨_, rfl⟩
  have hstep (xs : List Nat) (k : Nat) : (f xs k).length ≤ xs.length + 1 := by
    rw [hf]
    dsimp only
    split
    · split <;> simp
    · omega
  have hlines : s.newLines ea z w m l = ((lanesOf m).filter (· ≤ l)).foldl f [] := by rw [hf]; rfl
  rw [hlines]
  exact length_lanesFold_le hstep m l

/-- A store has room in a version that has room for 32 lines more, where nothing is to be committed first. -/
theorem noRoom_false {s : State} {w : Wave} {commits : Bool} (hc : (commits && s.versioned (s.gangOf w)) = false)
    (hroom : s.versioned (s.gangOf w) = true → s.verRoom (s.gangOf w) 32 = true) (ea : Ea) (z : Width) (m : LaneMask) (l pa : Nat) :
    s.noRoom ea z commits w m l pa = false := by
  unfold State.noRoom
  dsimp only
  cases hv : s.versioned (s.gangOf w) with
  | false =>
    have hver (u : State) (hu : u.launches = s.launches) : u.versioned (s.gangOf w) = false := by
      unfold State.versioned State.launchOf State.launch? at hv ⊢
      rwa [hu]
    rw [hver _ (by split <;> rfl)]
    rfl
  | true =>
    obtain rfl : commits = false := by simpa [hv] using hc
    simp only [Bool.false_and, Bool.false_eq_true, if_false]
    rw [verRoom_le (hroom hv) (newLines_length ..)]
    simp

theorem storeCheck_go {s : State} {c : Issue} {w : Wave} {z : Width} {d a : Reg} {ea : Ea} {p : Scope} {r : Ord} {l : Nat}
    (hc : (ordRel r && scopeWide p && s.versioned (s.gangOf w)) = false) (h : StoreGoes s w l z (ea s w l) p r) :
    storeCheck z d a ea p r s c w l = .go := by
  obtain ⟨pa, hacc, hclear, hstall, ⟨hrel, hacq⟩, hroom⟩ := h
  have hwait : s.mustWait w l p r pa z.bytes = false := by
    unfold State.mustWait
    rw [hclear]
    cases hr : ordRel r <;> cases ha : ordAcq r <;> simp [hrel, hacq, hr, ha]
  unfold storeCheck
  rw [hacc]
  dsimp only
  rw [noRoom_false hc hroom, hwait, hstall]
  rfl

theorem st_exec {s : State} {c : Issue} {w : Wave} {z : Width} {d a : Reg} {p : Scope} {r : Ord} {pol : CachePol} (hi : Issuing s c w)
    (ha : Allowed s (.st z d a p r pol) w) (hc : (ordRel r && scopeWide p && s.versioned (s.gangOf w)) = false)
    (hgo : ∀ l, c.lanes.getLsbD l = true → StoreGoes s w l z (s.eaPair a w l) p r) :
    exec (.st z d a p r pol) s = .next (storeAct z d a (fun s => s.eaPair a) p r pol s c w c.lanes).finishIssue := by
  refine runWord_next (op := { check := storeCheck z d a (fun s => s.eaPair a) p r, commit := ordCommits r p
                               act := storeAct z d a (fun s => s.eaPair a) p r pol }) hi ha (fun l hl => ?_) fun hv => ?_
  · exact storeCheck_go (ea := fun s => s.eaPair a) hc (hgo l hl)
  · show (ordRel r && scopeWide p) = false
    simpa [hv] using hc

theorem sto_exec {s : State} {c : Issue} {w : Wave} {z : Width} {d a : Reg} {n : BitVec 7} (hi : Issuing s c w)
    (ha : Allowed s (.sto z d a n) w) (hgo : ∀ l, c.lanes.getLsbD l = true → StoreGoes s w l z (s.eaOffset a n z w l) .wave .plain) :
    exec (.sto z d a n) s =
      .next (storeAct z d a (fun s => s.eaOffset a n z) .wave .plain .dflt s c w c.lanes).finishIssue :=
  runWord_next (op := { check := storeCheck z d a (fun s => s.eaOffset a n z) .wave .plain
                        act := storeAct z d a (fun s => s.eaOffset a n z) .wave .plain .dflt }) hi ha
    (fun l hl => storeCheck_go (ea := fun s => s.eaOffset a n z) rfl (hgo l hl)) fun _ => rfl

theorem eaPair_eq (s : State) (a : Reg) (w : Wave) (l : Nat) : s.eaPair a w l = (rd64 s w l a).toNat :=
  congrArg BitVec.toNat (pair_laneIn s w l a)

theorem eaOffset_eq (s : State) (a : Reg) (n : BitVec 7) (z : Width) (w : Wave) (l : Nat) :
    s.eaOffset a n z w l = (rd64 s w l a + n.signExtend 64 * BitVec.ofNat 64 z.bytes).toNat :=
  congrArg (fun x : DWord => (x + n.signExtend 64 * BitVec.ofNat 64 z.bytes).toNat) (pair_laneIn s w l a)

/-- A form that stores is the word of `storeAct`. -/
theorem store_exec {s : State} {c : Issue} {w : Wave} {i : Instr} {z : Width} {d a : Reg} {ea : Nat → Nat} {p : Scope} {r : Ord}
    {pol : CachePol} (hf : storeForm s w i = some (z, d, a, ea, p, r, pol)) (hi : Issuing s c w) (ha : Allowed s i w)
    (hc : (ordRel r && scopeWide p && s.versioned (s.gangOf w)) = false)
    (hgo : ∀ l, c.lanes.getLsbD l = true → StoreGoes s w l z (ea l) p r) :
    ∃ f : Ea, f s w = ea ∧ exec i s = .next (storeAct z d a f p r pol s c w c.lanes).finishIssue := by
  cases i with
  | st z' d' a' p' r' h' =>
    simp only [storeForm, Option.some.injEq, Prod.mk.injEq] at hf
    obtain ⟨rfl, rfl, rfl, rfl, rfl, rfl, rfl⟩ := hf
    exact ⟨_, funext fun l => eaPair_eq s _ w l, st_exec hi ha hc fun l hl => eaPair_eq s _ w l ▸ hgo l hl⟩
  | sto z' d' a' n' =>
    simp only [storeForm, Option.some.injEq, Prod.mk.injEq] at hf
    obtain ⟨rfl, rfl, rfl, rfl, rfl, rfl, rfl⟩ := hf
    exact ⟨_, funext fun l => eaOffset_eq s _ _ _ w l, sto_exec hi ha fun l hl => eaOffset_eq s _ _ _ w l ▸ hgo l hl⟩
  | _ => cases hf

/-! ## The lanes -/

/-- The threads for which the store of lane `l` stands. -/
def storeLanes (d a : Reg) (m : LaneMask) (l : Nat) : LaneMask := if d.isUni && a.isUni then m else laneBit l

section
variable {s : State} {c : Issue} {w : Wave} (hi : Issuing s c w)
include hi

theorem lanesOf_storing (d a : Reg) : lanesOf (storing d a c.lanes) = lanesOnce d a c := by
  unfold storing lanesOnce
  split
  · exact lanesOf_laneBit (lowest_mem hi.lanes).1
  · rfl

theorem mem_lanesOnce {d a : Reg} {l : Nat} (h : l ∈ lanesOnce d a c) : c.lanes.getLsbD l = true := by
  unfold lanesOnce at h
  split at h
  · exact List.mem_singleton.mp h ▸ (lowest_mem hi.lanes).2
  · exact (mem_lanesOf.mp h).2

theorem storeLanes_sub {d a : Reg} {l : Nat} (h : l ∈ lanesOnce d a c) {k : Nat} (hk : (storeLanes d a c.lanes l).getLsbD k = true) :
    c.lanes.getLsbD k = true ∧ k < w.threads.length := by
  have hmem : c.lanes.getLsbD k = true := by
    unfold storeLanes at hk
    split at hk
    · exact hk
    · rw [getLsbD_laneBit] at hk
      simp only [Bool.and_eq_true, decide_eq_true_eq] at hk
      exact hk.2 ▸ mem_lanesOnce hi h
  exact ⟨hmem, hi.lt hmem⟩

omit hi in
theorem mem_storeLanes {d a : Reg} {l k : Nat} (hk : c.lanes.getLsbD k = true) (h : k = l ∨ (d.isUni && a.isUni) = true) :
    (storeLanes d a c.lanes l).getLsbD k = true := by
  unfold storeLanes
  split
  · exact hk
  · next hone =>
    obtain rfl : k = l := h.resolve_right hone
    simp [lt_of_mask hk]

/-- The word's effect: the lanes' stores in turn, then the acquire half. -/
theorem storeAct_eq (z : Width) (d a : Reg) (ea : Ea) (p : Scope) (r : Ord) (pol : CachePol) :
    storeAct z d a ea p r pol s c w c.lanes =
      let t := (lanesOnce d a c).foldl (State.storeLane w z d ea p r pol (storeLanes d a c.lanes) s) s
      if ordAcq r then t.acquire w.core p else t := by
  unfold storeAct
  rw [lanesOf_storing hi]
  rfl

end

/-- The acquire half at the end of a word (R107). -/
structure Acquired (M : LaneMask) (id : Nat) (s t : State) : Prop where
  run      : StoreRun M id s t
  waves    : t.waves = s.waves
  mem      : t.mem = s.mem
  versions : t.versions = s.versions
  flows    : t.flows = s.flows
  fills    : FillsStay s t
  view     : ∀ line, t.homeView line = s.homeView line

theorem acquired_half (M : LaneMask) (id : Nat) (s : State) (r : Ord) (core : Nat) (p : Scope) :
    Acquired M id s (if ordAcq r then s.acquire core p else s) := by
  split
  · have h := acquire_rest s core p
    refine ⟨?_, by rw [h], by rw [h], by rw [h], by rw [h], (acquire_stays s core p).1.stay, homeView_acquire s core p⟩
    rw [h]
    exact .of_rung (.refl _) (fun _ => rfl) rfl
  · exact ⟨.refl .., rfl, rfl, rfl, rfl, .of_eq rfl, fun _ => rfl⟩

/-- The end of a word leaves all storage. -/
theorem homeView_end {s t : State} {ws : List Wave} {gs : List Gang} {f p n : Nat}
    (h : t = { s with cur := none, waves := ws, gangs := gs, fresh := f, picks := p, nextId := n }) (line : Nat) :
    t.homeView line = s.homeView line := homeView_congr (by rw [h]) (by rw [h]) line

/-! ## The two kinds of gang -/

section
variable {s : State} {c : Issue} {w : Wave} {z : Width} {d a : Reg} {ea : Ea} {p : Scope} {r : Ord} {pol : CachePol} {pa : Nat → Nat}
  (hi : Issuing s c w) (hacc : ∀ l ∈ lanesOnce d a c, s.access w .write (ea s w l) z.bytes = .ok (pa l) ∧ pa l % z.bytes = 0)
include hi hacc

theorem storeLanes_run : ∀ (ls : List Nat) (t : State), (∀ l ∈ ls, l ∈ lanesOnce d a c) →
    StoreRun c.lanes w.id t (ls.foldl (State.storeLane w z d ea p r pol (storeLanes d a c.lanes) s) t)
  | [], t, _ => .refl _ _ t
  | l :: ls, t, h => by
    have hl := h l List.mem_cons_self
    exact (storeLane_run (hacc l hl).1 fun k hk => (storeLanes_sub hi hl hk).1).trans
      (storeLanes_run ls _ fun k hk => h k (List.mem_cons_of_mem _ hk))

/-- The frame of the word. -/
theorem store_frame : ∃ w', let t := (storeAct z d a ea p r pol s c w c.lanes).finishIssue
    MemoryFrame s c w t w' ∧ StorageOnly s t := by
  have hrun := storeLanes_run (p := p) (r := r) (pol := pol) hi hacc (lanesOnce d a c) s fun _ hl => hl
  obtain ⟨-, w', -, hframe, honly, -⟩ := (hrun.trans (acquired_half c.lanes w.id _ r w.core p).run).ends hi
  rw [storeAct_eq hi]
  exact ⟨w', hframe, honly⟩

/-- The word in a versioned gang. -/
theorem store_versioned (hver : s.versioned (s.gangOf w) = true) :
    let t := (storeAct z d a ea p r pol s c w c.lanes).finishIssue
    t.mem = s.mem ∧ t.flows = s.flows ∧ (∀ line, t.homeView line = s.homeView line) ∧
      ∀ line x n, n < 64 → lineByte (t.overlay (s.gangOf w).id line x) n =
        (storedAt z.bytes (laneValues s w z d pa (lanesOnce d a c)) (64 * line + n)).getD
          (lineByte (s.overlay (s.gangOf w).id line x) n) := by
  obtain ⟨u, hu⟩ : ∃ u, u = (lanesOnce d a c).foldl (State.storeLane w z d ea p r pol (storeLanes d a c.lanes) s) s := ⟨_, rfl⟩
  obtain ⟨y, hy⟩ : ∃ y, y = if ordAcq r then u.acquire w.core p else u := ⟨_, rfl⟩
  have hdone : VersionsDone s w z d pa c.lanes (lanesOnce d a c) u := hu ▸
    versionsDone_fold hacc hver (fun l hl k hk => (storeLanes_sub hi hl hk).1) _ [] s rfl (versionsDone_start ..)
  have hacq : Acquired c.lanes w.id u y := hy ▸ acquired_half ..
  obtain ⟨v, w', -, -, -, -, ws, gs, f, q, n, hend⟩ := (hdone.run.trans hacq.run).ends hi
  rw [storeAct_eq hi, ← hu]
  dsimp only
  rw [← hy]
  refine ⟨?_, ?_, fun line => ?_, fun line x n hn => ?_⟩
  · rw [hend]; exact hacq.mem.trans hdone.mem
  · rw [hend]; exact hacq.flows.trans hdone.flows
  · exact (homeView_end hend line).trans ((hacq.view line).trans (homeView_congr hdone.mem hdone.sect line))
  · rw [← hdone.bytes line x n hn, overlay_congr (s := y) (by rw [hend]), overlay_congr hacq.versions]

/-- The word in a gang that is not versioned. -/
theorem store_plain (hver : s.versioned (s.gangOf w) = false)
    (hroom : 4 ≤ z.bytes ∨ (lanesOnce d a c).length ≤ 1 ∨ SectRoom w.core s) (hids : IdsBelow s) : ∃ v w',
    let t := (storeAct z d a ea p r pol s c w c.lanes).finishIssue
    t.wave? w.id = some w' ∧ t.versions = s.versions ∧
      (∀ l, c.lanes.getLsbD l = true → (w'.thread l).acqs = (v.thread l).acqs ∧ (w'.thread l).rels = (v.thread l).rels) ∧
      ((∀ l ∈ lanesOnce d a c, Coherent s (pa l / 64)) → ∀ A, byteNow t A =
        if homeOfLine (A / 64) = none ∨ homeOfLine (A / 64) = some (coreDie w.core) then
          (storedAt z.bytes (laneValues s w z d pa ((lanesOnce d a c).filter fun l => !(laneHeld s w z d pol pa l))) A).getD
            (byteNow s A)
        else byteNow s A) ∧
      (∀ l ∈ lanesOnce d a c, laneHeld s w z d pol pa l = true →
        StoreHeld w p r pol (storeLanes d a c.lanes l) (laneWrite s w z d pa l) t v) ∧
      ∀ l ∈ lanesOnce d a c, ∀ h, homeOfLine (pa l / 64) = some h → h ≠ coreDie w.core →
        StorePublished w p r (storeLanes d a c.lanes l) (laneWrite s w z d pa l) (DieKnown (coreDie w.core) s) h t v := by
  obtain ⟨u, hu⟩ : ∃ u, u = (lanesOnce d a c).foldl (State.storeLane w z d ea p r pol (storeLanes d a c.lanes) s) s := ⟨_, rfl⟩
  obtain ⟨y, hy⟩ : ∃ y, y = if ordAcq r then u.acquire w.core p else u := ⟨_, rfl⟩
  have hw : s.wave? w.id = some w := hi.waveId ▸ hi.wave
  obtain ⟨v, hdone⟩ := storesDone_fold (p := p) (r := r) (pol := pol) (M := c.lanes) hacc hver hroom
    (fun l hl k hk => storeLanes_sub hi hl hk) hw (lanesOnce d a c) [] s w rfl (storesDone_start (d := d) hw hids)
  rw [← hu] at hdone
  have hacq : Acquired c.lanes w.id u y := hy ▸ acquired_half ..
  obtain ⟨v1, w', hv1, hframe, -, hnoted, ws, gs, f, q, n, hend⟩ := (hdone.run.trans hacq.run).ends hi
  obtain rfl : v1 = v := by
    have : y.wave? w.id = u.wave? w.id := by rw [State.wave?, hacq.waves]; rfl
    exact Option.some.inj (hv1.symm.trans (this.trans hdone.wave))
  have hfills : FillsStay y y.finishIssue := .of_eq (by rw [hend])
  have hpubs : PubsStay y y.finishIssue := .of_eq (by rw [hend])
  obtain ⟨hmine, -⟩ := hframe
  rw [storeAct_eq hi, ← hu]
  dsimp only
  rw [← hy]
  refine ⟨v1, w', hmine, ?_, hnoted, fun hc A => ?_, fun l hl hheld => ?_, fun l hl h hh hne => ?_⟩
  · rw [hend]; exact hacq.versions.trans hdone.versions
  · rw [← hdone.bytes hc A]
    unfold byteNow
    rw [homeView_end hend, hacq.view]
  · exact (hdone.held l hl hheld).kept (hacq.fills.trans hfills) (.of_eq rfl) (.refl _ w v1)
  · exact (hdone.sent l hl h hh hne).kept ((PubsStay.of_eq hacq.flows).trans hpubs) (.of_eq rfl) (.refl _ w v1)

end

/-- What the threads have noted at the end of the stores stands in the wave at the end of the word. -/
theorem Wave.Notes.ended {c : Issue} {v w' : Wave} {d a : Reg} {l : Nat} {r : Ord} {x : OrdRef}
    (hw : ∀ l, c.lanes.getLsbD l = true → (w'.thread l).acqs = (v.thread l).acqs ∧ (w'.thread l).rels = (v.thread l).rels)
    (h : v.Notes (storeLanes d a c.lanes l) r x) {k : Nat} (hk : c.lanes.getLsbD k = true)
    (hm : k = l ∨ (d.isUni && a.isUni) = true) :
    (ordAcq r = true → x ∈ (w'.thread k).acqs) ∧ (ordRel r = true → x ∈ (w'.thread k).rels) := by
  rw [(hw k hk).1, (hw k hk).2]
  exact h k (mem_storeLanes hk hm)

/-- Settles O17: `store_frame` for what it leaves, `store_versioned` and `store_plain` for the two kinds of gang. -/
theorem storeResults : Obligations.StoreResults := by
  intro s c w i z d a ea p r pol hf _ hi ha hc hgo pa hacc put stored held mates
  obtain ⟨f, rfl, hexec⟩ := store_exec hf hi ha hc hgo
  obtain ⟨w', hframe, honly⟩ := store_frame (p := p) (r := r) (pol := pol) hi hacc
  refine ⟨_, w', hexec, hframe, honly, fun hver => ?_, fun hver hroom hids => ?_⟩
  · exact store_versioned (p := p) (r := r) (pol := pol) hi hacc hver
  · obtain ⟨v, w1, hw1, hversions, hnoted, hbytes, hheld, hsent⟩ := store_plain (p := p) (r := r) (pol := pol) hi hacc hver hroom hids
    obtain rfl : w1 = w' := Option.some.inj (hw1.symm.trans hframe.1)
    refine ⟨hversions, hbytes, fun l hl hh => ?_, fun l hl h hh hne => ?_⟩
    · obtain ⟨x, ⟨g, hg, hsec, hline, hx⟩, hwave, hcore, hpol, hput, hlanes, hn⟩ := hheld l hl hh
      refine ⟨g, hg, hsec, by rw [hline, hput]; rfl, x, hx, hwave, hcore, hpol, hput, hlanes, fun h1 h2 k hk => ?_⟩
      exact (hn h1 h2).ended hnoted hk.1 hk.2
    · obtain ⟨stamp, hbody, hn⟩ := hsent l hl h hh hne
      refine ⟨stamp, hbody, fun hscope hex hlen k hk => ?_⟩
      exact (hn hscope ⟨hex, hlen⟩).ended hnoted hk.1 hk.2

end Sys2Proof.Machine
end
